-- ==== Sys2Proof/Word.lean ====
section
/-! DEFINITION. The plain word types of the SK7: bytes, 64-bit registers (R11), 32-bit lanes and
64-bit scalar registers of a context (Table 03-2). -/

namespace Sys2Proof

/-- One byte; memory is addressed in bytes and multi-byte fields are little-endian (R10). -/
abbrev Byte := BitVec 8

/-- One 64-bit register or scalar register word (R11, Table 03-2). -/
abbrev Word := BitVec 64

/-- One 32-bit lane of a vector register (Table 03-2). -/
abbrev Lane := BitVec 32

end Sys2Proof
end

