-- ==== Sys2Proof/Machine/Bits.lean ====
section
/-! DEFINITION. Bit fields, byte order and sparse maps: the helpers every other part of the model uses.
Bit ranges are written [hi:lo], both inclusive (Table 00-2); bytes are little-endian (R10). -/

namespace Sys2Proof.Machine

/-- Bits [hi:lo] of a number. -/
def bits (v hi lo : Nat) : Nat := (v >>> lo) % 2 ^ (hi + 1 - lo)

/-- Bit `i` of a number. -/
def bit (v i : Nat) : Bool := v.testBit i

/-- `v` with bits [hi:lo] replaced by the low bits of `x`. -/
def putBits (v hi lo x : Nat) : Nat :=
  let w := 2 ^ (hi + 1 - lo)
  v - bits v hi lo * 2 ^ lo + (x % w) * 2 ^ lo

/-- Bits [hi:lo] of a register word. -/
def wget (v : Word) (hi lo : Nat) : Nat := bits v.toNat hi lo

/-- A register word with bits [hi:lo] replaced. -/
def wput (v : Word) (hi lo x : Nat) : Word := BitVec.ofNat 64 (putBits v.toNat hi lo x)

/-- The number whose little-endian bytes are `l` (R10). -/
def leNat : List Byte → Nat
  | [] => 0
  | b :: l => b.toNat + 256 * leNat l

/-- The `n` little-endian bytes of a number (R10). -/
def leBytes : Nat → Nat → List Byte
  | 0, _ => []
  | n + 1, v => BitVec.ofNat 8 v :: leBytes n (v / 256)

/-- A field of `w` bits read as a two's-complement number. -/
def signed (w v : Nat) : Int :=
  let u := v % 2 ^ w
  if u < 2 ^ (w - 1) then (u : Int) else (u : Int) - (2 ^ w : Nat)

/-- The low `w` bits of an integer in two's complement. -/
def unsigned (w : Nat) (x : Int) : Nat := (x % (2 ^ w : Nat)).toNat

/-- Is a number between two others? -/
def inside (lo hi x : Nat) : Bool := decide (lo ≤ x) && decide (x ≤ hi)

/-- 1 for true, 0 for false. -/
def b2n (b : Bool) : Nat := if b then 1 else 0

/-- `n` divided by `m`, rounded up. -/
def ceilDiv (n m : Nat) : Nat := (n + m - 1) / m

/-- Element `i` of a list, `d` beyond its end. -/
def nth {α : Type} (d : α) : List α → Nat → α
  | [], _ => d
  | x :: _, 0 => x
  | _ :: l, i + 1 => nth d l i

/-- A list with element `i` replaced; the list itself where `i` is beyond its end. -/
def setNth {α : Type} : List α → Nat → α → List α
  | [], _, _ => []
  | _ :: l, 0, y => y :: l
  | x :: l, i + 1, y => x :: setNth l i y

/-- The list 0, 1, …, n − 1 mapped by `f`. -/
def tab {α : Type} (n : Nat) (f : Nat → α) : List α := (List.range n).map f

/-- Number of members of a list of numbers below `n` that satisfy `p`. -/
def countUpTo (n : Nat) (p : Nat → Bool) : Nat := ((List.range n).filter p).length

/-- Bit mask of the numbers below `n` that satisfy `p`. -/
def maskOf (n : Nat) (p : Nat → Bool) : Nat :=
  (List.range n).foldl (fun m i => if p i then m + 2 ^ i else m) 0

/-- The least of two optional numbers. -/
def minOpt : Option Nat → Option Nat → Option Nat
  | none, b => b
  | a, none => a
  | some a, some b => some (min a b)

/-! ### Sparse maps

A map from numbers to values is a list of pairs with strictly rising keys; a key that is not listed
reads as the map's default, and no listed entry equals it. -/

/-- The value at key `k`. -/
def SMap.get {α : Type} (d : α) : List (Nat × α) → Nat → α
  | [], _ => d
  | (k, v) :: l, a => if a = k then v else SMap.get d l a

/-- The entry at key `k`, none where it is not listed. -/
def SMap.find {α : Type} : List (Nat × α) → Nat → Option α
  | [], _ => none
  | (k, v) :: l, a => if a = k then some v else SMap.find l a

/-- The map without key `a`. -/
def SMap.erase {α : Type} : List (Nat × α) → Nat → List (Nat × α)
  | [], _ => []
  | (k, v) :: l, a => if a = k then l else (k, v) :: SMap.erase l a

/-- The map with a value that is not the default put at key `a`. -/
def SMap.insert {α : Type} : List (Nat × α) → Nat → α → List (Nat × α)
  | [], a, x => [(a, x)]
  | (k, v) :: l, a, x =>
    if a < k then (a, x) :: (k, v) :: l
    else if a = k then (a, x) :: l
    else (k, v) :: SMap.insert l a x

/-- The map with key `a` set to `x`; setting the default removes the entry. -/
def SMap.set {α : Type} [DecidableEq α] (d : α) (m : List (Nat × α)) (a : Nat) (x : α) : List (Nat × α) :=
  if x = d then SMap.erase m a else SMap.insert m a x

/-- Every key above `b`, strictly rising, and no entry equal to the default. -/
def SMap.wfFrom {α : Type} [DecidableEq α] (d : α) : Nat → List (Nat × α) → Bool
  | _, [] => true
  | b, (k, v) :: l => decide (b ≤ k) && !decide (v = d) && SMap.wfFrom d (k + 1) l

/-- The canonical form of a sparse map. -/
def SMap.wf {α : Type} [DecidableEq α] (d : α) (m : List (Nat × α)) : Bool := SMap.wfFrom d 0 m

/-- The entries with keys from `a` to `a + n − 1`. -/
def SMap.slice {α : Type} (m : List (Nat × α)) (a n : Nat) : List (Nat × α) :=
  m.filter (fun p => decide (a ≤ p.1) && decide (p.1 < a + n))

/-- The map with every key from `a` to `a + n − 1` at the default. -/
def SMap.clear {α : Type} (m : List (Nat × α)) (a n : Nat) : List (Nat × α) :=
  m.filter (fun p => !(decide (a ≤ p.1) && decide (p.1 < a + n)))

/-- The map with a list of values put at keys `a`, `a + 1`, …. -/
def SMap.putList {α : Type} [DecidableEq α] (d : α) : List (Nat × α) → Nat → List α → List (Nat × α)
  | m, _, [] => m
  | m, a, x :: l => SMap.putList d (SMap.set d m a x) (a + 1) l

/-- The values at keys `a` to `a + n − 1`. -/
def SMap.getList {α : Type} (d : α) (m : List (Nat × α)) (a : Nat) : Nat → List α
  | 0 => []
  | n + 1 => SMap.get d m a :: SMap.getList d m (a + 1) n

/-- The map with the range [src, src + n) of `from'` copied to [dst, dst + n). -/
def SMap.copy {α : Type} [DecidableEq α] (d : α) (from' m : List (Nat × α)) (src dst n : Nat) : List (Nat × α) :=
  (SMap.slice from' src n).foldl (fun acc p => SMap.set d acc (p.1 - src + dst) p.2) (SMap.clear m dst n)

end Sys2Proof.Machine
end

