-- ==== Sys2Proof/Machine/Insn.lean ====
section
/-! DEFINITION. Operands of the core instructions (Tables 03-3, 03-6, 03-7, 03-8, 04-7, 05-1, 06-3, 08-1
and 09-2), each field under the manual's name, and the reading of a 128-bit instruction word into them. -/

namespace Sys2Proof.Machine

/-- Instruction header (Table 03-3), opcode and operands apart. -/
structure Hdr where
  wait : Nat := 0
  signal : Nat := 0
  haltOk : Bool := false
  deriving DecidableEq, Repr

/-- Where an instruction issues: logical core and context. -/
structure Site where
  core : Nat
  ctx : Nat
  deriving DecidableEq, Repr

/-- Operands of MMA (Table 03-6). -/
structure MmaOps where
  fmtA : Nat := 0
  fmtB : Nat := 0
  anchorMode : Nat := 0
  accC : Nat := 0
  clear : Nat := 0
  mM1 : Nat := 0
  nM1 : Nat := 0
  kM1 : Nat := 0
  rowMask : Nat := 0
  colMask : Nat := 0
  bank : Nat := 0
  aReg : Nat := 0
  bReg : Nat := 0
  cReg : Nat := 0
  xslotReg : Nat := 0
  anchor : Nat := 0
  deriving DecidableEq, Repr

/-- The fields of a word, by the bit ranges of Table 03-6. -/
def MmaOps.ofWord (w : Nat) : MmaOps :=
  ⟨bits w 107 104, bits w 103 100, bits w 99 98, bits w 97 97, bits w 96 96, bits w 95 89, bits w 88 81, bits w 80 68, bits w 67 65, bits w 64 62, bits w 61 60, bits w 59 54, bits w 53 48, bits w 47 42, bits w 41 36, bits w 35 26⟩

/-- Every field within the width Table 03-6 gives it. -/
def MmaOps.inWidth (o : MmaOps) : Bool :=
  decide (o.fmtA < 16) && decide (o.fmtB < 16) && decide (o.anchorMode < 4) && decide (o.accC < 2) && decide (o.clear < 2) && decide (o.mM1 < 128) && decide (o.nM1 < 256) && decide (o.kM1 < 8192) && decide (o.rowMask < 8) && decide (o.colMask < 8) && decide (o.bank < 4) && decide (o.aReg < 64) && decide (o.bReg < 64) && decide (o.cReg < 64) && decide (o.xslotReg < 64) && decide (o.anchor < 1024)

/-- The operand bits of an instruction word. -/
def MmaOps.bits (o : MmaOps) : Nat :=
  o.fmtA * 2 ^ 104 + o.fmtB * 2 ^ 100 + o.anchorMode * 2 ^ 98 + o.accC * 2 ^ 97 + o.clear * 2 ^ 96 + o.mM1 * 2 ^ 89 + o.nM1 * 2 ^ 81 + o.kM1 * 2 ^ 68 + o.rowMask * 2 ^ 65 + o.colMask * 2 ^ 62 + o.bank * 2 ^ 60 + o.aReg * 2 ^ 54 + o.bReg * 2 ^ 48 + o.cReg * 2 ^ 42 + o.xslotReg * 2 ^ 36 + o.anchor * 2 ^ 26

/-- Operands of DRAIN (Table 03-7). -/
structure DrainOps where
  fmtOut : Nat := 0
  rnd : Nat := 0
  keep : Nat := 0
  ownerWait : Nat := 0
  bank : Nat := 0
  mM1 : Nat := 0
  nM1 : Nat := 0
  rowMask : Nat := 0
  colMask : Nat := 0
  outReg : Nat := 0
  xslotReg : Nat := 0
  rngReg : Nat := 0
  deriving DecidableEq, Repr

/-- The fields of a word, by the bit ranges of Table 03-7. -/
def DrainOps.ofWord (w : Nat) : DrainOps :=
  ⟨bits w 107 104, bits w 103 101, bits w 100 100, bits w 99 99, bits w 97 96, bits w 95 89, bits w 88 81, bits w 80 78, bits w 77 75, bits w 74 69, bits w 68 63, bits w 62 57⟩

/-- Every field within the width Table 03-7 gives it. -/
def DrainOps.inWidth (o : DrainOps) : Bool :=
  decide (o.fmtOut < 16) && decide (o.rnd < 8) && decide (o.keep < 2) && decide (o.ownerWait < 2) && decide (o.bank < 4) && decide (o.mM1 < 128) && decide (o.nM1 < 256) && decide (o.rowMask < 8) && decide (o.colMask < 8) && decide (o.outReg < 64) && decide (o.xslotReg < 64) && decide (o.rngReg < 64)

/-- The operand bits of an instruction word. -/
def DrainOps.bits (o : DrainOps) : Nat :=
  o.fmtOut * 2 ^ 104 + o.rnd * 2 ^ 101 + o.keep * 2 ^ 100 + o.ownerWait * 2 ^ 99 + o.bank * 2 ^ 96 + o.mM1 * 2 ^ 89 + o.nM1 * 2 ^ 81 + o.rowMask * 2 ^ 78 + o.colMask * 2 ^ 75 + o.outReg * 2 ^ 69 + o.xslotReg * 2 ^ 63 + o.rngReg * 2 ^ 57

/-- Operands of XMAX (Table 03-8). -/
structure XmaxOps where
  fmtA : Nat := 0
  fmtB : Nat := 0
  mM1 : Nat := 0
  nM1 : Nat := 0
  kM1 : Nat := 0
  rowMask : Nat := 0
  colMask : Nat := 0
  aReg : Nat := 0
  bReg : Nat := 0
  xslotReg : Nat := 0
  part : Nat := 0
  partsM1 : Nat := 0
  bank : Nat := 0
  deriving DecidableEq, Repr

/-- The fields of a word, by the bit ranges of Table 03-8. -/
def XmaxOps.ofWord (w : Nat) : XmaxOps :=
  ⟨bits w 107 104, bits w 103 100, bits w 99 93, bits w 92 85, bits w 84 72, bits w 71 69, bits w 68 66, bits w 65 60, bits w 59 54, bits w 53 48, bits w 47 42, bits w 41 36, bits w 35 34⟩

/-- Every field within the width Table 03-8 gives it. -/
def XmaxOps.inWidth (o : XmaxOps) : Bool :=
  decide (o.fmtA < 16) && decide (o.fmtB < 16) && decide (o.mM1 < 128) && decide (o.nM1 < 256) && decide (o.kM1 < 8192) && decide (o.rowMask < 8) && decide (o.colMask < 8) && decide (o.aReg < 64) && decide (o.bReg < 64) && decide (o.xslotReg < 64) && decide (o.part < 64) && decide (o.partsM1 < 64) && decide (o.bank < 4)

/-- The operand bits of an instruction word. -/
def XmaxOps.bits (o : XmaxOps) : Nat :=
  o.fmtA * 2 ^ 104 + o.fmtB * 2 ^ 100 + o.mM1 * 2 ^ 93 + o.nM1 * 2 ^ 85 + o.kM1 * 2 ^ 72 + o.rowMask * 2 ^ 69 + o.colMask * 2 ^ 66 + o.aReg * 2 ^ 60 + o.bReg * 2 ^ 54 + o.xslotReg * 2 ^ 48 + o.part * 2 ^ 42 + o.partsM1 * 2 ^ 36 + o.bank * 2 ^ 34

/-- Operands of XMERGE (Table 03-8). -/
structure XmergeOps where
  xslotReg : Nat := 0
  bank : Nat := 0
  mM1 : Nat := 0
  nM1 : Nat := 0
  deriving DecidableEq, Repr

/-- The fields of a word, by the bit ranges of Table 03-8. -/
def XmergeOps.ofWord (w : Nat) : XmergeOps :=
  ⟨bits w 107 102, bits w 101 100, bits w 99 93, bits w 92 85⟩

/-- Every field within the width Table 03-8 gives it. -/
def XmergeOps.inWidth (o : XmergeOps) : Bool :=
  decide (o.xslotReg < 64) && decide (o.bank < 4) && decide (o.mM1 < 128) && decide (o.nM1 < 256)

/-- The operand bits of an instruction word. -/
def XmergeOps.bits (o : XmergeOps) : Nat :=
  o.xslotReg * 2 ^ 102 + o.bank * 2 ^ 100 + o.mM1 * 2 ^ 93 + o.nM1 * 2 ^ 85

/-- Operands of CLEARB (Table 03-8). -/
structure ClearbOps where
  bankMask : Nat := 0
  deriving DecidableEq, Repr

/-- The fields of a word, by the bit ranges of Table 03-8. -/
def ClearbOps.ofWord (w : Nat) : ClearbOps :=
  ⟨bits w 107 104⟩

/-- Every field within the width Table 03-8 gives it. -/
def ClearbOps.inWidth (o : ClearbOps) : Bool :=
  decide (o.bankMask < 16)

/-- The operand bits of an instruction word. -/
def ClearbOps.bits (o : ClearbOps) : Nat :=
  o.bankMask * 2 ^ 104

/-- Operands of LD and ST (Table 03-8). -/
structure MemOps where
  vreg : Nat := 0
  addrReg : Nat := 0
  mask : Nat := 0
  width : Nat := 0
  deriving DecidableEq, Repr

/-- The fields of a word, by the bit ranges of Table 03-8. -/
def MemOps.ofWord (w : Nat) : MemOps :=
  ⟨bits w 106 102, bits w 101 96, bits w 95 93, bits w 92 91⟩

/-- Every field within the width Table 03-8 gives it. -/
def MemOps.inWidth (o : MemOps) : Bool :=
  decide (o.vreg < 32) && decide (o.addrReg < 64) && decide (o.mask < 8) && decide (o.width < 4)

/-- The operand bits of an instruction word. -/
def MemOps.bits (o : MemOps) : Nat :=
  o.vreg * 2 ^ 102 + o.addrReg * 2 ^ 96 + o.mask * 2 ^ 93 + o.width * 2 ^ 91

/-- Operands of VOP (Table 03-8). -/
structure VopOps where
  vd : Nat := 0
  va : Nat := 0
  vb : Nat := 0
  vc : Nat := 0
  mask : Nat := 0
  rnd : Nat := 0
  fmt : Nat := 0
  deriving DecidableEq, Repr

/-- The fields of a word, by the bit ranges of Table 03-8. -/
def VopOps.ofWord (w : Nat) : VopOps :=
  ⟨bits w 99 95, bits w 94 90, bits w 89 85, bits w 84 80, bits w 79 77, bits w 76 74, bits w 73 70⟩

/-- Every field within the width Table 03-8 gives it. -/
def VopOps.inWidth (o : VopOps) : Bool :=
  decide (o.vd < 32) && decide (o.va < 32) && decide (o.vb < 32) && decide (o.vc < 32) && decide (o.mask < 8) && decide (o.rnd < 8) && decide (o.fmt < 16)

/-- The operand bits of an instruction word. -/
def VopOps.bits (o : VopOps) : Nat :=
  o.vd * 2 ^ 95 + o.va * 2 ^ 90 + o.vb * 2 ^ 85 + o.vc * 2 ^ 80 + o.mask * 2 ^ 77 + o.rnd * 2 ^ 74 + o.fmt * 2 ^ 70

/-- Operands of LACC (Table 03-8). -/
structure LaccOps where
  lidx : Nat := 0
  va : Nat := 0
  vb : Nat := 0
  vd : Nat := 0
  rnd : Nat := 0
  fmtOut : Nat := 0
  divReg : Nat := 0
  spread : Nat := 0
  deriving DecidableEq, Repr

/-- The fields of a word, by the bit ranges of Table 03-8. -/
def LaccOps.ofWord (w : Nat) : LaccOps :=
  ⟨bits w 107 99, bits w 96 92, bits w 91 87, bits w 86 82, bits w 81 79, bits w 78 75, bits w 74 69, bits w 68 68⟩

/-- Every field within the width Table 03-8 gives it. -/
def LaccOps.inWidth (o : LaccOps) : Bool :=
  decide (o.lidx < 512) && decide (o.va < 32) && decide (o.vb < 32) && decide (o.vd < 32) && decide (o.rnd < 8) && decide (o.fmtOut < 16) && decide (o.divReg < 64) && decide (o.spread < 2)

/-- The operand bits of an instruction word. -/
def LaccOps.bits (o : LaccOps) : Nat :=
  o.lidx * 2 ^ 99 + o.va * 2 ^ 92 + o.vb * 2 ^ 87 + o.vd * 2 ^ 82 + o.rnd * 2 ^ 79 + o.fmtOut * 2 ^ 75 + o.divReg * 2 ^ 69 + o.spread * 2 ^ 68

/-- Operands of MOVE (Table 03-8). -/
structure MoveOps where
  srcReg : Nat := 0
  dstReg : Nat := 0
  lenReg : Nat := 0
  deriving DecidableEq, Repr

/-- The fields of a word, by the bit ranges of Table 03-8. -/
def MoveOps.ofWord (w : Nat) : MoveOps :=
  ⟨bits w 107 102, bits w 101 96, bits w 95 90⟩

/-- Every field within the width Table 03-8 gives it. -/
def MoveOps.inWidth (o : MoveOps) : Bool :=
  decide (o.srcReg < 64) && decide (o.dstReg < 64) && decide (o.lenReg < 64)

/-- The operand bits of an instruction word. -/
def MoveOps.bits (o : MoveOps) : Nat :=
  o.srcReg * 2 ^ 102 + o.dstReg * 2 ^ 96 + o.lenReg * 2 ^ 90

/-- Operands of SEM (Table 03-8). -/
structure SemOps where
  idx : Nat := 0
  value : Nat := 0
  deriving DecidableEq, Repr

/-- The fields of a word, by the bit ranges of Table 03-8. -/
def SemOps.ofWord (w : Nat) : SemOps :=
  ⟨bits w 107 102, bits w 99 84⟩

/-- Every field within the width Table 03-8 gives it. -/
def SemOps.inWidth (o : SemOps) : Bool :=
  decide (o.idx < 64) && decide (o.value < 65536)

/-- The operand bits of an instruction word. -/
def SemOps.bits (o : SemOps) : Nat :=
  o.idx * 2 ^ 102 + o.value * 2 ^ 84

/-- Operands of BRANCH (Table 03-8). -/
structure BranchOps where
  loop : Nat := 0
  sreg : Nat := 0
  target : Nat := 0
  deriving DecidableEq, Repr

/-- The fields of a word, by the bit ranges of Table 03-8. -/
def BranchOps.ofWord (w : Nat) : BranchOps :=
  ⟨bits w 105 104, bits w 103 98, bits w 97 74⟩

/-- Every field within the width Table 03-8 gives it. -/
def BranchOps.inWidth (o : BranchOps) : Bool :=
  decide (o.loop < 4) && decide (o.sreg < 64) && decide (o.target < 16777216)

/-- The operand bits of an instruction word. -/
def BranchOps.bits (o : BranchOps) : Nat :=
  o.loop * 2 ^ 104 + o.sreg * 2 ^ 98 + o.target * 2 ^ 74

/-- Operands of NEST (Table 04-7). -/
structure NestOps where
  descOff : Nat := 0
  bodyOff : Nat := 0
  bodyLenM1 : Nat := 0
  ctxFirst : Nat := 0
  ctxCount : Nat := 0
  bankStep : Nat := 0
  deriving DecidableEq, Repr

/-- The fields of a word, by the bit ranges of Table 04-7. -/
def NestOps.ofWord (w : Nat) : NestOps :=
  ⟨bits w 107 86, bits w 85 64, bits w 63 54, bits w 53 50, bits w 49 45, bits w 44 43⟩

/-- Every field within the width Table 04-7 gives it. -/
def NestOps.inWidth (o : NestOps) : Bool :=
  decide (o.descOff < 4194304) && decide (o.bodyOff < 4194304) && decide (o.bodyLenM1 < 1024) && decide (o.ctxFirst < 16) && decide (o.ctxCount < 32) && decide (o.bankStep < 4)

/-- The operand bits of an instruction word. -/
def NestOps.bits (o : NestOps) : Nat :=
  o.descOff * 2 ^ 86 + o.bodyOff * 2 ^ 64 + o.bodyLenM1 * 2 ^ 54 + o.ctxFirst * 2 ^ 50 + o.ctxCount * 2 ^ 45 + o.bankStep * 2 ^ 43

/-- Operands of SFN (Table 05-1). -/
structure SfnOps where
  compat : Nat := 0
  vd : Nat := 0
  va : Nat := 0
  vb : Nat := 0
  mask : Nat := 0
  rnd : Nat := 0
  lidx : Nat := 0
  addrReg : Nat := 0
  deriving DecidableEq, Repr

/-- The fields of a word, by the bit ranges of Table 05-1. -/
def SfnOps.ofWord (w : Nat) : SfnOps :=
  ⟨bits w 101 101, bits w 100 96, bits w 95 91, bits w 90 86, bits w 85 83, bits w 82 80, bits w 79 71, bits w 70 65⟩

/-- Every field within the width Table 05-1 gives it. -/
def SfnOps.inWidth (o : SfnOps) : Bool :=
  decide (o.compat < 2) && decide (o.vd < 32) && decide (o.va < 32) && decide (o.vb < 32) && decide (o.mask < 8) && decide (o.rnd < 8) && decide (o.lidx < 512) && decide (o.addrReg < 64)

/-- The operand bits of an instruction word. -/
def SfnOps.bits (o : SfnOps) : Nat :=
  o.compat * 2 ^ 101 + o.vd * 2 ^ 96 + o.va * 2 ^ 91 + o.vb * 2 ^ 86 + o.mask * 2 ^ 83 + o.rnd * 2 ^ 80 + o.lidx * 2 ^ 71 + o.addrReg * 2 ^ 65

/-- Operands of ATT (Table 06-3). -/
structure AttOps where
  first : Nat := 0
  last : Nat := 0
  descOff : Nat := 0
  mM1 : Nat := 0
  rowMask : Nat := 0
  bank : Nat := 0
  lidx : Nat := 0
  qReg : Nat := 0
  outReg : Nat := 0
  lseReg : Nat := 0
  xslotReg : Nat := 0
  seqReg : Nat := 0
  rangeReg : Nat := 0
  deriving DecidableEq, Repr

/-- The fields of a word, by the bit ranges of Table 06-3. -/
def AttOps.ofWord (w : Nat) : AttOps :=
  ⟨bits w 105 105, bits w 104 104, bits w 103 82, bits w 81 75, bits w 74 72, bits w 71 70, bits w 69 61, bits w 60 55, bits w 54 49, bits w 48 43, bits w 42 37, bits w 36 31, bits w 30 25⟩

/-- Every field within the width Table 06-3 gives it. -/
def AttOps.inWidth (o : AttOps) : Bool :=
  decide (o.first < 2) && decide (o.last < 2) && decide (o.descOff < 4194304) && decide (o.mM1 < 128) && decide (o.rowMask < 8) && decide (o.bank < 4) && decide (o.lidx < 512) && decide (o.qReg < 64) && decide (o.outReg < 64) && decide (o.lseReg < 64) && decide (o.xslotReg < 64) && decide (o.seqReg < 64) && decide (o.rangeReg < 64)

/-- The operand bits of an instruction word. -/
def AttOps.bits (o : AttOps) : Nat :=
  o.first * 2 ^ 105 + o.last * 2 ^ 104 + o.descOff * 2 ^ 82 + o.mM1 * 2 ^ 75 + o.rowMask * 2 ^ 72 + o.bank * 2 ^ 70 + o.lidx * 2 ^ 61 + o.qReg * 2 ^ 55 + o.outReg * 2 ^ 49 + o.lseReg * 2 ^ 43 + o.xslotReg * 2 ^ 37 + o.seqReg * 2 ^ 31 + o.rangeReg * 2 ^ 25

/-- Operands of WIN (Table 08-1). -/
structure WinOps where
  descOff : Nat := 0
  stageOff : Nat := 0
  posReg : Nat := 0
  bReg : Nat := 0
  bank : Nat := 0
  rowMask : Nat := 0
  colMask : Nat := 0
  nM1 : Nat := 0
  anchorMode : Nat := 0
  clear : Nat := 0
  xslotReg : Nat := 0
  anchor : Nat := 0
  deriving DecidableEq, Repr

/-- The fields of a word, by the bit ranges of Table 08-1. -/
def WinOps.ofWord (w : Nat) : WinOps :=
  ⟨bits w 104 83, bits w 82 61, bits w 60 55, bits w 54 49, bits w 48 47, bits w 46 44, bits w 43 41, bits w 40 33, bits w 32 31, bits w 30 30, bits w 29 24, bits w 23 14⟩

/-- Every field within the width Table 08-1 gives it. -/
def WinOps.inWidth (o : WinOps) : Bool :=
  decide (o.descOff < 4194304) && decide (o.stageOff < 4194304) && decide (o.posReg < 64) && decide (o.bReg < 64) && decide (o.bank < 4) && decide (o.rowMask < 8) && decide (o.colMask < 8) && decide (o.nM1 < 256) && decide (o.anchorMode < 4) && decide (o.clear < 2) && decide (o.xslotReg < 64) && decide (o.anchor < 1024)

/-- The operand bits of an instruction word. -/
def WinOps.bits (o : WinOps) : Nat :=
  o.descOff * 2 ^ 83 + o.stageOff * 2 ^ 61 + o.posReg * 2 ^ 55 + o.bReg * 2 ^ 49 + o.bank * 2 ^ 47 + o.rowMask * 2 ^ 44 + o.colMask * 2 ^ 41 + o.nM1 * 2 ^ 33 + o.anchorMode * 2 ^ 31 + o.clear * 2 ^ 30 + o.xslotReg * 2 ^ 24 + o.anchor * 2 ^ 14

/-- Operands of RNG (Table 09-2). -/
structure RngOps where
  vd : Nat := 0
  mask : Nat := 0
  nameReg : Nat := 0
  wordSreg : Nat := 0
  subBase : Nat := 0
  descOff : Nat := 0
  rowSreg : Nat := 0
  outSreg : Nat := 0
  deriving DecidableEq, Repr

/-- The fields of a word, by the bit ranges of Table 09-2. -/
def RngOps.ofWord (w : Nat) : RngOps :=
  ⟨bits w 103 99, bits w 98 96, bits w 95 90, bits w 89 84, bits w 83 75, bits w 74 53, bits w 52 47, bits w 46 41⟩

/-- Every field within the width Table 09-2 gives it. -/
def RngOps.inWidth (o : RngOps) : Bool :=
  decide (o.vd < 32) && decide (o.mask < 8) && decide (o.nameReg < 64) && decide (o.wordSreg < 64) && decide (o.subBase < 512) && decide (o.descOff < 4194304) && decide (o.rowSreg < 64) && decide (o.outSreg < 64)

/-- The operand bits of an instruction word. -/
def RngOps.bits (o : RngOps) : Nat :=
  o.vd * 2 ^ 99 + o.mask * 2 ^ 96 + o.nameReg * 2 ^ 90 + o.wordSreg * 2 ^ 84 + o.subBase * 2 ^ 75 + o.descOff * 2 ^ 53 + o.rowSreg * 2 ^ 47 + o.outSreg * 2 ^ 41

/-- A core instruction as it stands in a stream, a common image or a body (Table 03-4). -/
inductive CoreInsn where
  | nop
  | mma (o : MmaOps)
  | drain (o : DrainOps)
  | clearb (o : ClearbOps)
  | xmax (o : XmaxOps)
  | xmerge (o : XmergeOps)
  | vop (f : Nat) (o : VopOps)
  | lacc (op : Nat) (o : LaccOps)
  | sfn (f : Nat) (o : SfnOps)
  | rng (op : Nat) (o : RngOps)
  | ld (o : MemOps)
  | st (o : MemOps)
  | move (o : MoveOps)
  | sem (op : Nat) (o : SemOps)
  | branch (cond : Nat) (o : BranchOps)
  | att (op : Nat) (o : AttOps)
  | win (op : Nat) (o : WinOps)
  | nest (o : NestOps)
  | halt
  deriving DecidableEq, Repr

/-- Bits of a word that Tables 03-3 to 09-2 leave reserved under an opcode; they must be zero (R86). -/
def reservedBits (op w : Nat) : Nat :=
  let used : Nat := match op with
    | 1 => 0xffffffffffffffffffffc000000
    | 2 => 0xffbfffffffffe00000000000000
    | 4 => 0xffffffffffffffffffc00000000
    | 5 => 0xfffffe000000000000000000000
    | 3 => 0xf00000000000000000000000000
    | 12 => 0x7fff80000000000000000000000
    | 13 => 0x7fff80000000000000000000000
    | 8 => 0xfffffffffc00000000000000000
    | 9 => 0xffffffffff00000000000000000
    | 16 => 0xffffc0000000000000000000000
    | 24 => 0xffffff000000000000000000000
    | 25 => 0xffffffffc000000000000000000
    | 62 => 0xffffffffffffffff80000000000
    | 10 => 0xffffffffffe0000000000000000
    | 32 => 0xffffffffffffffffffffe000000
    | 33 => 0xfffffffffffffffffffffffc000
    | 11 => 0xffffffffffffffffe0000000000
    | _ => 0
  (w % 2 ^ 108) &&& (2 ^ 108 - 1 - used) ||| (if bit w 108 then 2 ^ 108 else 0)

/-- The header of an instruction word (Table 03-3). -/
def Hdr.ofWord (w : Nat) : Hdr := ⟨bits w 121 116, bits w 115 110, bit w 109⟩

/-- The instruction a word holds; none for a reserved opcode (Table 03-4). Log entry 28 applies (DESIGN CHOICE). -/
def CoreInsn.ofWord (w : Nat) : Option CoreInsn :=
  match bits w 127 122 with
  | 0x00 => some .nop
  | 0x01 => some (.mma (.ofWord w))
  | 0x02 => some (.drain (.ofWord w))
  | 0x03 => some (.clearb (.ofWord w))
  | 0x04 => some (.xmax (.ofWord w))
  | 0x05 => some (.xmerge (.ofWord w))
  | 0x08 => some (.vop (bits w 107 100) (.ofWord w))
  | 0x09 => some (.lacc (bits w 98 97) (.ofWord w))
  | 0x0a => some (.sfn (bits w 107 102) (.ofWord w))
  | 0x0b => some (.rng (bits w 107 104) (.ofWord w))
  | 0x0c => some (.ld (.ofWord w))
  | 0x0d => some (.st (.ofWord w))
  | 0x10 => some (.move (.ofWord w))
  | 0x18 => some (.sem (bits w 101 100) (.ofWord w))
  | 0x19 => some (.branch (bits w 107 106) (.ofWord w))
  | 0x20 => some (.att (bits w 107 106) (.ofWord w))
  | 0x21 => some (.win (bits w 107 105) (.ofWord w))
  | 0x3e => some (.nest (.ofWord w))
  | 0x3f => some .halt
  | _ => none

/-- The word of an instruction under a header: opcode [127:122], `WAIT` [121:116], `SIGNAL` [115:110], `HALT_OK` 109 and the
operands below bit 108 (Tables 03-3 and 03-4). -/
def insnWord (op : Nat) (h : Hdr) (operands : Nat) : Nat :=
  op * 2 ^ 122 + h.wait * 2 ^ 116 + h.signal * 2 ^ 110 + b2n h.haltOk * 2 ^ 109 + operands

/-- The word that holds an instruction. -/
def CoreInsn.toWord (i : CoreInsn) (h : Hdr) : Nat :=
  match i with
  | .nop => insnWord 0x00 h 0
  | .mma o => insnWord 0x01 h o.bits
  | .drain o => insnWord 0x02 h o.bits
  | .clearb o => insnWord 0x03 h o.bits
  | .xmax o => insnWord 0x04 h o.bits
  | .xmerge o => insnWord 0x05 h o.bits
  | .vop f o => insnWord 0x08 h (f * 2 ^ 100 + o.bits)
  | .lacc op o => insnWord 0x09 h (op * 2 ^ 97 + o.bits)
  | .sfn f o => insnWord 0x0a h (f * 2 ^ 102 + o.bits)
  | .rng op o => insnWord 0x0b h (op * 2 ^ 104 + o.bits)
  | .ld o => insnWord 0x0c h o.bits
  | .st o => insnWord 0x0d h o.bits
  | .move o => insnWord 0x10 h o.bits
  | .sem op o => insnWord 0x18 h (op * 2 ^ 100 + o.bits)
  | .branch cond o => insnWord 0x19 h (cond * 2 ^ 106 + o.bits)
  | .att op o => insnWord 0x20 h (op * 2 ^ 106 + o.bits)
  | .win op o => insnWord 0x21 h (op * 2 ^ 105 + o.bits)
  | .nest o => insnWord 0x3e h o.bits
  | .halt => insnWord 0x3f h 0

/-- Header fields within their six bits. -/
def Hdr.inWidth (h : Hdr) : Bool := decide (h.wait < 64) && decide (h.signal < 64)

/-- Every field of an instruction within the width its table gives it. -/
def CoreInsn.inWidth : CoreInsn → Bool
  | .nop => true
  | .mma o => o.inWidth
  | .drain o => o.inWidth
  | .clearb o => o.inWidth
  | .xmax o => o.inWidth
  | .xmerge o => o.inWidth
  | .vop f o => decide (f < 256) && o.inWidth
  | .lacc op o => decide (op < 4) && o.inWidth
  | .sfn f o => decide (f < 64) && o.inWidth
  | .rng op o => decide (op < 16) && o.inWidth
  | .ld o => o.inWidth
  | .st o => o.inWidth
  | .move o => o.inWidth
  | .sem op o => decide (op < 4) && o.inWidth
  | .branch cond o => decide (cond < 4) && o.inWidth
  | .att op o => decide (op < 4) && o.inWidth
  | .win op o => decide (op < 8) && o.inWidth
  | .nest o => o.inWidth
  | .halt => true

end Sys2Proof.Machine
end

