-- ==== Sys2Proof/Machine/Types.lean ====
section
/-! DEFINITION. The plain types that commands and the state share: status codes (Table 00-4), requesters
(Table 20-8), completions (Table 15-5), and what the environment shows the module in an event. -/

namespace Sys2Proof.Machine

/-- Status codes of Table 00-4 (R17). The module returns no other code. -/
inductive Status where
  | ok | unmapped | denied | misaligned | bounds | owned | uncorrectable | timeout | verify | stale
  | notReady | preempted | deadline | mismatch | window | integrity | degraded
  deriving DecidableEq, Repr

/-- The 8-bit code of a status (Table 00-4). -/
def Status.code : Status → Nat
  | .ok => 0x00 | .unmapped => 0x01 | .denied => 0x02 | .misaligned => 0x03 | .bounds => 0x04
  | .owned => 0x05 | .uncorrectable => 0x06 | .timeout => 0x07 | .verify => 0x08 | .stale => 0x09
  | .notReady => 0x0a | .preempted => 0x0b | .deadline => 0x0c | .mismatch => 0x0d | .window => 0x0e
  | .integrity => 0x0f | .degraded => 0x10

/-- The status with a given code; a code above 0x10 is no status (R17) and reads as OK here. -/
def Status.ofCode : Nat → Status
  | 1 => .unmapped | 2 => .denied | 3 => .misaligned | 4 => .bounds | 5 => .owned | 6 => .uncorrectable
  | 7 => .timeout | 8 => .verify | 9 => .stale | 10 => .notReady | 11 => .preempted | 12 => .deadline
  | 13 => .mismatch | 14 => .window | 15 => .integrity | 16 => .degraded | _ => .ok

/-- The lower non-zero code of two (R18). -/
def Status.worse (a b : Status) : Status :=
  if a = .ok then b else if b = .ok then a else if a.code ≤ b.code then a else b

/-- The lowest non-zero code among those that apply; OK where none does (R18). -/
def Status.lowest (l : List Status) : Status := l.foldl Status.worse .ok

/-- `st` where the condition holds, else OK. -/
def Status.when (c : Bool) (st : Status) : Status := if c then st else .ok

/-- Requesters of Table 20-8, with the identity each kind carries. -/
inductive Requester where
  | module
  | core (n : Nat)
  | qp (qpn : Nat)
  | remote (moduleId : Nat)
  | port (p : Nat)
  | stream (n : Nat)
  | engine (e : Nat)
  | hbmClass (c : Nat)
  | scrub
  | governor
  deriving DecidableEq, Repr

/-- `REQ_KIND` of Table 20-8. -/
def Requester.kind : Requester → Nat
  | .module => 0 | .core _ => 1 | .qp _ => 2 | .remote _ => 3 | .port _ => 4 | .stream _ => 5
  | .engine _ => 6 | .hbmClass _ => 7 | .scrub => 8 | .governor => 9

/-- `REQ_ID` of Table 20-8. -/
def Requester.id : Requester → Nat
  | .core n => n | .qp q => q % 65536 | .remote m => m | .port p => p | .stream n => n
  | .engine e => e | .hbmClass c => c | _ => 0

/-- One entry of a violation log (Table 20-7). -/
structure VioEntry where
  jobValid : Bool
  tenant : Nat
  jobId : Nat
  seq : Nat
  status : Status
  kind : Nat
  id : Nat
  stamp : Nat
  addr : Nat
  deriving DecidableEq, Repr

/-- The log of one block (R502, Table 20-6), with the staging queue of R504, the time of the last VIOLATION event, and
whether one is owed since (R418). -/
structure VioLog where
  written : BitVec 32 := 0
  dropSat : Bool := false
  dropped : Nat := 0
  last : Status := .ok
  entries : List VioEntry := []
  staging : List VioEntry := []
  reading : Bool := false
  lastEvent : Option Nat := none
  owed : Bool := false
  deriving DecidableEq, Repr

/-- Kinds of completion (Table 15-5). -/
inductive CplKind where
  | consist | preempted | reduction | violation
  deriving DecidableEq, Repr

/-- `KIND` of Table 15-5. -/
def CplKind.code : CplKind → Nat
  | .consist => 0 | .preempted => 1 | .reduction => 2 | .violation => 3

/-- A completion record (Table 15-5). -/
structure Completion where
  user : Nat := 0
  status : Status := .ok
  arith : Nat := 0
  kind : CplKind := .consist
  info : Nat := 0
  index : Nat := 0
  stamp : Nat := 0
  jobId : Nat := 0
  seq : Nat := 0
  deriving DecidableEq, Repr

/-- An identity record (Table 11-5), `FORMAT` 1 and its CRC good. -/
structure Ident where
  port : Nat
  group : Nat
  lanesGood : Nat
  moduleId : Nat
  systemId : Nat
  dx : Nat
  dy : Nat
  dz : Nat
  x : Nat
  y : Nat
  z : Nat
  deriving DecidableEq, Repr

/-- What one training attempt shows (Table 11-3): steps 1 to 3 ended in time with the lanes in order or reversed, the lanes
good here and at the peer, whether they are reversed, and the 64-byte identity records that step 5 received in time, in order.
Log entry 4 applies (DESIGN CHOICE). -/
structure TrainObs where
  locked : Bool
  reversed : Bool
  here : BitVec 8
  peer : BitVec 8
  records : List (List Byte)
  deriving DecidableEq, Repr

/-- A packet as a port carries it (Table 11-12): its header fields, bytes 20 to 59 where an operation defines them, its
payload, and whether its CRC is good. -/
structure Packet where
  op : Nat
  cls : Nat
  sub : Nat := 0
  dst : Nat
  src : Nat
  addr : Nat
  hops : Nat := 0
  tag : Nat := 0
  reqId : Nat
  st : Status := .ok
  data : List Byte := []
  len : Nat := 0
  kind : Nat := 0
  more : List Byte := []
  crcOk : Bool := true
  deriving DecidableEq, Repr

/-- What a CONTROL flit says of arrival: the `SEQ` of the last DATA flit received in order (R304), and whether symbols of its
codeword had to be corrected (R326). -/
structure AckField where
  seq : Fin 4096
  corrected : Bool
  deriving DecidableEq, Repr

/-- A die-to-die link that leaves service (R28), and the accesses in flight on it: MOVEs by core and place among the
instructions in flight. -/
structure LinkLoss where
  link : Fin 68
  hits : List (Nat × Nat)
  deriving DecidableEq, Repr

/-- A DATA flit (R303): `SEQ`, `FIRST` and its 640-byte body. -/
structure Flit where
  seq : Nat
  first : Nat
  body : List Byte
  deriving DecidableEq, Repr

/-- What the header of a packet for this module says, with the port at which it arrived: sub-channel, source, local address,
tag and transaction number; whether its CRC is good, whether its operation is one of Table 11-13, and whether its kind and
reserved bytes are as Tables 11-12 and 11-13 allow. Log entry 4 applies (DESIGN CHOICE). -/
structure PktHdr where
  port : Nat
  sub : Nat
  src : Nat
  addr : Nat
  tag : Nat
  reqId : Nat
  crcOk : Bool
  opOk : Bool
  fieldsOk : Bool
  deriving DecidableEq, Repr

/-- The gradient fields of a packet (Table 12-6), `reserved` being bits [6:2] of byte 22 and, from bit 5 on, byte 59; and its
payload. -/
structure GradPkt where
  op : Nat
  redId : Nat
  stage : Nat
  secondary : Bool
  chunks : Nat
  step : Nat
  chunk0 : Nat
  weights : List Nat
  counts : List Nat
  cuts : Nat
  data : List Byte
  reserved : Nat := 0
  deriving DecidableEq, Repr

/-- What one attention part posts to its slot (R177): its place, the key counts, anchors biased by 2^31 of the rows
with an allowed key, E8M0 codes plus 1 of its columns, the mask of rows with a NaN or +∞ score, and where part 0
holds its tile. -/
structure AttPost where
  part : Nat
  parts : Nat
  kDecl : Nat
  keys : Nat
  rows : List (Nat × Nat)
  cols : List (Nat × Nat)
  nan : Nat
  core : Nat
  moduleId : Nat
  bank : Nat
  lidx : Nat
  deriving DecidableEq, Repr

/-- What the header firmware reads in one decode unit (R361; the coding standards are external): a malformed or missing
parameter set, a feature outside Table 13-1, the reference pictures its sequence needs, the size after cropping, depth,
chroma (0 4:2:0, 1 4:2:2, 2 4:0:0), tile columns or wavefront rows, whether it is a key picture, its place in output
order since OPEN, the references it names, those kept from now on, whether it is kept itself and is output, and whether its unit
holds another picture after it, as a temporal unit of AV1 may.
Log entry 4 applies (DESIGN CHOICE). -/
structure DecObs where
  malformed : Bool
  outside : Bool
  refsNeeded : Nat
  w : Nat
  h : Nat
  bits : Nat
  chroma : Nat
  columns : Nat
  key : Bool
  order : Nat
  refs : List Nat
  keep : List Nat
  isRef : Bool
  shown : Bool
  more : Bool
  deriving DecidableEq, Repr

/-- What a decode shows at its end: whether slice or tile data was malformed, the samples of the three planes, and the
places in output order of the pictures that the standard outputs now.
Log entry 4 applies (DESIGN CHOICE). Log entry 80 applies (DESIGN CHOICE). -/
structure DecDone where
  malformed : Bool
  planes : List (List Nat)
  output : List Nat
  deriving DecidableEq, Repr

/-- What the encoder's own choices show when a picture begins: its number in input order, its type among the inter pictures
of its `GOP`, the look-ahead's complexity of each row of each tile column, and the slots of the references it predicts from. Log entry 4 applies (DESIGN CHOICE). -/
structure EncObs where
  num : Nat
  ptype : Nat
  complexity : List (List Nat)
  refs : List Nat
  deriving DecidableEq, Repr

/-- What a coded picture shows: the bits that each row of each tile column took, and the coded bytes.
Log entry 4 applies (DESIGN CHOICE). Log entry 80 applies (DESIGN CHOICE). -/
structure EncDone where
  rows : List (List Nat)
  unit : List Byte
  deriving DecidableEq, Repr

/-- An Ethernet frame as a host port sees it (R402): its VLAN, if tagged; whether FCS and ICRC are good and everything else
is as Table 15-1 supports; the QP it is for, and whether it is marked CE; uncorrectable FEC codewords met with it.
Log entry 4 applies (DESIGN CHOICE). -/
structure EthFrame where
  vlan : Option Nat
  fcsOk : Bool
  icrcOk : Bool
  qpn : Nat
  ce : Bool
  fec : Nat
  deriving DecidableEq, Repr

/-- A response of the host (R409, R414, R416): requests up to a PSN acknowledged, the data of a read, a NAK, or an RNR NAK. -/
inductive RoceResp where
  | ack (psn : Nat)
  | data (psn : Nat) (l : List Byte)
  | nak (psn : Nat)
  | rnr (psn : Nat)
  deriving DecidableEq, Repr

/-- A trace record (Table 19-10). -/
structure TraceRec where
  stamp : Nat
  source : Nat
  event : Nat
  status : Status
  unit : Nat
  addr : Nat
  data : Nat
  deriving DecidableEq, Repr

/-- A defect-list entry (Table 16-12). -/
structure Defect where
  kind : Nat
  cause : Nat
  repair : Nat
  location : Nat
  start : Nat
  deriving DecidableEq, Repr

/-- One copy of the defect list in flash (R444). -/
structure DefectCopy where
  valid : Bool
  seq : Nat
  entries : List Defect
  deriving DecidableEq, Repr

/-- The verdict on a structure slot's or bundle's signature: which key verified it. The digest and
signature algorithms are external standards; their verdict is what the event carries. Log entry 4 applies (DESIGN CHOICE). -/
inductive SigVerdict where
  | none
  | owner (k : Nat)
  | fwKey
  deriving DecidableEq, Repr

/-- Sector contents that an external programmer left in the flash (R511): sector and its bytes by place. -/
abbrev FlashImage := List (Nat × List (Nat × Byte))

/-- A valid read of the shelf (R459). Log entry 4 applies (DESIGN CHOICE). -/
structure ShelfRead where
  statusWord : BitVec 16
  statusInput : BitVec 8
  vin : BitVec 16
  iout : BitVec 16
  pout : BitVec 16
  deriving DecidableEq, Repr

/-- What one start shows (Tables 16-2 to 16-5): for each bundle slot the key slot whose hash its `FW_KEY` matches, where its
signature and the digest of its signal box component are good; components with a wrong digest (R471); under which key each
structure slot's signature verifies; rows pending hard repair that H1 leaves for a later start (R428); cores (CD, core) that
fail the quick test or the random-number check; CDs whose mesh fails; map-store rows (die, row, retention) that fail C10;
engines (as `LOCATION`) that fail their start test; die-to-die links that do not train; whether the gradient engines pass; the
shelf's first read, if valid; `READY_W`; and what a programmer left in the flash before.
Log entry 4 applies (DESIGN CHOICE). Log entry 92 applies (DESIGN CHOICE). Log entry 94 applies (DESIGN CHOICE). -/
structure StartObs where
  bundleA : Option Nat
  bundleB : Option Nat
  badComponents : List Nat
  structA : SigVerdict
  structB : SigVerdict
  h1Left : List Nat
  badCores : List (Nat × Nat)
  badMesh : List Nat
  msRows : List (Nat × Nat × Bool)
  badEngines : List Nat
  d2dDown : List Nat
  gradOk : Bool
  shelf : Option ShelfRead
  readyW : Nat
  programmed : FlashImage
  deriving DecidableEq, Repr

/-- What the HBM test shows (Table 16-3): rows that failed as (`LOCATION`, `CAUSE`) in order, repaired rows that failed
their retest, stacks whose PHY did not train, and stacks whose narrow-access engine is not ready.
Log entry 4 applies (DESIGN CHOICE). -/
structure HbmObs where
  rows : List (Nat × Nat)
  retest : List Nat
  untrained : List Nat
  narrowBad : List Nat
  deriving DecidableEq, Repr

/-- What the plant interface reads (R460): inlet and outlet in 0.1 °C, none where open or shorted; the flow pulses of the last
second where one has ended; the hottest compute die with its number, media die, and MS, FX or MD die, in °C.
Log entry 4 applies (DESIGN CHOICE). -/
structure PlantObs where
  tIn : Option Int
  tOut : Option Int
  pulses : Option Nat
  cdC : Nat
  cdId : Nat
  mdC : Nat
  otherC : Nat
  deriving DecidableEq, Repr

end Sys2Proof.Machine
end

