-- ==== Sys2Proof/Machine/CmdTypes.lean ====
section
/-! DEFINITION. Operand types of the commands that are more than a number. -/

namespace Sys2Proof.Machine

/-- What a register write meets outside the module, each where the write sets it off: the start that a write of
`BUP_RESET` begins, the verdict that a VERIFY_SLOT finds, the eye points that a scan finds, and what the shelf answers
to a direct PMBus read. -/
structure WriteObs where
  start : StartObs
  sig : SigVerdict
  points : List Nat
  shelf : Option (List Byte)
  deriving DecidableEq, Repr

/-- A register write: who asks, the local address, the length in bytes, the data, and what it meets. -/
structure RegAccess where
  req : Requester
  addr : BitVec 40
  len : Nat
  data : Word
  obs : WriteObs
  deriving DecidableEq, Repr

/-- A violation that arises while a log is read (R504): its status, requester and address. -/
structure Arising where
  status : Status
  req : Requester
  addr : Nat
  deriving DecidableEq, Repr

end Sys2Proof.Machine
end

