-- ==== Sys2Proof/Syntax.lean ====
section
/-! DEFINITION. The commands: one constructor per row of the command table, with the operands the rules
give it. A core instruction carries its site (core and context), its header and its operand fields; a
register write carries the management queue pair it came through and the written word; an event carries
what the environment shows the module. -/

namespace Sys2Proof

open Sys2Proof.Machine

inductive Instr where
  /-- R13. A register write to a register without a row of its own is judged against the access types of its fields and acts on each field by type. -/
  | registerWrite (x : RegAccess)
  /-- R504. A management RDMA READ of a VIO page reads one state of the log, and entries that arise meanwhile are staged and written after its last word. -/
  | vioLogRead (q : Fin 4) (psn : Nat) (page : Fin 21) (first words : Nat) (arising : List Arising)
  /-- R28. A die-to-die flit fails its CRC and is retried in hardware. -/
  | d2dFlitCrcFail (l : Fin 56)
  /-- R28. A link whose retries exceed the retry counter leaves service, accesses in flight complete with TIMEOUT, and dependants leave BUP_READY. -/
  | d2dLinkOutOfService (l : LinkLoss)
  /-- R86. NOP issues and has no effect beyond its header fields. -/
  | instrNop (t : Site) (h : Hdr)
  /-- R88. An MMA clears, anchors and accumulates the unmasked entries of its tile from A, B and optionally C. -/
  | mma (t : Site) (h : Hdr) (o : MmaOps)
  /-- R96. A SCAN MMA naming a slot waits until POSTED equals PARTS, then takes its anchors from the posted maxima or faults with VERIFY on a K_SUM mismatch. -/
  | mmaSlotMaximaWait (t : Site) (h : Hdr) (o : MmaOps)
  /-- R92. A DRAIN converts each unmasked entry under R64 and R67 and writes it to the core store, keeping or clearing the entries. -/
  | drain (t : Site) (h : Hdr) (o : DrainOps)
  /-- R97. A DRAIN with OWNER_WAIT starts once MERGED equals PARTS minus 1 and then writes the slot back to empty. -/
  | drainOwnerWait (t : Site) (h : Hdr) (o : DrainOps)
  /-- R92. CLEARB clears the banks named in its mask. -/
  | clearb (t : Site) (h : Hdr) (o : ClearbOps)
  /-- R95. XMAX computes the part's row and column maxima and posts them to the exchange slot. -/
  | xmax (t : Site) (h : Hdr) (o : XmaxOps)
  /-- R95. The map-store atomic unit applies one post to a slot indivisibly, recording parts, maxima, K_SUM and the owner. -/
  | xmaxSlotPost (t : Site)
  /-- R97. XMERGE sends the images of every entry of its shape to the owner bank, which merges them under R62. -/
  | xmerge (t : Site) (h : Hdr) (o : XmergeOps)
  /-- R97. The owner merges arriving partial entries and increments MERGED when every entry has merged. -/
  | xmergeOwnerMerge (t : Site)
  /-- R524. VOP ADD forms the IEEE binary32 sum of VA and VB in each active lane. -/
  | vopAdd (t : Site) (h : Hdr) (o : VopOps)
  /-- R524. VOP SUB forms VA minus VB in each active lane. -/
  | vopSub (t : Site) (h : Hdr) (o : VopOps)
  /-- R524. VOP MUL forms VA times VB in each active lane. -/
  | vopMul (t : Site) (h : Hdr) (o : VopOps)
  /-- R524. VOP FMA forms VA times VB plus VC, rounded once. -/
  | vopFma (t : Site) (h : Hdr) (o : VopOps)
  /-- R524. VOP MIN writes the IEEE minimum of VA and VB. -/
  | vopMin (t : Site) (h : Hdr) (o : VopOps)
  /-- R524. VOP MAX writes the IEEE maximum of VA and VB. -/
  | vopMax (t : Site) (h : Hdr) (o : VopOps)
  /-- R524. VOP CVT converts the FP32 value of VA to the format FMT. -/
  | vopCvt (t : Site) (h : Hdr) (o : VopOps)
  /-- R524. VOP CMP compares lanes and sets no flag. -/
  | vopCmp (t : Site) (h : Hdr) (o : VopOps)
  /-- R524. VOP AND forms the bitwise AND of all 32 bits. -/
  | vopAnd (t : Site) (h : Hdr) (o : VopOps)
  /-- R524. VOP OR forms the bitwise OR of all 32 bits. -/
  | vopOr (t : Site) (h : Hdr) (o : VopOps)
  /-- R524. VOP XOR forms the bitwise XOR of all 32 bits. -/
  | vopXor (t : Site) (h : Hdr) (o : VopOps)
  /-- R524. VOP SHL shifts VA left by the lane's VB amount. -/
  | vopShl (t : Site) (h : Hdr) (o : VopOps)
  /-- R524. VOP SHR shifts VA right logically by the lane's VB amount. -/
  | vopShr (t : Site) (h : Hdr) (o : VopOps)
  /-- R524. VOP SEL selects between lanes. -/
  | vopSel (t : Site) (h : Hdr) (o : VopOps)
  /-- R524. VOP ABS clears bit 31 of VA. -/
  | vopAbs (t : Site) (h : Hdr) (o : VopOps)
  /-- R524. VOP NEG inverts bit 31 of VA. -/
  | vopNeg (t : Site) (h : Hdr) (o : VopOps)
  /-- R525. LACC CLEAR_SUM clears one or 128 long accumulators into SUM mode. -/
  | laccClearSum (t : Site) (h : Hdr) (o : LaccOps)
  /-- R525. LACC CLEAR_PRODUCT clears one or 128 long accumulators into PRODUCT mode. -/
  | laccClearProduct (t : Site) (h : Hdr) (o : LaccOps)
  /-- R525. LACC ADD adds the active lanes, or their products, exactly into the long accumulators. -/
  | laccAdd (t : Site) (h : Hdr) (o : LaccOps)
  /-- R525. LACC DRAIN rounds one or 128 long accumulators once, optionally with divisor, writes VD and leaves them cleared in SUM mode. -/
  | laccDrain (t : Site) (h : Hdr) (o : LaccOps)
  /-- R142. SFN EXP2 returns 2^x within 1 ulp. -/
  | sfnExp2 (t : Site) (h : Hdr) (o : SfnOps)
  /-- R142. SFN EXP returns e^x. -/
  | sfnExp (t : Site) (h : Hdr) (o : SfnOps)
  /-- R142. SFN LOG2 returns log2 x. -/
  | sfnLog2 (t : Site) (h : Hdr) (o : SfnOps)
  /-- R142. SFN LN returns ln x. -/
  | sfnLn (t : Site) (h : Hdr) (o : SfnOps)
  /-- R142. SFN TANH returns tanh x. -/
  | sfnTanh (t : Site) (h : Hdr) (o : SfnOps)
  /-- R142. SFN SIGMOID returns 1 / (1 + e^-x). -/
  | sfnSigmoid (t : Site) (h : Hdr) (o : SfnOps)
  /-- R142. SFN ERF returns erf x. -/
  | sfnErf (t : Site) (h : Hdr) (o : SfnOps)
  /-- R142. SFN RCP returns 1/x, correctly rounded in native mode. -/
  | sfnRcp (t : Site) (h : Hdr) (o : SfnOps)
  /-- R142. SFN RSQRT returns 1/sqrt x. -/
  | sfnRsqrt (t : Site) (h : Hdr) (o : SfnOps)
  /-- R142. SFN SQRT returns sqrt x. -/
  | sfnSqrt (t : Site) (h : Hdr) (o : SfnOps)
  /-- R142. SFN SINPI returns sin(pi x). -/
  | sfnSinpi (t : Site) (h : Hdr) (o : SfnOps)
  /-- R142. SFN COSPI returns cos(pi x). -/
  | sfnCospi (t : Site) (h : Hdr) (o : SfnOps)
  /-- R142. SFN SILU returns x times sigmoid x. -/
  | sfnSilu (t : Site) (h : Hdr) (o : SfnOps)
  /-- R142. SFN GELU returns the erf form of GELU. -/
  | sfnGelu (t : Site) (h : Hdr) (o : SfnOps)
  /-- R148. SFN EXP2A returns 2^(x - a) with the anchor a from VB. -/
  | sfnExp2a (t : Site) (h : Hdr) (o : SfnOps)
  /-- R139. SFN SCALB returns x times 2^k rounded once under RND. -/
  | sfnScalb (t : Site) (h : Hdr) (o : SfnOps)
  /-- R150. SFN ANCH returns the smallest integer not below x as INT32. -/
  | sfnAnch (t : Site) (h : Hdr) (o : SfnOps)
  /-- R153. SFN HMAX writes the largest value over the active lanes to every active lane. -/
  | sfnHmax (t : Site) (h : Hdr) (o : SfnOps)
  /-- R153. SFN HMIN writes the smallest value over the active lanes to every active lane. -/
  | sfnHmin (t : Site) (h : Hdr) (o : SfnOps)
  /-- R154. LSAVE writes a long accumulator as its 48-byte image. -/
  | sfnLsave (t : Site) (h : Hdr) (o : SfnOps)
  /-- R154. LMERGE reads an image and adds it exactly into a long accumulator. -/
  | sfnLmerge (t : Site) (h : Hdr) (o : SfnOps)
  /-- R246. RNG BITS writes word w_k of each lane stream. -/
  | rngBits (t : Site) (h : Hdr) (o : RngOps)
  /-- R246. RNG UNIFORM writes an exact uniform value in [0, 1 - 2^-24]. -/
  | rngUniform (t : Site) (h : Hdr) (o : RngOps)
  /-- R246. RNG UNIFORM_OPEN writes an exact uniform value in the open interval. -/
  | rngUniformOpen (t : Site) (h : Hdr) (o : RngOps)
  /-- R248. RNG NORMAL_FAST writes a table-interpolated normal variate. -/
  | rngNormalFast (t : Site) (h : Hdr) (o : RngOps)
  /-- R249. RNG NORMAL_PRECISE writes two Box-Muller normal variates and holds the SFU. -/
  | rngNormalPrecise (t : Site) (h : Hdr) (o : RngOps)
  /-- R252. RNG SAMPLE draws one token from a row of logits and writes the result record. -/
  | rngSample (t : Site) (h : Hdr) (o : RngOps)
  /-- R524. LD loads 128 lanes from the core store into a vector register. -/
  | ld (t : Site) (h : Hdr) (o : MemOps)
  /-- R524. ST stores 128 lanes of a vector register into the core store. -/
  | st (t : Site) (h : Hdr) (o : MemOps)
  /-- R83. MOVE copies a byte range between fabric addresses, splitting remote parts into packets. -/
  | move (t : Site) (h : Hdr) (o : MoveOps)
  /-- R83. SEM SET sets a semaphore to a value. -/
  | semSet (t : Site) (h : Hdr) (o : SemOps)
  /-- R83. SEM ADD adds a value to a semaphore. -/
  | semAdd (t : Site) (h : Hdr) (o : SemOps)
  /-- R526. BRANCH with COND 0 always continues at the target. -/
  | branchAlways (t : Site) (h : Hdr) (o : BranchOps)
  /-- R526. BRANCH with COND 1 decrements a loop counter and branches while the result is not zero. -/
  | branchLoop (t : Site) (h : Hdr) (o : BranchOps)
  /-- R526. BRANCH with COND 2 branches when the 64-bit scalar register is not zero. -/
  | branchNonzero (t : Site) (h : Hdr) (o : BranchOps)
  /-- R526. BRANCH with COND 3 loads a loop counter and does not branch. -/
  | branchLoadLoop (t : Site) (h : Hdr) (o : BranchOps)
  /-- R175. ATT PASS runs the score and value pipeline of a query tile over one key range with running anchors. -/
  | attPass (t : Site) (h : Hdr) (o : AttOps)
  /-- R199. A translation that met a BUSY entry retries once after the entry leaves BUSY or BUSY_NS passes. -/
  | walkBusyRetry (t : Site) (h : Hdr) (o : AttOps)
  /-- R177. At LAST a part posts its anchors to the attention slot, indivisibly at the map-store atomic unit. -/
  | attSlotPost (t : Site)
  /-- R177. When POSTED reaches PARTS every waiting part receives the final anchors, or faults with VERIFY on a K_SUM mismatch. -/
  | attFinalAnchors (t : Site) (h : Hdr)
  /-- R179. ATT SEND delivers a non-owner part's N and Z images to part 0 or its merge area. -/
  | attSend (t : Site) (h : Hdr) (o : AttOps)
  /-- R180. ATT DRAIN waits for all merges, then writes O and LSE and empties the slot. -/
  | attDrain (t : Site) (h : Hdr) (o : AttOps)
  /-- R214. WIN FETCH stages the receptive field of an output block, waiting on halo gates where needed. -/
  | winFetch (t : Site) (h : Hdr) (o : WinOps)
  /-- R226. A FETCH resumes once the gate word reaches GATE_EXPECT, or faults with TIMEOUT after XCHG_NS. -/
  | haloGateWait (t : Site) (h : Hdr) (o : WinOps) (expired : Bool)
  /-- R215. WIN MMA runs an MMA with A rows taken from the staging area. -/
  | winMma (t : Site) (h : Hdr) (o : WinOps)
  /-- R215. WIN WMAX posts the maxima of its staged range to the slot as XMAX does. -/
  | winWmax (t : Site) (h : Hdr) (o : WinOps)
  /-- R216. WIN POOL reduces each window to a MAX or average and writes the row. -/
  | winPool (t : Site) (h : Hdr) (o : WinOps)
  /-- R217. WIN PUT writes a drained output tile from staging back into the output map. -/
  | winPut (t : Site) (h : Hdr) (o : WinOps)
  /-- R119. NEST joins a nest's work counter and hands items to its contexts. -/
  | nest (t : Site) (h : Hdr) (o : NestOps)
  /-- R127. An item ends when its body's last instruction completes, increments DONE and grabs again when its chunk is used. -/
  | itemEnd (t : Site)
  /-- R120. A NEST completes on every core once every item of the nest has completed. -/
  | nestComplete
  /-- R86. END ends the context's lane group. -/
  | endInstr (t : Site) (h : Hdr)
  /-- R83. An instruction completes and increments its SIGNAL semaphore, faulting with BOUNDS past 65,535. -/
  | instructionComplete (core index : Nat)
  /-- R83. A context whose WAIT stays unmet beyond WAIT_NS faults the job with TIMEOUT. -/
  | semWaitTimeout (t : Site)
  /-- R99. A slot wait, or a held attention ACK, beyond XCHG_NS faults with TIMEOUT. -/
  | slotWaitTimeout (t : Site)
  /-- R104. A core receives a firmware segment message and keeps or discards it. -/
  | fwSegmentMessage (n : Fin 2048) (msg : List Byte)
  /-- R105. On the end message a core pulls every missing segment and reports FW_CRC. -/
  | fwEndMessage (n : Fin 2048) (imageId : Fin 65536) (missed : List Nat)
  /-- R106. A pull that fails or does not arrive within 20 us counts a failure; a third failure makes the core DEFECTIVE. -/
  | fwPullTimeout (n : Fin 2048) (seg : Fin 64) (imageId : Fin 65536) (missed : List Nat)
  /-- R108. A write of CORE_LIMITS sets the wait limits or is refused with VERIFY. -/
  | coreLimitsWrite (q : Fin 4) (v : Word)
  /-- R158. A write of SFU_TABLE_LOAD starts a verified load into every inactive bank. -/
  | sfuTableLoad (q : Fin 4) (v : Word)
  /-- R158. The coefficient load ends READY or FAILED. -/
  | sfuTableLoadDone (sig : SigVerdict) (failed : Nat)
  /-- R159. A write of 1 to SWAP requests an exchange of the coefficient banks at the next job boundary. -/
  | sfuSwap (q : Fin 4)
  /-- R160. A write of 1 to DISCARD empties the inactive banks, abandoning a load. -/
  | sfuDiscard (q : Fin 4)
  /-- R208. A write of ENABLE 1 wipes the KVP region and enables the page subsystem, or is refused. -/
  | kvpEnable (q : Fin 4)
  /-- R208. A write of ENABLE 0 disables the page subsystem unless a job runs or a command is pending. -/
  | kvpDisable (q : Fin 4)
  /-- R207. A write of BUSY_NS sets the busy-wait limit or is refused with VERIFY. -/
  | kvpLimitsWrite (q : Fin 4) (v : Word)
  /-- R198. A write of KVP_CMD_SUBMIT queues a command record or is refused when 64 are pending. -/
  | kvpCmdSubmit (q : Fin 4) (v : Word)
  /-- R196. CTX_SET stages a walker context. -/
  | ctxSet
  /-- R196. SEQ_PUBLISH stages a LIVE sequence record with a new version and adjusts REFS. -/
  | seqPublish
  /-- R196. SEQ_CLEAR stages an EMPTY sequence record. -/
  | seqClear
  /-- R198. MAP assigns frames and summaries to FREE directory entries and makes them MAPPED. -/
  | mapCmd
  /-- R203. SEAL computes the page summaries and sets SEALED. -/
  | sealPage
  /-- R198. MOVE_PAGE copies a frame and summary to new addresses through BUSY. -/
  | movePage
  /-- R198. REPLACE sets new addresses, increments GEN and clears SEALED. -/
  | replace
  /-- R198. FREE marks entries FREEING and frees them at the boundary. -/
  | freeCmd
  /-- R196. Staged changes, swaps and pending command completions apply within 10 us while no job holds the cores. -/
  | stagedChangesApplyIdle
  /-- R398. At a job boundary the module applies the coefficient swap, KVP changes and timetable swap in order and chooses the next job. -/
  | jobBoundary
  /-- R395. A restore writes back the saved state and the job resumes RUNNING. -/
  | restoreComplete
  /-- R458. A job's first tiles start once the governor's draw has risen to READY_W. -/
  | jobTilesStart
  /-- R32. After every write of the job has landed, its completion is written with status, timestamp and flags. -/
  | jobComplete
  /-- R236. NGE_BIND with OP BIND verifies a program and binds it to a stream. -/
  | ngeBind (q : Fin 4) (e : Fin 4) (v : Word)
  /-- R236. NGE_BIND with OP UNBIND removes a stream's program. -/
  | ngeUnbind (q : Fin 4) (e : Fin 4) (v : Word)
  /-- R230. The narrow-gauge engine runs a bound program over one picture and writes the landing ring or encoder input. -/
  | ngePictureRun (e : Fin 4)
  /-- R272. An HBM request is admitted under the regulators and served on the full or narrow path. -/
  | hbmRequest (cls : Fin 8) (write : Bool) (addr : BitVec 40) (len : Nat) (data : List Byte)
  /-- R287. Patrol scrub reads the next codeword, correcting or logging it. -/
  | scrubStep (idx : Fin 64)
  /-- R268. At the end of each monitor window SKEW and MAX_STACK are set and OVER_WINDOWS counts an excess. -/
  | skewWindowEnd
  /-- R269. Above 85 C a stack doubles its refresh and sets HOT. -/
  | stackTemperatureHot (stack : Fin 12) (tempC : BitVec 8)
  /-- R290. A write of HBM_SKEW_CTRL sets THRESHOLD or is refused with VERIFY. -/
  | hbmSkewCtrlWrite (q : Fin 4) (v : Word)
  /-- R290. A write of HBM_SCRUB_CTRL sets enable and period or is refused with VERIFY. -/
  | hbmScrubCtrlWrite (q : Fin 4) (v : Word)
  /-- R274. A change of the narrow-path ENABLE applies to requests accepted after the write. -/
  | hbmNarrowCtrlWrite (q : Fin 4) (v : Word)
  /-- R281. A write of 1 to SWAP checks the staged regulator table and names a swap epoch, or fails. -/
  | bwrSwap (q : Fin 4)
  /-- R281. At the named epoch all controllers swap the regulator banks and GEN increases. -/
  | bwrSwapEpoch
  /-- R281. A write of BWR_STAGEp writes the staged bank, refused while a swap is pending. -/
  | bwrStageWrite (q : Fin 4) (p : Fin 8) (v : Word)
  /-- R528. A read that meets an uncorrectable map-store word fails, is logged and counted. -/
  | msUncorrectableRead (req : Requester) (addr : BitVec 40) (len : Nat)
  /-- R296. A fabric port runs a training attempt through DETECT to IDENT and becomes ACCEPTED, NARROW or MISWIRED. -/
  | portTrainingAttempt (p : Fin 36) (o : TrainObs)
  /-- R296. A training step that exceeds its limit ends the attempt, FAILED with TIMEOUT. -/
  | trainingStepTimeout (p : Fin 36)
  /-- R301. A FAILED port begins a new attempt after 1 s, or a NARROW port after 60 s. -/
  | retrainInterval (p : Fin 36)
  /-- R300. A heartbeat identity record arrives; one that differs makes the port MISWIRED with CAUSE CHANGED. -/
  | identRecordReceived (p : Fin 36) (body : List Byte) (crc : BitVec 32)
  /-- R300. No valid identity record for 3 ms makes the port FAILED with TIMEOUT. -/
  | identTimeout (p : Fin 36)
  /-- R304. A DATA flit is accepted in order or discarded with a NAK. -/
  | dataFlitReceived (p : Fin 36) (seq : Fin 4096) (good corrected : Bool)
  /-- R304. A CONTROL flit acknowledges flits, triggers a replay on NAK and returns credits. -/
  | controlFlitReceived (p : Fin 36) (ack : AckField) (nak : Bool) (credits : List Nat)
  /-- R304. No CONTROL flit for 100 us takes the port out of service. -/
  | controlFlitTimeout (p : Fin 36)
  /-- R304. Loss of signal on a lane in use takes the port out of service, FAILED with TIMEOUT. -/
  | laneSignalLoss (p : Fin 36)
  /-- R324. A group whose ACCEPTED ports change stops admission, waits for assigned packets and rebuilds its maps. -/
  | groupRebuild (g : Fin 6) (late : Bool)
  /-- R314. A transit packet is looked up and forwarded, or discarded with an ERROR. -/
  | packetForward (p : Fin 36) (x : Packet)
  /-- R321. A remote WRITE is checked at the destination, written and answered with ACK. -/
  | fabricWrite (h : PktHdr) (data : List Byte)
  /-- R321. A remote READ is checked and answered with READ_DATA or ERROR. -/
  | fabricRead (h : PktHdr) (len : Nat)
  /-- R323. A POST of KIND ATT_POST is applied at the slot and its ACK held until POSTED equals PARTS. -/
  | fabricPostAtt (h : PktHdr) (x : AttPost)
  /-- R323. A POST of KIND MERGED_INC adds 1 to MERGED and is answered at once. -/
  | fabricPostMergedInc (h : PktHdr)
  /-- R322. An ACK completes its transaction at the requester. -/
  | fabricAck (h : PktHdr) (st : Status) (data : List Byte)
  /-- R322. READ_DATA is written locally and completes the READ. -/
  | fabricReadData (h : PktHdr) (st : Status) (data : List Byte)
  /-- R322. An ERROR completes its transaction with the status it carries. -/
  | fabricError (h : PktHdr) (st : Status)
  /-- R322. A transaction unanswered within REMOTE_NS completes with TIMEOUT; a later answer counts in LATE. -/
  | remoteTimeout (reqId : Fin 16384)
  /-- R316. A write of FAB_TT_LOAD loads a turnout image into the staged bank. -/
  | fabTtLoad (q : Fin 4) (v : Word)
  /-- R316. The turnout load ends READY or FAILED. -/
  | fabTtLoadDone
  /-- R316. A write of 1 to TT_SWAP exchanges the turnout banks within 1 us. -/
  | ttSwap (q : Fin 4)
  /-- R316. A write of 1 to TT_DISCARD empties the staged turnout bank. -/
  | ttDiscard (q : Fin 4)
  /-- R298. A write of MIN_WIDTH judges every ACCEPTED and NARROW port again. -/
  | minWidthWrite (q : Fin 4) (w : Fin 4)
  /-- R326. A write of REMOTE_NS sets the limit or is refused with VERIFY. -/
  | fabLimitsWrite (q : Fin 4) (v : Word)
  /-- R327. A write of a fabric window is refused while VALID, or checked when it sets VALID. -/
  | fabWinWrite (q : Fin 4) (i : Fin 64) (size : Bool) (v : Word)
  /-- R316. A write of RETRAIN drains the port and starts a training attempt. -/
  | portRetrain (q : Fin 4) (p : Fin 36)
  /-- R316. A write of DISABLE 1 drains the port and switches its lanes off. -/
  | portDisable (q : Fin 4) (p : Fin 36)
  /-- R447. Once every expected port has settled, TOPO_DONE is set and MISWIRED ports are recorded and logged. -/
  | topoDone
  /-- R332. A write of GRD_OPEN checks a reduction descriptor and opens or refuses it. -/
  | grdOpen (q : Fin 4) (v : Word)
  /-- R334. An engine sends ready chunks of its pieces to stage-1 destinations as the ready word advances. -/
  | grdChunkSend (red dst : Nat)
  /-- R343. A GRD_RAW packet is judged and its raw pieces added to chunk states. -/
  | grdRaw (h : PktHdr) (p : GradPkt)
  /-- R343. A GRD_PART packet is judged and its partials added to chunk states. -/
  | grdPart (h : PktHdr) (p : GradPkt)
  /-- R344. A GRD_SAMPLE packet adds sampled elements on the secondary path. -/
  | grdSample (h : PktHdr) (p : GradPkt)
  /-- R346. A GRD_GATHER packet writes gathered elements into OUT and is forwarded. -/
  | grdGather (h : PktHdr) (p : GradPkt)
  /-- R337. A chunk state closes short when STAGE_NS has passed since its first arrival. -/
  | grdStageDeadline (red : Nat) (sec : Bool) (stage : Fin 4) (chunk : Nat)
  /-- R337. When TOTAL_MS passes every open state closes and unsent chunks are abandoned. -/
  | grdTotalTimeout (red : Nat)
  /-- R343. A send answered NOT_READY is resent after 20 us. -/
  | grdResend (red : Nat)
  /-- R347. A reduction completes at a module, writes its report and posts a completion. -/
  | grdComplete (red : Nat)
  /-- R360. A write of MED_CMD_SUBMIT queues a media command or is refused when 64 are pending. -/
  | medCmdSubmit (q : Fin 4) (v : Word)
  /-- R355. OPEN checks a stream descriptor and makes the context RUNNING. -/
  | medOpen
  /-- R356. CLOSE finishes and discards any picture in progress and frees the context. -/
  | medClose
  /-- R356. FLUSH acts as a unit with END, draining the stream. -/
  | medFlush
  /-- R375. ROI_SET stages a region-of-interest table. -/
  | roiSet
  /-- R360. RATE_SET changes bitrate and QP limits from the next picture. -/
  | rateSet
  /-- R370. KEY makes the next picture that begins a key picture. -/
  | medKey
  /-- R357. A waiting decoder stream reads PRODUCED of its unit queue. -/
  | unitQueuePoll (n : Fin 256)
  /-- R363. A free engine takes the ready picture of highest priority, with firmware header parsing and budget setting. -/
  | pictureStart (md : Fin 4) (enc : Bool) (engines : List Nat) (d : DecObs) (e : EncObs)
  /-- R358. A picture completes and its record, unit entry and counts are written. -/
  | pictureComplete (n : Fin 256) (d : DecDone) (e : EncDone)
  /-- R383. At a timetable slot boundary the running job continues or is pre-empted as the slot kind directs. -/
  | slotBoundary
  /-- R384. A shared job that has run QUANTUM_US is pre-empted if another tenant has a smaller charge. -/
  | quantumExpiry
  /-- R388. A write of PREEMPT requests pre-emption of the running job. -/
  | preempt (q : Fin 4)
  /-- R388. Once every core has halted the signal box drains the job's traffic and suspends its windows. -/
  | preemptHalted
  /-- R388. Once the job's traffic has drained its state is saved to the siding. -/
  | preemptDrained
  /-- R388. After the save the PREEMPTED notice is posted and the job boundary follows. -/
  | preemptSaved
  /-- R389. A halt beyond HALT_NS or a drain beyond REMOTE_NS faults the job with TIMEOUT and frees the siding. -/
  | preemptTimeout
  /-- R397. A write of TT_LOAD loads a timetable image into the staged bank. -/
  | ttLoad (q : Fin 4) (v : Word)
  /-- R397. The timetable load ends READY or FAILED. -/
  | ttLoadDone
  /-- R398. A write of 1 to SWAP of TT_CTRL requests a timetable swap at the next job boundary. -/
  | ttSwapRequest (q : Fin 4)
  /-- R397. A write of 1 to DISCARD of TT_CTRL empties the staged timetable bank. -/
  | ttStagedDiscard (q : Fin 4)
  /-- R400. A write of HALT_NS sets the halt bound or is refused with VERIFY. -/
  | ttLimitsWrite (q : Fin 4) (v : Word)
  /-- R396. DETACH withdraws a HOLDS siding's job from the queue and marks the siding DETACHED. -/
  | sidingDetach (q : Fin 4) (n : Fin 16)
  /-- R396. RELEASE frees a DETACHED siding and its job is lost. -/
  | sidingRelease (q : Fin 4) (n : Fin 16)
  /-- R396. ATTACH queues the image in a siding as a SIDED job of its tenant and class. -/
  | sidingAttach (q : Fin 4) (n : Fin 16)
  /-- R401. A host port's link trains and comes up. -/
  | hostLinkUp (k : Fin 4) (kr : Bool)
  /-- R419. A host port loses its link and trains again by itself. -/
  | hostLinkDown (k : Fin 4)
  /-- R402. An Ethernet frame is accepted or discarded and counted in DROPPED. -/
  | ethFrameReceived (k : Fin 4) (f : EthFrame)
  /-- R402. A received CNP lowers the send rate of its QP. -/
  | cnpReceived (n : Fin 256)
  /-- R405. A communication-manager REQ connects a management QP or is rejected. -/
  | cmReq (k : Fin 4) (service : Nat)
  /-- R405. A DREQ ends a management connection. -/
  | cmDreq (k : Fin 4)
  /-- R406. An inbound RDMA WRITE on a management QP writes registers or memory under its checks. -/
  | mgmtRdmaWrite (q : Fin 4) (psn va : Nat) (data : List Byte) (obs : WriteObs)
  /-- R406. An inbound RDMA READ on a management QP reads registers or memory under its checks. -/
  | mgmtRdmaRead (q : Fin 4) (psn va len : Nat)
  /-- R410. An inbound RDMA WRITE on a data QP writes within its window or is refused. -/
  | dataQpRdmaWrite (n : Fin 256) (psn va rkey : Nat) (data : List Byte)
  /-- R410. An inbound RDMA READ on a data QP reads within its window or is refused. -/
  | dataQpRdmaRead (n : Fin 256) (psn va rkey len : Nat)
  /-- R409. A write of a data QP page word changes STATE with its checks or is refused. -/
  | qpStateWrite (q : Fin 4) (n : Fin 256) (w : Fin 8) (v : Word)
  /-- R411. A doorbell write of PRODUCED lets the module take ring entries, or moves the QP to ERROR. -/
  | doorbell (n : Fin 256) (produced : BitVec 32)
  /-- R413. A NOP entry of a consist completes without effect. -/
  | consistNop (n : Fin 256) (c e : Nat)
  /-- R414. COPY_IN reads host bytes by RDMA READ into local memory. -/
  | consistCopyIn (n : Fin 256) (c e : Nat)
  /-- R414. COPY_OUT writes local bytes to the host by RDMA WRITE. -/
  | consistCopyOut (n : Fin 256) (c e : Nat)
  /-- R414. COPY_LOCAL copies between two local ranges. -/
  | consistCopyLocal (n : Fin 256) (c e : Nat)
  /-- R415. A JOB entry submits the job image for admission. -/
  | consistJob (n : Fin 256) (c e : Nat)
  /-- R416. After every write of a consist has landed its completion is sent as a SEND. -/
  | consistComplete (n : Fin 256) (c : Nat)
  /-- R409. Requests unacknowledged through their retries move the QP to ERROR with TIMEOUT. -/
  | qpAckTimeout (n : Fin 260)
  /-- R416. A completion refused with RNR NAK is retried every 1 ms. -/
  | rnrRetry (n : Fin 260)
  /-- R422. A write of a port's configuration or GID is refused while data QPs are READY, or checked for range. -/
  | hstPortCfgWrite (q : Fin 4) (k : Fin 4) (r : Fin 3) (v : Word)
  /-- R426. Power-good rises and the cold-start sequence runs. -/
  | powerGoodRise (o : StartObs)
  /-- R515. Power-good falls, every domain but VCTRL stops and the valve opens. -/
  | powerGoodFall
  /-- R512. RESET_N falling acts as a loss of power-good. -/
  | resetNFall
  /-- R511. With RESET_N and FLASH_EN_N both low the module releases its flash pins. -/
  | flashEnNFall
  /-- R511. FLASH_EN_N rising with RESET_N high ends the held reset and begins a cold start. -/
  | flashEnNRise (o : StartObs)
  /-- R424. A write of BUP_RESET with KEY 0xA5 starts a warm reset on the named slot. -/
  | bupReset (q : Fin 4) (key : BitVec 8) (slot : BitVec 2) (o : StartObs)
  /-- R437. After a stop the recovery area is prepared and RECOVERY set. -/
  | recoveryAreaReady
  /-- R444. A new defect entry is written to the alternate copy within 1 s. -/
  | defectListWrite
  /-- R427. The HBM test phases of every stack end and HBM is set or left clear. -/
  | hbmTestDone (o : HbmObs)
  /-- R448. ERASE erases one flash sector. -/
  | flashErase (q : Fin 4) (n : Fin 1024)
  /-- R448. PROGRAM erases and writes one sector from 64 KiB of local memory. -/
  | flashProgram (q : Fin 4) (n : Fin 1024) (src4k : BitVec 28)
  /-- R448. VERIFY_SLOT applies the checks of R436 to a structure slot and reports the result. -/
  | flashVerifySlot (q : Fin 4) (n : Fin 1024) (sig : SigVerdict)
  /-- R448. A flash command ends and its status is reported. -/
  | flashCommandComplete
  /-- R517. Loss of SDSCLK clears LINK and ETH LOCKED and takes every port out of service. -/
  | sdsclkLoss
  /-- R517. On SDSCLK's return LOCKED sets and the ports retrain. -/
  | sdsclkReturn
  /-- R454. Every 10 us the governor updates the burst bucket, the ceiling and the issue level under ramps and floor. -/
  | governorUpdate (draw : Nat) (levels : List Nat)
  /-- R451. Every 100 us the governor measures input voltage and current and enters TRIP on a 1 ms excursion. -/
  | supplySample (vin : Fin 16384)
  /-- R461. Every 100 ms the governor sets the valve duty from feed-forward and PI terms. -/
  | valveUpdate
  /-- R460. Inlet and outlet temperatures are read every 10 ms and flow counted every 1 s. -/
  | plantSample (o : PlantObs)
  /-- R459. The governor reads the shelf's status and measurements over PMBus every 10 ms. -/
  | shelfPoll (r : Option ShelfRead)
  /-- R459. SMBALERT# pulled low makes the governor read the shelf within 200 us. -/
  | smbalert (r : Option ShelfRead)
  /-- R459. No valid shelf read for 1 s sets SHELF_LOST and applies the battery ceiling. -/
  | shelfLost
  /-- R462. On leaving TRIP the governor requests a warm reset. -/
  | tripExitReset (o : StartObs)
  /-- R466. A write of CAP_W sets the driver's ceiling or is refused with VERIFY. -/
  | pwrLimitWrite (q : Fin 4) (v : Word)
  /-- R475. A write of SEC_CMD_SUBMIT starts a security command or is refused while BUSY. -/
  | secCmdSubmit (q : Fin 4) (v : Word)
  /-- R477. PROVISION burns serial, MAC, VLAN and ID_SEED, then PROVISIONED. -/
  | provision (sigOk : Bool) (masks : List Nat) (seedOk : Bool)
  /-- R474. CERT_STORE writes the identity certificate to flash. -/
  | certStore (sigOk : Bool)
  /-- R480. ENTER_FIELD burns the FIELD state. -/
  | enterField (sigOk : Bool) (masks : List Nat)
  /-- R480. ENTER_RETURN erases both structure slots and burns RETURN. -/
  | enterReturn (sigOk : Bool) (masks : List Nat)
  /-- R480. SCRAP wipes, erases every slot, burns ID_SEED and enters SCRAPPED. -/
  | scrap (sigOk : Bool) (masks : List Nat)
  /-- R477. KEY_PROG burns an owner public key into an empty slot. -/
  | keyProg (sigOk : Bool) (masks : List Nat)
  /-- R477. KEY_REVOKE burns the revoke bit of an owner key. -/
  | keyRevoke (sigOk : Bool) (masks : List Nat)
  /-- R477. FW_REVOKE burns the revoke bit of a firmware key hash. -/
  | fwRevoke (sigOk : Bool) (masks : List Nat)
  /-- R477. SVN_COMMIT raises FW_SVN_MIN to the running SVN. -/
  | svnCommit (masks : List Nat)
  /-- R482. DEBUG_UNLOCK unlocks the named debug classes until the next start. -/
  | debugUnlock (sigOk : Bool)
  /-- R478. DEFECT_CLEAR removes a range of defect-list entries in RETURN. -/
  | defectClear (sigOk : Bool)
  /-- R474. IDENT_READ returns the identity public key and certificate. -/
  | identRead
  /-- R484. ATTEST writes a signed attestation report over the driver's nonce. -/
  | attest
  /-- R480. A warm reset begins 1 ms after a transition's burn completes. -/
  | lifecycleWarmReset (o : StartObs)
  /-- R489. A write of TST_DCQ sets the delay of a domain crossing's queues. -/
  | tstDcqWrite (q : Fin 4) (v : Word)
  /-- R489. A write of TST_THROTTLE sets back-pressure on a target. -/
  | tstThrottleWrite (q : Fin 4) (v : Word)
  /-- R489. A write of TST_CREDIT delays credit returns on listed ports. -/
  | tstCreditWrite (q : Fin 4) (v : Word)
  /-- R489. A write of TST_REFRESH stretches refresh on listed stacks. -/
  | tstRefreshWrite (q : Fin 4) (v : Word)
  /-- R490. A write of 1 to ARM starts the injection named by KIND after DELAY_US. -/
  | tstInjArm (q : Fin 4) (v : Word)
  /-- R490. HBM_CE inverts data bytes 0 and 1 of a stored codeword. -/
  | injectHbmCe
  /-- R490. HBM_UE inverts data bytes 0 to 3 of a stored codeword. -/
  | injectHbmUe
  /-- R490. MS_UE marks a map-store word uncorrectable. -/
  | injectMsUe
  /-- R490. D2D_CRC sends COUNT flits with a bad CRC on a die-to-die link. -/
  | injectD2dCrc
  /-- R490. FAB_FEC corrupts symbols of the next codeword on a fabric port. -/
  | injectFabFec
  /-- R490. FORCE_HALT requests a pre-emption as PREEMPT does. -/
  | forceHalt
  /-- R490. FORCE_RETRAIN takes a port out of service without drain and retrains it. -/
  | forceRetrain
  /-- R491. A write of TST_PERF_SELi selects an event and clears its counter. -/
  | tstPerfSelWrite (q : Fin 4) (i : Fin 16) (v : Word)
  /-- R492. A write of TST_TRACE_CTRL ENABLE clears the buffer and controls capture. -/
  | tstTraceEnable (q : Fin 4) (v : Word)
  /-- R492. EYE_START scans a lane's eye and records eye points. -/
  | eyeStart (q : Fin 4) (v : Word) (points : List Nat)
  /-- R493. A write of TST_VALVE_OVR overrides the valve duty. -/
  | tstValveOvrWrite (q : Fin 4) (v : Word)
  /-- R493. A direct PMBUS_READ command reads the shelf into a local buffer. -/
  | pmbusRead (q : Fin 4) (code : Fin 256) (addr : BitVec 40) (shelf : Option (List Byte))
  /-- R493. A direct PMBUS_WRITE command writes a PMBus command to the shelf. -/
  | pmbusWrite (q : Fin 4) (code : Fin 256) (addr : BitVec 40)
  /-- R493. A direct FLASH_READ copies 64 bytes of flash into local memory. -/
  | flashRead (q : Fin 4) (addr : BitVec 40)
  /-- R198. The copy of a MOVE_PAGE ends, the new addresses are set and the entry returns from BUSY to MAPPED. -/
  | movePageCopyDone
  /-- R314. A packet whose output group has had no ACCEPTED port for longer than REMOTE_NS is discarded, counted in DROPS and answered with an ERROR carrying TIMEOUT. -/
  | noAcceptedPortTimeout (own : Bool) (n : Nat)
  /-- R304. A port sends a CONTROL flit with acknowledgements, NAK and credits at least once per us and after 85 DATA flits, carrying the identity record every 1 ms. -/
  | controlFlitSend (p : Fin 36) (ident : Bool)
  /-- R416. An ACK, NAK or RDMA READ response from the host arrives for a request that the module issued, advancing a COPY_IN, COPY_OUT or completion SEND. -/
  | roceResponse (n : Fin 260) (r : RoceResp)
  deriving DecidableEq, Repr

end Sys2Proof
end

