-- ==== Sys2Proof/WellFormed.lean ====
section
/-! DEFINITION. Well-formed commands: every operand within the width that the spec gives its field. -/

namespace Sys2Proof

open Sys2Proof.Machine

/-- A logical core and a context (R29, Table 03-2). -/
def Machine.Site.wf (t : Site) : Bool := decide (t.core < 2048) && decide (t.ctx < 16)

/-- Instruction header (Table 03-3). -/
def Machine.Hdr.wf (h : Hdr) : Bool := decide (h.wait < 64) && decide (h.signal < 64)

/-- A packet sequence number, an address of RDMA, an R_Key and a length (RoCEv2, Table 15-1). -/
def psnOk (x : Nat) : Bool := decide (x < 2 ^ 24)
def addrOk (x : Nat) : Bool := decide (x < 2 ^ 64)
def rkeyOk (x : Nat) : Bool := decide (x < 2 ^ 32)
def lenOk (x : Nat) : Bool := decide (x < 2 ^ 32)

/-- Predicted draws at I = 48 to 64 (R453). -/
def levelsOk (l : List Nat) : Bool := decide (l.length = 17)

/-- Credits of the eight virtual channels (R305). -/
def creditsOk (l : List Nat) : Bool := decide (l.length = 8)

/-- Header of a fabric packet that arrives (Table 11-12). -/
def Machine.PktHdr.wf (h : PktHdr) : Bool :=
  decide (h.port < 36) && decide (h.sub < 2) && decide (h.src < 2 ^ 14) && decide (h.addr < 2 ^ 40) && decide (h.tag < 2 ^ 16)
    && decide (h.reqId < 2 ^ 14)

/-- A packet in transit (Table 11-12). -/
def Machine.Packet.wf (x : Packet) : Bool :=
  decide (x.sub < 2) && decide (x.dst < 2 ^ 14) && decide (x.src < 2 ^ 14) && decide (x.addr < 2 ^ 40) && decide (x.tag < 2 ^ 16)
    && decide (x.reqId < 2 ^ 14)

/-- Gradient fields of a packet (Table 12-6). -/
def Machine.GradPkt.wf (p : GradPkt) : Bool := decide (p.op < 256) && decide (p.stage < 4)

/-- An Ethernet frame (R402): a VLAN and a QP number have 12 and 24 bits. -/
def Machine.EthFrame.wf (f : EthFrame) : Bool := decide (f.vlan.getD 0 < 4096) && psnOk f.qpn

/-- A response of the host. -/
def Machine.RoceResp.wf (r : RoceResp) : Bool :=
  match r with
  | .ack psn => psnOk psn
  | .data psn _ => psnOk psn
  | .nak psn => psnOk psn
  | .rnr psn => psnOk psn

/-- An identity record has 64 bytes (Table 11-5). -/
def recordOk (l : List Byte) : Bool := decide (l.length = 64)

/-- A register write: its address lies in the register window (R495). -/
def Machine.RegAccess.wf (x : RegAccess) : Bool := decide (0xf000000000 ≤ x.addr.toNat) && decide (1 ≤ x.len)

/-- Is a command well-formed? -/
def Instr.wf (i : Instr) : Bool :=
  match i with
  | .registerWrite x => x.wf
  | .vioLogRead _ psn _ first words _ => psnOk psn && decide (first + words ≤ 512)
  | .d2dFlitCrcFail _ => true
  | .d2dLinkOutOfService _ => true
  | .instrNop t h => t.wf && h.wf
  | .mma t h o => t.wf && h.wf && o.inWidth
  | .mmaSlotMaximaWait t h o => t.wf && h.wf && o.inWidth
  | .drain t h o => t.wf && h.wf && o.inWidth
  | .drainOwnerWait t h o => t.wf && h.wf && o.inWidth
  | .clearb t h o => t.wf && h.wf && o.inWidth
  | .xmax t h o => t.wf && h.wf && o.inWidth
  | .xmaxSlotPost t => t.wf
  | .xmerge t h o => t.wf && h.wf && o.inWidth
  | .xmergeOwnerMerge t => t.wf
  | .vopAdd t h o => t.wf && h.wf && o.inWidth
  | .vopSub t h o => t.wf && h.wf && o.inWidth
  | .vopMul t h o => t.wf && h.wf && o.inWidth
  | .vopFma t h o => t.wf && h.wf && o.inWidth
  | .vopMin t h o => t.wf && h.wf && o.inWidth
  | .vopMax t h o => t.wf && h.wf && o.inWidth
  | .vopCvt t h o => t.wf && h.wf && o.inWidth
  | .vopCmp t h o => t.wf && h.wf && o.inWidth
  | .vopAnd t h o => t.wf && h.wf && o.inWidth
  | .vopOr t h o => t.wf && h.wf && o.inWidth
  | .vopXor t h o => t.wf && h.wf && o.inWidth
  | .vopShl t h o => t.wf && h.wf && o.inWidth
  | .vopShr t h o => t.wf && h.wf && o.inWidth
  | .vopSel t h o => t.wf && h.wf && o.inWidth
  | .vopAbs t h o => t.wf && h.wf && o.inWidth
  | .vopNeg t h o => t.wf && h.wf && o.inWidth
  | .laccClearSum t h o => t.wf && h.wf && o.inWidth
  | .laccClearProduct t h o => t.wf && h.wf && o.inWidth
  | .laccAdd t h o => t.wf && h.wf && o.inWidth
  | .laccDrain t h o => t.wf && h.wf && o.inWidth
  | .sfnExp2 t h o => t.wf && h.wf && o.inWidth
  | .sfnExp t h o => t.wf && h.wf && o.inWidth
  | .sfnLog2 t h o => t.wf && h.wf && o.inWidth
  | .sfnLn t h o => t.wf && h.wf && o.inWidth
  | .sfnTanh t h o => t.wf && h.wf && o.inWidth
  | .sfnSigmoid t h o => t.wf && h.wf && o.inWidth
  | .sfnErf t h o => t.wf && h.wf && o.inWidth
  | .sfnRcp t h o => t.wf && h.wf && o.inWidth
  | .sfnRsqrt t h o => t.wf && h.wf && o.inWidth
  | .sfnSqrt t h o => t.wf && h.wf && o.inWidth
  | .sfnSinpi t h o => t.wf && h.wf && o.inWidth
  | .sfnCospi t h o => t.wf && h.wf && o.inWidth
  | .sfnSilu t h o => t.wf && h.wf && o.inWidth
  | .sfnGelu t h o => t.wf && h.wf && o.inWidth
  | .sfnExp2a t h o => t.wf && h.wf && o.inWidth
  | .sfnScalb t h o => t.wf && h.wf && o.inWidth
  | .sfnAnch t h o => t.wf && h.wf && o.inWidth
  | .sfnHmax t h o => t.wf && h.wf && o.inWidth
  | .sfnHmin t h o => t.wf && h.wf && o.inWidth
  | .sfnLsave t h o => t.wf && h.wf && o.inWidth
  | .sfnLmerge t h o => t.wf && h.wf && o.inWidth
  | .rngBits t h o => t.wf && h.wf && o.inWidth
  | .rngUniform t h o => t.wf && h.wf && o.inWidth
  | .rngUniformOpen t h o => t.wf && h.wf && o.inWidth
  | .rngNormalFast t h o => t.wf && h.wf && o.inWidth
  | .rngNormalPrecise t h o => t.wf && h.wf && o.inWidth
  | .rngSample t h o => t.wf && h.wf && o.inWidth
  | .ld t h o => t.wf && h.wf && o.inWidth
  | .st t h o => t.wf && h.wf && o.inWidth
  | .move t h o => t.wf && h.wf && o.inWidth
  | .semSet t h o => t.wf && h.wf && o.inWidth
  | .semAdd t h o => t.wf && h.wf && o.inWidth
  | .branchAlways t h o => t.wf && h.wf && o.inWidth
  | .branchLoop t h o => t.wf && h.wf && o.inWidth
  | .branchNonzero t h o => t.wf && h.wf && o.inWidth
  | .branchLoadLoop t h o => t.wf && h.wf && o.inWidth
  | .attPass t h o => t.wf && h.wf && o.inWidth
  | .walkBusyRetry t h o => t.wf && h.wf && o.inWidth
  | .attSlotPost t => t.wf
  | .attFinalAnchors t h => t.wf && h.wf
  | .attSend t h o => t.wf && h.wf && o.inWidth
  | .attDrain t h o => t.wf && h.wf && o.inWidth
  | .winFetch t h o => t.wf && h.wf && o.inWidth
  | .haloGateWait t h o _ => t.wf && h.wf && o.inWidth
  | .winMma t h o => t.wf && h.wf && o.inWidth
  | .winWmax t h o => t.wf && h.wf && o.inWidth
  | .winPool t h o => t.wf && h.wf && o.inWidth
  | .winPut t h o => t.wf && h.wf && o.inWidth
  | .nest t h o => t.wf && h.wf && o.inWidth
  | .itemEnd t => t.wf
  | .nestComplete => true
  | .endInstr t h => t.wf && h.wf
  | .instructionComplete core _ => decide (core < 2048)
  | .semWaitTimeout t => t.wf
  | .slotWaitTimeout t => t.wf
  | .fwSegmentMessage _ _ => true
  | .fwEndMessage _ _ _ => true
  | .fwPullTimeout _ _ _ _ => true
  | .coreLimitsWrite _ _ => true
  | .sfuTableLoad _ _ => true
  | .sfuTableLoadDone _ _ => true
  | .sfuSwap _ => true
  | .sfuDiscard _ => true
  | .kvpEnable _ => true
  | .kvpDisable _ => true
  | .kvpLimitsWrite _ _ => true
  | .kvpCmdSubmit _ _ => true
  | .ctxSet => true
  | .seqPublish => true
  | .seqClear => true
  | .mapCmd => true
  | .sealPage => true
  | .movePage => true
  | .replace => true
  | .freeCmd => true
  | .stagedChangesApplyIdle => true
  | .jobBoundary => true
  | .restoreComplete => true
  | .jobTilesStart => true
  | .jobComplete => true
  | .ngeBind _ _ _ => true
  | .ngeUnbind _ _ _ => true
  | .ngePictureRun _ => true
  | .hbmRequest _ _ _ len _ => lenOk len
  | .scrubStep _ => true
  | .skewWindowEnd => true
  | .stackTemperatureHot _ _ => true
  | .hbmSkewCtrlWrite _ _ => true
  | .hbmScrubCtrlWrite _ _ => true
  | .hbmNarrowCtrlWrite _ _ => true
  | .bwrSwap _ => true
  | .bwrSwapEpoch => true
  | .bwrStageWrite _ _ _ => true
  | .msUncorrectableRead _ _ len => lenOk len
  | .portTrainingAttempt _ o => o.records.all recordOk
  | .trainingStepTimeout _ => true
  | .retrainInterval _ => true
  | .identRecordReceived _ body _ => decide (body.length = 60)
  | .identTimeout _ => true
  | .dataFlitReceived _ _ _ _ => true
  | .controlFlitReceived _ _ _ credits => creditsOk credits
  | .controlFlitTimeout _ => true
  | .laneSignalLoss _ => true
  | .groupRebuild _ _ => true
  | .packetForward _ x => x.wf
  | .fabricWrite h _ => h.wf
  | .fabricRead h len => h.wf && lenOk len
  | .fabricPostAtt h _ => h.wf
  | .fabricPostMergedInc h => h.wf
  | .fabricAck h _ _ => h.wf
  | .fabricReadData h _ _ => h.wf
  | .fabricError h _ => h.wf
  | .remoteTimeout _ => true
  | .fabTtLoad _ _ => true
  | .fabTtLoadDone => true
  | .ttSwap _ => true
  | .ttDiscard _ => true
  | .minWidthWrite _ _ => true
  | .fabLimitsWrite _ _ => true
  | .fabWinWrite _ _ _ _ => true
  | .portRetrain _ _ => true
  | .portDisable _ _ => true
  | .topoDone => true
  | .grdOpen _ _ => true
  | .grdChunkSend _ _ => true
  | .grdRaw h p => h.wf && p.wf
  | .grdPart h p => h.wf && p.wf
  | .grdSample h p => h.wf && p.wf
  | .grdGather h p => h.wf && p.wf
  | .grdStageDeadline _ _ _ _ => true
  | .grdTotalTimeout _ => true
  | .grdResend _ => true
  | .grdComplete _ => true
  | .medCmdSubmit _ _ => true
  | .medOpen => true
  | .medClose => true
  | .medFlush => true
  | .roiSet => true
  | .rateSet => true
  | .medKey => true
  | .unitQueuePoll _ => true
  | .pictureStart _ _ _ _ _ => true
  | .pictureComplete _ _ _ => true
  | .slotBoundary => true
  | .quantumExpiry => true
  | .preempt _ => true
  | .preemptHalted => true
  | .preemptDrained => true
  | .preemptSaved => true
  | .preemptTimeout => true
  | .ttLoad _ _ => true
  | .ttLoadDone => true
  | .ttSwapRequest _ => true
  | .ttStagedDiscard _ => true
  | .ttLimitsWrite _ _ => true
  | .sidingDetach _ _ => true
  | .sidingRelease _ _ => true
  | .sidingAttach _ _ => true
  | .hostLinkUp _ _ => true
  | .hostLinkDown _ => true
  | .ethFrameReceived _ f => f.wf
  | .cnpReceived _ => true
  | .cmReq _ service => addrOk service
  | .cmDreq _ => true
  | .mgmtRdmaWrite _ psn va _ _ => psnOk psn && addrOk va
  | .mgmtRdmaRead _ psn va len => psnOk psn && addrOk va && lenOk len
  | .dataQpRdmaWrite _ psn va rkey _ => psnOk psn && addrOk va && rkeyOk rkey
  | .dataQpRdmaRead _ psn va rkey len => psnOk psn && addrOk va && rkeyOk rkey && lenOk len
  | .qpStateWrite _ _ _ _ => true
  | .doorbell _ _ => true
  | .consistNop _ _ _ => true
  | .consistCopyIn _ _ _ => true
  | .consistCopyOut _ _ _ => true
  | .consistCopyLocal _ _ _ => true
  | .consistJob _ _ _ => true
  | .consistComplete _ _ => true
  | .qpAckTimeout _ => true
  | .rnrRetry _ => true
  | .hstPortCfgWrite _ _ _ _ => true
  | .powerGoodRise _ => true
  | .powerGoodFall => true
  | .resetNFall => true
  | .flashEnNFall => true
  | .flashEnNRise _ => true
  | .bupReset _ _ _ _ => true
  | .recoveryAreaReady => true
  | .defectListWrite => true
  | .hbmTestDone _ => true
  | .flashErase _ _ => true
  | .flashProgram _ _ _ => true
  | .flashVerifySlot _ _ _ => true
  | .flashCommandComplete => true
  | .sdsclkLoss => true
  | .sdsclkReturn => true
  | .governorUpdate _ levels => levelsOk levels
  | .supplySample _ => true
  | .valveUpdate => true
  | .plantSample _ => true
  | .shelfPoll _ => true
  | .smbalert _ => true
  | .shelfLost => true
  | .tripExitReset _ => true
  | .pwrLimitWrite _ _ => true
  | .secCmdSubmit _ _ => true
  | .provision _ _ _ => true
  | .certStore _ => true
  | .enterField _ _ => true
  | .enterReturn _ _ => true
  | .scrap _ _ => true
  | .keyProg _ _ => true
  | .keyRevoke _ _ => true
  | .fwRevoke _ _ => true
  | .svnCommit _ => true
  | .debugUnlock _ => true
  | .defectClear _ => true
  | .identRead => true
  | .attest => true
  | .lifecycleWarmReset _ => true
  | .tstDcqWrite _ _ => true
  | .tstThrottleWrite _ _ => true
  | .tstCreditWrite _ _ => true
  | .tstRefreshWrite _ _ => true
  | .tstInjArm _ _ => true
  | .injectHbmCe => true
  | .injectHbmUe => true
  | .injectMsUe => true
  | .injectD2dCrc => true
  | .injectFabFec => true
  | .forceHalt => true
  | .forceRetrain => true
  | .tstPerfSelWrite _ _ _ => true
  | .tstTraceEnable _ _ => true
  | .eyeStart _ _ _ => true
  | .tstValveOvrWrite _ _ => true
  | .pmbusRead _ _ _ _ => true
  | .pmbusWrite _ _ _ => true
  | .flashRead _ _ => true
  | .movePageCopyDone => true
  | .noAcceptedPortTimeout _ _ => true
  | .controlFlitSend _ _ => true
  | .roceResponse _ r => r.wf

end Sys2Proof
end

