-- ==== Sys2Proof/Config.lean ====
section
/-! DEFINITION. What the spec leaves open: free values without a body. A claim holds whatever they are. Each
is applied to the operands it depends on, or to the state's counter of free values. -/

namespace Sys2Proof.Config

/-- Free value. Whether a recorded stamp is 3 or 4 counts behind the counter (R33). Log entry 6 applies (DESIGN CHOICE). -/
opaque stampLag4 : Nat → Bool

/-- Free value. The result of VOP CMP on two lanes; Table 03-20 states none (R524). Log entry 24 applies (DESIGN CHOICE). -/
opaque vopCmp : Lane → Lane → Lane → Lane

/-- Free value. The result of VOP SEL on its lanes; Table 03-20 states none (R524). Log entry 24 applies (DESIGN CHOICE). -/
opaque vopSel : Lane → Lane → Lane → Lane

/-- Free value. The result of VOP CVT to an MX element format, for which Table 03-20 states none.
Log entry 24 applies (DESIGN CHOICE). -/
opaque vopCvtMx : Nat → Lane → Lane

/-- Free value. Where, inside the error bound, a special function's result steps from one FP32 number to the next, by
table generation, mode, function and number (R142, R146). Log entry 34 applies (DESIGN CHOICE). -/
opaque sfnStep : Nat → Nat → Nat → Nat → Nat

/-- Free value. The generation of the coefficient tables that a core microcode image carries (R156).
Log entry 136 applies (DESIGN CHOICE). -/
opaque firmwareGen : List Byte → Nat

/-- Free value. Entry p of the polynomial table, which only the companion data file lists (R240).
Log entry 38 applies (DESIGN CHOICE). -/
opaque polyTable : Nat → BitVec 128

/-- Free value. The result of reading a codeword with six or more bad bytes: whether the code still
detects it (R283). Log entry 39 applies (DESIGN CHOICE). -/
opaque miscorrected : Nat → Nat → Bool

/-- Free value. The bytes a miscorrected codeword holds, by draw and address (R283). Log entry 39 applies (DESIGN CHOICE). -/
opaque miscorrectedByte : Nat → Nat → Byte

/-- Free value. A byte of the staging area after a PASS, by draw and address (R169). Log entry 132 applies (DESIGN CHOICE). -/
opaque stagedByte : Nat → Nat → Byte

/-- Free value. How the CRC that a packet in transit carries differs from the right one, where it arrived with a CRC that fails,
by draw (R317). Log entry 135 applies (DESIGN CHOICE). -/
opaque brokenCrc : Nat → Nat

/-- Free value. The ID of the module at coordinates X, Y, Z, which the integrator assigns (R309).
Log entry 70 applies (DESIGN CHOICE). -/
opaque moduleAt : Nat → Nat → Nat → Nat

/-- Free value. Three of the four weights of BILINEAR, in units of 2^-16, by the fractions of the two coordinates; the
fourth is what is left of one (R232). Log entry 83 applies (DESIGN CHOICE). -/
opaque bilinear : Nat → Nat → Nat × Nat × Nat

/-- Free value. A sample that a narrow-gauge stage reads outside a picture smaller than its stream's, by draw and
position. Log entry 83 applies (DESIGN CHOICE). -/
opaque outsideSample : Nat → Nat → Nat

/-- Free value. The sample that PACK makes of a NaN, by draw and position (R232). Log entry 83 applies (DESIGN CHOICE). -/
opaque packNan : Nat → Nat → Nat

/-- Free value. A byte of a compressed reference, by draw and place (R365). Log entry 80 applies (DESIGN CHOICE). -/
opaque refByte : Nat → Nat → Byte

/-- Free value. The engines that a MEDIA section leaves out of service, in bits as in `DEC_OUT` [15:0], `ENC_OUT` [23:16] and the
narrow-gauge engines [27:24]; the spec gives the section no layout (Table 16-8). Log entry 98 applies (DESIGN CHOICE). -/
opaque mediaOut : List Byte → Nat

/-- Free value. Whether a valve duty between two steps of 1/1,024 is rounded up, by its numerator and denominator (R461).
Log entry 109 applies (DESIGN CHOICE). -/
opaque dutyUp : Int → Nat → Bool

/-- Free value. A SHA-512 digest of named contents, an external standard. Log entry 114 applies (DESIGN CHOICE). -/
opaque digest : List Byte → BitVec 512

/-- Free value. The identity public key of the secure-boot root (R473, R484).
Log entry 114 applies (DESIGN CHOICE). -/
opaque identityKey : Nat → BitVec 1056
/-- Free value. A signature of the identity key, an external standard. Log entry 114 applies (DESIGN CHOICE). -/
opaque signature : List Byte → BitVec 1056

/-- Free value. A draw of the root's entropy source (R477). Log entry 114 applies (DESIGN CHOICE). -/
opaque entropy : Nat → BitVec 512

end Sys2Proof.Config
end

