-- ==== Sys2Proof/Machine/Num.lean ====
section
/-! DEFINITION. Element formats, exact values and the one rounding (02_exact_arithmetic.md, R46–R48,
R52, R64, R67, R68, R73, R74; format and rounding codes of Tables 00-5 and 00-6). A value is an integer
times a power of two; every rounding goes through `roundAt`. -/

namespace Sys2Proof.Machine

/-! ### Arithmetic flags (Table 02-8), as the bits of one number -/

def flagWindow : Nat := 1
def flagInvalid : Nat := 2
def flagNanIn : Nat := 4
def flagOverflow : Nat := 8
def flagSat : Nat := 16
def flagTiny : Nat := 32

/-- The flag bit where the condition holds. -/
def flagIf (c : Bool) (f : Nat) : Nat := if c then f else 0

/-! ### Formats -/

/-- Bits of one element of a format code (Table 00-5). -/
def fmtBits : Nat → Nat
  | 0 => 32 | 1 => 16 | 2 => 16 | 3 => 8 | 4 => 8 | 5 => 6 | 6 => 6 | 7 => 4 | 8 => 8 | 9 => 8 | _ => 32

/-- The MX formats, which share a block scale (R21, R47). -/
def isMX (c : Nat) : Bool := decide (3 ≤ c) && decide (c ≤ 8)

/-- Element bytes of one 32-element block of an MX format (Table 02-2); 32 times the element otherwise. -/
def blockBytes (c : Nat) : Nat := 4 * fmtBits c

/-- Exponent bits, mantissa bits and bias of a floating format (Table 02-1). -/
def fmtEMB : Nat → Nat × Nat × Nat
  | 0 => (8, 23, 127) | 1 => (8, 7, 127) | 2 => (5, 10, 15) | 3 => (4, 3, 7) | 4 => (5, 2, 15)
  | 5 => (3, 2, 3) | 6 => (2, 3, 1) | _ => (2, 1, 1)

/-- Formats with an infinity (Table 02-1). -/
def fmtHasInf (c : Nat) : Bool := c = 0 || c = 1 || c = 2 || c = 4

/-- Integer formats: MXINT8, INT8, INT32. -/
def fmtIsInt (c : Nat) : Bool := c = 8 || c = 9 || c = 10

/-- An exact element value: a finite `±m × 2^e`, an infinity or a NaN. -/
inductive FVal where
  | fin (neg : Bool) (m : Nat) (e : Int)
  | inf (neg : Bool)
  | nan
  deriving DecidableEq, Repr

/-- The value of element bits `w` in format `c` (R46, Table 02-1), block scale apart. -/
def decodeElem (c w : Nat) : FVal :=
  if fmtIsInt c then
    let x := signed (fmtBits c) w
    .fin (decide (x < 0)) x.natAbs (if c = 8 then -6 else 0)
  else
    let (eb, mb, bias) := fmtEMB c
    let neg := bit w (eb + mb)
    let ex := bits w (eb + mb - 1) mb
    let mant := bits w (mb - 1) 0
    let top : Nat := 2 ^ eb - 1
    if fmtHasInf c && ex = top then (if mant = 0 then .inf neg else .nan)
    else if c = 3 && ex = top && mant = 7 then .nan
    else if ex = 0 then .fin neg mant (1 - (bias : Int) - mb)
    else .fin neg (mant + 2 ^ mb) ((ex : Int) - bias - mb)

/-- The canonical NaN a format is written with (R48); in a format without one a NaN's element bits are zero. -/
def canonicalNaN : Nat → Nat
  | 0 => 0x7fc00000 | 1 => 0x7fc0 | 2 => 0x7e00 | 3 => 0x7f | 4 => 0x7e | _ => 0

/-- The signed integer `±m`. -/
def sgn (neg : Bool) (m : Nat) : Int := if neg then -(m : Int) else (m : Int)

/-- `x × 2^k` for k ≥ 0, floor of the quotient for k < 0. -/
def shiftInt (x : Int) (k : Int) : Int :=
  if 0 ≤ k then x * (2 ^ k.toNat : Nat) else x.fdiv (2 ^ (-k).toNat : Nat)

/-- Position of the highest set bit of `m` (0 for m = 0). -/
def log2 (m : Nat) : Nat := m.log2

/-! ### Rounding -/

/-- Magnitude `m × 2^e`, changed by an infinitesimal of sign `eps`, rounded to a multiple of `2^lsb`
under a code of Table 00-6. Under STOCH the source ends at `src`, `c = lsb − src` random bits are read
as `rnd c`, and the value rounds away when they are below the cut-off bits (R74). Log entry 23 applies (DEDUCED). -/
def roundAt (code : Nat) (neg : Bool) (m : Nat) (e : Int) (eps : Int) (lsb src : Int)
    (rnd : Nat → Nat) : Nat :=
  let d : Nat := if lsb ≤ e then 1 else 2 ^ (lsb - e).toNat
  let q0 : Nat := if lsb ≤ e then m * 2 ^ (e - lsb).toNat else m / d
  let r0 : Nat := if lsb ≤ e then 0 else m % d
  let below := decide (eps < 0) && r0 = 0 && decide (0 < q0)
  let q := if below then q0 - 1 else q0
  let r := if below then d else r0
  let inexact := decide (r ≠ 0) || decide (0 < eps)
  let up : Bool :=
    match code with
    | 1 => false
    | 2 => inexact && neg
    | 3 => inexact && !neg
    | 4 => decide (2 * r > d) || (decide (2 * r = d) && decide (0 ≤ eps))
    | 5 =>
      let c := (lsb - src).toNat
      let cut := if e ≤ src then r0 / 2 ^ (src - e).toNat else r0 * 2 ^ (e - src).toNat
      decide (rnd c < cut)
    | _ => decide (2 * r > d) || (decide (2 * r = d) && (decide (0 < eps) || (decide (eps = 0) && q % 2 = 1)))
  let base := if code = 5 then q0 else q
  if up then base + 1 else base

/-- Result bits and flags of one conversion. -/
structure Conv where
  bits : Nat
  flags : Nat
  deriving DecidableEq, Repr

/-- Encode `mag × 2^lsb`, a value that format `c` holds exactly. -/
def encodeFin (c : Nat) (neg : Bool) (mag : Nat) (lsb : Int) : Nat :=
  let (eb, mb, bias) := fmtEMB c
  let s := b2n neg * 2 ^ (eb + mb)
  if mag = 0 then s
  else
    let ex : Int := (log2 mag : Int) + lsb
    let emin : Int := 1 - (bias : Int)
    if ex < emin then s + (shiftInt mag (lsb - (emin - mb))).toNat
    else s + (ex + bias).toNat * 2 ^ mb + (shiftInt mag (lsb - (ex - mb))).toNat - 2 ^ mb

/-- The largest finite encoding of a format, sign apart (Table 02-1). -/
def maxFinite (c : Nat) : Nat :=
  let (eb, mb, _) := fmtEMB c
  if fmtHasInf c then (2 ^ eb - 1) * 2 ^ mb - 1
  else if c = 3 then 2 ^ (eb + mb) - 2 else 2 ^ (eb + mb) - 1

/-- Does the code round an overflowing magnitude to the largest finite number (IEEE 754)? -/
def overflowToMax (code : Nat) (neg : Bool) : Bool :=
  code = 1 || (code = 2 && !neg) || (code = 3 && neg)

/-- One rounding of `±(m × 2^e)`, changed by `eps`, to a floating format (R67). The rounding is done as
though the exponent range had no upper end; TINY is judged on the written result. -/
def roundFloat (c code : Nat) (neg : Bool) (m : Nat) (e eps src : Int) (rnd : Nat → Nat) : Conv :=
  let (eb, mb, bias) := fmtEMB c
  let emin : Int := 1 - (bias : Int)
  if m = 0 && eps = 0 then ⟨b2n (code = 2) * 2 ^ (eb + mb), 0⟩
  else
    let down := decide (eps < 0) && decide (m = 2 ^ log2 m)
    let ex : Int := if m = 0 then emin else (log2 m : Int) + e - (if down then 1 else 0)
    let lsb : Int := max (ex - mb) (emin - mb)
    let mag := roundAt code neg m e eps lsb src rnd
    let past := decide ((maxFinite c : Int) < (encodeFin c false mag lsb : Int))
    if past then
      if fmtHasInf c && c ≠ 4 then
        let top := b2n neg * 2 ^ (eb + mb)
        ⟨top + (if overflowToMax code neg then maxFinite c else (2 ^ eb - 1) * 2 ^ mb), flagOverflow⟩
      else ⟨b2n neg * 2 ^ (eb + mb) + maxFinite c, 0⟩
    else
      let enc := encodeFin c neg mag lsb
      ⟨enc, flagIf (decide (encodeFin c false mag lsb < 2 ^ mb)) flagTiny⟩

/-- One rounding to an integer of `w` bits, saturated (R67, R524). -/
def roundInt (w code : Nat) (neg : Bool) (m : Nat) (e eps src : Int) (rnd : Nat → Nat) : Conv :=
  let x := sgn neg (roundAt code neg m e eps 0 src rnd)
  let hi : Int := (2 ^ (w - 1) : Nat) - 1
  let lo : Int := -(2 ^ (w - 1) : Nat)
  if hi < x then ⟨unsigned w hi, flagSat⟩ else if x < lo then ⟨unsigned w lo, flagSat⟩ else ⟨unsigned w x, 0⟩

/-- Largest and least integer of `w` bits with SAT, for an infinity (R67). -/
def satInt (w : Nat) (neg : Bool) : Conv :=
  ⟨unsigned w (if neg then -(2 ^ (w - 1) : Nat) else (2 ^ (w - 1) : Nat) - 1), flagSat⟩

/-- An infinity in a floating format with one. -/
def infBits (c : Nat) (neg : Bool) : Nat :=
  let (eb, mb, _) := fmtEMB c
  b2n neg * 2 ^ (eb + mb) + (2 ^ eb - 1) * 2 ^ mb

/-! ### Exact operations on values -/

/-- Exact sum of two finite values: numerator and exponent. -/
def addFin (n1 : Int) (e1 : Int) (n2 : Int) (e2 : Int) : Int × Int :=
  let e := min e1 e2
  (shiftInt n1 (e1 - e) + shiftInt n2 (e2 - e), e)

/-- The value of an FP32 lane. -/
def lane32 (x : Lane) : FVal := decodeElem 0 x.toNat

/-- Positions below the result's last place at which the source of a vector rounding ends under STOCH (R74).
Log entry 18 applies (DEDUCED). -/
def vecSource : Int := 29

/-- One FP32 rounding of an exact value `n × 2^e` in a vector operation; an exact zero takes the sign
`zeroNeg`. Under STOCH the value is extended with zeros to the 29th position below the result's last place (R74). -/
def vecRound (code : Nat) (zeroNeg : Bool) (n e : Int) (rbits : Nat) : Conv :=
  if n = 0 then ⟨b2n zeroNeg * 2 ^ 31, 0⟩
  else
    let m := n.natAbs
    let ex : Int := (log2 m : Int) + e
    let lsb : Int := max (ex - 23) (-149)
    roundFloat 0 code (decide (n < 0)) m e 0 (lsb - vecSource) (fun c => rbits % 2 ^ c)

/-- The canonical FP32 NaN with a flag. -/
def nanConv (f : Nat) : Conv := ⟨canonicalNaN 0, f⟩

/-- Product of two values: exact, or special with its flags (R55, Table 02-8). Log entry 17 applies (DEDUCED). -/
def mulVal (a b : FVal) : FVal × Nat :=
  match a, b with
  | .nan, _ => (.nan, flagNanIn)
  | _, .nan => (.nan, flagNanIn)
  | .inf s, .inf t => (.inf (s != t), 0)
  | .inf s, .fin t m _ => if m = 0 then (.nan, flagInvalid) else (.inf (s != t), 0)
  | .fin t m _, .inf s => if m = 0 then (.nan, flagInvalid) else (.inf (s != t), 0)
  | .fin s m e, .fin t n f => (.fin (s != t) (m * n) (e + f), 0)

/-- IEEE sum of two values, rounded once; `fl` are flags already raised. Log entry 17 applies (DEDUCED). -/
def addVal (code : Nat) (a b : FVal) (rbits fl : Nat) : Conv :=
  match a, b with
  | .nan, _ => nanConv (if fl = 0 then flagNanIn else fl)
  | _, .nan => nanConv (if fl = 0 then flagNanIn else fl)
  | .inf s, .inf t => if s = t then ⟨infBits 0 s, fl⟩ else nanConv (fl ||| flagInvalid)
  | .inf s, .fin .. => ⟨infBits 0 s, fl⟩
  | .fin .., .inf t => ⟨infBits 0 t, fl⟩
  | .fin s m e, .fin t n f =>
    let (x, g) := addFin (sgn s m) e (sgn t n) f
    let zneg := if m = 0 && n = 0 && s = t then s else decide (code = 2)
    let r := vecRound code zneg x g rbits
    ⟨r.bits, r.flags ||| fl⟩

/-- Is the value a NaN? -/
def FVal.isNaN : FVal → Bool
  | .nan => true
  | _ => false

/-- The value with its sign inverted. -/
def FVal.negate : FVal → FVal
  | .fin s m e => .fin (!s) m e
  | .inf s => .inf (!s)
  | .nan => .nan

/-- `a < b` on values that are not NaN, with −0 below +0 (R524 MIN and MAX). -/
def FVal.below (a b : FVal) : Bool :=
  match a, b with
  | .nan, _ => false
  | _, .nan => false
  | .inf s, .inf t => s && !t
  | .inf s, .fin .. => s
  | .fin .., .inf t => !t
  | .fin s m e, .fin t n f =>
    let g := min e f
    let x := shiftInt (sgn s m) (e - g)
    let y := shiftInt (sgn t n) (f - g)
    decide (x < y) || (decide (x = y) && s && !t)

/-- VOP ADD on one lane (Table 03-20). -/
def vAdd (code : Nat) (a b : Lane) (rbits : Nat) : Conv :=
  addVal code (lane32 a) (lane32 b) rbits 0

/-- VOP SUB on one lane. -/
def vSub (code : Nat) (a b : Lane) (rbits : Nat) : Conv :=
  addVal code (lane32 a) (lane32 b).negate rbits 0

/-- VOP MUL on one lane. -/
def vMul (code : Nat) (a b : Lane) (rbits : Nat) : Conv :=
  match mulVal (lane32 a) (lane32 b) with
  | (.nan, f) => nanConv f
  | (.inf s, f) => ⟨infBits 0 s, f⟩
  | (.fin s m e, _) => vecRound code s (sgn s m) e rbits

/-- VOP FMA on one lane: `a × b + c` rounded once. -/
def vFma (code : Nat) (a b c : Lane) (rbits : Nat) : Conv :=
  let (p, f) := mulVal (lane32 a) (lane32 b)
  if (lane32 c).isNaN then nanConv (f ||| flagNanIn)
  else if p.isNaN then nanConv f
  else addVal code p (lane32 c) rbits 0

/-- VOP MIN and MAX on one lane (Table 03-20). -/
def vMinMax (isMax : Bool) (a b : Lane) : Conv :=
  let x := lane32 a
  let y := lane32 b
  if x.isNaN || y.isNaN then nanConv flagNanIn
  else if isMax then ⟨if x.below y then b.toNat else a.toNat, 0⟩
  else ⟨if y.below x then b.toNat else a.toNat, 0⟩

/-- VOP CVT on one lane: the FP32 value converted under R67, or rounded once to an integer and
saturated (Table 03-20). -/
def vCvt (code fmt : Nat) (a : Lane) (rbits : Nat) : Conv :=
  let w := if fmt = 9 then 8 else 32
  let isInt := fmt = 9 || fmt = 10
  match lane32 a with
  | .nan => if isInt then ⟨0, flagNanIn⟩ else ⟨canonicalNaN fmt, flagNanIn⟩
  | .inf s => if isInt then satInt w s else ⟨infBits fmt s, 0⟩
  | .fin s m e =>
    let rnd := fun c => rbits % 2 ^ c
    if isInt then roundInt w code s m e 0 (-vecSource) rnd
    else
      let (_, mb, bias) := fmtEMB fmt
      let ex : Int := (log2 m : Int) + e
      let lsb : Int := max (ex - mb) (1 - (bias : Int) - mb)
      roundFloat fmt code s m e 0 (lsb - vecSource) rnd

/-! ### Lists of bytes as element arrays (Table 02-2) -/

/-- Element `i` of a row of elements that starts at byte 0 of the little-endian number `row` (R49): MX
formats pack blocks of 32, the others hold one element after another. -/
def elemAt (c row i : Nat) : Nat := bits row (fmtBits c * i + fmtBits c - 1) (fmtBits c * i)

/-! ### CRC-32C (polynomial 0x1EDC_6F41, R104), reflected, initial and final value all ones -/

def crcStep : Nat → Nat → Nat
  | 0, x => x
  | n + 1, x => crcStep n (if x % 2 = 1 then (x / 2) ^^^ 0x82f63b78 else x / 2)

/-- CRC-32C of a list of bytes. -/
def crc32c (l : List Byte) : Nat :=
  (l.foldl (fun acc b => crcStep 8 (acc ^^^ b.toNat)) 0xffffffff) ^^^ 0xffffffff

end Sys2Proof.Machine
end

