-- ==== Sys2Proof/Machine/CoreState.lean ====
section
/-! DEFINITION. What a logical core and the job that holds the cores are made of (03_core.md,
04_tiles_and_nests.md, 14_timetable_and_jobs.md). -/

namespace Sys2Proof.Machine

/-- One wide accumulator entry (R56, Table 02-6). VALUE is kept as an integer of weight 2^(A − 160). -/
structure WideEntry where
  value : Int := 0
  anchor : Int := 0
  cut : Nat := 0
  sticky : Bool := false
  nan : Bool := false
  invalid : Bool := false
  pinf : Bool := false
  ninf : Bool := false
  count : Nat := 0
  deriving DecidableEq, Repr

/-- One long accumulator (R69, Table 02-10). VALUE is an integer of weight 2^-149 in SUM mode and
2^-224 in PRODUCT mode. -/
structure LongAcc where
  product : Bool := false
  value : Int := 0
  cut : Nat := 0
  sticky : Bool := false
  nan : Bool := false
  pinf : Bool := false
  ninf : Bool := false
  invalid : Bool := false
  count : Nat := 0
  deriving DecidableEq, Repr

/-- The item a context works on (R123, R130): its index, the exclusive end of the held chunk, and the
number of committed writes issued so far (R135). -/
structure Item where
  index : Nat
  stop : Nat
  writes : Nat
  deriving DecidableEq, Repr

/-- What the support keeps for one row of an attention part (R176): the running anchor (none is −2^31), TMIN, a NaN or
+∞ score, DIRTY. -/
structure AttRow where
  anchor : Option Int := none
  tmin : Option Int := none
  nan : Bool := false
  dirty : Bool := false
  deriving DecidableEq, Repr

/-- One PASS of a chain (R175): the words of its Q pair and its clipped key range. -/
structure AttRange where
  q : Word
  qs : Word
  lo : Nat
  hi : Nat
  deriving DecidableEq, Repr

/-- Final anchors of a part (R177): of its rows, of its columns, and the rows that some part found to be NaN. -/
structure AttFinal where
  rows : List (Nat × Option Int)
  cols : List (Nat × Int)
  nan : List Nat
  deriving DecidableEq, Repr

/-- The attention part a core holds (R175 to R178): its first PASS's operands, descriptor, sequence index and first row;
row states, running column anchors, LOW by row × 256 + column; the ranges passed; the selected pages of each row; what
its post waits for and has been answered, and its final anchors once known; and what other modules have answered to the
READs of a PASS, by fabric address (R185, R189). -/
structure AttPart where
  ops : AttOps := {}
  desc : Nat := 0
  seq : Nat := 0
  i0 : Nat := 0
  rows : List (Nat × AttRow) := []
  cvs : List (Nat × Int) := []
  lows : List (Nat × Int) := []
  ranges : List AttRange := []
  sel : Option (List (Nat × List Nat)) := none
  post : Option AttPost := none
  answer : Option (Status × List Byte) := none
  final : Option AttFinal := none
  pages : List (Nat × Status × List Byte) := []
  deriving DecidableEq, Repr

/-- A post to an exchange slot that the atomic unit has still to apply (R95): maxima of the unmasked rows
and columns, biased by 0x8000. -/
structure SlotPost where
  slot : Nat
  part : Nat
  parts : Nat
  kDecl : Nat
  k : Nat
  bank : Nat
  rows : List (Nat × Nat)
  cols : List (Nat × Nat)
  deriving DecidableEq, Repr

/-- A merge on its way to the owner bank (R97). -/
structure SlotMerge where
  slot : Nat
  bank : Nat
  m : Nat
  n : Nat
  deriving DecidableEq, Repr

/-- A FETCH that waits on a gate (R226): the side (6 the main gate), the word's address, the value it must reach and the
semaphore that the FETCH took at issue. -/
structure GateWait where
  side : Nat
  addr : Nat
  expect : Nat
  wait : Nat
  deriving DecidableEq, Repr

/-- Issue classes as far as one bars another (Table 03-4): MATRIX, MATRIX on the fetch or vector unit (R212), ACCUM, any
other. -/
inductive UnitClass where
  | matrix | feeder | accum | other
  deriving DecidableEq, Repr

/-- Instructions that can stand waiting after their issue (R96, R97, R177, R180, R199). -/
inductive HeldOp where
  | mma | winMma | drain | attPass | attSend | attDrain
  deriving DecidableEq, Repr

/-- The class of an instruction that waits. -/
def HeldOp.unit : HeldOp → UnitClass
  | .drain => .accum
  | _ => .matrix

/-- What an issued instruction waits for: a slot, by its address, a directory entry that is BUSY, or pages that other modules
hold. -/
inductive HeldFor where
  | slot (a : Nat)
  | entry (i : Nat)
  | pages
  deriving DecidableEq, Repr

/-- An instruction that has issued and waits (R82, R93, R96): its byte offset, the banks it names, and the scalar and mask
registers that it read at issue. -/
structure HeldInsn where
  op : HeldOp
  on : HeldFor
  pc : Nat
  banks : List Nat
  s : List (Nat × Word)
  k : List (Nat × BitVec 256)
  deriving DecidableEq, Repr

/-- One context (Table 03-2). Vector lane l of register r has key 128 r + l. The last fields say what
the context waits for and which slots and items it holds. -/
structure Ctx where
  v : List (Nat × Lane) := []
  s : List (Nat × Word) := []
  k : List (Nat × BitVec 256) := []
  pc : Nat := 0
  loops : List (BitVec 32) := [0, 0, 0, 0]
  laneGroup : Nat := 0
  active : Bool := false
  waiting : Option Nat := none
  held : List HeldInsn := []
  gateWait : Option GateWait := none
  slots : List (Nat × Bool) := []
  item : Option Item := none
  inBody : Bool := false
  joined : Bool := false
  post : Option SlotPost := none
  merge : Option SlotMerge := none
  halted : Bool := false
  deriving DecidableEq, Repr

/-- An instruction that has issued and not yet completed: its byte offset and SIGNAL (R83), its class, the instruction that
it is where it can wait, the banks it names (R82, R93), the facts that a request halt asks for (R102), the remote
transactions it still waits for, the committed write it will record (R135), and the slot it increments MERGED of once its
images have landed (R179). -/
structure InFlight where
  ctx : Nat
  signal : Nat
  pc : Nat := 0
  unit : UnitClass := .other
  holds : Option HeldOp := none
  banks : List Nat := []
  isMove : Bool := false
  isMma : Bool := false
  isNest : Bool := false
  exch : Bool := false
  remote : List Nat := []
  commit : Option (Nat × Nat) := none
  thenPost : Option Nat := none
  worst : Status := .ok
  deriving DecidableEq, Repr

/-- Firmware load of one core (R104 to R107): payloads by segment, failures by segment. -/
structure FwLoad where
  segs : List (Nat × List Byte) := []
  imageId : Nat := 0
  segCount : Nat := 0
  pulls : Nat := 0
  fails : List (Nat × Nat) := []
  deriving DecidableEq, Repr

/-- One logical core (Table 03-1): contexts, semaphores (R83), the accumulator file with entry
(bank, row, column) at key 8192 × bank + 128 × row + column, the long accumulators, the instructions in
flight, and the slots for which this core, as owner, has set its anchors (R93). -/
structure Core where
  ctxs : List (Nat × Ctx) := []
  sems : List (Nat × BitVec 16) := []
  wide : List (Nat × WideEntry) := []
  long : List (Nat × LongAcc) := []
  inflight : List InFlight := []
  anchored : List Nat := []
  att : Option AttPart := none
  fw : FwLoad := {}
  deriving DecidableEq, Repr

/-! ### Jobs -/

/-- A buffer declaration (Table 04-5). -/
structure Buf where
  base : Nat
  size : Nat
  kind : Nat
  deriving DecidableEq, Repr

/-- A tile program header with its buffers (Table 04-4) and the core-store offsets of its NESTs. -/
structure Program where
  mode : Nat
  relocatable : Bool
  coresUsed : Nat
  listCount : Nat
  exch : Nat
  listOff : Nat
  commonLen : Nat
  commonLoad : Nat
  nestPcs : List Nat
  bufs : List Buf
  deriving DecidableEq, Repr

/-- A nest level (Table 04-9). -/
structure NestLevel where
  bound : Nat
  rank : Nat
  role : Nat
  strides : List Int
  deriving DecidableEq, Repr

/-- A nest operand (Table 04-10). -/
structure NestOperand where
  buf : Nat
  fmt : Nat
  scaleBuf : Nat
  offset : Nat
  scaleOffset : Nat
  kstep : Int
  footprint : Nat
  deriving DecidableEq, Repr

/-- A nest descriptor (R121). -/
structure NestDesc where
  kind : Nat
  committed : Bool
  split : Nat
  chunk : Nat
  mTile : Nat
  nTile : Nat
  kTile : Nat
  mLog : Nat
  nLog : Nat
  kLog : Nat
  g : Nat
  counterOff : Nat
  slotOff : Nat
  slotCount : Nat
  logOff : Nat
  templateAdj : Nat
  templateLocal : Nat
  csStep : Nat
  levels : List NestLevel
  operands : List NestOperand
  template : List Nat
  deriving DecidableEq, Repr

/-- The running nest: its place in the common image, its NEST operands and its descriptor (R120); ranges to
reissue with the COMMIT of their first item (R133), and the contexts that have taken their first item (R124). -/
structure RunNest where
  index : Nat
  pc : Nat
  ops : NestOps
  desc : NestDesc
  attn : Bool
  reissue : List (Nat × Nat × Nat)
  seen : List (Nat × Nat)
  deriving DecidableEq, Repr

/-- Job states of Table 14-1. -/
inductive JobState where
  | queued | loading | running | halting | saving | sided | restoring | done
  deriving DecidableEq, Repr

/-- `STATE` of `TT_JOB` (Table 14-1). -/
def JobState.code : JobState → Nat
  | .queued => 0 | .loading => 1 | .running => 2 | .halting => 3 | .saving => 4 | .sided => 5
  | .restoring => 6 | .done => 7

/-- One job (R380, R381): what its consist named, its siding, its flags (R393), and what has happened
to it since it took the cores. `nestsDone` counts the nests that have completed, `runs` those each core has
passed. -/
structure Job where
  jobId : Nat := 0
  tenant : Nat := 0
  cls : Nat := 0
  qp : Nat := 256
  user : Nat := 0
  ring : Nat := 0
  image : Nat := 0
  length : Nat := 0
  state : JobState := .queued
  siding : Option Nat := none
  need : Nat := 0
  flags : Nat := 0
  fault : Status := .ok
  ended : Bool := false
  refused : Bool := false
  attached : Bool := false
  sfuGen : Nat := 0
  kvpGen : Nat := 0
  tag : Nat := 0
  seedBase : Nat := 0
  chargeFrom : Nat := 0
  runFrom : Nat := 0
  haltFrom : Nat := 0
  saveFrom : Nat := 0
  suspended : Bool := false
  heldPreempt : Bool := false
  tilesStarted : Bool := false
  prog : Option Program := none
  nest : Option RunNest := none
  nestsDone : Nat := 0
  runs : List (Nat × Nat) := []
  deriving DecidableEq, Repr

/-- A slot record (Table 14-3). -/
structure Slot where
  lengthUs : Nat
  kind : Nat
  lend : Bool
  deriving DecidableEq, Repr

/-- A timetable (Table 14-2). -/
structure Timetable where
  generation : Nat
  quantumUs : Nat
  rtTenant : List Nat
  slots : List Slot
  shares : List Nat
  deriving DecidableEq, Repr

/-- What a saved job needs besides its siding, which has no place for it: the CRC of the image that it goes with, the
arithmetic flags since the first start (R393), the ranges still to be reissued (R133), the contexts that have taken their
first item (R124), and the committed writes that each item has issued (R135), by 16 × core + context.
Log entry 127 applies (DESIGN CHOICE). -/
structure SidedKeep where
  crc : Nat := 0
  flags : Nat := 0
  reissue : List (Nat × Nat × Nat) := []
  seen : List (Nat × Nat) := []
  writes : List (Nat × Nat) := []
  deriving DecidableEq, Repr

/-- The signal box's scheduling state (R379 to R398): admitted jobs in order, the job that holds the
cores, charges in core-nanoseconds, the two timetable banks, a load in progress, the start of the
major cycle, and what goes with the sidings' images. -/
structure Sched where
  queue : List Job := []
  run : Option Job := none
  charges : List (Nat × Nat) := []
  active : Option Timetable := none
  staged : Option Timetable := none
  loading : Option Nat := none
  cycleStart : Nat := 0
  slot : Nat := 0
  keeps : List (Nat × SidedKeep) := []
  deriving DecidableEq, Repr

end Sys2Proof.Machine
end

