-- ==== Sys2Proof/Machine/Parts.lean ====
section
/-! DEFINITION. The parts of the module outside the cores: host queue pairs, bring-up and flash, governor,
security, test features (15_host_ethernet.md to 19_perturbation_and_debug.md, 21_package_and_ratings.md). -/

namespace Sys2Proof.Machine

/-! ### Host interface -/

/-- A consist entry (Table 15-2); `check` is what Table 15-3 says of its bytes alone. -/
structure Entry where
  op : Nat
  chain : Bool
  fence : Bool
  cls : Nat
  tenant : Nat
  length : Nat
  user : Nat
  localAddr : Nat
  remote : Nat
  rkey : Nat
  jobId : Nat
  check : Status
  deriving DecidableEq, Repr

/-- Progress of one entry: not begun; running, with the bytes that its requests have asked for and those answered; a job
admitted; or ended with a status (R413, R414). -/
inductive Progress where
  | waiting
  | running (asked done : Nat) (worst : Status)
  | admitted
  | ended (st : Status)
  deriving DecidableEq, Repr

/-- A consist in progress (R412, R413): ring index of its first entry and its entries. -/
structure Consist where
  first : Nat
  entries : List (Entry × Progress)
  deriving DecidableEq, Repr

/-- What a request of the module on a QP is: a completion's SEND, or a read or write for entry `entry` of the consist that
begins at ring index `first`, at an offset and with a length. -/
inductive ReqKind where
  | send (c : Completion)
  | read (first entry off len : Nat)
  | write (first entry len : Nat)
  deriving DecidableEq, Repr

/-- A request not yet acknowledged: its first PSN, the PSNs it takes, and what it is. -/
structure OutReq where
  psn : Nat
  count : Nat
  kind : ReqKind
  deriving DecidableEq, Repr

/-- Run-time state of one queue pair (R409, R413, R416): consists begun, completions held, completions sent since RESET,
the next PSN, requests not acknowledged, retries so far, a completion refused with RNR, and rate cuts by CNPs. -/
structure QpRun where
  consists : List Consist := []
  held : List Completion := []
  seq : Nat := 0
  sendPsn : Nat := 0
  reqs : List OutReq := []
  retries : Nat := 0
  rnr : Bool := false
  rateCut : Nat := 0
  deriving DecidableEq, Repr

/-- One request of a management QP to the register window that is kept for duplicates (R407). -/
structure MgmtSeen where
  psn : Nat
  write : Bool
  data : List Byte
  deriving DecidableEq, Repr

/-- What leaves the module, in order of leaving: the model's record, newest first. -/
inductive Out where
  | regResp (st : Status) (data : Nat)
  | ack (qpn psn : Nat)
  | nak (qpn psn : Nat)
  | readData (qpn psn : Nat) (data : List Byte)
  | send (qpn : Nat) (c : Completion)
  | rdmaRead (qpn addr rkey len : Nat)
  | rdmaWrite (qpn addr rkey : Nat) (data : List Byte)
  | cnp (qpn : Nat)
  | cm (port : Nat) (accepted : Bool)
  | disconnect (port : Nat)
  | packet (port : Nat) (bytes : List Byte)
  | ident (port : Nat) (record : List Byte)
  | flit (port : Nat) (f : Flit) (lanes : List (Nat × List Nat))
  | control (port ackSeq : Nat) (nak : Bool) (credits : List Nat) (record : List Byte)
  | coreMsg (core kind : Nat)
  | pmbus (write : Bool) (code : Nat) (data : List Byte)
  | badSymbols (port count : Nat)
  deriving DecidableEq, Repr

/-- The host side: data QP n at n and the management QP of port k at 256 + k; the last requests of each management QP to
the register window, held events (R417), and when a CNP last left for a QP (R402). -/
structure HostState where
  qps : List (Nat × QpRun) := []
  seen : List (Nat × List MgmtSeen) := []
  heldEvents : List Completion := []
  cnpSent : List (Nat × Nat) := []
  deriving DecidableEq, Repr

/-! ### Bring-up, flash and fuses -/

/-- A record of the memory regions of the STORES section (Table 16-10). -/
structure MemRegion where
  memory : Nat
  cls : Nat
  baseMib : Nat
  sizeMib : Nat
  deriving DecidableEq, Repr

/-- A core-store region (Table 03-11). -/
structure CoreRegion where
  cls : Nat
  size64 : Nat
  base64 : Nat
  deriving DecidableEq, Repr

/-- A siding record (Table 16-10). -/
structure SidingRec where
  cls : Nat
  baseMib : Nat
  sizeMib : Nat
  deriving DecidableEq, Repr

/-- The FABRIC section (Table 16-11); ports as (group, dateline, expected module, expected port). -/
structure FabricSec where
  moduleId : Nat
  systemId : Nat
  dx : Nat
  dy : Nat
  dz : Nat
  x : Nat
  y : Nat
  z : Nat
  minWidth : Nat
  weights : List Nat
  ports : List (Nat × Nat × Nat × Nat)
  turnoutGen : Nat
  turnout : List (Nat × Nat)
  deriving DecidableEq, Repr

/-- The POWER section (Table 17-4). -/
structure PowerSec where
  susW : Nat := 11500
  burstW : Nat := 12500
  burstJ : Nat := 3000
  bringupW : Nat := 4000
  battW : Nat := 11500
  floorW : Nat := 0
  rampUp : Nat := 500
  rampDown : Nat := 250
  pmbusAddr : Nat := 0x58
  outSet : Nat := 500
  outMax : Nat := 600
  inletMax : Nat := 400
  flowMin : Nat := 120
  flowFull : Nat := 400
  pulsesPerL : Nat := 1000
  valvePwmHz : Nat := 1000
  valveMin : Nat := 102
  valveSlew : Nat := 205
  kp : Nat := 40
  ki : Nat := 8
  rhoC : Nat := 3900
  deriving DecidableEq, Repr

/-- The structure image in use, as its verified sections say (R434, R435), its slot and the offset of its
SIGNATURE. -/
structure StructImage where
  imageGen : Nat
  slot : Nat
  sigOffset : Nat
  khz : List Nat
  coreMap : List (List Nat)
  coreRegions : List CoreRegion
  regions : List MemRegion
  sidings : List SidingRec
  hashKey : Nat
  regulators : List Nat
  classMap : Nat
  fabric : FabricSec
  media : List Byte
  ownership : List Nat
  timetable : Timetable
  power : PowerSec
  deriving DecidableEq, Repr

/-- The fuses of Table 18-1. A key is a number of 1,056 bits, its x and y bytes (R467); `mgmtVlan` is 0
while unprogrammed; `idSeed` is 0 where no seed is burned, 1 where it passes its CRC and 2 where it does not. -/
structure Fuses where
  stepping : Nat := 0xb0
  fwRevoke : Nat := 0
  svnMin : Nat := 0
  lifeA : Nat := 1
  lifeB : Nat := 1
  serial : Nat := 0x00001c4a07e29b35
  macBase : Nat := 0x025ca1300040
  mgmtVlan : Nat := 4094
  idSeed : Nat := 1
  ownerKeys : List (Nat × Nat) := []
  ownerRevoke : Nat := 0
  fallbackW : Nat := 2000
  deriving DecidableEq, Repr

/-- The firmware bundle that runs (Table 18-2): slot, `SVN`, `BUNDLE_VERSION`, the key slot that
matched, and the core microcode component's length and offset in the flash. -/
structure Bundle where
  slot : Nat
  svn : Nat
  version : Nat
  keySlot : Nat
  coreOffset : Nat
  coreLength : Nat
  deriving DecidableEq, Repr

/-- A flash command in progress (R448), with what VERIFY_SLOT finds of the signature. -/
structure FlashCmd where
  op : Nat
  sector : Nat
  src : Nat
  sig : SigVerdict
  deriving DecidableEq, Repr

/-- Pins, starts, flash and the defect list (16_bring_up.md, 21_package_and_ratings.md). A flash sector
that is not listed is erased and reads 0xFF; a listed one holds its bytes, those not listed being zero. `copy0` and `copy1` are
the defect list's sectors and `defects` the entries that this start uses, `unwritten` those still to be written, `dirty` says
that a listed entry has advanced, and `hardBanks` names the banks whose hard repair is used; `certLen` is the length of the
certificate in sector 0x384. Of the running start: components that do not run, cores that failed, engines out of service other than those of
`MED_ENGINES`, die-to-die links out of service, flits with a bad CRC still to come, whether the gradient engines passed,
and whether the HBM test is over and the map-store march passed. -/
structure Boot where
  powerGood : Bool := false
  resetN : Bool := true
  flashEnN : Bool := true
  flashReleased : Bool := false
  heldForFlash : Bool := false
  sdsclk : Bool := true
  flash : List (Nat × List (Nat × Byte)) := []
  copy0 : DefectCopy := ⟨true, 0, []⟩
  copy1 : DefectCopy := ⟨true, 0, []⟩
  defects : List Defect := []
  unwritten : List Defect := []
  dirty : Bool := false
  hardBanks : List Nat := []
  startCount : Nat := 0
  certLen : Option Nat := none
  bundle : Option Bundle := none
  image : Option StructImage := none
  signer : Nat := 0
  flashCmd : Option FlashCmd := none
  badComponents : List Nat := []
  badCores : List (Nat × Nat) := []
  ngeOut : List Nat := []
  linksDown : List Nat := []
  badFlits : List (Nat × Nat) := []
  gradOk : Bool := false
  hbmTested : Bool := false
  msTested : Bool := false
  deriving DecidableEq, Repr

/-! ### Governor, security, test features -/

/-- The power governor (17_power_and_cooling.md): bucket in units of 10 µJ, the integral term in tenths of a duty step, the
duty of R461, `READY_W` as calibrated; since when the ceiling has been unmet, the step's conditions clear, the input outside
its limits and the flow low; the time of the last valid shelf read, whether the shelf is on battery and since when its bits
read zero; the last readings, and a warm reset to request on leaving TRIP. -/
structure Governor where
  bucket : Nat := 0
  integ10 : Nat := 0
  duty : Nat := 1024
  readyCal : Nat := 0
  unmetSince : Option Nat := none
  clearSince : Option Nat := none
  supplySince : Option Nat := none
  flowLowSince : Option Nat := none
  shelfValid : Nat := 0
  battery : Bool := false
  battZeroSince : Option Nat := none
  sampled : Bool := false
  tIn : Option Int := none
  tOut : Option Int := none
  flow : Option Nat := none
  cdC : Nat := 0
  mdC : Nat := 0
  tripExit : Bool := false
  deriving DecidableEq, Repr

/-- A security command in progress (R475): its record and `OP`. -/
structure SecCmd where
  addr : Nat
  op : Nat
  deriving DecidableEq, Repr

/-- The secure-boot root (18_security.md): fuses, the command that runs, the challenge, the classes unlocked in this start, and
whether a transition has burned and its warm reset is still to come. -/
structure Security where
  fuses : Fuses := {}
  cmd : Option SecCmd := none
  challenge : BitVec 512 := 0
  unlocked : Nat := 0
  transition : Bool := false
  deriving DecidableEq, Repr

/-- Test features (19_perturbation_and_debug.md): trace records by index, records still to take after a
trigger, and the time at which an armed injection was armed. -/
structure TestState where
  trace : List (Nat × TraceRec) := []
  after : Option Nat := none
  armedAt : Option Nat := none
  deriving DecidableEq, Repr

end Sys2Proof.Machine
end

