-- ==== Sys2Proof/Machine/RegTable.lean ====
section
/-! DEFINITION. Register table of the twenty-one blocks: every register of Table 20-5 (rule R501 of
20_address_map.md) with its fields, their access types and reset values, as the register tables of the
chapters give them. A register is named by its offset from 0xF0_0000_0000, the first register window;
block i begins at i × 0x100_0000. -/

namespace Sys2Proof.Machine

/-- Access types of Table 00-3 (R13). -/
inductive Access where
  | ro | rw | wo | w1c | w1s | rc
  deriving DecidableEq, Repr

/-- One field row of a register table: name, bits [hi:lo], access type. -/
structure FieldRow where
  name : String
  hi : Nat
  lo : Nat
  acc : Access
  deriving DecidableEq, Repr

/-- A register, or an array of like registers with up to two strides (R498, Table 20-5). -/
structure RegRow where
  name : String
  block : Nat
  base : Nat
  stride : Nat
  count : Nat
  stride2 : Nat
  count2 : Nat
  reset : Nat
  fields : List FieldRow
  deriving DecidableEq, Repr

/-- A field of one register: the register's offset from 0xF0_0000_0000 and the bits [hi:lo]. -/
structure Field where
  reg : Nat
  hi : Nat
  lo : Nat
  deriving DecidableEq, Repr

/-- `SBX_IDENT`: Table 20-3. -/
def Reg.SBX_IDENT : Nat := 0x0
def RegRow.SBX_IDENT : RegRow :=
  ⟨"SBX_IDENT", 0, 0x0, 0x0, 1, 0x0, 1, 0x7000000000000,
   [⟨"PRODUCT", 63, 48, .ro⟩, ⟨"STEPPING", 47, 40, .ro⟩, ⟨"STRUCT_FORMAT", 39, 32, .ro⟩, ⟨"BUNDLE_MAJOR", 31, 24, .ro⟩, ⟨"BUNDLE_MINOR", 23, 16, .ro⟩, ⟨"BUNDLE_PATCH", 15, 0, .ro⟩]⟩
def Fld.SBX_IDENT_PRODUCT : Field := ⟨Reg.SBX_IDENT, 63, 48⟩
def Fld.SBX_IDENT_STEPPING : Field := ⟨Reg.SBX_IDENT, 47, 40⟩
def Fld.SBX_IDENT_STRUCT_FORMAT : Field := ⟨Reg.SBX_IDENT, 39, 32⟩
def Fld.SBX_IDENT_BUNDLE_MAJOR : Field := ⟨Reg.SBX_IDENT, 31, 24⟩
def Fld.SBX_IDENT_BUNDLE_MINOR : Field := ⟨Reg.SBX_IDENT, 23, 16⟩
def Fld.SBX_IDENT_BUNDLE_PATCH : Field := ⟨Reg.SBX_IDENT, 15, 0⟩

/-- `SBX_DOMAIN_CLK`: Table 01-7. -/
def Reg.SBX_DOMAIN_CLK (n : Nat) : Nat := 0x1000 + 0x8 * n
def RegRow.SBX_DOMAIN_CLK : RegRow :=
  ⟨"SBX_DOMAIN_CLK", 0, 0x1000, 0x8, 8, 0x0, 1, 0x0,
   [⟨"LOCKED", 63, 63, .ro⟩, ⟨"Reserved", 62, 56, .ro⟩, ⟨"NOMINAL_KHZ", 55, 32, .ro⟩, ⟨"Reserved", 31, 24, .ro⟩, ⟨"SET_KHZ", 23, 0, .ro⟩]⟩
def Fld.SBX_DOMAIN_CLK_LOCKED (n : Nat) : Field := ⟨Reg.SBX_DOMAIN_CLK n, 63, 63⟩
def Fld.SBX_DOMAIN_CLK_NOMINAL_KHZ (n : Nat) : Field := ⟨Reg.SBX_DOMAIN_CLK n, 55, 32⟩
def Fld.SBX_DOMAIN_CLK_SET_KHZ (n : Nat) : Field := ⟨Reg.SBX_DOMAIN_CLK n, 23, 0⟩

/-- `SBX_OWNER`: Table 20-12. -/
def Reg.SBX_OWNER : Nat := 0x2000
def RegRow.SBX_OWNER : RegRow :=
  ⟨"SBX_OWNER", 0, 0x2000, 0x0, 1, 0x0, 1, 0x0,
   [⟨"Reserved", 63, 21, .ro⟩, ⟨"ALT_OWNER", 20, 0, .ro⟩]⟩
def Fld.SBX_OWNER_ALT_OWNER : Field := ⟨Reg.SBX_OWNER, 20, 0⟩

/-- `TT_CTRL`: Table 14-10. -/
def Reg.TT_CTRL : Nat := 0x1000000
def RegRow.TT_CTRL : RegRow :=
  ⟨"TT_CTRL", 1, 0x1000000, 0x0, 1, 0x0, 1, 0x0,
   [⟨"Reserved", 63, 3, .ro⟩, ⟨"PREEMPT", 2, 2, .w1s⟩, ⟨"DISCARD", 1, 1, .w1s⟩, ⟨"SWAP", 0, 0, .w1s⟩]⟩
def Fld.TT_CTRL_PREEMPT : Field := ⟨Reg.TT_CTRL, 2, 2⟩
def Fld.TT_CTRL_DISCARD : Field := ⟨Reg.TT_CTRL, 1, 1⟩
def Fld.TT_CTRL_SWAP : Field := ⟨Reg.TT_CTRL, 0, 0⟩

/-- `TT_LOAD`: Table 05-9. -/
def Reg.TT_LOAD : Nat := 0x1000008
def RegRow.TT_LOAD : RegRow :=
  ⟨"TT_LOAD", 1, 0x1000008, 0x0, 1, 0x0, 1, 0x0,
   [⟨"Reserved", 63, 40, .wo⟩, ⟨"SRC_4K", 39, 12, .wo⟩, ⟨"Reserved", 11, 0, .wo⟩]⟩
def Fld.TT_LOAD_SRC_4K : Field := ⟨Reg.TT_LOAD, 39, 12⟩

/-- `TT_STATUS`: Table 14-11. -/
def Reg.TT_STATUS : Nat := 0x1000010
def RegRow.TT_STATUS : RegRow :=
  ⟨"TT_STATUS", 1, 0x1000010, 0x0, 1, 0x0, 1, 0x0,
   [⟨"GEN_ACTIVE", 63, 48, .ro⟩, ⟨"GEN_STAGED", 47, 32, .ro⟩, ⟨"LOAD_STATUS", 31, 24, .ro⟩, ⟨"LOAD_STATE", 23, 22, .ro⟩, ⟨"SWAP_PENDING", 21, 21, .ro⟩, ⟨"SLOT", 20, 13, .ro⟩, ⟨"Reserved", 12, 11, .ro⟩, ⟨"QUEUED", 10, 0, .ro⟩]⟩
def Fld.TT_STATUS_GEN_ACTIVE : Field := ⟨Reg.TT_STATUS, 63, 48⟩
def Fld.TT_STATUS_GEN_STAGED : Field := ⟨Reg.TT_STATUS, 47, 32⟩
def Fld.TT_STATUS_LOAD_STATUS : Field := ⟨Reg.TT_STATUS, 31, 24⟩
def Fld.TT_STATUS_LOAD_STATE : Field := ⟨Reg.TT_STATUS, 23, 22⟩
def Fld.TT_STATUS_SWAP_PENDING : Field := ⟨Reg.TT_STATUS, 21, 21⟩
def Fld.TT_STATUS_SLOT : Field := ⟨Reg.TT_STATUS, 20, 13⟩
def Fld.TT_STATUS_QUEUED : Field := ⟨Reg.TT_STATUS, 10, 0⟩

/-- `TT_LIMITS`: Table 14-12. -/
def Reg.TT_LIMITS : Nat := 0x1000018
def RegRow.TT_LIMITS : RegRow :=
  ⟨"TT_LIMITS", 1, 0x1000018, 0x0, 1, 0x0, 1, 0xf4240,
   [⟨"Reserved", 63, 20, .ro⟩, ⟨"HALT_NS", 19, 0, .rw⟩]⟩
def Fld.TT_LIMITS_HALT_NS : Field := ⟨Reg.TT_LIMITS, 19, 0⟩

/-- `TT_JOB`: Table 14-13. -/
def Reg.TT_JOB : Nat := 0x1000020
def RegRow.TT_JOB : RegRow :=
  ⟨"TT_JOB", 1, 0x1000020, 0x0, 1, 0x0, 1, 0x0,
   [⟨"JOB_ID", 63, 32, .ro⟩, ⟨"TENANT", 31, 26, .ro⟩, ⟨"CLASS", 25, 23, .ro⟩, ⟨"STATE", 22, 19, .ro⟩, ⟨"VALID", 18, 18, .ro⟩, ⟨"Reserved", 17, 0, .ro⟩]⟩
def Fld.TT_JOB_JOB_ID : Field := ⟨Reg.TT_JOB, 63, 32⟩
def Fld.TT_JOB_TENANT : Field := ⟨Reg.TT_JOB, 31, 26⟩
def Fld.TT_JOB_CLASS : Field := ⟨Reg.TT_JOB, 25, 23⟩
def Fld.TT_JOB_STATE : Field := ⟨Reg.TT_JOB, 22, 19⟩
def Fld.TT_JOB_VALID : Field := ⟨Reg.TT_JOB, 18, 18⟩

/-- `TT_LAST_PREEMPT`: Table 14-14. -/
def Reg.TT_LAST_PREEMPT : Nat := 0x1000028
def RegRow.TT_LAST_PREEMPT : RegRow :=
  ⟨"TT_LAST_PREEMPT", 1, 0x1000028, 0x0, 1, 0x0, 1, 0x0,
   [⟨"SAVE_NS", 63, 32, .ro⟩, ⟨"HALT_WAIT_NS", 31, 0, .ro⟩]⟩
def Fld.TT_LAST_PREEMPT_SAVE_NS : Field := ⟨Reg.TT_LAST_PREEMPT, 63, 32⟩
def Fld.TT_LAST_PREEMPT_HALT_WAIT_NS : Field := ⟨Reg.TT_LAST_PREEMPT, 31, 0⟩

/-- `TT_SIDING_CMD`: Table 14-15. -/
def Reg.TT_SIDING_CMD : Nat := 0x1000030
def RegRow.TT_SIDING_CMD : RegRow :=
  ⟨"TT_SIDING_CMD", 1, 0x1000030, 0x0, 1, 0x0, 1, 0x0,
   [⟨"OP", 63, 62, .wo⟩, ⟨"Reserved", 61, 4, .wo⟩, ⟨"SIDING", 3, 0, .wo⟩]⟩
def Fld.TT_SIDING_CMD_OP : Field := ⟨Reg.TT_SIDING_CMD, 63, 62⟩
def Fld.TT_SIDING_CMD_SIDING : Field := ⟨Reg.TT_SIDING_CMD, 3, 0⟩

/-- `TT_SIDING`: Table 14-16. -/
def Reg.TT_SIDING (n : Nat) : Nat := 0x1000100 + 0x8 * n
def RegRow.TT_SIDING : RegRow :=
  ⟨"TT_SIDING", 1, 0x1000100, 0x8, 16, 0x0, 1, 0x0,
   [⟨"STATE", 63, 62, .ro⟩, ⟨"CLASS", 61, 59, .ro⟩, ⟨"TENANT", 58, 53, .ro⟩, ⟨"Reserved", 52, 52, .ro⟩, ⟨"SIZE_MIB", 51, 32, .ro⟩, ⟨"Reserved", 31, 20, .ro⟩, ⟨"BASE_MIB", 19, 0, .ro⟩]⟩
def Fld.TT_SIDING_STATE (n : Nat) : Field := ⟨Reg.TT_SIDING n, 63, 62⟩
def Fld.TT_SIDING_CLASS (n : Nat) : Field := ⟨Reg.TT_SIDING n, 61, 59⟩
def Fld.TT_SIDING_TENANT (n : Nat) : Field := ⟨Reg.TT_SIDING n, 58, 53⟩
def Fld.TT_SIDING_SIZE_MIB (n : Nat) : Field := ⟨Reg.TT_SIDING n, 51, 32⟩
def Fld.TT_SIDING_BASE_MIB (n : Nat) : Field := ⟨Reg.TT_SIDING n, 19, 0⟩

/-- `TT_TENANT_USED`: Table 14-17. -/
def Reg.TT_TENANT_USED (n : Nat) : Nat := 0x1001000 + 0x8 * n
def RegRow.TT_TENANT_USED : RegRow :=
  ⟨"TT_TENANT_USED", 1, 0x1001000, 0x8, 64, 0x0, 1, 0x0,
   [⟨"CORE_US", 63, 0, .ro⟩]⟩
def Fld.TT_TENANT_USED_CORE_US (n : Nat) : Field := ⟨Reg.TT_TENANT_USED n, 63, 0⟩

/-- `CORE_STATUS`: Table 03-16. -/
def Reg.CORE_STATUS (n : Nat) : Nat := 0x2000000 + 0x1000 * n
def RegRow.CORE_STATUS : RegRow :=
  ⟨"CORE_STATUS", 2, 0x2000000, 0x1000, 2048, 0x0, 1, 0x0,
   [⟨"PRESENT", 63, 63, .ro⟩, ⟨"STATE", 62, 60, .ro⟩, ⟨"CD", 59, 56, .ro⟩, ⟨"PHYS", 55, 48, .ro⟩, ⟨"ACTIVE_CTX", 47, 32, .ro⟩, ⟨"LAST_STATUS", 31, 24, .ro⟩, ⟨"Reserved", 23, 16, .ro⟩, ⟨"FAULT_SAT", 15, 15, .rc⟩, ⟨"FAULT_COUNT", 14, 0, .rc⟩]⟩
def Fld.CORE_STATUS_PRESENT (n : Nat) : Field := ⟨Reg.CORE_STATUS n, 63, 63⟩
def Fld.CORE_STATUS_STATE (n : Nat) : Field := ⟨Reg.CORE_STATUS n, 62, 60⟩
def Fld.CORE_STATUS_CD (n : Nat) : Field := ⟨Reg.CORE_STATUS n, 59, 56⟩
def Fld.CORE_STATUS_PHYS (n : Nat) : Field := ⟨Reg.CORE_STATUS n, 55, 48⟩
def Fld.CORE_STATUS_ACTIVE_CTX (n : Nat) : Field := ⟨Reg.CORE_STATUS n, 47, 32⟩
def Fld.CORE_STATUS_LAST_STATUS (n : Nat) : Field := ⟨Reg.CORE_STATUS n, 31, 24⟩
def Fld.CORE_STATUS_FAULT_SAT (n : Nat) : Field := ⟨Reg.CORE_STATUS n, 15, 15⟩
def Fld.CORE_STATUS_FAULT_COUNT (n : Nat) : Field := ⟨Reg.CORE_STATUS n, 14, 0⟩

/-- `CORE_FW_STATUS`: Table 03-17. -/
def Reg.CORE_FW_STATUS (n : Nat) : Nat := 0x2000008 + 0x1000 * n
def RegRow.CORE_FW_STATUS : RegRow :=
  ⟨"CORE_FW_STATUS", 2, 0x2000008, 0x1000, 2048, 0x0, 1, 0x0,
   [⟨"FW_CRC", 63, 32, .ro⟩, ⟨"IMAGE_ID", 31, 16, .ro⟩, ⟨"PULLS", 15, 8, .ro⟩, ⟨"FAILS", 7, 6, .ro⟩, ⟨"Reserved", 5, 4, .ro⟩, ⟨"RESULT", 3, 0, .ro⟩]⟩
def Fld.CORE_FW_STATUS_FW_CRC (n : Nat) : Field := ⟨Reg.CORE_FW_STATUS n, 63, 32⟩
def Fld.CORE_FW_STATUS_IMAGE_ID (n : Nat) : Field := ⟨Reg.CORE_FW_STATUS n, 31, 16⟩
def Fld.CORE_FW_STATUS_PULLS (n : Nat) : Field := ⟨Reg.CORE_FW_STATUS n, 15, 8⟩
def Fld.CORE_FW_STATUS_FAILS (n : Nat) : Field := ⟨Reg.CORE_FW_STATUS n, 7, 6⟩
def Fld.CORE_FW_STATUS_RESULT (n : Nat) : Field := ⟨Reg.CORE_FW_STATUS n, 3, 0⟩

/-- `CORE_FW_BITMAP`: Table 20-5. -/
def Reg.CORE_FW_BITMAP (n : Nat) : Nat := 0x2000010 + 0x1000 * n
def RegRow.CORE_FW_BITMAP : RegRow :=
  ⟨"CORE_FW_BITMAP", 2, 0x2000010, 0x1000, 2048, 0x0, 1, 0x0,
   [⟨"BITMAP", 63, 0, .ro⟩]⟩
def Fld.CORE_FW_BITMAP_BITMAP (n : Nat) : Field := ⟨Reg.CORE_FW_BITMAP n, 63, 0⟩

/-- `CORE_REGION`: Table 03-11. -/
def Reg.CORE_REGION (n : Nat) (i : Nat) : Nat := 0x2000040 + 0x1000 * n + 0x8 * i
def RegRow.CORE_REGION : RegRow :=
  ⟨"CORE_REGION", 2, 0x2000040, 0x1000, 2048, 0x8, 8, 0x0,
   [⟨"Reserved", 63, 56, .ro⟩, ⟨"CLASS", 55, 52, .ro⟩, ⟨"Reserved", 51, 13, .ro⟩, ⟨"SIZE_64K", 12, 6, .ro⟩, ⟨"BASE_64K", 5, 0, .ro⟩]⟩
def Fld.CORE_REGION_CLASS (n : Nat) (i : Nat) : Field := ⟨Reg.CORE_REGION n i, 55, 52⟩
def Fld.CORE_REGION_SIZE_64K (n : Nat) (i : Nat) : Field := ⟨Reg.CORE_REGION n i, 12, 6⟩
def Fld.CORE_REGION_BASE_64K (n : Nat) (i : Nat) : Field := ⟨Reg.CORE_REGION n i, 5, 0⟩

/-- `CORE_LIMITS`: Table 03-18. -/
def Reg.CORE_LIMITS : Nat := 0x2800000
def RegRow.CORE_LIMITS : RegRow :=
  ⟨"CORE_LIMITS", 2, 0x2800000, 0x0, 1, 0x0, 1, 0x61a8000030d40,
   [⟨"Reserved", 63, 51, .ro⟩, ⟨"WAIT_NS", 50, 32, .rw⟩, ⟨"Reserved", 31, 19, .ro⟩, ⟨"XCHG_NS", 18, 0, .rw⟩]⟩
def Fld.CORE_LIMITS_WAIT_NS : Field := ⟨Reg.CORE_LIMITS, 50, 32⟩
def Fld.CORE_LIMITS_XCHG_NS : Field := ⟨Reg.CORE_LIMITS, 18, 0⟩

/-- `NEST_LOAD_REPORT`: Table 04-14. -/
def Reg.NEST_LOAD_REPORT : Nat := 0x3000000
def RegRow.NEST_LOAD_REPORT : RegRow :=
  ⟨"NEST_LOAD_REPORT", 3, 0x3000000, 0x0, 1, 0x0, 1, 0x0,
   [⟨"STATUS", 63, 56, .ro⟩, ⟨"CHECK", 55, 48, .ro⟩, ⟨"FAILS", 47, 40, .ro⟩, ⟨"WHERE", 39, 0, .ro⟩]⟩
def Fld.NEST_LOAD_REPORT_STATUS : Field := ⟨Reg.NEST_LOAD_REPORT, 63, 56⟩
def Fld.NEST_LOAD_REPORT_CHECK : Field := ⟨Reg.NEST_LOAD_REPORT, 55, 48⟩
def Fld.NEST_LOAD_REPORT_FAILS : Field := ⟨Reg.NEST_LOAD_REPORT, 47, 40⟩
def Fld.NEST_LOAD_REPORT_WHERE : Field := ⟨Reg.NEST_LOAD_REPORT, 39, 0⟩

/-- `NEST_PROGRESS`: Table 04-15. -/
def Reg.NEST_PROGRESS : Nat := 0x3000008
def RegRow.NEST_PROGRESS : RegRow :=
  ⟨"NEST_PROGRESS", 3, 0x3000008, 0x0, 1, 0x0, 1, 0x0,
   [⟨"Reserved", 63, 61, .ro⟩, ⟨"NEST_INDEX", 60, 49, .ro⟩, ⟨"DONE", 48, 0, .ro⟩]⟩
def Fld.NEST_PROGRESS_NEST_INDEX : Field := ⟨Reg.NEST_PROGRESS, 60, 49⟩
def Fld.NEST_PROGRESS_DONE : Field := ⟨Reg.NEST_PROGRESS, 48, 0⟩

/-- `SFU_TABLE_LOAD`: Table 05-9. -/
def Reg.SFU_TABLE_LOAD : Nat := 0x4000000
def RegRow.SFU_TABLE_LOAD : RegRow :=
  ⟨"SFU_TABLE_LOAD", 4, 0x4000000, 0x0, 1, 0x0, 1, 0x0,
   [⟨"Reserved", 63, 40, .wo⟩, ⟨"SRC_4K", 39, 12, .wo⟩, ⟨"Reserved", 11, 0, .wo⟩]⟩
def Fld.SFU_TABLE_LOAD_SRC_4K : Field := ⟨Reg.SFU_TABLE_LOAD, 39, 12⟩

/-- `SFU_TABLE_CTRL`: Table 05-10. -/
def Reg.SFU_TABLE_CTRL : Nat := 0x4000008
def RegRow.SFU_TABLE_CTRL : RegRow :=
  ⟨"SFU_TABLE_CTRL", 4, 0x4000008, 0x0, 1, 0x0, 1, 0x0,
   [⟨"Reserved", 63, 2, .ro⟩, ⟨"DISCARD", 1, 1, .w1s⟩, ⟨"SWAP", 0, 0, .w1s⟩]⟩
def Fld.SFU_TABLE_CTRL_DISCARD : Field := ⟨Reg.SFU_TABLE_CTRL, 1, 1⟩
def Fld.SFU_TABLE_CTRL_SWAP : Field := ⟨Reg.SFU_TABLE_CTRL, 0, 0⟩

/-- `SFU_TABLE_STATUS`: Table 05-11. -/
def Reg.SFU_TABLE_STATUS : Nat := 0x4000010
def RegRow.SFU_TABLE_STATUS : RegRow :=
  ⟨"SFU_TABLE_STATUS", 4, 0x4000010, 0x0, 1, 0x0, 1, 0x0,
   [⟨"GEN_ACTIVE", 63, 48, .ro⟩, ⟨"GEN_INACTIVE", 47, 32, .ro⟩, ⟨"LOAD_STATUS", 31, 24, .ro⟩, ⟨"LOAD_STATE", 23, 22, .ro⟩, ⟨"SWAP_PENDING", 21, 21, .ro⟩, ⟨"ACTIVE_BANK", 20, 20, .ro⟩, ⟨"Reserved", 19, 12, .ro⟩, ⟨"FAILED_CORES", 11, 0, .ro⟩]⟩
def Fld.SFU_TABLE_STATUS_GEN_ACTIVE : Field := ⟨Reg.SFU_TABLE_STATUS, 63, 48⟩
def Fld.SFU_TABLE_STATUS_GEN_INACTIVE : Field := ⟨Reg.SFU_TABLE_STATUS, 47, 32⟩
def Fld.SFU_TABLE_STATUS_LOAD_STATUS : Field := ⟨Reg.SFU_TABLE_STATUS, 31, 24⟩
def Fld.SFU_TABLE_STATUS_LOAD_STATE : Field := ⟨Reg.SFU_TABLE_STATUS, 23, 22⟩
def Fld.SFU_TABLE_STATUS_SWAP_PENDING : Field := ⟨Reg.SFU_TABLE_STATUS, 21, 21⟩
def Fld.SFU_TABLE_STATUS_ACTIVE_BANK : Field := ⟨Reg.SFU_TABLE_STATUS, 20, 20⟩
def Fld.SFU_TABLE_STATUS_FAILED_CORES : Field := ⟨Reg.SFU_TABLE_STATUS, 11, 0⟩

/-- `ATT_EMPTY_ROWS`: Table 06-9. -/
def Reg.ATT_EMPTY_ROWS : Nat := 0x5000000
def RegRow.ATT_EMPTY_ROWS : RegRow :=
  ⟨"ATT_EMPTY_ROWS", 5, 0x5000000, 0x0, 1, 0x0, 1, 0x0,
   [⟨"EMPTY_SAT", 63, 63, .rc⟩, ⟨"Reserved", 62, 48, .ro⟩, ⟨"EMPTY_COUNT", 47, 0, .rc⟩]⟩
def Fld.ATT_EMPTY_ROWS_EMPTY_SAT : Field := ⟨Reg.ATT_EMPTY_ROWS, 63, 63⟩
def Fld.ATT_EMPTY_ROWS_EMPTY_COUNT : Field := ⟨Reg.ATT_EMPTY_ROWS, 47, 0⟩

/-- `ATT_REPLAY_ROWS`: Table 06-10. -/
def Reg.ATT_REPLAY_ROWS : Nat := 0x5000008
def RegRow.ATT_REPLAY_ROWS : RegRow :=
  ⟨"ATT_REPLAY_ROWS", 5, 0x5000008, 0x0, 1, 0x0, 1, 0x0,
   [⟨"REPLAY_SAT", 63, 63, .rc⟩, ⟨"Reserved", 62, 48, .ro⟩, ⟨"REPLAY_COUNT", 47, 0, .rc⟩]⟩
def Fld.ATT_REPLAY_ROWS_REPLAY_SAT : Field := ⟨Reg.ATT_REPLAY_ROWS, 63, 63⟩
def Fld.ATT_REPLAY_ROWS_REPLAY_COUNT : Field := ⟨Reg.ATT_REPLAY_ROWS, 47, 0⟩

/-- `KVP_CTRL`: Table 07-11. -/
def Reg.KVP_CTRL : Nat := 0x6000000
def RegRow.KVP_CTRL : RegRow :=
  ⟨"KVP_CTRL", 6, 0x6000000, 0x0, 1, 0x0, 1, 0x0,
   [⟨"Reserved", 63, 1, .ro⟩, ⟨"ENABLE", 0, 0, .rw⟩]⟩
def Fld.KVP_CTRL_ENABLE : Field := ⟨Reg.KVP_CTRL, 0, 0⟩

/-- `KVP_STATUS`: Table 07-12. -/
def Reg.KVP_STATUS : Nat := 0x6000008
def RegRow.KVP_STATUS : RegRow :=
  ⟨"KVP_STATUS", 6, 0x6000008, 0x0, 1, 0x0, 1, 0x0,
   [⟨"KVP_GEN", 63, 32, .ro⟩, ⟨"FREE_ENTRIES", 31, 15, .ro⟩, ⟨"PENDING", 14, 8, .ro⟩, ⟨"Reserved", 7, 2, .ro⟩, ⟨"STAGED", 1, 1, .ro⟩, ⟨"ENABLED", 0, 0, .ro⟩]⟩
def Fld.KVP_STATUS_KVP_GEN : Field := ⟨Reg.KVP_STATUS, 63, 32⟩
def Fld.KVP_STATUS_FREE_ENTRIES : Field := ⟨Reg.KVP_STATUS, 31, 15⟩
def Fld.KVP_STATUS_PENDING : Field := ⟨Reg.KVP_STATUS, 14, 8⟩
def Fld.KVP_STATUS_STAGED : Field := ⟨Reg.KVP_STATUS, 1, 1⟩
def Fld.KVP_STATUS_ENABLED : Field := ⟨Reg.KVP_STATUS, 0, 0⟩

/-- `KVP_LIMITS`: Table 07-13. -/
def Reg.KVP_LIMITS : Nat := 0x6000010
def RegRow.KVP_LIMITS : RegRow :=
  ⟨"KVP_LIMITS", 6, 0x6000010, 0x0, 1, 0x0, 1, 0x7a120,
   [⟨"Reserved", 63, 20, .ro⟩, ⟨"BUSY_NS", 19, 0, .rw⟩]⟩
def Fld.KVP_LIMITS_BUSY_NS : Field := ⟨Reg.KVP_LIMITS, 19, 0⟩

/-- `KVP_CMD_SUBMIT`: Table 07-14. -/
def Reg.KVP_CMD_SUBMIT : Nat := 0x6000018
def RegRow.KVP_CMD_SUBMIT : RegRow :=
  ⟨"KVP_CMD_SUBMIT", 6, 0x6000018, 0x0, 1, 0x0, 1, 0x0,
   [⟨"Reserved", 63, 40, .wo⟩, ⟨"REC_64", 39, 6, .wo⟩, ⟨"Reserved", 5, 0, .wo⟩]⟩
def Fld.KVP_CMD_SUBMIT_REC_64 : Field := ⟨Reg.KVP_CMD_SUBMIT, 39, 6⟩

/-- `KVP_CMD_STATUS`: Table 07-15. -/
def Reg.KVP_CMD_STATUS : Nat := 0x6000020
def RegRow.KVP_CMD_STATUS : RegRow :=
  ⟨"KVP_CMD_STATUS", 6, 0x6000020, 0x0, 1, 0x0, 1, 0x0,
   [⟨"DONE_COUNT", 63, 32, .ro⟩, ⟨"LAST_STATUS", 31, 24, .ro⟩, ⟨"LAST_OP", 23, 16, .ro⟩, ⟨"Reserved", 15, 0, .ro⟩]⟩
def Fld.KVP_CMD_STATUS_DONE_COUNT : Field := ⟨Reg.KVP_CMD_STATUS, 63, 32⟩
def Fld.KVP_CMD_STATUS_LAST_STATUS : Field := ⟨Reg.KVP_CMD_STATUS, 31, 24⟩
def Fld.KVP_CMD_STATUS_LAST_OP : Field := ⟨Reg.KVP_CMD_STATUS, 23, 16⟩

/-- `KVP_COUNTS`: Table 07-16. -/
def Reg.KVP_COUNTS : Nat := 0x6000028
def RegRow.KVP_COUNTS : RegRow :=
  ⟨"KVP_COUNTS", 6, 0x6000028, 0x0, 1, 0x0, 1, 0x0,
   [⟨"RETRY_SAT", 63, 63, .rc⟩, ⟨"RETRY_COUNT", 62, 32, .rc⟩, ⟨"STALE_SAT", 31, 31, .rc⟩, ⟨"STALE_COUNT", 30, 0, .rc⟩]⟩
def Fld.KVP_COUNTS_RETRY_SAT : Field := ⟨Reg.KVP_COUNTS, 63, 63⟩
def Fld.KVP_COUNTS_RETRY_COUNT : Field := ⟨Reg.KVP_COUNTS, 62, 32⟩
def Fld.KVP_COUNTS_STALE_SAT : Field := ⟨Reg.KVP_COUNTS, 31, 31⟩
def Fld.KVP_COUNTS_STALE_COUNT : Field := ⟨Reg.KVP_COUNTS, 30, 0⟩

/-- `CNV_COUNTS`: Table 08-8. -/
def Reg.CNV_COUNTS : Nat := 0x7000000
def RegRow.CNV_COUNTS : RegRow :=
  ⟨"CNV_COUNTS", 7, 0x7000000, 0x0, 1, 0x0, 1, 0x0,
   [⟨"WAIT_SAT", 63, 63, .rc⟩, ⟨"GATE_WAITS", 62, 32, .rc⟩, ⟨"TIMEOUT_SAT", 31, 31, .rc⟩, ⟨"GATE_TIMEOUTS", 30, 0, .rc⟩]⟩
def Fld.CNV_COUNTS_WAIT_SAT : Field := ⟨Reg.CNV_COUNTS, 63, 63⟩
def Fld.CNV_COUNTS_GATE_WAITS : Field := ⟨Reg.CNV_COUNTS, 62, 32⟩
def Fld.CNV_COUNTS_TIMEOUT_SAT : Field := ⟨Reg.CNV_COUNTS, 31, 31⟩
def Fld.CNV_COUNTS_GATE_TIMEOUTS : Field := ⟨Reg.CNV_COUNTS, 30, 0⟩

/-- `CNV_LAST_GATE`: Table 08-9. -/
def Reg.CNV_LAST_GATE : Nat := 0x7000008
def RegRow.CNV_LAST_GATE : RegRow :=
  ⟨"CNV_LAST_GATE", 7, 0x7000008, 0x0, 1, 0x0, 1, 0x700000000000000,
   [⟨"Reserved", 63, 59, .ro⟩, ⟨"SIDE", 58, 56, .ro⟩, ⟨"Reserved", 55, 51, .ro⟩, ⟨"CORE", 50, 40, .ro⟩, ⟨"ADDR", 39, 0, .ro⟩]⟩
def Fld.CNV_LAST_GATE_SIDE : Field := ⟨Reg.CNV_LAST_GATE, 58, 56⟩
def Fld.CNV_LAST_GATE_CORE : Field := ⟨Reg.CNV_LAST_GATE, 50, 40⟩
def Fld.CNV_LAST_GATE_ADDR : Field := ⟨Reg.CNV_LAST_GATE, 39, 0⟩

/-- `NGE_BIND`: Table 08-14. -/
def Reg.NGE_BIND (n : Nat) : Nat := 0x8000000 + 0x1000 * n
def RegRow.NGE_BIND : RegRow :=
  ⟨"NGE_BIND", 8, 0x8000000, 0x1000, 4, 0x0, 1, 0x0,
   [⟨"OP", 63, 62, .wo⟩, ⟨"Reserved", 61, 56, .wo⟩, ⟨"STREAM", 55, 48, .wo⟩, ⟨"Reserved", 47, 40, .wo⟩, ⟨"PROG_64", 39, 6, .wo⟩, ⟨"Reserved", 5, 0, .wo⟩]⟩
def Fld.NGE_BIND_OP (n : Nat) : Field := ⟨Reg.NGE_BIND n, 63, 62⟩
def Fld.NGE_BIND_STREAM (n : Nat) : Field := ⟨Reg.NGE_BIND n, 55, 48⟩
def Fld.NGE_BIND_PROG_64 (n : Nat) : Field := ⟨Reg.NGE_BIND n, 39, 6⟩

/-- `NGE_STATUS`: Table 08-15. -/
def Reg.NGE_STATUS (n : Nat) : Nat := 0x8000008 + 0x1000 * n
def RegRow.NGE_STATUS : RegRow :=
  ⟨"NGE_STATUS", 8, 0x8000008, 0x1000, 4, 0x0, 1, 0xff000000,
   [⟨"BUSY", 63, 63, .ro⟩, ⟨"PENDING", 62, 62, .ro⟩, ⟨"Reserved", 61, 56, .ro⟩, ⟨"STREAM", 55, 48, .ro⟩, ⟨"BOUND", 47, 40, .ro⟩, ⟨"BIND_STATUS", 39, 32, .ro⟩, ⟨"STAGE", 31, 24, .ro⟩, ⟨"LAST_FAULT", 23, 16, .ro⟩, ⟨"FAULT_STREAM", 15, 8, .ro⟩, ⟨"Reserved", 7, 0, .ro⟩]⟩
def Fld.NGE_STATUS_BUSY (n : Nat) : Field := ⟨Reg.NGE_STATUS n, 63, 63⟩
def Fld.NGE_STATUS_PENDING (n : Nat) : Field := ⟨Reg.NGE_STATUS n, 62, 62⟩
def Fld.NGE_STATUS_STREAM (n : Nat) : Field := ⟨Reg.NGE_STATUS n, 55, 48⟩
def Fld.NGE_STATUS_BOUND (n : Nat) : Field := ⟨Reg.NGE_STATUS n, 47, 40⟩
def Fld.NGE_STATUS_BIND_STATUS (n : Nat) : Field := ⟨Reg.NGE_STATUS n, 39, 32⟩
def Fld.NGE_STATUS_STAGE (n : Nat) : Field := ⟨Reg.NGE_STATUS n, 31, 24⟩
def Fld.NGE_STATUS_LAST_FAULT (n : Nat) : Field := ⟨Reg.NGE_STATUS n, 23, 16⟩
def Fld.NGE_STATUS_FAULT_STREAM (n : Nat) : Field := ⟨Reg.NGE_STATUS n, 15, 8⟩

/-- `NGE_COUNTS`: Table 08-16. -/
def Reg.NGE_COUNTS (n : Nat) : Nat := 0x8000010 + 0x1000 * n
def RegRow.NGE_COUNTS : RegRow :=
  ⟨"NGE_COUNTS", 8, 0x8000010, 0x1000, 4, 0x0, 1, 0x0,
   [⟨"PIC_SAT", 63, 63, .rc⟩, ⟨"PICTURES", 62, 32, .rc⟩, ⟨"STALL_SAT", 31, 31, .rc⟩, ⟨"STALLS", 30, 0, .rc⟩]⟩
def Fld.NGE_COUNTS_PIC_SAT (n : Nat) : Field := ⟨Reg.NGE_COUNTS n, 63, 63⟩
def Fld.NGE_COUNTS_PICTURES (n : Nat) : Field := ⟨Reg.NGE_COUNTS n, 62, 32⟩
def Fld.NGE_COUNTS_STALL_SAT (n : Nat) : Field := ⟨Reg.NGE_COUNTS n, 31, 31⟩
def Fld.NGE_COUNTS_STALLS (n : Nat) : Field := ⟨Reg.NGE_COUNTS n, 30, 0⟩

/-- `RNG_ID`: Table 09-8. -/
def Reg.RNG_ID : Nat := 0x9000000
def RegRow.RNG_ID : RegRow :=
  ⟨"RNG_ID", 9, 0x9000000, 0x0, 1, 0x0, 1, 0x14e1b7c930000,
   [⟨"TABLE_ID", 63, 48, .ro⟩, ⟨"TABLE_CRC", 47, 16, .ro⟩, ⟨"Reserved", 15, 0, .ro⟩]⟩
def Fld.RNG_ID_TABLE_ID : Field := ⟨Reg.RNG_ID, 63, 48⟩
def Fld.RNG_ID_TABLE_CRC : Field := ⟨Reg.RNG_ID, 47, 16⟩

/-- `RNG_SEED_BASE`: Table 09-9. -/
def Reg.RNG_SEED_BASE : Nat := 0x9000008
def RegRow.RNG_SEED_BASE : RegRow :=
  ⟨"RNG_SEED_BASE", 9, 0x9000008, 0x0, 1, 0x0, 1, 0x0,
   [⟨"SEED_BASE", 63, 0, .rw⟩]⟩
def Fld.RNG_SEED_BASE_SEED_BASE : Field := ⟨Reg.RNG_SEED_BASE, 63, 0⟩

/-- `RNG_COUNTS`: Table 09-10. -/
def Reg.RNG_COUNTS : Nat := 0x9000010
def RegRow.RNG_COUNTS : RegRow :=
  ⟨"RNG_COUNTS", 9, 0x9000010, 0x0, 1, 0x0, 1, 0x0,
   [⟨"SAMPLE_SAT", 63, 63, .rc⟩, ⟨"SAMPLE_ROWS", 62, 32, .rc⟩, ⟨"EMPTY_SAT", 31, 31, .rc⟩, ⟨"EMPTY_ROWS", 30, 0, .rc⟩]⟩
def Fld.RNG_COUNTS_SAMPLE_SAT : Field := ⟨Reg.RNG_COUNTS, 63, 63⟩
def Fld.RNG_COUNTS_SAMPLE_ROWS : Field := ⟨Reg.RNG_COUNTS, 62, 32⟩
def Fld.RNG_COUNTS_EMPTY_SAT : Field := ⟨Reg.RNG_COUNTS, 31, 31⟩
def Fld.RNG_COUNTS_EMPTY_ROWS : Field := ⟨Reg.RNG_COUNTS, 30, 0⟩

/-- `HBM_CFG`: Table 10-7. -/
def Reg.HBM_CFG : Nat := 0xa000000
def RegRow.HBM_CFG : RegRow :=
  ⟨"HBM_CFG", 10, 0xa000000, 0x0, 1, 0x0, 1, 0xc0c,
   [⟨"KEY_CRC", 63, 32, .ro⟩, ⟨"Reserved", 31, 16, .ro⟩, ⟨"STACKS", 15, 8, .ro⟩, ⟨"GRANULE_LOG2", 7, 0, .ro⟩]⟩
def Fld.HBM_CFG_KEY_CRC : Field := ⟨Reg.HBM_CFG, 63, 32⟩
def Fld.HBM_CFG_STACKS : Field := ⟨Reg.HBM_CFG, 15, 8⟩
def Fld.HBM_CFG_GRANULE_LOG2 : Field := ⟨Reg.HBM_CFG, 7, 0⟩

/-- `HBM_SKEW`: Table 10-8. -/
def Reg.HBM_SKEW : Nat := 0xa000008
def RegRow.HBM_SKEW : RegRow :=
  ⟨"HBM_SKEW", 10, 0xa000008, 0x0, 1, 0x0, 1, 0x0,
   [⟨"OVER_FLAG", 63, 63, .w1c⟩, ⟨"OVER_SAT", 62, 62, .rc⟩, ⟨"OVER_WINDOWS", 61, 48, .rc⟩, ⟨"MAX_STACK", 47, 44, .ro⟩, ⟨"SKEW", 43, 32, .ro⟩, ⟨"WINDOWS", 31, 0, .ro⟩]⟩
def Fld.HBM_SKEW_OVER_FLAG : Field := ⟨Reg.HBM_SKEW, 63, 63⟩
def Fld.HBM_SKEW_OVER_SAT : Field := ⟨Reg.HBM_SKEW, 62, 62⟩
def Fld.HBM_SKEW_OVER_WINDOWS : Field := ⟨Reg.HBM_SKEW, 61, 48⟩
def Fld.HBM_SKEW_MAX_STACK : Field := ⟨Reg.HBM_SKEW, 47, 44⟩
def Fld.HBM_SKEW_SKEW : Field := ⟨Reg.HBM_SKEW, 43, 32⟩
def Fld.HBM_SKEW_WINDOWS : Field := ⟨Reg.HBM_SKEW, 31, 0⟩

/-- `HBM_SKEW_CTRL`: Table 10-9. -/
def Reg.HBM_SKEW_CTRL : Nat := 0xa000010
def RegRow.HBM_SKEW_CTRL : RegRow :=
  ⟨"HBM_SKEW_CTRL", 10, 0xa000010, 0x0, 1, 0x0, 1, 0x200,
   [⟨"Reserved", 63, 12, .ro⟩, ⟨"THRESHOLD", 11, 0, .rw⟩]⟩
def Fld.HBM_SKEW_CTRL_THRESHOLD : Field := ⟨Reg.HBM_SKEW_CTRL, 11, 0⟩

/-- `HBM_NARROW_CTRL`: Table 10-10. -/
def Reg.HBM_NARROW_CTRL : Nat := 0xa000018
def RegRow.HBM_NARROW_CTRL : RegRow :=
  ⟨"HBM_NARROW_CTRL", 10, 0xa000018, 0x0, 1, 0x0, 1, 0xfff,
   [⟨"Reserved", 63, 12, .ro⟩, ⟨"ENABLE", 11, 0, .rw⟩]⟩
def Fld.HBM_NARROW_CTRL_ENABLE : Field := ⟨Reg.HBM_NARROW_CTRL, 11, 0⟩

/-- `HBM_SCRUB_CTRL`: Table 10-11. -/
def Reg.HBM_SCRUB_CTRL : Nat := 0xa000020
def RegRow.HBM_SCRUB_CTRL : RegRow :=
  ⟨"HBM_SCRUB_CTRL", 10, 0xa000020, 0x0, 1, 0x0, 1, 0x8000000000000008,
   [⟨"ENABLE", 63, 63, .rw⟩, ⟨"Reserved", 62, 8, .ro⟩, ⟨"PERIOD_H", 7, 0, .rw⟩]⟩
def Fld.HBM_SCRUB_CTRL_ENABLE : Field := ⟨Reg.HBM_SCRUB_CTRL, 63, 63⟩
def Fld.HBM_SCRUB_CTRL_PERIOD_H : Field := ⟨Reg.HBM_SCRUB_CTRL, 7, 0⟩

/-- `HBM_SCRUB_STATUS`: Table 10-12. -/
def Reg.HBM_SCRUB_STATUS : Nat := 0xa000028
def RegRow.HBM_SCRUB_STATUS : RegRow :=
  ⟨"HBM_SCRUB_STATUS", 10, 0xa000028, 0x0, 1, 0x0, 1, 0x0,
   [⟨"PASSES", 63, 32, .ro⟩, ⟨"Reserved", 31, 24, .ro⟩, ⟨"POSITION", 23, 0, .ro⟩]⟩
def Fld.HBM_SCRUB_STATUS_PASSES : Field := ⟨Reg.HBM_SCRUB_STATUS, 63, 32⟩
def Fld.HBM_SCRUB_STATUS_POSITION : Field := ⟨Reg.HBM_SCRUB_STATUS, 23, 0⟩

/-- `HBM_ECC_COUNTS`: Table 10-13. -/
def Reg.HBM_ECC_COUNTS : Nat := 0xa000030
def RegRow.HBM_ECC_COUNTS : RegRow :=
  ⟨"HBM_ECC_COUNTS", 10, 0xa000030, 0x0, 1, 0x0, 1, 0x0,
   [⟨"CE_SAT", 63, 63, .rc⟩, ⟨"CORRECTED", 62, 32, .rc⟩, ⟨"UE_SAT", 31, 31, .rc⟩, ⟨"UNCORRECTABLE", 30, 0, .rc⟩]⟩
def Fld.HBM_ECC_COUNTS_CE_SAT : Field := ⟨Reg.HBM_ECC_COUNTS, 63, 63⟩
def Fld.HBM_ECC_COUNTS_CORRECTED : Field := ⟨Reg.HBM_ECC_COUNTS, 62, 32⟩
def Fld.HBM_ECC_COUNTS_UE_SAT : Field := ⟨Reg.HBM_ECC_COUNTS, 31, 31⟩
def Fld.HBM_ECC_COUNTS_UNCORRECTABLE : Field := ⟨Reg.HBM_ECC_COUNTS, 30, 0⟩

/-- `HBM_REPAIR`: Table 10-14. -/
def Reg.HBM_REPAIR : Nat := 0xa000038
def RegRow.HBM_REPAIR : RegRow :=
  ⟨"HBM_REPAIR", 10, 0xa000038, 0x0, 1, 0x0, 1, 0x0,
   [⟨"SOFT_DONE", 63, 48, .ro⟩, ⟨"HARD_PENDING", 47, 32, .ro⟩, ⟨"NO_SPARE", 31, 16, .ro⟩, ⟨"Reserved", 15, 0, .ro⟩]⟩
def Fld.HBM_REPAIR_SOFT_DONE : Field := ⟨Reg.HBM_REPAIR, 63, 48⟩
def Fld.HBM_REPAIR_HARD_PENDING : Field := ⟨Reg.HBM_REPAIR, 47, 32⟩
def Fld.HBM_REPAIR_NO_SPARE : Field := ⟨Reg.HBM_REPAIR, 31, 16⟩

/-- `HBM_STACK`: Table 10-15. -/
def Reg.HBM_STACK (n : Nat) : Nat := 0xa000100 + 0x8 * n
def RegRow.HBM_STACK : RegRow :=
  ⟨"HBM_STACK", 10, 0xa000100, 0x8, 12, 0x0, 1, 0x100000000000,
   [⟨"READY", 63, 63, .ro⟩, ⟨"NARROW_OK", 62, 62, .ro⟩, ⟨"HOT", 61, 61, .ro⟩, ⟨"Reserved", 60, 56, .ro⟩, ⟨"TEMP_C", 55, 48, .ro⟩, ⟨"Reserved", 47, 45, .ro⟩, ⟨"SOFT_LEFT", 44, 32, .ro⟩, ⟨"LAST_WINDOW_UNITS", 31, 0, .ro⟩]⟩
def Fld.HBM_STACK_READY (n : Nat) : Field := ⟨Reg.HBM_STACK n, 63, 63⟩
def Fld.HBM_STACK_NARROW_OK (n : Nat) : Field := ⟨Reg.HBM_STACK n, 62, 62⟩
def Fld.HBM_STACK_HOT (n : Nat) : Field := ⟨Reg.HBM_STACK n, 61, 61⟩
def Fld.HBM_STACK_TEMP_C (n : Nat) : Field := ⟨Reg.HBM_STACK n, 55, 48⟩
def Fld.HBM_STACK_SOFT_LEFT (n : Nat) : Field := ⟨Reg.HBM_STACK n, 44, 32⟩
def Fld.HBM_STACK_LAST_WINDOW_UNITS (n : Nat) : Field := ⟨Reg.HBM_STACK n, 31, 0⟩

/-- `BWR_ACTIVE`: Table 10-16A. -/
def Reg.BWR_ACTIVE (n : Nat) : Nat := 0xb000000 + 0x8 * n
def RegRow.BWR_ACTIVE : RegRow :=
  ⟨"BWR_ACTIVE", 11, 0xb000000, 0x8, 8, 0x0, 1, 0x0,
   [⟨"Reserved", 63, 43, .ro⟩, ⟨"BURST_KIB", 42, 32, .ro⟩, ⟨"Reserved", 31, 25, .ro⟩, ⟨"CEIL", 24, 16, .ro⟩, ⟨"Reserved", 15, 9, .ro⟩, ⟨"FLOOR", 8, 0, .ro⟩]⟩
def Fld.BWR_ACTIVE_BURST_KIB (n : Nat) : Field := ⟨Reg.BWR_ACTIVE n, 42, 32⟩
def Fld.BWR_ACTIVE_CEIL (n : Nat) : Field := ⟨Reg.BWR_ACTIVE n, 24, 16⟩
def Fld.BWR_ACTIVE_FLOOR (n : Nat) : Field := ⟨Reg.BWR_ACTIVE n, 8, 0⟩

/-- `BWR_STAGE`: Table 10-16S. -/
def Reg.BWR_STAGE (n : Nat) : Nat := 0xb000040 + 0x8 * n
def RegRow.BWR_STAGE : RegRow :=
  ⟨"BWR_STAGE", 11, 0xb000040, 0x8, 8, 0x0, 1, 0x0,
   [⟨"Reserved", 63, 43, .ro⟩, ⟨"BURST_KIB", 42, 32, .rw⟩, ⟨"Reserved", 31, 25, .ro⟩, ⟨"CEIL", 24, 16, .rw⟩, ⟨"Reserved", 15, 9, .ro⟩, ⟨"FLOOR", 8, 0, .rw⟩]⟩
def Fld.BWR_STAGE_BURST_KIB (n : Nat) : Field := ⟨Reg.BWR_STAGE n, 42, 32⟩
def Fld.BWR_STAGE_CEIL (n : Nat) : Field := ⟨Reg.BWR_STAGE n, 24, 16⟩
def Fld.BWR_STAGE_FLOOR (n : Nat) : Field := ⟨Reg.BWR_STAGE n, 8, 0⟩

/-- `BWR_CTRL`: Table 10-17. -/
def Reg.BWR_CTRL : Nat := 0xb000080
def RegRow.BWR_CTRL : RegRow :=
  ⟨"BWR_CTRL", 11, 0xb000080, 0x0, 1, 0x0, 1, 0x0,
   [⟨"Reserved", 63, 1, .ro⟩, ⟨"SWAP", 0, 0, .w1s⟩]⟩
def Fld.BWR_CTRL_SWAP : Field := ⟨Reg.BWR_CTRL, 0, 0⟩

/-- `BWR_STATUS`: Table 10-18. -/
def Reg.BWR_STATUS : Nat := 0xb000088
def RegRow.BWR_STATUS : RegRow :=
  ⟨"BWR_STATUS", 11, 0xb000088, 0x0, 1, 0x0, 1, 0x0,
   [⟨"GEN", 63, 32, .ro⟩, ⟨"STAGE_STATUS", 31, 24, .ro⟩, ⟨"Reserved", 23, 21, .ro⟩, ⟨"SWAP_PENDING", 20, 20, .ro⟩, ⟨"Reserved", 19, 0, .ro⟩]⟩
def Fld.BWR_STATUS_GEN : Field := ⟨Reg.BWR_STATUS, 63, 32⟩
def Fld.BWR_STATUS_STAGE_STATUS : Field := ⟨Reg.BWR_STATUS, 31, 24⟩
def Fld.BWR_STATUS_SWAP_PENDING : Field := ⟨Reg.BWR_STATUS, 20, 20⟩

/-- `BWR_CLASS_MAP`: Table 10-19. -/
def Reg.BWR_CLASS_MAP : Nat := 0xb000090
def RegRow.BWR_CLASS_MAP : RegRow :=
  ⟨"BWR_CLASS_MAP", 11, 0xb000090, 0x0, 1, 0x0, 1, 0x0,
   [⟨"Reserved", 63, 24, .ro⟩, ⟨"PART_OF_CLASS", 23, 0, .ro⟩]⟩
def Fld.BWR_CLASS_MAP_PART_OF_CLASS : Field := ⟨Reg.BWR_CLASS_MAP, 23, 0⟩

/-- `BWR_COUNTS`: Table 10-20. -/
def Reg.BWR_COUNTS (n : Nat) : Nat := 0xb000100 + 0x8 * n
def RegRow.BWR_COUNTS : RegRow :=
  ⟨"BWR_COUNTS", 11, 0xb000100, 0x8, 8, 0x0, 1, 0x0,
   [⟨"UNITS_SAT", 63, 63, .rc⟩, ⟨"Reserved", 62, 48, .ro⟩, ⟨"UNITS", 47, 0, .rc⟩]⟩
def Fld.BWR_COUNTS_UNITS_SAT (n : Nat) : Field := ⟨Reg.BWR_COUNTS n, 63, 63⟩
def Fld.BWR_COUNTS_UNITS (n : Nat) : Field := ⟨Reg.BWR_COUNTS n, 47, 0⟩

/-- `FAB_CFG`: Table 11-17. -/
def Reg.FAB_CFG : Nat := 0xc000000
def RegRow.FAB_CFG : RegRow :=
  ⟨"FAB_CFG", 12, 0xc000000, 0x0, 1, 0x0, 1, 0x0,
   [⟨"SYSTEM_ID", 63, 48, .ro⟩, ⟨"Reserved", 47, 44, .ro⟩, ⟨"Z", 43, 39, .ro⟩, ⟨"Y", 38, 34, .ro⟩, ⟨"X", 33, 29, .ro⟩, ⟨"DZ_MINUS1", 28, 24, .ro⟩, ⟨"DY_MINUS1", 23, 19, .ro⟩, ⟨"DX_MINUS1", 18, 14, .ro⟩, ⟨"MODULE_ID", 13, 0, .ro⟩]⟩
def Fld.FAB_CFG_SYSTEM_ID : Field := ⟨Reg.FAB_CFG, 63, 48⟩
def Fld.FAB_CFG_Z : Field := ⟨Reg.FAB_CFG, 43, 39⟩
def Fld.FAB_CFG_Y : Field := ⟨Reg.FAB_CFG, 38, 34⟩
def Fld.FAB_CFG_X : Field := ⟨Reg.FAB_CFG, 33, 29⟩
def Fld.FAB_CFG_DZ_MINUS1 : Field := ⟨Reg.FAB_CFG, 28, 24⟩
def Fld.FAB_CFG_DY_MINUS1 : Field := ⟨Reg.FAB_CFG, 23, 19⟩
def Fld.FAB_CFG_DX_MINUS1 : Field := ⟨Reg.FAB_CFG, 18, 14⟩
def Fld.FAB_CFG_MODULE_ID : Field := ⟨Reg.FAB_CFG, 13, 0⟩

/-- `FAB_STATUS`: Table 11-18. -/
def Reg.FAB_STATUS : Nat := 0xc000008
def RegRow.FAB_STATUS : RegRow :=
  ⟨"FAB_STATUS", 12, 0xc000008, 0x0, 1, 0x0, 1, 0x0,
   [⟨"CONNECTED", 63, 58, .ro⟩, ⟨"EXPECTED", 57, 52, .ro⟩, ⟨"ACCEPTED", 51, 46, .ro⟩, ⟨"NARROW", 45, 40, .ro⟩, ⟨"MISWIRED", 39, 34, .ro⟩, ⟨"FAILED", 33, 28, .ro⟩, ⟨"READY", 27, 27, .ro⟩, ⟨"QUIESCE", 26, 26, .ro⟩, ⟨"Reserved", 25, 0, .ro⟩]⟩
def Fld.FAB_STATUS_CONNECTED : Field := ⟨Reg.FAB_STATUS, 63, 58⟩
def Fld.FAB_STATUS_EXPECTED : Field := ⟨Reg.FAB_STATUS, 57, 52⟩
def Fld.FAB_STATUS_ACCEPTED : Field := ⟨Reg.FAB_STATUS, 51, 46⟩
def Fld.FAB_STATUS_NARROW : Field := ⟨Reg.FAB_STATUS, 45, 40⟩
def Fld.FAB_STATUS_MISWIRED : Field := ⟨Reg.FAB_STATUS, 39, 34⟩
def Fld.FAB_STATUS_FAILED : Field := ⟨Reg.FAB_STATUS, 33, 28⟩
def Fld.FAB_STATUS_READY : Field := ⟨Reg.FAB_STATUS, 27, 27⟩
def Fld.FAB_STATUS_QUIESCE : Field := ⟨Reg.FAB_STATUS, 26, 26⟩

/-- `FAB_CTRL`: Table 11-19. -/
def Reg.FAB_CTRL : Nat := 0xc000010
def RegRow.FAB_CTRL : RegRow :=
  ⟨"FAB_CTRL", 12, 0xc000010, 0x0, 1, 0x0, 1, 0x0,
   [⟨"Reserved", 63, 4, .ro⟩, ⟨"TT_DISCARD", 3, 3, .w1s⟩, ⟨"TT_SWAP", 2, 2, .w1s⟩, ⟨"MIN_WIDTH", 1, 0, .rw⟩]⟩
def Fld.FAB_CTRL_TT_DISCARD : Field := ⟨Reg.FAB_CTRL, 3, 3⟩
def Fld.FAB_CTRL_TT_SWAP : Field := ⟨Reg.FAB_CTRL, 2, 2⟩
def Fld.FAB_CTRL_MIN_WIDTH : Field := ⟨Reg.FAB_CTRL, 1, 0⟩

/-- `FAB_LIMITS`: Table 11-20. -/
def Reg.FAB_LIMITS : Nat := 0xc000018
def RegRow.FAB_LIMITS : RegRow :=
  ⟨"FAB_LIMITS", 12, 0xc000018, 0x0, 1, 0x0, 1, 0x186a0,
   [⟨"Reserved", 63, 20, .ro⟩, ⟨"REMOTE_NS", 19, 0, .rw⟩]⟩
def Fld.FAB_LIMITS_REMOTE_NS : Field := ⟨Reg.FAB_LIMITS, 19, 0⟩

/-- `FAB_JOB_TAG`: Table 11-21. -/
def Reg.FAB_JOB_TAG : Nat := 0xc000020
def RegRow.FAB_JOB_TAG : RegRow :=
  ⟨"FAB_JOB_TAG", 12, 0xc000020, 0x0, 1, 0x0, 1, 0x0,
   [⟨"Reserved", 63, 16, .ro⟩, ⟨"TAG", 15, 0, .rw⟩]⟩
def Fld.FAB_JOB_TAG_TAG : Field := ⟨Reg.FAB_JOB_TAG, 15, 0⟩

/-- `FAB_ERRORS`: Table 11-22. -/
def Reg.FAB_ERRORS : Nat := 0xc000028
def RegRow.FAB_ERRORS : RegRow :=
  ⟨"FAB_ERRORS", 12, 0xc000028, 0x0, 1, 0x0, 1, 0x0,
   [⟨"REFUSED_SAT", 63, 63, .rc⟩, ⟨"REFUSED", 62, 48, .rc⟩, ⟨"TIMEOUT_SAT", 47, 47, .rc⟩, ⟨"TIMEOUTS", 46, 32, .rc⟩, ⟨"DROP_SAT", 31, 31, .rc⟩, ⟨"DROPS", 30, 16, .rc⟩, ⟨"LATE_SAT", 15, 15, .rc⟩, ⟨"LATE", 14, 0, .rc⟩]⟩
def Fld.FAB_ERRORS_REFUSED_SAT : Field := ⟨Reg.FAB_ERRORS, 63, 63⟩
def Fld.FAB_ERRORS_REFUSED : Field := ⟨Reg.FAB_ERRORS, 62, 48⟩
def Fld.FAB_ERRORS_TIMEOUT_SAT : Field := ⟨Reg.FAB_ERRORS, 47, 47⟩
def Fld.FAB_ERRORS_TIMEOUTS : Field := ⟨Reg.FAB_ERRORS, 46, 32⟩
def Fld.FAB_ERRORS_DROP_SAT : Field := ⟨Reg.FAB_ERRORS, 31, 31⟩
def Fld.FAB_ERRORS_DROPS : Field := ⟨Reg.FAB_ERRORS, 30, 16⟩
def Fld.FAB_ERRORS_LATE_SAT : Field := ⟨Reg.FAB_ERRORS, 15, 15⟩
def Fld.FAB_ERRORS_LATE : Field := ⟨Reg.FAB_ERRORS, 14, 0⟩

/-- `FAB_TT_LOAD`: Table 11-23. -/
def Reg.FAB_TT_LOAD : Nat := 0xc000030
def RegRow.FAB_TT_LOAD : RegRow :=
  ⟨"FAB_TT_LOAD", 12, 0xc000030, 0x0, 1, 0x0, 1, 0x0,
   [⟨"Reserved", 63, 40, .wo⟩, ⟨"SRC_4K", 39, 12, .wo⟩, ⟨"Reserved", 11, 0, .wo⟩]⟩
def Fld.FAB_TT_LOAD_SRC_4K : Field := ⟨Reg.FAB_TT_LOAD, 39, 12⟩

/-- `FAB_TT_STATUS`: Table 11-24. -/
def Reg.FAB_TT_STATUS : Nat := 0xc000038
def RegRow.FAB_TT_STATUS : RegRow :=
  ⟨"FAB_TT_STATUS", 12, 0xc000038, 0x0, 1, 0x0, 1, 0x0,
   [⟨"GEN_ACTIVE", 63, 48, .ro⟩, ⟨"GEN_STAGED", 47, 32, .ro⟩, ⟨"LOAD_STATUS", 31, 24, .ro⟩, ⟨"LOAD_STATE", 23, 22, .ro⟩, ⟨"Reserved", 21, 0, .ro⟩]⟩
def Fld.FAB_TT_STATUS_GEN_ACTIVE : Field := ⟨Reg.FAB_TT_STATUS, 63, 48⟩
def Fld.FAB_TT_STATUS_GEN_STAGED : Field := ⟨Reg.FAB_TT_STATUS, 47, 32⟩
def Fld.FAB_TT_STATUS_LOAD_STATUS : Field := ⟨Reg.FAB_TT_STATUS, 31, 24⟩
def Fld.FAB_TT_STATUS_LOAD_STATE : Field := ⟨Reg.FAB_TT_STATUS, 23, 22⟩

/-- `FAB_WIN_BASE`: Table 11-25. -/
def Reg.FAB_WIN_BASE (n : Nat) : Nat := 0xc000400 + 0x10 * n
def RegRow.FAB_WIN_BASE : RegRow :=
  ⟨"FAB_WIN_BASE", 12, 0xc000400, 0x10, 64, 0x0, 1, 0x0,
   [⟨"VALID", 63, 63, .rw⟩, ⟨"READ", 62, 62, .rw⟩, ⟨"WRITE", 61, 61, .rw⟩, ⟨"POST", 60, 60, .rw⟩, ⟨"Reserved", 59, 56, .ro⟩, ⟨"TAG", 55, 40, .rw⟩, ⟨"BASE_4K", 39, 12, .rw⟩, ⟨"Reserved", 11, 0, .ro⟩]⟩
def Fld.FAB_WIN_BASE_VALID (n : Nat) : Field := ⟨Reg.FAB_WIN_BASE n, 63, 63⟩
def Fld.FAB_WIN_BASE_READ (n : Nat) : Field := ⟨Reg.FAB_WIN_BASE n, 62, 62⟩
def Fld.FAB_WIN_BASE_WRITE (n : Nat) : Field := ⟨Reg.FAB_WIN_BASE n, 61, 61⟩
def Fld.FAB_WIN_BASE_POST (n : Nat) : Field := ⟨Reg.FAB_WIN_BASE n, 60, 60⟩
def Fld.FAB_WIN_BASE_TAG (n : Nat) : Field := ⟨Reg.FAB_WIN_BASE n, 55, 40⟩
def Fld.FAB_WIN_BASE_BASE_4K (n : Nat) : Field := ⟨Reg.FAB_WIN_BASE n, 39, 12⟩

/-- `FAB_WIN_SIZE`: Table 11-26. -/
def Reg.FAB_WIN_SIZE (n : Nat) : Nat := 0xc000408 + 0x10 * n
def RegRow.FAB_WIN_SIZE : RegRow :=
  ⟨"FAB_WIN_SIZE", 12, 0xc000408, 0x10, 64, 0x0, 1, 0x0,
   [⟨"Reserved", 63, 29, .ro⟩, ⟨"SIZE_4K", 28, 0, .rw⟩]⟩
def Fld.FAB_WIN_SIZE_SIZE_4K (n : Nat) : Field := ⟨Reg.FAB_WIN_SIZE n, 28, 0⟩

/-- `FAB_PORT_STATUS`: Table 11-27. -/
def Reg.FAB_PORT_STATUS (n : Nat) : Nat := 0xc001000 + 0x40 * n
def RegRow.FAB_PORT_STATUS : RegRow :=
  ⟨"FAB_PORT_STATUS", 12, 0xc001000, 0x40, 36, 0x0, 1, 0x0,
   [⟨"STATE", 63, 61, .ro⟩, ⟨"GROUP", 60, 58, .ro⟩, ⟨"DATELINE", 57, 57, .ro⟩, ⟨"WIDTH", 56, 55, .ro⟩, ⟨"REVERSED", 54, 54, .ro⟩, ⟨"LANES_GOOD", 53, 46, .ro⟩, ⟨"LANES_USED", 45, 38, .ro⟩, ⟨"REASON", 37, 30, .ro⟩, ⟨"CAUSE", 29, 27, .ro⟩, ⟨"ATTEMPTS", 26, 11, .ro⟩, ⟨"Reserved", 10, 0, .ro⟩]⟩
def Fld.FAB_PORT_STATUS_STATE (n : Nat) : Field := ⟨Reg.FAB_PORT_STATUS n, 63, 61⟩
def Fld.FAB_PORT_STATUS_GROUP (n : Nat) : Field := ⟨Reg.FAB_PORT_STATUS n, 60, 58⟩
def Fld.FAB_PORT_STATUS_DATELINE (n : Nat) : Field := ⟨Reg.FAB_PORT_STATUS n, 57, 57⟩
def Fld.FAB_PORT_STATUS_WIDTH (n : Nat) : Field := ⟨Reg.FAB_PORT_STATUS n, 56, 55⟩
def Fld.FAB_PORT_STATUS_REVERSED (n : Nat) : Field := ⟨Reg.FAB_PORT_STATUS n, 54, 54⟩
def Fld.FAB_PORT_STATUS_LANES_GOOD (n : Nat) : Field := ⟨Reg.FAB_PORT_STATUS n, 53, 46⟩
def Fld.FAB_PORT_STATUS_LANES_USED (n : Nat) : Field := ⟨Reg.FAB_PORT_STATUS n, 45, 38⟩
def Fld.FAB_PORT_STATUS_REASON (n : Nat) : Field := ⟨Reg.FAB_PORT_STATUS n, 37, 30⟩
def Fld.FAB_PORT_STATUS_CAUSE (n : Nat) : Field := ⟨Reg.FAB_PORT_STATUS n, 29, 27⟩
def Fld.FAB_PORT_STATUS_ATTEMPTS (n : Nat) : Field := ⟨Reg.FAB_PORT_STATUS n, 26, 11⟩

/-- `FAB_PORT_LINK`: Table 11-28. -/
def Reg.FAB_PORT_LINK (n : Nat) : Nat := 0xc001008 + 0x40 * n
def RegRow.FAB_PORT_LINK : RegRow :=
  ⟨"FAB_PORT_LINK", 12, 0xc001008, 0x40, 36, 0x0, 1, 0xfffc0000000,
   [⟨"EXPECT_MODULE", 63, 50, .ro⟩, ⟨"EXPECT_PORT", 49, 44, .ro⟩, ⟨"PEER_MODULE", 43, 30, .ro⟩, ⟨"PEER_PORT", 29, 24, .ro⟩, ⟨"PEER_GROUP", 23, 21, .ro⟩, ⟨"PEER_SYSTEM", 20, 5, .ro⟩, ⟨"Reserved", 4, 0, .ro⟩]⟩
def Fld.FAB_PORT_LINK_EXPECT_MODULE (n : Nat) : Field := ⟨Reg.FAB_PORT_LINK n, 63, 50⟩
def Fld.FAB_PORT_LINK_EXPECT_PORT (n : Nat) : Field := ⟨Reg.FAB_PORT_LINK n, 49, 44⟩
def Fld.FAB_PORT_LINK_PEER_MODULE (n : Nat) : Field := ⟨Reg.FAB_PORT_LINK n, 43, 30⟩
def Fld.FAB_PORT_LINK_PEER_PORT (n : Nat) : Field := ⟨Reg.FAB_PORT_LINK n, 29, 24⟩
def Fld.FAB_PORT_LINK_PEER_GROUP (n : Nat) : Field := ⟨Reg.FAB_PORT_LINK n, 23, 21⟩
def Fld.FAB_PORT_LINK_PEER_SYSTEM (n : Nat) : Field := ⟨Reg.FAB_PORT_LINK n, 20, 5⟩

/-- `FAB_PORT_CTRL`: Table 11-29. -/
def Reg.FAB_PORT_CTRL (n : Nat) : Nat := 0xc001010 + 0x40 * n
def RegRow.FAB_PORT_CTRL : RegRow :=
  ⟨"FAB_PORT_CTRL", 12, 0xc001010, 0x40, 36, 0x0, 1, 0x0,
   [⟨"Reserved", 63, 2, .ro⟩, ⟨"RETRAIN", 1, 1, .w1s⟩, ⟨"DISABLE", 0, 0, .rw⟩]⟩
def Fld.FAB_PORT_CTRL_RETRAIN (n : Nat) : Field := ⟨Reg.FAB_PORT_CTRL n, 1, 1⟩
def Fld.FAB_PORT_CTRL_DISABLE (n : Nat) : Field := ⟨Reg.FAB_PORT_CTRL n, 0, 0⟩

/-- `FAB_PORT_TRAFFIC`: Table 11-30. -/
def Reg.FAB_PORT_TRAFFIC (n : Nat) : Nat := 0xc001018 + 0x40 * n
def RegRow.FAB_PORT_TRAFFIC : RegRow :=
  ⟨"FAB_PORT_TRAFFIC", 12, 0xc001018, 0x40, 36, 0x0, 1, 0x0,
   [⟨"TX_SAT", 63, 63, .rc⟩, ⟨"TX_KFLITS", 62, 32, .rc⟩, ⟨"RX_SAT", 31, 31, .rc⟩, ⟨"RX_KFLITS", 30, 0, .rc⟩]⟩
def Fld.FAB_PORT_TRAFFIC_TX_SAT (n : Nat) : Field := ⟨Reg.FAB_PORT_TRAFFIC n, 63, 63⟩
def Fld.FAB_PORT_TRAFFIC_TX_KFLITS (n : Nat) : Field := ⟨Reg.FAB_PORT_TRAFFIC n, 62, 32⟩
def Fld.FAB_PORT_TRAFFIC_RX_SAT (n : Nat) : Field := ⟨Reg.FAB_PORT_TRAFFIC n, 31, 31⟩
def Fld.FAB_PORT_TRAFFIC_RX_KFLITS (n : Nat) : Field := ⟨Reg.FAB_PORT_TRAFFIC n, 30, 0⟩

/-- `FAB_PORT_ERRS`: Table 11-31. -/
def Reg.FAB_PORT_ERRS (n : Nat) : Nat := 0xc001020 + 0x40 * n
def RegRow.FAB_PORT_ERRS : RegRow :=
  ⟨"FAB_PORT_ERRS", 12, 0xc001020, 0x40, 36, 0x0, 1, 0x0,
   [⟨"CW_SAT", 63, 63, .rc⟩, ⟨"CORRECTED", 62, 40, .rc⟩, ⟨"UC_SAT", 39, 39, .rc⟩, ⟨"UNCORRECTED", 38, 24, .rc⟩, ⟨"RP_SAT", 23, 23, .rc⟩, ⟨"REPLAYS", 22, 8, .rc⟩, ⟨"DOWN_SAT", 7, 7, .rc⟩, ⟨"DOWNS", 6, 0, .rc⟩]⟩
def Fld.FAB_PORT_ERRS_CW_SAT (n : Nat) : Field := ⟨Reg.FAB_PORT_ERRS n, 63, 63⟩
def Fld.FAB_PORT_ERRS_CORRECTED (n : Nat) : Field := ⟨Reg.FAB_PORT_ERRS n, 62, 40⟩
def Fld.FAB_PORT_ERRS_UC_SAT (n : Nat) : Field := ⟨Reg.FAB_PORT_ERRS n, 39, 39⟩
def Fld.FAB_PORT_ERRS_UNCORRECTED (n : Nat) : Field := ⟨Reg.FAB_PORT_ERRS n, 38, 24⟩
def Fld.FAB_PORT_ERRS_RP_SAT (n : Nat) : Field := ⟨Reg.FAB_PORT_ERRS n, 23, 23⟩
def Fld.FAB_PORT_ERRS_REPLAYS (n : Nat) : Field := ⟨Reg.FAB_PORT_ERRS n, 22, 8⟩
def Fld.FAB_PORT_ERRS_DOWN_SAT (n : Nat) : Field := ⟨Reg.FAB_PORT_ERRS n, 7, 7⟩
def Fld.FAB_PORT_ERRS_DOWNS (n : Nat) : Field := ⟨Reg.FAB_PORT_ERRS n, 6, 0⟩

/-- `GRD_OPEN`: Table 12-10. -/
def Reg.GRD_OPEN : Nat := 0xd000000
def RegRow.GRD_OPEN : RegRow :=
  ⟨"GRD_OPEN", 13, 0xd000000, 0x0, 1, 0x0, 1, 0x0,
   [⟨"Reserved", 63, 40, .wo⟩, ⟨"DESC_64", 39, 6, .wo⟩, ⟨"Reserved", 5, 0, .wo⟩]⟩
def Fld.GRD_OPEN_DESC_64 : Field := ⟨Reg.GRD_OPEN, 39, 6⟩

/-- `GRD_STATUS`: Table 12-11. -/
def Reg.GRD_STATUS : Nat := 0xd000008
def RegRow.GRD_STATUS : RegRow :=
  ⟨"GRD_STATUS", 13, 0xd000008, 0x0, 1, 0x0, 1, 0x0,
   [⟨"OPENING", 63, 63, .ro⟩, ⟨"OPEN", 62, 58, .ro⟩, ⟨"Reserved", 57, 56, .ro⟩, ⟨"LAST_STATUS", 55, 48, .ro⟩, ⟨"LAST_RED_ID", 47, 32, .ro⟩, ⟨"POOL_CHUNKS", 31, 0, .ro⟩]⟩
def Fld.GRD_STATUS_OPENING : Field := ⟨Reg.GRD_STATUS, 63, 63⟩
def Fld.GRD_STATUS_OPEN : Field := ⟨Reg.GRD_STATUS, 62, 58⟩
def Fld.GRD_STATUS_LAST_STATUS : Field := ⟨Reg.GRD_STATUS, 55, 48⟩
def Fld.GRD_STATUS_LAST_RED_ID : Field := ⟨Reg.GRD_STATUS, 47, 32⟩
def Fld.GRD_STATUS_POOL_CHUNKS : Field := ⟨Reg.GRD_STATUS, 31, 0⟩

/-- `GRD_COUNTS`: Table 12-12. -/
def Reg.GRD_COUNTS : Nat := 0xd000010
def RegRow.GRD_COUNTS : RegRow :=
  ⟨"GRD_COUNTS", 13, 0xd000010, 0x0, 1, 0x0, 1, 0x0,
   [⟨"LATE_SAT", 63, 63, .rc⟩, ⟨"LATE", 62, 32, .rc⟩, ⟨"RESEND_SAT", 31, 31, .rc⟩, ⟨"RESENDS", 30, 0, .rc⟩]⟩
def Fld.GRD_COUNTS_LATE_SAT : Field := ⟨Reg.GRD_COUNTS, 63, 63⟩
def Fld.GRD_COUNTS_LATE : Field := ⟨Reg.GRD_COUNTS, 62, 32⟩
def Fld.GRD_COUNTS_RESEND_SAT : Field := ⟨Reg.GRD_COUNTS, 31, 31⟩
def Fld.GRD_COUNTS_RESENDS : Field := ⟨Reg.GRD_COUNTS, 30, 0⟩

/-- `GRD_CHECK`: Table 12-13. -/
def Reg.GRD_CHECK : Nat := 0xd000018
def RegRow.GRD_CHECK : RegRow :=
  ⟨"GRD_CHECK", 13, 0xd000018, 0x0, 1, 0x0, 1, 0x0,
   [⟨"CUT_SAT", 63, 63, .rc⟩, ⟨"CUT_CHUNKS", 62, 32, .rc⟩, ⟨"MM_SAT", 31, 31, .rc⟩, ⟨"MISMATCHES", 30, 0, .rc⟩]⟩
def Fld.GRD_CHECK_CUT_SAT : Field := ⟨Reg.GRD_CHECK, 63, 63⟩
def Fld.GRD_CHECK_CUT_CHUNKS : Field := ⟨Reg.GRD_CHECK, 62, 32⟩
def Fld.GRD_CHECK_MM_SAT : Field := ⟨Reg.GRD_CHECK, 31, 31⟩
def Fld.GRD_CHECK_MISMATCHES : Field := ⟨Reg.GRD_CHECK, 30, 0⟩

/-- `MED_CMD_SUBMIT`: Table 07-14. -/
def Reg.MED_CMD_SUBMIT : Nat := 0xe000000
def RegRow.MED_CMD_SUBMIT : RegRow :=
  ⟨"MED_CMD_SUBMIT", 14, 0xe000000, 0x0, 1, 0x0, 1, 0x0,
   [⟨"Reserved", 63, 40, .wo⟩, ⟨"REC_64", 39, 6, .wo⟩, ⟨"Reserved", 5, 0, .wo⟩]⟩
def Fld.MED_CMD_SUBMIT_REC_64 : Field := ⟨Reg.MED_CMD_SUBMIT, 39, 6⟩

/-- `MED_CMD_STATUS`: Table 13-15. -/
def Reg.MED_CMD_STATUS : Nat := 0xe000008
def RegRow.MED_CMD_STATUS : RegRow :=
  ⟨"MED_CMD_STATUS", 14, 0xe000008, 0x0, 1, 0x0, 1, 0x0,
   [⟨"DONE_COUNT", 63, 32, .ro⟩, ⟨"LAST_STATUS", 31, 24, .ro⟩, ⟨"LAST_OP", 23, 16, .ro⟩, ⟨"LAST_STREAM", 15, 8, .ro⟩, ⟨"Reserved", 7, 7, .ro⟩, ⟨"PENDING", 6, 0, .ro⟩]⟩
def Fld.MED_CMD_STATUS_DONE_COUNT : Field := ⟨Reg.MED_CMD_STATUS, 63, 32⟩
def Fld.MED_CMD_STATUS_LAST_STATUS : Field := ⟨Reg.MED_CMD_STATUS, 31, 24⟩
def Fld.MED_CMD_STATUS_LAST_OP : Field := ⟨Reg.MED_CMD_STATUS, 23, 16⟩
def Fld.MED_CMD_STATUS_LAST_STREAM : Field := ⟨Reg.MED_CMD_STATUS, 15, 8⟩
def Fld.MED_CMD_STATUS_PENDING : Field := ⟨Reg.MED_CMD_STATUS, 6, 0⟩

/-- `MED_ENGINES`: Table 13-16. -/
def Reg.MED_ENGINES : Nat := 0xe000010
def RegRow.MED_ENGINES : RegRow :=
  ⟨"MED_ENGINES", 14, 0xe000010, 0x0, 1, 0x0, 1, 0x0,
   [⟨"Reserved", 63, 57, .ro⟩, ⟨"OPEN", 56, 48, .ro⟩, ⟨"ENC_OUT", 47, 40, .ro⟩, ⟨"DEC_OUT", 39, 24, .ro⟩, ⟨"ENC_BUSY", 23, 16, .ro⟩, ⟨"DEC_BUSY", 15, 0, .ro⟩]⟩
def Fld.MED_ENGINES_OPEN : Field := ⟨Reg.MED_ENGINES, 56, 48⟩
def Fld.MED_ENGINES_ENC_OUT : Field := ⟨Reg.MED_ENGINES, 47, 40⟩
def Fld.MED_ENGINES_DEC_OUT : Field := ⟨Reg.MED_ENGINES, 39, 24⟩
def Fld.MED_ENGINES_ENC_BUSY : Field := ⟨Reg.MED_ENGINES, 23, 16⟩
def Fld.MED_ENGINES_DEC_BUSY : Field := ⟨Reg.MED_ENGINES, 15, 0⟩

/-- `MED_COUNTS`: Table 13-17. -/
def Reg.MED_COUNTS : Nat := 0xe000018
def RegRow.MED_COUNTS : RegRow :=
  ⟨"MED_COUNTS", 14, 0xe000018, 0x0, 1, 0x0, 1, 0x0,
   [⟨"CONC_SAT", 63, 63, .rc⟩, ⟨"CONCEALED", 62, 32, .rc⟩, ⟨"SKIP_SAT", 31, 31, .rc⟩, ⟨"SKIPPED", 30, 16, .rc⟩, ⟨"STOP_SAT", 15, 15, .rc⟩, ⟨"STOPS", 14, 0, .rc⟩]⟩
def Fld.MED_COUNTS_CONC_SAT : Field := ⟨Reg.MED_COUNTS, 63, 63⟩
def Fld.MED_COUNTS_CONCEALED : Field := ⟨Reg.MED_COUNTS, 62, 32⟩
def Fld.MED_COUNTS_SKIP_SAT : Field := ⟨Reg.MED_COUNTS, 31, 31⟩
def Fld.MED_COUNTS_SKIPPED : Field := ⟨Reg.MED_COUNTS, 30, 16⟩
def Fld.MED_COUNTS_STOP_SAT : Field := ⟨Reg.MED_COUNTS, 15, 15⟩
def Fld.MED_COUNTS_STOPS : Field := ⟨Reg.MED_COUNTS, 14, 0⟩

/-- `MED_STREAM`: Table 13-18. -/
def Reg.MED_STREAM (n : Nat) : Nat := 0xe001000 + 0x8 * n
def RegRow.MED_STREAM : RegRow :=
  ⟨"MED_STREAM", 14, 0xe001000, 0x8, 256, 0x0, 1, 0x0,
   [⟨"STATE", 63, 61, .ro⟩, ⟨"DIR", 60, 60, .ro⟩, ⟨"MD", 59, 58, .ro⟩, ⟨"CLASS", 57, 56, .ro⟩, ⟨"STATUS", 55, 48, .ro⟩, ⟨"Reserved", 47, 40, .ro⟩, ⟨"PICTURES", 39, 0, .ro⟩]⟩
def Fld.MED_STREAM_STATE (n : Nat) : Field := ⟨Reg.MED_STREAM n, 63, 61⟩
def Fld.MED_STREAM_DIR (n : Nat) : Field := ⟨Reg.MED_STREAM n, 60, 60⟩
def Fld.MED_STREAM_MD (n : Nat) : Field := ⟨Reg.MED_STREAM n, 59, 58⟩
def Fld.MED_STREAM_CLASS (n : Nat) : Field := ⟨Reg.MED_STREAM n, 57, 56⟩
def Fld.MED_STREAM_STATUS (n : Nat) : Field := ⟨Reg.MED_STREAM n, 55, 48⟩
def Fld.MED_STREAM_PICTURES (n : Nat) : Field := ⟨Reg.MED_STREAM n, 39, 0⟩

/-- `HST_PORT_CFG`: Table 15-10. -/
def Reg.HST_PORT_CFG (n : Nat) : Nat := 0xf000000 + 0x40 * n
def RegRow.HST_PORT_CFG : RegRow :=
  ⟨"HST_PORT_CFG", 15, 0xf000000, 0x40, 4, 0x0, 1, 0x69c0000,
   [⟨"Reserved", 63, 52, .ro⟩, ⟨"DATA_VLAN", 51, 40, .rw⟩, ⟨"MGMT_VLAN", 39, 28, .ro⟩, ⟨"DSCP", 27, 22, .rw⟩, ⟨"PFC_PRIO", 21, 19, .rw⟩, ⟨"PFC_EN", 18, 18, .rw⟩, ⟨"Reserved", 17, 0, .ro⟩]⟩
def Fld.HST_PORT_CFG_DATA_VLAN (n : Nat) : Field := ⟨Reg.HST_PORT_CFG n, 51, 40⟩
def Fld.HST_PORT_CFG_MGMT_VLAN (n : Nat) : Field := ⟨Reg.HST_PORT_CFG n, 39, 28⟩
def Fld.HST_PORT_CFG_DSCP (n : Nat) : Field := ⟨Reg.HST_PORT_CFG n, 27, 22⟩
def Fld.HST_PORT_CFG_PFC_PRIO (n : Nat) : Field := ⟨Reg.HST_PORT_CFG n, 21, 19⟩
def Fld.HST_PORT_CFG_PFC_EN (n : Nat) : Field := ⟨Reg.HST_PORT_CFG n, 18, 18⟩

/-- `HST_PORT_STATUS`: Table 15-11. -/
def Reg.HST_PORT_STATUS (n : Nat) : Nat := 0xf000008 + 0x40 * n
def RegRow.HST_PORT_STATUS : RegRow :=
  ⟨"HST_PORT_STATUS", 15, 0xf000008, 0x40, 4, 0x0, 1, 0x0,
   [⟨"LINK", 63, 63, .ro⟩, ⟨"KR", 62, 62, .ro⟩, ⟨"MGMT_CONN", 61, 61, .ro⟩, ⟨"Reserved", 60, 57, .ro⟩, ⟨"QPS_READY", 56, 48, .ro⟩, ⟨"MAC", 47, 0, .ro⟩]⟩
def Fld.HST_PORT_STATUS_LINK (n : Nat) : Field := ⟨Reg.HST_PORT_STATUS n, 63, 63⟩
def Fld.HST_PORT_STATUS_KR (n : Nat) : Field := ⟨Reg.HST_PORT_STATUS n, 62, 62⟩
def Fld.HST_PORT_STATUS_MGMT_CONN (n : Nat) : Field := ⟨Reg.HST_PORT_STATUS n, 61, 61⟩
def Fld.HST_PORT_STATUS_QPS_READY (n : Nat) : Field := ⟨Reg.HST_PORT_STATUS n, 56, 48⟩
def Fld.HST_PORT_STATUS_MAC (n : Nat) : Field := ⟨Reg.HST_PORT_STATUS n, 47, 0⟩

/-- `HST_PORT_GID_HI`: Table 15-12. -/
def Reg.HST_PORT_GID_HI (n : Nat) : Nat := 0xf000010 + 0x40 * n
def RegRow.HST_PORT_GID_HI : RegRow :=
  ⟨"HST_PORT_GID_HI", 15, 0xf000010, 0x40, 4, 0x0, 1, 0x0,
   [⟨"GID", 63, 0, .rw⟩]⟩
def Fld.HST_PORT_GID_HI_GID (n : Nat) : Field := ⟨Reg.HST_PORT_GID_HI n, 63, 0⟩

/-- `HST_PORT_GID_LO`: Table 15-12. -/
def Reg.HST_PORT_GID_LO (n : Nat) : Nat := 0xf000018 + 0x40 * n
def RegRow.HST_PORT_GID_LO : RegRow :=
  ⟨"HST_PORT_GID_LO", 15, 0xf000018, 0x40, 4, 0x0, 1, 0x0,
   [⟨"GID", 63, 0, .rw⟩]⟩
def Fld.HST_PORT_GID_LO_GID (n : Nat) : Field := ⟨Reg.HST_PORT_GID_LO n, 63, 0⟩

/-- `HST_PORT_COUNTS`: Table 15-13. -/
def Reg.HST_PORT_COUNTS (n : Nat) : Nat := 0xf000020 + 0x40 * n
def RegRow.HST_PORT_COUNTS : RegRow :=
  ⟨"HST_PORT_COUNTS", 15, 0xf000020, 0x40, 4, 0x0, 1, 0x0,
   [⟨"DROP_SAT", 63, 63, .rc⟩, ⟨"DROPPED", 62, 32, .rc⟩, ⟨"FEC_SAT", 31, 31, .rc⟩, ⟨"FEC_UNCORR", 30, 0, .rc⟩]⟩
def Fld.HST_PORT_COUNTS_DROP_SAT (n : Nat) : Field := ⟨Reg.HST_PORT_COUNTS n, 63, 63⟩
def Fld.HST_PORT_COUNTS_DROPPED (n : Nat) : Field := ⟨Reg.HST_PORT_COUNTS n, 62, 32⟩
def Fld.HST_PORT_COUNTS_FEC_SAT (n : Nat) : Field := ⟨Reg.HST_PORT_COUNTS n, 31, 31⟩
def Fld.HST_PORT_COUNTS_FEC_UNCORR (n : Nat) : Field := ⟨Reg.HST_PORT_COUNTS n, 30, 0⟩

/-- `HST_EVENT_QP`: Table 15-16. -/
def Reg.HST_EVENT_QP : Nat := 0xf000200
def RegRow.HST_EVENT_QP : RegRow :=
  ⟨"HST_EVENT_QP", 15, 0xf000200, 0x0, 1, 0x0, 1, 0x0,
   [⟨"VALID", 63, 63, .rw⟩, ⟨"Reserved", 62, 8, .ro⟩, ⟨"QP", 7, 0, .rw⟩]⟩
def Fld.HST_EVENT_QP_VALID : Field := ⟨Reg.HST_EVENT_QP, 63, 63⟩
def Fld.HST_EVENT_QP_QP : Field := ⟨Reg.HST_EVENT_QP, 7, 0⟩

/-- `HST_QP_W0`: Table 20-5. -/
def Reg.HST_QP_W0 (n : Nat) : Nat := 0xf010000 + 0x40 * n
def RegRow.HST_QP_W0 : RegRow :=
  ⟨"HST_QP_W0", 15, 0xf010000, 0x40, 256, 0x0, 1, 0x24770000000000,
   [⟨"STATE", 63, 62, .rw⟩, ⟨"PORT", 61, 60, .rw⟩, ⟨"TENANT", 59, 54, .rw⟩, ⟨"MTU", 53, 52, .rw⟩, ⟨"RING_LOG2", 51, 48, .rw⟩, ⟨"ACK_TIMEOUT", 47, 43, .rw⟩, ⟨"RETRY_CNT", 42, 40, .rw⟩, ⟨"Reserved", 39, 24, .ro⟩, ⟨"DEST_QPN", 23, 0, .rw⟩]⟩
def Fld.HST_QP_W0_STATE (n : Nat) : Field := ⟨Reg.HST_QP_W0 n, 63, 62⟩
def Fld.HST_QP_W0_PORT (n : Nat) : Field := ⟨Reg.HST_QP_W0 n, 61, 60⟩
def Fld.HST_QP_W0_TENANT (n : Nat) : Field := ⟨Reg.HST_QP_W0 n, 59, 54⟩
def Fld.HST_QP_W0_MTU (n : Nat) : Field := ⟨Reg.HST_QP_W0 n, 53, 52⟩
def Fld.HST_QP_W0_RING_LOG2 (n : Nat) : Field := ⟨Reg.HST_QP_W0 n, 51, 48⟩
def Fld.HST_QP_W0_ACK_TIMEOUT (n : Nat) : Field := ⟨Reg.HST_QP_W0 n, 47, 43⟩
def Fld.HST_QP_W0_RETRY_CNT (n : Nat) : Field := ⟨Reg.HST_QP_W0 n, 42, 40⟩
def Fld.HST_QP_W0_DEST_QPN (n : Nat) : Field := ⟨Reg.HST_QP_W0 n, 23, 0⟩

/-- `HST_QP_W1`: Table 20-5. -/
def Reg.HST_QP_W1 (n : Nat) : Nat := 0xf010008 + 0x40 * n
def RegRow.HST_QP_W1 : RegRow :=
  ⟨"HST_QP_W1", 15, 0xf010008, 0x40, 256, 0x0, 1, 0x0,
   [⟨"DGID_HI", 63, 0, .rw⟩]⟩
def Fld.HST_QP_W1_DGID_HI (n : Nat) : Field := ⟨Reg.HST_QP_W1 n, 63, 0⟩

/-- `HST_QP_W2`: Table 20-5. -/
def Reg.HST_QP_W2 (n : Nat) : Nat := 0xf010010 + 0x40 * n
def RegRow.HST_QP_W2 : RegRow :=
  ⟨"HST_QP_W2", 15, 0xf010010, 0x40, 256, 0x0, 1, 0x0,
   [⟨"DGID_LO", 63, 0, .rw⟩]⟩
def Fld.HST_QP_W2_DGID_LO (n : Nat) : Field := ⟨Reg.HST_QP_W2 n, 63, 0⟩

/-- `HST_QP_W3`: Table 20-5. -/
def Reg.HST_QP_W3 (n : Nat) : Nat := 0xf010018 + 0x40 * n
def RegRow.HST_QP_W3 : RegRow :=
  ⟨"HST_QP_W3", 15, 0xf010018, 0x40, 256, 0x0, 1, 0x0,
   [⟨"Reserved", 63, 48, .ro⟩, ⟨"DMAC", 47, 0, .rw⟩]⟩
def Fld.HST_QP_W3_DMAC (n : Nat) : Field := ⟨Reg.HST_QP_W3 n, 47, 0⟩

/-- `HST_QP_W4`: Table 20-5. -/
def Reg.HST_QP_W4 (n : Nat) : Nat := 0xf010020 + 0x40 * n
def RegRow.HST_QP_W4 : RegRow :=
  ⟨"HST_QP_W4", 15, 0xf010020, 0x40, 256, 0x0, 1, 0x0,
   [⟨"RKEY_IN", 63, 32, .rw⟩, ⟨"Reserved", 31, 24, .ro⟩, ⟨"SQ_PSN", 23, 0, .rw⟩]⟩
def Fld.HST_QP_W4_RKEY_IN (n : Nat) : Field := ⟨Reg.HST_QP_W4 n, 63, 32⟩
def Fld.HST_QP_W4_SQ_PSN (n : Nat) : Field := ⟨Reg.HST_QP_W4 n, 23, 0⟩

/-- `HST_QP_W5`: Table 20-5. -/
def Reg.HST_QP_W5 (n : Nat) : Nat := 0xf010028 + 0x40 * n
def RegRow.HST_QP_W5 : RegRow :=
  ⟨"HST_QP_W5", 15, 0xf010028, 0x40, 256, 0x0, 1, 0x0,
   [⟨"Reserved", 63, 24, .ro⟩, ⟨"RQ_PSN", 23, 0, .rw⟩]⟩
def Fld.HST_QP_W5_RQ_PSN (n : Nat) : Field := ⟨Reg.HST_QP_W5 n, 23, 0⟩

/-- `HST_QP_W6`: Table 20-5. -/
def Reg.HST_QP_W6 (n : Nat) : Nat := 0xf010030 + 0x40 * n
def RegRow.HST_QP_W6 : RegRow :=
  ⟨"HST_QP_W6", 15, 0xf010030, 0x40, 256, 0x0, 1, 0x0,
   [⟨"Reserved", 63, 40, .ro⟩, ⟨"BASE_4K", 39, 12, .rw⟩, ⟨"Reserved", 11, 0, .ro⟩]⟩
def Fld.HST_QP_W6_BASE_4K (n : Nat) : Field := ⟨Reg.HST_QP_W6 n, 39, 12⟩

/-- `HST_QP_W7`: Table 20-5. -/
def Reg.HST_QP_W7 (n : Nat) : Nat := 0xf010038 + 0x40 * n
def RegRow.HST_QP_W7 : RegRow :=
  ⟨"HST_QP_W7", 15, 0xf010038, 0x40, 256, 0x0, 1, 0x0,
   [⟨"Reserved", 63, 29, .ro⟩, ⟨"SIZE_4K", 28, 0, .rw⟩]⟩
def Fld.HST_QP_W7_SIZE_4K (n : Nat) : Field := ⟨Reg.HST_QP_W7 n, 28, 0⟩

/-- `HST_QP_STATUS`: Table 15-14. -/
def Reg.HST_QP_STATUS (n : Nat) : Nat := 0xf080000 + 0x8 * n
def RegRow.HST_QP_STATUS : RegRow :=
  ⟨"HST_QP_STATUS", 15, 0xf080000, 0x8, 256, 0x0, 1, 0x0,
   [⟨"CONSUMED", 63, 32, .ro⟩, ⟨"LAST_ERROR", 31, 24, .ro⟩, ⟨"ACTIVE", 23, 19, .ro⟩, ⟨"HELD", 18, 8, .ro⟩, ⟨"LOST_SAT", 7, 7, .rc⟩, ⟨"LOST", 6, 0, .rc⟩]⟩
def Fld.HST_QP_STATUS_CONSUMED (n : Nat) : Field := ⟨Reg.HST_QP_STATUS n, 63, 32⟩
def Fld.HST_QP_STATUS_LAST_ERROR (n : Nat) : Field := ⟨Reg.HST_QP_STATUS n, 31, 24⟩
def Fld.HST_QP_STATUS_ACTIVE (n : Nat) : Field := ⟨Reg.HST_QP_STATUS n, 23, 19⟩
def Fld.HST_QP_STATUS_HELD (n : Nat) : Field := ⟨Reg.HST_QP_STATUS n, 18, 8⟩
def Fld.HST_QP_STATUS_LOST_SAT (n : Nat) : Field := ⟨Reg.HST_QP_STATUS n, 7, 7⟩
def Fld.HST_QP_STATUS_LOST (n : Nat) : Field := ⟨Reg.HST_QP_STATUS n, 6, 0⟩

/-- `HST_DOORBELL`: Table 15-15. -/
def Reg.HST_DOORBELL (n : Nat) : Nat := 0xf100000 + 0x1000 * n
def RegRow.HST_DOORBELL : RegRow :=
  ⟨"HST_DOORBELL", 15, 0xf100000, 0x1000, 256, 0x0, 1, 0x0,
   [⟨"CONSUMED", 63, 32, .ro⟩, ⟨"PRODUCED", 31, 0, .rw⟩]⟩
def Fld.HST_DOORBELL_CONSUMED (n : Nat) : Field := ⟨Reg.HST_DOORBELL n, 63, 32⟩
def Fld.HST_DOORBELL_PRODUCED (n : Nat) : Field := ⟨Reg.HST_DOORBELL n, 31, 0⟩

/-- `BUP_READY`: Table 16-15. -/
def Reg.BUP_READY : Nat := 0x10000000
def RegRow.BUP_READY : RegRow :=
  ⟨"BUP_READY", 16, 0x10000000, 0x0, 1, 0x0, 1, 0x0,
   [⟨"Reserved", 63, 16, .ro⟩, ⟨"DEGRADED", 15, 15, .ro⟩, ⟨"SCRUB", 14, 14, .ro⟩, ⟨"GRAD", 13, 13, .ro⟩, ⟨"TIMETABLE", 12, 12, .ro⟩, ⟨"POWER_GOV", 11, 11, .ro⟩, ⟨"RNG", 10, 10, .ro⟩, ⟨"NARROW_GAUGE", 9, 9, .ro⟩, ⟨"MEDIA", 8, 8, .ro⟩, ⟨"FABRIC", 7, 7, .ro⟩, ⟨"HBM", 6, 6, .ro⟩, ⟨"MAP_STORE", 5, 5, .ro⟩, ⟨"CORES", 4, 4, .ro⟩, ⟨"STRUCT_IMAGE", 3, 3, .ro⟩, ⟨"SECURE_BOOT", 2, 2, .ro⟩, ⟨"MGMT", 1, 1, .ro⟩, ⟨"HOST_LINK", 0, 0, .ro⟩]⟩
def Fld.BUP_READY_DEGRADED : Field := ⟨Reg.BUP_READY, 15, 15⟩
def Fld.BUP_READY_SCRUB : Field := ⟨Reg.BUP_READY, 14, 14⟩
def Fld.BUP_READY_GRAD : Field := ⟨Reg.BUP_READY, 13, 13⟩
def Fld.BUP_READY_TIMETABLE : Field := ⟨Reg.BUP_READY, 12, 12⟩
def Fld.BUP_READY_POWER_GOV : Field := ⟨Reg.BUP_READY, 11, 11⟩
def Fld.BUP_READY_RNG : Field := ⟨Reg.BUP_READY, 10, 10⟩
def Fld.BUP_READY_NARROW_GAUGE : Field := ⟨Reg.BUP_READY, 9, 9⟩
def Fld.BUP_READY_MEDIA : Field := ⟨Reg.BUP_READY, 8, 8⟩
def Fld.BUP_READY_FABRIC : Field := ⟨Reg.BUP_READY, 7, 7⟩
def Fld.BUP_READY_HBM : Field := ⟨Reg.BUP_READY, 6, 6⟩
def Fld.BUP_READY_MAP_STORE : Field := ⟨Reg.BUP_READY, 5, 5⟩
def Fld.BUP_READY_CORES : Field := ⟨Reg.BUP_READY, 4, 4⟩
def Fld.BUP_READY_STRUCT_IMAGE : Field := ⟨Reg.BUP_READY, 3, 3⟩
def Fld.BUP_READY_SECURE_BOOT : Field := ⟨Reg.BUP_READY, 2, 2⟩
def Fld.BUP_READY_MGMT : Field := ⟨Reg.BUP_READY, 1, 1⟩
def Fld.BUP_READY_HOST_LINK : Field := ⟨Reg.BUP_READY, 0, 0⟩

/-- `BUP_CD_READY`: Table 16-16. -/
def Reg.BUP_CD_READY : Nat := 0x10000008
def RegRow.BUP_CD_READY : RegRow :=
  ⟨"BUP_CD_READY", 16, 0x10000008, 0x0, 1, 0x0, 1, 0x0,
   [⟨"Reserved", 63, 48, .ro⟩, ⟨"CD_SHORT", 47, 32, .ro⟩, ⟨"CD_FAILED", 31, 16, .ro⟩, ⟨"CD_READY", 15, 0, .ro⟩]⟩
def Fld.BUP_CD_READY_CD_SHORT : Field := ⟨Reg.BUP_CD_READY, 47, 32⟩
def Fld.BUP_CD_READY_CD_FAILED : Field := ⟨Reg.BUP_CD_READY, 31, 16⟩
def Fld.BUP_CD_READY_CD_READY : Field := ⟨Reg.BUP_CD_READY, 15, 0⟩

/-- `BUP_HBM_READY`: Table 16-17. -/
def Reg.BUP_HBM_READY : Nat := 0x10000010
def RegRow.BUP_HBM_READY : RegRow :=
  ⟨"BUP_HBM_READY", 16, 0x10000010, 0x0, 1, 0x0, 1, 0x0,
   [⟨"Reserved", 63, 28, .ro⟩, ⟨"STACK_FAILED", 27, 16, .ro⟩, ⟨"Reserved", 15, 12, .ro⟩, ⟨"STACK_READY", 11, 0, .ro⟩]⟩
def Fld.BUP_HBM_READY_STACK_FAILED : Field := ⟨Reg.BUP_HBM_READY, 27, 16⟩
def Fld.BUP_HBM_READY_STACK_READY : Field := ⟨Reg.BUP_HBM_READY, 11, 0⟩

/-- `BUP_PORT_READY`: Table 16-18. -/
def Reg.BUP_PORT_READY : Nat := 0x10000018
def RegRow.BUP_PORT_READY : RegRow :=
  ⟨"BUP_PORT_READY", 16, 0x10000018, 0x0, 1, 0x0, 1, 0x0,
   [⟨"Reserved", 63, 36, .ro⟩, ⟨"ACCEPTED", 35, 0, .ro⟩]⟩
def Fld.BUP_PORT_READY_ACCEPTED : Field := ⟨Reg.BUP_PORT_READY, 35, 0⟩

/-- `BUP_STATUS`: Table 16-19. -/
def Reg.BUP_STATUS : Nat := 0x10000020
def RegRow.BUP_STATUS : RegRow :=
  ⟨"BUP_STATUS", 16, 0x10000020, 0x0, 1, 0x0, 1, 0x0,
   [⟨"START_KIND", 63, 62, .ro⟩, ⟨"PHASE", 61, 59, .ro⟩, ⟨"STRUCT_SLOT", 58, 58, .ro⟩, ⟨"BUNDLE_SLOT", 57, 57, .ro⟩, ⟨"FALLBACK", 56, 56, .ro⟩, ⟨"LIST_FULL", 55, 55, .ro⟩, ⟨"COLD_DONE", 54, 54, .ro⟩, ⟨"RECOVERY", 53, 53, .ro⟩, ⟨"Reserved", 52, 48, .ro⟩, ⟨"FAULT", 47, 40, .ro⟩, ⟨"Reserved", 39, 29, .ro⟩, ⟨"DEFECTS", 28, 16, .ro⟩, ⟨"Reserved", 15, 12, .ro⟩, ⟨"LOGICAL_CORES", 11, 0, .ro⟩]⟩
def Fld.BUP_STATUS_START_KIND : Field := ⟨Reg.BUP_STATUS, 63, 62⟩
def Fld.BUP_STATUS_PHASE : Field := ⟨Reg.BUP_STATUS, 61, 59⟩
def Fld.BUP_STATUS_STRUCT_SLOT : Field := ⟨Reg.BUP_STATUS, 58, 58⟩
def Fld.BUP_STATUS_BUNDLE_SLOT : Field := ⟨Reg.BUP_STATUS, 57, 57⟩
def Fld.BUP_STATUS_FALLBACK : Field := ⟨Reg.BUP_STATUS, 56, 56⟩
def Fld.BUP_STATUS_LIST_FULL : Field := ⟨Reg.BUP_STATUS, 55, 55⟩
def Fld.BUP_STATUS_COLD_DONE : Field := ⟨Reg.BUP_STATUS, 54, 54⟩
def Fld.BUP_STATUS_RECOVERY : Field := ⟨Reg.BUP_STATUS, 53, 53⟩
def Fld.BUP_STATUS_FAULT : Field := ⟨Reg.BUP_STATUS, 47, 40⟩
def Fld.BUP_STATUS_DEFECTS : Field := ⟨Reg.BUP_STATUS, 28, 16⟩
def Fld.BUP_STATUS_LOGICAL_CORES : Field := ⟨Reg.BUP_STATUS, 11, 0⟩

/-- `BUP_COUNTS`: Table 16-20. -/
def Reg.BUP_COUNTS : Nat := 0x10000028
def RegRow.BUP_COUNTS : RegRow :=
  ⟨"BUP_COUNTS", 16, 0x10000028, 0x0, 1, 0x0, 1, 0x0,
   [⟨"START_COUNT", 63, 32, .ro⟩, ⟨"Reserved", 31, 16, .ro⟩, ⟨"NEW_DEFECTS", 15, 0, .ro⟩]⟩
def Fld.BUP_COUNTS_START_COUNT : Field := ⟨Reg.BUP_COUNTS, 63, 32⟩
def Fld.BUP_COUNTS_NEW_DEFECTS : Field := ⟨Reg.BUP_COUNTS, 15, 0⟩

/-- `BUP_TOPO`: Table 16-21. -/
def Reg.BUP_TOPO : Nat := 0x10000030
def RegRow.BUP_TOPO : RegRow :=
  ⟨"BUP_TOPO", 16, 0x10000030, 0x0, 1, 0x0, 1, 0x0,
   [⟨"TOPO_DONE", 63, 63, .ro⟩, ⟨"Reserved", 62, 36, .ro⟩, ⟨"MISWIRED_PORTS", 35, 0, .ro⟩]⟩
def Fld.BUP_TOPO_TOPO_DONE : Field := ⟨Reg.BUP_TOPO, 63, 63⟩
def Fld.BUP_TOPO_MISWIRED_PORTS : Field := ⟨Reg.BUP_TOPO, 35, 0⟩

/-- `BUP_RESET`: Table 16-22. -/
def Reg.BUP_RESET : Nat := 0x10000038
def RegRow.BUP_RESET : RegRow :=
  ⟨"BUP_RESET", 16, 0x10000038, 0x0, 1, 0x0, 1, 0x0,
   [⟨"KEY", 63, 56, .wo⟩, ⟨"Reserved", 55, 2, .wo⟩, ⟨"SLOT", 1, 0, .wo⟩]⟩
def Fld.BUP_RESET_KEY : Field := ⟨Reg.BUP_RESET, 63, 56⟩
def Fld.BUP_RESET_SLOT : Field := ⟨Reg.BUP_RESET, 1, 0⟩

/-- `BUP_FLASH_CMD`: Table 16-23. -/
def Reg.BUP_FLASH_CMD : Nat := 0x10000040
def RegRow.BUP_FLASH_CMD : RegRow :=
  ⟨"BUP_FLASH_CMD", 16, 0x10000040, 0x0, 1, 0x0, 1, 0x0,
   [⟨"OP", 63, 62, .wo⟩, ⟨"Reserved", 61, 58, .wo⟩, ⟨"SECTOR", 57, 48, .wo⟩, ⟨"Reserved", 47, 40, .wo⟩, ⟨"SRC_4K", 39, 12, .wo⟩, ⟨"Reserved", 11, 0, .wo⟩]⟩
def Fld.BUP_FLASH_CMD_OP : Field := ⟨Reg.BUP_FLASH_CMD, 63, 62⟩
def Fld.BUP_FLASH_CMD_SECTOR : Field := ⟨Reg.BUP_FLASH_CMD, 57, 48⟩
def Fld.BUP_FLASH_CMD_SRC_4K : Field := ⟨Reg.BUP_FLASH_CMD, 39, 12⟩

/-- `BUP_FLASH_STATUS`: Table 16-24. -/
def Reg.BUP_FLASH_STATUS : Nat := 0x10000048
def RegRow.BUP_FLASH_STATUS : RegRow :=
  ⟨"BUP_FLASH_STATUS", 16, 0x10000048, 0x0, 1, 0x0, 1, 0x0,
   [⟨"BUSY", 63, 63, .ro⟩, ⟨"Reserved", 62, 56, .ro⟩, ⟨"LAST_STATUS", 55, 48, .ro⟩, ⟨"LAST_OP", 47, 46, .ro⟩, ⟨"LAST_SECTOR", 45, 36, .ro⟩, ⟨"Reserved", 35, 0, .ro⟩]⟩
def Fld.BUP_FLASH_STATUS_BUSY : Field := ⟨Reg.BUP_FLASH_STATUS, 63, 63⟩
def Fld.BUP_FLASH_STATUS_LAST_STATUS : Field := ⟨Reg.BUP_FLASH_STATUS, 55, 48⟩
def Fld.BUP_FLASH_STATUS_LAST_OP : Field := ⟨Reg.BUP_FLASH_STATUS, 47, 46⟩
def Fld.BUP_FLASH_STATUS_LAST_SECTOR : Field := ⟨Reg.BUP_FLASH_STATUS, 45, 36⟩

/-- `BUP_CD`: Table 16-25. -/
def Reg.BUP_CD (n : Nat) : Nat := 0x10000100 + 0x8 * n
def RegRow.BUP_CD : RegRow :=
  ⟨"BUP_CD", 16, 0x10000100, 0x8, 16, 0x0, 1, 0x0,
   [⟨"Reserved", 63, 56, .ro⟩, ⟨"LOGICAL", 55, 48, .ro⟩, ⟨"Reserved", 47, 43, .ro⟩, ⟨"FIRST_LOGICAL", 42, 32, .ro⟩, ⟨"SPARES_LEFT", 31, 24, .ro⟩, ⟨"DEFECTIVE", 23, 16, .ro⟩, ⟨"Reserved", 15, 0, .ro⟩]⟩
def Fld.BUP_CD_LOGICAL (n : Nat) : Field := ⟨Reg.BUP_CD n, 55, 48⟩
def Fld.BUP_CD_FIRST_LOGICAL (n : Nat) : Field := ⟨Reg.BUP_CD n, 42, 32⟩
def Fld.BUP_CD_SPARES_LEFT (n : Nat) : Field := ⟨Reg.BUP_CD n, 31, 24⟩
def Fld.BUP_CD_DEFECTIVE (n : Nat) : Field := ⟨Reg.BUP_CD n, 23, 16⟩

/-- `BUP_STAMP`: Table 16-26. -/
def Reg.BUP_STAMP (n : Nat) : Nat := 0x10000200 + 0x8 * n
def RegRow.BUP_STAMP : RegRow :=
  ⟨"BUP_STAMP", 16, 0x10000200, 0x8, 15, 0x0, 1, 0x0,
   [⟨"STAMP", 63, 0, .ro⟩]⟩
def Fld.BUP_STAMP_STAMP (n : Nat) : Field := ⟨Reg.BUP_STAMP n, 63, 0⟩

/-- `PWR_STATUS`: Table 17-6. -/
def Reg.PWR_STATUS : Nat := 0x11000000
def RegRow.PWR_STATUS : RegRow :=
  ⟨"PWR_STATUS", 17, 0x11000000, 0x0, 1, 0x0, 1, 0x0,
   [⟨"STEP", 63, 61, .ro⟩, ⟨"ISSUE", 60, 54, .ro⟩, ⟨"ON_BATTERY", 53, 53, .ro⟩, ⟨"SHELF_LOST", 52, 52, .ro⟩, ⟨"BALLAST", 51, 51, .ro⟩, ⟨"BURST", 50, 50, .ro⟩, ⟨"Reserved", 49, 35, .ro⟩, ⟨"BUCKET_J", 34, 20, .ro⟩, ⟨"SHELF_STATUS", 19, 0, .ro⟩]⟩
def Fld.PWR_STATUS_STEP : Field := ⟨Reg.PWR_STATUS, 63, 61⟩
def Fld.PWR_STATUS_ISSUE : Field := ⟨Reg.PWR_STATUS, 60, 54⟩
def Fld.PWR_STATUS_ON_BATTERY : Field := ⟨Reg.PWR_STATUS, 53, 53⟩
def Fld.PWR_STATUS_SHELF_LOST : Field := ⟨Reg.PWR_STATUS, 52, 52⟩
def Fld.PWR_STATUS_BALLAST : Field := ⟨Reg.PWR_STATUS, 51, 51⟩
def Fld.PWR_STATUS_BURST : Field := ⟨Reg.PWR_STATUS, 50, 50⟩
def Fld.PWR_STATUS_BUCKET_J : Field := ⟨Reg.PWR_STATUS, 34, 20⟩
def Fld.PWR_STATUS_SHELF_STATUS : Field := ⟨Reg.PWR_STATUS, 19, 0⟩

/-- `PWR_DRAW`: Table 17-7. -/
def Reg.PWR_DRAW : Nat := 0x11000008
def RegRow.PWR_DRAW : RegRow :=
  ⟨"PWR_DRAW", 17, 0x11000008, 0x0, 1, 0x0, 1, 0x0,
   [⟨"DRAW_W", 63, 50, .ro⟩, ⟨"READY_W", 49, 36, .ro⟩, ⟨"CEIL_W", 35, 22, .ro⟩, ⟨"VIN_10MV", 21, 8, .ro⟩, ⟨"Reserved", 7, 0, .ro⟩]⟩
def Fld.PWR_DRAW_DRAW_W : Field := ⟨Reg.PWR_DRAW, 63, 50⟩
def Fld.PWR_DRAW_READY_W : Field := ⟨Reg.PWR_DRAW, 49, 36⟩
def Fld.PWR_DRAW_CEIL_W : Field := ⟨Reg.PWR_DRAW, 35, 22⟩
def Fld.PWR_DRAW_VIN_10MV : Field := ⟨Reg.PWR_DRAW, 21, 8⟩

/-- `PWR_LIMIT`: Table 17-8. -/
def Reg.PWR_LIMIT : Nat := 0x11000010
def RegRow.PWR_LIMIT : RegRow :=
  ⟨"PWR_LIMIT", 17, 0x11000010, 0x0, 1, 0x0, 1, 0x0,
   [⟨"Reserved", 63, 14, .ro⟩, ⟨"CAP_W", 13, 0, .rw⟩]⟩
def Fld.PWR_LIMIT_CAP_W : Field := ⟨Reg.PWR_LIMIT, 13, 0⟩

/-- `PWR_PLANT`: Table 17-9. -/
def Reg.PWR_PLANT : Nat := 0x11000018
def RegRow.PWR_PLANT : RegRow :=
  ⟨"PWR_PLANT", 17, 0x11000018, 0x0, 1, 0x0, 1, 0x10000000,
   [⟨"T_IN", 63, 53, .ro⟩, ⟨"T_OUT", 52, 42, .ro⟩, ⟨"FLOW", 41, 29, .ro⟩, ⟨"DUTY", 28, 18, .ro⟩, ⟨"Reserved", 17, 0, .ro⟩]⟩
def Fld.PWR_PLANT_T_IN : Field := ⟨Reg.PWR_PLANT, 63, 53⟩
def Fld.PWR_PLANT_T_OUT : Field := ⟨Reg.PWR_PLANT, 52, 42⟩
def Fld.PWR_PLANT_FLOW : Field := ⟨Reg.PWR_PLANT, 41, 29⟩
def Fld.PWR_PLANT_DUTY : Field := ⟨Reg.PWR_PLANT, 28, 18⟩

/-- `PWR_TEMPS`: Table 17-10. -/
def Reg.PWR_TEMPS : Nat := 0x11000020
def RegRow.PWR_TEMPS : RegRow :=
  ⟨"PWR_TEMPS", 17, 0x11000020, 0x0, 1, 0x0, 1, 0x0,
   [⟨"CD_MAX_C", 63, 56, .ro⟩, ⟨"CD_MAX_ID", 55, 52, .ro⟩, ⟨"HBM_MAX_C", 51, 44, .ro⟩, ⟨"HBM_MAX_ID", 43, 40, .ro⟩, ⟨"OTHER_MAX_C", 39, 32, .ro⟩, ⟨"Reserved", 31, 0, .ro⟩]⟩
def Fld.PWR_TEMPS_CD_MAX_C : Field := ⟨Reg.PWR_TEMPS, 63, 56⟩
def Fld.PWR_TEMPS_CD_MAX_ID : Field := ⟨Reg.PWR_TEMPS, 55, 52⟩
def Fld.PWR_TEMPS_HBM_MAX_C : Field := ⟨Reg.PWR_TEMPS, 51, 44⟩
def Fld.PWR_TEMPS_HBM_MAX_ID : Field := ⟨Reg.PWR_TEMPS, 43, 40⟩
def Fld.PWR_TEMPS_OTHER_MAX_C : Field := ⟨Reg.PWR_TEMPS, 39, 32⟩

/-- `PWR_COUNTS`: Table 17-11. -/
def Reg.PWR_COUNTS : Nat := 0x11000028
def RegRow.PWR_COUNTS : RegRow :=
  ⟨"PWR_COUNTS", 17, 0x11000028, 0x0, 1, 0x0, 1, 0x0,
   [⟨"STEP_SAT", 63, 63, .rc⟩, ⟨"STEP_ENTRIES", 62, 32, .rc⟩, ⟨"SHELF_SAT", 31, 31, .rc⟩, ⟨"SHELF_LOSSES", 30, 16, .rc⟩, ⟨"HOLD_SAT", 15, 15, .rc⟩, ⟨"HOLDS", 14, 0, .rc⟩]⟩
def Fld.PWR_COUNTS_STEP_SAT : Field := ⟨Reg.PWR_COUNTS, 63, 63⟩
def Fld.PWR_COUNTS_STEP_ENTRIES : Field := ⟨Reg.PWR_COUNTS, 62, 32⟩
def Fld.PWR_COUNTS_SHELF_SAT : Field := ⟨Reg.PWR_COUNTS, 31, 31⟩
def Fld.PWR_COUNTS_SHELF_LOSSES : Field := ⟨Reg.PWR_COUNTS, 30, 16⟩
def Fld.PWR_COUNTS_HOLD_SAT : Field := ⟨Reg.PWR_COUNTS, 15, 15⟩
def Fld.PWR_COUNTS_HOLDS : Field := ⟨Reg.PWR_COUNTS, 14, 0⟩

/-- `PWR_CFG`: Table 20-5. -/
def Reg.PWR_CFG (n : Nat) : Nat := 0x11000100 + 0x8 * n
def RegRow.PWR_CFG : RegRow :=
  ⟨"PWR_CFG", 17, 0x11000100, 0x8, 8, 0x0, 1, 0x0,
   [⟨"BYTES", 63, 0, .ro⟩]⟩
def Fld.PWR_CFG_BYTES (n : Nat) : Field := ⟨Reg.PWR_CFG n, 63, 0⟩

/-- `SEC_STATE`: Table 18-8. -/
def Reg.SEC_STATE : Nat := 0x12000000
def RegRow.SEC_STATE : RegRow :=
  ⟨"SEC_STATE", 18, 0x12000000, 0x0, 1, 0x0, 1, 0x0,
   [⟨"LIFE_CYCLE", 63, 61, .ro⟩, ⟨"BUSY", 60, 60, .ro⟩, ⟨"LAST_STATUS", 59, 52, .ro⟩, ⟨"LAST_OP", 51, 44, .ro⟩, ⟨"FW_REVOKED", 43, 40, .ro⟩, ⟨"FW_KEY_SLOT", 39, 38, .ro⟩, ⟨"OWNER_PROGRAMMED", 37, 34, .ro⟩, ⟨"OWNER_REVOKED", 33, 30, .ro⟩, ⟨"FW_SVN_MIN", 29, 24, .ro⟩, ⟨"FW_SVN", 23, 18, .ro⟩, ⟨"DEBUG_UNLOCKED", 17, 13, .ro⟩, ⟨"Reserved", 12, 0, .ro⟩]⟩
def Fld.SEC_STATE_LIFE_CYCLE : Field := ⟨Reg.SEC_STATE, 63, 61⟩
def Fld.SEC_STATE_BUSY : Field := ⟨Reg.SEC_STATE, 60, 60⟩
def Fld.SEC_STATE_LAST_STATUS : Field := ⟨Reg.SEC_STATE, 59, 52⟩
def Fld.SEC_STATE_LAST_OP : Field := ⟨Reg.SEC_STATE, 51, 44⟩
def Fld.SEC_STATE_FW_REVOKED : Field := ⟨Reg.SEC_STATE, 43, 40⟩
def Fld.SEC_STATE_FW_KEY_SLOT : Field := ⟨Reg.SEC_STATE, 39, 38⟩
def Fld.SEC_STATE_OWNER_PROGRAMMED : Field := ⟨Reg.SEC_STATE, 37, 34⟩
def Fld.SEC_STATE_OWNER_REVOKED : Field := ⟨Reg.SEC_STATE, 33, 30⟩
def Fld.SEC_STATE_FW_SVN_MIN : Field := ⟨Reg.SEC_STATE, 29, 24⟩
def Fld.SEC_STATE_FW_SVN : Field := ⟨Reg.SEC_STATE, 23, 18⟩
def Fld.SEC_STATE_DEBUG_UNLOCKED : Field := ⟨Reg.SEC_STATE, 17, 13⟩

/-- `SEC_SERIAL`: Table 20-5. -/
def Reg.SEC_SERIAL : Nat := 0x12000008
def RegRow.SEC_SERIAL : RegRow :=
  ⟨"SEC_SERIAL", 18, 0x12000008, 0x0, 1, 0x0, 1, 0x0,
   [⟨"SERIAL", 63, 0, .ro⟩]⟩
def Fld.SEC_SERIAL_SERIAL : Field := ⟨Reg.SEC_SERIAL, 63, 0⟩

/-- `SEC_CMD_SUBMIT`: Table 07-14. -/
def Reg.SEC_CMD_SUBMIT : Nat := 0x12000010
def RegRow.SEC_CMD_SUBMIT : RegRow :=
  ⟨"SEC_CMD_SUBMIT", 18, 0x12000010, 0x0, 1, 0x0, 1, 0x0,
   [⟨"Reserved", 63, 40, .wo⟩, ⟨"REC_64", 39, 6, .wo⟩, ⟨"Reserved", 5, 0, .wo⟩]⟩
def Fld.SEC_CMD_SUBMIT_REC_64 : Field := ⟨Reg.SEC_CMD_SUBMIT, 39, 6⟩

/-- `SEC_CHALLENGE`: Table 20-5. -/
def Reg.SEC_CHALLENGE (n : Nat) : Nat := 0x12000040 + 0x8 * n
def RegRow.SEC_CHALLENGE : RegRow :=
  ⟨"SEC_CHALLENGE", 18, 0x12000040, 0x8, 8, 0x0, 1, 0x0,
   [⟨"CHALLENGE", 63, 0, .ro⟩]⟩
def Fld.SEC_CHALLENGE_CHALLENGE (n : Nat) : Field := ⟨Reg.SEC_CHALLENGE n, 63, 0⟩

/-- `TST_DCQ`: Table 19-2. -/
def Reg.TST_DCQ : Nat := 0x13000000
def RegRow.TST_DCQ : RegRow :=
  ⟨"TST_DCQ", 19, 0x13000000, 0x0, 1, 0x0, 1, 0x0,
   [⟨"Reserved", 63, 12, .ro⟩, ⟨"JITTER", 11, 11, .rw⟩, ⟨"CROSSING", 10, 8, .rw⟩, ⟨"DELAY", 7, 0, .rw⟩]⟩
def Fld.TST_DCQ_JITTER : Field := ⟨Reg.TST_DCQ, 11, 11⟩
def Fld.TST_DCQ_CROSSING : Field := ⟨Reg.TST_DCQ, 10, 8⟩
def Fld.TST_DCQ_DELAY : Field := ⟨Reg.TST_DCQ, 7, 0⟩

/-- `TST_THROTTLE`: Table 19-3. -/
def Reg.TST_THROTTLE : Nat := 0x13000008
def RegRow.TST_THROTTLE : RegRow :=
  ⟨"TST_THROTTLE", 19, 0x13000008, 0x0, 1, 0x0, 1, 0x0,
   [⟨"Reserved", 63, 9, .ro⟩, ⟨"TARGET", 8, 6, .rw⟩, ⟨"DUTY", 5, 0, .rw⟩]⟩
def Fld.TST_THROTTLE_TARGET : Field := ⟨Reg.TST_THROTTLE, 8, 6⟩
def Fld.TST_THROTTLE_DUTY : Field := ⟨Reg.TST_THROTTLE, 5, 0⟩

/-- `TST_CREDIT`: Table 19-4. -/
def Reg.TST_CREDIT : Nat := 0x13000010
def RegRow.TST_CREDIT : RegRow :=
  ⟨"TST_CREDIT", 19, 0x13000010, 0x0, 1, 0x0, 1, 0x0,
   [⟨"Reserved", 63, 52, .ro⟩, ⟨"PORTS", 51, 16, .rw⟩, ⟨"DELAY_NS", 15, 0, .rw⟩]⟩
def Fld.TST_CREDIT_PORTS : Field := ⟨Reg.TST_CREDIT, 51, 16⟩
def Fld.TST_CREDIT_DELAY_NS : Field := ⟨Reg.TST_CREDIT, 15, 0⟩

/-- `TST_REFRESH`: Table 19-5. -/
def Reg.TST_REFRESH : Nat := 0x13000018
def RegRow.TST_REFRESH : RegRow :=
  ⟨"TST_REFRESH", 19, 0x13000018, 0x0, 1, 0x0, 1, 0x0,
   [⟨"Reserved", 63, 20, .ro⟩, ⟨"STACKS", 19, 8, .rw⟩, ⟨"EXTRA", 7, 0, .rw⟩]⟩
def Fld.TST_REFRESH_STACKS : Field := ⟨Reg.TST_REFRESH, 19, 8⟩
def Fld.TST_REFRESH_EXTRA : Field := ⟨Reg.TST_REFRESH, 7, 0⟩

/-- `TST_INJ_CTRL`: Table 19-6. -/
def Reg.TST_INJ_CTRL : Nat := 0x13000040
def RegRow.TST_INJ_CTRL : RegRow :=
  ⟨"TST_INJ_CTRL", 19, 0x13000040, 0x0, 1, 0x0, 1, 0x0,
   [⟨"KIND", 63, 60, .rw⟩, ⟨"ARM", 59, 59, .w1s⟩, ⟨"Reserved", 58, 56, .ro⟩, ⟨"UNIT", 55, 48, .rw⟩, ⟨"COUNT", 47, 40, .rw⟩, ⟨"Reserved", 39, 32, .ro⟩, ⟨"DELAY_US", 31, 0, .rw⟩]⟩
def Fld.TST_INJ_CTRL_KIND : Field := ⟨Reg.TST_INJ_CTRL, 63, 60⟩
def Fld.TST_INJ_CTRL_ARM : Field := ⟨Reg.TST_INJ_CTRL, 59, 59⟩
def Fld.TST_INJ_CTRL_UNIT : Field := ⟨Reg.TST_INJ_CTRL, 55, 48⟩
def Fld.TST_INJ_CTRL_COUNT : Field := ⟨Reg.TST_INJ_CTRL, 47, 40⟩
def Fld.TST_INJ_CTRL_DELAY_US : Field := ⟨Reg.TST_INJ_CTRL, 31, 0⟩

/-- `TST_INJ_ADDR`: Table 20-5. -/
def Reg.TST_INJ_ADDR : Nat := 0x13000048
def RegRow.TST_INJ_ADDR : RegRow :=
  ⟨"TST_INJ_ADDR", 19, 0x13000048, 0x0, 1, 0x0, 1, 0x0,
   [⟨"Reserved", 63, 40, .ro⟩, ⟨"ADDR", 39, 0, .rw⟩]⟩
def Fld.TST_INJ_ADDR_ADDR : Field := ⟨Reg.TST_INJ_ADDR, 39, 0⟩

/-- `TST_PERF_SEL`: Table 19-8. -/
def Reg.TST_PERF_SEL (n : Nat) : Nat := 0x13000100 + 0x8 * n
def RegRow.TST_PERF_SEL : RegRow :=
  ⟨"TST_PERF_SEL", 19, 0x13000100, 0x8, 16, 0x0, 1, 0x0,
   [⟨"Reserved", 63, 17, .ro⟩, ⟨"ENABLE", 16, 16, .rw⟩, ⟨"UNIT", 15, 8, .rw⟩, ⟨"EVENT", 7, 0, .rw⟩]⟩
def Fld.TST_PERF_SEL_ENABLE (n : Nat) : Field := ⟨Reg.TST_PERF_SEL n, 16, 16⟩
def Fld.TST_PERF_SEL_UNIT (n : Nat) : Field := ⟨Reg.TST_PERF_SEL n, 15, 8⟩
def Fld.TST_PERF_SEL_EVENT (n : Nat) : Field := ⟨Reg.TST_PERF_SEL n, 7, 0⟩

/-- `TST_PERF`: Table 19-9. -/
def Reg.TST_PERF (n : Nat) : Nat := 0x13000180 + 0x8 * n
def RegRow.TST_PERF : RegRow :=
  ⟨"TST_PERF", 19, 0x13000180, 0x8, 16, 0x0, 1, 0x0,
   [⟨"PERF_SAT", 63, 63, .rc⟩, ⟨"Reserved", 62, 48, .ro⟩, ⟨"COUNT", 47, 0, .rc⟩]⟩
def Fld.TST_PERF_PERF_SAT (n : Nat) : Field := ⟨Reg.TST_PERF n, 63, 63⟩
def Fld.TST_PERF_COUNT (n : Nat) : Field := ⟨Reg.TST_PERF n, 47, 0⟩

/-- `TST_TRACE_CTRL`: Table 19-11. -/
def Reg.TST_TRACE_CTRL : Nat := 0x13000200
def RegRow.TST_TRACE_CTRL : RegRow :=
  ⟨"TST_TRACE_CTRL", 19, 0x13000200, 0x0, 1, 0x0, 1, 0x0,
   [⟨"ENABLE", 63, 63, .rw⟩, ⟨"WRAP", 62, 62, .rw⟩, ⟨"TRIGGER", 61, 54, .rw⟩, ⟨"POST", 53, 39, .rw⟩, ⟨"SOURCES", 38, 32, .rw⟩, ⟨"EYE_PORT", 31, 24, .rw⟩, ⟨"EYE_LANE", 23, 21, .rw⟩, ⟨"EYE_START", 20, 20, .w1s⟩, ⟨"Reserved", 19, 0, .ro⟩]⟩
def Fld.TST_TRACE_CTRL_ENABLE : Field := ⟨Reg.TST_TRACE_CTRL, 63, 63⟩
def Fld.TST_TRACE_CTRL_WRAP : Field := ⟨Reg.TST_TRACE_CTRL, 62, 62⟩
def Fld.TST_TRACE_CTRL_TRIGGER : Field := ⟨Reg.TST_TRACE_CTRL, 61, 54⟩
def Fld.TST_TRACE_CTRL_POST : Field := ⟨Reg.TST_TRACE_CTRL, 53, 39⟩
def Fld.TST_TRACE_CTRL_SOURCES : Field := ⟨Reg.TST_TRACE_CTRL, 38, 32⟩
def Fld.TST_TRACE_CTRL_EYE_PORT : Field := ⟨Reg.TST_TRACE_CTRL, 31, 24⟩
def Fld.TST_TRACE_CTRL_EYE_LANE : Field := ⟨Reg.TST_TRACE_CTRL, 23, 21⟩
def Fld.TST_TRACE_CTRL_EYE_START : Field := ⟨Reg.TST_TRACE_CTRL, 20, 20⟩

/-- `TST_TRACE_STATUS`: Table 19-12. -/
def Reg.TST_TRACE_STATUS : Nat := 0x13000208
def RegRow.TST_TRACE_STATUS : RegRow :=
  ⟨"TST_TRACE_STATUS", 19, 0x13000208, 0x0, 1, 0x0, 1, 0x0,
   [⟨"STOPPED", 63, 63, .ro⟩, ⟨"LOST_SAT", 62, 62, .rc⟩, ⟨"LOST", 61, 32, .rc⟩, ⟨"NEXT", 31, 15, .ro⟩, ⟨"Reserved", 14, 0, .ro⟩]⟩
def Fld.TST_TRACE_STATUS_STOPPED : Field := ⟨Reg.TST_TRACE_STATUS, 63, 63⟩
def Fld.TST_TRACE_STATUS_LOST_SAT : Field := ⟨Reg.TST_TRACE_STATUS, 62, 62⟩
def Fld.TST_TRACE_STATUS_LOST : Field := ⟨Reg.TST_TRACE_STATUS, 61, 32⟩
def Fld.TST_TRACE_STATUS_NEXT : Field := ⟨Reg.TST_TRACE_STATUS, 31, 15⟩

/-- `TST_VALVE_OVR`: Table 20-5. -/
def Reg.TST_VALVE_OVR : Nat := 0x13000300
def RegRow.TST_VALVE_OVR : RegRow :=
  ⟨"TST_VALVE_OVR", 19, 0x13000300, 0x0, 1, 0x0, 1, 0x0,
   [⟨"EN", 63, 63, .rw⟩, ⟨"Reserved", 62, 11, .ro⟩, ⟨"DUTY", 10, 0, .rw⟩]⟩
def Fld.TST_VALVE_OVR_EN : Field := ⟨Reg.TST_VALVE_OVR, 63, 63⟩
def Fld.TST_VALVE_OVR_DUTY : Field := ⟨Reg.TST_VALVE_OVR, 10, 0⟩

/-- `TST_DIRECT_CMD`: Table 20-5. -/
def Reg.TST_DIRECT_CMD : Nat := 0x13000308
def RegRow.TST_DIRECT_CMD : RegRow :=
  ⟨"TST_DIRECT_CMD", 19, 0x13000308, 0x0, 1, 0x0, 1, 0x0,
   [⟨"OP", 63, 62, .wo⟩, ⟨"CODE", 61, 54, .wo⟩, ⟨"Reserved", 53, 40, .wo⟩, ⟨"ADDR", 39, 0, .wo⟩]⟩
def Fld.TST_DIRECT_CMD_OP : Field := ⟨Reg.TST_DIRECT_CMD, 63, 62⟩
def Fld.TST_DIRECT_CMD_CODE : Field := ⟨Reg.TST_DIRECT_CMD, 61, 54⟩
def Fld.TST_DIRECT_CMD_ADDR : Field := ⟨Reg.TST_DIRECT_CMD, 39, 0⟩

/-- `TST_TRACE_WORD`: Table 20-5. -/
def Reg.TST_TRACE_WORD (n : Nat) : Nat := 0x13100000 + 0x8 * n
def RegRow.TST_TRACE_WORD : RegRow :=
  ⟨"TST_TRACE_WORD", 19, 0x13100000, 0x8, 131072, 0x0, 1, 0x0,
   [⟨"WORD", 63, 0, .ro⟩]⟩
def Fld.TST_TRACE_WORD_WORD (n : Nat) : Field := ⟨Reg.TST_TRACE_WORD n, 63, 0⟩

/-- `VIO_HEAD`: Table 20-6. -/
def Reg.VIO_HEAD (n : Nat) : Nat := 0x14000000 + 0x1000 * n
def RegRow.VIO_HEAD : RegRow :=
  ⟨"VIO_HEAD", 20, 0x14000000, 0x1000, 21, 0x0, 1, 0x0,
   [⟨"WRITTEN", 63, 32, .ro⟩, ⟨"DROP_SAT", 31, 31, .rc⟩, ⟨"DROPPED", 30, 16, .rc⟩, ⟨"LAST_STATUS", 15, 8, .ro⟩, ⟨"Reserved", 7, 0, .ro⟩]⟩
def Fld.VIO_HEAD_WRITTEN (n : Nat) : Field := ⟨Reg.VIO_HEAD n, 63, 32⟩
def Fld.VIO_HEAD_DROP_SAT (n : Nat) : Field := ⟨Reg.VIO_HEAD n, 31, 31⟩
def Fld.VIO_HEAD_DROPPED (n : Nat) : Field := ⟨Reg.VIO_HEAD n, 30, 16⟩
def Fld.VIO_HEAD_LAST_STATUS (n : Nat) : Field := ⟨Reg.VIO_HEAD n, 15, 8⟩

/-- `BLOCK_ID` of block i at offset 0xFF_F000 (R500, Table 20-4). -/
def Reg.BLOCK_ID (n : Nat) : Nat := 0xfff000 + 0x1000000 * n
def RegRow.BLOCK_ID (n : Nat) : RegRow :=
  ⟨"BLOCK_ID", n, Reg.BLOCK_ID n, 0, 1, 0, 1, 0, [⟨"INDEX", 63, 56, .ro⟩, ⟨"FORMAT", 55, 48, .ro⟩, ⟨"PRODUCT", 47, 32, .ro⟩, ⟨"PREFIX", 31, 0, .ro⟩]⟩
/-- A word of a violation-log entry (R503): four read-only words at +0x100 + 0x20 j of a VIO page. -/
def Reg.VIO_ENTRY (n i : Nat) : Nat := 0x14000100 + 0x1000 * n + 8 * i
def RegRow.VIO_ENTRY : RegRow :=
  ⟨"VIO_ENTRY", 20, 0x14000100, 0x1000, 21, 8, 64, 0, [⟨"WORD", 63, 0, .ro⟩]⟩

/-- ASCII prefixes of the blocks, first letter in bits [7:0] and padded with 0x20 (R500). -/
def blockPrefix : Nat → Nat
  | 0 => 0x20584253
  | 1 => 0x20205454
  | 2 => 0x45524f43
  | 3 => 0x5453454e
  | 4 => 0x20554653
  | 5 => 0x20545441
  | 6 => 0x2050564b
  | 7 => 0x20564e43
  | 8 => 0x2045474e
  | 9 => 0x20474e52
  | 10 => 0x204d4248
  | 11 => 0x20525742
  | 12 => 0x20424146
  | 13 => 0x20445247
  | 14 => 0x2044454d
  | 15 => 0x20545348
  | 16 => 0x20505542
  | 17 => 0x20525750
  | 18 => 0x20434553
  | 19 => 0x20545354
  | 20 => 0x204f4956
  | _ => 0

def regRows0 : List RegRow :=
  [RegRow.SBX_IDENT, RegRow.SBX_DOMAIN_CLK, RegRow.SBX_OWNER, RegRow.BLOCK_ID 0]
def regRows1 : List RegRow :=
  [RegRow.TT_CTRL, RegRow.TT_LOAD, RegRow.TT_STATUS, RegRow.TT_LIMITS, RegRow.TT_JOB, RegRow.TT_LAST_PREEMPT, RegRow.TT_SIDING_CMD, RegRow.TT_SIDING, RegRow.TT_TENANT_USED, RegRow.BLOCK_ID 1]
def regRows2 : List RegRow :=
  [RegRow.CORE_STATUS, RegRow.CORE_FW_STATUS, RegRow.CORE_FW_BITMAP, RegRow.CORE_REGION, RegRow.CORE_LIMITS, RegRow.BLOCK_ID 2]
def regRows3 : List RegRow :=
  [RegRow.NEST_LOAD_REPORT, RegRow.NEST_PROGRESS, RegRow.BLOCK_ID 3]
def regRows4 : List RegRow :=
  [RegRow.SFU_TABLE_LOAD, RegRow.SFU_TABLE_CTRL, RegRow.SFU_TABLE_STATUS, RegRow.BLOCK_ID 4]
def regRows5 : List RegRow :=
  [RegRow.ATT_EMPTY_ROWS, RegRow.ATT_REPLAY_ROWS, RegRow.BLOCK_ID 5]
def regRows6 : List RegRow :=
  [RegRow.KVP_CTRL, RegRow.KVP_STATUS, RegRow.KVP_LIMITS, RegRow.KVP_CMD_SUBMIT, RegRow.KVP_CMD_STATUS, RegRow.KVP_COUNTS, RegRow.BLOCK_ID 6]
def regRows7 : List RegRow :=
  [RegRow.CNV_COUNTS, RegRow.CNV_LAST_GATE, RegRow.BLOCK_ID 7]
def regRows8 : List RegRow :=
  [RegRow.NGE_BIND, RegRow.NGE_STATUS, RegRow.NGE_COUNTS, RegRow.BLOCK_ID 8]
def regRows9 : List RegRow :=
  [RegRow.RNG_ID, RegRow.RNG_SEED_BASE, RegRow.RNG_COUNTS, RegRow.BLOCK_ID 9]
def regRows10 : List RegRow :=
  [RegRow.HBM_CFG, RegRow.HBM_SKEW, RegRow.HBM_SKEW_CTRL, RegRow.HBM_NARROW_CTRL, RegRow.HBM_SCRUB_CTRL, RegRow.HBM_SCRUB_STATUS, RegRow.HBM_ECC_COUNTS, RegRow.HBM_REPAIR, RegRow.HBM_STACK, RegRow.BLOCK_ID 10]
def regRows11 : List RegRow :=
  [RegRow.BWR_ACTIVE, RegRow.BWR_STAGE, RegRow.BWR_CTRL, RegRow.BWR_STATUS, RegRow.BWR_CLASS_MAP, RegRow.BWR_COUNTS, RegRow.BLOCK_ID 11]
def regRows12 : List RegRow :=
  [RegRow.FAB_CFG, RegRow.FAB_STATUS, RegRow.FAB_CTRL, RegRow.FAB_LIMITS, RegRow.FAB_JOB_TAG, RegRow.FAB_ERRORS, RegRow.FAB_TT_LOAD, RegRow.FAB_TT_STATUS, RegRow.FAB_WIN_BASE, RegRow.FAB_WIN_SIZE, RegRow.FAB_PORT_STATUS, RegRow.FAB_PORT_LINK, RegRow.FAB_PORT_CTRL, RegRow.FAB_PORT_TRAFFIC, RegRow.FAB_PORT_ERRS, RegRow.BLOCK_ID 12]
def regRows13 : List RegRow :=
  [RegRow.GRD_OPEN, RegRow.GRD_STATUS, RegRow.GRD_COUNTS, RegRow.GRD_CHECK, RegRow.BLOCK_ID 13]
def regRows14 : List RegRow :=
  [RegRow.MED_CMD_SUBMIT, RegRow.MED_CMD_STATUS, RegRow.MED_ENGINES, RegRow.MED_COUNTS, RegRow.MED_STREAM, RegRow.BLOCK_ID 14]
def regRows15 : List RegRow :=
  [RegRow.HST_PORT_CFG, RegRow.HST_PORT_STATUS, RegRow.HST_PORT_GID_HI, RegRow.HST_PORT_GID_LO, RegRow.HST_PORT_COUNTS, RegRow.HST_EVENT_QP, RegRow.HST_QP_W0, RegRow.HST_QP_W1, RegRow.HST_QP_W2, RegRow.HST_QP_W3, RegRow.HST_QP_W4, RegRow.HST_QP_W5, RegRow.HST_QP_W6, RegRow.HST_QP_W7, RegRow.HST_QP_STATUS, RegRow.HST_DOORBELL, RegRow.BLOCK_ID 15]
def regRows16 : List RegRow :=
  [RegRow.BUP_READY, RegRow.BUP_CD_READY, RegRow.BUP_HBM_READY, RegRow.BUP_PORT_READY, RegRow.BUP_STATUS, RegRow.BUP_COUNTS, RegRow.BUP_TOPO, RegRow.BUP_RESET, RegRow.BUP_FLASH_CMD, RegRow.BUP_FLASH_STATUS, RegRow.BUP_CD, RegRow.BUP_STAMP, RegRow.BLOCK_ID 16]
def regRows17 : List RegRow :=
  [RegRow.PWR_STATUS, RegRow.PWR_DRAW, RegRow.PWR_LIMIT, RegRow.PWR_PLANT, RegRow.PWR_TEMPS, RegRow.PWR_COUNTS, RegRow.PWR_CFG, RegRow.BLOCK_ID 17]
def regRows18 : List RegRow :=
  [RegRow.SEC_STATE, RegRow.SEC_SERIAL, RegRow.SEC_CMD_SUBMIT, RegRow.SEC_CHALLENGE, RegRow.BLOCK_ID 18]
def regRows19 : List RegRow :=
  [RegRow.TST_DCQ, RegRow.TST_THROTTLE, RegRow.TST_CREDIT, RegRow.TST_REFRESH, RegRow.TST_INJ_CTRL, RegRow.TST_INJ_ADDR, RegRow.TST_PERF_SEL, RegRow.TST_PERF, RegRow.TST_TRACE_CTRL, RegRow.TST_TRACE_STATUS, RegRow.TST_VALVE_OVR, RegRow.TST_DIRECT_CMD, RegRow.TST_TRACE_WORD, RegRow.BLOCK_ID 19]
def regRows20 : List RegRow :=
  [RegRow.VIO_HEAD, RegRow.VIO_ENTRY, RegRow.BLOCK_ID 20]

/-- The registers of block i (Table 20-5 and R498). -/
def regRowsOf : Nat → List RegRow
  | 0 => regRows0
  | 1 => regRows1
  | 2 => regRows2
  | 3 => regRows3
  | 4 => regRows4
  | 5 => regRows5
  | 6 => regRows6
  | 7 => regRows7
  | 8 => regRows8
  | 9 => regRows9
  | 10 => regRows10
  | 11 => regRows11
  | 12 => regRows12
  | 13 => regRows13
  | 14 => regRows14
  | 15 => regRows15
  | 16 => regRows16
  | 17 => regRows17
  | 18 => regRows18
  | 19 => regRows19
  | 20 => regRows20
  | _ => []

/-- Does the row hold the register at offset `a` from 0xF0_0000_0000? -/
def RegRow.holds (r : RegRow) (a : Nat) : Bool :=
  decide (r.base ≤ a) &&
    (let d := a - r.base
     let q := if r.stride = 0 then 0 else d / r.stride
     let m := if r.stride = 0 then d else d % r.stride
     let q2 := if r.stride2 = 0 then 0 else m / r.stride2
     let m2 := if r.stride2 = 0 then m else m % r.stride2
     decide (q < r.count) && decide (q2 < r.count2) && decide (m2 = 0))

/-- The register row at an offset, none where the offset is unpopulated (R498). -/
def findReg (a : Nat) : Option RegRow :=
  (regRowsOf (a / 0x1000000)).find? (fun r => r.holds a)

/-- The Reset-column value of a register; 0 for an offset that holds none. -/
def regReset (a : Nat) : BitVec 64 :=
  match findReg a with
  | some r => BitVec.ofNat 64 r.reset
  | none => 0

end Sys2Proof.Machine
end

