-- ==== Sys2Proof/Machine/Units.lean ====
section
/-! DEFINITION. The parts of the module that the chapters on tables, pages, memories, fabric, reductions and media
give it. -/

namespace Sys2Proof.Machine

/-! ### HBM (10_hbm_memory.md) -/

/-- Monitor counts per stack (R268), token levels per stack and partition in units of 1/2,048 token with the instant
each was last charged at (R279), banks with a soft repair (R288), rows that gave a correctable codeword with the pass in
which they did, the named swap epoch (R281), and the codeword that the scrub reads next (R287). -/
structure HbmUnit where
  window : List (Nat × Nat) := []
  floorTok : List (Nat × Nat) := []
  ceilTok : List (Nat × Nat) := []
  refilled : List (Nat × Nat) := []
  softBanks : List Nat := []
  ceRows : List (Nat × Nat) := []
  epoch : Option Nat := none
  scrubAt : Nat := 0
  deriving DecidableEq, Repr

/-! ### Pages (07_kv_ring_and_pages.md) -/

/-- A walker context (Table 07-2). -/
structure WalkCtx where
  ring : Bool
  kFmt : Nat
  vFmt : Nat
  index : Bool
  d : Nat
  heads : Nat
  layers : Nat
  ringPages : Nat
  frameBytes : Nat
  summaryBytes : Nat
  sink : Nat
  recent : Nat
  topk : Nat
  deriving DecidableEq, Repr

/-- A sequence record (Table 07-3); `refs` are the directory entries that its present slots named when it was
staged, which its `REFS` count. -/
structure SeqRec where
  live : Bool := false
  ctx : Nat := 0
  version : Nat := 0
  listBase : Nat := 0
  listLen : Nat := 0
  firstPos : Nat := 0
  len : Nat := 0
  refs : List Nat := []
  deriving DecidableEq, Repr

/-- A staged change (R196). -/
inductive KvpChange where
  | ctx (n : Nat) (c : WalkCtx)
  | seq (h : Nat) (r : SeqRec)
  deriving DecidableEq, Repr

/-- A command that has made its change and completes at the boundary: record, operation, `RESULT`, and the
entries that FREE frees (R198). -/
structure KvpWait where
  record : Nat
  op : Nat
  result : Nat
  frees : List Nat
  deriving DecidableEq, Repr

/-- The copy of a MOVE_PAGE in progress. -/
structure KvpCopy where
  record : Nat
  entry : Nat
  frame : Nat
  summary : Nat
  deriving DecidableEq, Repr

/-- The page subsystem: current contexts and sequence records, staged changes in order, commands waiting for
execution, the copy in progress, commands waiting for the boundary, and of the command in progress what other modules have
answered to its READs and the lowest answer to its WRITEs once they have been sent (R189). The directory lies in the KVP
region. -/
structure KvpUnit where
  ctxs : List (Nat × WalkCtx) := []
  seqs : List (Nat × SeqRec) := []
  staged : List KvpChange := []
  queue : List Nat := []
  copying : Option KvpCopy := none
  waiting : List KvpWait := []
  got : List (Nat × Status × List Byte) := []
  sent : Option Status := none
  deriving DecidableEq, Repr

/-! ### Fabric (11_ikiys_fabric.md) -/

/-- Whose transaction it is: an instruction in flight, an attention part, the page reads of a PASS, a SEAL or MOVE_PAGE, or
the send of a reduction. -/
inductive TransOwner where
  | instr (core : Nat)
  | attPost (core ctx : Nat)
  | pages (core : Nat)
  | kvp
  | grad (red : Nat)
  deriving DecidableEq, Repr

/-- A transaction of this module (R318, R322): its serial number, operation, destination, bytes, where read data goes,
its payload, its tag, the time of its injection, and whether a port has taken it. -/
structure Trans where
  serial : Nat
  op : Nat
  dest : Nat
  addr : Nat
  len : Nat
  into : Nat := 0
  data : List Byte := []
  post : Option AttPost := none
  grad : Option GradPkt := none
  tag : Nat
  at' : Nat
  owner : TransOwner
  sent : Bool := false
  deriving DecidableEq, Repr

/-- A packet that waits at an output port: its virtual channel there, its slots, and the input port with the channel in whose
buffer it lies; none for a packet of this module. -/
structure Waiting where
  vc : Nat
  slots : Nat
  from' : Option (Nat × Nat)
  pkt : Packet
  deriving DecidableEq, Repr

/-- Run-time state of one port (R300, R304, R307, R308): DATA flits received in order, flits acknowledged by the peer and
flits sent since the port was accepted, those that the replay buffer holds, whether a NAK has been sent for the flit that is
expected, NAKs without progress, credits of the eight channels and the shared pool, slots owed to the peer, each with the time at which they became free and its channel,
packets waiting, the balances of SYNC, GRAD and REQ, the source served last in each class (0 this module, 1 + p port p), DATA
flits since the last CONTROL flit, the lanes good here, the accepted identity, a drain asked for by RETRAIN or DISABLE, an
attempt that is to begin at once (R301), whether an attempt has ended without a width (R447), and the DATA flits sent and
received in order since reset (Table 11-30). -/
structure PortRun where
  received : Nat := 0
  acked : Nat := 0
  flits : Nat := 0
  replay : List Flit := []
  naked : Bool := false
  naks : Nat := 0
  credits : List Nat := [64, 64, 64, 64, 64, 64, 64, 64, 7680]
  owed : List (Nat × Nat × Nat) := []
  queue : List Waiting := []
  turn : List Int := [0, 0, 0]
  last : List Nat := [0, 0, 0, 0]
  since : Nat := 0
  good : Nat := 0
  ident : Option (List Byte) := none
  drain : Bool := false
  again : Bool := false
  failedOnce : Bool := false
  tx : Nat := 0
  rx : Nat := 0
  deriving DecidableEq, Repr

/-- A held ACK of an attention post (R323): slot, source module, tag, transaction number. -/
structure HeldAck where
  slot : Nat
  src : Nat
  tag : Nat
  reqId : Nat
  deriving DecidableEq, Repr

/-- The fabric: transactions by number, requests waiting for one, the two turnout banks (an unlisted entry is NONE), a
load in progress, held ACKs, slots with the parts that posted from other modules, posts that wait for a held ACK
(R323), ports, groups that rebuild, maps by group × 8 + map (0 the module map, 1 to 4 the corner maps), packets without
an output port with the port at which they arrived, and whether FABRIC was ever set since reset. -/
structure FabUnit where
  serial : Nat := 1
  trans : List (Nat × Trans) := []
  backlog : List Trans := []
  turnout : List (Nat × Nat) := []
  staged : List (Nat × Nat) := []
  load : Option Nat := none
  held : List HeldAck := []
  remoteParts : List (Nat × Nat) := []
  waitingPosts : List (PktHdr × AttPost × Nat) := []
  ports : List (Nat × PortRun) := []
  rebuilding : List Nat := []
  maps : List (Nat × List Nat) := []
  stranded : List (Option Nat × Packet) := []
  everReady : Bool := false
  deriving DecidableEq, Repr

/-! ### Media (13_media.md) and the narrow-gauge engines (08_convolution_and_narrow_gauge.md) -/

/-- A stream descriptor (Table 13-2). -/
structure StreamDesc where
  encode : Bool
  codec : Nat
  md : Nat
  cls : Nat
  strictLive : Bool
  grain : Bool
  viaNge : Bool
  splitMax : Nat
  nref : Nat
  maxW : Nat
  maxH : Nat
  bits : Nat
  chroma : Nat
  lookahead : Nat
  gop : Nat
  unitQ : Nat
  unitSlots : Nat
  picSlots : Nat
  picRing : Nat
  refPool : Nat
  refBytes : Nat
  bitsBuf : Nat
  bitsBytes : Nat
  bitrate : Nat
  fpsNum : Nat
  fpsDen : Nat
  rcMode : Nat
  qpMin : Nat
  qpMax : Nat
  qpInit : Nat
  keyInt : Nat
  tileCols : Nat
  deriving DecidableEq, Repr

/-- A picture inside a media die: its number, tag, flags, status, size, depth, chroma and the samples of its planes. -/
structure Picture where
  num : Nat
  tag : Nat
  concealed : Bool
  tainted : Bool
  key : Bool
  status : Status
  w : Nat
  h : Nat
  bits : Nat
  chroma : Nat
  planes : List (List Nat)
  deriving DecidableEq, Repr

/-- A reference: its place in output order, its slot of the pool, and whether it is CONCEALED or TAINTED. -/
structure RefPic where
  order : Nat
  slot : Nat
  damaged : Bool
  deriving DecidableEq, Repr

/-- The decode picture in progress: its engines, unit entry and what the firmware read, with its flags. -/
structure DecRun where
  engines : List Nat
  unit : Nat
  tag : Nat
  obs : DecObs
  concealed : Bool
  tainted : Bool
  deriving DecidableEq, Repr

/-- The encode picture in progress: its engines, number, tag, type, budget in bits (none under CQP), starting QP and row
weights of each tile column. -/
structure EncRun where
  engines : List Nat
  num : Nat
  tag : Nat
  key : Bool
  intra : Bool
  ptype : Nat
  budget : Option Nat
  share : Nat
  columns : List (Nat × List Nat)
  deriving DecidableEq, Repr

/-- A region of interest (Table 13-10). -/
structure Roi where
  x0 : Nat
  y0 : Nat
  w : Nat
  h : Nat
  mode : Nat
  qp : Int
  protect : Bool
  deriving DecidableEq, Repr

/-- What is kept of the last picture of a type: for each tile column its rows' bits and its final QP, the QPs of its
rows, and the QP of each block of each row, none for a skip block. -/
structure RowRecord where
  ptype : Nat
  bits : List (List Nat)
  final : List Nat
  qps : List (List Nat)
  blocks : List (List (Option Nat))
  deriving DecidableEq, Repr

/-- One stream context that is not FREE (R354 to R375): `PRODUCED` and `CONSUMED` of its unit queue and picture ring as
this side holds them and as the other side last showed them; the lowest status so far of the pictures of the unit in progress;
when its last picture began; units skipped up to a key picture; references; decoded pictures held for output and those directed
to it; pictures in the local buffer; region tables; rate control; coded pictures out of order; and the place in `BITS_BUF` with
the units not yet consumed. -/
structure Stream where
  d : StreamDesc
  units : Nat := 0
  unitsOther : Nat := 0
  pics : Nat := 0
  picsOther : Nat := 0
  began : Option Nat := none
  unitSt : Status := .ok
  dec : Option DecRun := none
  enc : Option EncRun := none
  skipping : Bool := false
  refs : List RefPic := []
  held : List Picture := []
  outq : List Picture := []
  local' : List Picture := []
  roi : List Roi := []
  roiStaged : Option (List Roi) := none
  rateStaged : Option (Nat × Nat × Nat) := none
  keyDue : Bool := false
  sinceKey : Nat := 0
  debt : Nat := 0
  records : List RowRecord := []
  coded : List Nat := []
  bitsHead : Nat := 0
  bitsUsed : List (Nat × Nat) := []
  deriving DecidableEq, Repr

/-- The media dies: streams, submitted command records, pictures begun so far. -/
structure MedUnit where
  streams : List (Nat × Stream) := []
  queue : List Nat := []
  begun : Nat := 0
  deriving DecidableEq, Repr

/-- A stage of a narrow-gauge program (Table 08-11), with its weights and biases as bound. -/
structure NgeStage where
  kind : Nat
  w : Nat
  h : Nat
  c : Nat
  inW : Nat
  inH : Nat
  inC : Nat
  param : Nat
  x0 : Nat
  y0 : Nat
  ky : Nat
  kx : Nat
  sy : Nat
  sx : Nat
  replicate : Bool
  pads : List Nat
  act : Nat
  csc : List Nat
  weights : List Byte
  bias : List Byte
  deriving DecidableEq, Repr

/-- A bound program (Table 08-10) with its run-time state: pictures done, the other side's count, when it last ran,
whether a hold has been counted, and the earlier inputs of its CONV stages, newest first. -/
structure NgeProg where
  stream : Nat
  front : Bool
  stages : List NgeStage
  fmt : Nat
  c : Nat
  w : Nat
  h : Nat
  pos : Nat
  row : Nat
  base : Nat
  slots : Nat
  slotBytes : Nat
  done : Nat := 0
  other : Nat := 0
  ran : Option Nat := none
  held : Bool := false
  hist : List (Nat × List (List Nat)) := []
  deriving DecidableEq, Repr

/-- The narrow-gauge engines: programs by engine × 256 + stream, and the runs so far. -/
structure NgeUnit where
  progs : List (Nat × NgeProg) := []
  runs : Nat := 0
  deriving DecidableEq, Repr

/-! ### Reductions (12_gradient_reduction.md) -/

/-- A reduction descriptor (Table 12-2); `gather` is KIND. -/
structure GradDesc where
  gather : Bool
  mean : Bool
  rnd : Nat
  expLen : Nat
  dims : Nat
  dual : Bool
  pieces : Nat
  redId : Nat
  tag : Nat
  step : Nat
  elements : Nat
  gatherBytes : Nat
  weight : Nat
  src : Nat
  out : Nat
  weightsOut : Nat
  report : Nat
  ready : Nat
  stageNs : List Nat
  totalMs : Nat
  deriving DecidableEq, Repr

/-- A chunk state (R335): accumulators by element of the chunk; `closing` once it has closed and its partial is not yet
answered. -/
structure ChunkState where
  acc : List (Nat × LongAcc) := []
  arrivals : Nat := 0
  count : Nat := 0
  weight : Nat := 0
  cut : Bool := false
  first : Nat := 0
  closing : Bool := false
  deriving DecidableEq, Repr

/-- What one path left of a sampled element (R345). -/
structure SampleRec where
  acc : LongAcc
  count : Nat
  cut : Bool
  deriving DecidableEq, Repr

/-- A packet of a reduction with its destination's coordinates, or in the list of those to resend its ID alone; `piece` is
the piece of a raw one. -/
structure GradSend where
  dest : List Nat
  piece : Nat
  pkt : GradPkt
  deriving DecidableEq, Repr

/-- An open reduction (R331 to R347): its descriptor, the time of its open, the greatest ready count seen; the coordinate of the
stage-1 destination served last and pieces of chunks sent, at chunk × 64 + piece; partials not yet sent; chunk states and closed
bits, at (chunk × 4 + stage) × 2 + path; packets to resend, and those for this module itself that wait for a state; samples by
block, primary then secondary; owned chunks written; chunks held in OUT of a gather; whether TOTAL_MS has passed; and what the
report counts. -/
structure Reduction where
  d : GradDesc
  opened : Nat
  ready : Nat := 0
  turn : Nat := 0
  sent : List Nat := []
  parts : List GradSend := []
  states : List (Nat × ChunkState) := []
  closed : List Nat := []
  resend : List GradSend := []
  waiting : List GradSend := []
  samples : List (Nat × Option SampleRec × Option SampleRec) := []
  judged : List Nat := []
  written : List Nat := []
  held : List Nat := []
  abandoned : Bool := false
  status : Status := .ok
  short : Bool := false
  arith : Nat := 0
  chunksShort : Nat := 0
  chunksCut : Nat := 0
  late : Nat := 0
  sendsLate : Nat := 0
  compared : Nat := 0
  mismatches : Nat := 0
  skipped : Nat := 0
  firstMismatch : Option Nat := none
  deriving DecidableEq, Repr

/-- All of them. `sfuLoad` is the source of a coefficient load in progress (R158), `sfuActive` and `sfuStaged` the table images
of the two banks, empty for the tables of the firmware; `grd` holds the open reductions by `RED_ID`. -/
structure Units where
  hbm : HbmUnit := {}
  sfuLoad : Option Nat := none
  sfuActive : List Byte := []
  sfuStaged : List Byte := []
  kvp : KvpUnit := {}
  fab : FabUnit := {}
  med : MedUnit := {}
  nge : NgeUnit := {}
  grd : List (Nat × Reduction) := []
  deriving DecidableEq, Repr

end Sys2Proof.Machine
end

