-- ==== Sys2Proof/Machine/State.lean ====
section
/-! DEFINITION. The state of the module: registers, memories, cores, jobs, queues and pins, and the queue of
waiting commands. Every field is plain data. -/

namespace Sys2Proof.Machine

/-- Faults of the model. The spec gives every error of the block a status, a log entry or a completion,
all of which are next states, so nothing raises this one but `unreachable`. -/
inductive Fault where
  /-- Raised by no meaning: kept so that the type is not empty. Safe. -/
  | unreachable
  deriving DecidableEq, Repr

/-- Refusals of the model. -/
inductive Refusal where
  /-- Raised by an arm of `exec` whose command has no meaning yet, by its mnemonic. Safe. -/
  | notModelled (mnemonic : String)
  deriving DecidableEq, Repr

/-- The module. -/
structure State where
  /-- Waiting commands, first in first out. -/
  pending : List Instr := []
  /-- The timestamp counter, one count per CTRL cycle of 1 ns (R9). -/
  time : BitVec 64 := 0
  /-- The model's own counter of free values drawn; no manual state. -/
  free : Nat := 0
  /-- Register file by offset from 0xF0_0000_0000; an unlisted register holds its Reset-column value. -/
  regs : List (Nat × Word) := []
  /-- HBM, map store and core stores by local address; an unlisted byte is zero (R432, R495). -/
  mem : List (Nat × Byte) := []
  /-- HBM codewords with inverted data bytes: mask of the bad bytes (R283, R490), by codeword. -/
  eccMask : List (Nat × Nat) := []
  /-- HBM codewords marked uncorrectable by a repair's check pattern (R288). -/
  eccDead : List Nat := []
  /-- Map-store words marked uncorrectable (R528). -/
  msBad : List Nat := []
  /-- Violation logs by block (R502). -/
  vio : List (Nat × VioLog) := []
  /-- What has left the module, newest first. -/
  out : List Out := []
  host : HostState := {}
  boot : Boot := {}
  gov : Governor := {}
  sec : Security := {}
  test : TestState := {}
  cores : List (Nat × Core) := []
  sched : Sched := {}
  units : Units := {}
  deriving DecidableEq, Repr

/-! ### The state after reset

The module as it ships (R522), without power: the start that POWER_GOOD_RISE begins is still to come. -/

/-- Header of the shipped bundle 1.0 (Table 18-2) by byte place: `FORMAT`, `PRODUCT`, `BUNDLE_VERSION`, `STEPPING`,
`COMPONENTS`, `TOTAL_BYTES`, and each component's `ID`, `OFFSET` and `LENGTH`. DESIGN CHOICE (log entry 12): the spec gives
neither its `SVN` nor its components' places, lengths and bytes; zero, 4 KiB each in turn, and zero bytes are chosen. -/
def shippedBundle : List (Nat × Byte) :=
  [(0, 1), (2, 7), (7, 1), (8, 0xb0), (9, 6), (13, 0x70)]
    ++ (List.range 6).flatMap (fun i =>
      [(192 + 96 * i, BitVec.ofNat 8 (i + 1)), (197 + 96 * i, BitVec.ofNat 8 (16 * (i + 1))), (201 + 96 * i, 0x10)])

/-- The shipped module's flash and pins: bundle 1.0 in both bundle slots, both structure slots erased, the certificate stored.
DESIGN CHOICE (log entry 12): the certificate's bytes, which the spec does not give. -/
def shippedBoot : Boot := { flash := [(0, shippedBundle), (192, shippedBundle), (900, [(0, 0x30)])], certLen := some 2 }

/-- Registers whose reset value comes from the fuses or differs along an array (Tables 01-7, 11-20, 15-6, 15-7, 17-4, 18-8 and
20-3), and the defaults of R293 and Table 11-1 for the groups and `MIN_WIDTH`; every other register has that of its Reset column.
DESIGN CHOICE (log entry 13): `EXPECT_MODULE` NONE, and the power
limits of R464, where the spec says 'from the image' and no image is in use. Log entry 15 applies (DESIGN CHOICE). -/
def resetRegs : List (Nat × Word) :=
  [(Reg.SBX_IDENT, 0x0007b00000000000)]
    ++ ([3000000, 2400000, 1500000, 2500000, 1750000, 1328125, 1200000].mapIdx (fun d k =>
      (Reg.SBX_DOMAIN_CLK d, BitVec.ofNat 64 (k * 2 ^ 32))))
    ++ [(Reg.SBX_DOMAIN_CLK 7, BitVec.ofNat 64 (2 ^ 63 + 1000000 * 2 ^ 32 + 1000000))]
    ++ [(Reg.FAB_CTRL, 2)]
    ++ (List.range 36).flatMap (fun p =>
      (if p % 6 = 0 then [] else [(Reg.FAB_PORT_STATUS p, wput 0 60 58 (p % 6))])
        ++ [(Reg.FAB_PORT_LINK p, wput (regReset (Reg.FAB_PORT_LINK p)) 63 50 0x3fff)])
    ++ (List.range 4).flatMap (fun k =>
      [(Reg.HST_PORT_CFG k, wput (regReset (Reg.HST_PORT_CFG k)) 39 28 4094),
       (Reg.HST_PORT_STATUS k, BitVec.ofNat 64 (0x025ca1300040 + k))])
    ++ [(Reg.PWR_LIMIT, 2000)]
    ++ ([0xbb807d007d0, 0x1f400002cec0fa0, 0x25801f4005800fa, 0x3e8019000780190, 0x2800cd006603e8, 0xf3c0008].mapIdx
      (fun i w => (Reg.PWR_CFG i, w)))
    ++ [(Reg.SEC_STATE, BitVec.ofNat 64 (1 * 2 ^ 61)), (Reg.SEC_SERIAL, 0x00001c4a07e29b35)]

/-- The module right after reset: no power-good, memory with nothing listed, every register at its reset value. -/
def State.reset : State := { regs := resetRegs, boot := shippedBoot }

end Sys2Proof.Machine
end

