-- ==== Sys2Proof/Machine/Ops.lean ====
section
/-! DEFINITION. Operations every family uses: registers and their fields, saturating counters (R16), stamps
(R33), violation logs (R502 to R504), events and completions (R416 to R418), trace records (R492),
ready bits (R430, R431) and raw bytes of memory. -/

namespace Sys2Proof.Machine

/-! ### One part of the state replaced -/

/-- The state with the queue of waiting commands replaced. -/
def State.withPending (s : State) (x : List Instr) : State := { s with pending := x }

/-- The state with the timestamp counter replaced. -/
def State.withTime (s : State) (x : BitVec 64) : State := { s with time := x }

/-- The state with the count of free values drawn replaced. Log entry 9 applies (DESIGN CHOICE). -/
def State.withFree (s : State) (x : Nat) : State := { s with free := x }

/-- The state with the register file replaced. -/
def State.withRegs (s : State) (x : List (Nat × Word)) : State := { s with regs := x }

/-- The state with memory replaced. -/
def State.withMem (s : State) (x : List (Nat × Byte)) : State := { s with mem := x }

/-- The state with the masks of bad bytes of HBM codewords replaced. -/
def State.withEccMask (s : State) (x : List (Nat × Nat)) : State := { s with eccMask := x }

/-- The state with the HBM codewords marked uncorrectable replaced. -/
def State.withEccDead (s : State) (x : List Nat) : State := { s with eccDead := x }

/-- The state with the bad map-store words replaced. -/
def State.withMsBad (s : State) (x : List Nat) : State := { s with msBad := x }

/-- The state with the violation logs replaced. -/
def State.withVio (s : State) (x : List (Nat × VioLog)) : State := { s with vio := x }

/-- The state with what has left the module replaced. -/
def State.withOut (s : State) (x : List Out) : State := { s with out := x }

/-- The state with the host side replaced. -/
def State.withHost (s : State) (x : HostState) : State := { s with host := x }

/-- The state with the bring-up part replaced. -/
def State.withBoot (s : State) (x : Boot) : State := { s with boot := x }

/-- The state with the governor replaced. -/
def State.withGov (s : State) (x : Governor) : State := { s with gov := x }

/-- The state with the secure-boot root replaced. -/
def State.withSec (s : State) (x : Security) : State := { s with sec := x }

/-- The state with the test part replaced. -/
def State.withTest (s : State) (x : TestState) : State := { s with test := x }

/-- The state with the cores replaced. -/
def State.withCores (s : State) (x : List (Nat × Core)) : State := { s with cores := x }

/-- The state with the schedule replaced. -/
def State.withSched (s : State) (x : Sched) : State := { s with sched := x }

/-- The state with the units replaced. -/
def State.withUnits (s : State) (x : Units) : State := { s with units := x }

/-! ### Registers -/

/-- The stored word of the register at an offset from 0xF0_0000_0000. -/
def State.reg (s : State) (a : Nat) : Word := (SMap.find s.regs a).getD (regReset a)

/-- The state with a register word set; a word equal to its reset value is not listed. -/
def State.setReg (s : State) (a : Nat) (w : Word) : State :=
  s.withRegs (if w = regReset a then SMap.erase s.regs a else SMap.insert s.regs a w)

/-- A field of a register, as a number. -/
def State.fld (s : State) (f : Field) : Nat := wget (s.reg f.reg) f.hi f.lo

/-- The state with a field set; other bits of the register keep their values. -/
def State.setFld (s : State) (f : Field) (x : Nat) : State := s.setReg f.reg (wput (s.reg f.reg) f.hi f.lo x)

/-- A one-bit field as a truth value. -/
def State.flag (s : State) (f : Field) : Bool := decide (s.fld f = 1)

/-- Largest value of a field. -/
def Field.top (f : Field) : Nat := 2 ^ (f.hi + 1 - f.lo) - 1

/-- The bits of a field row, and of all rows of one access type of a register. -/
def FieldRow.mask (f : FieldRow) : Nat := (2 ^ (f.hi + 1 - f.lo) - 1) * 2 ^ f.lo
def RegRow.mask (r : RegRow) (acc : Access) : Nat :=
  r.fields.foldl (fun m f => if f.acc = acc then m ||| f.mask else m) 0

/-- The bits of the RW fields of the register at an offset. -/
def rwMask (a : Nat) : Word :=
  match findReg a with
  | none => 0
  | some r => BitVec.ofNat 64 (r.mask .rw)

/-- A write takes effect in the RW fields of a register; its other fields keep their values (R13). -/
def State.putRw (s : State) (a : Nat) (v : Word) : State :=
  s.setReg a ((s.reg a &&& ~~~rwMask a) ||| (v &&& rwMask a))

/-- Add `n` to a counter that saturates, setting its sticky saturation bit where it would pass its
largest value (R16). -/
def State.bump (s : State) (cnt sat : Field) (n : Nat) : State :=
  let v := s.fld cnt + n
  if v ≤ cnt.top then s.setFld cnt v else (s.setFld cnt cnt.top).setFld sat 1

/-- Add `n` to a counter that wraps. -/
def State.bumpWrap (s : State) (cnt : Field) (n : Nat) : State := s.setFld cnt (s.fld cnt + n)

/-- Add `n` to a field that stops at its largest value. -/
def State.bumpStop (s : State) (cnt : Field) (n : Nat) : State := s.setFld cnt (min (s.fld cnt + n) cnt.top)

/-! ### Free values, stamps, output -/

/-- The next free-value number, and the state in which it is drawn. Log entry 9 applies (DESIGN CHOICE). -/
def State.draw (s : State) : Nat × State := (s.free, (s.withFree (s.free + 1)))

/-- A recorded stamp: the counter, 3 or 4 counts behind (R33). Which of the two is a free value.
Log entry 6 applies (DESIGN CHOICE). -/
def State.stamp (s : State) : Nat :=
  s.time.toNat - (if Config.stampLag4 s.free then 4 else 3)

/-- Record that a message leaves the module. Log entry 121 applies (DESIGN CHOICE). -/
def State.emit (s : State) (o : Out) : State := s.withOut (o :: s.out)

/-! ### Trace (R492) -/

/-- Records the trace buffer holds. -/
def traceSize : Nat := 32768

/-- Write one trace record for event kind `ev` of `SOURCES` where capture selects it (R492).
Log entry 118 applies (DEDUCED). -/
def State.trace (s : State) (ev source : Nat) (st : Status) (unit addr data : Nat) : State :=
  if s.flag Fld.TST_TRACE_CTRL_ENABLE && !s.flag Fld.TST_TRACE_STATUS_STOPPED
      && bit (s.fld Fld.TST_TRACE_CTRL_SOURCES) ev then
    let i := s.fld Fld.TST_TRACE_STATUS_NEXT
    let rec' : TraceRec := ⟨s.stamp, source, ev, st, unit, addr, data⟩
    let s1 := s.withTest { s.test with trace := SMap.insert s.test.trace i rec' }
    let last := decide (i + 1 = traceSize)
    let s2 := s1.setFld Fld.TST_TRACE_STATUS_NEXT ((i + 1) % traceSize)
    let stopFull := last && !s.flag Fld.TST_TRACE_CTRL_WRAP
    let trig := s.fld Fld.TST_TRACE_CTRL_TRIGGER
    let hit := decide (trig ≠ 0) && decide (st.code = trig)
    let left : Option Nat :=
      match s.test.after with
      | some n => some (n - 1)
      | none => if hit then some (s.fld Fld.TST_TRACE_CTRL_POST) else none
    let s3 := s2.withTest { s2.test with after := left }
    if stopFull || left = some 0 then s3.setFld Fld.TST_TRACE_STATUS_STOPPED 1 else s3
  else s

/-! ### Performance counters (R491) -/

/-- Index of the counter that the register at an offset selects for. -/
def perfIndex (a : Nat) : Nat := (a - Reg.TST_PERF_SEL 0) / 8

/-- Does a listed register select event `ev` on `unit` for a counter that counts? Event 9 counts any unit (Table 19-7). -/
def perfSelects (e : Nat × Word) (ev unit : Nat) : Bool :=
  inside (Reg.TST_PERF_SEL 0) (Reg.TST_PERF_SEL 15) e.1 && bit e.2.toNat 16 && decide (wget e.2 7 0 = ev)
    && (ev = 9 || decide (wget e.2 15 8 = unit))

/-- Count `n` events on a unit in every counter that counts them.
Log entry 7 applies (DESIGN CHOICE). Log entry 119 applies (DEDUCED). -/
def State.perf (s : State) (ev unit n : Nat) : State :=
  (s.regs.filter (fun e => perfSelects e ev unit)).foldl (fun a e =>
    a.bump (Fld.TST_PERF_COUNT (perfIndex e.1)) (Fld.TST_PERF_PERF_SAT (perfIndex e.1)) n) s

/-! ### Completions and events (R416, R417) -/

/-- Run-time state of a QP: data QP n at n, the management QP of port k at 256 + k. -/
def State.qp (s : State) (n : Nat) : QpRun := SMap.get {} s.host.qps n

def State.setQp (s : State) (n : Nat) (q : QpRun) : State :=
  s.withHost { s.host with qps := SMap.insert s.host.qps n q }

/-- `STATE` of a data QP: 0 RESET, 1 READY, 2 ERROR (Table 15-4). -/
def State.qpState (s : State) (n : Nat) : Nat := s.fld (Fld.HST_QP_W0_STATE n)

/-- QP number of data QP n (R408) and of the management QP of port k (R405). -/
def dataQpn (n : Nat) : Nat := 0x1000 + n
def mgmtQpn (k : Nat) : Nat := 0x100 + k

/-- QP number of a QP by its place. -/
def qpnAt (n : Nat) : Nat := if n < 256 then dataQpn n else mgmtQpn (n - 256)

/-- A request joins those not acknowledged. -/
def QpRun.ask (q : QpRun) (count : Nat) (k : ReqKind) : QpRun :=
  { q with reqs := q.reqs ++ [⟨q.sendPsn, count, k⟩], sendPsn := (q.sendPsn + count) % 2 ^ 24 }

/-- The SEND of a completion leaves, with its `SEQ`. -/
def State.sendNow (s : State) (n : Nat) (c : Completion) : State :=
  let q := s.qp n
  let c1 := { c with seq := q.seq % 2 ^ 32 }
  (s.setQp n ({ q with seq := q.seq + 1 }.ask 1 (.send c1))).emit (.send (qpnAt n) c1)

/-- Send a completion on data QP n, or hold it: held completions go first, a QP in ERROR or waiting on
an RNR holds, and a completion beyond 1,024 held is lost and counted (R416). In RESET nothing is held. -/
def State.sendOn (s : State) (n : Nat) (c : Completion) : State :=
  let q := s.qp n
  let c1 := { c with stamp := s.stamp }
  if s.qpState n = 0 then s
  else if s.qpState n = 1 && q.held.isEmpty && !q.rnr then s.sendNow n c1
  else if q.held.length < 1024 then s.setQp n { q with held := q.held ++ [c1] }
  else s.bump (Fld.HST_QP_STATUS_LOST n) (Fld.HST_QP_STATUS_LOST_SAT n) 1

/-- The lowest-numbered host port whose management QP is connected. -/
def State.mgmtPort (s : State) : Option Nat :=
  (List.range 4).find? (fun k => s.flag (Fld.HST_PORT_STATUS_MGMT_CONN k))

/-- Send an event on the management QP of port k, or hold it while that QP waits on an RNR. -/
def State.sendMgmt (s : State) (k : Nat) (c : Completion) : State :=
  let q := s.qp (256 + k)
  if q.held.isEmpty && !q.rnr then s.sendNow (256 + k) c
  else if q.held.length < 1024 then s.setQp (256 + k) { q with held := q.held ++ [c] } else s

/-- Post a completion that belongs to no consist (R417): on the event QP where it is valid and READY,
else on a connected management QP, else held, up to 1,024. -/
def State.event (s : State) (c : Completion) : State :=
  let n := s.fld Fld.HST_EVENT_QP_QP
  if s.flag Fld.HST_EVENT_QP_VALID && s.qpState n = 1 then s.sendOn n c
  else
    let c1 := { c with stamp := s.stamp }
    match s.mgmtPort with
    | some k => s.sendMgmt k c1
    | none =>
      if s.host.heldEvents.length < 1024 then
        s.withHost { s.host with heldEvents := s.host.heldEvents ++ [c1] }
      else s

/-! ### Violation logs -/

/-- The log of block b. -/
def State.vioLog (s : State) (b : Nat) : VioLog := SMap.get {} s.vio b

def State.setVio (s : State) (b : Nat) (l : VioLog) : State := s.withVio (SMap.insert s.vio b l)

/-- The last 16 of a list of entries (R502). -/
def last16 (l : List VioEntry) : List VioEntry := l.drop (l.length - 16)

/-- Write one entry into a log: `SEQ` is `WRITTEN` before the entry (R502, R503). -/
def VioLog.write (l : VioLog) (e : VioEntry) : VioLog :=
  { l with written := l.written + 1, last := e.status,
           entries := last16 (l.entries ++ [{ e with seq := l.written.toNat }]) }

/-- Add an entry: written at once, or staged while the log is read; one that finds the staging queue of
16 full is counted in `DROPPED` (R504). -/
def VioLog.add (l : VioLog) (e : VioEntry) : VioLog :=
  if !l.reading then l.write e
  else if l.staging.length < 16 then { l with staging := l.staging ++ [e] }
  else if l.dropped < 32767 then { l with dropped := l.dropped + 1 } else { l with dropSat := true }

/-- The end of a log read: staged entries are written in order (R504). -/
def VioLog.endRead (l : VioLog) : VioLog :=
  l.staging.foldl VioLog.write { l with reading := false, staging := [] }

/-- May block b send a VIOLATION event now: at most one per ms (R418)? Log entry 5 applies (DEDUCED). -/
def VioLog.eventDue (l : VioLog) (now : Nat) : Bool :=
  match l.lastEvent with
  | none => true
  | some t => decide (t + 1000000 ≤ now)

/-- Log a violation in block b: the entry, its trace record, and the VIOLATION event; one that the last is too near to is
owed until a millisecond has passed (R418, R492, R502, R503). -/
def State.log (s : State) (b : Nat) (st : Status) (req : Requester) (addr : Nat) : State :=
  let e : VioEntry :=
    ⟨s.flag Fld.TT_JOB_VALID, s.fld Fld.TT_JOB_TENANT, s.fld Fld.TT_JOB_JOB_ID, 0, st, req.kind, req.id,
      s.stamp, addr⟩
  let l := (s.vioLog b).add e
  let now := s.time.toNat
  let due := l.eventDue now
  let s1 := (s.setVio b (if due then { l with lastEvent := some now, owed := false } else { l with owed := true })).trace 0 b st req.id
    addr 0
  if due then s1.event { status := st, kind := .violation, info := b } else s1

/-- Send the VIOLATION event that block b owes, where its millisecond has passed. Log entry 5 applies (DEDUCED). -/
def State.payEvent (s : State) (b : Nat) : State :=
  let l := s.vioLog b
  if l.owed && l.eventDue s.time.toNat then
    (s.setVio b { l with lastEvent := some s.time.toNat, owed := false }).event { status := l.last, kind := .violation, info := b }
  else s

/-- One CTRL cycle passes (R9): the timestamp counter counts, and VIOLATION events that were owed leave.
Log entry 1 applies (DESIGN CHOICE). Log entry 5 applies (DEDUCED). -/
def State.tick (s : State) : State :=
  (s.vio.map (·.1)).foldl (fun a b => a.payEvent b) (s.withTime (s.time + 1))

/-! ### Register writes from outside (R13, R406) -/

/-- The block whose log records an access to the register at an offset: one above block 20 is in that of VIO (R13, R496). -/
def logBlock (a : Nat) : Nat := min (a / 2 ^ 24) 20

/-- A register access that ends with a status other than OK is logged in the register's block (R13, R496). -/
def State.logReg (s : State) (req : Requester) (a : Nat) (st : Status) : State :=
  if st = .ok then s else s.log (logBlock a) st req (0xf000000000 + a)

/-- Answer a register access that came through management QP q, logged before the response leaves (R13, R502). -/
def State.answerReg (s : State) (q a : Nat) (st : Status) (data : Nat) : State :=
  (s.logReg (.qp (mgmtQpn q)) a st).emit (.regResp st data)

/-- Is the link of host port k up? -/
def State.linkUp (s : State) (k : Nat) : Bool := s.flag (Fld.HST_PORT_STATUS_LINK k)

/-- Is its management QP connected (R405)? -/
def State.mgmtConn (s : State) (k : Nat) : Bool := s.flag (Fld.HST_PORT_STATUS_MGMT_CONN k)

/-- Do requests arrive on the management QP of port k: its link is up and the QP is connected? -/
def State.mgmtHears (s : State) (k : Nat) : Bool := s.linkUp k && s.mgmtConn k

/-- A write of the register at offset `a` through management QP q, judged by the register's own rule `f`. Nothing
arrives on a QP that is not connected (R405). Log entry 122 applies (DESIGN CHOICE). -/
def State.regWrite (s : State) (q : Fin 4) (a : Nat) (f : State → Status × State) : State :=
  if s.mgmtHears q.val then
    let r := f s
    r.2.answerReg q.val a r.1 0
  else s

/-! ### Ready bits -/

/-- `BUP_READY` bit b. -/
def State.ready (s : State) (b : Nat) : Bool := bit (s.reg Reg.BUP_READY).toNat b

/-- Bit numbers of `BUP_READY` (Table 16-15). -/
def rdyHostLink : Nat := 0
def rdyMgmt : Nat := 1
def rdySecureBoot : Nat := 2
def rdyImage : Nat := 3
def rdyCores : Nat := 4
def rdyMapStore : Nat := 5
def rdyHbm : Nat := 6
def rdyFabric : Nat := 7
def rdyMedia : Nat := 8
def rdyNge : Nat := 9
def rdyRng : Nat := 10
def rdyPower : Nat := 11
def rdyTimetable : Nat := 12
def rdyGrad : Nat := 13
def rdyScrub : Nat := 14

/-- Set a ready bit and record its stamp; a bit already set keeps its stamp (R431, Table 16-26). -/
def State.setReady (s : State) (b : Nat) : State :=
  if s.ready b then s
  else (s.setFld ⟨Reg.BUP_READY, b, b⟩ 1).setFld (Fld.BUP_STAMP_STAMP b) s.stamp

/-- Clear a ready bit. -/
def State.clearReady (s : State) (b : Nat) : State := s.setFld ⟨Reg.BUP_READY, b, b⟩ 0

/-! ### The local map (Table 20-1) -/

def hbmEnd : Nat := 0xc000000000
def msBase : Nat := 0xc000000000
def msEnd : Nat := 0xc800000000
def csBase : Nat := 0xd000000000
def csEnd : Nat := 0xd200000000
def csSize : Nat := 0x400000
def regBase : Nat := 0xf000000000
def regEnd : Nat := 0xf015000000

def isHbm (a : Nat) : Bool := decide (a < hbmEnd)
def isMs (a : Nat) : Bool := decide (msBase ≤ a) && decide (a < msEnd)
def isCs (a : Nat) : Bool := decide (csBase ≤ a) && decide (a < csEnd)
def isReg (a : Nat) : Bool := decide (regBase ≤ a) && decide (a < regEnd)

/-- L, the module's logical cores (R439). -/
def State.cores' (s : State) : Nat := s.fld Fld.BUP_STATUS_LOGICAL_CORES

/-- End of the memory that address `a` lies in; `a` itself where it lies in none. -/
def memEnd (a : Nat) : Nat := if isHbm a then hbmEnd else if isMs a then msEnd else a

/-! ### Raw bytes -/

/-- The byte at a local address. Log entry 14 applies (DESIGN CHOICE). -/
def State.byte (s : State) (a : Nat) : Byte := SMap.get 0 s.mem a

/-- The `n` bytes from a local address. -/
def State.bytes (s : State) (a n : Nat) : List Byte := SMap.getList 0 s.mem a n

/-- The little-endian number in the `n` bytes from a local address (R10). -/
def State.num (s : State) (a n : Nat) : Nat := leNat (s.bytes a n)

/-- Memory with a list of bytes written from a local address. -/
def State.putBytes (s : State) (a : Nat) (l : List Byte) : State := s.withMem (SMap.putList 0 s.mem a l)

/-- Memory with an `n`-byte little-endian number written. -/
def State.putNum (s : State) (a n v : Nat) : State := s.putBytes a (leBytes n v)

/-- Memory with [dst, dst + n) replaced by the bytes of [src, src + n). -/
def State.copyBytes (s : State) (src dst n : Nat) : State := s.withMem (SMap.copy 0 s.mem s.mem src dst n)

/-- Memory with [a, a + n) at zero. -/
def State.zeroBytes (s : State) (a n : Nat) : State := s.withMem (SMap.clear s.mem a n)

/-- Do [a, a + n) and [b, b + m) overlap? -/
def overlaps (a n b m : Nat) : Bool := decide (a < b + m) && decide (b < a + n)

/-- Does [a, a + n) lie within [b, b + m)? -/
def within (a n b m : Nat) : Bool := decide (b ≤ a) && decide (a + n ≤ b + m)

/-! ### Logical cores -/

def State.core (s : State) (n : Nat) : Core := SMap.get {} s.cores n

def State.setCore (s : State) (n : Nat) (c : Core) : State := s.withCores (SMap.set {} s.cores n c)

/-- The job that holds the cores, if any (R379). -/
def State.job (s : State) : Option Job := s.sched.run

/-- Requester class of the cores: 1 during a job of a real-time class, else 0 (Table 10-5). -/
def State.coreClass (s : State) : Nat := if (s.sched.run.map (·.cls)).getD 0 = 0 then 0 else 1

/-- Show the job that holds the cores in `TT_JOB` (Table 14-13). -/
def State.showJob (s : State) : State :=
  match s.sched.run with
  | none => s.setReg Reg.TT_JOB 0
  | some j =>
    let w := wput (wput (wput (wput (wput 0 63 32 j.jobId) 31 26 j.tenant) 25 23 j.cls) 22 19 j.state.code) 18 18 1
    s.setReg Reg.TT_JOB w

/-- A job's change of state is traced (R492). Log entry 62 applies (DEDUCED). -/
def State.traceJob (s : State) (st : JobState) : State := s.trace 1 1 .ok 0 st.code 0

/-- Put a job in the place of the one that holds the cores; a change of its state is traced (R492). -/
def State.setJob (s : State) (j : Option Job) : State :=
  let old := s.sched.run.map (·.state)
  let s1 := (s.withSched { s.sched with run := j }).showJob
  match j with
  | some x => if some x.state = old then s1 else s1.traceJob x.state
  | none => s1

/-- A change of the running job. -/
def State.mapJob (s : State) (f : Job → Job) : State :=
  match s.sched.run with
  | none => s
  | some j => s.setJob (some (f j))

/-- OR arithmetic flags into the running job (R68). -/
def State.orFlags (s : State) (fl : Nat) : State :=
  match s.sched.run with
  | none => s
  | some j => s.withSched { s.sched with run := some { j with flags := j.flags ||| fl } }

/-- Regions of the structure image in use (R435); none before an image is verified. -/
def State.regions (s : State) : List MemRegion :=
  match s.boot.image with
  | none => []
  | some im => im.regions

/-- Base address and bytes of a memory region. -/
def MemRegion.base (r : MemRegion) : Nat := (if r.memory = 1 then msBase else 0) + r.baseMib * 2 ^ 20
def MemRegion.size (r : MemRegion) : Nat := r.sizeMib * 2 ^ 20

/-- Does [a, a + n) touch a region of class `c` (Table 16-10)? -/
def State.touchesClass (s : State) (c a n : Nat) : Bool :=
  s.regions.any (fun r => r.cls = c && overlaps a n r.base r.size)

/-- Does [a, a + n) touch a siding? -/
def State.touchesSiding (s : State) (a n : Nat) : Bool :=
  match s.boot.image with
  | none => false
  | some im => im.sidings.any (fun r => overlaps a n (r.baseMib * 2 ^ 20) (r.sizeMib * 2 ^ 20))

/-- Does [a, a + n) lie wholly in one HBM or map-store region of the STORES section? -/
def State.inOneRegion (s : State) (a n : Nat) : Bool :=
  s.regions.any (fun r => within a n r.base r.size)

/-- Bytes of the firmware area (R427). -/
def fwArea : Nat := 0x10000000

/-- Bytes of the recovery area, the lowest 64 MiB of MS0 (R437). -/
def recoverySize : Nat := 0x4000000

/-- Does [a, a + n) lie wholly in the recovery area? -/
def inRecovery (a n : Nat) : Bool := within a n msBase recoverySize

/-- Is the memory behind [a, a + n) ready (R406, R430, R437, R448)? -/
def State.memReady (s : State) (a n : Nat) : Bool :=
  if isHbm a then s.ready rdyHbm
  else s.ready rdyMapStore || (s.flag Fld.BUP_STATUS_RECOVERY && inRecovery a n)

/-! ### Life cycle (R479, R482) -/

/-- The life-cycle state: the highest state whose bit is set in either copy; 0 BLANK to 4 SCRAPPED. -/
def State.lifeCycle (s : State) : Nat :=
  let v := s.sec.fuses.lifeA ||| s.sec.fuses.lifeB
  if v = 0 then 0 else log2 v + 1

/-- Is debug class c unlocked (R482, R483)? In BLANK every class is open; in SCRAPPED none is. -/
def State.classOpen (s : State) (c : Nat) : Bool :=
  s.lifeCycle ≠ 4 && (s.lifeCycle = 0 || bit s.sec.unlocked c)

/-- Does the second claimant hold resource r of Table 20-11 (R508)? -/
def State.altOwner (s : State) (r : Nat) : Bool := bit (s.fld Fld.SBX_OWNER_ALT_OWNER) r

end Sys2Proof.Machine
end

