-- ==== Sys2Proof/Machine/Hbm.lean ====
section
/-! DEFINITION. The HBM memory system (10_hbm_memory.md): the address hash, the error-correcting code, row repair,
the imbalance monitor, the regulators, and reads and writes of memory as every requester makes them. -/

namespace Sys2Proof.Machine

/-! ### Address hash (R264, R265) -/

/-- The hash key of the structure image in use; 0 before one is verified. -/
def State.hashKey (s : State) : Nat := (s.boot.image.map (·.hashKey)).getD 0

/-- The stack that holds a local HBM address under key `k` (R264). -/
def hbmStack (k a : Nat) : Nat :=
  let g := a >>> 12
  let q := g / 12
  let r := g % 12
  let h := q ^^^ bits k 23 0
  let h8 := bits h 7 0 ^^^ bits h 15 8 ^^^ bits h 23 16 ^^^ bits k 31 24
  (r + h8) % 12

/-- The channel of a granule (R265). -/
def hbmChannel (k a : Nat) : Nat :=
  let q := (a >>> 12) / 12
  let x := bits q 23 5 ^^^ bits k 50 32
  bits q 4 0 ^^^ bits x 4 0 ^^^ bits x 9 5 ^^^ bits x 14 10 ^^^ bits x 18 15

/-- The bank of a granule, stack ID in bits [5:4] (R265). -/
def hbmBank (k a : Nat) : Nat :=
  let q := (a >>> 12) / 12
  let y := bits q 23 11 ^^^ bits k 63 51
  bits q 10 5 ^^^ bits y 5 0 ^^^ bits y 11 6 ^^^ bits y 12 12

/-- The row of a granule (R265). -/
def hbmRow (a : Nat) : Nat := bits ((a >>> 12) / 12) 23 11

/-- The row an address lies in, as `LOCATION` of an HBM_ROW entry (Table 16-12). -/
def hbmRowLoc (k a : Nat) : Nat :=
  hbmStack k a * 2 ^ 25 + (2 * hbmChannel k a + bits a 8 8) * 2 ^ 19 + hbmBank k a * 2 ^ 13 + hbmRow a

/-! ### Paths to memory (R28, R289, R430; Tables 01-2, 01-3 and 16-13)

Links 0 to 55 are numbered as R490 does; 56 + s is the link of a perimeter CD to stack s. -/

/-- The perimeter CD that owns stack s (Table 01-2). -/
def stackCd (s : Nat) : Nat := nth 0 [0, 1, 2, 3, 7, 11, 15, 14, 13, 12, 8, 4] s

/-- The CDs that bridge segment l joins: segment c of row r is 3r + c, segment r of column c is 12 + 3c + r. -/
def segmentEnds (l : Nat) : Nat × Nat :=
  if l < 12 then (4 * (l / 3) + l % 3, 4 * (l / 3) + l % 3 + 1)
  else
    let m := l - 12
    (4 * (m % 3) + m / 3, 4 * (m % 3 + 1) + m / 3)

/-- The CDs reached from `seen` over the segments in service in at most `n` steps. Log entry 102 applies (DEDUCED). -/
def reachCds (down : List Nat) : Nat → List Nat → List Nat
  | 0, seen => seen
  | n + 1, seen =>
    reachCds down n ((List.range 24).foldl (fun acc l =>
      let e := segmentEnds l
      if down.contains l then acc
      else if acc.contains e.1 && !acc.contains e.2 then e.2 :: acc
      else if acc.contains e.2 && !acc.contains e.1 then e.1 :: acc
      else acc) seen)

/-- Is a die-to-die link out of service? -/
def State.linkOut (s : State) (l : Nat) : Bool := s.boot.linksDown.contains l

/-- The CD on which logical core n stands. -/
def State.coreCd (s : State) (n : Nat) : Nat := s.fld (Fld.CORE_STATUS_CD n)

/-- Does a path of bridge segments in service join two CDs? Log entry 102 applies (DEDUCED). -/
def State.joined (s : State) (x y : Nat) : Bool := decide (x = y) || (reachCds s.boot.linksDown 16 [x]).contains y

/-- Bytes of one map-store die, and the 64-byte words that [a, a + n) touches. -/
def msDieSize : Nat := 0x80000000
def wordsOf (a n : Nat) : Nat := if n = 0 then 0 else (a + n - 1) / 64 - a / 64 + 1

/-- The stacks that [a, a + n) of the HBM touches: 23 granules in a row touch all twelve. -/
def stacksOf (key a n : Nat) : List Nat :=
  if n = 0 then [] else tab (min 23 ((a + n - 1) / 4096 - a / 4096 + 1)) (fun i => hbmStack key (4096 * (a / 4096 + i)))

/-- The map-store dies that [a, a + n) touches. -/
def msDiesOf (a n : Nat) : List Nat :=
  if n = 0 then []
  else tab (min 16 ((a + n - 1 - msBase) / msDieSize - (a - msBase) / msDieSize + 1)) (fun i => (a - msBase) / msDieSize + i)

/-- The links that an access to [a, a + n) crosses last, and the CDs that it goes through to them. -/
def State.linksTo (s : State) (a n : Nat) : List Nat :=
  if isHbm a then (stacksOf s.hashKey a n).map (56 + ·) else if isMs a then (msDiesOf a n).map (24 + ·) else []
def State.cdsOf (s : State) (a n : Nat) : List Nat :=
  if isHbm a then (stacksOf s.hashKey a n).map stackCd
  else if isMs a then msDiesOf a n
  else if isCs a then [s.coreCd ((a - csBase) / csSize)] else []

/-- Status of an access for which a path must remain and its memory be ready. -/
def State.pathStatus (s : State) (a n : Nat) : Status :=
  Status.lowest [.when ((s.linksTo a n).any s.linkOut) .timeout, .when ((isHbm a || isMs a) && !s.memReady a n) .notReady]

/-- Status of an access of a core for which a path from its CD must remain. -/
def State.corePath (s : State) (core a n : Nat) : Status :=
  .when ((s.linksTo a n).any s.linkOut || (s.cdsOf a n).any (fun c => !s.joined (s.coreCd core) c)) .timeout

/-! ### The defect list (R443, R444) -/

/-- `DEFECTS` of `BUP_STATUS` follows the list in use. -/
def State.showDefects (s : State) : State :=
  s.setFld Fld.BUP_STATUS_DEFECTS (s.boot.defects.length + s.boot.unwritten.length)

/-- Enter a defect: it waits to be written; a full list hides it for this start only and sets
`LIST_FULL` and DEGRADED (R444). Log entry 99 applies (DEDUCED). -/
def State.addDefect (s : State) (d : Defect) : State :=
  if s.boot.defects.length + s.boot.unwritten.length < 4096 then
    ((s.withBoot { s.boot with unwritten := s.boot.unwritten ++ [{ d with start := s.boot.startCount }] }).showDefects).bumpStop
      Fld.BUP_COUNTS_NEW_DEFECTS 1
  else (s.setFld Fld.BUP_STATUS_LIST_FULL 1).setFld Fld.BUP_READY_DEGRADED 1

/-- The defects of a kind in the list, those that wait to be written among them. -/
def State.listed (s : State) (kind : Nat) : List Defect := (s.boot.defects ++ s.boot.unwritten).filter (fun d => d.kind = kind)

/-- Is a defect of this kind and location listed? -/
def State.isDefect (s : State) (kind loc : Nat) : Bool := (s.listed kind).any (fun d => d.location = loc)

/-! ### Errors (R283 to R288, R528) -/

/-- Bad bytes of a codeword's mask. -/
def popCount (m : Nat) : Nat := countUpTo 64 (fun i => bit m i)

/-- Is a codeword with this mask uncorrectable? Up to three bad bytes are corrected, four and five are
detected; six or more are a free value (R283). Log entry 39 applies (DESIGN CHOICE). -/
def maskUncorrectable (cw m : Nat) : Bool :=
  let n := popCount m
  decide (4 ≤ n) && (decide (n ≤ 5) || !Config.miscorrected cw m)

/-- Codewords of [a, a + n), as a first and a last number. -/
def inWords (cw a n : Nat) : Bool := decide (a / 64 ≤ cw) && decide (cw ≤ (a + n - 1) / 64) && decide (0 < n)

/-- The uncorrectable codewords or words that [a, a + n) touches, by number. -/
def State.deadWords (s : State) (a n : Nat) : List Nat :=
  ((s.eccMask.filter (fun p => inWords p.1 a n && maskUncorrectable p.1 p.2)).map (·.1))
    ++ s.eccDead.filter (fun w => inWords w a n) ++ s.msBad.filter (fun w => inWords w a n)

/-- The correctable codewords that [a, a + n) touches. -/
def State.softWords (s : State) (a n : Nat) : List Nat :=
  (s.eccMask.filter (fun p => inWords p.1 a n && !maskUncorrectable p.1 p.2)).map (·.1)

/-- A codeword among those met whose six or more bad bytes pass as correctable holds other bytes from then on (R283).
Log entry 39 applies (DESIGN CHOICE). -/
def State.miscorrect (s : State) (ws : List Nat) : State :=
  ws.foldl (fun t w =>
    if 6 ≤ popCount (SMap.get 0 s.eccMask w) then
      (t.putBytes (64 * w) (tab 64 (fun i => Config.miscorrectedByte t.free (64 * w + i)))).withFree (t.free + 1)
    else t) s

/-- A soft repair reads a row and writes it back: corrected words as they should be, uncorrectable ones with the check pattern
that stays uncorrectable (R288). Log entry 40 applies (DEDUCED). -/
def State.rewriteRow (s : State) (loc : Nat) : State :=
  let inRow := fun (p : Nat × Nat) => isHbm (64 * p.1) && decide (hbmRowLoc s.hashKey (64 * p.1) = loc)
  let row := s.eccMask.filter inRow
  let dead := (row.filter (fun p => maskUncorrectable p.1 p.2)).map (·.1)
  let s1 := s.miscorrect ((row.filter (fun p => !maskUncorrectable p.1 p.2)).map (·.1))
  (s1.withEccMask (s1.eccMask.filter (fun p => !inRow p))).withEccDead
    (dead.filter (fun w => !s1.eccDead.contains w) ++ s1.eccDead)

/-- Repair of a row (R288): a soft repair where its bank holds none, and an entry for hard repair at the
next start. A row already listed is not repaired again. Log entry 40 applies (DEDUCED). -/
def State.repairRow (s : State) (a : Nat) : State :=
  let loc := hbmRowLoc s.hashKey a
  let st := bits loc 28 25
  let bank := loc / 2 ^ 13
  if s.isDefect 3 loc then s
  else
    let s1 := (s.addDefect ⟨3, 6, 5, loc, 0⟩).bumpStop Fld.HBM_REPAIR_HARD_PENDING 1
    if s.units.hbm.softBanks.contains bank then s1.bumpStop Fld.HBM_REPAIR_NO_SPARE 1
    else
      let s2 := s1.withUnits { s1.units with hbm := { s1.units.hbm with softBanks := bank :: s1.units.hbm.softBanks } }
      ((s2.bumpStop Fld.HBM_REPAIR_SOFT_DONE 1).setFld (Fld.HBM_STACK_SOFT_LEFT st)
        (s2.fld (Fld.HBM_STACK_SOFT_LEFT st) - 1)).rewriteRow loc

/-- An uncorrectable word is met: log entry, count, and for HBM the row's repair (R285, R288, R528).
Log entry 40 applies (DEDUCED). -/
def State.meetDead (s : State) (req : Requester) (w : Nat) : State :=
  let s1 := (s.log 10 .uncorrectable req (64 * w)).bump Fld.HBM_ECC_COUNTS_UNCORRECTABLE Fld.HBM_ECC_COUNTS_UE_SAT 1
  if isHbm (64 * w) then s1.repairRow (64 * w) else s1

/-- Correctable codewords are met: corrected, written back and counted (R283, R284). -/
def State.meetSoft (s : State) (ws : List Nat) : State :=
  if ws.isEmpty then s
  else
    let s1 := s.miscorrect ws
    (s1.withEccMask (s1.eccMask.filter (fun p => !ws.contains p.1))).bump Fld.HBM_ECC_COUNTS_CORRECTED
      Fld.HBM_ECC_COUNTS_CE_SAT ws.length

/-! ### Traffic counts and regulators (R268, R278, R279) -/

/-- The partition of a requester class (Table 10-19). -/
def State.partOf (s : State) (c : Nat) : Nat := bits (s.fld Fld.BWR_CLASS_MAP_PART_OF_CLASS) (3 * c + 2) (3 * c)

/-- Is a request of `n` bytes at `a` a narrow one (R273)? -/
def isNarrow (a n : Nat) : Bool := (n = 32 || n = 64) && a % n = 0

/-- Does the narrow path of the stack serve (R273, R274)? -/
def State.narrowUp (s : State) (st : Nat) : Bool :=
  bit (s.fld Fld.HBM_NARROW_CTRL_ENABLE) st && s.flag (Fld.HBM_STACK_NARROW_OK st)

/-- Units served per granule of [a, a + n), from granule `g` for `k` granules: pairs of stack and 32-byte
units, counting whole 256-byte sectors (R272, R279). Log entry 123 applies (DEDUCED). -/
def granuleUnits (key a n : Nat) : Nat → Nat → List (Nat × Nat)
  | _, 0 => []
  | g, k + 1 =>
    let lo := max a (g * 4096)
    let hi := min (a + n) ((g + 1) * 4096)
    (hbmStack key (g * 4096), 8 * ((hi - 1) / 256 - lo / 256 + 1)) :: granuleUnits key a n (g + 1) k

/-- Tokens and stacks of one access (R279): a narrow access 1 or 2, each sector 8, a fall-back request
the 8 of its sector. Log entry 123 applies (DEDUCED). -/
def State.charges (s : State) (a n : Nat) : List (Nat × Nat) :=
  let st := hbmStack s.hashKey a
  if isNarrow a n && s.narrowUp st then [(st, n / 32)]
  else granuleUnits s.hashKey a n (a / 4096) ((a + n - 1) / 4096 - a / 4096 + 1)

/-- Level units gained by a bucket of share `x` in `dt` ns: x × 119 / 1,024 tokens per cyc(MEM) at
2.5 GHz (R279). -/
def tokenGain (x dt : Nat) : Nat := x * 595 * dt

/-- A bucket after `dt` ns and a charge: refilled up to its burst, never below zero (R279).
Log entry 41 applies (DESIGN CHOICE). -/
def bucketAfter (level share burstKib dt charge : Nat) : Nat :=
  min (level + tokenGain share dt) (burstKib * 32 * 2048) - charge * 2048

/-- The ns that an access waits until its ceiling bucket, of `level` after `dt` ns, holds its charge (R279). -/
def ceilWait (level share burstKib dt charge : Nat) : Nat :=
  ceilDiv (charge * 2048 - min (level + tokenGain share dt) (burstKib * 32 * 2048)) (tokenGain share 1)

/-- The buckets of a stack and partition, `key`, are charged at the instant the access is admitted, which they then stand at (R279).
Log entry 41 applies (DESIGN CHOICE). -/
def HbmUnit.charge (h : HbmUnit) (key now floor ceil burst charge : Nat) : HbmUnit :=
  let full := burst * 32 * 2048
  let at' := SMap.get 0 h.refilled key
  let fl := (SMap.find h.floorTok key).getD full
  let ce := (SMap.find h.ceilTok key).getD full
  let wait := ceilWait ce ceil burst (now - at') charge
  let dt := now - at' + wait
  { h with
    refilled := SMap.insert h.refilled key (max now at' + wait)
    floorTok := SMap.insert h.floorTok key (bucketAfter fl floor burst dt charge)
    ceilTok := SMap.insert h.ceilTok key (if wait = 0 then bucketAfter ce ceil burst dt charge
      else ce + tokenGain ceil dt - charge * 2048) }

/-- Charge one access to its stack's monitor window, its partition's counter and token buckets.
Log entry 41 applies (DESIGN CHOICE). -/
def State.chargeHbm (s : State) (cls a n : Nat) : State :=
  if n = 0 || !isHbm a then s
  else
    let p := s.partOf cls
    let cs := s.charges a n
    let total := cs.foldl (fun t c => t + c.2) 0
    let h := s.units.hbm
    let h1 := cs.foldl (fun (u : HbmUnit) c =>
      ({ u with window := SMap.insert u.window c.1 (SMap.get 0 u.window c.1 + c.2) }).charge (8 * c.1 + p) s.time.toNat
        (s.fld (Fld.BWR_ACTIVE_FLOOR p)) (s.fld (Fld.BWR_ACTIVE_CEIL p)) (s.fld (Fld.BWR_ACTIVE_BURST_KIB p)) c.2) h
    let s1 := (s.withUnits { s.units with hbm := h1 }).bump (Fld.BWR_COUNTS_UNITS p) (Fld.BWR_COUNTS_UNITS_SAT p) total
    cs.foldl (fun a c => a.perf 5 c.1 c.2) s1

/-- Count an access to the map store (event 0x04 of Table 19-7). Log entry 119 applies (DEDUCED). -/
def State.chargeMs (s : State) (a n : Nat) : State :=
  if isMs a then s.perf 4 ((a - msBase) / msDieSize) (wordsOf a n) else s

/-! ### Reads and writes of HBM and the map store -/

/-- Status of a read of `n` bytes, before it is made (R28, R285, R289, R528). -/
def State.readStatus (s : State) (a n : Nat) : Status :=
  (s.pathStatus a n).worse (Status.when (!(s.deadWords a n).isEmpty) .uncorrectable)

/-- The words of a read are met: an uncorrectable one fails the whole request; correctable ones are corrected (R284, R285, R528).
Log entry 39 applies (DESIGN CHOICE). Log entry 40 applies (DEDUCED). -/
def State.meetRead (s : State) (cls : Nat) (req : Requester) (a n : Nat) : Status × State :=
  let s0 := (s.chargeHbm cls a n).chargeMs a n
  match s0.deadWords a n with
  | [] => (.ok, s0.meetSoft (s0.softWords a n))
  | w :: ws => (.uncorrectable, s0.meetDead req (ws.foldl min w))

/-- A read is made: it fails where no path to its memory remains or the memory is not ready (R28, R289), or by the words it
meets. -/
def State.readCheck (s : State) (cls : Nat) (req : Requester) (a n : Nat) : Status × State :=
  let st := s.pathStatus a n
  if st ≠ .ok then (st, s) else s.meetRead cls req a n

/-- Read `n` bytes of HBM or map store. -/
def State.readMem (s : State) (cls : Nat) (req : Requester) (a n : Nat) : Status × List Byte × State :=
  let (st, s1) := s.readCheck cls req a n
  if st = .ok then (.ok, s1.bytes a n, s1) else (st, [], s1)

/-- Several ranges are read one after another, up to the first that fails; its address. -/
def State.readChecks (s : State) (cls : Nat) (req : Requester) : List (Nat × Nat) → Status × Nat × State
  | [] => (.ok, 0, s)
  | r :: rs =>
    let x := s.readCheck cls req r.1 r.2
    if x.1 = .ok then x.2.readChecks cls req rs else (x.1, r.1, x.2)

/-- Is codeword `w` covered whole by [a, a + n)? -/
def coversWord (w a n : Nat) : Bool := decide (a ≤ 64 * w) && decide (64 * w + 64 ≤ a + n)

/-- A write is made: it cannot complete over an uncorrectable word that it covers only in part and then
changes no byte, though the row of an HBM codeword is repaired; words covered whole become valid (R28, R286, R288, R289, R528). -/
def State.writeCheck (s : State) (cls a n : Nat) : Status × State :=
  let st := s.pathStatus a n
  if st ≠ .ok then (st, s) else
  let s0 := (s.chargeHbm cls a n).chargeMs a n
  let part := (s0.deadWords a n).filter (fun w => !coversWord w a n)
  if !part.isEmpty then
    (.uncorrectable, (part.filter (fun w => isHbm (64 * w))).foldl (fun t w => t.repairRow (64 * w)) s0)
  else
    let s1 := s0.meetSoft ((s0.softWords a n).filter (fun w => !coversWord w a n))
    (.ok, ((s1.withEccMask (s1.eccMask.filter (fun p => !coversWord p.1 a n))).withEccDead
      (s1.eccDead.filter (fun w => !coversWord w a n))).withMsBad (s1.msBad.filter (fun w => !coversWord w a n)))

/-- Write a list of bytes to HBM or map store. -/
def State.writeMem (s : State) (cls a : Nat) (l : List Byte) : Status × State :=
  let (st, s1) := s.writeCheck cls a l.length
  if st = .ok then (.ok, s1.putBytes a l) else (st, s1)

/-- Copy `n` bytes: read, then write. -/
def State.copyMem (s : State) (cls : Nat) (req : Requester) (src dst n : Nat) : Status × State :=
  let (st, s1) := s.readCheck cls req src n
  if st ≠ .ok then (st, s1)
  else
    let (st2, s2) := s1.writeCheck cls dst n
    if st2 = .ok then (.ok, s2.copyBytes src dst n) else (st2, s2)

/-- Wipe a range: every codeword written whole with zero and valid check bytes (R286, R432). Log entry 42 applies (DEDUCED). -/
def State.wipe (s : State) (a n : Nat) : State :=
  (((s.zeroBytes a n).withEccMask (s.eccMask.filter (fun p => !within (64 * p.1) 64 a n))).withEccDead
    (s.eccDead.filter (fun w => !within (64 * w) 64 a n))).withMsBad (s.msBad.filter (fun w => !within (64 * w) 64 a n))

/-! ### Commands -/

/-- HBM_REQUEST: one request of a class, a read or a write of given bytes, as its requester makes it
(R272 to R276, R284 to R286, R289). Its outcome leaves the module's HBM side as an answer. -/
def execHbmRequest (cls : Fin 8) (write : Bool) (addr : BitVec 40) (len : Nat) (data : List Byte) (s : State) :
    Host.Outcome State Fault Refusal :=
  let a := addr.toNat
  let n := if write then data.length else len
  .next (
    if !isHbm a || hbmEnd < a + n then s.emit (.regResp (if isHbm a then .bounds else .unmapped) 0)
    else if write then
      let (st, s1) := s.writeMem cls.val a data
      s1.emit (.regResp st 0)
    else
      let (st, l, s1) := s.readMem cls.val (.hbmClass cls.val) a n
      s1.emit (.readData cls.val st.code l))

/-- The codeword address at position `i` of the 64 codewords of granule number q on stack order r: scrub
steps through q on all stacks together (R287). -/
def scrubAddr (q r i : Nat) : Nat := (12 * q + r) * 4096 + 64 * i

/-- Scrub of one codeword: corrected or logged, and the row's history kept for R288. -/
def State.scrubWord (s : State) (a : Nat) : State :=
  let w := a / 64
  let s0 := s.chargeHbm 7 a 64
  if s0.eccDead.contains w || maskUncorrectable w (SMap.get 0 s0.eccMask w) then s0.meetDead .scrub w
  else if SMap.get 0 s0.eccMask w = 0 then s0
  else
    let loc := hbmRowLoc s0.hashKey a
    let pass := s0.fld Fld.HBM_SCRUB_STATUS_PASSES
    let s1 := s0.meetSoft [w]
    match SMap.find s1.units.hbm.ceRows loc with
    | none => s1.withUnits { s1.units with hbm := { s1.units.hbm with ceRows := SMap.insert s1.units.hbm.ceRows loc pass } }
    | some p => if p = pass then s1 else s1.repairRow a

/-- SCRUB_STEP: patrol scrub reads the next codeword of the granules at q of every stack, all stacks together; after the last
the position advances, and at 2^24 a pass ends. SCRUB is set as the first pass begins (R287). `idx` is the codeword's place in its
granule, which only the next one has. Log entry 3 applies (DESIGN CHOICE). -/
def execScrubStep (idx : Fin 64) (s : State) : Host.Outcome State Fault Refusal :=
  .next (
    if s.flag Fld.HBM_SCRUB_CTRL_ENABLE && s.ready rdyHbm && decide (idx.val = s.units.hbm.scrubAt) then
      let i := s.units.hbm.scrubAt
      let q := s.fld Fld.HBM_SCRUB_STATUS_POSITION
      let s0 := s.setReady rdyScrub
      let t := (List.range 12).foldl (fun acc r => acc.scrubWord (scrubAddr q r i)) s0
      let s1 := t.withUnits { t.units with hbm := { t.units.hbm with scrubAt := (i + 1) % 64 } }
      if 63 ≤ i then
        if q + 1 = 2 ^ 24 then (s1.setFld Fld.HBM_SCRUB_STATUS_POSITION 0).bumpWrap Fld.HBM_SCRUB_STATUS_PASSES 1
        else s1.setFld Fld.HBM_SCRUB_STATUS_POSITION (q + 1)
      else s1
    else s)

/-- SKEW_WINDOW_END: the monitor's results of the window, and a new window (R268). -/
def execSkewWindowEnd (s : State) : Host.Outcome State Fault Refusal :=
  let w := s.units.hbm.window
  let cnt := fun st => SMap.get 0 w st
  let total := (List.range 12).foldl (fun t st => t + cnt st) 0
  let mx := (List.range 12).foldl (fun m st => max m (cnt st)) 0
  let arg := ((List.range 12).find? (fun st => cnt st = mx)).getD 0
  let skew := if total < 2 ^ 20 then 0 else 12 * 256 * mx / total
  let s1 := (List.range 12).foldl (fun acc st => acc.setFld (Fld.HBM_STACK_LAST_WINDOW_UNITS st) (cnt st)) s
  let s2 := (((s1.setFld Fld.HBM_SKEW_SKEW skew).setFld Fld.HBM_SKEW_MAX_STACK arg).bumpWrap Fld.HBM_SKEW_WINDOWS 1)
  let s3 := if s.fld Fld.HBM_SKEW_CTRL_THRESHOLD < skew then
      (s2.bump Fld.HBM_SKEW_OVER_WINDOWS Fld.HBM_SKEW_OVER_SAT 1).setFld Fld.HBM_SKEW_OVER_FLAG 1
    else s2
  .next (s3.withUnits { s3.units with hbm := { s3.units.hbm with window := [] } })

/-- STACK_TEMPERATURE_HOT: a stack reports its highest die temperature; above 85 °C its refresh doubles
and HOT is set (R269). -/
def execStackTemperatureHot (stack : Fin 12) (tempC : BitVec 8) (s : State) : Host.Outcome State Fault Refusal :=
  .next ((s.setFld (Fld.HBM_STACK_TEMP_C stack.val) tempC.toNat).setFld (Fld.HBM_STACK_HOT stack.val)
    (b2n (decide (85 < tempC.toNat))))

/-- Write of `HBM_SKEW_CTRL` (R290). Log entry 123 applies (DEDUCED). -/
def hbmSkewCtrlWrite (v : Word) (s : State) : Status × State :=
  let t := wget v 11 0
  if t < 256 || 3072 < t then (.verify, s) else (.ok, s.setFld Fld.HBM_SKEW_CTRL_THRESHOLD t)

/-- Write of `HBM_SCRUB_CTRL` (R287, R290). Log entry 123 applies (DEDUCED). -/
def hbmScrubCtrlWrite (v : Word) (s : State) : Status × State :=
  let p := wget v 7 0
  if p = 0 || 168 < p then (.verify, s)
  else (.ok, (s.setFld Fld.HBM_SCRUB_CTRL_PERIOD_H p).setFld Fld.HBM_SCRUB_CTRL_ENABLE (wget v 63 63))

/-- Write of `HBM_NARROW_CTRL` (R274). Log entry 123 applies (DEDUCED). -/
def hbmNarrowCtrlWrite (v : Word) (s : State) : Status × State :=
  (.ok, s.setFld Fld.HBM_NARROW_CTRL_ENABLE (wget v 11 0))

/-! ### Regulators -/

/-- Is a regulator table valid (R280)? Records in the layout of Table 10-16. -/
def regulatorOk (l : List Nat) : Bool :=
  let fl := fun v => bits v 8 0
  let ce := fun v => bits v 24 16
  let bu := fun v => bits v 42 32
  decide (l.foldl (fun t v => t + fl v) 0 ≤ 256)
    && l.all (fun v => decide (fl v ≤ ce v) && decide (1 ≤ ce v) && decide (ce v ≤ 256)
        && decide (1 ≤ bu v) && decide (bu v ≤ 1024)
        && decide (bits v 15 9 = 0) && decide (bits v 31 25 = 0) && decide (v < 2 ^ 43))

/-- The eight words of the staged or the active bank. -/
def State.bwrStage (s : State) : List Nat := tab 8 (fun p => (s.reg (Reg.BWR_STAGE p)).toNat)

/-- Write of `BWR_CTRL`: SWAP checks the staged table and names an epoch at least two epochs on (R281).
Log entry 41 applies (DESIGN CHOICE). -/
def bwrSwap (v : Word) (s : State) : Status × State :=
  if !bit v.toNat 0 then (.ok, s)
  else if s.flag Fld.BWR_STATUS_SWAP_PENDING then (.denied, s)
  else if !regulatorOk s.bwrStage then (.ok, s.setFld Fld.BWR_STATUS_STAGE_STATUS Status.verify.code)
  else
    let e := ((s.time.toNat + 4095) / 4096 + 2) * 4096
    let s1 := ((s.setFld Fld.BWR_CTRL_SWAP 1).setFld Fld.BWR_STATUS_SWAP_PENDING 1).setFld Fld.BWR_STATUS_STAGE_STATUS 0
    (.ok, s1.withUnits { s1.units with hbm := { s1.units.hbm with epoch := some e } })

/-- BWR_SWAP_EPOCH: once the named epoch has come every controller exchanges the banks; token levels are clamped to
the new burst, GEN increases and the previous table stays staged (R281). Log entry 41 applies (DESIGN CHOICE). -/
def execBwrSwapEpoch (s : State) : Host.Outcome State Fault Refusal :=
  .next (
    match s.units.hbm.epoch with
    | none => s
    | some e =>
      if s.time.toNat < e then s else
      let s1 := (List.range 8).foldl (fun acc p =>
        (acc.setReg (Reg.BWR_ACTIVE p) (s.reg (Reg.BWR_STAGE p))).setReg (Reg.BWR_STAGE p) (s.reg (Reg.BWR_ACTIVE p))) s
      let h := s.units.hbm
      let now := s.time.toNat
      let full := fun (t : State) (k : Nat) => t.fld (Fld.BWR_ACTIVE_BURST_KIB (k % 8)) * 32 * 2048
      let level := fun (m : List (Nat × Nat)) (share : Nat → Field) (k : Nat) =>
        min (min ((SMap.find m k).getD (full s k) + tokenGain (s.fld (share (k % 8))) (now - SMap.get 0 h.refilled k)) (full s k))
          (full s1 k)
      let s2 := s1.withUnits { s1.units with hbm := { h with
        epoch := none, refilled := tab 96 (fun k => (k, max now (SMap.get 0 h.refilled k)))
        floorTok := tab 96 (fun k => (k, level h.floorTok Fld.BWR_ACTIVE_FLOOR k))
        ceilTok := tab 96 (fun k => (k, level h.ceilTok Fld.BWR_ACTIVE_CEIL k)) } }
      ((s2.bumpWrap Fld.BWR_STATUS_GEN 1).setFld Fld.BWR_STATUS_SWAP_PENDING 0).setFld Fld.BWR_CTRL_SWAP 0)

/-- Write of `BWR_STAGEp`, refused while a swap is pending (R281). -/
def bwrStageWrite (p : Nat) (v : Word) (s : State) : Status × State :=
  if s.flag Fld.BWR_STATUS_SWAP_PENDING then (.denied, s)
  else
    (.ok, ((s.setFld (Fld.BWR_STAGE_BURST_KIB p) (wget v 42 32)).setFld (Fld.BWR_STAGE_CEIL p) (wget v 24 16)).setFld
      (Fld.BWR_STAGE_FLOOR p) (wget v 8 0))

/-- MS_UNCORRECTABLE_READ: a requester reads a map-store word that is marked uncorrectable: the read fails, is
logged and counted (R528). -/
def execMsUncorrectableRead (req : Requester) (addr : BitVec 40) (len : Nat) (s : State) :
    Host.Outcome State Fault Refusal :=
  .next (
    if isMs addr.toNat && decide (addr.toNat + len ≤ msEnd) then
      let (st, l, s1) := s.readMem 0 req addr.toNat len
      s1.emit (.readData req.id st.code l)
    else s)

end Sys2Proof.Machine
end

