-- ==== Sys2Proof/Machine/Operands.lean ====
section
/-! DEFINITION. Operand forms of the core instructions: scalar, vector and mask registers (R80), address words
(R87), core-store regions (R101), bank shapes (R89), masks (R90), exchange slots (R94), and the issue,
fault and completion of an instruction (R82, R83, R86, R102, R109). -/

namespace Sys2Proof.Machine

/-! ### Contexts -/

def State.ctx (s : State) (t : Site) : Ctx := SMap.get {} (s.core t.core).ctxs t.ctx

def State.setCtx (s : State) (t : Site) (c : Ctx) : State :=
  let k := s.core t.core
  s.setCore t.core { k with ctxs := SMap.set {} k.ctxs t.ctx c }

/-- Scalar register n; s0 reads as zero (R80). -/
def Ctx.sreg (c : Ctx) (n : Nat) : Word := if n = 0 then 0 else SMap.get 0 c.s n

/-- Write scalar register n; a write of s0 has no effect (R80). -/
def Ctx.setS (c : Ctx) (n : Nat) (v : Word) : Ctx := if n = 0 then c else { c with s := SMap.set 0 c.s n v }

/-- Mask register n; k0 reads as all ones (R80). -/
def Ctx.kreg (c : Ctx) (n : Nat) : BitVec 256 := if n = 0 then BitVec.allOnes 256 else SMap.get 0 c.k n

/-- Write mask register n; a write of k0 has no effect (R80). -/
def Ctx.setK (c : Ctx) (n : Nat) (v : BitVec 256) : Ctx := if n = 0 then c else { c with k := SMap.set 0 c.k n v }

/-- Bit i of mask register n. -/
def Ctx.maskBit (c : Ctx) (n i : Nat) : Bool := (c.kreg n).getLsbD i

/-- Lane l of vector register r. -/
def Ctx.lane (c : Ctx) (r l : Nat) : Lane := SMap.get 0 c.v (128 * r + l)

def Ctx.setLane (c : Ctx) (r l : Nat) (x : Lane) : Ctx := { c with v := SMap.set 0 c.v (128 * r + l) x }

/-- Does a context hold a lane group: does it run the body of a LANE nest (R81, R107)? -/
def State.holdsGroup (s : State) (t : Site) : Bool :=
  match s.sched.run.bind (·.nest) with
  | some r => r.desc.kind = 1 && (s.ctx t).active && (s.ctx t).inBody
  | none => false

/-- Is lane l active? In a LANE nest the lanes whose thread index is below G are; a context without a
lane group has all 128 (R81, R525). -/
def State.laneActive (s : State) (t : Site) (l : Nat) : Bool :=
  match s.sched.run.bind (·.nest) with
  | some r => if r.desc.kind = 1 && (s.ctx t).inBody then decide (128 * (s.ctx t).laneGroup + l < r.desc.g) else true
  | none => true

/-- Lanes below 128 that are active and unmasked by mask register `m`. -/
def State.lanes (s : State) (t : Site) (m : Nat) : List Nat :=
  (List.range 128).filter (fun l => s.laneActive t l && (s.ctx t).maskBit m l)

/-- Set lanes of a vector register from a function of the lane. -/
def Ctx.setLanes (c : Ctx) (r : Nat) (ls : List Nat) (f : Nat → Lane) : Ctx :=
  ls.foldl (fun acc l => acc.setLane r l (f l)) c

/-! ### Addresses in the core store -/

/-- OFFSET and STRIDE of an address word (Table 03-5). -/
def awOffset (w : Word) : Nat := wget w 21 0
def awStride (w : Word) : Nat := wget w 43 22

/-- Status of an address word: reserved bits zero, OFFSET and STRIDE multiples of `al`, also where the STRIDE places nothing
(R87; DEDUCED, log entry 20). -/
def awStatus (w : Word) (al : Nat) : Status :=
  Status.lowest [Status.when (decide (wget w 63 44 ≠ 0)) .verify,
    Status.when (decide (awOffset w % al ≠ 0) || decide (awStride w % al ≠ 0)) .misaligned]

/-- Status of an address word whose STRIDE is ignored: reserved bits zero, OFFSET a multiple of `al` (Tables 03-8 and 05-1). -/
def awFlat (w : Word) (al : Nat) : Status :=
  Status.lowest [Status.when (decide (wget w 63 44 ≠ 0)) .verify, Status.when (decide (awOffset w % al ≠ 0)) .misaligned]

/-- The core-store regions of the structure image (Table 03-11). -/
def State.coreRegions (s : State) : List CoreRegion :=
  match s.boot.image with
  | none => []
  | some im => im.coreRegions

/-- May the running job use a region of class c (R101)? Class 1 is JOB, 2–5 are RT0–RT3. -/
def State.mayUse (s : State) (c : Nat) : Bool :=
  c = 1 || (2 ≤ c && c ≤ 5 && (s.sched.run.map (·.cls)).getD 0 = c - 1)

/-- Status of an access of `n` bytes at offset `o` of a core store (R101). -/
def State.csReach (s : State) (o n : Nat) : Status :=
  if n = 0 then .ok
  else
    match s.coreRegions.find? (fun r => decide (r.cls ≠ 0) && within o 1 (r.base64 * 65536) (r.size64 * 65536)) with
    | none => .unmapped
    | some r =>
      if !s.mayUse r.cls then .denied
      else if within o n (r.base64 * 65536) (r.size64 * 65536) then .ok else .bounds

/-- Local address of offset `o` in the core store of logical core n (R29). -/
def csAddr (n o : Nat) : Nat := csBase + n * csSize + o

/-! ### Tiles and banks (R89, R90) -/

/-- Does BANK suit the shape (R89)? -/
def bankOk (bank m n : Nat) : Bool :=
  if m ≤ 64 then (if n ≤ 128 then decide (bank ≤ 3) else bank = 0 || bank = 2)
  else (if n ≤ 128 then bank = 0 || bank = 1 else bank = 0)

/-- Banks a tile occupies (R89). -/
def tileBanks (bank m n : Nat) : List Nat :=
  if m ≤ 64 then (if n ≤ 128 then [bank] else [bank, bank + 1])
  else (if n ≤ 128 then [bank, bank + 2] else [0, 1, 2, 3])

/-- Key of tile entry (m, n) in the accumulator file: rows of 64 and columns of 128 in each bank. -/
def entryKey (bank m n rows cols : Nat) : Nat :=
  let right := if cols ≤ 128 then 0 else n / 128
  let low := if rows ≤ 64 then 0 else 2 * (m / 64)
  8192 * (bank + right + low) + 128 * (m % 64) + n % 128

/-- Bank of a key of the accumulator file. -/
def bankOfKey (k : Nat) : Nat := k / 8192

/-- An entry is empty when nothing was added to it (R62). -/
def WideEntry.isEmpty (e : WideEntry) : Bool :=
  decide (e.count = 0) && !e.nan && !e.invalid && !e.pinf && !e.ninf

/-- Is every entry of a bank cleared (R92)? -/
def Core.bankEmpty (c : Core) (b : Nat) : Bool :=
  c.wide.all (fun p => bankOfKey p.1 ≠ b || p.2.isEmpty)

/-- The accumulator file with a bank cleared. -/
def Core.clearBank (c : Core) (b : Nat) : Core := { c with wide := c.wide.filter (fun p => bankOfKey p.1 ≠ b) }

/-- Banks added to a context's bank fields in a body (R125). -/
def State.bankShift (s : State) (t : Site) : Nat :=
  match s.sched.run.bind (·.nest) with
  | some r => if (s.ctx t).inBody then (t.ctx - r.ops.ctxFirst) * r.ops.bankStep else 0
  | none => 0

/-- The unmasked rows below `n` under mask register `m` (R90). -/
def Ctx.unmasked (c : Ctx) (m n : Nat) : List Nat := (List.range n).filter (fun i => c.maskBit m i)

/-! ### Exchange slots (R94) -/

/-- The exchange buffer of a program; none where `EXCH_BUF` is 0xFF (Table 04-4). -/
def Program.exchBuf (p : Program) : Option Buf := if p.exch = 255 then none else p.bufs[p.exch]?

/-- The job's exchange region. -/
def State.exchBuf (s : State) : Option Buf := (s.sched.run.bind (·.prog)).bind Program.exchBuf

/-- Slot address and declared K of a slot pair. -/
def slotAddr (w : Word) : Nat := wget w 39 0
def slotK (w : Word) : Nat := wget w 36 0

/-- Status of a slot pair: address aligned to 1 KiB and inside the exchange region, K_DECL in range
(R94, R99). -/
def State.slotStatus (s : State) (w0 w1 : Word) : Status :=
  let a := slotAddr w0
  let k := slotK w1
  let inside := match s.exchBuf with
    | none => false
    | some b => within a 1024 b.base b.size
  Status.lowest [Status.when (decide (wget w0 63 40 ≠ 0) || decide (wget w1 63 37 ≠ 0) || k = 0 || decide (2 ^ 36 < k)) .verify,
    Status.when (decide (a % 1024 ≠ 0)) .misaligned, Status.when (!inside) .bounds]

/-- Fields of the slot at an address (Table 03-10). -/
def State.slotParts (s : State) (a : Nat) : Nat := s.num a 2
def State.slotPosted (s : State) (a : Nat) : Nat := s.num (a + 2) 2
def State.slotMerged (s : State) (a : Nat) : Nat := s.num (a + 4) 2
def State.slotOwner (s : State) (a : Nat) : Nat := s.num (a + 6) 2
def State.slotBank (s : State) (a : Nat) : Nat := s.num (a + 8) 1
def State.slotKDecl (s : State) (a : Nat) : Nat := s.num (a + 16) 8
def State.slotKSum (s : State) (a : Nat) : Nat := s.num (a + 24) 8
def State.slotRowMax (s : State) (a m : Nat) : Nat := s.num (a + 32 + 2 * m) 2
def State.slotColMax (s : State) (a n : Nat) : Nat := s.num (a + 288 + 2 * n) 2

/-! ### Issue, fault and completion -/

/-- What an instruction does once its header and fields are good: it completes, it faults the job with a
status and an address, it stays before its issue, or it has issued and waits. -/
inductive Eff where
  | done (s : State)
  | fault (st : Status) (addr : Nat) (s : State)
  | wait (s : State)
  | hold (on : HeldFor) (s : State)

/-- The lowest of several statuses, with the first address that gives it (R18). -/
def firstLowest (l : List (Status × Nat)) : Status × Nat :=
  l.foldl (fun acc p => if p.1 ≠ .ok && (acc.1 = .ok || decide (p.1.code < acc.1.code)) then p else acc) (.ok, 0)

/-- A core faults (R109): it stops issuing, the address and status are logged, and the job ends with the
lowest status. Log entry 19 applies (DESIGN CHOICE). Log entry 29 applies (DEDUCED). -/
def State.coreFault (s : State) (n : Nat) (st : Status) (addr : Nat) : State :=
  let s1 := ((s.setFld (Fld.CORE_STATUS_STATE n) 5).setFld (Fld.CORE_STATUS_LAST_STATUS n) st.code).bump
    (Fld.CORE_STATUS_FAULT_COUNT n) (Fld.CORE_STATUS_FAULT_SAT n) 1
  (s1.log 2 st (.core n) addr).mapJob (fun j => { j with fault := j.fault.worse st, ended := true })

/-- Offset just past the body. -/
def NestOps.bodyEnd (o : NestOps) : Nat := o.bodyOff + 16 * (o.bodyLenM1 + 1)

/-- Has a context issued the last instruction of its body, so that its item can only end (R127)? -/
def State.atBodyEnd (s : State) (t : Site) : Bool :=
  (s.ctx t).inBody
    && ((s.sched.run.bind (·.nest)).map (fun r => decide ((s.ctx t).pc = r.ops.bodyEnd))).getD false

/-- Does a core run: a job holds the cores and the core has not faulted (R109)? Log entry 29 applies (DEDUCED). -/
def State.coreRuns (s : State) (n : Nat) : Bool := s.sched.run.isSome && decide (s.fld (Fld.CORE_STATUS_STATE n) = 3)

/-- May a context issue: the job runs or runs to its halts, its tiles have started, the core runs, and
the context is active, before the end of its body, and not waiting for a gate or its nest. A FETCH that waits on a gate
has not passed its place (R227). Log entry 126 applies (DEDUCED). -/
def State.canIssue (s : State) (t : Site) : Bool :=
  let c := s.ctx t
  (match s.sched.run with
    | none => false
    | some j => (decide (j.state = .running) || decide (j.state = .halting)) && j.tilesStarted)
    && decide (s.fld (Fld.CORE_STATUS_STATE t.core) = 3) && c.active && !c.halted
    && c.gateWait.isNone && (!c.joined || c.inBody) && !s.atBodyEnd t

/-- Does the class belong to MATRIX (Table 03-4)? -/
def UnitClass.isMatrix : UnitClass → Bool
  | .matrix | .feeder => true
  | _ => false

/-- The banks named by what a core has issued and not done: instructions that wait, and partials on their way (R93). -/
def Core.heldBanks (k : Core) : List Nat :=
  k.ctxs.flatMap (fun p => p.2.held.flatMap (·.banks) ++ (match p.2.merge with
    | none => []
    | some g => tileBanks g.bank g.m g.n))

/-- Does its unit class accept an instruction (R82)? A class keeps the order of one context, a PASS of ATT holds MATRIX of
its core (R529), a later instruction that names a bank waits for the earlier (R93), and a context has one post or merge in
flight (Table 03-1). Log entry 126 applies (DEDUCED). -/
def State.accepts (s : State) (t : Site) (f : InFlight) : Bool :=
  let k := s.core t.core
  let c := s.ctx t
  c.held.all (fun x => decide (x.op.unit ≠ f.unit))
    && !(f.unit.isMatrix && k.ctxs.any (fun p => p.2.held.any (fun x => decide (x.op = .attPass))))
    && f.banks.all (fun b => !k.heldBanks.contains b)
    && (!f.exch || (c.post.isNone && c.merge.isNone))

/-- Semaphore i of a core (R83). -/
def State.sem (s : State) (n i : Nat) : Nat := (SMap.get (0 : BitVec 16) (s.core n).sems i).toNat

def State.setSem (s : State) (n i v : Nat) : State :=
  let k := s.core n
  s.setCore n { k with sems := SMap.set 0 k.sems i (BitVec.ofNat 16 v) }

/-- The conditions of R102 on a core: banks empty, no slot open, no MOVE in flight, no MMA queued; and no attention chain
(R182). Log entry 26 applies (DEDUCED). -/
def Core.haltable (k : Core) : Bool :=
  (List.range 4).all (fun b => k.bankEmpty b) && k.ctxs.all (fun p => p.2.slots.isEmpty && p.2.held.isEmpty)
    && k.inflight.all (fun f => !f.isMove && !f.isMma) && k.att.isNone

/-- Every active context of a core stands at a request halt: halted, or context 0 waiting in a NEST (R131).
Log entry 26 applies (DEDUCED). -/
def Core.allHalted (k : Core) : Bool :=
  k.ctxs.all (fun p => !p.2.active || p.2.halted || (p.2.joined && !p.2.inBody))

/-- Is the running job halting? -/
def State.halting (s : State) : Bool := (s.sched.run.map (fun j => decide (j.state = .halting))).getD false

/-- Contexts of a core that wait on a gate halt before their FETCH, which will issue again: the semaphore it took is given
back (R227). Log entry 26 applies (DEDUCED). -/
def State.haltGates (s : State) (n : Nat) : State :=
  let k := s.core n
  (k.ctxs.filterMap (fun p => p.2.gateWait.map (fun g => (p.1, g)))).foldl (fun acc p =>
    let t : Site := ⟨n, p.1⟩
    let s1 := acc.setCtx t { acc.ctx t with gateWait := none, halted := true }
    if p.2.wait = 0 then s1 else s1.setSem n p.2.wait (s1.sem n p.2.wait + 1)) s

/-- A core whose active contexts all stand at request halts under R102 is HALTED. Log entry 26 applies (DEDUCED). -/
def State.settleHalt (s : State) (n : Nat) : State :=
  if s.halting && s.fld (Fld.CORE_STATUS_STATE n) = 3 && (s.core n).haltable then
    let s1 := s.haltGates n
    if (s1.core n).allHalted then s1.setFld (Fld.CORE_STATUS_STATE n) 4 else s1
  else s

/-- A request halt point: in a pre-emption a context stops there when R102 holds. Log entry 26 applies (DEDUCED). -/
def State.haltPoint (s : State) (t : Site) : State :=
  if s.halting && (s.core t.core).haltable then (s.setCtx t { s.ctx t with halted := true }).settleHalt t.core else s

/-- Does anything wait for the completion of an instruction? -/
def InFlight.matters (f : InFlight) : Bool := f.signal ≠ 0 || f.isMove || f.isMma

/-- Record an instruction in flight where something waits for its completion. -/
def State.track (s : State) (n : Nat) (f : InFlight) : State :=
  if f.matters then
    let k := s.core n
    s.setCore n { k with inflight := k.inflight ++ [f] }
  else s

/-- Have all contexts of a core ended, with nothing of theirs that waits? -/
def Core.ended (k : Core) : Bool :=
  k.ctxs.all (fun p => !p.2.active && p.2.held.isEmpty && p.2.post.isNone && p.2.merge.isNone)

/-- A running core whose contexts have all ended is IDLE (Table 03-16); in a pre-emption the end of one context may leave
only contexts that stand at a request halt. Log entry 26 applies (DEDUCED). -/
def State.settleEnd (s : State) (n : Nat) : State :=
  if s.coreRuns n && (s.core n).ended then s.setFld (Fld.CORE_STATUS_STATE n) 2 else s.settleHalt n

/-- The program counter after an instruction that does not branch (R85); a body's counter moves on
within the body. -/
def Ctx.advance (c : Ctx) : Ctx := { c with pc := (c.pc + 16) % 2 ^ 22 }

/-- The context goes on; the instruction waits, with the registers that it read at issue. -/
def Ctx.hold (c : Ctx) (on : HeldFor) (f : InFlight) : Ctx :=
  match f.holds with
  | none => c
  | some op => { c.advance with held := c.held ++ [⟨op, on, f.pc, f.banks, c.s, c.k⟩] }

/-- What issue does with the outcome of an instruction. Log entry 19 applies (DESIGN CHOICE). -/
def Eff.settle (t : Site) (h : Hdr) (f : InFlight) (moves : Bool) (e : Eff) : State :=
  match e with
  | .done s =>
    let s1 := if moves then s.setCtx t (s.ctx t).advance else s
    let s2 := s1.track t.core { f with ctx := t.ctx, signal := h.signal }
    if h.haltOk then s2.haltPoint t else s2
  | .fault st a s => s.coreFault t.core st a
  | .wait s => s
  | .hold on s => s.setCtx t ((s.ctx t).hold on f)

/-- Does the word at a context's program counter hold an opcode and no reserved bit set (R86)? A word may have been overwritten
after the loader's checks; its fields come with the command. Log entry 28 applies (DESIGN CHOICE). -/
def State.wordOk (s : State) (t : Site) : Bool :=
  let w := s.num (csAddr t.core (s.ctx t).pc) 16
  (CoreInsn.ofWord w).isSome && decide (reservedBits (bits w 127 122) w = 0)

/-- Issue of an instruction (R82, R83, R86): the context must be free to issue and the class accept it; an unmet WAIT makes
it wait; at issue the semaphore falls by 1; a word or fields that fail R86 fault the job with VERIFY.
Log entry 8 applies (DESIGN CHOICE). Log entry 28 applies (DESIGN CHOICE). -/
def State.issueAs (s : State) (t : Site) (h : Hdr) (f : InFlight) (moves ok : Bool) (body : State → Eff) : State :=
  if !(s.canIssue t && s.accepts t f) then s
  else if h.wait ≠ 0 && s.sem t.core h.wait = 0 then s.setCtx t { s.ctx t with waiting := some h.wait }
  else
    let s1 := if h.wait = 0 then s else s.setSem t.core h.wait (s.sem t.core h.wait - 1)
    let s2 := if (s.ctx t).waiting.isNone then s1 else s1.setCtx t { s1.ctx t with waiting := none }
    (if ok && s.wordOk t && decide (h.wait < 64) && decide (h.signal < 64) then body s2
      else .fault .verify (csAddr t.core (s.ctx t).pc) s2).settle t h { f with pc := (s.ctx t).pc } moves

/-- An ordinary instruction. Log entry 3 applies (DESIGN CHOICE). -/
def State.issue (s : State) (t : Site) (h : Hdr) (ok : Bool) (body : State → Eff) : State :=
  s.issueAs t h { ctx := t.ctx, signal := h.signal } true ok body

/-- The instruction of a kind that a context has issued and that waits. -/
def Ctx.heldOp (c : Ctx) (op : HeldOp) : Option HeldInsn := c.held.find? (fun x => decide (x.op = op))

/-- The context as a waiting instruction found it at issue. -/
def Ctx.asHeld (c : Ctx) (x : HeldInsn) : Ctx :=
  { c with pc := x.pc, s := x.s, k := x.k, held := c.held.filter (fun y => decide (y.op ≠ x.op)) }

/-- The context goes on from where it stands now. -/
def State.asNow (s : State) (t : Site) (now : Ctx) : State :=
  s.setCtx t { s.ctx t with pc := now.pc, s := now.s, k := now.k }

/-- What the end of a wait does with the outcome of the instruction `x`; `now` is the context as it stands. -/
def Eff.settleHeld (t : Site) (h : Hdr) (f : InFlight) (now : Ctx) (x : HeldInsn) (e : Eff) : State :=
  match e with
  | .done s =>
    let s1 := (s.asNow t now).track t.core { f with ctx := t.ctx, signal := h.signal, pc := x.pc }
    (if h.haltOk && now.pc = (x.pc + 16) % 2 ^ 22 then s1.haltPoint t else s1).settleEnd t.core
  | .fault st a s => (s.asNow t now).coreFault t.core st a
  | .wait s => s.asNow t now
  | .hold on s =>
    let s1 := s.asNow t now
    s1.setCtx t { s1.ctx t with held := now.held.map (fun y => if y.op = x.op then { x with on } else y) }

/-- An instruction that waits goes on, with the registers that it read at issue. Log entry 3 applies (DESIGN CHOICE). -/
def State.resume (s : State) (t : Site) (h : Hdr) (f : InFlight) (op : HeldOp) (body : State → Eff) : State :=
  match (s.ctx t).heldOp op with
  | none => s
  | some x =>
    if s.coreRuns t.core then (body (s.setCtx t ((s.ctx t).asHeld x))).settleHeld t h f (s.ctx t) x else s

/-- The register pair named by a `_REG` field is even, from 2 to 62 (R87). -/
def regOk (n : Nat) : Bool := decide (2 ≤ n) && decide (n ≤ 62) && n % 2 = 0

/-- An optional pair may be 0. -/
def regOpt (n : Nat) : Bool := n = 0 || regOk n

end Sys2Proof.Machine
end

