-- ==== Sys2Proof/Machine/Checks.lean ====
section
/-! DEFINITION. The field checks of the core instructions (R86): what the loader refuses in a stream, a common
image or a body, and what faults the job with VERIFY when it is reached at run time. -/

namespace Sys2Proof.Machine

/-- Operand pairs the matrix engine accepts (R51, Table 02-4). -/
def pairOk (a b : Nat) : Bool := (isMX a && isMX b) || (a = b && (a = 1 || a = 2 || a = 9))

/-- `M` of Table 02-3. -/
def fmtM : Nat → Nat
  | 3 => 9 | 4 => 16 | 5 => 5 | 6 => 3 | 7 => 3 | 8 => 2 | 9 => 8 | 2 => 16 | _ => 1

/-- `T` of an operand pair (R53; 7 for BF16, Table 02-4). -/
def pairT (a b : Nat) : Int := if a = 1 then 7 else (fmtM a : Int) + fmtM b + 5

/-- The signed `ANCHOR` field of MMA and WIN. -/
def anchorField (v : Nat) : Int := signed 10 v

/-- `ANCHOR` in range for its mode: −320 to 320 under FIXED, zero otherwise (R59, Table 03-6). -/
def anchorOk (mode v : Nat) : Bool :=
  if mode = 1 then decide (-320 ≤ anchorField v) && decide (anchorField v ≤ 320) else v = 0

/-- MMA under R51, R59, R87, R88 and R89. -/
def MmaOps.ok (o : MmaOps) : Bool :=
  o.inWidth && regOk o.aReg && regOk o.bReg && regOpt o.cReg && regOpt o.xslotReg
    && pairOk o.fmtA o.fmtB && decide (o.anchorMode < 3) && !(o.anchorMode = 2 && o.clear = 1)
    && ((o.accC = 1) == (decide (o.cReg ≠ 0))) && !(o.accC = 1 && decide (o.xslotReg ≠ 0))
    && anchorOk o.anchorMode o.anchor && bankOk o.bank (o.mM1 + 1) (o.nM1 + 1)

/-- Output formats of a drain (R67). -/
def drainFmtOk (f : Nat) : Bool := f ≤ 2 || f = 10 || isMX f

/-- DRAIN under R67, R87, R89, R92 and R110. -/
def DrainOps.ok (o : DrainOps) : Bool :=
  o.inWidth && regOk o.outReg && regOpt o.xslotReg && regOpt o.rngReg && drainFmtOk o.fmtOut
    && decide (o.rnd ≤ 5) && ((o.rnd = 5) == (decide (o.rngReg ≠ 0)))
    && !(o.ownerWait = 1 && o.xslotReg = 0) && !(isMX o.fmtOut && decide ((o.nM1 + 1) % 32 ≠ 0))
    && bankOk o.bank (o.mM1 + 1) (o.nM1 + 1)

/-- XMAX under R51, R87, R89 and Table 04-1: the K of every part but the last is a multiple of 32. BANK is held to R89 for
every part, though only part 0 records it. Log entry 128 applies (DESIGN CHOICE). -/
def XmaxOps.ok (o : XmaxOps) : Bool :=
  o.inWidth && regOk o.aReg && regOk o.bReg && regOk o.xslotReg && pairOk o.fmtA o.fmtB
    && bankOk o.bank (o.mM1 + 1) (o.nM1 + 1) && (decide (o.partsM1 ≤ o.part) || (o.kM1 + 1) % 32 = 0)

/-- XMERGE under R87 and R89. -/
def XmergeOps.ok (o : XmergeOps) : Bool :=
  o.inWidth && regOk o.xslotReg && bankOk o.bank (o.mM1 + 1) (o.nM1 + 1)

/-- LD and ST: a required pair and no reserved width. -/
def MemOps.ok (o : MemOps) : Bool := o.inWidth && regOk o.addrReg && decide (o.width ≠ 3)

/-- The vector functions that round (Table 03-20). -/
def vfuncRounds (f : Nat) : Bool := f ≤ 3 || f = 6

/-- VOP with function `f` under R21, R22 and R524. -/
def VopOps.ok (f : Nat) (o : VopOps) : Bool :=
  o.inWidth && decide (f ≤ 15) && decide (o.rnd ≤ 5) && decide (o.fmt ≤ 10)
    && (vfuncRounds f || o.rnd = 0)
    && !(o.rnd = 5 && (if f = 3 then decide (30 < o.vc) else o.vc = 0))

/-- LACC with operation `op` under R21, R71, R250 and R525. -/
def LaccOps.ok (op : Nat) (o : LaccOps) : Bool :=
  o.inWidth && regOpt o.divReg && decide (o.rnd ≤ 5) && decide (o.fmtOut ≤ 10) && !(o.spread = 1 && decide (384 < o.lidx))
    && (if op = 2 then o.rnd = 0 && (o.fmtOut ≤ 2 || o.fmtOut = 10)
        else if op = 3 then o.fmtOut ≤ 2 && !(o.rnd = 5 && (decide (o.divReg ≠ 0) || decide (22 < o.va)))
        else true)

/-- MOVE: three required pairs. -/
def MoveOps.ok (o : MoveOps) : Bool := o.inWidth && regOk o.srcReg && regOk o.dstReg && regOk o.lenReg

/-- SEM: semaphores 1 to 63. -/
def SemOps.ok (o : SemOps) : Bool := o.inWidth && decide (1 ≤ o.idx) && decide (o.idx ≤ 63)

/-- BRANCH: `TARGET` 0 under `COND` 3 (R526). -/
def BranchOps.ok (cond : Nat) (o : BranchOps) : Bool := o.inWidth && !(cond = 3 && decide (o.target ≠ 0))

/-- NEST under Table 04-7 but for its contexts, which check 22 judges at load. -/
def NestOps.fieldsOk (o : NestOps) : Bool :=
  o.inWidth && o.descOff % 64 = 0 && o.bodyOff % 16 = 0 && decide (o.bankStep ≤ 2)

/-- NEST under Table 04-7. -/
def NestOps.ok (o : NestOps) : Bool :=
  o.fieldsOk && decide (1 ≤ o.ctxCount) && decide (o.ctxCount ≤ 16) && decide (o.ctxFirst + o.ctxCount ≤ 16)

/-- The function codes of Table 05-2. -/
def sfnFuncOk (f : Nat) : Bool := f ≤ 0x0d || (0x10 ≤ f && f ≤ 0x14) || f = 0x18 || f = 0x19

/-- Functions with an Odgal-2 entry in Table 05-2. -/
def sfnOdgal (f : Nat) : Bool := f ≤ 5 || (7 ≤ f && f ≤ 9)

/-- SFN with function `f` under R139. -/
def SfnOps.ok (f : Nat) (o : SfnOps) : Bool :=
  let mem := f = 0x18 || f = 0x19
  o.inWidth && sfnFuncOk f && (o.compat = 0 || sfnOdgal f)
    && (o.rnd = 0 || (f = 0x11 && decide (o.rnd < 5)))
    && (o.vb = 0 || f = 0x10 || f = 0x11)
    && (if mem then regOk o.addrReg else o.lidx = 0 && o.addrReg = 0)

/-- RNG with operation `op` under R244; GREEDY, which needs no name, is told by the descriptor. -/
def RngOps.ok (op : Nat) (o : RngOps) : Bool :=
  o.inWidth && decide (op ≤ 5) && regOpt o.nameReg
    && (if op = 5 then
          o.vd = 0 && o.mask = 0 && o.wordSreg = 0 && o.subBase = 0 && decide (1 ≤ o.rowSreg)
            && decide (1 ≤ o.outSreg) && o.descOff % 64 = 0
        else
          decide (o.nameReg ≠ 0) && o.descOff = 0 && o.rowSreg = 0 && o.outSreg = 0
            && !(op = 4 && decide (30 < o.vd)))

/-- ATT with operation `op` under R168; the bank layout of R169 needs the descriptor. -/
def AttOps.ok (op : Nat) (o : AttOps) : Bool :=
  o.inWidth && decide (op ≤ 2) && o.descOff % 64 = 0 && (op = 0 || (o.first = 0 && o.last = 0))
    && regOpt o.qReg && regOpt o.outReg && regOpt o.lseReg && regOpt o.xslotReg && regOk o.seqReg
    && regOpt o.rangeReg && !(op = 0 && o.qReg = 0) && !(op = 2 && o.outReg = 0)
    && decide (o.lidx + o.mM1 + 1 ≤ 512)

/-- WIN POOL's fields, which overlay bits [48:33] of Table 08-1. -/
def WinOps.lidx (o : WinOps) : Nat := o.bank * 128 + o.rowMask * 16 + o.colMask * 2 + o.nM1 / 128
def WinOps.rnd (o : WinOps) : Nat := Sys2Proof.Machine.bits o.nM1 6 4
def WinOps.fmtOut (o : WinOps) : Nat := Sys2Proof.Machine.bits o.nM1 3 0

/-- WIN with operation `op` under R212. -/
def WinOps.ok (op : Nat) (o : WinOps) : Bool :=
  let mmaOnly := o.anchorMode = 0 && o.clear = 0 && o.anchor = 0
  let noTile := o.bank = 0 && o.rowMask = 0 && o.colMask = 0
  o.inWidth && decide (op ≤ 4) && o.descOff % 64 = 0 && o.stageOff % 64 = 0 && regOpt o.posReg
    && regOpt o.bReg && regOpt o.xslotReg
    && (match op with
      | 0 => o.bReg = 0 && noTile && o.nM1 = 0 && mmaOnly && o.xslotReg = 0
      | 1 => decide (o.bReg ≠ 0) && decide (o.anchorMode < 3) && !(o.anchorMode = 2 && o.clear = 1)
              && anchorOk o.anchorMode o.anchor
      | 2 => decide (o.bReg ≠ 0) && decide (o.xslotReg ≠ 0) && o.bank = 0 && mmaOnly
      | 3 => decide (o.bReg ≠ 0) && decide (o.rnd < 5) && decide (o.lidx ≤ 256) && o.fmtOut ≤ 2 && mmaOnly
              && o.xslotReg = 0
      | _ => o.bReg = 0 && noTile && mmaOnly && o.xslotReg = 0)

/-- The checks of R86 on one instruction. -/
def CoreInsn.ok : CoreInsn → Bool
  | .nop => true
  | .halt => true
  | .mma o => o.ok
  | .drain o => o.ok
  | .clearb o => o.inWidth
  | .xmax o => o.ok
  | .xmerge o => o.ok
  | .vop f o => o.ok f
  | .lacc op o => o.ok op
  | .sfn f o => o.ok f
  | .rng op o => o.ok op
  | .ld o => o.ok
  | .st o => o.ok
  | .move o => o.ok
  | .sem op o => o.ok && decide (op ≤ 1)
  | .branch c o => o.ok c
  | .att op o => o.ok op
  | .win op o => o.ok op
  | .nest o => o.ok

/-- The fields that check 9 judges: all but a NEST's contexts, which Table 04-13 names under check 22. -/
def CoreInsn.loadOk : CoreInsn → Bool
  | .nest o => o.fieldsOk
  | i => i.ok

/-- The instruction a word holds, where the word passes check 9 as to R86: no reserved opcode, no reserved bit, every field in
range. -/
def checkedInsn (w : Nat) : Option CoreInsn :=
  match CoreInsn.ofWord w with
  | none => none
  | some i => if decide (reservedBits (bits w 127 122) w = 0) && i.loadOk then some i else none

end Sys2Proof.Machine
end

