-- ==== Sys2Proof/Machine/Flags.lean ====
section
/-! DEFINITION. The arithmetic flags (R65, R68, Table 02-8): what a drain of a wide or long accumulator raises.
Vector and special functions raise theirs in the conversion that computes the result (Num.lean). -/

namespace Sys2Proof.Machine

/-- Flags a drain raises from the special-value bits and `CUT` of what it drains (R65, R68). -/
def drainFlags (nan invalid pinf ninf : Bool) (cut : Nat) : Nat :=
  flagIf (decide (cut ≠ 0)) flagWindow ||| flagIf nan flagNanIn ||| flagIf (invalid || (pinf && ninf)) flagInvalid

/-- Flags raised by the drain of a wide entry. -/
def WideEntry.flags (e : WideEntry) : Nat := drainFlags e.nan e.invalid e.pinf e.ninf e.cut

/-- Flags raised by the drain of a long accumulator. -/
def LongAcc.flags (e : LongAcc) : Nat := drainFlags e.nan e.invalid e.pinf e.ninf e.cut

/-- The OR of a list of flag words. -/
def orAll (l : List Nat) : Nat := l.foldl (fun a b => a ||| b) 0

end Sys2Proof.Machine
end

