-- ==== Sys2Proof/Machine/Accum.lean ====
section
/-! DEFINITION. The two accumulators (02_exact_arithmetic.md): contributions, their exact placement, merges, images
and the one rounding of a drain. -/

namespace Sys2Proof.Machine

/-! ### Contributions (R53 to R55) -/

/-- One contribution: an exact value `v × 2^e`, or special values, which add nothing (R55). -/
structure Contrib where
  nan : Bool := false
  invalid : Bool := false
  pinf : Bool := false
  ninf : Bool := false
  v : Int := 0
  e : Int := 0
  deriving DecidableEq, Repr

/-- Is the contribution special? Log entry 17 applies (DEDUCED). -/
def Contrib.special (c : Contrib) : Bool := c.nan || c.invalid || c.pinf || c.ninf

/-- The exact sum of a list of finite values, as a numerator and an exponent; specials count as zero. -/
def sumFin : List (FVal × Nat) → Int × Int
  | [] => (0, 0)
  | (.fin s m e, _) :: l =>
    let r := sumFin l
    if m = 0 then r else if r.1 = 0 then (sgn s m, e) else addFin (sgn s m) e r.1 r.2
  | _ :: l => sumFin l

/-- One contribution from the products of a block, each with the flag of Table 02-8 that its NaN carries:
a NaN comes before an infinity; infinities of both signs set `PINF` and `NINF` (R53, R55). -/
def Contrib.ofProducts (l : List (FVal × Nat)) : Contrib :=
  let nan := l.any (fun p => p.1.isNaN && p.2 = flagNanIn)
  let inv := l.any (fun p => p.1.isNaN && p.2 = flagInvalid)
  let q := nan || inv
  let s := sumFin l
  ⟨nan, inv, !q && l.any (fun p => p.1 = .inf false), !q && l.any (fun p => p.1 = .inf true), s.1, s.2⟩

/-- One contribution from one value. -/
def Contrib.ofVal (x : FVal) : Contrib := .ofProducts [(x, flagNanIn)]

/-- A contribution onto a window whose last place is 2^lsb: what is added to VALUE, and whether bits were
cut (R60 steps 2 and 3). -/
def Contrib.place (c : Contrib) (lsb : Int) : Int × Bool :=
  let q := shiftInt c.v (c.e - lsb)
  (q, decide (shiftInt q (if 0 ≤ c.e - lsb then 0 else lsb - c.e) ≠ (if 0 ≤ c.e - lsb then q else c.v)))

/-- Is `|c| ≥ 2^top`? -/
def Contrib.atLeast (c : Contrib) (top : Int) : Bool :=
  if c.e ≤ top then decide (2 ^ (top - c.e).toNat ≤ c.v.natAbs) else decide (c.v ≠ 0)

/-! ### The wide accumulator -/

/-- A sum as an accumulator of `n` bits in two's complement holds it (R56, R69). -/
def heldIn (n : Nat) (x : Int) : Int := signed n (unsigned n x)

/-- The entry cleared, with an anchor. -/
def WideEntry.cleared (a : Int) : WideEntry := { anchor := a }

/-- Add one contribution; none where it faults with WINDOW: COUNT past 2^31, or |c| ≥ 2^A (R60, R61). -/
def WideEntry.add (x : WideEntry) (c : Contrib) : Option WideEntry :=
  if 2 ^ 31 ≤ x.count then none
  else if c.special then
    some { x with nan := x.nan || c.nan, invalid := x.invalid || c.invalid, pinf := x.pinf || c.pinf,
                  ninf := x.ninf || c.ninf, count := x.count + 1 }
  else if c.atLeast x.anchor then none
  else
    let p := c.place (x.anchor - 160)
    some { x with value := heldIn 192 (x.value + p.1), count := x.count + 1, cut := min 2 (x.cut + b2n p.2),
                  sticky := x.sticky || p.2 }

/-- Add contributions in turn. -/
def WideEntry.addAll : WideEntry → List Contrib → Option WideEntry
  | x, [] => some x
  | x, c :: l => match x.add c with
    | none => none
    | some y => WideEntry.addAll y l

/-- Merge of two partial entries: OK with the merged entry, VERIFY for different anchors of two entries that
are not empty, WINDOW for a COUNT above 2^31 (R62). -/
def WideEntry.merge (x y : WideEntry) : Status × WideEntry :=
  if y.isEmpty then (.ok, x)
  else if !x.isEmpty && decide (x.anchor ≠ y.anchor) then (.verify, x)
  else if 2 ^ 31 < x.count + y.count then (.window, x)
  else
    (.ok, { value := heldIn 192 ((if x.isEmpty then 0 else x.value) + y.value), anchor := y.anchor,
            cut := min 2 ((if x.isEmpty then 0 else x.cut) + y.cut),
            sticky := (!x.isEmpty && x.sticky) || y.sticky, nan := x.nan || y.nan,
            invalid := x.invalid || y.invalid, pinf := x.pinf || y.pinf, ninf := x.ninf || y.ninf,
            count := x.count + y.count })

/-- The 256-bit image of an entry (Table 02-6). -/
def WideEntry.image (e : WideEntry) : Nat :=
  unsigned 192 e.value + unsigned 10 e.anchor * 2 ^ 192 + e.cut * 2 ^ 202 + b2n e.sticky * 2 ^ 204
    + b2n e.nan * 2 ^ 205 + b2n e.pinf * 2 ^ 206 + b2n e.ninf * 2 ^ 207 + e.count * 2 ^ 208
    + b2n e.invalid * 2 ^ 240

/-- The entry of an image; none where R63 refuses it. -/
def WideEntry.ofImage (w : Nat) : Option WideEntry :=
  let a := signed 10 (bits w 201 192)
  if bits w 203 202 = 3 || decide (a < -320) || decide (320 < a) || decide (2 ^ 31 < bits w 239 208)
      || decide (bits w 255 241 ≠ 0) then none
  else
    some { value := signed 192 (bits w 191 0), anchor := a, cut := bits w 203 202, sticky := bit w 204,
           nan := bit w 205, pinf := bit w 206, ninf := bit w 207, count := bits w 239 208, invalid := bit w 240 }

/-! ### The one rounding of a drain (R64, R67, R74) -/

/-- An accumulator's held value in format `c`: NaN, infinity or the rounded value, with the flags of the
conversion. `lsb` is the window's last place; STICKY adds an infinitesimal positive amount, but takes no part
under STOCH. -/
def accConv (c code : Nat) (nan invalid pinf ninf sticky : Bool) (v : Int) (lsb : Int) (rnd : Nat → Nat) : Conv :=
  if nan || invalid || (pinf && ninf) then ⟨if c = 10 then 0 else canonicalNaN c, 0⟩
  else if pinf || ninf then (if c = 10 then satInt 32 ninf else ⟨infBits c ninf, 0⟩)
  else
    let neg := decide (v < 0)
    let eps : Int := if !sticky then 0 else if code = 5 && decide (v ≠ 0) then 0 else if neg then -1 else 1
    if c = 10 then roundInt 32 code neg v.natAbs lsb eps lsb rnd
    else roundFloat c code neg v.natAbs lsb eps lsb rnd

/-- One wide entry converted to FP32, BF16, FP16 or INT32. Log entry 23 applies (DEDUCED). -/
def WideEntry.drain (e : WideEntry) (c code : Nat) (rnd : Nat → Nat) : Conv :=
  let r := accConv c code e.nan e.invalid e.pinf e.ninf e.sticky e.value (e.anchor - 160) rnd
  ⟨r.bits, r.flags ||| e.flags⟩

/-- `E` of R67, the exponent that the largest element of a block is scaled to. -/
def mxTop : Nat → Int
  | 3 => 8 | 4 => 15 | 5 => 4 | 6 => 2 | 7 => 2 | _ => 0

/-- Is the entry's result finite? -/
def WideEntry.isFin (e : WideEntry) : Bool := !(e.nan || e.invalid || e.pinf || e.ninf)

/-- Is the entry's result a NaN? -/
def WideEntry.isNaN (e : WideEntry) : Bool := e.nan || e.invalid || (e.pinf && e.ninf)

/-- floor(log2 |v|) of a finite entry that is not zero; an entry whose infinitesimal makes it fall just below a
power of two counts below it. -/
def WideEntry.log (e : WideEntry) : Option Int :=
  if e.isFin && decide (e.value ≠ 0) then
    let m := e.value.natAbs
    let down := e.sticky && decide (e.value < 0) && decide (m = 2 ^ log2 m)
    some ((log2 m : Int) + (e.anchor - 160) - (if down then 1 else 0))
  else none

/-- The larger of two optional integers. -/
def maxOpt : Option Int → Option Int → Option Int
  | none, b => b
  | a, none => a
  | some a, some b => some (max a b)

/-- X of R67 for a block: −127 for a block of zeros. DESIGN CHOICE (log entry 125): in a block that holds an infinity or a NaN
the maximum runs over the finite results only. -/
def mxScale (c : Nat) (l : List (Option WideEntry)) : Int :=
  match l.foldl (fun a x => maxOpt a (x.bind WideEntry.log)) none with
  | none => -127
  | some g => max (-127) (min 127 (g - mxTop c))

/-- One element of an MX block: v / 2^X rounded once and saturated to the largest finite element; an infinity in
a format without one becomes a NaN, and a NaN the format's NaN (R48, R67). -/
def mxElem (c code : Nat) (x : Int) (rnd : Nat → Nat) (e : WideEntry) : Conv :=
  if e.isNaN then ⟨canonicalNaN c, e.flags⟩
  else if !e.isFin then ⟨if fmtHasInf c then infBits c e.ninf else canonicalNaN c, e.flags⟩
  else
    let neg := decide (e.value < 0)
    let eps : Int := if !e.sticky then 0 else if code = 5 && decide (e.value ≠ 0) then 0 else if neg then -1 else 1
    let lsb := e.anchor - 160 - x
    let r := if c = 8 then
        let y := sgn neg (roundAt code neg e.value.natAbs lsb eps (-6) lsb rnd)
        (⟨unsigned 8 (max (-128) (min 127 y)), 0⟩ : Conv)
      else roundFloat c code neg e.value.natAbs lsb eps lsb rnd
    ⟨r.bits, (r.flags &&& flagTiny) ||| e.flags⟩

/-- One output block: element bits, scale code and flags; `none` is a masked element, written as zero. In a
format without an element NaN, any NaN or infinity makes the whole block NaN: scale 0xFF and element bits zero
(R48, R67, R111). -/
def mxBlock (c code : Nat) (rnd : Nat → Nat → Nat) (l : List (Option WideEntry)) : List Nat × Nat × Nat :=
  let fl := orAll (l.map (fun e => (e.map WideEntry.flags).getD 0))
  if !(c = 3 || c = 4) && l.any (fun e => (e.map (fun x => !x.isFin)).getD false) then
    (l.map (fun _ => 0), 255, fl)
  else
    let x := mxScale c l
    let r := l.mapIdx (fun i e => match e with
      | none => (⟨0, 0⟩ : Conv)
      | some y => mxElem c code x (rnd i) y)
    (r.map (·.bits), (x + 127).toNat, fl ||| orAll (r.map (·.flags)))

/-! ### The long accumulator -/

/-- Weight of bit 0 (Table 02-9). -/
def LongAcc.lsb (a : LongAcc) : Int := if a.product then -224 else -149

/-- Limit of COUNT (Table 02-9). -/
def longLimit (product : Bool) : Nat := if product then 2 ^ 31 else 2 ^ 42

/-- Add one input; none where it faults with WINDOW: COUNT past its limit, or a product of 2^64 or more (R70). -/
def LongAcc.add (x : LongAcc) (c : Contrib) : Option LongAcc :=
  if longLimit x.product ≤ x.count then none
  else if c.special then
    some { x with nan := x.nan || c.nan, invalid := x.invalid || c.invalid, pinf := x.pinf || c.pinf,
                  ninf := x.ninf || c.ninf, count := x.count + 1 }
  else if x.product && c.atLeast 64 then none
  else
    let p := c.place x.lsb
    some { x with value := heldIn 320 (x.value + p.1), count := x.count + 1, cut := min 2 (x.cut + b2n p.2),
                  sticky := x.sticky || p.2 }

/-- Merge of an image into an accumulator of the same mode (R154): VERIFY for another mode, WINDOW for a COUNT past
its limit. -/
def LongAcc.merge (x y : LongAcc) : Status × LongAcc :=
  if x.product ≠ y.product then (.verify, x)
  else if longLimit x.product < x.count + y.count then (.window, x)
  else
    (.ok, { x with value := heldIn 320 (x.value + y.value), cut := min 2 (x.cut + y.cut), sticky := x.sticky || y.sticky,
                   nan := x.nan || y.nan, invalid := x.invalid || y.invalid, pinf := x.pinf || y.pinf,
                   ninf := x.ninf || y.ninf, count := x.count + y.count })

/-- The 384-bit image (Table 02-10). -/
def LongAcc.image (e : LongAcc) : Nat :=
  unsigned 320 e.value + b2n e.product * 2 ^ 320 + e.cut * 2 ^ 321 + b2n e.sticky * 2 ^ 323
    + b2n e.nan * 2 ^ 324 + b2n e.pinf * 2 ^ 325 + b2n e.ninf * 2 ^ 326 + b2n e.invalid * 2 ^ 327
    + e.count * 2 ^ 328

/-- The accumulator of an image; none where R72 refuses it. -/
def LongAcc.ofImage (w : Nat) : Option LongAcc :=
  let product := bit w 320
  let cut := bits w 322 321
  if cut = 3 || decide (longLimit product < bits w 370 328)
      || (!product && (decide (cut ≠ 0) || bit w 323 || bit w 327)) || decide (bits w 383 371 ≠ 0) then none
  else
    some { product, value := signed 320 (bits w 319 0), cut, sticky := bit w 323, nan := bit w 324,
           pinf := bit w 325, ninf := bit w 326, invalid := bit w 327, count := bits w 370 328 }

/-- V / d as an integer of weight 2^(lsb − 400) with the sign of what division leaves over: exact enough for one
correct rounding to any output format. -/
def longDiv (v : Int) (d : Nat) : Nat × Bool := ((v.natAbs * 2 ^ 400) / d, decide ((v.natAbs * 2 ^ 400) % d ≠ 0))

/-- Drain of a long accumulator to FP32, BF16 or FP16, with an optional divisor; a divisor of 0 gives the
canonical NaN and INVALID (R71). Log entry 23 applies (DEDUCED). -/
def LongAcc.drain (e : LongAcc) (c code : Nat) (div : Option Nat) (rnd : Nat → Nat) : Conv :=
  match div with
  | none =>
    let r := accConv c code e.nan e.invalid e.pinf e.ninf e.sticky e.value e.lsb rnd
    ⟨r.bits, r.flags ||| e.flags⟩
  | some d =>
    if d = 0 then ⟨canonicalNaN c, e.flags ||| flagInvalid⟩
    else
      let special := e.nan || e.invalid || e.pinf || e.ninf
      if special then
        let r := accConv c code e.nan e.invalid e.pinf e.ninf e.sticky 0 e.lsb rnd
        ⟨r.bits, r.flags ||| e.flags⟩
      else
        let neg := decide (e.value < 0)
        let q := longDiv e.value d
        let eps : Int := if q.2 then 1 else if !e.sticky then 0 else if neg then -1 else 1
        let r := roundFloat c code neg q.1 (e.lsb - 400) eps (e.lsb - 400) rnd
        ⟨r.bits, r.flags ||| e.flags⟩

end Sys2Proof.Machine
end

