-- ==== Sys2Proof/Machine/Items.lean ====
section
/-! DEFINITION. Items of a nest (R119 to R126): descriptors, coordinates, effective extents and operand addresses. -/

namespace Sys2Proof.Machine

/-- Bytes [off, off + n) of a record read as one little-endian number. -/
def byteField (w off n : Nat) : Nat := bits w (8 * (off + n) - 1) (8 * off)

/-! ### Descriptors (Tables 04-8 to 04-10) -/

/-- Level i of a descriptor. -/
def NestLevel.ofNum (w i : Nat) : NestLevel :=
  let o := 64 + 32 * i
  ⟨byteField w o 4, byteField w (o + 4) 1, byteField w (o + 5) 1,
    tab 4 (fun j => signed 40 (byteField w (o + 8 + 5 * j) 5))⟩

/-- Operand j of a descriptor. -/
def NestOperand.ofNum (w j : Nat) : NestOperand :=
  let o := 256 + 32 * j
  ⟨byteField w o 1, byteField w (o + 1) 1, byteField w (o + 2) 1, byteField w (o + 4) 5, byteField w (o + 9) 5,
    signed 40 (byteField w (o + 16) 5), byteField w (o + 24) 4⟩

/-- The descriptor in a 512-byte record. -/
def NestDesc.ofNum (w : Nat) : NestDesc :=
  { kind := byteField w 1 1, committed := decide (byteField w 2 1 = 1), split := byteField w 3 1,
    chunk := byteField w 4 2, mTile := byteField w 6 1, nTile := byteField w 8 2, kTile := byteField w 10 2,
    mLog := byteField w 16 5, nLog := byteField w 21 5, kLog := byteField w 26 5, g := byteField w 32 6,
    counterOff := byteField w 40 4, slotOff := byteField w 44 4, slotCount := byteField w 48 4,
    logOff := byteField w 52 4, templateAdj := byteField w 56 2, templateLocal := byteField w 58 2,
    csStep := byteField w 60 4, levels := tab 6 (NestLevel.ofNum w), operands := tab 4 (NestOperand.ofNum w),
    template := tab 16 (fun i => byteField w (384 + 8 * i) 8) }

/-- Product of the six bounds. -/
def NestDesc.bounds (d : NestDesc) : Nat := d.levels.foldl (fun a l => a * l.bound) 1

/-- Items of the nest (R123). -/
def NestDesc.total (d : NestDesc) : Nat := (if d.kind = 0 then d.split else 1) * d.bounds

/-- Element bytes of one block of an MX format, 1 for others (R123). -/
def rb (c : Nat) : Nat := if isMX c then blockBytes c else 1

/-! ### Items (R123) -/

/-- Coordinates by level, from rank 5 (innermost) to rank 0. -/
def coordsFrom (levels : List NestLevel) : Nat → Nat → List (Nat × Nat)
  | 0, _ => []
  | n + 1, r =>
    match (List.range levels.length).find? (fun i => (nth ⟨1, 6, 0, []⟩ levels i).rank = n) with
    | none => coordsFrom levels n r
    | some i =>
      let b := (nth ⟨1, 6, 0, []⟩ levels i).bound
      (i, r % b) :: coordsFrom levels n (r / b)

/-- Coordinate of level i in item t. -/
def NestDesc.coord (d : NestDesc) (t i : Nat) : Nat := SMap.get 0 (coordsFrom d.levels 6 t) i

/-- Part and output tile of an item. -/
def NestDesc.part (d : NestDesc) (i : Nat) : Nat := i % (if d.kind = 0 then d.split else 1)
def NestDesc.tileOf (d : NestDesc) (i : Nat) : Nat := i / (if d.kind = 0 then d.split else 1)

/-- Displacement of operand j in item i. -/
def NestDesc.disp (d : NestDesc) (i j : Nat) : Int :=
  let op := nth ⟨255, 0, 255, 0, 0, 0, 0⟩ d.operands j
  (d.part i : Int) * op.kstep +
    (tab 6 (fun l => (d.coord (d.tileOf i) l : Int) * nth 0 (nth ⟨1, 6, 0, []⟩ d.levels l).strides j)).foldl (· + ·) 0

/-- Rows, columns or K inside the logical extent of an item. -/
def NestDesc.effective (d : NestDesc) (i role tile log : Nat) : Nat :=
  match (List.range 6).find? (fun l => (nth ⟨1, 6, 0, []⟩ d.levels l).role = role) with
  | none => min tile log
  | some l => min tile (log - d.coord (d.tileOf i) l * tile)

def NestDesc.mEff (d : NestDesc) (i : Nat) : Nat := d.effective i 1 d.mTile d.mLog
def NestDesc.nEff (d : NestDesc) (i : Nat) : Nat := d.effective i 2 d.nTile d.nLog
def NestDesc.kEff (d : NestDesc) (i : Nat) : Nat := min d.kTile (d.kLog - d.part i * d.kTile)

/-! ### The module's own addresses -/

/-- MODULE_ID of the structure image. -/
def State.moduleId (s : State) : Nat := (s.boot.image.map (fun im => im.fabric.moduleId)).getD 0

/-- A local address as a fabric address of this module (R29). -/
def State.fabricAddr (s : State) (a : Nat) : Nat := s.moduleId * 2 ^ 40 + a

/-- Buffer i of the job's program. -/
def State.buf (s : State) (i : Nat) : Option Buf := (s.sched.run.bind (·.prog)).bind (fun p => p.bufs[i]?)

/-- Base of the exchange buffer; 0 where the job has none. -/
def State.exchBase (s : State) : Nat := (s.exchBuf.map (·.base)).getD 0

/-- Element and scale address of operand j in item i, as Table 04-11 writes them; 0 for an unused operand, and for the scales of
one that has none. Log entry 138 applies (DESIGN CHOICE). -/
def State.operandAddrs (s : State) (d : NestDesc) (i j : Nat) : Nat × Nat :=
  let op := nth ⟨255, 0, 255, 0, 0, 0, 0⟩ d.operands j
  if op.buf = 255 then (0, 0)
  else
    let at' := fun (b off : Nat) (x : Int) => s.fabricAddr ((((s.buf b).map (·.base)).getD 0 + off : Nat) + x).toNat
    let dd := d.disp i j
    (at' op.buf op.offset dd,
      if isMX (op.fmt % 16) then at' op.scaleBuf op.scaleOffset (dd.fdiv (rb (op.fmt % 16))) else 0)

end Sys2Proof.Machine
end

