-- ==== Sys2Proof/Machine/Streams.lean ====
section
/-! DEFINITION. Lane streams of random bits (R237 to R241, 09_random_and_sampling.md). -/

namespace Sys2Proof.Machine

def m64 : Nat := 2 ^ 64
def m128 : Nat := 2 ^ 128

/-- The multiplying mixer of R239. -/
def mix (x : Nat) : Nat :=
  let x1 := ((x ^^^ (x >>> 31)) * 0xb5e396a1d4c72f0b) % m64
  let x2 := ((x1 ^^^ (x1 >>> 29)) * 0x8c2f5d173e9a64c5) % m64
  x2 ^^^ (x2 >>> 32)

/-- An effective stream name (R238). -/
structure StreamName where
  seed : Nat
  purpose : Nat
  coord : Nat
  deriving DecidableEq, Repr

/-! ### The polynomial table (R240) -/

/-- Product in GF(2)[x] modulo x^128 + c, by the lowest `n` bits of the second factor. -/
def polyMul (c : Nat) : Nat → Nat → Nat → Nat
  | 0, _, _ => 0
  | n + 1, a, b =>
    let t := (a * 2) % m128
    (if b % 2 = 1 then a else 0) ^^^ polyMul c n (if a / 2 ^ 127 = 1 then t ^^^ c else t) (b / 2)

/-- x to a power of at most `n` bits modulo x^128 + c. -/
def polyPow (c : Nat) : Nat → Nat → Nat → Nat
  | 0, _, _ => 1
  | n + 1, x, e =>
    let r := polyPow c n (polyMul c 128 x x) (e / 2)
    if e % 2 = 1 then polyMul c 128 x r else r

/-- The prime factors of 2^128 − 1. -/
def polyPrimes : List Nat := [3, 5, 17, 257, 641, 65537, 274177, 6700417, 67280421310721]

/-- Is x^128 + c primitive: is the order of x modulo it 2^128 − 1? -/
def polyPrimitive (c : Nat) : Bool :=
  polyPow c 128 2 (m128 - 1) = 1 && polyPrimes.all (fun q => decide (polyPow c 128 2 ((m128 - 1) / q) ≠ 1))

/-- Entry p of the polynomial table: the free value with c_0 set where that is primitive, else x^128 + x^7 + x^2 + x + 1,
which is, so that every entry is the vector of a primitive polynomial (R240). Log entry 38 applies (DESIGN CHOICE). -/
def polyEntry (p : Nat) : Nat :=
  let c := (Config.polyTable p).toNat ||| 1
  if polyPrimitive c then c else 0x87

/-- The starting state and the feedback vector of a lane stream (R239). -/
def StreamName.start (n : StreamName) (sub : Nat) : Nat × Nat :=
  let h0 := mix ((n.seed ^^^ 0x3d71a4e295c80f37) % m64)
  let h1 := mix (h0 ^^^ ((n.purpose * 2 ^ 48) % m64) ^^^ n.coord)
  let h2 := mix (h1 ^^^ sub)
  let h3 := mix (h2 ^^^ 0xe4b10c6d7a3592f9)
  let s := h2 * m64 + h3
  (if s = 0 then 1 else s, polyEntry (h3 >>> 52))

/-- One Galois step (R239). -/
def galois (c s : Nat) : Nat :=
  let t := (s * 2) % m128
  if s / 2 ^ 127 = 1 then t ^^^ c else t

/-- `n` steps. -/
def galoisN (c : Nat) : Nat → Nat → Nat
  | 0, s => s
  | n + 1, s => galoisN c n (galois c s)

/-- Rotate a 64-bit number left by 17. -/
def rotl17 (x : Nat) : Nat := (x * 2 ^ 17) % m64 + x / 2 ^ 47

/-- Output word of a state (R239). -/
def streamOut (t : Nat) : Nat := mix ((t / m64) ^^^ rotl17 (t % m64)) % 2 ^ 32

/-- Words w_k, …, w_(k+n−1) of a lane stream as one little-endian number (R239, R241). -/
def streamWords (c : Nat) : Nat → Nat → Nat
  | 0, _ => 0
  | n + 1, s =>
    let t := galoisN c 32 s
    streamOut t + 2 ^ 32 * streamWords c n t

/-- Word w_k of a lane stream. -/
def StreamName.word (n : StreamName) (sub k : Nat) : Nat :=
  let st := n.start sub
  streamOut (galoisN st.2 (32 * (k + 1)) st.1)

/-- The first `c` bits of a lane stream from word 0 (R241). -/
def StreamName.take (n : StreamName) (sub c : Nat) : Nat :=
  let st := n.start sub
  streamWords st.2 ((c + 31) / 32) st.1 % 2 ^ c

/-- The seed base latched for the running job (R259, R260). -/
def State.seedBase (s : State) : Nat := (s.sched.run.map (·.seedBase)).getD 0

/-- The effective name of the pair at scalar register n (R237, R238); none where `ITEM` is used outside a
nest body. -/
def State.streamName (s : State) (t : Site) (n : Nat) : Option StreamName :=
  let c := s.ctx t
  let w0 := (c.sreg n).toNat
  let w1 := (c.sreg (n + 1)).toNat
  let item := bit w1 63
  if item && !c.inBody then none
  else
    some { seed := if bit w1 62 then w0 ^^^ s.seedBase else w0
           purpose := bits w1 61 48
           coord := (bits w1 47 0 + (if item then (c.sreg 12).toNat else 0)) % 2 ^ 48 }

end Sys2Proof.Machine
end

