-- ==== Sys2Proof/Machine/Matrix.lean ====
section
/-! DEFINITION. The matrix engine, the accumulator file and the exchange slots (02_exact_arithmetic.md, R88 to R99,
R110 to R114, R125, R126): MMA, DRAIN, CLEARB, XMAX, XMERGE and the slot's atomic unit. -/

namespace Sys2Proof.Machine

/-! ### Operands in the core store -/

/-- The local address of the instruction a context stands at. Log entry 19 applies (DESIGN CHOICE). -/
def State.pcAddr (s : State) (t : Site) : Nat := csAddr t.core (s.ctx t).pc

/-- Reach of a list of accesses (offset, bytes) into a core store: the lowest status of those that fail, with
the first address that gives it (R18, R101). -/
def State.reachAll (s : State) (core : Nat) (l : List (Nat × Nat)) : Status × Nat :=
  firstLowest (l.map (fun p => (s.csReach p.1 p.2, csAddr core p.1)))

/-- The output address of an operation whose window is exceeded (R60): in a body the element address of operand 2 in the
item, else the address of the instruction. Log entry 19 applies (DESIGN CHOICE). -/
def State.outAddr (s : State) (t : Site) : Nat :=
  match s.sched.run.bind (·.nest), (s.ctx t).item with
  | some r, some it =>
    let a := (s.operandAddrs r.desc it.index 2).1
    if (s.ctx t).inBody && decide (a ≠ 0) then a % 2 ^ 40 else s.pcAddr t
  | _, _ => s.pcAddr t

/-- A matrix operand: format, element and scale words, K. -/
structure MatOp where
  fmt : Nat
  elem : Word
  scale : Word
  k : Nat

/-- 32-element blocks in K. -/
def MatOp.nb (p : MatOp) : Nat := (p.k + 31) / 32

/-- Offset of row (or column) i, and of its scale run. -/
def MatOp.rowOff (p : MatOp) (i : Nat) : Nat := awOffset p.elem + i * awStride p.elem
def MatOp.scaleOff (p : MatOp) (i : Nat) : Nat := awOffset p.scale + i * awStride p.scale

/-- Status of the address words (R87); the scale word is ignored for other formats. -/
def MatOp.status (p : MatOp) : Status :=
  Status.lowest [awStatus p.elem 64, if isMX p.fmt then awStatus p.scale 32 else .ok]

/-- The accesses that read row i: its elements where `elems` is set, and its scales. -/
def MatOp.accesses (p : MatOp) (elems : Bool) (i : Nat) : List (Nat × Nat) :=
  (if elems then [(p.rowOff i, p.nb * blockBytes p.fmt)] else []) ++
    (if isMX p.fmt then [(p.scaleOff i, p.nb)] else [])

/-- A value under a block scale code: 0xFF makes it NaN (R47). -/
def scaled (c : Nat) (x : FVal) : FVal :=
  if c = 255 then .nan
  else match x with
    | .fin s m e => .fin s m (e + c - 127)
    | y => y

/-- Elements of block j of row i that lie below K (R49, R50); the block's scale applied. -/
def State.blockVals (s : State) (core : Nat) (p : MatOp) (i j : Nat) : List FVal :=
  let bb := blockBytes p.fmt
  let w := s.num (csAddr core (p.rowOff i + j * bb)) bb
  let c := if isMX p.fmt then (s.byte (csAddr core (p.scaleOff i + j))).toNat else 127
  tab (min 32 (p.k - 32 * j)) (fun e => scaled c (decodeElem p.fmt (elemAt p.fmt w e)))

/-- All blocks of row i. -/
def State.rowBlocks (s : State) (core : Nat) (p : MatOp) (i : Nat) : List (List FVal) :=
  tab p.nb (s.blockVals core p i)

/-- The largest of a list of optional integers, `d` where there is none. Log entry 22 applies (DEDUCED). -/
def topOf (d : Int) (l : List (Option Int)) : Int := (l.foldl maxOpt none).getD d

/-- The unbiased exponent of a finite non-zero element with `mb` mantissa bits; −126 for FP32 and BF16
subnormals (R52). -/
def expOf (mb : Nat) : FVal → Option Int
  | .fin _ m e => if m = 0 then none else some (e + mb)
  | _ => none

/-- RA_m or CB_n of a row (R57). A row of an MX operand whose every scale is 0xFF takes −127.
Log entry 22 applies (DEDUCED). -/
def State.rowTop (s : State) (core : Nat) (p : MatOp) (i : Nat) : Int :=
  if isMX p.fmt then
    topOf (-127) (tab p.nb (fun j =>
      let c := (s.byte (csAddr core (p.scaleOff i + j))).toNat
      if c = 255 then none else some ((c : Int) - 127)))
  else if p.fmt = 1 then
    topOf (-126) (((s.rowBlocks core p i).flatMap id).map (expOf 7))
  else 0

/-- Contributions of one pair of blocks: one exact sum, or for BF16 each product (R53, R54). -/
def blockContribs (fmt : Nat) (a b : List FVal) : List Contrib :=
  let ps := List.zipWith mulVal a b
  if fmt = 1 then ps.map (fun p => Contrib.ofProducts [p]) else [Contrib.ofProducts ps]

/-- Contributions of a row of A and a column of B. -/
def rowContribs (fmt : Nat) (a b : List (List FVal)) : List Contrib :=
  (List.zipWith (blockContribs fmt) a b).flatMap id

/-! ### Tiles -/

/-- A tile: first bank, shape and unmasked rows and columns. -/
structure Tile where
  bank : Nat
  m : Nat
  n : Nat
  rows : List Nat
  cols : List Nat

/-- The unmasked entries. -/
def Tile.entries (x : Tile) : List (Nat × Nat) := x.rows.flatMap (fun m => x.cols.map (fun n => (m, n)))

/-- Key of entry (m, n) in the accumulator file (R89). -/
def Tile.key (x : Tile) (m n : Nat) : Nat := entryKey x.bank m n x.m x.n

/-- The tile an instruction names, with its bank increased in a body (R89, R90, R125). -/
def State.tile (s : State) (t : Site) (bank m n rowMask colMask : Nat) : Tile :=
  ⟨bank + s.bankShift t, m, n, (s.ctx t).unmasked rowMask m, (s.ctx t).unmasked colMask n⟩

/-- Every row and column of the shape (XMERGE carries no mask, R97). -/
def Tile.whole (x : Tile) : Tile := { x with rows := List.range x.m, cols := List.range x.n }

/-- Entry with a key of the accumulator file; a cleared one is empty (R92). -/
def Core.entry (c : Core) (k : Nat) : WideEntry := SMap.get {} c.wide k

/-- K of an MMA or XMAX as issued: in a body, `K_TILE` becomes K_EFF where K_EFF is less (R126). -/
def State.issuedK (s : State) (t : Site) (kM1 : Nat) : Nat :=
  match s.sched.run.bind (·.nest), (s.ctx t).item with
  | some r, some it =>
    let ke := r.desc.kEff it.index
    if (s.ctx t).inBody && decide (ke < r.desc.kTile) && kM1 + 1 = r.desc.kTile then ke else kM1 + 1
  | _, _ => kM1 + 1

/-! ### MMA (R57 to R61, R88, R96) -/

/-- Operands A and B of an MMA. -/
def State.mmaA (s : State) (t : Site) (o : MmaOps) : MatOp :=
  ⟨o.fmtA, (s.ctx t).sreg o.aReg, (s.ctx t).sreg (o.aReg + 1), s.issuedK t o.kM1⟩
def State.mmaB (s : State) (t : Site) (o : MmaOps) : MatOp :=
  ⟨o.fmtB, (s.ctx t).sreg o.bReg, (s.ctx t).sreg (o.bReg + 1), s.issuedK t o.kM1⟩

/-- C(m, n), an FP32 value (R527). -/
def State.cVal (s : State) (core : Nat) (w : Word) (m n : Nat) : FVal :=
  decodeElem 0 (s.num (csAddr core (awOffset w + m * awStride w + 4 * n)) 4)

/-- Where the anchors of a clearing matrix instruction come from. -/
inductive AnchorFrom where
  | fixed (a : Int)
  | scan
  | slot (addr : Nat)
  | held

/-- The anchor of entry (m, n) under R57 and R96. -/
def State.anchorOf (s : State) (src : AnchorFrom) (t : Int) (ra cb : Int) (m n : Nat) (c : Option FVal) (held : Int) : Int :=
  match src with
  | .fixed a => a
  | .held => held
  | .slot addr => (s.slotRowMax addr m : Int) + (s.slotColMax addr n : Int) - 0x10000 + t
  | .scan =>
    let a := ra + cb + t
    match c.bind (expOf 23) with
    | none => a
    | some e => max a (e + 1)

/-- Rows of an operand with their maxima. -/
def State.readRows (s : State) (core : Nat) (p : MatOp) (l : List Nat) : List (Nat × List (List FVal) × Int) :=
  l.map (fun i => (i, s.rowBlocks core p i, s.rowTop core p i))

/-- The entries of a tile after one matrix instruction; none where some entry faults with WINDOW. -/
def State.accumulate (s : State) (core : Nat) (x : Tile) (fmt : Nat) (clear : Bool) (src : AnchorFrom) (t : Int)
    (as' bs : List (Nat × List (List FVal) × Int)) (cTile : Option Word) : Option (List (Nat × WideEntry)) :=
  as'.foldl (fun acc a => bs.foldl (fun acc b =>
    match acc with
    | none => none
    | some w =>
      let k := x.key a.1 b.1
      let old := SMap.get {} w k
      let c := cTile.map (fun cw => s.cVal core cw a.1 b.1)
      let e0 := if clear then WideEntry.cleared (s.anchorOf src t a.2.2 b.2.2 a.1 b.1 c old.anchor) else old
      match e0.addAll ((c.map Contrib.ofVal).toList ++ rowContribs fmt a.2.1 b.2.1) with
      | none => none
      | some e => some (SMap.set {} w k e)) acc)
    (some (s.core core).wide)

/-- Key of a slot and an owner bank in `anchored`. Log entry 48 applies (DESIGN CHOICE). -/
def anchorMark (slot bank : Nat) : Nat := 4 * slot + bank

/-- The owner's anchors for a slot are set (R93). -/
def State.markAnchored (s : State) (core slot bank : Nat) : State :=
  let k := s.core core
  if k.anchored.contains (anchorMark slot bank) then s
  else s.setCore core { k with anchored := anchorMark slot bank :: k.anchored }

/-- The matrix step shared by MMA and WIN MMA, once its anchors are known. -/
def State.matrixStep (s : State) (t : Site) (x : Tile) (fmt : Nat) (clear : Bool) (src : AnchorFrom) (tt : Int)
    (as' bs : List (Nat × List (List FVal) × Int)) (cTile : Option Word) (slot : Option Nat) : Eff :=
  match s.accumulate t.core x fmt clear src tt as' bs cTile with
  | none => .fault .window (s.outAddr t) s
  | some w =>
    let s1 := s.setCore t.core { s.core t.core with wide := w }
    .done (match slot with
      | none => s1
      | some a => s1.markAnchored t.core a x.bank)

/-- The slot an instruction names, and its status; none where the field is 0. -/
def State.slotOf (s : State) (t : Site) (reg : Nat) : Option Nat :=
  if reg = 0 then none else some (slotAddr ((s.ctx t).sreg reg))
def State.slotOk (s : State) (t : Site) (reg : Nat) : Status :=
  if reg = 0 then .ok else s.slotStatus ((s.ctx t).sreg reg) ((s.ctx t).sreg (reg + 1))

/-- The slot's words are read by the atomic unit; an uncorrectable one fails the operation (R528).
Log entry 25 applies (DEDUCED). -/
def State.slotRead (s : State) (core : Nat) (slot : Option Nat) : Status × State :=
  match slot with
  | none => (.ok, s)
  | some a => s.readCheck s.coreClass (.core core) a 1024

/-- Anchors of a matrix instruction: from the slot under SCAN with a slot, else by mode (R57, R96). -/
def anchorSource (mode anchor : Nat) (slot : Option Nat) : AnchorFrom :=
  match mode with
  | 1 => .fixed (anchorField anchor)
  | 2 => .held
  | _ => match slot with
    | some a => .slot a
    | none => .scan

/-- Does an instruction in this anchor mode wait for its slot's posts (R96)? -/
def State.postsMissing (s : State) (mode : Nat) (slot : Option Nat) : Bool :=
  match slot with
  | some a => mode = 0 && (s.slotParts a = 0 || decide (s.slotPosted a ≠ s.slotParts a))
  | none => false

/-- Posts that do not sum to the declared K (R96). -/
def State.postsWrong (s : State) (mode : Nat) (slot : Option Nat) : Bool :=
  match slot with
  | some a => mode = 0 && decide (s.slotKSum a ≠ s.slotKDecl a)
  | none => false

/-- The accesses of an MMA: rows of A, columns of B, and the entries of C. -/
def mmaReach (x : Tile) (a b : MatOp) (c : Option Word) : List (Nat × Nat) :=
  x.rows.flatMap (a.accesses true) ++ x.cols.flatMap (b.accesses true)
    ++ (match c with
      | none => []
      | some w => x.entries.map (fun e => (awOffset w + e.1 * awStride w + 4 * e.2, 4)))

/-- What an MMA is judged by at issue: banks, slot pair, address words and reach; the lowest status with its address
(R18, R87, R89, R94, R101). -/
def State.mmaCheck (s : State) (t : Site) (o : MmaOps) (x : Tile) (a b : MatOp) (c : Option Word) : Status × Nat :=
  let wst := Status.lowest [a.status, b.status, (c.map (fun w => awStatus w 64)).getD .ok]
  firstLowest [(Status.when (!bankOk x.bank x.m x.n) .verify, s.pcAddr t),
    (s.slotOk t o.xslotReg, (s.slotOf t o.xslotReg).getD 0), (wst, s.pcAddr t), s.reachAll t.core (mmaReach x a b c)]

/-- What a matrix instruction meets at its slot, once its operands are good (R96): an uncorrectable word, posts that are
missing, or a K that does not add up; else it goes on with the slot's words corrected. -/
def State.atSlot (s : State) (t : Site) (mode : Nat) (slot : Option Nat) (go : State → Eff) : Eff :=
  let ecc := s.slotRead t.core slot
  if ecc.1 ≠ .ok then .fault ecc.1 (slot.getD 0) ecc.2
  else if s.postsMissing mode slot then .hold (.slot (slot.getD 0)) s
  else if s.postsWrong mode slot then .fault .verify (slot.getD 0) s
  else go ecc.2

/-- The effect of MMA (R57 to R61, R88 to R90, R96). -/
def mmaEff (t : Site) (o : MmaOps) (s : State) : Eff :=
  let x := s.tile t o.bank (o.mM1 + 1) (o.nM1 + 1) o.rowMask o.colMask
  let slot := s.slotOf t o.xslotReg
  let a := s.mmaA t o
  let b := s.mmaB t o
  let c := if o.accC = 1 then some ((s.ctx t).sreg o.cReg) else none
  let bad := s.mmaCheck t o x a b c
  if bad.1 ≠ .ok then .fault bad.1 bad.2 s
  else s.atSlot t o.anchorMode slot (fun s1 =>
    s1.matrixStep t x o.fmtA (decide (o.clear = 1)) (anchorSource o.anchorMode o.anchor slot) (pairT o.fmtA o.fmtB)
      (s1.readRows t.core a x.rows) (s1.readRows t.core b x.cols) c slot)

/-- An ordinary instruction in flight. -/
def plainFlight (t : Site) (h : Hdr) : InFlight := { ctx := t.ctx, signal := h.signal }

/-- An instruction of class ACCUM in flight, with the banks that it names. -/
def accumFlight (t : Site) (h : Hdr) (banks : List Nat) : InFlight := { plainFlight t h with unit := .accum, banks }

/-- A matrix instruction in flight, with the banks that it names. -/
def matrixFlight (t : Site) (h : Hdr) (op : HeldOp) (banks : List Nat) : InFlight :=
  { plainFlight t h with isMma := true, unit := .matrix, holds := some op, banks }

/-- The banks of a shape from a bank field, shifted in a body (R89, R125). -/
def State.banksOf (s : State) (t : Site) (bank m n : Nat) : List Nat := tileBanks (bank + s.bankShift t) m n

/-- An MMA in flight. -/
def State.mmaFlight (s : State) (t : Site) (h : Hdr) (o : MmaOps) : InFlight :=
  matrixFlight t h .mma (s.banksOf t o.bank (o.mM1 + 1) (o.nM1 + 1))

/-- MMA (R88). -/
def execMma (t : Site) (h : Hdr) (o : MmaOps) (s : State) : Host.Outcome State Fault Refusal :=
  .next (s.issueAs t h (s.mmaFlight t h o) true o.ok (mmaEff t o))

/-- MMA_SLOT_MAXIMA_WAIT: a SCAN MMA that waits at its slot goes on once POSTED equals PARTS (R96). -/
def execMmaSlotMaximaWait (t : Site) (h : Hdr) (o : MmaOps) (s : State) : Host.Outcome State Fault Refusal :=
  .next (s.resume t h (s.mmaFlight t h o) .mma (mmaEff t o))

/-! ### DRAIN (R64, R67, R92, R97, R111, R113) -/

/-- Bytes of one element of a scalar output format. -/
def outBytes (c : Nat) : Nat := if c = 0 || c = 10 then 4 else 2

/-- The random bits of entry (m, n) under STOCH (Table 09-4). -/
def entryBits (nm : Option StreamName) (m n : Nat) : Nat → Nat :=
  match nm with
  | none => fun _ => 0
  | some x => fun c => x.take (256 * m + n) c

/-- A piece of output: where it goes, its bytes and its flags. -/
structure OutPiece where
  off : Nat
  bytes : List Byte
  flags : Nat

/-- Element (m, n) of a scalar output: converted where unmasked, the zero encoding in a hem under k1 or k2 in a
body, else not written (R113). Log entry 124 applies (DEDUCED). -/
def drainScalar (c : Core) (x : Tile) (o : DrainOps) (hemR hemC : Bool) (nm : Option StreamName) (w : Word) :
    List OutPiece :=
  let b := outBytes o.fmtOut
  let place := fun m n => awOffset w + m * awStride w + b * n
  (List.range x.m).flatMap (fun m => (List.range x.n).flatMap (fun n =>
    let rm := x.rows.contains m
    let cn := x.cols.contains n
    if rm && cn then
      let r := (c.entry (x.key m n)).drain o.fmtOut o.rnd (entryBits nm m n)
      [⟨place m n, leBytes b r.bits, r.flags⟩]
    else if (rm || hemR) && (cn || hemC) then [⟨place m n, leBytes b 0, 0⟩]
    else []))

/-- The bits of a list of elements of `w` bits packed little-endian (R49). -/
def packElems (w : Nat) : List Nat → Nat
  | [] => 0
  | e :: l => e % 2 ^ w + 2 ^ w * packElems w l

/-- Block j of row m of an MX output: its elements and its scale (R111, R113). Log entry 124 applies (DEDUCED). -/
def drainBlock (c : Core) (x : Tile) (o : DrainOps) (hemR hemC : Bool) (nm : Option StreamName) (w ws : Word)
    (m j : Nat) : List OutPiece :=
  let bb := blockBytes o.fmtOut
  let eOff := awOffset w + m * awStride w + j * bb
  let sOff := awOffset ws + m * awStride ws + j
  let rm := x.rows.contains m
  let live := tab 32 (fun i => if rm && x.cols.contains (32 * j + i) then some (c.entry (x.key m (32 * j + i))) else none)
  if live.any Option.isSome then
    let r := mxBlock o.fmtOut o.rnd (fun i => entryBits nm m (32 * j + i)) live
    [⟨eOff, leBytes bb (packElems (fmtBits o.fmtOut) r.1), r.2.2⟩, ⟨sOff, [BitVec.ofNat 8 r.2.1], 0⟩]
  else if (!rm && hemR) || (rm && hemC) then [⟨eOff, leBytes bb 0, 0⟩, ⟨sOff, [0], 0⟩]
  else []

/-- Everything a DRAIN writes. -/
def drainPieces (c : Core) (x : Tile) (o : DrainOps) (hemR hemC : Bool) (nm : Option StreamName) (w ws : Word) :
    List OutPiece :=
  if isMX o.fmtOut then
    (List.range x.m).flatMap (fun m => (List.range (x.n / 32)).flatMap (drainBlock c x o hemR hemC nm w ws m))
  else drainScalar c x o hemR hemC nm w

/-- Write pieces of output into a core store and OR their flags into the job (R68). -/
def State.putPieces (s : State) (core : Nat) (l : List OutPiece) : State :=
  (l.foldl (fun acc p => acc.putBytes (csAddr core p.off) p.bytes) s).orFlags (orAll (l.map (·.flags)))

/-- The accumulator file with every entry of a tile's shape cleared (R90). -/
def Core.clearTile (c : Core) (x : Tile) : Core :=
  let ks := x.whole.entries.map (fun e => x.key e.1 e.2)
  { c with wide := c.wide.filter (fun p => !ks.contains p.1) }

/-- A part of a context at a slot is over (R99): part 0 where `owner` is set, else another. -/
def State.closeSlot (s : State) (t : Site) (slot : Nat) (owner : Bool) : State :=
  s.setCtx t { s.ctx t with slots := (s.ctx t).slots.filter (fun p => decide (p ≠ (slot, owner))) }

/-- Open a slot for a context (R99); `owner` says that its part is part 0. -/
def State.openSlot (s : State) (t : Site) (slot : Nat) (owner : Bool) : State :=
  let c := s.ctx t
  if c.slots.contains (slot, owner) then s else s.setCtx t { c with slots := c.slots ++ [(slot, owner)] }

/-- The owner has drained: its slot is written back to empty, which closes it for the context that posted part 0 (R97,
R99). -/
def State.emptySlot (s : State) (t : Site) (slot bank : Nat) : State :=
  let s0 := s.zeroBytes slot 1024
  let s1 := ((s0.core t.core).ctxs.map (·.1)).foldl (fun a c => a.closeSlot ⟨t.core, c⟩ slot true) s0
  let k := s1.core t.core
  s1.setCore t.core { k with anchored := k.anchored.filter (fun a => decide (a ≠ anchorMark slot bank)) }

/-- Merges still missing at a slot (R97). -/
def State.mergesMissing (s : State) (slot : Nat) : Bool :=
  s.slotParts slot = 0 || decide (s.slotMerged slot + 1 ≠ s.slotParts slot)

/-- What a DRAIN writes where (R92, R113): its output address words, name of its random bits, and pieces. -/
def State.drainOut (s : State) (t : Site) (o : DrainOps) (x : Tile) (nm : Option StreamName) : List OutPiece :=
  let c := s.ctx t
  drainPieces (s.core t.core) x o (c.inBody && o.rowMask = 1) (c.inBody && o.colMask = 2) nm (c.sreg o.outReg) (c.sreg (o.outReg + 1))

/-- The slot that a DRAIN waits at; none without `OWNER_WAIT`. -/
def State.drainSlot (s : State) (t : Site) (o : DrainOps) : Option Nat :=
  if o.ownerWait = 1 then s.slotOf t o.xslotReg else none

/-- The name of the random bits of a DRAIN; none but under STOCH. -/
def State.drainName (s : State) (t : Site) (o : DrainOps) : Option StreamName :=
  if o.rnd = 5 then s.streamName t o.rngReg else none

/-- What a DRAIN is judged by at issue: banks, slot pair, address words, name and reach; the lowest status with its
address (R18). -/
def State.drainCheck (s : State) (t : Site) (o : DrainOps) (x : Tile) : Status × Nat :=
  let nm := s.drainName t o
  let w := (s.ctx t).sreg o.outReg
  let ws := (s.ctx t).sreg (o.outReg + 1)
  firstLowest [(Status.when (!bankOk x.bank x.m x.n) .verify, s.pcAddr t),
    (if o.ownerWait = 1 then s.slotOk t o.xslotReg else .ok, (s.drainSlot t o).getD 0),
    (Status.lowest [awStatus w 64, if isMX o.fmtOut then awStatus ws 32 else .ok], s.pcAddr t),
    (Status.when (o.rnd = 5 && nm.isNone) .verify, s.pcAddr t),
    s.reachAll t.core ((s.drainOut t o x nm).map (fun p => (p.off, p.bytes.length)))]

/-- A DRAIN that need wait no longer: its pieces are written, its entries cleared unless kept, and its slot emptied. -/
def State.drainNow (s : State) (t : Site) (o : DrainOps) (x : Tile) : State :=
  let s1 := s.putPieces t.core (s.drainOut t o x (s.drainName t o))
  let s2 := if o.keep = 1 then s1 else s1.setCore t.core ((s1.core t.core).clearTile x)
  match s.drainSlot t o with
  | none => s2
  | some a => s2.emptySlot t a x.bank

/-- The effect of DRAIN (R64, R67, R92, R97). -/
def drainEff (t : Site) (o : DrainOps) (s : State) : Eff :=
  let x := s.tile t o.bank (o.mM1 + 1) (o.nM1 + 1) o.rowMask o.colMask
  let slot := s.drainSlot t o
  let bad := s.drainCheck t o x
  let ecc := s.slotRead t.core slot
  if bad.1 ≠ .ok then .fault bad.1 bad.2 s
  else if ecc.1 ≠ .ok then .fault ecc.1 (slot.getD 0) ecc.2
  else if (slot.map s.mergesMissing).getD false then .hold (.slot (slot.getD 0)) s
  else .done (ecc.2.drainNow t o x)

/-- An instruction in flight that completes once its post or merge is applied (R83). -/
def exchFlight (t : Site) (h : Hdr) : InFlight := { plainFlight t h with exch := true }

/-- The post or merge of a context is applied: its instruction waits for it no longer (R83). -/
def State.exchDone (s : State) (t : Site) : State :=
  let k := s.core t.core
  s.setCore t.core { k with inflight := k.inflight.map (fun f => if f.ctx = t.ctx then { f with exch := false } else f) }

/-- A DRAIN in flight. -/
def State.drainFlight (s : State) (t : Site) (h : Hdr) (o : DrainOps) : InFlight :=
  { accumFlight t h (s.banksOf t o.bank (o.mM1 + 1) (o.nM1 + 1)) with holds := some .drain }

/-- DRAIN (R92). -/
def execDrain (t : Site) (h : Hdr) (o : DrainOps) (s : State) : Host.Outcome State Fault Refusal :=
  .next (s.issueAs t h (s.drainFlight t h o) true o.ok (drainEff t o))

/-- DRAIN_OWNER_WAIT: a DRAIN with OWNER_WAIT goes on once MERGED equals PARTS − 1 (R97). -/
def execDrainOwnerWait (t : Site) (h : Hdr) (o : DrainOps) (s : State) : Host.Outcome State Fault Refusal :=
  .next (s.resume t h (s.drainFlight t h o) .drain (drainEff t o))

/-! ### CLEARB (R92) -/

/-- The banks of a mask, shifted in a body (R125). -/
def clearbBanks (mask shift : Nat) : List Nat := (List.range 4).filter (fun b => bit (mask * 2 ^ shift) b)

/-- The effect of CLEARB. -/
def clearbEff (t : Site) (o : ClearbOps) (s : State) : Eff :=
  .done (s.setCore t.core ((clearbBanks o.bankMask (s.bankShift t)).foldl Core.clearBank (s.core t.core)))

/-- CLEARB (R92). -/
def execClearb (t : Site) (h : Hdr) (o : ClearbOps) (s : State) : Host.Outcome State Fault Refusal :=
  .next (s.issueAs t h (accumFlight t h (clearbBanks o.bankMask (s.bankShift t))) true o.inWidth (clearbEff t o))

/-! ### XMAX (R95) -/

/-- `PART` and `PARTS` as issued: in a body the item's part and the nest's SPLIT (R126). -/
def State.issuedPart (s : State) (t : Site) (part partsM1 : Nat) : Nat × Nat :=
  match s.sched.run.bind (·.nest), (s.ctx t).item with
  | some r, some it => if (s.ctx t).inBody then (r.desc.part it.index, r.desc.split) else (part, partsM1 + 1)
  | _, _ => (part, partsM1 + 1)

/-- Biased maxima of rows (R94). -/
def State.biasedTops (s : State) (core : Nat) (p : MatOp) (l : List Nat) : List (Nat × Nat) :=
  l.map (fun i => (i, (s.rowTop core p i + 0x8000).toNat))

/-- Operands A and B of an XMAX. -/
def State.xmaxA (s : State) (t : Site) (o : XmaxOps) : MatOp :=
  ⟨o.fmtA, (s.ctx t).sreg o.aReg, (s.ctx t).sreg (o.aReg + 1), s.issuedK t o.kM1⟩
def State.xmaxB (s : State) (t : Site) (o : XmaxOps) : MatOp :=
  ⟨o.fmtB, (s.ctx t).sreg o.bReg, (s.ctx t).sreg (o.bReg + 1), s.issuedK t o.kM1⟩

/-- What an XMAX is judged by at issue: banks, slot pair, address words, and the reach of what its maxima need: scales of an
MX operand, elements of a BF16 one; the lowest status with its address (R18). -/
def State.xmaxCheck (s : State) (t : Site) (o : XmaxOps) (x : Tile) (a b : MatOp) : Status × Nat :=
  firstLowest [(Status.when (!bankOk x.bank x.m x.n) .verify, s.pcAddr t),
    (s.slotOk t o.xslotReg, slotAddr ((s.ctx t).sreg o.xslotReg)), (Status.lowest [a.status, b.status], s.pcAddr t),
    s.reachAll t.core (x.rows.flatMap (a.accesses (decide (o.fmtA = 1))) ++ x.cols.flatMap (b.accesses (decide (o.fmtB = 1))))]

/-- The post of an XMAX (R95). -/
def State.xmaxPost (s : State) (t : Site) (o : XmaxOps) (x : Tile) (a b : MatOp) : SlotPost :=
  let pp := s.issuedPart t o.part o.partsM1
  ⟨slotAddr ((s.ctx t).sreg o.xslotReg), pp.1, pp.2, slotK ((s.ctx t).sreg (o.xslotReg + 1)), a.k, x.bank,
    s.biasedTops t.core a x.rows, s.biasedTops t.core b x.cols⟩

/-- A context's post is on its way; its slot is open from then on (R99). -/
def State.startPost (s : State) (t : Site) (p : SlotPost) : State :=
  (s.setCtx t { s.ctx t with post := some p }).openSlot t p.slot (decide (p.part = 0))

/-- The effect of XMAX: the part's maxima go to the slot (R95). -/
def xmaxEff (t : Site) (o : XmaxOps) (s : State) : Eff :=
  let x := s.tile t o.bank (o.mM1 + 1) (o.nM1 + 1) o.rowMask o.colMask
  let a := s.xmaxA t o
  let b := s.xmaxB t o
  let bad := s.xmaxCheck t o x a b
  if bad.1 ≠ .ok then .fault bad.1 bad.2 s else .done (s.startPost t (s.xmaxPost t o x a b))

/-- XMAX (R95). -/
def execXmax (t : Site) (h : Hdr) (o : XmaxOps) (s : State) : Host.Outcome State Fault Refusal :=
  .next (s.issueAs t h (exchFlight t h) true o.ok (xmaxEff t o))

/-- Raise a 16-bit maximum of a slot. -/
def State.raise16 (s : State) (a v : Nat) : State := s.putNum a 2 (max (s.num a 2) v)

/-- One post at the slot (R95); VERIFY where it faults. Log entry 25 applies (DEDUCED). -/
def State.applyPost (s : State) (core : Nat) (p : SlotPost) : Status × State :=
  let a := p.slot
  let first := decide (s.slotParts a = 0)
  let ecc := s.slotRead core (some a)
  let s1 := if first then (s.putNum a 2 p.parts).putNum (a + 16) 8 p.kDecl else s
  if ecc.1 ≠ .ok then ecc
  else if !first && (decide (s.slotParts a ≠ p.parts) || decide (s.slotKDecl a ≠ p.kDecl)) then (.verify, s)
  else
    let s2 := p.rows.foldl (fun acc r => acc.raise16 (a + 32 + 2 * r.1) r.2) s1
    let s3 := p.cols.foldl (fun acc r => acc.raise16 (a + 288 + 2 * r.1) r.2) s2
    let s4 := (s3.putNum (a + 24) 8 (s3.slotKSum a + p.k)).putNum (a + 2) 2 (s3.slotPosted a + 1)
    let s5 := if p.part = 0 then (s4.putNum (a + 6) 2 core).putNum (a + 8) 1 p.bank else s4
    (if s5.slotParts a < s5.slotPosted a then .verify else .ok, s5)

/-- XMAX_SLOT_POST: the map-store atomic unit applies a context's post indivisibly (R95). -/
def execXmaxSlotPost (t : Site) (s : State) : Host.Outcome State Fault Refusal :=
  .next (
    match (s.ctx t).post with
    | none => s
    | some p =>
      let s0 := (s.setCtx t { s.ctx t with post := none }).exchDone t
      let (st, s1) := s0.applyPost t.core p
      if st = .ok then s1.settleEnd t.core else s1.coreFault t.core st p.slot)

/-! ### XMERGE (R62, R93, R97) -/

/-- The effect of XMERGE at issue: the partial starts on its way to the owner bank. -/
def xmergeEff (t : Site) (o : XmergeOps) (s : State) : Eff :=
  let x := s.tile t o.bank (o.mM1 + 1) (o.nM1 + 1) 0 0
  let slot := slotAddr ((s.ctx t).sreg o.xslotReg)
  let bad := firstLowest [(Status.when (!bankOk x.bank x.m x.n) .verify, s.pcAddr t), (s.slotOk t o.xslotReg, slot)]
  if bad.1 ≠ .ok then .fault bad.1 bad.2 s
  else .done (s.setCtx t { s.ctx t with merge := some ⟨slot, x.bank, x.m, x.n⟩ })

/-- XMERGE (R97). -/
def execXmerge (t : Site) (h : Hdr) (o : XmergeOps) (s : State) : Host.Outcome State Fault Refusal :=
  .next (s.issueAs t h { accumFlight t h (s.banksOf t o.bank (o.mM1 + 1) (o.nM1 + 1)) with exch := true } true o.ok
    (xmergeEff t o))

/-- Merge entries of a shape from one accumulator file into another; the status of the first merge R62 refuses. -/
def mergeEntries (src : Core) (from' to' : Tile) : List (Nat × Nat) → List (Nat × WideEntry) → Status × List (Nat × WideEntry)
  | [], w => (.ok, w)
  | e :: l, w =>
    let k := to'.key e.1 e.2
    let r := (SMap.get {} w k : WideEntry).merge (src.entry (from'.key e.1 e.2))
    if r.1 = .ok then mergeEntries src from' to' l (SMap.set {} w k r.2) else (r.1, w)

/-- XMERGE_OWNER_MERGE: once the owner's MMA that names the slot has set the anchors, the owner merges every
arriving entry and increments MERGED; the sending bank is then empty and the sender's slot closed. A merge that R62
refuses faults the sending core (R93, R97). -/
def execXmergeOwnerMerge (t : Site) (s : State) : Host.Outcome State Fault Refusal :=
  .next (
    match (s.ctx t).merge with
    | none => s
    | some g =>
      let owner := s.slotOwner g.slot
      let ob := s.slotBank g.slot
      if !(s.core owner).anchored.contains (anchorMark g.slot ob) then s
      else
        let src : Tile := ⟨g.bank, g.m, g.n, [], []⟩
        let dst : Tile := ⟨ob, g.m, g.n, [], []⟩
        let ecc := s.slotRead t.core (some g.slot)
        let s0 := (ecc.2.setCtx t { s.ctx t with merge := none }).exchDone t
        let (st, w) := mergeEntries (s0.core t.core) src dst src.whole.entries (s0.core owner).wide
        if ecc.1 ≠ .ok then s0.coreFault t.core ecc.1 g.slot
        else if st ≠ .ok then s0.coreFault t.core st g.slot
        else
          let s1 := s0.setCore owner { s0.core owner with wide := w }
          let k1 := s1.core t.core
          let s2 := s1.setCore t.core { (tileBanks g.bank g.m g.n).foldl Core.clearBank k1 with
            anchored := k1.anchored.filter (fun a => decide (a ≠ anchorMark g.slot g.bank)) }
          ((s2.putNum (g.slot + 4) 2 (s2.slotMerged g.slot + 1)).closeSlot t g.slot false).settleEnd t.core)

end Sys2Proof.Machine
end

