-- ==== Sys2Proof/Machine/Vector.lean ====
section
/-! DEFINITION. The vector unit (R524, R525, R153): VOP, LACC, LD and ST. -/

namespace Sys2Proof.Machine

/-! ### VOP (R524, Table 03-20) -/

/-- One vector function: operands, lanes of VA, VB and VC, random bits; result and flags. -/
abbrev VFun := VopOps → Lane → Lane → Lane → Nat → Conv

/-- The lane register that supplies random bits: VC, or VC + 1 for FMA (R524). -/
def randReg (f : Nat) (o : VopOps) : Nat := if f = 3 then o.vc + 1 else o.vc

/-- Result of a function in lane l. -/
def vopLane (f : Nat) (g : VFun) (o : VopOps) (c : Ctx) (l : Nat) : Conv :=
  g o (c.lane o.va l) (c.lane o.vb l) (c.lane o.vc l) (c.lane (randReg f o) l).toNat

/-- The effect of a VOP: each active unmasked lane of VD is written, the others stay; flags are ORed into the job
(R68, R81, R524). -/
def vopEff (f : Nat) (g : VFun) (t : Site) (o : VopOps) (s : State) : Eff :=
  let c := s.ctx t
  let ls := s.lanes t o.mask
  let s1 := s.setCtx t (c.setLanes o.vd ls (fun l => BitVec.ofNat 32 (vopLane f g o c l).bits))
  .done (s1.orFlags (orAll (ls.map (fun l => (vopLane f g o c l).flags))))

/-- VOP ADD: IEEE binary32 sum (Table 03-20). -/
def vopAdd : VFun := fun o a b _ r => vAdd o.rnd a b r

def execVopAdd (t : Site) (h : Hdr) (o : VopOps) (s : State) : Host.Outcome State Fault Refusal :=
  .next (s.issueAs t h (plainFlight t h) true (o.ok 0) (vopEff 0 vopAdd t o))

/-- VOP SUB: VA minus VB (Table 03-20). -/
def vopSub : VFun := fun o a b _ r => vSub o.rnd a b r

def execVopSub (t : Site) (h : Hdr) (o : VopOps) (s : State) : Host.Outcome State Fault Refusal :=
  .next (s.issueAs t h (plainFlight t h) true (o.ok 1) (vopEff 1 vopSub t o))

/-- VOP MUL: VA times VB (Table 03-20). -/
def vopMul : VFun := fun o a b _ r => vMul o.rnd a b r

def execVopMul (t : Site) (h : Hdr) (o : VopOps) (s : State) : Host.Outcome State Fault Refusal :=
  .next (s.issueAs t h (plainFlight t h) true (o.ok 2) (vopEff 2 vopMul t o))

/-- VOP FMA: VA times VB plus VC, rounded once (Table 03-20). -/
def vopFma : VFun := fun o a b c r => vFma o.rnd a b c r

def execVopFma (t : Site) (h : Hdr) (o : VopOps) (s : State) : Host.Outcome State Fault Refusal :=
  .next (s.issueAs t h (plainFlight t h) true (o.ok 3) (vopEff 3 vopFma t o))

/-- VOP MIN: the lesser, −0 below +0 (Table 03-20). -/
def vopMin : VFun := fun _ a b _ _ => vMinMax false a b

def execVopMin (t : Site) (h : Hdr) (o : VopOps) (s : State) : Host.Outcome State Fault Refusal :=
  .next (s.issueAs t h (plainFlight t h) true (o.ok 4) (vopEff 4 vopMin t o))

/-- VOP MAX: the greater, +0 above −0 (Table 03-20). -/
def vopMax : VFun := fun _ a b _ _ => vMinMax true a b

def execVopMax (t : Site) (h : Hdr) (o : VopOps) (s : State) : Host.Outcome State Fault Refusal :=
  .next (s.issueAs t h (plainFlight t h) true (o.ok 5) (vopEff 5 vopMax t o))

/-- CVT to an MX element format: a NaN is written as R48 says and raises NAN_IN; another value gives free element bits, with
the lane's bits above the element zero (R524). Log entry 24 applies (DESIGN CHOICE). -/
def cvtMx (fmt : Nat) (a : Lane) : Conv :=
  if (lane32 a).isNaN then ⟨canonicalNaN fmt, flagNanIn⟩ else ⟨(Config.vopCvtMx fmt a).toNat % 2 ^ fmtBits fmt, 0⟩

/-- VOP CVT: VA converted to the format FMT (Table 03-20). -/
def vopCvt : VFun := fun o a _ _ r => if isMX o.fmt then cvtMx o.fmt a else vCvt o.rnd o.fmt a r

def execVopCvt (t : Site) (h : Hdr) (o : VopOps) (s : State) : Host.Outcome State Fault Refusal :=
  .next (s.issueAs t h (plainFlight t h) true (o.ok 6) (vopEff 6 vopCvt t o))

/-- VOP CMP: no result is stated: a free value, and no flag (Table 03-20). Log entry 24 applies (DESIGN CHOICE). -/
def vopCmp : VFun := fun _ a b c _ => ⟨(Config.vopCmp a b c).toNat, 0⟩

def execVopCmp (t : Site) (h : Hdr) (o : VopOps) (s : State) : Host.Outcome State Fault Refusal :=
  .next (s.issueAs t h (plainFlight t h) true (o.ok 7) (vopEff 7 vopCmp t o))

/-- VOP AND: bitwise AND (Table 03-20). -/
def vopAnd : VFun := fun _ a b _ _ => ⟨(a &&& b).toNat, 0⟩

def execVopAnd (t : Site) (h : Hdr) (o : VopOps) (s : State) : Host.Outcome State Fault Refusal :=
  .next (s.issueAs t h (plainFlight t h) true (o.ok 8) (vopEff 8 vopAnd t o))

/-- VOP OR: bitwise OR (Table 03-20). -/
def vopOr : VFun := fun _ a b _ _ => ⟨(a ||| b).toNat, 0⟩

def execVopOr (t : Site) (h : Hdr) (o : VopOps) (s : State) : Host.Outcome State Fault Refusal :=
  .next (s.issueAs t h (plainFlight t h) true (o.ok 9) (vopEff 9 vopOr t o))

/-- VOP XOR: bitwise exclusive OR (Table 03-20). -/
def vopXor : VFun := fun _ a b _ _ => ⟨(a ^^^ b).toNat, 0⟩

def execVopXor (t : Site) (h : Hdr) (o : VopOps) (s : State) : Host.Outcome State Fault Refusal :=
  .next (s.issueAs t h (plainFlight t h) true (o.ok 10) (vopEff 10 vopXor t o))

/-- VOP SHL: left shift; 32 or more gives 0 (Table 03-20). -/
def vopShl : VFun := fun _ a b _ _ => ⟨(if 32 ≤ b.toNat then (0 : Lane) else a <<< b.toNat).toNat, 0⟩

def execVopShl (t : Site) (h : Hdr) (o : VopOps) (s : State) : Host.Outcome State Fault Refusal :=
  .next (s.issueAs t h (plainFlight t h) true (o.ok 11) (vopEff 11 vopShl t o))

/-- VOP SHR: logical right shift; 32 or more gives 0 (Table 03-20). -/
def vopShr : VFun := fun _ a b _ _ => ⟨(if 32 ≤ b.toNat then (0 : Lane) else a >>> b.toNat).toNat, 0⟩

def execVopShr (t : Site) (h : Hdr) (o : VopOps) (s : State) : Host.Outcome State Fault Refusal :=
  .next (s.issueAs t h (plainFlight t h) true (o.ok 12) (vopEff 12 vopShr t o))

/-- VOP SEL: no result is stated: a free value, and no flag (Table 03-20). Log entry 24 applies (DESIGN CHOICE). -/
def vopSel : VFun := fun _ a b c _ => ⟨(Config.vopSel a b c).toNat, 0⟩

def execVopSel (t : Site) (h : Hdr) (o : VopOps) (s : State) : Host.Outcome State Fault Refusal :=
  .next (s.issueAs t h (plainFlight t h) true (o.ok 13) (vopEff 13 vopSel t o))

/-- VOP ABS: bit 31 cleared (Table 03-20). -/
def vopAbs : VFun := fun _ a _ _ _ => ⟨a.toNat % 2 ^ 31, 0⟩

def execVopAbs (t : Site) (h : Hdr) (o : VopOps) (s : State) : Host.Outcome State Fault Refusal :=
  .next (s.issueAs t h (plainFlight t h) true (o.ok 14) (vopEff 14 vopAbs t o))

/-- VOP NEG: bit 31 inverted (Table 03-20). -/
def vopNeg : VFun := fun _ a _ _ _ => ⟨(a ^^^ (0x80000000 : Lane)).toNat, 0⟩

def execVopNeg (t : Site) (h : Hdr) (o : VopOps) (s : State) : Host.Outcome State Fault Refusal :=
  .next (s.issueAs t h (plainFlight t h) true (o.ok 15) (vopEff 15 vopNeg t o))

/-! ### LACC (R69 to R72, R525) -/

/-- Long accumulator i of a core. -/
def Core.lacc (c : Core) (i : Nat) : LongAcc := SMap.get {} c.long i

def Core.setLacc (c : Core) (i : Nat) (a : LongAcc) : Core := { c with long := SMap.set {} c.long i a }

/-- The accumulators a CLEAR or a DRAIN acts on: LIDX, or LIDX to LIDX + 127 under SPREAD. -/
def LaccOps.targets (o : LaccOps) : List Nat := if o.spread = 1 then tab 128 (fun i => o.lidx + i) else [o.lidx]

/-- The effect of a clear into a mode. -/
def laccClearEff (product : Bool) (t : Site) (o : LaccOps) (s : State) : Eff :=
  .done (s.setCore t.core (o.targets.foldl (fun c i => c.setLacc i { product }) (s.core t.core)))

/-- LACC CLEAR_SUM. -/
def execLaccClearSum (t : Site) (h : Hdr) (o : LaccOps) (s : State) : Host.Outcome State Fault Refusal :=
  .next (s.issueAs t h (plainFlight t h) true (o.ok 0) (laccClearEff false t o))

/-- LACC CLEAR_PRODUCT. -/
def execLaccClearProduct (t : Site) (h : Hdr) (o : LaccOps) (s : State) : Host.Outcome State Fault Refusal :=
  .next (s.issueAs t h (plainFlight t h) true (o.ok 1) (laccClearEff true t o))

/-- The value of a lane read in a format; a 16-bit value lies in the low bits (R525). -/
def laneVal (fmt : Nat) (x : Lane) : FVal := decodeElem fmt (x.toNat % 2 ^ fmtBits fmt)

/-- What lane l adds: VA, or VA × VB in PRODUCT mode. -/
def laccInput (fmt : Nat) (o : LaccOps) (c : Ctx) (product : Bool) (l : Nat) : Contrib :=
  let a := laneVal fmt (c.lane o.va l)
  if product then .ofProducts [mulVal a (laneVal fmt (c.lane o.vb l))] else .ofVal a

/-- Add active lanes in turn; the status of the first that faults (R70, R525). -/
def laccAdd (o : LaccOps) (c : Ctx) : List Nat → Core → Status × Core
  | [], k => (.ok, k)
  | l :: ls, k =>
    let i := if o.spread = 1 then o.lidx + l else o.lidx
    let a := k.lacc i
    if a.product && o.fmtOut = 10 then (.verify, k)
    else match a.add (laccInput o.fmtOut o c a.product l) with
      | none => (.window, k)
      | some b => laccAdd o c ls (k.setLacc i b)

/-- The effect of LACC ADD. -/
def laccAddEff (t : Site) (o : LaccOps) (s : State) : Eff :=
  let r := laccAdd o (s.ctx t) ((List.range 128).filter (s.laneActive t)) (s.core t.core)
  if r.1 = .ok then .done (s.setCore t.core r.2) else .fault r.1 (s.pcAddr t) s

/-- LACC ADD. -/
def execLaccAdd (t : Site) (h : Hdr) (o : LaccOps) (s : State) : Host.Outcome State Fault Refusal :=
  .next (s.issueAs t h (plainFlight t h) true (o.ok 2) (laccAddEff t o))

/-- Random bits of a LACC DRAIN: registers VA to VA + 9 of a lane (Table 09-4). -/
def laccBits (o : LaccOps) (c : Ctx) (l n : Nat) : Nat :=
  (tab 10 (fun j => (c.lane (o.va + j) l).toNat * 2 ^ (32 * j))).foldl (· + ·) 0 % 2 ^ n

/-- The divisor of a drain, bits [32:0] of the register; none where DIV_REG is 0 (R71). Log entry 21 applies (DEDUCED). -/
def laccDivisor (o : LaccOps) (c : Ctx) : Option Nat :=
  if o.divReg = 0 then none else some (wget (c.sreg o.divReg) 32 0)

/-- The converted value of target number i. -/
def laccOut (o : LaccOps) (c : Ctx) (k : Core) (i : Nat) : Conv :=
  (k.lacc (o.lidx + i)).drain o.fmtOut o.rnd (laccDivisor o c) (laccBits o c i)

/-- The effect of LACC DRAIN: one result to every lane of VD, or lane i from accumulator LIDX + i; each drained
accumulator is left cleared in SUM mode (R525). A divisor above 2^32 faults with VERIFY. Log entry 21 applies (DEDUCED). -/
def laccDrainEff (t : Site) (o : LaccOps) (s : State) : Eff :=
  let c := s.ctx t
  let k := s.core t.core
  if decide (2 ^ 32 < (laccDivisor o c).getD 0) then .fault .verify (s.pcAddr t) s
  else
    let pick := fun l => if o.spread = 1 then l else 0
    let c1 := c.setLanes o.vd (List.range 128) (fun l => BitVec.ofNat 32 (laccOut o c k (pick l)).bits)
    let fl := orAll ((if o.spread = 1 then List.range 128 else [0]).map (fun i => (laccOut o c k i).flags))
    let s1 := s.setCtx t c1
    .done ((s1.setCore t.core (o.targets.foldl (fun c i => c.setLacc i {}) (s1.core t.core))).orFlags fl)

/-- LACC DRAIN. -/
def execLaccDrain (t : Site) (h : Hdr) (o : LaccOps) (s : State) : Host.Outcome State Fault Refusal :=
  .next (s.issueAs t h (plainFlight t h) true (o.ok 3) (laccDrainEff t o))

/-! ### LD and ST (Table 03-8, R524) -/

/-- Bytes of a lane in memory. -/
def MemOps.bytes (o : MemOps) : Nat := 2 ^ o.width

/-- The bytes from the first to the last lane that takes part. -/
def laneSpan (ls : List Nat) (off w : Nat) : Nat × Nat :=
  match ls with
  | [] => (off, 0)
  | l :: rest => (off + l * w, ((rest.foldl max l) - l + 1) * w)

/-- What an LD or ST is judged by: its address word, and the reach of its lanes; the lowest status with its address (R18). -/
def State.laneCheck (s : State) (t : Site) (o : MemOps) (ls : List Nat) : Status × Nat :=
  let w := (s.ctx t).sreg o.addrReg
  firstLowest [(awFlat w 64, s.pcAddr t), s.reachAll t.core [laneSpan ls (awOffset w) o.bytes]]

/-- The effect of LD: lanes contiguous from OFFSET, STRIDE ignored; the bits above a narrow value are zero. -/
def ldEff (t : Site) (o : MemOps) (s : State) : Eff :=
  let c := s.ctx t
  let w := c.sreg o.addrReg
  let ls := s.lanes t o.mask
  let bad := s.laneCheck t o ls
  if bad.1 ≠ .ok then .fault bad.1 bad.2 s
  else .done (s.setCtx t (c.setLanes o.vreg ls (fun l =>
    BitVec.ofNat 32 (s.num (csAddr t.core (awOffset w + l * o.bytes)) o.bytes))))

/-- LD. -/
def execLd (t : Site) (h : Hdr) (o : MemOps) (s : State) : Host.Outcome State Fault Refusal :=
  .next (s.issueAs t h (plainFlight t h) true o.ok (ldEff t o))

/-- The effect of ST: each active unmasked lane's low bits are written; the other lanes' bytes stay. -/
def stEff (t : Site) (o : MemOps) (s : State) : Eff :=
  let c := s.ctx t
  let w := c.sreg o.addrReg
  let ls := s.lanes t o.mask
  let bad := s.laneCheck t o ls
  if bad.1 ≠ .ok then .fault bad.1 bad.2 s
  else .done (ls.foldl (fun acc l =>
    acc.putNum (csAddr t.core (awOffset w + l * o.bytes)) o.bytes (c.lane o.vreg l).toNat) s)

/-- ST. -/
def execSt (t : Site) (h : Hdr) (o : MemOps) (s : State) : Host.Outcome State Fault Refusal :=
  .next (s.issueAs t h (plainFlight t h) true o.ok (stEff t o))

end Sys2Proof.Machine
end

