-- ==== Sys2Proof/Machine/Nest.lean ====
section
/-! DEFINITION. Nests (R119 to R135): descriptors, items and their registers, the shared work counter, NEST, the end of
an item and the end of a nest. -/

namespace Sys2Proof.Machine

/-- The slot of an item's output tile (R128). -/
def State.itemSlot (s : State) (d : NestDesc) (i : Nat) : Nat :=
  s.exchBase + d.slotOff + 1024 * (d.tileOf i % (max 1 d.slotCount))

/-- Template word k of a context, adjusted (Table 04-8, Table 04-11). -/
def State.templateWord (s : State) (d : NestDesc) (core q k : Nat) : Nat :=
  let w := nth 0 d.template k
  let w1 := if bit d.templateAdj k then putBits w 21 0 (bits w 21 0 + q * d.csStep) else w
  if bit d.templateLocal k then (w1 + s.fabricAddr (csAddr core 0)) % 2 ^ 64 else w1

/-- The lowest `n` bits set. -/
def lowMask (n : Nat) : BitVec 256 := BitVec.ofNat 256 (2 ^ n - 1)

/-- Write a list of scalar registers. -/
def Ctx.setSs (c : Ctx) (l : List (Nat × Nat)) : Ctx :=
  l.foldl (fun acc p => acc.setS p.1 (BitVec.ofNat 64 p.2)) c

/-- The registers of Table 04-11 for item i. -/
def State.itemRegs (s : State) (r : RunNest) (c : Ctx) (i : Nat) : Ctx :=
  let d := r.desc
  let a := fun j => s.operandAddrs d i j
  let tile := d.kind = 0
  let split := tile && decide (1 < d.split)
  let kField := if r.attn && decide (8192 < d.kTile) then 0 else d.kEff i
  let c1 := c.setSs ([(1, if tile then 0 else i), (2, (a 0).1), (3, (a 0).2), (4, (a 1).1), (5, (a 1).2), (6, (a 2).1),
    (7, (a 2).2), (8, (a 3).1), (9, (a 3).2),
    (10, if !split then 0 else if r.attn then s.fabricAddr (s.itemSlot d i) else s.itemSlot d i),
    (11, if !split then 0 else if r.attn then d.part i + (d.split - 1) * 2 ^ 8 else d.kLog), (12, i),
    (13, if tile then d.mEff i * 2 ^ 23 + d.nEff i * 2 ^ 14 + kField else 0), (14, d.part i)])
  let c2 := (c1.setK 1 (if tile then lowMask (d.mEff i) else lowMask (min 128 (d.g - 128 * i)))).setK 2
    (if tile then lowMask (d.nEff i) else 0)
  { c2 with laneGroup := if tile then 0 else i }

/-! ### The work counter (R129, R130) -/

/-- Address of the counter record. -/
def State.counterAddr (s : State) (d : NestDesc) : Nat := s.exchBase + d.counterOff

/-- Address of the holding entry of logical core c and context q (R129). -/
def State.holdAddr (s : State) (r : RunNest) (core q : Nat) : Nat :=
  s.counterAddr r.desc + 64 + 24 * (core * r.ops.ctxCount + q)

/-- Entries of the holding table. -/
def State.holdCount (s : State) (r : RunNest) : Nat :=
  ((s.sched.run.bind (·.prog)).map (fun p => if p.relocatable then 2048 else p.coresUsed)).getD 0 * r.ops.ctxCount

/-- `CUR` when none: all ones. -/
def noItem : Nat := 2 ^ 64 - 1

/-- Empty holding entries. -/
def State.clearHolds (s : State) (a : Nat) : Nat → State
  | 0 => s
  | n + 1 => State.clearHolds ((s.putNum (a + 24 * n) 8 noItem).zeroBytes (a + 24 * n + 8) 16) a n

/-- Show the running nest's progress (Table 04-15). -/
def State.showNest (s : State) (index done : Nat) : State :=
  (s.setFld Fld.NEST_PROGRESS_NEST_INDEX index).setFld Fld.NEST_PROGRESS_DONE done

/-- The signal box prepares the work counter of a nest (R120, R129). -/
def State.prepareNest (s : State) (r : RunNest) : State :=
  let a := s.counterAddr r.desc
  let s1 := ((s.zeroBytes a 64).putNum (a + 8) 8 r.desc.total).putNum (a + 32) 4 r.index
  let s2 := s1.clearHolds (a + 64) (s.holdCount r)
  let s3 := if r.desc.committed then s2.zeroBytes (s.exchBase + r.desc.logOff) 64 else s2
  (s3.mapJob (fun j => { j with nest := some r })).showNest r.index 0

/-- Set the running nest's record. -/
def State.setNest (s : State) (r : RunNest) : State := s.mapJob (fun j => { j with nest := some r })

/-- One grab, counted (R130, Table 19-7): the first item taken with the exclusive end and its COMMIT; none where the nest has no more.
Reissued ranges go first, in increasing item order (R133). Log entry 25 applies (DEDUCED). -/
def State.grab (s : State) (r : RunNest) : Option (Nat × Nat × Nat) × State :=
  let a := s.counterAddr r.desc
  match r.reissue with
  | (f, e, com) :: rest =>
    let n := min r.desc.chunk (e - f)
    let left := if f + n = e then rest else (f + n, e, 0) :: rest
    (some (f, f + n, com), ((s.setNest { r with reissue := left }).putNum (a + 24) 8 (s.num (a + 24) 8 - n)).perf 9 0 1)
  | [] =>
    let first := s.num a 8
    let total := s.num (a + 8) 8
    let next := min (first + r.desc.chunk) total
    if total ≤ first then (none, s) else (some (first, next, 0), (s.putNum a 8 next).perf 9 0 1)

/-- A context begins item i: its registers, and for its first item of the nest the template words (R124). -/
def State.beginItem (s : State) (r : RunNest) (t : Site) (i stop : Nat) : State :=
  let q := t.ctx - r.ops.ctxFirst
  let c0 := s.ctx t
  let fresh := !r.seen.contains (t.core, t.ctx)
  let c1 := if fresh then c0.setSs (tab 16 (fun k => (32 + k, s.templateWord r.desc t.core q k))) else c0
  let c2 := s.itemRegs r c1 i
  let s1 := s.setCtx t { c2 with pc := r.ops.bodyOff, active := true, inBody := true, halted := false,
                                 item := some ⟨i, stop, 0⟩ }
  if fresh then s1.setNest { (s1.sched.run.bind (·.nest)).getD r with seen := (t.core, t.ctx) :: r.seen } else s1

/-- A context stands outside every item: its program counter is that of the NEST where it is context 0 or has not taken
an item of this nest, and it is active only where it is context 0 in its NEST (Table 03-19). -/
def RunNest.park (r : RunNest) (t : Site) (c : Ctx) : Ctx :=
  { c with inBody := false, item := none, laneGroup := 0, active := c.joined,
           pc := if t.ctx = 0 || !r.seen.contains (t.core, t.ctx) then r.pc else c.pc }

/-- A context leaves the nest: it holds no item; context 0 goes on waiting in its NEST. -/
def State.leaveNest (s : State) (r : RunNest) (t : Site) : State :=
  s.setCtx t { r.park t (s.ctx t) with halted := false }

/-- A context stands at its request halt between two items (R127, R131). -/
def State.haltBetween (s : State) (r : RunNest) (t : Site) : State :=
  (s.setCtx t { r.park t (s.ctx t) with halted := true }).settleHalt t.core

/-- The words of the work counter that a context reads at a hand-out or at the end of an item: the record and its holding
entry (Table 04-12). -/
def State.counterReads (s : State) (r : RunNest) (t : Site) : List (Nat × Nat) :=
  [(s.counterAddr r.desc, 64), (s.holdAddr r t.core (t.ctx - r.ops.ctxFirst), 24)]

/-- A context takes an item: the held one at CUR, else a grab (R130). -/
def State.takeItem (s : State) (r : RunNest) (t : Site) : State :=
  let h := s.holdAddr r t.core (t.ctx - r.ops.ctxFirst)
  if s.num h 8 ≠ noItem then s.beginItem r t (s.num h 8) (s.num (h + 8) 8)
  else
    match s.grab r with
    | (none, s1) => s1.leaveNest r t
    | (some (f, e, com), s1) =>
      (((s1.putNum h 8 f).putNum (h + 8) 8 e).putNum (h + 16) 8 com).beginItem ((s1.sched.run.bind (·.nest)).getD r) t f e

/-- The next item of a context. After a pre-emption request no context grabs: it stands at its request halt (R131). -/
def State.nextItem (s : State) (t : Site) : State :=
  match s.sched.run.bind (·.nest) with
  | none => s
  | some r =>
    if s.halting then s.haltBetween r t
    else
      match s.readChecks s.coreClass (.core t.core) (s.counterReads r t) with
      | (.ok, _, s1) => s1.takeItem r t
      | (st, a, s1) => s1.coreFault t.core st a

/-- Contexts that take items. -/
def NestOps.ctxs (o : NestOps) : List Nat := tab o.ctxCount (fun i => o.ctxFirst + i)

/-- Number of nests a core has passed. -/
def Job.passed (j : Job) (core : Nat) : Nat := SMap.get 0 j.runs core

/-- An ATT that names s10 as `XSLOT_REG`, which makes its nest an attention nest (R181). Log entry 55 applies (DEDUCED). -/
def isNestAtt (w : Nat) : Bool := w / 2 ^ 122 = 0x20 && bits w 42 37 = 10

/-- Is a nest an attention nest (R181)? -/
def State.bodyHasAtt (s : State) (core : Nat) (o : NestOps) : Bool :=
  (List.range (o.bodyLenM1 + 1)).any (fun i => isNestAtt (s.num (csAddr core (o.bodyOff + 16 * i)) 16))

/-- A core joins the running nest: context 0 waits, and the nest's contexts that are in no item take one. -/
def State.joinNest (s : State) (t : Site) (r : RunNest) : State :=
  let s1 := s.setCtx t { s.ctx t with joined := true }
  r.ops.ctxs.foldl (fun acc c => if (acc.ctx ⟨t.core, c⟩).inBody then acc else acc.nextItem ⟨t.core, c⟩) s1

/-- The effect of NEST on context 0 (R119, R120). A core that is behind a nest which has completed passes it at
once; the first core at a nest makes the signal box prepare its counter. -/
def nestEff (t : Site) (o : NestOps) (s : State) : Eff :=
  let c := s.ctx t
  match s.sched.run with
  | none => .done s
  | some j =>
    match j.prog with
    | none => .fault .verify (s.pcAddr t) s
    | some p =>
      match (List.range p.nestPcs.length).find? (fun i => nth 0 p.nestPcs i = c.pc) with
      | none => .fault .verify (s.pcAddr t) s
      | some index =>
        if p.mode ≠ 1 || t.ctx ≠ 0 || c.inBody then .fault .verify (s.pcAddr t) s
        else if j.passed t.core < j.nestsDone then
          .done ((s.setCtx t c.advance).mapJob (fun x =>
            { x with runs := SMap.insert x.runs t.core (x.passed t.core + 1) }))
        else
          match j.nest with
          | some r => if r.pc = c.pc then .done (s.joinNest t r) else .wait s
          | none =>
            let d := NestDesc.ofNum (s.num (csAddr t.core o.descOff) 512)
            let r : RunNest := ⟨index, c.pc, o, d, s.bodyHasAtt t.core o, [], []⟩
            .done ((s.prepareNest r).joinNest t r)

/-- NEST (R120). -/
def execNest (t : Site) (h : Hdr) (o : NestOps) (s : State) : Host.Outcome State Fault Refusal :=
  .next (if (s.ctx t).joined then s else s.issueAs t h { plainFlight t h with isNest := true } false o.ok (nestEff t o))

/-! ### The end of an item and of a nest (R127, R130) -/

/-- Banks an instruction names, before the shift of R125. Log entry 27 applies (DEDUCED). -/
def CoreInsn.banks : CoreInsn → List Nat
  | .mma o => tileBanks o.bank (o.mM1 + 1) (o.nM1 + 1)
  | .drain o => tileBanks o.bank (o.mM1 + 1) (o.nM1 + 1)
  | .xmax o => tileBanks o.bank (o.mM1 + 1) (o.nM1 + 1)
  | .xmerge o => tileBanks o.bank (o.mM1 + 1) (o.nM1 + 1)
  | .clearb o => (List.range 4).filter (fun b => bit o.bankMask b)
  | .att _ _ => [0, 1, 2, 3]
  | _ => []

/-- The banks of an instruction of a body; a WIN MMA takes M from its descriptor, as winM gives it (R89, R213). -/
def CoreInsn.bodyBanks (winM : Nat → Nat) : CoreInsn → List Nat
  | .win 1 o => tileBanks o.bank (winM o.descOff) (o.nM1 + 1)
  | x => x.banks

/-- The banks of a context: those its body names, shifted (R125, R127). Log entry 27 applies (DEDUCED). -/
def State.bodyBanks (s : State) (core : Nat) (o : NestOps) (q : Nat) : List Nat :=
  let box := fun off => (List.range 3).foldl (fun a i => a * s.num (csAddr core (off + 24 + i)) 1) 1
  (List.range (o.bodyLenM1 + 1)).flatMap (fun i =>
    match CoreInsn.ofWord (s.num (csAddr core (o.bodyOff + 16 * i)) 16) with
    | none => []
    | some x => (x.bodyBanks box).map (· + q * o.bankStep))

/-- Is everything that a context issued complete? -/
def Core.ctxQuiet (k : Core) (ctx : Nat) : Bool :=
  let c := SMap.get {} k.ctxs ctx
  k.inflight.all (fun f => decide (f.ctx ≠ ctx) || f.isNest) && c.post.isNone && c.merge.isNone && c.held.isEmpty
    && c.gateWait.isNone

/-- An item has completed: DONE rises, CUR advances to the next of the chunk or to none, and COMMIT is cleared (R130). -/
def State.countItem (s : State) (r : RunNest) (t : Site) (it : Item) : State :=
  let a := s.counterAddr r.desc
  let h := s.holdAddr r t.core (t.ctx - r.ops.ctxFirst)
  let done := s.num (a + 16) 8 + 1
  let nxt := if it.index + 1 < it.stop then it.index + 1 else noItem
  let s1 := (((s.putNum (a + 16) 8 done).putNum h 8 nxt).zeroBytes (h + 16) 8).showNest r.index done
  s1.setCtx t { s1.ctx t with item := none }

/-- ITEM_END: the last instruction of the body has completed. A bank not empty or a slot open faults with VERIFY; else the
item is counted, and the context stands at its halt in a pre-emption, or goes on with its chunk or grabs again (R127, R130,
R131). Log entry 27 applies (DEDUCED). -/
def execItemEnd (t : Site) (s : State) : Host.Outcome State Fault Refusal :=
  .next (
    match s.sched.run.bind (·.nest), (s.ctx t).item with
    | some r, some it =>
      let c := s.ctx t
      let k := s.core t.core
      if !c.inBody || c.pc ≠ r.ops.bodyEnd || !k.ctxQuiet t.ctx || c.halted || !s.coreRuns t.core then s
      else if (s.bodyBanks t.core r.ops (t.ctx - r.ops.ctxFirst)).any (fun b => !k.bankEmpty b) || !c.slots.isEmpty then
        s.coreFault t.core .verify (s.pcAddr t)
      else
        match s.readChecks s.coreClass (.core t.core) (s.counterReads r t) with
        | (.ok, _, s1) => (s1.countItem r t it).nextItem t
        | (st, a, s1) => s1.coreFault t.core st a
    | _, _ => s)

/-- Cores of the running job whose context 0 waits in the running nest. -/
def State.nestWaits (s : State) (j : Job) : List Nat :=
  (List.range ((j.prog.map (·.coresUsed)).getD 0)).filter (fun n => (s.ctx ⟨n, 0⟩).joined)

/-- A nest has completed: its NEST completes on the cores that wait in it, and their contexts 0 go on (R120). -/
def State.endNest (s : State) (waits : List Nat) : State :=
  let s1 := waits.foldl (fun acc n =>
    let c := acc.ctx ⟨n, 0⟩
    acc.setCtx ⟨n, 0⟩ { c.advance with joined := false, active := true }) s
  s1.mapJob (fun x =>
    let runs := waits.foldl (fun m n => SMap.insert m n (SMap.get 0 m n + 1)) x.runs
    { x with nest := none, nestsDone := x.nestsDone + 1, runs })

/-- NEST_COMPLETE: once every item of the running nest has completed, its NEST completes on every core that waits in
it, and context 0 goes on (R120). A counter record that cannot be read faults the first of them (R528). -/
def execNestComplete (s : State) : Host.Outcome State Fault Refusal :=
  .next (
    match s.sched.run with
    | none => s
    | some j =>
      match j.nest with
      | none => s
      | some r =>
        let a := s.counterAddr r.desc
        let waits := s.nestWaits j
        if s.halting || waits.isEmpty then s
        else
          let rd := s.readCheck s.coreClass .module a 64
          if rd.1 ≠ .ok then rd.2.coreFault (waits.headD 0) rd.1 a
          else if s.num (a + 16) 8 ≠ s.num (a + 8) 8 then s
          else rd.2.endNest waits)

end Sys2Proof.Machine
end

