-- ==== Sys2Proof/Machine/Control.lean ====
section
/-! DEFINITION. Control of the contexts: NOP, SEM, BRANCH, END, completion of instructions, the two wait limits
(R83, R99, R108, R109, R526). -/

namespace Sys2Proof.Machine

/-- NOP has no effect beyond its header fields (Table 03-4). -/
def execInstrNop (t : Site) (h : Hdr) (s : State) : Host.Outcome State Fault Refusal :=
  .next (s.issueAs t h (plainFlight t h) true true .done)

/-! ### SEM -/

/-- Set a semaphore; a value past 65,535 faults with BOUNDS (R83). -/
def semEff (t : Site) (i v : Nat) (s : State) : Eff :=
  if 65535 < v then .fault .bounds (s.pcAddr t) s else .done (s.setSem t.core i v)

/-- SEM SET. -/
def execSemSet (t : Site) (h : Hdr) (o : SemOps) (s : State) : Host.Outcome State Fault Refusal :=
  .next (s.issueAs t h (plainFlight t h) true o.ok (semEff t o.idx o.value))

/-- SEM ADD. -/
def execSemAdd (t : Site) (h : Hdr) (o : SemOps) (s : State) : Host.Outcome State Fault Refusal :=
  .next (s.issueAs t h (plainFlight t h) true o.ok (fun s1 => semEff t o.idx (s1.sem t.core o.idx + o.value) s1))

/-! ### BRANCH (R526) -/

/-- The program counter of a taken branch. -/
def branchTarget (pc target : Nat) : Nat := (((pc : Int) + 16 * signed 24 target) % (2 ^ 22 : Nat)).toNat

/-- Continue at the target where `taken`, else at the next instruction. -/
def branchTo (t : Site) (o : BranchOps) (taken : Bool) (c : Ctx) (s : State) : Eff :=
  .done (s.setCtx t (if taken then { c with pc := branchTarget c.pc o.target } else c.advance))

/-- Loop counter i. -/
def Ctx.loop (c : Ctx) (i : Nat) : BitVec 32 := nth 0 c.loops i

/-- Set loop counter i. -/
def Ctx.setLoop (c : Ctx) (i : Nat) (v : BitVec 32) : Ctx := { c with loops := setNth c.loops i v }

/-- BRANCH with COND 0. -/
def execBranchAlways (t : Site) (h : Hdr) (o : BranchOps) (s : State) : Host.Outcome State Fault Refusal :=
  .next (s.issueAs t h (plainFlight t h) false (o.ok 0) (fun s1 => branchTo t o true (s1.ctx t) s1))

/-- BRANCH with COND 1: decrement, with 0 giving 2^32 − 1, and branch where the result is not 0. -/
def execBranchLoop (t : Site) (h : Hdr) (o : BranchOps) (s : State) : Host.Outcome State Fault Refusal :=
  .next (s.issueAs t h (plainFlight t h) false (o.ok 1) (fun s1 =>
    let c := s1.ctx t
    let v := c.loop o.loop - 1
    branchTo t o (decide (v ≠ 0)) (c.setLoop o.loop v) s1))

/-- BRANCH with COND 2: branch where all 64 bits of the register are not zero. -/
def execBranchNonzero (t : Site) (h : Hdr) (o : BranchOps) (s : State) : Host.Outcome State Fault Refusal :=
  .next (s.issueAs t h (plainFlight t h) false (o.ok 2) (fun s1 =>
    branchTo t o (decide ((s1.ctx t).sreg o.sreg ≠ 0)) (s1.ctx t) s1))

/-- BRANCH with COND 3: load a loop counter from bits [31:0] of the register; no branch. -/
def execBranchLoadLoop (t : Site) (h : Hdr) (o : BranchOps) (s : State) : Host.Outcome State Fault Refusal :=
  .next (s.issueAs t h (plainFlight t h) true (o.ok 3) (fun s1 =>
    let c := s1.ctx t
    .done (s1.setCtx t (c.setLoop o.loop ((c.sreg o.sreg).setWidth 32)))))

/-! ### END -/

/-- The effect of END: the context holds no lane group any more. Log entry 26 applies (DEDUCED). -/
def endEff (t : Site) (s : State) : Eff :=
  .done ((s.setCtx t { s.ctx t with active := false, laneGroup := 0 }).settleEnd t.core)

/-- END (Table 03-4). -/
def execEnd (t : Site) (h : Hdr) (s : State) : Host.Outcome State Fault Refusal :=
  .next (s.issueAs t h (plainFlight t h) true true (endEff t))

/-! ### Completion (R83, R135) -/

/-- Remove entry i of a list. -/
def dropNth {α : Type} : List α → Nat → List α
  | [], _ => []
  | _ :: l, 0 => l
  | x :: l, i + 1 => x :: dropNth l i

/-- An instruction signals its semaphore; past 65,535 the job faults with BOUNDS (R83), logged at the instruction's address
(log entry 19, DESIGN CHOICE). -/
def State.signal (s : State) (core i pc : Nat) : State :=
  if i = 0 then s
  else if 65535 ≤ s.sem core i then s.coreFault core .bounds (csAddr core pc)
  else s.setSem core i (s.sem core i + 1)

/-- INSTRUCTION_COMPLETE: instruction number `index` of those a core has in flight completes: a committed write
that has landed sets its COMMIT bit, and SIGNAL rises by 1. A MOVE completes when its last remote part is
answered, a NEST when its nest has, and an XMAX, XMERGE or WMAX once its post or merge is applied (R83, R120, R135). A MOVE
that another module refused faults then, at its own address (R109; log entry 19, DESIGN CHOICE). Log entry 31 applies (DEDUCED). -/
def execInstructionComplete (core index : Nat) (s : State) : Host.Outcome State Fault Refusal :=
  .next (
    let k := s.core core
    match k.inflight[index]? with
    | none => s
    | some f =>
      if !f.remote.isEmpty || f.exch || (f.isNest && (s.ctx ⟨core, 0⟩).joined) then s
      else
        let s1 := s.setCore core { k with inflight := dropNth k.inflight index }
        if f.worst ≠ .ok then s1.coreFault core f.worst (csAddr core f.pc)
        else
          match f.commit with
          | none => (s1.signal core f.signal f.pc).settleHalt core
          | some (a, b) =>
            let rd := s1.readCheck s1.coreClass (.core core) a 8
            if rd.1 ≠ .ok then rd.2.coreFault core rd.1 a
            else ((rd.2.putNum a 8 (rd.2.num a 8 ||| 2 ^ b)).signal core f.signal f.pc).settleHalt core)

/-! ### Limits -/

/-- SEM_WAIT_TIMEOUT: a context whose WAIT stayed unmet for longer than `WAIT_NS` faults the job with TIMEOUT (R83,
R108). -/
def execSemWaitTimeout (t : Site) (s : State) : Host.Outcome State Fault Refusal :=
  .next (
    match (s.ctx t).waiting with
    | none => s
    | some i => if s.coreRuns t.core && s.sem t.core i = 0 then s.coreFault t.core .timeout (s.pcAddr t) else s)

/-- The slot that an instruction of a context waits at: one held for posts or merges, or a merge held at the owner. -/
def Ctx.waitsAt (c : Ctx) : Option Nat :=
  match c.held.filterMap (fun x => match x.on with
    | .slot a => some a
    | .entry _ | .pages => none) with
  | a :: _ => some a
  | [] => c.merge.map (·.slot)

/-- Write of `CORE_LIMITS`: 0 or above 500,000 in either field is refused with VERIFY (R108). -/
def coreLimitsWrite (v : Word) (s : State) : Status × State :=
  let w := wget v 50 32
  let x := wget v 18 0
  if w = 0 || decide (500000 < w) || x = 0 || decide (500000 < x) then (.verify, s)
  else (.ok, (s.setFld Fld.CORE_LIMITS_WAIT_NS w).setFld Fld.CORE_LIMITS_XCHG_NS x)

/-- CORE_LIMITS_WRITE. -/
def execCoreLimitsWrite (q : Fin 4) (v : Word) (s : State) : Host.Outcome State Fault Refusal :=
  .next (s.regWrite q Reg.CORE_LIMITS (coreLimitsWrite v))

end Sys2Proof.Machine
end

