-- ==== Sys2Proof/Machine/Access.lean ====
section
/-! DEFINITION. How a job's core reaches memory: which addresses it may read and write (R101, R117, R194, R335, R496,
R497), and the reads and writes themselves. -/

namespace Sys2Proof.Machine

/-- Kinds of buffer (Table 04-5). -/
def bufIn : Nat := 0
def bufOut : Nat := 1
def bufInout : Nat := 2
def bufExch : Nat := 3

/-- Is [a, a + n) wholly inside one declared buffer of a kind in the list (R117)? -/
def State.inBuffer (s : State) (kinds : List Nat) (a n : Nat) : Bool :=
  ((s.sched.run.bind (·.prog)).map (fun p => p.bufs.any (fun b => kinds.contains b.kind && within a n b.base b.size))).getD false

/-- Kinds a core may read, and write. Log entry 30 applies (DEDUCED). -/
def readKinds : List Nat := [bufIn, bufOut, bufInout, bufExch]
def writeKinds : List Nat := [bufOut, bufInout, bufExch]

/-- Classes of memory regions (Table 16-10). -/
def classKvp : Nat := 5
def classGrd : Nat := 6
def classNge : Nat := 7

/-- Bytes of the header of a landing ring, and of the whole ring (R233). -/
def ringHeader : Nat := 4096
def NgeProg.ringBytes (p : NgeProg) : Nat := ringHeader + p.slots * p.slotBytes

/-- What the map, the regions and the job's buffers say of an access to [a, a + n), `kinds` being the buffer kinds that serve it
(Table 20-2). Log entry 30 applies (DEDUCED). -/
def State.mapAccess (s : State) (kinds : List Nat) (a n : Nat) : Status :=
  if n = 0 then .ok
  else if isHbm a || isMs a then
    if s.touchesClass classKvp a n || s.touchesClass classGrd a n then .denied
    else if s.inBuffer kinds a n then .ok else .bounds
  else if isCs a then
    if s.cores' ≤ (a - csBase) / csSize then .unmapped else s.csReach ((a - csBase) % csSize) n
  else if isReg a then .denied else .unmapped

/-- Status of an access of a core to [a, a + n) of the local map, `kinds` being the buffer kinds that serve it
(Table 20-2); TIMEOUT where it would be allowed but no path remains (R28). Log entry 30 applies (DEDUCED). -/
def State.jobAccess (s : State) (core : Nat) (kinds : List Nat) (a n : Nat) : Status :=
  (s.mapAccess kinds a n).worse (s.corePath core a n)

/-- Read `n` bytes for a core, once allowed. -/
def State.jobRead (s : State) (core a n : Nat) : Status × List Byte × State :=
  if isCs a then (.ok, s.bytes a n, s) else s.readMem s.coreClass (.core core) a n

/-- Write bytes for a core, once allowed. -/
def State.jobWrite (s : State) (a : Nat) (l : List Byte) : Status × State :=
  if isCs a then (.ok, s.putBytes a l) else s.writeMem s.coreClass a l

/-- Copy `n` bytes between local addresses for a core, once allowed. -/
def State.jobCopy (s : State) (core src dst n : Nat) : Status × State :=
  let r : Status × State := if isCs src then (.ok, s) else s.readCheck s.coreClass (.core core) src n
  if r.1 ≠ .ok then r
  else
    let w : Status × State := if isCs dst then (.ok, r.2) else r.2.writeCheck s.coreClass dst n
    if w.1 ≠ .ok then w else (.ok, w.2.copyBytes src dst n)

/-- Module and local part of a fabric address (R309). -/
def fabModule (a : Nat) : Nat := bits a 53 40
def fabLocal (a : Nat) : Nat := bits a 39 0

/-- The fabric address in bits [53:0] of a scalar register word. -/
def regAddr (w : Word) : Nat := wget w 53 0

end Sys2Proof.Machine
end

