-- ==== Sys2Proof/Machine/Flits.lean ====
section
/-! DEFINITION. What a fabric port sends: identity records, packets, and flits with their codewords (11_ikiys_fabric.md
R299, R303, R317; 12_gradient_reduction.md R342). -/

namespace Sys2Proof.Machine

/-! ### Identity records (R299, Table 11-5) -/

/-- The 64 bytes of an identity record. -/
def Ident.bytes (i : Ident) : List Byte :=
  let b := leBytes 1 1 ++ leBytes 1 i.port ++ leBytes 1 i.group ++ leBytes 1 i.lanesGood ++ leBytes 2 i.moduleId ++ leBytes 2 i.systemId
    ++ leBytes 1 i.dx ++ leBytes 1 i.dy ++ leBytes 1 i.dz ++ leBytes 1 i.x ++ leBytes 1 i.y ++ leBytes 1 i.z ++ leBytes 46 0
  b ++ leBytes 4 (crc32c b)

/-- What a record says; none where it is not valid: its CRC fails, or `FORMAT` is not 1. -/
def Ident.ofBytes (l : List Byte) : Option Ident :=
  let w := leNat l
  if l.length = 64 ∧ byteField w 0 1 = 1 ∧ crc32c (l.take 60) = byteField w 60 4 then
    some { port := byteField w 1 1, group := byteField w 2 1, lanesGood := byteField w 3 1, moduleId := bits (byteField w 4 2) 13 0,
           systemId := byteField w 6 2, dx := byteField w 8 1, dy := byteField w 9 1, dz := byteField w 10 1, x := byteField w 11 1,
           y := byteField w 12 1, z := byteField w 13 1 }
  else none

/-- The first record of three that agree and follow one another. -/
def agreedOf : List (List Byte) → Option (List Byte)
  | a :: b :: c :: l => if a = b ∧ b = c then some a else agreedOf (b :: c :: l)
  | _ => none

/-- The record on which step 5 of an attempt agrees, and what it says: three consecutive valid ones from the peer (Table 11-3). -/
def agreedRecord (l : List (List Byte)) : Option (List Byte × Ident) :=
  (agreedOf (l.filter (fun x => (Ident.ofBytes x).isSome))).bind (fun b => (Ident.ofBytes b).map (fun i => (b, i)))

/-! ### Packets (R317, R342; Tables 11-12 and 12-6) -/

/-- Slots of a packet with `len` bytes of payload: its header and its payload, padded. -/
def packetSlots (len : Nat) : Nat := 1 + ceilDiv len 64

/-- Bytes 20 to 59 of the header of a gradient packet. -/
def GradPkt.fields (p : GradPkt) : List Byte :=
  leBytes 2 p.redId ++ leBytes 1 (p.stage % 4 + 4 * bits p.reserved 4 0 + 128 * b2n p.secondary) ++ leBytes 1 p.chunks ++ leBytes 4 p.step
    ++ leBytes 4 p.chunk0 ++ (tab 4 (fun i => nth 0 p.weights i)).flatMap (leBytes 4)
    ++ leBytes 10 ((List.range 4).foldl (fun n i => n + nth 0 p.counts i % 2 ^ 20 * 2 ^ (20 * i)) 0) ++ leBytes 1 p.cuts
    ++ leBytes 1 (p.reserved / 32)

/-- The payload of an attention post, laid out as bytes 0 to 815 of Table 06-6 with the part's number in the place of `POSTED` and
its keys in that of `K_SUM`. Log entry 137 applies (DESIGN CHOICE). -/
def AttPost.bytes (x : AttPost) : List Byte :=
  leBytes 2 x.parts ++ leBytes 2 x.part ++ leBytes 2 0 ++ leBytes 2 x.core ++ leBytes 2 x.moduleId ++ leBytes 1 x.bank ++ leBytes 1 0
    ++ leBytes 2 x.lidx ++ leBytes 2 0 ++ leBytes 8 x.kDecl ++ leBytes 8 x.keys ++ (tab 128 (SMap.get 0 x.rows)).flatMap (leBytes 4)
    ++ (tab 256 (SMap.get 0 x.cols)).flatMap (leBytes 1) ++ leBytes 16 x.nan

/-- Bytes 0 to 59 of a packet's header. -/
def Packet.header (p : Packet) : List Byte :=
  leBytes 1 p.op ++ leBytes 1 (p.cls + 4 * p.sub) ++ leBytes 2 p.len ++ leBytes 2 p.dst ++ leBytes 2 p.src ++ leBytes 5 p.addr
    ++ leBytes 1 p.hops ++ leBytes 2 p.tag ++ leBytes 2 p.reqId ++ leBytes 1 p.st.code ++ leBytes 1 p.kind ++ (p.more ++ leBytes 40 0).take 40

/-- The CRC of a packet: over its header and its payload. -/
def Packet.crc (p : Packet) : Nat := crc32c (p.header ++ p.data)

/-- The CRC that packet `n` carries. One whose CRC has failed is sent on with one that fails: which, the spec leaves open.
Log entry 135 applies (DESIGN CHOICE). -/
def Packet.carried (p : Packet) (n : Nat) : Nat := if p.crcOk then p.crc else p.crc ^^^ (1 + Config.brokenCrc n % (2 ^ 32 - 1))

/-- Slots of a packet. -/
def Packet.slots (p : Packet) : Nat := packetSlots p.data.length

/-- The whole slots of packet `n`. -/
def Packet.bytes (p : Packet) (n : Nat) : List Byte :=
  p.header ++ leBytes 4 (p.carried n) ++ p.data ++ leBytes (64 * (p.slots - 1) - p.data.length) 0

/-! ### Flits (R303) -/

/-- The slots at which packets begin that follow one another from slot `k`. -/
def slotStarts : Nat → List (List Byte) → List Nat
  | _, [] => []
  | k, p :: l => k :: slotStarts (k + p.length / 64) l

/-- `FIRST` of body number i. -/
def firstIn (starts : List Nat) (i : Nat) : Nat :=
  ((starts.find? (fun x => decide (10 * i ≤ x) && decide (x < 10 * i + 10))).map (fun x => x - 10 * i)).getD 15

/-- Packets that follow one another as DATA flits, the first with number `n`; the last body is filled with zeros.
Log entry 65 applies (DESIGN CHOICE). -/
def packFlits (n : Nat) (ps : List (List Byte)) : List Flit :=
  let all := ps.flatMap id
  (List.range (ceilDiv all.length 640)).map (fun i =>
    let body := (all.drop (640 * i)).take 640
    ⟨(n + i) % 4096, firstIn (slotStarts 0 ps) i, body ++ leBytes (640 - body.length) 0⟩)

/-- The 20-bit header of a flit: `TYPE` 0 DATA, 1 CONTROL, 2 IDLE. -/
def flitHeader (type seq first : Nat) : Nat := type * 2 ^ 18 + seq % 4096 * 2 ^ 6 + first % 16 * 4

/-- Bytes as 10-bit symbols, low bits first. Log entry 65 applies (DESIGN CHOICE). -/
def symbols10 : List Byte → List Nat
  | a :: b :: c :: d :: e :: l =>
    let w := leNat [a, b, c, d, e]
    bits w 9 0 :: bits w 19 10 :: bits w 29 20 :: bits w 39 30 :: symbols10 l
  | _ => []

/-- The 514 message symbols of a DATA flit: its header, then its body. -/
def Flit.message (f : Flit) : List Nat :=
  let h := flitHeader 0 f.seq f.first
  bits h 9 0 :: bits h 19 10 :: symbols10 f.body

/-- Twice an element of GF(2^10), whose polynomial is x^10 + x^3 + 1. Log entry 139 applies (PRESUMED). -/
def gfDouble (x : Nat) : Nat := if x < 512 then 2 * x else (2 * x) ^^^ 0x409

/-- The product of two elements of GF(2^10), by the low `n` bits of the second. -/
def gfMul : Nat → Nat → Nat → Nat
  | 0, _, _ => 0
  | n + 1, a, b => (if b % 2 = 1 then a else 0) ^^^ gfMul n (gfDouble a) (b / 2)

/-- A polynomial, lowest coefficient first, times x + r. -/
def timesRoot (r : Nat) (p : List Nat) : List Nat := List.zipWith (· ^^^ ·) (0 :: p) (p.map (gfMul 10 r) ++ [0])

/-- The generator polynomial of RS(544,514): its roots are the first 30 powers of α. Log entry 139 applies (PRESUMED). -/
def rsGenerator : List Nat := ((List.range 30).foldl (fun (a : List Nat × Nat) _ => (timesRoot a.2 a.1, gfDouble a.2)) ([1], 1)).1

/-- The remainder after one more message symbol. -/
def rsStep (g rem : List Nat) (m : Nat) : List Nat :=
  List.zipWith (fun a b => a ^^^ gfMul 10 (m ^^^ nth 0 rem 29) b) (0 :: rem) (g.take 30)

/-- The codeword of a flit: 514 message symbols and 30 of parity. -/
def Flit.codeword (f : Flit) : List Nat :=
  let m := f.message
  m ++ (m.foldl (rsStep rsGenerator) (List.replicate 30 0)).reverse

/-- Symbols distributed round-robin over the lanes in use, lowest lane first. -/
def onLanes (lanes cw : List Nat) : List (Nat × List Nat) :=
  lanes.mapIdx (fun j l => (l, ((cw.mapIdx (fun i x => (i, x))).filter (fun y => decide (y.1 % lanes.length = j))).map (·.2)))

end Sys2Proof.Machine
end

