-- ==== Sys2Proof/Machine/Remote.lean ====
section
/-! DEFINITION. The requester's side of the fabric (11_ikiys_fabric.md): routes, output ports, transactions, and MOVE
(R83, R135, R309 to R322). -/

namespace Sys2Proof.Machine

/-! ### The fabric unit -/

def State.fab (s : State) : FabUnit := s.units.fab
def State.setFab (s : State) (f : FabUnit) : State := s.withUnits { s.units with fab := f }

/-- Run-time state of port p. -/
def State.port (s : State) (p : Nat) : PortRun := SMap.get {} s.fab.ports p
def State.setPort (s : State) (p : Nat) (r : PortRun) : State := s.setFab { s.fab with ports := SMap.set {} s.fab.ports p r }

/-- Port states of Table 11-2. -/
def psDisabled : Nat := 0
def psFailed : Nat := 1
def psTraining : Nat := 2
def psAccepted : Nat := 3
def psNarrow : Nat := 4
def psMiswired : Nat := 5

def State.portState (s : State) (p : Nat) : Nat := s.fld (Fld.FAB_PORT_STATUS_STATE p)
def State.portGroup (s : State) (p : Nat) : Nat := s.fld (Fld.FAB_PORT_STATUS_GROUP p)

/-- Lanes in use of a port. -/
def State.portLanes (s : State) (p : Nat) : Nat := 2 ^ s.fld (Fld.FAB_PORT_STATUS_WIDTH p)

/-- ID that names no module (R309). -/
def noModule : Nat := 0x3fff

/-! ### Routes (R309, R310, R312) -/

/-- `DIR` of the active turnout bank for a destination: 0 to 5 a group, 6 LOCAL, 7 NONE. -/
def State.turnoutDir (s : State) (dest : Nat) : Nat := if dest = noModule then 7 else SMap.get 7 s.fab.turnout dest

/-- The bucket of a packet (R312). -/
def bucketOf (src dst a : Nat) : Nat :=
  let g := a / 4096
  let v := (src * 0x9e37) ^^^ (dst * 0x7f4b) ^^^ bits g 19 0 ^^^ bits g 27 20
  (v ^^^ (v / 2 ^ 6) ^^^ (v / 2 ^ 12) ^^^ (v / 2 ^ 18)) % 64

/-- A bucket map of ports with their lanes: floor(64 × lanes / total) contiguous buckets each in port order, and one more
for each of the lowest-numbered ports while buckets remain (R312). -/
def bucketMap (ps : List (Nat × Nat)) : List Nat :=
  let total := ps.foldl (fun t p => t + p.2) 0
  if total = 0 then []
  else
    let base := fun (p : Nat × Nat) => 64 * p.2 / total
    let left := 64 - ps.foldl (fun t p => t + base p) 0
    (ps.mapIdx (fun i p => List.replicate (base p + b2n (decide (i < left))) p.1)).flatMap id

/-- ACCEPTED ports of a group that do not drain, with their lanes; those of one corner where it is given. -/
def State.acceptedPorts (s : State) (g : Nat) (corner : Option Nat) : List (Nat × Nat) :=
  ((List.range 36).filter (fun p => s.portGroup p = g && s.portState p = psAccepted && !(s.port p).drain
    && (match corner with
      | none => true
      | some k => p / 9 = k))).map (fun p => (p, s.portLanes p))

/-- The maps of a group rebuilt: the module map, and one for each corner. -/
def State.rebuildMaps (s : State) (g : Nat) : State :=
  s.setFab { s.fab with maps := (List.range 5).foldl (fun m k =>
    SMap.set [] m (8 * g + k) (bucketMap (s.acceptedPorts g (if k = 0 then none else some (k - 1))))) s.fab.maps }

/-- The output port of a packet in group g: an injected one by the module map, a transit one by the map of the corner at
which it arrived, where that is not empty. Log entry 32 applies (DEDUCED). -/
def State.outPort (s : State) (g src dst a : Nat) (inPort : Option Nat) : Option Nat :=
  let m := SMap.get [] s.fab.maps (8 * g)
  let use := match inPort with
    | none => m
    | some p =>
      let c := SMap.get [] s.fab.maps (8 * g + 1 + p / 9)
      if c.isEmpty then m else c
  use[bucketOf src dst a]?

/-! ### Output ports (R303, R304, R307, R308, R311) -/

/-- Sub-channel of a packet at its output (R311): 1 when it leaves through a dateline, 0 when it leaves in another
dimension than the one in which it arrived, else as it was. -/
def State.subOut (s : State) (sub : Nat) (inPort : Option Nat) (p : Nat) : Nat :=
  if s.flag (Fld.FAB_PORT_STATUS_DATELINE p) then 1
  else match inPort with
    | none => 0
    | some q => if s.portGroup q / 2 = s.portGroup p / 2 then sub else 0

/-- Virtual channel of a class and sub-channel (R306). -/
def vcOf (cls sub : Nat) : Nat := 2 * cls + sub

/-- Packets arrive at ACCEPTED ports alone (R295). -/
def State.arriving (s : State) (p : Nat) (f : State → State) : State := if s.portState p = psAccepted then f s else s

/-- Slots of a packet have left the buffer of the port at which it arrived: they are owed to the peer. -/
def State.owe (s : State) (inPort : Option Nat) (vc slots : Nat) : State :=
  match inPort with
  | none => s
  | some p =>
    let r := s.port p
    s.setPort p { r with owed := r.owed ++ [(s.time.toNat, vc, slots)] }

/-- A packet that waited at a port is gone: its slots in the input buffer are free. -/
def State.oweFor (s : State) (w : Waiting) : State :=
  match w.from' with
  | none => s
  | some (q, vc) => s.owe (some q) vc w.slots

/-- Arbitration weights of SYNC, GRAD and REQ: those of the image, else the default (Table 11-1). -/
def State.weights (s : State) : List Nat := (s.boot.image.map (·.fabric.weights)).getD [1, 4, 4]

/-- DATA flits that a number of slots fills or begins. Log entry 65 applies (DESIGN CHOICE). -/
def flitsOf (slots : Nat) : Nat := ceilDiv slots 10

/-- The port has credits for a packet, and room in its replay buffer of 1,024 flits, after `ahead` slots that leave just before
it. Log entry 64 applies (DESIGN CHOICE). -/
def PortRun.canSend (r : PortRun) (ahead : Nat) (w : Waiting) : Bool :=
  decide (w.slots ≤ nth 0 r.credits w.vc + nth 0 r.credits 8) && decide (r.flits + flitsOf (ahead + w.slots) ≤ r.acked + 1024)

/-- The source of a packet in its class: 0 this module, 1 + p input port p. -/
def Waiting.source (w : Waiting) : Nat :=
  match w.from' with
  | none => 0
  | some (p, _) => p + 1

/-- The packets that head their channel and source, with their places in the queue. -/
def headsFrom : Nat → List (Nat × Nat) → List Waiting → List (Nat × Waiting)
  | _, _, [] => []
  | i, seen, w :: l =>
    if seen.contains (w.vc, w.source) then headsFrom (i + 1) seen l
    else (i, w) :: headsFrom (i + 1) ((w.vc, w.source) :: seen) l

/-- How many turns a source waits after `last`. -/
def turnsAfter (last source : Nat) : Nat := (source + 36 - last) % 37

/-- The packet of class `c` that goes next: sources take turns (R308). -/
def PortRun.classNext (r : PortRun) (ahead c : Nat) : Option (Nat × Waiting) :=
  ((headsFrom 0 [] r.queue).filter (fun x => decide (x.2.vc / 2 = c) && r.canSend ahead x.2)).foldl (fun best x =>
    match best with
    | none => some x
    | some y => if turnsAfter (nth 0 r.last c) x.2.source < turnsAfter (nth 0 r.last c) y.2.source then some x else some y) none

/-- The classes that share a port by weight, in the order of `WEIGHTS`: SYNC, GRAD and REQ. -/
def sharedClasses : List Nat := [2, 3, 0]

/-- Rounds of weight `w` until a balance is positive. -/
def roundsFor (w : Nat) (b : Int) : Nat := (-b).toNat / max w 1 + 1

/-- The balances, in slots: where no class that can send has one above 0, each of these gains its weight in as many rounds as
make one positive. Log entry 64 applies (DESIGN CHOICE). -/
def refill (ws : List Nat) (bal : List Int) (can : List Bool) : List Int :=
  let up := (List.range 3).filter (fun k => nth false can k)
  if up.any (fun k => decide (0 < nth 0 bal k)) then bal
  else
    match up.map (fun k => roundsFor (nth 1 ws k) (nth 0 bal k)) with
    | [] => bal
    | n :: l => up.foldl (fun b k => setNth b k (nth 0 b k + nth 1 ws k * (l.foldl min n))) bal

/-- The packet that a port sends next, with the balances after it: RSP strictly first, then SYNC, GRAD and REQ by weighted
round-robin, counted in slots (R308). -/
def PortRun.pick (r : PortRun) (ws : List Nat) (ahead : Nat) : Option (Nat × Waiting × List Int) :=
  match r.classNext ahead 1 with
  | some x => some (x.1, x.2, r.turn)
  | none =>
    let c := sharedClasses.map (r.classNext ahead)
    let bal := refill ws r.turn (c.map Option.isSome)
    (List.range 3).findSome? (fun k =>
      match nth none c k with
      | none => none
      | some x => if 0 < nth 0 bal k then some (x.1, x.2, setNth bal k (nth 0 bal k - x.2.slots)) else none)

/-- The port takes a packet out of its queue: it draws the channel's own credits first. Log entry 64 applies (DESIGN CHOICE). -/
def PortRun.send (r : PortRun) (i : Nat) (w : Waiting) (turn : List Int) : PortRun :=
  let own := min w.slots (nth 0 r.credits w.vc)
  let c1 := setNth r.credits w.vc (nth 0 r.credits w.vc - own)
  { r with credits := setNth c1 8 (nth 0 c1 8 - (w.slots - own)), queue := r.queue.eraseIdx i, turn,
           last := setNth r.last (w.vc / 2) w.source }

/-- The packets that a port sends now, in order, and the port after them. -/
def PortRun.serve (ws : List Nat) : Nat → Nat → PortRun → List Waiting × PortRun
  | 0, _, r => ([], r)
  | n + 1, ahead, r =>
    match r.pick ws ahead with
    | none => ([], r)
    | some (i, w, turn) =>
      let x := PortRun.serve ws n (ahead + w.slots) (r.send i w turn)
      (w :: x.1, x.2)

/-- Count DATA flits in units of 1,024 (Table 11-30). -/
def State.countFlits (s : State) (cnt sat : Field) (before after : Nat) : State :=
  if after / 1024 = before / 1024 then s else s.bump cnt sat (after / 1024 - before / 1024)

/-- Does a port return credits that became free at time `t`? `TST_CREDIT` makes listed ports withhold them (R489). -/
def State.returns (s : State) (p t : Nat) : Bool :=
  !bit (s.fld Fld.TST_CREDIT_PORTS) p || decide (t + s.fld Fld.TST_CREDIT_DELAY_NS ≤ s.time.toNat)

/-- Slots by channel. -/
def creditsOf (l : List (Nat × Nat × Nat)) : List Nat :=
  tab 8 (fun v => (l.filter (fun x => decide (x.2.1 = v))).foldl (fun n x => n + x.2.2) 0)

/-- A port sends a CONTROL flit: the last DATA flit received in order, a NAK bit, the credits it owes, and its identity record where
it is due (R304). Log entry 65 applies (DESIGN CHOICE). -/
def State.sendControl (s : State) (p : Nat) (nak : Bool) (record : List Byte) : State :=
  let r := s.port p
  (s.setPort p { r with owed := r.owed.filter (fun x => !s.returns p x.1), since := 0 }).emit
    (.control p ((r.received + 4095) % 4096) nak (creditsOf (r.owed.filter (fun x => s.returns p x.1))) record)

/-- Lanes in use of a port, lowest first. -/
def State.lanesUsed (s : State) (p : Nat) : List Nat :=
  (List.range 8).filter (fun l => bit (s.fld (Fld.FAB_PORT_STATUS_LANES_USED p)) l)

/-- A port sends a DATA flit, and after the 85th since the last CONTROL flit another. -/
def State.sendFlit (s : State) (p : Nat) (f : Flit) : State :=
  let r := s.port p
  let s1 := ((s.setPort p { r with since := r.since + 1, tx := r.tx + 1 }).emit (.flit p f (onLanes (s.lanesUsed p) f.codeword))).countFlits
    (Fld.FAB_PORT_TRAFFIC_TX_KFLITS p) (Fld.FAB_PORT_TRAFFIC_TX_SAT p) r.tx (r.tx + 1)
  if r.since + 1 < 85 then s1 else s1.sendControl p false []

/-- The bytes of a packet that leaves at port p; those of one whose CRC has failed carry another that fails. -/
def State.sendBytes (s : State) (p : Nat) (w : Waiting) : List Byte × State :=
  let d := if w.pkt.crcOk then (0, s) else s.draw
  let l := w.pkt.bytes d.1
  (l, (d.2.oweFor w).emit (.packet p l))

/-- The bytes of packets that leave one after another. -/
def State.sendAll (s : State) (p : Nat) : List Waiting → List (List Byte) × State
  | [] => ([], s)
  | w :: l =>
    let x := s.sendBytes p w
    let y := x.2.sendAll p l
    (x.1 :: y.1, y.2)

/-- A port sends what may go: packets follow one another into DATA flits, which its replay buffer keeps. Log entry 65 applies
(DESIGN CHOICE). -/
def State.portPump (s : State) (p : Nat) : State :=
  let x := PortRun.serve s.weights (s.port p).queue.length 0 (s.port p)
  if x.1.isEmpty then s
  else
    let b := (s.setPort p x.2).sendAll p x.1
    let fs := packFlits x.2.flits b.1
    let r := b.2.port p
    let s1 := b.2.setPort p { r with flits := r.flits + fs.length, replay := r.replay ++ fs }
    (fs.foldl (fun a f => a.sendFlit p f) s1).perf 7 p (x.1.foldl (fun n w => n + w.slots) 0)

/-- A port takes a packet. -/
def State.onPort (s : State) (p : Nat) (w : Waiting) : State :=
  let r := s.port p
  (s.setPort p { r with queue := r.queue ++ [w] }).portPump p

/-! ### Transactions (R318, R319, R322) -/

/-- Status of an operation at its source: UNMAPPED for a destination with entry NONE, DENIED for tag 0, NOT_READY until
FABRIC was first set (R302, R314, R319). Log entry 32 applies (DEDUCED). -/
def State.remoteGate (s : State) (dest tag : Nat) : Status :=
  Status.lowest [Status.when (decide (s.turnoutDir dest = 7)) .unmapped, Status.when (tag = 0) .denied,
    Status.when (!s.fab.everReady) .notReady]

/-- Class of an operation: 0 REQ, 2 SYNC for a post, 3 GRAD (Table 11-13). -/
def opClass (op : Nat) : Nat := if op = 3 then 2 else if 0x20 ≤ op then 3 else 0

/-- The packet of transaction `reqId` of module `own`. -/
def Trans.packet (t : Trans) (own reqId : Nat) : Packet :=
  let data := match t.post, t.grad with
    | some x, _ => x.bytes
    | none, some x => x.data
    | none, none => if t.op = 2 then [] else t.data
  { op := t.op, cls := opClass t.op, dst := t.dest, src := own, addr := t.addr, tag := t.tag, reqId, data,
    len := if t.op = 2 then t.len else data.length, kind := b2n (decide (t.op = 3) && t.post.isNone),
    more := (t.grad.map GradPkt.fields).getD [] }

/-- A packet with the sub-channel in which it leaves, as it waits at port q. -/
def State.waitingAt (s : State) (inPort : Option Nat) (p : Packet) (q : Nat) : Waiting :=
  let sub := s.subOut p.sub inPort q
  { vc := vcOf p.cls sub, slots := p.slots, from' := inPort.map (fun i => (i, vcOf p.cls p.sub)), pkt := { p with sub } }

/-- A transaction's packet goes to its output port, where its group admits packets and has one; else it waits (R324).
Log entry 32 applies (DEDUCED). -/
def State.launch (s : State) (reqId : Nat) : State :=
  match SMap.find s.fab.trans reqId with
  | none => s
  | some t =>
    let g := s.turnoutDir t.dest
    match s.outPort g s.moduleId t.dest t.addr none with
    | none => s
    | some p =>
      if t.sent || s.fab.rebuilding.contains g then s
      else
        (s.setFab { s.fab with trans := SMap.insert s.fab.trans reqId { t with sent := true } }).onPort p
          (s.waitingAt none (t.packet s.moduleId reqId) p)

/-- The lowest transaction number that is free. -/
def FabUnit.freeId (f : FabUnit) : Nat := ((List.range 16384).find? (fun i => (SMap.find f.trans i).isNone)).getD 0

/-- Begin a transaction, or let it wait for a free number. -/
def State.inject (s : State) (t : Trans) : State :=
  let f := s.fab
  if 16384 ≤ f.trans.length then s.setFab { f with backlog := f.backlog ++ [t] }
  else (s.setFab { f with trans := SMap.insert f.trans f.freeId { t with at' := s.time.toNat } }).launch f.freeId

/-- A list of transactions with fresh serial numbers: the numbers and the state in which they have begun. -/
def State.injectAll (s : State) : List Trans → List Nat × State
  | [] => ([], s)
  | t :: l =>
    let n := s.fab.serial
    let r := ((s.setFab { s.fab with serial := n + 1 }).inject { t with serial := n }).injectAll l
    (n :: r.1, r.2)

/-- The number of a transaction is free again: the first waiting request begins. -/
def State.freeTrans (s : State) (reqId : Nat) : State :=
  let f := { s.fab with trans := SMap.erase s.fab.trans reqId }
  match f.backlog with
  | [] => s.setFab f
  | t :: l => (s.setFab { f with backlog := l }).inject t

/-- The wait of a core's attention post for its ACK has lasted too long: its transaction ends with TIMEOUT (R323). -/
def State.endPost (s : State) (core : Nat) : State :=
  match s.fab.trans.find? (fun t => match t.2.owner with
      | .attPost c _ => c = core
      | _ => false) with
  | none => s
  | some t => (s.bump Fld.FAB_ERRORS_TIMEOUTS Fld.FAB_ERRORS_TIMEOUT_SAT 1).freeTrans t.1

/-- SLOT_WAIT_TIMEOUT: a slot operation that waited longer than `XCHG_NS` faults the job with TIMEOUT (R99). This
covers a context that waits for posts or merges, a merge held at the owner, and an attention post whose ACK is held
(R177), whose transaction ends (R323). -/
def execSlotWaitTimeout (t : Site) (s : State) : Host.Outcome State Fault Refusal :=
  .next (
    match (s.ctx t).waitsAt with
    | some a =>
      if s.coreRuns t.core then
        (s.endPost t.core).coreFault t.core .timeout (if a / 2 ^ 40 = s.moduleId then a % 2 ^ 40 else a)
      else s
    | none => s)

/-- An instruction in flight hears of one of its transactions. After its last image has landed, a SEND increments MERGED
of its slot by a POST (R179). -/
def State.instrAnswer (s : State) (core serial : Nat) (st : Status) : State :=
  let k := s.core core
  match (List.range k.inflight.length).find? (fun i => ((k.inflight[i]?).map (fun f => f.remote.contains serial)).getD false) with
  | none => s
  | some i =>
    match k.inflight[i]? with
    | none => s
    | some f =>
      let f1 := { f with remote := f.remote.filter (fun x => decide (x ≠ serial)), worst := f.worst.worse st }
      match f1.remote, f1.thenPost with
      | [], some slot =>
        if f1.worst ≠ .ok then s.setCore core { k with inflight := setNth k.inflight i { f1 with thenPost := none } }
        else
          let tag := (s.sched.run.map (·.tag)).getD 0
          let r := s.injectAll [{ serial := 0, op := 3, dest := fabModule slot, addr := fabLocal slot, len := 0, tag, at' := 0,
                                  owner := .instr core }]
          r.2.setCore core { r.2.core core with inflight := setNth (r.2.core core).inflight i { f1 with remote := r.1, thenPost := none } }
      | _, _ => s.setCore core { k with inflight := setNth k.inflight i f1 }

/-! ### Packets that pass through or answer (R307, R311, R314) -/

/-- A packet discarded under R314: counted, and logged with its source as requester. -/
def State.countDrop (s : State) (st : Status) (p : Packet) : State :=
  (s.log 12 st (.remote p.src) p.addr).bump Fld.FAB_ERRORS_DROPS Fld.FAB_ERRORS_DROP_SAT 1

/-- Why a packet cannot be routed: `HOPS` beyond 63, or an entry NONE. -/
def State.routeStatus (s : State) (p : Packet) : Status :=
  Status.when (decide (63 < p.hops) || decide (s.turnoutDir p.dst = 7)) .unmapped

/-- A routable packet goes to its output port; where its group admits none or has none it waits. -/
def State.place (s : State) (inPort : Option Nat) (p : Packet) : State :=
  let g := s.turnoutDir p.dst
  match (if s.fab.rebuilding.contains g then none else s.outPort g p.src p.dst p.addr inPort) with
  | none => s.setFab { s.fab with stranded := s.fab.stranded ++ [(inPort, p)] }
  | some q => s.onPort q (s.waitingAt inPort p q)

/-- The ERROR that answers a packet. -/
def State.errorFor (s : State) (st : Status) (p : Packet) : Packet :=
  { op := 6, cls := 1, dst := p.src, src := s.moduleId, addr := p.addr, tag := p.tag, reqId := p.reqId, st }

/-- Discard a packet, answering it with an ERROR; none answers an RSP packet. Log entry 67 applies (DEDUCED). -/
def State.discard (s : State) (inPort : Option Nat) (st : Status) (p : Packet) : State :=
  let s1 := (s.owe inPort (vcOf p.cls p.sub) p.slots).countDrop st p
  let e := s.errorFor st p
  if p.cls = 1 then s1 else if s1.routeStatus e = .ok then s1.place none e else s1.countDrop .unmapped e

/-- Send a packet on, or discard it. Log entry 67 applies (DEDUCED). -/
def State.sendPacket (s : State) (inPort : Option Nat) (p : Packet) : State :=
  let st := s.routeStatus p
  if st = .ok then s.place inPort p else s.discard inPort st p

/-- Answer a request. Log entry 67 applies (DEDUCED). -/
def State.answerTo (s : State) (h : PktHdr) (op : Nat) (st : Status) (data : List Byte) : State :=
  s.sendPacket none { op, cls := 1, dst := h.src, src := s.moduleId, addr := h.addr, tag := h.tag, reqId := h.reqId, st, data, len := data.length }

/-- What a waiting part hears once its slot is complete: VERIFY where `K_SUM` differs from `K_DECL` (R177). -/
def State.slotVerdict (s : State) (a : Nat) : Status := Status.when (decide (s.num (a + 24) 8 ≠ s.num (a + 16) 8)) .verify

/-- `POSTED` has reached `PARTS`: every held ACK of the slot leaves, with its verdict and bytes 32 to 815 (R177, R323).
Log entry 68 applies (DEDUCED). -/
def State.releaseHeld (s : State) (a : Nat) : State :=
  if s.slotParts a = 0 || decide (s.slotPosted a ≠ s.slotParts a) then s
  else
    let l := s.fab.held.filter (fun x => decide (x.slot = a))
    l.foldl (fun x d => x.sendPacket none { op := 4, cls := 1, dst := d.src, src := x.moduleId, addr := a, tag := d.tag, reqId := d.reqId,
                                            st := s.slotVerdict a, data := s.bytes (a + 32) 784, len := 784 })
      (s.setFab { s.fab with held := s.fab.held.filter (fun x => decide (x.slot ≠ a)) })

/-! ### MOVE (R83, R101, R117, R135, R318) -/

/-- Pieces of `n` bytes at fabric address `a` that cross no 2 KiB boundary: offset and length of each. -/
def piecesFrom (a : Nat) : Nat → Nat → Nat → List (Nat × Nat)
  | 0, _, _ => []
  | fuel + 1, off, n =>
    if n = 0 then []
    else
      let k := min n (2048 - (a + off) % 2048)
      (off, k) :: piecesFrom a fuel (off + k) (n - k)

def pieces (a n : Nat) : List (Nat × Nat) := piecesFrom a (n / 2048 + 2) 0 n

/-- The tag latched for the running job (R319). -/
def State.jobTag (s : State) : Nat := (s.sched.run.map (·.tag)).getD 0

/-- A committed write (R135): the holding entry's COMMIT word and the number of the write; none for any other. -/
def State.commitOf (s : State) (t : Site) (dst n : Nat) : Option (Nat × Nat) :=
  match s.sched.run.bind (·.nest), (s.ctx t).item with
  | some r, some it =>
    let o := (nth ⟨255, 0, 255, 0, 0, 0, 0⟩ r.desc.operands 2).buf
    if r.desc.committed && (s.ctx t).inBody && decide (o ≠ 255) && ((s.buf o).map (fun x => within dst n x.base x.size)).getD false then
      some (s.holdAddr r t.core (t.ctx - r.ops.ctxFirst) + 16, it.writes)
    else none
  | _, _ => none

/-- The commit log's SKIPPED counts a write that is not performed. -/
def State.countSkipped (s : State) : State :=
  match s.sched.run.bind (·.nest) with
  | none => s
  | some r =>
    let a := s.exchBase + r.desc.logOff
    s.putNum a 8 (s.num a 8 + 1)

/-- The context's item has issued one more committed write. Log entry 31 applies (DEDUCED). -/
def State.nextWrite (s : State) (t : Site) : State :=
  let c := s.ctx t
  s.setCtx t { c with item := c.item.map (fun it => { it with writes := it.writes + 1 }) }

/-- A write that may be a committed one (R135): VERIFY past the 64th; one that has landed before is not performed and counted;
another is made by `go`. -/
def State.committed (s : State) (t : Site) (com : Option (Nat × Nat)) (go : State → Eff × List Nat × Option (Nat × Nat)) :
    Eff × List Nat × Option (Nat × Nat) :=
  match com with
  | none => go s
  | some (a, b) =>
    let rd := s.readCheck s.coreClass (.core t.core) a 8
    if 64 ≤ b then (.fault .verify (s.pcAddr t) s, [], none)
    else if rd.1 ≠ .ok then (.fault rd.1 a rd.2, [], none)
    else if bit (s.num a 8) b then (.done (rd.2.nextWrite t).countSkipped, [], none)
    else go (rd.2.nextWrite t)

/-- What a MOVE sends to other modules: READs of its source or WRITEs of its destination. Log entry 31 applies (DEDUCED). -/
def State.moveTrans (s : State) (core src dst n : Nat) (data : List Byte) : List Trans :=
  let own := s.moduleId
  if fabModule dst ≠ own then
    (pieces dst n).map (fun p => { serial := 0, op := 1, dest := fabModule dst, addr := fabLocal dst + p.1, len := p.2,
                                   data := (data.drop p.1).take p.2, tag := s.jobTag, at' := 0, owner := .instr core })
  else
    (pieces src n).map (fun p => { serial := 0, op := 2, dest := fabModule src, addr := fabLocal src + p.1, len := p.2,
                                   into := fabLocal dst + p.1, tag := s.jobTag, at' := 0, owner := .instr core })

/-- Why a MOVE is refused at issue: a length above 2^30, two other modules, or what its source and destination may not do;
the lowest status with its address (R18, R83, R117, R319). -/
def State.moveCheck (s : State) (t : Site) (src dst n : Nat) : Status × Nat :=
  let own := fun a => decide (fabModule a = s.moduleId)
  let at' := fun a => if own a then fabLocal a else a
  let side := fun kinds a => if own a then s.jobAccess t.core kinds (fabLocal a) n else s.remoteGate (fabModule a) s.jobTag
  firstLowest [(Status.when (decide (2 ^ 30 < n)) .verify, s.pcAddr t), (Status.when (!own src && !own dst) .denied, dst),
    (side readKinds src, at' src), (side writeKinds dst, at' dst)]

/-- A MOVE that may be made: at once where both ends are local, else by transactions with the other module. -/
def State.moveNow (s : State) (t : Site) (src dst n : Nat) (com : Option (Nat × Nat)) : Eff × List Nat × Option (Nat × Nat) :=
  let a := fabLocal src
  if fabModule src = s.moduleId && fabModule dst = s.moduleId then
    let r := s.jobCopy t.core a (fabLocal dst) n
    if r.1 ≠ .ok then (.fault r.1 a r.2, [], none) else (.done r.2, [], com)
  else
    let rd : Status × List Byte × State := if fabModule src = s.moduleId then s.jobRead t.core a n else (.ok, [], s)
    if rd.1 ≠ .ok then (.fault rd.1 a rd.2.2, [], none)
    else
      let r := rd.2.2.injectAll (s.moveTrans t.core src dst n rd.2.1)
      (.done r.2, r.1, com)

/-- The effect of MOVE at issue, with the numbers of its remote transactions and its committed write.
Log entry 31 applies (DEDUCED). -/
def moveStart (t : Site) (src dst n : Nat) (s : State) : Eff × List Nat × Option (Nat × Nat) :=
  let com := if fabModule dst = s.moduleId then s.commitOf t (fabLocal dst) n else none
  let bad := s.moveCheck t src dst n
  if n = 0 then (.done s, [], none)
  else if bad.1 ≠ .ok then (.fault bad.1 bad.2 s, [], none)
  else s.committed t com (fun s1 => s1.moveNow t src dst n com)

/-- A MOVE in flight, with the numbers of its remote transactions and its committed write. -/
def State.moveFlight (s : State) (t : Site) (h : Hdr) (ids : List Nat) (com : Option (Nat × Nat)) : InFlight :=
  { ctx := t.ctx, signal := h.signal, pc := (s.ctx t).pc, isMove := true, remote := ids, commit := com }

/-- Issue of an instruction whose in-flight record is known only once its effect is. -/
def State.issueMove (s : State) (t : Site) (h : Hdr) (unit : UnitClass) (ok : Bool)
    (body : State → Eff × List Nat × Option (Nat × Nat)) : State :=
  s.issueAs t { h with signal := 0 } { plainFlight t h with unit } true (ok && decide (h.signal < 64)) (fun s1 =>
    match body s1 with
    | (.done s2, ids, com) =>
      let k := s2.core t.core
      .done (s2.setCore t.core { k with inflight := k.inflight ++ [s1.moveFlight t h ids com] })
    | (e, _, _) => e)

/-- MOVE: the source, destination and length are words 0 of their pairs (Table 03-8). -/
def execMove (t : Site) (h : Hdr) (o : MoveOps) (s : State) : Host.Outcome State Fault Refusal :=
  .next (s.issueMove t h .other o.ok (fun s1 =>
    let c := s1.ctx t
    moveStart t (regAddr (c.sreg o.srcReg)) (regAddr (c.sreg o.dstReg)) (c.sreg o.lenReg).toNat s1))

end Sys2Proof.Machine
end

