-- ==== Sys2Proof/Machine/Reals.lean ====
section
/-! DEFINITION. Real functions to more than 150 correct bits: fixed-point integers with 512 fraction bits, from which
the special functions (R138 to R150) and the normal table (R248) take the exact values that their rules round. -/

namespace Sys2Proof.Machine

/-- Fraction bits, and 1. -/
def fxBits : Nat := 512
def fxOne : Int := (2 ^ fxBits : Nat)

/-- Product and quotient of fixed-point numbers. -/
def fmul (a b : Int) : Int := a * b / fxOne
def fdivFx (a b : Int) : Int := a * fxOne / b

/-- `±m × 2^e` as a fixed-point number. -/
def toFx (neg : Bool) (m : Nat) (e : Int) : Int := shiftInt (sgn neg m) (e + fxBits)

/-- `n` terms of the exponential series from term k. -/
def expTerms (x : Int) : Nat → Nat → Int → Int → Int
  | 0, _, _, acc => acc
  | n + 1, k, t, acc =>
    let t1 := fmul t x / ((k : Int) + 1)
    expTerms x n (k + 1) t1 (acc + t1)

/-- e^x for |x| ≤ 1. -/
def expFx (x : Int) : Int := expTerms x 128 0 fxOne fxOne

/-- `n` terms of z + z³/3 + z⁵/5 + … from term k. -/
def atanhTerms (z2 : Int) : Nat → Nat → Int → Int → Int
  | 0, _, _, acc => acc
  | n + 1, k, t, acc => atanhTerms z2 n (k + 1) (fmul t z2) (acc + t / ((2 * k + 1 : Nat) : Int))

/-- artanh z for |z| ≤ 1/3. -/
def atanhFx (z : Int) : Int := atanhTerms (fmul z z) 180 0 z 0

/-- ln 2. -/
def ln2Fx : Int := 2 * atanhFx (fxOne / 3)

/-- ln m for m in [1/2, 2]. -/
def lnFx (m : Int) : Int := 2 * atanhFx (fdivFx (m - fxOne) (m + fxOne))

/-- e^x as n and a number in [1, 2), the value being its 2^n multiple. -/
def expSplit (x : Int) : Int × Int :=
  let n := Int.fdiv x ln2Fx
  (n, expFx (x - n * ln2Fx))

/-- e^x as one fixed-point number. -/
def expWhole (x : Int) : Int :=
  let p := expSplit x
  shiftInt p.2 p.1

/-- `n` terms of arctan(1/d) from term k. -/
def atanInvTerms (d2 : Int) : Nat → Nat → Int → Int → Int
  | 0, _, _, acc => acc
  | n + 1, k, t, acc =>
    atanInvTerms d2 n (k + 1) (t / d2) (acc + (if k % 2 = 0 then 1 else -1) * (t / ((2 * k + 1 : Nat) : Int)))

/-- arctan(1/d). -/
def atanInv (d : Nat) : Int := atanInvTerms ((d * d : Nat) : Int) 130 0 (fxOne / (d : Int)) 0

/-- π (Machin). -/
def piFx : Int := 16 * atanInv 5 - 4 * atanInv 239

/-- Floor of the square root of `v`, by bits n − 1 to 0. -/
def sqrtBits (v : Nat) : Nat → Nat → Nat
  | 0, r => r
  | n + 1, r =>
    let c := r + 2 ^ n
    sqrtBits v n (if c * c ≤ v then c else r)

/-- Floor of a square root below 2^1024. -/
def natSqrt (v : Nat) : Nat := sqrtBits v 1024 0

/-- `n` terms of the sine or cosine series: the next term is −t θ² / ((j + 1)(j + 2)). -/
def trigTerms (th2 : Int) : Nat → Nat → Int → Int → Int
  | 0, _, _, acc => acc
  | n + 1, j, t, acc =>
    let t1 := -(fmul t th2) / (((j + 1) * (j + 2) : Nat) : Int)
    trigTerms th2 n (j + 2) t1 (acc + t1)

/-- sin θ and cos θ for |θ| ≤ 2π. -/
def sinFx (th : Int) : Int := trigTerms (fmul th th) 100 1 th th
def cosFx (th : Int) : Int := trigTerms (fmul th th) 100 0 fxOne fxOne

/-- `n` terms of the series of erf from term k. -/
def erfTerms (z2 : Int) : Nat → Nat → Int → Int → Int
  | 0, _, _, acc => acc
  | n + 1, k, t, acc =>
    erfTerms z2 n (k + 1) (-(fmul t z2) / ((k : Int) + 1)) (acc + t / ((2 * k + 1 : Nat) : Int))

/-- √π. -/
def sqrtPiFx : Int := (natSqrt (piFx.toNat * 2 ^ fxBits) : Nat)

/-- erf z with `n` terms: 640 suffice for |z| ≤ 11. -/
def erfN (n : Nat) (z : Int) : Int := fdivFx (2 * erfTerms (fmul z z) n 0 z 0) sqrtPiFx

/-- erf z for |z| ≤ 11. -/
def erfFx (z : Int) : Int := erfN 640 z

/-- √2. -/
def sqrt2Fx : Int := (natSqrt (2 * 2 ^ (2 * fxBits)) : Nat)

end Sys2Proof.Machine
end

