-- ==== Sys2Proof/Machine/Special.lean ====
section
/-! DEFINITION. The special-function unit (R138 to R154): the functions of Table 05-2 in native and Odgal-2 mode, row
maxima, the saving and merging of long accumulators. A result that the tables of coefficients decide is a free value
inside its error bound; it steps from each FP32 number to the next at one place, so that the functions of R144 stay
monotone. -/

namespace Sys2Proof.Machine

/-! ### Rounding inside an error bound (R140, R142) -/

/-- Which table a result comes from: generation, mode and function code. -/
structure SfnKey where
  gen : Nat
  compat : Nat
  func : Nat

/-- The generation that decides a result: Odgal-2's coefficients never change (R146). -/
def SfnKey.tables (k : SfnKey) : Nat := if k.compat = 0 then k.gen else 0

/-- Number of the FP32 cell that holds the magnitude `m × 2^e` (the encoding at or below it), and the position in it in
units of 2^-64. -/
def cellOf (m : Nat) (e : Int) : Nat × Nat :=
  if m = 0 then (0, 0)
  else
    let ex : Int := (log2 m : Int) + e
    let lsb : Int := max (ex - 23) (-149)
    let q := (shiftInt m (e - lsb)).toNat
    let p := (shiftInt m (e - lsb + 64)).toNat
    (encodeFin 0 false q lsb, p - q * 2 ^ 64)

/-- Distance of number `c` from a position, in units of 2^-64 ulp of the position's own cell: numbers of the next
binade lie twice as far apart. Log entry 35 applies (DESIGN CHOICE). -/
def cellDist (cell pos c : Nat) : Nat :=
  let edge := (cell / 2 ^ 23 + 1) * 2 ^ 23
  if c ≤ cell then (cell - c) * 2 ^ 64 + pos
  else if c ≤ edge || cell < 2 ^ 23 then (c - cell) * 2 ^ 64 - pos
  else (edge - cell + 2 * (c - edge)) * 2 ^ 64 - pos

/-- Hundredths of an ulp in units of 2^-64. -/
def ulps (b : Nat) : Nat := b * 2 ^ 64 / 100

/-- Does the result reach number `c`: is the position past the free place, inside the bound, where the table steps to
`c`? Log entry 35 applies (DESIGN CHOICE). -/
def stepsTo (k : SfnKey) (key b cell pos c : Nat) : Bool :=
  let w := ulps b
  let place := c * 2 ^ 64 + Config.sfnStep (1048576 * k.compat + 1024 * key + k.func) k.tables k.func c % (2 * w + 1 - 2 ^ 64)
  c = 0 || (decide (place ≤ cell * 2 ^ 64 + pos + w) && decide (cellDist cell pos c ≤ w))

/-- The number chosen inside `b` hundredths of an ulp of a magnitude.
Log entry 34 applies (DESIGN CHOICE). Log entry 35 applies (DESIGN CHOICE). -/
def pickCell (k : SfnKey) (key b m : Nat) (e : Int) : Nat :=
  let p := cellOf m e
  let top := p.1 + 4
  ((List.range 9).map (fun i => top - i)).find? (stepsTo k key b p.1 p.2) |>.getD p.1

/-- The encoding of +∞; numbers from it on are beyond FP32. -/
def infCode : Nat := 0x7f800000

/-- A magnitude with its sign as result and flags (R140). Log entry 34 applies (DESIGN CHOICE). -/
def pick (k : SfnKey) (key b : Nat) (neg : Bool) (m : Nat) (e : Int) : Conv :=
  let c := pickCell k key b m e
  let s := b2n neg * 2 ^ 31
  if infCode ≤ c then ⟨s + infCode, flagOverflow⟩
  else ⟨s + c, flagIf (decide (m ≠ 0) && decide (c < 2 ^ 23)) flagTiny⟩

/-- A signed fixed-point value as result. Log entry 34 applies (DESIGN CHOICE). -/
def pickFx (k : SfnKey) (key b : Nat) (x : Int) : Conv :=
  pick k key b (decide (x < 0)) x.natAbs (-(fxBits : Int))

/-- A result whose magnitude is held between two encodings, as the order of R144 and R147 asks. -/
def Conv.held (lo hi : Nat) (c : Conv) : Conv :=
  let m := c.bits % 2 ^ 31
  { c with bits := c.bits - m + max lo (min hi m) }

/-- A correctly rounded magnitude; `more` says that the exact value lies above it. -/
def nearest (neg : Bool) (m : Nat) (e : Int) (more : Bool) : Conv :=
  roundFloat 0 0 neg m e (if more then 1 else 0) e (fun _ => 0)

/-- The narrowest bound among the groups that meet in a cell: a seam whose value lies in the cell takes part with the
bound of the group at its other side (R142, R143). Log entry 35 applies (DESIGN CHOICE). -/
def seamBound (cell own : Nat) (seams : List (Int × Nat)) : Nat :=
  seams.foldl (fun b s => if (cellOf s.1.natAbs (-(fxBits : Int))).1 = cell then min b s.2 else b) own

/-! ### Special inputs (Table 05-3) -/

def plusInf : Conv := ⟨infCode, 0⟩
def one32 : Nat := 0x3f800000

/-- A signed zero. -/
def zero32 (neg : Bool) : Conv := ⟨b2n neg * 2 ^ 31, 0⟩

/-- `±c` for an encoding of a magnitude. -/
def signed32 (neg : Bool) (c : Nat) : Conv := ⟨b2n neg * 2 ^ 31 + c, 0⟩

/-- The NaN of an input that is not NaN. -/
def newNaN : Conv := nanConv flagInvalid

/-! ### The functions of a finite input -/

/-- 2^(n + f) for f in [0, 1), fixed-point. -/
def exp2Frac (f : Int) : Int := expFx (fmul f ln2Fx)

/-- Clamp an exponent: beyond 700 every FP32 result overflows or vanishes. -/
def clampExp (n : Int) : Int := max (-700) (min 700 n)

/-- Integer part and fraction of a finite value. -/
def splitFloor (x : Int) : Int × Int := (Int.fdiv x fxOne, x - Int.fdiv x fxOne * fxOne)

/-- EXP2 in native mode of f in [0, 1): an encoding in [1, 2] (R142). -/
def exp2Sig (k : SfnKey) (f : Int) : Nat := if f = 0 then one32 else (pickFx { k with func := 0 } 0 51 (exp2Frac f)).bits

/-- x × 2^n rounded once (SCALB). -/
def scaleBy (code : Nat) (neg : Bool) (m : Nat) (e n : Int) : Conv :=
  roundFloat 0 code neg m (e + clampExp n) 0 (e + clampExp n) (fun _ => 0)

/-- EXP2A(x, a) = SCALB(EXP2(f), n − a) under RNE (R148). -/
def exp2a (k : SfnKey) (s : Bool) (m : Nat) (e : Int) (a : Int) : Conv :=
  let p := splitFloor (toFx s m e)
  match decodeElem 0 (exp2Sig k p.2) with
  | .fin _ m1 e1 => scaleBy 0 false m1 e1 (p.1 - a)
  | _ => plusInf

/-- The result of an exponential for an input of sign `s`: it does not pass 1, its value at 0 (R144, R147). -/
def Conv.besideOne (s : Bool) (c : Conv) : Conv := if s then c.held 0 one32 else c.held one32 infCode

/-- EXP2: native as EXP2A with anchor 0 (R148), Odgal-2 within its bound and 1 at 0 (Table 05-3). -/
def sfnExp2 (k : SfnKey) (s : Bool) (m : Nat) (e : Int) : Conv :=
  if k.compat = 0 then exp2a k s m e 0
  else if m = 0 then ⟨one32, 0⟩
  else
    let p := splitFloor (toFx s m e)
    (pick k 0 100 false (exp2Frac p.2).natAbs (clampExp p.1 - fxBits)).besideOne s

/-- A fixed-point value held within ±n, where a function no longer changes its rounded result. -/
def clampFx (n : Nat) (x : Int) : Int := max (-(n * fxOne)) (min (n * fxOne) x)

/-- EXP. -/
def sfnExp (k : SfnKey) (s : Bool) (m : Nat) (e : Int) : Conv :=
  let p := expSplit (clampFx 300 (toFx s m e))
  if m = 0 then ⟨one32, 0⟩ else (pick k 0 (if k.compat = 0 then 54 else 200) false p.2.natAbs (p.1 - fxBits)).besideOne s

/-- m in [0.75, 1.5) and e with x = 2^e × m, fixed-point. -/
def logSplit (m : Nat) (e : Int) : Int × Int :=
  let x := shiftInt m ((fxBits : Int) - log2 m)
  let n := (log2 m : Int) + e
  if 3 * fxOne ≤ 2 * x then (n + 1, x / 2) else (n, x)

/-- log2 of 2^n × x. -/
def log2Of (n x : Int) : Int := n * fxOne + fdivFx (lnFx x) ln2Fx

/-- Bound of LOG2's groups (Table 05-4), seams apart. -/
def log2Bound (n x : Int) : Nat :=
  let lo := 15 * fxOne / 16
  let hi := 17 * fxOne / 16
  if lo ≤ x && x < hi then
    seamBound (cellOf (log2Of n x).natAbs (-(fxBits : Int))).1 53 [(log2Of n lo, 52), (log2Of n hi, 52)]
  else 52

/-- The inputs of Odgal-2's one backward step (R147). -/
def odgalStep (s : Bool) (m : Nat) (e : Int) : Option Nat :=
  if !s && m = 0xbfffff && e = -23 then some 0x3f15c01a
  else if !s && m = 0xc00000 && e = -23 then some 0x3f15c019 else none

/-- LOG2 of a positive number. -/
def sfnLog2 (k : SfnKey) (m : Nat) (e : Int) : Conv :=
  let p := logSplit m e
  let y := log2Of p.1 p.2
  let neg := b2n (decide (y < 0))
  if y = 0 then ⟨0, 0⟩
  else if k.compat = 0 then pickFx k neg (log2Bound p.1 p.2) y
  else match odgalStep false m e with
    | some r => ⟨r, 0⟩
    | none => pickFx k neg 200 y

/-- LN of a positive number. -/
def sfnLn (k : SfnKey) (m : Nat) (e : Int) : Conv :=
  let p := logSplit m e
  let y := p.1 * ln2Fx + lnFx p.2
  if y = 0 then ⟨0, 0⟩ else pickFx k (b2n (decide (y < 0))) (if k.compat = 0 then 56 else 200) y

/-- tanh of a positive fixed-point value. -/
def tanhFx (x : Int) : Int :=
  let w := expWhole (2 * x)
  fdivFx (w - fxOne) (w + fxOne)

/-- TANH (Table 05-4). -/
def sfnTanh (k : SfnKey) (s : Bool) (m : Nat) (e : Int) : Conv :=
  let x := clampFx 100 (toFx false m e)
  let y := tanhFx x
  let cell := (cellOf y.natAbs (-(fxBits : Int))).1
  if k.compat ≠ 0 then (pick k 0 200 s y.natAbs (-(fxBits : Int))).held 0 one32
  else if x < fxOne / 4096 then
    let c := encodeFin 0 false m e
    ⟨b2n s * 2 ^ 31 + c, flagIf (decide (c < 2 ^ 23)) flagTiny⟩
  else if 37 * fxOne ≤ 4 * x then signed32 s one32
  else pick k 0 (if 8 * x < fxOne then 53 else seamBound cell 58 [(tanhFx (fxOne / 8), 53)]) s y.natAbs (-(fxBits : Int))

/-- 1 / (1 + e^−x). -/
def sigmoidFx (x : Int) : Int := fdivFx fxOne (fxOne + expWhole (-x))

/-- Bound of SIGMOID's groups. -/
def sigmoidBound (x : Int) (cell : Nat) : Nat :=
  let lo := -(35 * fxOne / 2)
  if x < lo then seamBound cell 71 [(sigmoidFx lo, 62)]
  else if x < 0 then seamBound cell 62 [(sigmoidFx 0, 55)] else 55

/-- SIGMOID (Table 05-4). -/
def sfnSigmoid (k : SfnKey) (s : Bool) (m : Nat) (e : Int) : Conv :=
  let x := clampFx 200 (toFx s m e)
  let y := sigmoidFx x
  if m = 0 then ⟨0x3f000000, 0⟩
  else if k.compat ≠ 0 then (if s then (pickFx k 0 300 y).held 0 0x3f000000 else (pickFx k 0 300 y).held 0x3f000000 one32)
  else if 35 * fxOne ≤ 2 * x then ⟨one32, 0⟩
  else pickFx k 0 (sigmoidBound x (cellOf y.natAbs (-(fxBits : Int))).1) y

/-- The product x × 2/√π to 48 bits, rounded once, which is ERF below 2^-12 (Table 05-4). Log entry 34 applies
(DESIGN CHOICE). -/
def erfSmall (s : Bool) (m : Nat) (e : Int) : Conv :=
  let p := m * (fdivFx (2 * fxOne) sqrtPiFx).toNat
  let k := log2 p + 1 - 48
  nearest s (p / 2 ^ k) (e - fxBits + k) false

/-- ERF at the largest number below 2^-12, below which no result from there on falls (R143, R144). -/
def erfSeam : Nat := (erfSmall false (2 ^ 24 - 1) (-36)).bits

/-- ERF (Table 05-4). -/
def sfnErf (k : SfnKey) (s : Bool) (m : Nat) (e : Int) : Conv :=
  let x := clampFx 8 (toFx false m e)
  let y := erfFx x
  let cell := (cellOf y.natAbs (-(fxBits : Int))).1
  if 4 * fxOne ≤ x then signed32 s one32
  else if x < fxOne / 4096 then erfSmall s m e
  else
    let b := if 4 * x < fxOne then 53 else seamBound cell 57 [(erfFx (fxOne / 4), 53)]
    (pick k 0 b s y.natAbs (-(fxBits : Int))).held erfSeam one32

/-- 1 / x for a non-zero number, correctly rounded, or within 1 ulp under Odgal-2. -/
def sfnRcp (k : SfnKey) (s : Bool) (m : Nat) (e : Int) : Conv :=
  let q := 2 ^ 200 / m
  if k.compat = 0 then nearest s q (-200 - e) (decide (2 ^ 200 % m ≠ 0)) else pick k 0 100 s q (-200 - e)

/-- `m × 2^e` with an even exponent and at least 400 bits. -/
def evenExp (m : Nat) (e : Int) : Nat × Int := if e % 2 = 0 then (m * 2 ^ 400, e - 400) else (m * 2 ^ 401, e - 401)

/-- √x of a positive number. -/
def sfnSqrt (m : Nat) (e : Int) : Conv :=
  let p := evenExp m e
  let r := natSqrt p.1
  nearest false r (p.2 / 2) (decide (r * r ≠ p.1))

/-- 1/√x of a positive number: the root of 2^1000 / m. -/
def sfnRsqrt (k : SfnKey) (m : Nat) (e : Int) : Conv :=
  let p : Nat × Int := if e % 2 = 0 then (m, e) else (2 * m, e - 1)
  let q := 2 ^ 1000 / p.1
  let r := natSqrt q
  let ex : Int := -500 - p.2 / 2
  if k.compat = 0 then nearest false r ex (decide (r * r ≠ q) || decide (2 ^ 1000 % p.1 ≠ 0)) else pick k 0 100 false r ex

/-- |x| mod 2, fixed-point. -/
def modTwo (m : Nat) (e : Int) : Int := shiftInt m (e + fxBits) % (2 * fxOne)

/-- sin(πy) for y in [0, 2): sign and magnitude. -/
def sinPi (y : Int) : Bool × Int :=
  let z := if fxOne ≤ y then y - fxOne else y
  let w := if fxOne < 2 * z then fxOne - z else z
  (decide (fxOne ≤ y), sinFx (fmul w piFx))

/-- The input's own bits, the key of a function without a guarantee of R144. -/
def inputKey (s : Bool) (m : Nat) (e : Int) : Nat := b2n s * 2 ^ 31 + encodeFin 0 false m e

/-- SINPI of a non-zero number. -/
def sfnSinpi (k : SfnKey) (s : Bool) (m : Nat) (e : Int) : Conv :=
  let y := modTwo m e
  let r := sinPi y
  if y % fxOne = 0 then zero32 s else pick k (inputKey s m e) 68 (r.1 != s) r.2.natAbs (-(fxBits : Int))

/-- COSPI: cos(πy) = sin(π(y + 1/2)). -/
def sfnCospi (k : SfnKey) (m : Nat) (e : Int) : Conv :=
  let y := (modTwo m e + fxOne / 2) % (2 * fxOne)
  let r := sinPi y
  if y % fxOne = 0 then ⟨0, 0⟩ else pick k (inputKey false m e) 68 r.1 r.2.natAbs (-(fxBits : Int))

/-- A product of |x| and a factor in [0, 1], with the sign of x. -/
def timesX (k : SfnKey) (b : Nat) (s : Bool) (m : Nat) (e f : Int) : Conv :=
  pick k (inputKey s m e) b s (m * f.natAbs) (e - fxBits)

/-- SILU of a non-zero number. -/
def sfnSilu (k : SfnKey) (s : Bool) (m : Nat) (e : Int) : Conv :=
  timesX k 74 s m e (sigmoidFx (clampFx 300 (toFx s m e)))

/-- GELU of a non-zero number. Below −15 it lies under 2^-160. -/
def sfnGelu (k : SfnKey) (s : Bool) (m : Nat) (e : Int) : Conv :=
  let x := toFx false m e
  let y := erfFx (fdivFx (clampFx 15 x) sqrt2Fx)
  if s && decide (15 * fxOne < x) then pick k (inputKey s m e) 86 s 1 (-200)
  else timesX k 86 s m e ((fxOne + (if s then -y else y)) / 2)

/-- Result of a function on one lane: special inputs by Table 05-3, else the function of the finite value.
Log entry 33 applies (DEDUCED). Log entry 34 applies (DESIGN CHOICE). -/
def sfnValue (k : SfnKey) (x : FVal) : Conv :=
  match x with
  | .nan => nanConv flagNanIn
  | .inf s =>
    match k.func with
    | 0x00 => if s then ⟨0, 0⟩ else plusInf
    | 0x01 => if s then ⟨0, 0⟩ else plusInf
    | 0x02 => if s then newNaN else plusInf
    | 0x03 => if s then newNaN else plusInf
    | 0x04 => signed32 s one32
    | 0x05 => if s then ⟨0, 0⟩ else ⟨one32, 0⟩
    | 0x06 => signed32 s one32
    | 0x07 => zero32 s
    | 0x08 => if s then newNaN else ⟨0, 0⟩
    | 0x09 => if s then newNaN else plusInf
    | 0x0c => if s then zero32 true else plusInf
    | 0x0d => if s then zero32 true else plusInf
    | _ => newNaN
  | .fin s m e =>
    let z := decide (m = 0)
    match k.func with
    | 0x00 => sfnExp2 k s m e
    | 0x01 => sfnExp k s m e
    | 0x02 => if z then ⟨2 ^ 31 + infCode, 0⟩ else if s then newNaN else sfnLog2 k m e
    | 0x03 => if z then ⟨2 ^ 31 + infCode, 0⟩ else if s then newNaN else sfnLn k m e
    | 0x04 => if z then zero32 s else sfnTanh k s m e
    | 0x05 => sfnSigmoid k s m e
    | 0x06 => if z then zero32 s else sfnErf k s m e
    | 0x07 => if z then signed32 s infCode else sfnRcp k s m e
    | 0x08 => if z then signed32 s infCode else if s then newNaN else sfnRsqrt k m e
    | 0x09 => if z then zero32 s else if s then newNaN else sfnSqrt m e
    | 0x0a => if z then zero32 s else sfnSinpi k s m e
    | 0x0b => if z then ⟨one32, 0⟩ else sfnCospi k m e
    | 0x0c => if z then zero32 s else sfnSilu k s m e
    | _ => if z then zero32 s else sfnGelu k s m e

/-- EXP2A on one lane. -/
def exp2aLane (gen : Nat) (x a : Lane) : Conv :=
  match lane32 x with
  | .nan => nanConv flagNanIn
  | .inf s => if s then ⟨0, 0⟩ else plusInf
  | .fin s m e => exp2a ⟨gen, 0, 0⟩ s m e a.toInt

/-- SCALB on one lane. -/
def scalbLane (code : Nat) (x k : Lane) : Conv :=
  match lane32 x with
  | .nan => nanConv flagNanIn
  | .inf s => ⟨infBits 0 s, 0⟩
  | .fin s m e => if m = 0 then zero32 s else scaleBy code s m e k.toInt

/-- ANCH of a value, as an integer with its flags (Table 05-3). -/
def anchVal (x : FVal) : Int × Nat :=
  match x with
  | .nan => (-(2 ^ 31 : Nat), flagNanIn)
  | .inf s => (if s then -(2 ^ 31 : Nat) else (2 ^ 31 : Nat) - 1, 0)
  | .fin s m e =>
    let c := -(shiftInt (-(sgn s m)) e)
    let hi : Int := (2 ^ 31 : Nat) - 1
    if hi < c then (hi, flagSat) else if c < -hi then (-hi, flagSat) else (c, 0)

/-- ANCH on one lane. Log entry 36 applies (DEDUCED). -/
def anchLane (x : Lane) : Conv :=
  let r := anchVal (lane32 x)
  ⟨unsigned 32 r.1, r.2⟩

/-- HMAX or HMIN of a list of lanes. -/
def hmaxOf (isMax : Bool) : List Lane → Conv
  | [] => ⟨0, 0⟩
  | [x] => if (lane32 x).isNaN then nanConv flagNanIn else ⟨x.toNat, 0⟩
  | x :: l =>
    let r := hmaxOf isMax l
    let q := vMinMax isMax x (BitVec.ofNat 32 r.bits)
    ⟨q.bits, q.flags ||| r.flags⟩

/-! ### SFN (Table 05-1) -/

/-- Active coefficient generation of the unit (R156). -/
def State.sfuGen (s : State) : Nat := s.fld Fld.SFU_TABLE_STATUS_GEN_ACTIVE

/-- A function of two lanes for every active unmasked lane: results and flags. -/
def sfnLanes (t : Site) (o : SfnOps) (g : Lane → Lane → Conv) (s : State) : Eff :=
  let c := s.ctx t
  let ls := s.lanes t o.mask
  let r := fun l => g (c.lane o.va l) (c.lane o.vb l)
  let s1 := s.setCtx t (c.setLanes o.vd ls (fun l => BitVec.ofNat 32 (r l).bits))
  .done (s1.orFlags (orAll (ls.map (fun l => (r l).flags))))

/-- A function of VA with a table key. Log entry 33 applies (DEDUCED). -/
def sfnUnary (f : Nat) (t : Site) (o : SfnOps) (s : State) : Eff :=
  sfnLanes t o (fun x _ => sfnValue ⟨s.sfuGen, o.compat, f⟩ (lane32 x)) s

/-- SFN EXP2. -/
def execSfnExp2 (t : Site) (h : Hdr) (o : SfnOps) (s : State) : Host.Outcome State Fault Refusal :=
  .next (s.issueAs t h (plainFlight t h) true (o.ok 0x00) (sfnUnary 0x00 t o))

/-- SFN EXP. -/
def execSfnExp (t : Site) (h : Hdr) (o : SfnOps) (s : State) : Host.Outcome State Fault Refusal :=
  .next (s.issueAs t h (plainFlight t h) true (o.ok 0x01) (sfnUnary 0x01 t o))

/-- SFN LOG2. -/
def execSfnLog2 (t : Site) (h : Hdr) (o : SfnOps) (s : State) : Host.Outcome State Fault Refusal :=
  .next (s.issueAs t h (plainFlight t h) true (o.ok 0x02) (sfnUnary 0x02 t o))

/-- SFN LN. -/
def execSfnLn (t : Site) (h : Hdr) (o : SfnOps) (s : State) : Host.Outcome State Fault Refusal :=
  .next (s.issueAs t h (plainFlight t h) true (o.ok 0x03) (sfnUnary 0x03 t o))

/-- SFN TANH. -/
def execSfnTanh (t : Site) (h : Hdr) (o : SfnOps) (s : State) : Host.Outcome State Fault Refusal :=
  .next (s.issueAs t h (plainFlight t h) true (o.ok 0x04) (sfnUnary 0x04 t o))

/-- SFN SIGMOID. -/
def execSfnSigmoid (t : Site) (h : Hdr) (o : SfnOps) (s : State) : Host.Outcome State Fault Refusal :=
  .next (s.issueAs t h (plainFlight t h) true (o.ok 0x05) (sfnUnary 0x05 t o))

/-- SFN ERF. -/
def execSfnErf (t : Site) (h : Hdr) (o : SfnOps) (s : State) : Host.Outcome State Fault Refusal :=
  .next (s.issueAs t h (plainFlight t h) true (o.ok 0x06) (sfnUnary 0x06 t o))

/-- SFN RCP. -/
def execSfnRcp (t : Site) (h : Hdr) (o : SfnOps) (s : State) : Host.Outcome State Fault Refusal :=
  .next (s.issueAs t h (plainFlight t h) true (o.ok 0x07) (sfnUnary 0x07 t o))

/-- SFN RSQRT. -/
def execSfnRsqrt (t : Site) (h : Hdr) (o : SfnOps) (s : State) : Host.Outcome State Fault Refusal :=
  .next (s.issueAs t h (plainFlight t h) true (o.ok 0x08) (sfnUnary 0x08 t o))

/-- SFN SQRT. -/
def execSfnSqrt (t : Site) (h : Hdr) (o : SfnOps) (s : State) : Host.Outcome State Fault Refusal :=
  .next (s.issueAs t h (plainFlight t h) true (o.ok 0x09) (sfnUnary 0x09 t o))

/-- SFN SINPI. -/
def execSfnSinpi (t : Site) (h : Hdr) (o : SfnOps) (s : State) : Host.Outcome State Fault Refusal :=
  .next (s.issueAs t h (plainFlight t h) true (o.ok 0x0a) (sfnUnary 0x0a t o))

/-- SFN COSPI. -/
def execSfnCospi (t : Site) (h : Hdr) (o : SfnOps) (s : State) : Host.Outcome State Fault Refusal :=
  .next (s.issueAs t h (plainFlight t h) true (o.ok 0x0b) (sfnUnary 0x0b t o))

/-- SFN SILU. -/
def execSfnSilu (t : Site) (h : Hdr) (o : SfnOps) (s : State) : Host.Outcome State Fault Refusal :=
  .next (s.issueAs t h (plainFlight t h) true (o.ok 0x0c) (sfnUnary 0x0c t o))

/-- SFN GELU. -/
def execSfnGelu (t : Site) (h : Hdr) (o : SfnOps) (s : State) : Host.Outcome State Fault Refusal :=
  .next (s.issueAs t h (plainFlight t h) true (o.ok 0x0d) (sfnUnary 0x0d t o))

/-- SFN EXP2A: VB holds the anchor (R148). -/
def execSfnExp2a (t : Site) (h : Hdr) (o : SfnOps) (s : State) : Host.Outcome State Fault Refusal :=
  .next (s.issueAs t h (plainFlight t h) true (o.ok 0x10) (sfnLanes t o (exp2aLane s.sfuGen)))

/-- SFN SCALB: VB holds the exponent. -/
def execSfnScalb (t : Site) (h : Hdr) (o : SfnOps) (s : State) : Host.Outcome State Fault Refusal :=
  .next (s.issueAs t h (plainFlight t h) true (o.ok 0x11) (sfnLanes t o (scalbLane o.rnd)))

/-- SFN ANCH (R150). -/
def execSfnAnch (t : Site) (h : Hdr) (o : SfnOps) (s : State) : Host.Outcome State Fault Refusal :=
  .next (s.issueAs t h (plainFlight t h) true (o.ok 0x12) (sfnLanes t o (fun x _ => anchLane x)))

/-- The effect of HMAX and HMIN: one value for every active unmasked lane; none where no lane is active. -/
def rowEff (isMax : Bool) (t : Site) (o : SfnOps) (s : State) : Eff :=
  let c := s.ctx t
  let ls := s.lanes t o.mask
  let r := hmaxOf isMax (ls.map (c.lane o.va))
  .done ((s.setCtx t (c.setLanes o.vd ls (fun _ => BitVec.ofNat 32 r.bits))).orFlags r.flags)

/-- SFN HMAX (R153). -/
def execSfnHmax (t : Site) (h : Hdr) (o : SfnOps) (s : State) : Host.Outcome State Fault Refusal :=
  .next (s.issueAs t h (plainFlight t h) true (o.ok 0x13) (rowEff true t o))

/-- SFN HMIN (R153). -/
def execSfnHmin (t : Site) (h : Hdr) (o : SfnOps) (s : State) : Host.Outcome State Fault Refusal :=
  .next (s.issueAs t h (plainFlight t h) true (o.ok 0x14) (rowEff false t o))

/-! ### LSAVE and LMERGE (R154) -/

/-- The address word of LSAVE and LMERGE, its STRIDE ignored (Table 05-1), and its reach of 48 bytes. -/
def State.imageReach (s : State) (t : Site) (w : Word) : Status × Nat :=
  firstLowest [(awFlat w 64, s.pcAddr t), s.reachAll t.core [(awOffset w, 48)]]

/-- The effect of LSAVE: the image is written; the accumulator stays. -/
def lsaveEff (t : Site) (o : SfnOps) (s : State) : Eff :=
  let w := (s.ctx t).sreg o.addrReg
  let r := s.imageReach t w
  if r.1 ≠ .ok then .fault r.1 r.2 s
  else .done (s.putNum (csAddr t.core (awOffset w)) 48 ((s.core t.core).lacc o.lidx).image)

/-- SFN LSAVE. -/
def execSfnLsave (t : Site) (h : Hdr) (o : SfnOps) (s : State) : Host.Outcome State Fault Refusal :=
  .next (s.issueAs t h (plainFlight t h) true (o.ok 0x18) (lsaveEff t o))

/-- The effect of LMERGE: VERIFY for an image R72 refuses or of another mode, WINDOW for a COUNT past its limit; both logged
at the image's address. Log entry 19 applies (DESIGN CHOICE). -/
def lmergeEff (t : Site) (o : SfnOps) (s : State) : Eff :=
  let w := (s.ctx t).sreg o.addrReg
  let r := s.imageReach t w
  if r.1 ≠ .ok then .fault r.1 r.2 s
  else
    match LongAcc.ofImage (s.num (csAddr t.core (awOffset w)) 48) with
    | none => .fault .verify (csAddr t.core (awOffset w)) s
    | some y =>
      let k := s.core t.core
      let m := (k.lacc o.lidx).merge y
      if m.1 ≠ .ok then .fault m.1 (csAddr t.core (awOffset w)) s else .done (s.setCore t.core (k.setLacc o.lidx m.2))

/-- SFN LMERGE. -/
def execSfnLmerge (t : Site) (h : Hdr) (o : SfnOps) (s : State) : Host.Outcome State Fault Refusal :=
  .next (s.issueAs t h (plainFlight t h) true (o.ok 0x19) (lmergeEff t o))

end Sys2Proof.Machine
end

