-- ==== Sys2Proof/Machine/Tables.lean ====
section
/-! DEFINITION. Coefficient tables of the special-function unit and their reload (R156 to R160), and the register writes
of the HBM and regulator blocks. -/

namespace Sys2Proof.Machine

/-! ### Coefficient tables -/

/-- `LOAD_STATE` codes of Table 05-11. -/
def lsEmpty : Nat := 0
def lsLoading : Nat := 1
def lsReady : Nat := 2
def lsFailed : Nat := 3

/-- Write of `SFU_TABLE_LOAD`: DENIED while a load runs or a swap waits; else the load begins into the inactive banks
(R158, R160). -/
def sfuTableLoadWrite (v : Word) (s : State) : Status × State :=
  if s.fld Fld.SFU_TABLE_STATUS_LOAD_STATE = lsLoading || s.flag Fld.SFU_TABLE_STATUS_SWAP_PENDING then (.denied, s)
  else
    let s1 := ((s.setFld Fld.SFU_TABLE_STATUS_LOAD_STATE lsLoading).setFld Fld.SFU_TABLE_STATUS_GEN_INACTIVE 0).setFld
      Fld.SFU_TABLE_STATUS_FAILED_CORES 0
    (.ok, s1.withUnits { s1.units with sfuLoad := some (wget v 39 12 * 4096), sfuStaged := [] })

/-- SFU_TABLE_LOAD. Log entry 36 applies (DEDUCED). -/
def execSfuTableLoad (q : Fin 4) (v : Word) (s : State) : Host.Outcome State Fault Refusal :=
  .next (s.regWrite q Reg.SFU_TABLE_LOAD (sfuTableLoadWrite v))

/-- Source of a table image: HBM only, whole, and ready (R157, R158). -/
def State.hbmSource (s : State) (a n : Nat) : Status :=
  if !isHbm a then .unmapped else if hbmEnd < a + n then .bounds else if !s.ready rdyHbm then .notReady else .ok

/-- Field checks of a table image's 64-byte header (Table 05-8). -/
def sfuHeaderOk (genActive : Nat) (l : List Byte) : Bool :=
  let w := leNat l
  let gen := byteField w 2 2
  let len := byteField w 4 4
  byteField w 0 1 = 1 && byteField w 1 1 = 0 && decide (1 ≤ gen) && decide (gen ≠ genActive) && decide (4096 ≤ len)
    && decide (len ≤ 32768) && len % 4096 = 0 && byteField w 12 52 = 0

/-- The outcome of the signal box's verification of the image at `a`, with its generation (R157, R158). -/
def State.sfuVerify (s : State) (a : Nat) (sig : SigVerdict) : Status × Nat × State :=
  let src := s.hbmSource a 64
  if src ≠ .ok then (src, 0, s)
  else
    let r := s.readMem 7 .module a 64
    if r.1 ≠ .ok then (r.1, 0, r.2.2)
    else if !sfuHeaderOk s.sfuGen r.2.1 then (.verify, 0, r.2.2)
    else
      let w := leNat r.2.1
      let len := byteField w 4 4
      let all := s.hbmSource a (64 + len + 132)
      if all ≠ .ok then (all, 0, r.2.2)
      else
        let p := r.2.2.readMem 7 .module (a + 64) (len + 132)
        if p.1 ≠ .ok then (p.1, 0, p.2.2)
        else if crc32c (p.2.1.take len) ≠ byteField w 8 4 || sig ≠ .fwKey then (.integrity, 0, p.2.2)
        else (.ok, byteField w 2 2, p.2.2)

/-- SFU_TABLE_LOAD_DONE: the load ends READY, or FAILED with its reason; `sig` says which key the signature verifies
under and `failed` how many cores failed a segment three times, once the image has been verified and is distributed (R158).
Log entry 36 applies (DEDUCED). -/
def execSfuTableLoadDone (sig : SigVerdict) (failed : Nat) (s : State) : Host.Outcome State Fault Refusal :=
  .next (
    match s.units.sfuLoad with
    | none => s
    | some a =>
      let r := s.sfuVerify a sig
      let lost := if r.1 = .ok then min failed s.cores' else 0
      let st := r.1.worse (Status.when (decide (lost ≠ 0)) .integrity)
      let img := if st = .ok then s.bytes a (64 + byteField (s.num a 64) 4 4) else []
      let s1 := r.2.2.withUnits { r.2.2.units with sfuLoad := none, sfuStaged := img }
      let s2 := (s1.setFld Fld.SFU_TABLE_STATUS_LOAD_STATUS st.code).setFld Fld.SFU_TABLE_STATUS_FAILED_CORES lost
      if st = .ok then (s2.setFld Fld.SFU_TABLE_STATUS_LOAD_STATE lsReady).setFld Fld.SFU_TABLE_STATUS_GEN_INACTIVE r.2.1
      else s2.setFld Fld.SFU_TABLE_STATUS_LOAD_STATE lsFailed)

/-- Empty the inactive banks, abandoning a load. -/
def State.sfuEmpty (s : State) : State :=
  ((s.setFld Fld.SFU_TABLE_STATUS_LOAD_STATE lsEmpty).setFld Fld.SFU_TABLE_STATUS_GEN_INACTIVE 0).withUnits
    { s.units with sfuLoad := none, sfuStaged := [] }

/-- Write of `SFU_TABLE_CTRL` (R160): SWAP waits for a boundary, DISCARD empties the inactive banks at once.
Log entry 36 applies (DEDUCED). -/
def sfuCtrlWrite (v : Word) (s : State) : Status × State :=
  let swap := bit v.toNat 0
  let disc := bit v.toNat 1
  if (swap && decide (s.fld Fld.SFU_TABLE_STATUS_LOAD_STATE ≠ lsReady))
      || (disc && (swap || s.flag Fld.SFU_TABLE_STATUS_SWAP_PENDING)) then (.denied, s)
  else if swap then (.ok, (s.setFld Fld.SFU_TABLE_CTRL_SWAP 1).setFld Fld.SFU_TABLE_STATUS_SWAP_PENDING 1)
  else if disc then (.ok, s.sfuEmpty)
  else (.ok, s)

/-- SFU_SWAP: a write of 1 to SWAP. -/
def execSfuSwap (q : Fin 4) (s : State) : Host.Outcome State Fault Refusal :=
  .next (s.regWrite q Reg.SFU_TABLE_CTRL (sfuCtrlWrite 1))

/-- SFU_DISCARD: a write of 1 to DISCARD. -/
def execSfuDiscard (q : Fin 4) (s : State) : Host.Outcome State Fault Refusal :=
  .next (s.regWrite q Reg.SFU_TABLE_CTRL (sfuCtrlWrite 2))

/-- A swap that waits is applied: every core's banks are exchanged at once; the previous generation stays in the
inactive bank (R159). -/
def State.applySfuSwap (s : State) : State :=
  if s.flag Fld.SFU_TABLE_STATUS_SWAP_PENDING then
    let a := s.fld Fld.SFU_TABLE_STATUS_GEN_ACTIVE
    let b := s.fld Fld.SFU_TABLE_STATUS_GEN_INACTIVE
    let u : Units := { s.units with sfuActive := s.units.sfuStaged, sfuStaged := s.units.sfuActive }
    let s1 := (((s.withUnits u).setFld Fld.SFU_TABLE_STATUS_GEN_ACTIVE b).setFld Fld.SFU_TABLE_STATUS_GEN_INACTIVE a).setFld
      Fld.SFU_TABLE_STATUS_ACTIVE_BANK (1 - s.fld Fld.SFU_TABLE_STATUS_ACTIVE_BANK)
    (s1.setFld Fld.SFU_TABLE_STATUS_SWAP_PENDING 0).setFld Fld.SFU_TABLE_CTRL_SWAP 0
  else s

/-! ### Register writes of the HBM and BWR blocks -/

/-- HBM_SKEW_CTRL_WRITE. -/
def execHbmSkewCtrlWrite (q : Fin 4) (v : Word) (s : State) : Host.Outcome State Fault Refusal :=
  .next (s.regWrite q Reg.HBM_SKEW_CTRL (hbmSkewCtrlWrite v))

/-- HBM_SCRUB_CTRL_WRITE. -/
def execHbmScrubCtrlWrite (q : Fin 4) (v : Word) (s : State) : Host.Outcome State Fault Refusal :=
  .next (s.regWrite q Reg.HBM_SCRUB_CTRL (hbmScrubCtrlWrite v))

/-- HBM_NARROW_CTRL_WRITE. -/
def execHbmNarrowCtrlWrite (q : Fin 4) (v : Word) (s : State) : Host.Outcome State Fault Refusal :=
  .next (s.regWrite q Reg.HBM_NARROW_CTRL (hbmNarrowCtrlWrite v))

/-- BWR_SWAP: a write of 1 to SWAP. -/
def execBwrSwap (q : Fin 4) (s : State) : Host.Outcome State Fault Refusal :=
  .next (s.regWrite q Reg.BWR_CTRL (bwrSwap 1))

/-- BWR_STAGE_WRITE. -/
def execBwrStageWrite (q : Fin 4) (p : Fin 8) (v : Word) (s : State) : Host.Outcome State Fault Refusal :=
  .next (s.regWrite q (Reg.BWR_STAGE p.val) (bwrStageWrite p.val v))

end Sys2Proof.Machine
end

