-- ==== Sys2Proof/Machine/Kvp.lean ====
section
/-! DEFINITION. Pages, the directory and the commands of the page subsystem (07_kv_ring_and_pages.md, R188 to R208). -/

namespace Sys2Proof.Machine

/-! ### Layouts (R188, R189, R203) -/

/-- `n` rounded up to a multiple of `m`. -/
def roundUp (n m : Nat) : Nat := ceilDiv n m * m

/-- Pitches of a K and a V page (Table 07-1). -/
def pitchK (fmt d : Nat) : Nat := roundUp (d * fmtBits fmt / 8) 32
def pitchV (fmt : Nat) : Nat := roundUp (64 * fmtBits fmt / 8) 32

/-- Bytes of a K and a V page. -/
def bytesK (fmt d : Nat) : Nat := 64 * pitchK fmt d + (if isMX fmt then 2 * d else 0)
def bytesV (fmt d : Nat) : Nat := d * pitchV fmt + (if isMX fmt then 2 * d else 0)

/-- PB of R188. -/
def pageBytes (kFmt vFmt d : Nat) : Nat := roundUp (max (bytesK kFmt d) (bytesV vFmt d)) 256

/-- F of R189. -/
def frameSize (kFmt vFmt d g h : Nat) : Nat := roundUp (2 * g * h * pageBytes kFmt vFmt d) 4096

/-- SB of R203. -/
def summarySize (kFmt vFmt d : Nat) : Nat :=
  roundUp (8 + 2 * pitchK kFmt d + (if isMX kFmt then 2 * (d / 32) else 0) + (if isMX vFmt then d else 0)) 64

/-- Formats of K (R161) and of V. -/
def kFmtOk (f : Nat) : Bool := isMX f || f = 1 || f = 2
def vFmtOk (f : Nat) : Bool := isMX f || f = 1

/-- SB of a context (R203). -/
def WalkCtx.sb (c : WalkCtx) : Nat := summarySize c.kFmt c.vFmt c.d

/-- The walker context of a 64-byte record; none where Table 07-2 refuses it. -/
def WalkCtx.ofNum (w : Nat) : Option WalkCtx :=
  let c : WalkCtx :=
    { ring := byteField w 1 1 = 1, kFmt := bits w 19 16, vFmt := bits w 23 20, index := byteField w 3 1 = 1,
      d := byteField w 4 2, heads := byteField w 6 1 + 1, layers := byteField w 7 1 + 1, ringPages := byteField w 8 4,
      frameBytes := byteField w 12 4, summaryBytes := byteField w 16 2, sink := byteField w 18 2,
      recent := byteField w 20 2, topk := byteField w 22 2 }
  let ringOk := if c.ring then decide (1 ≤ c.ringPages) && decide (c.ringPages ≤ 65536) else c.ringPages = 0
  let indexOk := if c.index then
      c.summaryBytes = c.sb && decide (c.sink ≤ 4096) && decide (c.recent ≤ 4096)
        && decide (1 ≤ c.topk) && decide (c.topk ≤ 4096)
    else c.summaryBytes = 0 && c.sink = 0 && c.recent = 0 && c.topk = 0
  if byteField w 0 1 = 1 && decide (byteField w 1 1 ≤ 1) && decide (byteField w 3 1 ≤ 1) && kFmtOk c.kFmt && vFmtOk c.vFmt
      && decide (32 ≤ c.d) && decide (c.d ≤ 256) && c.d % 32 = 0 && decide (c.heads ≤ 64) && ringOk && indexOk
      && c.frameBytes = frameSize c.kFmt c.vFmt c.d c.layers c.heads && decide (c.frameBytes ≤ 2 ^ 30)
      && byteField w 24 40 = 0 then some c
  else none

/-! ### Sequences (R193) -/

/-- First present page, and one past the last; equal where none is present. -/
def SeqRec.firstPage (r : SeqRec) : Nat := r.firstPos / 64
def SeqRec.endPage (r : SeqRec) : Nat := if r.len ≤ r.firstPos then r.firstPos / 64 else (r.len - 1) / 64 + 1

/-- Present pages. -/
def SeqRec.pages (r : SeqRec) : List Nat := tab (r.endPage - r.firstPage) (fun i => r.firstPage + i)

/-- Slot of a present page in the list. -/
def SeqRec.slot (r : SeqRec) (c : WalkCtx) (l : Nat) : Nat := if c.ring then l % c.ringPages else l - r.firstPage

/-- `LPAGE` that the directory holds for page l. -/
def lpageOf (c : WalkCtx) (l : Nat) : Nat := if c.ring then l % c.ringPages else l

/-- The list rule of R193. -/
def SeqRec.listOk (r : SeqRec) (c : WalkCtx) : Bool :=
  let n := r.endPage - r.firstPage
  if c.ring then r.listLen = c.ringPages && decide (n ≤ c.ringPages) else decide (n ≤ r.listLen)

/-! ### The directory (R194) -/

/-- A directory entry (Table 07-5); states 0 FREE, 1 MAPPED, 2 BUSY, 3 FREEING. -/
structure DirEntry where
  frame : Nat
  summary : Nat
  handle : Nat
  gen : Nat
  lpage : Nat
  state : Nat
  isSealed : Bool
  refs : Nat

def DirEntry.ofNum (w : Nat) : DirEntry :=
  ⟨byteField w 0 8, byteField w 8 8, byteField w 16 2, byteField w 18 2, byteField w 20 4, bits w 193 192, bit w 194,
    byteField w 26 2⟩

def DirEntry.bytes (e : DirEntry) : List Byte :=
  leBytes 8 e.frame ++ leBytes 8 e.summary ++ leBytes 2 e.handle ++ leBytes 2 e.gen ++ leBytes 4 e.lpage
    ++ leBytes 2 (e.state + 4 * b2n e.isSealed) ++ leBytes 2 e.refs ++ leBytes 4 0

/-- Base of the KVP region; the directory stands at its start. -/
def State.kvpBase (s : State) : Nat := ((s.regions.find? (fun r => r.cls = classKvp)).map (·.base)).getD 0

/-- Address of directory entry i. Log entry 43 applies (DEDUCED). -/
def State.dirAddr (s : State) (i : Nat) : Nat := s.kvpBase + 32 * i

def State.dir (s : State) (i : Nat) : DirEntry := .ofNum (s.num (s.dirAddr i) 32)

/-- An entry is written, as a partial write of its codeword (R278, R286). -/
def State.setDir (s : State) (i : Nat) (e : DirEntry) : State := (s.writeMem 7 (s.dirAddr i) e.bytes).2

/-- Directory entries are read by a command: the lowest status, and the state. -/
def State.dirReads (s : State) (l : List Nat) : Status × State :=
  let r := s.readChecks 7 .module (l.map (fun i => (s.dirAddr i, 32)))
  (r.1, r.2.2)

/-- A page-list entry (Table 07-4). -/
structure ListEntry where
  index : Nat
  gen : Nat
  useSummary : Bool
  reserved : Nat

def ListEntry.ofNum (w : Nat) : ListEntry := ⟨bits w 15 0, bits w 31 16, bit w 32, bits w 63 33⟩

/-! ### Latest copies -/

def State.kvp (s : State) : KvpUnit := s.units.kvp
def State.setKvp (s : State) (k : KvpUnit) : State := s.withUnits { s.units with kvp := k }

/-- Current record of a handle. -/
def KvpUnit.seq (k : KvpUnit) (h : Nat) : SeqRec := SMap.get {} k.seqs h

/-- Latest context n: the last staged copy, else the current one. -/
def KvpUnit.lastCtx (k : KvpUnit) (n : Nat) : Option WalkCtx :=
  k.staged.foldl (fun a x => match x with
    | .ctx m c => if m = n then some c else a
    | .seq _ _ => a) (SMap.find k.ctxs n)

/-- Latest record of a handle. -/
def KvpUnit.lastSeq (k : KvpUnit) (h : Nat) : SeqRec :=
  k.staged.foldl (fun a x => match x with
    | .seq m r => if m = h then r else a
    | .ctx _ _ => a) (k.seq h)

/-! ### The copies in the KVP region (R194) -/

/-- The 64-byte record of a context (Table 07-2). -/
def WalkCtx.bytes (c : WalkCtx) : List Byte :=
  [1, BitVec.ofNat 8 (b2n c.ring), BitVec.ofNat 8 (c.kFmt + 16 * c.vFmt), BitVec.ofNat 8 (b2n c.index)] ++ leBytes 2 c.d
    ++ leBytes 1 (c.heads - 1) ++ leBytes 1 (c.layers - 1) ++ leBytes 4 c.ringPages ++ leBytes 4 c.frameBytes
    ++ leBytes 2 c.summaryBytes ++ leBytes 2 c.sink ++ leBytes 2 c.recent ++ leBytes 2 c.topk ++ leBytes 40 0

/-- A sequence record as the region holds it (Table 07-3). Log entry 134 applies (DESIGN CHOICE). -/
def SeqRec.bytes (r : SeqRec) : List Byte :=
  leBytes 1 (b2n r.live) ++ leBytes 1 r.ctx ++ leBytes 2 0 ++ leBytes 4 r.version ++ leBytes 8 r.listBase ++ leBytes 4 r.listLen
    ++ leBytes 4 r.firstPos ++ leBytes 4 r.len ++ leBytes 4 0

/-- Where the region holds the current or the staged copy of context n, and of the record of handle h. Log entry 134 applies
(DESIGN CHOICE). -/
def State.ctxCopy (s : State) (staged : Bool) (n : Nat) : Nat := s.kvpBase + 0x200000 + 0x4000 * b2n staged + 64 * n
def State.seqCopy (s : State) (staged : Bool) (h : Nat) : Nat := s.kvpBase + 0x240000 + 0x80000 * b2n staged + 32 * h

/-- A change is written to its staged copy; or it has applied: it is the current copy, and the staged one is empty. -/
def State.putCopy (s : State) (staged : Bool) (x : KvpChange) : State :=
  let put := fun (at' : Bool → Nat) (l : List Byte) =>
    if staged then (s.writeMem 7 (at' true) l).2
    else ((s.writeMem 7 (at' false) l).2.writeMem 7 (at' true) (leBytes l.length 0)).2
  match x with
  | .ctx n c => put (fun b => s.ctxCopy b n) c.bytes
  | .seq h r => put (fun b => s.seqCopy b h) r.bytes

/-- A change is staged (R196). -/
def State.stage (s : State) (x : KvpChange) : State := (s.setKvp { s.kvp with staged := s.kvp.staged ++ [x] }).putCopy true x

/-- Is a handle that uses context n LIVE, in its current or its latest copy? -/
def KvpUnit.ctxInUse (k : KvpUnit) (n : Nat) : Bool :=
  (List.range 16384).any (fun h => ((k.seq h).live && (k.seq h).ctx = n) || ((k.lastSeq h).live && (k.lastSeq h).ctx = n))

/-! ### Command records (R198) -/

/-- `PENDING` and `STAGED` follow the queues. -/
def State.showKvp (s : State) : State :=
  let k := s.kvp
  (s.setFld Fld.KVP_STATUS_PENDING (k.queue.length + k.waiting.length + b2n k.copying.isSome)).setFld
    Fld.KVP_STATUS_STAGED (b2n !k.staged.isEmpty)

/-- Write `STATUS`, `RESULT`, `STAMP` and `DONE` of a command record in memory (Table 07-6); a record over an
uncorrectable codeword stays as it is. -/
def State.answerRecord (s : State) (a : Nat) (st : Status) (result : Nat) : State :=
  let r := s.writeMem 7 (a + 48) (leBytes 8 s.stamp ++ leBytes 8 result)
  (r.2.writeMem 7 (a + 1) [1, BitVec.ofNat 8 st.code]).2

/-- A KVP command completes. -/
def State.kvpComplete (s : State) (a op : Nat) (st : Status) (result : Nat) : State :=
  let s1 := (s.answerRecord a st result).bumpWrap Fld.KVP_CMD_STATUS_DONE_COUNT 1
  ((s1.setFld Fld.KVP_CMD_STATUS_LAST_STATUS st.code).setFld Fld.KVP_CMD_STATUS_LAST_OP op).showKvp

/-- What a command's own rule answers. -/
inductive KvpEff where
  | fail (st : Status) (s : State)
  | later (s : State)
  | done (s : State)
  | waits (result : Nat) (frees : List Nat) (s : State)
  | copies (entry frame summary : Nat) (s : State)

/-! ### Fabric addresses (R189) -/

/-- One read at a fabric address: its status, the pieces of it that are still to be read from another module, and the state. A
piece that `got` holds takes its answer's status. -/
def State.fabRead (s : State) (cls : Nat) (req : Requester) (tag : Nat) (got : List (Nat × Status × List Byte)) (fa n : Nat) :
    Status × List (Nat × Nat) × State :=
  if fabModule fa = s.moduleId then
    let r := s.readCheck cls req (fabLocal fa) n
    (r.1, [], r.2)
  else
    let g := s.remoteGate (fabModule fa) tag
    if g ≠ .ok then (g, [], s)
    else
      let ps := (pieces (fabLocal fa) n).map (fun p => (fa + p.1, p.2))
      (ps.foldl (fun st p => st.worse (((SMap.find got p.1).map (·.1)).getD .ok)) .ok,
        ps.filter (fun p => (SMap.find got p.1).isNone), s)

/-- Reads in turn, up to the first that fails: its status and address, the pieces of other modules that are missing before it,
and the state. -/
def State.fabReads (s : State) (cls : Nat) (req : Requester) (tag : Nat) (got : List (Nat × Status × List Byte)) :
    List (Nat × Nat) → Status × Nat × List (Nat × Nat) × State
  | [] => (.ok, 0, [], s)
  | p :: l =>
    let r := s.fabRead cls req tag got p.1 p.2
    if r.1 ≠ .ok then (r.1, fabLocal p.1, r.2.1, r.2.2)
    else
      let q := r.2.2.fabReads cls req tag got l
      (q.1, q.2.1, r.2.1 ++ q.2.2.1, q.2.2.2)

/-- Byte at a fabric address of another module, as it has been answered. -/
def gotByte (got : List (Nat × Status × List Byte)) (fa : Nat) : Byte :=
  match got.find? (fun p => within fa 1 p.1 p.2.2.length) with
  | none => 0
  | some p => (p.2.2[fa - p.1]?).getD 0

/-- `n` bytes at a fabric address. -/
def State.fabBytes (s : State) (got : List (Nat × Status × List Byte)) (fa n : Nat) : List Byte :=
  if fabModule fa = s.moduleId then s.bytes (fabLocal fa) n else tab n (fun i => gotByte got (fa + i))

/-- READs of pieces of other modules. -/
def readTrans (owner : TransOwner) (tag : Nat) (l : List (Nat × Nat)) : List Trans :=
  l.map (fun p => { serial := 0, op := 2, dest := fabModule p.1, addr := fabLocal p.1, len := p.2, tag, at' := 0, owner })

/-- WRITEs of bytes at a fabric address of another module. -/
def writeTrans (owner : TransOwner) (tag fa : Nat) (l : List Byte) : List Trans :=
  (pieces (fabLocal fa) l.length).map (fun p =>
    { serial := 0, op := 1, dest := fabModule fa, addr := fabLocal fa + p.1, len := p.2, data := (l.drop p.1).take p.2, tag, at' := 0,
      owner })

/-- Is a transaction of this owner still to be answered? -/
def State.owes (s : State) (o : TransOwner) : Bool :=
  s.fab.trans.any (fun x => decide (x.2.owner = o)) || s.fab.backlog.any (fun x => decide (x.owner = o))

/-- The tag of the transactions that a KVP command makes. Log entry 44 applies (DEDUCED). -/
def State.kvpTag (s : State) : Nat := s.fld Fld.FAB_JOB_TAG_TAG

/-- The command in progress has sent its READs or WRITEs to other modules. -/
def State.kvpSend (s : State) (l : List Trans) (sent : Option Status) : State :=
  (s.setKvp { s.kvp with sent }).injectAll l |>.2

/-- What the command in progress keeps of other modules' answers is dropped. -/
def State.kvpDrop (s : State) : State := s.setKvp { s.kvp with got := [], sent := none }

/-- Bytes are written at fabric addresses of this module. -/
def State.putOwn (s : State) (l : List (Nat × List Byte)) : State :=
  l.foldl (fun acc p => if fabModule p.1 = s.moduleId then (acc.writeMem 7 (fabLocal p.1) p.2).2 else acc) s

/-- A local address range of HBM is read by a command; the status, and the state after it. -/
def State.kvpRead (s : State) (a n : Nat) : Status × State :=
  if !isHbm a || decide (hbmEnd < a + n) then (.verify, s) else s.readCheck 7 .module a n

/-- Execute the command at the head of the queue where it is operation `op`; a record with a reserved operation or a
non-zero reserved byte completes with VERIFY, one that cannot be read with UNCORRECTABLE. Log entry 43 applies (DEDUCED). -/
def State.kvpExec (s : State) (op : Nat) (f : Nat → State → KvpEff) : State :=
  match s.kvp.queue with
  | [] => s
  | a :: rest =>
    if s.kvp.copying.isSome || s.owes .kvp then s
    else
      let r := s.readCheck 7 .module a 64
      let s1 := r.2.setKvp { r.2.kvp with queue := rest }
      let w := s.num a 64
      let code := byteField w 0 1
      if r.1 ≠ .ok then s1.kvpComplete a 0 r.1 0
      else if decide (code = 0) || decide (8 < code) then s1.kvpComplete a code .verify 0
      else if code ≠ op then s
      else if byteField w 3 1 ≠ 0 || byteField w 42 6 ≠ 0 then s1.kvpComplete a op .verify 0
      else
        match f w s1 with
        | .fail st s2 => s2.kvpDrop.kvpComplete a op st 0
        | .later s2 => s2.setKvp { s2.kvp with queue := s.kvp.queue }
        | .done s2 => s2.kvpDrop.kvpComplete a op .ok 0
        | .waits result frees s2 => (s2.setKvp { s2.kvp with waiting := s2.kvp.waiting ++ [⟨a, op, result, frees⟩] }).showKvp
        | .copies e fr su s2 => (s2.setKvp { s2.kvp with copying := some ⟨a, e, fr, su⟩ }).showKvp

/-- Fields of a command record. -/
def argA (w : Nat) : Nat := byteField w 4 4
def argB (w : Nat) : Nat := byteField w 8 4
def argC (w : Nat) : Nat := byteField w 12 4
def addr0 (w : Nat) : Nat := byteField w 16 8
def addr1 (w : Nat) : Nat := byteField w 24 8
def pos0 (w : Nat) : Nat := byteField w 32 5
def pos1 (w : Nat) : Nat := byteField w 37 5

/-! ### Staged commands -/

/-- CTX_SET. Log entry 43 applies (DEDUCED). -/
def ctxSetEff (w : Nat) (s : State) : KvpEff :=
  let n := argA w
  let r := s.kvpRead (addr0 w) 64
  let st := r.1.worse (Status.when (decide (255 < n)) .verify)
  if st ≠ .ok then .fail st r.2
  else
    match WalkCtx.ofNum (r.2.num (addr0 w) 64) with
    | none => .fail .verify r.2
    | some c =>
      let same := match s.kvp.lastCtx n with
        | none => true
        | some o => o.ring = c.ring && o.layers = c.layers && o.heads = c.heads && o.d = c.d && o.kFmt = c.kFmt
            && o.vFmt = c.vFmt
      if !same && s.kvp.ctxInUse n then .fail .verify r.2
      else .done (r.2.stage (.ctx n c))

/-- CTX_SET stages a walker context (Table 07-7). -/
def execCtxSet (s : State) : Host.Outcome State Fault Refusal := .next (s.kvpExec 0x01 ctxSetEff)

/-- Is [a, a + n) wholly in one HBM region of the STORES section? -/
def State.inHbmRegion (s : State) (a n : Nat) : Bool :=
  s.regions.any (fun r => r.memory = 0 && within a n r.base r.size)

/-- Does a list entry name a page that may be published (Table 07-7)? -/
def State.entryOk (s : State) (h : Nat) (r : SeqRec) (c : WalkCtx) (l : Nat) (e : ListEntry) : Bool :=
  let d := s.dir e.index
  e.reserved = 0 && (d.state = 1 || d.state = 2) && d.handle = h && d.lpage = lpageOf c l && d.gen = e.gen
    && (!e.useSummary || (d.isSealed && decide (64 * (l + 1) ≤ r.len) && c.index))

/-- The list entry of page l. -/
def State.listEntry (s : State) (r : SeqRec) (c : WalkCtx) (l : Nat) : ListEntry :=
  .ofNum (s.num (r.listBase + 8 * r.slot c l) 8)

/-- Change `REFS` of entries by ±1. -/
def State.addRefs (s : State) (up : Bool) (l : List Nat) : State :=
  l.foldl (fun acc i =>
    let d := acc.dir i
    acc.setDir i { d with refs := if up then d.refs + 1 else d.refs - 1 }) s

/-- SEQ_PUBLISH. Log entry 133 applies (DESIGN CHOICE). -/
def seqPublishEff (w : Nat) (s : State) : KvpEff :=
  let h := argA w
  let b := argB w
  let old := s.kvp.lastSeq h
  let r : SeqRec :=
    { live := true, ctx := bits b 31 24, version := (old.version + 1) % 2 ^ 32, listBase := addr0 w,
      listLen := bits b 16 0, firstPos := pos0 w, len := pos1 w }
  match s.kvp.lastCtx r.ctx with
  | none => .fail .verify s
  | some c =>
    if 16383 < h then .fail .verify s
    else
      let shape := r.listBase % 64 = 0 && decide (1 ≤ r.listLen) && decide (r.listLen ≤ 65536)
        && decide (r.firstPos ≤ r.len) && decide (r.len < 2 ^ 32) && r.listOk c && !(old.live && decide (old.ctx ≠ r.ctx))
        && s.inHbmRegion r.listBase (8 * r.listLen)
      if !shape then .fail .verify s
      else
        let rd := s.kvpRead r.listBase (8 * r.listLen)
        let es := r.pages.map (fun l => (l, s.listEntry r c l))
        if rd.1 ≠ .ok then .fail rd.1 rd.2
        else
          let ix := es.map (fun p => p.2.index)
          let de := rd.2.dirReads ix
          if de.1 ≠ .ok then .fail de.1 de.2
          else if es.any (fun p => !s.entryOk h r c p.1 p.2) then .fail .verify de.2
          else if argC w ≠ old.version then .fail .stale de.2
          else .done ((de.2.addRefs true ix).stage (.seq h { r with refs := ix }))

/-- SEQ_PUBLISH stages a LIVE record. -/
def execSeqPublish (s : State) : Host.Outcome State Fault Refusal := .next (s.kvpExec 0x02 seqPublishEff)

/-- SEQ_CLEAR. The record keeps its context. Log entry 133 applies (DESIGN CHOICE). -/
def seqClearEff (w : Nat) (s : State) : KvpEff :=
  let h := argA w
  let old := s.kvp.lastSeq h
  if decide (16383 < h) || !old.live then .fail .verify s
  else if argC w ≠ old.version then .fail .stale s
  else .done (s.stage (.seq h { ctx := old.ctx, version := (old.version + 1) % 2 ^ 32 }))

/-- SEQ_CLEAR stages EMPTY. -/
def execSeqClear (s : State) : Host.Outcome State Fault Refusal := .next (s.kvpExec 0x03 seqClearEff)

/-! ### Entries -/

/-- A frame or summary address: 54 bits, aligned, and for this module inside one HBM region (Table 07-7). -/
def State.pageAddrOk (s : State) (fa al n : Nat) : Bool :=
  decide (fa < 2 ^ 54) && fa % al = 0 && (decide (fabModule fa ≠ s.moduleId) || s.inHbmRegion (fabLocal fa) n)

/-- Entries A to A + B − 1. -/
def entryRange (w : Nat) : List Nat := tab (argB w) (fun i => argA w + i)

/-- Is the range of a command with a count inside the directory? -/
def rangeOk (w : Nat) : Bool := decide (1 ≤ argB w) && decide (argB w ≤ 65536) && decide (argA w + argB w ≤ 65536)

/-- The context of an entry's handle, in its latest copy; that of an EMPTY handle is the one that it had last.
Log entry 133 applies (DESIGN CHOICE). -/
def State.handleCtx (s : State) (h : Nat) : Option WalkCtx := s.kvp.lastCtx (s.kvp.lastSeq h).ctx

/-- Bytes of a page's summaries. -/
def WalkCtx.summaries (c : WalkCtx) : Nat := c.layers * c.heads * c.sb

/-- MAP. -/
def mapEff (w : Nat) (s : State) : KvpEff :=
  let h := argC w
  if !rangeOk w || decide (16383 < h) || (!(s.kvp.seq h).live && !(s.kvp.lastSeq h).live) then .fail .verify s
  else
    let rd := s.kvpRead (s.dirAddr (argA w)) (32 * argB w)
    match s.handleCtx h with
    | none => .fail (rd.1.worse .verify) rd.2
    | some c =>
      let fr := fun i => addr0 w + i * c.frameBytes
      let su := fun i => if addr1 w = 0 then 0 else addr1 w + i * c.summaries
      let ok := fun i => (s.dir (argA w + i)).state = 0 && s.pageAddrOk (fr i) 4096 c.frameBytes
        && (su i = 0 || s.pageAddrOk (su i) 64 c.summaries)
        && decide (pos0 w + i < (if c.ring then c.ringPages else 2 ^ 32))
      if rd.1 ≠ .ok then .fail rd.1 rd.2
      else if !(List.range (argB w)).all ok then .fail .verify rd.2
      else
        let s1 := (List.range (argB w)).foldl (fun acc i =>
          let d := acc.dir (argA w + i)
          acc.setDir (argA w + i) ⟨fr i, su i, h, (d.gen + 1) % 65536, pos0 w + i, 1, false, d.refs⟩) rd.2
        .done (s1.setFld Fld.KVP_STATUS_FREE_ENTRIES (s1.fld Fld.KVP_STATUS_FREE_ENTRIES - argB w))

/-- MAP assigns frames to FREE entries. -/
def execMapCmd (s : State) : Host.Outcome State Fault Refusal := .next (s.kvpExec 0x04 mapEff)

/-! ### SEAL (R203) -/


/-- Element d of row r of a K page, its scale apart, and the scale code. -/
def kElem (c : WalkCtx) (page r d : Nat) : FVal :=
  decodeElem c.kFmt (elemAt c.kFmt (page >>> (8 * (r * pitchK c.kFmt c.d))) d)
def kScale (c : WalkCtx) (page r b : Nat) : Nat := if isMX c.kFmt then byteField page (64 * pitchK c.kFmt c.d + 64 * b + r) 1 else 127

/-- Is the page unbounded: a NaN, an infinity or a scale 0xFF? -/
def kUnbounded (c : WalkCtx) (page : Nat) : Bool :=
  (List.range 64).any (fun r => (List.range c.d).any (fun d =>
    match scaled (kScale c page r (d / 32)) (kElem c page r d) with
    | .fin .. => false
    | _ => true))

/-- The larger or the lesser of two finite values; others take no part. -/
def pickVal (isMax : Bool) (a : Option FVal) (x : FVal) : Option FVal :=
  match x with
  | .fin .. =>
    match a with
    | none => some x
    | some y => some (if isMax then (if y.below x then x else y) else (if x.below y then x else y))
  | _ => a

/-- Row maximum or minimum of a channel over the 64 rows. Log entry 44 applies (DEDUCED). -/
def channelExtreme (isMax : Bool) (c : WalkCtx) (page d : Nat) : FVal :=
  ((List.range 64).foldl (fun a r => pickVal isMax a (scaled (kScale c page r (d / 32)) (kElem c page r d))) none).getD
    (.fin false 0 0)

/-- The largest scale of channel block b. -/
def blockScale (c : WalkCtx) (page b : Nat) : Nat :=
  (List.range 64).foldl (fun m r => let x := kScale c page r b; if x = 255 then m else max m x) 0

/-- A value divided by a block scale and rounded to an MX element. -/
def summaryElem (fmt code sc : Nat) (x : FVal) : Nat :=
  match x with
  | .fin s m e =>
    let e1 := e - ((sc : Int) - 127)
    if fmt = 8 then unsigned 8 (sgn s (roundAt code s m e1 0 (-6) e1 (fun _ => 0)))
    else (roundFloat fmt code s m e1 0 e1 (fun _ => 0)).bits
  | _ => 0

/-- The elements of KMAX or KMIN: exact for BF16 and FP16, rounded up or down under the block scale for MX.
Log entry 44 applies (DEDUCED). -/
def summaryElems (isMax : Bool) (c : WalkCtx) (page : Nat) : List Nat :=
  tab c.d (fun d =>
    let x := channelExtreme isMax c page d
    if isMX c.kFmt then summaryElem c.kFmt (if isMax then 3 else 2) (blockScale c page (d / 32)) x
    else match x with
      | .fin s m e => encodeFin c.kFmt s m e
      | _ => 0)

/-- The larger of a column's two V scale codes, 0xFF apart. -/
def vSummary (c : WalkCtx) (page n : Nat) : Nat :=
  let o := c.d * pitchV c.vFmt
  let x := byteField page (o + n) 1
  let y := byteField page (o + c.d + n) 1
  if x = 255 then y else if y = 255 then x else max x y

/-- The summary of one layer and head (Table 07-9). -/
def summaryBytesOf (c : WalkCtx) (kPage vPage : Nat) : List Byte :=
  let pk := pitchK c.kFmt c.d
  let nb := c.d / 32
  let row := fun isMax => leBytes pk (packElems (fmtBits c.kFmt) (summaryElems isMax c kPage))
  leBytes 8 (b2n (kUnbounded c kPage)) ++ row true ++ row false
    ++ (if isMX c.kFmt then
        let sc := tab nb (fun b => BitVec.ofNat 8 (blockScale c kPage b))
        sc ++ sc
      else [])
    ++ (if isMX c.vFmt then tab c.d (fun n => BitVec.ofNat 8 (vSummary c vPage n)) else [])

/-- The summaries of an entry: where each goes, and its bytes padded to SB. -/
def State.summariesOf (s : State) (i : Nat) (c : WalkCtx) : List (Nat × List Byte) :=
  let e := s.dir i
  let pb := pageBytes c.kFmt c.vFmt c.d
  let page := fun k => leNat (s.fabBytes s.kvp.got (e.frame + k * pb) pb)
  tab (c.layers * c.heads) (fun p =>
    let l := summaryBytesOf c (page (2 * p)) (page (2 * p + 1))
    (e.summary + p * c.sb, l ++ leBytes (c.sb - l.length) 0))

/-- Reads of a command at fabric addresses, with what other modules have answered. -/
def State.kvpReads (s : State) (l : List (Nat × Nat)) : Status × Nat × List (Nat × Nat) × State :=
  s.fabReads 7 .module s.kvpTag s.kvp.got l

/-- WRITEs of those pieces that go to other modules. -/
def State.kvpWrites (s : State) (l : List (Nat × List Byte)) : List Trans :=
  (l.filter (fun p => decide (fabModule p.1 ≠ s.moduleId))).flatMap (fun p => writeTrans .kvp s.kvpTag p.1 p.2)

/-- The frames of entries that a SEAL reads, each under its own context. -/
def State.frameReads (s : State) (l : List Nat) : List (Nat × Nat) :=
  l.map (fun i => ((s.dir i).frame, ((s.handleCtx (s.dir i).handle).map (·.frameBytes)).getD 0))

/-- Every summary of a list of entries. -/
def State.allSummaries (s : State) (l : List Nat) : List (Nat × List Byte) :=
  l.flatMap (fun i => ((s.handleCtx (s.dir i).handle).map (s.summariesOf i)).getD [])

/-- The entries are SEALED, their summaries on this module written (R286). -/
def State.sealAll (s : State) (l : List Nat) (sums : List (Nat × List Byte)) : State :=
  l.foldl (fun acc i => acc.setDir i { acc.dir i with isSealed := true }) (s.putOwn sums)

/-- SEAL. Frames and summaries on other modules are read and written over the fabric, and the command goes on once all has been
answered; the lowest status ends it (R189, R203). -/
def sealEff (w : Nat) (s : State) : KvpEff :=
  if !rangeOk w then .fail .verify s
  else
    let l := entryRange w
    let rd := s.kvpRead (s.dirAddr (argA w)) (32 * argB w)
    if rd.1 ≠ .ok then .fail rd.1 rd.2
    else if l.any (fun i => let d := s.dir i
        decide (d.state ≠ 1) || d.isSealed || d.summary = 0 || (s.handleCtx d.handle).isNone) then .fail .verify rd.2
    else
      let fs := rd.2.kvpReads (s.frameReads l)
      let sums := fs.2.2.2.allSummaries l
      let out := s.kvpWrites sums
      if !fs.2.2.1.isEmpty then .later (s.kvpSend (readTrans .kvp s.kvpTag fs.2.2.1) none)
      else if fs.1 ≠ .ok then .fail fs.1 fs.2.2.2
      else match s.kvp.sent with
        | none => if out.isEmpty then .done (fs.2.2.2.sealAll l sums) else .later (s.kvpSend out (some .ok))
        | some st => if st ≠ .ok then .fail st fs.2.2.2 else .done (fs.2.2.2.sealAll l sums)

/-- SEAL computes summaries. -/
def execSeal (s : State) : Host.Outcome State Fault Refusal := .next (s.kvpExec 0x05 sealEff)

/-! ### Commands that complete at a boundary -/

/-- Address checks of MOVE_PAGE and REPLACE, as for MAP. -/
def State.newPageOk (s : State) (w h : Nat) : Bool :=
  match s.handleCtx h with
  | none => false
  | some c => s.pageAddrOk (addr0 w) 4096 c.frameBytes && (addr1 w = 0 || s.pageAddrOk (addr1 w) 64 c.summaries)

/-- MOVE_PAGE: the entry becomes BUSY while its frame and summary are copied. -/
def movePageEff (w : Nat) (s : State) : KvpEff :=
  let i := argA w
  let d := s.dir i
  if 65535 < i then .fail .verify s
  else
    let rd := s.kvpRead (s.dirAddr i) 32
    if rd.1 ≠ .ok then .fail rd.1 rd.2
    else if decide (d.state ≠ 1) || !s.newPageOk w d.handle then .fail .verify rd.2
    else .copies i (addr0 w) (addr1 w) (rd.2.setDir i { d with state := 2 })

/-- MOVE_PAGE begins. -/
def execMovePage (s : State) : Host.Outcome State Fault Refusal := .next (s.kvpExec 0x06 movePageEff)

/-- What a MOVE_PAGE copies: source, destination and length of the frame, and of the summaries where both are named. -/
def State.copyParts (s : State) (m : KvpCopy) : List (Nat × Nat × Nat) :=
  let d := s.dir m.entry
  let c := s.handleCtx d.handle
  (d.frame, m.frame, (c.map (·.frameBytes)).getD 0)
    :: (if d.summary = 0 || m.summary = 0 then [] else [(d.summary, m.summary, (c.map WalkCtx.summaries).getD 0)])

/-- The copy has failed: the entry returns to MAPPED as it was, and the command completes. -/
def State.copyFails (s : State) (m : KvpCopy) (st : Status) : State :=
  let s1 := s.setKvp { s.kvp with copying := none, got := [], sent := none }
  (s1.setDir m.entry { s1.dir m.entry with state := 1 }).kvpComplete m.record 0x06 st 0

/-- The copy has ended: what lies on this module is written, the entry is MAPPED at its new addresses, and the command waits
for the boundary. -/
def State.copyEnds (s : State) (m : KvpCopy) (l : List (Nat × List Byte)) : State :=
  let d := s.dir m.entry
  let s1 := (s.setKvp { s.kvp with copying := none, got := [], sent := none }).putOwn l
  let s2 := s1.setDir m.entry { d with frame := m.frame, summary := m.summary, state := 1 }
  (s2.setKvp { s2.kvp with waiting := s2.kvp.waiting ++ [⟨m.record, 0x06, d.frame, []⟩] }).showKvp

/-- MOVE_PAGE_COPY_DONE: the copy has ended: the entry returns to MAPPED at its new addresses and the command waits for
the boundary; a read or write that fails fails the command, which changes nothing (R198, Table 10-6). Parts on other modules
are read and written over the fabric first (R189). -/
def execMovePageCopyDone (s : State) : Host.Outcome State Fault Refusal :=
  .next (
    match s.kvp.copying with
    | none => s
    | some m =>
      let parts := s.copyParts m
      let rd := s.kvpReads (parts.map (fun p => (p.1, p.2.2)))
      let l := parts.map (fun p => (p.2.1, s.fabBytes s.kvp.got p.1 p.2.2))
      let out := s.kvpWrites l
      if s.owes .kvp then s
      else if !rd.2.2.1.isEmpty then s.kvpSend (readTrans .kvp s.kvpTag rd.2.2.1) none
      else if rd.1 ≠ .ok then rd.2.2.2.copyFails m rd.1
      else if s.kvp.sent.isNone && !out.isEmpty then s.kvpSend out (some .ok)
      else if s.kvp.sent.getD .ok ≠ .ok then s.copyFails m (s.kvp.sent.getD .ok)
      else rd.2.2.2.copyEnds m (parts.map (fun p => (p.2.1, rd.2.2.2.fabBytes s.kvp.got p.1 p.2.2))))

/-- REPLACE. -/
def replaceEff (w : Nat) (s : State) : KvpEff :=
  let i := argA w
  let d := s.dir i
  if 65535 < i then .fail .verify s
  else
    let rd := s.kvpRead (s.dirAddr i) 32
    if rd.1 ≠ .ok then .fail rd.1 rd.2
    else if decide (d.state ≠ 1) || !s.newPageOk w d.handle then .fail .verify rd.2
    else if d.gen ≠ argC w then .fail .stale rd.2
    else .waits d.frame [] (rd.2.setDir i { d with frame := addr0 w, summary := addr1 w, gen := (d.gen + 1) % 65536, isSealed := false })

/-- REPLACE sets new addresses. -/
def execReplace (s : State) : Host.Outcome State Fault Refusal := .next (s.kvpExec 0x07 replaceEff)

/-- FREE: FREEING at once. -/
def freeEff (w : Nat) (s : State) : KvpEff :=
  if !rangeOk w then .fail .verify s
  else
    let l := entryRange w
    let rd := s.kvpRead (s.dirAddr (argA w)) (32 * argB w)
    if rd.1 ≠ .ok then .fail rd.1 rd.2
    else if l.any (fun i => let d := s.dir i; decide (d.state ≠ 1) || decide (d.refs ≠ 0)) then .fail .verify rd.2
    else .waits 0 l (l.foldl (fun acc i => acc.setDir i { acc.dir i with state := 3 }) rd.2)

/-- FREE marks entries FREEING. -/
def execFreeCmd (s : State) : Host.Outcome State Fault Refusal := .next (s.kvpExec 0x08 freeEff)

/-! ### The boundary (R196, R198) -/

/-- One staged change applies; the list it replaces gives its references up. -/
def State.applyChange (s : State) (x : KvpChange) : State :=
  match x with
  | .ctx n c => (s.setKvp { s.kvp with ctxs := SMap.insert s.kvp.ctxs n c }).putCopy false x
  | .seq h r =>
    let s1 := s.addRefs false (s.kvp.seq h).refs
    (s1.setKvp { s1.kvp with seqs := SMap.set {} s1.kvp.seqs h r }).putCopy false x

/-- One waiting command completes: its FREEING entries become FREE with a new generation; one that cannot be read fails the
command (Table 10-6). Log entry 43 applies (DEDUCED). -/
def State.completeWait (s : State) (w : KvpWait) : State :=
  let rd := s.dirReads w.frees
  if rd.1 ≠ .ok then rd.2.kvpComplete w.record w.op rd.1 0
  else
    let s1 := w.frees.foldl (fun acc i =>
      let d := acc.dir i
      acc.setDir i { d with state := 0, gen := (d.gen + 1) % 65536 }) rd.2
    (s1.setFld Fld.KVP_STATUS_FREE_ENTRIES (s1.fld Fld.KVP_STATUS_FREE_ENTRIES + w.frees.length)).kvpComplete w.record w.op .ok
      w.result

/-- Staged changes apply together in order, `KVP_GEN` increases, and the commands that wait complete. -/
def State.applyKvp (s : State) : State :=
  let k := s.kvp
  let s1 := k.staged.foldl State.applyChange (s.setKvp { k with staged := [], waiting := [] })
  let s2 := if k.staged.isEmpty then s1 else s1.bumpWrap Fld.KVP_STATUS_KVP_GEN 1
  (k.waiting.foldl State.completeWait s2).showKvp

/-! ### Register writes (R207, R208) -/

/-- The KVP region wiped: every entry FREE, every handle EMPTY, every context undefined. Log entry 43 applies (DEDUCED). -/
def State.wipeKvp (s : State) : State :=
  match s.regions.find? (fun r => r.cls = classKvp) with
  | none => s
  | some r =>
    let s1 := (s.wipe r.base r.size).setKvp {}
    ((s1.setFld Fld.KVP_STATUS_FREE_ENTRIES 65536).setFld Fld.KVP_STATUS_ENABLED 1).showKvp

/-- Is a command pending? -/
def State.kvpBusy (s : State) : Bool := decide (s.fld Fld.KVP_STATUS_PENDING ≠ 0)

/-- Write of `KVP_CTRL`. -/
def kvpCtrlWrite (v : Word) (s : State) : Status × State :=
  let held := s.sched.run.isSome || s.kvpBusy
  let on := s.flag Fld.KVP_STATUS_ENABLED
  if bit v.toNat 0 then
    if on && held then (.denied, s)
    else if !s.ready rdyHbm then (.notReady, s)
    else
      let s1 := s.wipeKvp.setFld Fld.KVP_CTRL_ENABLE 1
      (.ok, if on then s1.bumpWrap Fld.KVP_STATUS_KVP_GEN 1 else s1)
  else if held then (.denied, s)
  else (.ok, (s.setFld Fld.KVP_CTRL_ENABLE 0).setFld Fld.KVP_STATUS_ENABLED 0)

/-- KVP_ENABLE: a write of `ENABLE` as 1. -/
def execKvpEnable (q : Fin 4) (s : State) : Host.Outcome State Fault Refusal :=
  .next (s.regWrite q Reg.KVP_CTRL (kvpCtrlWrite 1))

/-- KVP_DISABLE: a write of `ENABLE` as 0. -/
def execKvpDisable (q : Fin 4) (s : State) : Host.Outcome State Fault Refusal :=
  .next (s.regWrite q Reg.KVP_CTRL (kvpCtrlWrite 0))

/-- Write of `KVP_LIMITS`: 1 to 1,000,000 (R207). -/
def kvpLimitsWrite (v : Word) (s : State) : Status × State :=
  let n := wget v 19 0
  if n = 0 || decide (1000000 < n) then (.verify, s) else (.ok, s.setFld Fld.KVP_LIMITS_BUSY_NS n)

/-- KVP_LIMITS_WRITE. -/
def execKvpLimitsWrite (q : Fin 4) (v : Word) (s : State) : Host.Outcome State Fault Refusal :=
  .next (s.regWrite q Reg.KVP_LIMITS (kvpLimitsWrite v))

/-- Write of `KVP_CMD_SUBMIT`: NOT_READY while the subsystem is not enabled, DENIED with 64 commands pending, VERIFY for
a record that is not in HBM or lies in the KVP region (R198). Log entry 43 applies (DEDUCED). -/
def kvpSubmitWrite (v : Word) (s : State) : Status × State :=
  let a := wget v 39 6 * 64
  let full := decide (64 ≤ s.fld Fld.KVP_STATUS_PENDING)
  let st := Status.lowest [Status.when full .denied, Status.when (!isHbm a || s.touchesClass classKvp a 64) .verify,
    Status.when (!s.flag Fld.KVP_STATUS_ENABLED) .notReady]
  if st ≠ .ok then (st, s) else (.ok, (s.setKvp { s.kvp with queue := s.kvp.queue ++ [a] }).showKvp)

/-- KVP_CMD_SUBMIT. -/
def execKvpCmdSubmit (q : Fin 4) (v : Word) (s : State) : Host.Outcome State Fault Refusal :=
  .next (s.regWrite q Reg.KVP_CMD_SUBMIT (kvpSubmitWrite v))

end Sys2Proof.Machine
end

