-- ==== Sys2Proof/Machine/Att.lean ====
section
/-! DEFINITION. Attention (06_attention.md, R161 to R187, R199 to R206): descriptors, masks, page selection and
translation, the score and value passes with running anchors, slots, SEND and DRAIN. -/

namespace Sys2Proof.Machine

/-! ### Descriptors (R170, R171) -/

/-- An attention descriptor (Table 06-4). -/
structure AttDesc where
  flat : Bool
  qFmt : Nat
  kFmt : Nat
  vFmt : Nat
  outFmt : Nat
  rnd : Nat
  maskKind : Nat
  d : Nat
  scale : Nat
  win : Nat
  blk : Nat
  lenBuf : Nat
  kBuf : Nat
  vBuf : Nat
  seqCount : Nat
  lenOff : Nat
  scratch : Nat
  walkCtx : Nat
  vAnchor : Int
  buckets : List Nat

def AttDesc.ofNum (w : Nat) : AttDesc :=
  { flat := byteField w 1 1 = 1, qFmt := bits w 19 16, kFmt := bits w 23 20, vFmt := bits w 27 24, outFmt := bits w 31 28,
    rnd := byteField w 4 1, maskKind := byteField w 5 1, d := byteField w 6 2, scale := byteField w 8 4,
    win := byteField w 12 4, blk := byteField w 16 4, lenBuf := byteField w 20 1, kBuf := byteField w 21 1,
    vBuf := byteField w 22 1, seqCount := byteField w 24 4, lenOff := byteField w 28 5, scratch := byteField w 33 3,
    walkCtx := byteField w 36 4, vAnchor := signed 16 (byteField w 40 2), buckets := tab 16 (fun i => byteField w (64 + 4 * i) 4) }

/-- Bucket lengths: multiples of 64 up to 2^20, ascending, zeros only after the last used. -/
def bucketsOk : List Nat → Nat → Bool
  | [], _ => true
  | b :: l, last => if b = 0 then l.all (fun x => x = 0) else decide (last < b) && b % 64 = 0 && decide (b ≤ 2 ^ 20) && bucketsOk l b

/-- The field checks of Table 06-4; `w` is the 128-byte record. -/
def AttDesc.ok (d : AttDesc) (w : Nat) : Bool :=
  byteField w 0 1 = 1 && decide (byteField w 1 1 ≤ 1) && pairOk d.qFmt d.kFmt && decide (d.qFmt ≠ 9) && vFmtOk d.vFmt
    && (d.outFmt ≤ 2 || isMX d.outFmt) && decide (d.rnd ≤ 4) && decide (d.maskKind ≤ 5)
    && decide (32 ≤ d.d) && decide (d.d ≤ 256) && d.d % 32 = 0
    && decide (1 ≤ bits d.scale 30 23) && decide (bits d.scale 30 23 ≤ 254) && !bit d.scale 31
    && ((d.maskKind = 2 || d.maskKind = 3 || d.maskKind = 5) == decide (1 ≤ d.win))
    && ((d.maskKind = 4 || d.maskKind = 5) == decide (1 ≤ d.blk))
    && (if d.flat then true else d.kBuf = 255 && d.vBuf = 255) && byteField w 23 1 = 0
    && decide (1 ≤ d.seqCount) && decide (d.seqCount ≤ 16384) && d.lenOff % 32 = 0 && d.scratch % 64 = 0
    && (if d.flat then d.walkCtx = 0 else d.walkCtx < 2 ^ 22)
    && (if isMX d.vFmt then d.vAnchor = 0 else decide (-320 ≤ d.vAnchor) && decide (d.vAnchor ≤ 320))
    && byteField w 42 22 = 0 && (if d.flat then bucketsOk d.buckets 0 else d.buckets.all (fun x => x = 0))

/-- A length-table entry (Table 06-5). -/
structure LenEntry where
  qLen : Nat
  kLen : Nat
  pos0 : Int
  kvRef : Nat
  vOff : Nat
  bucket : Nat

def LenEntry.ofNum (w : Nat) : LenEntry :=
  ⟨byteField w 0 4, byteField w 4 4, signed 40 (byteField w 8 5), byteField w 16 5, byteField w 21 5, byteField w 26 1⟩

/-- Key `j` allowed for query position `p` (Table 06-1). -/
def AttDesc.allows (d : AttDesc) (p j : Int) : Bool :=
  let w : Int := d.win
  let b : Int := d.blk
  match d.maskKind with
  | 0 => true
  | 1 => decide (j ≤ p)
  | 2 => decide (p - w < j) && decide (j ≤ p)
  | 3 => decide (((j - p).natAbs : Int) < w)
  | 4 => decide (j.fdiv b ≤ p.fdiv b)
  | _ => decide (p.fdiv b - w < j.fdiv b) && decide (j.fdiv b ≤ p.fdiv b)

/-! ### K and V pages (R188) -/

/-- Row r of a K page: its blocks of values, and its largest scale exponent (R57). -/
def kRow (fmt d page r : Nat) : List (List FVal) :=
  tab (d / 32) (fun b => tab 32 (fun e =>
    scaled (if isMX fmt then byteField page (64 * pitchK fmt d + 64 * b + r) 1 else 127)
      (decodeElem fmt (elemAt fmt (page >>> (8 * (r * pitchK fmt d))) (32 * b + e)))))

/-- CB of a list of scale codes or of BF16 values. -/
def topCodes (l : List Nat) : Int := topOf (-127) (l.map (fun (c : Nat) => if c = 255 then none else some ((c : Int) - 127)))
def topVals (fmt : Nat) (l : List FVal) : Int := if fmt = 1 then topOf (-126) (l.map (expOf 7)) else 0

/-- CB of row r of a K page. -/
def kRowTop (fmt d page r : Nat) : Int :=
  if isMX fmt then topCodes (tab (d / 32) (fun b => byteField page (64 * pitchK fmt d + 64 * b + r) 1))
  else topVals fmt ((kRow fmt d page r).flatMap id)

/-- Scale code of column n in half h of a V page. -/
def vCodeOf (fmt d page n h : Nat) : Nat := byteField page (d * pitchV fmt + d * h + n) 1

/-- Element `pos` of column n of a V page. -/
def vElem (fmt d page n pos : Nat) : FVal :=
  scaled (if isMX fmt then vCodeOf fmt d page n (pos / 32) else 127)
    (decodeElem fmt (elemAt fmt (page >>> (8 * (n * pitchV fmt))) pos))

/-! ### Scores (R161) -/

/-- `c` as an integer and an exponent. -/
def scaleParts (c : Nat) : Int × Int := ((bits c 22 0 + 2 ^ 23 : Nat), (bits c 30 23 : Int) - 150)

/-- RND(entry × c) in FP32. -/
def scoreConv (code c : Nat) (e : WideEntry) : Conv :=
  let p := scaleParts c
  let r := accConv 0 code e.nan e.invalid e.pinf e.ninf e.sticky (e.value * p.1) (e.anchor - 160 + p.2) (fun _ => 0)
  ⟨r.bits, r.flags ||| e.flags ||| flagIf (r.bits = infCode && !e.nan) flagInvalid⟩

/-- The score of a Q row against row r of a K page; none where the entry faults with WINDOW. -/
def keyScore (d : AttDesc) (q : List (List FVal) × Int) (page r : Nat) : Option Conv :=
  let e0 := WideEntry.cleared (q.2 + kRowTop d.kFmt d.d page r + pairT d.qFmt d.kFmt)
  (e0.addAll (rowContribs d.qFmt q.1 (kRow d.kFmt d.d page r))).map (scoreConv 0 d.scale)

/-! ### The environment of a PASS -/

/-! ### The buffers and contexts that a descriptor names (R170, R173, R191) -/

/-- A PAGES descriptor against its walker context (R191). -/
def State.walkOk (s : State) (d : AttDesc) : Bool :=
  match SMap.find s.kvp.ctxs (bits d.walkCtx 7 0) with
  | none => false
  | some c => decide (bits d.walkCtx 15 8 < c.layers) && decide (bits d.walkCtx 21 16 < c.heads) && d.kFmt = c.kFmt
      && d.vFmt = c.vFmt && d.d = c.d

/-- May a buffer hold the K or V of a FLAT sequence? Log entry 130 applies (DESIGN CHOICE). -/
def kvBufOk (bufs : List Buf) (b : Nat) : Bool := (bufs[b]?.map (fun x => x.kind = bufIn || x.kind = bufInout)).getD false

/-- Every check on the 128-byte record `w` of a descriptor, at load and at run time: its fields, the length table wholly in an
IN buffer, and its K and V buffers or its walker context. -/
def State.attDescOk (s : State) (bufs : List Buf) (d : AttDesc) (w : Nat) : Bool :=
  d.ok w && (bufs[d.lenBuf]?.map (fun b => b.kind = bufIn && decide (d.lenOff + 32 * d.seqCount ≤ b.size))).getD false
    && (if d.flat then kvBufOk bufs d.kBuf && kvBufOk bufs d.vBuf else s.walkOk d)

/-- Where the pages of a sequence lie. -/
structure AttKv where
  rec' : SeqRec
  ctx : WalkCtx
  handle : Nat
  unit : Nat
  kBase : Nat
  vBase : Nat

/-- What an ATT instruction works on: descriptor, sequence, first row, unmasked rows, tile and first long accumulator, and
what other modules have answered to the reads of its pages. -/
structure AttEnv where
  d : AttDesc
  len : LenEntry
  i0 : Nat
  m : Nat
  rows : List Nat
  tile : Tile
  lidx : Nat
  kv : AttKv
  gen : Nat
  got : List (Nat × Status × List Byte)

/-- Bytes of one page. -/
def AttEnv.pb (e : AttEnv) : Nat := pageBytes e.d.kFmt e.d.vFmt e.d.d

/-- Bytes that are read of a K page, and of a V page. -/
def AttEnv.kb (e : AttEnv) : Nat := bytesK e.d.kFmt e.d.d
def AttEnv.vb (e : AttEnv) : Nat := bytesV e.d.vFmt e.d.d

/-- Position of row m. -/
def AttEnv.pos (e : AttEnv) (m : Nat) : Int := e.len.pos0 + e.i0 + m

/-- Key j is below K_LEN and permitted by the mask. -/
def AttEnv.permits (e : AttEnv) (m j : Nat) : Bool := decide (j < e.len.kLen) && e.d.allows (e.pos m) j

/-- Limit that ranges are clipped to (R175). -/
def AttEnv.clip (e : AttEnv) : Nat := if e.d.flat then nth 0 e.d.buckets e.len.bucket else e.len.kLen

/-- Present pages that hold a key below the clip limit. -/
def AttEnv.pages (e : AttEnv) : List Nat :=
  if e.d.flat then List.range (e.clip / 64) else e.kv.rec'.pages.filter (fun l => decide (64 * l < e.len.kLen))

/-- Is page l present? -/
def AttEnv.present (e : AttEnv) (l : Nat) : Bool :=
  e.d.flat || (decide (e.kv.rec'.firstPage ≤ l) && decide (l < e.kv.rec'.endPage))

/-- Bank layout of R169. -/
def attBankOk (bank m d : Nat) : Bool := if d ≤ 128 then decide (bank ≤ 1) else decide (m ≤ 64) && (bank = 0 || bank = 2)

/-- Address of the length-table entry i. -/
def State.lenAddr (s : State) (d : AttDesc) (i : Nat) : Nat := ((s.buf d.lenBuf).map (·.base)).getD 0 + d.lenOff + 32 * i

/-- The environment of an ATT; a status and an address where it faults. -/
def State.attEnv (s : State) (t : Site) (o : AttOps) (desc seq i0 : Nat) : Sum (Status × Nat) AttEnv :=
  let d := AttDesc.ofNum desc
  let m := o.mM1 + 1
  let bank := o.bank + s.bankShift t
  let bufs := ((s.sched.run.bind (·.prog)).map (·.bufs)).getD []
  if !s.attDescOk bufs d desc || !attBankOk bank m d.d then .inl (.verify, s.pcAddr t)
  else if d.seqCount ≤ seq then .inl (.bounds, s.pcAddr t)
  else
    let len := LenEntry.ofNum (s.num (s.lenAddr d seq) 32)
    let c := SMap.find s.kvp.ctxs (bits d.walkCtx 7 0)
    let h := bits len.kvRef 13 0
    let base := fun b off => s.fabricAddr (((s.buf b).map (·.base)).getD 0 + off)
    let flat : WalkCtx := ⟨false, d.kFmt, d.vFmt, false, d.d, 1, 1, 0, 0, 0, 0, 0, 0⟩
    let ctx := if d.flat then flat else c.getD flat
    let kv : AttKv := ⟨s.kvp.seq h, ctx, h, bits d.walkCtx 15 8 * ctx.heads + bits d.walkCtx 21 16,
      base d.kBuf len.kvRef, base d.vBuf len.vOff⟩
    .inr ⟨d, len, i0, m, ((s.ctx t).unmasked o.rowMask m).filter (fun i => decide (i0 + i < len.qLen)), ⟨bank, m, d.d, [], []⟩,
      o.lidx, kv, s.sfuGen, ((s.core t.core).att.map (·.pages)).getD []⟩

/-! ### The walk (R199) -/

/-- Outcome of a translation. -/
inductive Walk where
  | page (d : DirEntry) (useSummary : Bool)
  | bounds
  | busy (entry : Nat)
  | stale (entry : Nat)

/-- Does a directory entry match a list entry (R199)? -/
def entryMatches (kv : AttKv) (d : DirEntry) (e : ListEntry) (l : Nat) : Bool :=
  (d.state = 1 || d.state = 3) && d.gen = e.gen && d.handle = kv.handle && d.lpage = lpageOf kv.ctx l

/-- The list entry of page l. -/
def State.listEntryOf (s : State) (kv : AttKv) (l : Nat) : ListEntry :=
  .ofNum (s.num (kv.rec'.listBase + 8 * kv.rec'.slot kv.ctx l) 8)

def State.translate (s : State) (kv : AttKv) (l : Nat) : Walk :=
  if l < kv.rec'.firstPage || kv.rec'.endPage ≤ l then .bounds
  else
    let e := s.listEntryOf kv l
    let d := s.dir e.index
    if entryMatches kv d e l then .page d e.useSummary else if d.state = 2 then .busy e.index else .stale e.index

/-- A page that a PASS has found: its number, the fabric addresses of its K and V parts, its summary (0 for none used) and
whether its K and V, or only the V scales of its summary, are read. -/
structure AttPage where
  l : Nat
  k : Nat
  v : Nat
  summary : Nat
  useSummary : Bool

/-- All pages of a list translated, or the first that does not match. -/
def State.findPages (s : State) (e : AttEnv) : List Nat → Sum Walk (List AttPage)
  | [] => .inr []
  | l :: rest =>
    if e.d.flat then
      match s.findPages e rest with
      | .inr ps => .inr (⟨l, e.kv.kBase + l * e.pb, e.kv.vBase + l * e.pb, 0, false⟩ :: ps)
      | x => x
    else
      match s.translate e.kv l with
      | .page d u =>
        (match s.findPages e rest with
        | .inr ps => .inr (⟨l, d.frame + 2 * e.kv.unit * e.pb, d.frame + (2 * e.kv.unit + 1) * e.pb,
            if d.summary = 0 then 0 else d.summary + e.kv.unit * e.kv.ctx.sb, u⟩ :: ps)
        | x => x)
      | w => .inl w

/-- The aligned accesses of 64 or 32 bytes that read [a, a + n) of a list, a directory entry or a summary (R273); an access of
8 bytes lies in one of 32. -/
def narrowCut (a n : Nat) : List (Nat × Nat) :=
  if n ≤ 32 then [(a / 32 * 32, 32)] else tab (ceilDiv n 64) (fun i => (a + 64 * i, 64))

/-- The requester class of a PASS's reads: the walker's, in PAGES mode (R190, R278). -/
def State.attClass (s : State) (e : AttEnv) : Nat := if e.d.flat then s.coreClass else 6

/-- Reads of a PASS at fabric addresses: the first failing status and its address, the pieces of other modules that are missing
before it, and the state (R185, R189). -/
def State.attReads (s : State) (core : Nat) (e : AttEnv) (l : List (Nat × Nat)) : Status × Nat × List (Nat × Nat) × State :=
  s.fabReads (s.attClass e) (.core core) s.jobTag e.got l

/-- `n` bytes at a fabric address, little-endian. -/
def State.pageNum (s : State) (e : AttEnv) (fa n : Nat) : Nat := leNat (s.fabBytes e.got fa n)

/-- The walker's reads of the list and the directory (R273). -/
def State.walkReads (s : State) (e : AttEnv) (pages : List Nat) : List (Nat × Nat) :=
  if e.d.flat then []
  else pages.filter e.present |>.flatMap (fun l =>
    let a := e.kv.rec'.listBase + 8 * e.kv.rec'.slot e.kv.ctx l
    narrowCut (s.fabricAddr a) 8 ++ narrowCut (s.fabricAddr (s.dirAddr (ListEntry.ofNum (s.num a 8)).index)) 32)

/-! ### Page selection (R204, R205) -/

/-- A summary's rows KMAX and KMIN, their scale codes, and `UNBOUNDED`. -/
def sumRow (c : WalkCtx) (w : Nat) (isMax : Bool) : List (List FVal) :=
  let pk := pitchK c.kFmt c.d
  let off := if isMax then 8 else 8 + pk
  let so := 8 + 2 * pk + (if isMax then 0 else c.d / 32)
  tab (c.d / 32) (fun b => tab 32 (fun i =>
    scaled (if isMX c.kFmt then byteField w (so + b) 1 else 127) (decodeElem c.kFmt (elemAt c.kFmt (byteField w off pk) (32 * b + i)))))

/-- Positive or negative elements of a row; the others become zero, and a NaN stays. -/
def signPart (neg : Bool) (l : List FVal) : List FVal :=
  l.map (fun x => match x with
    | .fin s m e => if s = neg then .fin s m e else .fin false 0 0
    | .inf s => if s = neg then .inf s else .fin false 0 0
    | .nan => if neg then .fin false 0 0 else .nan)

/-- The bound's entry of a Q row on a summary; none where it faults with WINDOW. -/
def boundEntry (d : AttDesc) (c : WalkCtx) (q : List (List FVal) × Int) (w : Nat) : Option WideEntry :=
  let mx := sumRow c w true
  let mn := sumRow c w false
  let cb := if isMX c.kFmt then
      topCodes (tab (c.d / 32) (fun b => byteField w (8 + 2 * pitchK c.kFmt c.d + b) 1))
    else topVals c.kFmt (mx.flatMap id ++ mn.flatMap id)
  (WideEntry.cleared (q.2 + cb + pairT d.qFmt d.kFmt)).addAll
    (rowContribs d.qFmt (q.1.map (signPart false)) mx ++ rowContribs d.qFmt (q.1.map (signPart true)) mn)

/-- A page in the ranking: its bound and number; a bound that is NaN ranks as its number alone says.
Log entry 131 applies (DESIGN CHOICE). -/
def ranksBefore (x y : FVal × Nat) : Bool := y.1.below x.1 || (!x.1.below y.1 && decide (x.2 < y.2))

def insertRank (x : FVal × Nat) : List (FVal × Nat) → List (FVal × Nat)
  | [] => [x]
  | y :: l => if ranksBefore x y then x :: y :: l else y :: insertRank x l

/-- The pages row m selects among the candidates; one that has no summary is forced. Log entry 131 applies (DESIGN CHOICE). -/
def selectPages (e : AttEnv) (q : List (List FVal) × Int) (m : Nat) (ps : List AttPage) (num : Nat → Nat) : List Nat :=
  let c := e.kv.ctx
  let cand := ps.filter (fun p => (List.range 64).any (fun i => e.permits m (64 * p.l + i)))
  let recent := (cand.drop (cand.length - c.recent)).map (·.l)
  let bound := fun (p : AttPage) => boundEntry e.d c q (num p.summary)
  let forced := cand.filter (fun p => decide (p.l < c.sink) || recent.contains p.l || !p.useSummary || p.summary = 0
    || bit (byteField (num p.summary) 0 8) 0 || (match bound p with
      | none => true
      | some w => decide (w.cut ≠ 0)))
  let rest := cand.filter (fun p => !(forced.map (·.l)).contains p.l)
  let ranked := rest.foldl (fun acc p =>
    insertRank (decodeElem 0 (((bound p).map (fun w => (scoreConv 3 e.d.scale w).bits)).getD 0), p.l) acc) []
  forced.map (·.l) ++ (ranked.take c.topk).map (·.2)

/-! ### P and the row sums (R163, R164) -/

/-- EXP2A of an allowed key's score against anchor `a`, with its flags; zero for a score that makes the row NaN. -/
def pExp (gen : Nat) (a : Int) (t : Nat) : FVal × Nat :=
  let x := decodeElem 0 t
  if x.isNaN || x = .inf false then (.fin false 0 0, 0)
  else
    let c := exp2aLane gen (BitVec.ofNat 32 t) (BitVec.ofInt 32 a)
    (decodeElem 0 c.bits, c.flags)

/-- A weight rounded to format `c` under the block scale 2^x, with its flags. -/
def pRound (c : Nat) (x : Int) : FVal → FVal × Nat
  | .fin s m e =>
    let r := roundFloat c 0 s m (e - x) 0 (e - x) (fun _ => 0)
    (match decodeElem c r.bits with
      | .fin s1 m1 e1 => .fin s1 m1 (e1 + x)
      | y => y, r.flags)
  | y => (y, 0)

/-- P of one block of allowed keys under anchor `a`, each with its flags (R68): MXFP8 E4M3 elements under one scale for MX V,
else BF16. Log entry 45 applies (DESIGN CHOICE). -/
def pVals (d : AttDesc) (gen : Nat) (a : Int) (ts : List (Nat × Nat)) : List (Nat × FVal × Nat) :=
  let ex := ts.map (fun p => (p.1, pExp gen a p.2))
  let top := topOf (-2 ^ 31 : Int) (ex.map (fun p => match p.2.1 with
    | .fin _ m e => if m = 0 then none else some ((log2 m : Int) + e)
    | _ => none))
  ex.map (fun p =>
    let r := if isMX d.vFmt then pRound 3 (max (-127) (top - 7)) p.2.1 else pRound 1 0 p.2.1
    (p.1, r.1, p.2.2 ||| r.2))

/-- Floor of an FP32 number. -/
def floorOf : FVal → Int
  | .fin s m e => shiftInt (sgn s m) e
  | _ => 0

/-- Weight of the lowest bit of a contribution that is not zero. -/
def lowBit (c : Contrib) : Option Int :=
  if c.special || c.v = 0 then none
  else some (((List.range (c.v.natAbs.log2 + 1)).find? (fun i => c.v.natAbs.testBit i)).getD 0 + c.e)

/-- The running state of a chain: rows, columns, LOW, accumulators, flags, status. -/
structure AttAcc where
  rows : List (Nat × AttRow)
  cvs : List (Nat × Int)
  lows : List (Nat × Int)
  wide : List (Nat × WideEntry)
  long : List (Nat × LongAcc)
  flags : Nat
  window : Bool

def AttAcc.row (a : AttAcc) (m : Nat) : AttRow := SMap.get {} a.rows m

/-- Anchor of column n's entries (R164). -/
def AttEnv.colAnchor (e : AttEnv) (cv : Option Int) : Int :=
  if isMX e.d.vFmt then (match cv with
    | some c => -7 + c + pairT 3 e.d.vFmt
    | none => 0)
  else e.d.vAnchor

/-- Difference of two known anchors; 0 where one is not known. -/
def raised (old new : Option Int) : Int :=
  match old, new with
  | some x, some y => y - x
  | _, _ => 0

/-- Re-anchor one row to a new row anchor and new column anchors (R176). -/
def AttAcc.reanchorRow (e : AttEnv) (cvs : List (Nat × Int)) (a : AttAcc) (m : Nat) (anchor : Option Int) : AttAcc :=
  let r := a.row m
  let d := raised r.anchor anchor
  let cols := List.range e.d.d
  let delta := fun n => raised (SMap.find a.cvs n) (SMap.find cvs n)
  let key := fun n => e.tile.key m n
  let up := decide (d ≠ 0) || cols.any (fun n => decide (delta n ≠ 0))
  let wide := cols.foldl (fun w n =>
    let x : WideEntry := SMap.get {} w (key n)
    let y := { x with value := shiftInt x.value (-(d + delta n)), anchor := e.colAnchor (SMap.find cvs n) }
    if x.isEmpty && x.value = 0 then w else SMap.set {} w (key n) y) a.wide
  let lows := cols.foldl (fun w n =>
    match SMap.find w (256 * m + n) with
    | none => w
    | some x => SMap.insert w (256 * m + n) (x - d)) a.lows
  let lost := cols.any (fun n =>
    decide ((SMap.get {} wide (key n) : WideEntry).cut ≠ 0) || (match SMap.find lows (256 * m + n) with
      | none => false
      | some x => decide (x < e.colAnchor (SMap.find cvs n) - 160)))
  let deep := match r.tmin, anchor with
    | some t, some y => decide (t < y - 118)
    | _, _ => false
  let z : LongAcc := SMap.get {} a.long (e.lidx + m)
  { a with
    rows := SMap.set {} a.rows m { r with anchor, dirty := r.dirty || (up && (deep || lost)) }
    lows, wide
    long := SMap.set {} a.long (e.lidx + m) { z with value := shiftInt z.value (-d) } }

/-- Re-anchor every row of the part. -/
def AttAcc.reanchor (e : AttEnv) (cvs : List (Nat × Int)) (anchor : Nat → Option Int) (a : AttAcc) : AttAcc :=
  { e.rows.foldl (fun acc m => acc.reanchorRow e cvs m (anchor m)) a with cvs }

/-- Data of one sub-tile: its first key, and the pages that hold it. -/
structure SubTile where
  lo : Nat
  hi : Nat
  k : Nat → Option Nat
  v : Nat → Option Nat
  code : Nat → Nat → Option Nat

/-- Larger of a known and a new column anchor. -/
def raiseCv (m : List (Nat × Int)) (n : Nat) (c : Option Nat) : List (Nat × Int) :=
  match c with
  | none => m
  | some x => if x = 255 then m else
    match SMap.find m n with
    | none => SMap.insert m n ((x : Int) - 127)
    | some y => SMap.insert m n (max y ((x : Int) - 127))

/-- Columns' anchors after the V blocks of a sub-tile (R163): every block that begins below K_LEN takes part. -/
def AttAcc.cvsAfter (e : AttEnv) (a : AttAcc) (st : SubTile) : List (Nat × Int) :=
  if !isMX e.d.vFmt then a.cvs
  else
    (List.range 4).foldl (fun m b =>
      let j := st.lo + 32 * b
      if st.hi ≤ j || e.len.kLen ≤ j then m
      else (List.range e.d.d).foldl (fun m2 n => raiseCv m2 n (st.code j n)) m) a.cvs

/-- Scores of a row's allowed keys in a sub-tile; none where one faults with WINDOW. Log entry 45 applies (DESIGN CHOICE). -/
def rowScores (e : AttEnv) (q : List (List FVal) × Int) (allowed : Nat → Bool) (st : SubTile) : Option (List (Nat × Conv)) :=
  (List.range (st.hi - st.lo)).foldl (fun acc i =>
    let j := st.lo + i
    match acc with
    | none => none
    | some l =>
      if !allowed j then some l
      else match st.k (j / 64) with
        | none => some l
        | some page => match keyScore e.d q page (j % 64) with
          | none => none
          | some c => some (l ++ [(j, c)])) (some [])

/-- Add one block's products to column n of row m. Log entry 45 applies (DESIGN CHOICE). -/
def AttAcc.addColumn (e : AttEnv) (st : SubTile) (m : Nat) (ps : List (Nat × FVal)) (a : AttAcc) (n : Nat) : AttAcc :=
  let vs := ps.map (fun p => match st.v (p.1 / 64) with
    | some page => vElem e.d.vFmt e.d.d page n (p.1 % 64)
    | none => FVal.fin false 0 0)
  let cs := blockContribs (if isMX e.d.vFmt then 3 else 1) (ps.map (·.2)) vs
  let k := e.tile.key m n
  let x : WideEntry := SMap.get {} a.wide k
  let x0 := if x.isEmpty then WideEntry.cleared (e.colAnchor (SMap.find a.cvs n)) else x
  match x0.addAll cs with
  | none => { a with window := true }
  | some y =>
    let low := cs.foldl (fun o c => match o, lowBit c with
      | none, z => z
      | z, none => z
      | some p, some q => some (min p q)) (SMap.find a.lows (256 * m + n))
    { a with wide := SMap.set {} a.wide k y, lows := match low with
      | none => a.lows
      | some z => SMap.insert a.lows (256 * m + n) z }

/-- Add one block of P to a row: Z, TMIN and every column. -/
def AttAcc.addBlock (e : AttEnv) (st : SubTile) (m : Nat) (ts : List (Nat × Nat)) (a : AttAcc) : AttAcc :=
  if ts.isEmpty then a
  else
    let r := a.row m
    let pf := pVals e.d e.gen (r.anchor.getD (-(2 ^ 31 : Nat))) ts
    let ps := pf.map (fun p => (p.1, p.2.1))
    let z0 : LongAcc := SMap.get {} a.long (e.lidx + m)
    let z := ps.foldl (fun (o : Option LongAcc) p => o.bind (fun x => x.add (Contrib.ofVal p.2))) (some z0)
    let live := ts.filter (fun p => ps.any (fun x => x.1 = p.1 && (match x.2 with
      | .fin _ k _ => decide (k ≠ 0)
      | _ => true)))
    let tmin := live.foldl (fun (o : Option Int) p =>
      let f := floorOf (decodeElem 0 p.2)
      some (match o with
        | none => f
        | some x => min x f)) r.tmin
    let a1 := { a with rows := SMap.set {} a.rows m { r with tmin }, window := a.window || z.isNone,
                       flags := a.flags ||| orAll (pf.map (·.2.2)),
                       long := SMap.set {} a.long (e.lidx + m) (z.getD z0) }
    (List.range e.d.d).foldl (AttAcc.addColumn e st m ps) a1

/-- One sub-tile (R175, R176): scores, anchors raised, then contributions. With `fixed` no anchor is raised.
Log entry 45 applies (DESIGN CHOICE). -/
def AttAcc.subTile (e : AttEnv) (q : Nat → List (List FVal) × Int) (allowed : Nat → Nat → Bool) (fixed : Bool) (a : AttAcc)
    (st : SubTile) : AttAcc :=
  let sc := e.rows.map (fun m => (m, rowScores e (q m) (allowed m) st))
  let scores := fun m => ((SMap.find sc m).bind id).getD []
  let bad := sc.any (fun p => p.2.isNone)
  let isBad := fun (c : Conv) => (decodeElem 0 c.bits).isNaN || decodeElem 0 c.bits = .inf false
  let top := fun m => (scores m).foldl (fun (o : Option Int) p =>
    let v := (anchVal (decodeElem 0 p.2.bits)).1
    if v = -(2 ^ 31 : Nat) then o else maxOpt o (some v)) none
  let a1 := if fixed then a else a.reanchor e (a.cvsAfter e st) (fun m => maxOpt (a.row m).anchor (top m))
  let fl := orAll (sc.flatMap (fun p => ((p.2.getD []).map (fun x => x.2.flags))))
  let a2 := { a1 with flags := a1.flags ||| fl, window := a1.window || bad,
                      rows := e.rows.foldl (fun r m => if (scores m).any (fun p => isBad p.2) then
                        SMap.set {} r m { SMap.get {} r m with nan := true } else r) a1.rows }
  e.rows.foldl (fun acc m => (List.range 4).foldl (fun acc2 b =>
    let lo := st.lo + 32 * b
    acc2.addBlock e st m (((scores m).filter (fun p => decide (lo ≤ p.1) && decide (p.1 < lo + 32))).map (fun p => (p.1, p.2.bits))))
    acc) a2

/-! ### One range (R175) -/

/-- Result of a range or of a part's step. -/
inductive AttRes where
  | ok (a : AttAcc) (s : State)
  | fault (st : Status) (addr : Nat) (s : State)
  | remote (missing : List (Nat × Nat))
  | busy (entry : Nat) (s : State)
  | stale (entry : Nat) (s : State)

/-- The Q operand of a PASS. -/
def AttEnv.qOp (e : AttEnv) (r : AttRange) : MatOp := ⟨e.d.qFmt, r.q, r.qs, e.d.d⟩

/-- Rows of Q with their maxima. -/
def State.qRow (s : State) (core : Nat) (e : AttEnv) (r : AttRange) (m : Nat) : List (List FVal) × Int :=
  (s.rowBlocks core (e.qOp r) m, s.rowTop core (e.qOp r) m)

/-- The pages of a range that hold an allowed key of some row. -/
def AttEnv.livePages (e : AttEnv) (allowed : Nat → Nat → Bool) (lo hi : Nat) : List Nat :=
  (tab ((hi + 63) / 64 - lo / 64) (fun i => lo / 64 + i)).filter (fun l =>
    e.rows.any (fun m => (List.range 64).any (fun i => decide (64 * l + i < hi) && allowed m (64 * l + i))))

/-- Does some row allow a key at an absent position of a live page (R193, R199, R207)? -/
def AttEnv.absentKey (e : AttEnv) (allowed : Nat → Nat → Bool) (live : List Nat) (hi : Nat) : Bool :=
  !e.d.flat && live.any (fun l => !e.present l || (List.range 64).any (fun i =>
    decide (64 * l + i < hi) && decide (64 * l + i < e.kv.rec'.firstPos) && e.rows.any (fun m => allowed m (64 * l + i))))

/-- What a PASS reads of a page (R175, R199, R205): all of a live one, and of any in FLAT mode; else its V scales, from its
summary where `viaSum` says so. -/
def AttEnv.pageReads (e : AttEnv) (live viaSum : Bool) (p : AttPage) : List (Nat × Nat) :=
  if e.d.flat || live then [(p.k, e.kb), (p.v, e.vb)]
  else if viaSum then narrowCut p.summary e.kv.ctx.summaryBytes
  else [(p.v + e.d.d * pitchV e.d.vFmt, 2 * e.d.d)]

/-- The pages of a range whose V scales are read. -/
def AttEnv.scalePages (e : AttEnv) (lo hi : Nat) : List Nat :=
  e.pages.filter (fun l => decide (lo / 64 ≤ l) && decide (64 * l < hi))

/-- Work of one PASS over its range; `sel` the selected pages of each row under the coarse index. -/
def State.attRange (s : State) (t : Site) (e : AttEnv) (sel : Option (List (Nat × List Nat))) (fixed : Bool) (r : AttRange)
    (a : AttAcc) : AttRes :=
  let allowed := fun m j => e.permits m j && (match sel with
    | none => true
    | some l => (SMap.get [] l m).contains (j / 64))
  let live := e.livePages allowed r.lo r.hi
  let mx := isMX e.d.vFmt
  let both := if e.d.flat || mx then (e.scalePages r.lo r.hi ++ live.filter (fun l => !(e.scalePages r.lo r.hi).contains l)) else live
  let reads := s.attReads t.core e (s.walkReads e both)
  if reads.1 ≠ .ok then .fault reads.1 (s.pcAddr t) reads.2.2.2
  else if e.absentKey allowed live r.hi then .fault .bounds (s.pcAddr t) reads.2.2.2
  else match reads.2.2.2.findPages e both with
  | .inl .bounds => .fault .bounds (s.pcAddr t) reads.2.2.2
  | .inl (.busy i) => .busy i reads.2.2.2
  | .inl (.stale i) => .stale i reads.2.2.2
  | .inl (.page _ _) => .fault .verify (s.pcAddr t) reads.2.2.2
  | .inr ps =>
    let tileOf := fun l => (64 * l - r.lo) / 128
    let used := fun (p : AttPage) => e.d.flat || live.any (fun l => tileOf l = tileOf p.l)
    let viaSum := fun (p : AttPage) => !used p && e.kv.ctx.index && p.useSummary && decide (p.summary ≠ 0)
    let data := reads.2.2.2.attReads t.core e (ps.flatMap (fun p => e.pageReads (live.contains p.l) (viaSum p) p))
    if !data.2.2.1.isEmpty then .remote data.2.2.1
    else if data.1 ≠ .ok then .fault data.1 (s.pcAddr t) data.2.2.2
    else
      let s1 := data.2.2.2
      let find := fun l => ps.find? (fun p => p.l = l)
      let st := fun i : Nat =>
        let lo := r.lo + 128 * i
        ({ lo, hi := min (lo + 128) r.hi
           k := fun l => (find l).map (fun p => s1.pageNum e p.k e.kb)
           v := fun l => (find l).map (fun p => s1.pageNum e p.v e.vb)
           code := fun j c => (find (j / 64)).map (fun p =>
             if viaSum p then byteField (s1.pageNum e p.summary e.kv.ctx.summaryBytes)
               (8 + 2 * pitchK e.d.kFmt e.d.d + (if isMX e.d.kFmt then 2 * (e.d.d / 32) else 0) + c) 1
             else vCodeOf e.d.vFmt e.d.d (s1.pageNum e p.v e.vb) c (j % 64 / 32)) } : SubTile)
      let q := s1.qRow t.core e r
      let a1 := (List.range ((r.hi - r.lo + 127) / 128)).foldl (fun acc i => acc.subTile e q allowed fixed (st i)) a
      if a1.window then .fault .window (s.outAddr t) s1 else .ok a1 s1

/-- Page selection of the first PASS (R205): every candidate is translated and its summary read. -/
def State.attSelect (s : State) (t : Site) (e : AttEnv) (r : AttRange) : Sum AttRes (Option (List (Nat × List Nat)) × State) :=
  if e.d.flat || !e.kv.ctx.index then .inr (none, s)
  else
    let cand := e.pages.filter (fun l => e.rows.any (fun m => (List.range 64).any (fun i => e.permits m (64 * l + i))))
    let reads := s.attReads t.core e (s.walkReads e cand)
    if reads.1 ≠ .ok then .inl (.fault reads.1 (s.pcAddr t) reads.2.2.2)
    else match reads.2.2.2.findPages e cand with
    | .inl (.busy i) => .inl (.busy i reads.2.2.2)
    | .inl (.stale i) => .inl (.stale i reads.2.2.2)
    | .inl _ => .inl (.fault .bounds (s.pcAddr t) reads.2.2.2)
    | .inr ps =>
      let sb := e.kv.ctx.summaryBytes
      let data := reads.2.2.2.attReads t.core e
        ((ps.filter (fun p => p.useSummary && decide (p.summary ≠ 0))).flatMap (fun p => narrowCut p.summary sb))
      if !data.2.2.1.isEmpty then .inl (.remote data.2.2.1)
      else if data.1 ≠ .ok then .inl (.fault data.1 (s.pcAddr t) data.2.2.2)
      else
        let s1 := data.2.2.2
        .inr (some (e.rows.map (fun m => (m, selectPages e (s1.qRow t.core e r m) m ps (fun fa => s1.pageNum e fa sb)))), s1)

/-! ### The slot (R168, R177, R181) -/

/-- A slot as an ATT names it: fabric address, part and parts. -/
structure AttSlot where
  fa : Nat
  part : Nat
  parts : Nat

/-- The slot of an ATT; none for a single part. In a body s10 gives the address, and the item the part. -/
def State.attSlot (s : State) (t : Site) (o : AttOps) : Option AttSlot :=
  if o.xslotReg = 0 then none
  else
    let w0 := ((s.ctx t).sreg o.xslotReg).toNat
    let w1 := ((s.ctx t).sreg (o.xslotReg + 1)).toNat
    match s.sched.run.bind (·.nest), (s.ctx t).item with
    | some r, some it =>
      if o.xslotReg = 10 then (if r.desc.split ≤ 1 then none else some ⟨bits w0 53 0, r.desc.part it.index, r.desc.split⟩)
      else some ⟨bits w0 53 0, bits w1 5 0, bits w1 13 8 + 1⟩
    | _, _ => some ⟨bits w0 53 0, bits w1 5 0, bits w1 13 8 + 1⟩

/-- Status of a slot pair. -/
def State.attSlotStatus (s : State) (t : Site) (o : AttOps) : Status :=
  match s.attSlot t o with
  | none => .ok
  | some x =>
    let w0 := ((s.ctx t).sreg o.xslotReg).toNat
    let w1 := ((s.ctx t).sreg (o.xslotReg + 1)).toNat
    let body := o.xslotReg = 10 && (s.ctx t).inBody
    let inside := decide (fabModule x.fa ≠ s.moduleId) || ((s.exchBuf.map (fun b => within (fabLocal x.fa) 1024 b.base b.size)).getD false)
    Status.lowest [Status.when (decide (2 ^ 54 ≤ w0) || (!body && decide (bits w1 7 6 ≠ 0 ∨ bits w1 63 14 ≠ 0)) || decide (x.parts ≤ x.part)) .verify,
      Status.when (decide (x.fa % 1024 ≠ 0)) .misaligned, Status.when (!inside) .bounds]

/-- One post at a slot of this module (R177). -/
def State.attApply (s : State) (a : Nat) (p : AttPost) : Status × State :=
  let first := decide (s.slotParts a = 0)
  if !first && (decide (s.slotParts a ≠ p.parts) || decide (s.num (a + 16) 8 ≠ p.kDecl)) then (.verify, s)
  else
    let s1 := if first then (s.putNum a 2 p.parts).putNum (a + 16) 8 p.kDecl else s
    let s2 := p.rows.foldl (fun acc r => acc.putNum (a + 32 + 4 * r.1) 4 (max (acc.num (a + 32 + 4 * r.1) 4) r.2)) s1
    let s3 := p.cols.foldl (fun acc r => acc.putNum (a + 544 + r.1) 1 (max (acc.num (a + 544 + r.1) 1) r.2)) s2
    let s4 := (s3.putNum (a + 800) 16 (s3.num (a + 800) 16 ||| p.nan)).putNum (a + 24) 8 (s3.num (a + 24) 8 + p.keys)
    let s5 := s4.putNum (a + 2) 2 (s4.slotPosted a + 1)
    let s6 := if p.part = 0 then
        (((s5.putNum (a + 6) 2 p.core).putNum (a + 8) 2 p.moduleId).putNum (a + 10) 1 p.bank).putNum (a + 12) 2 p.lidx
      else s5
    (if s6.slotParts a < s6.slotPosted a then .verify else .ok, s6)

/-- A post from another module is applied, and its ACK held; a faulting one is answered at once with VERIFY (R323). Where
4,096 ACKs are held it waits. `n` is the number of its slots in its channel. -/
def State.postArrives (s : State) (h : PktHdr) (x : AttPost) (n : Nat) : State :=
  if 4096 ≤ s.fab.held.length then s.setFab { s.fab with waitingPosts := s.fab.waitingPosts ++ [(h, x, n)] }
  else
    let r := (s.owe (some h.port) (vcOf 2 h.sub) n).attApply h.addr x
    if r.1 ≠ .ok then r.2.answerTo h 4 r.1 []
    else r.2.setFab { r.2.fab with held := r.2.fab.held ++ [⟨h.addr, h.src, h.tag, h.reqId⟩],
                                   remoteParts := r.2.fab.remoteParts ++ [(h.addr, x.part)] }

/-- A slot has been posted to: its held ACKs leave where it is complete, and posts that wait are tried again. -/
def State.afterPost (s : State) (a : Nat) : State :=
  let s1 := s.releaseHeld a
  s1.fab.waitingPosts.foldl (fun x w => (x.postArrives w.1 w.2.1 w.2.2).releaseHeld w.1.addr)
    (s1.setFab { s1.fab with waitingPosts := [] })

/-- Final anchors from bytes 32 to 815 of a slot. -/
def AttFinal.ofBytes (l : List Byte) : AttFinal :=
  let w := leNat l
  let row := fun m => byteField w (4 * m) 4
  let col := fun n => byteField w (512 + n) 1
  ⟨tab 128 (fun m => (m, if row m = 0 then none else some ((row m : Int) - (2 ^ 31 : Nat)))),
    (List.range 256).filterMap (fun n => if col n = 0 then none else some (n, (col n : Int) - 128)),
    (List.range 128).filter (fun m => bit (byteField w 768 16) m)⟩

/-! ### PASS -/

/-- The accumulators and row states that a chain goes on from. -/
def State.attAcc (s : State) (core : Nat) (p : AttPart) : AttAcc :=
  ⟨p.rows, p.cvs, p.lows, (s.core core).wide, (s.core core).long, 0, false⟩

/-- N and Z of a part cleared. -/
def AttAcc.clear (e : AttEnv) (a : AttAcc) : AttAcc :=
  let ks := ({ e.tile with rows := List.range e.m, cols := List.range e.d.d } : Tile).entries.map (fun x => e.tile.key x.1 x.2)
  { a with rows := [], cvs := [], lows := [], wide := a.wide.filter (fun p => !ks.contains p.1),
           long := a.long.filter (fun p => !(decide (e.lidx ≤ p.1) && decide (p.1 < e.lidx + e.m))) }

/-- The core after a step of its part. -/
def State.setAtt (s : State) (core : Nat) (a : AttAcc) (p : AttPart) : State :=
  (s.setCore core { s.core core with wide := a.wide, long := a.long,
                                     att := some { p with rows := a.rows, cvs := a.cvs, lows := a.lows, pages := [] } }).orFlags a.flags

/-- A range from RANGE_REG, or the whole axis, or in a nest the item's part; clipped (R175, R181). -/
def State.attBounds (s : State) (t : Site) (o : AttOps) (e : AttEnv) : Sum Unit (Nat × Nat) :=
  let clip := e.clip
  let part := match s.sched.run.bind (·.nest), (s.ctx t).item with
    | some r, some it => if o.xslotReg = 10 then some (r.desc.part it.index * r.desc.kTile, r.desc.kTile) else none
    | _, _ => none
  if o.rangeReg ≠ 0 then
    let lo := ((s.ctx t).sreg o.rangeReg).toNat
    let n := ((s.ctx t).sreg (o.rangeReg + 1)).toNat
    if lo % 64 ≠ 0 || (n % 64 ≠ 0 && decide (lo + n ≠ e.len.kLen) && decide (lo + n ≠ clip)) then .inl ()
    else .inr (min lo clip, min (lo + n) clip)
  else match part with
    | some (lo, n) => .inr (min lo clip, min (lo + n) clip)
    | none => .inr (0, clip)

/-- Keys of a chain below K_LEN. -/
def keysOf (kLen : Nat) (l : List AttRange) : Nat := l.foldl (fun n r => n + (min r.hi kLen - min r.lo kLen)) 0

/-- A translation met a page that does not match: the context waits for a BUSY entry; another fails at once (R199). -/
def State.attStale (s : State) (t : Site) (entry : Nat) : Eff :=
  let s1 := (s.log (Reg.KVP_CTRL / 2 ^ 24) .stale (.core t.core) (s.dirAddr entry)).bump Fld.KVP_COUNTS_STALE_COUNT
    Fld.KVP_COUNTS_STALE_SAT 1
  .fault .stale (s.pcAddr t) s1

def State.countRetry (s : State) : State := s.bump Fld.KVP_COUNTS_RETRY_COUNT Fld.KVP_COUNTS_RETRY_SAT 1

/-- READ the missing pieces of pages of other modules, where none is on its way (R185, R189). -/
def State.readPages (s : State) (core : Nat) (l : List (Nat × Nat)) : State :=
  if s.owes (.pages core) then s else (s.injectAll (readTrans (.pages core) s.jobTag l)).2

/-- An attention step's outcome as the effect of the instruction; `p` is the part that it goes on with after a wait, and `tried`
the entry whose wait is over: its translation has had its one retry (R199). A step that lacks pages of other modules is taken
again from `s0` once they are there. Log entry 47 applies (DESIGN CHOICE). -/
def AttRes.eff (t : Site) (tried : Option Nat) (s0 : State) (p : AttPart) (k : AttAcc → State → Eff) : AttRes → Eff
  | .ok a s => k a s
  | .fault st addr s => .fault st addr s
  | .remote l => .hold .pages ((s0.setCore t.core { s0.core t.core with att := some p }).readPages t.core l)
  | .busy i s => .hold (.entry i) (s.setCore t.core { s.core t.core with att := some p })
  | .stale i s => if tried = some i then s.attStale t i else s.countRetry.attStale t i

/-- The whole chain again at fixed anchors (R178). -/
def State.attReplay (s : State) (t : Site) (e : AttEnv) (p : AttPart) (a : AttAcc) : List AttRange → AttRes
  | [] => .ok a s
  | r :: l =>
    match s.attRange t e p.sel true r a with
    | .ok a1 s1 => s1.attReplay t e p a1 l
    | x => x

/-- Settle a part at its final anchors: re-anchor, and replay the chain where a row is DIRTY (R177, R178). -/
def State.attSettle (s : State) (t : Site) (tried : Option Nat) (e : AttEnv) (p : AttPart) (f : AttFinal) : Eff :=
  let a0 := (s.attAcc t.core p).reanchor e f.cols (fun m => (SMap.get none f.rows m))
  let dirty := e.rows.filter (fun m => (a0.row m).dirty)
  let done := fun (a : AttAcc) (s1 : State) =>
    let rows := e.rows.foldl (fun r m => SMap.set {} r m
      { anchor := SMap.get none f.rows m, tmin := none, nan := f.nan.contains m, dirty := false }) a.rows
    let s2 := s1.setAtt t.core { a with rows } { p with final := some f, post := none, answer := none }
    .done (match s.attSlot t p.ops with
      | some x => if x.part = 0 then s2.markAnchored t.core (fabLocal x.fa) e.tile.bank else s2
      | none => s2)
  if dirty.isEmpty then done a0 s
  else
    let fixed : AttAcc := { (a0.clear e) with cvs := f.cols, rows := e.rows.map (fun m => (m, { anchor := SMap.get none f.rows m })) }
    (s.attReplay t e p fixed p.ranges).eff t tried s { p with final := some f } (fun a s1 =>
      done a (s1.bump Fld.ATT_REPLAY_ROWS_REPLAY_COUNT Fld.ATT_REPLAY_ROWS_REPLAY_SAT dirty.length))

/-- Running anchors as final ones. -/
def AttAcc.final (e : AttEnv) (a : AttAcc) : AttFinal :=
  ⟨e.rows.map (fun m => (m, (a.row m).anchor)), a.cvs, e.rows.filter (fun m => (a.row m).nan)⟩

/-- The post of a part. -/
def AttAcc.post (e : AttEnv) (a : AttAcc) (x : AttSlot) (keys core moduleId : Nat) : AttPost :=
  { part := x.part, parts := x.parts, kDecl := e.len.kLen, keys
    rows := e.rows.filterMap (fun m => (a.row m).anchor.map (fun (v : Int) => (m, (v + (2 ^ 31 : Nat)).toNat)))
    cols := if isMX e.d.vFmt then a.cvs.map (fun c => (c.1, (c.2 + 128 : Int).toNat)) else []
    nan := maskOf 128 (fun m => e.rows.contains m && (a.row m).nan)
    core, moduleId, bank := e.tile.bank, lidx := e.lidx }

/-- Descriptor number of an ATT. -/
def State.attDescNum (s : State) (t : Site) (o : AttOps) : Nat := s.num (csAddr t.core o.descOff) 128

/-- Reach of the descriptor, and the read of the length table; the status and where it fails. -/
def State.attReach (s : State) (t : Site) (o : AttOps) : Status × Nat × State :=
  let st := s.csReach o.descOff 128
  if st ≠ .ok then (st, csAddr t.core o.descOff, s)
  else
    let d := AttDesc.ofNum (s.attDescNum t o)
    let a := s.lenAddr d ((s.ctx t).sreg o.seqReg).toNat
    let r := s.readCheck s.coreClass (.core t.core) a 32
    (r.1, a, r.2)

/-- Bytes of the staging area (R169). -/
def stagingSize : Nat := 196608

/-- The staging area after a PASS: the spec does not say what the scores and P leave there. Log entry 132 applies (DESIGN
CHOICE). -/
def State.staged (s : State) (core : Nat) (d : AttDesc) : State :=
  let a := csAddr core d.scratch
  (s.putBytes a (tab stagingSize (fun i => Config.stagedByte s.free (a + i)))).withFree (s.free + 1)

/-- What a PASS is judged by before it reads its pages: its chain and range, the address words and reach of Q, and the reach
of the staging area; the lowest status with its address (R18, R87, R101, R169, R175). -/
def State.passCheck (s : State) (t : Site) (e : AttEnv) (p : AttPart) (r : AttRange) : Status × Nat :=
  let q := e.qOp r
  firstLowest [(Status.when (decide (16 ≤ p.ranges.length) || p.final.isSome) .verify, s.pcAddr t), (q.status, s.pcAddr t),
    s.reachAll t.core (e.rows.flatMap (q.accesses true) ++ [(e.d.scratch, stagingSize)])]

/-- The part that a PASS works on: a new one with `FIRST`, else that of the core. -/
def State.passPart (s : State) (t : Site) (o : AttOps) (e : AttEnv) : Option AttPart :=
  if o.first = 1 then
    some { ops := o, desc := s.attDescNum t o, seq := ((s.ctx t).sreg o.seqReg).toNat, i0 := ((s.ctx t).sreg (o.seqReg + 1)).toNat,
           pages := e.got }
  else (s.core t.core).att

/-- The slot of a LAST PASS is open from the PASS on (R99); a slot of this module goes by its local address. -/
def State.slotKey (s : State) (fa : Nat) : Nat := if fabModule fa = s.moduleId then fabLocal fa else fa

/-- A range has been passed over: the part goes on, and at `LAST` it settles, or posts its anchors and waits (R175, R177). -/
def State.passed (s : State) (t : Site) (tried : Option Nat) (o : AttOps) (e : AttEnv) (p : AttPart) (a : AttAcc) : Eff :=
  let s2 := (s.staged t.core e.d).setAtt t.core a p
  let p2 := { p with rows := a.rows, cvs := a.cvs, lows := a.lows, pages := [], ops := if o.last = 1 then o else p.ops }
  if o.last = 0 then .done s2
  else match s.attSlot t o with
    | none => s2.attSettle t tried { e with got := [] } p2 (a.final e)
    | some x =>
      let post := a.post e x (keysOf e.len.kLen p.ranges) t.core s.moduleId
      .hold (.slot x.fa) ((s2.setCore t.core { s2.core t.core with att := some { p2 with post := some post } }).openSlot t
        (s.slotKey x.fa) (decide (x.part = 0)))

/-- The effect of ATT PASS (R161 to R164, R167 to R178, R199 to R206). Log entry 46 applies (DEDUCED). -/
def attPassEff (t : Site) (tried : Option Nat) (o : AttOps) (s : State) : Eff :=
  let c := s.ctx t
  let reach := s.attReach t o
  let sst := s.attSlotStatus t o
  if reach.1 ≠ .ok then .fault reach.1 reach.2.1 reach.2.2
  else match s.attEnv t o (s.attDescNum t o) (c.sreg o.seqReg).toNat (c.sreg (o.seqReg + 1)).toNat with
  | .inl x => .fault x.1 x.2 reach.2.2
  | .inr e =>
    if sst ≠ .ok then .fault sst (s.pcAddr t) reach.2.2
    else
      match s.passPart t o e, s.attBounds t o e with
      | none, _ => .fault .verify (s.pcAddr t) reach.2.2
      | _, .inl () => .fault .verify (s.pcAddr t) reach.2.2
      | some p, .inr b =>
        let r : AttRange := ⟨c.sreg o.qReg, c.sreg (o.qReg + 1), b.1, b.2⟩
        let bad := s.passCheck t e p r
        if bad.1 ≠ .ok then .fault bad.1 bad.2 reach.2.2
        else
          match if o.first = 1 then reach.2.2.attSelect t e r else .inr (p.sel, reach.2.2) with
          | .inl x => x.eff t tried s p (fun _ s1 => .done s1)
          | .inr (sel, s0) =>
            let a0 := s0.attAcc t.core p
            (s0.attRange t e sel false r (if o.first = 1 then a0.clear e else a0)).eff t tried s p (fun a s1 =>
              s1.passed t tried o e { p with sel, ranges := p.ranges ++ [r] } a)

/-- An ATT in flight: it holds every bank of its core (R169). -/
def attFlight (t : Site) (h : Hdr) (op : HeldOp) : InFlight := matrixFlight t h op [0, 1, 2, 3]

/-- The step that a part of this core waits in: settling at its final anchors, or the PASS itself. -/
def attAgain (t : Site) (tried : Option Nat) (o : AttOps) (f : Option AttFinal) (s : State) : Eff :=
  match f, (s.core t.core).att with
  | some x, some p =>
    (match s.attEnv t p.ops p.desc p.seq p.i0 with
    | .inl y => .fault y.1 y.2 s
    | .inr e => s.attSettle t tried e p x)
  | _, _ => attPassEff t tried o s

/-- What a PASS of this context that has issued waits for. -/
def Ctx.passOn (c : Ctx) : Option HeldFor := (c.heldOp .attPass).map (·.on)

/-- ATT PASS, issued; or gone on with where it waits for pages of other modules and all have been answered. -/
def execAttPass (t : Site) (h : Hdr) (o : AttOps) (s : State) : Host.Outcome State Fault Refusal :=
  .next (
    if (s.ctx t).passOn = some .pages then
      if s.owes (.pages t.core) then s
      else s.resume t h (attFlight t h .attPass) .attPass (attAgain t none o ((s.core t.core).att.bind (·.final)))
    else s.issueAs t h (attFlight t h .attPass) true (o.ok 0) (attPassEff t none o))

/-- WALK_BUSY_RETRY: the entry has left BUSY, or `BUSY_NS` have passed: the translation is made once more, and fails with
STALE where the entry still does not match (R199). -/
def execWalkBusyRetry (t : Site) (h : Hdr) (o : AttOps) (s : State) : Host.Outcome State Fault Refusal :=
  .next (
    match (s.ctx t).passOn with
    | some (.entry i) =>
      if !s.coreRuns t.core then s
      else
        s.countRetry.resume t h (attFlight t h .attPass) .attPass (fun s1 =>
          if (s1.dir i).state = 1 || (s1.dir i).state = 3 then
            attAgain t (some i) o ((s1.core t.core).att.bind (·.final)) s1
          else s1.attStale t i)
    | _ => s)

/-- ATT_SLOT_POST: a part that stands at LAST posts its anchors: at once at a slot of this module, by a POST to another
(R177, R186). -/
def execAttSlotPost (t : Site) (s : State) : Host.Outcome State Fault Refusal :=
  .next (
    match (s.ctx t).passOn, (s.core t.core).att with
    | some (.slot fa), some p =>
      (match p.post with
      | none => s
      | some x =>
        let s1 := s.setCore t.core { s.core t.core with att := some { p with post := none } }
        if fabModule fa = s.moduleId then
          let ecc := s1.slotRead t.core (some (fabLocal fa))
          if ecc.1 ≠ .ok then ecc.2.coreFault t.core ecc.1 (fabLocal fa)
          else
            let r := s1.attApply (fabLocal fa) x
            if r.1 = .ok then r.2.afterPost (fabLocal fa) else r.2.coreFault t.core r.1 (fabLocal fa)
        else
          let g := s.remoteGate (fabModule fa) s.jobTag
          if g ≠ .ok then s1.coreFault t.core g (s.pcAddr t)
          else (s1.injectAll [{ serial := 0, op := 3, dest := fabModule fa, addr := fabLocal fa, len := 784, post := some x,
                                tag := s.jobTag, at' := 0, owner := .attPost t.core t.ctx }]).2)
    | _, _ => s)

/-- What a part that has posted knows: none while it must wait, else a status and the final anchors. -/
def State.attKnown (s : State) (fa : Nat) (p : AttPart) : Option (Status × AttFinal) :=
  if p.post.isSome then none
  else if fabModule fa = s.moduleId then
    let a := fabLocal fa
    if s.slotParts a = 0 || decide (s.slotPosted a ≠ s.slotParts a) then none
    else
      some (s.slotVerdict a, .ofBytes (s.bytes (a + 32) 784))
  else p.answer.map (fun x => (x.1, .ofBytes x.2))

/-- ATT_FINAL_ANCHORS: POSTED has reached PARTS: the waiting part takes the maxima as its final anchors, re-anchors, and
replays where a row is DIRTY; VERIFY where K_SUM differs from K_DECL (R177, R178). -/
def execAttFinalAnchors (t : Site) (h : Hdr) (s : State) : Host.Outcome State Fault Refusal :=
  .next (
    match (s.ctx t).passOn, (s.core t.core).att with
    | some (.slot fa), some p =>
      (match s.attKnown fa p with
      | none => s
      | some (st, f) =>
        s.resume t h (attFlight t h .attPass) .attPass (fun s1 =>
          if st ≠ .ok then .fault st (s.slotKey fa) s1
          else
            let ecc := if fabModule fa = s.moduleId then s1.slotRead t.core (some (fabLocal fa)) else (.ok, s1)
            if ecc.1 ≠ .ok then .fault ecc.1 (fabLocal fa) ecc.2
            else
              let s2 := ecc.2.setCore t.core { ecc.2.core t.core with att := some { p with final := some f } }
              attAgain t none p.ops (some f) s2))
    | _, _ => s)

/-! ### SEND (R179) -/

/-- Every N entry and Z accumulator of a part given up. -/
def Core.dropPart (k : Core) (e : AttEnv) : Core :=
  let ks := ({ e.tile with rows := List.range e.m, cols := List.range e.d.d } : Tile).entries.map (fun x => e.tile.key x.1 x.2)
  { k with wide := k.wide.filter (fun p => !ks.contains p.1),
           long := k.long.filter (fun p => !(decide (e.lidx ≤ p.1) && decide (p.1 < e.lidx + e.m))), att := none }

/-- Add Z accumulators to others under R154. -/
def mergeLongs (src : Core) (l1 l2 : Nat) : List Nat → List (Nat × LongAcc) → Status × List (Nat × LongAcc)
  | [], w => (.ok, w)
  | m :: rest, w =>
    let r := (SMap.get {} w (l2 + m) : LongAcc).merge (SMap.get {} src.long (l1 + m))
    if r.1 = .ok then mergeLongs src l1 l2 rest (SMap.set {} w (l2 + m) r.2) else (r.1, w)

/-- Images of a part for the merge area at `base`: each unmasked row's N run, and its Z image. -/
def State.attImages (s : State) (core : Nat) (e : AttEnv) (base : Nat) : List (Nat × List Byte) :=
  let k := s.core core
  e.rows.flatMap (fun m =>
    [(base + m * e.d.d * 32, (List.range e.d.d).flatMap (fun n => leBytes 32 (k.entry (e.tile.key m n)).image)),
     (base + e.m * e.d.d * 32 + 48 * m, leBytes 48 (SMap.get ({} : LongAcc) k.long (e.lidx + m)).image)])

/-- Merge area of part p of a slot. -/
def mergeArea (slot p m d : Nat) : Nat := slot + 1024 + (p - 1) * (m * d * 32 + m * 48)

/-- The environment of a SEND or DRAIN: the settled part of the core. -/
def State.attPartEnv (s : State) (t : Site) (o : AttOps) : Sum (Status × Nat) AttEnv :=
  match (s.core t.core).att with
  | none => .inl (.verify, s.pcAddr t)
  | some p => if p.final.isNone then .inl (.verify, s.pcAddr t)
    else s.attEnv t o (s.attDescNum t o) ((s.ctx t).sreg o.seqReg).toNat ((s.ctx t).sreg (o.seqReg + 1)).toNat

/-- The effect of SEND, with its remote transactions. Log entry 46 applies (DEDUCED). Log entry 48 applies (DESIGN CHOICE). -/
def attSendStart (t : Site) (o : AttOps) (s : State) : Eff × List Nat × Option Nat :=
  let sst := s.attSlotStatus t o
  let reach := s.attReach t o
  if reach.1 ≠ .ok then (.fault reach.1 reach.2.1 reach.2.2, [], none)
  else if sst ≠ .ok then (.fault sst (s.pcAddr t) s, [], none)
  else match s.attPartEnv t o, s.attSlot t o with
  | .inl x, _ => (.fault x.1 x.2 s, [], none)
  | .inr _, none => (.fault .verify (s.pcAddr t) s, [], none)
  | .inr e, some x =>
    let a := fabLocal x.fa
    if x.part = 0 then (.fault .verify (s.pcAddr t) s, [], none)
    else if fabModule x.fa = s.moduleId then
      let owner := s.slotOwner a
      let ob := s.num (a + 10) 1
      let ecc := s.slotRead t.core (some a)
      if !(s.core owner).anchored.contains (anchorMark a ob) then (.hold (.slot x.fa) s, [], none)
      else
        let ents := e.rows.flatMap (fun m => (List.range e.d.d).map (fun n => (m, n)))
        let w := mergeEntries (s.core t.core) e.tile { e.tile with bank := ob } ents (s.core owner).wide
        let z := mergeLongs (s.core t.core) e.lidx (s.num (a + 12) 2) e.rows (s.core owner).long
        let bad := Status.lowest [ecc.1, w.1, z.1]
        if bad ≠ .ok then (.fault bad a ecc.2, [], none)
        else
          let s1 := ecc.2.setCore owner { s.core owner with wide := w.2, long := z.2 }
          let s2 := s1.setCore t.core ((s1.core t.core).dropPart e)
          (.done ((s2.putNum (a + 4) 2 (s2.slotMerged a + 1)).closeSlot t a false), [], none)
    else
      let g := s.remoteGate (fabModule x.fa) s.jobTag
      if g ≠ .ok then (.fault g (s.pcAddr t) s, [], none)
      else
        let base := mergeArea a x.part e.m e.d.d
        let ts : List Trans := (s.attImages t.core e base).flatMap (fun im =>
          (pieces im.1 im.2.length).map (fun p =>
            { serial := 0, op := 1, dest := fabModule x.fa, addr := im.1 + p.1, len := p.2,
              data := (im.2.drop p.1).take p.2, tag := s.jobTag, at' := 0, owner := .instr t.core }))
        let r := ((s.setCore t.core ((s.core t.core).dropPart e)).closeSlot t x.fa false).injectAll ts
        (.done r.2, r.1, some x.fa)

/-- An instruction that may wait at a slot of its own: issued, or gone on with where it waits there.
Log entry 48 applies (DESIGN CHOICE). -/
def State.issueOrResume (s : State) (t : Site) (h : Hdr) (op : HeldOp) (ok : Bool) (body : State → Eff) : State :=
  if ((s.ctx t).heldOp op).isSome then s.resume t h (attFlight t h op) op body
  else s.issueAs t h (attFlight t h op) true ok body

/-- A SEND in flight, with its remote writes and the slot whose MERGED it increments after them. -/
def State.sendFlight (s : State) (t : Site) (h : Hdr) (ids : List Nat) (next : Option Nat) : InFlight :=
  { plainFlight t h with pc := (s.ctx t).pc, unit := .matrix, isMove := true, remote := ids,
                         thenPost := if ids.isEmpty then none else next }

/-- ATT SEND. It waits until the owner has its anchors; its images to another module are in flight until they are
acknowledged, and MERGED is incremented after them. -/
def execAttSend (t : Site) (h : Hdr) (o : AttOps) (s : State) : Host.Outcome State Fault Refusal :=
  .next (s.issueOrResume t { h with signal := 0 } .attSend (o.ok 1 && decide (h.signal < 64)) (fun s1 =>
    match attSendStart t o s1 with
    | (.done s2, ids, next) =>
      let k := s2.core t.core
      .done (s2.setCore t.core { k with inflight := k.inflight ++ [s1.sendFlight t h ids next] })
    | (e, _, _) => e))

/-! ### DRAIN (R164 to R167, R180) -/

/-- The entry N / Z: its value in units of 2^(anchor − 160), with what the division leaves over in STICKY. -/
def quotient (n : WideEntry) (z : LongAcc) : WideEntry :=
  let d : Int := z.value
  if d = 0 then { n with value := 0 }
  else
    let v := n.value * (2 ^ 400 : Nat)
    { n with value := v.fdiv d, anchor := n.anchor + 149 - 400, sticky := n.sticky || decide (v.fmod d ≠ 0) }

/-- A NaN result without flags of its own. -/
def nanEntry : WideEntry := { nan := true, count := 1 }

/-- One element row of O: bytes of elements and scales. A row of kind 1 is NaN, whose columns raise what their entries met
(R68, R167); one of kind 2 is empty. -/
def attRowPieces (fmt rnd d : Nat) (w ws : Word) (m : Nat) (kind : Nat) (q : Nat → WideEntry) : List OutPiece :=
  let x := fun n => if kind = 1 then nanEntry else q n
  let met := fun n => (q n).flags &&& (flagWindow ||| flagNanIn)
  let shown := fun (fl : Nat) (l : List Nat) => if kind = 0 then fl else if kind = 1 then orAll (l.map met) else 0
  if isMX fmt then
    (List.range (d / 32)).flatMap (fun j =>
      let eOff := awOffset w + m * awStride w + j * blockBytes fmt
      let sOff := awOffset ws + m * awStride ws + j
      if kind = 2 then [⟨eOff, leBytes (blockBytes fmt) 0, 0⟩, ⟨sOff, [0], 0⟩]
      else
        let r := mxBlock fmt rnd (fun _ _ => 0) (tab 32 (fun i => some (x (32 * j + i))))
        [⟨eOff, leBytes (blockBytes fmt) (packElems (fmtBits fmt) r.1), shown r.2.2 (tab 32 (fun i => 32 * j + i))⟩,
          ⟨sOff, [BitVec.ofNat 8 r.2.1], 0⟩])
  else
    let b := outBytes fmt
    (List.range d).map (fun n =>
      let r := (x n).drain fmt rnd (fun _ => 0)
      ⟨awOffset w + m * awStride w + b * n, leBytes b (if kind = 2 then 0 else r.bits), shown r.flags [n]⟩)

/-- LSE of a row from its anchor and Z (R164). -/
def lseOf (gen : Nat) (a : Int) (z : LongAcc) : Conv :=
  let r := z.drain 0 0 none (fun _ => 0)
  let l := sfnValue ⟨gen, 0, 2⟩ (decodeElem 0 r.bits)
  match decodeElem 0 l.bits with
  | .fin s m e =>
    let x := addFin a 0 (sgn s m) e
    let c := vecRound 0 false x.1 x.2 0
    ⟨c.bits, c.flags ||| l.flags ||| r.flags⟩
  | _ => l

/-- Images that parts of other modules have left in the merge areas, added to the owner's rows; VERIFY for an image that
R63 or R72 refuses. Log entry 45 applies (DESIGN CHOICE). Log entry 48 applies (DESIGN CHOICE). -/
def State.attMerge (s : State) (core a : Nat) (e : AttEnv) (parts : List Nat) : Status × Core :=
  parts.foldl (fun acc p =>
    if acc.1 ≠ .ok then acc
    else
      let base := mergeArea a p e.m e.d.d
      e.rows.foldl (fun acc2 m =>
        let zi := LongAcc.ofImage (s.num (base + e.m * e.d.d * 32 + 48 * m) 48)
        let acc3 := (List.range e.d.d).foldl (fun (x : Status × Core) n =>
          if x.1 ≠ .ok then x
          else match WideEntry.ofImage (s.num (base + (m * e.d.d + n) * 32) 32) with
            | none => (.verify, x.2)
            | some im =>
              let r := (x.2.entry (e.tile.key m n)).merge im
              (r.1, { x.2 with wide := SMap.set {} x.2.wide (e.tile.key m n) r.2 })) acc2
        if acc3.1 ≠ .ok then acc3
        else match zi with
          | none => (.verify, acc3.2)
          | some im =>
            let r := (SMap.get {} acc3.2.long (e.lidx + m) : LongAcc).merge im
            (r.1, { acc3.2 with long := SMap.set {} acc3.2.long (e.lidx + m) r.2 })) acc) (.ok, s.core core)

/-- What becomes of a row of O: 0 its quotients, 1 NaN, 2 empty (R166, R167). A row whose permitted keys all have a P of zero has
Z = 0 and is taken as empty: log entry 129 applies (DESIGN CHOICE). -/
def Core.attKind (k : Core) (e : AttEnv) (m : Nat) : Nat :=
  if (SMap.get ({} : AttRow) ((k.att.map (·.rows)).getD []) m).nan then 1
  else if (SMap.get {} k.long (e.lidx + m) : LongAcc).value = 0 then 2 else 0

/-- Everything that an ATT DRAIN writes, from the merged part in `k`: rows of O with their LSE words, and hems (R164 to R167). -/
def State.attOut (s : State) (t : Site) (o : AttOps) (e : AttEnv) (k : Core) : List OutPiece :=
  let c := s.ctx t
  let w := c.sreg o.outReg
  let ws := c.sreg (o.outReg + 1)
  let wl := c.sreg o.lseReg
  let rowOf := fun m => SMap.get ({} : AttRow) ((k.att.map (·.rows)).getD []) m
  let z := fun m => (SMap.get {} k.long (e.lidx + m) : LongAcc)
  let hems := if c.inBody && o.rowMask = 1 then (List.range e.m).filter (fun m => !e.rows.contains m) else []
  let lse := fun m (x : Conv) => if o.lseReg = 0 then [] else [(⟨awOffset wl + m * awStride wl, leBytes 4 x.bits, x.flags⟩ : OutPiece)]
  e.rows.flatMap (fun m =>
      attRowPieces e.d.outFmt e.d.rnd e.d.d w ws m (k.attKind e m) (fun n => quotient (k.entry (e.tile.key m n)) (z m))
        ++ lse m (match k.attKind e m with
          | 1 => ⟨canonicalNaN 0, 0⟩
          | 2 => ⟨0xff800000, 0⟩
          | _ => lseOf e.gen ((rowOf m).anchor.getD 0) (z m)))
    ++ hems.flatMap (fun m => attRowPieces e.d.outFmt e.d.rnd e.d.d w ws m 2 (fun _ => {}) ++ lse m ⟨0, 0⟩)

/-- Status of the address words of an ATT DRAIN (R87). -/
def State.attWords (s : State) (t : Site) (o : AttOps) (e : AttEnv) : Status :=
  let c := s.ctx t
  Status.lowest [awStatus (c.sreg o.outReg) 64, if isMX e.d.outFmt then awStatus (c.sreg (o.outReg + 1)) 32 else .ok,
    if o.lseReg = 0 then .ok else awStatus (c.sreg o.lseReg) 64]

/-- Parts of other modules whose images lie in the merge areas of a slot. -/
def State.partsAt (s : State) (slot : Option AttSlot) (a : Nat) : List Nat :=
  (s.fab.remoteParts.filter (fun p => slot.isSome && p.1 = a)).map (·.2)

/-- An ATT DRAIN that need wait no longer: its pieces are written, the part is given up, empty rows are counted and its slot is
emptied. -/
def State.attDrained (s : State) (t : Site) (o : AttOps) (e : AttEnv) (k : Core) : State :=
  let s1 := s.putPieces t.core (s.attOut t o e k)
  let s2 := s1.setCore t.core ((s1.core t.core).dropPart e)
  let s3 := s2.bump Fld.ATT_EMPTY_ROWS_EMPTY_COUNT Fld.ATT_EMPTY_ROWS_EMPTY_SAT ((e.rows.filter (fun m => k.attKind e m = 2)).length)
  match s.attSlot t o with
  | none => s3
  | some x =>
    (s3.emptySlot t (fabLocal x.fa) e.tile.bank).setFab
      { s3.fab with remoteParts := s3.fab.remoteParts.filter (fun p => decide (p.1 ≠ fabLocal x.fa)) }

/-- The effect of ATT DRAIN. Log entry 46 applies (DEDUCED). -/
def attDrainEff (t : Site) (o : AttOps) (s : State) : Eff :=
  let sst := s.attSlotStatus t o
  let reach := s.attReach t o
  if reach.1 ≠ .ok then .fault reach.1 reach.2.1 reach.2.2
  else if sst ≠ .ok then .fault sst (s.pcAddr t) s
  else match s.attPartEnv t o with
  | .inl x => .fault x.1 x.2 s
  | .inr e =>
    let slot := s.attSlot t o
    let a := (slot.map (fun x => fabLocal x.fa)).getD 0
    if (slot.map (fun x => decide (x.part ≠ 0) || decide (fabModule x.fa ≠ s.moduleId))).getD false then .fault .verify (s.pcAddr t) s
    else if (slot.map (fun _ => s.mergesMissing a)).getD false then .hold (.slot ((slot.map (·.fa)).getD 0)) s
    else
      let ecc := s.slotRead t.core (slot.map (fun _ => a))
      let wst := s.attWords t o e
      let mg := s.attMerge t.core a e (s.partsAt slot a)
      let out := s.reachAll t.core ((s.attOut t o e mg.2).map (fun p => (p.off, p.bytes.length)))
      if ecc.1 ≠ .ok then .fault ecc.1 a ecc.2
      else if wst ≠ .ok then .fault wst (s.pcAddr t) s
      else if mg.1 ≠ .ok then .fault mg.1 (s.pcAddr t) s
      else if out.1 ≠ .ok then .fault out.1 out.2 s
      else .done (s.attDrained t o e mg.2)

/-- ATT DRAIN. -/
def execAttDrain (t : Site) (h : Hdr) (o : AttOps) (s : State) : Host.Outcome State Fault Refusal :=
  .next (s.issueOrResume t h .attDrain (o.ok 2) (attDrainEff t o))

end Sys2Proof.Machine
end

