-- ==== Sys2Proof/Machine/Grd.lean ====
section
/-! DEFINITION. Gradient reduction and the parameter all-gather (12_gradient_reduction.md). -/

namespace Sys2Proof.Machine

/-! ### Groups, shards and stages (R328 to R330) -/

/-- Extents and coordinates of this module's torus. -/
def State.extents (s : State) : List Nat :=
  [s.fld Fld.FAB_CFG_DX_MINUS1 + 1, s.fld Fld.FAB_CFG_DY_MINUS1 + 1, s.fld Fld.FAB_CFG_DZ_MINUS1 + 1]

def State.coords (s : State) : List Nat := [s.fld Fld.FAB_CFG_X, s.fld Fld.FAB_CFG_Y, s.fld Fld.FAB_CFG_Z]

/-- Stage dimensions of `DIMS`: selected ones of extent above 1, in the order X, Y, Z. -/
def State.stageDims (s : State) (dims : Nat) : List Nat :=
  (List.range 3).filter (fun i => bit dims i && decide (1 < nth 1 s.extents i))

/-- Modules of the group. -/
def State.groupSize (s : State) (dims : Nat) : Nat :=
  (s.stageDims dims).foldl (fun g i => g * nth 1 s.extents i) 1

/-- Coordinates of member k of the group. -/
def State.member (s : State) (dims k : Nat) : List Nat :=
  let e := fun i => if bit dims i then nth 1 s.extents i else 1
  (List.range 3).map (fun i =>
    if bit dims i then k / ((List.range i).foldl (fun m j => m * e j) 1) % e i else nth 0 s.coords i)

/-- This module's index in the group. -/
def State.memberIndex (s : State) (dims : Nat) : Nat :=
  (List.range 3).foldl (fun (a : Nat × Nat) i =>
    if bit dims i then (a.1 + a.2 * nth 0 s.coords i, a.2 * nth 1 s.extents i) else a) (0, 1) |>.1

/-- Chunks of a vector (R329). -/
def GradDesc.chunks (d : GradDesc) : Nat := ceilDiv d.elements 128

/-- Elements of chunk c. -/
def GradDesc.elems (d : GradDesc) (c : Nat) : Nat := min 128 (d.elements - 128 * c)

/-- First chunk of member k's shard; that of member k + 1 is its end. -/
def shardStart (chunks g k : Nat) : Nat := k * chunks / g

/-- The member that owns chunk c: the greatest k whose shard begins at or below c. -/
def ownerOf (chunks g c : Nat) : Nat := ((c + 1) * g - 1) / chunks

/-- Coordinates of the owner of chunk c. -/
def State.ownerCoords (s : State) (d : GradDesc) (c : Nat) : List Nat :=
  s.member d.dims (ownerOf d.chunks (s.groupSize d.dims) c)

/-- First owned chunk of this module, and the end of its shard. -/
def State.shard (s : State) (d : GradDesc) : Nat × Nat :=
  let g := s.groupSize d.dims
  let k := s.memberIndex d.dims
  (shardStart d.chunks g k, shardStart d.chunks g (k + 1))

/-- Stage dimensions of a path; the secondary path takes them in reverse order (R344). Log entry 76 applies (DEDUCED). -/
def State.pathDims (s : State) (d : GradDesc) (sec : Bool) : List Nat :=
  if sec then (s.stageDims d.dims).reverse else s.stageDims d.dims

/-- Coordinates of the stage-`st` aggregator of chunk c, seen from this module (R330). Log entry 76 applies (DEDUCED). -/
def State.aggregator (s : State) (d : GradDesc) (sec : Bool) (st c : Nat) : List Nat :=
  let o := s.ownerCoords d c
  let ds := (s.pathDims d sec).take st
  (List.range 3).map (fun i => if ds.contains i then nth 0 o i else nth 0 s.coords i)

/-- Does this module aggregate chunk c at a stage of a path? -/
def State.aggregates (s : State) (d : GradDesc) (sec : Bool) (st c : Nat) : Bool :=
  decide (c < d.chunks) && decide (s.aggregator d sec st c = s.coords)

/-- Expected arrivals of a chunk (Table 12-1). -/
def State.expected (s : State) (d : GradDesc) (sec : Bool) (st : Nat) : Nat :=
  match (s.pathDims d sec)[st - 1]? with
  | none => d.pieces
  | some i => if st = 0 then d.pieces else if st = 1 then nth 1 s.extents i * d.pieces else nth 1 s.extents i

/-- The last stage: that of the owner. -/
def State.lastStage (s : State) (d : GradDesc) : Nat := (s.stageDims d.dims).length

/-- The module at coordinates. Log entry 70 applies (DESIGN CHOICE). -/
def State.moduleAt (s : State) (c : List Nat) : Nat :=
  if c = s.coords then s.moduleId else Config.moduleAt (nth 0 c 0) (nth 0 c 1) (nth 0 c 2)

/-! ### Reductions, states and closed bits (R334, R335) -/

def State.red (s : State) (id : Nat) : Option Reduction := SMap.find s.units.grd id
def State.setRed (s : State) (id : Nat) (r : Reduction) : State :=
  s.withUnits { s.units with grd := SMap.insert s.units.grd id r }

/-- A change of an open reduction. -/
def State.mapRed (s : State) (id : Nat) (f : Reduction → Reduction) : State :=
  match s.red id with
  | none => s
  | some r => s.setRed id (f r)

/-- Record a status: the lowest code is kept (R347). -/
def Reduction.note (r : Reduction) (st : Status) : Reduction := { r with status := r.status.worse st }

/-- Key of a chunk state and closed bit. -/
def gradKey (sec : Bool) (st c : Nat) : Nat := (c * 4 + st) * 2 + b2n sec

/-- The engine of a chunk on a path (R329, R344). Log entry 73 applies (DESIGN CHOICE). -/
def gradEngine (sec : Bool) (c : Nat) : Nat := (if sec then c + 4 else c) % 8

/-- Engine of a key. -/
def keyEngine (k : Nat) : Nat := gradEngine (decide (k % 2 = 1)) (k / 8)

/-- Chunk states in use at an engine. -/
def State.statesAt (s : State) (e : Nat) : Nat :=
  s.units.grd.foldl (fun n r => n + (r.2.states.filter (fun x => decide (keyEngine x.1 = e))).length) 0

/-- Chunks of a shard that this module aggregates at a stage, over all members. -/
def State.aggregated (s : State) (d : GradDesc) (sec : Bool) (st : Nat) : Nat :=
  let g := s.groupSize d.dims
  let ds := (s.pathDims d sec).take st
  (List.range g).foldl (fun n k =>
    if ds.all (fun i => decide (nth 0 (s.member d.dims k) i = nth 0 s.coords i)) then
      n + (shardStart d.chunks g (k + 1) - shardStart d.chunks g k)
    else n) 0

/-- Bytes of the closed bits of a reduction in each engine's share of the GRD region. Log entry 74 applies (DESIGN CHOICE). -/
def State.bitmapBytes (s : State) (d : GradDesc) : Nat :=
  let n := s.lastStage d
  let stages := if n = 0 then [0] else (List.range n).map (· + 1)
  let one := fun sec => stages.foldl (fun a st => a + s.aggregated d sec st) 0
  if d.gather then 0 else ceilDiv (one false + (if d.dual then one true else 0)) 64

/-- Bytes of each engine's share of the GRD region. Log entry 74 applies (DESIGN CHOICE). -/
def State.grdShare (s : State) : Nat := (((s.regions.find? (fun r => r.cls = classGrd)).map (·.size)).getD 0) / 8

/-- Chunk states that fit in a share beside the closed bits of these reductions. Log entry 74 applies (DESIGN CHOICE). -/
def State.poolFor (s : State) (ds : List GradDesc) : Nat :=
  (s.grdShare - ds.foldl (fun n d => n + s.bitmapBytes d) 0) / 5184

/-- `POOL_CHUNKS` and `OPEN` follow the open reductions. Log entry 74 applies (DESIGN CHOICE). -/
def State.showGrd (s : State) : State :=
  (s.setFld Fld.GRD_STATUS_POOL_CHUNKS (s.poolFor (s.units.grd.map (·.2.d)))).setFld Fld.GRD_STATUS_OPEN s.units.grd.length

/-! ### Samples (R344, R345) -/

/-- The element of each 4,096-element block that is sampled. -/
def GradDesc.sigma (d : GradDesc) : Nat := (d.step * 2654435761 + d.redId * 40503) % 4096

/-- The block whose sampled element lies in chunk c. -/
def GradDesc.sampleOf (d : GradDesc) (c : Nat) : Option Nat :=
  let j := c / 32
  if d.dual && c % 32 = d.sigma / 128 && decide (4096 * j + d.sigma < d.elements) then some j else none

/-- Chunk of the sampled element of block j, and its place in it. -/
def GradDesc.sampleChunk (d : GradDesc) (j : Nat) : Nat := 32 * j + d.sigma / 128
def GradDesc.samplePlace (d : GradDesc) : Nat := d.sigma % 128

/-- Judge a sampled element once both paths have closed. -/
def State.judge345 (s : State) (id : Nat) (r : Reduction) (j : Nat) : State :=
  match SMap.find r.samples j with
  | some (some p, some q) =>
    if r.judged.contains j then s.setRed id r
    else
      let full := s.groupSize r.d.dims * r.d.pieces
      let r1 := { r with judged := j :: r.judged }
      if p.count = full && q.count = full && !p.cut && !q.cut then
        if p.acc = q.acc then s.setRed id { r1 with compared := r1.compared + 1 }
        else
          (s.setRed id { (r1.note .mismatch) with compared := r1.compared + 1, mismatches := r1.mismatches + 1,
                                                  firstMismatch := some (r1.firstMismatch.getD j) }).bump
            Fld.GRD_CHECK_MISMATCHES Fld.GRD_CHECK_MM_SAT 1
      else s.setRed id { r1 with skipped := r1.skipped + 1 }
  | _ => s.setRed id r

/-! ### Expansions (R338) -/

/-- Round toward zero to FP32, and what is left. -/
def rtzStep (v : Int) : Nat × Int :=
  let m := v.natAbs
  let k := log2 m + 1 - 24
  let q := m / 2 ^ k * 2 ^ k
  (encodeFin 0 (decide (v < 0)) q (-149), v - sgn (decide (v < 0)) q)

/-- L words of a value, and what is left. -/
def rtzWords : Nat → Int → List Nat × Int
  | 0, v => ([], v)
  | l + 1, v =>
    if v = 0 then (List.replicate (l + 1) 0, 0)
    else
      let a := rtzStep v
      let b := rtzWords l a.2
      (a.1 :: b.1, b.2)

/-- An accumulator as L words, and whether it was cut. -/
def LongAcc.expand (a : LongAcc) (l : Nat) : List Nat × Bool :=
  let pad := fun (w : Nat) => w :: List.replicate (l - 1) 0
  if a.nan || a.invalid || (a.pinf && a.ninf) then (pad (canonicalNaN 0), false)
  else if a.pinf then (pad (infBits 0 false), false)
  else if a.ninf then (pad (infBits 0 true), false)
  else if 2 ^ (128 + 149) ≤ a.value.natAbs then (pad (infBits 0 (decide (a.value < 0))), true)
  else
    let r := rtzWords l a.value
    (r.1, decide (r.2 ≠ 0))

/-! ### Sends (R334, R342) -/

/-- Words of a list of 32-bit numbers. -/
def words32 (l : List Nat) : List Byte := l.flatMap (leBytes 4)

/-- Word i of a payload. -/
def wordAt (data : List Byte) (i : Nat) : Nat := leNat ((data.drop (4 * i)).take 4)

/-- The send of a partial is answered: its chunk states are free (R337). -/
def State.gradFree (id : Nat) (p : GradPkt) (s : State) : State :=
  s.mapRed id (fun r =>
    if p.op = 0x21 then
      { r with states := (List.range p.chunks).foldl (fun m i => SMap.erase m (gradKey false (p.stage - 1) (p.chunk0 + i))) r.states }
    else if p.op = 0x22 && decide (2 ≤ p.stage) then
      { r with states := (List.range p.chunks).foldl (fun m i =>
          SMap.erase m (gradKey true (p.stage - 1) (r.d.sampleChunk (p.chunk0 + i)))) r.states }
    else r)

/-- The partial of a chunk state: the packet for the next stage, and whether its expansion was cut. -/
def GradDesc.partial' (d : GradDesc) (sec : Bool) (st c : Nat) (x : ChunkState) : GradPkt × Bool :=
  let es := if sec then [d.samplePlace] else List.range (d.elems c)
  let ws := es.map (fun i => (SMap.get ({} : LongAcc) x.acc i).expand d.expLen)
  let cutNow := ws.any (·.2)
  let cut := x.cut || cutNow
  let body := words32 (ws.flatMap (·.1))
  (if sec then
      { op := 0x22, redId := d.redId, stage := st + 1, secondary := true, chunks := 1, step := d.step, chunk0 := c / 32,
        weights := [], counts := [], cuts := 0,
        data := body ++ leBytes 4 x.weight ++ leBytes 4 (x.count % 2 ^ 20 + b2n cut * 2 ^ 31) }
    else
      { op := 0x21, redId := d.redId, stage := st + 1, secondary := false, chunks := 1, step := d.step, chunk0 := c,
        weights := [x.weight], counts := [x.count], cuts := b2n cut, data := body }, cutNow)

/-! ### The owner (R341) -/

/-- FP32 word of one element of an owned chunk, with its flags. -/
def GradDesc.drainElem (d : GradDesc) (x : ChunkState) (i : Nat) : Conv :=
  if x.weight = 0 then ⟨0, 0⟩
  else (SMap.get ({} : LongAcc) x.acc i).drain 0 d.rnd (if d.mean then some x.weight else none) (fun _ => 0)

/-- An owned chunk is drained and written. -/
def State.gradDrain (s : State) (id : Nat) (c : Nat) (x : ChunkState) : State :=
  match s.red id with
  | none => s
  | some r =>
    let d := r.d
    let j := c - (s.shard d).1
    let cs : List Conv := (List.range (d.elems c)).map (d.drainElem x)
    let w := s.writeMem 7 (d.out + 512 * j) (words32 (cs.map Conv.bits))
    let v : Status × State := if d.weightsOut = 0 then (.ok, w.2)
      else w.2.writeMem 7 (d.weightsOut + 8 * j) (leBytes 8 (x.weight % 2 ^ 32 + (x.count % 2 ^ 20) * 2 ^ 32 + b2n x.cut * 2 ^ 52))
    let short := decide (x.count < s.groupSize d.dims * d.pieces)
    let r1 := { r with written := c :: r.written, arith := r.arith ||| orAll (cs.map Conv.flags),
                       chunksShort := r.chunksShort + b2n short, chunksCut := r.chunksCut + b2n x.cut,
                       short := r.short || short }
    v.2.setRed id ((r1.note (w.1.worse v.1)).note (Status.when short .deadline))

/-- What a path left of the sampled element of a chunk, if it holds one. Log entry 71 applies (DESIGN CHOICE). -/
def State.gradSample (s : State) (id : Nat) (sec : Bool) (c : Nat) (x : ChunkState) : State :=
  match s.red id with
  | none => s
  | some r =>
    match r.d.sampleOf c with
    | none => s
    | some j =>
      let rec' : SampleRec := ⟨SMap.get ({} : LongAcc) x.acc r.d.samplePlace, x.count, x.cut⟩
      let old := (SMap.find r.samples j).getD (none, none)
      s.judge345 id { r with samples := SMap.insert r.samples j (if sec then (old.1, some rec') else (some rec', old.2)) } j

/-! ### Arrivals and closing (R336, R337) -/

/-- A chunk state closes: short where arrivals are missing; its partial is to go to the next stage unless `stop`, or it is
drained at the owner. -/
def State.gradClose (s : State) (stop : Bool) (id : Nat) (sec : Bool) (st c : Nat) : State :=
  match s.red id with
  | none => s
  | some r =>
    let key := gradKey sec st c
    match SMap.find r.states key with
    | none => s
    | some x =>
      if x.closing then s
      else
        let short := decide (x.arrivals < s.expected r.d sec st)
        let r1 := { (r.note (Status.when short .deadline)) with closed := key :: r.closed, short := r.short || short }
        if st = s.lastStage r.d then
          let s1 := s.setRed id { r1 with states := SMap.erase r1.states key }
          if sec then s1.gradSample id true c x else (s1.gradDrain id c x).gradSample id false c x
        else if stop then s.setRed id { r1 with states := SMap.erase r1.states key }
        else
          let p := r.d.partial' sec st c x
          let s1 := s.setRed id { r1 with states := SMap.insert r1.states key { x with closing := true },
                                          parts := r1.parts ++ [⟨s.aggregator r.d sec (st + 1) c, 0, p.1⟩] }
          if p.2 then s1.bump Fld.GRD_CHECK_CUT_CHUNKS Fld.GRD_CHECK_CUT_SAT 1 else s1

/-- One chunk arrives: `words` gives the words of each element. The rows of Table 12-8 stand in its order; once `TOTAL_MS` has
passed every chunk counts as closed (R337). -/
def State.gradArrive (s : State) (id : Nat) (sec : Bool) (st c : Nat) (words : List (Nat × List Nat)) (weight count : Nat)
    (cut : Bool) : Status × State :=
  match s.red id with
  | none => (.notReady, s)
  | some r =>
    let key := gradKey sec st c
    if !s.aggregates r.d sec st c then (.bounds, s)
    else if (SMap.find r.states key).isNone && !r.abandoned
        && decide (s.fld Fld.GRD_STATUS_POOL_CHUNKS ≤ s.statesAt (keyEngine key)) then (.notReady, s)
    else if r.closed.contains key || r.abandoned then
      (.deadline, (s.setRed id { r.note .deadline with late := r.late + 1 }).bump Fld.GRD_COUNTS_LATE Fld.GRD_COUNTS_LATE_SAT 1)
    else
      let x := (SMap.find r.states key).getD { first := s.time.toNat }
      let acc := words.foldl (fun a e => SMap.set {} a e.1 (e.2.foldl (fun (y : LongAcc) w =>
        (y.add (Contrib.ofVal (decodeElem 0 w))).getD y) (SMap.get {} a e.1))) x.acc
      let x1 := { x with acc, arrivals := x.arrivals + 1, count := x.count + count, weight := x.weight + weight, cut := x.cut || cut }
      let s1 := s.setRed id { r with states := SMap.insert r.states key x1 }
      (.ok, if x1.arrivals = s.expected r.d sec st then s1.gradClose false id sec st c else s1)

/-- Chunk i of a packet, with its words, weight, count and cut. -/
def GradPkt.part (p : GradPkt) (d : GradDesc) (i : Nat) : Nat × List (Nat × List Nat) × Nat × Nat × Bool :=
  let l := if p.stage ≤ 1 then 1 else d.expLen
  if p.op = 0x22 then
    let o := i * (l + 2)
    let w := wordAt p.data (o + l + 1)
    (d.sampleChunk (p.chunk0 + i), [(d.samplePlace, tab l (fun j => wordAt p.data (o + j)))], wordAt p.data (o + l), w % 2 ^ 20, bit w 31)
  else
    let o := 128 * l * i
    let c := p.chunk0 + i
    (c, tab (d.elems c) (fun e => (e, tab l (fun j => wordAt p.data (o + l * e + j)))), nth 0 p.weights i, nth 0 p.counts i, bit p.cuts i)

/-- A packet is applied chunk by chunk: the lowest code of the answers (R343). -/
def State.gradApply (s : State) (id : Nat) (p : GradPkt) : Status × State :=
  match s.red id with
  | none => (.notReady, s)
  | some r =>
    (List.range p.chunks).foldl (fun (a : Status × State) i =>
      let x := p.part r.d i
      let b := a.2.gradArrive id p.secondary p.stage x.1 x.2.1 x.2.2.1 x.2.2.2.1 x.2.2.2.2
      (a.1.worse b.1, b.2)) (.ok, s)

/-- A packet goes to another module; where its entry is NONE the send completes with that status, unsent (R314). -/
def State.gradInject (s : State) (id dest piece : Nat) (p : GradPkt) : State :=
  match s.red id with
  | none => s
  | some r =>
    let g := s.remoteGate dest r.d.tag
    if g ≠ .ok then (s.gradFree id p).mapRed id (fun r1 => r1.note g)
    else
      (s.injectAll [{ serial := 0, op := p.op, dest, addr := 0, len := p.data.length, into := piece, grad := some p,
                      tag := r.d.tag, at' := 0, owner := .grad id }]).2

/-- Send a packet, or where its destination is this module apply it: it waits for a free state, and is late where its chunk has
closed. -/
def State.gradSend (s : State) (id : Nat) (x : GradSend) : State :=
  if x.dest = s.coords then
    let a := s.gradApply id x.pkt
    if a.1 = .notReady then a.2.mapRed id (fun r => { r with waiting := r.waiting ++ [x] })
    else
      let s1 := a.2.gradFree id x.pkt
      if a.1 = .ok then s1 else s1.mapRed id (fun r => { r.note a.1 with sendsLate := r.sendsLate + 1 })
  else s.gradInject id (s.moduleAt x.dest) x.piece x.pkt

/-- Most chunks that a packet holds (R342). -/
def GradDesc.most (d : GradDesc) (p : GradPkt) : Nat :=
  if p.op = 0x20 then 4 else if p.op = 0x22 then 16 else if p.op = 0x23 then 16 / max d.gatherBytes 1
  else if d.expLen = 1 then 4 else if d.expLen = 2 then 2 else 1

/-- Two packets for one destination as one, where the chunks of the second follow those of the first and all fit. -/
def GradSend.join (d : GradDesc) (x y : GradSend) : Option GradSend :=
  let p := x.pkt
  let q := y.pkt
  if x.dest = y.dest ∧ p.op = q.op ∧ p.stage = q.stage ∧ q.chunk0 = p.chunk0 + p.chunks ∧ p.chunks + q.chunks ≤ d.most p then
    some { x with pkt := { p with chunks := p.chunks + q.chunks, weights := p.weights ++ q.weights, counts := p.counts ++ q.counts,
                                  cuts := p.cuts + q.cuts * 2 ^ p.chunks, data := p.data ++ q.data } }
  else none

/-- Partials as packets: as many whole consecutive chunks as fit (R342); those for this module, which cross no fabric, stay
apart. -/
def joinSends (d : GradDesc) (own : List Nat) (l : List GradSend) : List GradSend :=
  l.foldr (fun x acc =>
    match acc with
    | [] => [x]
    | y :: r =>
      match (if x.dest = own then none else x.join d y) with
      | some z => z :: r
      | none => x :: y :: r) []

/-- More than the stages that a partial can pass within one module. -/
def gradFuel : Nat := 4

/-- The partials of a reduction are sent; those for this module itself may close states and so leave others. -/
def State.gradFlush (id : Nat) : Nat → State → State
  | 0, s => s
  | n + 1, s =>
    match s.red id with
    | none => s
    | some r =>
      if r.parts.isEmpty then s
      else State.gradFlush id n ((joinSends r.d s.coords r.parts).foldl (fun a x => a.gradSend id x) (s.setRed id { r with parts := [] }))

/-- Partials are sent, and packets of this module for itself that wait for a state are tried again. -/
def State.gradSettle (s : State) : State :=
  s.units.grd.foldl (fun a p =>
    match (a.gradFlush p.1 gradFuel).red p.1 with
    | none => a
    | some r =>
      let b := (a.gradFlush p.1 gradFuel).setRed p.1 { r with waiting := [] }
      (r.waiting.foldl (fun c x => c.gradSend p.1 x) b).gradFlush p.1 gradFuel) s

/-! ### Opening (R331, R332) -/

/-- A descriptor as its bytes say. -/
def GradDesc.ofNum (w : Nat) : GradDesc :=
  { gather := byteField w 1 1 = 1, mean := byteField w 2 1 = 1, rnd := byteField w 3 1, expLen := byteField w 4 1,
    dims := byteField w 5 1, dual := byteField w 6 1 = 1, pieces := byteField w 7 1, redId := byteField w 8 2,
    tag := byteField w 10 2, step := byteField w 12 4, elements := byteField w 16 5, gatherBytes := byteField w 21 1,
    weight := byteField w 22 2, src := byteField w 24 5, out := byteField w 29 5, weightsOut := byteField w 34 5,
    report := byteField w 39 5, ready := byteField w 44 5, stageNs := tab 3 (fun i => byteField w (52 + 4 * i) 4),
    totalMs := byteField w 64 4 }

/-- Bytes of one piece, and the distance of two. -/
def GradDesc.pieceBytes (d : GradDesc) : Nat := 4 * d.elements
def GradDesc.pieceStep (d : GradDesc) : Nat := ceilDiv d.pieceBytes 64 * 64

/-- Elements of this module's shard. -/
def State.shardElems (s : State) (d : GradDesc) : Nat :=
  let h := s.shard d
  min d.elements (128 * h.2) - min d.elements (128 * h.1)

/-- Buffers of a descriptor: those read, and those written. -/
def State.gradReads (s : State) (d : GradDesc) : List (Nat × Nat) :=
  [(d.src, if d.gather then d.gatherBytes * s.shardElems d else (d.pieces - 1) * d.pieceStep + d.pieceBytes)]
    ++ (if d.ready = 0 then [] else [(d.ready, 8)])

def State.gradWrites (s : State) (d : GradDesc) : List (Nat × Nat) :=
  let h := s.shard d
  [(d.out, if d.gather then d.gatherBytes * d.elements else 4 * s.shardElems d), (d.report, 64)]
    ++ (if d.weightsOut = 0 then [] else [(d.weightsOut, 8 * (h.2 - h.1))])

/-- No buffer that the module writes overlaps another. -/
def disjointBuffers : List (Nat × Nat) → List (Nat × Nat) → Bool
  | [], _ => true
  | w :: l, rs => (rs ++ l).all (fun b => !overlaps w.1 w.2 b.1 b.2) && disjointBuffers l rs

/-- Fields in range, reserved bytes zero (Table 12-2). -/
def State.gradFieldsOk (s : State) (w : Nat) : Bool :=
  let d := GradDesc.ofNum w
  let n := s.lastStage d
  let kind := byteField w 1 1
  let dual := byteField w 6 1
  let mode := byteField w 2 1
  byteField w 0 1 = 1 && decide (kind ≤ 1) && decide (d.dims ≤ 7) && inside 1 65535 d.redId && inside 1 65535 d.tag
    && inside 1 (2 ^ 39) d.elements && inside 1 600000 d.totalMs && byteField w 49 3 = 0 && byteField w 68 60 = 0
    && d.src % 64 = 0 && d.out % 64 = 0 && d.report % 64 = 0 && d.ready % 8 = 0
    && (if d.gather then
          mode = 0 && d.rnd = 0 && d.expLen = 0 && dual = 0 && d.pieces = 0 && d.weight = 0 && d.weightsOut = 0
            && (d.gatherBytes = 1 || d.gatherBytes = 2 || d.gatherBytes = 4) && d.stageNs.all (fun x => decide (x = 0))
        else
          decide (mode ≤ 1) && decide (d.rnd ≤ 4) && inside 1 4 d.expLen && decide (dual ≤ 1) && !(dual = 1 && d.expLen = 1)
            && inside 1 64 d.pieces && d.gatherBytes = 0 && inside 1 4095 d.weight
            && (List.range 3).all (fun i => if i < n then inside 1000 1000000000 (nth 0 d.stageNs i) else nth 0 d.stageNs i = 0))

/-- Status of an open (R332). Log entry 75 applies (DEDUCED). -/
def State.gradOpenStatus (s : State) (w : Nat) : Status :=
  let d := GradDesc.ofNum w
  let bufs := (s.gradReads d ++ s.gradWrites d).filter (fun b => decide (b.2 ≠ 0))
  let bufsOk := bufs.all (fun b => s.inOneRegion b.1 b.2 && !s.touchesClass classGrd b.1 b.2 && !s.touchesClass classKvp b.1 b.2)
    && disjointBuffers ((s.gradWrites d).filter (fun b => decide (b.2 ≠ 0))) ((s.gradReads d).filter (fun b => decide (b.2 ≠ 0)))
  let fits := decide (64 ≤ s.poolFor (d :: s.units.grd.map (·.2.d)))
  Status.lowest [
    Status.when (!s.ready rdyGrad || (decide (0 < s.lastStage d) && !s.ready rdyFabric)) .notReady,
    Status.when (decide (16 ≤ s.units.grd.length) || (s.red d.redId).isSome) .denied,
    Status.when (!s.gradFieldsOk w || !bufsOk || !fits) .verify]

/-- The report record (Table 12-9). Log entry 75 applies (DEDUCED). -/
def State.gradReport (s : State) (r : Reduction) : List Byte :=
  let d := r.d
  let h := s.shard d
  let missing := d.gatherBytes * (d.elements - r.held.foldl (fun n c => n + d.elems c) 0)
  leBytes 1 r.status.code
    ++ leBytes 1 (b2n (decide (0 < r.chunksCut)) + 2 * b2n r.short + 4 * b2n (decide (0 < r.late)) + 8 * b2n d.dual)
    ++ leBytes 1 r.arith ++ leBytes 1 0 ++ leBytes 2 d.redId ++ leBytes 2 0 ++ leBytes 4 d.step
    ++ leBytes 4 (h.2 - h.1) ++ leBytes 4 r.chunksShort ++ leBytes 4 r.chunksCut ++ leBytes 4 r.late ++ leBytes 4 r.sendsLate
    ++ (if d.gather then leBytes 8 missing else leBytes 4 r.compared ++ leBytes 4 r.mismatches)
    ++ leBytes 4 r.skipped ++ leBytes 4 (r.firstMismatch.getD 0xffffffff) ++ leBytes 8 r.opened ++ leBytes 8 s.stamp

/-- Write of `GRD_OPEN`: the descriptor is checked and the reduction opened or refused. -/
def grdOpenWrite (v : Word) (s : State) : Status × State :=
  let a := wget v 39 6 * 64
  if s.flag Fld.GRD_STATUS_OPENING then (.denied, s)
  else
    let r : Status × State := if isHbm a && s.ready rdyHbm then s.readCheck 7 .module a 128
      else (if isHbm a then .notReady else .verify, s)
    let w := r.2.num a 128
    let d := GradDesc.ofNum w
    let st := if r.1 ≠ .ok then r.1 else r.2.gradOpenStatus w
    let s1 := (r.2.setFld Fld.GRD_STATUS_LAST_STATUS st.code).setFld Fld.GRD_STATUS_LAST_RED_ID (if r.1 = .ok then d.redId else 0)
    if st = .ok then (.ok, (s1.setRed d.redId { d, opened := s1.stamp }).showGrd)
    else if r.1 = .ok && d.report % 64 = 0 && s1.inOneRegion d.report 64 && !s1.touchesClass classGrd d.report 64
        && !s1.touchesClass classKvp d.report 64 && s1.memReady d.report 64 then
      (.ok, (s1.writeMem 7 d.report (s1.gradReport { d, opened := s1.stamp, status := st })).2)
    else (.ok, s1)

/-- GRD_OPEN. Log entry 75 applies (DEDUCED). -/
def execGrdOpen (q : Fin 4) (v : Word) (s : State) : Host.Outcome State Fault Refusal :=
  .next (s.regWrite q Reg.GRD_OPEN (grdOpenWrite v))

/-! ### Sending (R333, R334, R344, R346) -/

/-- The ready count as read now (R333). -/
def State.gradReadReady (s : State) (id : Nat) : State :=
  match s.red id with
  | none => s
  | some r =>
    if r.d.ready = 0 then s.setRed id { r with ready := r.d.chunks }
    else
      let x := s.readMem 7 (.engine 8) r.d.ready 8
      if x.1 = .ok then x.2.2.setRed id { r with ready := max r.ready (min (leNat x.2.1) r.d.chunks) } else x.2.2.setRed id r

/-- The chunks of a piece that one packet carries on from chunk c: up to `n`, ready, unsent, and for one destination. -/
def State.runFrom (s : State) (r : Reduction) (piece dst : Nat) : Nat → Nat → List Nat
  | 0, _ => []
  | n + 1, c =>
    let d1 := (s.stageDims r.d.dims)[0]?
    if c < r.ready && !r.sent.contains (c * 64 + piece)
        && (match d1 with
          | none => true
          | some i => decide (nth 0 (s.ownerCoords r.d c) i = dst)) then c :: s.runFrom r piece dst n (c + 1)
    else []

/-- The first chunk and piece that have not been sent to the destination at coordinate `dst` of the first stage dimension:
ascending chunks, piece 0 first. Log entry 71 applies (DESIGN CHOICE). -/
def State.nextSend (s : State) (r : Reduction) (dst : Nat) : Option (Nat × Nat) :=
  (List.range (r.ready * r.d.pieces)).findSome? (fun i =>
    let c := i / r.d.pieces
    let p := i % r.d.pieces
    if (s.runFrom r p dst 1 c).isEmpty then none else some (c, p))

/-- The status of the chunk that could not be read, if one could not. -/
def failOf (x : Option (Nat × Status)) : Status := (x.map (·.2)).getD .ok

/-- Address of chunk c of a piece. -/
def GradDesc.srcOf (d : GradDesc) (piece c : Nat) : Nat := d.src + piece * d.pieceStep + 512 * c

/-- Chunks as read from `SRC`, each at the address and with the length given, up to the first that cannot be read, and that one with
its status (R334). -/
def State.readChunks (s : State) (at' : Nat → Nat × Nat) : List Nat → List (Nat × List Byte) × Option (Nat × Status) × State
  | [] => ([], none, s)
  | c :: l =>
    let x := s.readMem 7 (.engine (8 + gradEngine false c)) (at' c).1 (at' c).2
    if x.1 ≠ .ok then ([], some (c, x.1), x.2.2)
    else
      let r := x.2.2.readChunks at' l
      ((c, x.2.1) :: r.1, r.2.1, r.2.2)

/-- Where chunk c of a piece lies. -/
def GradDesc.pieceAt (d : GradDesc) (piece c : Nat) : Nat × Nat := (d.srcOf piece c, 4 * d.elems c)

/-- Where chunk c of the own shard of a gather lies, the shard beginning at chunk `lo`. -/
def GradDesc.ownAt (d : GradDesc) (lo c : Nat) : Nat × Nat := (d.src + d.gatherBytes * 128 * (c - lo), d.gatherBytes * d.elems c)

/-- All chunks of a list that can be read, in runs of consecutive ones, and the lowest status of those that cannot. -/
def State.readRuns (at' : Nat → Nat × Nat) : Nat → List Nat → State → List (List (Nat × List Byte)) × Status × State
  | 0, _, s => ([], .ok, s)
  | n + 1, cs, s =>
    let x := s.readChunks at' cs
    let here := if x.1.isEmpty then [] else [x.1]
    match x.2.1 with
    | none => (here, .ok, x.2.2)
    | some c =>
      let r := State.readRuns at' n (cs.filter (fun y => decide (c.1 < y))) x.2.2
      (here ++ r.1, c.2.worse r.2.1, r.2.2)

/-- A raw packet of chunks read (R336, R342). -/
def GradDesc.rawPkt (d : GradDesc) (l : List (Nat × List Byte)) : GradPkt :=
  { op := 0x20, redId := d.redId, stage := 1, secondary := false, chunks := l.length, step := d.step,
    chunk0 := (l.map (·.1)).headD 0, weights := l.map (fun _ => d.weight), counts := l.map (fun _ => 1), cuts := 0,
    data := l.flatMap (·.2) }

/-- The sample of a chunk read, where it holds one. -/
def GradDesc.samplePkt (d : GradDesc) (x : Nat × List Byte) : Option GradPkt :=
  (d.sampleOf x.1).map (fun j =>
    { op := 0x22, redId := d.redId, stage := 1, secondary := true, chunks := 1, step := d.step, chunk0 := j, weights := [],
      counts := [], cuts := 0,
      data := (x.2.drop (4 * d.samplePlace)).take 4 ++ leBytes 4 d.weight ++ leBytes 4 1 })

/-- Packets for this module carry one chunk each, so that every chunk is answered by itself; stage 0 stands for a group of
one (Table 12-1). -/
def State.gradSplit (s : State) (d : GradDesc) (dest : List Nat) (l : List (Nat × List Byte)) : List GradPkt :=
  let st := min 1 (s.lastStage d)
  if dest = s.coords then l.map (fun x => { d.rawPkt [x] with stage := st }) else [d.rawPkt l]

/-- The stage-1 destinations, by their coordinate on the first stage dimension, from the one after `turn` (R334). -/
def State.gradDests (s : State) (r : Reduction) : List Nat :=
  match (s.stageDims r.d.dims)[0]? with
  | none => [0]
  | some i =>
    let n := nth 1 s.extents i
    (List.range n).map (fun k => (r.turn + 1 + k) % n)

/-- The next raw packet: its destination, the next in turn that has one, its first chunk and its piece (R334). -/
def State.nextRaw (s : State) (r : Reduction) : Option (Nat × Nat × Nat) :=
  (s.gradDests r).findSome? (fun dst => (s.nextSend r dst).map (fun x => (dst, x.1, x.2)))

/-- The next raw packet leaves, with the samples of its chunks on the secondary path. -/
def State.gradSendRaw (s : State) (id : Nat) : State :=
  match s.red id with
  | none => s
  | some r =>
    match s.nextRaw r with
    | none => s
    | some (dst, c, piece) =>
      let x := s.readChunks (r.d.pieceAt piece) (s.runFrom r piece dst 4 c)
      let s1 := x.2.2.mapRed id (fun r1 => { (r1.note (failOf x.2.1)) with
        turn := dst, sent := r1.sent ++ (x.1.map (·.1) ++ (x.2.1.map (·.1)).toList).map (fun c1 => c1 * 64 + piece) })
      let dest := s.aggregator r.d false 1 c
      let s2 := if x.1.isEmpty then s1
        else (s.gradSplit r.d dest x.1).foldl (fun a p => a.gradSend id ⟨dest, piece, p⟩) s1
      x.1.foldl (fun a y =>
        match r.d.samplePkt y with
        | none => a
        | some p => a.gradSend id ⟨s.aggregator r.d true 1 y.1, piece, { p with stage := min 1 (s.lastStage r.d) }⟩) s2

/-- Chunks of a gather packet (R342). -/
def GradDesc.gatherRun (d : GradDesc) : Nat := 16 / d.gatherBytes

/-- Modules of this module's ring along a dimension, itself apart. -/
def State.ring (s : State) (dim : Nat) : List (List Nat) :=
  ((List.range (nth 1 s.extents dim)).filter (fun x => decide (x ≠ nth 0 s.coords dim))).map (fun x => setNth s.coords dim x)

/-- Send gathered chunks on in every stage after `done` (R346). -/
def State.gatherForward (s : State) (id : Nat) (d : GradDesc) (done c n : Nat) (data : List Byte) : State :=
  let ds := s.stageDims d.dims
  ((List.range ds.length).filter (fun i => decide (done ≤ i))).foldl (fun a i =>
    (a.ring (nth 0 ds (ds.length - 1 - i))).foldl (fun b dest =>
      b.gradSend id ⟨dest, 0, { op := 0x23, redId := d.redId, stage := i + 1, secondary := false, chunks := n, step := d.step,
                                chunk0 := c, weights := [], counts := [], cuts := 0, data }⟩) a) s

/-- Own chunks of a gather from c that one packet carries. -/
def gatherOwn (r : Reduction) (hi : Nat) : Nat → Nat → List Nat
  | 0, _ => []
  | n + 1, c => if c < hi && decide (c < r.ready) && !r.sent.contains (c * 64) then c :: gatherOwn r hi n (c + 1) else []

/-- Chunks that this module comes to hold are written at `OUT`, and sent on in every stage after `done` unless the reduction has
been abandoned. -/
def State.gatherTake (s : State) (id : Nat) (d : GradDesc) (done : Nat) (l : List (Nat × List Byte)) : State :=
  match l with
  | [] => s
  | (c, _) :: _ =>
    let data := l.flatMap (·.2)
    let w := s.writeMem 7 (d.out + d.gatherBytes * 128 * c) data
    let s1 := w.2.mapRed id (fun r => { (r.note w.1) with held := r.held ++ l.map (·.1) })
    if ((s1.red id).map (·.abandoned)).getD true then s1 else s1.gatherForward id d done c l.length data

/-- The next packet of the own shard: copied into `OUT`, and sent to every ring. -/
def State.gatherSendOwn (s : State) (id : Nat) : State :=
  match s.red id with
  | none => s
  | some r =>
    let d := r.d
    let h := s.shard d
    match (List.range (h.2 - h.1)).find? (fun i => !r.sent.contains ((h.1 + i) * 64)) with
    | none => s
    | some i =>
      let x := s.readChunks (d.ownAt h.1) (gatherOwn r h.2 d.gatherRun (h.1 + i))
      (x.2.2.mapRed id (fun r1 => { (r1.note (failOf x.2.1)) with
        sent := r1.sent ++ (x.1.map (·.1) ++ (x.2.1.map (·.1)).toList).map (· * 64) })).gatherTake id d 0 x.1

/-- GRD_CHUNK_SEND: an engine of reduction `red` sends its next packet. A raw one goes to the destination whose turn it is: `dst`, its
coordinate on the first stage dimension, which a gather does not name. Log entry 3 applies (DESIGN CHOICE). Log entry 71 applies
(DESIGN CHOICE). -/
def execGrdChunkSend (red dst : Nat) (s : State) : Host.Outcome State Fault Refusal :=
  .next (
    let s1 := s.gradReadReady red
    match s1.red red with
    | none => s
    | some r =>
      if r.abandoned then s
      else if r.d.gather then (s1.gatherSendOwn red).gradSettle
      else if (s1.nextRaw r).all (fun x => x.1 = dst) then (s1.gradSendRaw red).gradSettle
      else s)

/-! ### Packets that arrive (R343) -/

/-- Payload bytes of a packet of this reduction. -/
def GradDesc.payload (d : GradDesc) (p : GradPkt) : Nat :=
  let l := if p.stage ≤ 1 then 1 else d.expLen
  let es := (List.range p.chunks).foldl (fun n i => n + d.elems (p.chunk0 + i)) 0
  if p.op = 0x22 then p.chunks * (4 * l + 8) else if p.op = 0x23 then d.gatherBytes * es else 4 * l * es

/-- The header is as Table 12-6 and the payload as R342 say, as far as the packet alone shows. -/
def GradPkt.fieldsOk (p : GradPkt) : Bool :=
  p.reserved = 0 && decide (1 ≤ p.stage) && decide (p.stage ≤ 3) && decide (1 ≤ p.chunks) && decide (p.chunks ≤ (if p.op ≤ 0x21 then 4 else 16))
    && decide (1 ≤ p.data.length) && decide (p.data.length ≤ 2048) && decide (1 ≤ p.redId)
    && (if p.op = 0x20 then p.stage = 1 && !p.secondary && p.cuts = 0
        else if p.op = 0x21 then decide (2 ≤ p.stage) && !p.secondary
        else if p.op = 0x22 then p.secondary && p.weights.all (fun x => decide (x = 0)) && p.counts.all (fun x => decide (x = 0)) && p.cuts = 0
        else !p.secondary && p.weights.all (fun x => decide (x = 0)) && p.counts.all (fun x => decide (x = 0)) && p.cuts = 0)

/-- What Table 12-8 says before any chunk is looked at. Log entry 73 applies (DESIGN CHOICE). -/
def State.gradJudge (s : State) (h : PktHdr) (p : GradPkt) : Status :=
  if !h.opOk || !h.fieldsOk || !p.fieldsOk then .verify
  else
    match s.red p.redId with
    | none => .notReady
    | some r =>
      let d := r.d
      let n := s.lastStage d
      if d.step < p.step then .notReady
      else if d.step = p.step && (decide (d.most p < p.chunks) || decide (p.data.length ≠ d.payload p)) then .verify
      else if d.tag ≠ h.tag then .denied
      else if p.step < d.step then .stale
      else if (p.op = 0x23) ≠ d.gather || decide (n < p.stage) || (p.secondary && !d.dual) then .bounds
      else .ok

/-- Answer a gradient packet: ACK with OK, NOT_READY, STALE or DEADLINE, else ERROR; every refusal is logged. -/
def State.gradAnswerTo (s : State) (h : PktHdr) (st : Status) : State :=
  let s1 := if st = .ok then s else s.log 13 st (.remote h.src) h.addr
  s1.answerTo h (if st = .ok || st = .notReady || st = .stale || st = .deadline then 4 else 6) st []

/-- A packet for this module whose CRC fails: discarded without a response, counted and logged (R317).
Log entry 67 applies (DEDUCED). -/
def State.crcDiscard (s : State) (h : PktHdr) : State :=
  (s.log 12 .integrity (.remote h.src) h.addr).bump Fld.FAB_ERRORS_REFUSED Fld.FAB_ERRORS_REFUSED_SAT 1

/-- A gradient packet arrives and is judged; `f` applies it. -/
def State.gradPacket (s : State) (h : PktHdr) (p : GradPkt) (f : State → Status × State) : State :=
  s.arriving h.port (fun s0 =>
    let s1 := s0.owe (some h.port) (vcOf 3 h.sub) (packetSlots p.data.length)
    if !h.crcOk then s1.crcDiscard h
    else
      let st := s1.gradJudge h p
      if st ≠ .ok then s1.gradAnswerTo h st
      else
        let r := f s1
        (r.2.gradAnswerTo h r.1).gradSettle)

/-- GRD_RAW. -/
def execGrdRaw (h : PktHdr) (p : GradPkt) (s : State) : Host.Outcome State Fault Refusal :=
  .next (s.gradPacket h { p with op := 0x20 } (fun s1 => s1.gradApply p.redId { p with op := 0x20 }))

/-- GRD_PART. -/
def execGrdPart (h : PktHdr) (p : GradPkt) (s : State) : Host.Outcome State Fault Refusal :=
  .next (s.gradPacket h { p with op := 0x21 } (fun s1 => s1.gradApply p.redId { p with op := 0x21 }))

/-- GRD_SAMPLE. -/
def execGrdSample (h : PktHdr) (p : GradPkt) (s : State) : Host.Outcome State Fault Refusal :=
  .next (s.gradPacket h { p with op := 0x22 } (fun s1 => s1.gradApply p.redId { p with op := 0x22 }))

/-- Does a gathered chunk reach this module at stage `st`? It has left its owner along the dimensions of the stages up to
`st`, and no other. Log entry 76 applies (DEDUCED). -/
def State.gatherReaches (s : State) (d : GradDesc) (st c : Nat) : Bool :=
  let ds := s.stageDims d.dims
  let o := s.ownerCoords d c
  decide (c < d.chunks) && (ds.take (ds.length - st)).all (fun i => decide (nth 0 o i = nth 0 s.coords i))
    && ((ds[ds.length - st]?).map (fun i => decide (nth 0 o i ≠ nth 0 s.coords i))).getD false

/-- Consecutive chunks in runs. -/
def splitRuns {α : Type} : List (Nat × α) → List (List (Nat × α))
  | [] => []
  | x :: l =>
    match splitRuns l with
    | (y :: r) :: rs => if y.1 = x.1 + 1 then (x :: y :: r) :: rs else [x] :: (y :: r) :: rs
    | rs => [x] :: rs

/-- Gathered chunks are written at `OUT` and those not yet held sent on (R346); a chunk that does not reach this module is
answered BOUNDS, and the others are applied (R343). -/
def State.gatherApply (p : GradPkt) (s : State) : Status × State :=
  match s.red p.redId with
  | none => (.notReady, s)
  | some r =>
    let d := r.d
    let cs := tab p.chunks (fun i => (p.chunk0 + i, (p.data.drop (d.gatherBytes * 128 * i)).take (d.gatherBytes * d.elems (p.chunk0 + i))))
    let good := cs.filter (fun x => s.gatherReaches d p.stage x.1 && !r.held.contains x.1)
    (Status.when (!cs.all (fun x => s.gatherReaches d p.stage x.1)) .bounds,
      (splitRuns good).foldl (fun a l => a.gatherTake p.redId d p.stage l) s)

/-- GRD_GATHER. -/
def execGrdGather (h : PktHdr) (p : GradPkt) (s : State) : Host.Outcome State Fault Refusal :=
  .next (s.gradPacket h { p with op := 0x23 } (State.gatherApply { p with op := 0x23 }))

/-! ### Answers to sends (R343) -/

/-- A send of a reduction is answered, or has timed out. Log entry 72 applies (DEDUCED). Log entry 73 applies (DESIGN CHOICE). -/
def State.gradAnswer (s : State) (id : Nat) (t : Trans) (st : Status) : State :=
  match s.red id, t.grad with
  | some r, some p =>
    let stay := decide (st = .notReady) && !r.abandoned
    if stay then
      s.setRed id { r with resend := r.resend ++ [⟨[t.dest], t.into, p⟩] }
    else
      let late := decide (st = .stale) || decide (st = .deadline)
      let r1 := if st = .notReady then r else { (r.note st) with sendsLate := r.sendsLate + b2n late }
      (s.setRed id r1).gradFree id p |>.gradSettle
  | _, _ => s

/-- The packets of a raw packet or sample read again from `SRC` (R333), and the status of those that could not be read: they alone
stay unsent (R334). -/
def State.gradReread (s : State) (d : GradDesc) (piece : Nat) (p : GradPkt) : List GradPkt × Status × State :=
  if p.op = 0x20 then
    let x := State.readRuns (d.pieceAt piece) p.chunks ((List.range p.chunks).map (fun i => p.chunk0 + i)) s
    (x.1.map (fun l => { d.rawPkt l with stage := p.stage }), x.2.1, x.2.2)
  else if p.op = 0x22 && decide (p.stage ≤ 1) then
    let x := s.readChunks (d.pieceAt piece) [d.sampleChunk p.chunk0]
    (x.1.filterMap d.samplePkt, failOf x.2.1, x.2.2)
  else ([p], .ok, s)

/-- GRD_RESEND: the oldest packet answered NOT_READY is sent again. Log entry 72 applies (DEDUCED). -/
def execGrdResend (red : Nat) (s : State) : Host.Outcome State Fault Refusal :=
  .next (
    match s.red red with
    | none => s
    | some r =>
      match r.resend with
      | [] => s
      | x :: l =>
        let y := (s.setRed red { r with resend := l }).gradReread r.d x.piece x.pkt
        let s1 := y.2.2.mapRed red (fun r1 => r1.note y.2.1)
        y.1.foldl (fun a p =>
          (a.gradInject red (nth 0 x.dest 0) x.piece p).bump Fld.GRD_COUNTS_RESENDS Fld.GRD_COUNTS_RESEND_SAT 1) s1)

/-! ### Deadlines and completion (R337, R347) -/

/-- GRD_STAGE_DEADLINE: `STAGE_NS` have passed since the first arrival of an open chunk state.
Log entry 75 applies (DEDUCED). -/
def execGrdStageDeadline (red : Nat) (sec : Bool) (stage : Fin 4) (chunk : Nat) (s : State) : Host.Outcome State Fault Refusal :=
  .next (if stage.val = 0 then s else (s.gradClose false red sec stage.val chunk).gradSettle)

/-- No send of a reduction waits for its answer. -/
def State.gradIdle (s : State) (red : Nat) : Bool :=
  !(s.fab.trans.any (fun t => t.2.owner = .grad red)) && !(s.fab.backlog.any (fun t => t.owner = .grad red))

/-- Is a reduction complete at this module (R346, R347)? -/
def State.gradDone (s : State) (red : Nat) (r : Reduction) : Bool :=
  let h := s.shard r.d
  s.gradIdle red && (r.abandoned ||
    (r.resend.isEmpty && r.waiting.isEmpty && r.parts.isEmpty &&
      (if r.d.gather then decide (r.held.length = r.d.chunks)
       else decide (r.sent.length = r.d.chunks * r.d.pieces) && r.states.isEmpty && decide (r.written.length = h.2 - h.1)
         && (List.range (h.2 - h.1)).all (fun i => match r.d.sampleOf (h.1 + i) with
           | none => true
           | some j => r.judged.contains j))))

/-- Does a packet of a reduction wait at a port? -/
def State.gradQueued (s : State) (reqId : Nat) : Bool :=
  s.fab.ports.any (fun p => p.2.queue.any (fun w => w.from'.isNone && decide (0x20 ≤ w.pkt.op) && w.pkt.reqId = reqId))

/-- The packets of a reduction that have not left are never sent, and their transactions end (R337). -/
def State.abandonSends (s : State) (id : Nat) : State :=
  let gone := (s.fab.trans.filter (fun t => decide (t.2.owner = .grad id) && (!t.2.sent || s.gradQueued t.1))).map (·.1)
  let out := fun (w : Waiting) => w.from'.isNone && decide (0x20 ≤ w.pkt.op) && gone.contains w.pkt.reqId
  let s1 := (List.range 36).foldl (fun a p => a.setPort p { a.port p with queue := (a.port p).queue.filter (fun w => !out w) }) s
  gone.foldl (fun a i => a.freeTrans i) (s1.setFab { s1.fab with backlog := s1.fab.backlog.filter (fun t => decide (t.owner ≠ .grad id)) })

/-- The abandoned rest of a REDUCE: every open state closes and sends nothing, owned chunks that no state held are written with
weight 0, and samples not judged are skipped (R337, R345). -/
def State.closeAll (s : State) (red : Nat) (r : Reduction) : State :=
  let s2 := r.states.foldl (fun a x => a.gradClose true red (decide (x.1 % 2 = 1)) (x.1 / 2 % 4) (x.1 / 8)) s
  let s3 := s2.mapRed red (fun r1 => { r1 with states := [] })
  let h := s.shard r.d
  let s4 := (List.range (h.2 - h.1)).foldl (fun a i =>
    let c := h.1 + i
    if ((a.red red).map (fun r1 => r1.written.contains c)).getD true then a else a.gradDrain red c {}) s3
  let samples := if r.d.dual then (List.range (h.2 - h.1)).filterMap (fun i => r.d.sampleOf (h.1 + i)) else []
  s4.mapRed red (fun r1 => { r1 with skipped := r1.skipped + (samples.filter (fun j => !r1.judged.contains j)).length })

/-- GRD_TOTAL_TIMEOUT: no packet is sent any more; the states of a REDUCE close, and a GATHER that is not complete is TIMEOUT
(R337, R346). Log entry 75 applies (DEDUCED). -/
def execGrdTotalTimeout (red : Nat) (s : State) : Host.Outcome State Fault Refusal :=
  .next (
    match s.red red with
    | none => s
    | some r =>
      if r.abandoned then s
      else
        let r1 := r.note (Status.when (r.d.gather && !s.gradDone red r) .timeout)
        let s1 := (s.setRed red { r1 with abandoned := true, resend := [], waiting := [], parts := [] }).abandonSends red
        if r.d.gather then s1 else s1.closeAll red r)

/-- GRD_COMPLETE: the report is written, then the completion posted. -/
def execGrdComplete (red : Nat) (s : State) : Host.Outcome State Fault Refusal :=
  .next (
    match s.red red with
    | none => s
    | some r =>
      if !s.gradDone red r then s
      else
        let w := s.writeMem 7 r.d.report (s.gradReport r)
        let s1 := (w.2.withUnits { w.2.units with grd := SMap.erase w.2.units.grd red }).showGrd
        s1.event { status := r.status, arith := r.arith, kind := .reduction, index := r.d.redId })

end Sys2Proof.Machine
end

