-- ==== Sys2Proof/Machine/Rings.lean ====
section
/-! DEFINITION. Rings and consists (15_host_ethernet.md, R409 to R413): which entries a QP takes from its ring, and what their
bytes alone say. -/

namespace Sys2Proof.Machine

/-! ### A QP's page -/

/-- Window of a data QP, and entries of its ring. -/
def State.qpBase (s : State) (n : Nat) : Nat := s.fld (Fld.HST_QP_W6_BASE_4K n) * 4096
def State.qpSize (s : State) (n : Nat) : Nat := s.fld (Fld.HST_QP_W7_SIZE_4K n) * 4096
def State.ringSize (s : State) (n : Nat) : Nat := 2 ^ s.fld (Fld.HST_QP_W0_RING_LOG2 n)
def State.qpTenant (s : State) (n : Nat) : Nat := s.fld (Fld.HST_QP_W0_TENANT n)

/-- Does the window hold [a, a + k)? -/
def State.inWindow (s : State) (n a k : Nat) : Bool := within a k (s.qpBase n) (s.qpSize n)

/-- `CONSUMED` and `PRODUCED`, mod 2^32. -/
def State.consumed (s : State) (n : Nat) : Nat := s.fld (Fld.HST_QP_STATUS_CONSUMED n)
def State.produced (s : State) (n : Nat) : Nat := s.fld (Fld.HST_DOORBELL_PRODUCED n)

def State.setConsumed (s : State) (n v : Nat) : State :=
  (s.setFld (Fld.HST_QP_STATUS_CONSUMED n) (v % 2 ^ 32)).setFld (Fld.HST_DOORBELL_CONSUMED n) (v % 2 ^ 32)

/-- Entries posted and not yet read. -/
def State.posted (s : State) (n : Nat) : Nat := (s.produced n + 2 ^ 32 - s.consumed n) % 2 ^ 32

/-! ### Entries (Tables 15-2 and 15-3) -/

/-- What an entry's bytes alone show: `i` is its place in its consist. Log entry 88 applies (DESIGN CHOICE). -/
def entryCheck (w i : Nat) : Status :=
  let op := byteField w 0 1
  let fl := byteField w 1 1
  let len := byteField w 4 4
  let job := decide (op = 0x10)
  let copy := decide (1 ≤ op) && decide (op ≤ 3)
  let la := byteField w 16 5
  let src := bits (byteField w 24 8) 39 0
  let bad := !(op = 0 || copy || job) || decide (4 ≤ fl) || (bit fl 1 && decide (i ≠ 0)) || decide (256 ≤ i)
    || byteField w 21 3 ≠ 0 || byteField w 40 24 ≠ 0
    || (!job && (byteField w 2 1 ≠ 0 || byteField w 3 1 ≠ 0 || byteField w 36 4 ≠ 0))
    || (job && (decide (4 < byteField w 2 1) || bit fl 0 || decide (len < 64) || decide (2 ^ 26 < len) || decide (la % 4096 ≠ 0)))
    || (copy && (len = 0 || decide (2 ^ 31 < len))) || (op = 0 && decide (len ≠ 0))
    || (op = 3 && overlaps la len src len)
  Status.when bad .verify

/-- The entry of 64 bytes. -/
def Entry.ofNum (w i : Nat) : Entry :=
  { op := byteField w 0 1, chain := bit (byteField w 1 1) 0, fence := bit (byteField w 1 1) 1, cls := byteField w 2 1,
    tenant := byteField w 3 1, length := byteField w 4 4, user := byteField w 8 8, localAddr := byteField w 16 5,
    remote := byteField w 24 8, rkey := byteField w 32 4, jobId := byteField w 36 4, check := entryCheck w i }

/-- Local ranges of an entry. -/
def Entry.ranges (e : Entry) : List (Nat × Nat) :=
  if e.op = 0 then []
  else if e.op = 3 then [(e.localAddr, e.length), (bits e.remote 39 0, e.length)]
  else [(e.localAddr, e.length)]

/-- Address of the entry at ring index i of QP n. -/
def State.entryAt (s : State) (n i : Nat) : Nat := s.qpBase n + 64 * (i % s.ringSize n)

/-- Entries from ring index `first` on, up to one without `CHAIN`, one that cannot be read, or the 257th; none where the run is not yet posted
whole. Log entry 88 applies (DESIGN CHOICE). -/
def State.readRun (s : State) (n first : Nat) : Nat → Nat → Option (List Entry)
  | 0, _ => none
  | left + 1, i =>
    let st := s.readStatus (s.entryAt n (first + i)) 64
    let e := if st = .ok then Entry.ofNum (s.num (s.entryAt n (first + i)) 64) i else { Entry.ofNum 0 i with check := st }
    if e.chain && decide (i < 256) then (s.readRun n first left (i + 1)).map (e :: ·) else some [e]

/-- The next consist of QP n, where it may begin: fewer than 16 are in progress, it is posted whole, and a FENCE in its first
entry finds every earlier one done. Log entry 88 applies (DESIGN CHOICE). -/
def State.nextConsist (s : State) (n : Nat) : Option Consist :=
  let q := s.qp n
  if s.qpState n ≠ 1 || decide (16 ≤ q.consists.length) then none
  else
    match s.readRun n (s.consumed n) (s.posted n) 0 with
    | none => none
    | some l =>
      if (l.head?.map (·.fence)).getD false && !(q.consists.isEmpty && q.held.isEmpty) then none
      else some ⟨s.consumed n, l.map (fun e => (e, Progress.waiting))⟩

/-- The entries of a consist are read (R284, R285). -/
def State.fetchRun (s : State) (n : Nat) (c : Consist) : State :=
  (List.range c.entries.length).foldl (fun t i => (t.readCheck 4 (.qp (dataQpn n)) (t.entryAt n (c.first + i)) 64).2) s

/-- Begin consists in ring order while one may. -/
def State.takeConsists (s : State) (n : Nat) : Nat → State
  | 0 => s
  | k + 1 =>
    match s.nextConsist n with
    | none => s
    | some c =>
      let q := s.qp n
      (((s.fetchRun n c).setQp n { q with consists := q.consists ++ [c] }).setConsumed n (c.first + c.entries.length)).takeConsists n k

/-- Consists of QP n that may begin now do: at most 16. -/
def State.advance (s : State) (n : Nat) : State := s.takeConsists n 16

end Sys2Proof.Machine
end

