-- ==== Sys2Proof/Machine/Random.lean ====
section
/-! DEFINITION. The random-number unit (R244 to R254): uniform and normal variates of named streams, and token
sampling. -/

namespace Sys2Proof.Machine

/-! ### Draws into lanes (R245, R246) -/

/-- Bits of FP32 for `m × 2^-24` with m < 2^24, exact; +0 for zero (R247). -/
def unit24 (m : Nat) : Nat := encodeFin 0 false m (-24)

/-- UNIFORM and UNIFORM_OPEN of a word (Table 09-3). -/
def uniform (w : Nat) : Nat := unit24 (bits w 31 8)
def uniformOpen (w : Nat) : Nat := unit24 (2 * bits w 31 9 + 1)

/-- What a draw writes from a lane stream: the names of the words it uses and the lane values it gives VD and VD + 1. -/
structure Draw where
  words : Nat
  first : (Nat → Nat) → Nat
  second : Option ((Nat → Nat) → Nat)

/-- Why a draw of `n` words faults: a name with ITEM outside a nest body, or WORD_SREG above 16 bits, with VERIFY; a word
index above 65,535 with BOUNDS; the lowest (R18, R238, R245). -/
def State.drawStatus (s : State) (t : Site) (o : RngOps) (n : Nat) : Status :=
  let k := ((s.ctx t).sreg o.wordSreg).toNat
  Status.lowest [Status.when (s.streamName t o.nameReg).isNone .verify, Status.when (decide (65535 < k)) .verify,
    Status.when (decide (65535 < k % 65536 + n - 1)) .bounds]

/-- The effect of RNG operations 0 to 4: each active unmasked lane draws from its own lane stream. -/
def rngEff (d : Draw) (t : Site) (o : RngOps) (s : State) : Eff :=
  let c := s.ctx t
  let st := s.drawStatus t o d.words
  if st ≠ .ok then .fault st (s.pcAddr t) s
  else
    let kw := (c.sreg o.wordSreg).toNat
    let nm := (s.streamName t o.nameReg).getD ⟨0, 0, 0⟩
    let ls := s.lanes t o.mask
    let word := fun l i => nm.word (128 * o.subBase + l) (kw + i)
    let c1 := c.setLanes o.vd ls (fun l => BitVec.ofNat 32 (d.first (word l)))
    .done (s.setCtx t (match d.second with
      | none => c1
      | some g => c1.setLanes (o.vd + 1) ls (fun l => BitVec.ofNat 32 (g (word l)))))

/-- RNG BITS. -/
def drawBits : Draw := ⟨1, fun w => w 0, none⟩

def execRngBits (t : Site) (h : Hdr) (o : RngOps) (s : State) : Host.Outcome State Fault Refusal :=
  .next (s.issueAs t h (plainFlight t h) true (o.ok 0) (rngEff drawBits t o))

/-- RNG UNIFORM. -/
def drawUniform : Draw := ⟨1, fun w => uniform (w 0), none⟩

def execRngUniform (t : Site) (h : Hdr) (o : RngOps) (s : State) : Host.Outcome State Fault Refusal :=
  .next (s.issueAs t h (plainFlight t h) true (o.ok 1) (rngEff drawUniform t o))

/-- RNG UNIFORM_OPEN. -/
def drawUniformOpen : Draw := ⟨1, fun w => uniformOpen (w 0), none⟩

def execRngUniformOpen (t : Site) (h : Hdr) (o : RngOps) (s : State) : Host.Outcome State Fault Refusal :=
  .next (s.issueAs t h (plainFlight t h) true (o.ok 2) (rngEff drawUniformOpen t o))

/-! ### Normal variates (R248, R249) -/

/-- Is the half-normal distribution function at `v × 2^e` at most `p` (both fixed-point)? -/
def halfNormalAtMost (v : Nat) (e : Int) (p : Int) : Bool :=
  decide (erfN 120 (fdivFx (toFx false v e) sqrt2Fx) ≤ p)

/-- The largest FP32 encoding at or below the quantile at `p`, by bits n − 1 to 0 of the encoding. -/
def quantileBits (p : Int) : Nat → Nat → Nat
  | 0, r => r
  | n + 1, r =>
    let c := r + 2 ^ n
    let ok := match decodeElem 0 c with
      | .fin _ m e => decide (c < 0x41000000) && halfNormalAtMost m e p
      | _ => false
    quantileBits p n (if ok then c else r)

/-- The quantile at `p` rounded to FP32 under RNE; the halfway point is never met. -/
def quantile32 (p : Int) : Nat :=
  let c := quantileBits p 31 0
  match decodeElem 0 c with
  | .fin _ m e => if halfNormalAtMost (2 * m + 1) (e - 1) p then c + 1 else c
  | _ => c

/-- T[j] of R248: the half-normal quantile at j / 4,096, and at 1 − 2^-21 for j = 4,096.
Log entry 38 applies (DESIGN CHOICE). -/
def normalTable (j : Nat) : Nat :=
  if j = 0 then 0 else if j = 4096 then quantile32 (fxOne - fxOne / 2 ^ 21) else quantile32 ((j : Int) * fxOne / 4096)

/-- An FP32 encoding of a finite non-negative number as an integer of weight 2^-149. -/
def units149 (c : Nat) : Nat :=
  match decodeElem 0 c with
  | .fin _ m e => (shiftInt m (e + 149)).toNat
  | _ => 0

/-- NORMAL_FAST of a word: T[j] + (T[j+1] − T[j]) × f × 2^-19 rounded once (R248). -/
def normalFast (w : Nat) : Nat :=
  let j := bits w 30 19
  let f := bits w 18 0
  let a := units149 (normalTable j)
  let b := units149 (normalTable (j + 1))
  b2n (bit w 31) * 2 ^ 31 + (nearest false (a * 2 ^ 19 + (b - a) * f) (-168) false).bits

/-- RNG NORMAL_FAST; a zero magnitude is +0 (R247). -/
def drawNormalFast : Draw := ⟨1, fun w => if normalFast (w 0) % 2 ^ 31 = 0 then 0 else normalFast (w 0), none⟩

def execRngNormalFast (t : Site) (h : Hdr) (o : RngOps) (s : State) : Host.Outcome State Fault Refusal :=
  .next (s.issueAs t h (plainFlight t h) true (o.ok 3) (rngEff drawNormalFast t o))

/-- A native function of an FP32 number. -/
def nativeFn (gen f x : Nat) : Nat := (sfnValue ⟨gen, 0, f⟩ (decodeElem 0 x)).bits

/-- Product of two FP32 numbers rounded once under RNE; +0 for zero (R247). -/
def mulRne (a b : Nat) : Nat :=
  let r := (vMul 0 (BitVec.ofNat 32 a) (BitVec.ofNat 32 b) 0).bits
  if r % 2 ^ 31 = 0 then 0 else r

/-- ρ = SQRT(−2 × LN(u1)), with u1 from a word (R249). -/
def normalRadius (gen w : Nat) : Nat := nativeFn gen 0x09 (mulRne 0xc0000000 (nativeFn gen 0x03 (uniformOpen w)))

/-- 2 × u2. -/
def twiceU2 (w : Nat) : Nat := encodeFin 0 false (bits w 31 8) (-23)

/-- RNG NORMAL_PRECISE: ρ × COSPI(2 u2) and ρ × SINPI(2 u2). Log entry 38 applies (DESIGN CHOICE). -/
def drawNormalPrecise (gen : Nat) : Draw :=
  ⟨2, fun w => mulRne (normalRadius gen (w 0)) (nativeFn gen 0x0b (twiceU2 (w 1))),
    some (fun w => mulRne (normalRadius gen (w 0)) (nativeFn gen 0x0a (twiceU2 (w 1))))⟩

def execRngNormalPrecise (t : Site) (h : Hdr) (o : RngOps) (s : State) : Host.Outcome State Fault Refusal :=
  .next (s.issueAs t h (plainFlight t h) true (o.ok 4) (rngEff (drawNormalPrecise s.sfuGen) t o))

/-! ### Token sampling (R251 to R254) -/

/-- A sampling descriptor (Table 09-5). -/
structure SampleDesc where
  fmt : Nat
  greedy : Bool
  v : Nat
  topk : Nat
  scale : Nat
  topp : Nat

/-- The descriptor of a 64-byte record; none where R251 refuses it. -/
def SampleDesc.ofNum (w : Nat) : Option SampleDesc :=
  let v := byteField w 4 4
  let topk := byteField w 8 2
  let scale := byteField w 12 4
  let topp := byteField w 16 4
  if byteField w 0 1 = 1 && decide (byteField w 1 1 ≤ 2) && decide (byteField w 2 1 ≤ 1) && byteField w 3 1 = 0
      && decide (1 ≤ v) && decide (v ≤ 2 ^ 20) && decide (topk ≤ 1024) && byteField w 10 2 = 0
      && decide (2 ^ 23 ≤ scale) && decide (scale < infCode) && decide (2 ^ 23 ≤ topp) && decide (topp ≤ one32)
      && byteField w 20 44 = 0 && !(decide (topp < one32) && topk = 0) then
    some ⟨byteField w 1 1, byteField w 2 1 = 1, v, topk, scale, topp⟩
  else none

/-- Element bytes of a logit. -/
def SampleDesc.eb (d : SampleDesc) : Nat := if d.fmt = 0 then 4 else 2

/-- A candidate: its index and its score. -/
abbrev Cand := Nat × Nat

/-- A score as an integer that orders finite FP32 numbers; the zeros are equal. -/
def scoreKey (c : Nat) : Int := if c < 2 ^ 31 then (c : Int) else (2 ^ 31 : Nat) - (c : Int)

/-- Insert a candidate behind those with a score at least its own, keeping at most `k`. -/
def insertCand (k : Nat) (x : Cand) : List Cand → List Cand
  | [] => [x].take k
  | y :: l => if scoreKey y.2 < scoreKey x.2 then (x :: y :: l).take k else (y :: insertCand (k - 1) x l).take k

/-- Candidates in order: by score and index under TOPK or GREEDY, else by index; cut to TOPK (R252). -/
def orderCands (d : SampleDesc) (l : List Cand) : List Cand :=
  if d.greedy || decide (d.topk ≠ 0) then
    let k := if d.topk ≠ 0 then d.topk else 1
    l.foldl (fun acc x => insertCand k x acc) []
  else l

/-- Score of a logit with its flags: x × scale rounded once. -/
def scoreOf (d : SampleDesc) (x : Nat) : Conv :=
  match mulVal (decodeElem d.fmt x) (decodeElem 0 d.scale) with
  | (.nan, f) => nanConv f
  | (.inf s, _) => ⟨infBits 0 s, 0⟩
  | (.fin s m e, _) => roundFloat 0 0 s m e 0 e (fun _ => 0)

/-- What a sampling decides: the record of Table 09-6 and the flags. -/
structure Sampled where
  index : Nat
  score : Nat
  prob : Nat
  kept : Nat
  flags : Nat

/-- The empty record. -/
def Sampled.empty (fl : Nat) : Sampled := ⟨0xffffffff, 0xff800000, 0, 0, fl⟩

/-- Running sums of a list. -/
def prefixSums : Nat → List Nat → List Nat
  | _, [] => []
  | a, x :: l => (a + x) :: prefixSums (a + x) l

/-- TOPP × 2^150. -/
def toppUnits (d : SampleDesc) : Nat := 2 * units149 d.topp

/-- The sampler of R252 on a row of logits, with the generation of the coefficient tables and 64 random bits.
Log entry 37 applies (DEDUCED). -/
def sampleRow (d : SampleDesc) (gen : Nat) (row : List Nat) (rnd : Nat) : Sampled :=
  let sc := row.map (scoreOf d)
  let ts := sc.mapIdx (fun i c => (i, c.bits))
  let infs := ts.filter (fun c => decide (c.2 = infCode))
  let fins := ts.filter (fun c => decide (c.2 % 2 ^ 31 < infCode))
  let top := fins.foldl (fun m c => if scoreKey m < scoreKey c.2 then c.2 else m) ((fins.map (·.2)).headD 0)
  let a := anchLane (BitVec.ofNat 32 top)
  let weight := fun (c : Cand) =>
    if infs.isEmpty then exp2aLane gen (BitVec.ofNat 32 c.2) (BitVec.ofNat 32 a.bits) else (⟨one32, 0⟩ : Conv)
  let fl := orAll (sc.map (·.flags))
    ||| (if infs.isEmpty && !fins.isEmpty then a.flags ||| orAll (fins.map (fun c => (weight c).flags)) else 0)
  match orderCands d (if infs.isEmpty then fins else infs) with
  | [] => .empty fl
  | c0 :: cs =>
    if d.greedy then ⟨c0.1, c0.2, one32, 1, fl⟩
    else
      let cand := c0 :: cs
      let w := cand.map (fun c => units149 (weight c).bits)
      let ps := prefixSums 0 w
      let z := ps.getLastD 0
      let n := ((ps.findIdx (fun p => decide (toppUnits d * z ≤ p * 2 ^ 150))) + 1)
      let zp := nth 0 ps (n - 1)
      let j := ps.findIdx (fun p => decide (rnd * zp < p * 2 ^ 64))
      let c := nth c0 cand j
      let num := nth 0 w j * 2 ^ 200
      let pr := nearest false (num / zp) (-200) (decide (num % zp ≠ 0))
      ⟨c.1, c.2, pr.bits, n, fl ||| pr.flags⟩

/-- The 16-byte record. -/
def Sampled.record (r : Sampled) : List Byte :=
  leBytes 4 r.index ++ leBytes 4 r.score ++ leBytes 4 r.prob ++ leBytes 4 r.kept

/-- Split a list of bytes into elements of `b` bytes. -/
def elemsOf (b n w : Nat) : List Nat := tab n (fun i => bits w (8 * b * (i + 1) - 1) (8 * b * i))

/-- Status of a SAMPLE's row or record: on this module, aligned, and reachable. -/
def State.sampleReach (s : State) (core fa al n : Nat) (kinds : List Nat) : Status :=
  Status.lowest [Status.when (decide (fa % al ≠ 0)) .misaligned, Status.when (decide (fabModule fa ≠ s.moduleId)) .denied,
    if fabModule fa = s.moduleId then s.jobAccess core kinds (fabLocal fa) n else .ok]

/-- Status of a SAMPLE's record: as of its row, and in a core store a JOB region (R251). -/
def State.recordReach (s : State) (core fa : Nat) : Status :=
  let st := s.sampleReach core fa 16 16 [bufOut, bufInout]
  let o := (fabLocal fa - csBase) % csSize
  if st = .ok && isCs (fabLocal fa) && !s.coreRegions.any (fun r => r.cls = 1 && within o 16 (r.base64 * 65536) (r.size64 * 65536)) then
    .denied
  else st

/-- The effect of SAMPLE: one token of a row, its record and the counts (R251 to R254). Log entry 37 applies (DEDUCED). -/
def sampleEff (t : Site) (o : RngOps) (s : State) : Eff :=
  let c := s.ctx t
  let desc := csAddr t.core o.descOff
  let dst := s.csReach o.descOff 64
  let row := regAddr (c.sreg o.rowSreg)
  let out := regAddr (c.sreg o.outSreg)
  let ost := (s.recordReach t.core out, fabLocal out)
  match (if dst = .ok then SampleDesc.ofNum (s.num desc 64) else none) with
  | none =>
    let bad := firstLowest [(if dst = .ok then .verify else dst, desc), ost]
    .fault bad.1 bad.2 s
  | some d =>
      let nm := s.streamName t o.nameReg
      let bad := firstLowest [(Status.when (!d.greedy && (o.nameReg = 0 || nm.isNone)) .verify, s.pcAddr t),
        (s.sampleReach t.core row d.eb (d.v * d.eb) readKinds, fabLocal row), ost]
      if bad.1 ≠ .ok then .fault bad.1 bad.2 s
      else
        let rd := s.jobRead t.core (fabLocal row) (d.v * d.eb)
        if rd.1 ≠ .ok then .fault rd.1 (fabLocal row) rd.2.2
        else
          let rnd := (nm.map (fun x => x.take 0 64)).getD 0
          let r := sampleRow d s.sfuGen (elemsOf d.eb d.v (leNat rd.2.1)) rnd
          let wr := rd.2.2.jobWrite (fabLocal out) r.record
          if wr.1 ≠ .ok then .fault wr.1 (fabLocal out) wr.2
          else
            let s1 := (wr.2.orFlags r.flags).bump Fld.RNG_COUNTS_SAMPLE_ROWS Fld.RNG_COUNTS_SAMPLE_SAT 1
            .done (if r.kept = 0 then s1.bump Fld.RNG_COUNTS_EMPTY_ROWS Fld.RNG_COUNTS_EMPTY_SAT 1 else s1)

/-- RNG SAMPLE. It moves data through the mesh port as a MOVE does, and no request halt follows one in flight (R255). -/
def execRngSample (t : Site) (h : Hdr) (o : RngOps) (s : State) : Host.Outcome State Fault Refusal :=
  .next (s.issueAs t h { plainFlight t h with isMove := true } true (o.ok 5) (sampleEff t o))

end Sys2Proof.Machine
end

