-- ==== Sys2Proof/Machine/Win.lean ====
section
/-! DEFINITION. Convolution (08_convolution_and_narrow_gauge.md, R209 to R229): feature maps, views, padding, halos, and
the WIN instruction: FETCH, MMA, WMAX, POOL and PUT. -/

namespace Sys2Proof.Machine

/-! ### The convolution descriptor (Tables 08-3 and 08-4) -/

/-- One axis: kernel, stride, dilation, padding before and after and its mode, view and upsampling factors, stored extent,
local stored part, box, nest level, output extent and local output part. -/
structure ConvAxis where
  k : Nat
  s : Nat
  d : Nat
  lo : Nat
  hi : Nat
  pad : Nat
  viewF : Nat
  upF : Nat
  ext : Nat
  part0 : Nat
  part : Nat
  box : Nat
  level : Nat
  out : Nat
  out0 : Nat
  outPart : Nat

/-- Where a map, a slab or an output lies: buffers, offsets and pitches. -/
structure MapAt where
  buf : Nat
  scaleBuf : Nat
  off : Nat
  scaleOff : Nat
  pos : Nat
  row : Nat
  frame : Nat

/-- A halo record: width, slab and gate. -/
structure Halo where
  width : Nat
  slab : MapAt
  gateBuf : Nat
  gateExpect : Nat

structure ConvDesc where
  inFmt : Nat
  wFmt : Nat
  outFmt : Nat
  view : Nat
  up : Nat
  pool : Nat
  ax : List ConvAxis
  c : Nat
  input : MapAt
  outC : Nat
  output : MapAt
  stagePitch : Nat
  gateBuf : Nat
  gateOff : Nat
  gateExpect : Nat
  halos : List Halo

/-- Axis i (0 T, 1 Y, 2 X) of a record. -/
def ConvAxis.ofNum (w i : Nat) : ConvAxis :=
  { k := byteField w (5 + i) 1, s := byteField w (8 + i) 1, d := byteField w (11 + i) 1, lo := byteField w (17 + 2 * i) 1,
    hi := byteField w (18 + 2 * i) 1, pad := bits (byteField w 3 1) (2 * i + 1) (2 * i),
    viewF := bits (byteField w 14 1) (2 * i + 1) (2 * i) + 1, upF := bits (byteField w 15 2) (3 * i + 2) (3 * i) + 1,
    ext := byteField w (36 + 4 * i) 4, part0 := byteField w (48 + 4 * i) 4, part := byteField w (60 + 4 * i) 4,
    box := byteField w (24 + i) 1, level := byteField w (27 + i) 1, out := byteField w (104 + 4 * i) 4,
    out0 := byteField w (116 + 4 * i) 4, outPart := byteField w (128 + 4 * i) 4 }

/-- Halo record i. -/
def Halo.ofNum (w i : Nat) : Halo :=
  let o := 192 + 32 * i
  ⟨byteField w o 2, ⟨byteField w (o + 2) 1, byteField w (o + 3) 1, byteField w (o + 4) 5, byteField w (o + 9) 5,
    byteField w 76 4, byteField w (o + 14) 5, byteField w (o + 19) 5⟩, byteField w (o + 24) 1, byteField w (o + 28) 4⟩

def ConvDesc.ofNum (w : Nat) : ConvDesc :=
  { inFmt := bits (byteField w 1 1) 3 0, wFmt := bits (byteField w 1 1) 7 4, outFmt := bits (byteField w 2 1) 3 0,
    view := bits (byteField w 2 1) 5 4, up := bits (byteField w 2 1) 7 6, pool := byteField w 4 1,
    ax := tab 3 (ConvAxis.ofNum w), c := byteField w 32 4,
    input := ⟨byteField w 72 1, byteField w 73 1, byteField w 90 5, byteField w 95 5, byteField w 76 4, byteField w 80 5, byteField w 85 5⟩,
    outC := byteField w 100 4,
    output := ⟨byteField w 74 1, byteField w 75 1, byteField w 154 5, byteField w 159 5, byteField w 140 4, byteField w 144 5, byteField w 149 5⟩,
    stagePitch := byteField w 164 4, gateBuf := byteField w 168 1, gateOff := byteField w 172 4, gateExpect := byteField w 176 8,
    halos := tab 6 (Halo.ofNum w) }

def axis0 : ConvAxis := ⟨1, 1, 1, 0, 0, 0, 1, 1, 1, 0, 1, 1, 255, 1, 0, 1⟩

/-- Axis i of a descriptor. -/
def ConvDesc.axis (d : ConvDesc) (i : Nat) : ConvAxis := nth axis0 d.ax i

/-- Product of a number of each axis. -/
def ConvDesc.prod (d : ConvDesc) (f : ConvAxis → Nat) : Nat := f (d.axis 0) * f (d.axis 1) * f (d.axis 2)

/-- M, TAPS, C′ and the logical K of a layer (R210, R213, R215). -/
def ConvDesc.m (d : ConvDesc) : Nat := d.prod (·.box)
def ConvDesc.taps (d : ConvDesc) : Nat := d.prod (·.k)
def ConvDesc.c' (d : ConvDesc) : Nat :=
  if d.view = 1 then d.c / d.prod (·.viewF) else if d.view = 2 then d.c * d.prod (·.viewF) else d.c
def ConvDesc.kLog (d : ConvDesc) : Nat := ceilDiv d.c' 32 * d.taps * 32

/-- Extent of an axis after the view, and after upsampling (R210). -/
def ConvDesc.viewExt (d : ConvDesc) (x : ConvAxis) : Nat :=
  if d.view = 1 then x.ext * x.viewF else if d.view = 2 then x.ext / x.viewF else x.ext
def ConvDesc.logExt (d : ConvDesc) (x : ConvAxis) : Nat :=
  let n := d.viewExt x
  if d.up = 1 then n * x.upF else if d.up = 2 then (n - 1) * x.upF + 1 else n

/-- Output extent of an axis (R211); none where it is below 1. -/
def ConvDesc.outExt (d : ConvDesc) (x : ConvAxis) : Option Nat :=
  let n := d.logExt x + x.lo + x.hi
  let r := x.d * (x.k - 1) + 1
  if n < r then none else some ((n - r) / x.s + 1)

/-! ### Checks of a descriptor (R221) -/

/-- Bytes of C channels of one position. -/
def chanBytes (fmt c : Nat) : Nat := if isMX fmt then ceilDiv c 32 * blockBytes fmt else ceilDiv (c * fmtBits fmt) 8

/-- Pitch rules of R209, and the exact reach inside the buffers, for extents t × h × w. -/
def MapAt.ok (m : MapAt) (bufs : List Buf) (kinds : List Nat) (fmt c t h w : Nat) : Bool :=
  let last := (t - 1) * m.frame + (h - 1) * m.row + (w - 1) * m.pos
  let inBuf := fun b n => match bufs[b]? with
    | none => false
    | some x => kinds.contains x.kind && decide (n ≤ x.size)
  decide (chanBytes fmt c ≤ m.pos) && m.pos % (if isMX fmt then blockBytes fmt else 32) = 0 && decide (0 < m.pos)
    && decide (w * m.pos ≤ m.row) && decide (h * m.row ≤ m.frame) && m.row % m.pos = 0 && m.frame % m.pos = 0
    && inBuf m.buf (m.off + last + chanBytes fmt c)
    && (if isMX fmt then inBuf m.scaleBuf (m.scaleOff + last / blockBytes fmt + ceilDiv c 32) else m.scaleBuf = 255)

/-- Width of halo side i. -/
def ConvDesc.width (d : ConvDesc) (i : Nat) : Nat := ((d.halos[i]?).map (·.width)).getD 0

/-- Extents of the slab of side i (Table 08-6). -/
def ConvDesc.slabExt (d : ConvDesc) (i : Nat) : Nat × Nat × Nat :=
  let w := d.width i
  let pt := (d.axis 0).part
  let ph := (d.axis 1).part
  let pw := (d.axis 2).part
  let wx := pw + d.width 4 + d.width 5
  if i < 2 then (w, ph + d.width 2 + d.width 3, wx) else if i < 4 then (pt, w, wx) else (pt, ph, w)

/-- One axis in range and consistent. -/
def ConvDesc.axisOk (d : ConvDesc) (x : ConvAxis) : Bool :=
  decide (1 ≤ x.k) && decide (x.k ≤ 15) && decide (1 ≤ x.s) && decide (x.s ≤ 8) && decide (1 ≤ x.d) && decide (x.d ≤ 16)
    && decide (x.pad ≤ 2) && decide (1 ≤ x.box) && decide (x.box ≤ 128) && (x.level ≤ 5 || x.level = 255)
    && decide (1 ≤ x.ext) && decide (x.ext ≤ 2 ^ 20) && decide (1 ≤ x.part) && decide (x.part0 + x.part ≤ x.ext)
    && (if d.view = 2 then x.ext % x.viewF = 0 else true) && d.outExt x = some x.out && decide (x.out ≤ 2 ^ 20)
    && decide (1 ≤ x.outPart) && decide (x.out0 + x.outPart ≤ x.out)
    && !(x.pad = 2 && (decide (d.logExt x ≤ x.lo) || decide (d.logExt x ≤ x.hi)))

/-- The word of a gate lies in a buffer that is neither OUT nor EXCH. Log entry 50 applies (DEDUCED). -/
def gateOk (bufs : List Buf) (b off : Nat) : Bool :=
  match bufs[b]? with
  | none => false
  | some x => (x.kind = 0 || x.kind = 2) && decide (off + 8 ≤ x.size)

/-- Every check of R221 on a record of 384 bytes. -/
def convOk (bufs : List Buf) (w : Nat) : Bool :=
  let d := ConvDesc.ofNum w
  let ins := [bufIn, bufInout, bufExch]
  let a0 := d.axis 0
  let a1 := d.axis 1
  let a2 := d.axis 2
  byteField w 0 1 = 1 && decide (byteField w 3 1 < 64) && decide (d.pool ≤ 3) && decide (d.view ≤ 2) && decide (d.up ≤ 2)
    && (if d.pool = 0 then pairOk d.inFmt d.wFmt else d.inFmt ≤ 2 && d.wFmt = 0) && drainFmtOk d.outFmt
    && decide (byteField w 14 1 < 64) && (d.view ≠ 0 || byteField w 14 1 = 0)
    && decide (byteField w 15 2 < 512) && (d.up ≠ 0 || byteField w 15 2 = 0)
    && byteField w 23 1 = 0 && byteField w 30 2 = 0 && byteField w 169 3 = 0 && byteField w 184 8 = 0
    && decide (d.m ≤ 128) && decide (1 ≤ d.c) && decide (d.c ≤ 65536) && decide (1 ≤ d.outC) && decide (d.outC ≤ 65536)
    && d.ax.all d.axisOk && !(isMX d.inFmt && decide (d.view ≠ 0)) && (d.view ≠ 1 || d.c % d.prod (·.viewF) = 0)
    && d.stagePitch % 64 = 0 && d.gateOff % 8 = 0 && (d.gateBuf = 255 || gateOk bufs d.gateBuf d.gateOff)
    && d.input.ok bufs ins d.inFmt d.c a0.part a1.part a2.part
    && d.output.ok bufs [bufOut, bufInout, bufExch] d.outFmt d.outC a0.outPart a1.outPart a2.outPart
    && (List.range 6).all (fun i =>
      match d.halos[i]? with
      | none => true
      | some h =>
        let e := d.slabExt i
        byteField w (192 + 32 * i + 25) 3 = 0 && decide (h.width ≤ 255)
          && (h.width = 0 || (h.slab.ok bufs ins d.inFmt d.c e.1 e.2.1 e.2.2
            && (h.gateBuf = 255 || (decide (8 ≤ h.slab.off) && gateOk bufs h.gateBuf (h.slab.off - 8)
              && gateOk bufs h.slab.buf (h.slab.off - 8))))))

/-! ### Where an element comes from (R210, R211, R225) -/

/-- R211's resolve. -/
def resolveIdx (j : Int) (n mode : Nat) : Option Nat :=
  if 0 ≤ j && decide (j < n) then some j.toNat
  else match mode with
    | 0 => none
    | 1 => some (min (max j 0) ((n : Int) - 1)).toNat
    | _ => some (if j < 0 then -j else 2 * ((n : Int) - 1) - j).toNat

/-- Index of an axis after padding, undone to the view's index: none for a padding zero, and whether a zero is inserted. -/
def ConvDesc.viewIdx (d : ConvDesc) (x : ConvAxis) (j : Int) : Option (Nat × Bool) :=
  (resolveIdx j (d.logExt x) x.pad).map (fun i =>
    if d.up = 1 then (i / x.upF, false) else if d.up = 2 then (i / x.upF, decide (i % x.upF ≠ 0)) else (i, false))

/-- Stored position and channel of a logical position and channel under the view. -/
def ConvDesc.stored (d : ConvDesc) (t y x c : Nat) : (Nat × Nat × Nat) × Nat :=
  let ft := (d.axis 0).viewF
  let fy := (d.axis 1).viewF
  let fx := (d.axis 2).viewF
  if d.view = 1 then ((t / ft, y / fy, x / fx), c + d.c' * ((t % ft) * fy * fx + (y % fy) * fx + x % fx))
  else if d.view = 2 then
    let q := c / d.c
    ((t * ft + q / (fy * fx), y * fy + q / fx % fy, x * fx + q % fx), c % d.c)
  else ((t, y, x), c)

/-- Where a stored position lies: the local part (none) or a halo side, with its displacement from the origin; `inr` where
no slab covers it. -/
inductive Source where
  | at' (side : Option Nat) (m : MapAt) (disp : Nat)
  | uncovered

def ConvDesc.source (d : ConvDesc) (p : Nat × Nat × Nat) : Source :=
  let a0 := d.axis 0
  let a1 := d.axis 1
  let a2 := d.axis 2
  let t := p.1
  let y := p.2.1
  let x := p.2.2
  let outT := decide (t < a0.part0) || decide (a0.part0 + a0.part ≤ t)
  let outY := decide (y < a1.part0) || decide (a1.part0 + a1.part ≤ y)
  let outX := decide (x < a2.part0) || decide (a2.part0 + a2.part ≤ x)
  if !outT && !outY && !outX then
    .at' none d.input ((t - a0.part0) * d.input.frame + (y - a1.part0) * d.input.row + (x - a2.part0) * d.input.pos)
  else
    let side := if outT then (if t < a0.part0 then 0 else 1) else if outY then (if y < a1.part0 then 2 else 3)
      else (if x < a2.part0 then 4 else 5)
    let w := d.width side
    match d.halos[side]? with
    | none => .uncovered
    | some h =>
      let lowO := fun (i : Nat) (ax : ConvAxis) => (ax.part0 : Int) - d.width i
      let oT : Int := if side = 0 then (a0.part0 : Int) - w else if side = 1 then a0.part0 + a0.part else a0.part0
      let oY : Int := if side < 2 then lowO 2 a1 else if side = 2 then (a1.part0 : Int) - w else if side = 3 then a1.part0 + a1.part else a1.part0
      let oX : Int := if side < 4 then lowO 4 a2 else if side = 4 then (a2.part0 : Int) - w else a2.part0 + a2.part
      let e := d.slabExt side
      let dt := (t : Int) - oT
      let dy := (y : Int) - oY
      let dx := (x : Int) - oX
      if w = 0 || decide (dt < 0) || decide ((e.1 : Int) ≤ dt) || decide (dy < 0) || decide ((e.2.1 : Int) ≤ dy)
          || decide (dx < 0) || decide ((e.2.2 : Int) ≤ dx) then .uncovered
      else .at' (some side) h.slab (dt.toNat * h.slab.frame + dy.toNat * h.slab.row + dx.toNat * h.slab.pos)

/-! ### Rows of the block (R213) -/

/-- Box coordinates of row m. -/
def ConvDesc.boxAt (d : ConvDesc) (m : Nat) : Nat × Nat × Nat :=
  let by' := (d.axis 1).box
  let bx := (d.axis 2).box
  (m / (by' * bx), m / bx % by', m % bx)

/-- Output coordinates of row m of the block at an origin. -/
def ConvDesc.outAt (d : ConvDesc) (o : Nat × Nat × Nat) (m : Nat) : Nat × Nat × Nat :=
  let b := d.boxAt m
  (o.1 + b.1, o.2.1 + b.2.1, o.2.2 + b.2.2)

/-- Does a position lie in the local output part? -/
def ConvDesc.inOut (d : ConvDesc) (p : Nat × Nat × Nat) : Bool :=
  let ok := fun (x : ConvAxis) v => decide (x.out0 ≤ v) && decide (v < x.out0 + x.outPart)
  ok (d.axis 0) p.1 && ok (d.axis 1) p.2.1 && ok (d.axis 2) p.2.2

/-- Rows that are no hem rows, a mask apart. -/
def ConvDesc.rows (d : ConvDesc) (o : Nat × Nat × Nat) : List Nat := (List.range d.m).filter (fun m => d.inOut (d.outAt o m))

/-- Spans of the receptive field. -/
def ConvDesc.span (x : ConvAxis) : Nat := (x.box - 1) * x.s + (x.k - 1) * x.d + 1
def ConvDesc.field (d : ConvDesc) : Nat := d.prod ConvDesc.span

/-- Coordinates of tap number `k`. -/
def ConvDesc.tapAt (d : ConvDesc) (k : Nat) : Nat × Nat × Nat :=
  let ky := (d.axis 1).k
  let kx := (d.axis 2).k
  (k / (ky * kx), k / kx % ky, k % kx)

/-- Field position that row m reads at tap k, as coordinates and as a number. -/
def ConvDesc.fieldAt (d : ConvDesc) (m k : Nat) : Nat × Nat × Nat :=
  let b := d.boxAt m
  let c := d.tapAt k
  (b.1 * (d.axis 0).s + c.1 * (d.axis 0).d, b.2.1 * (d.axis 1).s + c.2.1 * (d.axis 1).d, b.2.2 * (d.axis 2).s + c.2.2 * (d.axis 2).d)
def ConvDesc.fieldNo (d : ConvDesc) (p : Nat × Nat × Nat) : Nat :=
  (p.1 * ConvDesc.span (d.axis 1) + p.2.1) * ConvDesc.span (d.axis 2) + p.2.2

/-- Padded index of a field coordinate of a block at an origin. -/
def ConvDesc.padIdx (x : ConvAxis) (o f : Nat) : Int := (o * x.s + f : Nat) - (x.lo : Int)

/-- The view's indices of a field position; none for a padding zero. -/
def ConvDesc.viewAt (d : ConvDesc) (o f : Nat × Nat × Nat) : Option ((Nat × Nat × Nat) × Bool) :=
  match d.viewIdx (d.axis 0) (ConvDesc.padIdx (d.axis 0) o.1 f.1), d.viewIdx (d.axis 1) (ConvDesc.padIdx (d.axis 1) o.2.1 f.2.1),
    d.viewIdx (d.axis 2) (ConvDesc.padIdx (d.axis 2) o.2.2 f.2.2) with
  | some t, some y, some x => some ((t.1, y.1, x.1), t.2 || y.2 || x.2)
  | _, _, _ => none

/-! ### Position and staging (Table 08-2, R214, R219) -/

/-- What an instruction works on: block origin, first channel block and count (FETCH), K range (MMA, WMAX), part and parts,
first channel (POOL, PUT). -/
structure WinPos where
  origin : Nat × Nat × Nat
  cb0 : Nat := 0
  blocks : Nat := 1
  kFirst : Nat := 0
  k : Nat := 1
  part : Nat := 0
  parts : Nat := 1
  c0 : Nat := 0

/-- Channel blocks that a K range touches. -/
def ConvDesc.blocksOf (d : ConvDesc) (kFirst k : Nat) : Nat × Nat :=
  let b0 := kFirst / 32 / d.taps
  (b0, (kFirst + k - 1) / 32 / d.taps - b0 + 1)

/-- The position of a WIN: its pair, or in a nest body with POS_REG 0 the item; none where a bit that must be zero is not. -/
def State.winPos (s : State) (t : Site) (d : ConvDesc) (op : Nat) (o : WinOps) : Option WinPos :=
  let c := s.ctx t
  if o.posReg ≠ 0 then
    let w0 := (c.sreg o.posReg).toNat
    let w1 := (c.sreg (o.posReg + 1)).toNat
    let org := (bits w0 39 28, bits w0 27 14, bits w0 13 0)
    let part := if c.inBody then s.issuedPart t 0 0 else (bits w1 54 49, bits w1 60 55 + 1)
    if 2 ^ 40 ≤ w0 then none
    else match op with
      | 0 => if 2 ^ 32 ≤ w1 then none else some { origin := org, cb0 := bits w1 15 0, blocks := bits w1 31 16 + 1 }
      | 1 => if bits w1 63 49 ≠ 0 || bits w1 4 0 ≠ 0 then none else some { origin := org, kFirst := bits w1 35 0, k := bits w1 48 36 + 1 }
      | 2 => if bits w1 63 61 ≠ 0 || bits w1 4 0 ≠ 0 then none
        else some { origin := org, kFirst := bits w1 35 0, k := bits w1 48 36 + 1, part := part.1, parts := part.2 }
      | _ => if 2 ^ 16 ≤ w1 || bits w1 4 0 ≠ 0 then none else some { origin := org, c0 := bits w1 15 0 }
  else
    match s.sched.run.bind (·.nest), c.item with
    | some r, some it =>
      let i := r.desc.tileOf it.index
      let co := fun (x : ConvAxis) => if x.level = 255 then 0 else r.desc.coord i x.level * x.box
      let part := r.desc.part it.index
      let kf := part * r.desc.kTile
      let k := min (kf + r.desc.kTile) d.kLog - kf
      let nl := (List.range 6).find? (fun l => (nth ⟨1, 6, 0, []⟩ r.desc.levels l).role = 2)
      let b := d.blocksOf kf k
      some { origin := (co (d.axis 0), co (d.axis 1), co (d.axis 2)), cb0 := b.1, blocks := b.2, kFirst := kf, k, part,
             parts := r.desc.split, c0 := match nl with
               | none => 0
               | some l => r.desc.coord i l * r.desc.nTile }
    | _, _ => none

/-- Bytes staged per position, and where position p and its scales lie. Log entry 49 applies (DESIGN CHOICE). -/
def stagePer (fmt blocks : Nat) : Nat := roundUp64 (blocks * blockBytes fmt)
where roundUp64 (n : Nat) : Nat := (n + 63) / 64 * 64
def stageElem (fmt blocks stage p b : Nat) : Nat := stage + 64 + p * stagePer fmt blocks + b * blockBytes fmt
def stageScale (fmt blocks field stage p b : Nat) : Nat := stage + 64 + field * stagePer fmt blocks + p * blocks + b

/-- Bytes of a whole staging area. -/
def stageBytes (fmt blocks field : Nat) : Nat :=
  64 + field * stagePer fmt blocks + (if isMX fmt then (field * blocks + 63) / 64 * 64 else 0)

/-- The staging header: origin word, first block and count − 1, `DESC_OFF`. Log entry 49 applies (DESIGN CHOICE). -/
def stageHeader (p : WinPos) (descOff : Nat) : Nat :=
  p.origin.2.2 + p.origin.2.1 * 2 ^ 14 + p.origin.1 * 2 ^ 28 + p.cb0 * 2 ^ 64 + (p.blocks - 1) * 2 ^ 80 + descOff * 2 ^ 96

/-- What a header records: origin, first block, count. Log entry 49 applies (DESIGN CHOICE). -/
def headerOf (w : Nat) : (Nat × Nat × Nat) × Nat × Nat := ((bits w 39 28, bits w 27 14, bits w 13 0), bits w 79 64, bits w 95 80 + 1)

/-! ### FETCH -/

/-- Base of a buffer. -/
def State.bufBase (s : State) (b : Nat) : Nat := ((s.buf b).map (·.base)).getD 0

/-- One block of 32 staged channels at a field position: the reads that it makes (address, bytes), the halo sides it comes
from, its bits and its scale code; none where no slab covers a position. -/
structure Block where
  reads : List (Nat × Nat) := []
  sides : List Nat := []
  num : Nat := 0
  scale : Nat := 0

def State.convBlock (s : State) (d : ConvDesc) (o f : Nat × Nat × Nat) (cb : Nat) : Option Block :=
  match d.viewAt o f with
  | none => some {}
  | some (v, zero) =>
    if zero then some {}
    else if isMX d.inFmt then
      match d.source v with
      | .uncovered => none
      | .at' side m disp =>
        let bb := blockBytes d.inFmt
        let a := s.bufBase m.buf + m.off + disp + cb * bb
        let sa := s.bufBase m.scaleBuf + m.scaleOff + disp / bb + cb
        let n := min 32 (d.c - 32 * cb)
        some ⟨[(a, bb), (sa, 1)], side.toList, bits (s.num a bb) (n * fmtBits d.inFmt - 1) 0, (s.byte sa).toNat⟩
    else
      let eb := fmtBits d.inFmt / 8
      (List.range 32).foldl (fun acc i =>
        match acc with
        | none => none
        | some b =>
          let c := 32 * cb + i
          if d.c' ≤ c then some b
          else
            let st := d.stored v.1 v.2.1 v.2.2 c
            match d.source st.1 with
            | .uncovered => none
            | .at' side m disp =>
              let a := s.bufBase m.buf + m.off + disp + st.2 * eb
              some ⟨b.reads ++ [(a, eb)], b.sides ++ side.toList, b.num + s.num a eb * 2 ^ (8 * eb * i), 0⟩) (some {})

/-- Field positions that serve a row that is no hem row. -/
def ConvDesc.livePositions (d : ConvDesc) (rows : List Nat) : List (Nat × Nat × Nat) :=
  rows.foldl (fun acc m => (List.range d.taps).foldl (fun acc2 k =>
    let p := d.fieldAt m k
    if acc2.contains p then acc2 else acc2 ++ [p]) acc) []

/-- The gates that a FETCH of these sides looks at: side, address and expected value. Side 6 is the main gate, which comes
first. -/
def State.gatesOf (s : State) (d : ConvDesc) (sides : List Nat) : List (Nat × Nat × Nat) :=
  let main := if d.gateBuf = 255 then [] else [(6, s.bufBase d.gateBuf + d.gateOff, d.gateExpect)]
  let side := (List.range 6).filterMap (fun i =>
    match d.halos[i]? with
    | none => none
    | some h => if sides.contains i && h.gateBuf ≠ 255 then some (i, s.bufBase h.slab.buf + h.slab.off - 8, h.gateExpect) else none)
  main ++ side

/-- The first of some gates that is not open. -/
def State.gateShut (s : State) (gs : List (Nat × Nat × Nat)) : Option (Nat × Nat × Nat) :=
  gs.find? (fun g => decide (s.num g.2.1 8 < g.2.2))

/-- A list of reads by a core: the first refusal with its address; DENIED for a source that is neither HBM nor map store
(R224). -/
def State.convReads (s : State) (core : Nat) : List (Nat × Nat) → Status × Nat × State
  | [] => (.ok, 0, s)
  | p :: l =>
    let st := if isHbm p.1 || isMs p.1 then s.jobAccess core readKinds p.1 p.2 else .denied
    if st ≠ .ok then (st, p.1, s)
    else
      let r := s.readCheck s.coreClass (.core core) p.1 p.2
      if r.1 = .ok then r.2.convReads core l else (r.1, p.1, r.2)

/-- The descriptor that a WIN names, checked again at run time (R221), with its position. -/
def State.winDesc (s : State) (t : Site) (op : Nat) (o : WinOps) : Sum (Status × Nat) (ConvDesc × WinPos) :=
  let st := s.csReach o.descOff 384
  let w := s.num (csAddr t.core o.descOff) 384
  let bufs := ((s.sched.run.bind (·.prog)).map (·.bufs)).getD []
  let d := ConvDesc.ofNum w
  if st ≠ .ok then .inl (st, csAddr t.core o.descOff)
  else if !convOk bufs w then .inl (.verify, s.pcAddr t)
  else if (op = 3) != decide (d.pool ≠ 0) && (op = 1 || op = 2 || op = 3) then .inl (.verify, s.pcAddr t)
  else match s.winPos t d op o with
    | none => .inl (.verify, s.pcAddr t)
    | some p => if !d.inOut p.origin then .inl (.bounds, s.pcAddr t) else .inr (d, p)

/-- The blocks that a FETCH stages, by the number of their field position. -/
def State.fetchBlocks (s : State) (d : ConvDesc) (p : WinPos) : List (Nat × List (Option Block)) :=
  (d.livePositions (d.rows p.origin)).map (fun f =>
    (d.fieldNo f, (List.range p.blocks).map (fun b => s.convBlock d p.origin f (p.cb0 + b))))

/-- The halo sides that blocks come from, and the reads that they make. -/
def blockSides (l : List (Nat × List (Option Block))) : List Nat := l.flatMap (fun f => f.2.flatMap (fun b => (b.map (·.sides)).getD []))
def blockReads (l : List (Nat × List (Option Block))) : List (Nat × Nat) :=
  l.flatMap (fun f => f.2.flatMap (fun b => (b.map (·.reads)).getD []))

/-- What a FETCH is judged by before it looks at its gates: the size of its staging area and its channel blocks, the reach of
the area, and that slabs cover what it reads; the lowest status with its address (R18). -/
def State.fetchCheck (s : State) (t : Site) (d : ConvDesc) (o : WinOps) (p : WinPos) : Status × Nat :=
  let size := stageBytes d.inFmt p.blocks d.field
  firstLowest [(Status.when (decide (1048576 < size) || decide (ceilDiv d.c' 32 < p.cb0 + p.blocks)) .verify, s.pcAddr t),
    (s.csReach o.stageOff size, csAddr t.core o.stageOff),
    (Status.when ((s.fetchBlocks d p).any (fun f => f.2.any Option.isNone)) .bounds, s.pcAddr t)]

/-- The staging area with its header and blocks. -/
def State.stageFetch (s : State) (core : Nat) (d : ConvDesc) (o : WinOps) (p : WinPos) (blocks : List (Nat × List (Option Block))) : State :=
  let base := csAddr core
  let s1 := (s.zeroBytes (base o.stageOff) (stageBytes d.inFmt p.blocks d.field)).putNum (base o.stageOff) 64 (stageHeader p o.descOff)
  blocks.foldl (fun acc f => (f.2.mapIdx (fun b x => (b, x))).foldl (fun acc2 bx =>
    match bx.2 with
    | none => acc2
    | some x =>
      let a1 := acc2.putNum (base (stageElem d.inFmt p.blocks o.stageOff f.1 bx.1)) (blockBytes d.inFmt) x.num
      if isMX d.inFmt then a1.putNum (base (stageScale d.inFmt p.blocks d.field o.stageOff f.1 bx.1)) 1 x.scale else a1) acc) s1

/-- The effect of FETCH (R214, R224 to R226). Log entry 50 applies (DEDUCED). -/
def winFetchEff (t : Site) (h : Hdr) (o : WinOps) (s : State) : Eff :=
  match s.winDesc t 0 o with
  | .inl x => .fault x.1 x.2 s
  | .inr (d, p) =>
    let bad := s.fetchCheck t d o p
    let blocks := s.fetchBlocks d p
    if bad.1 ≠ .ok then .fault bad.1 bad.2 s
    else
      let gs := s.gatesOf d (blockSides blocks)
      let look := s.readChecks s.coreClass (.core t.core) (gs.map (fun g => (g.2.1, 8)))
      if look.1 ≠ .ok then .fault look.1 look.2.1 look.2.2
      else match s.gateShut gs with
      | some g => .wait (look.2.2.setCtx t { s.ctx t with gateWait := some ⟨g.1, g.2.1, g.2.2, h.wait⟩ })
      | none =>
        let rd := look.2.2.convReads t.core (blockReads blocks)
        if rd.1 ≠ .ok then .fault rd.1 rd.2.1 rd.2.2 else .done (rd.2.2.stageFetch t.core d o p blocks)

/-- A FETCH that finds a gate shut counts it once. -/
def countGateWait (before after : State) (t : Site) : State :=
  if (before.ctx t).gateWait.isNone && (after.ctx t).gateWait.isSome then
    (after.bump Fld.CNV_COUNTS_GATE_WAITS Fld.CNV_COUNTS_WAIT_SAT 1).settleHalt t.core
  else after

/-- A WIN of the fetch or vector unit in flight (R212). -/
def feederFlight (t : Site) (h : Hdr) : InFlight := { plainFlight t h with unit := .feeder }

/-- WIN FETCH. -/
def execWinFetch (t : Site) (h : Hdr) (o : WinOps) (s : State) : Host.Outcome State Fault Refusal :=
  .next (countGateWait s (s.issueAs t h (feederFlight t h) true (o.ok 0) (winFetchEff t h o)) t)

/-- HALO_GATE_WAIT: the FETCH of a context that waits on a gate goes on once the word has reached its value, or, when the
wait has lasted `XCHG_NS`, faults with TIMEOUT and is recorded (R226, R229). -/
def execHaloGateWait (t : Site) (h : Hdr) (o : WinOps) (expired : Bool) (s : State) : Host.Outcome State Fault Refusal :=
  .next (
    match (s.ctx t).gateWait with
    | none => s
    | some g =>
      let rd := s.readCheck s.coreClass (.core t.core) g.addr 8
      if !s.coreRuns t.core || !s.accepts t (feederFlight t h) then s
      else if rd.1 ≠ .ok then rd.2.coreFault t.core rd.1 g.addr
      else if g.expect ≤ s.num g.addr 8 then
        let s1 := rd.2.setCtx t { s.ctx t with gateWait := none }
        (winFetchEff t { h with wait := g.wait } o s1).settle t h { feederFlight t h with pc := (s.ctx t).pc } true
      else if expired then
        let s1 := ((s.setFld Fld.CNV_LAST_GATE_SIDE g.side).setFld Fld.CNV_LAST_GATE_CORE t.core).setFld Fld.CNV_LAST_GATE_ADDR g.addr
        let s2 := s1.bump Fld.CNV_COUNTS_GATE_TIMEOUTS Fld.CNV_COUNTS_TIMEOUT_SAT 1
        (s2.setCtx t { s2.ctx t with gateWait := none }).coreFault t.core .timeout g.addr
      else s)

/-! ### MMA and WMAX (R215) -/

/-- Elements of block number kb (from K 0) that row m reads from staging, and its scale code. -/
def State.winBlock (s : State) (core : Nat) (d : ConvDesc) (stage cb0 blocks m kb : Nat) : Nat × Nat :=
  let p := d.fieldNo (d.fieldAt m (kb % d.taps))
  let b := kb / d.taps - cb0
  (s.num (csAddr core (stageElem d.inFmt blocks stage p b)) (blockBytes d.inFmt),
    if isMX d.inFmt then (s.byte (csAddr core (stageScale d.inFmt blocks d.field stage p b))).toNat else 127)

/-- A row of A over a K range: blocks of values of the channels below C′. -/
def State.winRow (s : State) (core : Nat) (d : ConvDesc) (stage cb0 blocks kFirst k m : Nat) : List (List FVal) × Int :=
  let n := (k + 31) / 32
  let raw := tab n (fun i => (kFirst / 32 + i, s.winBlock core d stage cb0 blocks m (kFirst / 32 + i)))
  let vals := raw.mapIdx (fun i x => tab (min 32 (k - 32 * i)) (fun e =>
    if d.c' ≤ 32 * (x.1 / d.taps) + e then FVal.fin false 0 0 else scaled x.2.2 (decodeElem d.inFmt (elemAt d.inFmt x.2.1 e))))
  (vals, if isMX d.inFmt then topOf (-127) (raw.map (fun x => if x.2.2 = 255 then none else some ((x.2.2 : Int) - 127)))
    else if d.inFmt = 1 then topOf (-126) ((vals.flatMap id).map (expOf 7)) else 0)

/-- What MMA and WMAX share once their fields are good: descriptor, position, tile with its unmasked rows, staged blocks. -/
structure WinTile where
  d : ConvDesc
  p : WinPos
  x : Tile
  cb0 : Nat
  blocks : Nat
  b : MatOp

/-- The staged tile of an MMA or WMAX; the lowest status with its address where it faults (R18). -/
def State.winTile (s : State) (t : Site) (op : Nat) (o : WinOps) : Sum (Status × Nat) WinTile :=
  match s.winDesc t op o with
  | .inl x => .inl x
  | .inr (d, p) =>
    let hst := s.csReach o.stageOff 64
    let hd := headerOf (s.num (csAddr t.core o.stageOff) 64)
    let kb := d.blocksOf p.kFirst p.k
    let x0 := s.tile t (if op = 1 then o.bank else 0) d.m (o.nM1 + 1) o.rowMask o.colMask
    let x := { x0 with rows := x0.rows.filter (fun m => (d.rows p.origin).contains m) }
    let b : MatOp := ⟨d.wFmt, (s.ctx t).sreg o.bReg, (s.ctx t).sreg (o.bReg + 1), p.k⟩
    let area := stageBytes d.inFmt hd.2.2 d.field
    let alone := op = 1 && o.anchorMode = 0 && o.clear = 1 && o.xslotReg = 0 && decide (p.k < d.kLog)
    let staged := decide (hd.1 = p.origin) && decide (hd.2.1 ≤ kb.1) && decide (kb.1 + kb.2 ≤ hd.2.1 + hd.2.2)
      && decide (p.kFirst + p.k ≤ d.kLog)
    let bad := firstLowest [(Status.when (!staged || !bankOk x.bank x.m x.n || alone) .verify, s.pcAddr t),
      (s.csReach o.stageOff area, csAddr t.core o.stageOff), (s.slotOk t o.xslotReg, slotAddr ((s.ctx t).sreg o.xslotReg)),
      (b.status, s.pcAddr t), s.reachAll t.core (x.cols.flatMap (b.accesses (decide (op = 1) || decide (d.wFmt = 1))))]
    if hst ≠ .ok then .inl (hst, csAddr t.core o.stageOff)
    else if bad.1 ≠ .ok then .inl bad
    else .inr ⟨d, p, x, hd.2.1, hd.2.2, b⟩

/-- Rows of A with their maxima. -/
def State.winRows (s : State) (core : Nat) (o : WinOps) (w : WinTile) : List (Nat × List (List FVal) × Int) :=
  w.x.rows.map (fun m => (m, s.winRow core w.d o.stageOff w.cb0 w.blocks w.p.kFirst w.p.k m))

/-- The effect of WIN MMA. Log entry 50 applies (DEDUCED). -/
def winMmaEff (t : Site) (o : WinOps) (s : State) : Eff :=
  let slot := s.slotOf t o.xslotReg
  match s.winTile t 1 o with
  | .inl x => .fault x.1 x.2 s
  | .inr w =>
    s.atSlot t o.anchorMode slot (fun s1 =>
      s1.matrixStep t w.x w.d.inFmt (decide (o.clear = 1)) (anchorSource o.anchorMode o.anchor slot) (pairT w.d.inFmt w.d.wFmt)
        (s1.winRows t.core o w) (s1.readRows t.core w.b w.x.cols) none slot)

/-- A WIN MMA in flight; its M is that of the descriptor (R213). -/
def State.winMmaFlight (s : State) (t : Site) (h : Hdr) (o : WinOps) : InFlight :=
  matrixFlight t h .winMma (s.banksOf t o.bank (ConvDesc.ofNum (s.num (csAddr t.core o.descOff) 384)).m (o.nM1 + 1))

/-- WIN MMA: issued, or gone on with where it waits at its slot. -/
def execWinMma (t : Site) (h : Hdr) (o : WinOps) (s : State) : Host.Outcome State Fault Refusal :=
  .next (if ((s.ctx t).heldOp .winMma).isSome then s.resume t h (s.winMmaFlight t h o) .winMma (winMmaEff t o)
    else s.issueAs t h (s.winMmaFlight t h o) true (o.ok 1) (winMmaEff t o))

/-- The effect of WIN WMAX: the maxima of the staged range go to the slot as those of XMAX do. -/
def winWmaxEff (t : Site) (o : WinOps) (s : State) : Eff :=
  let slot := slotAddr ((s.ctx t).sreg o.xslotReg)
  match s.winTile t 2 o with
  | .inl x => .fault x.1 x.2 s
  | .inr w =>
    let bias := fun (v : Int) => (v + 0x8000).toNat
    .done (s.startPost t ⟨slot, w.p.part, w.p.parts, slotK ((s.ctx t).sreg (o.xslotReg + 1)), w.p.k, w.x.bank,
      (s.winRows t.core o w).map (fun r => (r.1, bias r.2.2)), s.biasedTops t.core w.b w.x.cols⟩)

/-- WIN WMAX. -/
def execWinWmax (t : Site) (h : Hdr) (o : WinOps) (s : State) : Host.Outcome State Fault Refusal :=
  .next (s.issueAs t h { exchFlight t h with unit := .feeder } true (o.ok 2) (winWmaxEff t o))

/-! ### POOL (R216) -/

/-- A finite or special value converted once to FP32, BF16 or FP16. -/
def convVal (fmt code : Nat) (x : FVal) : Conv :=
  match x with
  | .nan => ⟨canonicalNaN fmt, flagNanIn⟩
  | .inf s => ⟨infBits fmt s, 0⟩
  | .fin s m e =>
    if m = 0 then ⟨b2n s * 2 ^ (fmtBits fmt - 1), 0⟩ else roundFloat fmt code s m e 0 e (fun _ => 0)

/-- The taps of row m: inside the logical map or padding, and the value of a channel. -/
def State.poolTaps (s : State) (core : Nat) (d : ConvDesc) (stage cb0 blocks : Nat) (o : Nat × Nat × Nat) (m c : Nat) :
    List (Bool × FVal) :=
  tab d.taps (fun k =>
    let f := d.fieldAt m k
    let inside := fun (x : ConvAxis) (org fc : Nat) =>
      let j := ConvDesc.padIdx x org fc
      decide (0 ≤ j) && decide (j < d.logExt x)
    let w := s.num (csAddr core (stageElem d.inFmt blocks stage (d.fieldNo f) (c / 32 - cb0))) (blockBytes d.inFmt)
    (inside (d.axis 0) o.1 f.1 && inside (d.axis 1) o.2.1 f.2.1 && inside (d.axis 2) o.2.2 f.2.2,
      decodeElem d.inFmt (elemAt d.inFmt w (c % 32))))

/-- The larger of two values, −0 below +0; a NaN stays. -/
def maxVal (a b : FVal) : FVal := if a.isNaN then a else if b.isNaN then b else if a.below b then b else a

/-- One pooled element. `padded` says which padding positions read a zero. -/
def poolElem (kind fmt code taps : Nat) (l : List (Bool × FVal)) (zeroPad : Bool) : Conv :=
  match kind with
  | 1 => convVal fmt code ((l.filter (fun p => p.1 || !zeroPad)).foldl (fun a p => maxVal a p.2) (.inf true))
  | _ =>
    let use := if kind = 3 then l.filter (·.1) else l
    let z := use.foldl (fun (a : LongAcc) p => (a.add (Contrib.ofVal p.2)).getD a) {}
    if kind = 3 && use.isEmpty then ⟨0, 0⟩ else z.drain fmt code (some (if kind = 3 then use.length else taps)) (fun _ => 0)

/-- Does tap list position k of a row read a ZERO padding: on some axis outside the map whose mode is ZERO? -/
def ConvDesc.zeroPads (d : ConvDesc) (o f : Nat × Nat × Nat) : Bool := (d.viewAt o f).isNone

/-- What a POOL writes: one element of each active lane of each row. -/
def State.poolPieces (s : State) (core : Nat) (d : ConvDesc) (o : WinOps) (cb0 blocks : Nat) (p : WinPos) (w : Word)
    (lanes : List Nat) : List OutPiece :=
  let b := outBytes o.fmtOut
  (d.rows p.origin).flatMap (fun m => lanes.map (fun l =>
    let taps := s.poolTaps core d o.stageOff cb0 blocks p.origin m (p.c0 + l)
    let marked := taps.mapIdx (fun k x => (x.1 || !d.zeroPads p.origin (d.fieldAt m k), x.2))
    let r := poolElem d.pool o.fmtOut o.rnd d.taps (if d.pool = 1 then marked else taps) true
    (⟨awOffset w + m * awStride w + b * l, leBytes b r.bits, r.flags⟩ : OutPiece)))

/-- Origin, first block and count of the staging area that a WIN names. -/
def State.stagedAt (s : State) (t : Site) (o : WinOps) : (Nat × Nat × Nat) × Nat × Nat :=
  headerOf (s.num (csAddr t.core o.stageOff) 64)

/-- Lanes of a POOL: those whose channels lie below C′ (R216). -/
def ConvDesc.poolLanes (d : ConvDesc) (p : WinPos) : List Nat := (List.range 128).filter (fun l => decide (p.c0 + l < d.c'))

/-- The output of a POOL. -/
def State.poolOut (s : State) (t : Site) (d : ConvDesc) (o : WinOps) (p : WinPos) : List OutPiece :=
  let hd := s.stagedAt t o
  s.poolPieces t.core d o hd.2.1 hd.2.2 p ((s.ctx t).sreg o.bReg) (d.poolLanes p)

/-- What a POOL is judged by once the header of its staging area is within reach: what is staged, the reach of the area, and
the address word and reach of its output; the lowest status with its address (R18). -/
def State.poolCheck (s : State) (t : Site) (d : ConvDesc) (o : WinOps) (p : WinPos) : Status × Nat :=
  let hd := s.stagedAt t o
  let lanes := d.poolLanes p
  let staged := decide (hd.1 = p.origin) && (lanes.isEmpty ||
    (decide (hd.2.1 ≤ p.c0 / 32) && decide ((p.c0 + lanes.length - 1) / 32 < hd.2.1 + hd.2.2)))
  firstLowest [(Status.when (!staged) .verify, s.pcAddr t),
    (s.csReach o.stageOff (stageBytes d.inFmt hd.2.2 d.field), csAddr t.core o.stageOff), (awStatus ((s.ctx t).sreg o.bReg) 64, s.pcAddr t),
    s.reachAll t.core ((s.poolOut t d o p).map (fun q => (q.off, q.bytes.length)))]

/-- The effect of WIN POOL: channels beyond C′ are inactive lanes (R216). Log entry 50 applies (DEDUCED). -/
def winPoolEff (t : Site) (o : WinOps) (s : State) : Eff :=
  match s.winDesc t 3 o with
  | .inl x => .fault x.1 x.2 s
  | .inr (d, p) =>
    let hst := s.csReach o.stageOff 64
    let bad := s.poolCheck t d o p
    if hst ≠ .ok then .fault hst (csAddr t.core o.stageOff) s
    else if bad.1 ≠ .ok then .fault bad.1 bad.2 s
    else
      let s1 := s.putPieces t.core (s.poolOut t d o p)
      let k := s1.core t.core
      .done (s1.setCore t.core { k with long := k.long.filter (fun q => !(decide (o.lidx ≤ q.1) && decide (q.1 < o.lidx + 256))) })

/-- WIN POOL. -/
def execWinPool (t : Site) (h : Hdr) (o : WinOps) (s : State) : Host.Outcome State Fault Refusal :=
  .next (s.issueAs t h (feederFlight t h) true (o.ok 3) (winPoolEff t o))

/-! ### PUT (R217) -/

/-- Everything a PUT writes: local address and bytes. Log entry 50 applies (DEDUCED). -/
def State.putWrites (s : State) (core : Nat) (d : ConvDesc) (o : WinOps) (p : WinPos) : List (Nat × List Byte) :=
  let m := d.output
  let n := o.nM1 + 1
  (d.rows p.origin).flatMap (fun r =>
    let q := d.outAt p.origin r
    let disp := (q.1 - (d.axis 0).out0) * m.frame + (q.2.1 - (d.axis 1).out0) * m.row + (q.2.2 - (d.axis 2).out0) * m.pos
    let src := csAddr core (o.stageOff + r * d.stagePitch)
    let eb := ceilDiv (n * fmtBits d.outFmt) 8
    (s.bufBase m.buf + m.off + disp + p.c0 * fmtBits d.outFmt / 8, s.bytes src eb) ::
      (if isMX d.outFmt then
        [(s.bufBase m.scaleBuf + m.scaleOff + disp / blockBytes d.outFmt + p.c0 / 32,
          s.bytes (csAddr core (o.stageOff + 128 * d.stagePitch + r * d.stagePitch / blockBytes d.outFmt)) (ceilDiv n 32))]
      else []))

/-- A list of writes by a core, once allowed: up to the first that fails, with its address. -/
def State.putAll (s : State) : List (Nat × List Byte) → Status × Nat × State
  | [] => (.ok, 0, s)
  | p :: l =>
    let r := s.jobWrite p.1 p.2
    if r.1 = .ok then r.2.putAll l else (r.1, p.1, r.2)

/-- A PUT in a committed nest is one committed write, wherever it goes (R217). -/
def State.putCommit (s : State) (t : Site) : Option (Nat × Nat) :=
  match s.sched.run.bind (·.nest), (s.ctx t).item with
  | some r, some it =>
    if r.desc.committed && (s.ctx t).inBody then some (s.holdAddr r t.core (t.ctx - r.ops.ctxFirst) + 16, it.writes) else none
  | _, _ => none

/-- What a PUT is judged by: its channels, the reach of its staging rows, and what its writes may do; the lowest status with its
address (R18). -/
def State.putCheck (s : State) (t : Site) (d : ConvDesc) (o : WinOps) (p : WinPos) : Status × Nat :=
  let n := o.nM1 + 1
  let reads := (d.rows p.origin).flatMap (fun r => (o.stageOff + r * d.stagePitch, ceilDiv (n * fmtBits d.outFmt) 8) ::
    (if isMX d.outFmt then [(o.stageOff + 128 * d.stagePitch + r * d.stagePitch / blockBytes d.outFmt, ceilDiv n 32)] else []))
  firstLowest ([(Status.when (decide (d.outC < p.c0 + n)) .bounds, s.pcAddr t), s.reachAll t.core reads]
    ++ (s.putWrites t.core d o p).map (fun x => (s.jobAccess t.core writeKinds x.1 x.2.length, x.1)))

/-- The effect of PUT, with its committed write: it counts as one MOVE to the output buffer. Log entry 50 applies (DEDUCED). -/
def winPutStart (t : Site) (o : WinOps) (s : State) : Eff × List Nat × Option (Nat × Nat) :=
  match s.winDesc t 4 o with
  | .inl x => (.fault x.1 x.2 s, [], none)
  | .inr (d, p) =>
    let bad := s.putCheck t d o p
    if bad.1 ≠ .ok then (.fault bad.1 bad.2 s, [], none)
    else s.committed t (s.putCommit t) (fun s1 =>
      let r := s1.putAll (s.putWrites t.core d o p)
      if r.1 ≠ .ok then (.fault r.1 r.2.1 r.2.2, [], none) else (.done r.2.2, [], s.putCommit t))

/-- WIN PUT. -/
def execWinPut (t : Site) (h : Hdr) (o : WinOps) (s : State) : Host.Outcome State Fault Refusal :=
  .next (s.issueMove t h .feeder (o.ok 4) (winPutStart t o))

end Sys2Proof.Machine
end

