-- ==== Sys2Proof/Machine/Loader.lean ====
section
/-! DEFINITION. The loader (R115 to R119, R136, R137): every check of Table 04-13 on a job image, with the checks that
other chapters make at load (R170 to R172, R191, R192, R195, R221, R234, R251, R256). -/

namespace Sys2Proof.Machine

/-! ### Findings and the image -/

/-- A failed check: its number in Table 04-13 (0 for a rule that has none there), the image offset of the field, the
status. -/
structure Finding where
  check : Nat
  place : Nat
  st : Status
  deriving DecidableEq, Repr

/-- A finding where the condition holds. -/
def refuse (c : Bool) (check place : Nat) (st : Status) : List Finding := if c then [⟨check, place, st⟩] else []

/-- Refusals of one check with VERIFY, by condition and place. -/
def refuseAll (check : Nat) (l : List (Bool × Nat)) : List Finding :=
  (l.filter (·.1)).map (fun p => ⟨check, p.2, .verify⟩)

/-- A job image: local address and bytes (R415). -/
structure JobImg where
  base : Nat
  len : Nat

/-- The number in `n` bytes of the image; 0 beyond its end. -/
def State.img (s : State) (g : JobImg) (off n : Nat) : Nat := if off + n ≤ g.len then s.num (g.base + off) n else 0

/-! ### Header and buffers (Tables 04-4 and 04-5) -/

/-- The header of an image, with the offset of its buffer table. -/
structure TileHdr where
  w : Nat
  mode : Nat
  relocatable : Bool
  coresUsed : Nat
  bufCount : Nat
  listCount : Nat
  exch : Nat
  bufOff : Nat
  listOff : Nat
  commonLen : Nat
  commonLoad : Nat

def TileHdr.ofNum (w : Nat) : TileHdr :=
  ⟨w, byteField w 1 1, byteField w 2 1 = 1, byteField w 4 2, byteField w 6 2, byteField w 8 4, byteField w 12 1,
    byteField w 16 8, byteField w 24 8, byteField w 32 4, byteField w 36 3⟩

/-- Bytes of the stream table or of the common image. -/
def TileHdr.listBytes (h : TileHdr) : Nat := if h.mode = 0 then 24 * h.listCount else h.commonLen

/-- Check 1. Log entry 52 applies (DEDUCED). -/
def TileHdr.check1 (h : TileHdr) (len : Nat) : List Finding :=
  refuseAll 1 [(byteField h.w 0 1 ≠ 1, 0), (1 < h.mode, 1), (1 < byteField h.w 2 1, 2), (byteField h.w 3 1 ≠ 0, 3),
    (if h.mode = 0 then h.listCount ≠ h.coresUsed else h.listCount = 0 || decide (4096 < h.listCount), 8),
    (byteField h.w 13 3 ≠ 0, 13), (h.bufOff % 16 ≠ 0 || decide (len < h.bufOff + 16 * h.bufCount), 16),
    (h.listOff % 16 ≠ 0 || decide (len < h.listOff + h.listBytes), 24),
    (if h.mode = 0 then h.commonLen ≠ 0 else decide (2 ^ 22 < h.commonLen), 32), (byteField h.w 39 25 ≠ 0, 39),
    (2 ^ 26 < len || len < 64, 0)]

/-- Checks 2 to 4. -/
def TileHdr.check2to4 (h : TileHdr) (cores : Nat) : List Finding :=
  refuse (h.coresUsed = 0 || decide (2048 < h.coresUsed)) 2 4 .verify
    ++ refuse (!h.relocatable && decide (cores < h.coresUsed)) 3 4 .degraded
    ++ refuseAll 4 [(h.mode = 0 && decide (512 < h.coresUsed), 4), (h.mode = 0 && h.relocatable, 2)]

/-- The buffer declarations of an image. -/
def State.imgBufs (s : State) (g : JobImg) (h : TileHdr) : List Buf :=
  if g.len < h.bufOff + 16 * h.bufCount then []
  else tab h.bufCount (fun i =>
    let w := s.img g (h.bufOff + 16 * i) 16
    ⟨byteField w 0 5, byteField w 5 5, byteField w 10 1⟩)

/-- Check 5. Log entry 52 applies (DEDUCED). -/
def State.check5 (s : State) (g : JobImg) (h : TileHdr) (bufs : List Buf) : List Finding :=
  refuse (h.bufCount = 0 || decide (256 < h.bufCount)) 5 6 .verify
    ++ refuse (h.exch ≠ 255 && (bufs[h.exch]?).map (·.kind) ≠ some bufExch) 5 12 .verify
    ++ (bufs.mapIdx (fun i b =>
      let o := h.bufOff + 16 * i
      refuseAll 5 [(b.base % (if b.kind = bufExch then 1024 else 64) ≠ 0, o), (b.size = 0, o + 5), (3 < b.kind, o + 10),
        (s.img g (o + 11) 5 ≠ 0, o + 11)])).flatMap id

/-- Rings of bound `TAIL` programs, header and slots, as (base, bytes). Log entry 51 applies (DEDUCED). -/
def State.tailRings (s : State) : List (Nat × Nat) :=
  (s.units.nge.progs.filter (fun p => !p.2.front)).map (fun p => (p.2.base, p.2.ringBytes))

/-- Headers of every bound ring. -/
def State.ringHeaders (s : State) : List Nat := s.units.nge.progs.map (fun p => p.2.base)

/-- May a job declare this buffer over the NGE region (R234)? Log entry 51 applies (DEDUCED). -/
def State.ngeBufOk (s : State) (b : Buf) : Bool :=
  b.kind = bufIn
    || ((b.kind = bufOut || b.kind = bufInout)
      && (s.ringHeaders.any (fun r => within b.base b.size r ringHeader)
        || s.tailRings.any (fun r => within b.base b.size r.1 r.2)))

/-- Does a buffer lie in a region that the job may use (check 6, R101, R194, R234, R335)? Log entry 51 applies (DEDUCED). -/
def State.bufPlaced (s : State) (cls : Nat) (b : Buf) : Bool :=
  if isCs b.base then
    let o := (b.base - csBase) % csSize
    decide ((b.base - csBase) / csSize < s.cores') && s.coreRegions.any (fun r =>
      (r.cls = 1 || (decide (0 < cls) && r.cls = cls + 1)) && within o b.size (r.base64 * 65536) (r.size64 * 65536))
  else s.regions.any (fun r => within b.base b.size r.base r.size
    && (r.cls = 0 || (decide (0 < cls) && r.cls = cls) || (r.cls = classNge && s.ngeBufOk b)))

/-- Checks 6 and 7. Log entry 51 applies (DEDUCED). -/
def State.check6to7 (s : State) (cls : Nat) (h : TileHdr) (bufs : List Buf) : List Finding :=
  (bufs.mapIdx (fun i b =>
    let o := h.bufOff + 16 * i
    let hit := fun j c => decide (j ≠ i) && overlaps b.base b.size c.base c.size
    refuse (!s.bufPlaced cls b) 6 o .verify
      ++ refuse ((b.kind = bufExch && !(isMs b.base && decide (b.base + b.size ≤ msEnd)))
        || (bufs.mapIdx (fun j c => hit j c && (b.kind = bufExch || c.kind = bufExch
            || (b.kind ≠ bufIn && c.kind ≠ bufIn)))).any id) 7 o .verify)).flatMap id

/-! ### Code -/

/-- Where an instruction stands. -/
inductive Place where
  | stream
  | main
  | body
  deriving DecidableEq, Repr

/-- A run of instructions: its image offset, where its store image begins in the core store and in the image, the bytes of
that store image, and its words; how many words hold it, and the runs (first position and length) within them that are
bodies of their own. -/
structure Code where
  place : Place
  off : Nat
  csOff : Nat
  csImg : Nat
  csLen : Nat
  words : List Nat
  span : Nat
  bodies : List (Nat × Nat)

/-- Does position `i` lie in one of the runs? -/
def inRuns (l : List (Nat × Nat)) (i : Nat) : Bool := l.any (fun b => decide (b.1 ≤ i) && decide (i < b.1 + b.2))

/-- Is `j` a position that a BRANCH of the code may go to (check 9)? -/
def Code.target (c : Code) (j : Int) : Bool := decide (0 ≤ j) && decide (j < c.span) && !inRuns c.bodies j.toNat

/-- The words of a run. -/
def State.imgWords (s : State) (g : JobImg) (off n : Nat) : List Nat := tab n (fun i => s.img g (off + 16 * i) 16)

/-- A record at a core-store offset that lies in the code's store image. -/
def State.codeRec (s : State) (g : JobImg) (c : Code) (o n : Nat) : Option Nat :=
  if c.csOff ≤ o && decide (o + n ≤ c.csOff + c.csLen) then some (s.img g (c.csImg + (o - c.csOff)) n) else none

/-- Displacement of a BRANCH that branches; none for any other instruction. -/
def CoreInsn.hop : CoreInsn → Option Int
  | .branch c o => if c = 3 then none else some (signed 24 o.target)
  | _ => none

def CoreInsn.isNest : CoreInsn → Bool
  | .nest _ => true
  | _ => false

/-- What the descriptor of an instruction decides about its own fields: the banks of an ATT and of a WIN MMA outside a body
(R89, R169, R213; check 22 judges those of a body), and `NAME_REG` of a SAMPLE that draws (R86, R244). -/
def State.descFits (s : State) (g : JobImg) (c : Code) : CoreInsn → Bool
  | .att _ o =>
    c.place = .body || ((s.codeRec g c o.descOff 128).map (fun r => attBankOk o.bank (o.mM1 + 1) (AttDesc.ofNum r).d)).getD true
  | .win 1 o =>
    c.place = .body || ((s.codeRec g c o.descOff 384).map (fun r => bankOk o.bank (ConvDesc.ofNum r).m (o.nM1 + 1))).getD true
  | .rng 5 o =>
    decide (o.nameReg ≠ 0) || (((s.codeRec g c o.descOff 64).bind SampleDesc.ofNum).map (·.greedy)).getD true
  | _ => true

/-- Check 9 of the instruction at position i. -/
def State.insnOk (s : State) (g : JobImg) (c : Code) (i w : Nat) : Bool :=
  match checkedInsn w with
  | none => false
  | some x =>
    let posOk := match x with
      | .win _ o => c.place = .body || decide (o.posReg ≠ 0)
      | _ => true
    ((x.hop).map (fun d => c.target ((i : Int) + d))).getD true && posOk && !(x.isNest && decide (c.place ≠ .main))
      && s.descFits g c x

/-- Is a word a request halt point in the sense of check 10? -/
def haltWord (w : Nat) : Bool := (Hdr.ofWord w).haltOk || w / 2 ^ 122 = 0x3e

/-- Check 10 of one instruction. -/
def loopOk (words : List Nat) (i w : Nat) : Bool :=
  match (CoreInsn.ofWord w).bind CoreInsn.hop with
  | none => true
  | some d =>
    if 0 < d then true
    else
      let first := ((i : Int) + d).toNat
      ((words.drop first).take (i + 1 - first)).any haltWord

/-! ### Check 11: the issue time between halts -/

/-- Cycles per block (Table 03-9), rows of A being read at `ea` bytes per block. -/
def blockCyclesAt (ea a b m n : Nat) : Nat :=
  if a = 1 || a = 2 then max (ceilDiv m 8 * ceilDiv n 16) (ceilDiv ((m + n) * 64) 512)
  else
    let wide := blockBytes a = 32 || blockBytes b = 32
    let bytes := m * ea + n * blockBytes b + (if isMX a then m + n else 0)
    max (ceilDiv m 16 * ceilDiv n (if wide then 16 else 32)) (ceilDiv bytes 512)

def blockCycles (a b m n : Nat) : Nat := blockCyclesAt (blockBytes a) a b m n

/-- The SCAN pre-pass (Table 03-9). -/
def prePass (a m n k : Nat) : Nat :=
  if isMX a then ceilDiv ((m + n) * ceilDiv k 32) 512 + 8
  else if a = 1 then ceilDiv ((m + n) * k * 2) 512 + 8 else 0

/-- A matrix-engine cycle at the lowest issue rate (R453). -/
def atIssueMin (c : Nat) : Nat := ceilDiv (c * 64) 48

/-- Bytes through the mesh port at 204.8 bytes per cycle. -/
def meshCycles (n : Nat) : Nat := ceilDiv (n * 10) 2048

/-- What check 11 needs beside the words. -/
structure CostEnv where
  arith : Nat
  mesh : Nat
  desc : Nat → Nat → Option Nat
  bufs : List Buf
  /-- The value of a register that is fixed before the job starts. -/
  fixed : Nat → Option Nat
  /-- Largest key count of a descriptor's table, and its walker context. -/
  keys : AttDesc → Nat
  ctx : AttDesc → Option WalkCtx
  /-- Largest number of present pages among the handles of a descriptor's table. -/
  pages : AttDesc → Nat
  kTile : Nat
  /-- Does a register hold an address in the store of the core that runs the code? -/
  own : Nat → Bool

/-- Cycles of a PASS over n keys, M rows: periods of R183, each one raising an anchor. -/
def passCycles (d : AttDesc) (m n : Nat) : Nat :=
  let p := if isMX d.vFmt then 3 else 1
  let mat := atIssueMin (d.d / 32 * blockCycles d.qFmt d.kFmt m 128 + 4 * blockCycles p d.vFmt m d.d)
  let subs := ceilDiv n 128
  (subs + 2) * max mat (m * 4) + 32 * subs

/-- Cycles of the selection stage (R206). -/
def selectCycles (d : AttDesc) (c : WalkCtx) (m n : Nat) : Nat :=
  max (max (atIssueMin (ceilDiv n 256 * (2 * d.d / 32) * blockCycles d.qFmt d.kFmt m 256)) (ceilDiv (m * n) 16))
    (meshCycles (n * c.sb)) + 64

/-- Cycles of an ATT: a PASS and its possible replay, with the stage of R206 for a first one and the post and return of a
last one; SEND; DRAIN (R182, R529). Log entry 54 applies (DEDUCED). -/
def attCycles (e : CostEnv) (op : Nat) (o : AttOps) : Nat :=
  match e.desc o.descOff 128 with
  | none => 0
  | some w =>
    let d := AttDesc.ofNum w
    let m := o.mM1 + 1
    let all := e.keys d
    let n :=
      if o.rangeReg ≠ 0 then ((e.fixed (o.rangeReg + 1)).map (min all)).getD all
      else if o.xslotReg = 10 && decide (0 < e.kTile) then min e.kTile all else all
    if op = 0 then
      2 * passCycles d m n
        + (if o.first = 1 then
            match e.ctx d with
            | none => 0
            | some c => if c.index then selectCycles d c m (e.pages d) else 0
          else 0)
        + (if o.last = 1 then 136 else 0)
    else if op = 1 then meshCycles (m * d.d * 32 + m * 48)
    else 14 + ceilDiv (m * d.d) 64

/-- Cycles of a WIN (R222). Log entry 54 applies (DEDUCED). -/
def winCycles (e : CostEnv) (op : Nat) (o : WinOps) : Nat :=
  match e.desc o.descOff 384 with
  | none => 0
  | some w =>
    let d := ConvDesc.ofNum w
    let k := min 8192 d.kLog
    let n := o.nM1 + 1
    match op with
    | 0 => meshCycles (d.field * (ceilDiv d.c' 32 * (blockBytes d.inFmt + 1)))
    | 1 => atIssueMin (24 + (if o.anchorMode = 0 && o.xslotReg = 0 then prePass d.inFmt d.m n k else 0)
        + ceilDiv k 32 * blockCyclesAt 64 d.inFmt d.wFmt d.m n + 10)
    | 2 => 60 + atIssueMin (prePass d.inFmt d.m n k)
    | 3 => (d.taps + (if d.pool = 1 then 1 else 2)) * d.m
    | _ => meshCycles (d.m * chanBytes d.outFmt n)

/-- Cycles of one instruction (Tables 03-9, 03-12, 09-7). Log entry 54 applies (DEDUCED). -/
def insnCycles (e : CostEnv) : CoreInsn → Nat
  | .mma o =>
    let m := o.mM1 + 1
    let n := o.nM1 + 1
    let k := o.kM1 + 1
    atIssueMin (24 + (if o.anchorMode = 0 && o.xslotReg = 0 then prePass o.fmtA m n k else 0)
      + ceilDiv k 32 * blockCycles o.fmtA o.fmtB m n + 10)
  | .drain o => 14 + 128 * (tileBanks o.bank (o.mM1 + 1) (o.nM1 + 1)).length
  | .clearb _ => 16
  | .xmax o => 60 + atIssueMin (prePass o.fmtA (o.mM1 + 1) (o.nM1 + 1) (o.kM1 + 1))
  | .xmerge _ => 60
  | .vop _ _ => 4
  | .lacc op _ => if op = 3 then 20 else 6
  | .sfn _ _ => 26
  | .rng op o =>
    if op = 5 then
      match (e.desc o.descOff 64).bind SampleDesc.ofNum with
      | none => 0
      | some d =>
        let row := if e.own o.rowSreg then ceilDiv d.v 128 else meshCycles (d.v * d.eb)
        (if d.greedy || decide (0 < d.topk) then 1 else 3) * row + 2 * ceilDiv (min d.topk d.v) 32 + 96
    else 4
  | .ld _ => 12
  | .st _ => 12
  | .move o => ceilDiv ((e.fixed o.lenReg).getD (2 ^ 30) * e.arith) (256 * max 1 e.mesh)
  | .branch _ _ => 6
  | .att op o => attCycles e op o
  | .win op o => winCycles e op o
  | _ => 1

/-- Each word with whether it stands inside an ATT chain: after a PASS and before the SEND or DRAIN that ends it, where no
halt falls (R182). Log entry 54 applies (DEDUCED). -/
def chainMarks : Bool → List Nat → List (Nat × Bool)
  | _, [] => []
  | open', w :: l =>
    let now := match CoreInsn.ofWord w with
      | some (.att op _) => decide (op = 0)
      | _ => open'
    (w, now) :: chainMarks now l

/-- Longest time from each position to the next halt point, last position first in the recursion; `back` gives the time from
a position for backward branches. -/
def halts (e : CostEnv) (back : Nat → Nat) : Nat → List (Nat × Bool) → List Nat
  | _, [] => []
  | i, (w, chained) :: l =>
    let rest := halts e back (i + 1) l
    match CoreInsn.ofWord w with
    | none => 0 :: rest
    | some x =>
      let after :=
        if haltWord w && !chained then 0
        else
          let far := match x.hop with
            | none => 0
            | some d => if 0 < d then nth 0 rest (d.toNat - 1) else back ((i : Int) + d).toNat
          max (nth 0 rest 0) far
      (insnCycles e x + after) :: rest

/-- The longest issue time between two halt points, in cycles: every branch may be taken or not, and a loop is followed
once round. Log entry 54 applies (DEDUCED). -/
def longestHalt (e : CostEnv) (words : List Nat) : Nat :=
  let l := chainMarks false words
  let once := halts e (fun _ => 0) 0 l
  (halts e (fun i => nth 0 once i) 0 l).foldl max 0

/-- Check 11: above 500 µs at the ARITH frequency in kHz. -/
def tooLong (e : CostEnv) (words : List Nat) : Bool := decide (e.arith < 2 * longestHalt e words)

/-- Frequency of domain d in kHz, of the CLOCKS section in use. -/
def State.khz (s : State) (d : Nat) : Nat := (s.boot.image.map (fun im => nth 0 im.khz d)).getD 0

/-! ### Descriptors at load -/

/-- Entries of the length table of a descriptor. -/
def State.lenTable (s : State) (bufs : List Buf) (d : AttDesc) : List Nat :=
  match bufs[d.lenBuf]? with
  | none => []
  | some b => if d.lenOff + 32 * d.seqCount ≤ b.size then tab d.seqCount (fun i => s.num (b.base + d.lenOff + 32 * i) 32) else []

/-- Keys that the largest entry clips to. -/
def State.tableKeys (s : State) (bufs : List Buf) (d : AttDesc) : Nat :=
  (s.lenTable bufs d).foldl (fun m w =>
    let e := LenEntry.ofNum w
    max m (if d.flat then nth 0 d.buckets e.bucket else e.kLen)) 0

/-- The largest number of pages present in a handle of the table: those from `FIRST_POS` to `LEN` (R193, R206). -/
def State.tablePages (s : State) (bufs : List Buf) (d : AttDesc) : Nat :=
  (s.lenTable bufs d).foldl (fun m w =>
    let r := s.kvp.seq (bits (LenEntry.ofNum w).kvRef 13 0)
    max m (r.endPage - r.firstPage)) 0

/-- A FLAT run inside its buffer (R173). -/
def runInside (bufs : List Buf) (b off n : Nat) : Bool := ((bufs[b]?).map (fun x => decide (off + n ≤ x.size))).getD false

/-- One length-table entry against the descriptor, the buffers and the page subsystem (R171, R173, R192, R195). -/
def State.lenOk (s : State) (bufs : List Buf) (d : AttDesc) (w : Nat) : Bool :=
  let e := LenEntry.ofNum w
  let reserved := byteField w 13 3 = 0 && byteField w 27 5 = 0
  let run := nth 0 d.buckets e.bucket / 64 * pageBytes d.kFmt d.vFmt d.d
  let r := s.kvp.seq (bits e.kvRef 13 0)
  reserved && decide (e.qLen ≤ 2 ^ 24)
    && (if d.flat then
        decide (e.bucket ≤ 15) && decide (nth 0 d.buckets e.bucket ≠ 0) && decide (e.kLen ≤ nth 0 d.buckets e.bucket)
          && runInside bufs d.kBuf e.kvRef run && runInside bufs d.vBuf e.vOff run
      else
        decide (e.kvRef < 16384) && e.vOff = 0 && e.bucket = 0
          && r.live && r.ctx = bits d.walkCtx 7 0 && decide (e.kLen ≤ r.len))


/-- Where the length table of an attention descriptor lies. -/
def AttDesc.lenRange (d : AttDesc) (bufs : List Buf) : Option (Nat × Nat) :=
  (bufs[d.lenBuf]?).map (fun b => (b.base + d.lenOff, 32 * d.seqCount))

/-- Findings on an attention descriptor at image offset `o`. Log entry 53 applies (DEDUCED). -/
def State.attLoad (s : State) (bufs : List Buf) (w o : Nat) : List Finding :=
  let d := AttDesc.ofNum w
  let t := s.lenTable bufs d
  let dead := ((d.lenRange bufs).map (fun r => !(s.deadWords r.1 r.2).isEmpty)).getD false
  refuse (!d.flat && !s.flag Fld.KVP_STATUS_ENABLED) 0 o .notReady
    ++ refuse dead 0 o .uncorrectable
    ++ refuse (!s.attDescOk bufs d w || !t.all (s.lenOk bufs d)) 0 o .verify

/-- Does an instruction use random numbers (R256)? -/
def CoreInsn.random : CoreInsn → Bool
  | .rng _ _ => true
  | .drain o => o.rnd = 5
  | .vop _ o => o.rnd = 5
  | .lacc _ o => o.rnd = 5
  | _ => false

/-- Findings on the descriptors and the random numbers of the instruction at image offset `o'`. Log entry 53 applies
(DEDUCED). -/
def State.descLoad (s : State) (g : JobImg) (bufs : List Buf) (c : Code) (o' w : Nat) : List Finding :=
  match CoreInsn.ofWord w with
  | none => []
  | some x =>
    let at' := fun o => c.csImg + (o - c.csOff)
    refuse (x.random && !s.ready rdyRng) 0 o' .notReady
      ++ (match x with
        | .att _ o => ((s.codeRec g c o.descOff 128).map (fun r => s.attLoad bufs r (at' o.descOff))).getD []
        | .win _ o => ((s.codeRec g c o.descOff 384).map (fun r => refuse (!convOk bufs r) 0 (at' o.descOff) .verify)).getD []
        | .rng 5 o => ((s.codeRec g c o.descOff 64).map (fun r =>
            refuse (SampleDesc.ofNum r).isNone 0 (at' o.descOff) .verify)).getD []
        | _ => [])

/-- The environment of check 11 for a run of instructions. Log entry 54 applies (DEDUCED). -/
def State.costEnv (s : State) (g : JobImg) (bufs : List Buf) (c : Code) (fixed : Nat → Option Nat) (own : Nat → Bool)
    (kTile : Nat) : CostEnv :=
  { arith := s.khz 0, mesh := s.khz 1, desc := fun o n => s.codeRec g c o n, bufs, fixed, keys := s.tableKeys bufs,
    ctx := fun d => if d.flat then none else SMap.find s.kvp.ctxs (bits d.walkCtx 7 0), pages := s.tablePages bufs, kTile, own }

/-- Checks 9 to 11 and those on descriptors, for a run of instructions. Check 11 names no field (R137). -/
def State.checkCode (s : State) (g : JobImg) (bufs : List Buf) (c : Code) (fixed : Nat → Option Nat) (own : Nat → Bool)
    (kTile : Nat) : List Finding :=
  (c.words.mapIdx (fun i w =>
    if inRuns c.bodies i then []
    else refuse (!s.insnOk g c i w) 9 (c.off + 16 * i) .verify ++ refuse (!loopOk c.words i w) 10 (c.off + 16 * i) .verify
      ++ s.descLoad g bufs c (c.off + 16 * i) w)).flatMap id
    ++ refuse (tooLong (s.costEnv g bufs c fixed own kTile) c.words) 11 0 .verify

/-! ### Streams (Table 04-6) -/

/-- A stream table entry. -/
structure StreamEntry where
  off : Nat
  length : Nat
  load : Nat
  ctxs : Nat
  preset : Nat

def StreamEntry.ofNum (w : Nat) : StreamEntry :=
  ⟨byteField w 0 8, byteField w 8 4, byteField w 12 3, byteField w 15 1, byteField w 16 8⟩

/-- The stream table. -/
def State.streams (s : State) (g : JobImg) (h : TileHdr) : List StreamEntry :=
  if h.mode ≠ 0 || decide (g.len < h.listOff + h.listBytes) then []
  else tab h.listCount (fun i => StreamEntry.ofNum (s.img g (h.listOff + 24 * i) 24))

/-- Is [o, o + n) wholly inside one JOB region of the core store? -/
def State.inJobRegion (s : State) (o n : Nat) : Bool :=
  s.coreRegions.any (fun r => r.cls = 1 && within o n (r.base64 * 65536) (r.size64 * 65536))

/-- Does a stream lie in the image, with a length in its range? -/
def StreamEntry.inImage (e : StreamEntry) (len : Nat) : Bool :=
  decide (1 ≤ e.length) && decide (e.length ≤ 65536) && decide (e.off + 16 * e.length ≤ len)

/-- Check 8 of the stream entry at image offset `o`, at the field that fails. -/
def State.check8 (s : State) (g : JobImg) (e : StreamEntry) (o : Nat) : List Finding :=
  refuseAll 8 [(e.off % 16 ≠ 0 || decide (g.len < e.off + 16 * e.length), o),
    (e.length = 0 || decide (65536 < e.length), o + 8),
    (e.load % 16 ≠ 0 || !s.inJobRegion e.load (16 * e.length), o + 12), (e.ctxs = 0 || decide (16 < e.ctxs), o + 15),
    (e.preset % 16 ≠ 0 || decide (g.len < e.preset + 768), o + 16), (s.img g (e.preset + 720) 48 ≠ 0, e.preset + 720)]

/-- The value of scalar register n at the start of a stream: its preset; s1 the context's number, at its largest (R118). -/
def State.presetS (s : State) (g : JobImg) (e : StreamEntry) (n : Nat) : Nat :=
  if n = 0 then 0 else if n = 1 then e.ctxs - 1 else s.img g (e.preset + 8 * (n - 2)) 8

/-- Does a fabric address lie in the core store of logical core n of this module? -/
def State.inOwnStore (s : State) (n a : Nat) : Bool :=
  decide (fabModule a = s.moduleId) && within (fabLocal a) 1 (csAddr n 0) csSize

/-- Findings on every stream. -/
def State.checkStreams (s : State) (g : JobImg) (h : TileHdr) (bufs : List Buf) : List Finding :=
  ((s.streams g h).mapIdx (fun i e =>
    s.check8 g e (h.listOff + 24 * i)
      ++ if !e.inImage g.len then []
         else s.checkCode g bufs
           ⟨.stream, e.off, e.load, e.off, 16 * e.length, s.imgWords g e.off e.length, e.length, []⟩
           (fun n => some (s.presetS g e n)) (fun n => s.inOwnStore i (s.presetS g e n)) 0)).flatMap id

/-! ### Nests (Tables 04-7 to 04-10) -/

/-- Words up to the first END that lies outside the given runs of positions, from position i; a word inside one of the runs
reads as NOP. -/
def mainWords (bodies : List (Nat × Nat)) : Nat → List Nat → List Nat
  | _, [] => []
  | i, w :: l =>
    if inRuns bodies i then 0 :: mainWords bodies (i + 1) l
    else if w / 2 ^ 122 = 0x3f then [w] else w :: mainWords bodies (i + 1) l

/-- NESTs of the code with their positions. -/
def nestsOf (words : List Nat) : List (Nat × NestOps) :=
  (words.mapIdx (fun i w => (i, CoreInsn.ofWord w))).filterMap (fun p => match p.2 with
    | some (.nest o) => some (p.1, o)
    | _ => none)

/-- The bodies that NESTs name, as positions in the common image. -/
def bodyRuns (load : Nat) (l : List (Nat × NestOps)) : List (Nat × Nat) :=
  l.filterMap (fun n => if load ≤ n.2.bodyOff then some ((n.2.bodyOff - load) / 16, n.2.bodyLenM1 + 1) else none)

/-- The bodies of the NESTs that stand before the first END outside every body, found in at most `fuel` rounds. -/
def settleBodies (load : Nat) (words : List Nat) : Nat → List (Nat × Nat) → List (Nat × Nat)
  | 0, b => b
  | fuel + 1, b =>
    let b1 := bodyRuns load (nestsOf (mainWords b 0 words))
    if b1 = b then b else settleBodies load words fuel b1

/-- The common image as code: what context 0 runs from its first byte to the first END, the bodies apart.
Log entry 52 applies (DEDUCED). -/
def State.mainCode (s : State) (g : JobImg) (h : TileHdr) : Code :=
  let words := s.imgWords g h.listOff (h.commonLen / 16)
  let bodies := settleBodies h.commonLoad words 8 []
  ⟨.main, h.listOff, h.commonLoad, h.listOff, h.commonLen, mainWords bodies 0 words, h.commonLen / 16, bodies⟩

/-- The body of a NEST, where it lies in the common image. -/
def State.bodyCode (s : State) (g : JobImg) (c : Code) (o : NestOps) : Option Code :=
  let n := o.bodyLenM1 + 1
  if c.csOff ≤ o.bodyOff && decide (o.bodyOff + 16 * n ≤ c.csOff + c.csLen) then
    let off := c.csImg + (o.bodyOff - c.csOff)
    some { c with place := .body, off, words := s.imgWords g off n, span := n, bodies := [] }
  else none

/-- Check 12, at the field that fails. Log entry 52 applies (DEDUCED). -/
def NestDesc.check12 (d : NestDesc) (w o : Nat) : List Finding :=
  refuseAll 12 ([(d.csStep % 64 ≠ 0 || decide (2 ^ 22 ≤ d.csStep), o + 60), (byteField w 0 1 ≠ 1, o), (decide (1 < d.kind), o + 1),
      (decide (1 < byteField w 2 1), o + 2), (byteField w 7 1 ≠ 0, o + 7), (byteField w 12 4 ≠ 0, o + 12),
      (byteField w 31 1 ≠ 0, o + 31), (byteField w 38 2 ≠ 0, o + 38)]
    ++ (List.range 6).flatMap (fun i =>
      let p := 64 + 32 * i
      [(decide (2 < byteField w (p + 5) 1), o + p + 5), (decide (byteField w (p + 6) 2 ≠ 0), o + p + 6),
        (decide (byteField w (p + 28) 4 ≠ 0), o + p + 28)])
    ++ (List.range 4).flatMap (fun j =>
      let p := 256 + 32 * j
      [(decide (10 < byteField w (p + 1) 1), o + p + 1), (decide (byteField w (p + 3) 1 ≠ 0), o + p + 3),
        (decide (byteField w (p + 14) 2 ≠ 0), o + p + 14), (decide (byteField w (p + 21) 3 ≠ 0), o + p + 21),
        (decide (byteField w (p + 28) 4 ≠ 0), o + p + 28)]))

/-- Does a body hold an MMA, XMAX or WIN? -/
def bodyHasMma (words : List Nat) : Bool := words.any (fun w => w / 2 ^ 122 = 0x01 || w / 2 ^ 122 = 0x04 || w / 2 ^ 122 = 0x21)

/-- Check 13. -/
def NestDesc.check13 (d : NestDesc) (attn mma : Bool) (o : Nat) : List Finding :=
  let tile := d.kind = 0
  let kOk :=
    if !tile then d.kTile = 0
    else if attn then decide (64 ≤ d.kTile) && decide (d.kTile ≤ 65472) && d.kTile % 64 = 0
      && !(decide (8192 < d.kTile) && mma)
    else decide (1 ≤ d.kTile) && decide (d.kTile ≤ 8192)
  refuseAll 13 [(if tile then d.split = 0 || decide (64 < d.split) else d.split ≠ 1, o + 3),
    (d.chunk = 0 || decide (256 < d.chunk) || (decide (1 < d.chunk) && decide (1 < d.split)), o + 4),
    (if tile then d.mTile = 0 || decide (128 < d.mTile) else d.mTile ≠ 0, o + 6),
    (if tile then d.nTile = 0 || decide (256 < d.nTile) else d.nTile ≠ 0, o + 8), (!kOk, o + 10)]

/-- Check 14, at the `RANK` or `ROLE` that fails: a rank beyond 5 or one that an earlier level has, a role that an earlier
level has, a role of a LANE nest. -/
def NestDesc.check14 (d : NestDesc) (o : Nat) : List Finding :=
  refuseAll 14 ((d.levels.mapIdx (fun i l =>
    let before := d.levels.take i
    let role := decide (1 ≤ l.role) && decide (l.role ≤ 2)
    [(decide (5 < l.rank) || before.any (fun x => x.rank = l.rank), o + 64 + 32 * i + 4),
      (role && (d.kind = 1 || before.any (fun x => x.role = l.role)), o + 64 + 32 * i + 5)])).flatMap id)

/-- The first level with a role: its bound and the offset of its `BOUND`; bound 1 and the offset `log` where none has it. -/
def NestDesc.roleBound (d : NestDesc) (role log : Nat) : Nat × Nat :=
  match (List.range 6).find? (fun i => (nth ⟨1, 6, 0, []⟩ d.levels i).role = role) with
  | none => (1, log)
  | some i => ((nth ⟨1, 6, 0, []⟩ d.levels i).bound, 64 + 32 * i)

/-- Check 15, at the field that fails. Log entry 55 applies (DEDUCED). -/
def NestDesc.check15 (d : NestDesc) (o : Nat) : List Finding :=
  let m := d.roleBound 1 16
  let n := d.roleBound 2 21
  if d.kind = 0 then
    refuseAll 15 [(d.mLog = 0 || decide (2 ^ 39 < d.mLog), o + 16), (decide (m.1 ≠ ceilDiv d.mLog (max 1 d.mTile)), o + m.2),
      (d.nLog = 0, o + 21), (decide (n.1 ≠ ceilDiv d.nLog (max 1 d.nTile)), o + n.2),
      (d.kLog = 0 || decide (2 ^ 36 < d.kLog), o + 26), (decide (d.split ≠ ceilDiv d.kLog (max 1 d.kTile)), o + 3),
      (decide (1 < d.split) && d.kTile % 32 ≠ 0, o + 10), (d.g ≠ 0, o + 32)]
  else
    refuseAll 15 [(d.mLog ≠ 0, o + 16), (d.nLog ≠ 0, o + 21), (d.kLog ≠ 0, o + 26),
      (d.g = 0 || decide (2 ^ 40 < d.g) || decide (d.bounds ≠ ceilDiv d.g 128), o + 32)]

/-- Is an index that of a buffer of one of the kinds? -/
def kindIn (bufs : List Buf) (kinds : List Nat) (i : Nat) : Bool :=
  match bufs[i]? with
  | none => false
  | some b => kinds.contains b.kind

/-- Operands that are used, with their numbers. -/
def NestDesc.used (d : NestDesc) : List (Nat × NestOperand) :=
  (d.operands.mapIdx (fun j p => (j, p))).filter (fun x => decide (x.2.buf ≠ 255))

/-- Check 17, at the field that fails. -/
def NestDesc.check17 (d : NestDesc) (bufs : List Buf) (o : Nat) : List Finding :=
  d.used.flatMap (fun (j, p) =>
    let kinds := if j = 2 then [bufOut, bufInout, bufExch] else [bufIn, bufInout, bufExch]
    let at' := o + 256 + 32 * j
    refuseAll 17 [(!kindIn bufs kinds p.buf, at'),
      (if isMX p.fmt then p.scaleBuf = 255 || !kindIn bufs kinds p.scaleBuf else decide (p.scaleBuf ≠ 255), at' + 2),
      (isMX p.fmt && j = 2 && d.kind = 0 && decide (d.nTile % 32 ≠ 0), o + 8)])

/-- Low and high end of operand j's displacement over all items. -/
def NestDesc.reach (d : NestDesc) (j : Nat) (kstep : Int) : Int × Int :=
  let terms := ((d.split - 1 : Nat) : Int) * kstep :: d.levels.map (fun l => ((l.bound - 1 : Nat) : Int) * nth 0 l.strides j)
  (terms.foldl (fun a x => a + min x 0) 0, terms.foldl (fun a x => a + max x 0) 0)

/-- Check 18, at the field that fails. -/
def NestDesc.check18 (d : NestDesc) (bufs : List Buf) (o : Nat) : List Finding :=
  if d.bounds = 0 then []
  else d.used.flatMap (fun (j, p) =>
    let r := d.reach j p.kstep
    let size := fun b => ((bufs[b]?).map (·.size)).getD 0
    let q := rb p.fmt
    let at' := o + 256 + 32 * j
    let inside := fun (b off : Nat) (lo hi : Int) (foot : Nat) =>
      decide (0 ≤ (off : Int) + lo) && decide ((off : Int) + hi + foot ≤ size b)
    refuseAll 18 [(p.footprint = 0, at' + 24), (!inside p.buf p.offset r.1 r.2 p.footprint, at' + 4),
      (isMX p.fmt && !inside p.scaleBuf p.scaleOffset (r.1.fdiv q) (r.2.fdiv q) (ceilDiv p.footprint q), at' + 9)])

/-- Check 19, at the field that fails. -/
def NestDesc.check19 (d : NestDesc) (o : Nat) : List Finding :=
  d.used.flatMap (fun (j, p) =>
    let at' := o + 256 + 32 * j
    let bad := fun (x : Int) => decide (x % 64 ≠ 0) || (isMX p.fmt && decide (x % (32 * rb p.fmt : Nat) ≠ 0))
    refuseAll 19 ((bad p.offset, at' + 4) :: (bad p.kstep, at' + 16) :: (decide (p.scaleOffset % 32 ≠ 0), at' + 9)
      :: d.levels.mapIdx (fun i l => (bad (nth 0 l.strides j), o + 64 + 32 * i + 8 + 5 * j))))

/-- What a register of Table 04-11 holds in a body, at its largest over the items; none for another register. `base` gives the
fabric address of a buffer, `exch` that of the exchange buffer's first byte (local outside an attention nest), `store` that of
the last used core's store. -/
def NestDesc.fixed (d : NestDesc) (attn : Bool) (base : Nat → Nat) (exch store ctxs n : Nat) : Option Nat :=
  let tile := d.kind = 0
  let split := tile && decide (1 < d.split)
  if n = 0 then some 0
  else if n = 1 then some (if tile then 0 else d.bounds - 1)
  else if n ≤ 9 then
    let j := (n - 2) / 2
    let p := nth ⟨255, 0, 255, 0, 0, 0, 0⟩ d.operands j
    let hi := (d.reach j p.kstep).2
    if p.buf = 255 then some 0
    else if n % 2 = 0 then some (((base p.buf + p.offset : Nat) : Int) + hi).toNat
    else some (if isMX p.fmt then (((base p.scaleBuf + p.scaleOffset : Nat) : Int) + hi.fdiv (rb p.fmt)).toNat else 0)
  else if n = 10 then some (if split then exch + d.slotOff + 1024 * (min d.bounds d.slotCount - 1) else 0)
  else if n = 11 then some (if !split then 0 else if attn then d.split - 1 + (d.split - 1) * 2 ^ 8 else d.kLog)
  else if n = 12 then some (d.total - 1)
  else if n = 13 then
    some (if tile then d.mEff 0 * 2 ^ 23 + d.nEff 0 * 2 ^ 14 + (if attn && decide (8192 < d.kTile) then 0 else d.kEff 0) else 0)
  else if n = 14 then some (d.split - 1)
  else if 32 ≤ n && n ≤ 47 then
    let k := n - 32
    let w := nth 0 d.template k
    let adj := fun q => if bit d.templateAdj k then putBits w 21 0 (bits w 21 0 + q * d.csStep) else w
    let top := (List.range (max 1 ctxs)).foldl (fun m q => max m (adj q)) 0
    some (if bit d.templateLocal k then (top + store) % 2 ^ 64 else top)
  else none

/-- Buffers that a convolution or attention descriptor of the body reads, and those it writes (R221). -/
def State.bodyBufs (s : State) (g : JobImg) (c : Code) : List Nat × List Nat :=
  let one := fun w => match CoreInsn.ofWord w with
    | some (.win _ o) =>
      match s.codeRec g c o.descOff 384 with
      | none => ([], [])
      | some r =>
        let d := ConvDesc.ofNum r
        let sc := fun fmt (m : MapAt) => if isMX fmt then [m.buf, m.scaleBuf] else [m.buf]
        let gate := fun b => if b = 255 then [] else [b]
        (sc d.inFmt d.input ++ gate d.gateBuf
          ++ d.halos.flatMap (fun h => if h.width = 0 then [] else sc d.inFmt h.slab ++ gate h.gateBuf),
          sc d.outFmt d.output)
    | some (.att _ o) =>
      match s.codeRec g c o.descOff 128 with
      | none => ([], [])
      | some r =>
        let d := AttDesc.ofNum r
        (if d.flat then [d.lenBuf, d.kBuf, d.vBuf] else [d.lenBuf], [])
    | _ => ([], [])
  let l : List (List Nat × List Nat) := c.words.map one
  (l.flatMap (·.1), l.flatMap (·.2))

/-- Check 20: `COMMITTED` 0 and operand 2 over a buffer that the nest reads (R134). -/
def NestDesc.check20 (d : NestDesc) (bufs : List Buf) (rd wr : List Nat) (o : Nat) : List Finding :=
  let bufsOf := fun (x : Nat × NestOperand) => if isMX x.2.fmt then [x.2.buf, x.2.scaleBuf] else [x.2.buf]
  let outs := (d.used.filter (fun x => x.1 = 2)).flatMap bufsOf ++ wr
  let ins := (d.used.filter (fun x => decide (x.1 ≠ 2))).flatMap bufsOf ++ rd
  let hit := fun a b => match bufs[a]?, bufs[b]? with
    | some x, some y => overlaps x.base x.size y.base y.size
    | _, _ => false
  refuse (!d.committed && outs.any (fun a => ins.any (fun b => hit a b))) 20 (o + 2) .verify

/-- Check 21, for a number of cores, at the field that fails. -/
def NestDesc.check21 (d : NestDesc) (op : NestOps) (relocatable : Bool) (cores exchSize o : Nat) : List Finding :=
  let table := (if relocatable then 2048 else cores) * op.ctxCount
  let many := decide (1 < d.split)
  refuseAll 21 [(d.counterOff % 64 ≠ 0 || decide (exchSize < d.counterOff + 64 + 24 * table), o + 40),
    (if many then d.slotOff % 1024 ≠ 0 || decide (exchSize < d.slotOff + 1024 * d.slotCount) else decide (d.slotOff ≠ 0), o + 44),
    (if many then decide (d.slotCount < table) else decide (d.slotCount ≠ 0), o + 48),
    (many && decide (cores * op.ctxCount < d.split), o + 3),
    (if d.committed then d.logOff % 64 ≠ 0 || decide (exchSize < d.logOff + 64) else d.logOff ≠ 0, o + 52)]

/-- The bank fields of one body instruction under a shift (R89, R125), and XMAX's parts (R126). -/
def State.bodyInsnOk (s : State) (g : JobImg) (c : Code) (shift w : Nat) : Bool :=
  match CoreInsn.ofWord w with
  | none => true
  | some x =>
    match x with
    | .mma o => bankOk (o.bank + shift) (o.mM1 + 1) (o.nM1 + 1)
    | .drain o => bankOk (o.bank + shift) (o.mM1 + 1) (o.nM1 + 1)
    | .xmax o => bankOk (o.bank + shift) (o.mM1 + 1) (o.nM1 + 1) && o.part = 0 && o.partsM1 = 0
    | .xmerge o => bankOk (o.bank + shift) (o.mM1 + 1) (o.nM1 + 1)
    | .clearb o => decide (o.bankMask * 2 ^ shift < 16)
    | .win 1 o =>
      match s.codeRec g c o.descOff 384 with
      | none => decide (o.bank + shift ≤ 3)
      | some r => bankOk (o.bank + shift) (ConvDesc.ofNum r).m (o.nM1 + 1)
    | .att _ o =>
      match s.codeRec g c o.descOff 128 with
      | none => decide (o.bank + shift ≤ 3)
      | some r => attBankOk (o.bank + shift) (o.mM1 + 1) (AttDesc.ofNum r).d
    | _ => true

/-- Check 22. Log entry 52 applies (DEDUCED). Log entry 55 applies (DEDUCED). -/
def State.check22 (s : State) (g : JobImg) (c : Code) (op : NestOps) (o : Nat) : List Finding :=
  refuse (op.ctxCount = 0 || decide (16 < op.ctxFirst + op.ctxCount)) 22 o .verify
    ++ (c.words.mapIdx (fun i w =>
      refuse (!(List.range op.ctxCount).all (fun q => s.bodyInsnOk g c (q * op.bankStep) w)) 22 (c.off + 16 * i) .verify)).flatMap id

/-- Findings on one NEST at image offset `o`. -/
def State.checkNest (s : State) (g : JobImg) (h : TileHdr) (bufs : List Buf) (c : Code) (op : NestOps) (o cores : Nat) :
    List Finding :=
  match s.codeRec g c op.descOff 512, s.bodyCode g c op with
  | some w, some b =>
    let d := NestDesc.ofNum w
    let p := c.csImg + (op.descOff - c.csOff)
    let attn := b.words.any isNestAtt
    let rw := s.bodyBufs g b
    let ex := if h.exch = 255 then none else bufs[h.exch]?
    let exch := (ex.map (·.size)).getD 0
    let top := (ex.map (·.base)).getD 0
    let fixed := d.fixed attn (fun i => s.fabricAddr (((bufs[i]?).map (·.base)).getD 0)) (if attn then s.fabricAddr top else top)
      (s.fabricAddr (csAddr (cores - 1) 0)) op.ctxCount
    d.check12 w p ++ d.check13 attn (bodyHasMma b.words) p ++ d.check14 p ++ d.check15 p
      ++ refuse (decide (2 ^ 48 < d.bounds * d.split)) 16 (p + 64) .verify
      ++ d.check17 bufs p ++ d.check18 bufs p ++ d.check19 p ++ d.check20 bufs rw.1 rw.2 p
      ++ refuse (h.exch = 255) 21 12 .verify ++ d.check21 op h.relocatable cores exch p ++ s.check22 g b op o
      ++ s.checkCode g bufs b fixed (fun n => decide (32 ≤ n) && decide (n ≤ 47) && bit d.templateLocal (n - 32)
          && ((fixed n).map (s.inOwnStore (cores - 1))).getD false) (if attn then d.kTile else 0)
  | none, _ => [⟨12, o, .verify⟩]
  | some _, none => [⟨22, o, .verify⟩]

/-- Check 8 of the common image, at the field that fails. -/
def State.check8Common (s : State) (g : JobImg) (h : TileHdr) : List Finding :=
  refuseAll 8 [(h.commonLoad % 16 ≠ 0 || !s.inJobRegion h.commonLoad h.commonLen, 36),
    (decide (g.len < h.listOff + h.commonLen) || h.commonLen = 0, 32)]

/-- Cores that run a job's tiles: those it names, as far as the module has them (R43). Log entry 55 applies (DEDUCED). -/
def State.usedCores (s : State) (h : TileHdr) : Nat := min h.coresUsed s.cores'

/-- Findings on the common image: its code, its `LIST_COUNT` NESTs and its END (R119), and every nest.
Log entry 52 applies (DEDUCED). -/
def State.checkCommon (s : State) (g : JobImg) (h : TileHdr) (bufs : List Buf) : List Finding :=
  if h.mode ≠ 1 then []
  else if g.len < h.listOff + h.commonLen then s.check8Common g h
  else
    let c := s.mainCode g h
    let ns := nestsOf c.words
    s.check8Common g h ++ refuse (ns.length ≠ h.listCount || !c.words.any (fun w => w / 2 ^ 122 = 0x3f)) 9 8 .verify
      ++ s.checkCode g bufs c (fun n => if n = 0 then some 0 else none) (fun _ => false) 0
      ++ ns.flatMap (fun n => s.checkNest g h bufs c n.2 (c.off + 16 * n.1) (s.usedCores h))

/-! ### The whole load -/

/-- Is the function that holds a local address ready: HBM, the map store, the cores (R289, R430)? -/
def State.placeReady (s : State) (a : Nat) : Bool :=
  if isHbm a then s.ready rdyHbm else if isMs a then s.ready rdyMapStore else s.ready rdyCores

/-- Functions that a job needs and that are not ready: the cores, and those of the memory that its buffers lie in (R41). -/
def State.notReady (s : State) (h : TileHdr) (bufs : List Buf) : List Finding :=
  refuse (!s.ready rdyCores) 0 4 .notReady
    ++ (bufs.mapIdx (fun i b => refuse (!s.placeReady b.base) 0 (h.bufOff + 16 * i) .notReady)).flatMap id

/-- Every finding of the loader on an image for a job of a class (R136). -/
def State.findings (s : State) (g : JobImg) (cls : Nat) : List Finding :=
  let h := TileHdr.ofNum (s.img g 0 64)
  let bufs := s.imgBufs g h
  h.check1 g.len ++ h.check2to4 s.cores' ++ s.check5 g h bufs ++ s.check6to7 cls h bufs ++ s.notReady h bufs
    ++ s.checkStreams g h bufs ++ s.checkCommon g h bufs

/-- The lowest-numbered finding that names a check. -/
def firstCheck (l : List Finding) : Finding :=
  (l.filter (fun f => decide (f.check ≠ 0))).foldl (fun a f => if a.check = 0 || decide (f.check < a.check) then f else a) ⟨0, 0, .ok⟩

/-- Different checks that failed. -/
def checksFailed (l : List Finding) : Nat := countUpTo 23 (fun n => decide (n ≠ 0) && l.any (fun f => f.check = n))

/-- The status of a load (R18). -/
def loadStatus (l : List Finding) : Status := Status.lowest (l.map (·.st))

/-- Report a load in `NEST_LOAD_REPORT` (R137). -/
def State.report (s : State) (l : List Finding) : State :=
  let f := firstCheck l
  (((s.setFld Fld.NEST_LOAD_REPORT_STATUS (loadStatus l).code).setFld Fld.NEST_LOAD_REPORT_CHECK f.check).setFld
    Fld.NEST_LOAD_REPORT_FAILS (checksFailed l)).setFld Fld.NEST_LOAD_REPORT_WHERE f.place

/-- The program of an image that has passed. Log entry 53 applies (DEDUCED). -/
def State.program (s : State) (g : JobImg) : Program :=
  let h := TileHdr.ofNum (s.img g 0 64)
  { mode := h.mode, relocatable := h.relocatable, coresUsed := s.usedCores h, listCount := h.listCount, exch := h.exch,
    listOff := h.listOff, commonLen := h.commonLen, commonLoad := h.commonLoad,
    nestPcs := if h.mode = 1 then (nestsOf (s.mainCode g h).words).map (fun n => h.commonLoad + 16 * n.1) else [],
    bufs := s.imgBufs g h }

/-- Read the image and judge it: an image in memory that is not ready and an uncorrectable read are findings of their own
(R19, R41). A length table that is uncorrectable is logged as read (R285). -/
def State.judge (s : State) (g : JobImg) (cls : Nat) : List Finding × State :=
  if !s.placeReady g.base then ([⟨0, 0, .notReady⟩], s)
  else
    let r := s.readCheck 7 .module g.base g.len
    if r.1 ≠ .ok then ([⟨0, 0, r.1⟩], r.2)
    else
      let l := r.2.findings g cls
      let bufs := r.2.imgBufs g (TileHdr.ofNum (r.2.img g 0 64))
      let tables := (l.filter (fun f => decide (f.st = .uncorrectable))).filterMap (fun f =>
        (AttDesc.ofNum (r.2.img g f.place 128)).lenRange bufs)
      (l, tables.foldl (fun t p => (t.readCheck 7 .module p.1 p.2).2) r.2)

end Sys2Proof.Machine
end

