-- ==== Sys2Proof/Machine/Sidings.lean ====
section
/-! DEFINITION. Sidings (R103, R386, R387, R394 to R396): core context images, the saved image of a job, its checks and
its restore. -/

namespace Sys2Proof.Machine

/-! ### Core context images (Tables 03-13 and 03-19) -/

def ctxImageSize : Nat := 17216
def coreImageSize : Nat := 303104

/-- The status word of a context: `ACTIVE`, and `NEST_WAIT` for context 0 stopped at its NEST. -/
def Ctx.statusWord (c : Ctx) : Nat := b2n c.active + 2 * b2n (c.joined && !c.inBody)

/-- The image of a context state. -/
def Ctx.image (c : Ctx) : List Byte :=
  (tab 4096 (fun i => leBytes 4 (SMap.get 0 c.v i).toNat)).flatMap id ++ (tab 64 (fun r => leBytes 8 (c.sreg r).toNat)).flatMap id
    ++ (tab 8 (fun r => leBytes 32 (c.kreg r).toNat)).flatMap id ++ leBytes 4 c.pc
    ++ (tab 4 (fun i => leBytes 4 (nth 0 c.loops i).toNat)).flatMap id ++ leBytes 8 c.laneGroup ++ leBytes 4 c.statusWord
    ++ leBytes 32 0

/-- The header of a core image. -/
def coreImageHeader (n : Nat) : Nat := n * 2 ^ 48 + 128 * 2 ^ 32 + 16 * 2 ^ 24 + 2 ^ 16 + 7

/-- The image of a core that the job uses. -/
def Core.image (k : Core) (n : Nat) : List Byte :=
  leBytes 64 (coreImageHeader n) ++ (tab 16 (fun c => (SMap.get {} k.ctxs c).image)).flatMap id
    ++ (tab 64 (fun i => leBytes 2 (SMap.get (0 : BitVec 16) k.sems i).toNat)).flatMap id
    ++ (tab 512 (fun i => leBytes 48 (SMap.get {} k.long i).image)).flatMap id ++ leBytes 2880 0

/-- The image of a core that the job does not use: its header and zeros (R103). -/
def idleImage (n : Nat) : List Byte := leBytes coreImageSize (coreImageHeader n)

/-- Is the context state at the start of `w` one that a restore takes? -/
def ctxImageOk (c w : Nat) : Bool :=
  byteField w 16384 8 = 0 && byteField w 16896 32 = 2 ^ 256 - 1 && byteField w 17152 4 % 16 = 0
    && decide (byteField w 17152 4 < 2 ^ 22) && decide (byteField w 17172 8 < 2 ^ 33) && decide (byteField w 17180 4 < 4)
    && (c = 0 || decide (byteField w 17180 4 < 2)) && byteField w 17184 32 = 0

/-- Is the header of a core image one that a restore takes: Table 03-13 apart from `LOGICAL_CORE`, and zeros (R103)? -/
def coreHeaderOk (h : Nat) : Bool := bits h 47 0 = bits (coreImageHeader 0) 47 0 && bits h 511 59 = 0

/-- Is a core image one that a restore takes (R72, R103)? Only a core that the job does not use may hold zeros. -/
def coreImageOk (unused : Bool) (w : Nat) : Bool :=
  coreHeaderOk (byteField w 0 64)
    && ((unused && bits w (8 * coreImageSize - 1) 512 = 0)
      || ((List.range 16).all (fun c => ctxImageOk c (byteField w (64 + ctxImageSize * c) ctxImageSize))
        && (List.range 512).all (fun i => (LongAcc.ofImage (byteField w (275648 + 48 * i) 48)).isSome)
        && byteField w 300224 2880 = 0))

/-- The context of an image. -/
def Ctx.ofImage (w : Nat) : Ctx :=
  { v := (List.range 4096).foldl (fun m i => SMap.set 0 m i (BitVec.ofNat 32 (byteField w (4 * i) 4))) []
    s := (List.range 64).foldl (fun m r => SMap.set 0 m r (BitVec.ofNat 64 (byteField w (16384 + 8 * r) 8))) []
    k := (List.range 8).foldl (fun m r => if r = 0 then m else SMap.set 0 m r (BitVec.ofNat 256 (byteField w (16896 + 32 * r) 32))) []
    pc := byteField w 17152 4, loops := tab 4 (fun i => BitVec.ofNat 32 (byteField w (17156 + 4 * i) 4)),
    laneGroup := byteField w 17172 8, active := bit w (8 * 17180) }

/-- The core of an image; a zero image is that of an unused core. -/
def Core.ofImage (w : Nat) : Core :=
  if bits w (8 * coreImageSize - 1) 512 = 0 then {}
  else
    { ctxs := (List.range 16).foldl (fun m c => SMap.set {} m c (Ctx.ofImage (byteField w (64 + ctxImageSize * c) ctxImageSize))) []
      sems := (List.range 64).foldl (fun m i => SMap.set 0 m i (BitVec.ofNat 16 (byteField w (275520 + 2 * i) 2))) []
      long := (List.range 512).foldl (fun m i =>
        SMap.set {} m i ((LongAcc.ofImage (byteField w (275648 + 48 * i) 48)).getD {})) [] }

/-! ### Need and layout (R386, R387) -/

/-- `n` rounded up to 4 KiB. -/
def up4k (n : Nat) : Nat := roundUp n 4096

/-- JOB core-store regions, and their total size J. -/
def State.jobRegions (s : State) : List CoreRegion := s.coreRegions.filter (fun r => r.cls = 1)
def State.jobBytes (s : State) : Nat := s.jobRegions.foldl (fun a r => a + r.size64 * 65536) 0

/-- Map-store buffers outside an RT region, with their indices. -/
def State.savedBufs (s : State) (bufs : List Buf) : List (Nat × Buf) :=
  (bufs.mapIdx (fun i b => (i, b))).filter (fun p => isMs p.2.base
    && !s.regions.any (fun r => decide (1 ≤ r.cls) && decide (r.cls ≤ 4) && within p.2.base p.2.size r.base r.size))

/-- Total of the buffers' 4 KiB multiples. -/
def bufBytes (l : List (Nat × Buf)) : Nat := l.foldl (fun a p => a + up4k p.2.size) 0

/-- Offset of the JOB regions and of the buffers in a siding. -/
def State.regionsOff (cores : Nat) : Nat := 8192 + cores * coreImageSize
def State.buffersOff (s : State) (cores : Nat) : Nat := State.regionsOff cores + cores * s.jobBytes

/-- A job's siding need. -/
def State.sidingNeed (s : State) (bufs : List Buf) : Nat := s.buffersOff s.cores' + bufBytes (s.savedBufs bufs)

/-- Siding n of the structure image. -/
def State.siding (s : State) (n : Nat) : Option SidingRec := s.boot.image.bind (fun im => im.sidings[n]?)

def SidingRec.base (r : SidingRec) : Nat := r.baseMib * 2 ^ 20
def SidingRec.size (r : SidingRec) : Nat := r.sizeMib * 2 ^ 20

/-- `STATE` codes of `TT_SIDINGs`. -/
def sdFree : Nat := 0
def sdReserved : Nat := 1
def sdHolds : Nat := 2
def sdDetached : Nat := 3

def State.sidingState (s : State) (n : Nat) : Nat := s.fld (Fld.TT_SIDING_STATE n)

/-- Set the state and tenant of a siding. -/
def State.setSiding (s : State) (n st tenant : Nat) : State :=
  (s.setFld (Fld.TT_SIDING_STATE n) st).setFld (Fld.TT_SIDING_TENANT n) tenant

/-- Sidings of a class of at least a size. -/
def State.sidingsFor (s : State) (cls need : Nat) : List (Nat × Nat) :=
  ((List.range 16).filterMap (fun n => (s.siding n).map (fun r => (n, r)))).filterMap (fun p =>
    if p.2.cls = cls && decide (need ≤ p.2.size) then some (p.1, p.2.size) else none)

/-- The smallest FREE siding for a job, ties to the lowest number. -/
def State.freeSiding (s : State) (cls need : Nat) : Option Nat :=
  (((s.sidingsFor cls need).filter (fun p => s.sidingState p.1 = sdFree)).foldl (fun (a : Option (Nat × Nat)) p =>
    match a with
    | none => some p
    | some b => if p.2 < b.2 then some p else some b) none).map (·.1)

/-! ### Saving (R387) -/

/-- Copy the JOB regions of each core, in core and region order, to or from a siding at address `a`. -/
def State.moveRegions (s : State) (save : Bool) (cores a : Nat) : State :=
  (((List.range cores).flatMap (fun n => s.jobRegions.map (fun r => (csAddr n (r.base64 * 65536), r.size64 * 65536)))).foldl
    (fun (acc : State × Nat) p =>
      (if save then acc.1.copyBytes p.1 acc.2 p.2 else acc.1.copyBytes acc.2 p.1 p.2, acc.2 + p.2)) (s, a)).1

/-- Copy the buffers to a siding, each followed by zeros to its 4 KiB multiple, or back, their declared bytes only. -/
def State.moveBuffers (s : State) (save : Bool) (l : List (Nat × Buf)) (a : Nat) : State :=
  (l.foldl (fun (acc : State × Nat) p =>
    let b := p.2
    (if save then (acc.1.zeroBytes acc.2 (up4k b.size)).copyBytes b.base acc.2 b.size
      else (acc.1.writeCheck 7 b.base b.size).2.copyBytes acc.2 b.base b.size, acc.2 + up4k b.size)) (s, a)).1

/-- Write every section of a job but the header into a siding at address `a`. -/
def State.saveSections (s : State) (a used : Nat) (bufs : List (Nat × Buf)) : State :=
  let cores := s.cores'
  let s1 := (List.range cores).foldl (fun acc n =>
    acc.putBytes (a + 8192 + n * coreImageSize) (if n < used then (s.core n).image n else idleImage n)) s
  (s1.moveRegions true cores (a + State.regionsOff cores)).moveBuffers true bufs (a + s.buffersOff cores)

/-- The header of a saved siding (Table 14-6), `crc` being that of its sections. -/
def State.sidingHeader (s : State) (j : Job) (reloc : Bool) (bufs : List (Nat × Buf)) (total crc : Nat) : List Byte :=
  [1, BitVec.ofNat 8 j.cls, BitVec.ofNat 8 (b2n reloc), 0] ++ leBytes 2 7 ++ leBytes 2 s.cores' ++ leBytes 4 j.jobId
    ++ leBytes 2 j.tenant ++ leBytes 2 j.sfuGen ++ leBytes 4 j.kvpGen ++ leBytes 4 j.tag ++ leBytes 8 j.seedBase
    ++ leBytes 8 s.stamp ++ leBytes 8 total ++ leBytes 4 crc ++ leBytes 5 j.image ++ leBytes 1 j.qp ++ leBytes 6 0
    ++ bufs.flatMap (fun p => leBytes 4 p.1 ++ leBytes 5 p.2.base ++ leBytes 4 (ceilDiv p.2.size 4096) ++ leBytes 3 0)
    ++ leBytes (16 * (256 - bufs.length)) 0 ++ leBytes 4032 0

/-! ### Restore checks (Table 14-8) -/

/-- Entry i of a header's buffer table. -/
def headerBuf (w i : Nat) : Nat := byteField w (64 + 16 * i) 16

/-- Does a header pass Table 14-6? -/
def sidingHeaderOk (w : Nat) : Bool :=
  byteField w 0 1 = 1 && decide (byteField w 1 1 ≤ 4) && decide (byteField w 2 1 ≤ 1) && byteField w 3 1 = 0
    && byteField w 4 2 = 7 && decide (1 ≤ byteField w 6 2) && decide (byteField w 6 2 ≤ 2048)
    && decide (byteField w 12 1 ≤ 63) && byteField w 13 1 = 0 && byteField w 22 2 = 0
    && byteField w 58 6 = 0 && byteField w 4160 4032 = 0
    && (List.range 256).all (fun i => byteField (headerBuf w i) 1 3 = 0 && byteField (headerBuf w i) 13 3 = 0)

/-- Used entries of a header's buffer table. -/
def headerBufs (w : Nat) : List (Nat × Nat × Nat) :=
  ((List.range 256).map (headerBuf w)).filterMap (fun e =>
    if e = 0 then none else some (byteField e 0 1, byteField e 4 5, byteField e 9 4 * 4096))

/-- The job image that a siding names; its length is that of the JOB entry where the job was submitted here. -/
def sidingImg (w len : Nat) : JobImg := ⟨byteField w 52 5, len⟩

/-- Does R128 fail at the module's core count for some nest of a job image (check 3 of a relocatable restore)?.
Log entry 61 applies (DEDUCED). -/
def State.splitFails (s : State) (g : JobImg) (h : TileHdr) : Bool :=
  let c := s.mainCode g h
  (nestsOf c.words).any (fun n =>
    match s.codeRec g c n.2.descOff 512 with
    | none => false
    | some w =>
      let d := NestDesc.ofNum w
      decide (1 < d.split) && (decide (d.slotCount < 2048 * n.2.ctxCount) || decide (s.usedCores h * n.2.ctxCount < d.split)))

/-- Checks 21 and 22 of the job image. -/
def State.repeatsFail (s : State) (g : JobImg) (h : TileHdr) (bufs : List Buf) : Bool :=
  (s.checkCommon g h bufs).any (fun f => f.check = 21 || f.check = 22)

/-- Does a siding header with its size say what lies where? -/
def sidingShape (w size : Nat) : Bool :=
  sidingHeaderOk w && decide (State.regionsOff (byteField w 6 2) ≤ byteField w 40 8) && decide (byteField w 40 8 ≤ size)

/-- The reads of a restore from the siding at `a`: its header, its sections and the job image, as class SYS
(R282, R284, R285). -/
def State.restoreReads (s : State) (a size len : Nat) : Status × Nat × State :=
  let h := s.readCheck 7 .module a 8192
  let w := s.num a 8192
  if h.1 ≠ .ok then (h.1, a, h.2)
  else if !sidingShape w size then (.ok, 0, h.2)
  else h.2.readChecks 7 .module [(a + 8192, byteField w 40 8 - 8192), (byteField w 52 5, len)]

/-- The refusals of a restore from the siding at `a` of `size` bytes, the lowest code first to apply (R394, R430). -/
def State.restoreStatus (s : State) (a size : Nat) (w len : Nat) : Status :=
  let cores := byteField w 6 2
  let total := byteField w 40 8
  let reloc := byteField w 2 1 = 1
  let ready := Status.when (!s.ready rdyCores || !s.ready rdyHbm || !s.ready rdyMapStore) .notReady
  if !sidingShape w size then Status.lowest [ready, .verify]
  else
    let g := sidingImg w len
    let h := TileHdr.ofNum (s.img g 0 64)
    let bufs := s.imgBufs g h
    let saved := s.savedBufs bufs
    let same := cores = s.cores'
    let images := (List.range cores).all (fun n =>
      coreImageOk (decide (h.coresUsed ≤ n)) (s.num (a + 8192 + n * coreImageSize) coreImageSize))
    let placed := (headerBufs w).all (fun b => s.inOneRegion b.2.1 b.2.2)
    let matches' := (h.check1 g.len).isEmpty && (s.check5 g h bufs).isEmpty
      && (headerBufs w = saved.map (fun p => (p.1, p.2.base, up4k p.2.size)))
    Status.lowest [ready, Status.when (!images || !placed || !matches' || (reloc && !same && s.repeatsFail g h bufs)) .verify,
      Status.when (byteField w 14 2 ≠ s.sfuGen || byteField w 16 4 ≠ s.fld Fld.KVP_STATUS_KVP_GEN) .stale,
      Status.when (crc32c (s.bytes (a + 8192) (total - 8192)) ≠ byteField w 48 4) .integrity,
      Status.when (!same && (!reloc || s.splitFails g h)) .degraded]

/-! ### Restoring (R132, R133, R395) -/

/-- The common image reaches the core store of each of a number of cores (R119). -/
def State.multicast (s : State) (g : JobImg) (p : Program) : State :=
  (List.range p.coresUsed).foldl (fun acc n => acc.copyBytes (g.base + p.listOff) (csAddr n p.commonLoad) p.commonLen) s

/-- What is kept beside the siding's image whose sections have this CRC; nothing where that image came from elsewhere.
Log entry 127 applies (DESIGN CHOICE). -/
def State.keepOf (s : State) (siding crc : Nat) : SidedKeep :=
  match SMap.find s.sched.keeps siding with
  | none => {}
  | some k => if k.crc = crc then k else {}

/-- What the running job needs besides its siding, under the CRC of its sections. Log entry 127 applies (DESIGN CHOICE). -/
def State.keepNow (s : State) (j : Job) (crc : Nat) : SidedKeep :=
  let writes := s.cores.flatMap (fun k => k.2.ctxs.filterMap (fun c => c.2.item.map (fun it => (16 * k.1 + c.1, it.writes))))
  { crc, flags := j.flags, reissue := (j.nest.map (·.reissue)).getD [], seen := (j.nest.map (·.seen)).getD [], writes }

/-- The record of nest i as a NEST in the core store of logical core 0 gives it, with nothing taken yet. -/
def State.nestAt (s : State) (p : Program) (i : Nat) : Option RunNest :=
  let pc := nth 0 p.nestPcs i
  match CoreInsn.ofWord (s.num (csAddr 0 pc) 16) with
  | some (.nest o) =>
    some ⟨i, pc, o, NestDesc.ofNum (s.num (csAddr 0 o.descOff) 512), s.bodyHasAtt 0 o, [], []⟩
  | _ => none

/-- The nest whose counter record the EXCH buffer of the job's program holds last: a record carries its own index, and its
`TOTAL` (R129). Log entry 61 applies (DEDUCED). -/
def State.savedNest (s : State) (p : Program) : Option RunNest :=
  let exch := (p.exchBuf.map (·.base)).getD 0
  (List.range p.nestPcs.length).foldl (fun (a : Option RunNest) i =>
    match s.nestAt p i with
    | none => a
    | some r =>
      let c := exch + r.desc.counterOff
      if s.num (c + 32) 4 = i && s.num (c + 8) 8 = r.desc.total then some r else a) none

/-- Does a program counter lie in the body of a nest? -/
def RunNest.holdsPc (r : RunNest) (pc : Nat) : Bool := decide (r.ops.bodyOff ≤ pc) && decide (pc ≤ r.ops.bodyEnd)

/-- One context goes on from its image on the same core count: in its item, the last of its body or its end included (R132),
or between items until its core joins the nest again. Log entry 61 applies (DEDUCED). -/
def State.resumeCtx (s : State) (r : RunNest) (keep : SidedKeep) (t : Site) : State :=
  let c := s.ctx t
  let h := s.holdAddr r t.core (t.ctx - r.ops.ctxFirst)
  let cur := s.num h 8
  let writes := (SMap.find keep.writes (16 * t.core + t.ctx)).getD (popCount (s.num (h + 16) 8))
  if c.active && r.holdsPc c.pc && cur ≠ noItem then
    s.setCtx t { c with inBody := true, joined := decide (t.ctx = 0), item := some ⟨cur, s.num (h + 8) 8, writes⟩ }
  else if t.ctx = 0 then s
  else s.setCtx t { c with active := false }

/-- One core goes on: its contexts, the NEST that its context 0 is inside of, and the grabs of contexts between items. -/
def State.resumeCore (s : State) (r : RunNest) (keep : SidedKeep) (n : Nat) : State :=
  let s1 := (0 :: r.ops.ctxs.filter (fun c => decide (c ≠ 0))).foldl (fun acc c =>
    if r.ops.ctxs.contains c then acc.resumeCtx r keep ⟨n, c⟩ else acc) s
  if (s1.ctx ⟨n, 0⟩).joined then
    let sig := (Hdr.ofWord (s1.num (csAddr n r.pc) 16)).signal
    let s2 := if sig = 0 then s1
      else s1.setCore n { s1.core n with inflight := [{ ctx := 0, signal := sig, isNest := true }] }
    r.ops.ctxs.foldl (fun acc c => if (acc.ctx ⟨n, c⟩).inBody then acc else acc.nextItem ⟨n, c⟩) s2
  else s1

/-- Is context 0 of a core inside nest r, by its image: stopped at the NEST, or in its body? -/
def RunNest.inside (r : RunNest) (c : Ctx) : Bool := c.active && (c.pc = r.pc || r.holdsPc c.pc)

/-- NESTs that a core has passed, by the place of its context 0. -/
def passedBy (p : Program) (r : RunNest) (c : Ctx) : Nat :=
  if !c.active then p.listCount
  else if r.inside c then r.index
  else (p.nestPcs.filter (fun x => decide (x < c.pc))).length

/-- A restore to the same core count: images, regions and buffers come back and every context resumes (R132, R395).
Log entry 61 applies (DEDUCED). -/
def State.restoreSame (s : State) (a : Nat) (p : Program) (keep : SidedKeep) : State :=
  let cores := s.cores'
  let s1 := (List.range cores).foldl (fun acc n =>
    let k := Core.ofImage (s.num (a + 8192 + n * coreImageSize) coreImageSize)
    (acc.setCore n { k with fw := (acc.core n).fw }).setFld (Fld.CORE_STATUS_STATE n)
      (if k.ctxs.any (fun c => c.2.active) then 3 else 2)) s
  let s2 := (s1.moveRegions false cores (a + State.regionsOff cores)).moveBuffers false (s.savedBufs p.bufs) (a + s.buffersOff cores)
  if p.mode ≠ 1 then s2
  else
    match s2.savedNest p with
    | none => s2
    | some r0 =>
      let used := List.range p.coresUsed
      let ctxAt := fun n => s2.ctx ⟨n, 0⟩
      let seen := used.flatMap (fun n => (r0.ops.ctxs.filter (fun c =>
        r0.holdsPc (s2.ctx ⟨n, c⟩).pc)).map (fun c => (n, c)))
      let r := { r0 with seen := if keep.seen.isEmpty then seen else keep.seen, reissue := keep.reissue }
      let exch := (p.exchBuf.map (·.base)).getD 0
      let c := exch + r.desc.counterOff
      let running := used.any (fun n => r.inside (ctxAt n)) || decide (s2.num (c + 16) 8 ≠ s2.num (c + 8) 8)
      let runs := used.foldl (fun m n => SMap.set 0 m n (passedBy p r (ctxAt n))) []
      let s3 := s2.mapJob (fun j => { j with
        prog := some p
        nest := if running then some r else none
        nestsDone := if running then r.index else r.index + 1
        runs := runs })
      if running then used.foldl (fun acc n => acc.resumeCore r keep n) (s3.showNest r.index (s2.num (c + 16) 8)) else s3

/-- The ranges to reissue, in item order, with the COMMIT of their first item: those that still wait, and the held part of
every holding entry in use (R133). -/
def insertRange (x : Nat × Nat × Nat) : List (Nat × Nat × Nat) → List (Nat × Nat × Nat)
  | [] => [x]
  | y :: l => if x.1 < y.1 then x :: y :: l else y :: insertRange x l

def State.heldRanges (s : State) (a n : Nat) (waiting : List (Nat × Nat × Nat)) : List (Nat × Nat × Nat) :=
  (List.range n).foldl (fun l i =>
    let h := a + 24 * i
    let cur := s.num h 8
    if cur = noItem then l else insertRange (cur, s.num (h + 8) 8, s.num (h + 16) 8) l) waiting

/-- A relocatable restore to another core count: the buffers come back, the counter is rebuilt, and every core's context 0
starts at the NEST that the counter record names (R133, R395). Log entry 61 applies (DEDUCED). -/
def State.restoreMoved (s : State) (a cores : Nat) (g : JobImg) (p : Program) (keep : SidedKeep) : State :=
  let s1 := s.moveBuffers false (s.savedBufs p.bufs) (a + s.buffersOff cores)
  let s2 := (List.range s.cores').foldl (fun acc n =>
    s.jobRegions.foldl (fun b r => b.zeroBytes (csAddr n (r.base64 * 65536)) (r.size64 * 65536))
      (acc.setCore n { fw := (acc.core n).fw })) s1
  let s3 := s2.multicast g p
  let nest := s3.savedNest p
  let pc := match nest with
    | none => p.commonLoad
    | some r => r.pc
  let s4 := (List.range p.coresUsed).foldl (fun acc n =>
    (acc.setCtx ⟨n, 0⟩ { pc, active := true }).setFld (Fld.CORE_STATUS_STATE n) 3) s3
  match nest with
  | none => s4.mapJob (fun j => { j with prog := some p, nest := none, nestsDone := 0, runs := [] })
  | some r0 =>
    let exch := (p.exchBuf.map (·.base)).getD 0
    let c := exch + r0.desc.counterOff
    let count := 2048 * r0.ops.ctxCount
    let l := s4.heldRanges (c + 64) count keep.reissue
    let again := l.foldl (fun n x => n + (x.2.1 - x.1)) 0
    let s5 := (s4.clearHolds (c + 64) count).putNum (c + 24) 8 again
    (s5.mapJob (fun j => { j with
      prog := some p
      nest := some { r0 with reissue := l }
      nestsDone := r0.index
      runs := (List.range p.coresUsed).foldl (fun m n => SMap.set 0 m n r0.index) [] })).showNest r0.index (s5.num (c + 16) 8)

end Sys2Proof.Machine
end

