-- ==== Sys2Proof/Machine/Jobs.lean ====
section
/-! DEFINITION. Jobs, the timetable and pre-emption (14_timetable_and_jobs.md): admission, the choice of a job, its load,
start and end, pre-emption and restore, siding commands and the timetable's own loads and swaps. -/

namespace Sys2Proof.Machine

/-! ### The timetable image (R382) -/

/-- Slot record i and tenant record n of an image. -/
def Slot.ofNum (w i : Nat) : Slot :=
  let o := 64 + 16 * i
  ⟨byteField w o 4, byteField w (o + 4) 1, byteField w (o + 5) 1 = 1⟩

/-- Slots of an image. -/
def ttSlots (w : Nat) : Nat := byteField w 1 1 + 1

def Timetable.ofNum (w : Nat) : Timetable :=
  { generation := byteField w 2 2, quantumUs := byteField w 8 4, rtTenant := tab 4 (fun c => byteField w (12 + c) 1),
    slots := tab (ttSlots w) (Slot.ofNum w), shares := tab 64 (fun n => byteField w (4160 + 8 * n) 2) }

/-- Bytes of a timetable image. -/
def ttBytes : Nat := 4672

/-- One used slot record in range. -/
def slotRecOk (w i : Nat) : Bool :=
  let o := 64 + 16 * i
  let kind := byteField w (o + 4) 1
  decide (10 ≤ byteField w o 4) && decide (byteField w o 4 ≤ 1000000) && decide (kind ≤ 5)
    && (byteField w (o + 5) 1 = 0 || (byteField w (o + 5) 1 = 1 && decide (1 ≤ kind) && decide (kind ≤ 4)))
    && byteField w (o + 6) 10 = 0

/-- Does an image pass R382, its CRC apart? -/
def ttOk (w : Nat) : Bool :=
  let n := ttSlots w
  let q := byteField w 8 4
  byteField w 0 1 = 1 && decide (1 ≤ byteField w 2 2) && (q = 0 || (decide (100 ≤ q) && decide (q ≤ 1000000)))
    && (List.range 4).all (fun c => decide (byteField w (12 + c) 1 ≤ 63)) && byteField w 16 48 = 0
    && (List.range n).all (slotRecOk w) && (List.range (256 - n)).all (fun i => byteField w (64 + 16 * (n + i)) 16 = 0)
    && decide ((List.range n).foldl (fun a i => a + byteField w (64 + 16 * i) 4) 0 ≤ 1000000)
    && (List.range 64).all (fun t => byteField w (4160 + 8 * t + 2) 6 = 0)

/-- The CRC of an image. Log entry 97 applies (DEDUCED). -/
def ttCrcOk (l : List Byte) : Bool := crc32c (l.drop 64) = byteField (leNat l) 4 4

/-! ### Scheduling state -/

/-- The active timetable; none before one is. -/
def State.tt (s : State) : Option Timetable := s.sched.active

/-- The current slot. -/
def State.slotNow (s : State) : Option Slot := s.tt.bind (fun t => t.slots[s.sched.slot]?)

def Timetable.share (t : Timetable) (n : Nat) : Nat := nth 0 t.shares n

/-- `QUEUED` of `TT_STATUS`: admitted jobs not yet completed. -/
def State.showQueued (s : State) : State := s.setFld Fld.TT_STATUS_QUEUED (s.sched.queue.length + b2n s.sched.run.isSome)

/-- Admitted jobs not yet completed. -/
def State.admitted (s : State) : Nat := s.sched.queue.length + b2n s.sched.run.isSome

def State.setQueue (s : State) (q : List Job) : State := (s.withSched { s.sched with queue := q }).showQueued

/-- Core-nanoseconds charged to tenant t, those of the job that holds the cores up to now among them (R385). -/
def State.usedBy (s : State) (t : Nat) : Nat :=
  SMap.get 0 s.sched.charges t + (match s.sched.run with
    | none => 0
    | some j => if j.tenant = t then s.cores' * (s.time.toNat - j.chargeFrom) else 0)

/-- Close the running job's charge (R385). -/
def State.closeCharge (s : State) : State :=
  match s.sched.run with
  | none => s
  | some j =>
    let u := s.usedBy j.tenant
    (s.withSched { s.sched with
      charges := SMap.set 0 s.sched.charges j.tenant u, run := some { j with chargeFrom := s.time.toNat } }).setFld
      (Fld.TT_TENANT_USED_CORE_US j.tenant) (u / 1000)

/-! ### Readiness and choice (R383, R384, R386) -/

/-- Does the active timetable let a job of this class and tenant be ready? -/
def Timetable.lets (t : Timetable) (cls tenant : Nat) : Bool :=
  if cls = 0 then decide (t.share tenant ≠ 0) else nth 64 t.rtTenant (cls - 1) = tenant

/-- Is a queued job ready? Log entry 57 applies (DEDUCED). -/
def State.readyJob (s : State) (j : Job) : Bool :=
  (match s.tt with
    | none => false
    | some t => t.lets j.cls j.tenant)
    && (if j.state = .sided then !j.refused else (s.freeSiding j.cls j.need).isSome)

/-- First ready job of a class, and of a tenant where it is given. Log entry 57 applies (DEDUCED). -/
def State.firstReady (s : State) (cls : Nat) (tenant : Option Nat) : Option Job :=
  s.sched.queue.find? (fun j => j.cls = cls && (match tenant with
    | none => true
    | some t => j.tenant = t) && s.readyJob j)

/-- Is a's charge per share less than b's, the lower tenant first where they are equal (R384)? -/
def State.lessCharged (s : State) (t : Timetable) (a b : Nat) : Bool :=
  let x := s.usedBy a * t.share b
  let y := s.usedBy b * t.share a
  decide (x < y) || (x = y && decide (a < b))

/-- The tenant with a ready shared job and the least charge per share. -/
def State.sharedTenant (s : State) (t : Timetable) : Option Nat :=
  ((List.range 64).filter (fun n => (s.firstReady 0 (some n)).isSome)).foldl (fun a n =>
    match a with
    | none => some n
    | some b => if s.lessCharged t n b then some n else some b) none

/-- The shared job to run. -/
def State.sharedChoice (s : State) : Option Job :=
  s.tt.bind (fun t => (s.sharedTenant t).bind (fun n => s.firstReady 0 (some n)))

/-- The job that the current slot lets start (Table 14-5). Log entry 57 applies (DEDUCED). -/
def State.choice (s : State) : Option Job :=
  match s.slotNow with
  | none => none
  | some x =>
    if x.kind = 0 then s.sharedChoice
    else if x.kind = 5 then none
    else
      match s.firstReady x.kind none with
      | some j => some j
      | none => if x.lend then s.sharedChoice else none

/-! ### Completions of jobs (R393, R396, R416, R417) -/

/-- The consist whose JOB entry this job is. -/
def Consist.isOf (c : Consist) (j : Job) : Bool :=
  (c.first + c.entries.length) % 2 ^ 32 = (j.ring + 1) % 2 ^ 32 && c.entries.any (fun e => e.2 = .admitted && e.1.jobId = j.jobId)

/-- Post a completion of a job: on its queue pair, with its consist where it is the final one, else on the event queue
pair. -/
def State.postJob (s : State) (j : Job) (st : Status) (kind : CplKind) (info : Nat) : State :=
  let c : Completion := { user := j.user, status := st, arith := j.flags, kind, info,
                          index := if kind = .consist then j.ring % 2 ^ 32 else 0, jobId := j.jobId }
  let q := s.qp j.qp
  if q.consists.any (fun x => x.isOf j) then
    if kind = .consist && st ≠ .preempted then
      ((s.setQp j.qp { q with consists := q.consists.filter (fun x => !x.isOf j) }).sendOn j.qp c).advance j.qp
    else s.sendOn j.qp c
  else if j.attached && s.qpState j.qp = 1 && s.fld (Fld.HST_QP_W0_TENANT j.qp) = j.tenant then s.sendOn j.qp c
  else s.event c

/-! ### Admission (R380) -/

/-- Fill in what admission learns of a job from its image: its siding need. -/
def State.withNeed (s : State) (j : Job) : Job :=
  let g : JobImg := ⟨j.image, j.length⟩
  { j with need := s.sidingNeed (s.imgBufs g (TileHdr.ofNum (s.img g 0 64))) }

/-- Does the active timetable have a slot of a class? -/
def Timetable.hasSlot (t : Timetable) (cls : Nat) : Bool := t.slots.any (fun x => x.kind = cls)

/-- What admission answers. -/
def State.admitStatus (s : State) (j : Job) : Status :=
  Status.lowest [Status.when (match s.tt with
      | none => true
      | some t => !t.lets j.cls j.tenant || !t.hasSlot j.cls) .denied,
    Status.when (s.sidingsFor j.cls j.need).isEmpty .verify, Status.when (decide (1024 ≤ s.admitted)) .denied]

/-- The bit `PREEMPT` of `TT_CTRL`. -/
def State.showPreempt (s : State) (b : Bool) : State := s.setFld Fld.TT_CTRL_PREEMPT (b2n b)

/-- A pre-emption is requested (R388, R390): grabs stop and cores run to their halts; a job that loads or is restored holds
the request; a second request has no further effect. Log entry 57 applies (DEDUCED). -/
def State.requestPreempt (s : State) : State :=
  match s.sched.run with
  | none => s
  | some j =>
    match j.state with
    | .running =>
      (List.range s.cores').foldl (fun acc n => acc.settleHalt n)
        (s.setJob (some { j with state := .halting, haltFrom := s.time.toNat }))
    | .loading => s.setJob (some { j with heldPreempt := true })
    | .restoring => s.setJob (some { j with heldPreempt := true })
    | _ => s

/-- A job of class RTc that becomes ready while a shared job runs in a slot of its kind causes its pre-emption
(Table 14-5). -/
def State.rtArrives (s : State) : State :=
  match s.slotNow, s.sched.run with
  | some x, some j =>
    if decide (1 ≤ x.kind) && decide (x.kind ≤ 4) && j.cls = 0 && (s.firstReady x.kind none).isSome then s.requestPreempt else s
  | _, _ => s

/-- What admission reads of a job's image: its header and its buffer declarations, as far as the image holds them. -/
def State.admitReads (s : State) (j : Job) : List (Nat × Nat) :=
  let h := TileHdr.ofNum (s.img ⟨j.image, j.length⟩ 0 64)
  (if 64 ≤ j.length then [(j.image, 64)] else [])
    ++ (if h.bufOff + 16 * h.bufCount ≤ j.length then [(j.image + h.bufOff, 16 * h.bufCount)] else [])

/-- Admit a job, or refuse it (R380); reads of its image that fail refuse it too (R285, R430). -/
def State.admitJob (s : State) (j0 : Job) : Status × State :=
  if !s.placeReady j0.image then (Status.lowest [s.admitStatus j0, .notReady], s)
  else
    let r := s.readChecks 7 .module (s.admitReads j0)
    let j := s.withNeed j0
    let st := Status.lowest [s.admitStatus j, r.1]
    if st ≠ .ok then (st, r.2.2)
    else (.ok, ((r.2.2.traceJob .queued).setQueue (r.2.2.sched.queue ++ [j])).rtArrives)

/-! ### The end of a job (R109, R389, R390) -/

/-- Every core back to IDLE, with nothing of the job left in it. Log entry 56 applies (DEDUCED). -/
def State.clearCores (s : State) : State :=
  (List.range s.cores').foldl (fun acc n =>
    (acc.setCore n { fw := (acc.core n).fw }).setFld (Fld.CORE_STATUS_STATE n) 2) s

/-- The siding of a job becomes FREE. -/
def State.releaseSiding (s : State) (j : Job) : State :=
  match j.siding with
  | none => s
  | some n => s.setSiding n sdFree 0

/-- The cores are free: no job holds them, `PREEMPT` reads 0. What is held for slots stays until `POSTED` equals `PARTS` (R323). -/
def State.freeCores (s : State) : State :=
  let f := s.fab
  (((s.clearCores.setFab { f with remoteParts := [] }).setJob none).showPreempt false).showQueued

/-- The job that holds the cores ends with a status: it is charged, its siding is freed and its completion posted.
Log entry 62 applies (DEDUCED). -/
def State.endJob (s : State) (st : Status) (info : Nat) : State :=
  let s1 := s.closeCharge
  match s1.sched.run with
  | none => s1
  | some j => (((s1.releaseSiding j).freeCores).traceJob .done).postJob j st .consist info

/-- A job that is loading goes back to the head of the queue, as step HOLD directs (R463). Log entry 63 applies (DEDUCED). -/
def State.unloadJob (s : State) : State :=
  let s1 := s.closeCharge
  match s1.sched.run with
  | none => s1
  | some j =>
    let j1 := { j with state := .queued, siding := none, heldPreempt := false, prog := none }
    let s2 := ((s1.releaseSiding j).freeCores).traceJob .queued
    s2.setQueue (j1 :: s2.sched.queue)

/-! ### The job boundary (R159, R398) -/

/-- SIDED jobs whose restore was refused are ready again. Log entry 59 applies (DEDUCED). -/
def State.clearRefused (s : State) : State :=
  s.withSched { s.sched with queue := s.sched.queue.map (fun j => { j with refused := false }) }

/-- A timetable swap that waits is applied: the banks are exchanged and the new major cycle begins (R398). -/
def State.applyTtSwap (s : State) : State :=
  if s.flag Fld.TT_STATUS_SWAP_PENDING then
    let c := s.sched
    let a := s.fld Fld.TT_STATUS_GEN_ACTIVE
    let b := s.fld Fld.TT_STATUS_GEN_STAGED
    let s1 := s.withSched { c with active := c.staged, staged := c.active, cycleStart := s.time.toNat, slot := 0 }
    ((((s1.setFld Fld.TT_STATUS_GEN_ACTIVE b).setFld Fld.TT_STATUS_GEN_STAGED a).setFld Fld.TT_STATUS_SLOT 0).setFld
      Fld.TT_STATUS_SWAP_PENDING 0).setFld Fld.TT_CTRL_SWAP 0
  else s

/-- The pending changes of a boundary, in order. Log entry 59 applies (DEDUCED). -/
def State.applyChanges (s : State) : State :=
  let again := s.flag Fld.SFU_TABLE_STATUS_SWAP_PENDING || !s.kvp.staged.isEmpty
  let s1 := s.applySfuSwap.applyKvp.applyTtSwap
  if again then s1.clearRefused else s1

/-- Step HOLD or TRIP: no job is loaded or restored (Table 17-3). -/
def State.held (s : State) : Bool := decide (3 ≤ s.fld Fld.PWR_STATUS_STEP)

/-- Does every logical core's `RESULT` read OK, of one at least? A core takes no job before it does (R105). -/
def State.coresOk (s : State) : Bool :=
  decide (0 < s.cores') && (List.range s.cores').all (fun n => s.fld (Fld.CORE_FW_STATUS_RESULT n) = 2)

/-- Take the first job of the queue that is `j` out of it. -/
def State.dequeue (s : State) (j : Job) : State := s.withSched { s.sched with queue := s.sched.queue.erase j }

/-- A QUEUED job is loaded: its siding is reserved, `SEED_BASE`, `TAG` and the generations are latched, and the loader
evaluates its checks; a refused job completes with its status and `CHECK` (R136, R259, R319, R386). -/
def State.loadJob (s : State) (j : Job) (siding : Nat) : State :=
  let s1 := (s.dequeue j).setSiding siding sdReserved j.tenant
  let j1 := { j with state := .loading, siding := some siding, sfuGen := s1.sfuGen,
                     kvpGen := s1.fld Fld.KVP_STATUS_KVP_GEN, tag := s1.fld Fld.FAB_JOB_TAG_TAG,
                     seedBase := (s1.reg Reg.RNG_SEED_BASE).toNat, chargeFrom := s1.time.toNat }
  let g : JobImg := ⟨j.image, j.length⟩
  let s2 := (s1.setJob (some j1)).showQueued
  let r := s2.judge g j.cls
  let s3 := r.2.report r.1
  let st := loadStatus r.1
  if st = .ok then s3.mapJob (fun x => { x with prog := some (s3.program g) })
  else s3.endJob st (firstCheck r.1).check

/-- Length of the image of a job: that of its JOB entry, or for an attached one the most that a job image has. -/
def Job.imgLen (j : Job) : Nat := if j.attached then min (2 ^ 26) (memEnd j.image - j.image) else j.length

/-- A SIDED job is to be restored: its siding is read back and checked. A refusal posts a completion and leaves the job
SIDED and passed over (R394). -/
def State.restoreJob (s : State) (j : Job) (siding : Nat) : State :=
  match s.siding siding with
  | none => s
  | some rec' =>
    let a := rec'.base
    let s1 := (s.dequeue j).setJob (some { j with state := .restoring, chargeFrom := s.time.toNat })
    let r := if s1.ready rdyHbm then s1.restoreReads a rec'.size j.imgLen else (.ok, 0, s1)
    let st := Status.lowest [r.1, s1.restoreStatus a rec'.size (s.num a 8192) j.imgLen]
    if st = .ok then r.2.2.showQueued
    else
      let s2 := (r.2.2.log 1 st .module a).closeCharge
      let s3 := (s2.setJob none).traceJob .sided
      (s3.setQueue ({ j with refused := true } :: s3.sched.queue)).postJob j st .consist 0

/-- JOB_BOUNDARY: pending changes apply in order, and the slot's choice is loaded or restored once the cores take jobs. -/
def execJobBoundary (s : State) : Host.Outcome State Fault Refusal :=
  .next (
    if s.sched.run.isSome then s
    else
      let s1 := s.applyChanges
      if s1.held || !s1.coresOk then s1
      else
        match s1.choice with
        | none => s1
        | some j =>
          match j.siding with
          | some n => s1.restoreJob j n
          | none =>
            match s1.freeSiding j.cls j.need with
            | none => s1
            | some n => s1.loadJob j n)

/-- STAGED_CHANGES_APPLY_IDLE: with no job on the cores, staged changes, swaps and pending command completions apply within
10 µs (R159, R196, R198, R398). Log entry 59 applies (DEDUCED). -/
def execStagedChangesApplyIdle (s : State) : Host.Outcome State Fault Refusal :=
  .next (if s.sched.run.isSome then s else s.applyChanges)

/-! ### Start of the tiles (R83, R94, R118, R119, R458) -/

/-- A context that the loader starts with a preset. -/
def State.presetCtx (s : State) (g : JobImg) (e : StreamEntry) (c : Nat) : Ctx :=
  let c1 := ({ pc := e.load, active := true } : Ctx).setSs (tab 62 (fun i => (i + 2, s.presetS g e (i + 2))))
  let c2 := (List.range 7).foldl (fun acc i => acc.setK (i + 1) (BitVec.ofNat 256 (s.img g (e.preset + 496 + 32 * i) 32))) c1
  c2.setS 1 (BitVec.ofNat 64 c)

/-- Core n starts its stream. -/
def State.startStream (s : State) (g : JobImg) (n : Nat) (e : StreamEntry) : State :=
  let s1 := s.copyBytes (g.base + e.off) (csAddr n e.load) (16 * e.length)
  let ctxs := (List.range e.ctxs).foldl (fun m c => SMap.set {} m c (s.presetCtx g e c)) []
  (s1.setCore n { s1.core n with ctxs }).setFld (Fld.CORE_STATUS_STATE n) 3

/-- Every core starts: streams, or the common image with context 0 at its first byte; every EXCH buffer is zeroed before
(R117). Log entry 56 applies (DEDUCED). -/
def State.startTiles (s : State) (j : Job) (p : Program) : State :=
  let g : JobImg := ⟨j.image, j.length⟩
  let s1 := s.clearCores
  let s2 := (p.bufs.filter (fun b => b.kind = bufExch)).foldl (fun acc b => acc.wipe b.base b.size) s1
  if p.mode = 0 then
    let h := TileHdr.ofNum (s.img g 0 64)
    ((s.streams g h).mapIdx (fun n e => (n, e))).foldl (fun acc x => acc.startStream g x.1 x.2) s2
  else
    (List.range p.coresUsed).foldl (fun acc n =>
      (acc.setCtx ⟨n, 0⟩ { pc := p.commonLoad, active := true }).setFld (Fld.CORE_STATUS_STATE n) 3) (s2.multicast g p)

/-- The job runs: a request that was held takes effect (R390). -/
def State.enterRunning (s : State) : State :=
  let s1 := s.mapJob (fun j => { j with state := .running, tilesStarted := true, suspended := false, runFrom := s.time.toNat })
  if (s.sched.run.map (·.heldPreempt)).getD false then
    (s1.mapJob (fun j => { j with heldPreempt := false })).requestPreempt
  else s1

/-- JOB_TILES_START: a loaded job's first tiles start, the draw having risen to `READY_W`; not in step HOLD. -/
def execJobTilesStart (s : State) : Host.Outcome State Fault Refusal :=
  .next (
    match s.sched.run with
    | none => s
    | some j =>
      match j.prog with
      | none => s
      | some p =>
        if j.state ≠ .loading || s.held then s
        else (s.startTiles j p).enterRunning)

/-- RESTORE_COMPLETE: the saved state is written back, `SEED_BASE` and `TAG` are latched again, and the job runs (R395). -/
def execRestoreComplete (s : State) : Host.Outcome State Fault Refusal :=
  .next (
    match s.sched.run with
    | none => s
    | some j =>
      match j.siding.bind (fun n => (s.siding n).map (fun r => (n, r))) with
      | none => s
      | some (n, rec') =>
        if j.state ≠ .restoring || s.held || !s.coresOk then s
        else
          let a := rec'.base
          let w := s.num a 64
          let cores := byteField w 6 2
          let g := sidingImg w j.imgLen
          let p := s.program g
          let s1 := s.mapJob (fun x => { x with tag := byteField w 20 2, seedBase := byteField w 24 8, prog := some p,
                                                sfuGen := byteField w 14 2, kvpGen := byteField w 16 4 })
          let keep := s.keepOf n (byteField w 48 4)
          let s2 := if cores = s.cores' then s1.restoreSame a p keep else s1.restoreMoved a cores g p keep
          (s2.setSiding n sdReserved j.tenant).enterRunning)

/-! ### Completion (R32, R380, R390) -/

/-- Does a transaction serve the running job, not a reduction or the page subsystem? -/
def TransOwner.ofJob : TransOwner → Bool
  | .grad _ => false
  | .kvp => false
  | _ => true

/-- Transactions of the running job's instructions and attention parts. -/
def State.jobTraffic (s : State) : Bool := s.fab.trans.any (fun p => p.2.owner.ofJob) || s.fab.backlog.any (·.owner.ofJob)

/-- Does no core run? Log entry 58 applies (DEDUCED). -/
def State.allIdle (s : State) : Bool := (List.range s.cores').all (fun n => s.fld (Fld.CORE_STATUS_STATE n) ≠ 3 && s.fld (Fld.CORE_STATUS_STATE n) ≠ 4)

/-- Is nothing of a core in flight, a NEST apart? Log entry 58 applies (DEDUCED). -/
def State.quiet (s : State) : Bool := s.cores.all (fun p => p.2.inflight.all (·.isNest))

/-- JOB_COMPLETE: every write of the job has landed: its completion carries the lowest status of its faults, and the flags
of its results. Log entry 3 applies (DESIGN CHOICE). Log entry 29 applies (DEDUCED). Log entry 58 applies (DEDUCED). -/
def execJobComplete (s : State) : Host.Outcome State Fault Refusal :=
  .next (
    match s.sched.run with
    | none => s
    | some j =>
      if !j.tilesStarted || j.suspended && !j.ended || s.jobTraffic then s
      else if j.ended then s.endJob j.fault 0
      else if (j.state = .running || j.state = .halting) && s.allIdle && s.quiet then s.endJob .ok 0
      else s)

/-! ### Pre-emption (R388 to R393) -/

/-- Counts from the start of a major cycle to the end of slot i (R383). -/
def Timetable.endOf (t : Timetable) (i : Nat) : Nat := (t.slots.take (i + 1)).foldl (fun a x => a + x.lengthUs * 1000) 0

/-- Does the job that runs stay when a slot begins (Table 14-5)? -/
def State.stays (s : State) (x : Slot) (j : Job) : Bool :=
  if x.kind = 0 then j.cls = 0
  else if x.kind = 5 then false
  else j.cls = x.kind || (x.lend && (s.firstReady x.kind none).isNone)

/-- SLOT_BOUNDARY: once the timestamp counter has reached the end of the slot the next one begins, and the running job continues
or is pre-empted (R383, Table 14-5). Log entry 57 applies (DEDUCED). -/
def execSlotBoundary (s : State) : Host.Outcome State Fault Refusal :=
  .next (
    match s.tt with
    | none => s
    | some t =>
      if s.time.toNat < s.sched.cycleStart + t.endOf s.sched.slot then s else
      let wrap := decide (t.slots.length ≤ s.sched.slot + 1)
      let slot := if wrap then 0 else s.sched.slot + 1
      let cycle := if wrap then t.endOf s.sched.slot else 0
      let s1 := (s.withSched { s.sched with slot, cycleStart := s.sched.cycleStart + cycle }).setFld
        Fld.TT_STATUS_SLOT slot
      match s1.slotNow, s1.sched.run with
      | some x, some j => if s1.stays x j then s1 else s1.requestPreempt
      | _, _ => s1)

/-- QUANTUM_EXPIRY: a shared job that has run for `QUANTUM_US` gives way to another tenant with a ready shared job and a
smaller charge per share (R384). -/
def execQuantumExpiry (s : State) : Host.Outcome State Fault Refusal :=
  .next (
    match s.tt, s.sched.run with
    | some t, some j =>
      let other := (List.range 64).any (fun n => decide (n ≠ j.tenant) && (s.firstReady 0 (some n)).isSome
        && decide (s.usedBy n * t.share j.tenant < s.usedBy j.tenant * t.share n))
      if j.cls = 0 && j.state = .running && decide (t.quantumUs ≠ 0)
          && decide (j.runFrom + t.quantumUs * 1000 ≤ s.time.toNat) && other then s.requestPreempt
      else s
    | _, _ => s)

/-- Write of `TT_CTRL` (R397, R398, R400): each bit written 1 acts; a refused bit refuses the write whole. -/
def ttCtrlWrite (v : Word) (s : State) : Status × State :=
  let swap := bit v.toNat 0
  let disc := bit v.toNat 1
  if (swap && decide (s.fld Fld.TT_STATUS_LOAD_STATE ≠ lsReady))
      || (disc && (swap || s.flag Fld.TT_STATUS_SWAP_PENDING)) then (.denied, s)
  else
    let s1 := if swap then (s.setFld Fld.TT_CTRL_SWAP 1).setFld Fld.TT_STATUS_SWAP_PENDING 1 else s
    let s2 := if disc then
        (s1.withSched { s1.sched with staged := none, loading := none }).setFld Fld.TT_STATUS_LOAD_STATE lsEmpty
          |>.setFld Fld.TT_STATUS_GEN_STAGED 0
      else s1
    let s3 := if bit v.toNat 2 && s2.sched.run.isSome then (s2.showPreempt true).requestPreempt else s2
    (.ok, s3)

/-- PREEMPT: a write of 1 to `PREEMPT`. -/
def execPreempt (q : Fin 4) (s : State) : Host.Outcome State Fault Refusal :=
  .next (s.regWrite q Reg.TT_CTRL (ttCtrlWrite 4))

/-- PREEMPT_HALTED: every core has halted: the drain begins and the windows with the job's tag are suspended.
Log entry 58 applies (DEDUCED). -/
def execPreemptHalted (s : State) : Host.Outcome State Fault Refusal :=
  .next (
    match s.sched.run with
    | none => s
    | some j =>
      let still := (List.range s.cores').all (fun n => s.fld (Fld.CORE_STATUS_STATE n) ≠ 3)
      if j.state ≠ .halting || j.suspended || j.ended || !still || s.allIdle || !s.quiet then s
      else s.setJob (some { j with suspended := true, saveFrom := s.time.toNat }))

/-- PREEMPT_DRAINED: the job's traffic has drained: its state is saved. A read of it that meets uncorrectable data ends the
save and the job with UNCORRECTABLE (R390). -/
def execPreemptDrained (s : State) : Host.Outcome State Fault Refusal :=
  .next (
    match s.sched.run with
    | none => s
    | some j =>
      match j.siding.bind s.siding, j.prog with
      | some rec', some p =>
        if j.state ≠ .halting || !j.suspended || j.ended || s.jobTraffic || !s.fab.held.isEmpty then s
        else
          let bufs := s.savedBufs p.bufs
          let waited := min (2 ^ 32 - 1) (s.time.toNat - j.haltFrom)
          let s1 := (s.setJob (some { j with state := .saving, saveFrom := s.time.toNat })).setFld
            Fld.TT_LAST_PREEMPT_HALT_WAIT_NS waited
          let r := bufs.foldl (fun (acc : Status × State) b =>
            if acc.1 ≠ .ok then acc else acc.2.readCheck 7 .module b.2.base b.2.size) (Status.ok, s1)
          if r.1 ≠ .ok then r.2.endJob r.1 0
          else
            let total := s.buffersOff s.cores' + bufBytes bufs
            ((r.2.writeCheck 7 rec'.base total).2.saveSections rec'.base p.coresUsed bufs)
      | _, _ => s)

/-- PREEMPT_SAVED: header and CRC are written, the PREEMPTED notice is posted with the siding, and the job is SIDED at the
head of its queue; the cores are free and a job boundary follows. -/
def execPreemptSaved (s : State) : Host.Outcome State Fault Refusal :=
  .next (
    match s.sched.run with
    | none => s
    | some j =>
      match j.siding.bind (fun n => (s.siding n).map (fun r => (n, r))), j.prog with
      | some (n, rec'), some p =>
        if j.state ≠ .saving then s
        else
          let a := rec'.base
          let bufs := s.savedBufs p.bufs
          let total := s.buffersOff s.cores' + bufBytes bufs
          let crc := crc32c (s.bytes (a + 8192) (total - 8192))
          let s1 := (s.putBytes a (s.sidingHeader j p.relocatable bufs total crc)).closeCharge
          let kept := s1.withSched { s1.sched with keeps := SMap.insert s1.sched.keeps n (s.keepNow j crc) }
          let s2 := (kept.setSiding n sdHolds j.tenant).setFld Fld.TT_LAST_PREEMPT_SAVE_NS
            (min (2 ^ 32 - 1) (s.time.toNat - j.saveFrom))
          let j1 := { j with state := .sided, tilesStarted := false, prog := none, nest := none, runs := [], nestsDone := 0 }
          let s3 := s2.freeCores.traceJob .sided
          (s3.setQueue (j1 :: s3.sched.queue)).postJob j1 .preempted .preempted n
      | _, _ => s)

/-- PREEMPT_TIMEOUT: step 1 beyond `HALT_NS`, or step 2 beyond `REMOTE_NS`: the job faults with TIMEOUT and nothing is
saved (R389). -/
def execPreemptTimeout (s : State) : Host.Outcome State Fault Refusal :=
  .next (
    match s.sched.run with
    | none => s
    | some j => if j.state = .halting then s.endJob (j.fault.worse .timeout) 0 else s)

/-! ### The timetable's registers (R397, R400) -/

/-- Write of `TT_LOAD`. -/
def ttLoadWrite (v : Word) (s : State) : Status × State :=
  if s.fld Fld.TT_STATUS_LOAD_STATE = lsLoading || s.flag Fld.TT_STATUS_SWAP_PENDING then (.denied, s)
  else
    (.ok, ((s.withSched { s.sched with staged := none, loading := some (wget v 39 12 * 4096) }).setFld
      Fld.TT_STATUS_LOAD_STATE lsLoading).setFld Fld.TT_STATUS_GEN_STAGED 0)

/-- TT_LOAD. -/
def execTtLoad (q : Fin 4) (v : Word) (s : State) : Host.Outcome State Fault Refusal :=
  .next (s.regWrite q Reg.TT_LOAD (ttLoadWrite v))

/-- TT_LOAD_DONE: the load ends READY, or FAILED with its reason. -/
def execTtLoadDone (s : State) : Host.Outcome State Fault Refusal :=
  .next (
    match s.sched.loading with
    | none => s
    | some a =>
      let src := s.hbmSource a ttBytes
      let r : Status × State := if src ≠ .ok then (src, s) else s.readCheck 7 .module a ttBytes
      let l := r.2.bytes a ttBytes
      let w := leNat l
      let st := if r.1 ≠ .ok then r.1
        else Status.lowest [Status.when (!ttOk w || byteField w 2 2 = s.fld Fld.TT_STATUS_GEN_ACTIVE) .verify,
          Status.when (!ttCrcOk l) .integrity]
      let s1 := (r.2.withSched { r.2.sched with loading := none }).setFld Fld.TT_STATUS_LOAD_STATUS st.code
      if st = .ok then
        ((s1.withSched { s1.sched with staged := some (Timetable.ofNum w) }).setFld Fld.TT_STATUS_LOAD_STATE lsReady).setFld
          Fld.TT_STATUS_GEN_STAGED (byteField w 2 2)
      else s1.setFld Fld.TT_STATUS_LOAD_STATE lsFailed)

/-- TT_SWAP_REQUEST: a write of 1 to `SWAP`. -/
def execTtSwapRequest (q : Fin 4) (s : State) : Host.Outcome State Fault Refusal :=
  .next (s.regWrite q Reg.TT_CTRL (ttCtrlWrite 1))

/-- TT_STAGED_DISCARD: a write of 1 to `DISCARD`. -/
def execTtStagedDiscard (q : Fin 4) (s : State) : Host.Outcome State Fault Refusal :=
  .next (s.regWrite q Reg.TT_CTRL (ttCtrlWrite 2))

/-- Write of `TT_LIMITS`. -/
def ttLimitsWrite (v : Word) (s : State) : Status × State :=
  let n := wget v 19 0
  if n < 1000 || 1000000 < n then (.verify, s) else (.ok, s.setFld Fld.TT_LIMITS_HALT_NS n)

/-- TT_LIMITS_WRITE. -/
def execTtLimitsWrite (q : Fin 4) (v : Word) (s : State) : Host.Outcome State Fault Refusal :=
  .next (s.regWrite q Reg.TT_LIMITS (ttLimitsWrite v))

/-! ### Siding commands (R396) -/

/-- DETACH: the siding's job leaves the queue. Log entry 60 applies (DEDUCED). -/
def State.detach (s : State) (n : Nat) : Status × State :=
  if s.sidingState n ≠ sdHolds || (s.sched.run.bind (·.siding)) = some n then (.denied, s)
  else
    (.ok, (s.setFld (Fld.TT_SIDING_STATE n) sdDetached).setQueue (s.sched.queue.filter (fun j => decide (j.siding ≠ some n))))

/-- RELEASE: the siding is FREE and its job lost. -/
def State.releaseCmd (s : State) (n : Nat) : Status × State :=
  if s.sidingState n ≠ sdDetached then (.denied, s) else (.ok, (s.setSiding n sdFree 0).rtArrives)

/-- The SIDED job of a siding's header, with the arithmetic flags since its first start where they are known here (R393).
Log entry 60 applies (DEDUCED). -/
def attachedJob (w n : Nat) (keep : SidedKeep) : Job :=
  { jobId := byteField w 8 4, tenant := byteField w 12 1, cls := byteField w 1 1, qp := byteField w 57 1, flags := keep.flags,
    image := byteField w 52 5, state := .sided, siding := some n, attached := true, suspended := true,
    sfuGen := byteField w 14 2, kvpGen := byteField w 16 4, tag := byteField w 20 2, seedBase := byteField w 24 8 }

/-- ATTACH: the image in a FREE or DETACHED siding is queued as a SIDED job. Log entry 60 applies (DEDUCED). -/
def State.attach (s : State) (n : Nat) (rec' : SidingRec) : Status × State :=
  let st := s.sidingState n
  let r := if s.ready rdyHbm then s.readCheck 7 .module rec'.base 8192 else (.notReady, s)
  let w := s.num rec'.base 8192
  let bad := Status.lowest [Status.when (decide (st ≠ sdFree) && decide (st ≠ sdDetached) || decide (1024 ≤ s.admitted)) .denied,
    r.1, Status.when (r.1 = .ok && (!sidingHeaderOk w || decide (byteField w 1 1 ≠ rec'.cls))) .verify]
  if bad ≠ .ok then (bad, if bad = .denied then s else r.2)
  else
    let j := attachedJob w n (s.keepOf n (byteField w 48 4))
    (.ok, (((r.2.setSiding n sdHolds j.tenant).traceJob .sided).setQueue (j :: r.2.sched.queue)).rtArrives)

/-- Write of `TT_SIDING_CMD`. -/
def ttSidingCmdWrite (v : Word) (s : State) : Status × State :=
  let n := wget v 3 0
  match s.siding n with
  | none => (.verify, s)
  | some r =>
    match wget v 63 62 with
    | 0 => s.detach n
    | 1 => s.releaseCmd n
    | 2 => s.attach n r
    | _ => (.verify, s)

/-- The word of a siding command. -/
def sidingWord (op n : Nat) : Word := BitVec.ofNat 64 (op * 2 ^ 62 + n)

/-- SIDING_DETACH. -/
def execSidingDetach (q : Fin 4) (n : Fin 16) (s : State) : Host.Outcome State Fault Refusal :=
  .next (s.regWrite q Reg.TT_SIDING_CMD (ttSidingCmdWrite (sidingWord 0 n.val)))

/-- SIDING_RELEASE. -/
def execSidingRelease (q : Fin 4) (n : Fin 16) (s : State) : Host.Outcome State Fault Refusal :=
  .next (s.regWrite q Reg.TT_SIDING_CMD (ttSidingCmdWrite (sidingWord 1 n.val)))

/-- SIDING_ATTACH. -/
def execSidingAttach (q : Fin 4) (n : Fin 16) (s : State) : Host.Outcome State Fault Refusal :=
  .next (s.regWrite q Reg.TT_SIDING_CMD (ttSidingCmdWrite (sidingWord 2 n.val)))

/-! ### Suspended windows (R392) -/

/-- Is a tag that of a job that has drained and has not been restored, held here or in a detached siding?.
Log entry 60 applies (DEDUCED). -/
def State.tagSuspended (s : State) (tag : Nat) : Bool :=
  (s.sched.run.toList ++ s.sched.queue).any (fun j => j.suspended && j.tag = tag)
    || (List.range 16).any (fun n => s.sidingState n = sdDetached
      && (((s.siding n).map (fun r => s.num (r.base + 20) 2)) = some tag))

end Sys2Proof.Machine
end

