-- ==== Sys2Proof/Machine/Fabric.lean ====
section
/-! DEFINITION. The fabric's ports, packets that arrive, answers, the turnout table and the FAB registers
(11_ikiys_fabric.md; R447). -/

namespace Sys2Proof.Machine

/-! ### Port states (R295 to R302) -/

/-- Does port p expect a neighbour? -/
def State.expects (s : State) (p : Nat) : Bool := decide (s.fld (Fld.FAB_PORT_LINK_EXPECT_MODULE p) ≠ noModule)

/-- A port's change of state is traced, with its reason as the status (R492). Log entry 118 applies (DEDUCED). -/
def State.tracePort (s : State) (p st : Nat) (reason : Status) : State := s.trace 2 12 reason p st 0

/-- Set the state of a port with its reason and cause; a change is traced. -/
def State.setPortState (s : State) (p st : Nat) (reason : Status) (cause : Nat) : State :=
  let s1 := ((s.setFld (Fld.FAB_PORT_STATUS_STATE p) st).setFld (Fld.FAB_PORT_STATUS_REASON p) reason.code).setFld
    (Fld.FAB_PORT_STATUS_CAUSE p) cause
  if s.portState p = st then s1 else s1.tracePort p st reason

/-- Ports in a state. -/
def State.portsIn (s : State) (st : Nat) : Nat := countUpTo 36 (fun p => s.portState p = st)

/-- Does a group hold an ACCEPTED port? -/
def State.connected (s : State) (g : Nat) : Bool :=
  (List.range 36).any (fun p => s.portGroup p = g && s.portState p = psAccepted)

/-- `FAB_STATUS`, `BUP_PORT_READY` and bit FABRIC of `BUP_READY` follow the port states (R302). -/
def State.showFabric (s : State) : State :=
  let con := maskOf 6 (fun g => s.connected g)
  let ready := (List.range 6).all (fun g => !bit (s.fld Fld.FAB_STATUS_EXPECTED) g || s.connected g)
  let s1 := ((((s.setFld Fld.FAB_STATUS_CONNECTED con).setFld Fld.FAB_STATUS_ACCEPTED (s.portsIn psAccepted)).setFld
    Fld.FAB_STATUS_NARROW (s.portsIn psNarrow)).setFld Fld.FAB_STATUS_MISWIRED (s.portsIn psMiswired)).setFld
    Fld.FAB_STATUS_FAILED (s.portsIn psFailed)
  let s2 := (s1.setFld Fld.BUP_PORT_READY_ACCEPTED (maskOf 36 (fun p => s.portState p = psAccepted))).setFld
    Fld.FAB_STATUS_READY (b2n ready)
  if ready then (s2.setReady rdyFabric).setFab { s2.fab with everReady := true } else s2.clearReady rdyFabric

/-- The ACCEPTED ports of a group change: it stops admitting packets (R324). -/
def State.portsChanged (s : State) (g : Nat) : State :=
  (s.setFab { s.fab with rebuilding := if s.fab.rebuilding.contains g then s.fab.rebuilding else g :: s.fab.rebuilding }).setFld
    Fld.FAB_STATUS_QUIESCE 1

/-- A port that was ACCEPTED is so no longer. -/
def State.leftAccepted (s : State) (p : Nat) : State :=
  (s.portsChanged (s.portGroup p)).bump (Fld.FAB_PORT_ERRS_DOWNS p) (Fld.FAB_PORT_ERRS_DOWN_SAT p) 1

/-- A port begins anew: what lasts is its flit counts and whether an attempt has ended without a width. -/
def PortRun.restart (r : PortRun) : PortRun := { failedOnce := r.failedOnce, tx := r.tx, rx := r.rx }

/-- What port p held and had not sent is lost, and so are the packets that wait at it: the slots of those in transit are free
(R324). -/
def State.dropPort (s : State) (p : Nat) : State :=
  let r := s.port p
  (r.queue.foldl State.oweFor s).setPort p r.restart

/-- A port leaves service: what its replay buffer held and what it had not sent is lost (R300, R304, R324). A FAILED port
is to begin an attempt at once (R301); one that was to be switched off is DISABLED (R295). Log entry 66 applies (DEDUCED). -/
def State.leaveService (s : State) (p st : Nat) (reason : Status) (cause : Nat) : State :=
  let s1 := (if s.portState p = psAccepted then s.leftAccepted p else s).dropPort p
  if s.flag (Fld.FAB_PORT_CTRL_DISABLE p) then ((s1.setFld (Fld.FAB_PORT_CTRL_RETRAIN p) 0).setPortState p psDisabled .ok 0).showFabric
  else ((s1.setPort p { s1.port p with again := decide (st = psFailed) }).setPortState p st reason cause).showFabric

/-- The FX die of a fabric port (R26). -/
def fxOf (p : Nat) : Nat := 2 * (p / 9) + (if p % 9 < 5 then 0 else 1)

/-- May a port train: it is not switched off, its reference clock runs, its die's link serves and the link training firmware
runs (R295, R446, R471, R517)? -/
def State.canTrain (s : State) (p : Nat) : Bool :=
  !s.flag (Fld.FAB_PORT_CTRL_DISABLE p) && s.boot.sdsclk && !s.boot.linksDown.contains (40 + fxOf p) && !s.boot.badComponents.contains 4

/-- A port begins an attempt, where it can train: counted, TRAINING, its lanes given up. -/
def State.beginAttempt (s : State) (p : Nat) : State :=
  if !s.canTrain p then s else
  let s1 := if s.portState p = psAccepted then s.leftAccepted p else s
  let s1' := if s.portState p = psTraining then s1 else s1.tracePort p psTraining .ok
  let s2 := (s1'.dropPort p).bumpStop (Fld.FAB_PORT_STATUS_ATTEMPTS p) 1
  ((((s2.setFld (Fld.FAB_PORT_CTRL_RETRAIN p) 0).setFld (Fld.FAB_PORT_STATUS_STATE p) psTraining).setFld
    (Fld.FAB_PORT_STATUS_LANES_USED p) 0).setFld (Fld.FAB_PORT_STATUS_LANES_GOOD p) 0).showFabric

/-- Lanes of the widest usable set, with its width code (R297). -/
def widest (usable : Nat) : Option (Nat × Nat) :=
  [(0xff, 3), (0x0f, 2), (0xf0, 2), (0x03, 1), (0x0c, 1), (0x30, 1), (0xc0, 1), (1, 0), (2, 0), (4, 0), (8, 0), (16, 0),
    (32, 0), (64, 0), (128, 0)].find? (fun x => decide (usable &&& x.1 = x.1))

/-- A coordinate stepped along an axis of extent `n`, with wrap. -/
def stepCoord (n x : Nat) (up : Bool) : Nat := if up then (x + 1) % n else (x + n - 1) % n

/-- The lowest identity check that a record fails; 0 for none (Table 11-4). -/
def State.identCause (s : State) (p : Nat) (i : Ident) : Nat :=
  let g := s.portGroup p
  let want := setNth s.coords (g / 2) (stepCoord (nth 1 s.extents (g / 2)) (nth 0 s.coords (g / 2)) (decide (g % 2 = 0)))
  if i.moduleId ≠ s.fld (Fld.FAB_PORT_LINK_EXPECT_MODULE p) then 1
  else if i.port ≠ s.fld (Fld.FAB_PORT_LINK_EXPECT_PORT p) then 2
  else if i.group ≠ g ^^^ 1 then 3
  else if [i.dx + 1, i.dy + 1, i.dz + 1] ≠ s.extents ∨ [i.x, i.y, i.z] ≠ want then 4
  else if i.systemId ≠ s.fld Fld.FAB_CFG_SYSTEM_ID then 5
  else 0

/-- `PEER_*` from a valid record. -/
def State.showPeer (s : State) (p : Nat) (i : Ident) : State :=
  (((s.setFld (Fld.FAB_PORT_LINK_PEER_MODULE p) i.moduleId).setFld (Fld.FAB_PORT_LINK_PEER_PORT p) i.port).setFld
    (Fld.FAB_PORT_LINK_PEER_GROUP p) i.group).setFld (Fld.FAB_PORT_LINK_PEER_SYSTEM p) i.systemId

/-- An attempt ends without a width, or in a step past its limit: FAILED with TIMEOUT. -/
def State.attemptFails (s : State) (p : Nat) : State :=
  ((s.setPort p { (s.port p).restart with failedOnce := true }).setPortState p psFailed .timeout 0).showFabric

/-- A port becomes ACCEPTED: its group's maps are to be rebuilt. -/
def State.acceptPort (s : State) (p : Nat) : State :=
  ((s.portsChanged (s.portGroup p)).setPortState p psAccepted .ok 0).showFabric

/-- May an attempt be in progress: TRAINING, or FAILED and to begin at once? The state in which it is. -/
def State.attempting (s : State) (p : Nat) : Option State :=
  if !s.canTrain p then none
  else if s.portState p = psTraining then some s
  else if s.portState p = psFailed && (s.port p).again then some (s.beginAttempt p)
  else none

/-- The identity record of port p (Table 11-5). -/
def State.ownIdent (s : State) (p : Nat) : Ident :=
  { port := p, group := s.portGroup p, lanesGood := (s.port p).good, moduleId := s.moduleId, systemId := s.fld Fld.FAB_CFG_SYSTEM_ID,
    dx := s.fld Fld.FAB_CFG_DX_MINUS1, dy := s.fld Fld.FAB_CFG_DY_MINUS1, dz := s.fld Fld.FAB_CFG_DZ_MINUS1,
    x := s.fld Fld.FAB_CFG_X, y := s.fld Fld.FAB_CFG_Y, z := s.fld Fld.FAB_CFG_Z }

/-- Step 4: the width of an attempt and its lanes (R297). -/
def State.takeWidth (s : State) (p : Nat) (o : TrainObs) (set w : Nat) : State :=
  let s1 := ((((s.setFld (Fld.FAB_PORT_STATUS_WIDTH p) w).setFld (Fld.FAB_PORT_STATUS_REVERSED p) (b2n o.reversed)).setFld
    (Fld.FAB_PORT_STATUS_LANES_GOOD p) (o.here &&& o.peer).toNat).setFld (Fld.FAB_PORT_STATUS_LANES_USED p) set)
  s1.setPort p { (s1.port p).restart with good := o.here.toNat }

/-- Step 6: the port takes its state from its width and from the record on which step 5 agreed (R298, R299). -/
def State.endAttempt (s : State) (p w : Nat) (record : List Byte) (i : Ident) : State :=
  let s1 := (s.showPeer p i).setPort p { s.port p with ident := some record }
  let c := s1.identCause p i
  if c ≠ 0 then (s1.setPortState p psMiswired .mismatch c).showFabric
  else if w < s1.fld Fld.FAB_CTRL_MIN_WIDTH then (s1.setPortState p psNarrow .degraded 0).showFabric
  else s1.acceptPort p

/-- PORT_TRAINING_ATTEMPT: an attempt runs its steps; in step 5 the port sends its own record. Log entry 3 applies
(DESIGN CHOICE). -/
def execPortTrainingAttempt (p : Fin 36) (o : TrainObs) (s : State) : Host.Outcome State Fault Refusal :=
  .next (
    match s.attempting p.val with
    | none => s
    | some s1 =>
      match (if o.locked then widest (o.here &&& o.peer).toNat else none) with
      | none => s1.attemptFails p
      | some (set, w) =>
        let s2 := s1.takeWidth p o set w
        let s3 := s2.emit (.ident p.val (s2.ownIdent p).bytes)
        match agreedRecord o.records with
        | none => s3.attemptFails p
        | some (record, i) => s3.endAttempt p w record i)

/-- TRAINING_STEP_TIMEOUT: a step of the attempt has exceeded its limit. -/
def execTrainingStepTimeout (p : Fin 36) (s : State) : Host.Outcome State Fault Refusal :=
  .next (
    match s.attempting p.val with
    | none => s
    | some s1 => s1.attemptFails p)

/-- RETRAIN_INTERVAL: 1 s of a FAILED port, or 60 s of a NARROW one, have passed. -/
def execRetrainInterval (p : Fin 36) (s : State) : Host.Outcome State Fault Refusal :=
  .next (if s.portState p = psFailed || s.portState p = psNarrow then s.beginAttempt p else s)

/-- Is the port ACCEPTED or NARROW? -/
def State.portUp (s : State) (p : Nat) : Bool := s.portState p = psAccepted || s.portState p = psNarrow

/-- IDENT_RECORD_RECEIVED: a heartbeat record, its bytes 0 to 59 and its CRC; one that is not valid is ignored (R299, R300). -/
def execIdentRecordReceived (p : Fin 36) (body : List Byte) (crc : BitVec 32) (s : State) : Host.Outcome State Fault Refusal :=
  .next (
    let record := body ++ leBytes 4 crc.toNat
    match Ident.ofBytes record with
    | none => s
    | some i =>
      if !s.portUp p then s
      else if (s.port p).ident = some record then s.showPeer p i
      else (s.showPeer p i).leaveService p psMiswired .mismatch 6)

/-- IDENT_TIMEOUT: no valid record for 3 ms. -/
def execIdentTimeout (p : Fin 36) (s : State) : Host.Outcome State Fault Refusal :=
  .next (if s.portUp p then s.leaveService p psFailed .timeout 0 else s)

/-! ### Flits (R303, R304, R307) -/

/-- A drain asked for by RETRAIN or DISABLE has ended: nothing waits and the peer has acknowledged all (R316, R324). -/
def State.endDrain (s : State) (p : Nat) : State :=
  let r := s.port p
  if !r.drain || !r.queue.isEmpty || !r.replay.isEmpty then s
  else if s.flag (Fld.FAB_PORT_CTRL_DISABLE p) then s.leaveService p psDisabled .ok 0
  else s.beginAttempt p

/-- A codeword arrived: whether it could be corrected, and whether it had to be (Table 11-31). -/
def State.countCodeword (s : State) (p : Nat) (good corrected : Bool) : State :=
  if !good then s.bump (Fld.FAB_PORT_ERRS_UNCORRECTED p) (Fld.FAB_PORT_ERRS_UC_SAT p) 1
  else if corrected then s.bump (Fld.FAB_PORT_ERRS_CORRECTED p) (Fld.FAB_PORT_ERRS_CW_SAT p) 1
  else s

/-- A flit is discarded, and every later one until the expected one comes: a CONTROL flit with a NAK leaves at once (R304). -/
def State.nakFlit (s : State) (p : Nat) : State :=
  (s.setPort p { s.port p with naked := true }).sendControl p true []

/-- DATA_FLIT_RECEIVED: `good` unless the codeword was uncorrectable, `corrected` where symbols were. A flit out of order after a NAK
is one of those that the peer had sent before it. Log entry 65 applies (DESIGN CHOICE). -/
def execDataFlitReceived (p : Fin 36) (seq : Fin 4096) (good corrected : Bool) (s : State) : Host.Outcome State Fault Refusal :=
  .next (
    if !s.portUp p then s
    else
      let s1 := s.countCodeword p good corrected
      let r := s1.port p
      if s1.portState p ≠ psAccepted then s1
      else if !good then s1.nakFlit p
      else if seq.val ≠ r.received % 4096 then (if r.naked then s1 else s1.nakFlit p)
      else
        (s1.setPort p { r with received := r.received + 1, naked := false, rx := r.rx + 1 }).countFlits
          (Fld.FAB_PORT_TRAFFIC_RX_KFLITS p) (Fld.FAB_PORT_TRAFFIC_RX_SAT p) r.rx (r.rx + 1))

/-- Credits returned for a channel: its own are filled first, up to 64, the rest are those of the shared pool.
Log entry 64 applies (DESIGN CHOICE). -/
def PortRun.credit (r : PortRun) (vc n : Nat) : PortRun :=
  let own := nth 0 r.credits vc
  let k := min n (64 - own)
  let c1 := setNth r.credits vc (own + k)
  { r with credits := setNth c1 8 (min 7680 (nth 0 c1 8 + (n - k))) }

/-- Flits that an acknowledgement adds; none where it names a flit that was not sent. -/
def PortRun.ackGain (r : PortRun) (ack : Nat) : Nat :=
  let n := (ack + 1 + 4096 - r.acked % 4096) % 4096
  if r.acked + n ≤ r.flits then n else 0

/-- NAKs without progress after a CONTROL flit that acknowledges `n` more flits. -/
def PortRun.naksAfter (r : PortRun) (n : Nat) (nak : Bool) : Nat :=
  if nak then (if n = 0 then r.naks + 1 else 1) else if n = 0 then r.naks else 0

/-- The port after a CONTROL flit: acknowledged flits leave the replay buffer, and credits return. -/
def PortRun.control (r : PortRun) (ack : Nat) (nak : Bool) (credits : List Nat) : PortRun :=
  let n := r.ackGain ack
  (List.range 8).foldl (fun (a : PortRun) v => a.credit v (nth 0 credits v))
    { r with acked := r.acked + n, replay := r.replay.drop n, naks := r.naksAfter n nak }

/-- What the replay buffer holds is sent again, from the flit that the peer expects (R304). -/
def State.resend (s : State) (p : Nat) : State :=
  ((s.port p).replay.foldl (fun a f => a.sendFlit p f) s).bump (Fld.FAB_PORT_ERRS_REPLAYS p) (Fld.FAB_PORT_ERRS_RP_SAT p) 1

/-- CONTROL_FLIT_RECEIVED: acknowledgement, NAK and credits of the eight channels (R304). -/
def execControlFlitReceived (p : Fin 36) (ack : AckField) (nak : Bool) (credits : List Nat) (s : State) :
    Host.Outcome State Fault Refusal :=
  .next (
    if !s.portUp p then s
    else
      let s1 := s.countCodeword p true ack.corrected
      let r := (s1.port p).control ack.seq.val nak credits
      let s2 := s1.setPort p r
      if 16 ≤ r.naks then s2.leaveService p psFailed .timeout 0
      else ((if nak then s2.resend p else s2).portPump p).endDrain p)

/-- CONTROL_FLIT_SEND: what the port has received, the credits it owes, and at 1 ms intervals its identity record. -/
def execControlFlitSend (p : Fin 36) (ident : Bool) (s : State) : Host.Outcome State Fault Refusal :=
  .next (if !s.portUp p then s else s.sendControl p false (if ident then (s.ownIdent p).bytes else []))

/-- CONTROL_FLIT_TIMEOUT: no CONTROL flit for 100 µs. -/
def execControlFlitTimeout (p : Fin 36) (s : State) : Host.Outcome State Fault Refusal :=
  .next (if s.portUp p then s.leaveService p psFailed .timeout 0 else s)

/-- LANE_SIGNAL_LOSS: a lane in use has lost its signal. A MISWIRED port also leaves its state (R299). -/
def execLaneSignalLoss (p : Fin 36) (s : State) : Host.Outcome State Fault Refusal :=
  .next (if s.portUp p || s.portState p = psMiswired then s.leaveService p psFailed .timeout 0 else s)

/-! ### Groups (R324) -/

/-- Insert by serial number. -/
def insertBySerial (x : Nat × Nat) : List (Nat × Nat) → List (Nat × Nat)
  | [] => [x]
  | y :: l => if x.1 ≤ y.1 then x :: y :: l else y :: insertBySerial x l

/-- Transactions that no port has taken, in order of injection. -/
def State.unsent (s : State) : List Nat :=
  ((s.fab.trans.filter (fun t => !t.2.sent)).foldr (fun t l => insertBySerial (t.2.serial, t.1) l) []).map (·.2)

/-- Packets and transactions that wait for a port are offered again. -/
def State.relaunch (s : State) : State :=
  let l := s.fab.stranded
  let s1 := l.foldl (fun a x => a.sendPacket x.1 x.2) (s.setFab { s.fab with stranded := [] })
  s1.unsent.foldl (fun a i => a.launch i) s1

/-- GROUP_REBUILD: every packet assigned to a port of the group has been sent or lost, or `late`, 1 ms has passed: the maps
are rebuilt and packets admitted again. -/
def execGroupRebuild (g : Fin 6) (late : Bool) (s : State) : Host.Outcome State Fault Refusal :=
  .next (
    let busy := (List.range 36).any (fun p => s.portGroup p = g.val && !(s.port p).queue.isEmpty)
    if !s.fab.rebuilding.contains g.val || (busy && !late) then s
    else
      let rest := s.fab.rebuilding.filter (fun x => decide (x ≠ g.val))
      let s1 := (s.rebuildMaps g.val)
      ((s1.setFab { s1.fab with rebuilding := rest }).setFld Fld.FAB_STATUS_QUIESCE (b2n (!rest.isEmpty))).relaunch)

/-! ### Packets in transit (R310 to R314) -/

/-- PACKET_FORWARD: a packet for another module, as it arrived at port p. -/
def execPacketForward (p : Fin 36) (x : Packet) (s : State) : Host.Outcome State Fault Refusal :=
  .next (s.arriving p (fun s1 =>
    if s1.turnoutDir x.dst = 6 then s1 else s1.sendPacket (some p.val) { x with hops := x.hops + 1 }))

/-- An answer to a page read of a PASS is kept for it. -/
def State.pageAnswer (s : State) (core : Nat) (t : Trans) (st : Status) (data : List Byte) : State :=
  match (s.core core).att with
  | none => s
  | some p => s.setCore core { s.core core with att := some { p with pages := p.pages ++ [(t.dest * 2 ^ 40 + t.addr, st, data)] } }

/-- An answer to a SEAL or MOVE_PAGE is kept for it: the bytes of a READ, the lowest status of its WRITEs. -/
def State.kvpAnswer (s : State) (t : Trans) (st : Status) (data : List Byte) : State :=
  let k := s.units.kvp
  s.withUnits { s.units with kvp := if t.op = 2 then { k with got := k.got ++ [(t.dest * 2 ^ 40 + t.addr, st, data)] }
                                    else { k with sent := k.sent.map (fun x => x.worse st) } }

/-- The final anchors of an attention part. -/
def State.anchorAnswer (s : State) (core : Nat) (st : Status) (data : List Byte) : State :=
  match (s.core core).att with
  | none => s
  | some p => s.setCore core { s.core core with att := some { p with answer := some (st, data) } }

/-- The end of a transaction is told to its owner, and its number is free. -/
def State.endTrans (s : State) (reqId : Nat) (t : Trans) (st : Status) (data : List Byte) : State :=
  let s1 := s.freeTrans reqId
  match t.owner with
  | .instr core => s1.instrAnswer core t.serial st
  | .attPost core _ => s1.anchorAnswer core st data
  | .pages core => s1.pageAnswer core t st data
  | .kvp => s1.kvpAnswer t st data
  | .grad red => s1.gradAnswer red t st

/-- A transaction ends with TIMEOUT. -/
def State.timeoutTrans (s : State) (reqId : Nat) (t : Trans) : State :=
  (s.bump Fld.FAB_ERRORS_TIMEOUTS Fld.FAB_ERRORS_TIMEOUT_SAT 1).endTrans reqId t .timeout []

/-- NO_ACCEPTED_PORT_TIMEOUT: the output group of a packet has had no ACCEPTED port for longer than `REMOTE_NS`. With `own`
the packet is that of transaction n, else number n of those in transit that wait. -/
def execNoAcceptedPortTimeout (own : Bool) (n : Nat) (s : State) : Host.Outcome State Fault Refusal :=
  .next (
    if own then
      match SMap.find s.fab.trans n with
      | none => s
      | some t =>
        if t.sent || s.connected (s.turnoutDir t.dest) then s
        else
          (s.countDrop .timeout (t.packet s.moduleId n)).timeoutTrans n t
    else
      match s.fab.stranded[n]? with
      | none => s
      | some (inPort, x) =>
        if s.connected (s.turnoutDir x.dst) then s
        else (s.setFab { s.fab with stranded := s.fab.stranded.eraseIdx n }).discard inPort .timeout x)

/-! ### Requests that arrive (R320 to R323) -/

/-- Does a window with this tag and right cover a byte, or a range? Rights: 62 READ, 61 WRITE, 60 POST. -/
def State.windowCovers (s : State) (i tag right a n : Nat) : Bool :=
  let b := s.fld (Fld.FAB_WIN_BASE_BASE_4K i) * 4096
  let z := s.fld (Fld.FAB_WIN_SIZE_SIZE_4K i) * 4096
  s.flag (Fld.FAB_WIN_BASE_VALID i) && decide (tag ≠ 0) && s.fld (Fld.FAB_WIN_BASE_TAG i) = tag
    && s.flag ⟨Reg.FAB_WIN_BASE i, right, right⟩ && within a n b z

/-- Checks of Table 11-14 on [a, a + n), apart from those of single operations. -/
def State.remoteStatus (s : State) (h : PktHdr) (right n : Nat) : Status :=
  let a := h.addr
  let mem := isHbm a || isMs a
  let some1 := fun k => (List.range 64).any (fun i => s.windowCovers i h.tag right a k)
  Status.lowest [
    Status.when (!h.opOk || !h.fieldsOk) .verify,
    Status.when (isCs a || isReg a || (mem && (!some1 1 || s.tagSuspended h.tag)) || s.touchesClass classGrd a n) .denied,
    Status.when ((!mem && !isCs a && !isReg a) || (mem && decide (memEnd a < a + n)) || (some1 1 && !some1 n)) .bounds,
    Status.when (!s.fab.everReady || (mem && !s.memReady a n)) .notReady]

/-- A refused request changes nothing: counted, logged, and answered. -/
def State.refuse (s : State) (h : PktHdr) (op : Nat) (st : Status) : State :=
  ((s.log 12 st (.remote h.src) h.addr).bump Fld.FAB_ERRORS_REFUSED Fld.FAB_ERRORS_REFUSED_SAT 1).answerTo h op st []

/-- A request arrives at its port and gives back its slots: discarded where its CRC fails, answered with an ERROR where its operation
is reserved, refused for what `status` says, else served by `go` (R317, R321). -/
def State.request (s : State) (h : PktHdr) (cls slots op : Nat) (status : State → Status) (go : State → State) : State :=
  s.arriving h.port (fun s0 =>
    let s1 := s0.owe (some h.port) (vcOf cls h.sub) slots
    if !h.crcOk then s1.crcDiscard h
    else if !h.opOk then s1.refuse h 6 .verify
    else if status s1 ≠ .ok then s1.refuse h op (status s1)
    else go s1)

/-- FABRIC_WRITE: an empty payload, or one beyond 2,048 bytes, fails the check of `LEN`. -/
def execFabricWrite (h : PktHdr) (data : List Byte) (s : State) : Host.Outcome State Fault Refusal :=
  .next (s.request h 0 (packetSlots data.length) 4
    (fun s1 => (s1.remoteStatus h 61 data.length).worse (Status.when (!inside 1 2048 data.length) .verify))
    (fun s1 =>
      let w := s1.writeMem 5 h.addr data
      if w.1 = .ok then w.2.answerTo h 4 .ok [] else w.2.refuse h 4 w.1))

/-- FABRIC_READ. -/
def execFabricRead (h : PktHdr) (len : Nat) (s : State) : Host.Outcome State Fault Refusal :=
  .next (s.request h 0 1 6
    (fun s1 => (s1.remoteStatus h 62 len).worse (Status.when (!inside 1 2048 len) .verify))
    (fun s1 =>
      let r := s1.readMem 5 (.remote h.src) h.addr len
      if r.1 = .ok then r.2.2.answerTo h 5 .ok r.2.1 else r.2.2.refuse h 6 r.1))

/-- Checks of a POST at a slot. Log entry 68 applies (DEDUCED). -/
def State.postStatus (s : State) (h : PktHdr) : Status :=
  (s.remoteStatus h 60 1024).worse (Status.when (decide (h.addr % 1024 ≠ 0) || !isMs h.addr) .misaligned)

/-- FABRIC_POST_ATT: its slots are given back once it has been applied, which waits while 4,096 ACKs are held (R323).
Log entry 68 applies (DEDUCED). -/
def execFabricPostAtt (h : PktHdr) (x : AttPost) (s : State) : Host.Outcome State Fault Refusal :=
  .next (
    let n := packetSlots 816
    let r := s.readCheck 5 (.remote h.src) h.addr 1024
    if h.crcOk && h.opOk && s.postStatus h = .ok && r.1 = .ok then
      s.arriving h.port (fun _ => (r.2.postArrives h x n).afterPost h.addr)
    else s.request h 2 n 4 (fun s1 => s1.postStatus h) (fun s1 =>
      let r1 := s1.readCheck 5 (.remote h.src) h.addr 1024
      r1.2.refuse h 4 r1.1))

/-- FABRIC_POST_MERGED_INC. -/
def execFabricPostMergedInc (h : PktHdr) (s : State) : Host.Outcome State Fault Refusal :=
  .next (s.request h 2 1 4 (fun s1 => s1.postStatus h) (fun s1 =>
    let r := s1.readCheck 5 (.remote h.src) h.addr 1024
    if r.1 ≠ .ok then r.2.refuse h 4 r.1
    else (r.2.putNum (h.addr + 4) 2 (r.2.slotMerged h.addr + 1)).answerTo h 4 .ok []))

/-! ### Answers that arrive (R322) -/

/-- An answer to transaction `h.reqId` of this module: `f` ends it. One that names none that waits for it is late.
Log entry 69 applies (DEDUCED). -/
def State.answerArrives (s : State) (h : PktHdr) (slots : Nat) (want : Trans → Bool) (f : Trans → State → State) : State :=
  s.arriving h.port (fun s0 =>
    let s1 := s0.owe (some h.port) (vcOf 1 h.sub) slots
    let late := s1.bump Fld.FAB_ERRORS_LATE Fld.FAB_ERRORS_LATE_SAT 1
    if !h.crcOk then s1.crcDiscard h
    else
      match SMap.find s1.fab.trans h.reqId with
      | none => late
      | some t => if t.sent && t.dest = h.src && want t then f t s1 else late)

/-- FABRIC_ACK: of a WRITE, a POST or a gradient packet; that of an attention post carries bytes 32 to 815 of its slot.
Log entry 3 applies (DESIGN CHOICE). -/
def execFabricAck (h : PktHdr) (st : Status) (data : List Byte) (s : State) : Host.Outcome State Fault Refusal :=
  .next (s.answerArrives h (packetSlots data.length) (fun t => decide (t.op ≠ 2)) (fun t s1 => s1.endTrans h.reqId t st data))

/-- FABRIC_READ_DATA: the data is written locally, or goes to the pass or page command that reads, which completes the READ. -/
def execFabricReadData (h : PktHdr) (st : Status) (data : List Byte) (s : State) : Host.Outcome State Fault Refusal :=
  .next (s.answerArrives h (packetSlots data.length) (fun t => decide (t.op = 2)) (fun t s1 =>
    match t.owner with
    | .instr _ =>
      let w : Status × State := if st = .ok then s1.jobWrite t.into (data.take t.len) else (st, s1)
      w.2.endTrans h.reqId t w.1 []
    | .attPost .. | .pages _ | .kvp | .grad _ => s1.endTrans h.reqId t st (data.take t.len)))

/-- FABRIC_ERROR. -/
def execFabricError (h : PktHdr) (st : Status) (s : State) : Host.Outcome State Fault Refusal :=
  .next (s.answerArrives h 1 (fun _ => true) (fun t s1 => s1.endTrans h.reqId t st []))

/-- REMOTE_TIMEOUT: `REMOTE_NS` have passed since the injection of a transaction. The wait of an attention post for its
ACK has another limit (R323). -/
def execRemoteTimeout (reqId : Fin 16384) (s : State) : Host.Outcome State Fault Refusal :=
  .next (
    match SMap.find s.fab.trans reqId.val with
    | none => s
    | some t => if t.post.isSome then s else s.timeoutTrans reqId.val t)

/-! ### The turnout table (R310, R316) -/

/-- Entries of a table image. -/
def turnoutEntries : List Byte → List Nat
  | a :: b :: l => (a.toNat + 256 * b.toNat) :: turnoutEntries l
  | _ => []

/-- Bytes of a table image. -/
def turnoutBytes : Nat := 32832

/-- Groups with a port that expects a neighbour, as a mask. -/
def State.expectedGroups (s : State) : Nat :=
  maskOf 6 (fun g => (List.range 36).any (fun p => s.portGroup p = g && s.expects p))

/-- Are the entries of a table right for module `own`: its own LOCAL and no other, and no group without a port that expects
a neighbour? -/
def turnoutOk (own groups : Nat) (l : List Nat) : Bool :=
  (l.mapIdx (fun i e => decide (e ≤ 7) && (decide (e = 6) == decide (i = own)) && (decide (6 ≤ e) || bit groups e))).all id

/-- The table of a list of entries: those that are not NONE. -/
def turnoutTable (l : List Nat) : List (Nat × Nat) := (l.mapIdx (fun i e => (i, e))).filter (fun x => decide (x.2 ≠ 7))

/-- What the checks of a table image say (R316). -/
def State.turnoutStatus (s : State) (l : List Byte) (active : Nat) : Status :=
  let w := leNat (l.take 64)
  let gen := byteField w 2 2
  Status.lowest [
    Status.when (byteField w 0 1 ≠ 1 || byteField w 1 1 ≠ 0 || byteField w 8 56 ≠ 0 || gen = 0 || gen = active
      || !turnoutOk s.moduleId s.expectedGroups (turnoutEntries (l.drop 64))) .verify,
    Status.when (crc32c (l.drop 64) ≠ byteField w 4 4) .integrity]

/-- Write of `FAB_TT_LOAD`. Log entry 69 applies (DEDUCED). -/
def fabTtLoadWrite (v : Word) (s : State) : Status × State :=
  if s.fld Fld.FAB_TT_STATUS_LOAD_STATE = lsLoading || s.flag Fld.FAB_CTRL_TT_SWAP then (.denied, s)
  else
    (.ok, ((s.setFab { s.fab with staged := [], load := some (wget v 39 12 * 4096) }).setFld
      Fld.FAB_TT_STATUS_LOAD_STATE lsLoading).setFld Fld.FAB_TT_STATUS_GEN_STAGED 0)

/-- FAB_TT_LOAD. -/
def execFabTtLoad (q : Fin 4) (v : Word) (s : State) : Host.Outcome State Fault Refusal :=
  .next (s.regWrite q Reg.FAB_TT_LOAD (fabTtLoadWrite v))

/-- FAB_TT_LOAD_DONE: the load ends READY, or FAILED with its reason. -/
def execFabTtLoadDone (s : State) : Host.Outcome State Fault Refusal :=
  .next (
    match s.fab.load with
    | none => s
    | some a =>
      let src := s.hbmSource a turnoutBytes
      let r : Status × State := if src ≠ .ok then (src, s) else s.readCheck 7 .module a turnoutBytes
      let l := r.2.bytes a turnoutBytes
      let st := if r.1 ≠ .ok then r.1 else r.2.turnoutStatus l (s.fld Fld.FAB_TT_STATUS_GEN_ACTIVE)
      let s1 := (r.2.setFab { r.2.fab with load := none }).setFld Fld.FAB_TT_STATUS_LOAD_STATUS st.code
      if st = .ok then
        ((s1.setFab { s1.fab with staged := turnoutTable (turnoutEntries (l.drop 64)) }).setFld Fld.FAB_TT_STATUS_LOAD_STATE
          lsReady).setFld Fld.FAB_TT_STATUS_GEN_STAGED (byteField (leNat (l.take 64)) 2 2)
      else s1.setFld Fld.FAB_TT_STATUS_LOAD_STATE lsFailed)

/-- The banks are exchanged: later lookups use the new one, and the previous generation stays staged. -/
def State.swapTurnout (s : State) : State :=
  let a := s.fld Fld.FAB_TT_STATUS_GEN_ACTIVE
  let b := s.fld Fld.FAB_TT_STATUS_GEN_STAGED
  (((s.setFab { s.fab with turnout := s.fab.staged, staged := s.fab.turnout }).setFld Fld.FAB_TT_STATUS_GEN_ACTIVE b).setFld
    Fld.FAB_TT_STATUS_GEN_STAGED a).relaunch

/-- The staged bank is emptied, and a load abandoned. -/
def State.discardTurnout (s : State) : State :=
  ((s.setFab { s.fab with staged := [], load := none }).setFld Fld.FAB_TT_STATUS_LOAD_STATE lsEmpty).setFld
    Fld.FAB_TT_STATUS_GEN_STAGED 0

/-- Ports are judged again by a new `MIN_WIDTH` (R298). Log entry 66 applies (DEDUCED). -/
def State.judgeWidths (s : State) : State :=
  (List.range 36).foldl (fun a p =>
    let ok := decide (a.fld Fld.FAB_CTRL_MIN_WIDTH ≤ a.fld (Fld.FAB_PORT_STATUS_WIDTH p))
    if a.portState p = psAccepted && !ok then ((a.leftAccepted p).setPortState p psNarrow .degraded 0).showFabric
    else if a.portState p = psNarrow && ok then a.acceptPort p
    else a) s

/-- Write of `FAB_CTRL`. Log entry 36 applies (DEDUCED). -/
def fabCtrlWrite (v : Word) (s : State) : Status × State :=
  let swap := bit v.toNat 2
  let disc := bit v.toNat 3
  if swap && (disc || decide (s.fld Fld.FAB_TT_STATUS_LOAD_STATE ≠ lsReady)) then (.denied, s)
  else
    let s1 := if wget v 1 0 = s.fld Fld.FAB_CTRL_MIN_WIDTH then s else (s.setFld Fld.FAB_CTRL_MIN_WIDTH (wget v 1 0)).judgeWidths
    let s2 := if swap then s1.swapTurnout else s1
    (.ok, if disc then s2.discardTurnout else s2)

/-- The word of `FAB_CTRL` that leaves `MIN_WIDTH` as it is and writes other bits. -/
def State.fabCtrlWith (s : State) (x : Nat) : Word := BitVec.ofNat 64 (s.fld Fld.FAB_CTRL_MIN_WIDTH + x)

/-- TT_SWAP: a write of 1 to `TT_SWAP`. Log entry 69 applies (DEDUCED). -/
def execTtSwap (q : Fin 4) (s : State) : Host.Outcome State Fault Refusal :=
  .next (s.regWrite q Reg.FAB_CTRL (fabCtrlWrite (s.fabCtrlWith 4)))

/-- TT_DISCARD: a write of 1 to `TT_DISCARD`. -/
def execTtDiscard (q : Fin 4) (s : State) : Host.Outcome State Fault Refusal :=
  .next (s.regWrite q Reg.FAB_CTRL (fabCtrlWrite (s.fabCtrlWith 8)))

/-- MIN_WIDTH_WRITE. -/
def execMinWidthWrite (q : Fin 4) (w : Fin 4) (s : State) : Host.Outcome State Fault Refusal :=
  .next (s.regWrite q Reg.FAB_CTRL (fabCtrlWrite (BitVec.ofNat 64 w.val)))

/-! ### Other registers (R326, R327) -/

/-- Write of `FAB_LIMITS`. -/
def fabLimitsWrite (v : Word) (s : State) : Status × State :=
  if inside 1000 1000000 (wget v 19 0) then (.ok, s.setFld Fld.FAB_LIMITS_REMOTE_NS (wget v 19 0)) else (.verify, s)

/-- FAB_LIMITS_WRITE. -/
def execFabLimitsWrite (q : Fin 4) (v : Word) (s : State) : Host.Outcome State Fault Refusal :=
  .next (s.regWrite q Reg.FAB_LIMITS (fabLimitsWrite v))

/-- Write of `FAB_WINi_BASE` (R327). Log entry 69 applies (DEDUCED). -/
def fabWinBaseWrite (i : Nat) (v : Word) (s : State) : Status × State :=
  let old := s.reg (Reg.FAB_WIN_BASE i)
  let b := wget v 39 12 * 4096
  let z := s.fld (Fld.FAB_WIN_SIZE_SIZE_4K i) * 4096
  let whole := within b z 0 hbmEnd || within b z msBase (msEnd - msBase)
  if bit old.toNat 63 && (decide (wget v 55 40 ≠ wget old 55 40) || decide (wget v 39 12 ≠ wget old 39 12)) then (.denied, s)
  else if bit v.toNat 63 && (z = 0 || !whole) then (.verify, s)
  else (.ok, s.setReg (Reg.FAB_WIN_BASE i) (wput (wput v 59 56 0) 11 0 0))

/-- Write of `FAB_WINi_SIZE`. Log entry 69 applies (DEDUCED). -/
def fabWinSizeWrite (i : Nat) (v : Word) (s : State) : Status × State :=
  if s.flag (Fld.FAB_WIN_BASE_VALID i) then (.denied, s)
  else if 2 ^ 28 < wget v 28 0 then (.verify, s)
  else (.ok, s.setFld (Fld.FAB_WIN_SIZE_SIZE_4K i) (wget v 28 0))

/-- FAB_WIN_WRITE: a write of window i's SIZE register, or of its BASE register. -/
def execFabWinWrite (q : Fin 4) (i : Fin 64) (size : Bool) (v : Word) (s : State) : Host.Outcome State Fault Refusal :=
  .next (if size then s.regWrite q (Reg.FAB_WIN_SIZE i) (fabWinSizeWrite i v)
    else s.regWrite q (Reg.FAB_WIN_BASE i) (fabWinBaseWrite i v))

/-- A port drains, where it is ACCEPTED; else what was asked for happens at once (R316). Log entry 66 applies (DEDUCED). -/
def State.startDrain (s : State) (p : Nat) : State :=
  let s1 := s.setPort p { s.port p with drain := true }
  (if s.portState p = psAccepted then s1.portsChanged (s.portGroup p) else s1).endDrain p

/-- Write of `FAB_PORTp_CTRL`. Log entry 66 applies (DEDUCED). -/
def fabPortCtrlWrite (p : Nat) (v : Word) (s : State) : Status × State :=
  let dis := bit v.toNat 0
  let was := s.flag (Fld.FAB_PORT_CTRL_DISABLE p)
  let s1 := s.setFld (Fld.FAB_PORT_CTRL_DISABLE p) (b2n dis)
  if !s.expects p then (.ok, s1)
  else if dis && !was then (.ok, s1.startDrain p)
  else if !dis && was && s.portState p = psDisabled then (.ok, s1.beginAttempt p)
  else if bit v.toNat 1 && !dis then (.ok, (s1.setFld (Fld.FAB_PORT_CTRL_RETRAIN p) 1).startDrain p)
  else (.ok, s1)

/-- PORT_RETRAIN: a write of 1 to `RETRAIN`. -/
def execPortRetrain (q : Fin 4) (p : Fin 36) (s : State) : Host.Outcome State Fault Refusal :=
  .next (s.regWrite q (Reg.FAB_PORT_CTRL p)
    (fabPortCtrlWrite p (BitVec.ofNat 64 (2 + s.fld (Fld.FAB_PORT_CTRL_DISABLE p)))))

/-- PORT_DISABLE: a write of 1 to `DISABLE`. -/
def execPortDisable (q : Fin 4) (p : Fin 36) (s : State) : Host.Outcome State Fault Refusal :=
  .next (s.regWrite q (Reg.FAB_PORT_CTRL p) (fabPortCtrlWrite p 1))

/-! ### The topology check (R447) -/

/-- Has port p settled since it began to train? -/
def State.settled (s : State) (p : Nat) : Bool :=
  s.portUp p || s.portState p = psMiswired || (s.port p).failedOnce

/-- TOPO_DONE: every port that expects a neighbour has settled. -/
def execTopoDone (s : State) : Host.Outcome State Fault Refusal :=
  .next (
    if s.flag Fld.BUP_TOPO_TOPO_DONE || s.boot.image.isNone
        || !(List.range 36).all (fun p => !s.expects p || s.settled p) then s
    else
      let bad := (List.range 36).filter (fun p => s.portState p = psMiswired)
      bad.foldl (fun a p => a.log 12 .mismatch (.port p) (a.fld (Fld.FAB_PORT_LINK_PEER_MODULE p)))
        ((s.setFld Fld.BUP_TOPO_TOPO_DONE 1).setFld Fld.BUP_TOPO_MISWIRED_PORTS (maskOf 36 (fun p => s.portState p = psMiswired))))

end Sys2Proof.Machine
end

