-- ==== Sys2Proof/Machine/Host.lean ====
section
/-! DEFINITION. The host over Ethernet (15_host_ethernet.md): ports and connections, data queue pairs, doorbells, the entries
of consists and their completions. -/

namespace Sys2Proof.Machine

/-! ### Ports and connections (R401 to R405) -/

/-- Count a frame that port k discards; none arrives while its link is down. Log entry 85 applies (DEDUCED). -/
def State.dropFrame (s : State) (k : Nat) : State :=
  if s.linkUp k then s.bump (Fld.HST_PORT_COUNTS_DROPPED k) (Fld.HST_PORT_COUNTS_DROP_SAT k) 1 else s

/-- Does a frame for a QP reach it: the link of its port is up, and it is READY or connected? -/
def State.hears (s : State) (n : Nat) : Bool :=
  if n < 256 then s.linkUp (s.fld (Fld.HST_QP_W0_PORT n)) && s.qpState n = 1 else s.mgmtHears (n - 256)

/-- HOST_LINK_UP: port k has trained, as 200GBASE-KR1 or CR1. Log entry 85 applies (DEDUCED). -/
def execHostLinkUp (k : Fin 4) (kr : Bool) (s : State) : Host.Outcome State Fault Refusal :=
  .next (
    if !s.ready rdySecureBoot || s.linkUp k || !s.boot.sdsclk || s.boot.badComponents.contains 4
      || s.boot.linksDown.contains (41 + 2 * k.val) then s
    else ((s.setFld (Fld.HST_PORT_STATUS_LINK k) 1).setFld (Fld.HST_PORT_STATUS_KR k) (b2n kr)).setReady rdyHostLink)

/-- Port k loses its link; bit HOST_LINK clears with the last one (R404). Log entry 89 applies (DEDUCED). -/
def State.linkLost (s : State) (k : Nat) : State :=
  let s1 := s.setFld (Fld.HST_PORT_STATUS_LINK k) 0
  if (List.range 4).any (fun i => s1.linkUp i) then s1 else s1.clearReady rdyHostLink

/-- HOST_LINK_DOWN: port k has lost its link. Connections and QPs keep their state (R405, R419). -/
def execHostLinkDown (k : Fin 4) (s : State) : Host.Outcome State Fault Refusal := .next (s.linkLost k)

/-- The QP of a number: its place among the model's QPs. -/
def qpPlace (qpn : Nat) : Option Nat :=
  if decide (0x1000 ≤ qpn) && decide (qpn < 0x1100) then some (qpn - 0x1000)
  else if decide (0x100 ≤ qpn) && decide (qpn < 0x104) then some (256 + (qpn - 0x100)) else none

/-- Does a QP answer requests: a data QP in READY, a management QP that is connected (R410)? -/
def State.qpAnswers (s : State) (n : Nat) : Bool := if n < 256 then s.qpState n = 1 else s.mgmtConn (n - 256)

/-- Answer a CE mark with a CNP, at most one per QP per 50 µs (Table 15-1). -/
def State.answerCe (s : State) (qpn : Nat) : State :=
  let now := s.time.toNat
  let due := match SMap.find s.host.cnpSent qpn with
    | none => true
    | some t => decide (t + 50000 ≤ now)
  if due then (s.withHost { s.host with cnpSent := SMap.insert s.host.cnpSent qpn now }).emit (.cnp qpn) else s

/-- ETH_FRAME_RECEIVED: discarded and counted where its VLAN is not one of the port's, its FCS or ICRC fails, or its QP does
not answer; a CE mark of an accepted one is answered. -/
def execEthFrameReceived (k : Fin 4) (f : EthFrame) (s : State) : Host.Outcome State Fault Refusal :=
  .next (
    if !s.linkUp k then s
    else
      let s1 := if f.fec = 0 then s else s.bump (Fld.HST_PORT_COUNTS_FEC_UNCORR k) (Fld.HST_PORT_COUNTS_FEC_SAT k) f.fec
      let dv := s1.fld (Fld.HST_PORT_CFG_DATA_VLAN k)
      let vlanOk := match f.vlan with
        | none => false
        | some v => v = s1.fld (Fld.HST_PORT_CFG_MGMT_VLAN k) || (v = dv && decide (dv ≠ 0))
      let qpOk := f.qpn = 1 || ((qpPlace f.qpn).map s1.qpAnswers).getD false
      if !f.fcsOk || !f.icrcOk || !vlanOk || !qpOk then s1.dropFrame k
      else if f.ce then s1.answerCe f.qpn else s1)

/-- CNP_RECEIVED: the send rate of the QP is lowered, as the annex directs. -/
def execCnpReceived (n : Fin 256) (s : State) : Host.Outcome State Fault Refusal :=
  .next (if s.hears n then s.setQp n { s.qp n with rateCut := (s.qp n).rateCut + 1 } else s)

/-- Events held while nothing could carry them are posted again (R417). Log entry 91 applies (DEDUCED). -/
def State.sendHeldEvents (s : State) : State :=
  s.host.heldEvents.foldl (fun a c => a.event c) (s.withHost { s.host with heldEvents := [] })

/-- Service ID of the management QPs. Log entry 85 applies (DEDUCED). -/
def mgmtService : Nat := 0x00534b37

/-- CM_REQ: no answer before bit MGMT; REJ while the QP is connected, or for another service.
Log entry 85 applies (DEDUCED). -/
def execCmReq (k : Fin 4) (service : Nat) (s : State) : Host.Outcome State Fault Refusal :=
  .next (
    if !s.linkUp k || !s.ready rdyMgmt then s
    else if s.mgmtConn k || decide (service ≠ mgmtService) then s.emit (.cm k false)
    else
      let s1 := (s.setQp (256 + k) {}).setFld (Fld.HST_PORT_STATUS_MGMT_CONN k) 1
      ((s1.withHost { s1.host with seen := SMap.erase s1.host.seen k }).emit (.cm k true)).sendHeldEvents)

/-- A management connection ends; what it had not sent is posted again (R405, R417). -/
def State.dropConn (s : State) (k : Nat) : State :=
  let q := s.qp (256 + k)
  let again := q.reqs.filterMap (fun r => match r.kind with
    | .send c => some c
    | _ => none) ++ q.held
  again.foldl (fun a c => a.event c) ((s.setQp (256 + k) {}).setFld (Fld.HST_PORT_STATUS_MGMT_CONN k) 0)

/-- CM_DREQ. -/
def execCmDreq (k : Fin 4) (s : State) : Host.Outcome State Fault Refusal :=
  .next (if s.linkUp k && s.mgmtConn k then (s.dropConn k).emit (.disconnect k) else s)

/-! ### Port registers (R422) -/

/-- Is a data QP of port k READY? -/
def State.portBusy (s : State) (k : Nat) : Bool :=
  (List.range 256).any (fun n => s.qpState n = 1 && s.fld (Fld.HST_QP_W0_PORT n) = k)

/-- Write of `HST_PORTk_CFG`. -/
def hstPortCfgWrite (k : Nat) (v : Word) (s : State) : Status × State :=
  if s.portBusy k then (.denied, s)
  else if 4094 < wget v 51 40 then (.verify, s)
  else
    (.ok, (((s.setFld (Fld.HST_PORT_CFG_DATA_VLAN k) (wget v 51 40)).setFld (Fld.HST_PORT_CFG_DSCP k) (wget v 27 22)).setFld
      (Fld.HST_PORT_CFG_PFC_PRIO k) (wget v 21 19)).setFld (Fld.HST_PORT_CFG_PFC_EN k) (wget v 18 18))

/-- Write of a GID register. -/
def hstPortGidWrite (k : Nat) (hi : Bool) (v : Word) (s : State) : Status × State :=
  if s.portBusy k then (.denied, s)
  else (.ok, s.setReg (if hi then Reg.HST_PORT_GID_HI k else Reg.HST_PORT_GID_LO k) v)

/-- HST_PORT_CFG_WRITE: register 0 CFG, 1 GID_HI, 2 GID_LO of port k. -/
def execHstPortCfgWrite (q : Fin 4) (k : Fin 4) (r : Fin 3) (v : Word) (s : State) : Host.Outcome State Fault Refusal :=
  .next (
    if r.val = 0 then s.regWrite q (Reg.HST_PORT_CFG k) (hstPortCfgWrite k v)
    else if r.val = 1 then s.regWrite q (Reg.HST_PORT_GID_HI k) (hstPortGidWrite k true v)
    else s.regWrite q (Reg.HST_PORT_GID_LO k) (hstPortGidWrite k false v))

/-! ### Pages of data QPs (R408, R409) -/

/-- Offset of word w of QP n's page. -/
def qpWord (n w : Nat) : Nat := Reg.HST_QP_W0 n + 8 * w

/-- Writable bits of the words of a page. -/
def qpMask : Nat → Word
  | 0 => 0xffffff0000ffffff
  | 1 => 0xffffffffffffffff
  | 2 => 0xffffffffffffffff
  | 3 => 0x0000ffffffffffff
  | 4 => 0xffffffff00ffffff
  | 5 => 0x0000000000ffffff
  | 6 => 0x000000fffffff000
  | _ => 0x000000001fffffff

/-- Are the fields of word 0 in range? R409 asks it when READY is written; the words are stored as written before.
Log entry 90 applies (DEDUCED). -/
def qpFieldsOk (v : Word) : Bool :=
  decide (wget v 53 52 ≠ 3) && inside 4 12 (wget v 51 48) && decide (1 ≤ wget v 47 43)

/-- What the checks of RESET to READY say, with word 0 as it is to be (R409). Log entry 90 applies (DEDUCED). -/
def State.readyStatus (s : State) (n : Nat) (v : Word) : Status :=
  let base := s.qpBase n
  let size := s.qpSize n
  let windowOk := inside 4096 (2 ^ 40) size && s.inOneRegion base size && !s.touchesClass classKvp base size
    && !s.touchesClass classGrd base size && !s.touchesClass classNge base size && !s.touchesSiding base size
  Status.lowest [
    Status.when (!qpFieldsOk v || s.fld (Fld.HST_PORT_CFG_DATA_VLAN (wget v 61 60)) = 0 || !windowOk
      || decide (size < 64 * 2 ^ wget v 51 48)) .verify,
    Status.when (!s.ready rdyHbm) .notReady]

/-- To READY: the PSNs of the page hold; what was held is sent, and the ring goes on from `CONSUMED`. From RESET the
completions are counted anew. Log entry 91 applies (DEDUCED). -/
def State.enterReady (s : State) (n : Nat) (fresh : Bool) : State :=
  let q := s.qp n
  let psn := s.fld (Fld.HST_QP_W4_SQ_PSN n)
  let s1 := s.setQp n { q with held := [], reqs := [], retries := 0, rnr := false, sendPsn := psn, seq := if fresh then 0 else q.seq }
  ((q.held.foldl (fun a c => a.sendNow n c) s1).sendHeldEvents).advance n

/-- To RESET: ring state, held completions and copies are discarded. -/
def State.enterReset (s : State) (n : Nat) : State :=
  ((s.setQp n {}).setConsumed n 0).setFld (Fld.HST_DOORBELL_PRODUCED n) 0

/-- A copy entry that runs ends with a status. Log entry 86 applies (DESIGN CHOICE). -/
def endRunning (st : Status) : Progress → Progress
  | .running _ _ _ => .ended st
  | p => p

/-- To ERROR: the cause is recorded; copies in flight end with TIMEOUT, and SENDs not acknowledged are held again.
Log entry 86 applies (DESIGN CHOICE). -/
def State.enterError (s : State) (n : Nat) (cause : Status) : State :=
  let q := s.qp n
  let sends := q.reqs.filterMap (fun r => match r.kind with
    | .send c => some c
    | _ => none)
  let cs := q.consists.map (fun c => { c with entries := c.entries.map (fun e => (e.1, endRunning .timeout e.2)) })
  ((s.setQp n { q with consists := cs, held := sends ++ q.held, reqs := [], seq := q.seq - sends.length, rnr := false }).setFld
    (Fld.HST_QP_W0_STATE n) 2).setFld (Fld.HST_QP_STATUS_LAST_ERROR n) cause.code

/-- Fields of a word that an ERROR QP keeps. Log entry 90 applies (DEDUCED). -/
def qpKeep (w : Nat) (v : Word) : List Nat :=
  match w with
  | 0 => [wget v 59 54, wget v 53 52, wget v 51 48]
  | 4 => [wget v 63 32]
  | 6 => [wget v 39 12]
  | 7 => [wget v 28 0]
  | _ => []

/-- Write of word w of QP n's page. Log entry 11 applies (DEDUCED). Log entry 90 applies (DEDUCED). -/
def qpPageWrite (n w : Nat) (v : Word) (s : State) : Status × State :=
  let st := s.qpState n
  let old := s.reg (qpWord n w)
  let m := qpMask w
  let put := s.setReg (qpWord n w) (v &&& m)
  let next := wget v 63 62
  if w ≠ 0 then
    if st = 1 then (.denied, s)
    else if st = 2 && decide (qpKeep w v ≠ qpKeep w old) then (.denied, s)
    else (.ok, put)
  else
    let rest := 0x3fffffffffffffff
    let same := decide (v &&& m &&& rest = old &&& rest)
    let denied := decide (next = 2) || (st = 1 && !same) || (st = 2 && decide (qpKeep 0 v ≠ qpKeep 0 old))
    if denied then (.denied, s)
    else if next = 3 then (.verify, s)
    else if next = 0 then (.ok, if st = 0 then put else put.enterReset n)
    else if st = 1 then (.ok, s)
    else
      let c := s.readyStatus n v
      if c ≠ .ok then (c, s) else (.ok, put.enterReady n (decide (st = 0)))

/-- QP_STATE_WRITE: a write of word w of the page of data QP n. -/
def execQpStateWrite (q : Fin 4) (n : Fin 256) (w : Fin 8) (v : Word) (s : State) : Host.Outcome State Fault Refusal :=
  .next (s.regWrite q (qpWord n w) (qpPageWrite n w v))

/-! ### Doorbells (R411, R412) -/

/-- Address of QP n's doorbell word. -/
def doorbellAddr (n : Nat) : Nat := regBase + Reg.HST_DOORBELL n

/-- A doorbell: the same count again does nothing; one below the last, or more than the ring ahead of `CONSUMED`, moves the QP
to ERROR; else consists are taken. -/
def State.ring' (s : State) (n p : Nat) : State :=
  let d := (p + 2 ^ 32 - s.produced n) % 2 ^ 32
  let ahead := (p + 2 ^ 32 - s.consumed n) % 2 ^ 32
  if d = 0 then s
  else if decide (2 ^ 31 ≤ d) || decide (s.ringSize n < ahead) then
    (s.log 15 .bounds (.qp (dataQpn n)) (doorbellAddr n)).enterError n .bounds
  else (s.setFld (Fld.HST_DOORBELL_PRODUCED n) p).advance n

/-- Write of the doorbell word by a register access; while the QP is not READY it is refused with NOT_READY.
Log entry 86 applies (DESIGN CHOICE). -/
def doorbellWrite (n : Nat) (v : Word) (s : State) : Status × State :=
  if s.qpState n ≠ 1 then (.notReady, s) else (.ok, s.ring' n (wget v 31 0))

/-- DOORBELL: `PRODUCED` written through the QP itself. Log entry 86 applies (DESIGN CHOICE). -/
def execDoorbell (n : Fin 256) (produced : BitVec 32) (s : State) : Host.Outcome State Fault Refusal :=
  .next (if s.hears n then s.ring' n produced.toNat else s.dropFrame (s.fld (Fld.HST_QP_W0_PORT n)))

/-! ### Requests of the host on data QPs (R410) -/

/-- What R410 says of a request for [va, va + n) with a key. -/
def State.dataAccess (s : State) (q va n rkey : Nat) : Status :=
  let bell := decide (va = doorbellAddr q) && decide (n = 8)
  Status.lowest [
    Status.when (decide (rkey ≠ s.fld (Fld.HST_QP_W4_RKEY_IN q)) || (decide (va + n > regBase) && decide (va < regEnd) && !bell)) .denied,
    Status.when (!bell && !s.inWindow q va n) .bounds]

/-- Is an address one of the register window? -/
def toWindow (va : Nat) : Bool := decide (regBase ≤ va) && decide (va < 2 ^ 40)

/-- Refuse a request of the host: a remote access error NAK, and an entry in the HST log (R406, R410); a request to a register
of another block is logged in that block's log too (R11, R13). -/
def State.nakHost (s : State) (qpn psn va : Nat) (st : Status) : State :=
  let b := logBlock (va - regBase)
  let s1 := if toWindow va && decide (b ≠ 15) then s.log b st (.qp qpn) va else s
  (s1.log 15 st (.qp qpn) va).emit (.nak qpn psn)

/-- DATA_QP_RDMA_WRITE. -/
def execDataQpRdmaWrite (n : Fin 256) (psn va rkey : Nat) (data : List Byte) (s : State) : Host.Outcome State Fault Refusal :=
  .next (
    let k := s.fld (Fld.HST_QP_W0_PORT n)
    if !s.hears n then s.dropFrame k
    else
      let st := s.dataAccess n va data.length rkey
      if st ≠ .ok then s.nakHost (dataQpn n) psn va st
      else if va = doorbellAddr n then (s.ring' n (leNat (data.take 4))).emit (.ack (dataQpn n) psn)
      else
        let w := s.writeMem 4 va data
        if w.1 = .ok then w.2.emit (.ack (dataQpn n) psn) else w.2.nakHost (dataQpn n) psn va w.1)

/-- DATA_QP_RDMA_READ. -/
def execDataQpRdmaRead (n : Fin 256) (psn va rkey len : Nat) (s : State) : Host.Outcome State Fault Refusal :=
  .next (
    let k := s.fld (Fld.HST_QP_W0_PORT n)
    if !s.hears n then s.dropFrame k
    else
      let st := s.dataAccess n va len rkey
      if st ≠ .ok then s.nakHost (dataQpn n) psn va st
      else if va = doorbellAddr n then s.emit (.readData (dataQpn n) psn (leBytes 8 (s.reg (Reg.HST_DOORBELL n)).toNat))
      else
        let r := s.readMem 4 (.qp (dataQpn n)) va len
        if r.1 = .ok then r.2.2.emit (.readData (dataQpn n) psn r.2.1) else r.2.2.nakHost (dataQpn n) psn va r.1)

/-! ### Entries of consists (R413 to R415) -/

/-- Consist c of QP n, counted from the oldest in progress. -/
def State.consist (s : State) (n c : Nat) : Option Consist := (s.qp n).consists[c]?

def State.setConsist (s : State) (n c : Nat) (x : Consist) : State :=
  s.setQp n { s.qp n with consists := setNth (s.qp n).consists c x }

/-- Entry e of a consist and its progress. -/
def Consist.setProgress (x : Consist) (e : Nat) (p : Progress) : Consist :=
  match x.entries[e]? with
  | none => x
  | some y => { x with entries := setNth x.entries e (y.1, p) }

def State.setProgress (s : State) (n c e : Nat) (p : Progress) : State :=
  match s.consist n c with
  | none => s
  | some x => s.setConsist n c (x.setProgress e p)

/-- Has an entry failed? -/
def Progress.failed : Progress → Bool
  | .ended st => decide (st ≠ .ok)
  | _ => false

/-- Has an entry run to its end? -/
def Progress.isEnded : Progress → Bool
  | .ended _ => true
  | _ => false

/-- An entry begins: the QP is READY, none of its consist has failed, and the entry has not begun; what its bytes, the QP and
the window say ends it at once. Otherwise `f` begins it. Log entry 87 applies (DESIGN CHOICE). -/
def State.beginEntry (s : State) (n c e op : Nat) (f : Entry → State → State) : State :=
  match (s.consist n c).bind (fun x => x.entries[e]?) with
  | some (y, .waiting) =>
    let failed := ((s.consist n c).map (fun x => x.entries.any (fun z => z.2.failed))).getD true
    if s.qpState n ≠ 1 || failed || (decide (y.op ≠ op) && decide (y.check = .ok)) then s
    else
      let st := Status.lowest [y.check,
        Status.when (y.check = .ok && y.ranges.any (fun r => !s.inWindow n r.1 r.2)) .bounds,
        Status.when (decide (y.op = 0x10) && decide (y.tenant ≠ s.qpTenant n)) .denied]
      if st ≠ .ok then s.setProgress n c e (.ended st) else f y s
  | _ => s

/-- CONSIST_NOP. An entry that Table 15-3 refuses by its bytes ends by the row of any entry. -/
def execConsistNop (n : Fin 256) (c e : Nat) (s : State) : Host.Outcome State Fault Refusal :=
  .next (s.beginEntry n c e 0 (fun _ s1 => s1.setProgress n c e (.ended .ok)))

/-- CONSIST_COPY_LOCAL. -/
def execConsistCopyLocal (n : Fin 256) (c e : Nat) (s : State) : Host.Outcome State Fault Refusal :=
  .next (s.beginEntry n c e 3 (fun y s1 =>
    let r := s1.copyMem 4 (.qp (dataQpn n)) (bits y.remote 39 0) y.localAddr y.length
    r.2.setProgress n c e (.ended r.1)))

/-- Largest RDMA READ, and reads outstanding on one QP (R414). Log entry 87 applies (DESIGN CHOICE). -/
def readMax : Nat := 2 ^ 20
def readsMax : Nat := 16

/-- Packets of a length at the QP's path MTU. -/
def State.packets (s : State) (n len : Nat) : Nat := max 1 (ceilDiv len (1024 * 2 ^ s.fld (Fld.HST_QP_W0_MTU n)))

/-- RDMA READs in flight on a QP. Log entry 87 applies (DESIGN CHOICE). -/
def QpRun.reads (q : QpRun) : Nat :=
  (q.reqs.filter (fun r => match r.kind with
    | .read _ _ _ _ => true
    | _ => false)).length

/-- Issue the reads of one entry while it has bytes to ask for and the QP has room. Log entry 87 applies (DESIGN CHOICE). -/
def State.pumpEntry (s : State) (n c e : Nat) : Nat → State
  | 0 => s
  | k + 1 =>
    match (s.consist n c).bind (fun x => (x.entries[e]?).map (fun y => (x.first, y))) with
    | some (first, y, .running asked done worst) =>
      if y.op ≠ 1 || decide (y.length ≤ asked) || decide (readsMax ≤ (s.qp n).reads) then s
      else
        let len := min readMax (y.length - asked)
        let s1 := s.setQp n ((s.qp n).ask (s.packets n len) (.read first e asked len))
        ((s1.setProgress n c e (.running (asked + len) done worst)).emit
          (.rdmaRead (dataQpn n) (y.remote + asked) y.rkey len)).pumpEntry n c e k
    | _ => s

/-- Issue the reads of every running entry of a QP that may go. -/
def State.pump (s : State) (n : Nat) : State :=
  ((s.qp n).consists.mapIdx (fun i x => (i, x.entries.length))).foldl (fun a x =>
    (List.range x.2).foldl (fun b e => b.pumpEntry n x.1 e readsMax) a) s

/-- CONSIST_COPY_IN: the entry's first RDMA READs leave. -/
def execConsistCopyIn (n : Fin 256) (c e : Nat) (s : State) : Host.Outcome State Fault Refusal :=
  .next (s.beginEntry n c e 1 (fun _ s1 => (s1.setProgress n c e (.running 0 0 .ok)).pumpEntry n c e readsMax))

/-- CONSIST_COPY_OUT: the local bytes leave as one RDMA WRITE. -/
def execConsistCopyOut (n : Fin 256) (c e : Nat) (s : State) : Host.Outcome State Fault Refusal :=
  .next (s.beginEntry n c e 2 (fun y s1 =>
    let r := s1.readMem 4 (.qp (dataQpn n)) y.localAddr y.length
    if r.1 ≠ .ok then r.2.2.setProgress n c e (.ended r.1)
    else
      let first := ((r.2.2.consist n c).map (·.first)).getD 0
      let s2 := r.2.2.setQp n ((r.2.2.qp n).ask (r.2.2.packets n y.length) (.write first e y.length))
      (s2.setProgress n c e (.running y.length 0 .ok)).emit (.rdmaWrite (dataQpn n) y.remote y.rkey r.2.1)))

/-- CONSIST_JOB: the job is admitted, or refused, once every earlier entry has completed with OK (R380, R413, R415).
Log entry 88 applies (DESIGN CHOICE). -/
def execConsistJob (n : Fin 256) (c e : Nat) (s : State) : Host.Outcome State Fault Refusal :=
  .next (
    let before := ((s.consist n c).map (fun x => (x.entries.take e).all (fun y => decide (y.2 = .ended .ok)))).getD false
    if !before then s
    else s.beginEntry n c e 0x10 (fun y s1 =>
      let first := ((s1.consist n c).map (·.first)).getD 0
      if !s1.ready rdyCores || !s1.ready rdyTimetable then s1.setProgress n c e (.ended .notReady)
      else
        let r := (s1.setProgress n c e .admitted).admitJob
          { jobId := y.jobId, tenant := y.tenant, cls := y.cls, qp := n, user := y.user, ring := first + e, image := y.localAddr,
            length := y.length }
        if r.1 = .ok then r.2 else r.2.setProgress n c e (.ended r.1)))

/-- Is a consist done: every entry has ended, or one has failed and none still runs? -/
def Consist.done (x : Consist) : Bool :=
  x.entries.all (fun y => y.2.isEnded)
    || (x.entries.any (fun y => y.2.failed) && x.entries.all (fun y => y.2.isEnded || decide (y.2 = .waiting)))

/-- Lowest code of a consist's entries. -/
def Consist.status (x : Consist) : Status :=
  Status.lowest (x.entries.map (fun y => match y.2 with
    | .ended st => st
    | _ => .ok))

/-- CONSIST_COMPLETE: the completion of consist c is sent; consists that waited for it begin. -/
def execConsistComplete (n : Fin 256) (c : Nat) (s : State) : Host.Outcome State Fault Refusal :=
  .next (
    match s.consist n c with
    | none => s
    | some x =>
      if !x.done then s
      else
        let l := x.entries.getLast?.map (·.1)
        let s1 := s.setQp n { s.qp n with consists := (s.qp n).consists.eraseIdx c }
        (s1.sendOn n { user := (l.map (·.user)).getD 0, status := x.status, kind := .consist,
                       index := (x.first + x.entries.length - 1) % 2 ^ 32,
                       jobId := (l.map (fun e => if e.op = 0x10 then e.jobId else 0)).getD 0 }).advance n)

/-! ### Responses of the host (R409, R414, R416) -/

/-- Progress of the entry that a request serves, found by the ring index of its consist. -/
def State.onEntry (s : State) (n first e : Nat) (f : Entry → Progress → Progress) : State :=
  let q := s.qp n
  s.setQp n { q with consists := q.consists.map (fun x =>
    if x.first = first then
      match x.entries[e]? with
      | none => x
      | some y => { x with entries := setNth x.entries e (y.1, f y.1 y.2) }
    else x) }

/-- Bytes of an entry answered: it ends once all are. -/
def Progress.answered (len : Nat) (st : Status) (y : Entry) : Progress → Progress
  | .running asked done worst =>
    let w := worst.worse st
    if y.length ≤ done + len then .ended w else .running asked (done + len) w
  | p => p

/-- A request is acknowledged. -/
def State.acknowledged (s : State) (n : Nat) (r : OutReq) : State :=
  match r.kind with
  | .send _ => s
  | .read _ _ _ _ => s
  | .write first e len => s.onEntry n first e (Progress.answered len .ok)

/-- Does a request end at a PSN? -/
def OutReq.endsAt (r : OutReq) (psn : Nat) : Bool := (r.psn + r.count - 1) % 2 ^ 24 = psn % 2 ^ 24

/-- Requests up to a PSN, or up to the first read before it, are acknowledged; the others are left.
Log entry 89 applies (DEDUCED). -/
def splitAck (psn : Nat) : List OutReq → Option (List OutReq × List OutReq)
  | [] => none
  | r :: l =>
    match r.kind with
    | .read _ _ _ _ => none
    | _ => if r.endsAt psn then some ([r], l) else (splitAck psn l).map (fun x => (r :: x.1, x.2))

/-- Requests before the one that begins at a PSN, it, and those after it. -/
def splitAt (psn : Nat) : List OutReq → Option (List OutReq × OutReq × List OutReq)
  | [] => none
  | r :: l => if r.psn = psn % 2 ^ 24 then some ([], r, l) else (splitAt psn l).map (fun x => (r :: x.1, x.2))

/-- Requests are acknowledged, and progress is made: retries count anew. Log entry 89 applies (DEDUCED). -/
def State.ackAll (s : State) (n : Nat) (l rest : List OutReq) : State :=
  l.foldl (fun a r => a.acknowledged n r) (s.setQp n { s.qp n with reqs := rest, retries := 0 })

/-- ROCE_RESPONSE: a response on a data QP (n below 256) or on the management QP of port n − 256.
Log entry 89 applies (DEDUCED). -/
def execRoceResponse (n : Fin 260) (r : RoceResp) (s : State) : Host.Outcome State Fault Refusal :=
  .next (
    if !s.hears n then s
    else
      let q := s.qp n
      match r with
      | .ack psn =>
        (match splitAck psn q.reqs with
        | none => s
        | some (l, rest) => (s.ackAll n l rest).pump n)
      | .data psn bytes =>
        (match splitAt psn q.reqs with
        | some (l, x, rest) =>
          (match x.kind with
          | .read first e off len =>
            let s1 := s.ackAll n l rest
            let y := (s1.qp n).consists.findSome? (fun c => if c.first = first then (c.entries[e]?).map (·.1) else none)
            let w : Status × State := match y with
              | none => (.ok, s1)
              | some z => s1.writeMem 4 (z.localAddr + off) (bytes.take len)
            (w.2.onEntry n first e (Progress.answered len w.1)).pump n
          | _ => s)
        | none => s)
      | .nak psn =>
        (match splitAt psn q.reqs with
        | some (l, x, rest) =>
          let s1 := s.ackAll n l rest
          (match x.kind with
          | .read first e _ len => (s1.onEntry n first e (Progress.answered len .denied)).pump n
          | .write first e len => (s1.onEntry n first e (Progress.answered len .denied)).pump n
          | .send _ => s1)
        | none => s)
      | .rnr psn =>
        (match splitAt psn q.reqs with
        | some (l, x, rest) =>
          let s1 := s.ackAll n l (x :: rest)
          s1.setQp n { s1.qp n with rnr := true }
        | none => s))

/-- RNR_RETRY: 1 ms after an RNR NAK the SENDs not acknowledged leave again, and then those held.
Log entry 89 applies (DEDUCED). -/
def execRnrRetry (n : Fin 260) (s : State) : Host.Outcome State Fault Refusal :=
  .next (
    let q := s.qp n
    if !q.rnr || !s.qpAnswers n then s
    else
      let s1 := s.setQp n { q with rnr := false, held := [] }
      let s2 := q.reqs.foldl (fun a r => match r.kind with
        | .send c => a.emit (.send (qpnAt n) c)
        | _ => a) s1
      (q.held.foldl (fun a c => a.sendNow n c) s2).advance n)

/-- QP_ACK_TIMEOUT: an `ACK_TIMEOUT` has passed with requests not acknowledged. After `RETRY_CNT` retries a data QP enters
ERROR with TIMEOUT. The retries of a management QP have run out: its connection ends (R405). Log entry 89 applies (DEDUCED). -/
def execQpAckTimeout (n : Fin 260) (s : State) : Host.Outcome State Fault Refusal :=
  .next (
    let q := s.qp n
    if q.reqs.isEmpty || !s.qpAnswers n then s
    else if 256 ≤ n.val then s.dropConn (n.val - 256)
    else if q.retries < s.fld (Fld.HST_QP_W0_RETRY_CNT n) then s.setQp n { q with retries := q.retries + 1 }
    else s.enterError n .timeout)

end Sys2Proof.Machine
end

