-- ==== Sys2Proof/Machine/Media.lean ====
section
/-! DEFINITION. Video streams (13_media.md, R350 to R378): commands, unit queues and picture rings, scheduling, faults,
references, and the encoder's rate control. What a coded unit means is the coding standards' own: the events carry what the
header firmware and the engines read in it. -/

namespace Sys2Proof.Machine

/-! ### Descriptors (R354, R355) -/

/-- `STATE` codes of Table 13-3. -/
def stFree : Nat := 0
def stRunning : Nat := 1
def stDraining : Nat := 2
def stIdle : Nat := 3
def stStopped : Nat := 4

/-- A descriptor of 128 bytes (Table 13-2). -/
def StreamDesc.ofNum (w : Nat) : StreamDesc :=
  let b := byteField w
  { encode := b 1 1 = 1, codec := b 2 1, md := b 3 1, cls := b 4 1, strictLive := bit (b 5 1) 0, grain := bit (b 5 1) 1,
    viaNge := bit (b 5 1) 2, splitMax := b 6 1, nref := b 7 1, maxW := b 8 2, maxH := b 10 2, bits := b 12 1, chroma := b 13 1,
    lookahead := b 14 1, gop := b 15 1, unitQ := b 16 5, unitSlots := b 21 2, picSlots := b 23 1, picRing := b 24 5,
    refPool := b 32 5, refBytes := b 40 8, bitsBuf := b 48 5, bitsBytes := b 56 8, bitrate := b 64 4, fpsNum := b 68 2,
    fpsDen := b 70 2, rcMode := b 72 1, qpMin := b 73 1, qpMax := b 74 1, qpInit := b 75 1, keyInt := b 76 4, tileCols := b 80 4 }

/-- Luma pitch, raw bytes of a picture, bytes of a slot (R358). -/
def StreamDesc.pitch (d : StreamDesc) : Nat := roundUp (d.maxW * (if d.bits = 8 then 1 else 2)) 64
def StreamDesc.raw (d : StreamDesc) : Nat := d.pitch * d.maxH * (if d.chroma = 1 then 4 else 3) / 2
def StreamDesc.slotBytes (d : StreamDesc) : Nat :=
  roundUp (d.pitch * d.maxH + d.pitch * (if d.chroma = 1 then d.maxH else d.maxH / 2)) 4096

/-- RB of R366, with S of Table 13-8. -/
def StreamDesc.refSize (d : StreamDesc) : Nat :=
  let blk := if d.chroma = 1 then (if d.bits = 8 then 8192 else 10240) else (if d.bits = 8 then 6144 else 7680)
  roundUp (ceilDiv d.maxW 64 * ceilDiv d.maxH 64 * (blk + 192)) 4096

/-- The buffers of a stream: unit queue, picture ring, reference pool, coded data. -/
def StreamDesc.buffers (d : StreamDesc) : List (Nat × Nat) :=
  [(d.unitQ, 64 + 32 * d.unitSlots), (d.refPool, d.refBytes)]
    ++ (if d.viaNge then [] else [(d.picRing, 4096 + d.picSlots * d.slotBytes)])
    ++ (if d.encode then [(d.bitsBuf, d.bitsBytes)] else [])

/-- Does some pair of a list of ranges overlap? -/
def anyOverlap : List (Nat × Nat) → Bool
  | [] => false
  | p :: l => l.any (fun q => overlaps p.1 p.2 q.1 q.2) || anyOverlap l

/-- Highest QP of a codec (Table 13-2). -/
def qpTop (codec : Nat) : Nat := if codec = 1 then 51 else 255

/-- Is a bit rate in range for a mode of rate control? -/
def bitrateOk (mode r : Nat) : Bool := if mode = 0 then r = 0 else decide (1 ≤ r) && decide (r ≤ 4000000)

/-- Ranges of the encoder's fields. -/
def StreamDesc.encOk (d : StreamDesc) : Bool :=
  decide (1 ≤ d.codec) && decide (d.codec ≤ 2) && d.chroma = 0 && decide (1 ≤ d.splitMax) && decide (d.splitMax ≤ 2)
    && decide (d.lookahead ≤ 32) && decide (d.gop ≤ 3) && d.bitsBuf % 4096 = 0 && d.bitsBytes % 4096 = 0
    && decide (2 * d.raw + 8192 ≤ d.bitsBytes) && decide (d.rcMode ≤ 2) && bitrateOk d.rcMode d.bitrate
    && decide (1 ≤ d.fpsNum) && decide (1 ≤ d.fpsDen) && decide (d.qpMin ≤ d.qpMax) && decide (d.qpMax ≤ qpTop d.codec)
    && decide (d.qpInit ≤ qpTop d.codec) && decide (1 ≤ d.keyInt) && decide (d.keyInt ≤ 2 ^ 31)
    && (d.tileCols = 1 || d.tileCols = 2) && decide (d.splitMax ≤ d.tileCols)

/-- Ranges of the decoder's fields. -/
def StreamDesc.decOk (d : StreamDesc) : Bool :=
  decide (d.codec ≤ 2) && (d.chroma = 0 || (d.chroma = 1 && d.codec = 1)) && decide (1 ≤ d.splitMax) && decide (d.splitMax ≤ 4)
    && d.lookahead = 0 && d.gop = 0 && d.bitsBuf = 0 && d.bitsBytes = 0

/-- Every check of R353 and R355 on a descriptor but that of its buffers. Log entry 77 applies (DEDUCED). -/
def StreamDesc.ok (d : StreamDesc) (w : Nat) : Bool :=
  byteField w 0 1 = 1 && decide (byteField w 1 1 ≤ 1) && decide (d.md ≤ 3) && decide (d.cls ≤ 3) && decide (byteField w 5 1 < 8)
    && decide (2 ≤ d.nref) && decide (d.nref ≤ 17) && decide (16 ≤ d.maxW) && decide (d.maxW ≤ 16384) && decide (16 ≤ d.maxH)
    && decide (d.maxH ≤ 8704) && decide (d.maxW * d.maxH ≤ 35651584) && (d.bits = 8 || d.bits = 10)
    && d.unitQ % 4096 = 0 && decide (1 ≤ d.unitSlots) && decide (d.unitSlots ≤ 4096) && d.refPool % 4096 = 0
    && (if d.viaNge then d.picSlots = 0 && d.picRing = 0 && decide (d.raw ≤ 25165824)
        else decide (1 ≤ d.picSlots) && decide (d.picSlots ≤ 64) && d.picRing % 4096 = 0)
    && byteField w 29 3 = 0 && byteField w 37 3 = 0 && byteField w 53 3 = 0 && byteField w 84 44 = 0
    && decide (d.nref * d.refSize ≤ d.refBytes) && (if d.encode then d.encOk else d.decOk)

/-- Do the buffers lie each in one HBM region, apart from each other? -/
def State.streamBuffers (s : State) (d : StreamDesc) : Bool :=
  d.buffers.all (fun p => s.inHbmRegion p.1 p.2) && !anyOverlap d.buffers

/-! ### Streams -/

def State.med (s : State) : MedUnit := s.units.med
def State.setMed (s : State) (m : MedUnit) : State := s.withUnits { s.units with med := m }
def State.stream (s : State) (n : Nat) : Option Stream := SMap.find s.med.streams n
def State.setStream (s : State) (n : Nat) (x : Stream) : State := s.setMed { s.med with streams := SMap.insert s.med.streams n x }
def State.streamSt (s : State) (n : Nat) : Nat := s.fld (Fld.MED_STREAM_STATE n)

/-- Requester class of the media engines and of the narrow-gauge engines (Table 10-5). -/
def clsMedia : Nat := 2
def clsNge : Nat := 3

/-- Contexts that are not FREE, in `MED_ENGINES`. -/
def State.showOpen (s : State) : State := s.setFld Fld.MED_ENGINES_OPEN s.med.streams.length

/-- Engines of a list busy or free. -/
def State.setBusy (s : State) (enc : Bool) (l : List Nat) (v : Nat) : State :=
  l.foldl (fun acc k => acc.setFld (if enc then ⟨Reg.MED_ENGINES, 16 + k, 16 + k⟩ else ⟨Reg.MED_ENGINES, k, k⟩) v) s

/-- Engines that a stream's picture holds go free, and the picture is dropped. -/
def State.dropRun (s : State) (n : Nat) : State :=
  match s.stream n with
  | none => s
  | some x =>
    let s1 := s.setBusy false ((x.dec.map (·.engines)).getD []) 0
    let s2 := s1.setBusy true ((x.enc.map (·.engines)).getD []) 0
    s2.setStream n { x with dec := none, enc := none }

/-- A stream stops (R367). -/
def State.medStop (s : State) (n : Nat) (st : Status) (addr : Nat) : State :=
  let s1 := (s.dropRun n).setFld (Fld.MED_STREAM_STATE n) stStopped
  ((s1.setFld (Fld.MED_STREAM_STATUS n) st.code).bump Fld.MED_COUNTS_STOPS Fld.MED_COUNTS_STOP_SAT 1).log 14 st (.stream n) addr

/-- A read that a media engine makes for stream n. -/
def State.medRead (s : State) (n a len : Nat) : Status × State := s.readCheck clsMedia (.stream n) a len

/-- A write that a media engine makes. -/
def State.medWrite (s : State) (a : Nat) (l : List Byte) : State := (s.writeMem clsMedia a l).2

/-! ### Commands (R360) -/

/-- Write of `MED_CMD_SUBMIT`: DENIED and logged while 64 are pending; VERIFY for a record that is not whole in HBM. -/
def medSubmitWrite (v : Word) (s : State) : Status × State :=
  let a := wget v 39 6 * 64
  if 64 ≤ s.med.queue.length then (.denied, s)
  else if s.hbmSource a 64 ≠ .ok then (if s.hbmSource a 64 = .notReady then .notReady else .verify, s)
  else (.ok, (s.setMed { s.med with queue := s.med.queue ++ [a] }).setFld Fld.MED_CMD_STATUS_PENDING (s.med.queue.length + 1))

/-- MED_CMD_SUBMIT. -/
def execMedCmdSubmit (q : Fin 4) (v : Word) (s : State) : Host.Outcome State Fault Refusal :=
  .next (s.regWrite q Reg.MED_CMD_SUBMIT (medSubmitWrite v))

/-- A command completes: `STATUS` and `STAMP`, then `DONE`, then `DONE_COUNT`. -/
def State.medComplete (s : State) (a op n : Nat) (st : Status) : State :=
  let s1 := ((s.medWrite (a + 2) (leBytes 1 st.code)).medWrite (a + 48) (leBytes 8 s.stamp)).medWrite (a + 1) [1]
  let s2 := (s1.bumpWrap Fld.MED_CMD_STATUS_DONE_COUNT 1).setFld Fld.MED_CMD_STATUS_LAST_STATUS st.code
  ((s2.setFld Fld.MED_CMD_STATUS_LAST_OP op).setFld Fld.MED_CMD_STATUS_LAST_STREAM n).setFld Fld.MED_CMD_STATUS_PENDING s.med.queue.length

/-- Execute the command at the head of the queue where it is operation `op`: stream, `ADDR`, and what its rule answers. A
reserved operation or a non-zero reserved byte completes with VERIFY. Log entry 78 applies (DESIGN CHOICE). -/
def State.medExec (s : State) (op : Nat) (f : Nat → Nat → State → Status × State) : State :=
  match s.med.queue with
  | [] => s
  | a :: rest =>
    let r := s.medRead 0 a 64
    let w := s.num a 64
    let code := byteField w 0 1
    let n := byteField w 3 1
    let s1 := r.2.setMed { r.2.med with queue := rest }
    if r.1 ≠ .ok then s1.medComplete a 0 0 r.1
    else if decide (code = 0) || decide (6 < code) then s1.medComplete a code n .verify
    else if code ≠ op then s
    else if byteField w 9 39 ≠ 0 || byteField w 56 8 ≠ 0 then s1.medComplete a op n .verify
    else
      let e := f n (byteField w 4 5) s1
      if e.1 = .ok then e.2.medComplete a op n .ok else s1.medComplete a op n e.1

/-- OPEN (R351, R355). -/
def medOpen (n addr : Nat) (s : State) : Status × State :=
  let src := s.hbmSource addr 128
  let rd := s.medRead n addr 128
  let w := s.num addr 128
  let d := StreamDesc.ofNum w
  let bad := decide (addr % 64 ≠ 0) || decide (src ≠ .ok) || !d.ok w || !s.streamBuffers d
  let st := Status.lowest [.when (s.streamSt n ≠ stFree && s.streamSt n ≠ stIdle) .denied,
    if src = .ok then rd.1 else .ok, .when bad .verify, .when (!s.ready rdyMedia) .notReady,
    .when (src = .ok && rd.1 = .ok && d.encode && decide (0 < d.lookahead) && decide (d.md ≤ 3) && !s.altOwner d.md) .owned]
  if st ≠ .ok then (st, s)
  else
    let s1 := rd.2.setReg (Reg.MED_STREAM n)
      (wput (wput (wput (wput 0 63 61 stRunning) 60 60 (b2n d.encode)) 59 58 d.md) 57 56 d.cls)
    (.ok, (s1.setStream n { d }).showOpen)

/-- MED_OPEN. Log entry 77 applies (DEDUCED). -/
def execMedOpen (s : State) : Host.Outcome State Fault Refusal := .next (s.medExec 1 medOpen)

/-- CLOSE (R356). -/
def medClose (n _addr : Nat) (s : State) : Status × State :=
  if s.streamSt n = stFree then (.verify, s)
  else
    let s1 := (s.dropRun n).setReg (Reg.MED_STREAM n) 0
    (.ok, (s1.setMed { s1.med with streams := SMap.erase s1.med.streams n }).showOpen)

/-- MED_CLOSE. Log entry 81 applies (DESIGN CHOICE). -/
def execMedClose (s : State) : Host.Outcome State Fault Refusal := .next (s.medExec 2 medClose)

/-! ### Output of pictures (R353, R358, R359) -/

/-- Samples of a plane as a row of bytes, one or two for each. -/
def sampleBytes (bits : Nat) (l : List Nat) : List Byte := l.flatMap (fun v => leBytes (if bits = 8 then 1 else 2) (v % 2 ^ bits))

/-- Width and height of a chroma plane. -/
def chromaW (w : Nat) : Nat := (w + 1) / 2
def chromaH (chroma h : Nat) : Nat := if chroma = 1 then h else (h + 1) / 2

/-- Row y of a picture: luma, or interleaved Cb and Cr. -/
def Picture.lumaRow (p : Picture) (y : Nat) : List Byte :=
  sampleBytes p.bits (tab p.w (fun x => nth 0 (nth [] p.planes 0) (y * p.w + x)))
def Picture.chromaRow (p : Picture) (y : Nat) : List Byte :=
  let cw := chromaW p.w
  sampleBytes p.bits ((List.range cw).flatMap (fun x => [nth 0 (nth [] p.planes 1) (y * cw + x), nth 0 (nth [] p.planes 2) (y * cw + x)]))

/-- A picture is written to a slot of the ring. -/
def State.putPicture (s : State) (d : StreamDesc) (slot : Nat) (p : Picture) : State :=
  let base := d.picRing + 4096 + slot * d.slotBytes
  let s1 := (List.range p.h).foldl (fun acc y => acc.medWrite (base + y * d.pitch) (p.lumaRow y)) s
  (List.range (chromaH p.chroma p.h)).foldl (fun acc y => acc.medWrite (base + (d.maxH + y) * d.pitch) (p.chromaRow y)) s1

/-- The record of a picture (Table 13-5). Log entry 77 applies (DEDUCED). -/
def Picture.record (p : Picture) (num stamp : Nat) : List Byte :=
  leBytes 8 num ++ leBytes 1 (b2n p.concealed + 2 * b2n p.tainted + 4 * b2n p.key) ++ leBytes 1 p.status.code ++ leBytes 2 p.w
    ++ leBytes 2 p.h ++ leBytes 1 p.bits ++ leBytes 1 p.chroma ++ leBytes 8 p.tag ++ leBytes 8 stamp

/-- Output as many of the pictures directed to output as there is space for: slots of the ring, or two places in the local
buffer. -/
def State.flushOut (s : State) (n : Nat) : State :=
  match s.stream n with
  | none => s
  | some x0 => x0.outq.foldl (fun acc p =>
      match acc.stream n with
      | none => acc
      | some x =>
        let rest := x.outq.drop 1
        let rec' := { p with num := x.pics }
        if x.d.viaNge then
          if x.local'.length < 2 then
            (acc.setStream n { x with outq := rest, local' := x.local' ++ [rec'], pics := x.pics + 1 }).bumpWrap (Fld.MED_STREAM_PICTURES n) 1
          else acc
        else if x.pics - x.picsOther < x.d.picSlots then
          let slot := x.pics % x.d.picSlots
          let s1 := (acc.putPicture x.d slot p).medWrite (x.d.picRing + 64 + 32 * slot) (p.record x.pics acc.stamp)
          ((s1.medWrite x.d.picRing (leBytes 8 (x.pics + 1))).setStream n { x with outq := rest, pics := x.pics + 1 }).bumpWrap
            (Fld.MED_STREAM_PICTURES n) 1
        else acc) s

/-- Pictures in order of their numbers. -/
def insertPic (p : Picture) : List Picture → List Picture
  | [] => [p]
  | q :: l => if p.num < q.num then p :: q :: l else q :: insertPic p l

/-- A draining stream outputs what it holds and becomes IDLE once nothing is left (R356).
Log entry 81 applies (DESIGN CHOICE). -/
def State.drainStream (s : State) (n : Nat) : State :=
  match s.stream n with
  | none => s
  | some x =>
    if s.streamSt n ≠ stDraining || x.dec.isSome || x.enc.isSome then s
    else
      let s1 := (s.setStream n { x with held := [], outq := x.outq ++ x.held.foldr insertPic [] }).flushOut n
      match s1.stream n with
      | none => s1
      | some y => if y.outq.isEmpty && y.coded.isEmpty then s1.setFld (Fld.MED_STREAM_STATE n) stIdle else s1

/-- FLUSH. -/
def medFlush (n _addr : Nat) (s : State) : Status × State :=
  if s.streamSt n ≠ stRunning then (.verify, s)
  else (.ok, (s.setFld (Fld.MED_STREAM_STATE n) stDraining).drainStream n)

/-- MED_FLUSH: as a unit with END. Log entry 81 applies (DESIGN CHOICE). -/
def execMedFlush (s : State) : Host.Outcome State Fault Refusal := .next (s.medExec 3 medFlush)

/-! ### Encoder settings (R370, R374, R375) -/

/-- Region i of a table of 256 bytes. -/
def Roi.ofNum (w i : Nat) : Roi :=
  ⟨byteField w (16 * i) 2, byteField w (16 * i + 2) 2, byteField w (16 * i + 4) 2, byteField w (16 * i + 6) 2,
    byteField w (16 * i + 8) 1, signed 8 (byteField w (16 * i + 9) 1), byteField w (16 * i + 10) 1 = 1⟩

/-- The checks of R374 on one region. -/
def Roi.ok (r : Roi) (d : StreamDesc) (w i : Nat) : Bool :=
  decide (r.mode ≤ 2) && byteField w (16 * i + 11) 5 = 0 && decide (byteField w (16 * i + 10) 1 ≤ 1)
    && (r.mode = 0 || (decide (1 ≤ r.w) && decide (1 ≤ r.h) && decide (r.x0 + r.w ≤ ceilDiv d.maxW 64)
      && decide (r.y0 + r.h ≤ ceilDiv d.maxH 64)
      && (if r.mode = 1 then decide (-63 ≤ r.qp) && decide (r.qp ≤ 63) else decide (byteField w (16 * i + 9) 1 ≤ qpTop d.codec))))

/-- An encoder stream that is open. -/
def State.encoder (s : State) (n : Nat) : Option Stream := (s.stream n).bind (fun x => if x.d.encode then some x else none)

/-- ROI_SET. -/
def medRoi (n addr : Nat) (s : State) : Status × State :=
  match s.encoder n with
  | none => (.verify, s)
  | some x =>
    let rd := s.medRead n addr 256
    let w := s.num addr 256
    if s.hbmSource addr 256 ≠ .ok then (.verify, s)
    else if rd.1 ≠ .ok then (rd.1, s)
    else if !(List.range 16).all (fun i => (Roi.ofNum w i).ok x.d w i) then (.verify, s)
    else (.ok, rd.2.setStream n { x with roiStaged := some (tab 16 (Roi.ofNum w)) })

/-- ROI_SET stages a table, in place of one already staged. -/
def execRoiSet (s : State) : Host.Outcome State Fault Refusal := .next (s.medExec 4 medRoi)

/-- RATE_SET. -/
def medRate (n addr : Nat) (s : State) : Status × State :=
  match s.encoder n with
  | none => (.verify, s)
  | some x =>
    let rd := s.medRead n addr 16
    let w := s.num addr 16
    let r := byteField w 0 4
    let lo := byteField w 9 1
    let hi := byteField w 10 1
    if s.hbmSource addr 16 ≠ .ok then (.verify, s)
    else if rd.1 ≠ .ok then (rd.1, s)
    else if !bitrateOk x.d.rcMode r || decide (hi < lo) || decide (qpTop x.d.codec < hi) then (.verify, s)
    else (.ok, rd.2.setStream n { x with rateStaged := some (r, lo, hi) })

/-- RATE_SET applies from the next picture that begins. -/
def execRateSet (s : State) : Host.Outcome State Fault Refusal := .next (s.medExec 5 medRate)

/-- KEY. -/
def medKey (n _addr : Nat) (s : State) : Status × State :=
  match s.encoder n with
  | none => (.verify, s)
  | some x => (.ok, s.setStream n { x with keyDue := true })

/-- MED_KEY: the next picture that begins is a key picture. -/
def execMedKey (s : State) : Host.Outcome State Fault Refusal := .next (s.medExec 6 medKey)

/-! ### Queues and rings (R357, R358, R233) -/

/-- Is a count that the other side writes bad: below its last value, or outside [low, high]? -/
def badCount (v last low high : Nat) : Bool := decide (v < last) || decide (v < low) || decide (high < v)

/-- Read the other side's counts of a stream: the producer of a decoder's units and consumer of its pictures, the consumer
of an encoder's units and producer of its pictures. A bad count or a header that cannot be read stops the stream. -/
def State.refresh (s : State) (n : Nat) : State :=
  match s.stream n with
  | none => s
  | some x =>
    let d := x.d
    let qa := if d.encode then d.unitQ + 8 else d.unitQ
    let ra := if d.encode then d.picRing else d.picRing + 8
    let r1 := s.medRead n qa 8
    let r2 : Status × State := if d.viaNge then (.ok, r1.2) else r1.2.medRead n ra 8
    let u := s.num qa 8
    let p := if d.viaNge then x.picsOther else s.num ra 8
    if r1.1 ≠ .ok then r1.2.medStop n r1.1 qa
    else if r2.1 ≠ .ok then r2.2.medStop n r2.1 ra
    else if (if d.encode then badCount u x.unitsOther 0 x.units else badCount u x.unitsOther x.units (x.units + d.unitSlots)) then
      r2.2.medStop n .bounds qa
    else if !d.viaNge && (if d.encode then badCount p x.picsOther x.pics (x.pics + d.picSlots) else badCount p x.picsOther 0 x.pics) then
      r2.2.medStop n .bounds ra
    else
      let used := if d.encode then x.bitsUsed.drop (u - x.unitsOther) else x.bitsUsed
      r2.2.setStream n { x with unitsOther := u, picsOther := p, bitsUsed := used }

/-- UNIT_QUEUE_POLL: a stream that waits for input reads the other side's counts (R357). -/
def execUnitQueuePoll (n : Fin 256) (s : State) : Host.Outcome State Fault Refusal :=
  .next (if s.streamSt n.val = stRunning || s.streamSt n.val = stDraining then
      ((s.refresh n.val).flushOut n.val).drainStream n.val
    else s)

/-- Address of unit entry i. -/
def StreamDesc.unitAt (d : StreamDesc) (i : Nat) : Nat := d.unitQ + 64 + 32 * (i % d.unitSlots)

/-- A decode unit is answered: `STATUS`, the lowest of its pictures', and `STAMP`, then `CONSUMED`. -/
def State.answerUnit (s : State) (n : Nat) (st : Status) : State :=
  match s.stream n with
  | none => s
  | some x =>
    let a := x.d.unitAt x.units
    let s1 := (s.medWrite (a + 13) (leBytes 1 (x.unitSt.worse st).code)).medWrite (a + 24) (leBytes 8 s.stamp)
    (s1.medWrite (x.d.unitQ + 8) (leBytes 8 (x.units + 1))).setStream n { x with units := x.units + 1, unitSt := .ok }

/-! ### Decoding a picture (R363, R364, R367 to R369) -/

/-- The reference that stands for one that is named: itself, else the nearest in output order, ties to the earlier. -/
def pickRef (l : List RefPic) (o : Nat) : Option RefPic :=
  let dist := fun (r : RefPic) => if r.order ≤ o then o - r.order else r.order - o
  l.foldl (fun acc r =>
    match acc with
    | none => some r
    | some b => if dist r < dist b || (dist r = dist b && decide (r.order < b.order)) then some r else some b) none

/-- Is a narrow-gauge program bound to the stream on its die? -/
def State.ngeBound (s : State) (n : Nat) (d : StreamDesc) : Bool := (SMap.find s.units.nge.progs (256 * d.md + n)).isSome

/-- Bytes of pictures in the local buffer of a die. -/
def State.localBytes (s : State) (md : Nat) : Nat :=
  s.med.streams.foldl (fun t p => if p.2.d.md = md then t + p.2.local'.length * p.2.d.raw else t) 0

/-- Units of 32 × 32 samples of a picture (R376). -/
def units32 (w h : Nat) : Nat := ceilDiv w 32 * ceilDiv h 32

/-- Bytes of the PIC partition (Table 13-14). -/
def picPartition : Nat := 201326592

/-- A place in `BITS_BUF` for `len` bytes: at the head or at the base, apart from the units not yet consumed (R357).
Log entry 81 applies (DESIGN CHOICE). -/
def Stream.bitsPlace (x : Stream) (len : Nat) : Option Nat :=
  let o := if x.d.bitsBytes < x.bitsHead + len then 0 else x.bitsHead
  if len ≤ x.d.bitsBytes && x.bitsUsed.all (fun p => !overlaps o len p.1 p.2) then some o else none

/-- The largest coded picture (R373). Log entry 81 applies (DESIGN CHOICE). -/
def StreamDesc.maxUnit (d : StreamDesc) : Nat := 2 * d.raw + 4096

/-- Is the stream's next picture ready (R363, R359)? A draining encoder finishes the pictures it has passed over. -/
def State.picReady (s : State) (n : Nat) (x : Stream) (enc : Bool) : Bool :=
  let st := s.streamSt n
  if enc then
    x.d.encode && x.enc.isNone && (st = stRunning || (st = stDraining && !x.coded.isEmpty))
      && decide (x.units - x.unitsOther < x.d.unitSlots) && (x.bitsPlace x.d.maxUnit).isSome
      && (if x.d.viaNge then s.ngeBound n x.d && !x.local'.isEmpty else decide (x.pics < x.picsOther))
  else
    !x.d.encode && st = stRunning && x.dec.isNone && decide (x.units < x.unitsOther) && x.outq.isEmpty
      && (if x.d.viaNge then s.ngeBound n x.d && decide (x.local'.length < 2) && decide (s.localBytes x.d.md + x.d.raw ≤ picPartition)
          else decide (x.pics - x.picsOther < x.d.picSlots))

/-- Does the first of two streams go before the second (R363)? Log entry 78 applies (DESIGN CHOICE). -/
def Stream.before (x y : Stream) : Bool :=
  let b := fun (z : Stream) => match z.began with
    | none => 0
    | some k => k + 1
  decide (x.d.cls < y.d.cls) || (x.d.cls = y.d.cls && decide (b x < b y))

/-- The stream whose picture a free engine takes. Log entry 78 applies (DESIGN CHOICE). -/
def State.nextPicture (s : State) (md : Nat) (enc : Bool) : Option Nat :=
  (s.med.streams.foldl (fun (acc : Option (Nat × Stream)) p =>
    if p.2.d.md = md && s.picReady p.1 p.2 enc then
      match acc with
      | none => some p
      | some q => if p.2.before q.2 then some p else some q
    else acc) none).map (·.1)

/-- Engines of a die that are in service and free. -/
def State.freeEngines (s : State) (md : Nat) (enc : Bool) : List Nat :=
  if enc then
    (tab 2 (fun i => 2 * md + i)).filter (fun k => !bit (s.fld Fld.MED_ENGINES_ENC_BUSY) k && !bit (s.fld Fld.MED_ENGINES_ENC_OUT) k)
  else
    (tab 4 (fun i => 4 * md + i)).filter (fun k => !bit (s.fld Fld.MED_ENGINES_DEC_BUSY) k && !bit (s.fld Fld.MED_ENGINES_DEC_OUT) k)

/-- No number twice. -/
def noTwice : List Nat → Bool
  | [] => true
  | x :: l => !l.contains x && noTwice l

/-- Engines that a picture may take (R364). Log entry 78 applies (DESIGN CHOICE). -/
def enginesOk (free l : List Nat) (limit : Nat) (exact : Bool) : Bool :=
  noTwice l && l.all (fun k => free.contains k) && decide (1 ≤ l.length)
    && (if exact then decide (l.length = min limit free.length) else decide (l.length ≤ limit))

/-- The picture of a stream begins: the order among its class, and END's draining. -/
def State.beginPicture (s : State) (n : Nat) (x : Stream) : State :=
  let s1 := s.setStream n { x with began := some s.med.begun }
  s1.setMed { s1.med with begun := s1.med.begun + 1 }

/-- A unit is skipped (Table 13-9). -/
def State.skipUnit (s : State) (n : Nat) (ends : Bool) : State :=
  let s1 := (s.answerUnit n .verify).bump Fld.MED_COUNTS_SKIPPED Fld.MED_COUNTS_SKIP_SAT 1
  let s2 := match s1.stream n with
    | none => s1
    | some x => s1.setStream n { x with skipping := true }
  if ends then (s2.setFld (Fld.MED_STREAM_STATE n) stDraining).drainStream n else s2

/-- A decode picture begins on its engines (R361, R367 to R369). Log entry 77 applies (DEDUCED). -/
def State.startDecode (s : State) (n : Nat) (x : Stream) (engines : List Nat) (o : DecObs) : State :=
  let a := x.d.unitAt x.units
  let r0 := s.medRead n a 32
  let w := s.num a 32
  let ua := byteField w 0 5
  let len := byteField w 8 4
  let ends := bit (byteField w 12 1) 0
  if r0.1 ≠ .ok then r0.2.medStop n r0.1 a
  else if len = 0 || decide (2 ^ 26 < len) || !r0.2.inOneRegion ua len then r0.2.medStop n .bounds ua
  else if byteField w 5 3 ≠ 0 || decide (15 < byteField w 12 1) then r0.2.medStop n .verify ua
  else
    let r1 := r0.2.medRead n ua len
    if r1.1 ≠ .ok then r1.2.medStop n r1.1 ua
    else if o.malformed || (x.skipping && !o.key) then r1.2.skipUnit n ends
    else if decide (x.d.nref ≤ o.refsNeeded) || decide (x.d.maxW < o.w) || decide (x.d.maxH < o.h) then r1.2.medStop n .bounds ua
    else if o.outside || decide (o.bits ≠ x.d.bits) || (if o.chroma = 2 then decide (x.d.chroma = 1) else decide (o.chroma ≠ x.d.chroma))
        || decide (o.w < 16) || decide (o.h < 16) then r1.2.medStop n .verify ua
    else
      let used := o.refs.filterMap (pickRef x.refs)
      let concealed := o.refs.any (fun r => !(x.refs.any (fun q => q.order = r)))
      let r2 := used.foldl (fun (acc : Status × State) q => if acc.1 ≠ .ok then acc
        else acc.2.medRead n (x.d.refPool + q.slot * x.d.refSize) x.d.refSize) (.ok, r1.2)
      if r2.1 ≠ .ok then r2.2.medStop n r2.1 ua
      else if !enginesOk (s.freeEngines x.d.md false) engines (if x.d.codec = 0 then 1 else min x.d.splitMax (max 1 o.columns)) true then s
      else
        let run : DecRun := ⟨engines, x.units, byteField w 16 8, o, concealed, !o.key && used.any (·.damaged)⟩
        let s1 := (r2.2.setBusy false engines 1).beginPicture n { x with dec := some run, skipping := false }
        if ends && !o.more then s1.setFld (Fld.MED_STREAM_STATE n) stDraining else s1

/-- The lowest slot of the reference pool that no kept reference holds. Log entry 80 applies (DESIGN CHOICE). -/
def freeSlot (l : List RefPic) (n : Nat) : Nat := ((List.range n).find? (fun i => !l.any (fun r => r.slot = i))).getD 0

/-- A reference is written to its slot; its compressed bytes are free values (R365). Log entry 80 applies (DESIGN CHOICE). -/
def State.putRef (s : State) (d : StreamDesc) (slot : Nat) : State :=
  (s.medWrite (d.refPool + slot * d.refSize) (tab d.refSize (Config.refByte s.free))).withFree (s.free + 1)

/-- The planes of an output picture: 4:0:0 gets chroma at mid-scale (R353). -/
def outPlanes (o : DecObs) (planes : List (List Nat)) : List (List Nat) :=
  let n := chromaW o.w * chromaH o.chroma o.h
  if o.chroma = 2 then [nth [] planes 0, List.replicate n (2 ^ (o.bits - 1)), List.replicate n (2 ^ (o.bits - 1))] else planes

/-- A picture of a decode unit is done: after the last the unit is answered (R357). -/
def State.unitPicture (s : State) (n : Nat) (more : Bool) (st : Status) : State :=
  if !more then s.answerUnit n st
  else
    match s.stream n with
    | none => s
    | some x => s.setStream n { x with unitSt := x.unitSt.worse st }

/-- A decode picture completes (R358, R368, R369). -/
def State.endDecode (s : State) (n : Nat) (x : Stream) (r : DecRun) (f : DecDone) : State :=
  let conc := r.concealed || f.malformed
  let st : Status := if f.malformed then .verify else .ok
  let s0 := ((s.dropRun n).unitPicture n r.obs.more st).perf 10 x.d.md (units32 r.obs.w r.obs.h)
  let s1 := if conc then s0.bump Fld.MED_COUNTS_CONCEALED Fld.MED_COUNTS_CONC_SAT 1 else s0
  let kept := x.refs.filter (fun q => r.obs.keep.contains q.order)
  let slot := freeSlot kept x.d.nref
  let s2 := if r.obs.isRef then s1.putRef x.d slot else s1
  let p : Picture := ⟨r.obs.order, r.tag, conc, r.tainted, r.obs.key, st, r.obs.w, r.obs.h, r.obs.bits,
    if r.obs.chroma = 1 then 1 else 0, outPlanes r.obs f.planes⟩
  match s2.stream n with
  | none => s2
  | some y =>
    let held := if r.obs.shown then y.held ++ [p] else y.held
    let outs := f.output.filterMap (fun o => held.find? (fun q => q.num = o))
    let y1 := { y with refs := if r.obs.isRef then ⟨r.obs.order, slot, conc || r.tainted⟩ :: kept else kept,
                       held := held.filter (fun q => !f.output.contains q.num), outq := y.outq ++ outs }
    ((s2.setStream n y1).flushOut n).drainStream n

/-! ### Encoding a picture (R370 to R373) -/

/-- The budget before debt (R371). -/
def StreamDesc.nominal (d : StreamDesc) (key : Bool) : Nat :=
  let n := d.bitrate * 1000 * d.fpsDen / d.fpsNum
  if d.rcMode = 2 && decide (5 ≤ d.keyInt) then (if key then 4 * n else n * (d.keyInt - 4) / (d.keyInt - 1)) else n

/-- What of a debt a picture takes off its budget. -/
def debtPart (debt nominal : Nat) : Nat := min debt (3 * nominal / 4)

/-- Target after row r (R372). Log entry 79 applies (DESIGN CHOICE). -/
def rowTarget (b : Nat) (ws : List Nat) (r : Nat) : Nat := b * (ws.take (r + 1)).foldl (· + ·) 0 / ws.foldl (· + ·) 0

/-- QP of the next row after row r, from what is spent. Log entry 79 applies (DESIGN CHOICE). -/
def nextQp (lo hi qp : Nat) (spent target b : Nat) : Nat :=
  let e : Int := (spent : Int) - target
  let dq : Int := max (-2) (min 4 ((16 * e).tdiv b))
  (max (lo : Int) (min hi ((qp : Int) + dq))).toNat

/-- What rate control makes of one tile column: the QP of each row, and the first exhausted row. A skip row keeps the QP
that was set before it. -/
structure ColumnRun where
  qps : List Nat
  exhausted : Option Nat
  spent : Nat
  qp : Nat

/-- The rows of a tile column in turn: budget, weights, limits, whether exhausted rows are coded at `QP_MAX`, and the bits
that each row took. Log entry 79 applies (DESIGN CHOICE). -/
def columnRun (b : Option Nat) (ws : List Nat) (lo hi : Nat) (atMax : Bool) : List Nat → Nat → ColumnRun → ColumnRun
  | [], _, c => c
  | x :: l, r, c =>
    match b with
    | none => columnRun b ws lo hi atMax l (r + 1) { c with qps := c.qps ++ [c.qp], spent := c.spent + x }
    | some bj =>
      let ex := if c.exhausted.isSome then c.exhausted else if 0 < r && decide (bj ≤ c.spent) then some r else none
      let qp := if ex.isSome && atMax then hi else c.qp
      let spent := c.spent + x
      let next := if ex.isSome then qp else nextQp lo hi qp spent (rowTarget bj ws r) bj
      columnRun b ws lo hi atMax l (r + 1) ⟨c.qps ++ [qp], ex, spent, if l.isEmpty then qp else next⟩

/-- The region of a block: the lowest-numbered active one that covers it (R374). -/
def roiAt (l : List Roi) (bx by' : Nat) : Option Roi :=
  l.find? (fun r => r.mode ≠ 0 && decide (r.x0 ≤ bx) && decide (bx < r.x0 + r.w) && decide (r.y0 ≤ by') && decide (by' < r.y0 + r.h))

/-- A coded block's QP in its region (R374): `row` is its row's QP. Log entry 79 applies (DESIGN CHOICE). -/
def roiQp (hit : Option Roi) (d : StreamDesc) (row : Nat) : Nat :=
  let q : Int := match hit with
    | none => row
    | some r => if r.mode = 1 then (row : Int) + r.qp else r.qp % 256
  (max (d.qpMin : Int) (min d.qpMax q)).toNat

/-- The QP of one block, none for a skip block: its row's in its region, and `QP_MAX` or a skip once its column's budget is
exhausted; a protected block is never skipped (R373, R374). -/
def blockQp (x : Stream) (intra : Bool) (c : ColumnRun) (bx by' : Nat) : Option Nat :=
  let hit := roiAt x.roi bx by'
  if (c.exhausted.map (fun e => decide (e ≤ by'))).getD false then
    if !x.d.strictLive || intra || (hit.map (·.protect)).getD false then some x.d.qpMax else none
  else some (roiQp hit x.d (nth 0 c.qps by'))

/-- The QPs of every block of a picture, row by row; the tile columns share the block columns evenly. Log entry 79 applies
(DESIGN CHOICE). -/
def blockQps (x : Stream) (intra : Bool) (cs : List ColumnRun) : List (List (Option Nat)) :=
  let wide := ceilDiv x.d.maxW 64
  tab (ceilDiv x.d.maxH 64) (fun y => tab wide (fun bx =>
    blockQp x intra (nth ⟨[], none, 0, 0⟩ cs (bx * x.d.tileCols / wide)) bx y))

/-- The input picture of an encoder: its tag; a status and address where it stops the stream. -/
def State.encInput (s : State) (n : Nat) (x : Stream) (num : Nat) : Status × Nat × Nat × State :=
  if x.d.viaNge then
    match x.local'[num - x.pics]? with
    | none => (.verify, 0, 0, s)
    | some p => if p.w ≠ x.d.maxW || p.h ≠ x.d.maxH || p.bits ≠ x.d.bits then (.verify, 0, 0, s) else (.ok, 0, p.tag, s)
  else
    let slot := num % x.d.picSlots
    let ra := x.d.picRing + 64 + 32 * slot
    let pa := x.d.picRing + 4096 + slot * x.d.slotBytes
    let r := s.medRead n ra 32
    let w := s.num ra 32
    if r.1 ≠ .ok then (r.1, ra, 0, r.2)
    else if byteField w 10 2 ≠ x.d.maxW || byteField w 12 2 ≠ x.d.maxH || byteField w 14 1 ≠ x.d.bits || byteField w 15 1 ≠ 0
        || byteField w 8 1 / 8 ≠ 0 then
      (.verify, pa, 0, r.2)
    else
      let r2 := r.2.medRead n pa x.d.slotBytes
      (r2.1, pa, byteField w 16 8, r2.2)

/-- The record of the last picture of a type. -/
def Stream.record (x : Stream) (ptype : Nat) : Option RowRecord := x.records.find? (fun r => r.ptype = ptype)

/-- The settings that a beginning picture takes over: rate and regions (R360, R375). -/
def Stream.takeStaged (x : Stream) : Stream :=
  let d := match x.rateStaged with
    | none => x.d
    | some (r, lo, hi) => { x.d with bitrate := r, qpMin := lo, qpMax := hi }
  { x with d, rateStaged := none, roi := x.roiStaged.getD x.roi, roiStaged := none }

/-- An encode picture begins: type, budget and rows (R370 to R372, R375). Log entry 79 applies (DESIGN CHOICE). -/
def State.startEncode (s : State) (n : Nat) (x0 : Stream) (engines : List Nat) (o : EncObs) : State :=
  let x := x0.takeStaged
  let num := if x.d.gop ≤ 1 then x.pics else o.num
  let top := if x.d.viaNge then x.pics + x.local'.length else x.picsOther
  if !enginesOk (s.freeEngines x.d.md true) engines (min x.d.splitMax x.d.tileCols) false || decide (num < x.pics) || decide (top ≤ num)
      || x.coded.contains num || (s.streamSt n = stDraining && x.coded.all (fun c => decide (c ≤ num))) then s
  else
    let inp := s.encInput n x num
    let refs := inp.2.2.2.readChecks clsMedia (.stream n)
      ((o.refs.filter (fun k => decide (k < x.d.nref))).map (fun k => (x.d.refPool + k * x.d.refSize, x.d.refSize)))
    if inp.1 ≠ .ok then inp.2.2.2.medStop n inp.1 inp.2.1
    else if refs.1 ≠ .ok then refs.2.2.medStop n refs.1 refs.2.1
    else
      let key := x.began.isNone || decide (x.d.keyInt ≤ x.sinceKey) || x.keyDue
      let intra := key || x.d.gop = 0
      let ptype := if intra then 0 else if x.d.gop = 1 then 1 else 1 + o.ptype
      let debt := if x.keyDue then 0 else x.debt
      let nom := x.d.nominal key
      let part := debtPart debt nom
      let budget := if x.d.rcMode = 0 then none else some (nom - part)
      let rows := ceilDiv x.d.maxH 64
      let old := x.record ptype
      let cols := tab x.d.tileCols (fun j =>
        (if x.d.rcMode = 0 then x.d.qpInit else (old.bind (·.final[j]?)).getD x.d.qpInit,
          if 0 < x.d.lookahead then nth [] o.complexity j else (old.bind (·.bits[j]?)).getD (List.replicate rows 1)))
      let run : EncRun := ⟨engines, num, inp.2.2.1, key, intra, ptype, budget, (nom - part) / x.d.tileCols, cols⟩
      (refs.2.2.setBusy true engines 1).beginPicture n
        { x with enc := some run, keyDue := false, sinceKey := if key then 1 else x.sinceKey + 1,
                 debt := if x.d.rcMode = 0 then debt else debt - part }

/-- Consecutive numbers from `p` are taken off a list of coded pictures. -/
def consumeCoded : Nat → List Nat → Nat → Nat × List Nat
  | 0, l, p => (p, l)
  | k + 1, l, p => if l.contains p then consumeCoded k (l.filter (· ≠ p)) (p + 1) else (p, l)

/-- The columns of a coded picture. -/
def Stream.columnRuns (x : Stream) (r : EncRun) (rows : List (List Nat)) : List ColumnRun :=
  r.columns.mapIdx (fun j c => columnRun (r.budget.map (fun _ => r.share)) c.2 x.d.qpMin x.d.qpMax (!x.d.strictLive || r.intra)
    (nth [] rows j) 0 ⟨[], none, 0, c.1⟩)

/-- The unit entry of a coded picture (Table 13-4). -/
def codedEntry (addr len : Nat) (key : Bool) (row : Option Nat) (tag stamp : Nat) : List Byte :=
  leBytes 5 addr ++ leBytes 3 0 ++ leBytes 4 len ++ leBytes 1 (4 * b2n key + 8 * b2n row.isSome) ++ leBytes 1 0
    ++ leBytes 2 (row.getD 0xffff) ++ leBytes 8 tag ++ leBytes 8 stamp

/-- A coded picture completes (R357, R371 to R373). The engine shows the bits of each row of each column and the bytes; a
picture beyond the largest size is no outcome of an encoder. -/
def State.endEncode (s : State) (n : Nat) (x : Stream) (r : EncRun) (f : EncDone) : State :=
  match x.bitsPlace f.unit.length with
  | none => s
  | some o =>
    if x.d.maxUnit < f.unit.length || f.unit.isEmpty then s
    else
      let cs := x.columnRuns r f.rows
      let spent := cs.foldl (fun t c => t + c.spent) 0
      let row := cs.foldl (fun (acc : Option Nat) c => if acc.isSome then acc else c.exhausted) none
      let rec' : RowRecord := ⟨r.ptype, f.rows, cs.map (·.qp), cs.map (·.qps), blockQps x r.intra cs⟩
      let a := x.d.bitsBuf + o
      let s1 := ((s.dropRun n).medWrite a f.unit).medWrite (x.d.unitAt x.units) (codedEntry a f.unit.length r.key row r.tag s.stamp)
      let s2 := (s1.medWrite x.d.unitQ (leBytes 8 (x.units + 1))).putRef x.d (r.num % x.d.nref)
      let all := r.num :: x.coded
      let c := consumeCoded all.length all x.pics
      let s3 := if x.d.viaNge then s2 else s2.medWrite (x.d.picRing + 8) (leBytes 8 c.1)
      let y := { x with enc := none, units := x.units + 1, pics := c.1, coded := c.2, local' := x.local'.drop (c.1 - x.pics),
                        records := rec' :: x.records.filter (fun q => q.ptype ≠ r.ptype), bitsHead := o + f.unit.length,
                        bitsUsed := x.bitsUsed ++ [(o, f.unit.length)],
                        debt := match r.budget with
                          | none => x.debt
                          | some b => x.debt + (spent - b) }
      (((s3.setStream n y).bumpWrap (Fld.MED_STREAM_PICTURES n) 1).perf 10 x.d.md (units32 x.d.maxW x.d.maxH)).drainStream n

/-! ### The two events -/

/-- PICTURE_START: the free engines of a die take the ready picture of highest priority (R361, R363, R364). -/
def execPictureStart (md : Fin 4) (enc : Bool) (engines : List Nat) (d : DecObs) (e : EncObs) (s : State) :
    Host.Outcome State Fault Refusal :=
  let s0 := s.med.streams.foldl (fun acc p =>
    if p.2.d.md = md.val && p.2.d.encode = enc && (acc.streamSt p.1 = stRunning || acc.streamSt p.1 = stDraining) then
      (acc.refresh p.1).flushOut p.1 else acc) s
  .next (
    if (s.freeEngines md.val enc).isEmpty then s
    else match s0.nextPicture md.val enc with
      | none => s0
      | some n => match s0.stream n with
        | none => s0
        | some x => if enc then s0.startEncode n x engines e else s0.startDecode n x engines d)

/-- PICTURE_COMPLETE: the picture of a stream ends (R358). -/
def execPictureComplete (n : Fin 256) (d : DecDone) (e : EncDone) (s : State) : Host.Outcome State Fault Refusal :=
  .next (match s.stream n.val with
    | none => s
    | some x =>
      match x.dec, x.enc with
      | some r, _ => s.endDecode n.val x r d
      | none, some r => s.endEncode n.val x r e
      | none, none => s)

end Sys2Proof.Machine
end

