-- ==== Sys2Proof/Machine/Nge.lean ====
section
/-! DEFINITION. The narrow-gauge engines (08_convolution_and_narrow_gauge.md, R230 to R236): binding and verifying a
program, the arithmetic of its stages, and the landing rings. -/

namespace Sys2Proof.Machine

/-! ### Programs (R231, Tables 08-10 and 08-11) -/

/-- Kinds of stage. -/
def skCsc : Nat := 0
def skCrop : Nat := 1
def skResize : Nat := 2
def skConv : Nat := 3
def skPack : Nat := 4

/-- A stage record of 64 bytes after a stage whose output is w × h × c. `param` is IN_BITS, MODE, KT or BITS. -/
def NgeStage.ofNum (r w h c : Nat) : NgeStage :=
  let b := byteField r
  { kind := b 0 1, w := b 2 2, h := b 4 2, c := b 6 2, inW := w, inH := h, inC := c, param := b 8 1, x0 := b 9 2, y0 := b 11 2,
    ky := b 9 1, kx := b 10 1, sy := b 11 1, sx := b 12 1, replicate := b 13 1 = 1, pads := tab 4 (fun i => b (14 + i) 1),
    act := b 18 1, csc := tab 12 (fun i => b (12 + 4 * i) 4), weights := [], bias := [] }

/-- Addresses of weights and biases. -/
def stageWeightsAt (r : Nat) : Nat := byteField r 20 8
def stageBiasAt (r : Nat) : Nat := byteField r 28 8

/-- Bytes of a stage's weights: a row of K elements for each output channel (R215 order). -/
def NgeStage.kLen (g : NgeStage) : Nat := ceilDiv g.inC 32 * (g.param * g.ky * g.kx) * 32
def NgeStage.weightBytes (g : NgeStage) : Nat := 2 * g.c * g.kLen

/-- Are the bytes outside a list of ranges all zero? -/
def onlyBytes (r : Nat) (used : List (Nat × Nat)) : Bool :=
  (List.range 64).all (fun i => used.any (fun p => decide (p.1 ≤ i) && decide (i < p.1 + p.2)) || byteField r i 1 = 0)

/-- Is the range in HBM or the map store? -/
def memRange (a n : Nat) : Bool := decide (a + n ≤ memEnd a) && (isHbm a || isMs a)

/-- A stage of a program: direction, place (first, last), chroma sampling of an input picture in its original form, depth of
the encoder's input. Log entry 82 applies (DEDUCED). -/
def NgeStage.ok (g : NgeStage) (r : Nat) (front first last raw : Bool) (chroma bits : Nat) : Bool :=
  let dims := decide (1 ≤ g.w) && decide (g.w ≤ 8192) && decide (1 ≤ g.h) && decide (g.h ≤ 8192) && decide (1 ≤ g.c) && decide (g.c ≤ 256)
  let base := [(0, 1), (2, 6)]
  dims && (!(front && first) || g.kind = skCsc) && (match g.kind with
    | 0 => onlyBytes r (base ++ [(8, 1), (12, 48)]) && g.w = g.inW && g.h = g.inH && g.c = 3 && g.inC = 3
        && (if front && first then g.param = 8 || g.param = 10 || g.param = 12 else g.param = 0)
    | 1 => onlyBytes r (base ++ [(9, 4)]) && decide (g.x0 + g.w ≤ g.inW) && decide (g.y0 + g.h ≤ g.inH) && g.c = g.inC
        && (!raw || (g.x0 % 2 = 0 && g.w % 2 = 0 && (chroma = 1 || (g.y0 % 2 = 0 && g.h % 2 = 0))))
    | 2 => onlyBytes r (base ++ [(8, 1)]) && decide (g.param ≤ 1) && g.c = g.inC
        && (g.param = 0 || (g.inW % g.w = 0 && decide (g.inW / g.w ≤ 8) && g.inW = g.inW / g.w * g.w && g.inH = g.inW / g.w * g.h))
    | 3 => onlyBytes r (base ++ [(8, 11), (20, 16)]) && decide (1 ≤ g.param) && decide (g.param ≤ 3) && decide (1 ≤ g.ky)
        && decide (g.ky ≤ 7) && decide (1 ≤ g.kx) && decide (g.kx ≤ 7) && decide (1 ≤ g.sy) && decide (g.sy ≤ 4) && decide (1 ≤ g.sx)
        && decide (g.sx ≤ 4) && decide (byteField r 13 1 ≤ 1) && g.pads.all (fun p => decide (p ≤ 3)) && decide (g.act ≤ 2)
        && decide (min g.inC g.c ≤ 16)
        && decide (g.ky ≤ g.inH + nth 0 g.pads 0 + nth 0 g.pads 1) && decide (g.kx ≤ g.inW + nth 0 g.pads 2 + nth 0 g.pads 3)
        && g.h = (g.inH + nth 0 g.pads 0 + nth 0 g.pads 1 - g.ky) / g.sy + 1
        && g.w = (g.inW + nth 0 g.pads 2 + nth 0 g.pads 3 - g.kx) / g.sx + 1
        && memRange (stageWeightsAt r) g.weightBytes && (stageBiasAt r = 0 || memRange (stageBiasAt r) (2 * g.c))
    | 4 => onlyBytes r (base ++ [(8, 1)]) && !front && last && g.w = g.inW && g.h = g.inH && g.c = 3 && g.inC = 3
        && g.w % 2 = 0 && g.h % 2 = 0 && g.param = bits
    | _ => false)
    && (front || !last || g.kind = skPack)

/-- The stages of a program, checked in turn: the records read so far, or the number of the one that fails. -/
def ngeStages (recs : List Nat) (front : Bool) (chroma bits : Nat) : Nat → Nat → Nat → Nat → Bool → List Nat → Sum Nat (List NgeStage)
  | _, _, _, _, _, [] => .inr []
  | i, w, h, c, raw, r :: l =>
    let g := NgeStage.ofNum r w h c
    if !g.ok r front (i = 0) (i + 1 = recs.length) raw chroma bits then .inl i
    else match ngeStages recs front chroma bits (i + 1) g.w g.h g.c (raw && decide (g.kind ≤ skCrop)) l with
      | .inl k => .inl k
      | .inr gs => .inr (g :: gs)

/-- The program of a header of 64 bytes, its stages apart. -/
def NgeProg.ofNum (w n : Nat) : NgeProg :=
  let b := byteField w
  { stream := n, front := b 1 1 = 0, stages := [], fmt := b 3 1, c := b 4 2, w := b 6 2, h := b 8 2, pos := b 10 4, row := b 14 4,
    base := b 18 5, slots := b 23 1, slotBytes := b 24 4 }

/-- Bytes of elements of a slot, where its scales begin, and its bytes in use. -/
def NgeProg.scalesAt (p : NgeProg) : Nat := roundUp (p.h * p.row) 64
def NgeProg.needs (p : NgeProg) : Nat := if p.fmt = 3 then p.scalesAt + p.h * p.row / 32 else p.h * p.row

/-- Does a range lie in a region of the narrow-gauge engines (R234)? -/
def State.inNgeRegion (s : State) (a n : Nat) : Bool := s.regions.any (fun r => r.cls = classNge && within a n r.base r.size)

/-- The checks of a header. -/
def NgeProg.ok (p : NgeProg) (s : State) (w : Nat) : Bool :=
  byteField w 0 1 = 1 && decide (byteField w 1 1 ≤ 1) && decide (1 ≤ byteField w 2 1) && decide (byteField w 2 1 ≤ 8)
    && (p.fmt = 1 || p.fmt = 3) && decide (1 ≤ p.c) && decide (p.c ≤ 256) && decide (1 ≤ p.w) && decide (p.w ≤ 8192)
    && decide (1 ≤ p.h) && decide (p.h ≤ 8192) && decide (chanBytes p.fmt p.c ≤ p.pos) && p.pos % 32 = 0
    && decide (p.w * p.pos ≤ p.row) && p.row % p.pos = 0 && p.base % 4096 = 0 && decide (1 ≤ p.slots) && decide (p.slots ≤ 64)
    && p.slotBytes % 4096 = 0 && decide (p.needs ≤ p.slotBytes) && byteField w 28 36 = 0 && s.inNgeRegion p.base p.ringBytes

/-- HIST bytes of a program: the earlier inputs of its CONV stages. Log entry 84 applies (DEDUCED). -/
def NgeProg.histBytes (p : NgeProg) : Nat :=
  p.stages.foldl (fun t g => if g.kind = skConv then t + (g.param - 1) * g.inW * g.inH * g.inC * 2 else t) 0

/-- Bytes of a HIST partition (Table 08-12). -/
def histPartition : Nat := 16777216

/-! ### Bind and unbind (R236) -/

def State.setNge (s : State) (u : NgeUnit) : State := s.withUnits { s.units with nge := u }
def State.ngeProg (s : State) (e n : Nat) : Option NgeProg := SMap.find s.units.nge.progs (256 * e + n)

/-- Programs bound to engine e. -/
def State.ngePrograms (s : State) (e : Nat) : List NgeProg :=
  (s.units.nge.progs.filter (fun p => decide (256 * e ≤ p.1) && decide (p.1 < 256 * e + 256))).map (·.2)

/-- The outcome of a bind or unbind in `NGE_STATUS`. -/
def State.ngeOutcome (s : State) (e : Nat) (st : Status) (stage : Nat) : State :=
  ((s.setFld (Fld.NGE_STATUS_BIND_STATUS e) st.code).setFld (Fld.NGE_STATUS_STAGE e) stage).setFld (Fld.NGE_STATUS_BOUND e)
    (s.ngePrograms e).length

/-- Weights and biases are copied into the engine with the program. -/
def State.loadStages (s : State) (recs : List Nat) (gs : List NgeStage) : Status × List NgeStage × State :=
  (List.zip recs gs).foldl (fun (acc : Status × List NgeStage × State) p =>
    if acc.1 ≠ .ok then acc
    else if p.2.kind ≠ skConv then (.ok, acc.2.1 ++ [p.2], acc.2.2)
    else
      let r := acc.2.2.readMem clsNge .module (stageWeightsAt p.1) p.2.weightBytes
      let b : Status × List Byte × State := if stageBiasAt p.1 = 0 then (.ok, [], r.2.2)
        else r.2.2.readMem clsNge .module (stageBiasAt p.1) (2 * p.2.c)
      (Status.lowest [r.1, b.1], acc.2.1 ++ [{ p.2 with weights := r.2.1, bias := b.2.1 }], b.2.2)) (.ok, [], s)

/-- Does a program want the HIST partition: one of its stage records is a CONV of more than one frame? -/
def wantsHist (recs : List Nat) : Bool := recs.any (fun r => byteField r 0 1 = skConv && decide (1 < byteField r 8 1))

/-- The bind that an accepted write begins: read, verify, copy. The status, the lowest that applies (R18), the failing stage
and the state. -/
def State.ngeVerify (s : State) (e n addr : Nat) (d : StreamDesc) : Status × Nat × State :=
  if !memRange addr 64 then (.verify, 255, s)
  else
    let r0 := s.readCheck clsNge (.engine e) addr 64
    let w := s.num addr 64
    let p := NgeProg.ofNum w n
    let k := byteField w 2 1
    if r0.1 ≠ .ok then (r0.1, 255, r0.2)
    else if !p.ok r0.2 w || p.front != !d.encode || !memRange addr (64 + 64 * k) then (.verify, 255, r0.2)
    else
      let r1 := r0.2.readCheck clsNge (.engine e) (addr + 64) (64 * k)
      let recs := tab k (fun i => s.num (addr + 64 + 64 * i) 64)
      if r1.1 ≠ .ok then (r1.1, 255, r1.2)
      else if wantsHist recs && r1.2.altOwner e then (.owned, 255, r1.2)
      else
        match ngeStages recs p.front d.chroma d.bits 0 (if p.front then d.maxW else p.w) (if p.front then d.maxH else p.h)
            (if p.front then 3 else p.c) p.front recs with
        | .inl i => (.verify, i, r1.2)
        | .inr gs =>
          let last := (gs.getLast?.map (fun g => (g.w, g.h, g.c))).getD (0, 0, 0)
          let ends := if p.front then decide (last = (p.w, p.h, p.c)) else decide (last = (d.maxW, d.maxH, 3))
          let q := { p with stages := gs }
          let others := ((r1.2.ngePrograms e).filter (fun x => x.stream ≠ n)).foldl (fun t x => t + x.histBytes) 0
          if !ends then (.verify, k - 1, r1.2)
          else if histPartition < others + q.histBytes then (.verify, 255, r1.2)
          else
            let l := r1.2.loadStages recs gs
            if l.1 ≠ .ok then (l.1, 255, l.2.2)
            else
              let u := l.2.2.units.nge
              (.ok, 255, l.2.2.setNge { u with progs := SMap.insert u.progs (256 * e + n) { q with stages := l.2.1 } })

/-- The stream bound on die e, where it is open there. -/
def State.dieStream (s : State) (e n : Nat) : Option Stream := (s.stream n).bind (fun x => if x.d.md = e then some x else none)

/-- Write of `NGE_BIND` of engine e. A write that is taken ends with its outcome in `NGE_STATUS`. -/
def ngeBindWrite (e : Nat) (v : Word) (s : State) : Status × State :=
  let op := wget v 63 62
  let n := wget v 55 48
  let st := Status.lowest [.when (!s.ready rdyNge || s.boot.ngeOut.contains e) .notReady, .when (s.flag (Fld.NGE_STATUS_PENDING e)) .denied,
    .when (decide (1 < op) || (s.dieStream e n).isNone
      || (op = 0 && (s.ngeProg e n).isNone && decide (64 ≤ (s.ngePrograms e).length))) .verify]
  if st ≠ .ok then (st, s)
  else if op = 1 then
    if (s.ngeProg e n).isNone then (.ok, s.ngeOutcome e .verify 255)
    else
      let u := s.units.nge
      (.ok, (s.setNge { u with progs := SMap.erase u.progs (256 * e + n) }).ngeOutcome e .ok 255)
  else match s.dieStream e n with
    | none => (.verify, s)
    | some x =>
      let r := s.ngeVerify e n (wget v 39 6 * 64) x.d
      (.ok, r.2.2.ngeOutcome e r.1 r.2.1)

/-- NGE_BIND. Log entry 82 applies (DEDUCED). -/
def execNgeBind (q e : Fin 4) (v : Word) (s : State) : Host.Outcome State Fault Refusal :=
  .next (s.regWrite q (Reg.NGE_BIND e.val) (ngeBindWrite e.val (wput v 63 62 0)))

/-- NGE_UNBIND. Log entry 82 applies (DEDUCED). -/
def execNgeUnbind (q e : Fin 4) (v : Word) (s : State) : Host.Outcome State Fault Refusal :=
  .next (s.regWrite q (Reg.NGE_BIND e.val) (ngeBindWrite e.val (wput v 63 62 1)))

/-! ### Values (R232) -/

/-- An exact contribution as an accumulator entry. -/
def exactEntry (c : Contrib) : WideEntry :=
  { value := c.v, anchor := c.e + 160, nan := c.nan, invalid := c.invalid, pinf := c.pinf, ninf := c.ninf, count := 1 }

/-- An entry divided by d, the rest as STICKY. -/
def WideEntry.over (x : WideEntry) (d : Nat) : WideEntry :=
  let v := x.value * (2 ^ 400 : Nat)
  { x with value := v.fdiv d, anchor := x.anchor - 400, sticky := decide (v.fmod d ≠ 0) }

/-- An FP32 number as an entry. -/
def entry32 (w : Nat) : WideEntry := exactEntry (Contrib.ofVal (decodeElem 0 w))

/-- A picture inside the engine: width, height, channels, and its elements by position and channel. BF16 elements, or exact
integers before the first stage. -/
structure NgePic where
  w : Nat
  h : Nat
  c : Nat
  vals : List FVal

def NgePic.at' (p : NgePic) (y x k : Nat) : FVal := nth (.fin false 0 0) p.vals ((y * p.w + x) * p.c + k)

/-- Every result of a stage, by row, column and channel. -/
def ngeTab (g : NgeStage) (f : Nat → Nat → Nat → WideEntry) : List WideEntry :=
  (List.range g.h).flatMap (fun y => (List.range g.w).flatMap (fun x => tab g.c (f y x)))

/-- CSC: Σ m × v + o, exact, rounded to FP32. -/
def ngeCsc (g : NgeStage) (p : NgePic) (y x k : Nat) : WideEntry :=
  let m := fun i => decodeElem 0 (nth 0 g.csc i)
  let c := Contrib.ofProducts (tab 3 (fun j => mulVal (m (3 * k + j)) (p.at' y x j)) ++ [(m (9 + k), flagNanIn)])
  entry32 ((exactEntry c).drain 0 0 (fun _ => 0)).bits

/-- A source coordinate of BILINEAR with 16 fraction bits, clamped to the picture. -/
def bilinearAt (dst n out : Nat) : Nat :=
  let c : Int := (((2 * dst + 1) * n * 65536 : Nat) - (out * 65536 : Nat) : Int).fdiv (2 * out)
  (max 0 (min (((n - 1) * 65536 : Nat) : Int) c)).toNat

/-- The four weights in units of 2^-16: exact where a fraction is 0, else free values that sum to one. -/
def bilinearWeights (fy fx : Nat) : List Nat :=
  if fy = 0 || fx = 0 then [(65536 - fy) * (65536 - fx) / 65536, (65536 - fy) * fx / 65536, fy * (65536 - fx) / 65536, 0]
  else
    let f := Config.bilinear fy fx
    let a := f.1 % 65537
    let b := f.2.1 % (65537 - a)
    let c := f.2.2 % (65537 - a - b)
    [65536 - a - b - c, a, b, c]

/-- BILINEAR. Log entry 83 applies (DESIGN CHOICE). -/
def ngeBilinear (g : NgeStage) (p : NgePic) (y x k : Nat) : WideEntry :=
  let cy := bilinearAt y g.inH g.h
  let cx := bilinearAt x g.inW g.w
  let y0 := cy / 65536
  let x0 := cx / 65536
  let y1 := min (y0 + 1) (g.inH - 1)
  let x1 := min (x0 + 1) (g.inW - 1)
  let w := bilinearWeights (cy % 65536) (cx % 65536)
  let vs := [p.at' y0 x0 k, p.at' y0 x1 k, p.at' y1 x0 k, p.at' y1 x1 k]
  exactEntry (Contrib.ofProducts (List.zipWith (fun a v => mulVal (.fin false a (-16)) v) w vs))

/-- AREA: the exact sum of a square over the square of the factor. -/
def ngeArea (g : NgeStage) (p : NgePic) (y x k : Nat) : WideEntry :=
  let f := g.inW / g.w
  let vs := (List.range f).flatMap (fun i => tab f (fun j => (p.at' (f * y + i) (f * x + j) k, flagNanIn)))
  (exactEntry (Contrib.ofProducts vs)).over (f * f)

/-- Index of a padded coordinate of a CONV; none for a ZERO pad. -/
def convIdx (g : NgeStage) (j : Int) (n : Nat) : Option Nat := resolveIdx j n (b2n g.replicate)

/-- The input of CONV at tap (t, u, v) of output (y, x): `ps` are this picture and the earlier ones, newest first; before
the first picture the padding mode stands for what is missing. -/
def convTap (g : NgeStage) (ps : List NgePic) (y x t u v k : Nat) : FVal :=
  let back := g.param - 1 - t
  let src : Option NgePic := if back < ps.length then ps[back]? else if g.replicate then ps.getLast? else none
  match src, convIdx g (((y * g.sy + u : Nat) : Int) - (nth 0 g.pads 0 : Nat)) g.inH,
      convIdx g (((x * g.sx + v : Nat) : Int) - (nth 0 g.pads 2 : Nat)) g.inW with
  | some p, some i, some j => if k < g.inC then p.at' i j k else .fin false 0 0
  | _, _, _ => .fin false 0 0

/-- A row of A for one output position: blocks of 32 channels, tap within channel block (R215).
Log entry 84 applies (DEDUCED). -/
def convRow (g : NgeStage) (ps : List NgePic) (y x : Nat) : List (List FVal) :=
  let taps := g.param * g.ky * g.kx
  tab (ceilDiv g.inC 32 * taps) (fun b =>
    let k := b % taps
    tab 32 (fun e => convTap g ps y x (k / (g.ky * g.kx)) (k / g.kx % g.ky) (k % g.kx) (32 * (b / taps) + e)))

/-- The weights of output channel n in blocks of 32. -/
def convWeights (g : NgeStage) (n : Nat) : List (List FVal) :=
  let ws := (g.weights.drop (2 * g.kLen * n)).take (2 * g.kLen)
  tab (g.kLen / 32) (fun b => tab 32 (fun e => decodeElem 1 (leNat ((ws.drop (2 * (32 * b + e))).take 2))))

/-- The largest exponent of a row of BF16 blocks. -/
def bfTop (l : List (List FVal)) : Int := topOf (-126) ((l.flatMap id).map (expOf 7))

/-- One output of CONV (R232): SCAN accumulation, then bias and activation in FP32. The second component says that the
accumulator is drained once directly. Log entry 84 applies (DEDUCED). -/
def ngeConv (gen : Nat) (g : NgeStage) (row : List (List FVal)) (n : Nat) : WideEntry :=
  let ws := convWeights g n
  let a := bfTop row + bfTop ws + pairT 1 1
  let acc := ((WideEntry.cleared a).addAll (rowContribs 1 row ws)).getD { nan := true }
  if g.bias.isEmpty && g.act = 0 then acc
  else
    let d := (acc.drain 0 0 (fun _ => 0)).bits
    let b := decodeElem 1 (leNat ((g.bias.drop (2 * n)).take 2))
    let r := if g.bias.isEmpty then d else (addVal 0 (decodeElem 0 d) b 0 0).bits
    let f := if g.act = 0 then r else (sfnValue ⟨gen, 0, if g.act = 1 then 0x0c else 0x0d⟩ (decodeElem 0 r)).bits
    entry32 f

/-- The results of a stage on this picture, with the earlier inputs. -/
def NgeStage.run (gen : Nat) (g : NgeStage) (ps : List NgePic) : List WideEntry :=
  match ps with
  | [] => []
  | p :: _ =>
    match g.kind with
    | 0 => ngeTab g (ngeCsc g p)
    | 1 => ngeTab g (fun y x k => exactEntry (Contrib.ofVal (p.at' (g.y0 + y) (g.x0 + x) k)))
    | 2 => ngeTab g (if g.param = 0 then ngeBilinear g p else ngeArea g p)
    | _ =>
      (List.range g.h).flatMap (fun y => (List.range g.w).flatMap (fun x =>
        let row := convRow g ps y x
        tab g.c (ngeConv gen g row)))

/-- Results rounded once to BF16, as the next stage's picture. -/
def toBf16 (g : NgeStage) (l : List WideEntry) : NgePic :=
  ⟨g.w, g.h, g.c, l.map (fun x => decodeElem 1 (x.drain 1 0 (fun _ => 0)).bits)⟩

/-- Earlier inputs of stage i as pictures. Log entry 84 applies (DEDUCED). -/
def NgeProg.earlier (p : NgeProg) (i : Nat) (g : NgeStage) : List NgePic :=
  ((p.hist.filter (fun q => q.1 = i)).flatMap (·.2)).map (fun l => ⟨g.inW, g.inH, g.inC, l.map (decodeElem 1)⟩)

/-- BF16 bits of a picture. -/
def NgePic.bits16 (p : NgePic) : List Nat := p.vals.map (fun v => match v with
  | .fin s m e => encodeFin 1 s m e
  | .inf s => infBits 1 s
  | .nan => canonicalNaN 1)

/-- Run stages from number i on a picture: the results of the last one (PACK apart), and the new histories. -/
def NgeProg.runStages (gen : Nat) (p : NgeProg) : Nat → List NgeStage → NgePic → List WideEntry × NgePic × List (Nat × List (List Nat))
  | _, [], x => ([], x, [])
  | i, g :: l, x =>
    if g.kind = skPack then ([], x, [])
    else
      let ps := x :: p.earlier i g
      let r := g.run gen ps
      let h : List (Nat × List (List Nat)) :=
        if g.kind = skConv && decide (1 < g.param) then [(i, (ps.take (g.param - 1)).map NgePic.bits16)] else []
      if l.isEmpty then (r, toBf16 g r, h)
      else
        let t := p.runStages gen (i + 1) l (toBf16 g r)
        (t.1, t.2.1, h ++ t.2.2)

/-- A picture of the decoder as exact 4:4:4 values; samples beyond a smaller picture are free values. -/
def ngeInput (d : StreamDesc) (free : Nat) (p : Picture) : NgePic :=
  let cw := chromaW p.w
  ⟨d.maxW, d.maxH, 3, (List.range d.maxH).flatMap (fun y => (List.range d.maxW).flatMap (fun x => tab 3 (fun k =>
    if p.w ≤ x || p.h ≤ y then .fin false (Config.outsideSample free ((y * d.maxW + x) * 3 + k) % 2 ^ p.bits) 0
    else if k = 0 then .fin false (nth 0 (nth [] p.planes 0) (y * p.w + x)) 0
    else .fin false (nth 0 (nth [] p.planes k) ((if p.chroma = 1 then y else y / 2) * cw + x / 2)) 0)))⟩

/-! ### Landing rings (R233) -/

/-- Address of slot k, and of its record. -/
def NgeProg.slotAt (p : NgeProg) (k : Nat) : Nat := p.base + ringHeader + k % p.slots * p.slotBytes
def NgeProg.recordAt (p : NgeProg) (k : Nat) : Nat := p.base + 64 + 16 * (k % p.slots)

/-- A write of the engine. -/
def State.ngeWrite (s : State) (a : Nat) (l : List Byte) : State := (s.writeMem clsNge a l).2

/-- The elements of one position in a slot, and for MX the scales of its blocks. -/
def State.landPosition (s : State) (p : NgeProg) (slot y x : Nat) (l : List WideEntry) : State :=
  let disp := y * p.row + x * p.pos
  if p.fmt = 3 then
    (List.range (ceilDiv p.c 32)).foldl (fun acc b =>
      let r := mxBlock 3 0 (fun _ _ => 0) (((l.drop (32 * b)).take 32).map some)
      let a1 := acc.ngeWrite (slot + disp + 32 * b) (leBytes r.1.length (packElems 8 r.1))
      a1.ngeWrite (slot + p.scalesAt + disp / 32 + b) (leBytes 1 r.2.1)) s
  else s.ngeWrite (slot + disp) (l.flatMap (fun e => leBytes 2 (e.drain 1 0 (fun _ => 0)).bits))

/-- A map is written to its slot. -/
def State.landMap (s : State) (p : NgeProg) (slot : Nat) (l : List WideEntry) : State :=
  (List.range p.h).foldl (fun acc y => (List.range p.w).foldl (fun acc2 x =>
    acc2.landPosition p slot y x ((l.drop ((y * p.w + x) * p.c)).take p.c)) acc) s

/-- A landed map as a picture. -/
def State.landed (s : State) (p : NgeProg) (slot : Nat) : NgePic :=
  ⟨p.w, p.h, p.c, (List.range p.h).flatMap (fun y => (List.range p.w).flatMap (fun x => tab p.c (fun k =>
    let disp := y * p.row + x * p.pos
    if p.fmt = 3 then scaled (s.byte (slot + p.scalesAt + disp / 32 + k / 32)).toNat (decodeElem 3 (s.byte (slot + disp + k)).toNat)
    else decodeElem 1 (s.num (slot + disp + 2 * k) 2))))⟩

/-- PACK of one value: RNE, clamped; a NaN gives a free value. Log entry 83 applies (DESIGN CHOICE). -/
def packSample (bits free i : Nat) (e : WideEntry) : Nat :=
  if e.isNaN then Config.packNan free i % 2 ^ bits
  else if e.pinf then 2 ^ bits - 1
  else if e.ninf then 0
  else
    let m := roundAt 0 (decide (e.value < 0)) e.value.natAbs (e.anchor - 160) 0 0 (e.anchor - 160) (fun _ => 0)
    if e.value < 0 then 0 else min m (2 ^ bits - 1)

/-- PACK: luma, and the exact average of each 2 × 2 chroma group. -/
def ngePack (bits free : Nat) (p : NgePic) : List (List Nat) :=
  let luma := (List.range p.h).flatMap (fun y => tab p.w (fun x => packSample bits free (y * p.w + x) (exactEntry (Contrib.ofVal (p.at' y x 0)))))
  let chroma := fun k => (List.range (p.h / 2)).flatMap (fun y => tab (p.w / 2) (fun x =>
    packSample bits free ((k * p.h + y) * p.w + x) (exactEntry (Contrib.ofProducts
      ([(2 * y, 2 * x), (2 * y, 2 * x + 1), (2 * y + 1, 2 * x), (2 * y + 1, 2 * x + 1)].map (fun q =>
        mulVal (.fin false 1 (-2)) (p.at' q.1 q.2 k)))))))
  [luma, chroma 1, chroma 2]

/-- A program's stream stops with a status: NGE log, `NGE_STATUS`, and the stream's own stop.
Log entry 82 applies (DEDUCED). -/
def State.ngeStop (s : State) (e n : Nat) (st : Status) (addr : Nat) : State :=
  let s1 := ((s.setFld (Fld.NGE_STATUS_LAST_FAULT e) st.code).setFld (Fld.NGE_STATUS_FAULT_STREAM e) n).log 8 st (.engine e) addr
  s1.medStop n st addr

/-- The count that the other side of a ring wrote: the consumer's of a FRONT ring, the producer's of a TAIL ring. -/
def NgeProg.otherAt (p : NgeProg) : Nat := if p.front then p.base + 8 else p.base
def NgeProg.badOther (p : NgeProg) (v : Nat) : Bool :=
  if p.front then badCount v p.other 0 p.done else badCount v p.other p.done (p.done + p.slots)

/-- Is the ring in the engine's way: a FRONT ring full, a TAIL ring empty? -/
def NgeProg.blocked (p : NgeProg) : Bool := if p.front then decide (p.slots ≤ p.done - p.other) else decide (p.other ≤ p.done)

/-- Has the stream a picture, or a place for one, in the local buffer? -/
def Stream.ngeReady (x : Stream) (front : Bool) : Bool := if front then !x.local'.isEmpty else decide (x.local'.length < 2)

def State.setProg (s : State) (e n : Nat) (p : NgeProg) : State :=
  s.setNge { s.units.nge with progs := SMap.insert s.units.nge.progs (256 * e + n) p }

/-- Is a stream at work for its narrow-gauge engine: open, not stopped? -/
def State.ngeLive (s : State) (n : Nat) : Bool := let st := s.streamSt n; st = stRunning || st = stDraining || st = stIdle

/-- Read the other side's count of a ring; a bad one stops the stream, a hold is counted once. -/
def State.ngeRefresh (s : State) (e n : Nat) : State :=
  match s.ngeProg e n, s.stream n with
  | some p, some x =>
    if !s.ngeLive n || !x.d.viaNge || !x.ngeReady p.front then s
    else
      let r := s.readCheck clsNge (.engine e) p.otherAt 8
      let v := s.num p.otherAt 8
      if r.1 ≠ .ok then r.2.ngeStop e n r.1 p.otherAt
      else if p.badOther v then r.2.ngeStop e n .bounds p.otherAt
      else
        let q := { p with other := v }
        let s1 := r.2.setProg e n { q with held := q.blocked }
        if q.blocked && !p.held then s1.bump (Fld.NGE_COUNTS_STALLS e) (Fld.NGE_COUNTS_STALL_SAT e) 1 else s1
  | _, _ => s

/-- The program that the engine runs next: a picture, a ring that lets it go on, and the priority of its stream. -/
def State.nextNge (s : State) (e : Nat) : Option (Nat × NgeProg × Stream) :=
  let began := fun (p : NgeProg) => match p.ran with
    | none => 0
    | some k => k + 1
  (s.ngePrograms e).foldl (fun (acc : Option (Nat × NgeProg × Stream)) p =>
    match s.stream p.stream with
    | none => acc
    | some x =>
      if s.ngeLive p.stream && x.d.viaNge && x.d.md = e && x.ngeReady p.front && !p.blocked then
        match acc with
        | none => some (p.stream, p, x)
        | some (m, q, y) =>
          if x.d.cls < y.d.cls || (x.d.cls = y.d.cls && decide (began p < began q)) then some (p.stream, p, x) else some (m, q, y)
      else acc) none

/-- The engine has completed a picture. -/
def State.ngeDone (s : State) (e n : Nat) (p : NgeProg) (hist : List (Nat × List (List Nat))) : State :=
  let u := s.units.nge
  let s1 := (s.setProg e n { p with done := p.done + 1, ran := some u.runs, hist })
  (s1.setNge { s1.units.nge with runs := u.runs + 1 }).bump (Fld.NGE_COUNTS_PICTURES e) (Fld.NGE_COUNTS_PIC_SAT e) 1

/-- A FRONT program takes a picture of the local buffer and writes its map. -/
def State.runFront (s : State) (e n : Nat) (p : NgeProg) (x : Stream) : State :=
  match x.local' with
  | [] => s
  | pic :: rest =>
    let r := p.runStages s.sfuGen 0 p.stages (ngeInput x.d s.free pic)
    let s1 := (s.withFree (s.free + 1)).landMap p (p.slotAt p.done) r.1
    let s2 := s1.ngeWrite (p.recordAt p.done) (leBytes 8 pic.num ++ leBytes 1 (b2n pic.concealed) ++ leBytes 1 pic.status.code)
    let s3 := (s2.ngeWrite p.base (leBytes 8 (p.done + 1))).setStream n { x with local' := rest }
    ((s3.ngeDone e n p r.2.2).flushOut n).drainStream n

/-- A TAIL program takes a landed map and writes the encoder's input picture. -/
def State.runTail (s : State) (e n : Nat) (p : NgeProg) (x : Stream) : State :=
  let slot := p.slotAt p.done
  let rd := s.readChecks clsNge (.engine e) [(slot, p.needs), (p.recordAt p.done, 16)]
  let rec' := s.num (p.recordAt p.done) 16
  if rd.1 ≠ .ok then rd.2.2.ngeStop e n rd.1 rd.2.1
  else
    let r := p.runStages s.sfuGen 0 p.stages (s.landed p slot)
    let last := (p.stages.getLast?.map (·.param)).getD 8
    let pic : Picture := ⟨p.done, bits rec' 63 0, bit (byteField rec' 8 1) 0, false, false, .ok, x.d.maxW, x.d.maxH, last, 0, ngePack last s.free r.2.1⟩
    let s1 := (rd.2.2.withFree (s.free + 1)).ngeWrite (p.base + 8) (leBytes 8 (p.done + 1))
    (s1.setStream n { x with local' := x.local' ++ [pic] }).ngeDone e n p r.2.2

/-- NGE_PICTURE_RUN: engine e runs one bound program over one picture (R230, R232, R233, R359).
Log entry 82 applies (DEDUCED). -/
def execNgePictureRun (e : Fin 4) (s : State) : Host.Outcome State Fault Refusal :=
  .next (
    if !s.ready rdyNge then s
    else
      let s0 := (s.ngePrograms e.val).foldl (fun acc p => acc.ngeRefresh e.val p.stream) s
      match s0.nextNge e.val with
      | none => s0
      | some (n, p, x) => if p.front then s0.runFront e.val n p x else s0.runTail e.val n p x)

end Sys2Proof.Machine
end

