-- ==== Sys2Proof/Machine/Image.lean ====
section
/-! DEFINITION. The flash, firmware bundles and the structure image with its verification, and the defect list
(R433 to R448, R469 to R472, R507; Tables 16-6 to 16-12, 17-4, 18-2). -/

namespace Sys2Proof.Machine

/-! ### Flash (R433, Table 16-6) -/

/-- Bytes of a sector, and sectors of the flash. -/
def sectorSize : Nat := 65536
def sectorCount : Nat := 1024

/-- The byte at a flash address; an erased sector reads 0xFF. Log entry 16 applies (DESIGN CHOICE). -/
def State.flashByte (s : State) (a : Nat) : Byte :=
  match SMap.find s.boot.flash (a / sectorSize) with
  | none => 0xff
  | some m => SMap.get 0 m (a % sectorSize)

/-- `n` bytes from a flash address. -/
def State.flashBytes (s : State) (a n : Nat) : List Byte := tab n (fun i => s.flashByte (a + i))

/-- Erase a sector. Log entry 16 applies (DESIGN CHOICE). -/
def State.eraseSector (s : State) (n : Nat) : State :=
  s.withBoot { s.boot with flash := SMap.erase s.boot.flash n }

/-- Erase and write a sector. Log entry 16 applies (DESIGN CHOICE). -/
def State.writeSector (s : State) (n : Nat) (l : List Byte) : State :=
  s.withBoot { s.boot with flash := SMap.insert s.boot.flash n (SMap.putList 0 [] 0 (l.take sectorSize)) }

/-- Erase a run of sectors. -/
def State.eraseSectors (s : State) (first n : Nat) : State := (List.range n).foldl (fun a i => a.eraseSector (first + i)) s

/-- Flash address and first sector of a bundle slot and of a structure slot, 0 A and 1 B. -/
def bundleBase (slot : Nat) : Nat := slot * 0xc00000
def structBase (slot : Nat) : Nat := 0x1800000 + slot * 0x1000000
def bundleSectors : Nat := 192
def structSectors : Nat := 256

/-- Sector of the certificate (R474). -/
def certSector : Nat := 0x384

/-- Is sector `n` in a bundle slot, in a structure slot? -/
def inBundleSlot (slot n : Nat) : Bool := within n 1 (192 * slot) 192
def inStructSlot (slot n : Nat) : Bool := within n 1 (384 + 256 * slot) 256

/-! ### Firmware bundles (R469, R470, Table 18-2) -/

/-- Are the fields of a bundle header as R469 asks, apart from the key and the signature? -/
def State.bundleFieldsOk (s : State) (w : Nat) : Bool :=
  let f := s.sec.fuses
  let total := byteField w 12 4
  byteField w 0 1 = 1 && byteField w 2 2 = 7 && byteField w 8 1 = f.stepping && byteField w 10 2 = 0
    && byteField w 148 44 = 0 && byteField w 768 3196 = 0 && decide (f.svnMin ≤ byteField w 1 1)
    && decide (total ≤ 12 * 2 ^ 20)
    && (List.range 6).all (fun i =>
      let o := 192 + 96 * i
      byteField w (o + 1) 3 = 0 && byteField w (o + 12) 4 = 0 && byteField w (o + 80) 16 = 0
        && decide (byteField w (o + 4) 4 + byteField w (o + 8) 4 ≤ total))

/-- Offset and length of the component with an ID. -/
def bundleComponent (w id : Nat) : Nat × Nat :=
  match (List.range 6).find? (fun i => byteField w (192 + 96 * i) 1 = id) with
  | none => (0, 0)
  | some i => (byteField w (196 + 96 * i) 4, byteField w (200 + 96 * i) 4)

/-- The bundle of a slot, where the root accepts it; `key` is the slot whose hash its key matches, where the signature and
the digest of the signal box component are good. -/
def State.acceptBundle (s : State) (slot : Nat) (key : Option Nat) : Option Bundle :=
  match key with
  | none => none
  | some j =>
    let w := leNat (s.flashBytes (bundleBase slot) 4096)
    if s.lifeCycle ≠ 4 && decide (j < 4) && !bit s.sec.fuses.fwRevoke j && s.bundleFieldsOk w then
      let c := bundleComponent w 1
      some { slot := slot, svn := byteField w 1 1, version := byteField w 4 4, keySlot := j, coreOffset := c.1, coreLength := c.2 }
    else none

/-- The bundle that boots: the slot with the higher `BUNDLE_VERSION` first, slot A where they are equal. -/
def State.chooseBundle (s : State) (a b : Option Nat) : Option Bundle :=
  let v := fun slot => leNat (s.flashBytes (bundleBase slot + 4) 4)
  if v 1 ≤ v 0 then (s.acceptBundle 0 a).or (s.acceptBundle 1 b) else (s.acceptBundle 1 b).or (s.acceptBundle 0 a)

/-- The core microcode of the running bundle. -/
def State.coreImage (s : State) : List Byte :=
  match s.boot.bundle with
  | none => []
  | some b => s.flashBytes (bundleBase b.slot + b.coreOffset) b.coreLength

/-! ### Structure image: header and directory (R434, Table 16-7) -/

/-- Offset, length and CRC of section i in the directory. -/
def sectOffset (w i : Nat) : Nat := byteField w (68 + 16 * i) 4
def sectLength (w i : Nat) : Nat := byteField w (72 + 16 * i) 4
def sectCrc (w i : Nat) : Nat := byteField w (76 + 16 * i) 4

/-- The checks of the 64-byte header, which also rank a slot (R433). Log entry 97 applies (DEDUCED). -/
def imageHeaderOk (w : Nat) : Bool :=
  byteField w 0 1 = 1 && byteField w 1 1 = 0 && byteField w 2 2 = 7 && decide (1 ≤ byteField w 8 4)
    && byteField w 12 1 = 11 && byteField w 13 3 = 0 && byteField w 32 32 = 0 && decide (byteField w 4 4 ≤ 16777216)
    && byteField w 4 4 = sectOffset w 10 + 132

/-- The checks of the directory. Log entry 97 applies (DEDUCED). -/
def imageDirOk (w : Nat) : Bool :=
  byteField w 240 16 = 0 && sectOffset w 0 = 0 && sectLength w 0 = 256
    && (List.range 11).all (fun i => byteField w (64 + 16 * i) 1 = i && byteField w (65 + 16 * i) 3 = 0
      && sectOffset w i % 64 = 0 && (i = 0 || decide (sectOffset w (i - 1) + sectLength w (i - 1) < sectOffset w i)))

/-- Header and directory of a structure slot, as a number. -/
def State.imageHead (s : State) (slot : Nat) : Nat := leNat (s.flashBytes (structBase slot) 256)

/-- The rank of a slot: `IMAGE_GEN`, 0 where its header fails (R433). -/
def State.imageRank (s : State) (slot : Nat) : Nat :=
  let w := s.imageHead slot
  if imageHeaderOk w then byteField w 8 4 else 0

/-! ### Sections (R435, Tables 16-8 to 16-11) -/

/-- Least, greatest and step of the settable frequency of domain d, and its nominal one, in kHz (Table 01-6). -/
def khzRange : Nat → Nat × Nat × Nat
  | 0 => (1500000, 3000000, 25000)
  | 1 => (1200000, 2400000, 25000)
  | 2 => (750000, 1500000, 25000)
  | 3 => (2500000, 2500000, 25000)
  | 4 => (1750000, 1750000, 25000)
  | 5 => (1328125, 1328125, 1)
  | 6 => (600000, 1200000, 25000)
  | _ => (1000000, 1000000, 25000)

def khzNominal (d : Nat) : Nat := (khzRange d).2.1

/-- CLOCKS (R34, R438). -/
def clocksOk (w : Nat) : Bool :=
  byteField w 32 32 = 0 && (List.range 8).all (fun d =>
    let k := byteField w (4 * d) 4
    let r := khzRange d
    decide (r.1 ≤ k) && decide (k ≤ r.2.1) && (k - r.1) % r.2.2 = 0)

/-- The rows of CORE_MAP, and whether each is a permutation of 0 to 135. -/
def coreMapRows (l : List Byte) : List (List Nat) := tab 16 (fun n => ((l.drop (136 * n)).take 136).map (·.toNat))
def coreMapOk (rows : List (List Nat)) : Bool :=
  rows.all (fun r => r.length = 136 && (List.range 136).all (fun v => r.contains v))

/-- Records of STORES. -/
def storesCore (w : Nat) : List CoreRegion :=
  tab (byteField w 0 1) (fun i =>
    let r := byteField w (16 + 8 * i) 8
    ⟨bits r 55 52, bits r 12 6, bits r 5 0⟩)
def storesMem (w : Nat) : List MemRegion :=
  tab (byteField w 1 1) (fun i =>
    let o := 80 + 16 * i
    ⟨byteField w o 1, byteField w (o + 1) 1, byteField w (o + 8) 4, byteField w (o + 12) 4⟩)
def storesSidings (w : Nat) : List SidingRec :=
  tab (byteField w 2 1) (fun i =>
    let o := 1104 + 16 * i
    ⟨byteField w o 1, byteField w (o + 8) 4, byteField w (o + 12) 4⟩)

/-- Does no pair of a list satisfy `p`? -/
def noPair {α : Type} (p : α → α → Bool) : List α → Bool
  | [] => true
  | x :: l => l.all (fun y => !p x y) && noPair p l

/-- Core-store regions (R100). -/
def coreRegionsOk (l : List CoreRegion) : Bool :=
  l.all (fun r => decide (r.cls ≤ 6) && decide (r.base64 + r.size64 ≤ 64) && ((r.cls = 0) == (r.size64 = 0)))
    && noPair (fun a b => overlaps a.base64 a.size64 b.base64 b.size64) l

/-- STORES, its cross-checks apart (R100, Table 16-10). -/
def storesOk (w : Nat) : Bool :=
  let c := byteField w 0 1
  let m := byteField w 1 1
  let n := byteField w 2 1
  decide (c ≤ 8) && inside 1 64 m && decide (n ≤ 16) && byteField w 3 13 = 0
    && (List.range (8 - c)).all (fun i => byteField w (16 + 8 * (c + i)) 8 = 0) && coreRegionsOk (storesCore w)
    && (List.range c).all (fun i => bits (byteField w (16 + 8 * i) 8) 51 13 = 0 && byteField w (23 + 8 * i) 1 = 0)
    && (List.range m).all (fun i =>
      let o := 80 + 16 * i
      decide (byteField w o 1 ≤ 1) && decide (byteField w (o + 1) 1 ≤ 7) && byteField w (o + 2) 6 = 0
        && decide (1 ≤ byteField w (o + 12) 4))
    && (List.range n).all (fun i =>
      let o := 1104 + 16 * i
      decide (byteField w o 1 ≤ 4) && byteField w (o + 1) 7 = 0 && decide (1 ≤ byteField w (o + 12) 4))

/-- MiB of a memory: 0 HBM, 1 map store. -/
def memMib (m : Nat) : Nat := if m = 0 then 786432 else 32768

/-- The cross-checks of the memory regions and sidings (R440). -/
def storesCrossOk (mem : List MemRegion) (sid : List SidingRec) : Bool :=
  let of' := fun c => mem.filter (fun r => r.cls = c)
  let hbm := mem.filter (fun r => r.memory = 0)
  noPair (fun a b => a.memory = b.memory && overlaps a.baseMib a.sizeMib b.baseMib b.sizeMib) mem
    && noPair (fun a b => overlaps a.baseMib a.sizeMib b.baseMib b.sizeMib) sid
    && sid.all (fun x => hbm.all (fun r => !overlaps x.baseMib x.sizeMib r.baseMib r.sizeMib))
    && hbm.all (fun r => decide (256 ≤ r.baseMib)) && sid.all (fun x => decide (256 ≤ x.baseMib))
    && mem.all (fun r => decide (r.baseMib + r.sizeMib ≤ memMib r.memory))
    && sid.all (fun x => decide (x.baseMib + x.sizeMib ≤ memMib 0))
    && (of' 5).length = 1 && (of' 5).all (fun r => r.memory = 0 && decide (4 ≤ r.sizeMib))
    && (of' 6).length = 1 && (of' 6).all (fun r => r.memory = 1 && inside 64 4096 r.sizeMib && r.sizeMib % 8 = 0)
    && decide ((of' 7).length ≤ 1) && (of' 7).all (fun r => r.memory = 1)
    && (of' 0).any (fun r => r.memory = 0) && (of' 0).any (fun r => r.memory = 1)

/-- Regulator records of HBM. -/
def hbmRegulators (w : Nat) : List Nat := tab 8 (fun p => byteField w (8 + 8 * p) 8)

/-- Records of FABRIC. -/
def fabricSec (w : Nat) (l : List Byte) : FabricSec :=
  { moduleId := bits (byteField w 0 2) 13 0, systemId := byteField w 2 2, dx := byteField w 4 1, dy := byteField w 5 1,
    dz := byteField w 6 1, x := byteField w 7 1, y := byteField w 8 1, z := byteField w 9 1, minWidth := byteField w 10 1,
    weights := tab 3 (fun i => byteField w (11 + i) 1),
    ports := tab 36 (fun p => (byteField w (64 + 8 * p) 1, byteField w (65 + 8 * p) 1, byteField w (66 + 8 * p) 2,
      byteField w (68 + 8 * p) 1)),
    turnoutGen := byteField (leNat ((l.drop 384).take 64)) 2 2,
    turnout := turnoutTable (turnoutEntries ((l.drop 448).take (turnoutBytes - 64))) }

/-- A turnout image of the FABRIC section, by the checks of R316 and its CRC. Log entry 97 applies (DEDUCED). -/
def turnoutImageOk (own groups : Nat) (l : List Byte) : Bool :=
  let w := leNat (l.take 64)
  byteField w 0 1 = 1 && byteField w 1 1 = 0 && byteField w 8 56 = 0 && decide (1 ≤ byteField w 2 2)
    && turnoutOk own groups (turnoutEntries (l.drop 64)) && crc32c (l.drop 64) = byteField w 4 4

/-- FABRIC (R294, R441, Tables 11-1 and 16-11). -/
def fabricOk (w : Nat) (l : List Byte) : Bool :=
  let f := fabricSec w l
  let ext := [f.dx, f.dy, f.dz]
  let expects := fun (p : Nat × Nat × Nat × Nat) => decide (p.2.2.1 ≠ noModule)
  byteField w 0 2 ≤ 16382 && decide (1 ≤ f.systemId) && ext.all (inside 1 32) && decide (f.dx * f.dy * f.dz ≤ 10240)
    && decide (f.x < f.dx) && decide (f.y < f.dy) && decide (f.z < f.dz) && decide (f.minWidth ≤ 3)
    && f.weights.all (inside 1 15) && byteField w 14 50 = 0 && byteField w 352 32 = 0
    && f.ports.all (fun p => decide (p.1 ≤ 5) && decide (p.2.1 ≤ 1) && decide (p.2.2.1 ≤ noModule) && decide (p.2.2.2 ≤ 35))
    && (List.range 36).all (fun p => byteField w (69 + 8 * p) 3 = 0)
    && (List.range 6).all (fun g => (f.ports.filter (fun p => p.1 = g)).length = 6)
    && f.ports.all (fun p => !expects p || (decide (nth 1 ext (p.1 / 2) ≠ 1) && decide (p.2.2.1 ≠ f.moduleId)))
    && turnoutImageOk f.moduleId (maskOf 6 (fun g => f.ports.any (fun p => p.1 = g && expects p))) (l.drop 384)

/-- OWNERSHIP (R507): `life` is the life-cycle state. -/
def ownershipOk (life : Nat) (l : List Byte) : Bool :=
  let c := fun r => (nth 0 l r).toNat
  (List.range 21).all (fun r => decide (c r ≤ 1) && (!inside 4 7 r || c r = 0) && (!(life = 2 && inside 16 18 r) || c r = 0))
    && (l.drop 21).all (fun b => b.toNat = 0)

/-- POWER (R464, Table 17-4). -/
def powerSec (w : Nat) : PowerSec :=
  let h := fun o => byteField w o 2
  { susW := h 0, burstW := h 2, burstJ := byteField w 4 4, bringupW := h 8, battW := h 10, floorW := h 12, rampUp := h 14,
    rampDown := h 16, pmbusAddr := byteField w 18 1, outSet := h 20, outMax := h 22, inletMax := h 24, flowMin := h 26,
    flowFull := h 28, pulsesPerL := h 30, valvePwmHz := h 32, valveMin := h 34, valveSlew := h 36, kp := h 38, ki := h 40,
    rhoC := h 42 }

def powerOk (w : Nat) : Bool :=
  let p := powerSec w
  inside 1000 11500 p.susW && inside p.susW 12960 p.burstW && decide (p.burstJ ≤ 20000) && inside 2000 11500 p.bringupW
    && inside 1000 p.susW p.battW && decide (p.floorW ≤ p.susW) && inside 10 10000 p.rampUp && inside 10 10000 p.rampDown
    && inside 0x08 0x77 p.pmbusAddr && byteField w 19 1 = 0 && inside 300 600 p.outSet && inside 350 650 p.outMax
    && inside 150 450 p.inletMax && inside 10 2000 p.flowMin && inside 20 4000 p.flowFull && inside 1 10000 p.pulsesPerL
    && inside 100 20000 p.valvePwmHz && decide (p.valveMin ≤ 1024) && inside 10 1024 p.valveSlew && decide (p.kp ≤ 1024)
    && decide (p.ki ≤ 1024) && inside 2000 4500 p.rhoC && byteField w 44 20 = 0 && decide (p.outSet < p.outMax)

/-- The words of a POWER section, `PWR_CFGi`. -/
def PowerSec.words (p : PowerSec) : List Nat :=
  let w := leNat (leBytes 2 p.susW ++ leBytes 2 p.burstW ++ leBytes 4 p.burstJ ++ leBytes 2 p.bringupW ++ leBytes 2 p.battW
    ++ leBytes 2 p.floorW ++ leBytes 2 p.rampUp ++ leBytes 2 p.rampDown ++ leBytes 2 p.pmbusAddr ++ leBytes 2 p.outSet
    ++ leBytes 2 p.outMax ++ leBytes 2 p.inletMax ++ leBytes 2 p.flowMin ++ leBytes 2 p.flowFull ++ leBytes 2 p.pulsesPerL
    ++ leBytes 2 p.valvePwmHz ++ leBytes 2 p.valveMin ++ leBytes 2 p.valveSlew ++ leBytes 2 p.kp ++ leBytes 2 p.ki
    ++ leBytes 2 p.rhoC)
  tab 8 (fun i => byteField w (8 * i) 8)

/-! ### Verification (R436, R472) -/

/-- Length that the spec gives section i, where it gives one. -/
def sectBytes : Nat → Option Nat
  | 1 => some 64
  | 2 => some 2176
  | 3 => some 1360
  | 4 => some 80
  | 5 => some 33216
  | 7 => some 64
  | 8 => some 4672
  | 9 => some 64
  | 10 => some 132
  | _ => none

/-- The bytes of section i of the image in a slot. -/
def State.section' (s : State) (slot i : Nat) : List Byte :=
  let w := s.imageHead slot
  s.flashBytes (structBase slot + sectOffset w i) (sectLength w i)

/-- The public key in an owner slot; 0 while it is unprogrammed. -/
def Fuses.ownerKey (f : Fuses) (k : Nat) : Nat := SMap.get 0 f.ownerKeys k
def Fuses.programmed (f : Fuses) (k : Nat) : Bool := (SMap.find f.ownerKeys k).isSome

/-- May owner key k sign? In RETURN every owner key counts as revoked (Table 18-5). -/
def State.ownerValid (s : State) (k : Nat) : Bool :=
  decide (k < 4) && s.sec.fuses.programmed k && !bit s.sec.fuses.ownerRevoke k && decide (s.lifeCycle ≠ 3)

/-- The signer that R472 permits, from the key under which the signature verifies: k, or 0x10 for `FW_KEY`. -/
def State.permittedSigner (s : State) (v : SigVerdict) : Option Nat :=
  match v with
  | .none => none
  | .fwKey => if s.lifeCycle = 0 || s.lifeCycle = 3 then some 0x10 else none
  | .owner k =>
    if s.lifeCycle = 1 || s.lifeCycle = 2 then
      (List.range 4).find? (fun i => s.ownerValid i && s.sec.fuses.programmed k && s.sec.fuses.ownerKey i = s.sec.fuses.ownerKey k)
    else none

/-- Do the contents of the sections pass step 4? -/
def State.contentsOk (s : State) (slot : Nat) : Bool :=
  let sec := fun i => s.section' slot i
  let num := fun i => leNat (sec i)
  (List.range 11).all (fun i => match sectBytes i with
      | none => true
      | some n => sectLength (s.imageHead slot) i = n)
    && clocksOk (num 1) && coreMapOk (coreMapRows (sec 2)) && storesOk (num 3) && regulatorOk (hbmRegulators (num 4))
    && byteField (num 4) 75 5 = 0
    && fabricOk (num 5) (sec 5) && ownershipOk s.lifeCycle (sec 7) && ttOk (num 8) && ttCrcOk (sec 8) && powerOk (num 9)

/-- What the sections of a verified image say. -/
def State.imageOf (s : State) (slot : Nat) : StructImage :=
  let w := s.imageHead slot
  let sec := fun i => s.section' slot i
  let num := fun i => leNat (sec i)
  { imageGen := byteField w 8 4, slot := slot, sigOffset := sectOffset w 10, khz := tab 8 (fun d => byteField (num 1) (4 * d) 4),
    coreMap := coreMapRows (sec 2), coreRegions := storesCore (num 3), regions := storesMem (num 3),
    sidings := storesSidings (num 3), hashKey := byteField (num 4) 0 8, regulators := hbmRegulators (num 4),
    classMap := byteField (num 4) 72 8, fabric := fabricSec (num 5) (sec 5), media := sec 6,
    ownership := (sec 7).map (·.toNat), timetable := Timetable.ofNum (num 8), power := powerSec (num 9) }

/-- Verification of a structure slot, in the order of R436: its status and the signer. -/
def State.verifySlot (s : State) (slot : Nat) (v : SigVerdict) : Status × Nat :=
  let w := s.imageHead slot
  if !imageHeaderOk w || !imageDirOk w then (.verify, 0)
  else
    match s.permittedSigner v with
    | none => (.integrity, 0)
    | some k =>
      let crcOk := (List.range 9).all (fun i => crc32c (s.section' slot (i + 1)) = sectCrc w (i + 1))
      let x := leNat (s.section' slot 3)
      if !crcOk then (.integrity, 0)
      else if !s.contentsOk slot || !storesCrossOk (storesMem x) (storesSidings x) then (.verify, 0)
      else (.ok, k)

/-! ### The defect list (R443, R444) -/

/-- The valid copy with the higher `SEQ`, and which it is. -/
def Boot.bestCopy (b : Boot) : Option (Nat × DefectCopy) :=
  match b.copy0.valid, b.copy1.valid with
  | true, true => if b.copy1.seq ≤ b.copy0.seq then some (0, b.copy0) else some (1, b.copy1)
  | true, false => some (0, b.copy0)
  | false, true => some (1, b.copy1)
  | false, false => none

/-- Replace copy `n`. -/
def Boot.setCopy (b : Boot) (n : Nat) (c : DefectCopy) : Boot := if n = 0 then { b with copy0 := c } else { b with copy1 := c }

/-- An entry as the list in use has it: `REPAIR` may have advanced. Log entry 95 applies (DEDUCED). -/
def Boot.current (b : Boot) (d : Defect) : Defect :=
  match b.defects.find? (fun x => x.kind = d.kind && x.location = d.location) with
  | none => d
  | some x => { d with repair := x.repair }

/-- DEFECT_LIST_WRITE: new entries, and entries that advanced, are written to the copy that is not the last one written.
Log entry 99 applies (DEDUCED). -/
def execDefectListWrite (s : State) : Host.Outcome State Fault Refusal :=
  .next (
    let b := s.boot
    match b.bestCopy with
    | none => s
    | some (n, c) =>
      if !b.powerGood || (b.unwritten.isEmpty && !b.dirty) then s
      else
        let c1 : DefectCopy := ⟨true, c.seq + 1, c.entries.map b.current ++ b.unwritten⟩
        (s.withBoot { b.setCopy (1 - n) c1 with defects := b.defects ++ b.unwritten, unwritten := [], dirty := false }))

end Sys2Proof.Machine
end

