-- ==== Sys2Proof/Machine/Links.lean ====
section
/-! DEFINITION. Die-to-die links and what their loss takes with it, and DEGRADED (R28, R446, R490; Tables 01-2, 01-3 and
16-13). Links 0 to 55 are numbered as R490 does; 56 + s is the link of a perimeter CD to stack s. -/

namespace Sys2Proof.Machine

/-- Does a path remain between every two CDs? Log entry 102 applies (DEDUCED). -/
def State.bridged (s : State) : Bool := (reachCds s.boot.linksDown 16 [0]).length = 16

/-- Both CD links of media die m are out of service. -/
def State.mediaCut (s : State) (m : Nat) : Bool := s.linkOut (48 + 2 * m) && s.linkOut (49 + 2 * m)

/-- The engines of a die whose links are both down go out of service. -/
def State.cutEngines (s : State) : State :=
  let cut := fun m => s.mediaCut m
  let s1 := s.setFld Fld.MED_ENGINES_DEC_OUT (maskOf 16 (fun k => bit (s.fld Fld.MED_ENGINES_DEC_OUT) k || cut (k / 4)))
  let s2 := s1.setFld Fld.MED_ENGINES_ENC_OUT (maskOf 8 (fun k => bit (s1.fld Fld.MED_ENGINES_ENC_OUT) k || cut (k / 2)))
  s2.withBoot { s2.boot with ngeOut := (List.range 4).filter (fun e => s2.boot.ngeOut.contains e || cut e) }

/-- DEGRADED holds while any condition of Table 16-13 does. -/
def State.showDegraded (s : State) : State :=
  let any := decide (s.fld Fld.BUP_CD_READY_CD_SHORT ≠ 0) || decide (s.fld Fld.MED_ENGINES_DEC_OUT ≠ 0)
    || decide (s.fld Fld.MED_ENGINES_ENC_OUT ≠ 0) || !s.boot.ngeOut.isEmpty || !s.boot.linksDown.isEmpty
    || decide (s.fld Fld.BUP_HBM_READY_STACK_FAILED ≠ 0) || s.flag Fld.BUP_STATUS_LIST_FULL
  s.setFld Fld.BUP_READY_DEGRADED (b2n any)

/-- The ports of FX die f leave service: its fabric ports are FAILED and its host port goes down.
Log entry 102 applies (DEDUCED). -/
def State.cutFx (s : State) (f : Nat) : State :=
  let s1 := ((List.range 36).filter (fun p => fxOf p = f)).foldl (fun a p =>
    if a.portState p = psDisabled || a.portState p = psFailed then a else a.leaveService p psFailed .timeout 0) s
  if f % 2 = 1 then s1.linkLost (f / 2) else s1

/-- A stack is FAILED: HBM clears, or is never set (R289, R428, R446). -/
def State.failStack (s : State) (st : Nat) : State :=
  let failed := s.fld Fld.BUP_HBM_READY_STACK_FAILED
  let up := s.fld Fld.BUP_HBM_READY_STACK_READY
  (((s.setFld Fld.BUP_HBM_READY_STACK_FAILED (failed ||| 2 ^ st)).setFld Fld.BUP_HBM_READY_STACK_READY
    (up - (if bit up st then 2 ^ st else 0))).setFld (Fld.HBM_STACK_READY st) 0).clearReady rdyHbm

/-- What the loss of link l takes with it (Table 16-13). -/
def State.dependants (s : State) (l : Nat) : State :=
  if l < 24 then (if s.bridged then s else s.clearReady rdyCores)
  else if l < 40 then s.clearReady rdyMapStore
  else if l < 48 then s.cutFx (l - 40)
  else if l < 56 then s.cutEngines
  else s.failStack (l - 56)

/-- A link leaves service. Log entry 102 applies (DEDUCED). -/
def State.linkDown (s : State) (l : Nat) : State :=
  if s.linkOut l then s
  else ((s.withBoot { s.boot with linksDown := l :: s.boot.linksDown }).dependants l).showDegraded

/-- D2D_FLIT_CRC_FAIL: the flit is sent again and its consumer never sees it; where an injection planted the error, one
fewer is to come (R28, R490). -/
def execD2dFlitCrcFail (l : Fin 56) (s : State) : Host.Outcome State Fault Refusal :=
  .next (
    match SMap.get 0 s.boot.badFlits l.val with
    | 0 => s
    | n + 1 => s.withBoot { s.boot with badFlits := SMap.set 0 s.boot.badFlits l.val n })

/-- A MOVE in flight, number `hit.2` of those of core `hit.1`, is on a link that leaves service: it completes with TIMEOUT (R28). -/
def State.strand (s : State) (hit : Nat × Nat) : State :=
  let k := s.core hit.1
  match k.inflight[hit.2]? with
  | none => s
  | some f =>
    if f.isMove then s.setCore hit.1 { k with inflight := setNth k.inflight hit.2 { f with worst := f.worst.worse .timeout } } else s

/-- D2D_LINK_OUT_OF_SERVICE: the retries of a link exceed the retry counter's limit; the accesses in flight on it complete with
TIMEOUT. Log entry 102 applies (DEDUCED). -/
def execD2dLinkOutOfService (l : LinkLoss) (s : State) : Host.Outcome State Fault Refusal :=
  .next (if s.boot.bundle.isSome && !s.linkOut l.link.val then (l.hits.foldl State.strand s).linkDown l.link.val else s)

end Sys2Proof.Machine
end

