-- ==== Sys2Proof/Machine/BringUp.lean ====
section
/-! DEFINITION. Starts and resets (R423 to R448, R511, R512, R515, R517; Tables 16-1 to 16-5): power-good and RESET_N, the cold
and the warm path, the firmware load of the cores (R104 to R106), the HBM test, the recovery area and the flash commands. -/

namespace Sys2Proof.Machine

/-! ### What every start resets (R432, R477, R479, R482, R485, R487) -/

/-- `MGMT_VLAN`: 4,094 while it is unprogrammed (Table 18-1). -/
def Fuses.vlan (f : Fuses) : Nat := if f.mgmtVlan = 0 then 4094 else f.mgmtVlan

/-- Registers whose reset value differs from one register of an array to the next, or comes from the fuses, the flash or the
boot. -/
def State.showFuses (s : State) : State :=
  let f := s.sec.fuses
  let b := s.boot.bundle
  let v := (b.map (·.version)).getD 0
  let s1 := (List.range 8).foldl (fun a d => a.setFld (Fld.SBX_DOMAIN_CLK_NOMINAL_KHZ d) (khzNominal d)) s
  let s2 := (s1.setFld (Fld.SBX_DOMAIN_CLK_SET_KHZ 7) 1000000).setFld (Fld.SBX_DOMAIN_CLK_LOCKED 7) 1
  let s3 := (((s2.setFld Fld.SBX_IDENT_STEPPING f.stepping).setFld Fld.SBX_IDENT_BUNDLE_MAJOR (bits v 31 24)).setFld
    Fld.SBX_IDENT_BUNDLE_MINOR (bits v 23 16)).setFld Fld.SBX_IDENT_BUNDLE_PATCH (bits v 15 0)
  let s4 := (List.range 4).foldl (fun a k => (a.setFld (Fld.HST_PORT_STATUS_MAC k) (f.macBase + k)).setFld
    (Fld.HST_PORT_CFG_MGMT_VLAN k) f.vlan) s3
  (((s4.setFld Fld.SEC_SERIAL_SERIAL f.serial).setFld Fld.SEC_STATE_LIFE_CYCLE s.lifeCycle).setFld
    Fld.BUP_COUNTS_START_COUNT s.boot.startCount)

/-- The SEC registers that follow the fuses, the boot and the unlocked classes (Table 18-8). -/
def State.showSec (s : State) : State :=
  let f := s.sec.fuses
  let b := s.boot.bundle
  let s1 := ((s.showFuses.setFld Fld.SEC_STATE_FW_REVOKED f.fwRevoke).setFld Fld.SEC_STATE_FW_KEY_SLOT
    ((b.map (·.keySlot)).getD 0)).setFld Fld.SEC_STATE_OWNER_PROGRAMMED (maskOf 4 (fun k => f.programmed k))
  let s2 := ((s1.setFld Fld.SEC_STATE_OWNER_REVOKED f.ownerRevoke).setFld Fld.SEC_STATE_FW_SVN_MIN f.svnMin).setFld
    Fld.SEC_STATE_FW_SVN ((b.map (·.svn)).getD 0)
  (List.range 8).foldl (fun a i => a.setFld (Fld.SEC_CHALLENGE_CHALLENGE i)
    (bits s.sec.challenge.toNat (64 * i + 63) (64 * i))) (s2.setFld Fld.SEC_STATE_DEBUG_UNLOCKED s.sec.unlocked)

/-- Power limits where no structure slot verifies: the defaults, and 2,000 W from the fuses (R464). -/
def fallbackPower (w : Nat) : PowerSec := { susW := w, burstW := w, bringupW := 4000, battW := 11500 }

/-- The POWER section in use. -/
def State.power (s : State) : PowerSec := (s.boot.image.map (·.power)).getD (fallbackPower s.sec.fuses.fallbackW)

/-- POWER: `PWR_CFGi`, the driver's ceiling at `SUS_W`. Log entry 13 applies (DESIGN CHOICE). -/
def State.applyPower (s : State) : State :=
  let p := s.power
  (List.range 8).foldl (fun a i => a.setFld (Fld.PWR_CFG_BYTES i) (nth 0 p.words i)) (s.setFld Fld.PWR_LIMIT_CAP_W p.susW)

/-- Before an image is applied no port expects a neighbour, port p belongs to group p mod 6, and `MIN_WIDTH` is x4 (R293,
Table 11-1). Log entry 13 applies (DESIGN CHOICE). -/
def State.noNeighbours (s : State) : State :=
  (List.range 36).foldl (fun a p => (a.setFld (Fld.FAB_PORT_LINK_EXPECT_MODULE p) noModule).setFld (Fld.FAB_PORT_STATUS_GROUP p) (p % 6))
    (s.setFld Fld.FAB_CTRL_MIN_WIDTH 2)

/-- What the module keeps when everything stops: supply, pins, time, fuses, flash, defect list and what has left it; every
register at its reset value and every memory zero (R423, R432). -/
def State.stopped (s : State) : State :=
  let b := s.boot
  (((((((s.withRegs []).withMem []).withEccMask []).withEccDead []).withMsBad []).withVio []).withHost {}
    |>.withGov {} |>.withTest {} |>.withCores [] |>.withSched {} |>.withUnits {}
    |>.withSec { fuses := s.sec.fuses }
    |>.withBoot { b with image := none, signer := 0, flashCmd := none, badComponents := [], badCores := [], ngeOut := [],
                         linksDown := [], badFlits := [], gradOk := false, hbmTested := false, msTested := false }
    |>.showSec |>.noNeighbours |>.applyPower)

/-- The life-cycle copies after the root has burned the one that lags (R479). -/
def Fuses.sync (f : Fuses) : Fuses := { f with lifeA := f.lifeA ||| f.lifeB, lifeB := f.lifeA ||| f.lifeB }

/-- The first of a start: the count of starts, a new challenge, the life-cycle copies, the open classes.
Log entry 42 applies (DEDUCED). Log entry 95 applies (DEDUCED). -/
def State.beginStart (s : State) : State :=
  let d := s.draw
  let s1 := (d.2.withBoot { s.boot with startCount := s.boot.startCount + 1 }).withSec { s.sec with
    fuses := s.sec.fuses.sync, challenge := Config.entropy d.1 }
  (s1.withSec { s1.sec with unlocked := if s1.lifeCycle = 0 then 0x1f else 0 }).showSec

/-! ### Applying a structure image (R34, R100, R266, R294, R351, R400, R439, R464, R508) -/

/-- `PHASE` codes of Table 16-19. -/
def phImage : Nat := 1
def phTesting : Nat := 2
def phSettled : Nat := 3
def phStopped : Nat := 4
def State.setPhase (s : State) (p : Nat) : State := s.setFld Fld.BUP_STATUS_PHASE p

/-- CLOCKS: the generators lock; those of LINK and ETH need SDSCLK (R517). -/
def State.applyClocks (s : State) (khz : List Nat) : State :=
  (List.range 8).foldl (fun a d => (a.setFld (Fld.SBX_DOMAIN_CLK_SET_KHZ d) (nth 0 khz d)).setFld (Fld.SBX_DOMAIN_CLK_LOCKED d)
    (b2n (s.boot.sdsclk || (d ≠ 4 && d ≠ 5)))) s

/-- HBM: the key's CRC, the regulators' banks, the class map. -/
def State.applyHbm (s : State) (im : StructImage) : State :=
  let s1 := (s.setFld Fld.HBM_CFG_KEY_CRC (crc32c (leBytes 8 im.hashKey))).setFld Fld.BWR_CLASS_MAP_PART_OF_CLASS im.classMap
  (List.range 8).foldl (fun a p =>
    let w := BitVec.ofNat 64 (nth 0 im.regulators p)
    (a.setReg (Reg.BWR_ACTIVE p) w).setReg (Reg.BWR_STAGE p) w) s1

/-- FABRIC: identity, ports, the initial turnout table. -/
def State.applyFabric (s : State) (f : FabricSec) : State :=
  let s1 := ((((((s.setFld Fld.FAB_CFG_SYSTEM_ID f.systemId).setFld Fld.FAB_CFG_MODULE_ID f.moduleId).setFld Fld.FAB_CFG_X
    f.x).setFld Fld.FAB_CFG_Y f.y).setFld Fld.FAB_CFG_Z f.z).setFld Fld.FAB_CFG_DX_MINUS1 (f.dx - 1)).setFld
    Fld.FAB_CFG_DY_MINUS1 (f.dy - 1)
  let s2 := (s1.setFld Fld.FAB_CFG_DZ_MINUS1 (f.dz - 1)).setFld Fld.FAB_CTRL_MIN_WIDTH f.minWidth
  let s3 := (List.range 36).foldl (fun a p =>
    let x := nth (0, 0, noModule, 0) f.ports p
    (((a.setFld (Fld.FAB_PORT_STATUS_GROUP p) x.1).setFld (Fld.FAB_PORT_STATUS_DATELINE p) x.2.1).setFld
      (Fld.FAB_PORT_LINK_EXPECT_MODULE p) x.2.2.1).setFld (Fld.FAB_PORT_LINK_EXPECT_PORT p) x.2.2.2) s2
  ((s3.setFab { s3.fab with turnout := f.turnout }).setFld Fld.FAB_TT_STATUS_GEN_ACTIVE f.turnoutGen).setFld
    Fld.FAB_STATUS_EXPECTED s3.expectedGroups

/-- STORES: the sidings, each FREE. Log entry 42 applies (DEDUCED). -/
def State.applySidings (s : State) (l : List SidingRec) : State :=
  (List.range l.length).foldl (fun a n =>
    match l[n]? with
    | none => a
    | some r => ((a.setFld (Fld.TT_SIDING_CLASS n) r.cls).setFld (Fld.TT_SIDING_SIZE_MIB n) r.sizeMib).setFld
        (Fld.TT_SIDING_BASE_MIB n) r.baseMib) s

/-! ### The shelf (R459) -/

/-- Is the shelf on battery, or lost? -/
def State.onBattery (s : State) : Bool := s.gov.battery || s.flag Fld.PWR_STATUS_SHELF_LOST

def State.showBattery (s : State) : State := s.setFld Fld.PWR_STATUS_ON_BATTERY (b2n s.onBattery)

/-- Has something held since a time for `ns`? Log entry 106 applies (DESIGN CHOICE). -/
def State.heldFor (s : State) (since : Option Nat) (ns : Nat) : Bool :=
  match since with
  | none => false
  | some t => decide (t + ns ≤ s.time.toNat)

/-- The time since when a condition holds. -/
def State.sinceWhen (s : State) (old : Option Nat) (c : Bool) : Option Nat :=
  if !c then none else some (old.getD s.time.toNat)

/-- PMBus codes of the reads of R459, and of CLEAR_FAULTS (PMBus 1.4). Log entry 111 applies (PRESUMED). -/
def shelfReads : List Nat := [0x79, 0x7c, 0x88, 0x8c, 0x96]
def clearFaults : Nat := 0x03

/-- The governor reads the shelf; `r` is what a read or its one retry gave, if valid. -/
def State.readShelf (s : State) (r : Option ShelfRead) : State :=
  if !s.ready rdyPower || s.altOwner 17 then s
  else
    let s1 := shelfReads.foldl (fun a c => a.emit (.pmbus false c [])) s
    match r with
    | none => s1
    | some x =>
      let hi := bits x.statusInput.toNat 7 4
      let s2 := s1.setFld Fld.PWR_STATUS_SHELF_STATUS (hi * 65536 + x.statusWord.toNat)
      let s3 := if s2.flag Fld.PWR_STATUS_SHELF_LOST then
          (s2.setFld Fld.PWR_STATUS_SHELF_LOST 0).emit (.pmbus true clearFaults [])
        else s2
      let zero := s3.sinceWhen s3.gov.battZeroSince (hi = 0)
      let batt := if hi ≠ 0 then true else s3.gov.battery && !s3.heldFor zero 1000000000
      (s3.withGov { s3.gov with shelfValid := s3.time.toNat, battery := batt, battZeroSince := zero }).showBattery

/-- The shelf is lost, which counts as on battery. -/
def State.loseShelf (s : State) : State :=
  ((s.setFld Fld.PWR_STATUS_SHELF_LOST 1).bump Fld.PWR_COUNTS_SHELF_LOSSES Fld.PWR_COUNTS_SHELF_SAT 1).showBattery

/-- The governor starts: its bucket is full, `READY_W` is known, and the first read of the shelf is valid or the shelf counts as
lost, as it does where a test feature owns the PMBus (R455, R458, R459, R466, R494). -/
def State.startGovernor (s : State) (o : StartObs) : State :=
  if s.boot.badComponents.contains 6 then s
  else
    let p := s.power
    let s1 := s.withGov { s.gov with bucket := p.burstJ * 100000, readyCal := o.readyW, shelfValid := s.time.toNat }
    let s2 := ((s1.setFld Fld.PWR_STATUS_BUCKET_J p.burstJ).setFld Fld.PWR_DRAW_READY_W o.readyW).setFld
      Fld.PWR_STATUS_ISSUE 64
    let s3 := (s2.setReady rdyPower).readShelf o.shelf
    if o.shelf.isSome && !s3.altOwner 17 then s3 else s3.loseShelf

/-- The fabric ports that expect a neighbour begin to train (R296); one whose die's link or clock is out is FAILED (R446,
R517). -/
def State.startPorts (s : State) : State :=
  ((List.range 36).filter (fun p => s.expects p)).foldl (fun a p =>
    if a.canTrain p then a.beginAttempt p else a.attemptFails p) s.showFabric

/-- An engine by its `LOCATION`: 0 to 15 decoders, 16 to 23 encoders, 24 to 27 narrow-gauge engines, as `mediaOut` numbers
them. -/
def engineBit (loc : Nat) : Nat := (if loc / 16 = 0 then 0 else if loc / 16 = 1 then 16 else 24) + loc % 16

/-- C9, W8: engines that the section leaves out, that are listed, or that fail now are out of service; MEDIA and NARROW_GAUGE
follow (R351, R443, Table 16-15). Log entry 98 applies (DESIGN CHOICE). Log entry 99 applies (DEDUCED). -/
def State.startMedia (s : State) (sec : List Byte) (bad : List Nat) : State :=
  let fresh := bad.filter (fun l => !s.isDefect 4 l)
  let s1 := fresh.foldl (fun a l => a.addDefect ⟨4, 7, 4, l, 0⟩) s
  let out := (bad ++ (s1.listed 4).map (·.location)).map engineBit
  let m := maskOf 28 (fun i => bit (Config.mediaOut sec) i || out.contains i)
  let s2 := (s1.setFld Fld.MED_ENGINES_DEC_OUT (bits m 15 0)).setFld Fld.MED_ENGINES_ENC_OUT (bits m 23 16)
  let s3 := (s2.withBoot { s2.boot with ngeOut := (List.range 4).filter (fun e => bit m (24 + e)) }).cutEngines
  let s4 := if s3.boot.badComponents.contains 3 then s3 else s3.setReady rdyMedia
  if s4.boot.ngeOut.length < 4 then s4.setReady rdyNge else s4

/-- Spare rows of a map-store die. -/
def msSpares : Nat := 4096

/-- Listed row repairs of map-store die d. -/
def State.msRepairs (s : State) (d : Nat) : Nat :=
  ((s.listed 2).filter (fun x => x.location / 2 ^ 24 = d && x.repair = 1)).length

/-- A row that fails C10 takes a spare row, where its die has one left (R445). -/
def State.msRowFails (s : State) (x : Nat × Nat × Bool) : State :=
  let loc := x.1 * 2 ^ 24 + x.2.1
  let cause := if x.2.2 then 4 else 3
  if s.msRepairs x.1 < msSpares then s.addDefect ⟨2, cause, 1, loc, 0⟩
  else ((s.withBoot { s.boot with msTested := false }).addDefect ⟨2, cause, 4, loc, 0⟩).setFld Fld.BUP_STATUS_FAULT
    Status.degraded.code

/-- C10 or W9: the map store is marched or wiped; a warm reset reapplies the listed repairs. Log entry 96 applies (DEDUCED). -/
def State.startMapStore (s : State) (full : Bool) (rows : List (Nat × Nat × Bool)) : State :=
  let s0 := s.withBoot { s.boot with msTested := true }
  let s1 := if full then rows.foldl (fun a x => a.msRowFails x) s0 else s0
  let cut := (List.range 16).any (fun n => s1.linkOut (24 + n))
  if s1.boot.msTested && !cut && !s1.boot.badComponents.contains 5 then s1.setReady rdyMapStore else s1

/-! ### The quick test and the logical cores (R439, R442) -/

/-- Physical cores of CD n that may not be used: listed, or failed in this start. -/
def State.badCore (s : State) (cd p : Nat) : Bool :=
  s.isDefect 1 (cd * 256 + p) || s.boot.badCores.contains (cd, p)

/-- The row of CORE_MAP of CD n. -/
def State.coreRow (s : State) (cd : Nat) : List Nat := (s.boot.image.map (fun im => nth [] im.coreMap cd)).getD []

/-- The good cores of CD n, in preference order. -/
def State.goodCores (s : State) (cd : Nat) : List Nat := (s.coreRow cd).filter (fun p => !s.badCore cd p)

/-- A core fails its quick test: entered, unless it is listed. -/
def State.coreFails (s : State) (cause : Nat) (x : Nat × Nat) : State :=
  let loc := x.1 * 256 + x.2
  let s1 : State := s.withBoot { s.boot with badCores := x :: s.boot.badCores }
  if s.isDefect 1 loc then s1
  else s1.addDefect ⟨1, cause, if 128 ≤ (s1.goodCores x.1).length then 0 else 4, loc, 0⟩

/-- Logical core n stands on core `p` of CD `cd` and waits for its firmware. Log entry 100 applies (DEDUCED). -/
def State.placeCore (s : State) (n cd p : Nat) : State :=
  let im := s.boot.image
  let s1 := ((((s.setFld (Fld.CORE_STATUS_PRESENT n) 1).setFld (Fld.CORE_STATUS_CD n) cd).setFld (Fld.CORE_STATUS_PHYS n) p).setFld
    (Fld.CORE_STATUS_STATE n) 1).setFld (Fld.CORE_FW_STATUS_RESULT n) 1
  (((im.map (·.coreRegions)).getD []).mapIdx (fun i r => (i, r))).foldl (fun a x =>
    ((a.setFld (Fld.CORE_REGION_CLASS n x.1) x.2.cls).setFld (Fld.CORE_REGION_SIZE_64K n x.1) x.2.size64).setFld
      (Fld.CORE_REGION_BASE_64K n x.1) x.2.base64) s1

/-- `BUP_CDn` and `BUP_CD_READY` for a CD whose cores are those of a list, from logical number `first`.
Log entry 99 applies (DEDUCED). -/
def State.showCd (s : State) (cd first used : Nat) (mesh : Bool) : State :=
  let good := (s.goodCores cd).length
  let s1 := (((s.setFld (Fld.BUP_CD_LOGICAL cd) used).setFld (Fld.BUP_CD_FIRST_LOGICAL cd) (if used = 0 then 0 else first)).setFld
    (Fld.BUP_CD_SPARES_LEFT cd) (if mesh then 0 else min 8 (good - used))).setFld (Fld.BUP_CD_DEFECTIVE cd)
    (if mesh then 136 else 136 - good)
  let mark := fun (a : State) (f : Field) (b : Bool) => a.setFld f (if b then a.fld f ||| 2 ^ cd else a.fld f)
  mark (mark s1 Fld.BUP_CD_READY_CD_SHORT (decide (used < 128))) Fld.BUP_CD_READY_CD_FAILED (used = 0)

/-- The good cores of one die take the next logical numbers, from `n`; the next number free after it. -/
def State.takeCd (s : State) (mesh : List Nat) (cd n : Nat) : State × Nat :=
  let take := if mesh.contains cd then [] else (s.goodCores cd).take 128
  (((take.mapIdx (fun i p => (i, p))).foldl (fun a x => a.placeCore (n + x.1) cd x.2) s).showCd cd n take.length
    (mesh.contains cd), n + take.length)

/-- C11, W10: cores that fail are entered, and the logical cores are numbered. -/
def State.quickTest (s : State) (bad : List (Nat × Nat)) (mesh : List Nat) : State :=
  let s1 := (bad.filter (fun x => !s.isDefect 1 (x.1 * 256 + x.2))).foldl (fun a x => a.coreFails 1 x) s
  let r := (List.range 16).foldl (fun (acc : State × Nat) cd => acc.1.takeCd mesh cd acc.2) (s1, 0)
  let s3 := r.1.setFld Fld.BUP_STATUS_LOGICAL_CORES r.2
  (List.range 12).foldl (fun a st => if mesh.contains (stackCd st) then a.failStack st else a) s3

/-! ### Row repair (R288, R428) -/

/-- Stack and bank of a row. -/
def rowBank (loc : Nat) : Nat := loc / 2 ^ 13
def rowStack (loc : Nat) : Nat := loc / 2 ^ 25

/-- A bank's soft repair is taken. Log entry 101 applies (DEDUCED). -/
def State.takeSoft (s : State) (loc : Nat) : State :=
  let st := rowStack loc
  let s1 := s.setFld (Fld.HBM_STACK_SOFT_LEFT st) (s.fld (Fld.HBM_STACK_SOFT_LEFT st) - 1)
  s1.withUnits { s1.units with hbm := { s1.units.hbm with softBanks := rowBank loc :: s1.units.hbm.softBanks } }

/-- Set `REPAIR` of a listed row. -/
def State.advanceRepair (s : State) (loc r : Nat) : State :=
  let f : Defect → Defect := fun d => if d.kind = 3 && d.location = loc then { d with repair := r } else d
  s.withBoot { s.boot with
      defects := s.boot.defects.map f, unwritten := s.boot.unwritten.map f
      dirty := s.boot.dirty || s.boot.defects.any (fun d => d.kind = 3 && d.location = loc) }

/-- How a row is hidden: by the bank's hard repair, else by its soft repair, else not at all.
Log entry 101 applies (DEDUCED). -/
def State.rowRepair (s : State) (loc : Nat) : Nat :=
  if !s.boot.hardBanks.contains (rowBank loc) then 2
  else if !s.units.hbm.softBanks.contains (rowBank loc) then 3 else 4

/-- The repair of a row takes effect. Log entry 101 applies (DEDUCED). -/
def State.applyRepair (s : State) (loc r : Nat) : State :=
  if r = 2 then s.withBoot { s.boot with hardBanks := rowBank loc :: s.boot.hardBanks }
  else if r = 3 then s.takeSoft loc else s.failStack (rowStack loc)

/-- H1: soft repairs are applied again, then pending ones but those left for a later start. Log entry 101 applies (DEDUCED). -/
def State.startRepairs (s : State) (left : List Nat) : State :=
  let rows := s.listed 3
  let s1 := (rows.filter (fun d => d.repair = 3)).foldl (fun a d => a.takeSoft d.location) s
  let due := rows.filter (fun d => d.repair = 5 && !left.contains d.location)
  let s2 := due.foldl (fun a d =>
    let r := a.rowRepair d.location
    (a.advanceRepair d.location r).applyRepair d.location r) s1
  s2.setFld Fld.HBM_REPAIR_HARD_PENDING ((rows.filter (fun d => d.repair = 5 && left.contains d.location)).length)

/-- A row fails in H3 to H5. One that was repaired before fails its stack. -/
def State.rowFails (s : State) (x : Nat × Nat) : State :=
  if s.isDefect 3 x.1 then s.failStack (rowStack x.1)
  else
    let r := s.rowRepair x.1
    (s.addDefect ⟨3, x.2, r, x.1, 0⟩).applyRepair x.1 r

/-! ### Settling (Tables 16-2, 16-4 and 16-15) -/

/-- Do all logical cores have a result? Log entry 96 applies (DEDUCED). -/
def State.coresSettled (s : State) : Bool := (List.range s.cores').all (fun n => s.fld (Fld.CORE_FW_STATUS_RESULT n) ≠ 1)


/-- The TIMETABLE section becomes active. -/
def State.activateTimetable (s : State) : State :=
  match s.boot.image with
  | none => s
  | some im =>
    ((s.withSched { s.sched with active := some im.timetable, cycleStart := s.time.toNat, slot := 0 }).setFld
      Fld.TT_STATUS_GEN_ACTIVE im.timetable.generation).setReady rdyTimetable

/-- Every siding is FREE. -/
def State.sidingsFree (s : State) : Bool := (List.range 16).all (fun n => s.sidingState n = sdFree)

/-- Has every logical core of CD `cd` loaded its firmware (Table 16-16)? -/
def State.cdLoaded (s : State) (cd : Nat) : Bool :=
  let n := s.fld (Fld.BUP_CD_LOGICAL cd)
  decide (n ≠ 0) && (List.range n).all (fun i =>
    s.fld (Fld.CORE_FW_STATUS_RESULT (s.fld (Fld.BUP_CD_FIRST_LOGICAL cd) + i)) = 2)

/-- The bits that depend on more than one step are set when the last of them has ended, and the start is SETTLED when all
have. Log entry 96 applies (DEDUCED). -/
def State.settleStart (s : State) : State :=
  if s.fld Fld.BUP_STATUS_PHASE ≠ phTesting then s
  else
    let s0 := s.setFld Fld.BUP_CD_READY_CD_READY (maskOf 16 s.cdLoaded)
    let s1 := if s0.coresOk && s0.bridged && !s0.ready rdyCores then (s0.setReady rdyCores).setReady rdyRng else s0
    let s2 := if s1.ready rdyCores && s1.ready rdyHbm && s1.sidingsFree then s1.activateTimetable else s1
    let s3 := if s2.ready rdyHbm && s2.ready rdyMapStore && s2.boot.gradOk then (s2.setReady rdyGrad).showGrd else s2
    let s4 := if s3.ready rdyHbm && s3.flag Fld.HBM_SCRUB_CTRL_ENABLE then s3.setReady rdyScrub else s3
    let s5 := if s4.boot.hbmTested && s4.coresSettled then s4.setPhase phSettled else s4
    s5.showDegraded

/-! ### The start (Tables 16-2 and 16-4) -/

/-- The start stops (R436, R444): the management path still comes up (R522). -/
def State.stopStart (s : State) (st : Status) : State :=
  let s1 := (s.setFld Fld.BUP_STATUS_FAULT st.code).setPhase phStopped
  if s1.boot.badComponents.contains 4 then s1.applyPower else (s1.setReady rdyMgmt).applyPower

/-- The slots to try, in order: that which `SLOT` names, or both by rank. -/
def State.slotOrder (s : State) (sel : Nat) : List Nat :=
  if sel = 1 then [0] else if sel = 2 then [1] else if s.imageRank 1 ≤ s.imageRank 0 then [0, 1] else [1, 0]

/-- Verify slots in order: the first that passes with its signer, or the status of the last one. -/
def State.trySlots (s : State) (o : StartObs) : List Nat → Status → Status × Option (Nat × Nat)
  | [], st => (st, none)
  | x :: l, _ =>
    let r := s.verifySlot x (if x = 0 then o.structA else o.structB)
    if r.1 = .ok then (.ok, some (x, r.2)) else s.trySlots o l r.1

/-- The initial tables of the core microcode go into bank 0, which is active, and bank 1 stays empty (R156). Their generation lies
in a part of the image whose layout the spec does not give. Log entry 136 applies (DESIGN CHOICE). -/
def State.initialTables (s : State) (image : List Byte) : State :=
  s.setFld Fld.SFU_TABLE_STATUS_GEN_ACTIVE (1 + Config.firmwareGen image % 65535)

/-- The steps after an image is verified, but those that end with the firmware load and the HBM test.
Log entry 92 applies (DESIGN CHOICE). Log entry 96 applies (DEDUCED). -/
def State.runSteps (s : State) (full : Bool) (o : StartObs) (im : StructImage) : State :=
  let own := maskOf 21 (fun r => decide (nth 0 im.ownership r = 1))
  let s1 := ((((s.setPhase phTesting).applyClocks im.khz).applyHbm im).setFld Fld.SBX_OWNER_ALT_OWNER own).applySidings im.sidings
  let s2 := (s1.applyPower.withBoot { s1.boot with linksDown := o.d2dDown, gradOk := o.gradOk }).startGovernor o
  let s3 := (if s2.boot.badComponents.contains 4 then s2 else s2.setReady rdyMgmt)
  let s4 := (s3.applyFabric im.fabric).startPorts
  let s5 := (s4.startMedia im.media o.badEngines).startMapStore full o.msRows
  let s6 := (s5.quickTest o.badCores o.badMesh).startRepairs o.h1Left
  let s7 := (o.d2dDown.filter (fun l => decide (56 ≤ l))).foldl (fun a l => a.failStack (l - 56)) s6
  let s8 := if s7.boot.badComponents.contains 1 then
      ((List.range s7.cores').foldl (fun a n => (a.setFld (Fld.CORE_FW_STATUS_RESULT n) 0).setFld (Fld.CORE_STATUS_STATE n) 0) s7).withCores []
    else (s7.putBytes 0 s7.coreImage).initialTables s7.coreImage
  s8.settleStart

/-- A start that has chosen slot `slot`, whose image key `k` signed: the image is set and the steps run. -/
def State.startImage (s : State) (full : Bool) (o : StartObs) (order : List Nat) (slot k : Nat) : State :=
  let im := s.imageOf slot
  let s1 := (s.withBoot { s.boot with image := some im, signer := k }).setReady rdyImage
  let s2 := ((s1.setFld Fld.SBX_IDENT_STRUCT_FORMAT 1).setFld Fld.BUP_STATUS_STRUCT_SLOT slot).setFld
    Fld.BUP_STATUS_FALLBACK (b2n (decide (order.head? ≠ some slot)))
  s2.runSteps full o im

/-- The secure core runs a bundle: the defect map is read, then the structure slots are tried. -/
def State.startBundle (s : State) (warm full : Bool) (sel : Nat) (o : StartObs) (slot : Nat) : State :=
  let s1 := (s.setReady rdySecureBoot).setFld Fld.BUP_STATUS_BUNDLE_SLOT slot
  match s1.boot.bestCopy with
  | none => s1.stopStart .integrity
  | some (_, c) =>
    let used := c.entries.map (fun d => if warm then s1.boot.current d else d)
    let s2 := (s1.withBoot { s1.boot with
      defects := used, unwritten := if warm then s1.boot.unwritten else [], dirty := warm && s1.boot.dirty }).showDefects
    match s2.trySlots o (s2.slotOrder sel) .ok with
    | (st, none) => (s2.setPhase phImage).stopStart st
    | (_, some (i, k)) => s2.startImage full o (s2.slotOrder sel) i k

/-- The first of a start: the stop, the life cycle, the bundle the loader chooses. -/
def State.startRoot (s : State) (warm : Bool) (o : StartObs) : State :=
  let s0 := s.stopped
  let s1 := s0.withSec { s0.sec with fuses := s0.sec.fuses.sync }
  let b := if warm then (if s1.lifeCycle = 4 then none else s.boot.bundle) else s1.chooseBundle o.bundleA o.bundleB
  (s1.withBoot { s1.boot with bundle := b, badComponents := o.badComponents }).beginStart

/-- A start: `warm`, with the slot that `SLOT` names. Work has stopped and everything is reset.
Log entry 92 applies (DESIGN CHOICE). -/
def State.start (s : State) (warm : Bool) (sel : Nat) (o : StartObs) : State :=
  let cold := s.flag Fld.BUP_STATUS_COLD_DONE && warm
  let s1 := ((s.startRoot warm o).setFld Fld.BUP_STATUS_START_KIND (if !warm then 0 else if cold then 1 else 2)).setFld
    Fld.BUP_STATUS_COLD_DONE (b2n cold)
  match s1.boot.bundle with
  | none => s1
  | some x => s1.startBundle warm (!cold) sel o x.slot

/-! ### Flash commands (R448) -/

/-- Operations that burn fuses (Table 18-4). -/
def burningOps : List Nat := [0x01, 0x03, 0x04, 0x05, 0x10, 0x11, 0x12, 0x13]

/-- Has a burning command been accepted and neither it nor its warm reset ended (R481)? -/
def State.burning (s : State) : Bool := s.sec.cmd.any (fun c => burningOps.contains c.op) || s.sec.transition

/-- Write of `BUP_FLASH_CMD`; `sig` is what a VERIFY_SLOT will find of the signature. Log entry 103 applies (DEDUCED). -/
def flashCmdWrite (sig : SigVerdict) (v : Word) (s : State) : Status × State :=
  let op := wget v 63 62
  let n := wget v 57 48
  let a := wget v 39 12 * 4096
  let booted := ((s.boot.bundle.map (fun b => inBundleSlot b.slot n)).getD false)
    || ((s.boot.image.map (fun im => inStructSlot im.slot n)).getD false)
  let src := if isHbm a || isMs a then
      (if memEnd a < a + sectorSize then Status.bounds else Status.when (!s.memReady a sectorSize) .notReady)
    else .unmapped
  let st := Status.lowest [
    .when (s.lifeCycle = 4 || s.boot.flashCmd.isSome) .denied,
    .when (decide (op ≤ 1) && (booted || decide (0x380 ≤ n))) .denied,
    .when (op = 3 || (op = 2 && n ≠ 0x180 && n ≠ 0x280)) .verify,
    if op = 1 then src else .ok]
  if st ≠ .ok then (st, s)
  else
    (.ok, (s.withBoot { s.boot with flashCmd := some ⟨op, n, a, sig⟩ }).setFld Fld.BUP_FLASH_STATUS_BUSY 1)

/-- A flash command takes its effect and reports its status. Log entry 103 applies (DEDUCED). -/
def State.finishFlash (s : State) : State :=
  match s.boot.flashCmd with
  | none => s
  | some c =>
    let r : Status × State :=
      if c.op = 0 then (.ok, s.eraseSector c.sector)
      else if c.op = 1 then
        let rd := s.readMem 7 .module c.src sectorSize
        if rd.1 = .ok then (.ok, rd.2.2.writeSector c.sector rd.2.1) else (rd.1, rd.2.2)
      else ((s.verifySlot (if c.sector = 0x180 then 0 else 1) c.sig).1, s)
    let s1 : State := r.2.withBoot { r.2.boot with flashCmd := none }
    (((s1.setFld Fld.BUP_FLASH_STATUS_BUSY 0).setFld Fld.BUP_FLASH_STATUS_LAST_STATUS r.1.code).setFld
      Fld.BUP_FLASH_STATUS_LAST_OP c.op).setFld Fld.BUP_FLASH_STATUS_LAST_SECTOR c.sector

/-- The word of a flash command. -/
def flashWord (op n a : Nat) : Word := BitVec.ofNat 64 (op * 2 ^ 62 + n * 2 ^ 48 + a % 2 ^ 40)

/-- FLASH_ERASE. -/
def execFlashErase (q : Fin 4) (n : Fin 1024) (s : State) : Host.Outcome State Fault Refusal :=
  .next (s.regWrite q Reg.BUP_FLASH_CMD (flashCmdWrite .none (flashWord 0 n.val 0)))

/-- FLASH_PROGRAM: the source is `src4k` × 4 KiB. -/
def execFlashProgram (q : Fin 4) (n : Fin 1024) (src4k : BitVec 28) (s : State) : Host.Outcome State Fault Refusal :=
  .next (s.regWrite q Reg.BUP_FLASH_CMD (flashCmdWrite .none (flashWord 1 n.val (src4k.toNat * 4096))))

/-- FLASH_VERIFY_SLOT. -/
def execFlashVerifySlot (q : Fin 4) (n : Fin 1024) (sig : SigVerdict) (s : State) : Host.Outcome State Fault Refusal :=
  .next (s.regWrite q Reg.BUP_FLASH_CMD (flashCmdWrite sig (flashWord 2 n.val 0)))

/-- FLASH_COMMAND_COMPLETE: a command waits behind the module's own defect-list writes, and while a security command burns
(R448, R481). Log entry 103 applies (DEDUCED). -/
def execFlashCommandComplete (s : State) : Host.Outcome State Fault Refusal :=
  .next (if s.burning || !s.boot.unwritten.isEmpty || s.boot.dirty then s else s.finishFlash)

/-! ### Warm resets (R424, R425) -/

/-- A warm reset begins: a flash command in progress finishes first, work ends, and the warm path runs.
Log entry 92 applies (DESIGN CHOICE). Log entry 95 applies (DEDUCED). -/
def State.warmReset (s : State) (sel : Nat) (o : StartObs) : State := (s.finishFlash).start true sel o

/-- Write of `BUP_RESET`. Log entry 97 applies (DEDUCED). -/
def bupResetWrite (o : StartObs) (v : Word) (s : State) : Status × State :=
  let st := Status.lowest [.when (s.burning || s.lifeCycle = 4) .denied, .when (wget v 63 56 ≠ 0xa5 || wget v 1 0 = 3) .verify]
  if st ≠ .ok then (st, s) else (.ok, s.warmReset (wget v 1 0) o)

/-- BUP_RESET: a write of `KEY` and `SLOT`. -/
def execBupReset (q : Fin 4) (key : BitVec 8) (slot : BitVec 2) (o : StartObs) (s : State) : Host.Outcome State Fault Refusal :=
  .next (s.regWrite q Reg.BUP_RESET (bupResetWrite o (BitVec.ofNat 64 (key.toNat * 2 ^ 56 + slot.toNat))))

/-! ### Power-good and the pins (R511, R512, R515, R516) -/

/-- What a programmer left in the flash while the pins were released. Log entry 94 applies (DESIGN CHOICE). -/
def State.takeProgrammed (s : State) (l : FlashImage) : State :=
  if s.boot.flashReleased then
    l.foldl (fun a x => if x.1 < sectorCount then
        (a.withBoot { a.boot with flash := SMap.insert a.boot.flash x.1 x.2 }) else a) s
  else s

/-- A cold start: the timestamp counter restarts at zero (R9). Log entry 92 applies (DESIGN CHOICE). -/
def State.coldStart (s : State) (o : StartObs) : State :=
  ((s.withTime 0).withBoot { s.boot with powerGood := true, heldForFlash := false, flashReleased := false, bundle := none }).start
    false 0 o

/-- POWER_GOOD_RISE: RESET_N and both reference clocks are up; with FLASH_EN_N low the module stays in reset.
Log entry 93 applies (DEDUCED). -/
def execPowerGoodRise (o : StartObs) (s : State) : Host.Outcome State Fault Refusal :=
  .next (
    if s.boot.powerGood || s.boot.heldForFlash then s
    else
      let s1 := s.takeProgrammed o.programmed
      let s2 : State := s1.withBoot { s1.boot with resetN := true, sdsclk := true, flashReleased := false }
      if s2.boot.flashEnN then s2.coldStart o else s2.withBoot { s2.boot with heldForFlash := true })

/-- Everything but VCTRL stops: nothing that ran completes, and no start is in progress. A defect not yet written is lost. -/
def State.loseSupply (s : State) : State :=
  let s1 := s.stopped
  s1.withBoot { s1.boot with powerGood := false, bundle := none, defects := [], unwritten := [], dirty := false }

/-- POWER_GOOD_FALL. -/
def execPowerGoodFall (s : State) : Host.Outcome State Fault Refusal :=
  .next (if s.boot.powerGood || s.boot.heldForFlash then
    let s1 := s.loseSupply
    (s1.withBoot { s1.boot with heldForFlash := false }) else s)

/-- RESET_N_FALL: as a loss of power-good; with FLASH_EN_N low the flash pins are released. Log entry 93 applies (DEDUCED). -/
def execResetNFall (s : State) : Host.Outcome State Fault Refusal :=
  .next (
    if !s.boot.resetN then s
    else
      let s1 := s.loseSupply
      (s1.withBoot { s1.boot with resetN := false, heldForFlash := false, flashReleased := !s1.boot.flashEnN }))

/-- FLASH_EN_N_FALL: ignored but for the pin's level while RESET_N is high. -/
def execFlashEnNFall (s : State) : Host.Outcome State Fault Refusal :=
  .next (s.withBoot { s.boot with flashEnN := false, flashReleased := !s.boot.resetN || s.boot.flashReleased })

/-- FLASH_EN_N_RISE: the pins are taken back; a module held in reset for it cold-starts. Log entry 93 applies (DEDUCED). -/
def execFlashEnNRise (o : StartObs) (s : State) : Host.Outcome State Fault Refusal :=
  .next (
    let s1 := s.takeProgrammed o.programmed
    let s2 : State := s1.withBoot { s1.boot with flashEnN := true, flashReleased := false }
    if s2.boot.heldForFlash then s2.coldStart o else s2)

/-- SDSCLK_LOSS: LINK and ETH lose their lock and every fabric and host port leaves service with TIMEOUT (R517).
Log entry 105 applies (DEDUCED). -/
def execSdsclkLoss (s : State) : Host.Outcome State Fault Refusal :=
  .next (
    if !s.boot.sdsclk then s
    else
      let s1 : State := s.withBoot { s.boot with sdsclk := false }
      let s2 := (s1.setFld (Fld.SBX_DOMAIN_CLK_LOCKED 4) 0).setFld (Fld.SBX_DOMAIN_CLK_LOCKED 5) 0
      let s3 := (List.range 36).foldl (fun a p =>
        if a.portState p = psDisabled || a.portState p = psFailed then a else a.leaveService p psFailed .timeout 0) s2
      (List.range 4).foldl (fun a k => a.linkLost k) s3)

/-- SDSCLK_RETURN: both lock again at their set frequency, and the ports may train (R301, R401).
Log entry 105 applies (DEDUCED). -/
def execSdsclkReturn (s : State) : Host.Outcome State Fault Refusal :=
  .next (
    if s.boot.sdsclk then s
    else
      let s1 : State := s.withBoot { s.boot with sdsclk := true }
      if s1.fld (Fld.SBX_DOMAIN_CLK_SET_KHZ 4) = 0 then s1
      else (s1.setFld (Fld.SBX_DOMAIN_CLK_LOCKED 4) 1).setFld (Fld.SBX_DOMAIN_CLK_LOCKED 5) 1)

/-! ### The recovery area (R437) -/

/-- RECOVERY_AREA_READY: after a stop under R436 the nominal frequencies apply and the lowest 64 MiB of MS0 are wiped. A stop
for want of a defect list prepares none. Log entry 105 applies (DEDUCED). -/
def execRecoveryAreaReady (s : State) : Host.Outcome State Fault Refusal :=
  .next (
    if s.fld Fld.BUP_STATUS_PHASE ≠ phStopped || s.boot.bestCopy.isNone then s
    else ((s.applyClocks (tab 8 khzNominal)).wipe msBase recoverySize).setFld Fld.BUP_STATUS_RECOVERY 1)

/-! ### The HBM test (R427, R428) -/

/-- HBM_TEST_DONE: the phases of every stack end. On the cold path they begin when the cores have settled, rows that failed are
hidden or fail their stack, and H7 writes every codeword as zero; on the warm path the wipe alone ends. -/
def execHbmTestDone (o : HbmObs) (s : State) : Host.Outcome State Fault Refusal :=
  .next (
    let full := s.fld Fld.BUP_STATUS_START_KIND ≠ 1
    if s.fld Fld.BUP_STATUS_PHASE ≠ phTesting || s.boot.hbmTested || s.boot.badComponents.contains 5
        || (full && !s.coresSettled) then s
    else
      let s1 : State := s.withBoot { s.boot with hbmTested := true }
      let s2 := if full then (o.retest.foldl (fun a loc => a.failStack (rowStack loc)) (o.rows.foldl (fun a x => a.rowFails x) s1)) else s1
      let s3 := o.untrained.foldl (fun a st => a.failStack st) s2
      let bad := s3.fld Fld.BUP_HBM_READY_STACK_FAILED
      let s4 := ((List.range 12).filter (fun st => !bit bad st)).foldl (fun a st =>
        (a.setFld (Fld.HBM_STACK_READY st) 1).setFld (Fld.HBM_STACK_NARROW_OK st) (b2n (!o.narrowBad.contains st))) s3
      let s5 := s4.setFld Fld.BUP_HBM_READY_STACK_READY (maskOf 12 (fun st => !bit bad st))
      let s6 := if full then s5.wipe 0 hbmEnd else s5
      let s7 := if bad = 0 then
          let s8 := s6.setReady rdyHbm
          if full && s8.boot.msTested then s8.setFld Fld.BUP_STATUS_COLD_DONE 1 else s8
        else s6.setFld Fld.BUP_STATUS_FAULT Status.degraded.code
      s7.settleStart)

/-! ### Firmware load of the cores (R104 to R107) -/

/-- Segments of the core microcode, less 1. -/
def State.fwLast (s : State) : Nat := ceilDiv ((s.boot.bundle.map (·.coreLength)).getD 0) 4096 - 1

/-- Segment `seg` of the copy in the firmware area, read for the cores under class SYS, before the HBM is ready as after
(R278, R284, R285, R427). Log entry 104 applies (DEDUCED). -/
def State.fwSegment (s : State) (seg : Nat) : Status × List Byte × State :=
  let n := min 4096 ((s.boot.bundle.map (·.coreLength)).getD 0 - 4096 * seg)
  let r := s.meetRead 7 .module (4096 * seg) n
  (r.1, r.2.bytes (4096 * seg) n, r.2)

/-- Is core n loading its firmware? -/
def State.fwLoading (s : State) (n : Nat) : Bool := s.fld (Fld.CORE_FW_STATUS_RESULT n) = 1

/-- `CORE_FW_STATUS` and `CORE_FW_BITMAP` follow what core n holds. -/
def State.showFw (s : State) (n : Nat) : State :=
  let f := (s.core n).fw
  let worst := f.fails.foldl (fun m x => max m x.2) 0
  let crc := if f.segs.isEmpty then 0 else crc32c (f.segs.flatMap (·.2))
  ((((s.setFld (Fld.CORE_FW_STATUS_FW_CRC n) crc).setFld (Fld.CORE_FW_STATUS_IMAGE_ID n)
    (if f.segs.isEmpty then 0 else f.imageId)).setFld
    (Fld.CORE_FW_STATUS_PULLS n) (min 255 f.pulls)).setFld (Fld.CORE_FW_STATUS_FAILS n) worst).setFld
    (Fld.CORE_FW_BITMAP_BITMAP n) (maskOf 64 (fun i => (SMap.find f.segs i).isSome))

def State.setFw (s : State) (n : Nat) (f : FwLoad) : State := (s.setCore n { s.core n with fw := f }).showFw n

/-- FW_SEGMENT_MESSAGE: core n keeps a segment, or discards it under R104. -/
def execFwSegmentMessage (n : Fin 2048) (msg : List Byte) (s : State) : Host.Outcome State Fault Refusal :=
  .next (
    let w := leNat (msg.take 16)
    let seg := byteField w 2 1
    let cnt := byteField w 3 1
    let len := byteField w 4 4
    let data := (msg.drop 16).take len
    let bad := crc32c data ≠ byteField w 8 4 || decide (cnt < seg) || decide (63 < cnt) || len = 0 || decide (4096 < len)
      || (decide (seg < cnt) && decide (len < 4096)) || decide (data.length < len)
    if !s.fwLoading n || bad then s
    else
      let f := (s.core n).fw
      s.setFw n { f with segs := SMap.insert f.segs seg data, imageId := byteField w 0 2, segCount := cnt })

/-- Core n pulls the segments of a list; those in `missed` do not arrive in time or fail their CRC, nor does one whose words are
uncorrectable. -/
def State.pull (s : State) (n imageId : Nat) (segs missed : List Nat) : State :=
  segs.foldl (fun a seg =>
    let f := (a.core n).fw
    let f1 := { f with pulls := f.pulls + 1, segCount := a.fwLast }
    let x := a.fwSegment seg
    if missed.contains seg || x.1 ≠ .ok then x.2.2.setFw n f1
    else x.2.2.setFw n { f1 with imageId := imageId, segs := SMap.insert f1.segs seg x.2.1 }) s

/-- Segments that core n lacks. -/
def State.fwMissing (s : State) (n : Nat) : List Nat :=
  (List.range (s.fwLast + 1)).filter (fun i => (SMap.find (s.core n).fw.segs i).isNone)

/-- A failure is counted for each segment of a list; true where one has failed three times. -/
def FwLoad.fail (f : FwLoad) (segs : List Nat) : Bool × FwLoad :=
  let l := segs.foldl (fun m i => SMap.insert m i (SMap.get 0 m i + 1)) f.fails
  (l.any (fun x => decide (3 ≤ x.2)), { f with fails := l })

/-- Logical core n is given up: those above it move down by one (R106, R439). Log entry 100 applies (DEDUCED). -/
def State.removeCore (s : State) (n : Nat) : State :=
  let l := s.cores'
  let cd := s.fld (Fld.CORE_STATUS_CD n)
  let s1 := (List.range (l - 1 - n)).foldl (fun a i =>
    let k := n + i
    ((((a.setReg (Reg.CORE_STATUS k) (a.reg (Reg.CORE_STATUS (k + 1)))).setReg (Reg.CORE_FW_STATUS k)
      (a.reg (Reg.CORE_FW_STATUS (k + 1)))).setReg (Reg.CORE_FW_BITMAP k) (a.reg (Reg.CORE_FW_BITMAP (k + 1)))).setCore k
      (a.core (k + 1)))) s
  let s2 := ((((s1.setReg (Reg.CORE_STATUS (l - 1)) 0).setReg (Reg.CORE_FW_STATUS (l - 1)) 0).setReg (Reg.CORE_FW_BITMAP (l - 1))
    0).setCore (l - 1) {}).setFld Fld.BUP_STATUS_LOGICAL_CORES (l - 1)
  let s3 := (List.range 8).foldl (fun a i => a.setReg (Reg.CORE_REGION (l - 1) i) 0) s2
  let s4 := s3.showCd cd (s.fld (Fld.BUP_CD_FIRST_LOGICAL cd)) (s.fld (Fld.BUP_CD_LOGICAL cd) - 1) false
  ((List.range 16).filter (fun c => decide (cd < c) && decide (s4.fld (Fld.BUP_CD_LOGICAL c) ≠ 0))).foldl (fun a c =>
    a.setFld (Fld.BUP_CD_FIRST_LOGICAL c) (a.fld (Fld.BUP_CD_FIRST_LOGICAL c) - 1)) s4

/-- The next good core of CD `cd` that no logical core stands on. Log entry 100 applies (DEDUCED). -/
def State.spareCore (s : State) (cd : Nat) : Option Nat :=
  (s.goodCores cd).find? (fun p => !(List.range s.cores').any (fun k =>
    s.fld (Fld.CORE_STATUS_CD k) = cd && s.fld (Fld.CORE_STATUS_PHYS k) = p))

/-- Core n is DEFECTIVE: it is entered, and a spare takes its number and pulls every segment; with no spare left the CD has
one core fewer. Log entry 99 applies (DEDUCED). -/
def State.coreDefective (s : State) (n imageId : Nat) (missed : List Nat) : State :=
  let cd := s.fld (Fld.CORE_STATUS_CD n)
  let p := s.fld (Fld.CORE_STATUS_PHYS n)
  let s1 := s.setFld (Fld.CORE_FW_STATUS_RESULT n) 3
  let used := s.fld (Fld.BUP_CD_LOGICAL cd)
  match s1.spareCore cd with
  | none => (s1.coreFails 2 (cd, p)).removeCore n
  | some q =>
    let s2 := ((s1.coreFails 2 (cd, p)).setCore n {}).placeCore n cd q
    let s3 := s2.showCd cd (s.fld (Fld.BUP_CD_FIRST_LOGICAL cd)) used false
    (s3.showFw n).pull n imageId (List.range (s3.fwLast + 1)) missed

/-- Core n has every segment: it reports its CRC, which the signal box compares. A mismatch counts as a failure of every
segment, and the whole image is pulled again, by a spare after the third, if there is one; `k` bounds the rounds (R106). Log entry 104 applies
(DEDUCED). -/
def State.judgeFw (s : State) (n imageId : Nat) (missed : List Nat) : Nat → State
  | 0 => s
  | k + 1 =>
    if !s.fwLoading n || !(s.fwMissing n).isEmpty then s
    else if s.fld (Fld.CORE_FW_STATUS_FW_CRC n) = crc32c s.coreImage then
      (s.setFld (Fld.CORE_FW_STATUS_RESULT n) 2).setFld (Fld.CORE_STATUS_STATE n) 2
    else
      let all := List.range (s.fwLast + 1)
      let r := (s.core n).fw.fail all
      let s1 := s.setFw n { r.2 with segs := [] }
      let s2 := if r.1 then s1.coreDefective n imageId missed else s1.pull n imageId all missed
      if s2.cores' < s.cores' then s2 else s2.judgeFw n imageId missed k

/-- More rounds than 136 cores of a CD can take, at three failures each. -/
def fwRounds : Nat := 512

/-- FW_END_MESSAGE: core n pulls every segment that it lacks, those in `missed` without success, and reports.
Log entry 104 applies (DEDUCED). -/
def execFwEndMessage (n : Fin 2048) (imageId : Fin 65536) (missed : List Nat) (s : State) : Host.Outcome State Fault Refusal :=
  .next (
    if !s.fwLoading n then s
    else ((s.pull n imageId.val (s.fwMissing n) missed).judgeFw n imageId.val missed fwRounds).settleStart)

/-- FW_PULL_TIMEOUT: the pull of a segment has failed: pulled again, or, at its third failure, the core is DEFECTIVE; `missed`
are the pulls made now that fail in turn. Log entry 104 applies (DEDUCED). -/
def execFwPullTimeout (n : Fin 2048) (seg : Fin 64) (imageId : Fin 65536) (missed : List Nat) (s : State) :
    Host.Outcome State Fault Refusal :=
  .next (
    let f := (s.core n).fw
    if !s.fwLoading n || f.pulls = 0 || !(s.fwMissing n).contains seg.val then s
    else
      let r := f.fail [seg.val]
      let s1 := s.setFw n r.2
      let s2 := if r.1 then s1.coreDefective n imageId.val missed else s1.pull n imageId.val [seg.val] missed
      (if s2.cores' < s.cores' then s2 else s2.judgeFw n imageId.val missed fwRounds).settleStart)

end Sys2Proof.Machine
end

