-- ==== Sys2Proof/Machine/Power.lean ====
section
/-! DEFINITION. The power governor (17_power_and_cooling.md): issue level and ceiling, the burst bucket, the shelf, the coolant
loop and the thermal steps. -/

namespace Sys2Proof.Machine

/-- The step of R462. -/
def State.thermal (s : State) : Nat := s.fld Fld.PWR_STATUS_STEP

/-- ALERT_N: low while the step is HOLD or TRIP, or a start has stopped (Table 21-2). Log entry 112 applies (DEDUCED). -/
def State.alertN (s : State) : Bool := !(decide (3 ≤ s.thermal) || decide (s.fld Fld.BUP_STATUS_PHASE = phStopped))

/-! ### Thermal steps (R462, R463) -/

/-- The hottest stack, with its number. -/
def State.hbmMax (s : State) : Nat × Nat :=
  (List.range 12).foldl (fun m i => if m.1 < s.fld (Fld.HBM_STACK_TEMP_C i) then (s.fld (Fld.HBM_STACK_TEMP_C i), i) else m) (0, 0)

/-- Outlet and inlet at or above a temperature, in 0.1 °C. -/
def atLeast (r : Option Int) (t : Int) : Bool :=
  match r with
  | none => false
  | some x => decide (t ≤ x)

/-- Is the flow below `FLOW_MIN`, or does a temperature input read open or shorted? Log entry 108 applies (DEDUCED). -/
def State.flowLow (s : State) : Bool :=
  (match s.gov.flow with
    | none => false
    | some f => decide (f < s.power.flowMin)) || (s.gov.sampled && (s.gov.tIn.isNone || s.gov.tOut.isNone))

/-- Is the flow above `FLOW_MIN` + 10 %? -/
def State.flowClear (s : State) : Bool :=
  (match s.gov.flow with
    | none => true
    | some f => decide (11 * s.power.flowMin < 10 * f)) && !(s.gov.sampled && (s.gov.tIn.isNone || s.gov.tOut.isNone))

/-- Does any entry condition of a step hold (Table 17-2), with margin 0, or with temperatures a whole kelvin more than `margin`
higher, short of equality? -/
def State.stepHolds (s : State) (step margin : Nat) : Bool :=
  let p := s.power
  let die := max s.gov.cdC s.gov.mdC + margin
  let hbm := s.hbmMax.1 + margin
  let m : Int := if margin = 0 then 0 else 10 * (margin : Int) + 9
  let hot := decide (90 + 5 * step ≤ die) || decide (85 + 5 * step ≤ hbm)
  match step with
  | 1 => hot || atLeast s.gov.tOut (p.outMax - m) || atLeast s.gov.tIn (p.inletMax - m) || s.flowLow
  | 2 => hot || atLeast s.gov.tOut (p.outMax + 50 - m)
  | 3 => hot || s.heldFor s.gov.flowLowSince 10000000000 || s.heldFor s.gov.unmetSince 100000000
  | 4 => hot || s.heldFor s.gov.supplySince 1000000
  | _ => false

/-- The highest step whose entry condition holds. Log entry 108 applies (DEDUCED). -/
def State.stepNow (s : State) : Nat := ((List.range 4).map (fun i => 4 - i)).find? (fun n => s.stepHolds n 0) |>.getD 0

/-- Is every condition of the current step clear by its margin? Log entry 108 applies (DEDUCED). -/
def State.stepClear (s : State) : Bool :=
  match s.thermal with
  | 1 => !s.stepHolds 1 2 && s.flowClear
  | 2 => !s.stepHolds 2 2
  | 3 => !s.stepHolds 3 4 && s.flowClear && s.gov.unmetSince.isNone
  | 4 => !s.stepHolds 4 19 && s.gov.supplySince.isNone
  | _ => true

/-- The job that holds the cores ends without a completion and without a save (Table 17-3).
Log entry 62 applies (DEDUCED). Log entry 110 applies (DEDUCED). -/
def State.killJob (s : State) : State :=
  let s1 := s.closeCharge
  match s1.sched.run with
  | none => s1
  | some j => (s1.releaseSiding j).freeCores

/-- What entering HOLD does with the job that holds the cores: one that loads stays QUEUED, one that is restored stays SIDED, one
that runs is pre-empted. Log entry 63 applies (DEDUCED). -/
def State.holdJob (s : State) : State :=
  match s.sched.run with
  | none => s
  | some j =>
    match j.state with
    | .loading => s.unloadJob
    | .restoring =>
      let s1 := (s.closeCharge.setJob none).traceJob .sided
      s1.setQueue ({ j with state := .sided } :: s1.sched.queue)
    | .running => s.requestPreempt
    | _ => s

/-- The step changes: it is traced, an entry above NORMAL is counted and logged, and its actions begin.
Log entry 63 applies (DEDUCED). Log entry 108 applies (DEDUCED). -/
def State.enterStep (s : State) (n : Nat) : State :=
  let s0 := (s.setFld Fld.PWR_STATUS_STEP n).withGov { s.gov with clearSince := none }
  let s1 := s0.trace 3 17 .ok 0 n 0
  let s2 := if n = 0 then s1
    else (s1.bump Fld.PWR_COUNTS_STEP_ENTRIES Fld.PWR_COUNTS_STEP_SAT 1).log 17 .degraded .governor n
  let s3 := if 3 ≤ n then s2.bump Fld.PWR_COUNTS_HOLDS Fld.PWR_COUNTS_HOLD_SAT 1 else s2
  let s4 := if n = 3 && s.thermal < 3 then s3.holdJob else s3
  if n = 4 then
    ((s4.killJob.setFld Fld.PWR_STATUS_ISSUE 0).setFld Fld.PWR_PLANT_DUTY 1024).withGov { s4.gov with duty := 1024 }
  else if s.thermal = 4 then s4.withGov { s4.gov with tripExit := true }
  else s4

/-- The step follows the latest readings: raised at once, lowered by one once clear for 1 s. -/
def State.reStep (s : State) : State :=
  let n := s.stepNow
  if s.thermal < n then s.enterStep n
  else
    let c := s.sinceWhen s.gov.clearSince s.stepClear
    let s1 := s.withGov { s.gov with clearSince := c }
    if decide (0 < s.thermal) && s1.heldFor c 1000000000 then s1.enterStep (s.thermal - 1) else s1

/-! ### Issue level, ceiling and burst (R452 to R458) -/

/-- Is draw above `SUS_W` permitted: does the bucket hold more than the ramp down to `SUS_W` will take? A ramp of d watts takes
d² / (2 × `RAMP_DOWN`) mJ, which is 50 d² / `RAMP_DOWN` units of 10 µJ. Log entry 107 applies (DEDUCED). -/
def burstOk (p : PowerSec) (bucket draw : Nat) : Bool :=
  let d := draw - p.susW
  decide (0 < p.burstJ) && decide (50 * d * d < bucket * p.rampDown)

/-- The ceiling C of R454. Log entry 107 applies (DEDUCED). -/
def State.ceiling (s : State) (burst : Bool) : Nat :=
  let p := s.power
  let l := [if burst then p.burstW else p.susW, s.fld Fld.PWR_LIMIT_CAP_W]
    ++ (if s.onBattery then [p.battW] else []) ++ (if s.ready rdyTimetable then [] else [p.bringupW])
    ++ (if s.thermal = 1 then [p.susW] else [])
  l.foldl min p.burstW

/-- The highest level from 48 to 64 whose predicted draw is at most `w`; 48 where none is. Log entry 107 applies (DEDUCED). -/
def bestLevel (levels : List Nat) (w : Nat) : Nat :=
  (((List.range 17).filter (fun i => decide (nth 0 levels i ≤ w))).foldl max 0) + 48

/-- GOVERNOR_UPDATE: `draw` is what is measured, `levels` the predicted draws at I = 48 to 64.
Log entry 106 applies (DESIGN CHOICE). Log entry 107 applies (DEDUCED). -/
def execGovernorUpdate (draw : Nat) (levels : List Nat) (s : State) : Host.Outcome State Fault Refusal :=
  .next (
    if !s.ready rdyPower then s
    else
      let p := s.power
      let g := s.gov
      let full := p.burstJ * 100000
      let bucket := min (g.bucket + p.susW - draw) full
      let burst := burstOk p bucket draw
      let c := s.ceiling burst
      let unmet := decide (c < nth 0 levels 0)
      let s1 := s.withGov { g with bucket := bucket, unmetSince := s.sinceWhen g.unmetSince unmet }
      let s2 := s1.reStep
      let st := s2.thermal
      let amps := 240 * s2.fld Fld.PWR_DRAW_VIN_10MV / 100
      let room := min (min c (draw + p.rampUp / 100)) (if amps = 0 then c else amps)
      let i := if st = 4 then 0 else if st = 3 then (if s2.sched.run.isSome then 48 else 0) else if st = 2 then 48
        else bestLevel levels room
      let ready := min c g.readyCal
      let loading := s2.sched.run.any (fun j => j.state = .loading)
      let floor := if s2.onBattery then 0 else min p.floorW c
      let want := max floor (max (draw - p.rampDown / 100) (if loading then min ready (draw + p.rampUp / 100) else 0))
      let ballast := decide (st < 3) && decide (nth 0 levels (i - 48) < want)
      let s3 := ((s2.setFld Fld.PWR_STATUS_ISSUE i).setFld Fld.PWR_STATUS_BALLAST (b2n ballast)).setFld Fld.PWR_STATUS_BURST
        (b2n (decide (p.susW < c) && (decide (st = 0) || decide (st = 2))))
      (((s3.setFld Fld.PWR_STATUS_BUCKET_J (bucket / 100000)).setFld Fld.PWR_DRAW_DRAW_W draw).setFld Fld.PWR_DRAW_READY_W
        ready).setFld Fld.PWR_DRAW_CEIL_W c)

/-- SUPPLY_SAMPLE: the input voltage in 10 mV; outside 46 to 56 V for 1 ms it enters TRIP.
Log entry 106 applies (DESIGN CHOICE). -/
def execSupplySample (vin : Fin 16384) (s : State) : Host.Outcome State Fault Refusal :=
  .next (
    if !s.ready rdyPower then s
    else
      let out := decide (vin.val < 4600) || decide (5600 < vin.val)
      ((s.setFld Fld.PWR_DRAW_VIN_10MV vin.val).withGov { s.gov with supplySince := s.sinceWhen s.gov.supplySince out }).reStep)

/-! ### The coolant loop (R460, R461) -/

/-- PLANT_SAMPLE. Log entry 106 applies (DESIGN CHOICE). Log entry 108 applies (DEDUCED). -/
def execPlantSample (o : PlantObs) (s : State) : Host.Outcome State Fault Refusal :=
  .next (
    if !s.ready rdyPower then s
    else
      let flow := match o.pulses with
        | none => s.gov.flow
        | some n => some (n * 600 / s.power.pulsesPerL)
      let s1 := s.withGov { s.gov with sampled := true, tIn := o.tIn, tOut := o.tOut, flow := flow, cdC := o.cdC, mdC := o.mdC }
      let s2 := s1.withGov { s1.gov with flowLowSince := s1.sinceWhen s1.gov.flowLowSince s1.flowLow }
      let shown := fun (r : Option Int) => (r.getD 0).toNat
      let s2' := match o.pulses with
        | none => s2
        | some n => if s2.altOwner 19 then s2.trace 6 17 .ok 0 0 n else s2
      let s3 := ((s2'.setFld Fld.PWR_PLANT_T_IN (min 2047 (shown o.tIn))).setFld Fld.PWR_PLANT_T_OUT (min 2047 (shown o.tOut))).setFld
        Fld.PWR_PLANT_FLOW (min 8191 (flow.getD 0))
      let h := s3.hbmMax
      let s4 := ((((s3.setFld Fld.PWR_TEMPS_CD_MAX_C o.cdC).setFld Fld.PWR_TEMPS_CD_MAX_ID o.cdId).setFld Fld.PWR_TEMPS_HBM_MAX_C
        h.1).setFld Fld.PWR_TEMPS_HBM_MAX_ID h.2).setFld Fld.PWR_TEMPS_OTHER_MAX_C o.otherC
      s4.reStep)

/-- An integer clamped between two others. -/
def clampInt (x lo hi : Int) : Int := max lo (min x hi)

/-- The duty of R461 and its integral term, from the draw, the readings and the present duty. All is exact in units of
1 / (10 × `RHO_C` × dt × `FLOW_FULL`); a duty between two steps is rounded as a free value says.
Log entry 109 applies (DESIGN CHOICE). -/
def valveStep (p : PowerSec) (draw : Nat) (tIn tOut : Int) (duty integ10 : Nat) : Nat × Nat :=
  let dt := (max ((p.outSet : Int) - tIn) 10).toNat
  let b : Int := p.rhoC * dt * p.flowFull
  let e := tOut - (p.outSet : Int)
  let integ := clampInt (integ10 + p.ki * e) 0 10240
  let n := (draw : Int) * 6000 * 1024 * 10 + (10 * p.kp * e + integ) * b
  let n1 := clampInt n (p.valveMin * 10 * b) (1024 * 10 * b)
  let n2 := clampInt n1 ((10 * (duty : Int) - p.valveSlew) * b) ((10 * (duty : Int) + p.valveSlew) * b)
  let d := n2 / (10 * b)
  let up := if n2 % (10 * b) = 0 then false else Config.dutyUp n2 (10 * b).toNat
  (min 1024 (d + (if up then 1 else 0)).toNat, integ.toNat)

/-- Does the valve override drive the valve (R493)? -/
def State.valveOverridden (s : State) : Bool := s.flag Fld.TST_VALVE_OVR_EN && s.ready rdyPower && decide (s.thermal ≠ 4)

/-- The valve runs at the duty of the override, or at that of R461. -/
def State.driveValve (s : State) : State :=
  if !s.ready rdyPower || s.thermal = 4 then s
  else s.setFld Fld.PWR_PLANT_DUTY (if s.valveOverridden then min 1024 (s.fld Fld.TST_VALVE_OVR_DUTY) else s.gov.duty)

/-- VALVE_UPDATE. A temperature that cannot be read keeps the duty as it is. Log entry 109 applies (DESIGN CHOICE). -/
def execValveUpdate (s : State) : Host.Outcome State Fault Refusal :=
  .next (
    if !s.ready rdyPower || s.thermal = 4 then s
    else if s.valveOverridden then s.driveValve
    else
      match s.gov.tIn, s.gov.tOut with
      | some a, some b =>
        let r := valveStep s.power (s.fld Fld.PWR_DRAW_DRAW_W) a b s.gov.duty s.gov.integ10
        (s.withGov { s.gov with duty := r.1, integ10 := r.2 }).setFld Fld.PWR_PLANT_DUTY r.1
      | _, _ => s)

/-! ### The shelf (R459) -/

/-- SHELF_POLL, every 10 ms. -/
def execShelfPoll (r : Option ShelfRead) (s : State) : Host.Outcome State Fault Refusal := .next (s.readShelf r)

/-- SMBALERT: the shelf pulls SMBALERT# low, and is read within 200 µs. -/
def execSmbalert (r : Option ShelfRead) (s : State) : Host.Outcome State Fault Refusal := .next (s.readShelf r)

/-- SHELF_LOST: no valid read for 1 s. -/
def execShelfLost (s : State) : Host.Outcome State Fault Refusal :=
  .next (
    if !s.ready rdyPower || s.flag Fld.PWR_STATUS_SHELF_LOST || decide (s.time.toNat < s.gov.shelfValid + 1000000000) then s
    else s.loseShelf)

/-! ### Leaving TRIP, and the driver's ceiling -/

/-- TRIP_EXIT_RESET: on leaving TRIP the governor requests a warm reset (R423, R462); power-good holds (R515).
Log entry 110 applies (DEDUCED). -/
def execTripExitReset (o : StartObs) (s : State) : Host.Outcome State Fault Refusal :=
  .next (if s.boot.powerGood && s.gov.tripExit then s.warmReset 0 o else s)

/-- Write of `PWR_LIMIT` (R466). -/
def pwrLimitWrite (v : Word) (s : State) : Status × State :=
  if inside 1000 s.power.susW (wget v 13 0) then (.ok, s.setFld Fld.PWR_LIMIT_CAP_W (wget v 13 0)) else (.verify, s)

/-- PWR_LIMIT_WRITE. -/
def execPwrLimitWrite (q : Fin 4) (v : Word) (s : State) : Host.Outcome State Fault Refusal :=
  .next (s.regWrite q Reg.PWR_LIMIT (pwrLimitWrite v))

end Sys2Proof.Machine
end

