-- ==== Sys2Proof/Machine/Security.lean ====
section
/-! DEFINITION. The secure-boot root's commands (R467 to R485; Tables 18-3 to 18-7). A command runs in two steps: the write of
`SEC_CMD_SUBMIT` takes the record, and the row of the operation that the record names completes it. -/

namespace Sys2Proof.Machine

def State.setFuses (s : State) (f : Fuses) : State := s.withSec { s.sec with fuses := f }

/-! ### The record (R475, Table 18-3) -/

def secBytes : Nat := 448

/-- Fields of a record. -/
def secOp (w : Nat) : Nat := byteField w 1 1
def secSlot (w : Nat) : Nat := byteField w 2 1
def secSigner (w : Nat) : Nat := byteField w 3 1
def secArg (w : Nat) : Nat := byteField w 4 4
def secAddr (w : Nat) : Nat := byteField w 80 5
def secLen (w : Nat) : Nat := byteField w 88 4

/-- Signers of Table 18-3. -/
def sgFw : Nat := 0x10
def sgNone : Nat := 0xff

/-- Operations of Table 18-4. -/
def secOps : List Nat := [0x01, 0x02, 0x03, 0x04, 0x05, 0x10, 0x11, 0x12, 0x13, 0x20, 0x21, 0x30, 0x31]

/-- May `sg` sign operation `op` in life-cycle state `life`? -/
def signerOk (life op slot sg : Nat) : Bool :=
  let owner := decide (sg ≤ 3)
  if op = 0x01 || op = 0x02 || op = 0x12 || op = 0x21 then sg = sgFw
  else if op = 0x03 || op = 0x04 then owner
  else if op = 0x05 then (if life = 2 then owner else sg = sgFw)
  else if op = 0x10 then (if life = 1 then sg = sgNone else owner)
  else if op = 0x11 then owner && decide (sg ≠ slot)
  else if op = 0x20 then (if life = 2 then owner else sg = sgFw)
  else sg = sgNone

/-- Is operation `op` permitted in state `life`, with or without a certificate stored? -/
def stateOk (life op : Nat) (cert : Bool) : Bool :=
  if op = 0x01 then life = 0
  else if op = 0x02 then life = 1
  else if op = 0x03 then life = 1 && cert
  else if op = 0x04 then life = 2
  else if op = 0x05 then inside 1 3 life
  else if op = 0x10 || op = 0x13 then inside 1 2 life
  else if op = 0x11 then life = 2
  else if op = 0x12 then inside 1 3 life
  else if op = 0x20 then inside 1 3 life
  else if op = 0x21 then life = 3
  else if op = 0x30 then decide (1 ≤ life)
  else inside 1 3 life

/-- Are the fields of a record that Table 18-3 gives meanings in range, and every other byte zero? -/
def secFieldsOk (w certLen : Nat) : Bool :=
  let op := secOp w
  let slotted := op = 0x10 || op = 0x11 || op = 0x12
  let ranged := op = 0x02 || op = 0x30 || op = 0x31
  byteField w 0 1 = 1 && secOps.contains op && byteField w 212 12 = 0 && byteField w 225 31 = 0 && byteField w 388 60 = 0
    && (if slotted then decide (secSlot w ≤ 3) else secSlot w = 0)
    && (if op = 0x20 then decide (secArg w ≤ 0x1f)
        else if op = 0x21 then bits (secArg w) 15 12 = 0 && bits (secArg w) 31 28 = 0 else secArg w = 0)
    && (if op = 0x10 then true
        else if op = 0x01 then byteField w 88 124 = 0 && decide (byteField w 86 2 < 4096)
        else if ranged then byteField w 85 3 = 0 && byteField w 92 120 = 0 else byteField w 80 132 = 0)
    && (if op = 0x02 then inside 1 65536 (secLen w)
        else if op = 0x30 then decide (136 + certLen ≤ secLen w) else if op = 0x31 then secLen w = 576 else true)

/-- What the address of a record, or of the bytes that a command names, gives (R475, R476). -/
def State.secRange (s : State) (a n : Nat) : Status :=
  let rec' := inRecovery a 1
  Status.lowest [
    .when (!isHbm a && !rec') .unmapped,
    .when ((isHbm a && decide (hbmEnd < a + n)) || (rec' && !inRecovery a n)) .bounds,
    .when (isHbm a && (overlaps a n 0 fwArea || s.touchesSiding a n)) .denied,
    .when (s.touchesClass 5 a n || s.touchesClass 6 a n) .denied,
    .when (a % 64 ≠ 0) .misaligned,
    .when ((isHbm a && !s.ready rdyHbm) || (rec' && !s.flag Fld.BUP_STATUS_RECOVERY)) .notReady]

/-- Bytes that a command reads or writes at its address. -/
def State.secSpan (s : State) (w : Nat) : Nat :=
  if secOp w = 0x30 then 136 + s.boot.certLen.getD 0 else secLen w

/-- The first of two checks of a DEBUG_UNLOCK: does it name a class that the present state never opens (Table 18-6)? -/
def neverOpen (life arg : Nat) : Bool := life = 2 && (bit arg 3 || bit arg 4)

/-- The checks of R476 on a record that can be read. Log entry 113 applies (DEDUCED). -/
def State.secCheck (s : State) (w : Nat) (sigOk : Bool) : Status :=
  let life := s.lifeCycle
  let op := secOp w
  let sg := secSigner w
  let f := s.sec.fuses
  let signed := decide (sg ≠ sgNone)
  Status.lowest [
    .when (!secFieldsOk w (s.boot.certLen.getD 0)) .verify,
    .when (!signerOk life op (secSlot w) sg) .verify,
    .when (!signed && decide (byteField w 256 132 ≠ 0)) .verify,
    .when (!stateOk life op s.boot.certLen.isSome) .denied,
    .when (decide (sg ≤ 3) && !s.ownerValid sg) .denied,
    .when (op = 0x10 && f.programmed (secSlot w)) .denied,
    .when (op = 0x11 && !(List.range 4).any (fun k => decide (k ≠ secSlot w) && s.ownerValid k)) .denied,
    .when (op = 0x12 && s.boot.bundle.any (fun b => decide (b.keySlot = secSlot w))) .denied,
    .when (op = 0x20 && neverOpen life (secArg w)) .denied,
    if op = 0x02 || op = 0x30 || op = 0x31 then s.secRange (secAddr w) (s.secSpan w) else .ok,
    .when (op = 0x21 && decide (((s.boot.bestCopy.map (·.2.entries.length)).getD 0) <
      bits (secArg w) 11 0 + bits (secArg w) 27 16 + 1)) .bounds,
    .when (BitVec.ofNat 512 (byteField w 16 64) ≠ s.sec.challenge) .stale,
    .when (signed && !sigOk) .integrity,
    .when (op = 0x01 && f.idSeed = 2) .integrity,
    .when (op ≠ 0x01 && decide (byteField w 8 8 ≠ f.serial)) .mismatch]

/-! ### Submission and completion -/

/-- `BUSY`, `LAST_STATUS` and `LAST_OP` at the end of a command; a new challenge after a signed one (R477). -/
def State.secEnd (s : State) (op : Nat) (st : Status) (signed : Bool) : State :=
  let d := s.draw
  let s1 := if signed then d.2.withSec { s.sec with challenge := Config.entropy d.1 } else s
  (((s1.withSec { s1.sec with cmd := none }).showSec.setFld Fld.SEC_STATE_BUSY 0).setFld Fld.SEC_STATE_LAST_STATUS st.code).setFld
    Fld.SEC_STATE_LAST_OP op

/-- Is the signer of a record a key? Log entry 114 applies (DESIGN CHOICE). -/
def secSigned (w : Nat) : Bool := decide (secSigner w ≤ 3) || secSigner w = sgFw

/-- A command ends: its status goes into the record first. -/
def State.secFinish (s : State) (a w : Nat) (st : Status) : State :=
  ((s.writeMem 7 (a + 224) [BitVec.ofNat 8 st.code]).2).secEnd (secOp w) st (secSigned w)

/-- Write of `SEC_CMD_SUBMIT`: refused while a command runs or a transition waits for its reset; a record that cannot be read,
or names no operation, fails at once. Log entry 113 applies (DEDUCED). -/
def secSubmitWrite (v : Word) (s : State) : Status × State :=
  let a := wget v 39 6 * 64
  if s.sec.cmd.isSome || s.sec.transition then (.denied, s)
  else
    let at' := s.secRange a secBytes
    let r := if at' = .ok then s.readMem 7 .module a secBytes else (at', [], s)
    if r.1 ≠ .ok then (.ok, r.2.2.secEnd 0 r.1 false)
    else
      let w := leNat r.2.1
      if secOps.contains (secOp w) then
        (.ok, (r.2.2.withSec { s.sec with cmd := some ⟨a, secOp w⟩ }).setFld Fld.SEC_STATE_BUSY 1)
      else (.ok, r.2.2.secFinish a w (r.2.2.secCheck w true))

/-- SEC_CMD_SUBMIT. -/
def execSecCmdSubmit (q : Fin 4) (v : Word) (s : State) : Host.Outcome State Fault Refusal :=
  .next (s.regWrite q Reg.SEC_CMD_SUBMIT (secSubmitWrite v))

/-- Run the command in progress if its operation is `op`: checked, then `f` on the record, then completed. A command that
fails changes nothing but what a failed burn has burned. Log entry 113 applies (DEDUCED). -/
def State.runSec (s : State) (op : Nat) (sigOk : Bool) (f : Nat → State → Status × State) : State :=
  match s.sec.cmd with
  | none => s
  | some c =>
    if c.op ≠ op then s
    else
      let w := s.num c.addr secBytes
      let st := s.secCheck w sigOk
      let r := if st = .ok then f w s else (st, s)
      r.2.secFinish c.addr w r.1

/-! ### Burning (R468) -/

/-- Burn a value over an old one; `mask` says which bits take. True where the read-back is right.
Log entry 114 applies (DESIGN CHOICE). -/
def burnBits (old val mask : Nat) : Bool × Nat :=
  let got := old ||| (val &&& mask)
  (decide (got = (old ||| val)), got)

/-- The mask of burn i; every bit takes where none is given. -/
def maskAt (masks : List Nat) (i val : Nat) : Nat := nth val masks i

/-- Burn a life-cycle bit into both copies, the first before the second (R479). Log entry 115 applies (DEDUCED). -/
def State.burnLife (s : State) (bitNo : Nat) (masks : List Nat) (i : Nat) : Status × State :=
  let f := s.sec.fuses
  let v := 2 ^ bitNo
  let a := burnBits f.lifeA v (maskAt masks i v)
  let s1 := s.setFuses { f with lifeA := a.2 }
  if !a.1 then (.integrity, s1)
  else
    let b := burnBits f.lifeB v (maskAt masks (i + 1) v)
    (if b.1 then .ok else .integrity, s1.setFuses { f with lifeA := a.2, lifeB := b.2 })

/-- A transition: its warm reset follows (R480). -/
def State.transit (s : State) (bitNo : Nat) (masks : List Nat) (i : Nat) : Status × State :=
  let r := s.burnLife bitNo masks i
  if r.1 = .ok then (.ok, r.2.withSec { r.2.sec with transition := true }) else r

/-! ### The commands (Table 18-4). `sigOk`: the signature verifies under the signer's key; `masks`: bits that take in each burn. -/

/-- PROVISION: `SERIAL`, `MAC_BASE`, `MGMT_VLAN`, the seed unless a valid one is there, then PROVISIONED.
Log entry 115 applies (DEDUCED). -/
def provision (masks : List Nat) (seedOk : Bool) (w : Nat) (s : State) : Status × State :=
  let f := s.sec.fuses
  let v1 := byteField w 8 8
  let v2 := byteField w 80 6
  let v3 := byteField w 86 2
  let a := burnBits f.serial v1 (maskAt masks 0 v1)
  if !a.1 then (.integrity, s.setFuses { f with serial := a.2 })
  else
    let b := burnBits f.macBase v2 (maskAt masks 1 v2)
    if !b.1 then (.integrity, s.setFuses { f with serial := a.2, macBase := b.2 })
    else
      let c := burnBits f.mgmtVlan v3 (maskAt masks 2 v3)
      let f1 := { f with serial := a.2, macBase := b.2, mgmtVlan := c.2 }
      if !c.1 then (.integrity, s.setFuses f1)
      else if f.idSeed = 1 then (s.setFuses f1).transit 0 masks 3
      else if !seedOk then (.integrity, s.setFuses { f1 with idSeed := 2 })
      else (s.setFuses { f1 with idSeed := 1 }).transit 0 masks 3

/-- PROVISION. -/
def execProvision (sigOk : Bool) (masks : List Nat) (seedOk : Bool) (s : State) : Host.Outcome State Fault Refusal :=
  .next (s.runSec 0x01 sigOk (provision masks seedOk))

/-- CERT_STORE: the certificate goes to its flash sector (R474). Log entry 116 applies (DESIGN CHOICE). -/
def certStore (w : Nat) (s : State) : Status × State :=
  let r := s.readMem 7 .module (secAddr w) (secLen w)
  if r.1 ≠ .ok then (r.1, r.2.2)
  else
    let s1 := r.2.2.writeSector certSector r.2.1
    (.ok, s1.withBoot { s1.boot with certLen := some (secLen w) })

def execCertStore (sigOk : Bool) (s : State) : Host.Outcome State Fault Refusal := .next (s.runSec 0x02 sigOk certStore)

/-- ENTER_FIELD: burns FIELD. -/
def execEnterField (sigOk : Bool) (masks : List Nat) (s : State) : Host.Outcome State Fault Refusal :=
  .next (s.runSec 0x03 sigOk (fun _ t => t.transit 1 masks 0))

/-- ENTER_RETURN: both structure slots are erased, then RETURN is burned. -/
def execEnterReturn (sigOk : Bool) (masks : List Nat) (s : State) : Host.Outcome State Fault Refusal :=
  .next (s.runSec 0x04 sigOk (fun _ t => (t.eraseSectors 384 (2 * structSectors)).transit 2 masks 0))

/-- SCRAP: burns SCRAPPED; what entering the state erases follows with the warm reset. -/
def execScrap (sigOk : Bool) (masks : List Nat) (s : State) : Host.Outcome State Fault Refusal :=
  .next (s.runSec 0x05 sigOk (fun _ t => t.transit 3 masks 0))

/-- KEY_PROG: burns the payload key into an empty owner slot. Log entry 115 applies (DEDUCED). -/
def keyProg (masks : List Nat) (w : Nat) (s : State) : Status × State :=
  let f := s.sec.fuses
  let v := byteField w 80 132
  let r := burnBits 0 v (maskAt masks 0 v)
  (if r.1 then .ok else .integrity, s.setFuses { f with ownerKeys := SMap.set 0 f.ownerKeys (secSlot w) r.2 })

def execKeyProg (sigOk : Bool) (masks : List Nat) (s : State) : Host.Outcome State Fault Refusal :=
  .next (s.runSec 0x10 sigOk (keyProg masks))

/-- KEY_REVOKE: burns `OWNER_REVOKE[SLOT]`. -/
def keyRevoke (masks : List Nat) (w : Nat) (s : State) : Status × State :=
  let f := s.sec.fuses
  let v := 2 ^ secSlot w
  let r := burnBits f.ownerRevoke v (maskAt masks 0 v)
  (if r.1 then .ok else .integrity, s.setFuses { f with ownerRevoke := r.2 })

def execKeyRevoke (sigOk : Bool) (masks : List Nat) (s : State) : Host.Outcome State Fault Refusal :=
  .next (s.runSec 0x11 sigOk (keyRevoke masks))

/-- FW_REVOKE: burns `FW_REVOKE[SLOT]`. -/
def fwRevoke (masks : List Nat) (w : Nat) (s : State) : Status × State :=
  let f := s.sec.fuses
  let v := 2 ^ secSlot w
  let r := burnBits f.fwRevoke v (maskAt masks 0 v)
  (if r.1 then .ok else .integrity, s.setFuses { f with fwRevoke := r.2 })

def execFwRevoke (sigOk : Bool) (masks : List Nat) (s : State) : Host.Outcome State Fault Refusal :=
  .next (s.runSec 0x12 sigOk (fwRevoke masks))

/-- SVN_COMMIT: the thermometer `FW_SVN_MIN` rises to the running `SVN`. Log entry 115 applies (DEDUCED). -/
def svnCommit (masks : List Nat) (_w : Nat) (s : State) : Status × State :=
  let f := s.sec.fuses
  let run := (s.boot.bundle.map (·.svn)).getD 0
  let v := 2 ^ run - 1
  let r := burnBits (2 ^ f.svnMin - 1) v (maskAt masks 0 v)
  (if r.1 then .ok else .integrity, s.setFuses { f with svnMin := popCount r.2 })

def execSvnCommit (masks : List Nat) (s : State) : Host.Outcome State Fault Refusal :=
  .next (s.runSec 0x13 true (svnCommit masks))

/-- DEBUG_UNLOCK: the classes of `ARG` are open until the next start (R483). Log entry 115 applies (DEDUCED). -/
def execDebugUnlock (sigOk : Bool) (s : State) : Host.Outcome State Fault Refusal :=
  .next (s.runSec 0x20 sigOk (fun w t => (.ok, t.withSec { t.sec with unlocked := t.sec.unlocked ||| secArg w })))

/-- DEFECT_CLEAR: the gap is closed and both copies are written (R478); the removal takes effect at the next start. -/
def defectClear (w : Nat) (s : State) : Status × State :=
  match s.boot.bestCopy with
  | none => (.bounds, s)
  | some (n, c) =>
    let first := bits (secArg w) 11 0
    let cnt := bits (secArg w) 27 16 + 1
    let l := c.entries.take first ++ c.entries.drop (first + cnt)
    let b := (s.boot.setCopy (1 - n) ⟨true, c.seq + 1, l⟩).setCopy n ⟨true, c.seq + 2, l⟩
    (.ok, s.withBoot b)

def execDefectClear (sigOk : Bool) (s : State) : Host.Outcome State Fault Refusal := .next (s.runSec 0x21 sigOk defectClear)

/-- The bytes of a public key or signature, most significant first (R467). -/
def keyBytes (k : BitVec 1056) : List Byte := (leBytes 132 k.toNat).reverse

/-- The bytes of a digest. -/
def digestBytes (d : BitVec 512) : List Byte := leBytes 64 d.toNat

/-- The stored certificate. Log entry 116 applies (DESIGN CHOICE). -/
def State.certificate (s : State) : List Byte := s.flashBytes (certSector * sectorSize) (s.boot.certLen.getD 0)

/-- IDENT_READ: the public key, the certificate's length, the certificate. Log entry 115 applies (DEDUCED). -/
def identRead (w : Nat) (s : State) : Status × State :=
  let c := s.certificate
  s.writeMem 7 (secAddr w) (keyBytes (Config.identityKey s.sec.fuses.serial) ++ leBytes 4 c.length ++ c)

def execIdentRead (s : State) : Host.Outcome State Fault Refusal := .next (s.runSec 0x30 true identRead)

/-- The first 384 bytes of an attestation report (Table 18-7), with a nonce. Log entry 116 applies (DESIGN CHOICE). -/
def State.report384 (s : State) (nonce : List Byte) : List Byte :=
  let f := s.sec.fuses
  let b := s.boot.bundle
  let im := s.boot.image
  let slots := s.fld Fld.BUP_STATUS_BUNDLE_SLOT + 2 * s.fld Fld.BUP_STATUS_STRUCT_SLOT + 4 * s.fld Fld.BUP_STATUS_FALLBACK
  let bd := match b with
    | none => leBytes 64 0
    | some x => digestBytes (Config.digest (s.flashBytes (bundleBase x.slot) 3964))
  let sd := match im with
    | none => leBytes 64 0
    | some x => digestBytes (Config.digest (s.flashBytes (structBase x.slot) x.sigOffset))
  let td := if s.units.sfuActive.isEmpty then leBytes 64 0 else digestBytes (Config.digest s.units.sfuActive)
  leBytes 1 1 ++ leBytes 1 s.lifeCycle ++ leBytes 2 7 ++ leBytes 1 f.stepping ++ leBytes 1 slots
    ++ leBytes 1 ((b.map (·.svn)).getD 0) ++ leBytes 1 f.svnMin ++ leBytes 8 f.serial ++ leBytes 4 ((b.map (·.version)).getD 0)
    ++ leBytes 1 ((b.map (·.keySlot)).getD 0) ++ leBytes 1 s.boot.signer ++ leBytes 1 s.sec.unlocked ++ leBytes 1 0
    ++ leBytes 4 ((im.map (·.imageGen)).getD 0) ++ leBytes 2 s.sfuGen ++ leBytes 2 s.cores' ++ leBytes 4 s.boot.startCount
    ++ leBytes 2 (s.fld Fld.BUP_STATUS_DEFECTS) ++ leBytes 2 0 ++ leBytes 8 s.stamp ++ leBytes 16 0 ++ nonce ++ bd ++ sd ++ td
    ++ leBytes 64 0

/-- ATTEST: the report of R484, its nonce left in place. -/
def attest (w : Nat) (s : State) : Status × State :=
  let a := secAddr w
  let r := s.readMem 7 .module (a + 64) 64
  if r.1 ≠ .ok then (r.1, r.2.2)
  else
    let l := s.report384 r.2.1
    r.2.2.writeMem 7 a (l ++ keyBytes (Config.signature l) ++ leBytes 60 0)

def execAttest (s : State) : Host.Outcome State Fault Refusal := .next (s.runSec 0x31 true attest)

/-! ### The warm reset of a transition (R480, Table 18-5) -/

/-- What entering SCRAPPED erases: both structure slots and both bundle slots, and every bit of the seed is burned. -/
def State.scrapErase (s : State) : State :=
  let s1 := s.eraseSectors 0 (2 * bundleSectors + 2 * structSectors)
  s1.setFuses { s1.sec.fuses with idSeed := 2 }

/-- LIFECYCLE_WARM_RESET: 1 ms after the burn. Log entry 113 applies (DEDUCED). -/
def execLifecycleWarmReset (o : StartObs) (s : State) : Host.Outcome State Fault Refusal :=
  .next (
    if !s.sec.transition then s
    else if s.lifeCycle = 4 then (s.warmReset 0 o).scrapErase else s.warmReset 0 o)

end Sys2Proof.Machine
end

