-- ==== Sys2Proof/Machine/Test.lean ====
section
/-! DEFINITION. Perturbation, error injection, performance counters, tracing and direct access (R486 to R494; Tables 19-1 to
19-13). -/

namespace Sys2Proof.Machine

/-! ### Availability (R482, R486) -/

/-- Debug classes of Table 18-6. -/
def clsPerturb : Nat := 0
def clsInject : Nat := 1
def clsTrace : Nat := 2
def clsDirect : Nat := 3

/-- The class of the TST register at an offset (Table 19-1); none for one of no class. -/
def tstClass (a : Nat) : Option Nat :=
  if inside Reg.TST_DCQ Reg.TST_REFRESH a then some clsPerturb
  else if inside Reg.TST_INJ_CTRL Reg.TST_INJ_ADDR a then some clsInject
  else if inside Reg.TST_TRACE_CTRL Reg.TST_TRACE_STATUS a || inside (Reg.TST_TRACE_WORD 0) (Reg.TST_TRACE_WORD 131071) a then some clsTrace
  else if inside Reg.TST_VALVE_OVR Reg.TST_DIRECT_CMD a then some clsDirect
  else none

/-- Is the TST register at an offset locked: its class is not open, or the module is SCRAPPED?.
Log entry 117 applies (DEDUCED). -/
def State.tstLocked (s : State) (a : Nat) : Bool :=
  s.lifeCycle = 4 || ((tstClass a).map (fun c => !s.classOpen c)).getD false

/-- A write of a TST register: refused with DENIED where it is locked, before any other check.
Log entry 7 applies (DESIGN CHOICE). Log entry 117 applies (DEDUCED). -/
def tstWrite (a : Nat) (f : Word → State → Status × State) (v : Word) (s : State) : Status × State :=
  if s.tstLocked a then (.denied, s) else f v s

/-- A write whose fields must satisfy a check; its RW fields take the bits. -/
def checkedWrite (a : Nat) (ok : Bool) (v : Word) (s : State) : Status × State :=
  if ok then (.ok, s.putRw a v) else (.verify, s)

/-! ### Perturbation (R489): what these registers change is time alone -/

/-- Writes of `TST_DCQ`, `TST_THROTTLE`, `TST_CREDIT` and `TST_REFRESH`. -/
def tstDcqWrite : Word → State → Status × State :=
  tstWrite Reg.TST_DCQ (fun v => checkedWrite Reg.TST_DCQ (decide (wget v 10 8 ≤ 5)) v)
def tstThrottleWrite : Word → State → Status × State :=
  tstWrite Reg.TST_THROTTLE (fun v => checkedWrite Reg.TST_THROTTLE (decide (wget v 8 6 ≤ 5)) v)
def tstCreditWrite : Word → State → Status × State := tstWrite Reg.TST_CREDIT (checkedWrite Reg.TST_CREDIT true)
def tstRefreshWrite : Word → State → Status × State := tstWrite Reg.TST_REFRESH (checkedWrite Reg.TST_REFRESH true)

/-- TST_DCQ_WRITE. -/
def execTstDcqWrite (q : Fin 4) (v : Word) (s : State) : Host.Outcome State Fault Refusal :=
  .next (s.regWrite q Reg.TST_DCQ (tstDcqWrite v))

/-- TST_THROTTLE_WRITE. -/
def execTstThrottleWrite (q : Fin 4) (v : Word) (s : State) : Host.Outcome State Fault Refusal :=
  .next (s.regWrite q Reg.TST_THROTTLE (tstThrottleWrite v))

/-- TST_CREDIT_WRITE. -/
def execTstCreditWrite (q : Fin 4) (v : Word) (s : State) : Host.Outcome State Fault Refusal :=
  .next (s.regWrite q Reg.TST_CREDIT (tstCreditWrite v))

/-- TST_REFRESH_WRITE. -/
def execTstRefreshWrite (q : Fin 4) (v : Word) (s : State) : Host.Outcome State Fault Refusal :=
  .next (s.regWrite q Reg.TST_REFRESH (tstRefreshWrite v))

/-! ### Injection (R490) -/

/-- `KIND` codes of Table 19-6. -/
def injHbmCe : Nat := 1
def injHbmUe : Nat := 2
def injMsUe : Nat := 3
def injD2dCrc : Nat := 4
def injFabFec : Nat := 5
def injForceHalt : Nat := 6
def injForceRetrain : Nat := 7

/-- May an injection of this kind be armed with this unit, count and address? -/
def injOk (kind unit count addr : Nat) : Bool :=
  match kind with
  | 1 => isHbm addr && decide (addr % 64 = 0)
  | 2 => isHbm addr && decide (addr % 64 = 0)
  | 3 => isMs addr && decide (addr % 64 = 0)
  | 4 => decide (unit < 56) && decide (1 ≤ count)
  | 5 => decide (unit < 36) && inside 1 31 count
  | 6 => true
  | 7 => decide (unit < 36)
  | _ => false

/-- Write of `TST_INJ_CTRL`. Log entry 117 applies (DEDUCED). -/
def tstInjCtrlWrite : Word → State → Status × State :=
  tstWrite Reg.TST_INJ_CTRL (fun v s =>
    let arm := bit v.toNat 59
    if s.flag Fld.TST_INJ_CTRL_ARM then (.denied, s)
    else if decide (7 < wget v 63 60) || (arm && !injOk (wget v 63 60) (wget v 55 48) (wget v 47 40) (s.fld Fld.TST_INJ_ADDR_ADDR)) then
      (.verify, s)
    else
      let s1 := s.putRw Reg.TST_INJ_CTRL v
      (.ok, if arm then (s1.setFld Fld.TST_INJ_CTRL_ARM 1).withTest { s1.test with armedAt := some s.time.toNat } else s1))

/-- Write of `TST_INJ_ADDR`. -/
def tstInjAddrWrite : Word → State → Status × State :=
  tstWrite Reg.TST_INJ_ADDR (fun v s =>
    if s.flag Fld.TST_INJ_CTRL_ARM then (.denied, s) else (.ok, s.putRw Reg.TST_INJ_ADDR v))

/-- TST_INJ_ARM: a write of `TST_INJ_CTRL` with `ARM` 1. -/
def execTstInjArm (q : Fin 4) (v : Word) (s : State) : Host.Outcome State Fault Refusal :=
  .next (s.regWrite q Reg.TST_INJ_CTRL (tstInjCtrlWrite (v ||| 0x0800000000000000)))

/-- Is an injection of a kind armed, and its delay over? -/
def State.injDue (s : State) (kind : Nat) : Bool :=
  s.flag Fld.TST_INJ_CTRL_ARM && decide (s.fld Fld.TST_INJ_CTRL_KIND = kind)
    && (match s.test.armedAt with
      | none => false
      | some t => decide (t + s.fld Fld.TST_INJ_CTRL_DELAY_US * 1000 ≤ s.time.toNat))

/-- An injection that is due fires: `ARM` reads 0, its effect follows, and the firing is traced. -/
def State.fire (s : State) (kind : Nat) (f : State → State) : State :=
  if s.injDue kind then
    let s1 := f ((s.setFld Fld.TST_INJ_CTRL_ARM 0).withTest { s.test with armedAt := none })
    s1.trace 4 19 .ok (s.fld Fld.TST_INJ_CTRL_UNIT) (s.fld Fld.TST_INJ_ADDR_ADDR) 0
  else s

/-- Every bit of the data bytes that a mask names is inverted in the stored codeword `w`; where HBM is not ready there is no
codeword to invert. -/
def State.invert (s : State) (w mask : Nat) : State :=
  if s.ready rdyHbm then s.withEccMask (SMap.set 0 s.eccMask w (Nat.xor (SMap.get 0 s.eccMask w) mask)) else s

/-- INJECT_HBM_CE: bytes 0 and 1. Log entry 119 applies (DEDUCED). -/
def execInjectHbmCe (s : State) : Host.Outcome State Fault Refusal :=
  .next (s.fire injHbmCe (fun a => a.invert (s.fld Fld.TST_INJ_ADDR_ADDR / 64) 0x3))

/-- INJECT_HBM_UE: bytes 0 to 3. -/
def execInjectHbmUe (s : State) : Host.Outcome State Fault Refusal :=
  .next (s.fire injHbmUe (fun a => a.invert (s.fld Fld.TST_INJ_ADDR_ADDR / 64) 0xf))

/-- INJECT_MS_UE: the word is marked uncorrectable (R528). -/
def execInjectMsUe (s : State) : Host.Outcome State Fault Refusal :=
  .next (s.fire injMsUe (fun a =>
    let w := s.fld Fld.TST_INJ_ADDR_ADDR / 64
    if a.msBad.contains w then a else a.withMsBad (w :: a.msBad)))

/-- INJECT_D2D_CRC: the next `COUNT` flits of a link are sent with a bad CRC. Log entry 119 applies (DEDUCED). -/
def execInjectD2dCrc (s : State) : Host.Outcome State Fault Refusal :=
  .next (s.fire injD2dCrc (fun a =>
    let l := s.fld Fld.TST_INJ_CTRL_UNIT
    let m := SMap.set 0 a.boot.badFlits l (max (SMap.get 0 a.boot.badFlits l) (s.fld Fld.TST_INJ_CTRL_COUNT))
    (a.withBoot { a.boot with badFlits := m })))

/-- INJECT_FAB_FEC: the next codeword of a port leaves with `COUNT` corrupted symbols. Log entry 119 applies (DEDUCED). -/
def execInjectFabFec (s : State) : Host.Outcome State Fault Refusal :=
  .next (s.fire injFabFec (fun a => a.emit (.badSymbols (s.fld Fld.TST_INJ_CTRL_UNIT) (s.fld Fld.TST_INJ_CTRL_COUNT))))

/-- FORCE_HALT: as a write of `PREEMPT` (R388, R390). -/
def execForceHalt (s : State) : Host.Outcome State Fault Refusal :=
  .next (s.fire injForceHalt (fun a => (ttCtrlWrite 4 a).2))

/-- FORCE_RETRAIN: a port leaves service without a drain, with TIMEOUT, and is to train again (R301, R324). One that expects
no neighbour, or is out of service already, is not affected. Log entry 66 applies (DEDUCED). -/
def execForceRetrain (s : State) : Host.Outcome State Fault Refusal :=
  .next (s.fire injForceRetrain (fun a =>
    let p := s.fld Fld.TST_INJ_CTRL_UNIT
    if !a.expects p || a.portState p = psDisabled || a.portState p = psFailed then a else a.leaveService p psFailed .timeout 0))

/-! ### Performance counters (R491) -/

/-- Units of an event (Table 19-7); none for a reserved event. -/
def perfUnits (ev : Nat) : Option Nat :=
  match ev with
  | 0x00 => some 256
  | 0x01 => some 16
  | 0x02 => some 16
  | 0x03 => some 16
  | 0x04 => some 16
  | 0x05 => some 12
  | 0x06 => some 12
  | 0x07 => some 36
  | 0x08 => some 36
  | 0x09 => some 256
  | 0x0a => some 4
  | _ => none

/-- Write of `TST_PERF_SELi`: it selects an event and clears the counter. -/
def tstPerfSelWrite (i : Nat) : Word → State → Status × State :=
  tstWrite (Reg.TST_PERF_SEL i) (fun v s =>
    match perfUnits (wget v 7 0) with
    | none => (.verify, s)
    | some n => if wget v 15 8 < n then (.ok, (s.putRw (Reg.TST_PERF_SEL i) v).setReg (Reg.TST_PERF i) 0) else (.verify, s))

/-- TST_PERF_SEL_WRITE. -/
def execTstPerfSelWrite (q : Fin 4) (i : Fin 16) (v : Word) (s : State) : Host.Outcome State Fault Refusal :=
  .next (s.regWrite q (Reg.TST_PERF_SEL i) (tstPerfSelWrite i v))

/-! ### The trace buffer and eye scans (R492, R494) -/

/-- A write of 1 to `ENABLE` clears the buffer, `NEXT` and `STOPPED`. -/
def State.clearTrace (s : State) : State :=
  ((s.setFld Fld.TST_TRACE_STATUS_STOPPED 0).setFld Fld.TST_TRACE_STATUS_NEXT 0).withTest { s.test with trace := [], after := none }

/-- Resources of Table 20-11. -/
def resScanner (p : Nat) : Nat := 8 + fxOf p
def resFlash : Nat := 16
def resPmbus : Nat := 17
def resValve : Nat := 18
def resPulses : Nat := 19
def resTrace : Nat := 20

/-- Write of `TST_TRACE_CTRL`; a scan finds the points of a list, each traced, and is done.
Log entry 117 applies (DEDUCED). Log entry 118 applies (DEDUCED). -/
def tstTraceCtrlWrite (points : List Nat) : Word → State → Status × State :=
  tstWrite Reg.TST_TRACE_CTRL (fun v s =>
    let on := bit v.toNat 63
    let scan := bit v.toNat 20
    let p := wget v 31 24
    let st := Status.lowest [
      .when ((on && s.altOwner resTrace) || (on && bit v.toNat 38 && !s.altOwner resPulses)
        || (scan && decide (p < 36) && !s.altOwner (resScanner p))) .owned,
      .when (scan && decide (35 < p)) .verify]
    if st ≠ .ok then (st, s)
    else
      let s1 := s.putRw Reg.TST_TRACE_CTRL v
      let s2 := if on then s1.clearTrace else s1
      (.ok, if scan then points.foldl (fun a d => a.trace 5 19 .ok (8 * p + wget v 23 21) 0 d) s2 else s2))

/-- TST_TRACE_ENABLE: a write of `TST_TRACE_CTRL` that starts no scan. -/
def execTstTraceEnable (q : Fin 4) (v : Word) (s : State) : Host.Outcome State Fault Refusal :=
  .next (s.regWrite q Reg.TST_TRACE_CTRL (tstTraceCtrlWrite [] (v &&& 0xffffffffffefffff)))

/-- EYE_START: a write of `TST_TRACE_CTRL` with `EYE_START` 1; `points` are the eye points that the scan finds.
Log entry 118 applies (DEDUCED). -/
def execEyeStart (q : Fin 4) (v : Word) (points : List Nat) (s : State) : Host.Outcome State Fault Refusal :=
  .next (s.regWrite q Reg.TST_TRACE_CTRL (tstTraceCtrlWrite points (v ||| 0x100000)))

/-! ### Direct access (R493, R494) -/

/-- Write of `TST_VALVE_OVR`. -/
def tstValveOvrWrite : Word → State → Status × State :=
  tstWrite Reg.TST_VALVE_OVR (fun v s =>
    if bit v.toNat 63 && !s.altOwner resValve then (.owned, s) else (.ok, (s.putRw Reg.TST_VALVE_OVR v).driveValve))

/-- TST_VALVE_OVR_WRITE. -/
def execTstValveOvrWrite (q : Fin 4) (v : Word) (s : State) : Host.Outcome State Fault Refusal :=
  .next (s.regWrite q Reg.TST_VALVE_OVR (tstValveOvrWrite v))

/-- What the 64-byte buffer of a direct command says. Log entry 120 applies (DEDUCED). -/
def State.directBuf (s : State) (a : Nat) : Status :=
  if isHbm a || isMs a then (if memEnd a < a + 64 then .bounds else .when (!s.memReady a 64) .notReady) else .unmapped

/-- A direct command runs: 0 PMBUS_READ, whose answer, or none, is `shelf`; 1 PMBUS_WRITE; 2 FLASH_READ. -/
def State.direct (s : State) (op code a : Nat) (shelf : Option (List Byte)) : Status × State :=
  if op = 0 then
    let s1 := s.emit (.pmbus false code [])
    match shelf with
    | none => (.timeout, s1)
    | some l => s1.writeMem 7 a (l.take 64)
  else
    let r := s.readMem 7 .module a 64
    if r.1 ≠ .ok then (r.1, r.2.2)
    else if op = 1 then (.ok, r.2.2.emit (.pmbus true code r.2.1))
    else
      let f := leNat (r.2.1.take 4)
      if sectorCount * sectorSize < f + 64 then (.bounds, r.2.2) else r.2.2.writeMem 7 a (r.2.2.flashBytes f 64)

/-- Write of `TST_DIRECT_CMD`. Log entry 120 applies (DEDUCED). -/
def tstDirectWrite (shelf : Option (List Byte)) : Word → State → Status × State :=
  tstWrite Reg.TST_DIRECT_CMD (fun v s =>
    let op := wget v 63 62
    let a := wget v 39 0
    let st := Status.lowest [s.directBuf a,
      .when (decide (op ≠ 3) && !s.altOwner (if op = 2 then resFlash else resPmbus)) .owned, .when (op = 3) .verify]
    if st ≠ .ok then (st, s) else s.direct op (wget v 61 54) a shelf)

/-- The word of a direct command. -/
def directWord (op code : Nat) (a : BitVec 40) : Word := BitVec.ofNat 64 (op * 2 ^ 62 + code * 2 ^ 54 + a.toNat)

/-- PMBUS_READ: command `code`, the buffer at `addr`; `shelf` is what the shelf answers, if it does.
Log entry 120 applies (DEDUCED). -/
def execPmbusRead (q : Fin 4) (code : Fin 256) (addr : BitVec 40) (shelf : Option (List Byte)) (s : State) :
    Host.Outcome State Fault Refusal :=
  .next (s.regWrite q Reg.TST_DIRECT_CMD (tstDirectWrite shelf (directWord 0 code addr)))

/-- PMBUS_WRITE. Log entry 120 applies (DEDUCED). -/
def execPmbusWrite (q : Fin 4) (code : Fin 256) (addr : BitVec 40) (s : State) : Host.Outcome State Fault Refusal :=
  .next (s.regWrite q Reg.TST_DIRECT_CMD (tstDirectWrite none (directWord 1 code addr)))

/-- FLASH_READ. Log entry 120 applies (DEDUCED). -/
def execFlashRead (q : Fin 4) (addr : BitVec 40) (s : State) : Host.Outcome State Fault Refusal :=
  .next (s.regWrite q Reg.TST_DIRECT_CMD (tstDirectWrite none (directWord 2 0 addr)))

end Sys2Proof.Machine
end

