-- ==== Sys2Proof/Machine/RegAccess.lean ====
section
/-! DEFINITION. Accesses to the register window and the management path (R11 to R16, R405 to R407, R486, R495 to R504): what
a register reads as, the rule that judges a write of each, and RDMA requests on the management queue pairs. -/

namespace Sys2Proof.Machine

/-! ### What registers read as -/

/-- The word of a block's identification register (R500, Table 20-4). -/
def blockIdWord (i : Nat) : Word := BitVec.ofNat 64 (i * 2 ^ 56 + 2 ^ 48 + 7 * 2 ^ 32 + blockPrefix i)

/-- The 256-bit field map of a log entry (Table 20-7). -/
def VioEntry.word (e : VioEntry) : Nat :=
  b2n e.jobValid * 2 ^ 230 + e.tenant % 64 * 2 ^ 224 + e.jobId % 2 ^ 32 * 2 ^ 192 + e.seq % 2 ^ 32 * 2 ^ 160 + e.status.code * 2 ^ 152
    + e.kind % 256 * 2 ^ 144 + e.id % 2 ^ 16 * 2 ^ 128 + e.stamp % 2 ^ 64 * 2 ^ 64 + e.addr % 2 ^ 64

/-- Register `k` of log entry `j` of block i: the latest entry whose number is j mod 16 (R502). -/
def State.vioWord (s : State) (i j k : Nat) : Word :=
  match (s.vioLog i).entries.reverse.find? (fun e => e.seq % 16 = j) with
  | none => 0
  | some e => BitVec.ofNat 64 (bits e.word (64 * k + 63) (64 * k))

/-- `VIO_HEADi`. -/
def State.vioHead (s : State) (i : Nat) : Word :=
  let l := s.vioLog i
  BitVec.ofNat 64 (l.written.toNat * 2 ^ 32 + b2n l.dropSat * 2 ^ 31 + l.dropped * 2 ^ 16 + l.last.code * 2 ^ 8)

/-- The 256 bits of a trace record (Table 19-10). -/
def TraceRec.word (r : TraceRec) : Nat :=
  r.stamp % 2 ^ 64 + r.source % 256 * 2 ^ 64 + r.event % 256 * 2 ^ 72 + r.status.code * 2 ^ 80 + r.unit % 2 ^ 32 * 2 ^ 96
    + r.addr % 2 ^ 64 * 2 ^ 128 + r.data % 2 ^ 64 * 2 ^ 192

/-- Word n of the trace window; the buffer reads zero where nothing has been written. -/
def State.traceWord (s : State) (n : Nat) : Word :=
  match SMap.find s.test.trace (n / 4) with
  | none => 0
  | some r => BitVec.ofNat 64 (bits r.word (64 * (n % 4) + 63) (64 * (n % 4)))

/-- Contexts of core n that hold a lane group. -/
def State.activeCtxs (s : State) (n : Nat) : Nat := maskOf 16 (fun c => s.holdsGroup ⟨n, c⟩)

/-- Number of the register at an offset in its row's array. -/
def RegRow.at' (r : RegRow) (a : Nat) : Nat := if r.stride = 0 then 0 else (a - r.base) / r.stride

/-- The word that a register shows before WO fields are left out: stored, or following another part of the state. -/
def State.shown (s : State) (r : RegRow) (a : Nat) : Word :=
  let n := r.at' a
  let w := s.reg a
  if a % 2 ^ 24 = 0xfff000 then blockIdWord (a / 2 ^ 24)
  else if r.base = Reg.TT_TENANT_USED 0 then BitVec.ofNat 64 (s.usedBy n / 1000)
  else if r.base = Reg.CORE_STATUS 0 then wput w 47 32 (s.activeCtxs n)
  else if r.base = Reg.HST_PORT_STATUS 0 then
    wput w 56 48 (countUpTo 256 (fun q => s.qpState q = 1 && s.fld (Fld.HST_QP_W0_PORT q) = n))
  else if r.base = Reg.HST_QP_STATUS 0 then wput (wput w 23 19 (s.qp n).consists.length) 18 8 (s.qp n).held.length
  else if r.base = Reg.VIO_HEAD 0 then s.vioHead n
  else if r.base = RegRow.VIO_ENTRY.base then s.vioWord n ((a - r.base) % 0x1000 / 32) ((a - r.base) % 32 / 8)
  else if r.base = Reg.TST_TRACE_WORD 0 then s.traceWord n
  else w

/-- The RC fields of a register are cleared by its read (R13, R16). -/
def State.clearRc (s : State) (r : RegRow) (a : Nat) : State :=
  let m := BitVec.ofNat 64 (r.mask .rc)
  if r.base = Reg.VIO_HEAD 0 then
    s.setVio (r.at' a) { s.vioLog (r.at' a) with dropped := 0, dropSat := false }
  else if m = 0 then s else s.setReg a (s.reg a &&& ~~~m)

/-- Has a register no field that may be read, none that may be written? -/
def RegRow.noRead (r : RegRow) : Bool := r.fields.all (fun f => f.acc = .wo)
def RegRow.noWrite (r : RegRow) : Bool := r.fields.all (fun f => f.acc = .ro || f.acc = .rc)

/-- Read of the register at an offset from 0xF0_0000_0000, by a requester that may. Log entry 10 applies (DEDUCED). -/
def State.readReg (s : State) (a : Nat) : Status × Word × State :=
  match findReg a with
  | none => (.unmapped, 0, s)
  | some r =>
    if r.block = 19 && decide (s.lifeCycle = 4) then (.ok, 0, s)
    else if (r.block = 19 && s.tstLocked a) || r.noRead then (.denied, 0, s)
    else (.ok, s.shown r a &&& ~~~BitVec.ofNat 64 (r.mask .wo), s.clearRc r a)

/-! ### What judges a write -/

/-- Write of `HBM_SKEW`: a 1 clears `OVER_FLAG` (R13). -/
def hbmSkewWrite (v : Word) (s : State) : Status × State :=
  let m := BitVec.ofNat 64 (RegRow.HBM_SKEW.mask .w1c)
  (.ok, s.setReg Reg.HBM_SKEW (s.reg Reg.HBM_SKEW &&& ~~~(v &&& m)))

/-- Write of `HST_EVENT_QP`: events that are held are posted again (R417).
Log entry 11 applies (DEDUCED). Log entry 91 applies (DEDUCED). -/
def hstEventQpWrite (v : Word) (s : State) : Status × State := (.ok, (s.putRw Reg.HST_EVENT_QP v).sendHeldEvents)

/-- The rule of the register at an offset, by its block. -/
def ruleTt (a : Nat) : Word → State → Status × State :=
  if a = Reg.TT_CTRL then ttCtrlWrite
  else if a = Reg.TT_LOAD then ttLoadWrite
  else if a = Reg.TT_LIMITS then ttLimitsWrite else ttSidingCmdWrite
def ruleSfu (a : Nat) : Word → State → Status × State := if a = Reg.SFU_TABLE_LOAD then sfuTableLoadWrite else sfuCtrlWrite
def ruleKvp (a : Nat) : Word → State → Status × State :=
  if a = Reg.KVP_CTRL then kvpCtrlWrite else if a = Reg.KVP_LIMITS then kvpLimitsWrite else kvpSubmitWrite
def ruleHbm (a : Nat) : Word → State → Status × State :=
  if a = Reg.HBM_SKEW then hbmSkewWrite
  else if a = Reg.HBM_SKEW_CTRL then hbmSkewCtrlWrite
  else if a = Reg.HBM_NARROW_CTRL then hbmNarrowCtrlWrite else hbmScrubCtrlWrite
def ruleBwr (a n : Nat) : Word → State → Status × State := if a = Reg.BWR_CTRL then bwrSwap else bwrStageWrite n
def ruleFab (r : RegRow) (a n : Nat) : Word → State → Status × State :=
  if a = Reg.FAB_CTRL then fabCtrlWrite
  else if a = Reg.FAB_LIMITS then fabLimitsWrite
  else if a = Reg.FAB_TT_LOAD then fabTtLoadWrite
  else if r.base = Reg.FAB_WIN_BASE 0 then fabWinBaseWrite n
  else if r.base = Reg.FAB_WIN_SIZE 0 then fabWinSizeWrite n
  else if r.base = Reg.FAB_PORT_CTRL 0 then fabPortCtrlWrite n
  else fun v s => (.ok, s.putRw a v)
def ruleHst (r : RegRow) (a n : Nat) : Word → State → Status × State :=
  if a = Reg.HST_EVENT_QP then hstEventQpWrite
  else if r.base = Reg.HST_PORT_CFG 0 then hstPortCfgWrite n
  else if r.base = Reg.HST_PORT_GID_HI 0 then hstPortGidWrite n true
  else if r.base = Reg.HST_PORT_GID_LO 0 then hstPortGidWrite n false
  else if r.base = Reg.HST_DOORBELL 0 then doorbellWrite n
  else qpPageWrite n ((a - Reg.HST_QP_W0 0) % 64 / 8)
def ruleBup (o : WriteObs) (a : Nat) : Word → State → Status × State :=
  if a = Reg.BUP_RESET then bupResetWrite o.start else flashCmdWrite o.sig
def ruleTst (o : WriteObs) (r : RegRow) (a n : Nat) : Word → State → Status × State :=
  if a = Reg.TST_DCQ then tstDcqWrite
  else if a = Reg.TST_THROTTLE then tstThrottleWrite
  else if a = Reg.TST_CREDIT then tstCreditWrite
  else if a = Reg.TST_REFRESH then tstRefreshWrite
  else if a = Reg.TST_INJ_CTRL then tstInjCtrlWrite
  else if a = Reg.TST_INJ_ADDR then tstInjAddrWrite
  else if a = Reg.TST_TRACE_CTRL then tstTraceCtrlWrite o.points
  else if a = Reg.TST_VALVE_OVR then tstValveOvrWrite
  else if r.base = Reg.TST_PERF_SEL 0 then tstPerfSelWrite n
  else tstDirectWrite o.shelf

/-- The rule that judges a write of the register at an offset: its block's own, or that its RW fields take the bits.
Log entry 10 applies (DEDUCED). -/
def writeRule (o : WriteObs) (r : RegRow) (a : Nat) : Word → State → Status × State :=
  let n := r.at' a
  match r.block with
  | 1 => ruleTt a
  | 2 => coreLimitsWrite
  | 4 => ruleSfu a
  | 6 => ruleKvp a
  | 8 => ngeBindWrite n
  | 10 => ruleHbm a
  | 11 => ruleBwr a n
  | 12 => ruleFab r a n
  | 13 => grdOpenWrite
  | 14 => medSubmitWrite
  | 15 => ruleHst r a n
  | 16 => ruleBup o a
  | 17 => pwrLimitWrite
  | 18 => secSubmitWrite
  | 19 => ruleTst o r a n
  | _ => fun v s => (.ok, s.putRw a v)

/-- Write of the register at an offset, by a requester that may (R13, R496). Log entry 122 applies (DESIGN CHOICE). -/
def State.writeReg (s : State) (o : WriteObs) (a : Nat) (v : Word) : Status × State :=
  match findReg a with
  | none => (.unmapped, s)
  | some r => if r.noWrite then (.denied, s) else writeRule o r a v s

/-- May a requester write the register at an offset (R497, Table 20-2): a management QP or the module itself any, a data QP its
own doorbell word? Log entry 10 applies (DEDUCED). -/
def mayWrite (req : Requester) (a : Nat) : Bool :=
  match req with
  | .module => true
  | .qp n => inside (mgmtQpn 0) (mgmtQpn 3) n || (inside (dataQpn 0) (dataQpn 255) n && decide (a = Reg.HST_DOORBELL (n - dataQpn 0)))
  | _ => false

/-- Does a request of a QP reach the module at all: its QP is connected, or READY (R405, R410)? -/
def State.reaches (s : State) (req : Requester) : Bool :=
  match req with
  | .qp n => ((qpPlace n).map s.hears).getD false
  | _ => true

/-- REGISTER_WRITE: one write, of any length, at an address of the register window; its status is the lowest that applies, and
is logged where it is not OK (R11, R13, R18, R496, R497). Log entry 10 applies (DEDUCED). Log entry 122 applies (DESIGN CHOICE). -/
def execRegisterWrite (x : RegAccess) (s : State) : Host.Outcome State Fault Refusal :=
  .next (
    let a := x.addr.toNat - regBase
    if x.addr.toNat < regBase || !s.reaches x.req then s
    else
      let st := Status.lowest [.when (findReg (a / 8 * 8)).isNone .unmapped,
        .when (!mayWrite x.req (a / 8 * 8) || ((findReg (a / 8 * 8)).map RegRow.noWrite).getD false) .denied,
        .when (decide (a % 8 ≠ 0) || decide (x.len ≠ 8)) .misaligned]
      let r := if st = .ok then s.writeReg x.obs a x.data else (st, s)
      (r.2.logReg x.req a r.1).emit (.regResp r.1 0))

/-! ### The management path (R406, R407) -/

/-- Requests to the register window that are kept for duplicates. -/
def seenMax : Nat := 64

/-- The request of a management QP with a PSN, if it is one of the last 64. Log entry 11 applies (DEDUCED). -/
def State.seenBefore (s : State) (q psn : Nat) (write : Bool) : Option MgmtSeen :=
  (SMap.get [] s.host.seen q).find? (fun m => m.psn = psn && m.write = write)

/-- Keep a request to the register window. -/
def State.keepSeen (s : State) (q : Nat) (m : MgmtSeen) : State :=
  s.withHost { s.host with seen := SMap.insert s.host.seen q ((m :: SMap.get [] s.host.seen q).take seenMax) }


/-- What refuses a request to the register window whole (R406, Table 15-9). Log entry 11 applies (DEDUCED). -/
def windowStatus (va n : Nat) : Status := .when (decide (va % 8 ≠ 0) || decide (n % 8 ≠ 0) || decide (4096 < n)) .misaligned

/-- What refuses a request of a management QP to a memory; only KVP commands write the KVP region (R194, R406, R496, R497).
Log entry 11 applies (DEDUCED). -/
def State.mgmtMemStatus (s : State) (write : Bool) (va n : Nat) : Status :=
  Status.lowest [
    .when (!within va n 0 msEnd && !within va n csBase (s.cores' * csSize)) .unmapped,
    .when (within va n csBase (s.cores' * csSize) || (write && s.touchesClass classKvp va n)) .denied,
    .when (decide (2 ^ 31 < n)) .verify,
    .when ((isHbm va && !s.ready rdyHbm) || (decide (hbmEnd < va + n) && within va n 0 msEnd && !s.ready rdyMapStore
      && !(s.flag Fld.BUP_STATUS_RECOVERY && inRecovery va n))) .notReady]

/-- Little-endian words of a list of bytes. -/
def wordsLE (l : List Byte) : List Word := tab (l.length / 8) (fun i => BitVec.ofNat 64 (leNat ((l.drop (8 * i)).take 8)))

/-- Words are written one after another; a refused one is logged and not written. A reset that one begins ends the rest.
Log entry 11 applies (DEDUCED). -/
def State.writeWords (s : State) (q : Nat) (o : WriteObs) (a : Nat) : List Word → State
  | [] => s
  | v :: l =>
    if !s.mgmtConn q then s
    else
      let r := s.writeReg o a v
      (r.2.logReg (.qp (mgmtQpn q)) a r.1).writeWords q o (a + 8) l

/-- Words are read one after another; a refused one reads as zero and is logged. -/
def State.readWords (s : State) (q a : Nat) : Nat → List Word × State
  | 0 => ([], s)
  | n + 1 =>
    let r := s.readReg a
    let t := (r.2.2.logReg (.qp (mgmtQpn q)) a r.1).readWords q (a + 8) n
    (r.2.1 :: t.1, t.2)

/-- The pages of the VIO block that [a, a + n) touches. -/
def vioPages (a n : Nat) : List Nat := (List.range 21).filter (fun i => overlaps a n (Reg.VIO_HEAD i) 0x1000)

/-- Entries of the log of block i wait in its staging queue, or no longer (R504). -/
def State.beginLogRead (s : State) (i : Nat) : State := s.setVio i { s.vioLog i with reading := true }
def State.endLogRead (s : State) (i : Nat) : State := s.setVio i (s.vioLog i).endRead

/-- A read of the register window: each log that it touches is read in one state, and what arises meanwhile is staged and
written after its last word (R504). -/
def State.readWindow (s : State) (q psn a n : Nat) (arising : List (Nat × Arising)) : State :=
  let pages := vioPages a n
  let s1 := pages.foldl (fun t i => t.beginLogRead i) s
  let r := s1.readWords q a (n / 8)
  let s2 := arising.foldl (fun t x => t.log x.1 x.2.status x.2.req x.2.addr) r.2
  let s3 := pages.foldl (fun t i => t.endLogRead i) s2
  let data := r.1.flatMap (fun w => leBytes 8 w.toNat)
  (s3.keepSeen q ⟨psn, false, data⟩).emit (.readData (mgmtQpn q) psn data)

/-- MGMT_RDMA_WRITE. -/
def execMgmtRdmaWrite (q : Fin 4) (psn va : Nat) (data : List Byte) (obs : WriteObs) (s : State) : Host.Outcome State Fault Refusal :=
  .next (
    if !s.hears (256 + q) then s.dropFrame q
    else if toWindow va then
      if (s.seenBefore q psn true).isSome then s.emit (.ack (mgmtQpn q) psn)
      else
        let st := windowStatus va data.length
        if st ≠ .ok then s.nakHost (mgmtQpn q) psn va st
        else
          let s1 := s.writeWords q obs (va - regBase) (wordsLE data)
          if s1.mgmtConn q then (s1.keepSeen q ⟨psn, true, []⟩).emit (.ack (mgmtQpn q) psn) else s1
    else
      let st := s.mgmtMemStatus true va data.length
      if st ≠ .ok then s.nakHost (mgmtQpn q) psn va st
      else
        let w := s.writeMem 4 va data
        if w.1 = .ok then w.2.emit (.ack (mgmtQpn q) psn) else w.2.nakHost (mgmtQpn q) psn va w.1)

/-- What an RDMA READ on a management QP does; `arising` are the entries that arise while a log is read. -/
def State.mgmtRead (s : State) (q psn va len : Nat) (arising : List (Nat × Arising)) : State :=
  if !s.hears (256 + q) then s.dropFrame q
  else if toWindow va then
    match s.seenBefore q psn false with
    | some m => s.emit (.readData (mgmtQpn q) psn m.data)
    | none =>
      let st := windowStatus va len
      if st ≠ .ok then s.nakHost (mgmtQpn q) psn va st else s.readWindow q psn (va - regBase) len arising
  else
    let st := s.mgmtMemStatus false va len
    if st ≠ .ok then s.nakHost (mgmtQpn q) psn va st
    else
      let r := s.readMem 4 (.qp (mgmtQpn q)) va len
      if r.1 = .ok then r.2.2.emit (.readData (mgmtQpn q) psn r.2.1) else r.2.2.nakHost (mgmtQpn q) psn va r.1

/-- MGMT_RDMA_READ. -/
def execMgmtRdmaRead (q : Fin 4) (psn va len : Nat) (s : State) : Host.Outcome State Fault Refusal :=
  .next (s.mgmtRead q psn va len [])

/-- VIO_LOG_READ: a read of `words` words of page `page` from word `first`; `arising` arise in that log meanwhile. -/
def execVioLogRead (q : Fin 4) (psn : Nat) (page : Fin 21) (first words : Nat) (arising : List Arising) (s : State) :
    Host.Outcome State Fault Refusal :=
  .next (s.mgmtRead q psn (regBase + Reg.VIO_HEAD page.val + 8 * first) (8 * words) (arising.map (fun x => (page.val, x))))

end Sys2Proof.Machine
end

