-- ==== Sys2Proof/Machine/Dispatch.lean ====
section
/-! DEFINITION. The dispatch: one arm per command, each one direct call of its meaning. -/

namespace Sys2Proof.Machine

/-- The effect of a command on the state (R5): everything but the queue. -/
def exec (i : Instr) (s : State) : Host.Outcome State Fault Refusal :=
  match i with
  | .registerWrite x => Sys2Proof.Machine.execRegisterWrite x s
  | .vioLogRead q psn page first words arising => Sys2Proof.Machine.execVioLogRead q psn page first words arising s
  | .d2dFlitCrcFail l => Sys2Proof.Machine.execD2dFlitCrcFail l s
  | .d2dLinkOutOfService l => Sys2Proof.Machine.execD2dLinkOutOfService l s
  | .instrNop t h => Sys2Proof.Machine.execInstrNop t h s
  | .mma t h o => Sys2Proof.Machine.execMma t h o s
  | .mmaSlotMaximaWait t h o => Sys2Proof.Machine.execMmaSlotMaximaWait t h o s
  | .drain t h o => Sys2Proof.Machine.execDrain t h o s
  | .drainOwnerWait t h o => Sys2Proof.Machine.execDrainOwnerWait t h o s
  | .clearb t h o => Sys2Proof.Machine.execClearb t h o s
  | .xmax t h o => Sys2Proof.Machine.execXmax t h o s
  | .xmaxSlotPost t => Sys2Proof.Machine.execXmaxSlotPost t s
  | .xmerge t h o => Sys2Proof.Machine.execXmerge t h o s
  | .xmergeOwnerMerge t => Sys2Proof.Machine.execXmergeOwnerMerge t s
  | .vopAdd t h o => Sys2Proof.Machine.execVopAdd t h o s
  | .vopSub t h o => Sys2Proof.Machine.execVopSub t h o s
  | .vopMul t h o => Sys2Proof.Machine.execVopMul t h o s
  | .vopFma t h o => Sys2Proof.Machine.execVopFma t h o s
  | .vopMin t h o => Sys2Proof.Machine.execVopMin t h o s
  | .vopMax t h o => Sys2Proof.Machine.execVopMax t h o s
  | .vopCvt t h o => Sys2Proof.Machine.execVopCvt t h o s
  | .vopCmp t h o => Sys2Proof.Machine.execVopCmp t h o s
  | .vopAnd t h o => Sys2Proof.Machine.execVopAnd t h o s
  | .vopOr t h o => Sys2Proof.Machine.execVopOr t h o s
  | .vopXor t h o => Sys2Proof.Machine.execVopXor t h o s
  | .vopShl t h o => Sys2Proof.Machine.execVopShl t h o s
  | .vopShr t h o => Sys2Proof.Machine.execVopShr t h o s
  | .vopSel t h o => Sys2Proof.Machine.execVopSel t h o s
  | .vopAbs t h o => Sys2Proof.Machine.execVopAbs t h o s
  | .vopNeg t h o => Sys2Proof.Machine.execVopNeg t h o s
  | .laccClearSum t h o => Sys2Proof.Machine.execLaccClearSum t h o s
  | .laccClearProduct t h o => Sys2Proof.Machine.execLaccClearProduct t h o s
  | .laccAdd t h o => Sys2Proof.Machine.execLaccAdd t h o s
  | .laccDrain t h o => Sys2Proof.Machine.execLaccDrain t h o s
  | .sfnExp2 t h o => Sys2Proof.Machine.execSfnExp2 t h o s
  | .sfnExp t h o => Sys2Proof.Machine.execSfnExp t h o s
  | .sfnLog2 t h o => Sys2Proof.Machine.execSfnLog2 t h o s
  | .sfnLn t h o => Sys2Proof.Machine.execSfnLn t h o s
  | .sfnTanh t h o => Sys2Proof.Machine.execSfnTanh t h o s
  | .sfnSigmoid t h o => Sys2Proof.Machine.execSfnSigmoid t h o s
  | .sfnErf t h o => Sys2Proof.Machine.execSfnErf t h o s
  | .sfnRcp t h o => Sys2Proof.Machine.execSfnRcp t h o s
  | .sfnRsqrt t h o => Sys2Proof.Machine.execSfnRsqrt t h o s
  | .sfnSqrt t h o => Sys2Proof.Machine.execSfnSqrt t h o s
  | .sfnSinpi t h o => Sys2Proof.Machine.execSfnSinpi t h o s
  | .sfnCospi t h o => Sys2Proof.Machine.execSfnCospi t h o s
  | .sfnSilu t h o => Sys2Proof.Machine.execSfnSilu t h o s
  | .sfnGelu t h o => Sys2Proof.Machine.execSfnGelu t h o s
  | .sfnExp2a t h o => Sys2Proof.Machine.execSfnExp2a t h o s
  | .sfnScalb t h o => Sys2Proof.Machine.execSfnScalb t h o s
  | .sfnAnch t h o => Sys2Proof.Machine.execSfnAnch t h o s
  | .sfnHmax t h o => Sys2Proof.Machine.execSfnHmax t h o s
  | .sfnHmin t h o => Sys2Proof.Machine.execSfnHmin t h o s
  | .sfnLsave t h o => Sys2Proof.Machine.execSfnLsave t h o s
  | .sfnLmerge t h o => Sys2Proof.Machine.execSfnLmerge t h o s
  | .rngBits t h o => Sys2Proof.Machine.execRngBits t h o s
  | .rngUniform t h o => Sys2Proof.Machine.execRngUniform t h o s
  | .rngUniformOpen t h o => Sys2Proof.Machine.execRngUniformOpen t h o s
  | .rngNormalFast t h o => Sys2Proof.Machine.execRngNormalFast t h o s
  | .rngNormalPrecise t h o => Sys2Proof.Machine.execRngNormalPrecise t h o s
  | .rngSample t h o => Sys2Proof.Machine.execRngSample t h o s
  | .ld t h o => Sys2Proof.Machine.execLd t h o s
  | .st t h o => Sys2Proof.Machine.execSt t h o s
  | .move t h o => Sys2Proof.Machine.execMove t h o s
  | .semSet t h o => Sys2Proof.Machine.execSemSet t h o s
  | .semAdd t h o => Sys2Proof.Machine.execSemAdd t h o s
  | .branchAlways t h o => Sys2Proof.Machine.execBranchAlways t h o s
  | .branchLoop t h o => Sys2Proof.Machine.execBranchLoop t h o s
  | .branchNonzero t h o => Sys2Proof.Machine.execBranchNonzero t h o s
  | .branchLoadLoop t h o => Sys2Proof.Machine.execBranchLoadLoop t h o s
  | .attPass t h o => Sys2Proof.Machine.execAttPass t h o s
  | .walkBusyRetry t h o => Sys2Proof.Machine.execWalkBusyRetry t h o s
  | .attSlotPost t => Sys2Proof.Machine.execAttSlotPost t s
  | .attFinalAnchors t h => Sys2Proof.Machine.execAttFinalAnchors t h s
  | .attSend t h o => Sys2Proof.Machine.execAttSend t h o s
  | .attDrain t h o => Sys2Proof.Machine.execAttDrain t h o s
  | .winFetch t h o => Sys2Proof.Machine.execWinFetch t h o s
  | .haloGateWait t h o expired => Sys2Proof.Machine.execHaloGateWait t h o expired s
  | .winMma t h o => Sys2Proof.Machine.execWinMma t h o s
  | .winWmax t h o => Sys2Proof.Machine.execWinWmax t h o s
  | .winPool t h o => Sys2Proof.Machine.execWinPool t h o s
  | .winPut t h o => Sys2Proof.Machine.execWinPut t h o s
  | .nest t h o => Sys2Proof.Machine.execNest t h o s
  | .itemEnd t => Sys2Proof.Machine.execItemEnd t s
  | .nestComplete => Sys2Proof.Machine.execNestComplete s
  | .endInstr t h => Sys2Proof.Machine.execEnd t h s
  | .instructionComplete core index => Sys2Proof.Machine.execInstructionComplete core index s
  | .semWaitTimeout t => Sys2Proof.Machine.execSemWaitTimeout t s
  | .slotWaitTimeout t => Sys2Proof.Machine.execSlotWaitTimeout t s
  | .fwSegmentMessage n msg => Sys2Proof.Machine.execFwSegmentMessage n msg s
  | .fwEndMessage n imageId missed => Sys2Proof.Machine.execFwEndMessage n imageId missed s
  | .fwPullTimeout n seg imageId missed => Sys2Proof.Machine.execFwPullTimeout n seg imageId missed s
  | .coreLimitsWrite q v => Sys2Proof.Machine.execCoreLimitsWrite q v s
  | .sfuTableLoad q v => Sys2Proof.Machine.execSfuTableLoad q v s
  | .sfuTableLoadDone sig failed => Sys2Proof.Machine.execSfuTableLoadDone sig failed s
  | .sfuSwap q => Sys2Proof.Machine.execSfuSwap q s
  | .sfuDiscard q => Sys2Proof.Machine.execSfuDiscard q s
  | .kvpEnable q => Sys2Proof.Machine.execKvpEnable q s
  | .kvpDisable q => Sys2Proof.Machine.execKvpDisable q s
  | .kvpLimitsWrite q v => Sys2Proof.Machine.execKvpLimitsWrite q v s
  | .kvpCmdSubmit q v => Sys2Proof.Machine.execKvpCmdSubmit q v s
  | .ctxSet => Sys2Proof.Machine.execCtxSet s
  | .seqPublish => Sys2Proof.Machine.execSeqPublish s
  | .seqClear => Sys2Proof.Machine.execSeqClear s
  | .mapCmd => Sys2Proof.Machine.execMapCmd s
  | .sealPage => Sys2Proof.Machine.execSeal s
  | .movePage => Sys2Proof.Machine.execMovePage s
  | .replace => Sys2Proof.Machine.execReplace s
  | .freeCmd => Sys2Proof.Machine.execFreeCmd s
  | .stagedChangesApplyIdle => Sys2Proof.Machine.execStagedChangesApplyIdle s
  | .jobBoundary => Sys2Proof.Machine.execJobBoundary s
  | .restoreComplete => Sys2Proof.Machine.execRestoreComplete s
  | .jobTilesStart => Sys2Proof.Machine.execJobTilesStart s
  | .jobComplete => Sys2Proof.Machine.execJobComplete s
  | .ngeBind q e v => Sys2Proof.Machine.execNgeBind q e v s
  | .ngeUnbind q e v => Sys2Proof.Machine.execNgeUnbind q e v s
  | .ngePictureRun e => Sys2Proof.Machine.execNgePictureRun e s
  | .hbmRequest cls write addr len data => Sys2Proof.Machine.execHbmRequest cls write addr len data s
  | .scrubStep idx => Sys2Proof.Machine.execScrubStep idx s
  | .skewWindowEnd => Sys2Proof.Machine.execSkewWindowEnd s
  | .stackTemperatureHot stack tempC => Sys2Proof.Machine.execStackTemperatureHot stack tempC s
  | .hbmSkewCtrlWrite q v => Sys2Proof.Machine.execHbmSkewCtrlWrite q v s
  | .hbmScrubCtrlWrite q v => Sys2Proof.Machine.execHbmScrubCtrlWrite q v s
  | .hbmNarrowCtrlWrite q v => Sys2Proof.Machine.execHbmNarrowCtrlWrite q v s
  | .bwrSwap q => Sys2Proof.Machine.execBwrSwap q s
  | .bwrSwapEpoch => Sys2Proof.Machine.execBwrSwapEpoch s
  | .bwrStageWrite q p v => Sys2Proof.Machine.execBwrStageWrite q p v s
  | .msUncorrectableRead req addr len => Sys2Proof.Machine.execMsUncorrectableRead req addr len s
  | .portTrainingAttempt p o => Sys2Proof.Machine.execPortTrainingAttempt p o s
  | .trainingStepTimeout p => Sys2Proof.Machine.execTrainingStepTimeout p s
  | .retrainInterval p => Sys2Proof.Machine.execRetrainInterval p s
  | .identRecordReceived p body crc => Sys2Proof.Machine.execIdentRecordReceived p body crc s
  | .identTimeout p => Sys2Proof.Machine.execIdentTimeout p s
  | .dataFlitReceived p seq good corrected => Sys2Proof.Machine.execDataFlitReceived p seq good corrected s
  | .controlFlitReceived p ack nak credits => Sys2Proof.Machine.execControlFlitReceived p ack nak credits s
  | .controlFlitTimeout p => Sys2Proof.Machine.execControlFlitTimeout p s
  | .laneSignalLoss p => Sys2Proof.Machine.execLaneSignalLoss p s
  | .groupRebuild g late => Sys2Proof.Machine.execGroupRebuild g late s
  | .packetForward p x => Sys2Proof.Machine.execPacketForward p x s
  | .fabricWrite h data => Sys2Proof.Machine.execFabricWrite h data s
  | .fabricRead h len => Sys2Proof.Machine.execFabricRead h len s
  | .fabricPostAtt h x => Sys2Proof.Machine.execFabricPostAtt h x s
  | .fabricPostMergedInc h => Sys2Proof.Machine.execFabricPostMergedInc h s
  | .fabricAck h st data => Sys2Proof.Machine.execFabricAck h st data s
  | .fabricReadData h st data => Sys2Proof.Machine.execFabricReadData h st data s
  | .fabricError h st => Sys2Proof.Machine.execFabricError h st s
  | .remoteTimeout reqId => Sys2Proof.Machine.execRemoteTimeout reqId s
  | .fabTtLoad q v => Sys2Proof.Machine.execFabTtLoad q v s
  | .fabTtLoadDone => Sys2Proof.Machine.execFabTtLoadDone s
  | .ttSwap q => Sys2Proof.Machine.execTtSwap q s
  | .ttDiscard q => Sys2Proof.Machine.execTtDiscard q s
  | .minWidthWrite q w => Sys2Proof.Machine.execMinWidthWrite q w s
  | .fabLimitsWrite q v => Sys2Proof.Machine.execFabLimitsWrite q v s
  | .fabWinWrite q idx size v => Sys2Proof.Machine.execFabWinWrite q idx size v s
  | .portRetrain q p => Sys2Proof.Machine.execPortRetrain q p s
  | .portDisable q p => Sys2Proof.Machine.execPortDisable q p s
  | .topoDone => Sys2Proof.Machine.execTopoDone s
  | .grdOpen q v => Sys2Proof.Machine.execGrdOpen q v s
  | .grdChunkSend red dst => Sys2Proof.Machine.execGrdChunkSend red dst s
  | .grdRaw h p => Sys2Proof.Machine.execGrdRaw h p s
  | .grdPart h p => Sys2Proof.Machine.execGrdPart h p s
  | .grdSample h p => Sys2Proof.Machine.execGrdSample h p s
  | .grdGather h p => Sys2Proof.Machine.execGrdGather h p s
  | .grdStageDeadline red sec stage chunk => Sys2Proof.Machine.execGrdStageDeadline red sec stage chunk s
  | .grdTotalTimeout red => Sys2Proof.Machine.execGrdTotalTimeout red s
  | .grdResend red => Sys2Proof.Machine.execGrdResend red s
  | .grdComplete red => Sys2Proof.Machine.execGrdComplete red s
  | .medCmdSubmit q v => Sys2Proof.Machine.execMedCmdSubmit q v s
  | .medOpen => Sys2Proof.Machine.execMedOpen s
  | .medClose => Sys2Proof.Machine.execMedClose s
  | .medFlush => Sys2Proof.Machine.execMedFlush s
  | .roiSet => Sys2Proof.Machine.execRoiSet s
  | .rateSet => Sys2Proof.Machine.execRateSet s
  | .medKey => Sys2Proof.Machine.execMedKey s
  | .unitQueuePoll n => Sys2Proof.Machine.execUnitQueuePoll n s
  | .pictureStart md enc engines d e => Sys2Proof.Machine.execPictureStart md enc engines d e s
  | .pictureComplete n d e => Sys2Proof.Machine.execPictureComplete n d e s
  | .slotBoundary => Sys2Proof.Machine.execSlotBoundary s
  | .quantumExpiry => Sys2Proof.Machine.execQuantumExpiry s
  | .preempt q => Sys2Proof.Machine.execPreempt q s
  | .preemptHalted => Sys2Proof.Machine.execPreemptHalted s
  | .preemptDrained => Sys2Proof.Machine.execPreemptDrained s
  | .preemptSaved => Sys2Proof.Machine.execPreemptSaved s
  | .preemptTimeout => Sys2Proof.Machine.execPreemptTimeout s
  | .ttLoad q v => Sys2Proof.Machine.execTtLoad q v s
  | .ttLoadDone => Sys2Proof.Machine.execTtLoadDone s
  | .ttSwapRequest q => Sys2Proof.Machine.execTtSwapRequest q s
  | .ttStagedDiscard q => Sys2Proof.Machine.execTtStagedDiscard q s
  | .ttLimitsWrite q v => Sys2Proof.Machine.execTtLimitsWrite q v s
  | .sidingDetach q n => Sys2Proof.Machine.execSidingDetach q n s
  | .sidingRelease q n => Sys2Proof.Machine.execSidingRelease q n s
  | .sidingAttach q n => Sys2Proof.Machine.execSidingAttach q n s
  | .hostLinkUp k kr => Sys2Proof.Machine.execHostLinkUp k kr s
  | .hostLinkDown k => Sys2Proof.Machine.execHostLinkDown k s
  | .ethFrameReceived k f => Sys2Proof.Machine.execEthFrameReceived k f s
  | .cnpReceived n => Sys2Proof.Machine.execCnpReceived n s
  | .cmReq k service => Sys2Proof.Machine.execCmReq k service s
  | .cmDreq k => Sys2Proof.Machine.execCmDreq k s
  | .mgmtRdmaWrite q psn va data obs => Sys2Proof.Machine.execMgmtRdmaWrite q psn va data obs s
  | .mgmtRdmaRead q psn va len => Sys2Proof.Machine.execMgmtRdmaRead q psn va len s
  | .dataQpRdmaWrite n psn va rkey data => Sys2Proof.Machine.execDataQpRdmaWrite n psn va rkey data s
  | .dataQpRdmaRead n psn va rkey len => Sys2Proof.Machine.execDataQpRdmaRead n psn va rkey len s
  | .qpStateWrite q n w v => Sys2Proof.Machine.execQpStateWrite q n w v s
  | .doorbell n produced => Sys2Proof.Machine.execDoorbell n produced s
  | .consistNop n c e => Sys2Proof.Machine.execConsistNop n c e s
  | .consistCopyIn n c e => Sys2Proof.Machine.execConsistCopyIn n c e s
  | .consistCopyOut n c e => Sys2Proof.Machine.execConsistCopyOut n c e s
  | .consistCopyLocal n c e => Sys2Proof.Machine.execConsistCopyLocal n c e s
  | .consistJob n c e => Sys2Proof.Machine.execConsistJob n c e s
  | .consistComplete n c => Sys2Proof.Machine.execConsistComplete n c s
  | .qpAckTimeout n => Sys2Proof.Machine.execQpAckTimeout n s
  | .rnrRetry n => Sys2Proof.Machine.execRnrRetry n s
  | .hstPortCfgWrite q k r v => Sys2Proof.Machine.execHstPortCfgWrite q k r v s
  | .powerGoodRise o => Sys2Proof.Machine.execPowerGoodRise o s
  | .powerGoodFall => Sys2Proof.Machine.execPowerGoodFall s
  | .resetNFall => Sys2Proof.Machine.execResetNFall s
  | .flashEnNFall => Sys2Proof.Machine.execFlashEnNFall s
  | .flashEnNRise o => Sys2Proof.Machine.execFlashEnNRise o s
  | .bupReset q key slot o => Sys2Proof.Machine.execBupReset q key slot o s
  | .recoveryAreaReady => Sys2Proof.Machine.execRecoveryAreaReady s
  | .defectListWrite => Sys2Proof.Machine.execDefectListWrite s
  | .hbmTestDone o => Sys2Proof.Machine.execHbmTestDone o s
  | .flashErase q n => Sys2Proof.Machine.execFlashErase q n s
  | .flashProgram q n src4k => Sys2Proof.Machine.execFlashProgram q n src4k s
  | .flashVerifySlot q n sig => Sys2Proof.Machine.execFlashVerifySlot q n sig s
  | .flashCommandComplete => Sys2Proof.Machine.execFlashCommandComplete s
  | .sdsclkLoss => Sys2Proof.Machine.execSdsclkLoss s
  | .sdsclkReturn => Sys2Proof.Machine.execSdsclkReturn s
  | .governorUpdate draw levels => Sys2Proof.Machine.execGovernorUpdate draw levels s
  | .supplySample vin => Sys2Proof.Machine.execSupplySample vin s
  | .valveUpdate => Sys2Proof.Machine.execValveUpdate s
  | .plantSample o => Sys2Proof.Machine.execPlantSample o s
  | .shelfPoll r => Sys2Proof.Machine.execShelfPoll r s
  | .smbalert r => Sys2Proof.Machine.execSmbalert r s
  | .shelfLost => Sys2Proof.Machine.execShelfLost s
  | .tripExitReset o => Sys2Proof.Machine.execTripExitReset o s
  | .pwrLimitWrite q v => Sys2Proof.Machine.execPwrLimitWrite q v s
  | .secCmdSubmit q v => Sys2Proof.Machine.execSecCmdSubmit q v s
  | .provision sigOk masks seedOk => Sys2Proof.Machine.execProvision sigOk masks seedOk s
  | .certStore sigOk => Sys2Proof.Machine.execCertStore sigOk s
  | .enterField sigOk masks => Sys2Proof.Machine.execEnterField sigOk masks s
  | .enterReturn sigOk masks => Sys2Proof.Machine.execEnterReturn sigOk masks s
  | .scrap sigOk masks => Sys2Proof.Machine.execScrap sigOk masks s
  | .keyProg sigOk masks => Sys2Proof.Machine.execKeyProg sigOk masks s
  | .keyRevoke sigOk masks => Sys2Proof.Machine.execKeyRevoke sigOk masks s
  | .fwRevoke sigOk masks => Sys2Proof.Machine.execFwRevoke sigOk masks s
  | .svnCommit masks => Sys2Proof.Machine.execSvnCommit masks s
  | .debugUnlock sigOk => Sys2Proof.Machine.execDebugUnlock sigOk s
  | .defectClear sigOk => Sys2Proof.Machine.execDefectClear sigOk s
  | .identRead => Sys2Proof.Machine.execIdentRead s
  | .attest => Sys2Proof.Machine.execAttest s
  | .lifecycleWarmReset o => Sys2Proof.Machine.execLifecycleWarmReset o s
  | .tstDcqWrite q v => Sys2Proof.Machine.execTstDcqWrite q v s
  | .tstThrottleWrite q v => Sys2Proof.Machine.execTstThrottleWrite q v s
  | .tstCreditWrite q v => Sys2Proof.Machine.execTstCreditWrite q v s
  | .tstRefreshWrite q v => Sys2Proof.Machine.execTstRefreshWrite q v s
  | .tstInjArm q v => Sys2Proof.Machine.execTstInjArm q v s
  | .injectHbmCe => Sys2Proof.Machine.execInjectHbmCe s
  | .injectHbmUe => Sys2Proof.Machine.execInjectHbmUe s
  | .injectMsUe => Sys2Proof.Machine.execInjectMsUe s
  | .injectD2dCrc => Sys2Proof.Machine.execInjectD2dCrc s
  | .injectFabFec => Sys2Proof.Machine.execInjectFabFec s
  | .forceHalt => Sys2Proof.Machine.execForceHalt s
  | .forceRetrain => Sys2Proof.Machine.execForceRetrain s
  | .tstPerfSelWrite q idx v => Sys2Proof.Machine.execTstPerfSelWrite q idx v s
  | .tstTraceEnable q v => Sys2Proof.Machine.execTstTraceEnable q v s
  | .eyeStart q v points => Sys2Proof.Machine.execEyeStart q v points s
  | .tstValveOvrWrite q v => Sys2Proof.Machine.execTstValveOvrWrite q v s
  | .pmbusRead q code addr shelf => Sys2Proof.Machine.execPmbusRead q code addr shelf s
  | .pmbusWrite q code addr => Sys2Proof.Machine.execPmbusWrite q code addr s
  | .flashRead q addr => Sys2Proof.Machine.execFlashRead q addr s
  | .movePageCopyDone => Sys2Proof.Machine.execMovePageCopyDone s
  | .noAcceptedPortTimeout own n => Sys2Proof.Machine.execNoAcceptedPortTimeout own n s
  | .controlFlitSend p ident => Sys2Proof.Machine.execControlFlitSend p ident s
  | .roceResponse n r => Sys2Proof.Machine.execRoceResponse n r s

end Sys2Proof.Machine
end

