-- ==== Sys2Proof/Safety.lean ====
section
/-! DEFINITION. What counts as a sound state: the canonical forms that every step keeps; and the parts of the state, with what it
means that two states agree in one. -/

namespace Sys2Proof.Machine

/-- The registers' keys are `b` or more and strictly rising, and none holds its reset value. -/
def regsUp : Nat → List (Nat × Word) → Bool
  | _, [] => true
  | b, p :: l => decide (b ≤ p.1) && !decide (p.2 = regReset p.1) && regsUp (p.1 + 1) l

/-- The register file is in canonical form. -/
def State.regsOk (s : State) : Bool := regsUp 0 s.regs

/-- Memory is in canonical form: addresses strictly rising, no entry equal to what an unlisted byte reads as. -/
def State.memWf (s : State) : Bool := SMap.wf (0 : Byte) s.mem

/-- A sound state: registers and memory are in canonical form. -/
def State.Sound (s : State) : Prop := s.memWf = true ∧ s.regsOk = true

/-- The parts of the state that commands act on. -/
inductive Part where
  | time | free | regs | mem | ecc | vio | out | host | boot | gov | sec | test | cores | sched | units
  deriving DecidableEq, Repr

/-- Two states agree in a part. -/
def Part.same (p : Part) (s t : State) : Prop :=
  match p with
  | .time => t.time = s.time
  | .free => t.free = s.free
  | .regs => t.regs = s.regs
  | .mem => t.mem = s.mem
  | .ecc => t.eccMask = s.eccMask ∧ t.eccDead = s.eccDead ∧ t.msBad = s.msBad
  | .vio => t.vio = s.vio
  | .out => t.out = s.out
  | .host => t.host = s.host
  | .boot => t.boot = s.boot
  | .gov => t.gov = s.gov
  | .sec => t.sec = s.sec
  | .test => t.test = s.test
  | .cores => t.cores = s.cores
  | .sched => t.sched = s.sched
  | .units => t.units = s.units

/-- The second state differs from the first in no part but those listed, its queue is the same, and it is sound where the
first is. -/
structure Keeps (k : List Part) (s t : State) : Prop where
  same : ∀ p, k.contains p = false → p.same s t
  pending : t.pending = s.pending
  memWf : s.memWf = true → t.memWf = true
  regsOk : s.regsOk = true → t.regsOk = true

/-! ### Issue of an instruction (R82, R83, R86, R102) -/

/-- Does the instruction at a context's program counter issue, its own fields apart: the context may issue, the unit that `f`
names takes it, the word holds an opcode and no reserved bit, the semaphore of `WAIT` is not 0, and the two semaphore numbers lie
in range? -/
def State.issues (s : State) (t : Site) (h : Hdr) (f : InFlight) : Bool :=
  s.canIssue t && s.accepts t f && s.wordOk t && decide (h.wait < 64) && decide (h.signal < 64)
    && (decide (h.wait = 0) || decide (0 < s.sem t.core h.wait))

/-- The state at issue: the semaphore of `WAIT` has fallen by 1 and the context waits for none. -/
def State.issued (s : State) (t : Site) (h : Hdr) : State :=
  let s1 := if h.wait = 0 then s else s.setSem t.core h.wait (s.sem t.core h.wait - 1)
  if (s.ctx t).waiting.isNone then s1 else s1.setCtx t { s1.ctx t with waiting := none }

/-- The state once an instruction's effect is done: the program counter has passed it where `moves` is set, it is in flight
where something waits for it, and under HALT_OK the context stands at a request halt point. -/
def State.retired (s : State) (t : Site) (h : Hdr) (f : InFlight) (moves : Bool) : State :=
  let s1 := if moves then s.setCtx t (s.ctx t).advance else s
  let s2 := s1.track t.core { f with ctx := t.ctx, signal := h.signal }
  if h.haltOk then s2.haltPoint t else s2

/-- The parts of the state that a command may change; it never changes another. -/
def touches : Instr → List Part
  | .d2dFlitCrcFail .. | .flashEnNFall .. | .defectListWrite .. =>
    [.boot]
  | .cnpReceived .. | .consistNop .. =>
    [.host]
  | .stackTemperatureHot .. | .hostLinkUp .. | .hostLinkDown .. | .shelfLost .. =>
    [.regs]
  | .consistCopyIn .. =>
    [.out, .host]
  | .valveUpdate .. =>
    [.regs, .gov]
  | .controlFlitSend .. =>
    [.out, .units]
  | .sdsclkReturn .. =>
    [.regs, .boot]
  | .fwSegmentMessage .. =>
    [.regs, .cores]
  | .skewWindowEnd .. | .bwrSwapEpoch .. =>
    [.regs, .units]
  | .recoveryAreaReady .. =>
    [.regs, .mem, .ecc]
  | .shelfPoll .. | .smbalert .. =>
    [.regs, .out, .gov]
  | .injectHbmCe .. | .injectHbmUe .. | .injectMsUe .. =>
    [.regs, .ecc, .test]
  | .ethFrameReceived .. | .cmReq .. | .cmDreq .. | .qpAckTimeout .. =>
    [.regs, .out, .host]
  | .injectFabFec .. =>
    [.regs, .out, .test]
  | .injectD2dCrc .. =>
    [.regs, .boot, .test]
  | .dataFlitReceived .. =>
    [.regs, .out, .units]
  | .preemptHalted .. =>
    [.regs, .test, .sched]
  | .trainingStepTimeout .. | .retrainInterval .. | .identRecordReceived .. | .identTimeout ..
  | .controlFlitTimeout .. | .laneSignalLoss .. | .forceRetrain .. =>
    [.regs, .test, .units]
  | .portTrainingAttempt .. =>
    [.regs, .out, .test, .units]
  | .sdsclkLoss .. =>
    [.regs, .boot, .test, .units]
  | .slotBoundary .. | .quantumExpiry .. | .forceHalt .. =>
    [.regs, .test, .cores, .sched]
  | .coreLimitsWrite .. | .kvpLimitsWrite .. | .hbmSkewCtrlWrite .. | .hbmScrubCtrlWrite ..
  | .hbmNarrowCtrlWrite .. | .bwrStageWrite .. | .fabLimitsWrite .. | .fabWinWrite .. | .topoDone ..
  | .ttLimitsWrite .. | .hstPortCfgWrite .. | .pwrLimitWrite .. | .tstDcqWrite .. | .tstThrottleWrite ..
  | .tstCreditWrite .. | .tstRefreshWrite .. | .tstInjArm .. | .tstPerfSelWrite .. | .tstTraceEnable ..
  | .eyeStart .. | .tstValveOvrWrite .. =>
    [.regs, .vio, .out, .host, .test]
  | .controlFlitReceived .. =>
    [.free, .regs, .out, .test, .units]
  | .d2dLinkOutOfService .. =>
    [.regs, .boot, .test, .cores, .units]
  | .flashErase .. | .flashProgram .. | .flashVerifySlot .. =>
    [.regs, .vio, .out, .host, .boot, .test]
  | .pictureComplete .. =>
    [.free, .regs, .mem, .ecc, .boot, .units]
  | .semWaitTimeout .. | .ttLoad .. =>
    [.regs, .vio, .out, .host, .test, .sched]
  | .sfuTableLoad .. | .sfuSwap .. | .sfuDiscard .. | .bwrSwap .. | .fabTtLoad .. | .portRetrain ..
  | .portDisable .. | .medCmdSubmit .. =>
    [.regs, .vio, .out, .host, .test, .units]
  | .hbmTestDone .. =>
    [.regs, .mem, .ecc, .boot, .sched, .units]
  | .jobTilesStart .. =>
    [.regs, .mem, .ecc, .test, .cores, .sched]
  | .provision .. | .enterField .. | .enterReturn .. | .scrap .. | .keyProg .. | .keyRevoke .. | .fwRevoke ..
  | .svnCommit .. | .debugUnlock .. | .defectClear .. | .identRead .. =>
    [.free, .regs, .mem, .ecc, .boot, .sec, .units]
  | .grdStageDeadline .. | .grdTotalTimeout .. =>
    [.free, .regs, .mem, .ecc, .out, .boot, .units]
  | .groupRebuild .. | .packetForward .. =>
    [.free, .regs, .vio, .out, .host, .test, .units]
  | .preempt .. | .ttSwapRequest .. | .ttStagedDiscard .. =>
    [.regs, .vio, .out, .host, .test, .cores, .sched]
  | .grdComplete .. | .roceResponse .. =>
    [.free, .regs, .mem, .ecc, .out, .host, .boot, .units]
  | .kvpCmdSubmit .. | .ttSwap .. | .ttDiscard .. | .minWidthWrite .. =>
    [.free, .regs, .mem, .vio, .out, .host, .test, .units]
  | .remoteTimeout .. =>
    [.free, .regs, .mem, .ecc, .out, .boot, .cores, .units]
  | .slotWaitTimeout .. =>
    [.free, .regs, .vio, .out, .host, .test, .sched, .units]
  | .kvpEnable .. | .kvpDisable .. =>
    [.free, .regs, .mem, .ecc, .vio, .out, .host, .test, .units]
  | .governorUpdate .. | .supplySample .. | .plantSample .. =>
    [.regs, .vio, .out, .host, .gov, .test, .cores, .sched, .units]
  | .vioLogRead .. | .sfuTableLoadDone .. | .ctxSet .. | .seqPublish .. | .seqClear .. | .mapCmd .. | .sealPage ..
  | .movePage .. | .replace .. | .freeCmd .. | .ngeBind .. | .ngeUnbind .. | .ngePictureRun .. | .hbmRequest ..
  | .scrubStep .. | .msUncorrectableRead .. | .fabricWrite .. | .fabricRead .. | .fabricPostAtt ..
  | .fabricPostMergedInc .. | .fabTtLoadDone .. | .grdOpen .. | .grdChunkSend .. | .grdRaw .. | .grdPart ..
  | .grdSample .. | .grdGather .. | .grdResend .. | .medOpen .. | .medClose .. | .medFlush .. | .roiSet ..
  | .rateSet .. | .medKey .. | .unitQueuePoll .. | .pictureStart .. | .mgmtRdmaRead .. | .dataQpRdmaWrite ..
  | .dataQpRdmaRead .. | .qpStateWrite .. | .doorbell .. | .consistCopyOut .. | .consistCopyLocal ..
  | .consistComplete .. | .rnrRetry .. | .flashCommandComplete .. | .pmbusRead .. | .pmbusWrite .. | .flashRead ..
  | .movePageCopyDone .. =>
    [.free, .regs, .mem, .ecc, .vio, .out, .host, .boot, .test, .units]
  | .secCmdSubmit .. | .certStore .. | .attest .. =>
    [.free, .regs, .mem, .ecc, .vio, .out, .host, .boot, .sec, .test, .units]
  | .fabricAck .. | .fabricReadData .. | .fabricError .. | .noAcceptedPortTimeout .. =>
    [.free, .regs, .mem, .ecc, .vio, .out, .host, .boot, .test, .cores, .units]
  | .stagedChangesApplyIdle .. | .ttLoadDone .. =>
    [.free, .regs, .mem, .ecc, .vio, .out, .host, .boot, .test, .sched, .units]
  | .powerGoodFall .. | .resetNFall .. =>
    [.regs, .mem, .ecc, .vio, .host, .boot, .gov, .sec, .test, .cores, .sched, .units]
  | .instrNop .. | .mma .. | .mmaSlotMaximaWait .. | .drain .. | .drainOwnerWait .. | .clearb .. | .xmax ..
  | .xmaxSlotPost .. | .xmerge .. | .xmergeOwnerMerge .. | .vopAdd .. | .vopSub .. | .vopMul .. | .vopFma ..
  | .vopMin .. | .vopMax .. | .vopCvt .. | .vopCmp .. | .vopAnd .. | .vopOr .. | .vopXor .. | .vopShl ..
  | .vopShr .. | .vopSel .. | .vopAbs .. | .vopNeg .. | .laccClearSum .. | .laccClearProduct .. | .laccAdd ..
  | .laccDrain .. | .sfnExp2 .. | .sfnExp .. | .sfnLog2 .. | .sfnLn .. | .sfnTanh .. | .sfnSigmoid .. | .sfnErf ..
  | .sfnRcp .. | .sfnRsqrt .. | .sfnSqrt .. | .sfnSinpi .. | .sfnCospi .. | .sfnSilu .. | .sfnGelu ..
  | .sfnExp2a .. | .sfnScalb .. | .sfnAnch .. | .sfnHmax .. | .sfnHmin .. | .sfnLsave .. | .sfnLmerge ..
  | .rngBits .. | .rngUniform .. | .rngUniformOpen .. | .rngNormalFast .. | .rngNormalPrecise .. | .rngSample ..
  | .ld .. | .st .. | .move .. | .semSet .. | .semAdd .. | .branchAlways .. | .branchLoop .. | .branchNonzero ..
  | .branchLoadLoop .. | .attPass .. | .walkBusyRetry .. | .attSlotPost .. | .attFinalAnchors .. | .attSend ..
  | .attDrain .. | .winFetch .. | .haloGateWait .. | .winMma .. | .winWmax .. | .winPool .. | .winPut ..
  | .nest .. | .itemEnd .. | .nestComplete .. | .endInstr .. | .instructionComplete .. | .fwEndMessage ..
  | .fwPullTimeout .. | .jobBoundary .. | .restoreComplete .. | .jobComplete .. | .preemptDrained ..
  | .preemptSaved .. | .preemptTimeout .. | .sidingDetach .. | .sidingRelease .. | .sidingAttach ..
  | .consistJob .. =>
    [.free, .regs, .mem, .ecc, .vio, .out, .host, .boot, .test, .cores, .sched, .units]
  | .registerWrite .. | .mgmtRdmaWrite .. | .bupReset .. | .tripExitReset .. | .lifecycleWarmReset .. =>
    [.free, .regs, .mem, .ecc, .vio, .out, .host, .boot, .gov, .sec, .test, .cores, .sched, .units]
  | .powerGoodRise .. | .flashEnNRise .. =>
    [.time, .free, .regs, .mem, .ecc, .vio, .out, .host, .boot, .gov, .sec, .test, .cores, .sched, .units]

end Sys2Proof.Machine
end

