-- ==== Sys2Proof/Certificates/Slice0/Obligations.lean ====
section
/-! DEFINITION. The statements: what each command does where it completes, what it leaves alone, and what holds of every step. -/

section

open Sys2Proof Sys2Proof.Machine

/-! ### The machine -/

/-- With a command at the front of the queue, a step is that command's effect on the state whose queue is the rest. With an
empty queue a step is one cycle of CTRL (the model's choice, log entry 1): the timestamp counter counts by 1 modulo 2^64, the
queue stays empty, and no byte of memory, core, job, unit, fuse, pin or engine changes. -/
def Obligations.StepRunsFrontCommand : Prop :=
  (∀ (s : State) (c : Instr) (rest : List Instr), s.pending = c :: rest → step s = exec c (s.withPending rest))
  ∧ ∀ s : State, s.pending = [] → ∃ t, step s = .next t ∧ t.time = s.time + 1 ∧ t.pending = []
      ∧ (∀ a, t.byte a = s.byte a) ∧ t.cores = s.cores ∧ t.sched = s.sched ∧ t.units = s.units ∧ t.boot = s.boot
      ∧ t.gov = s.gov ∧ t.sec = s.sec ∧ t.test = s.test ∧ t.free = s.free

/-- At reset the queue is empty, the timestamp is 0, no job runs or waits, every core, unit, log and output is empty, the
governor, the host side and the test features stand at rest, the fuses are the shipped ones, and every byte of HBM, the map store
and the core stores reads 0. `SBX_IDENT` shows SK7 stepping B0 and no image, `SEC_STATE` shows PROVISIONED, and no bit of
`BUP_READY` is set. Every register outside the list of those whose reset value comes from the fuses, differs along an array or is a
default of the structure image holds the value of its Reset column. Registers and memory are in canonical form. That unread memory
is zero before the first wipe, and what the flash holds, are the model's choices (log entries 12 and 13). -/
def Obligations.ResetState : Prop :=
  State.reset.pending = [] ∧ State.reset.time = 0 ∧ State.reset.job = none ∧ State.reset.sched = {} ∧ State.reset.cores = []
  ∧ State.reset.units = {} ∧ State.reset.vio = [] ∧ State.reset.out = [] ∧ State.reset.gov = {} ∧ State.reset.host = {}
  ∧ State.reset.test = {} ∧ State.reset.sec = {} ∧ (∀ a, State.reset.byte a = 0)
  ∧ State.reset.reg Reg.SBX_IDENT = 0x0007b00000000000
  ∧ State.reset.fld Fld.SEC_STATE_LIFE_CYCLE = 1 ∧ State.reset.reg Reg.BUP_READY = 0
  ∧ (∀ a, a ∉ resetRegs.map (·.1) → State.reset.reg a = regReset a)
  ∧ State.reset.Sound

/-- From every state whose registers and memory are in canonical form (keys strictly rising, no entry equal to what an unlisted
one reads as), every step answers a next state whose registers and memory are in canonical form. So two states of a run whose
registers and bytes all read the same hold the same registers and memory. -/
def Obligations.StepKeepsSound : Prop :=
  (∀ s : State, s.Sound → ∃ t, step s = .next t ∧ t.Sound)
  ∧ ∀ s t : State, s.Sound → t.Sound → (∀ a, t.reg a = s.reg a) → (∀ a, t.byte a = s.byte a) → t.regs = s.regs ∧ t.mem = s.mem

/-- Every command answers a next state that differs only in the parts that its list names, and whose queue is the same: for a
command that stores nothing every byte of memory reads as before, for one that touches no register every register reads as
before; and only POWER_GOOD_RISE and a rise of FLASH_EN_N, which start the module cold, set the timestamp (R9). -/
def Obligations.CommandsLeaveTheRest : Prop :=
  ∀ (i : Instr) (s t : State), exec i s = .next t →
    t.pending = s.pending
    ∧ (∀ p : Part, p ∉ touches i → p.same s t)
    ∧ (Part.mem ∉ touches i → ∀ a, t.byte a = s.byte a)
    ∧ (Part.regs ∉ touches i → ∀ a, t.reg a = s.reg a)
    ∧ (t.time ≠ s.time → (∃ o, i = .powerGoodRise o) ∨ ∃ o, i = .flashEnNRise o)

/-- In a sound state, bytes written from an address are read back there and every other byte reads as before; a number is
stored little-endian, its byte 0 holding bits [7:0]; a copy leaves at each destination byte what the source byte held before
it, though the ranges overlap; a wipe leaves zeros; a register reads as the word last set and every other register reads as
before; and a field reads as the value put there, the fields beside it as before. -/
def Obligations.ReadsAfterWrites : Prop :=
  (∀ (s : State), s.memWf = true → (∀ (a : Nat) (l : List Byte) (b : Nat),
      (s.putBytes a l).byte b = if a ≤ b ∧ b < a + l.length then nth 0 l (b - a) else s.byte b)
    ∧ (∀ (a n v : Nat), (s.putNum a n v).num a n = v % 256 ^ n
        ∧ ∀ k, k < n → (s.putNum a n v).byte (a + k) = BitVec.ofNat 8 (bits v (8 * k + 7) (8 * k)))
    ∧ (∀ (src dst n b : Nat), (s.copyBytes src dst n).byte b
        = if dst ≤ b ∧ b < dst + n then s.byte (b - dst + src) else s.byte b)
    ∧ ∀ (a n b : Nat), (s.zeroBytes a n).byte b = if a ≤ b ∧ b < a + n then 0 else s.byte b)
  ∧ ∀ (s : State), s.regsOk = true → (∀ (r : Nat) (w : Word) (q : Nat), (s.setReg r w).reg q = if q = r then w else s.reg q)
    ∧ ∀ (f g : Field) (x : Nat), f.lo ≤ f.hi → f.hi < 64 → g.hi < 64 →
        (s.setFld f x).fld f = x % 2 ^ (f.hi + 1 - f.lo)
        ∧ (g.reg ≠ f.reg ∨ f.hi < g.lo ∨ g.hi < f.lo → (s.setFld f x).fld g = s.fld g)

/-- Whatever a step does, a fuse bit that reads 1 reads 1 after it: both copies of the life cycle, the revocations of firmware
and owner keys, the serial number, the MAC address and the management VLAN keep every bit they have; the security version does
not fall; the stepping and the fallback power stay; an owner key, once programmed, stays as it is; and a seed once burned keeps
its verdict. -/
def Obligations.FusesOnlyGainBits : Prop :=
  ∀ s t : State, step s = .next t →
    let f := s.sec.fuses
    let g := t.sec.fuses
    let keeps := fun (a b : Nat) => ∀ i, bit a i = true → bit b i = true
    keeps f.lifeA g.lifeA ∧ keeps f.lifeB g.lifeB ∧ keeps f.fwRevoke g.fwRevoke ∧ keeps f.ownerRevoke g.ownerRevoke
    ∧ keeps f.serial g.serial ∧ keeps f.macBase g.macBase ∧ keeps f.mgmtVlan g.mgmtVlan ∧ (f.svnMin ≤ 63 → f.svnMin ≤ g.svnMin)
    ∧ g.stepping = f.stepping ∧ g.fallbackW = f.fallbackW
    ∧ (∀ k, f.programmed k = true → g.ownerKey k = f.ownerKey k) ∧ (f.idSeed = 1 ∨ f.idSeed = 2 → g.idSeed = f.idSeed)

/-! ### Words and exact sums -/

/-- For every instruction of the core and every header, with every field within its width: its word has 128 bits, and reading
that word gives the instruction, the header and no reserved bit set. -/
def Obligations.CoreInstructionRoundTrip : Prop :=
  ∀ (i : CoreInsn) (h : Hdr), i.inWidth = true → h.inWidth = true →
    i.toWord h < 2 ^ 128 ∧ CoreInsn.ofWord (i.toWord h) = some i ∧ Hdr.ofWord (i.toWord h) = h
    ∧ reservedBits (bits (i.toWord h) 127 122) (i.toWord h) = 0

/-- The block scale of every MX format is a byte c. For c of 0 to 254, each element of the block is its own value times
2^(c − 127): a finite value keeps its sign and its integer and its power of two moves by c − 127, and an infinity or a NaN
stays. For 0xFF every element is a NaN, whatever its bits hold. -/
def Obligations.BlockScales : Prop :=
  ∀ (s : State) (core i j : Nat) (p : MatOp), isMX p.fmt = true →
    let c := (s.byte (csAddr core (p.scaleOff i + j))).toNat
    let w := s.num (csAddr core (p.rowOff i + j * blockBytes p.fmt)) (blockBytes p.fmt)
    let count := min 32 (p.k - 32 * j)
    (s.blockVals core p i j).length = count
    ∧ (c = 255 → ∀ x ∈ s.blockVals core p i j, x = .nan)
    ∧ (c ≤ 254 → ∀ e, e < count → (s.blockVals core p i j)[e]? = some (match decodeElem p.fmt (elemAt p.fmt w e) with
        | .fin neg m x => .fin neg m (x + ((c : Int) - 127))
        | y => y))

/-- An entry is empty when its COUNT is 0 and its special flags are clear. An empty entry merges into any entry and leaves it
unchanged. An empty receiving entry becomes the entry merged into it, anchor and all. Two entries that are not empty and whose
anchors differ are refused with VERIFY. Two that share an anchor give WINDOW where the COUNTs together exceed 2^31; otherwise
VALUEs add in 192 bits, exactly wherever the sum fits, which it does where each holds no more than COUNT contributions below 2^160;
COUNTs add, CUTs add and saturate at 2, and the flags are ORed. An entry that was cleared is empty and holds VALUE 0 at its
anchor. -/
def Obligations.PartialEntriesMerge : Prop :=
  ∀ x y : WideEntry,
    (x.isEmpty = true ↔ x.count = 0 ∧ x.nan = false ∧ x.invalid = false ∧ x.pinf = false ∧ x.ninf = false)
    ∧ (∀ a, (WideEntry.cleared a).isEmpty = true ∧ (WideEntry.cleared a).value = 0 ∧ (WideEntry.cleared a).anchor = a)
    ∧ (y.isEmpty = true → x.merge y = (.ok, x))
    ∧ (x.isEmpty = true → y.isEmpty = false → y.count ≤ 2 ^ 31 → y.cut ≤ 2 →
        -2 ^ 191 ≤ y.value → y.value < 2 ^ 191 → x.merge y = (.ok, y))
    ∧ (x.isEmpty = false → y.isEmpty = false →
        (x.anchor ≠ y.anchor → (x.merge y).1 = .verify)
        ∧ (x.anchor = y.anchor → 2 ^ 31 < x.count + y.count → (x.merge y).1 = .window)
        ∧ (x.anchor = y.anchor → x.count + y.count ≤ 2 ^ 31 → x.merge y = (.ok,
            { value := signed 192 (unsigned 192 (x.value + y.value)), anchor := x.anchor, cut := min 2 (x.cut + y.cut),
              sticky := x.sticky || y.sticky, nan := x.nan || y.nan, invalid := x.invalid || y.invalid,
              pinf := x.pinf || y.pinf, ninf := x.ninf || y.ninf, count := x.count + y.count })
          ∧ (-2 ^ 191 ≤ x.value + y.value → x.value + y.value < 2 ^ 191 →
             signed 192 (unsigned 192 (x.value + y.value)) = x.value + y.value)
          ∧ (-((x.count : Int) * 2 ^ 160) ≤ x.value → x.value ≤ x.count * (2 ^ 160 - 1) →
             -((y.count : Int) * 2 ^ 160) ≤ y.value → y.value ≤ y.count * (2 ^ 160 - 1) →
             -2 ^ 191 ≤ x.value + y.value ∧ x.value + y.value < 2 ^ 191)))

/-- Contributions entered into an entry in any order leave the same entry, or fault with WINDOW in every order. Contributions
divided into two partial entries with the same anchor, and merged, give what entering all of them into one entry gives: the
same VALUE, anchor, CUT, STICKY, COUNT and flags, or WINDOW where their number passes 2^31. -/
def Obligations.OrderAndDivisionDoNotMatter : Prop :=
  (∀ (x : WideEntry) (l m : List Contrib), l.Perm m → x.addAll l = x.addAll m)
  ∧ ∀ (a : Int) (l m : List Contrib) (x y : WideEntry),
      (WideEntry.cleared a).addAll l = some x → (WideEntry.cleared a).addAll m = some y →
      (x.count + y.count ≤ 2 ^ 31 → ∃ z, x.merge y = (.ok, z) ∧ (WideEntry.cleared a).addAll (l ++ m) = some z)
      ∧ (2 ^ 31 < x.count + y.count → (x.merge y).1 = .window ∧ (WideEntry.cleared a).addAll (l ++ m) = none)

/-! ### The core's instructions -/

namespace Sys2Proof.Claims

/-- An ordinary instruction of a context, at its program counter, in flight. -/
def flight (s : State) (t : Site) (h : Hdr) : InFlight := { plainFlight t h with pc := (s.ctx t).pc }

end Sys2Proof.Claims

open Sys2Proof.Claims

/-- An instruction that issues completes: NOP has no effect beyond its header; SEM SET sets its semaphore and SEM ADD raises
its own while the sum is at most 65,535, and past it faults the job with BOUNDS; END leaves its context inactive with no lane
group. The core is then IDLE where all its contexts have ended and nothing of theirs waits; else it is HALTED where a pre-emption
waits for no other context of it, which is the model's reading (log entry 26). -/
def Obligations.ControlInstructionsComplete : Prop :=
  ∀ (s : State) (t : Site) (h : Hdr) (o : SemOps), s.issues t h (plainFlight t h) = true →
    exec (.instrNop t h) s = .next ((s.issued t h).retired t h (flight s t h) true)
    ∧ (o.ok = true →
        exec (.semSet t h o) s = .next (((s.issued t h).setSem t.core o.idx o.value).retired t h (flight s t h) true)
        ∧ ((s.issued t h).sem t.core o.idx + o.value ≤ 65535 → exec (.semAdd t h o) s = .next
            (((s.issued t h).setSem t.core o.idx ((s.issued t h).sem t.core o.idx + o.value)).retired t h (flight s t h) true))
        ∧ (65535 < (s.issued t h).sem t.core o.idx + o.value → exec (.semAdd t h o) s = .next
            ((s.issued t h).coreFault t.core .bounds (csAddr t.core ((s.issued t h).ctx t).pc))))
    ∧ ∃ u : State, exec (.endInstr t h) s = .next (u.retired t h (flight s t h) true)
        ∧ (let v := (s.issued t h).setCtx t { (s.issued t h).ctx t with active := false, laneGroup := 0 }
           let ended := ∀ p ∈ (v.core t.core).ctxs, p.2.active = false ∧ p.2.held = [] ∧ p.2.post = none ∧ p.2.merge = none
           (v.coreRuns t.core = true → ended → u = v.setFld (Fld.CORE_STATUS_STATE t.core) 2)
           ∧ (¬ ended → u = v.settleHalt t.core))

/-- A BRANCH that issues completes. One that is taken continues at the byte offset of the BRANCH plus 16 × `TARGET`, signed,
within the 22-bit program counter; another at the next instruction. `COND` 0 is always taken. `COND` 1 decrements its loop
counter, 0 giving 2^32 − 1, and is taken where the result is not 0. `COND` 2 is taken where the register's 64 bits are
not all zero. `COND` 3 loads the counter from bits [31:0] and does not branch. -/
def Obligations.BranchTargetsAndCounters : Prop :=
  ∀ (s : State) (t : Site) (h : Hdr) (o : BranchOps), s.issues t h (plainFlight t h) = true →
    let s1 := s.issued t h
    let c := s1.ctx t
    let goto : Nat := (((c.pc : Int) + 16 * signed 24 o.target) % 4194304).toNat
    let onward : Nat := (c.pc + 16) % 4194304
    let left : BitVec 32 := (nth 0 c.loops o.loop) - 1
    (o.ok 0 = true → exec (.branchAlways t h o) s =
      .next ((s1.setCtx t { c with pc := goto }).retired t h (flight s t h) false))
    ∧ (o.ok 1 = true → exec (.branchLoop t h o) s = .next ((s1.setCtx t
        { c with loops := setNth c.loops o.loop left, pc := if left = 0 then onward else goto }).retired t h (flight s t h) false))
    ∧ (o.ok 2 = true → exec (.branchNonzero t h o) s = .next ((s1.setCtx t
        { c with pc := if c.sreg o.sreg = 0 then onward else goto }).retired t h (flight s t h) false))
    ∧ (o.ok 3 = true → exec (.branchLoadLoop t h o) s = .next ((s1.setCtx t
        { c with loops := setNth c.loops o.loop (BitVec.ofNat 32 (c.sreg o.sreg).toNat) }).retired t h (flight s t h) true))

/-- A VOP that issues with good fields writes, in every active lane that `MASK` does not mask, its function of that lane of
`VA`, `VB` and `VC`; every other lane and register keeps its value. ADD, SUB, MUL, FMA, MIN, MAX and CVT OR their flags into
the job; the random bits of STOCH come from `VC`, for FMA from `VC` + 1. AND, OR, XOR, SHL, SHR, ABS and NEG write the bits
Table 03-20 states and change no flag of the job: a shift by 32 or more gives 0, ABS clears bit 31 and NEG inverts it. CMP, SEL
and CVT to an MX format, of which the spec states no result, write a free value (log entry 24); CVT to an MX format raises
NAN_IN for a NaN. -/
def Obligations.VopFunctionsComplete : Prop :=
  ∀ (s : State) (t : Site) (h : Hdr) (o : VopOps), s.issues t h (plainFlight t h) = true →
    let s1 := s.issued t h
    let c := s1.ctx t
    let bare := fun (f : Lane → Lane → Lane → Lane) => ((s1.setCtx t (c.setLanes o.vd (s1.lanes t o.mask)
      (fun l => f (c.lane o.va l) (c.lane o.vb l) (c.lane o.vc l)))).retired t h (flight s t h) true)
    let result := fun (f : Nat → Conv) => (((s1.setCtx t (c.setLanes o.vd (s1.lanes t o.mask)
      (fun l => BitVec.ofNat 32 (f l).bits))).orFlags (orAll ((s1.lanes t o.mask).map (fun l => (f l).flags)))).retired
        t h (flight s t h) true)
    (o.ok 0 = true → exec (.vopAdd t h o) s = .next (result (fun l => vAdd o.rnd (c.lane o.va l) (c.lane o.vb l) (c.lane o.vc l).toNat)))
    ∧ (o.ok 1 = true → exec (.vopSub t h o) s =
        .next (result (fun l => vSub o.rnd (c.lane o.va l) (c.lane o.vb l) (c.lane o.vc l).toNat)))
    ∧ (o.ok 2 = true → exec (.vopMul t h o) s =
        .next (result (fun l => vMul o.rnd (c.lane o.va l) (c.lane o.vb l) (c.lane o.vc l).toNat)))
    ∧ (o.ok 3 = true → exec (.vopFma t h o) s =
        .next (result (fun l => vFma o.rnd (c.lane o.va l) (c.lane o.vb l) (c.lane o.vc l) (c.lane (o.vc + 1) l).toNat)))
    ∧ (o.ok 4 = true → exec (.vopMin t h o) s = .next (result (fun l => vMinMax false (c.lane o.va l) (c.lane o.vb l))))
    ∧ (o.ok 5 = true → exec (.vopMax t h o) s = .next (result (fun l => vMinMax true (c.lane o.va l) (c.lane o.vb l))))
    ∧ (o.ok 6 = true → isMX o.fmt = false → exec (.vopCvt t h o) s =
        .next (result (fun l => vCvt o.rnd o.fmt (c.lane o.va l) (c.lane o.vc l).toNat)))
    ∧ (o.ok 6 = true → isMX o.fmt = true → exec (.vopCvt t h o) s =
        .next (result (fun l => if (lane32 (c.lane o.va l)).isNaN then ⟨canonicalNaN o.fmt, flagNanIn⟩
          else ⟨(Config.vopCvtMx o.fmt (c.lane o.va l)).toNat % 2 ^ fmtBits o.fmt, 0⟩)))
    ∧ (o.ok 8 = true → exec (.vopAnd t h o) s = .next (bare (fun a b _ => a &&& b)))
    ∧ (o.ok 9 = true → exec (.vopOr t h o) s = .next (bare (fun a b _ => a ||| b)))
    ∧ (o.ok 10 = true → exec (.vopXor t h o) s = .next (bare (fun a b _ => a ^^^ b)))
    ∧ (o.ok 11 = true → exec (.vopShl t h o) s = .next (bare (fun a b _ => BitVec.ofNat 32 (a.toNat * 2 ^ b.toNat))))
    ∧ (o.ok 12 = true → exec (.vopShr t h o) s = .next (bare (fun a b _ => BitVec.ofNat 32 (a.toNat / 2 ^ b.toNat))))
    ∧ (o.ok 14 = true → exec (.vopAbs t h o) s = .next (bare (fun a _ _ => a &&& 0x7fffffff)))
    ∧ (o.ok 15 = true → exec (.vopNeg t h o) s = .next (bare (fun a _ _ => a ^^^ 0x80000000)))
    ∧ (o.ok 7 = true → exec (.vopCmp t h o) s = .next (bare Config.vopCmp))
    ∧ (o.ok 13 = true → exec (.vopSel t h o) s = .next (bare Config.vopSel))

/-- A LACC that issues with good fields completes. The clears leave `LIDX`, or with `SPREAD` 1 the 128 accumulators from it,
empty in SUM or PRODUCT mode. ADD adds every active lane where none of them faults, and otherwise faults the job with the
lane's status. DRAIN, whose divisor is at most 2^32, writes each lane of `VD` from accumulator `LIDX`, or lane i from
`LIDX` + i, ORs the flags into the job and leaves what it drained cleared in SUM mode. -/
def Obligations.LaccCompletes : Prop :=
  ∀ (s : State) (t : Site) (h : Hdr) (o : LaccOps), s.issues t h (plainFlight t h) = true →
    let s1 := s.issued t h
    let c := s1.ctx t
    let k := s1.core t.core
    let targets := if o.spread = 1 then (List.range 128).map (fun i => o.lidx + i) else [o.lidx]
    let clear := fun (x : State) (m : Bool) => x.setCore t.core (targets.foldl (fun a i => a.setLacc i { product := m }) (x.core t.core))
    let added := laccAdd o c ((List.range 128).filter (s1.laneActive t)) k
    let from' := fun l => if o.spread = 1 then l else 0
    let drained := s1.setCtx t (c.setLanes o.vd (List.range 128) (fun l => BitVec.ofNat 32 (laccOut o c k (from' l)).bits))
    let flags := orAll ((if o.spread = 1 then List.range 128 else [0]).map (fun i => (laccOut o c k i).flags))
    (o.ok 0 = true → exec (.laccClearSum t h o) s = .next ((clear s1 false).retired t h (flight s t h) true))
    ∧ (o.ok 1 = true → exec (.laccClearProduct t h o) s = .next ((clear s1 true).retired t h (flight s t h) true))
    ∧ (o.ok 2 = true →
        (added.1 = .ok → exec (.laccAdd t h o) s = .next ((s1.setCore t.core added.2).retired t h (flight s t h) true))
        ∧ (added.1 ≠ .ok → exec (.laccAdd t h o) s = .next (s1.coreFault t.core added.1 (csAddr t.core c.pc))))
    ∧ (o.ok 3 = true → (o.divReg = 0 ∨ wget (c.sreg o.divReg) 32 0 ≤ 2 ^ 32) →
        exec (.laccDrain t h o) s = .next (((clear drained false).orFlags flags).retired t h (flight s t h) true))

/-- LD and ST that issue with good fields, a good address word and lanes within reach complete. Lane l lies `WIDTH` bytes × l
past the word's OFFSET, `STRIDE` ignored. LD writes each active unmasked lane with the number stored there, the bits above a
narrow one zero; the other lanes keep their values and no byte of memory changes. ST stores the low bytes of each such lane,
and every byte outside them reads as before. -/
def Obligations.LoadAndStoreLanes : Prop :=
  ∀ (s : State) (t : Site) (h : Hdr) (o : MemOps), s.issues t h (plainFlight t h) = true → o.ok = true →
    let s1 := s.issued t h
    let c := s1.ctx t
    let w := c.sreg o.addrReg
    let lanes := s1.lanes t o.mask
    let place := fun l => csAddr t.core (awOffset w + l * 2 ^ o.width)
    awFlat w 64 = .ok → (s1.reachAll t.core [laneSpan lanes (awOffset w) o.bytes]).1 = .ok →
    exec (.ld t h o) s = .next ((s1.setCtx t (c.setLanes o.vreg lanes
        (fun l => BitVec.ofNat 32 (s1.num (place l) (2 ^ o.width))))).retired t h (flight s t h) true)
    ∧ (let u := (lanes.foldl (fun x l => x.putNum (place l) (2 ^ o.width) (c.lane o.vreg l).toNat) s1).retired t h (flight s t h) true
       exec (.st t h o) s = .next u
        ∧ (∀ a, (∀ l ∈ lanes, a < place l ∨ place l + 2 ^ o.width ≤ a) → u.byte a = s.byte a)
        ∧ (s.memWf = true → ∀ l ∈ lanes, ∀ i, i < 2 ^ o.width →
            u.byte (place l + i) = BitVec.ofNat 8 ((c.lane o.vreg l).toNat / 256 ^ i))
        ∧ Keeps [.regs, .mem, .cores] s u)

/-- An SFN that issues with good fields writes, in every active lane that `MASK` does not mask, its function of that lane of
`VA`, with `VB` as anchor of EXP2A and exponent of SCALB, under the active coefficient generation; the functions' flags are
ORed into the job and every other lane keeps its value. HMAX and HMIN write the largest or least of those lanes to all of
them. -/
def Obligations.SfnFunctionsComplete : Prop :=
  ∀ (s : State) (t : Site) (h : Hdr) (o : SfnOps), s.issues t h (plainFlight t h) = true →
    let s1 := s.issued t h
    let c := s1.ctx t
    let lanes := s1.lanes t o.mask
    let gen := s1.fld Fld.SFU_TABLE_STATUS_GEN_ACTIVE
    let result := fun (f : Nat → Conv) => (((s1.setCtx t (c.setLanes o.vd lanes (fun l => BitVec.ofNat 32 (f l).bits))).orFlags
      (orAll (lanes.map (fun l => (f l).flags)))).retired t h (flight s t h) true)
    let row := fun (isMax : Bool) => (((s1.setCtx t (c.setLanes o.vd lanes
      (fun _ => BitVec.ofNat 32 (hmaxOf isMax (lanes.map (c.lane o.va))).bits))).orFlags
        (hmaxOf isMax (lanes.map (c.lane o.va))).flags).retired t h (flight s t h) true)
    (∀ p ∈ ([(0x00, .sfnExp2 t h o), (0x01, .sfnExp t h o), (0x02, .sfnLog2 t h o), (0x03, .sfnLn t h o), (0x04, .sfnTanh t h o),
        (0x05, .sfnSigmoid t h o), (0x06, .sfnErf t h o), (0x07, .sfnRcp t h o), (0x08, .sfnRsqrt t h o), (0x09, .sfnSqrt t h o),
        (0x0a, .sfnSinpi t h o), (0x0b, .sfnCospi t h o), (0x0c, .sfnSilu t h o), (0x0d, .sfnGelu t h o)] : List (Nat × Instr)),
      o.ok p.1 = true → exec p.2 s = .next (result (fun l => sfnValue ⟨gen, o.compat, p.1⟩ (lane32 (c.lane o.va l)))))
    ∧ (o.ok 0x10 = true → exec (.sfnExp2a t h o) s = .next (result (fun l => exp2aLane gen (c.lane o.va l) (c.lane o.vb l))))
    ∧ (o.ok 0x11 = true → exec (.sfnScalb t h o) s = .next (result (fun l => scalbLane o.rnd (c.lane o.va l) (c.lane o.vb l))))
    ∧ (o.ok 0x12 = true → exec (.sfnAnch t h o) s = .next (result (fun l => anchLane (c.lane o.va l))))
    ∧ (o.ok 0x13 = true → exec (.sfnHmax t h o) s = .next (row true))
    ∧ (o.ok 0x14 = true → exec (.sfnHmin t h o) s = .next (row false))

/-- LSAVE and LMERGE that issue with good fields, a good address word and 48 bytes within reach: LSAVE stores the image of
accumulator `LIDX`, whatever it holds, and leaves it as it was; LMERGE adds the accumulator that the image gives, faults with
VERIFY at the image's address where the image or its mode is not good, and with WINDOW where the counts pass the limit. -/
def Obligations.LongAccumulatorImages : Prop :=
  ∀ (s : State) (t : Site) (h : Hdr) (o : SfnOps), s.issues t h (plainFlight t h) = true →
    let s1 := s.issued t h
    let w := (s1.ctx t).sreg o.addrReg
    let a := csAddr t.core (awOffset w)
    let k := s1.core t.core
    awFlat w 64 = .ok → (s1.reachAll t.core [(awOffset w, 48)]).1 = .ok →
    (o.ok 0x18 = true → exec (.sfnLsave t h o) s = .next ((s1.putNum a 48 (k.lacc o.lidx).image).retired t h (flight s t h) true))
    ∧ (o.ok 0x19 = true →
        (LongAcc.ofImage (s1.num a 48) = none → exec (.sfnLmerge t h o) s = .next (s1.coreFault t.core .verify a))
        ∧ ∀ y, LongAcc.ofImage (s1.num a 48) = some y →
          (y.product ≠ (k.lacc o.lidx).product → exec (.sfnLmerge t h o) s = .next (s1.coreFault t.core .verify a))
          ∧ (y.product = (k.lacc o.lidx).product →
            (longLimit y.product < (k.lacc o.lidx).count + y.count → exec (.sfnLmerge t h o) s = .next (s1.coreFault t.core .window a))
            ∧ ((k.lacc o.lidx).count + y.count ≤ longLimit y.product →
              let sum : LongAcc := { k.lacc o.lidx with
                value := signed 320 (unsigned 320 ((k.lacc o.lidx).value + y.value)), count := (k.lacc o.lidx).count + y.count,
                cut := min 2 ((k.lacc o.lidx).cut + y.cut), sticky := (k.lacc o.lidx).sticky || y.sticky,
                nan := (k.lacc o.lidx).nan || y.nan, invalid := (k.lacc o.lidx).invalid || y.invalid,
                pinf := (k.lacc o.lidx).pinf || y.pinf, ninf := (k.lacc o.lidx).ninf || y.ninf }
              exec (.sfnLmerge t h o) s = .next ((s1.setCore t.core (k.setLacc o.lidx sum)).retired t h (flight s t h) true))))

/-- An RNG draw that issues with good fields, a good stream name and a word index whose last word is at most 65,535 writes, in
every active lane that `MASK` does not mask, its value of the words of that lane's own stream; NORMAL_PRECISE writes its second
variate to `VD` + 1. A word index above 16 bits faults with VERIFY, and one whose low 16 bits leave NORMAL_PRECISE no second word
with BOUNDS, the lower code. -/
def Obligations.RandomDrawsComplete : Prop :=
  ∀ (s : State) (t : Site) (h : Hdr) (o : RngOps), s.issues t h (plainFlight t h) = true →
    let s1 := s.issued t h
    let c := s1.ctx t
    let lanes := s1.lanes t o.mask
    let first := (c.sreg o.wordSreg).toNat
    let here := csAddr t.core c.pc
    ∀ nm, s1.streamName t o.nameReg = some nm →
    let word := fun l i => nm.word (128 * o.subBase + l) (first + i)
    let result := fun (f : Nat → Nat) => (s1.setCtx t (c.setLanes o.vd lanes (fun l => BitVec.ofNat 32 (f l)))).retired t h
      (flight s t h) true
    (∀ p ∈ ([(0, .rngBits t h o, fun l => word l 0), (1, .rngUniform t h o, fun l => uniform (word l 0)),
        (2, .rngUniformOpen t h o, fun l => uniformOpen (word l 0)),
        (3, .rngNormalFast t h o, fun l => if normalFast (word l 0) % 2 ^ 31 = 0 then 0 else normalFast (word l 0))] :
          List (Nat × Instr × (Nat → Nat))), o.ok p.1 = true →
      (first ≤ 65535 → exec p.2.1 s = .next (result p.2.2))
      ∧ (65535 < first → exec p.2.1 s = .next (s1.coreFault t.core .verify here)))
    ∧ (o.ok 4 = true →
        (first % 65536 = 65535 → exec (.rngNormalPrecise t h o) s = .next (s1.coreFault t.core .bounds here))
        ∧ (65535 < first → first % 65536 ≠ 65535 → exec (.rngNormalPrecise t h o) s = .next (s1.coreFault t.core .verify here))
        ∧ (first < 65535 → exec (.rngNormalPrecise t h o) s = .next ((s1.setCtx t ((c.setLanes o.vd lanes (fun l => BitVec.ofNat 32 (mulRne (normalRadius s.sfuGen (word l 0))
            (nativeFn s.sfuGen 0x0b (twiceU2 (word l 1)))))).setLanes (o.vd + 1) lanes
              (fun l => BitVec.ofNat 32 (mulRne (normalRadius s.sfuGen (word l 0))
                (nativeFn s.sfuGen 0x0a (twiceU2 (word l 1))))))).retired t h (flight s t h) true)))

namespace Sys2Proof.Claims

/-- An instruction in flight from the place where its context stands. -/
def atPc (s : State) (t : Site) (f : InFlight) : InFlight := { f with pc := (s.ctx t).pc }

/-- The state in which a waiting instruction `x` goes on: its context as it was at issue. -/
def woken (s : State) (t : Site) (x : HeldInsn) : State := s.setCtx t ((s.ctx t).asHeld x)

/-- A waiting instruction `x` has completed with its effect `u`: its context stands where it stood in `s`, the instruction is in
flight where something waits for it, and what halts or ends with it does. -/
def wokenDone (s u : State) (t : Site) (h : Hdr) (f : InFlight) (x : HeldInsn) : State :=
  let s1 := (u.asNow t (s.ctx t)).track t.core { f with ctx := t.ctx, signal := h.signal, pc := x.pc }
  (if h.haltOk && (s.ctx t).pc = (x.pc + 16) % 2 ^ 22 then s1.haltPoint t else s1).settleEnd t.core

/-- Its context waits on with the instruction held for `on`. -/
def heldFor (u s : State) (t : Site) (on : HeldFor) (f : InFlight) : State := u.setCtx t ((u.ctx t).hold on (atPc s t f))

/-- A write that goes out with an in-flight record `f` of its own; the program counter has passed it. -/
def launched (s u : State) (t : Site) (h : Hdr) (g f : InFlight) : State :=
  (u.setCore t.core { u.core t.core with inflight := (u.core t.core).inflight ++ [f] }).retired t { h with signal := 0 } (atPc s t g) true

/-- The tile of an MMA or a DRAIN. -/
def mmaTile (s : State) (t : Site) (o : MmaOps) : Tile := s.tile t o.bank (o.mM1 + 1) (o.nM1 + 1) o.rowMask o.colMask
def drainTile (s : State) (t : Site) (o : DrainOps) : Tile := s.tile t o.bank (o.mM1 + 1) (o.nM1 + 1) o.rowMask o.colMask

/-- The C operand of an MMA. -/
def mmaC (s : State) (t : Site) (o : MmaOps) : Option Word := if o.accC = 1 then some ((s.ctx t).sreg o.cReg) else none

/-- Nothing about an MMA's operands stops it: banks, slot pair, address words and reach are good, and its slot can be read. -/
def MmaReady (s : State) (t : Site) (o : MmaOps) : Prop :=
  (s.mmaCheck t o (mmaTile s t o) (s.mmaA t o) (s.mmaB t o) (mmaC s t o)).1 = .ok
    ∧ (s.slotRead t.core (s.slotOf t o.xslotReg)).1 = .ok

/-- The accumulator file after an MMA: each unmasked entry, cleared first under `CLEAR` to the anchor its mode gives, takes C and
then the contributions of its row of A and column of B; none where one of them faults. `y` is the state with the slot read. -/
def mmaEntries (y s : State) (t : Site) (o : MmaOps) : Option (List (Nat × WideEntry)) :=
  y.accumulate t.core (mmaTile s t o) o.fmtA (decide (o.clear = 1))
    (anchorSource o.anchorMode o.anchor (s.slotOf t o.xslotReg)) (pairT o.fmtA o.fmtB)
    (y.readRows t.core (s.mmaA t o) (mmaTile s t o).rows) (y.readRows t.core (s.mmaB t o) (mmaTile s t o).cols) (mmaC s t o)

/-- The state with those entries; a matrix instruction that names a slot has set the anchors of its bank for it. -/
def matrixDone (y : State) (core : Nat) (bank : Nat) (slot : Option Nat) (w : List (Nat × WideEntry)) : State :=
  let s1 := y.setCore core { y.core core with wide := w }
  match slot with
  | none => s1
  | some a => s1.markAnchored core a bank

/-- After a DRAIN: its pieces are in the core store and their flags in the job, the tile is cleared unless `KEEP`, and the owner's
slot is empty and closed. -/
def drainDone (s : State) (t : Site) (o : DrainOps) : State :=
  let y := (s.slotRead t.core (s.drainSlot t o)).2
  let x := drainTile s t o
  let s1 := y.putPieces t.core (y.drainOut t o x (y.drainName t o))
  let s2 := if o.keep = 1 then s1 else s1.setCore t.core ((s1.core t.core).clearTile x)
  match y.drainSlot t o with
  | none => s2
  | some a => s2.emptySlot t a x.bank

/-- Nothing about a DRAIN's operands stops it, its slot can be read, and no merge is missing there where it waits for them. -/
def DrainReady (s : State) (t : Site) (o : DrainOps) : Prop :=
  (s.drainCheck t o (drainTile s t o)).1 = .ok ∧ (s.slotRead t.core (s.drainSlot t o)).1 = .ok

end Sys2Proof.Claims

open Sys2Proof.Claims

/-- An MMA that issues with good fields, operands and slot completes where no post is missing at its slot and those there sum to
the declared K: the accumulator file becomes `mmaEntries`, the contributions of R57 to R60 added to each unmasked entry. Where one
of these faults, the job faults with WINDOW at the output address; where the posts do not sum to K, with VERIFY at the slot. With
posts missing, its context goes on and the MMA waits, with the registers that it read. MMA_SLOT_MAXIMA_WAIT of an MMA that waits
completes it under the same conditions. -/
def Obligations.MatrixMultiplyCompletes : Prop :=
  ∀ (s : State) (t : Site) (h : Hdr) (o : MmaOps),
    (o.ok = true → s.issues t h (s.mmaFlight t h o) = true →
      let s1 := s.issued t h
      let slot := s1.slotOf t o.xslotReg
      let y := (s1.slotRead t.core slot).2
      MmaReady s1 t o →
      (s1.postsMissing o.anchorMode slot = false → s1.postsWrong o.anchorMode slot = false →
        (∀ w, mmaEntries y s1 t o = some w → exec (.mma t h o) s = .next
          ((matrixDone y t.core (mmaTile s1 t o).bank slot w).retired t h (atPc s t (s.mmaFlight t h o)) true))
        ∧ (mmaEntries y s1 t o = none → exec (.mma t h o) s = .next (y.coreFault t.core .window (y.outAddr t))))
      ∧ ∀ a, slot = some a →
        (s1.postsMissing o.anchorMode slot = true → exec (.mma t h o) s = .next (heldFor s1 s t (.slot a) (s.mmaFlight t h o)))
        ∧ (s1.postsMissing o.anchorMode slot = false → s1.postsWrong o.anchorMode slot = true →
          exec (.mma t h o) s = .next (s1.coreFault t.core .verify a)))
    ∧ ∀ x, (s.ctx t).heldOp .mma = some x → s.coreRuns t.core = true →
      let s1 := woken s t x
      let slot := s1.slotOf t o.xslotReg
      let y := (s1.slotRead t.core slot).2
      MmaReady s1 t o → s1.postsMissing o.anchorMode slot = false → s1.postsWrong o.anchorMode slot = false →
      ∀ w, mmaEntries y s1 t o = some w → exec (.mmaSlotMaximaWait t h o) s = .next
        (wokenDone s (matrixDone y t.core (mmaTile s1 t o).bank slot w) t h (s.mmaFlight t h o) x)

/-- A DRAIN that issues with good fields, operands and slot completes: the pieces that R113 gives are written to the core store,
their flags are ORed into the job, the tile is cleared unless `KEEP` is set, and with OWNER_WAIT the slot is empty. With OWNER_WAIT
and merges missing at the slot, its context goes on and the DRAIN waits there, with the registers that it read. DRAIN_OWNER_WAIT of
a DRAIN that waits completes it once no merge is missing. -/
def Obligations.DrainCompletes : Prop :=
  ∀ (s : State) (t : Site) (h : Hdr) (o : DrainOps),
    (o.ok = true → s.issues t h (s.drainFlight t h o) = true →
      let s1 := s.issued t h
      DrainReady s1 t o →
      (((s1.drainSlot t o).map s1.mergesMissing).getD false = false →
        exec (.drain t h o) s = .next ((drainDone s1 t o).retired t h (atPc s t (s.drainFlight t h o)) true))
      ∧ (∀ a, s1.drainSlot t o = some a → s1.mergesMissing a = true →
        exec (.drain t h o) s = .next (heldFor s1 s t (.slot a) (s.drainFlight t h o))))
    ∧ ∀ x, (s.ctx t).heldOp .drain = some x → s.coreRuns t.core = true →
      let s1 := woken s t x
      DrainReady s1 t o → ((s1.drainSlot t o).map s1.mergesMissing).getD false = false →
      exec (.drainOwnerWait t h o) s = .next (wokenDone s (drainDone s1 t o) t h (s.drainFlight t h o) x)

/-- CLEARB that issues with good fields completes and leaves no entry in the banks of its mask, shifted in a body. XMAX that
issues with good fields, banks, slot pair, address words and reach completes: the post of its part, whose maxima are biased by
0x8000, is on its way, and the slot is open for its context. XMERGE that issues with good fields, banks and slot pair completes:
the merge of its bank is on its way. -/
def Obligations.ExchangeInstructionsComplete : Prop :=
  ∀ (s : State) (t : Site) (h : Hdr),
    let s1 := s.issued t h
    let c := s1.ctx t
    (∀ o : ClearbOps, o.inWidth = true →
      let f := accumFlight t h (clearbBanks o.bankMask (s.bankShift t))
      let kept := (s1.core t.core).wide.filter (fun p => !(clearbBanks o.bankMask (s1.bankShift t)).contains (bankOfKey p.1))
      s.issues t h f = true →
      exec (.clearb t h o) s = .next ((s1.setCore t.core { s1.core t.core with wide := kept }).retired t h (atPc s t f) true))
    ∧ (∀ o : XmaxOps, o.ok = true → s.issues t h (exchFlight t h) = true →
        let x := s1.tile t o.bank (o.mM1 + 1) (o.nM1 + 1) o.rowMask o.colMask
        let a := s1.xmaxA t o
        let b := s1.xmaxB t o
        let slot := slotAddr (c.sreg o.xslotReg)
        let part := (s1.issuedPart t o.part o.partsM1).1
        (s1.xmaxCheck t o x a b).1 = .ok →
        let biased := fun (p : MatOp) (i : Nat) => (i, (s1.rowTop t.core p i + 0x8000).toNat)
        let post : SlotPost := ⟨slot, part, (s1.issuedPart t o.part o.partsM1).2, slotK (c.sreg (o.xslotReg + 1)), a.k, x.bank,
          x.rows.map (biased a), x.cols.map (biased b)⟩
        exec (.xmax t h o) s = .next (((s1.setCtx t { c with post := some post }).openSlot t slot (decide (part = 0))).retired
          t h (atPc s t (exchFlight t h)) true))
    ∧ ∀ o : XmergeOps, o.ok = true →
        let f := { accumFlight t h (s.banksOf t o.bank (o.mM1 + 1) (o.nM1 + 1)) with exch := true }
        let x := s1.tile t o.bank (o.mM1 + 1) (o.nM1 + 1) 0 0
        s.issues t h f = true → bankOk x.bank x.m x.n = true → s1.slotOk t o.xslotReg = .ok →
        let g : SlotMerge := ⟨slotAddr (c.sreg o.xslotReg), x.bank, x.m, x.n⟩
        exec (.xmerge t h o) s = .next ((s1.setCtx t { c with merge := some g }).retired t h (atPc s t f) true)

/-- XMAX_SLOT_POST applies a context's post where its slot can be read: the first to an empty slot writes PARTS and K_DECL, and
another must agree with them; maxima only rise, K_SUM rises by K, POSTED by 1, and part 0 names its core and bank as the owner. One
that does not agree, or more posts than parts, faults with VERIFY at the slot. XMERGE_OWNER_MERGE does nothing until the owner has
its anchors; then every entry merges into the owner's bank, the sending banks are empty, MERGED rises by 1 and the sender's part is
closed; where R62 refuses a merge, the sender faults with its status at the slot. The instruction whose post or merge it was waits
for it no longer. -/
def Obligations.SlotPostAndMerge : Prop :=
  ∀ (s : State) (t : Site),
    (∀ p : SlotPost, (s.ctx t).post = some p →
      let s0 := (s.setCtx t { s.ctx t with post := none }).exchDone t
      let first := decide (s0.slotParts p.slot = 0)
      let agrees := first = true ∨ (s0.slotParts p.slot = p.parts ∧ s0.slotKDecl p.slot = p.kDecl)
      let s1 := if first then (s0.putNum p.slot 2 p.parts).putNum (p.slot + 16) 8 p.kDecl else s0
      let s2 := p.cols.foldl (fun x r => x.raise16 (p.slot + 288 + 2 * r.1) r.2)
        (p.rows.foldl (fun x r => x.raise16 (p.slot + 32 + 2 * r.1) r.2) s1)
      let s3 := (s2.putNum (p.slot + 24) 8 (s2.slotKSum p.slot + p.k)).putNum (p.slot + 2) 2 (s2.slotPosted p.slot + 1)
      let s4 := if p.part = 0 then (s3.putNum (p.slot + 6) 2 t.core).putNum (p.slot + 8) 1 p.bank else s3
      (s0.slotRead t.core (some p.slot)).1 = .ok →
      (agrees → s4.slotPosted p.slot ≤ s4.slotParts p.slot → exec (.xmaxSlotPost t) s = .next (s4.settleEnd t.core))
      ∧ (agrees → s4.slotParts p.slot < s4.slotPosted p.slot →
        exec (.xmaxSlotPost t) s = .next (s4.coreFault t.core .verify p.slot))
      ∧ (¬ agrees → exec (.xmaxSlotPost t) s = .next (s0.coreFault t.core .verify p.slot)))
    ∧ (∀ g : SlotMerge, (s.ctx t).merge = some g →
      let owner := s.slotOwner g.slot
      let ob := s.slotBank g.slot
      let src : Tile := ⟨g.bank, g.m, g.n, [], []⟩
      let s0 := ((s.slotRead t.core (some g.slot)).2.setCtx t { s.ctx t with merge := none }).exchDone t
      let r := mergeEntries (s0.core t.core) src ⟨ob, g.m, g.n, [], []⟩ src.whole.entries (s0.core owner).wide
      (¬ (anchorMark g.slot ob ∈ (s.core owner).anchored) → exec (.xmergeOwnerMerge t) s = .next s)
      ∧ (anchorMark g.slot ob ∈ (s.core owner).anchored → (s.slotRead t.core (some g.slot)).1 = .ok →
        (r.1 = .ok →
          let s1 := s0.setCore owner { s0.core owner with wide := r.2 }
          let marks := (s1.core t.core).anchored.filter (fun a => decide (a ≠ anchorMark g.slot g.bank))
          let s2 := s1.setCore t.core { (tileBanks g.bank g.m g.n).foldl Core.clearBank (s1.core t.core) with anchored := marks }
          exec (.xmergeOwnerMerge t) s = .next
            (((s2.putNum (g.slot + 4) 2 (s2.slotMerged g.slot + 1)).closeSlot t g.slot false).settleEnd t.core))
        ∧ (r.1 ≠ .ok → exec (.xmergeOwnerMerge t) s = .next (s0.coreFault t.core r.1 g.slot))))

/-- A MOVE that issues with good fields completes: of length 0 it moves nothing; one that `moveCheck` refuses faults the job with
its status and address; another copies between two places of this module, or sends the WRITEs or READs to the other module, and is
in flight. A committed write whose COMMIT bit is set is not made and is counted; one whose bit is clear is made, with the item's
count of writes one higher. INSTRUCTION_COMPLETE of an instruction in flight that waits for nothing takes it out, sets the COMMIT
bit of its write and raises the semaphore of `SIGNAL` by 1; past 65,535 it faults with BOUNDS at the instruction; and one that
another module refused faults with that status. -/
def Obligations.MoveAndCompletion : Prop :=
  (∀ (s : State) (t : Site) (h : Hdr) (o : MoveOps), o.ok = true → h.signal < 64 →
    let g : InFlight := { plainFlight t h with unit := .other }
    s.issues t { h with signal := 0 } g = true →
    let s1 := s.issued t h
    let c := s1.ctx t
    let src := regAddr (c.sreg o.srcReg)
    let dst := regAddr (c.sreg o.dstReg)
    let n := (c.sreg o.lenReg).toNat
    let own := fun a => fabModule a = s1.moduleId
    let com := if own dst then s1.commitOf t (fabLocal dst) n else none
    let done := fun (u : State) (ids : List Nat) (cm : Option (Nat × Nat)) =>
      exec (.move t h o) s = .next (launched s u t h g (s1.moveFlight t h ids cm))
    (n = 0 → done s1 [] none)
    ∧ (n ≠ 0 → (s1.moveCheck t src dst n).1 ≠ .ok → exec (.move t h o) s =
        .next (s1.coreFault t.core (s1.moveCheck t src dst n).1 (s1.moveCheck t src dst n).2))
    ∧ (n ≠ 0 → (s1.moveCheck t src dst n).1 = .ok →
      (∀ a b, com = some (a, b) → b < 64 → (s1.readCheck s1.coreClass (.core t.core) a 8).1 = .ok → bit (s1.num a 8) b = true →
        done (((s1.readCheck s1.coreClass (.core t.core) a 8).2.nextWrite t).countSkipped) [] none)
      ∧ ∀ v, (com = none ∧ v = s1) ∨ (∃ a b, com = some (a, b) ∧ b < 64 ∧ (s1.readCheck s1.coreClass (.core t.core) a 8).1 = .ok
            ∧ bit (s1.num a 8) b = false ∧ v = (s1.readCheck s1.coreClass (.core t.core) a 8).2.nextWrite t) →
        v.moduleId = s1.moduleId →
        (own src → own dst → ∀ u, v.jobCopy t.core (fabLocal src) (fabLocal dst) n = (.ok, u) → done u [] com)
        ∧ (own src → ¬ own dst → ∀ bytes u, v.jobRead t.core (fabLocal src) n = (.ok, bytes, u) →
          let r := u.injectAll (v.moveTrans t.core src dst n bytes)
          done r.2 r.1 com)
        ∧ (¬ own src → own dst →
          let r := v.injectAll (v.moveTrans t.core src dst n [])
          done r.2 r.1 com)))
  ∧ (∀ (s : State) (core index : Nat) (f : InFlight), (s.core core).inflight[index]? = some f →
      f.remote = [] → f.exch = false → (f.isNest = true → (s.ctx ⟨core, 0⟩).joined = false) →
      let s1 := s.setCore core { s.core core with inflight := dropNth (s.core core).inflight index }
      let ends := fun (u : State) =>
        (f.signal = 0 → exec (.instructionComplete core index) s = .next (u.settleHalt core))
        ∧ (f.signal ≠ 0 → u.sem core f.signal < 65535 → exec (.instructionComplete core index) s =
          .next ((u.setSem core f.signal (u.sem core f.signal + 1)).settleHalt core))
        ∧ (f.signal ≠ 0 → 65535 ≤ u.sem core f.signal → exec (.instructionComplete core index) s =
          .next ((u.coreFault core .bounds (csAddr core f.pc)).settleHalt core))
      (f.worst ≠ .ok → exec (.instructionComplete core index) s = .next (s1.coreFault core f.worst (csAddr core f.pc)))
      ∧ (f.worst = .ok → f.commit = none → ends s1)
      ∧ (f.worst = .ok → ∀ a b, f.commit = some (a, b) → (s1.readCheck s1.coreClass (.core core) a 8).1 = .ok →
        let u := (s1.readCheck s1.coreClass (.core core) a 8).2
        ends (u.putNum a 8 (u.num a 8 ||| 2 ^ b))))

namespace Sys2Proof.Claims

/-- A PASS of part `p` over range `r` can be made in `s`, and leaves `a` and `u`: descriptor, length table, slot pair, chain, range,
address words and reach are good, its pages are selected where it is the first, and everything that it reads is there. -/
structure PassOver (s : State) (t : Site) (o : AttOps) (e : AttEnv) (p : AttPart) (r : AttRange) (sel : Option (List (Nat × List Nat)))
    (a : AttAcc) (u : State) : Prop where
  reach : (s.attReach t o).1 = .ok
  env : s.attEnv t o (s.attDescNum t o) ((s.ctx t).sreg o.seqReg).toNat ((s.ctx t).sreg (o.seqReg + 1)).toNat = .inr e
  slot : s.attSlotStatus t o = .ok
  part : s.passPart t o e = some p
  range : ∃ b, s.attBounds t o e = .inr b ∧ r = ⟨(s.ctx t).sreg o.qReg, (s.ctx t).sreg (o.qReg + 1), b.1, b.2⟩
  good : (s.passCheck t e p r).1 = .ok
  read : ∃ s0, (if o.first = 1 then (s.attReach t o).2.2.attSelect t e r else .inr (p.sel, (s.attReach t o).2.2)) = .inr (sel, s0)
    ∧ s0.attRange t e sel false r (if o.first = 1 then (s0.attAcc t.core p).clear e else s0.attAcc t.core p) = .ok a u

/-- The part after a PASS, and the state with it: the staging area holds free bytes. -/
def passPart' (o : AttOps) (p : AttPart) (r : AttRange) (sel : Option (List (Nat × List Nat))) (a : AttAcc) : AttPart :=
  { p with sel, ranges := p.ranges ++ [r], rows := a.rows, cvs := a.cvs, lows := a.lows, pages := [],
           ops := if o.last = 1 then o else p.ops }
def passState (u : State) (t : Site) (e : AttEnv) (p : AttPart) (r : AttRange) (sel : Option (List (Nat × List Nat))) (a : AttAcc) : State :=
  (u.staged t.core e.d).setAtt t.core a { p with sel, ranges := p.ranges ++ [r] }

/-- A part settled at final anchors `f` where no row is DIRTY: re-anchored, its rows at their anchors, and the anchors of its bank
set for its slot where it is part 0. -/
def settledPart (s : State) (t : Site) (e : AttEnv) (p : AttPart) (f : AttFinal) : State :=
  let a := (s.attAcc t.core p).reanchor e f.cols (fun m => SMap.get none f.rows m)
  let rows := e.rows.foldl (fun r m => SMap.set {} r m
    { anchor := SMap.get none f.rows m, tmin := none, nan := f.nan.contains m, dirty := false }) a.rows
  let s1 := s.setAtt t.core { a with rows } { p with final := some f, post := none, answer := none }
  match s.attSlot t p.ops with
  | some x => if x.part = 0 then s1.markAnchored t.core (fabLocal x.fa) e.tile.bank else s1
  | none => s1

/-- No row of a part is DIRTY once re-anchored to final anchors `f`. -/
def CleanRows (s : State) (t : Site) (e : AttEnv) (p : AttPart) (f : AttFinal) : Prop :=
  ∀ m ∈ e.rows, (((s.attAcc t.core p).reanchor e f.cols (fun i => SMap.get none f.rows i)).row m).dirty = false

end Sys2Proof.Claims

/-- A PASS that issues with good fields and can be made over its range completes: without `LAST` the part goes on; with `LAST` and a
slot it waits there with its post; with `LAST` and no slot it settles at its own anchors, where no row is DIRTY. A SEND of a settled
part that is not part 0, with its descriptor and slot good: to a readable slot of this module whose owner has its anchors, the part
merges into the owner's, is given up, MERGED rises by 1 and the slot is closed, or the job faults at the slot with the status of a
refused merge; to another module that may be sent to, its images leave in WRITEs and the part is given up. A DRAIN of a settled
part, with its words, slot, images and output good and no merge missing, writes its rows and gives the part up. -/
def Obligations.AttentionInstructionsComplete : Prop :=
  ∀ (s : State) (t : Site) (h : Hdr) (o : AttOps),
    let s1 := s.issued t h
    let h0 : Hdr := { h with signal := 0 }
    let f := attFlight t h .attPass
    (o.ok 0 = true → s.issues t h f = true → (s.ctx t).passOn ≠ some .pages →
      ∀ e p r sel a u, PassOver s1 t o e p r sel a u →
      let v := passState u t e p r sel a
      let q := passPart' o p r sel a
      (o.last = 0 → exec (.attPass t h o) s = .next (v.retired t h (atPc s t f) true))
      ∧ (o.last ≠ 0 → ∀ x, u.attSlot t o = some x →
        let post := a.post e x (keysOf e.len.kLen q.ranges) t.core u.moduleId
        exec (.attPass t h o) s = .next (heldFor ((v.setCore t.core { v.core t.core with att := some { q with post := some post } }).openSlot t
          (u.slotKey x.fa) (decide (x.part = 0))) s t (.slot x.fa) f))
      ∧ (o.last ≠ 0 → u.attSlot t o = none → CleanRows v t { e with got := [] } q (a.final e) →
        exec (.attPass t h o) s = .next ((settledPart v t { e with got := [] } q (a.final e)).retired t h (atPc s t f) true)))
    ∧ (o.ok 1 = true → h.signal < 64 → (s.ctx t).heldOp .attSend = none → s.issues t h0 (attFlight t h0 .attSend) = true →
      (s1.attReach t o).1 = .ok → s1.attSlotStatus t o = .ok → ∀ e x, s1.attPartEnv t o = .inr e → s1.attSlot t o = some x → x.part ≠ 0 →
      let a := fabLocal x.fa
      let sent := fun (u : State) (ids : List Nat) (next : Option Nat) =>
        launched s u t h (attFlight t h0 .attSend) (s1.sendFlight t h ids next)
      (fabModule x.fa = s1.moduleId →
        let owner := s1.slotOwner a
        let ob := s1.num (a + 10) 1
        let y := (s1.slotRead t.core (some a)).2
        let places := e.rows.flatMap (fun m => (List.range e.d.d).map (fun n => (m, n)))
        let w := mergeEntries (s1.core t.core) e.tile { e.tile with bank := ob } places (s1.core owner).wide
        let z := mergeLongs (s1.core t.core) e.lidx (s1.num (a + 12) 2) e.rows (s1.core owner).long
        anchorMark a ob ∈ (s1.core owner).anchored → (s1.slotRead t.core (some a)).1 = .ok →
        (w.1 = .ok → z.1 = .ok →
          let s2 := y.setCore owner { s1.core owner with wide := w.2, long := z.2 }
          let s3 := s2.setCore t.core ((s2.core t.core).dropPart e)
          exec (.attSend t h o) s = .next (sent ((s3.putNum (a + 4) 2 (s3.slotMerged a + 1)).closeSlot t a false) [] none))
        ∧ (w.1.worse z.1 ≠ .ok → exec (.attSend t h o) s = .next (y.coreFault t.core (w.1.worse z.1) a)))
      ∧ (fabModule x.fa ≠ s1.moduleId → s1.remoteGate (fabModule x.fa) s1.jobTag = .ok →
        let base := mergeArea a x.part e.m e.d.d
        let r := ((s1.setCore t.core ((s1.core t.core).dropPart e)).closeSlot t x.fa false).injectAll
          ((s1.attImages t.core e base).flatMap (fun im => (pieces im.1 im.2.length).map (fun p =>
            { serial := 0, op := 1, dest := fabModule x.fa, addr := im.1 + p.1, len := p.2, data := (im.2.drop p.1).take p.2,
              tag := s1.jobTag, at' := 0, owner := .instr t.core })))
        exec (.attSend t h o) s = .next (sent r.2 r.1 (some x.fa))))
    ∧ (o.ok 2 = true → (s.ctx t).heldOp .attDrain = none → s.issues t h (attFlight t h .attDrain) = true →
      (s1.attReach t o).1 = .ok → s1.attSlotStatus t o = .ok → ∀ e, s1.attPartEnv t o = .inr e →
      let slot := s1.attSlot t o
      let a := (slot.map (fun x => fabLocal x.fa)).getD 0
      let mg := s1.attMerge t.core a e (s1.partsAt slot a)
      (∀ x, slot = some x → x.part = 0 ∧ fabModule x.fa = s1.moduleId ∧ s1.mergesMissing a = false
        ∧ (s1.slotRead t.core (some a)).1 = .ok) →
      s1.attWords t o e = .ok → mg.1 = .ok →
      (s1.reachAll t.core ((s1.attOut t o e mg.2).map (fun p => (p.off, p.bytes.length)))).1 = .ok →
      exec (.attDrain t h o) s = .next ((s1.attDrained t o e mg.2).retired t h (atPc s t (attFlight t h .attDrain)) true))

/-- ATT_SLOT_POST of a part that stands at its slot with a post: at a readable slot of this module the post is applied and what waits
for the slot is served; to another module that may be sent to, it leaves as a POST. ATT_FINAL_ANCHORS of a part whose slot is
complete with the declared K, or whose answer has come, settles the part at the slot's maxima where no row is DIRTY, and while the
part must wait nothing happens. WALK_BUSY_RETRY counts a retry; where the entry has left BUSY and the PASS can be made, the part goes on;
and where the entry is neither MAPPED nor FREEING the walk fails with STALE, logged and counted. -/
def Obligations.AttentionWaitsEnd : Prop :=
  ∀ (s : State) (t : Site) (h : Hdr),
    (∀ fa p x, (s.ctx t).passOn = some (.slot fa) → (s.core t.core).att = some p → p.post = some x →
      let s1 := s.setCore t.core { s.core t.core with att := some { p with post := none } }
      let a := fabLocal fa
      (fabModule fa = s.moduleId → (s1.slotRead t.core (some a)).1 = .ok →
        ((s1.attApply a x).1 = .ok → exec (.attSlotPost t) s = .next ((s1.attApply a x).2.afterPost a))
        ∧ ((s1.attApply a x).1 ≠ .ok →
          exec (.attSlotPost t) s = .next ((s1.attApply a x).2.coreFault t.core (s1.attApply a x).1 a)))
      ∧ (fabModule fa ≠ s.moduleId → s.remoteGate (fabModule fa) s.jobTag = .ok →
        let sent : Trans := { serial := 0, op := 3, dest := fabModule fa, addr := a, len := 784, post := some x, tag := s.jobTag, at' := 0,
                              owner := .attPost t.core t.ctx }
        exec (.attSlotPost t) s = .next (s1.injectAll [sent]).2))
    ∧ (∀ fa p, (s.ctx t).passOn = some (.slot fa) → (s.core t.core).att = some p →
      (s.attKnown fa p = none → exec (.attFinalAnchors t h) s = .next s)
      ∧ ∀ f x e, s.attKnown fa p = some (.ok, f) → (s.ctx t).heldOp .attPass = some x → s.coreRuns t.core = true →
        let s1 := woken s t x
        let y := if fabModule fa = s.moduleId then (s1.slotRead t.core (some (fabLocal fa))).2 else s1
        let q := { p with final := some f }
        let v := y.setCore t.core { y.core t.core with att := some q }
        (fabModule fa = s.moduleId → (s1.slotRead t.core (some (fabLocal fa))).1 = .ok) →
        v.attEnv t p.ops p.desc p.seq p.i0 = .inr e → CleanRows v t e q f →
        exec (.attFinalAnchors t h) s = .next (wokenDone s (settledPart v t e q f) t h (attFlight t h .attPass) x))
    ∧ (∀ i x o, (s.ctx t).passOn = some (.entry i) → (s.ctx t).heldOp .attPass = some x → s.coreRuns t.core = true →
      let c := s.countRetry
      let s1 := woken c t x
      let valid := (s1.dir i).state = 1 ∨ (s1.dir i).state = 3
      (valid → ((s1.core t.core).att.bind (·.final)) = none → o.last = 0 → ∀ e p r sel a u, PassOver s1 t o e p r sel a u →
        exec (.walkBusyRetry t h o) s = .next (wokenDone c (passState u t e p r sel a) t h (attFlight t h .attPass) x))
      ∧ (¬ valid →
        let s2 := (s1.log 7 .stale (.core t.core) (s1.dirAddr i)).bump Fld.KVP_COUNTS_STALE_COUNT Fld.KVP_COUNTS_STALE_SAT 1
        exec (.walkBusyRetry t h o) s = .next ((s2.asNow t (c.ctx t)).coreFault t.core .stale (csAddr t.core x.pc))))

/-- A WIN that issues with good fields and a good descriptor and position completes. FETCH with a good staging area and open gates
that can be read stages its blocks; at a shut gate it waits and is counted. MMA of a good staged tile, with no post missing at its
slot, adds its contributions. WMAX of a good tile puts the maxima on their way and opens the slot. POOL writes its elements and
clears its accumulators. PUT that is refused by nothing and is no committed write writes its rows and is in flight. HALO_GATE_WAIT
of a FETCH that waits stages the blocks once the gate has reached its value and the rest is good; before that nothing happens,
or past the limit the wait is recorded and faults with TIMEOUT. -/
def Obligations.WindowInstructionsComplete : Prop :=
  ∀ (s : State) (t : Site) (h : Hdr) (o : WinOps),
    let s1 := s.issued t h
    let gates := fun (x : State) (d : ConvDesc) (p : WinPos) => x.gatesOf d (blockSides (x.fetchBlocks d p))
    let look := fun (x : State) (d : ConvDesc) (p : WinPos) =>
      x.readChecks x.coreClass (.core t.core) ((gates x d p).map (fun g => (g.2.1, 8)))
    let fetched := fun (x : State) (d : ConvDesc) (p : WinPos) (v : State) =>
      x.winDesc t 0 o = .inr (d, p) ∧ (x.fetchCheck t d o p).1 = .ok ∧ (look x d p).1 = .ok ∧ x.gateShut (gates x d p) = none
        ∧ ((look x d p).2.2.convReads t.core (blockReads (x.fetchBlocks d p))).1 = .ok
        ∧ v = ((look x d p).2.2.convReads t.core (blockReads (x.fetchBlocks d p))).2.2.stageFetch t.core d o p (x.fetchBlocks d p)
    (o.ok 0 = true → s.issues t h (feederFlight t h) = true → (s.ctx t).gateWait = none → ∀ d p,
      (∀ v, fetched s1 d p v → exec (.winFetch t h o) s = .next (v.retired t h (atPc s t (feederFlight t h)) true))
      ∧ (s1.winDesc t 0 o = .inr (d, p) → (s1.fetchCheck t d o p).1 = .ok → (look s1 d p).1 = .ok →
        ∀ g, s1.gateShut (gates s1 d p) = some g →
        let w : GateWait := ⟨g.1, g.2.1, g.2.2, h.wait⟩
        exec (.winFetch t h o) s = .next ((((look s1 d p).2.2.setCtx t { s1.ctx t with gateWait := some w }).bump
            Fld.CNV_COUNTS_GATE_WAITS Fld.CNV_COUNTS_WAIT_SAT 1).settleHalt t.core)))
    ∧ (o.ok 1 = true → s.issues t h (s.winMmaFlight t h o) = true → (s.ctx t).heldOp .winMma = none →
      ∀ w, s1.winTile t 1 o = .inr w →
      let slot := s1.slotOf t o.xslotReg
      let y := (s1.slotRead t.core slot).2
      (s1.slotRead t.core slot).1 = .ok → s1.postsMissing o.anchorMode slot = false → s1.postsWrong o.anchorMode slot = false →
      ∀ m, y.accumulate t.core w.x w.d.inFmt (decide (o.clear = 1)) (anchorSource o.anchorMode o.anchor slot) (pairT w.d.inFmt w.d.wFmt)
        (y.winRows t.core o w) (y.readRows t.core w.b w.x.cols) none = some m →
      exec (.winMma t h o) s = .next ((matrixDone y t.core w.x.bank slot m).retired t h (atPc s t (s.winMmaFlight t h o)) true))
    ∧ (o.ok 2 = true → s.issues t h { exchFlight t h with unit := .feeder } = true → ∀ w, s1.winTile t 2 o = .inr w →
      let slot := slotAddr ((s1.ctx t).sreg o.xslotReg)
      let post : SlotPost := ⟨slot, w.p.part, w.p.parts, slotK ((s1.ctx t).sreg (o.xslotReg + 1)), w.p.k, w.x.bank,
        (s1.winRows t.core o w).map (fun r => (r.1, (r.2.2 + 0x8000).toNat)),
        w.x.cols.map (fun i => (i, (s1.rowTop t.core w.b i + 0x8000).toNat))⟩
      exec (.winWmax t h o) s = .next (((s1.setCtx t { s1.ctx t with post := some post }).openSlot t slot
        (decide (w.p.part = 0))).retired t h (atPc s t { exchFlight t h with unit := .feeder }) true))
    ∧ (o.ok 3 = true → s.issues t h (feederFlight t h) = true → ∀ d p, s1.winDesc t 3 o = .inr (d, p) →
      s1.csReach o.stageOff 64 = .ok → (s1.poolCheck t d o p).1 = .ok →
      let v := s1.putPieces t.core (s1.poolOut t d o p)
      let kept := (v.core t.core).long.filter (fun q => !(decide (o.lidx ≤ q.1) && decide (q.1 < o.lidx + 256)))
      exec (.winPool t h o) s = .next ((v.setCore t.core { v.core t.core with long := kept }).retired t h (atPc s t (feederFlight t h)) true))
    ∧ (o.ok 4 = true → h.signal < 64 → s.issues t { h with signal := 0 } { plainFlight t h with unit := .feeder } = true →
      ∀ d p n u, s1.winDesc t 4 o = .inr (d, p) → (s1.putCheck t d o p).1 = .ok → s1.putCommit t = none →
        s1.putAll (s1.putWrites t.core d o p) = (.ok, n, u) →
        exec (.winPut t h o) s = .next (launched s u t h { plainFlight t h with unit := .feeder } (s1.moveFlight t h [] none)))
    ∧ (∀ g expired, (s.ctx t).gateWait = some g → s.coreRuns t.core = true → s.accepts t (feederFlight t h) = true →
      let rd := s.readCheck s.coreClass (.core t.core) g.addr 8
      rd.1 = .ok →
      (g.expect ≤ s.num g.addr 8 → ∀ d p v, fetched (rd.2.setCtx t { s.ctx t with gateWait := none }) d p v →
        exec (.haloGateWait t h o expired) s = .next (v.retired t { h with wait := g.wait } (atPc s t (feederFlight t h)) true))
      ∧ (s.num g.addr 8 < g.expect → expired = false → exec (.haloGateWait t h o expired) s = .next s)
      ∧ (s.num g.addr 8 < g.expect → expired = true →
        let s2 := ((s.setFld Fld.CNV_LAST_GATE_SIDE g.side).setFld Fld.CNV_LAST_GATE_CORE t.core).setFld Fld.CNV_LAST_GATE_ADDR g.addr
        let s3 := s2.bump Fld.CNV_COUNTS_GATE_TIMEOUTS Fld.CNV_COUNTS_TIMEOUT_SAT 1
        exec (.haloGateWait t h o expired) s =
          .next ((s3.setCtx t { s3.ctx t with gateWait := none }).coreFault t.core .timeout g.addr)))

/-- A NEST that issues on context 0, outside a body, at one of the job's NESTs completes: a core behind a nest that has completed passes
it; a core at the running nest joins it; and where no nest runs the core prepares the nest of its descriptor and joins it. ITEM_END of
a context at its body's end with everything complete, its banks empty, no slot open and the work counter's words readable counts the
item in DONE, moves CUR on within the chunk or to none, clears its COMMIT word and goes on to the next item or its halt; with a
bank not empty or a slot open the core faults with VERIFY at its place. NEST_COMPLETE of a nest whose DONE is TOTAL and whose counter
can be read, with no halt asked, lets context 0 of every core that waits go on past its NEST. -/
def Obligations.NestsAndItems : Prop :=
  (∀ (s : State) (t : Site) (h : Hdr) (o : NestOps) (j : Job) (p : Program), o.ok = true → (s.ctx t).joined = false →
      let f : InFlight := { plainFlight t h with isNest := true }
      s.issues t h f = true →
      let s1 := s.issued t h
      let c := s1.ctx t
      let inNest := fun (x : State) => x.retired t h (atPc s t f) false
      s1.sched.run = some j → j.prog = some p → p.mode = 1 → t.ctx = 0 → c.inBody = false →
      ∀ index, (List.range p.nestPcs.length).find? (fun i => nth 0 p.nestPcs i = c.pc) = some index →
      (j.passed t.core < j.nestsDone → exec (.nest t h o) s = .next (inNest ((s1.setCtx t c.advance).mapJob
        (fun x => { x with runs := SMap.insert x.runs t.core (x.passed t.core + 1) }))))
      ∧ (j.nestsDone ≤ j.passed t.core →
        (∀ r, j.nest = some r → r.pc = c.pc → exec (.nest t h o) s = .next (inNest (s1.joinNest t r)))
        ∧ (j.nest = none →
          let r : RunNest := ⟨index, c.pc, o, NestDesc.ofNum (s1.num (csAddr t.core o.descOff) 512), s1.bodyHasAtt t.core o, [], []⟩
          exec (.nest t h o) s = .next (inNest ((s1.prepareNest r).joinNest t r)))))
  ∧ (∀ (s : State) (t : Site) (r : RunNest) (it : Item), s.sched.run.bind (·.nest) = some r → (s.ctx t).item = some it →
      (s.ctx t).inBody = true → (s.ctx t).pc = r.ops.bodyEnd → (s.core t.core).ctxQuiet t.ctx = true → (s.ctx t).halted = false →
      s.coreRuns t.core = true →
      let clean := (s.bodyBanks t.core r.ops (t.ctx - r.ops.ctxFirst)).all (fun b => (s.core t.core).bankEmpty b) && (s.ctx t).slots.isEmpty
      let rd := s.readChecks s.coreClass (.core t.core) (s.counterReads r t)
      let u := rd.2.2
      let a := u.counterAddr r.desc
      let hold := u.holdAddr r t.core (t.ctx - r.ops.ctxFirst)
      let done := u.num (a + 16) 8 + 1
      let s1 := (((u.putNum (a + 16) 8 done).putNum hold 8 (if it.index + 1 < it.stop then it.index + 1 else 2 ^ 64 - 1)).zeroBytes
        (hold + 16) 8).showNest r.index done
      (clean = true → rd.1 = .ok → exec (.itemEnd t) s = .next ((s1.setCtx t { s1.ctx t with item := none }).nextItem t))
      ∧ (clean = false → exec (.itemEnd t) s = .next (s.coreFault t.core .verify (csAddr t.core (s.ctx t).pc))))
  ∧ (∀ (s : State) (j : Job) (r : RunNest), s.sched.run = some j → j.nest = some r →
      let a := s.counterAddr r.desc
      let waits := (List.range ((j.prog.map (·.coresUsed)).getD 0)).filter (fun n => (s.ctx ⟨n, 0⟩).joined)
      let rd := s.readCheck s.coreClass .module a 64
      s.num (a + 16) 8 = s.num (a + 8) 8 → s.halting = false → waits ≠ [] → rd.1 = .ok →
      exec .nestComplete s = .next ((waits.foldl (fun x n =>
        x.setCtx ⟨n, 0⟩ { (x.ctx ⟨n, 0⟩).advance with joined := false, active := true }) rd.2).mapJob (fun x => { x with
          nest := none, nestsDone := x.nestsDone + 1,
          runs := waits.foldl (fun m n => SMap.insert m n (SMap.get 0 m n + 1)) x.runs })))

/-- A SAMPLE that issues with good fields, a good descriptor, a good name where the mode draws, and a row and a record that are
within reach and can be read and written completes: the row is sampled under the descriptor with the first 64 bits of the stream, its 16-byte
record is written, its flags are ORed into the job and `SAMPLE_ROWS` rises by 1, `EMPTY_ROWS` too where nothing was kept.
SEM_WAIT_TIMEOUT faults a running core whose context still waits for a semaphore at 0, with TIMEOUT at its place, and
SLOT_WAIT_TIMEOUT one whose context waits at a slot, at the slot, any attention post of the core being over. -/
def Obligations.SampleAndTimeouts : Prop :=
  (∀ (s : State) (t : Site) (h : Hdr) (o : RngOps), o.ok 5 = true →
      let f : InFlight := { plainFlight t h with isMove := true }
      s.issues t h f = true →
      let s1 := s.issued t h
      let c := s1.ctx t
      let row := fabLocal (regAddr (c.sreg o.rowSreg))
      let out := fabLocal (regAddr (c.sreg o.outSreg))
      let nm := s1.streamName t o.nameReg
      ∀ d, s1.csReach o.descOff 64 = .ok → SampleDesc.ofNum (s1.num (csAddr t.core o.descOff) 64) = some d →
      (d.greedy = false → o.nameReg ≠ 0 ∧ nm.isSome = true) →
      s1.sampleReach t.core (regAddr (c.sreg o.rowSreg)) d.eb (d.v * d.eb) readKinds = .ok →
      s1.recordReach t.core (regAddr (c.sreg o.outSreg)) = .ok →
      ∀ bytes s2, s1.jobRead t.core row (d.v * d.eb) = (.ok, bytes, s2) →
      let r := sampleRow d s1.sfuGen (elemsOf d.eb d.v (leNat bytes)) ((nm.map (fun x => x.take 0 64)).getD 0)
      ∀ s3, s2.jobWrite out r.record = (.ok, s3) →
      let s4 := (s3.orFlags r.flags).bump Fld.RNG_COUNTS_SAMPLE_ROWS Fld.RNG_COUNTS_SAMPLE_SAT 1
      exec (.rngSample t h o) s = .next ((if r.kept = 0 then s4.bump Fld.RNG_COUNTS_EMPTY_ROWS Fld.RNG_COUNTS_EMPTY_SAT 1
        else s4).retired t h (atPc s t f) true))
  ∧ (∀ (s : State) (t : Site), s.coreRuns t.core = true →
      (∀ i, (s.ctx t).waiting = some i → s.sem t.core i = 0 →
        exec (.semWaitTimeout t) s = .next (s.coreFault t.core .timeout (csAddr t.core (s.ctx t).pc)))
      ∧ (∀ a, (s.ctx t).waitsAt = some a → exec (.slotWaitTimeout t) s =
          .next ((s.endPost t.core).coreFault t.core .timeout (if a / 2 ^ 40 = s.moduleId then a % 2 ^ 40 else a))))

/-! ### Register writes -/

namespace Sys2Proof.Claims

/-- What a register write through management QP q answers where it is accepted, the state being `u` then. -/
def accepted (u : State) : State := u.emit (.regResp .ok 0)

/-- A write of the register at `a` that is refused changes nothing: it is logged and answered with its status. -/
def refused (s : State) (q : Fin 4) (a : Nat) (st : Status) : State := s.answerReg q.val a st 0

end Sys2Proof.Claims

/-- A write of `CORE_LIMITS`, `KVP_LIMITS`, `HBM_SKEW_CTRL`, `HBM_SCRUB_CTRL`, `HBM_NARROW_CTRL`, `FAB_LIMITS`, `TT_LIMITS` or
`PWR_LIMIT` through a management QP that hears: where every field it gives lies in its range, the field reads back as written,
every other register word is unchanged and the write is answered OK; else it is answered VERIFY and changes nothing. -/
def Obligations.LimitRegistersTakeTheirRanges : Prop :=
  ∀ (s : State) (q : Fin 4) (v : Word), s.regsOk = true → s.mgmtHears q.val = true →
    let within' := fun (lo hi x : Nat) => decide (lo ≤ x ∧ x ≤ hi)
    let core := within' 1 500000 (wget v 50 32) && within' 1 500000 (wget v 18 0)
    ∀ row ∈ ([(.coreLimitsWrite q v, Fld.CORE_LIMITS_WAIT_NS, wget v 50 32, core),
        (.coreLimitsWrite q v, Fld.CORE_LIMITS_XCHG_NS, wget v 18 0, core),
        (.kvpLimitsWrite q v, Fld.KVP_LIMITS_BUSY_NS, wget v 19 0, within' 1 1000000 (wget v 19 0)),
        (.hbmSkewCtrlWrite q v, Fld.HBM_SKEW_CTRL_THRESHOLD, wget v 11 0, within' 256 3072 (wget v 11 0)),
        (.hbmScrubCtrlWrite q v, Fld.HBM_SCRUB_CTRL_PERIOD_H, wget v 7 0, within' 1 168 (wget v 7 0)),
        (.hbmScrubCtrlWrite q v, Fld.HBM_SCRUB_CTRL_ENABLE, wget v 63 63, within' 1 168 (wget v 7 0)),
        (.hbmNarrowCtrlWrite q v, Fld.HBM_NARROW_CTRL_ENABLE, wget v 11 0, true),
        (.fabLimitsWrite q v, Fld.FAB_LIMITS_REMOTE_NS, wget v 19 0, within' 1000 1000000 (wget v 19 0)),
        (.ttLimitsWrite q v, Fld.TT_LIMITS_HALT_NS, wget v 19 0, within' 1000 1000000 (wget v 19 0)),
        (.pwrLimitWrite q v, Fld.PWR_LIMIT_CAP_W, wget v 13 0, within' 1000 s.power.susW (wget v 13 0))] :
          List (Instr × Field × Nat × Bool)),
      (row.2.2.2 = true → ∃ u : State, exec row.1 s = .next u ∧ u.fld row.2.1 = row.2.2.1
        ∧ (∀ a, a ≠ row.2.1.reg → u.reg a = s.reg a) ∧ u.out = .regResp .ok 0 :: s.out ∧ Keeps [.regs, .out] s u)
      ∧ (row.2.2.2 = false → exec row.1 s = .next (refused s q row.2.1.reg .verify))

/-- A write of `TST_DCQ`, `TST_THROTTLE`, `TST_CREDIT`, `TST_REFRESH`, `TST_PERF_SEL` or `TST_VALVE_OVR` through a management QP that
hears: DENIED where the register is locked; else VERIFY for a selection in the first two, or an event or unit of a counter, outside
its table, and OWNED for an override of a valve that the second claimant does not hold; else the register's RW fields take the
bits, a selection clears its counter, and an override drives the valve. A write of `BWR_STAGE` sets its three fields while no swap
is pending, and is DENIED while one is. -/
def Obligations.TestRegisterWritesComplete : Prop :=
  ∀ (s : State) (q : Fin 4) (v : Word), s.mgmtHears q.val = true →
    (∀ row ∈ ([(.tstDcqWrite q v, Reg.TST_DCQ, decide (wget v 10 8 ≤ 5)), (.tstThrottleWrite q v, Reg.TST_THROTTLE, decide (wget v 8 6 ≤ 5)),
        (.tstCreditWrite q v, Reg.TST_CREDIT, true), (.tstRefreshWrite q v, Reg.TST_REFRESH, true)] : List (Instr × Nat × Bool)),
      (s.tstLocked row.2.1 = false → row.2.2 = true → exec row.1 s =
        .next (accepted (s.setReg row.2.1 ((s.reg row.2.1 &&& ~~~rwMask row.2.1) ||| (v &&& rwMask row.2.1)))))
      ∧ (s.tstLocked row.2.1 = false → row.2.2 = false → exec row.1 s = .next (refused s q row.2.1 .verify))
      ∧ (s.tstLocked row.2.1 = true → exec row.1 s = .next (refused s q row.2.1 .denied)))
    ∧ (∀ i : Fin 16,
        let good := ∃ n, perfUnits (wget v 7 0) = some n ∧ wget v 15 8 < n
        (s.tstLocked (Reg.TST_PERF_SEL i) = false → good → exec (.tstPerfSelWrite q i v) s =
          .next (accepted ((s.putRw (Reg.TST_PERF_SEL i) v).setReg (Reg.TST_PERF i) 0)))
        ∧ (s.tstLocked (Reg.TST_PERF_SEL i) = false → ¬ good →
          exec (.tstPerfSelWrite q i v) s = .next (refused s q (Reg.TST_PERF_SEL i) .verify))
        ∧ (s.tstLocked (Reg.TST_PERF_SEL i) = true →
          exec (.tstPerfSelWrite q i v) s = .next (refused s q (Reg.TST_PERF_SEL i) .denied)))
    ∧ ((s.tstLocked Reg.TST_VALVE_OVR = false → bit v.toNat 63 = false ∨ s.altOwner 18 = true →
          exec (.tstValveOvrWrite q v) s = .next (accepted (s.putRw Reg.TST_VALVE_OVR v).driveValve))
        ∧ (s.tstLocked Reg.TST_VALVE_OVR = false → bit v.toNat 63 = true → s.altOwner 18 = false →
          exec (.tstValveOvrWrite q v) s = .next (refused s q Reg.TST_VALVE_OVR .owned))
        ∧ (s.tstLocked Reg.TST_VALVE_OVR = true →
          exec (.tstValveOvrWrite q v) s = .next (refused s q Reg.TST_VALVE_OVR .denied)))
    ∧ (∀ p : Fin 8,
        (s.flag Fld.BWR_STATUS_SWAP_PENDING = false → exec (.bwrStageWrite q p v) s = .next (accepted
          (((s.setFld (Fld.BWR_STAGE_BURST_KIB p.val) (wget v 42 32)).setFld (Fld.BWR_STAGE_CEIL p.val) (wget v 24 16)).setFld
            (Fld.BWR_STAGE_FLOOR p.val) (wget v 8 0))))
        ∧ (s.flag Fld.BWR_STATUS_SWAP_PENDING = true →
          exec (.bwrStageWrite q p v) s = .next (refused s q (Reg.BWR_STAGE p.val) .denied)))

/-- A write of `SFU_TABLE_LOAD` is DENIED while a load runs or a swap waits; else the load begins from its 4 KiB-aligned source and
the inactive generation is 0. At its end an image that verifies on every core is staged with its generation and the load is READY;
a core that lost it gives INTEGRITY and an image that does not verify its own status, and the load is FAILED. SWAP of READY tables is pending until a boundary and DENIED of others; DISCARD of tables
with no swap pending empties the inactive banks. -/
def Obligations.CoefficientTablesReload : Prop :=
  ∀ (s : State) (q : Fin 4) (v : Word),
    (s.mgmtHears q.val = true →
      let busy := s.fld Fld.SFU_TABLE_STATUS_LOAD_STATE = 1 ∨ s.flag Fld.SFU_TABLE_STATUS_SWAP_PENDING = true
      let begun := ((s.setFld Fld.SFU_TABLE_STATUS_LOAD_STATE 1).setFld Fld.SFU_TABLE_STATUS_GEN_INACTIVE 0).setFld
        Fld.SFU_TABLE_STATUS_FAILED_CORES 0
      let emptied := (s.setFld Fld.SFU_TABLE_STATUS_LOAD_STATE 0).setFld Fld.SFU_TABLE_STATUS_GEN_INACTIVE 0
      (busy → exec (.sfuTableLoad q v) s = .next (refused s q Reg.SFU_TABLE_LOAD .denied))
      ∧ (¬ busy → exec (.sfuTableLoad q v) s = .next (accepted (begun.withUnits
          { begun.units with sfuLoad := some (wget v 39 12 * 4096), sfuStaged := [] })))
      ∧ (s.fld Fld.SFU_TABLE_STATUS_LOAD_STATE = 2 → exec (.sfuSwap q) s =
          .next (accepted ((s.setFld Fld.SFU_TABLE_CTRL_SWAP 1).setFld Fld.SFU_TABLE_STATUS_SWAP_PENDING 1)))
      ∧ (s.fld Fld.SFU_TABLE_STATUS_LOAD_STATE ≠ 2 → exec (.sfuSwap q) s = .next (refused s q Reg.SFU_TABLE_CTRL .denied))
      ∧ (s.flag Fld.SFU_TABLE_STATUS_SWAP_PENDING = false → exec (.sfuDiscard q) s =
          .next (accepted (emptied.withUnits { s.units with sfuLoad := none, sfuStaged := [] })))
      ∧ (s.flag Fld.SFU_TABLE_STATUS_SWAP_PENDING = true → exec (.sfuDiscard q) s = .next (refused s q Reg.SFU_TABLE_CTRL .denied)))
    ∧ (∀ a sig failed st gen s1, s.units.sfuLoad = some a → s.sfuVerify a sig = (st, gen, s1) →
      let lost := if st = .ok then min failed s.cores' else 0
      let ended := fun (why : Status) (img : List Byte) =>
        ((s1.withUnits { s1.units with sfuLoad := none, sfuStaged := img }).setFld Fld.SFU_TABLE_STATUS_LOAD_STATUS why.code).setFld
          Fld.SFU_TABLE_STATUS_FAILED_CORES lost
      (st = .ok → lost = 0 → exec (.sfuTableLoadDone sig failed) s = .next
        (((ended .ok (s.bytes a (64 + byteField (s.num a 64) 4 4))).setFld Fld.SFU_TABLE_STATUS_LOAD_STATE 2).setFld
          Fld.SFU_TABLE_STATUS_GEN_INACTIVE gen))
      ∧ (st = .ok → lost ≠ 0 → exec (.sfuTableLoadDone sig failed) s = .next ((ended .integrity []).setFld Fld.SFU_TABLE_STATUS_LOAD_STATE 3))
      ∧ (st ≠ .ok → exec (.sfuTableLoadDone sig failed) s = .next ((ended st []).setFld Fld.SFU_TABLE_STATUS_LOAD_STATE 3)))

/-- An HBM_REQUEST inside HBM whose words and path let it be made writes or reads its bytes and is answered OK or with the data; one
that they do not let be made is answered with its status, one that begins outside HBM with UNMAPPED and one that ends outside with
BOUNDS. SCRUB_STEP, enabled and with HBM ready, scrubs the codeword it names, where that is the next, of the granules at the position of every stack; after the
64th it moves the position on, and a pass ends at 2^24. SKEW_WINDOW_END shows each stack's units, the skew and the stack with the
most, counts a window over the threshold and opens a new one. STACK_TEMPERATURE_HOT shows a temperature and sets HOT above 85 °C.
BWR_SWAP with none pending and a good staged table names an epoch at least two epochs on. BWR_SWAP_EPOCH, once it has come, exchanges
the banks, clamps the token levels to the new bursts and counts a generation; before, it does nothing. -/
def Obligations.MemorySystemCommandsComplete : Prop :=
  ∀ s : State,
    (∀ (cls : Fin 8) (addr : BitVec 40) (len : Nat) (data : List Byte),
      (addr.toNat < hbmEnd → addr.toNat + data.length ≤ hbmEnd →
        (∀ u, s.writeCheck cls.val addr.toNat data.length = (.ok, u) →
          exec (.hbmRequest cls true addr len data) s = .next ((u.putBytes addr.toNat data).emit (.regResp .ok 0)))
        ∧ (∀ st u, st ≠ .ok → s.writeCheck cls.val addr.toNat data.length = (st, u) →
          exec (.hbmRequest cls true addr len data) s = .next (u.emit (.regResp st 0))))
      ∧ (addr.toNat < hbmEnd → addr.toNat + len ≤ hbmEnd →
        (∀ u, s.readCheck cls.val (.hbmClass cls.val) addr.toNat len = (.ok, u) →
          exec (.hbmRequest cls false addr len data) s = .next (u.emit (.readData cls.val 0 (u.bytes addr.toNat len))))
        ∧ (∀ st u, st ≠ .ok → s.readCheck cls.val (.hbmClass cls.val) addr.toNat len = (st, u) →
          exec (.hbmRequest cls false addr len data) s = .next (u.emit (.readData cls.val st.code []))))
      ∧ ∀ write, (hbmEnd ≤ addr.toNat → exec (.hbmRequest cls write addr len data) s = .next (s.emit (.regResp .unmapped 0)))
        ∧ (addr.toNat < hbmEnd → hbmEnd < addr.toNat + (if write then data.length else len) →
          exec (.hbmRequest cls write addr len data) s = .next (s.emit (.regResp .bounds 0))))
    ∧ (s.flag Fld.HBM_SCRUB_CTRL_ENABLE = true → s.ready rdyHbm = true →
      let i := s.units.hbm.scrubAt
      let pos := s.fld Fld.HBM_SCRUB_STATUS_POSITION
      let v := (List.range 12).foldl (fun x r => x.scrubWord ((12 * pos + r) * 4096 + 64 * i)) (s.setReady rdyScrub)
      let u := v.withUnits { v.units with hbm := { v.units.hbm with scrubAt := (i + 1) % 64 } }
      (∀ idx : Fin 64, idx.val ≠ i → exec (.scrubStep idx) s = .next s)
      ∧ ∀ idx : Fin 64, idx.val = i →
      (i < 63 → exec (.scrubStep idx) s = .next u)
      ∧ (63 ≤ i → pos + 1 ≠ 2 ^ 24 → exec (.scrubStep idx) s = .next (u.setFld Fld.HBM_SCRUB_STATUS_POSITION (pos + 1)))
      ∧ (63 ≤ i → pos + 1 = 2 ^ 24 → exec (.scrubStep idx) s = .next
        ((u.setFld Fld.HBM_SCRUB_STATUS_POSITION 0).bumpWrap Fld.HBM_SCRUB_STATUS_PASSES 1)))
    ∧ (let units := fun st => SMap.get 0 s.units.hbm.window st
       let total := (List.range 12).foldl (fun t st => t + units st) 0
       let most := (List.range 12).foldl (fun m st => max m (units st)) 0
       let stack := ((List.range 12).find? (fun st => units st = most)).getD 0
       let skew := if total < 2 ^ 20 then 0 else 12 * 256 * most / total
       let s1 := (List.range 12).foldl (fun x st => x.setFld (Fld.HBM_STACK_LAST_WINDOW_UNITS st) (units st)) s
       let s2 := ((s1.setFld Fld.HBM_SKEW_SKEW skew).setFld Fld.HBM_SKEW_MAX_STACK stack).bumpWrap Fld.HBM_SKEW_WINDOWS 1
       let s3 := if s.fld Fld.HBM_SKEW_CTRL_THRESHOLD < skew then
           (s2.bump Fld.HBM_SKEW_OVER_WINDOWS Fld.HBM_SKEW_OVER_SAT 1).setFld Fld.HBM_SKEW_OVER_FLAG 1 else s2
       exec .skewWindowEnd s = .next (s3.withUnits { s3.units with hbm := { s3.units.hbm with window := [] } }))
    ∧ (∀ (stack : Fin 12) (tempC : BitVec 8), exec (.stackTemperatureHot stack tempC) s = .next
        ((s.setFld (Fld.HBM_STACK_TEMP_C stack.val) tempC.toNat).setFld (Fld.HBM_STACK_HOT stack.val) (if 85 < tempC.toNat then 1 else 0)))
    ∧ (∀ q : Fin 4, s.mgmtHears q.val = true → s.flag Fld.BWR_STATUS_SWAP_PENDING = false → regulatorOk s.bwrStage = true →
        ∃ e u, exec (.bwrSwap q) s = .next (accepted u) ∧ s.time.toNat + 8192 ≤ e ∧ e % 4096 = 0
          ∧ u.units.hbm = { s.units.hbm with epoch := some e } ∧ Keeps [.regs, .units] s u)
    ∧ (∀ e, s.units.hbm.epoch = some e → e ≤ s.time.toNat →
        let swapped := (List.range 8).foldl (fun x p =>
          (x.setReg (Reg.BWR_ACTIVE p) (s.reg (Reg.BWR_STAGE p))).setReg (Reg.BWR_STAGE p) (s.reg (Reg.BWR_ACTIVE p))) s
        ∃ u, (u.units.hbm.epoch = none ∧ Keeps [.units] swapped u ∧ ∀ k, k < 96 →
            SMap.get 0 u.units.hbm.floorTok k ≤ swapped.fld (Fld.BWR_ACTIVE_BURST_KIB (k % 8)) * 65536
            ∧ SMap.get 0 u.units.hbm.ceilTok k ≤ swapped.fld (Fld.BWR_ACTIVE_BURST_KIB (k % 8)) * 65536)
          ∧ exec .bwrSwapEpoch s =
            .next (((u.bumpWrap Fld.BWR_STATUS_GEN 1).setFld Fld.BWR_STATUS_SWAP_PENDING 0).setFld Fld.BWR_CTRL_SWAP 0))
    ∧ (∀ e, s.units.hbm.epoch = some e → s.time.toNat < e → exec .bwrSwapEpoch s = .next s)

/-! ### Accesses to the register window and the memories -/

/-- REGISTER_WRITE of 8 aligned bytes at a register by a requester that may write it acts by that register's rule and is answered
with its status, logged where that is not OK; of a register with no field that may be written it is DENIED. MGMT_RDMA_WRITE and
MGMT_RDMA_READ of whole words in the register window act on each word, a write where the connection then still stands; one whose PSN is
among those kept is answered from what is kept. Of a memory that lets it be made, they write and read it. VIO_LOG_READ of a new PSN
reads words of a log's page in one state of the log, and answers with them. -/
def Obligations.RegisterAccessesComplete : Prop :=
  (∀ (s : State) (x : RegAccess) (r : RegRow), regBase ≤ x.addr.toNat → s.reaches x.req = true →
      let a := x.addr.toNat - regBase
      a % 8 = 0 → x.len = 8 → mayWrite x.req a = true → findReg a = some r →
      (r.noWrite = true → exec (.registerWrite x) s = .next ((s.logReg x.req a .denied).emit (.regResp .denied 0)))
      ∧ (r.noWrite = false → ∀ st u, writeRule x.obs r a x.data s = (st, u) →
          exec (.registerWrite x) s = .next ((u.logReg x.req a st).emit (.regResp st 0))))
  ∧ (∀ (s : State) (q : Fin 4) (psn va : Nat), s.mgmtHears q.val = true →
      let qpn := mgmtQpn q.val
      (toWindow va = true →
        (∀ data obs, (s.seenBefore q.val psn true).isSome = true →
          exec (.mgmtRdmaWrite q psn va data obs) s = .next (s.emit (.ack qpn psn)))
        ∧ (∀ data obs, s.seenBefore q.val psn true = none → windowStatus va data.length = .ok →
            let u := s.writeWords q.val obs (va - regBase) (wordsLE data)
            u.mgmtConn q.val = true →
            exec (.mgmtRdmaWrite q psn va data obs) s = .next ((u.keepSeen q.val ⟨psn, true, []⟩).emit (.ack qpn psn)))
        ∧ (∀ len m, s.seenBefore q.val psn false = some m →
            exec (.mgmtRdmaRead q psn va len) s = .next (s.emit (.readData qpn psn m.data)))
        ∧ (∀ len, s.seenBefore q.val psn false = none → windowStatus va len = .ok →
            exec (.mgmtRdmaRead q psn va len) s = .next (s.readWindow q.val psn (va - regBase) len [])))
      ∧ (toWindow va = false →
        (∀ data obs u, s.mgmtMemStatus true va data.length = .ok → s.writeMem 4 va data = (.ok, u) →
          exec (.mgmtRdmaWrite q psn va data obs) s = .next (u.emit (.ack qpn psn)))
        ∧ (∀ len l u, s.mgmtMemStatus false va len = .ok → s.readMem 4 (.qp qpn) va len = (.ok, l, u) →
            exec (.mgmtRdmaRead q psn va len) s = .next (u.emit (.readData qpn psn l))))
      ∧ (∀ (page : Fin 21) (first words : Nat) (arising : List Arising), first + words ≤ 512 →
          s.seenBefore q.val psn false = none → exec (.vioLogRead q psn page first words arising) s =
            .next (s.readWindow q.val psn (Reg.VIO_HEAD page.val + 8 * first) (8 * words) (arising.map (fun x => (page.val, x))))))

/-- On a data queue pair whose port is up and that is READY: a write within the window is written and acknowledged; a read within it
is answered with its bytes; what R410 or the memory refuses is a NAK and an entry in the HST log, and in the log of the register's
block where it is another's register. A write of the pair's own doorbell word rings it, and DOORBELL does too; a read of that word
answers its 8 bytes. Ringing with the count already there changes nothing, one within the ring takes consists, and one behind or
beyond the ring moves the pair to ERROR with BOUNDS. -/
def Obligations.HostRequestsComplete : Prop :=
  ∀ (s : State) (n : Fin 256) (psn va rkey : Nat), s.hears n.val = true →
    let qpn := dataQpn n.val
    (∀ (data : List Byte), s.dataAccess n.val va data.length rkey = .ok →
        (va ≠ doorbellAddr n.val → ∀ u, s.writeMem 4 va data = (.ok, u) →
          exec (.dataQpRdmaWrite n psn va rkey data) s = .next (u.emit (.ack qpn psn)))
        ∧ (va ≠ doorbellAddr n.val → ∀ st u, st ≠ .ok → s.writeMem 4 va data = (st, u) →
          exec (.dataQpRdmaWrite n psn va rkey data) s = .next (u.nakHost qpn psn va st))
        ∧ (va = doorbellAddr n.val →
          exec (.dataQpRdmaWrite n psn va rkey data) s = .next ((s.ring' n.val (leNat (data.take 4))).emit (.ack qpn psn))))
    ∧ (∀ (data : List Byte), s.dataAccess n.val va data.length rkey ≠ .ok →
        exec (.dataQpRdmaWrite n psn va rkey data) s = .next (s.nakHost qpn psn va (s.dataAccess n.val va data.length rkey)))
    ∧ (∀ len, s.dataAccess n.val va len rkey = .ok →
        (va ≠ doorbellAddr n.val → ∀ l u, s.readMem 4 (.qp qpn) va len = (.ok, l, u) →
          exec (.dataQpRdmaRead n psn va rkey len) s = .next (u.emit (.readData qpn psn l)))
        ∧ (va ≠ doorbellAddr n.val → ∀ st l u, st ≠ .ok → s.readMem 4 (.qp qpn) va len = (st, l, u) →
          exec (.dataQpRdmaRead n psn va rkey len) s = .next (u.nakHost qpn psn va st))
        ∧ (va = doorbellAddr n.val → exec (.dataQpRdmaRead n psn va rkey len) s =
          .next (s.emit (.readData qpn psn (leBytes 8 (s.reg (Reg.HST_DOORBELL n.val)).toNat)))))
    ∧ (∀ len, s.dataAccess n.val va len rkey ≠ .ok →
        exec (.dataQpRdmaRead n psn va rkey len) s = .next (s.nakHost qpn psn va (s.dataAccess n.val va len rkey)))
    ∧ (∀ (st : Status), s.nakHost qpn psn va st =
        ((if toWindow va = true ∧ logBlock (va - regBase) ≠ 15 then s.log (logBlock (va - regBase)) st (.qp qpn) va else s).log
          15 st (.qp qpn) va).emit (.nak qpn psn))
    ∧ (∀ produced : BitVec 32,
        let d := (produced.toNat + 2 ^ 32 - s.produced n.val) % 2 ^ 32
        let ahead := (produced.toNat + 2 ^ 32 - s.consumed n.val) % 2 ^ 32
        (d = 0 → exec (.doorbell n produced) s = .next s)
        ∧ (0 < d → d < 2 ^ 31 → ahead ≤ s.ringSize n.val →
          exec (.doorbell n produced) s = .next ((s.setFld (Fld.HST_DOORBELL_PRODUCED n.val) produced.toNat).advance n.val))
        ∧ ((2 ^ 31 ≤ d ∨ (0 < d ∧ s.ringSize n.val < ahead)) → exec (.doorbell n produced) s =
          .next ((s.log 15 .bounds (.qp qpn) (doorbellAddr n.val)).enterError n.val .bounds)))

/-- MS_UNCORRECTABLE_READ within the map store is answered with the status and bytes that the read gives; where a path and the map
store's readiness let it be made and a word of it is marked, that is UNCORRECTABLE and no bytes. D2D_FLIT_CRC_FAIL takes one flit that
an injection planted from those to come, and changes nothing where none was. D2D_LINK_OUT_OF_SERVICE of a link in service, once
firmware runs, ends with TIMEOUT each MOVE in flight that it names, takes the link and its dependants out of service and shows
DEGRADED; of a link already out it changes nothing. -/
def Obligations.LinkAndMapStoreFailuresComplete : Prop :=
  ∀ s : State,
    (∀ (req : Requester) (addr : BitVec 40) (len : Nat), isMs addr.toNat = true → addr.toNat + len ≤ msEnd →
      ∃ st l u, s.readMem 0 req addr.toNat len = (st, l, u)
        ∧ exec (.msUncorrectableRead req addr len) s = .next (u.emit (.readData req.id st.code l))
        ∧ (s.pathStatus addr.toNat len = .ok → (∃ w ∈ s.msBad, addr.toNat / 64 ≤ w ∧ w * 64 < addr.toNat + len) → 0 < len →
          st = .uncorrectable ∧ l = []))
    ∧ (∀ l : Fin 56, (SMap.get 0 s.boot.badFlits l.val = 0 → exec (.d2dFlitCrcFail l) s = .next s)
        ∧ (∀ n, SMap.get 0 s.boot.badFlits l.val = n + 1 → exec (.d2dFlitCrcFail l) s =
          .next (s.withBoot { s.boot with badFlits := SMap.set 0 s.boot.badFlits l.val n })))
    ∧ (∀ l : LinkLoss, s.boot.bundle.isSome = true →
        (s.linkOut l.link.val = false →
          let t := l.hits.foldl State.strand s
          exec (.d2dLinkOutOfService l) s =
            .next (((t.withBoot { t.boot with linksDown := l.link.val :: t.boot.linksDown }).dependants l.link.val).showDegraded))
        ∧ (s.linkOut l.link.val = true → exec (.d2dLinkOutOfService l) s = .next s))
    ∧ (∀ core i f, (s.core core).inflight[i]? = some f → f.isMove = true → s.strand (core, i) = s.setCore core
        { s.core core with inflight := setNth (s.core core).inflight i { f with worst := f.worst.worse .timeout } })

/-- Through a management QP that hears, each register not locked. TST_INJ_ARM of a good kind, unit, count and address, none being armed, arms it now; while one is armed it is DENIED. A write of
`TST_TRACE_CTRL` by TST_TRACE_ENABLE with `ENABLE`, the buffer and the pulses it asks for being its to take, clears the buffer; without
`ENABLE` its fields take the bits. EYE_START with `ENABLE` 0 on an owned scanner traces each point found. PMBUS_READ, PMBUS_WRITE and
FLASH_READ through a good buffer, their resource owned by the second claimant and their accesses to it letting them, move 64 bytes; a
shelf that does not answer PMBUS_READ gives TIMEOUT. -/
def Obligations.DebugCommandsComplete : Prop :=
  ∀ (s : State) (q : Fin 4) (v : Word), s.mgmtHears q.val = true →
    (s.tstLocked Reg.TST_INJ_CTRL = false →
      let w := v ||| 0x0800000000000000
      let kind := wget w 63 60
      let s1 := (s.putRw Reg.TST_INJ_CTRL w).setFld Fld.TST_INJ_CTRL_ARM 1
      (s.flag Fld.TST_INJ_CTRL_ARM = false → injOk kind (wget w 55 48) (wget w 47 40) (s.fld Fld.TST_INJ_ADDR_ADDR) = true →
        exec (.tstInjArm q v) s = .next (accepted (s1.withTest { s1.test with armedAt := some s.time.toNat })))
      ∧ (s.flag Fld.TST_INJ_CTRL_ARM = true → exec (.tstInjArm q v) s = .next (refused s q Reg.TST_INJ_CTRL .denied)))
    ∧ (s.tstLocked Reg.TST_TRACE_CTRL = false →
      (bit v.toNat 63 = true → s.altOwner resTrace = false → (bit v.toNat 38 = true → s.altOwner resPulses = true) →
        exec (.tstTraceEnable q v) s = .next (accepted (s.putRw Reg.TST_TRACE_CTRL (v &&& 0xffffffffffefffff)).clearTrace))
      ∧ (bit v.toNat 63 = false → exec (.tstTraceEnable q v) s =
          .next (accepted (s.putRw Reg.TST_TRACE_CTRL (v &&& 0xffffffffffefffff))))
      ∧ (let p := wget v 31 24
         bit v.toNat 63 = false → p < 36 → s.altOwner (resScanner p) = true → ∀ points, exec (.eyeStart q v points) s =
          .next (accepted (points.foldl (fun a d => a.trace 5 19 .ok (8 * p + wget v 23 21) 0 d)
            (s.putRw Reg.TST_TRACE_CTRL (v ||| 0x100000))))))
    ∧ (s.tstLocked Reg.TST_DIRECT_CMD = false → ∀ (a : BitVec 40), s.directBuf a.toNat = .ok →
      (s.altOwner resPmbus = true → ∀ code : Fin 256,
        (∀ l u, (s.emit (.pmbus false code.val [])).writeMem 7 a.toNat (l.take 64) = (.ok, u) →
          exec (.pmbusRead q code a (some l)) s = .next (accepted u))
        ∧ (exec (.pmbusRead q code a none) s = .next (refused (s.emit (.pmbus false code.val [])) q Reg.TST_DIRECT_CMD .timeout))
        ∧ (∀ l u, s.readMem 7 .module a.toNat 64 = (.ok, l, u) →
          exec (.pmbusWrite q code a) s = .next (accepted (u.emit (.pmbus true code.val l)))))
      ∧ (s.altOwner resFlash = true → ∀ l u, s.readMem 7 .module a.toNat 64 = (.ok, l, u) →
        let f := leNat (l.take 4)
        f + 64 ≤ sectorCount * sectorSize → ∀ t, u.writeMem 7 a.toNat (u.flashBytes f 64) = (.ok, t) →
        exec (.flashRead q a) s = .next (accepted t)))

/-- Each injection, once armed with its kind and its delay is over (the first two with HBM ready, FORCE_RETRAIN of a port that expects
a neighbour and is neither DISABLED nor FAILED): `ARM` reads 0, the effect of Table 19-6 follows, and the firing is
traced with the unit and the address. INJECT_HBM_CE inverts bytes 0 and 1 of the codeword, INJECT_HBM_UE bytes 0 to 3;
INJECT_MS_UE marks the word; INJECT_D2D_CRC plants bad flits on the link; INJECT_FAB_FEC sends a codeword with bad symbols;
FORCE_HALT asks a halt as PREEMPT does; FORCE_RETRAIN takes a port in service out with TIMEOUT. -/
def Obligations.InjectionsComplete : Prop :=
  ∀ s : State,
    let unit := s.fld Fld.TST_INJ_CTRL_UNIT
    let addr := s.fld Fld.TST_INJ_ADDR_ADDR
    let count := s.fld Fld.TST_INJ_CTRL_COUNT
    let u := (s.setFld Fld.TST_INJ_CTRL_ARM 0).withTest { s.test with armedAt := none }
    let traced := fun (x : State) => x.trace 4 19 .ok unit addr 0
    let flip := fun mask => u.withEccMask (SMap.set 0 u.eccMask (addr / 64) (Nat.xor (SMap.get 0 u.eccMask (addr / 64)) mask))
    (s.injDue 1 = true → u.ready rdyHbm = true → exec .injectHbmCe s = .next (traced (flip 0x3)))
    ∧ (s.injDue 2 = true → u.ready rdyHbm = true → exec .injectHbmUe s = .next (traced (flip 0xf)))
    ∧ (s.injDue 3 = true → ∃ t, exec .injectMsUe s = .next (traced t) ∧ addr / 64 ∈ t.msBad
        ∧ (∀ w, w ≠ addr / 64 → (w ∈ t.msBad ↔ w ∈ s.msBad)) ∧ Keeps [.ecc] u t)
    ∧ (s.injDue 4 = true → exec .injectD2dCrc s = .next (traced (u.withBoot { u.boot with
        badFlits := SMap.set 0 u.boot.badFlits unit (max (SMap.get 0 u.boot.badFlits unit) count) })))
    ∧ (s.injDue 5 = true → exec .injectFabFec s = .next (traced (u.emit (.badSymbols unit count))))
    ∧ (s.injDue 6 = true → exec .forceHalt s = .next (traced (ttCtrlWrite 4 u).2))
    ∧ (s.injDue 7 = true → u.expects unit = true → u.portState unit ≠ psDisabled → u.portState unit ≠ psFailed →
        exec .forceRetrain s = .next (traced (u.leaveService unit psFailed .timeout 0)))

/-! ### The host side -/

/-- HOST_LINK_UP of a port that is down, after secure boot, with its clock and its FX die good and connected, shows its link and kind
and sets bit HOST_LINK; HOST_LINK_DOWN clears the link, and the bit where no link is left. On a port whose link is up: CM_REQ for the
service while the bit MGMT is set connects the management QP afresh, and while it is connected, or for another service, is answered
REJ; CM_DREQ ends the connection; a frame with a wrong FCS, ICRC, VLAN or QP is discarded and counted, one that is accepted without a
CE mark changes only the FEC count, and with one it is answered by a CNP unless its QP sent one less than 50 µs ago. CNP_RECEIVED of a
data queue pair that hears lowers its rate. -/
def Obligations.HostPortEventsComplete : Prop :=
  ∀ (s : State) (k : Fin 4),
    (s.ready rdySecureBoot = true → s.linkUp k.val = false → s.boot.sdsclk = true → 4 ∉ s.boot.badComponents →
        41 + 2 * k.val ∉ s.boot.linksDown → ∀ kr, exec (.hostLinkUp k kr) s =
          .next (((s.setFld (Fld.HST_PORT_STATUS_LINK k.val) 1).setFld (Fld.HST_PORT_STATUS_KR k.val) (b2n kr)).setReady rdyHostLink))
    ∧ (let s1 := s.setFld (Fld.HST_PORT_STATUS_LINK k.val) 0
       ((∃ i, i < 4 ∧ s1.linkUp i = true) → exec (.hostLinkDown k) s = .next s1)
       ∧ ((∀ i, i < 4 → s1.linkUp i = false) → exec (.hostLinkDown k) s = .next (s1.clearReady rdyHostLink)))
    ∧ (s.linkUp k.val = true →
      (s.ready rdyMgmt = true →
        (s.mgmtConn k.val = false →
          let s1 := (s.setQp (256 + k.val) {}).setFld (Fld.HST_PORT_STATUS_MGMT_CONN k.val) 1
          exec (.cmReq k mgmtService) s =
            .next (((s1.withHost { s1.host with seen := SMap.erase s1.host.seen k.val }).emit (.cm k.val true)).sendHeldEvents))
        ∧ (∀ service, (s.mgmtConn k.val = true ∨ service ≠ mgmtService) → exec (.cmReq k service) s = .next (s.emit (.cm k.val false))))
      ∧ (s.mgmtConn k.val = true → exec (.cmDreq k) s = .next ((s.dropConn k.val).emit (.disconnect k.val)))
      ∧ (∀ f : EthFrame,
        let s1 := if f.fec = 0 then s else s.bump (Fld.HST_PORT_COUNTS_FEC_UNCORR k.val) (Fld.HST_PORT_COUNTS_FEC_SAT k.val) f.fec
        let dataVlan := s1.fld (Fld.HST_PORT_CFG_DATA_VLAN k.val)
        let good := f.fcsOk = true ∧ f.icrcOk = true
          ∧ (f.vlan = some (s1.fld (Fld.HST_PORT_CFG_MGMT_VLAN k.val)) ∨ (f.vlan = some dataVlan ∧ dataVlan ≠ 0))
          ∧ (f.qpn = 1 ∨ ∃ n, qpPlace f.qpn = some n ∧ s1.qpAnswers n = true)
        let recent := ∃ t, SMap.find s1.host.cnpSent f.qpn = some t ∧ s1.time.toNat < t + 50000
        (¬ good → exec (.ethFrameReceived k f) s =
          .next (s1.bump (Fld.HST_PORT_COUNTS_DROPPED k.val) (Fld.HST_PORT_COUNTS_DROP_SAT k.val) 1))
        ∧ (good → f.ce = false ∨ recent → exec (.ethFrameReceived k f) s = .next s1)
        ∧ (good → f.ce = true → ¬ recent → exec (.ethFrameReceived k f) s = .next
          ((s1.withHost { s1.host with cnpSent := SMap.insert s1.host.cnpSent f.qpn s1.time.toNat }).emit (.cnp f.qpn)))))
    ∧ (∀ n : Fin 256, s.hears n.val = true →
        exec (.cnpReceived n) s = .next (s.setQp n.val { s.qp n.val with rateCut := (s.qp n.val).rateCut + 1 }))

/-- A write of a word of a queue pair's page through a management QP that hears. In RESET words 1 to 7 take their writable bits; word 0
with STATE READY is judged by R409 and enters READY afresh or is refused with that status, with STATE RESET takes its bits, with
STATE ERROR is DENIED and with STATE 3 VERIFY. In READY words 1 to 7 are DENIED, and word 0 with STATE RESET and nothing else changed
enters RESET. In ERROR words 1 to 7 that leave the kept fields as they are take their bits, and word 0 that leaves them enters RESET,
or READY again where R409 lets it. The configuration of a port with a READY pair is DENIED; else a data VLAN above 4094 is VERIFY,
another is taken with its fields, and a GID is taken whole. -/
def Obligations.QueuePairPagesComplete : Prop :=
  ∀ (s : State) (q : Fin 4) (v : Word), s.mgmtHears q.val = true →
    (∀ (n : Fin 256) (w : Fin 8),
      let a := Reg.HST_QP_W0 n.val + 8 * w.val
      let put := s.setReg a (v &&& qpMask w.val)
      (w.val ≠ 0 → s.qpState n.val = 0 → exec (.qpStateWrite q n w v) s = .next (accepted put))
      ∧ (w.val ≠ 0 → s.qpState n.val = 1 → exec (.qpStateWrite q n w v) s = .next (refused s q a .denied))
      ∧ (w.val = 0 → s.qpState n.val = 0 →
        (wget v 63 62 = 0 → exec (.qpStateWrite q n w v) s = .next (accepted put))
        ∧ (wget v 63 62 = 1 → s.readyStatus n.val v = .ok →
          exec (.qpStateWrite q n w v) s = .next (accepted (put.enterReady n.val true)))
        ∧ (wget v 63 62 = 1 → s.readyStatus n.val v ≠ .ok →
          exec (.qpStateWrite q n w v) s = .next (refused s q a (s.readyStatus n.val v)))
        ∧ (wget v 63 62 = 2 → exec (.qpStateWrite q n w v) s = .next (refused s q a .denied))
        ∧ (wget v 63 62 = 3 → exec (.qpStateWrite q n w v) s = .next (refused s q a .verify)))
      ∧ (w.val = 0 → s.qpState n.val = 1 → wget v 63 62 = 0 → v &&& qpMask 0 &&& 0x3fffffffffffffff = s.reg a &&& 0x3fffffffffffffff →
        exec (.qpStateWrite q n w v) s = .next (accepted (put.enterReset n.val)))
      ∧ (s.qpState n.val = 2 → qpKeep w.val v = qpKeep w.val (s.reg a) →
        (w.val ≠ 0 → exec (.qpStateWrite q n w v) s = .next (accepted put))
        ∧ (w.val = 0 → wget v 63 62 = 0 → exec (.qpStateWrite q n w v) s = .next (accepted (put.enterReset n.val)))
        ∧ (w.val = 0 → wget v 63 62 = 1 → s.readyStatus n.val v = .ok →
          exec (.qpStateWrite q n w v) s = .next (accepted (put.enterReady n.val false)))))
    ∧ (∀ k : Fin 4,
      (s.portBusy k.val = true → ∀ r : Fin 3, exec (.hstPortCfgWrite q k r v) s =
        .next (refused s q (nth 0 [Reg.HST_PORT_CFG k.val, Reg.HST_PORT_GID_HI k.val, Reg.HST_PORT_GID_LO k.val] r.val) .denied))
      ∧ (s.portBusy k.val = false →
        (4094 < wget v 51 40 → exec (.hstPortCfgWrite q k 0 v) s = .next (refused s q (Reg.HST_PORT_CFG k.val) .verify))
        ∧ (wget v 51 40 ≤ 4094 → exec (.hstPortCfgWrite q k 0 v) s = .next (accepted ((((s.setFld (Fld.HST_PORT_CFG_DATA_VLAN k.val) (wget v 51 40)).setFld (Fld.HST_PORT_CFG_DSCP k.val)
            (wget v 27 22)).setFld (Fld.HST_PORT_CFG_PFC_PRIO k.val) (wget v 21 19)).setFld (Fld.HST_PORT_CFG_PFC_EN k.val)
            (wget v 18 18))))
        ∧ exec (.hstPortCfgWrite q k 1 v) s = .next (accepted (s.setReg (Reg.HST_PORT_GID_HI k.val) v))
        ∧ exec (.hstPortCfgWrite q k 2 v) s = .next (accepted (s.setReg (Reg.HST_PORT_GID_LO k.val) v))))

/-- An entry of a consist in progress that has not begun, the queue pair being READY and no entry having failed. Where its bytes, the
window or the tenant refuse it, it ends with that status. CONSIST_NOP ends OK; CONSIST_COPY_LOCAL copies its bytes and ends with the copy's status;
CONSIST_COPY_IN asks the host for its bytes; CONSIST_COPY_OUT sends its bytes to the host and ends with an error of reading them;
CONSIST_JOB, every earlier entry being OK and the module ready for jobs, is admitted or ends with its refusal. CONSIST_COMPLETE of
one that is done and has entries sends its completion and takes the consists that wait. -/
def Obligations.ConsistEntriesComplete : Prop :=
  (∀ (s : State) (n : Fin 256) (c e : Nat) (x : Consist) (y : Entry), (s.qp n.val).consists[c]? = some x →
      x.entries[e]? = some (y, .waiting) → s.qpState n.val = 1 → x.entries.all (fun z => !z.2.failed) = true →
      let st := Status.lowest [y.check,
        .when (y.check = .ok && y.ranges.any (fun r => !s.inWindow n.val r.1 r.2)) .bounds,
        .when (decide (y.op = 0x10) && decide (y.tenant ≠ s.qpTenant n.val)) .denied]
      (y.op = 0 → st = .ok → exec (.consistNop n c e) s = .next (s.setProgress n.val c e (.ended .ok)))
      ∧ (y.op = 3 → st = .ok → ∀ r u, s.copyMem 4 (.qp (dataQpn n.val)) (bits y.remote 39 0) y.localAddr y.length = (r, u) →
          exec (.consistCopyLocal n c e) s = .next (u.setProgress n.val c e (.ended r)))
      ∧ (y.op = 1 → st = .ok → exec (.consistCopyIn n c e) s =
          .next ((s.setProgress n.val c e (.running 0 0 .ok)).pumpEntry n.val c e 16))
      ∧ (y.op = 2 → st = .ok →
        (∀ l u, s.readMem 4 (.qp (dataQpn n.val)) y.localAddr y.length = (.ok, l, u) →
          let s1 := u.setQp n.val ((u.qp n.val).ask (u.packets n.val y.length) (.write x.first e y.length))
          exec (.consistCopyOut n c e) s = .next ((s1.setProgress n.val c e (.running y.length 0 .ok)).emit
            (.rdmaWrite (dataQpn n.val) y.remote y.rkey l)))
        ∧ (∀ r l u, s.readMem 4 (.qp (dataQpn n.val)) y.localAddr y.length = (r, l, u) → r ≠ .ok →
          exec (.consistCopyOut n c e) s = .next (u.setProgress n.val c e (.ended r))))
      ∧ (y.op = 0x10 → st = .ok → (x.entries.take e).all (fun z => decide (z.2 = .ended .ok)) = true →
          s.ready rdyCores = true → s.ready rdyTimetable = true →
          let job : Job := { jobId := y.jobId, tenant := y.tenant, cls := y.cls, qp := n.val, user := y.user,
                             ring := x.first + e, image := y.localAddr, length := y.length }
          let s1 := s.setProgress n.val c e .admitted
          (∀ u, s1.admitJob job = (.ok, u) → exec (.consistJob n c e) s = .next u)
          ∧ (∀ r u, r ≠ .ok → s1.admitJob job = (r, u) → exec (.consistJob n c e) s = .next (u.setProgress n.val c e (.ended r))))
      ∧ (st ≠ .ok → ∀ row ∈ [(0, Instr.consistNop n c e), (1, .consistCopyIn n c e), (2, .consistCopyOut n c e), (3, .consistCopyLocal n c e)], y.op = row.1 →
          exec row.2 s = .next (s.setProgress n.val c e (.ended st))))
  ∧ (∀ (s : State) (n : Fin 256) (c : Nat) (x : Consist), (s.qp n.val).consists[c]? = some x → x.done = true →
      ∀ y, x.entries.getLast?.map (·.1) = some y →
      let s1 := s.setQp n.val { s.qp n.val with consists := (s.qp n.val).consists.eraseIdx c }
      let index := (x.first + x.entries.length - 1) % 2 ^ 32
      let job := if y.op = 0x10 then y.jobId else 0
      let done : Completion := { user := y.user, status := x.status, kind := .consist, index := index, jobId := job }
      exec (.consistComplete n c) s = .next ((s1.sendOn n.val done).advance n.val))

/-- ROCE_RESPONSE on a queue pair that hears: an ACK at the end of a request, with no read up to it, ends the requests up to it; read
data is stored and counts to the entry that asked for it; a NAK ends the request it answers with DENIED; an RNR NAK leaves the request
to wait. QP_ACK_TIMEOUT with requests waiting counts a retry until `RETRY_CNT`, then a data queue pair enters ERROR with TIMEOUT; a
management connection ends. RNR_RETRY after an RNR NAK sends again the SENDs that wait and then what is held. -/
def Obligations.HostResponsesComplete : Prop :=
  ∀ (s : State) (n : Fin 260),
    let q := s.qp n.val
    (s.hears n.val = true →
      (∀ psn l rest, splitAck psn q.reqs = some (l, rest) →
        exec (.roceResponse n (.ack psn)) s = .next ((s.ackAll n.val l rest).pump n.val))
      ∧ (∀ psn bytes l x rest first e off len, splitAt psn q.reqs = some (l, x, rest) → x.kind = .read first e off len →
        let s1 := s.ackAll n.val l rest
        ∀ y st u, (s1.qp n.val).consists.findSome? (fun c => if c.first = first then (c.entries[e]?).map (·.1) else none) = some y →
        s1.writeMem 4 (y.localAddr + off) (bytes.take len) = (st, u) →
        exec (.roceResponse n (.data psn bytes)) s = .next ((u.onEntry n.val first e (Progress.answered len st)).pump n.val))
      ∧ (∀ psn l x rest first e len, splitAt psn q.reqs = some (l, x, rest) →
        (x.kind = .write first e len ∨ ∃ off, x.kind = .read first e off len) →
        exec (.roceResponse n (.nak psn)) s =
          .next (((s.ackAll n.val l rest).onEntry n.val first e (Progress.answered len .denied)).pump n.val))
      ∧ (∀ psn l x rest, splitAt psn q.reqs = some (l, x, rest) →
        let s1 := s.ackAll n.val l (x :: rest)
        exec (.roceResponse n (.rnr psn)) s = .next (s1.setQp n.val { s1.qp n.val with rnr := true })))
    ∧ (q.reqs ≠ [] → s.qpAnswers n.val = true →
      (256 ≤ n.val → exec (.qpAckTimeout n) s = .next (s.dropConn (n.val - 256)))
      ∧ (n.val < 256 → q.retries < s.fld (Fld.HST_QP_W0_RETRY_CNT n.val) →
        exec (.qpAckTimeout n) s = .next (s.setQp n.val { q with retries := q.retries + 1 }))
      ∧ (n.val < 256 → s.fld (Fld.HST_QP_W0_RETRY_CNT n.val) ≤ q.retries →
        exec (.qpAckTimeout n) s = .next (s.enterError n.val .timeout)))
    ∧ (q.rnr = true → s.qpAnswers n.val = true →
      let s1 := s.setQp n.val { q with rnr := false, held := [] }
      let s2 := q.reqs.foldl (fun a r => match r.kind with
        | .send c => a.emit (.send (qpnAt n.val) c)
        | _ => a) s1
      exec (.rnrRetry n) s = .next ((q.held.foldl (fun a c => a.sendNow n.val c) s2).advance n.val))

/-! ### The KV page subsystem -/

/-- Writes through a management QP that hears. KVP_ENABLE before HBM is ready is NOT_READY; while enabled with a job on the cores or a
command pending it is DENIED, the lower code; else the KVP region is wiped and the subsystem is enabled, a second enable raising `KVP_GEN`.
KVP_DISABLE clears it, or is DENIED. KVP_CMD_SUBMIT of a record in HBM outside the KVP region, with room and the subsystem enabled,
puts it at the end of the queue, and with none is DENIED. STAGED_CHANGES_APPLY_IDLE applies what is staged while no job holds the cores
and waits while one does. MOVE_PAGE_COPY_DONE, no answer of another module being awaited: it asks other modules for what is missing of
the frame and summary; a part that cannot be read returns the entry to MAPPED and completes the command with its status; what goes to
other modules is sent; and once that is acknowledged with OK, or none goes there, the parts on this module are written, the entry is
MAPPED at its new addresses and the command waits for the boundary. -/
def Obligations.PageSubsystemControlCompletes : Prop :=
  ∀ (s : State),
    (∀ q : Fin 4, s.mgmtHears q.val = true →
      let held := s.sched.run.isSome = true ∨ s.fld Fld.KVP_STATUS_PENDING ≠ 0
      let on := s.flag Fld.KVP_STATUS_ENABLED
      let s1 := s.wipeKvp.setFld Fld.KVP_CTRL_ENABLE 1
      (s.ready rdyHbm = false → ¬ (on = true ∧ held) → exec (.kvpEnable q) s = .next (refused s q Reg.KVP_CTRL .notReady))
      ∧ (s.ready rdyHbm = true → on = false → exec (.kvpEnable q) s = .next (accepted s1))
      ∧ (s.ready rdyHbm = true → on = true → ¬ held →
          exec (.kvpEnable q) s = .next (accepted (s1.bumpWrap Fld.KVP_STATUS_KVP_GEN 1)))
      ∧ (on = true → held → exec (.kvpEnable q) s = .next (refused s q Reg.KVP_CTRL .denied))
      ∧ (¬ held → exec (.kvpDisable q) s =
          .next (accepted ((s.setFld Fld.KVP_CTRL_ENABLE 0).setFld Fld.KVP_STATUS_ENABLED 0)))
      ∧ (held → exec (.kvpDisable q) s = .next (refused s q Reg.KVP_CTRL .denied))
      ∧ (∀ v : Word, on = true →
        let a := wget v 39 6 * 64
        isHbm a = true → s.touchesClass classKvp a 64 = false →
        (s.fld Fld.KVP_STATUS_PENDING < 64 → exec (.kvpCmdSubmit q v) s =
          .next (accepted ((s.setKvp { s.kvp with queue := s.kvp.queue ++ [a] }).showKvp)))
        ∧ (64 ≤ s.fld Fld.KVP_STATUS_PENDING → exec (.kvpCmdSubmit q v) s = .next (refused s q Reg.KVP_CMD_SUBMIT .denied))))
    ∧ (s.sched.run = none → exec .stagedChangesApplyIdle s = .next s.applyChanges)
    ∧ (s.sched.run.isSome = true → exec .stagedChangesApplyIdle s = .next s)
    ∧ (∀ m, s.kvp.copying = some m → s.owes .kvp = false →
      let parts := s.copyParts m
      let out := s.kvpWrites (parts.map (fun p => (p.2.1, s.fabBytes s.kvp.got p.1 p.2.2)))
      ∀ st fa missing u, s.kvpReads (parts.map (fun p => (p.1, p.2.2))) = (st, fa, missing, u) →
      let back := fun (x : State) (why : Status) =>
        let x1 := x.setKvp { x.kvp with copying := none, got := [], sent := none }
        (x1.setDir m.entry { x1.dir m.entry with state := 1 }).kvpComplete m.record 6 why 0
      (missing ≠ [] → exec .movePageCopyDone s = .next (s.kvpSend (readTrans .kvp s.kvpTag missing) none))
      ∧ (missing = [] → st ≠ .ok → exec .movePageCopyDone s = .next (back u st))
      ∧ (missing = [] → st = .ok →
        (s.kvp.sent = none → out ≠ [] → exec .movePageCopyDone s = .next (s.kvpSend out (some .ok)))
        ∧ (∀ why, s.kvp.sent = some why → why ≠ .ok → exec .movePageCopyDone s = .next (back s why))
        ∧ ((s.kvp.sent = none ∧ out = []) ∨ s.kvp.sent = some .ok →
          let d := u.dir m.entry
          let u1 := (u.setKvp { u.kvp with copying := none, got := [], sent := none }).putOwn
            (parts.map (fun p => (p.2.1, u.fabBytes s.kvp.got p.1 p.2.2)))
          let u2 := u1.setDir m.entry { d with frame := m.frame, summary := m.summary, state := 1 }
          exec .movePageCopyDone s =
            .next (u2.setKvp { u2.kvp with waiting := u2.kvp.waiting ++ [⟨m.record, 6, d.frame, []⟩] }).showKvp)))

/-- The record at the head of the queue is readable, has no reserved byte set, no page is being copied and no answer of another module is
awaited. CTX_SET of a context whose pages keep their layout, or that nothing uses, stages it; SEQ_PUBLISH of a good list at the right
version stages the record and refers to its pages; SEQ_CLEAR stages EMPTY; MAP assigns frames to FREE entries; MOVE_PAGE makes an entry
BUSY while it is copied; REPLACE sets new addresses and waits; FREE makes entries FREEING and waits. Another version or generation is
STALE. SEAL of mapped entries with contexts asks other modules for the frames that are missing, ends with the status of a frame that
cannot be read, sends the summaries that go to other modules, and then, or where none goes there, writes those of this module and marks
the entries sealed; a summary refused elsewhere ends it with that status. -/
def Obligations.PageCommandsComplete : Prop :=
  ∀ (s : State) (a : Nat) (rest : List Nat) (u : State), s.kvp.queue = a :: rest → s.kvp.copying = none → s.owes .kvp = false →
    s.readCheck 7 .module a 64 = (.ok, u) →
    let w := s.num a 64
    byteField w 3 1 = 0 → byteField w 42 6 = 0 →
    let s1 := u.setKvp { u.kvp with queue := rest }
    let op := byteField w 0 1
    let n := argA w
    let ends := fun (t : State) (st : Status) => t.kvpDrop.kvpComplete a op st 0
    let stays := fun (t : State) => t.setKvp { t.kvp with queue := a :: rest }
    let waits := fun (t : State) (frame : Nat) (frees : List Nat) =>
      (t.setKvp { t.kvp with waiting := t.kvp.waiting ++ [⟨a, op, frame, frees⟩] }).showKvp
    (op = 1 → n ≤ 255 → ∀ t c, s1.kvpRead (addr0 w) 64 = (.ok, t) → WalkCtx.ofNum (t.num (addr0 w) 64) = some c →
      (s1.kvp.ctxInUse n = false ∨ ∀ o, s1.kvp.lastCtx n = some o → o.ring = c.ring ∧ o.layers = c.layers ∧ o.heads = c.heads
        ∧ o.d = c.d ∧ o.kFmt = c.kFmt ∧ o.vFmt = c.vFmt) →
      exec .ctxSet s = .next (ends (t.stage (.ctx n c)) .ok))
    ∧ (op = 2 → n ≤ 16383 →
      let old := s1.kvp.lastSeq n
      let r : SeqRec := ⟨true, bits (argB w) 31 24, (old.version + 1) % 2 ^ 32, addr0 w, bits (argB w) 16 0, pos0 w, pos1 w, []⟩
      ∀ c, s1.kvp.lastCtx r.ctx = some c → r.listBase % 64 = 0 → 1 ≤ r.listLen → r.listLen ≤ 65536 → r.firstPos ≤ r.len →
      r.len < 2 ^ 32 → r.listOk c = true → (old.live = true → old.ctx = r.ctx) → s1.inHbmRegion r.listBase (8 * r.listLen) = true →
      ∀ t, s1.kvpRead r.listBase (8 * r.listLen) = (.ok, t) → (∀ l ∈ r.pages, s1.entryOk n r c l (s1.listEntry r c l) = true) →
      let ix := r.pages.map (fun l => (s1.listEntry r c l).index)
      ∀ t2, t.dirReads ix = (.ok, t2) →
      (argC w = old.version → exec .seqPublish s = .next (ends ((t2.addRefs true ix).stage (.seq n { r with refs := ix })) .ok))
      ∧ (argC w ≠ old.version → exec .seqPublish s = .next (ends t2 .stale)))
    ∧ (op = 3 → n ≤ 16383 → (s1.kvp.lastSeq n).live = true →
      let old := s1.kvp.lastSeq n
      (argC w = old.version → exec .seqClear s =
        .next (ends (s1.stage (.seq n { ctx := old.ctx, version := (old.version + 1) % 2 ^ 32 })) .ok))
      ∧ (argC w ≠ old.version → exec .seqClear s = .next (ends s1 .stale)))
    ∧ (op = 4 → rangeOk w = true → argC w ≤ 16383 → ((s1.kvp.seq (argC w)).live = true ∨ (s1.kvp.lastSeq (argC w)).live = true) →
      ∀ c, s1.handleCtx (argC w) = some c → ∀ t, s1.kvpRead (s1.dirAddr n) (32 * argB w) = (.ok, t) →
      let frame := fun i => addr0 w + i * c.frameBytes
      let summary := fun i => if addr1 w = 0 then 0 else addr1 w + i * c.summaries
      (∀ i ∈ List.range (argB w), (s1.dir (n + i)).state = 0 ∧ s1.pageAddrOk (frame i) 4096 c.frameBytes = true
        ∧ (summary i = 0 ∨ s1.pageAddrOk (summary i) 64 c.summaries = true)
        ∧ pos0 w + i < (if c.ring then c.ringPages else 2 ^ 32)) →
      let mapped := (List.range (argB w)).foldl (fun x i => x.setDir (n + i)
        ⟨frame i, summary i, argC w, ((x.dir (n + i)).gen + 1) % 65536, pos0 w + i, 1, false, (x.dir (n + i)).refs⟩) t
      exec .mapCmd s = .next (ends (mapped.setFld Fld.KVP_STATUS_FREE_ENTRIES
        (mapped.fld Fld.KVP_STATUS_FREE_ENTRIES - argB w)) .ok))
    ∧ (op = 5 → rangeOk w = true → ∀ t, s1.kvpRead (s1.dirAddr n) (32 * argB w) = (.ok, t) →
      (∀ i ∈ entryRange w, (s1.dir i).state = 1 ∧ (s1.dir i).isSealed = false ∧ (s1.dir i).summary ≠ 0
        ∧ (s1.handleCtx (s1.dir i).handle).isSome = true) →
      ∀ st fa missing t2, t.kvpReads (s1.frameReads (entryRange w)) = (st, fa, missing, t2) →
      let sums := t2.allSummaries (entryRange w)
      let out := s1.kvpWrites sums
      let done := (entryRange w).foldl (fun x i => x.setDir i { x.dir i with isSealed := true }) (t2.putOwn sums)
      (missing ≠ [] → exec .sealPage s = .next (stays (s1.kvpSend (readTrans .kvp s1.kvpTag missing) none)))
      ∧ (missing = [] → st ≠ .ok → exec .sealPage s = .next (ends t2 st))
      ∧ (missing = [] → st = .ok →
        (s1.kvp.sent = none → out ≠ [] → exec .sealPage s = .next (stays (s1.kvpSend out (some .ok))))
        ∧ (∀ why, s1.kvp.sent = some why → why ≠ .ok → exec .sealPage s = .next (ends t2 why))
        ∧ ((s1.kvp.sent = none ∧ out = []) ∨ s1.kvp.sent = some .ok → exec .sealPage s = .next (ends done .ok))))
    ∧ (n ≤ 65535 → ∀ t, s1.kvpRead (s1.dirAddr n) 32 = (.ok, t) → (s1.dir n).state = 1 → s1.newPageOk w (s1.dir n).handle = true →
      let d := s1.dir n
      (op = 6 →
        let t2 := t.setDir n { d with state := 2 }
        exec .movePage s = .next ((t2.setKvp { t2.kvp with copying := some ⟨a, n, addr0 w, addr1 w⟩ }).showKvp))
      ∧ (op = 7 → d.gen = argC w → exec .replace s = .next (waits (t.setDir n
          { d with frame := addr0 w, summary := addr1 w, gen := (d.gen + 1) % 65536, isSealed := false }) d.frame []))
      ∧ (op = 7 → d.gen ≠ argC w → exec .replace s = .next (ends t .stale)))
    ∧ (op = 8 → rangeOk w = true → ∀ t, s1.kvpRead (s1.dirAddr n) (32 * argB w) = (.ok, t) →
      (∀ i ∈ entryRange w, (s1.dir i).state = 1 ∧ (s1.dir i).refs = 0) →
      exec .freeCmd s = .next (waits ((entryRange w).foldl (fun x i => x.setDir i { x.dir i with state := 3 }) t) 0 (entryRange w)))

/-! ### Jobs, the timetable and sidings -/

/-- JOB_BOUNDARY with the cores free: the pending changes apply; in step HOLD or TRIP, while some core's firmware is not OK, or with no
choice, no job follows; a choice that is SIDED is restored from its siding; another is loaded into the smallest free siding.
JOB_TILES_START, not in step HOLD or TRIP, starts a loaded job, which runs. RESTORE_COMPLETE, then and with every core's firmware OK,
writes the saved state of a job that is being restored back, and the job runs. JOB_COMPLETE of a job whose tiles have started and whose
traffic is gone ends one that has faulted with its status, and one that runs or halts, not suspended, with OK where every core is idle
and quiet. -/
def Obligations.JobsStartAndEnd : Prop :=
  (∀ s : State, s.sched.run = none →
      let s1 := s.applyChanges
      (s1.held = true ∨ s1.coresOk = false → exec .jobBoundary s = .next s1)
      ∧ (s1.held = false → s1.coresOk = true → s1.choice = none → exec .jobBoundary s = .next s1)
      ∧ (s1.held = false → s1.coresOk = true → ∀ j, s1.choice = some j →
        (∀ n, j.siding = some n → exec .jobBoundary s = .next (s1.restoreJob j n))
        ∧ (j.siding = none → ∀ n, s1.freeSiding j.cls j.need = some n → exec .jobBoundary s = .next (s1.loadJob j n))))
  ∧ (∀ (s : State) (j : Job), s.sched.run = some j →
      (∀ p, j.prog = some p → j.state = .loading → s.held = false →
        exec .jobTilesStart s = .next (s.startTiles j p).enterRunning)
      ∧ (∀ n r, j.siding = some n → s.siding n = some r → j.state = .restoring → s.held = false → s.coresOk = true →
        let w := s.num r.base 64
        let g := sidingImg w j.imgLen
        let p := s.program g
        let s1 := s.mapJob (fun x => { x with tag := byteField w 20 2, seedBase := byteField w 24 8, prog := some p,
                                              sfuGen := byteField w 14 2, kvpGen := byteField w 16 4 })
        let keep := s.keepOf n (byteField w 48 4)
        let runs := fun (x : State) => (x.setSiding n sdReserved j.tenant).enterRunning
        (byteField w 6 2 = s.cores' → exec .restoreComplete s = .next (runs (s1.restoreSame r.base p keep)))
        ∧ (byteField w 6 2 ≠ s.cores' → exec .restoreComplete s = .next (runs (s1.restoreMoved r.base (byteField w 6 2) g p keep))))
      ∧ (j.tilesStarted = true → s.jobTraffic = false →
        (j.ended = true → exec .jobComplete s = .next (s.endJob j.fault 0))
        ∧ (j.ended = false → j.suspended = false → (j.state = .running ∨ j.state = .halting) → s.allIdle = true → s.quiet = true →
          exec .jobComplete s = .next (s.endJob .ok 0))))

/-- SLOT_BOUNDARY under a timetable, once the timestamp counter has reached the slot's end: the slot's number rises by 1, or returns to 0
after the last with the cycle's start moved on by the cycle's length; the running job stays where the slot is its class's, or lends
and no job of its class is ready, and is asked to halt elsewhere. Before that end it changes nothing. QUANTUM_EXPIRY asks a shared job
that has run its quantum to halt where another tenant with a ready shared job has a smaller charge per share. -/
def Obligations.SlotsAndQuanta : Prop :=
  ∀ (s : State) (t : Timetable), s.tt = some t →
    (let next := s.sched.slot + 1
     let fin := s.sched.cycleStart + t.endOf s.sched.slot
     let moved := fun (slot cycle : Nat) => (s.withSched { s.sched with slot := slot, cycleStart := cycle }).setFld Fld.TT_STATUS_SLOT slot
     let s1 := if next < t.slots.length then moved next s.sched.cycleStart else moved 0 fin
     (s.time.toNat < fin → exec .slotBoundary s = .next s)
     ∧ (fin ≤ s.time.toNat →
       (s.sched.run = none → exec .slotBoundary s = .next s1)
       ∧ (∀ x j, s1.slotNow = some x → s.sched.run = some j →
         let stays := (x.kind = 0 ∧ j.cls = 0) ∨ (x.kind ≠ 0 ∧ x.kind ≠ 5 ∧ (j.cls = x.kind ∨
           (x.lend = true ∧ s1.firstReady x.kind none = none)))
         (stays → exec .slotBoundary s = .next s1) ∧ (¬ stays → exec .slotBoundary s = .next s1.requestPreempt))))
    ∧ (∀ j n, s.sched.run = some j → j.cls = 0 → j.state = .running → t.quantumUs ≠ 0 →
        j.runFrom + t.quantumUs * 1000 ≤ s.time.toNat → n < 64 → n ≠ j.tenant → (s.firstReady 0 (some n)).isSome = true →
        s.usedBy n * t.share j.tenant < s.usedBy j.tenant * t.share n →
        exec .quantumExpiry s = .next s.requestPreempt)

/-- PREEMPT through a management QP that hears asks the running job to halt and reads 1; with no job it does nothing. PREEMPT_HALTED of
a job that halts, not ended, no core running, some halted and nothing in flight, suspends the job's windows. PREEMPT_DRAINED then, the
job's traffic gone and no part held, saves its sections, or ends the job with the status of a buffer that cannot be read. PREEMPT_SAVED
writes the header with the sections' CRC, keeps what the siding has no place for, makes the job SIDED at the head of the queue and posts
its notice. PREEMPT_TIMEOUT of a job that halts ends it with the lower of TIMEOUT and the status of its faults. -/
def Obligations.PreemptionCompletes : Prop :=
  (∀ (s : State) (q : Fin 4), s.mgmtHears q.val = true →
      (s.sched.run.isSome = true → exec (.preempt q) s = .next (accepted (s.showPreempt true).requestPreempt))
      ∧ (s.sched.run = none → exec (.preempt q) s = .next (accepted s)))
  ∧ (∀ (s : State) (j : Job), s.sched.run = some j →
      (j.state = .halting → exec .preemptTimeout s = .next (s.endJob (j.fault.worse .timeout) 0))
      ∧ (j.state = .halting → j.suspended = false → j.ended = false →
        (∀ n < s.cores', s.fld (Fld.CORE_STATUS_STATE n) ≠ 3) → s.allIdle = false → s.quiet = true →
        exec .preemptHalted s = .next (s.setJob (some { j with suspended := true, saveFrom := s.time.toNat })))
      ∧ (∀ n r p, j.siding = some n → s.siding n = some r → j.prog = some p →
        let bufs := s.savedBufs p.bufs
        let total := s.buffersOff s.cores' + bufBytes bufs
        (j.state = .halting → j.suspended = true → j.ended = false → s.jobTraffic = false → s.fab.held = [] →
          let s1 := (s.setJob (some { j with state := .saving, saveFrom := s.time.toNat })).setFld
            Fld.TT_LAST_PREEMPT_HALT_WAIT_NS (min (2 ^ 32 - 1) (s.time.toNat - j.haltFrom))
          ∀ st u, bufs.foldl (fun (acc : Status × State) b =>
              if acc.1 ≠ .ok then acc else acc.2.readCheck 7 .module b.2.base b.2.size) (Status.ok, s1) = (st, u) →
          (st = .ok → exec .preemptDrained s = .next ((u.writeCheck 7 r.base total).2.saveSections r.base p.coresUsed bufs))
          ∧ (st ≠ .ok → exec .preemptDrained s = .next (u.endJob st 0)))
        ∧ (j.state = .saving →
          let crc := crc32c (s.bytes (r.base + 8192) (total - 8192))
          let s1 := (s.putBytes r.base (s.sidingHeader j p.relocatable bufs total crc)).closeCharge
          let kept := s1.withSched { s1.sched with keeps := SMap.insert s1.sched.keeps n (s.keepNow j crc) }
          let s2 := (kept.setSiding n sdHolds j.tenant).setFld Fld.TT_LAST_PREEMPT_SAVE_NS
            (min (2 ^ 32 - 1) (s.time.toNat - j.saveFrom))
          let j1 := { j with state := .sided, tilesStarted := false, prog := none, nest := none, runs := [], nestsDone := 0 }
          let s3 := s2.freeCores.traceJob .sided
          exec .preemptSaved s = .next ((s3.setQueue (j1 :: s3.sched.queue)).postJob j1 .preempted .preempted n))))

/-- Through a management QP that hears. TT_LOAD begins a load, or is DENIED while one runs or a swap waits; at its end a timetable that
can be read is staged READY, or FAILED with its reason. TT_SWAP_REQUEST of a READY timetable waits for the boundary and is DENIED of
another; TT_STAGED_DISCARD with no swap pending drops the staged one, and else is DENIED. Of the structure's sidings: SIDING_DETACH of
one that holds a job not on the cores takes the job out of the queue; SIDING_RELEASE of a DETACHED one frees it; SIDING_ATTACH of a FREE
or DETACHED one, with HBM ready, room in the queue and a good header, queues its job with the flags kept for it. Each is DENIED in
another state of the siding. -/
def Obligations.TimetableAndSidingCommandsComplete : Prop :=
  (∀ (s : State) (q : Fin 4) (v : Word), s.mgmtHears q.val = true →
      let loading := s.fld Fld.TT_STATUS_LOAD_STATE = lsLoading ∨ s.flag Fld.TT_STATUS_SWAP_PENDING = true
      (loading → exec (.ttLoad q v) s = .next (refused s q Reg.TT_LOAD .denied))
      ∧ (¬ loading → exec (.ttLoad q v) s =
        .next (accepted (((s.withSched { s.sched with staged := none, loading := some (wget v 39 12 * 4096) }).setFld
          Fld.TT_STATUS_LOAD_STATE lsLoading).setFld Fld.TT_STATUS_GEN_STAGED 0)))
      ∧ (s.fld Fld.TT_STATUS_LOAD_STATE = lsReady → exec (.ttSwapRequest q) s =
          .next (accepted ((s.setFld Fld.TT_CTRL_SWAP 1).setFld Fld.TT_STATUS_SWAP_PENDING 1)))
      ∧ (s.fld Fld.TT_STATUS_LOAD_STATE ≠ lsReady → exec (.ttSwapRequest q) s = .next (refused s q Reg.TT_CTRL .denied))
      ∧ (s.flag Fld.TT_STATUS_SWAP_PENDING = true → exec (.ttStagedDiscard q) s = .next (refused s q Reg.TT_CTRL .denied))
      ∧ (s.flag Fld.TT_STATUS_SWAP_PENDING = false → exec (.ttStagedDiscard q) s =
          .next (accepted (((s.withSched { s.sched with staged := none, loading := none }).setFld Fld.TT_STATUS_LOAD_STATE
            lsEmpty).setFld Fld.TT_STATUS_GEN_STAGED 0)))
      ∧ (∀ n : Fin 16, ∀ r, s.siding n.val = some r →
        let st := s.sidingState n.val
        (st = sdHolds → s.sched.run.bind (·.siding) ≠ some n.val → exec (.sidingDetach q n) s =
          .next (accepted ((s.setFld (Fld.TT_SIDING_STATE n.val) sdDetached).setQueue
            (s.sched.queue.filter (fun j => decide (j.siding ≠ some n.val))))))
        ∧ (st ≠ sdHolds → exec (.sidingDetach q n) s = .next (refused s q Reg.TT_SIDING_CMD .denied))
        ∧ (st = sdDetached → exec (.sidingRelease q n) s = .next (accepted (s.setSiding n.val sdFree 0).rtArrives))
        ∧ (st ≠ sdDetached → exec (.sidingRelease q n) s = .next (refused s q Reg.TT_SIDING_CMD .denied))
        ∧ (st ≠ sdFree → st ≠ sdDetached → exec (.sidingAttach q n) s = .next (refused s q Reg.TT_SIDING_CMD .denied))
        ∧ ((st = sdFree ∨ st = sdDetached) → s.admitted < 1024 → s.ready rdyHbm = true → ∀ u, s.readCheck 7 .module r.base 8192 = (.ok, u) →
          let w := s.num r.base 8192
          let j := attachedJob w n.val (s.keepOf n.val (byteField w 48 4))
          sidingHeaderOk w = true → byteField w 1 1 = r.cls → exec (.sidingAttach q n) s =
            .next (accepted (((u.setSiding n.val sdHolds j.tenant).traceJob .sided).setQueue (j :: u.sched.queue)).rtArrives))))
  ∧ (∀ (s : State) (a : Nat), s.sched.loading = some a → s.hbmSource a ttBytes = .ok → ∀ u, s.readCheck 7 .module a ttBytes = (.ok, u) →
      let l := u.bytes a ttBytes
      let w := leNat l
      let st := Status.lowest [.when (!ttOk w || byteField w 2 2 = s.fld Fld.TT_STATUS_GEN_ACTIVE) .verify, .when (!ttCrcOk l) .integrity]
      let s1 := (u.withSched { u.sched with loading := none }).setFld Fld.TT_STATUS_LOAD_STATUS st.code
      (st = .ok → exec .ttLoadDone s = .next
        (((s1.withSched { s1.sched with staged := some (Timetable.ofNum w) }).setFld Fld.TT_STATUS_LOAD_STATE lsReady).setFld
          Fld.TT_STATUS_GEN_STAGED (byteField w 2 2)))
      ∧ (st ≠ .ok → exec .ttLoadDone s = .next (s1.setFld Fld.TT_STATUS_LOAD_STATE lsFailed)))

/-! ### The fabric -/

/-- A port that is in an attempt, or is to begin one at once, and may train. TRAINING_STEP_TIMEOUT, and PORT_TRAINING_ATTEMPT without a
usable width, make it FAILED. With a width, the attempt shows width, lanes and reversal and sends the port's own record; without three
records that agree the port is FAILED; else the neighbour's record is shown, and one that fails a check makes the port MISWIRED with
its cause, a width below `MIN_WIDTH` makes it NARROW, else it is ACCEPTED. RETRAIN_INTERVAL of a FAILED or NARROW port begins an
attempt. In service a valid record that differs makes it MISWIRED with cause 6, the same one only shows it, one that is not valid
changes nothing; IDENT_TIMEOUT, CONTROL_FLIT_TIMEOUT and LANE_SIGNAL_LOSS make it FAILED with TIMEOUT, LANE_SIGNAL_LOSS a MISWIRED port
too. -/
def Obligations.PortTrainingCompletes : Prop :=
  ∀ (s : State) (p : Fin 36),
    (∀ s1, s.attempting p.val = some s1 →
      exec (.trainingStepTimeout p) s = .next (s1.attemptFails p.val)
      ∧ (∀ o : TrainObs, (o.locked = false ∨ widest (o.here &&& o.peer).toNat = none) →
        exec (.portTrainingAttempt p o) s = .next (s1.attemptFails p.val))
      ∧ (∀ (o : TrainObs) set w, o.locked = true → widest (o.here &&& o.peer).toNat = some (set, w) →
        let s2 := (((s1.setFld (Fld.FAB_PORT_STATUS_WIDTH p.val) w).setFld (Fld.FAB_PORT_STATUS_REVERSED p.val) (b2n o.reversed)).setFld
          (Fld.FAB_PORT_STATUS_LANES_GOOD p.val) (o.here &&& o.peer).toNat).setFld (Fld.FAB_PORT_STATUS_LANES_USED p.val) set
        let s3 := s2.setPort p.val { (s2.port p.val).restart with good := o.here.toNat }
        let s4 := s3.emit (.ident p.val (s3.ownIdent p.val).bytes)
        (agreedRecord o.records = none → exec (.portTrainingAttempt p o) s = .next (s4.attemptFails p.val))
        ∧ (∀ record i, agreedRecord o.records = some (record, i) →
          let s5 := (s4.showPeer p.val i).setPort p.val { s4.port p.val with ident := some record }
          let cause := s5.identCause p.val i
          (cause ≠ 0 → exec (.portTrainingAttempt p o) s = .next (s5.setPortState p.val psMiswired .mismatch cause).showFabric)
          ∧ (cause = 0 → w < s5.fld Fld.FAB_CTRL_MIN_WIDTH →
            exec (.portTrainingAttempt p o) s = .next (s5.setPortState p.val psNarrow .degraded 0).showFabric)
          ∧ (cause = 0 → s5.fld Fld.FAB_CTRL_MIN_WIDTH ≤ w → exec (.portTrainingAttempt p o) s = .next (s5.acceptPort p.val)))))
    ∧ (s.portState p.val = psFailed ∨ s.portState p.val = psNarrow → exec (.retrainInterval p) s = .next (s.beginAttempt p.val))
    ∧ (s.portState p.val = psMiswired → exec (.laneSignalLoss p) s = .next (s.leaveService p.val psFailed .timeout 0))
    ∧ (∀ body crc, Ident.ofBytes (body ++ leBytes 4 (BitVec.toNat crc)) = none → exec (.identRecordReceived p body crc) s = .next s)
    ∧ (s.portState p.val = psAccepted ∨ s.portState p.val = psNarrow →
      let out := s.leaveService p.val psFailed .timeout 0
      exec (.identTimeout p) s = .next out ∧ exec (.controlFlitTimeout p) s = .next out ∧ exec (.laneSignalLoss p) s = .next out
      ∧ (∀ body (crc : BitVec 32) i,
        let record := body ++ leBytes 4 crc.toNat
        Ident.ofBytes record = some i →
        ((s.port p.val).ident = some record → exec (.identRecordReceived p body crc) s = .next (s.showPeer p.val i))
        ∧ ((s.port p.val).ident ≠ some record → exec (.identRecordReceived p body crc) s =
          .next ((s.showPeer p.val i).leaveService p.val psMiswired .mismatch 6))))

/-- A port in service. DATA_FLIT_RECEIVED counts a codeword that was uncorrectable or corrected; on an ACCEPTED port an uncorrectable one,
and a good one out of sequence with no NAK sent since the last in sequence, sends a CONTROL flit with a NAK, another out of sequence is
passed over, and the next in sequence is received. CONTROL_FLIT_SEND carries what was received, the credits that may be returned, and
the port's record where it is asked for. CONTROL_FLIT_RECEIVED acknowledges flits and returns credits; a NAK sends the replay buffer
again and counts a replay; waiting packets go, and a drain that is done ends; 16 NAKs without progress fail the port. GROUP_REBUILD of
a group that is to be rebuilt, its ports' queues empty or 1 ms having passed, rebuilds the maps and admits packets again. -/
def Obligations.FlitsComplete : Prop :=
  ∀ (s : State) (p : Fin 36),
    (s.portState p.val = psAccepted ∨ s.portState p.val = psNarrow → ∀ (corrected : Bool),
      let s1 := if corrected then s.bump (Fld.FAB_PORT_ERRS_CORRECTED p.val) (Fld.FAB_PORT_ERRS_CW_SAT p.val) 1 else s
      let r := s1.port p.val
      (∀ (seq : Fin 4096),
        let bad := s.bump (Fld.FAB_PORT_ERRS_UNCORRECTED p.val) (Fld.FAB_PORT_ERRS_UC_SAT p.val) 1
        let nak := fun (x : State) => (x.setPort p.val { x.port p.val with naked := true }).sendControl p.val true []
        (bad.portState p.val ≠ psAccepted → exec (.dataFlitReceived p seq false corrected) s = .next bad)
        ∧ (bad.portState p.val = psAccepted → exec (.dataFlitReceived p seq false corrected) s = .next (nak bad))
        ∧ (s1.portState p.val ≠ psAccepted → exec (.dataFlitReceived p seq true corrected) s = .next s1)
        ∧ (s1.portState p.val = psAccepted →
          (seq.val ≠ r.received % 4096 → r.naked = false → exec (.dataFlitReceived p seq true corrected) s = .next (nak s1))
          ∧ (seq.val ≠ r.received % 4096 → r.naked = true → exec (.dataFlitReceived p seq true corrected) s = .next s1)
          ∧ (seq.val = r.received % 4096 → exec (.dataFlitReceived p seq true corrected) s =
            .next ((s1.setPort p.val { r with received := r.received + 1, naked := false, rx := r.rx + 1 }).countFlits
              (Fld.FAB_PORT_TRAFFIC_RX_KFLITS p.val) (Fld.FAB_PORT_TRAFFIC_RX_SAT p.val) r.rx (r.rx + 1)))))
      ∧ (∀ (ack : Fin 4096) (credits : List Nat),
        let n := r.ackGain ack.val
        let taken := fun (naks : Nat) => s1.setPort p.val ((List.range 8).foldl (fun (a : PortRun) v => a.credit v (nth 0 credits v))
          { r with acked := r.acked + n, replay := r.replay.drop n, naks := naks })
        let again := fun (x : State) => ((x.port p.val).replay.foldl (fun a f => a.sendFlit p.val f) x).bump
          (Fld.FAB_PORT_ERRS_REPLAYS p.val) (Fld.FAB_PORT_ERRS_RP_SAT p.val) 1
        let naks := if n = 0 then r.naks + 1 else 1
        let quiet := if n = 0 then r.naks else 0
        (naks < 16 → exec (.controlFlitReceived p ⟨ack, corrected⟩ true credits) s =
          .next (((again (taken naks)).portPump p.val).endDrain p.val))
        ∧ (16 ≤ naks → exec (.controlFlitReceived p ⟨ack, corrected⟩ true credits) s =
          .next ((taken naks).leaveService p.val psFailed .timeout 0))
        ∧ (quiet < 16 → exec (.controlFlitReceived p ⟨ack, corrected⟩ false credits) s =
          .next (((taken quiet).portPump p.val).endDrain p.val))))
    ∧ (s.portState p.val = psAccepted ∨ s.portState p.val = psNarrow → ∀ ident : Bool,
      let r := s.port p.val
      exec (.controlFlitSend p ident) s = .next ((s.setPort p.val
        { r with owed := r.owed.filter (fun x => !s.returns p.val x.1), since := 0 }).emit (.control p.val ((r.received + 4095) % 4096)
          false (creditsOf (r.owed.filter (fun x => s.returns p.val x.1))) (if ident then (s.ownIdent p.val).bytes else []))))
    ∧ (∀ (g : Fin 6) (late : Bool), g.val ∈ s.fab.rebuilding →
      (late = true ∨ ∀ i < 36, s.portGroup i = g.val → (s.port i).queue = []) →
      let rest := s.fab.rebuilding.filter (fun x => decide (x ≠ g.val))
      let s1 := s.rebuildMaps g.val
      exec (.groupRebuild g late) s =
        .next ((s1.setFab { s1.fab with rebuilding := rest }).setFld Fld.FAB_STATUS_QUIESCE (b2n (!rest.isEmpty))).relaunch)

/-- Packets at an ACCEPTED port. A request with a good CRC and operation that Table 11-14 allows: FABRIC_WRITE writes and is acknowledged,
FABRIC_READ is answered with its data, FABRIC_POST_MERGED_INC raises MERGED by 1, FABRIC_POST_ATT applies its post; the channel's
credits are owed. One that is refused there, or whose memory words refuse it, changes nothing but a count, a log entry and an answer
with its status; one with a reserved operation is answered by an ERROR with VERIFY; one with a bad CRC is discarded. PACKET_FORWARD
sends a packet for another module on, with a hop more. -/
def Obligations.FabricRequestsComplete : Prop :=
  ∀ (s : State) (h : PktHdr), s.portState h.port = psAccepted →
    let owed := fun cls n => s.owe (some h.port) (vcOf cls h.sub) n
    (h.crcOk = true → h.opOk = true →
      (∀ data : List Byte,
        let s1 := owed 0 (packetSlots data.length)
        let st := (s1.remoteStatus h 61 data.length).worse (.when (!inside 1 2048 data.length) .verify)
        (st ≠ .ok → exec (.fabricWrite h data) s = .next (s1.refuse h 4 st))
        ∧ (st = .ok → ∀ u, s1.writeMem 5 h.addr data = (.ok, u) → exec (.fabricWrite h data) s = .next (u.answerTo h 4 .ok []))
        ∧ (st = .ok → ∀ r u, r ≠ .ok → s1.writeMem 5 h.addr data = (r, u) → exec (.fabricWrite h data) s = .next (u.refuse h 4 r)))
      ∧ (∀ len,
        let s1 := owed 0 1
        let st := (s1.remoteStatus h 62 len).worse (.when (!inside 1 2048 len) .verify)
        (st ≠ .ok → exec (.fabricRead h len) s = .next (s1.refuse h 6 st))
        ∧ (st = .ok → ∀ l u, s1.readMem 5 (.remote h.src) h.addr len = (.ok, l, u) →
          exec (.fabricRead h len) s = .next (u.answerTo h 5 .ok l))
        ∧ (st = .ok → ∀ r l u, r ≠ .ok → s1.readMem 5 (.remote h.src) h.addr len = (r, l, u) →
          exec (.fabricRead h len) s = .next (u.refuse h 6 r)))
      ∧ (let s1 := owed 2 1
         (s1.postStatus h ≠ .ok → exec (.fabricPostMergedInc h) s = .next (s1.refuse h 4 (s1.postStatus h)))
         ∧ (s1.postStatus h = .ok → ∀ u, s1.readCheck 5 (.remote h.src) h.addr 1024 = (.ok, u) →
           exec (.fabricPostMergedInc h) s = .next ((u.putNum (h.addr + 4) 2 (u.slotMerged h.addr + 1)).answerTo h 4 .ok [])))
      ∧ (∀ x : AttPost,
         (s.postStatus h ≠ .ok → exec (.fabricPostAtt h x) s = .next ((owed 2 (packetSlots 816)).refuse h 4 (s.postStatus h)))
         ∧ (s.postStatus h = .ok → ∀ u, s.readCheck 5 (.remote h.src) h.addr 1024 = (.ok, u) →
           exec (.fabricPostAtt h x) s = .next ((u.postArrives h x (packetSlots 816)).afterPost h.addr))))
    ∧ (∀ data len x,
      let all := [(Instr.fabricWrite h data, owed 0 (packetSlots data.length)), (.fabricRead h len, owed 0 1),
        (.fabricPostMergedInc h, owed 2 1), (.fabricPostAtt h x, owed 2 (packetSlots 816))]
      (h.crcOk = false → ∀ row ∈ all, exec row.1 s = .next (row.2.crcDiscard h))
      ∧ (h.crcOk = true → h.opOk = false → ∀ row ∈ all, exec row.1 s = .next (row.2.refuse h 6 .verify)))
    ∧ (∀ (p : Fin 36) (x : Packet), s.portState p.val = psAccepted → s.turnoutDir x.dst ≠ 6 →
        exec (.packetForward p x) s = .next (s.sendPacket (some p.val) { x with hops := x.hops + 1 }))

/-- An answer with a good CRC at an ACCEPTED port that names a transaction of this module, sent to the module it comes from: FABRIC_ACK ends
one that is no READ, FABRIC_READ_DATA ends a READ (an instruction's one once its data is written; that of a pass or a page command is
handed its data), FABRIC_ERROR ends either with its status. One that names none is counted as late. REMOTE_TIMEOUT ends a transaction
that is no attention post with TIMEOUT. NO_ACCEPTED_PORT_TIMEOUT drops a packet whose group has no ACCEPTED port, and ends the
transaction of the module's own one. -/
def Obligations.FabricAnswersComplete : Prop :=
  ∀ (s : State) (h : PktHdr) (st : Status) (data : List Byte),
    (s.portState h.port = psAccepted → h.crcOk = true →
      let owed := fun n => s.owe (some h.port) (vcOf 1 h.sub) n
      let late := fun (x : State) => x.bump Fld.FAB_ERRORS_LATE Fld.FAB_ERRORS_LATE_SAT 1
      let a := owed (packetSlots data.length)
      (SMap.find s.fab.trans h.reqId = none →
        exec (.fabricAck h st data) s = .next (late a) ∧ exec (.fabricReadData h st data) s = .next (late a)
        ∧ exec (.fabricError h st) s = .next (late (owed 1)))
      ∧ (∀ t, SMap.find s.fab.trans h.reqId = some t → t.sent = true → t.dest = h.src →
        exec (.fabricError h st) s = .next ((owed 1).endTrans h.reqId t st [])
        ∧ (t.op ≠ 2 → exec (.fabricAck h st data) s = .next (a.endTrans h.reqId t st data))
        ∧ (t.op = 2 → ∀ core, t.owner = .instr core →
          (∀ r u, a.jobWrite t.into (data.take t.len) = (r, u) →
            exec (.fabricReadData h .ok data) s = .next (u.endTrans h.reqId t r []))
          ∧ (st ≠ .ok → exec (.fabricReadData h st data) s = .next (a.endTrans h.reqId t st [])))
        ∧ (t.op = 2 → (∀ core, t.owner ≠ .instr core) →
          exec (.fabricReadData h st data) s = .next (a.endTrans h.reqId t st (data.take t.len)))))
    ∧ (∀ (i : Fin 16384) t, SMap.find s.fab.trans i.val = some t → t.post = none →
        exec (.remoteTimeout i) s = .next ((s.bump Fld.FAB_ERRORS_TIMEOUTS Fld.FAB_ERRORS_TIMEOUT_SAT 1).endTrans i.val t .timeout []))
    ∧ (∀ n t, SMap.find s.fab.trans n = some t → t.sent = false → s.connected (s.turnoutDir t.dest) = false →
        exec (.noAcceptedPortTimeout true n) s = .next ((s.countDrop .timeout (t.packet s.moduleId n)).timeoutTrans n t))
    ∧ (∀ n inPort x, s.fab.stranded[n]? = some (inPort, x) → s.connected (s.turnoutDir x.dst) = false →
        exec (.noAcceptedPortTimeout false n) s =
          .next ((s.setFab { s.fab with stranded := s.fab.stranded.eraseIdx n }).discard inPort .timeout x))

/-- Through a management QP that hears. FAB_TT_LOAD begins a load or is DENIED while one runs; the end of one whose image can be read
stages the table READY or is FAILED. TT_SWAP of a READY table exchanges the banks and is DENIED of another, TT_DISCARD empties the
staged one, MIN_WIDTH_WRITE of another width judges every port again. While a window is not VALID its size is taken where it is at
most 2^28 pages and is VERIFY else, and its base is taken with VALID 0. PORT_DISABLE and PORT_RETRAIN of a port that expects a neighbour
and is not switched off begin a drain. TOPO_DONE, once every port that expects a neighbour has settled, shows and logs the MISWIRED
ones. -/
def Obligations.FabricControlCompletes : Prop :=
  (∀ (s : State) (q : Fin 4) (v : Word), s.mgmtHears q.val = true →
      let loading := s.fld Fld.FAB_TT_STATUS_LOAD_STATE = lsLoading ∨ s.flag Fld.FAB_CTRL_TT_SWAP = true
      (loading → exec (.fabTtLoad q v) s = .next (refused s q Reg.FAB_TT_LOAD .denied))
      ∧ (¬ loading → exec (.fabTtLoad q v) s = .next (accepted (((s.setFab { s.fab with
          staged := [], load := some (wget v 39 12 * 4096) }).setFld Fld.FAB_TT_STATUS_LOAD_STATE lsLoading).setFld
            Fld.FAB_TT_STATUS_GEN_STAGED 0)))
      ∧ (s.fld Fld.FAB_TT_STATUS_LOAD_STATE = lsReady → exec (.ttSwap q) s = .next (accepted s.swapTurnout))
      ∧ (s.fld Fld.FAB_TT_STATUS_LOAD_STATE ≠ lsReady → exec (.ttSwap q) s = .next (refused s q Reg.FAB_CTRL .denied))
      ∧ exec (.ttDiscard q) s = .next (accepted s.discardTurnout)
      ∧ (∀ w : Fin 4, (w.val = s.fld Fld.FAB_CTRL_MIN_WIDTH → exec (.minWidthWrite q w) s = .next (accepted s))
        ∧ (w.val ≠ s.fld Fld.FAB_CTRL_MIN_WIDTH →
          exec (.minWidthWrite q w) s = .next (accepted (s.setFld Fld.FAB_CTRL_MIN_WIDTH w.val).judgeWidths)))
      ∧ (∀ i : Fin 64, s.flag (Fld.FAB_WIN_BASE_VALID i.val) = false →
        (wget v 28 0 ≤ 2 ^ 28 → exec (.fabWinWrite q i true v) s =
          .next (accepted (s.setFld (Fld.FAB_WIN_SIZE_SIZE_4K i.val) (wget v 28 0))))
        ∧ (2 ^ 28 < wget v 28 0 → exec (.fabWinWrite q i true v) s = .next (refused s q (Reg.FAB_WIN_SIZE i.val) .verify))
        ∧ (bit v.toNat 63 = false → exec (.fabWinWrite q i false v) s =
          .next (accepted (s.setReg (Reg.FAB_WIN_BASE i.val) (wput (wput v 59 56 0) 11 0 0)))))
      ∧ (∀ p : Fin 36, s.expects p.val = true → s.flag (Fld.FAB_PORT_CTRL_DISABLE p.val) = false →
        let f := Fld.FAB_PORT_CTRL_DISABLE p.val
        exec (.portDisable q p) s = .next (accepted ((s.setFld f 1).startDrain p.val))
        ∧ exec (.portRetrain q p) s =
          .next (accepted (((s.setFld f 0).setFld (Fld.FAB_PORT_CTRL_RETRAIN p.val) 1).startDrain p.val))))
  ∧ (∀ (s : State) (a : Nat), s.fab.load = some a → s.hbmSource a turnoutBytes = .ok →
      ∀ u, s.readCheck 7 .module a turnoutBytes = (.ok, u) →
      let l := u.bytes a turnoutBytes
      let st := u.turnoutStatus l (s.fld Fld.FAB_TT_STATUS_GEN_ACTIVE)
      let s1 := (u.setFab { u.fab with load := none }).setFld Fld.FAB_TT_STATUS_LOAD_STATUS st.code
      (st = .ok → exec .fabTtLoadDone s = .next
        (((s1.setFab { s1.fab with staged := turnoutTable (turnoutEntries (l.drop 64)) }).setFld Fld.FAB_TT_STATUS_LOAD_STATE
          lsReady).setFld Fld.FAB_TT_STATUS_GEN_STAGED (byteField (leNat (l.take 64)) 2 2)))
      ∧ (st ≠ .ok → exec .fabTtLoadDone s = .next (s1.setFld Fld.FAB_TT_STATUS_LOAD_STATE lsFailed)))
  ∧ (∀ s : State, s.flag Fld.BUP_TOPO_TOPO_DONE = false → s.boot.image.isSome = true →
      (∀ p < 36, s.expects p = true → s.settled p = true) →
      let bad := (List.range 36).filter (fun p => decide (s.portState p = psMiswired))
      let s1 := (s.setFld Fld.BUP_TOPO_TOPO_DONE 1).setFld Fld.BUP_TOPO_MISWIRED_PORTS
        (maskOf 36 (fun p => s.portState p = psMiswired))
      exec .topoDone s = .next (bad.foldl (fun a p =>
        a.log 12 .mismatch (.port p) (a.fld (Fld.FAB_PORT_LINK_PEER_MODULE p))) s1))

/-! ### Gradient reduction -/

/-- GRD_OPEN through a management QP that hears, while no open is in progress, of a descriptor in HBM that is ready and reads without
error: where its checks pass the reduction opens with the time of its opening and OK is shown. GRD_CHUNK_SEND of an open reduction that
is not abandoned, its ready count read, sends the next own packet of a gather, or the next raw packet of a reduction where it names
the destination whose turn it is; where no raw packet is ready it only settles, and for another destination it changes nothing. At an
ACCEPTED port GRD_RAW, GRD_PART, GRD_SAMPLE and GRD_GATHER owe their credits back; with a bad CRC the packet is discarded; one that Table 12-8
refuses is answered with that status; another is applied to its reduction and answered with the status of that. -/
def Obligations.ReductionPacketsComplete : Prop :=
  (∀ (s : State) (q : Fin 4) (v : Word), s.mgmtHears q.val = true → s.flag Fld.GRD_STATUS_OPENING = false →
      let a := wget v 39 6 * 64
      isHbm a = true → s.ready rdyHbm = true → ∀ u, s.readCheck 7 .module a 128 = (.ok, u) →
      let d := GradDesc.ofNum (u.num a 128)
      let s1 := (u.setFld Fld.GRD_STATUS_LAST_STATUS 0).setFld Fld.GRD_STATUS_LAST_RED_ID d.redId
      u.gradOpenStatus (u.num a 128) = .ok →
      exec (.grdOpen q v) s = .next (accepted (s1.setRed d.redId { d := d, opened := s1.stamp }).showGrd))
  ∧ (∀ (s : State) (red : Nat) (r : Reduction),
      let s1 := s.gradReadReady red
      s1.red red = some r → r.abandoned = false →
      (∀ dst, r.d.gather = true → exec (.grdChunkSend red dst) s = .next (s1.gatherSendOwn red).gradSettle)
      ∧ (r.d.gather = false →
        (∀ dst c piece, s1.nextRaw r = some (dst, c, piece) →
          exec (.grdChunkSend red dst) s = .next (s1.gradSendRaw red).gradSettle
          ∧ ∀ other, other ≠ dst → exec (.grdChunkSend red other) s = .next s)
        ∧ (s1.nextRaw r = none → ∀ dst, exec (.grdChunkSend red dst) s = .next s1.gradSettle)))
  ∧ (∀ (s : State) (h : PktHdr) (p : GradPkt), s.portState h.port = psAccepted →
      let s1 := s.owe (some h.port) (vcOf 3 h.sub) (packetSlots p.data.length)
      ∀ row ∈ [(0x20, Instr.grdRaw h p), (0x21, .grdPart h p), (0x22, .grdSample h p), (0x23, .grdGather h p)],
        let x := { p with op := row.1 }
        (h.crcOk = false → exec row.2 s = .next (s1.crcDiscard h))
        ∧ (h.crcOk = true → s1.gradJudge h x ≠ .ok → exec row.2 s = .next (s1.gradAnswerTo h (s1.gradJudge h x)))
        ∧ (h.crcOk = true → s1.gradJudge h x = .ok →
          (row.1 ≠ 0x23 → exec row.2 s =
            .next ((s1.gradApply p.redId x).2.gradAnswerTo h (s1.gradApply p.redId x).1).gradSettle)
          ∧ (row.1 = 0x23 → exec row.2 s =
            .next ((State.gatherApply x s1).2.gradAnswerTo h (State.gatherApply x s1).1).gradSettle)))

/-- GRD_STAGE_DEADLINE of a stage from 1 on closes that chunk state, and what its partials leave is settled. GRD_TOTAL_TIMEOUT of an open
reduction that is not abandoned takes back what it has still to send and notes TIMEOUT of a gather that is not done; of one that is no
gather every state closes, owned chunks without one are written with weight 0, and samples not judged are skipped. GRD_RESEND sends the
packets that can be read again of the oldest packet answered NOT_READY, counts them and notes the status of the rest. GRD_COMPLETE of a
reduction that is done writes its report, frees it and posts its completion. -/
def Obligations.ReductionDeadlinesComplete : Prop :=
  (∀ (s : State) (red : Nat) (sec : Bool) (stage : Fin 4) (chunk : Nat), stage.val ≠ 0 →
      exec (.grdStageDeadline red sec stage chunk) s = .next (s.gradClose false red sec stage.val chunk).gradSettle)
  ∧ (∀ (s : State) (red : Nat) (r : Reduction), s.red red = some r →
      (r.abandoned = false →
        let r1 := r.note (.when (r.d.gather && !s.gradDone red r) .timeout)
        let s1 := (s.setRed red { r1 with abandoned := true, resend := [], waiting := [], parts := [] }).abandonSends red
        (r.d.gather = true → exec (.grdTotalTimeout red) s = .next s1)
        ∧ (r.d.gather = false →
          let s2 := r.states.foldl (fun a x => a.gradClose true red (decide (x.1 % 2 = 1)) (x.1 / 2 % 4) (x.1 / 8)) s1
          let s3 := s2.mapRed red (fun r2 => { r2 with states := [] })
          let h := s1.shard r.d
          let s4 := (List.range (h.2 - h.1)).foldl (fun a i =>
            if ((a.red red).map (fun r2 => r2.written.contains (h.1 + i))).getD true then a else a.gradDrain red (h.1 + i) {}) s3
          let samples := if r.d.dual then (List.range (h.2 - h.1)).filterMap (fun i => r.d.sampleOf (h.1 + i)) else []
          exec (.grdTotalTimeout red) s = .next (s4.mapRed red (fun r2 =>
            { r2 with skipped := r2.skipped + (samples.filter (fun j => !r2.judged.contains j)).length }))))
      ∧ (∀ x l, r.resend = x :: l → ∀ ps st u, (s.setRed red { r with resend := l }).gradReread r.d x.piece x.pkt = (ps, st, u) →
        exec (.grdResend red) s = .next (ps.foldl (fun a p =>
          (a.gradInject red (nth 0 x.dest 0) x.piece p).bump Fld.GRD_COUNTS_RESENDS Fld.GRD_COUNTS_RESEND_SAT 1)
            (u.mapRed red (fun r1 => r1.note st))))
      ∧ (s.gradDone red r = true →
        let u := (s.writeMem 7 r.d.report (s.gradReport r)).2
        let s1 := (u.withUnits { u.units with grd := SMap.erase u.units.grd red }).showGrd
        exec (.grdComplete red) s = .next (s1.event { status := r.status, arith := r.arith, kind := .reduction, index := r.d.redId })))

/-! ### Media and the narrow-gauge engines -/

/-- MED_CMD_SUBMIT through a management QP that hears, of a record in HBM, queues it where fewer than 64 wait; else it is DENIED. The
head record reading without error, its reserved bytes zero: MED_OPEN of a good descriptor on a FREE or IDLE stream, media ready and a
lookahead in the hands of the die's owner, makes it RUNNING; MED_CLOSE of a stream not FREE frees it; MED_FLUSH of a RUNNING one drains
it; for an encoder ROI_SET and RATE_SET stage good regions or a good rate, and MED_KEY asks for a key picture; each completes OK.
UNIT_QUEUE_POLL of a RUNNING or DRAINING stream reads the other side's counts. PICTURE_START with a free engine reads the die's queues
and, where a picture is ready, begins it: a decoder's of a good unit that reads with its references, on engines it may take; an
encoder's of a good input, its type, budget and rows set. PICTURE_COMPLETE of a stream with a picture in an engine ends it. -/
def Obligations.MediaCommandsComplete : Prop :=
  (∀ (s : State) (q : Fin 4) (v : Word), s.mgmtHears q.val = true →
      let a := wget v 39 6 * 64
      (s.med.queue.length < 64 → s.hbmSource a 64 = .ok → exec (.medCmdSubmit q v) s = .next (accepted
        ((s.setMed { s.med with queue := s.med.queue ++ [a] }).setFld Fld.MED_CMD_STATUS_PENDING (s.med.queue.length + 1))))
      ∧ (64 ≤ s.med.queue.length → exec (.medCmdSubmit q v) s = .next (refused s q Reg.MED_CMD_SUBMIT .denied)))
  ∧ (∀ (s : State) (a : Nat) (rest : List Nat) (u : State), s.med.queue = a :: rest → s.medRead 0 a 64 = (.ok, u) →
      let w := s.num a 64
      byteField w 9 39 = 0 → byteField w 56 8 = 0 →
      let s1 := u.setMed { u.med with queue := rest }
      let op := byteField w 0 1
      let n := byteField w 3 1
      let addr := byteField w 4 5
      let d := StreamDesc.ofNum (s1.num addr 128)
      (op = 1 → (s1.streamSt n = stFree ∨ s1.streamSt n = stIdle) → addr % 64 = 0 → s1.hbmSource addr 128 = .ok →
        ∀ t, s1.medRead n addr 128 = (.ok, t) → d.ok (s1.num addr 128) = true → s1.streamBuffers d = true → s1.ready rdyMedia = true →
        (d.encode = true → d.lookahead = 0 ∨ s1.altOwner d.md = true) →
        let t2 := t.setReg (Reg.MED_STREAM n)
          (wput (wput (wput (wput 0 63 61 stRunning) 60 60 (b2n d.encode)) 59 58 d.md) 57 56 d.cls)
        exec .medOpen s = .next ((t2.setStream n { d := d }).showOpen.medComplete a op n .ok))
      ∧ (op = 2 → s1.streamSt n ≠ stFree →
        let t := (s1.dropRun n).setReg (Reg.MED_STREAM n) 0
        exec .medClose s = .next ((t.setMed { t.med with streams := SMap.erase t.med.streams n }).showOpen.medComplete a op n .ok))
      ∧ (op = 3 → s1.streamSt n = stRunning → exec .medFlush s =
        .next (((s1.setFld (Fld.MED_STREAM_STATE n) stDraining).drainStream n).medComplete a op n .ok))
      ∧ (∀ x, s1.stream n = some x → x.d.encode = true →
        (op = 4 → s1.hbmSource addr 256 = .ok → ∀ t, s1.medRead n addr 256 = (.ok, t) →
          (∀ i < 16, (Roi.ofNum (s1.num addr 256) i).ok x.d (s1.num addr 256) i = true) → exec .roiSet s =
          .next ((t.setStream n { x with roiStaged := some (tab 16 (Roi.ofNum (s1.num addr 256))) }).medComplete a op n .ok))
        ∧ (op = 5 → s1.hbmSource addr 16 = .ok → ∀ t, s1.medRead n addr 16 = (.ok, t) →
          let r := byteField (s1.num addr 16) 0 4
          let lo := byteField (s1.num addr 16) 9 1
          let hi := byteField (s1.num addr 16) 10 1
          bitrateOk x.d.rcMode r = true → lo ≤ hi → hi ≤ qpTop x.d.codec → exec .rateSet s =
          .next ((t.setStream n { x with rateStaged := some (r, lo, hi) }).medComplete a op n .ok))
        ∧ (op = 6 → exec .medKey s = .next ((s1.setStream n { x with keyDue := true }).medComplete a op n .ok))))
  ∧ (∀ (s : State) (n : Fin 256),
      (s.streamSt n.val = stRunning ∨ s.streamSt n.val = stDraining →
        exec (.unitQueuePoll n) s = .next (((s.refresh n.val).flushOut n.val).drainStream n.val))
      ∧ (∀ x d e, s.stream n.val = some x →
        (∀ r, x.dec = some r → exec (.pictureComplete n d e) s = .next (s.endDecode n.val x r d))
        ∧ (∀ r, x.dec = none → x.enc = some r → exec (.pictureComplete n d e) s = .next (s.endEncode n.val x r e))))
  ∧ (∀ (s : State) (md : Fin 4) (enc : Bool) (engines : List Nat) (d : DecObs) (e : EncObs), s.freeEngines md.val enc ≠ [] →
      let s0 := s.med.streams.foldl (fun acc p =>
        if p.2.d.md = md.val && p.2.d.encode = enc && (acc.streamSt p.1 = stRunning || acc.streamSt p.1 = stDraining) then
          (acc.refresh p.1).flushOut p.1 else acc) s
      (s0.nextPicture md.val enc = none → exec (.pictureStart md enc engines d e) s = .next s0)
      ∧ (∀ n x, s0.nextPicture md.val enc = some n → s0.stream n = some x →
        (enc = false → ∀ t1, s0.medRead n (x.d.unitAt x.units) 32 = (.ok, t1) →
          let w := s0.num (x.d.unitAt x.units) 32
          let ua := byteField w 0 5
          let len := byteField w 8 4
          1 ≤ len → len ≤ 2 ^ 26 → t1.inOneRegion ua len = true → byteField w 5 3 = 0 → byteField w 12 1 ≤ 15 →
          ∀ t2, t1.medRead n ua len = (.ok, t2) → d.malformed = false → (x.skipping = true → d.key = true) →
          d.refsNeeded < x.d.nref → d.w ≤ x.d.maxW → d.h ≤ x.d.maxH → 16 ≤ d.w → 16 ≤ d.h → d.outside = false → d.bits = x.d.bits →
          ((d.chroma = 2 ∧ x.d.chroma ≠ 1) ∨ (d.chroma ≠ 2 ∧ d.chroma = x.d.chroma)) →
          let used := d.refs.filterMap (pickRef x.refs)
          let missing := d.refs.any (fun r => !(x.refs.any (fun q => q.order = r)))
          ∀ t3, used.foldl (fun (acc : Status × State) q => if acc.1 ≠ .ok then acc
            else acc.2.medRead n (x.d.refPool + q.slot * x.d.refSize) x.d.refSize) (.ok, t2) = (.ok, t3) →
          enginesOk (s0.freeEngines x.d.md false) engines (if x.d.codec = 0 then 1 else min x.d.splitMax (max 1 d.columns)) true = true →
          let run : DecRun := ⟨engines, x.units, byteField w 16 8, d, missing, !d.key && used.any (·.damaged)⟩
          let t4 := (t3.setBusy false engines 1).beginPicture n { x with dec := some run, skipping := false }
          (bit (byteField w 12 1) 0 = true → d.more = false →
            exec (.pictureStart md enc engines d e) s = .next (t4.setFld (Fld.MED_STREAM_STATE n) stDraining))
          ∧ (bit (byteField w 12 1) 0 = false ∨ d.more = true → exec (.pictureStart md enc engines d e) s = .next t4))
        ∧ (enc = true →
          let y := x.takeStaged
          let num := if y.d.gop ≤ 1 then y.pics else e.num
          enginesOk (s0.freeEngines y.d.md true) engines (min y.d.splitMax y.d.tileCols) false = true →
          y.pics ≤ num → num < (if y.d.viaNge then y.pics + y.local'.length else y.picsOther) → num ∉ y.coded →
          (s0.streamSt n = stDraining → ∃ c ∈ y.coded, num < c) →
          ∀ a tag t1, s0.encInput n y num = (.ok, a, tag, t1) →
          ∀ b t2, t1.readChecks clsMedia (.stream n) ((e.refs.filter (fun k => decide (k < y.d.nref))).map
            (fun k => (y.d.refPool + k * y.d.refSize, y.d.refSize))) = (.ok, b, t2) →
          let key := y.began.isNone || decide (y.d.keyInt ≤ y.sinceKey) || y.keyDue
          let intra := key || y.d.gop = 0
          let ptype := if intra then 0 else if y.d.gop = 1 then 1 else 1 + e.ptype
          let debt := if y.keyDue then 0 else y.debt
          let part := debtPart debt (y.d.nominal key)
          let left := y.d.nominal key - part
          let old := y.record ptype
          let cols := tab y.d.tileCols (fun j =>
            (if y.d.rcMode = 0 then y.d.qpInit else (old.bind (·.final[j]?)).getD y.d.qpInit,
              if 0 < y.d.lookahead then nth [] e.complexity j
              else (old.bind (·.bits[j]?)).getD (List.replicate (ceilDiv y.d.maxH 64) 1)))
          let run : EncRun :=
            ⟨engines, num, tag, key, intra, ptype, if y.d.rcMode = 0 then none else some left, left / y.d.tileCols, cols⟩
          exec (.pictureStart md enc engines d e) s = .next ((t2.setBusy true engines 1).beginPicture n
            { y with enc := some run, keyDue := false, sinceKey := if key then 1 else y.sinceKey + 1,
                     debt := if y.d.rcMode = 0 then debt else debt - part }))))

/-- NGE_BIND through a management QP that hears, the engine ready, in service and free, of a stream open on its die, bound already or
fewer than 64 programs there: the program is checked, and bound where the checks pass; their status and stage are shown. NGE_UNBIND of
a bound program takes it out and shows OK; of none it shows VERIFY. A bind of an engine that is out of service or not ready is
NOT_READY. NGE_PICTURE_RUN, the engines ready, reads the rings' counts and runs the ready program of highest priority over one picture,
if there is one: a FRONT one as runFront says; a TAIL one, its map and record reading without error, writes the consumed count and puts
the picture that its stages and PACK give into the encoder's local buffer. -/
def Obligations.NarrowGaugeCompletes : Prop :=
  (∀ (s : State) (q e : Fin 4) (v : Word), s.mgmtHears q.val = true →
      let n := wget (wput v 63 62 0) 55 48
      let m := wget (wput v 63 62 1) 55 48
      let a := Reg.NGE_BIND e.val
      (s.ready rdyNge = true → e.val ∉ s.boot.ngeOut → s.flag (Fld.NGE_STATUS_PENDING e.val) = false →
        (∀ x, s.dieStream e.val n = some x → ((s.ngeProg e.val n).isSome = true ∨ (s.ngePrograms e.val).length < 64) →
          ∀ st stage u, s.ngeVerify e.val n (wget (wput v 63 62 0) 39 6 * 64) x.d = (st, stage, u) →
          exec (.ngeBind q e v) s = .next (accepted (u.ngeOutcome e.val st stage)))
        ∧ ((s.dieStream e.val m).isSome = true →
          ((s.ngeProg e.val m).isSome = true → exec (.ngeUnbind q e v) s = .next (accepted ((s.setNge { s.units.nge with
            progs := SMap.erase s.units.nge.progs (256 * e.val + m) }).ngeOutcome e.val .ok 255)))
          ∧ ((s.ngeProg e.val m).isSome = false → exec (.ngeUnbind q e v) s = .next (accepted (s.ngeOutcome e.val .verify 255)))))
      ∧ ((s.ready rdyNge = false ∨ e.val ∈ s.boot.ngeOut) → s.flag (Fld.NGE_STATUS_PENDING e.val) = false →
        (∀ x, s.dieStream e.val n = some x → (s.ngeProg e.val n).isSome = true →
          exec (.ngeBind q e v) s = .next (refused s q a .notReady))))
  ∧ (∀ (s : State) (e : Fin 4), s.ready rdyNge = true →
      let s0 := (s.ngePrograms e.val).foldl (fun acc p => acc.ngeRefresh e.val p.stream) s
      (s0.nextNge e.val = none → exec (.ngePictureRun e) s = .next s0)
      ∧ (∀ n p x, s0.nextNge e.val = some (n, p, x) →
        (p.front = true → exec (.ngePictureRun e) s = .next (s0.runFront e.val n p x))
        ∧ (p.front = false → ∀ a t,
          s0.readChecks clsNge (.engine e.val) [(p.slotAt p.done, p.needs), (p.recordAt p.done, 16)] = (.ok, a, t) →
          let w := s0.num (p.recordAt p.done) 16
          let r := p.runStages s0.sfuGen 0 p.stages (s0.landed p (p.slotAt p.done))
          let depth := (p.stages.getLast?.map (·.param)).getD 8
          let pic : Picture := ⟨p.done, bits w 63 0, bit (byteField w 8 1) 0, false, false, .ok, x.d.maxW, x.d.maxH, depth, 0,
            ngePack depth s0.free r.2.1⟩
          let t1 := (t.withFree (s0.free + 1)).ngeWrite (p.base + 8) (leBytes 8 (p.done + 1))
          exec (.ngePictureRun e) s =
            .next ((t1.setStream n { x with local' := x.local' ++ [pic] }).ngeDone e.val n p r.2.2))))

/-! ### Starts, firmware and flash -/

/-- POWER_GOOD_RISE of a module without power and not held for its flash takes what was programmed and cold-starts where FLASH_EN_N is
high; where it is low the module is held. POWER_GOOD_FALL of a module with power or held, and RESET_N_FALL of a high pin, stop
everything. FLASH_EN_N_FALL releases the flash pins while RESET_N is low; FLASH_EN_N_RISE takes them back, and a module held for its
flash cold-starts. BUP_RESET through a management QP that hears: where something burns or the module is SCRAPPED it is DENIED; else
with its key and a slot it resets, and without it or with slot 3 it is VERIFY. TRIP_EXIT_RESET with power good and a trip just left,
and LIFECYCLE_WARM_RESET after a transition, reset, the latter erasing where the module is SCRAPPED. SDSCLK_LOSS takes every port in use
out of service, and every host port; SDSCLK_RETURN locks LINK and ETH again where their frequency is set. -/
def Obligations.StartsAndResetsComplete : Prop :=
  ∀ (s : State) (o : StartObs),
    (s.boot.powerGood = false → s.boot.heldForFlash = false →
      let s1 := s.takeProgrammed o.programmed
      let s2 := s1.withBoot { s1.boot with resetN := true, sdsclk := true, flashReleased := false }
      (s2.boot.flashEnN = true → exec (.powerGoodRise o) s = .next (s2.coldStart o))
      ∧ (s2.boot.flashEnN = false → exec (.powerGoodRise o) s = .next (s2.withBoot { s2.boot with heldForFlash := true })))
    ∧ (let s1 := s.loseSupply
       ((s.boot.powerGood = true ∨ s.boot.heldForFlash = true) →
         exec .powerGoodFall s = .next (s1.withBoot { s1.boot with heldForFlash := false }))
       ∧ (s.boot.resetN = true → exec .resetNFall s = .next (s1.withBoot
           { s1.boot with resetN := false, heldForFlash := false, flashReleased := !s1.boot.flashEnN })))
    ∧ exec .flashEnNFall s = .next (s.withBoot
        { s.boot with flashEnN := false, flashReleased := !s.boot.resetN || s.boot.flashReleased })
    ∧ (let s1 := s.takeProgrammed o.programmed
       let s2 := s1.withBoot { s1.boot with flashEnN := true, flashReleased := false }
       (s2.boot.heldForFlash = true → exec (.flashEnNRise o) s = .next (s2.coldStart o))
       ∧ (s2.boot.heldForFlash = false → exec (.flashEnNRise o) s = .next s2))
    ∧ (∀ (q : Fin 4) (key : BitVec 8) (slot : BitVec 2), s.mgmtHears q.val = true →
      ((s.burning = true ∨ s.lifeCycle = 4) → exec (.bupReset q key slot o) s = .next (refused s q Reg.BUP_RESET .denied))
      ∧ (s.burning = false → s.lifeCycle ≠ 4 →
        (key = 0xa5 → slot ≠ 3 → exec (.bupReset q key slot o) s = .next (accepted (s.warmReset slot.toNat o)))
        ∧ (key ≠ 0xa5 ∨ slot = 3 → exec (.bupReset q key slot o) s = .next (refused s q Reg.BUP_RESET .verify))))
    ∧ (s.boot.powerGood = true → s.gov.tripExit = true → exec (.tripExitReset o) s = .next (s.warmReset 0 o))
    ∧ (s.sec.transition = true →
      (s.lifeCycle = 4 → exec (.lifecycleWarmReset o) s = .next (s.warmReset 0 o).scrapErase)
      ∧ (s.lifeCycle ≠ 4 → exec (.lifecycleWarmReset o) s = .next (s.warmReset 0 o)))
    ∧ (s.boot.sdsclk = true →
      let s1 := s.withBoot { s.boot with sdsclk := false }
      let s2 := (s1.setFld (Fld.SBX_DOMAIN_CLK_LOCKED 4) 0).setFld (Fld.SBX_DOMAIN_CLK_LOCKED 5) 0
      let s3 := (List.range 36).foldl (fun a p =>
        if a.portState p = psDisabled || a.portState p = psFailed then a else a.leaveService p psFailed .timeout 0) s2
      exec .sdsclkLoss s = .next ((List.range 4).foldl (fun a k => a.linkLost k) s3))
    ∧ (s.boot.sdsclk = false →
      let s1 := s.withBoot { s.boot with sdsclk := true }
      (s1.fld (Fld.SBX_DOMAIN_CLK_SET_KHZ 4) = 0 → exec .sdsclkReturn s = .next s1)
      ∧ (s1.fld (Fld.SBX_DOMAIN_CLK_SET_KHZ 4) ≠ 0 → exec .sdsclkReturn s =
        .next ((s1.setFld (Fld.SBX_DOMAIN_CLK_LOCKED 4) 1).setFld (Fld.SBX_DOMAIN_CLK_LOCKED 5) 1)))

/-- FW_SEGMENT_MESSAGE to a loading core keeps a segment whose CRC, number and length are good; one whose CRC is bad is discarded.
FW_END_MESSAGE pulls what the core lacks and judges its image, and FW_PULL_TIMEOUT of a pull made counts a failure and pulls again, or at
the third gives the core up, its number going to a spare where the count of cores stays. DEFECT_LIST_WRITE with power and a copy writes
new and advanced entries to the other copy, SEQ one higher. HBM_TEST_DONE on the cold path, its cores settled, hides or fails rows, shows
the stacks and wipes HBM; on the warm path it only fails untrained stacks and shows them; HBM is ready where none failed. RECOVERY_AREA_READY of a stopped start with a defect list wipes the
area. FLASH_ERASE and FLASH_PROGRAM of a sector not booted from and below 0x380, from HBM, and FLASH_VERIFY_SLOT of 0x180 or 0x280, are
accepted while none is busy and the module is not SCRAPPED; FLASH_COMMAND_COMPLETE, nothing burning and no entry waiting, ends them. -/
def Obligations.FirmwareAndFlashComplete : Prop :=
  (∀ (s : State) (n : Fin 2048), s.fwLoading n.val = true →
      let f := (s.core n.val).fw
      (∀ msg : List Byte,
        let w := leNat (msg.take 16)
        let seg := byteField w 2 1
        let count := byteField w 3 1
        let len := byteField w 4 4
        let data := (msg.drop 16).take len
        (crc32c data ≠ byteField w 8 4 → exec (.fwSegmentMessage n msg) s = .next s)
        ∧ (crc32c data = byteField w 8 4 → seg ≤ count → count ≤ 63 → 1 ≤ len → len ≤ 4096 → (seg < count → len = 4096) →
          data.length = len → exec (.fwSegmentMessage n msg) s = .next (s.setFw n.val
            { f with segs := SMap.insert f.segs seg data, imageId := byteField w 0 2, segCount := count })))
      ∧ (∀ (id : Fin 65536) missed, exec (.fwEndMessage n id missed) s =
          .next ((s.pull n.val id.val (s.fwMissing n.val) missed).judgeFw n.val id.val missed fwRounds).settleStart)
      ∧ (∀ (seg : Fin 64) (id : Fin 65536) missed, f.pulls ≠ 0 → seg.val ∈ s.fwMissing n.val →
          let s1 := s.setFw n.val (f.fail [seg.val]).2
          let given := s1.coreDefective n.val id.val missed
          ((f.fail [seg.val]).1 = false → s.cores' ≤ (s1.pull n.val id.val [seg.val] missed).cores' →
            exec (.fwPullTimeout n seg id missed) s =
              .next ((s1.pull n.val id.val [seg.val] missed).judgeFw n.val id.val missed fwRounds).settleStart)
          ∧ ((f.fail [seg.val]).1 = true →
            (s.cores' ≤ given.cores' → exec (.fwPullTimeout n seg id missed) s =
              .next (given.judgeFw n.val id.val missed fwRounds).settleStart)
            ∧ (given.cores' < s.cores' → exec (.fwPullTimeout n seg id missed) s = .next given.settleStart))))
  ∧ (∀ (s : State) n c, s.boot.bestCopy = some (n, c) → s.boot.powerGood = true → (s.boot.unwritten ≠ [] ∨ s.boot.dirty = true) →
      let b := s.boot.setCopy (1 - n) ⟨true, c.seq + 1, c.entries.map s.boot.current ++ s.boot.unwritten⟩
      exec .defectListWrite s = .next (s.withBoot
        { b with defects := s.boot.defects ++ s.boot.unwritten, unwritten := [], dirty := false }))
  ∧ (∀ (s : State) (o : HbmObs), s.fld Fld.BUP_STATUS_PHASE = phTesting → s.fld Fld.BUP_STATUS_START_KIND ≠ 1 →
      s.boot.hbmTested = false → 5 ∉ s.boot.badComponents → s.coresSettled = true →
      let s1 := s.withBoot { s.boot with hbmTested := true }
      let s2 := o.retest.foldl (fun a loc => a.failStack (rowStack loc)) (o.rows.foldl (fun a x => a.rowFails x) s1)
      let s3 := o.untrained.foldl (fun a st => a.failStack st) s2
      let bad := s3.fld Fld.BUP_HBM_READY_STACK_FAILED
      let s4 := ((List.range 12).filter (fun st => !bit bad st)).foldl (fun a st =>
        (a.setFld (Fld.HBM_STACK_READY st) 1).setFld (Fld.HBM_STACK_NARROW_OK st) (b2n (!o.narrowBad.contains st))) s3
      let s5 := (s4.setFld Fld.BUP_HBM_READY_STACK_READY (maskOf 12 (fun st => !bit bad st))).wipe 0 hbmEnd
      let s6 := s5.setReady rdyHbm
      (bad ≠ 0 → exec (.hbmTestDone o) s = .next (s5.setFld Fld.BUP_STATUS_FAULT Status.degraded.code).settleStart)
      ∧ (bad = 0 → s6.boot.msTested = false → exec (.hbmTestDone o) s = .next s6.settleStart)
      ∧ (bad = 0 → s6.boot.msTested = true →
        exec (.hbmTestDone o) s = .next (s6.setFld Fld.BUP_STATUS_COLD_DONE 1).settleStart))
  ∧ (∀ (s : State) (o : HbmObs), s.fld Fld.BUP_STATUS_PHASE = phTesting → s.fld Fld.BUP_STATUS_START_KIND = 1 →
      s.boot.hbmTested = false → 5 ∉ s.boot.badComponents →
      let s3 := o.untrained.foldl (fun a st => a.failStack st) (s.withBoot { s.boot with hbmTested := true })
      let bad := s3.fld Fld.BUP_HBM_READY_STACK_FAILED
      let s4 := ((List.range 12).filter (fun st => !bit bad st)).foldl (fun a st =>
        (a.setFld (Fld.HBM_STACK_READY st) 1).setFld (Fld.HBM_STACK_NARROW_OK st) (b2n (!o.narrowBad.contains st))) s3
      let s5 := s4.setFld Fld.BUP_HBM_READY_STACK_READY (maskOf 12 (fun st => !bit bad st))
      (bad ≠ 0 → exec (.hbmTestDone o) s = .next (s5.setFld Fld.BUP_STATUS_FAULT Status.degraded.code).settleStart)
      ∧ (bad = 0 → exec (.hbmTestDone o) s = .next (s5.setReady rdyHbm).settleStart))
  ∧ (∀ s : State, s.fld Fld.BUP_STATUS_PHASE = phStopped → s.boot.bestCopy.isSome = true →
      exec .recoveryAreaReady s = .next (((s.applyClocks (tab 8 khzNominal)).wipe msBase recoverySize).setFld Fld.BUP_STATUS_RECOVERY 1))
  ∧ (∀ (s : State) (q : Fin 4) (n : Fin 1024), s.mgmtHears q.val = true → s.lifeCycle ≠ 4 → s.boot.flashCmd = none →
      let taken := fun op a sig => accepted
        ((s.withBoot { s.boot with flashCmd := some ⟨op, n.val, a, sig⟩ }).setFld Fld.BUP_FLASH_STATUS_BUSY 1)
      let free := s.boot.bundle.all (fun b => !inBundleSlot b.slot n.val) && s.boot.image.all (fun im => !inStructSlot im.slot n.val)
      (free = true → n.val < 0x380 → exec (.flashErase q n) s = .next (taken 0 0 .none)
        ∧ (∀ src : BitVec 28, isHbm (src.toNat * 4096) = true → src.toNat * 4096 + sectorSize ≤ hbmEnd → s.ready rdyHbm = true →
          exec (.flashProgram q n src) s = .next (taken 1 (src.toNat * 4096) .none)))
      ∧ ((n.val = 0x180 ∨ n.val = 0x280) → ∀ sig, exec (.flashVerifySlot q n sig) s = .next (taken 2 0 sig)))
  ∧ (∀ (s : State) c, s.boot.flashCmd = some c → s.burning = false → s.boot.unwritten = [] → s.boot.dirty = false →
      let ends := fun (st : Status) (u : State) =>
        ((((u.withBoot { u.boot with flashCmd := none }).setFld Fld.BUP_FLASH_STATUS_BUSY 0).setFld Fld.BUP_FLASH_STATUS_LAST_STATUS
          st.code).setFld Fld.BUP_FLASH_STATUS_LAST_OP c.op).setFld Fld.BUP_FLASH_STATUS_LAST_SECTOR c.sector
      (c.op = 0 → exec .flashCommandComplete s = .next (ends .ok (s.eraseSector c.sector)))
      ∧ (c.op = 1 → ∀ l u, s.readMem 7 .module c.src sectorSize = (.ok, l, u) →
        exec .flashCommandComplete s = .next (ends .ok (u.writeSector c.sector l)))
      ∧ (c.op = 2 → exec .flashCommandComplete s =
        .next (ends (s.verifySlot (if c.sector = 0x180 then 0 else 1) c.sig).1 s)))

/-! ### Power and cooling -/

/-- In states whose registers are well formed, with the governor running. GOVERNOR_UPDATE fills the bucket and judges the thermal step,
changes nothing else but registers, and shows ceiling, draw and bucket; in TRIP it shows level 0, in step 2 level 48, in HOLD 48 where a
job holds the cores and else 0. SUPPLY_SAMPLE shows its reading and judges the step. PLANT_SAMPLE takes its readings, touching only
registers, governor and trace, and judges the step. VALVE_UPDATE outside TRIP: without an override, both temperatures read, it sets the
duty of R461, and with one unread it keeps it; under an override it drives the valve. SHELF_POLL and SMBALERT read the shelf unless a
test feature owns the PMBus; a valid answer ends a loss. SHELF_LOST after 1 s without one shows and counts the loss. -/
def Obligations.GovernorCommandsComplete : Prop :=
  ∀ s : State, s.regsOk = true → s.ready rdyPower = true →
    (∀ draw levels,
      let p := s.power
      let bucket := min (s.gov.bucket + p.susW - draw) (p.burstJ * 100000)
      let c := s.ceiling (burstOk p bucket draw)
      let s2 := (s.withGov { s.gov with bucket := bucket, unmetSince := s.sinceWhen s.gov.unmetSince (decide (c < nth 0 levels 0)) }).reStep
      ∃ t, exec (.governorUpdate draw levels) s = .next t ∧ Keeps [.regs] s2 t ∧ t.fld Fld.PWR_DRAW_CEIL_W = c % 2 ^ 14
        ∧ t.fld Fld.PWR_DRAW_DRAW_W = draw % 2 ^ 14 ∧ t.fld Fld.PWR_STATUS_BUCKET_J = bucket / 100000 % 2 ^ 15
        ∧ (s2.thermal = 4 → t.fld Fld.PWR_STATUS_ISSUE = 0) ∧ (s2.thermal = 2 → t.fld Fld.PWR_STATUS_ISSUE = 48)
        ∧ (s2.thermal = 3 → t.fld Fld.PWR_STATUS_ISSUE = if s2.sched.run.isSome then 48 else 0))
    ∧ (∀ vin : Fin 16384, exec (.supplySample vin) s = .next ((s.setFld Fld.PWR_DRAW_VIN_10MV vin.val).withGov
        { s.gov with supplySince := s.sinceWhen s.gov.supplySince (decide (vin.val < 4600) || decide (5600 < vin.val)) }).reStep)
    ∧ (∀ o : PlantObs, ∃ t, exec (.plantSample o) s = .next t.reStep ∧ t.gov.sampled = true ∧ t.gov.tIn = o.tIn ∧ t.gov.tOut = o.tOut
        ∧ t.gov.cdC = o.cdC ∧ t.gov.mdC = o.mdC ∧ (∀ n, o.pulses = some n → t.gov.flow = some (n * 600 / s.power.pulsesPerL))
        ∧ Keeps [.regs, .gov, .test] s t)
    ∧ (s.thermal ≠ 4 → s.valveOverridden = true → exec .valveUpdate s = .next s.driveValve)
    ∧ (s.thermal ≠ 4 → s.valveOverridden = false → (s.gov.tIn = none ∨ s.gov.tOut = none) → exec .valveUpdate s = .next s)
    ∧ (s.thermal ≠ 4 → s.valveOverridden = false → ∀ a b, s.gov.tIn = some a → s.gov.tOut = some b →
      let r := valveStep s.power (s.fld Fld.PWR_DRAW_DRAW_W) a b s.gov.duty s.gov.integ10
      exec .valveUpdate s = .next ((s.withGov { s.gov with duty := r.1, integ10 := r.2 }).setFld Fld.PWR_PLANT_DUTY r.1))
    ∧ (s.altOwner 17 = true → ∀ r, exec (.shelfPoll r) s = .next s ∧ exec (.smbalert r) s = .next s)
    ∧ (s.altOwner 17 = false → ∀ x : ShelfRead,
      let s1 := [0x79, 0x7c, 0x88, 0x8c, 0x96].foldl (fun a c => a.emit (.pmbus false c [])) s
      (exec (.shelfPoll none) s = .next s1 ∧ exec (.smbalert none) s = .next s1)
      ∧ (∃ t, exec (.shelfPoll (some x)) s = .next t ∧ exec (.smbalert (some x)) s = .next t ∧ t.gov.shelfValid = s.time.toNat
        ∧ t.flag Fld.PWR_STATUS_SHELF_LOST = false ∧ (bits x.statusInput.toNat 7 4 ≠ 0 → t.flag Fld.PWR_STATUS_ON_BATTERY = true)))
    ∧ (s.flag Fld.PWR_STATUS_SHELF_LOST = false → s.gov.shelfValid + 1000000000 ≤ s.time.toNat → exec .shelfLost s =
        .next ((s.setFld Fld.PWR_STATUS_SHELF_LOST 1).bump Fld.PWR_COUNTS_SHELF_LOSSES Fld.PWR_COUNTS_SHELF_SAT 1).showBattery)

/-! ### Security -/

/-- SEC_CMD_SUBMIT through a management QP that hears, of a readable record that names an operation, nothing being in progress, makes it
run; while something is in progress it is DENIED. The command in progress runs at the row of its operation: what R476 refuses completes
with that status and has no effect; else it has its effect and completes OK, or with the status that its effect ends with. Where every
burned bit takes: ENTER_FIELD, ENTER_RETURN, SCRAP and PROVISION burn their life-cycle bit in both copies and a transition begins,
PROVISION after the fuses of its record and, where the seed is not there, a good seed; KEY_PROG burns the payload key, KEY_REVOKE and
FW_REVOKE their slot's bit, SVN_COMMIT the running SVN. CERT_STORE of a readable payload writes its sector; DEFECT_CLEAR with a valid
copy writes both copies without the entries. -/
def Obligations.SecurityCommandsComplete : Prop :=
  (∀ (s : State) (q : Fin 4) (v : Word), s.mgmtHears q.val = true →
      let a := wget v 39 6 * 64
      ((s.sec.cmd.isSome = true ∨ s.sec.transition = true) → exec (.secCmdSubmit q v) s = .next (refused s q Reg.SEC_CMD_SUBMIT .denied))
      ∧ (s.sec.cmd = none → s.sec.transition = false → s.secRange a secBytes = .ok →
        ∀ l u, s.readMem 7 .module a secBytes = (.ok, l, u) → secOps.contains (secOp (leNat l)) = true → exec (.secCmdSubmit q v) s =
          .next (accepted ((u.withSec { s.sec with cmd := some ⟨a, secOp (leNat l)⟩ }).setFld Fld.SEC_STATE_BUSY 1))))
  ∧ (∀ (s : State) (sig seedOk : Bool) (masks : List Nat) (a op : Nat), s.sec.cmd = some ⟨a, op⟩ →
      let w := s.num a secBytes
      ∀ row ∈ ([(0x01, .provision sig masks seedOk, sig, provision masks seedOk), (0x02, .certStore sig, sig, certStore),
          (0x03, .enterField sig masks, sig, fun _ t => t.transit 1 masks 0),
          (0x04, .enterReturn sig masks, sig, fun _ t => (t.eraseSectors 384 (2 * structSectors)).transit 2 masks 0),
          (0x05, .scrap sig masks, sig, fun _ t => t.transit 3 masks 0), (0x10, .keyProg sig masks, sig, keyProg masks),
          (0x11, .keyRevoke sig masks, sig, keyRevoke masks), (0x12, .fwRevoke sig masks, sig, fwRevoke masks),
          (0x13, .svnCommit masks, true, svnCommit masks),
          (0x20, .debugUnlock sig, sig, fun w t => (.ok, t.withSec { t.sec with unlocked := t.sec.unlocked ||| secArg w })),
          (0x21, .defectClear sig, sig, defectClear), (0x30, .identRead, true, identRead), (0x31, .attest, true, attest)] :
            List (Nat × Instr × Bool × (Nat → State → Status × State))), op = row.1 →
        (s.secCheck w row.2.2.1 = .ok →
          (∀ u, row.2.2.2 w s = (.ok, u) → exec row.2.1 s = .next (u.secFinish a w .ok))
          ∧ (∀ st u, st ≠ .ok → row.2.2.2 w s = (st, u) → exec row.2.1 s = .next (u.secFinish a w st)))
        ∧ (s.secCheck w row.2.2.1 ≠ .ok → exec row.2.1 s = .next (s.secFinish a w (s.secCheck w row.2.2.1))))
  ∧ (∀ (s : State) (w : Nat),
      let f := s.sec.fuses
      (∀ k i, let u := s.setFuses { f with lifeA := f.lifeA ||| 2 ^ k, lifeB := f.lifeB ||| 2 ^ k }
        s.transit k [] i = (.ok, u.withSec { u.sec with transition := true }))
      ∧ (∀ seedOk, let f1 := { f with serial := f.serial ||| byteField w 8 8, macBase := f.macBase ||| byteField w 80 6,
                                      mgmtVlan := f.mgmtVlan ||| byteField w 86 2 }
        (f.idSeed = 1 → provision [] seedOk w s = (s.setFuses f1).transit 0 [] 3)
        ∧ (f.idSeed ≠ 1 → seedOk = true → provision [] seedOk w s = (s.setFuses { f1 with idSeed := 1 }).transit 0 [] 3))
      ∧ keyProg [] w s = (.ok, s.setFuses { f with ownerKeys := SMap.set 0 f.ownerKeys (secSlot w) (byteField w 80 132) })
      ∧ keyRevoke [] w s = (.ok, s.setFuses { f with ownerRevoke := f.ownerRevoke ||| 2 ^ secSlot w })
      ∧ fwRevoke [] w s = (.ok, s.setFuses { f with fwRevoke := f.fwRevoke ||| 2 ^ secSlot w })
      ∧ svnCommit [] w s = (.ok, s.setFuses { f with
          svnMin := popCount ((2 ^ f.svnMin - 1) ||| (2 ^ (s.boot.bundle.map (·.svn)).getD 0 - 1)) })
      ∧ (∀ l u, s.readMem 7 .module (secAddr w) (secLen w) = (.ok, l, u) →
        let u1 := u.writeSector certSector l
        certStore w s = (.ok, u1.withBoot { u1.boot with certLen := some (secLen w) }))
      ∧ (∀ n c, s.boot.bestCopy = some (n, c) →
        let first := bits (secArg w) 11 0
        let kept := c.entries.take first ++ c.entries.drop (first + (bits (secArg w) 27 16 + 1))
        defectClear w s = (.ok, s.withBoot ((s.boot.setCopy (1 - n) ⟨true, c.seq + 1, kept⟩).setCopy n ⟨true, c.seq + 2, kept⟩))))

end
end

