-- ==== Sys2Proof/Laws/Maps.lean ====
section
/-! SUPPORT. Laws of sparse maps: a read after a write, and that every operation keeps the canonical form. -/

namespace Sys2Proof.Machine

section Maps
variable {α : Type}

/-! ### The canonical form -/

theorem SMap.wfFrom_mono [DecidableEq α] {d : α} {m : List (Nat × α)} {a b : Nat} (hab : a ≤ b)
    (h : SMap.wfFrom d b m = true) : SMap.wfFrom d a m = true := by
  cases m with
  | nil => rfl
  | cons p l =>
    simp only [SMap.wfFrom, Bool.and_eq_true, decide_eq_true_eq] at h ⊢
    exact ⟨⟨Nat.le_trans hab h.1.1, h.1.2⟩, h.2⟩

/-- A key below every listed key reads as the default. -/
theorem SMap.get_below [DecidableEq α] {d : α} {m : List (Nat × α)} {a b : Nat} (h : SMap.wfFrom d b m = true)
    (hab : a < b) : SMap.get d m a = d := by
  induction m generalizing b with
  | nil => rfl
  | cons p l ih =>
    simp only [SMap.wfFrom, Bool.and_eq_true, decide_eq_true_eq] at h
    have hk : a ≠ p.1 := by omega
    simp only [SMap.get, if_neg hk]
    exact ih h.2 (by omega)

theorem SMap.wfFrom_erase [DecidableEq α] {d : α} {m : List (Nat × α)} {a b : Nat} (h : SMap.wfFrom d b m = true) :
    SMap.wfFrom d b (SMap.erase m a) = true := by
  induction m generalizing b with
  | nil => rfl
  | cons p l ih =>
    have h0 := h
    simp only [SMap.wfFrom, Bool.and_eq_true, decide_eq_true_eq] at h
    simp only [SMap.erase]
    split
    · exact SMap.wfFrom_mono (by omega) h.2
    · simp only [SMap.wfFrom, Bool.and_eq_true, decide_eq_true_eq]
      exact ⟨h.1, ih h.2⟩

theorem SMap.wfFrom_insert [DecidableEq α] {d x : α} {m : List (Nat × α)} {a b : Nat} (h : SMap.wfFrom d b m = true)
    (hb : b ≤ a) (hx : x ≠ d) : SMap.wfFrom d b (SMap.insert m a x) = true := by
  induction m generalizing b with
  | nil => simp [SMap.insert, SMap.wfFrom, hb, hx]
  | cons p l ih =>
    obtain ⟨k, v⟩ := p
    simp only [SMap.wfFrom, Bool.and_eq_true, decide_eq_true_eq] at h
    simp only [SMap.insert]
    split
    · simp only [SMap.wfFrom, Bool.and_eq_true, decide_eq_true_eq]
      exact ⟨⟨hb, by simp [hx]⟩, ⟨by omega, h.1.2⟩, h.2⟩
    · split
      · subst k
        simp only [SMap.wfFrom, Bool.and_eq_true, decide_eq_true_eq]
        exact ⟨⟨hb, by simp [hx]⟩, h.2⟩
      · simp only [SMap.wfFrom, Bool.and_eq_true, decide_eq_true_eq]
        exact ⟨h.1, ih h.2 (by omega)⟩

theorem SMap.wfFrom_set [DecidableEq α] {d x : α} {m : List (Nat × α)} {a b : Nat} (h : SMap.wfFrom d b m = true)
    (hb : b ≤ a) : SMap.wfFrom d b (SMap.set d m a x) = true := by
  simp only [SMap.set]
  split
  · exact SMap.wfFrom_erase h
  · exact SMap.wfFrom_insert h hb ‹_›

theorem SMap.wfFrom_filter [DecidableEq α] {d : α} {m : List (Nat × α)} {b : Nat} (p : Nat × α → Bool)
    (h : SMap.wfFrom d b m = true) : SMap.wfFrom d b (m.filter p) = true := by
  induction m generalizing b with
  | nil => rfl
  | cons q l ih =>
    simp only [SMap.wfFrom, Bool.and_eq_true, decide_eq_true_eq] at h
    rw [List.filter_cons]
    split
    · simp only [SMap.wfFrom, Bool.and_eq_true, decide_eq_true_eq]
      exact ⟨h.1, ih h.2⟩
    · exact SMap.wfFrom_mono (by omega) (ih h.2)

/-! ### Every operation keeps it -/

theorem SMap.wf_nil [DecidableEq α] {d : α} : SMap.wf d ([] : List (Nat × α)) = true := rfl

theorem SMap.wf_erase [DecidableEq α] {d : α} {m : List (Nat × α)} (a : Nat) (h : SMap.wf d m = true) :
    SMap.wf d (SMap.erase m a) = true := SMap.wfFrom_erase h

theorem SMap.wf_set [DecidableEq α] {d : α} {m : List (Nat × α)} (a : Nat) (x : α) (h : SMap.wf d m = true) :
    SMap.wf d (SMap.set d m a x) = true := SMap.wfFrom_set h (Nat.zero_le a)

theorem SMap.wf_clear [DecidableEq α] {d : α} {m : List (Nat × α)} (a n : Nat) (h : SMap.wf d m = true) :
    SMap.wf d (SMap.clear m a n) = true := SMap.wfFrom_filter _ h

theorem SMap.wf_putList [DecidableEq α] {d : α} (l : List α) {m : List (Nat × α)} (a : Nat) (h : SMap.wf d m = true) :
    SMap.wf d (SMap.putList d m a l) = true := by
  induction l generalizing m a with
  | nil => exact h
  | cons x l ih => exact ih (a + 1) (SMap.wf_set a x h)

theorem SMap.wf_foldl_set [DecidableEq α] {d : α} (l : List (Nat × α)) (f : Nat → Nat) {m : List (Nat × α)}
    (h : SMap.wf d m = true) : SMap.wf d (l.foldl (fun acc p => SMap.set d acc (f p.1) p.2) m) = true := by
  induction l generalizing m with
  | nil => exact h
  | cons p l ih => exact ih (SMap.wf_set _ _ h)

theorem SMap.wf_copy [DecidableEq α] {d : α} {m : List (Nat × α)} (o : List (Nat × α)) (src dst n : Nat)
    (h : SMap.wf d m = true) : SMap.wf d (SMap.copy d o m src dst n) = true :=
  SMap.wf_foldl_set _ (fun k => k - src + dst) (SMap.wf_clear dst n h)

/-! ### A read after a write -/

theorem SMap.get_insert_same {d x : α} (m : List (Nat × α)) (a : Nat) : SMap.get d (SMap.insert m a x) a = x := by
  induction m with
  | nil => simp [SMap.insert, SMap.get]
  | cons p l ih =>
    obtain ⟨k, v⟩ := p
    simp only [SMap.insert]
    split
    · simp [SMap.get]
    · split
      · simp [SMap.get]
      · simp [SMap.get, *]

theorem SMap.get_insert_ne {d x : α} (m : List (Nat × α)) {a b : Nat} (h : b ≠ a) :
    SMap.get d (SMap.insert m a x) b = SMap.get d m b := by
  induction m with
  | nil => simp [SMap.insert, SMap.get, h]
  | cons p l ih =>
    obtain ⟨k, v⟩ := p
    simp only [SMap.insert]
    split
    · simp [SMap.get, h]
    · split
      · subst k
        simp [SMap.get, h]
      · simp [SMap.get, ih]

theorem SMap.get_erase_ne {d : α} (m : List (Nat × α)) {a b : Nat} (h : b ≠ a) :
    SMap.get d (SMap.erase m a) b = SMap.get d m b := by
  induction m with
  | nil => rfl
  | cons p l ih =>
    obtain ⟨k, v⟩ := p
    simp only [SMap.erase]
    split
    · subst k
      simp [SMap.get, h]
    · simp [SMap.get, ih]

theorem SMap.get_erase_same [DecidableEq α] {d : α} {m : List (Nat × α)} {b : Nat} (a : Nat)
    (h : SMap.wfFrom d b m = true) : SMap.get d (SMap.erase m a) a = d := by
  induction m generalizing b with
  | nil => rfl
  | cons p l ih =>
    obtain ⟨k, v⟩ := p
    simp only [SMap.wfFrom, Bool.and_eq_true, decide_eq_true_eq] at h
    simp only [SMap.erase]
    split
    · subst k
      exact SMap.get_below h.2 (Nat.lt_succ_self _)
    · simp only [SMap.get, if_neg ‹_›]
      exact ih h.2

theorem SMap.get_set_same [DecidableEq α] {d x : α} {m : List (Nat × α)} (a : Nat) (h : SMap.wf d m = true) :
    SMap.get d (SMap.set d m a x) a = x := by
  simp only [SMap.set]
  split
  · rw [SMap.get_erase_same a h]; exact Eq.symm ‹_›
  · exact SMap.get_insert_same m a

theorem SMap.get_set_ne [DecidableEq α] {d x : α} (m : List (Nat × α)) {a b : Nat} (h : b ≠ a) :
    SMap.get d (SMap.set d m a x) b = SMap.get d m b := by
  simp only [SMap.set]
  split
  · exact SMap.get_erase_ne m h
  · exact SMap.get_insert_ne m h

theorem SMap.get_putList_out [DecidableEq α] {d : α} (l : List α) (m : List (Nat × α)) {a b : Nat}
    (h : b < a ∨ a + l.length ≤ b) : SMap.get d (SMap.putList d m a l) b = SMap.get d m b := by
  induction l generalizing m a with
  | nil => rfl
  | cons x l ih =>
    simp only [List.length_cons] at h
    rw [SMap.putList, ih _ (by omega), SMap.get_set_ne m (by omega)]

theorem SMap.get_putList_in [DecidableEq α] {d : α} (l : List α) {m : List (Nat × α)} (a : Nat) (h : SMap.wf d m = true)
    (i : Nat) (hi : i < l.length) : SMap.get d (SMap.putList d m a l) (a + i) = l[i] := by
  induction l generalizing m a i with
  | nil => exact absurd hi (Nat.not_lt_zero i)
  | cons x l ih =>
    rw [SMap.putList]
    cases i with
    | zero => rw [SMap.get_putList_out l _ (by omega)]; exact SMap.get_set_same a h
    | succ i =>
      have := ih (a + 1) (SMap.wf_set a x h) i (by simpa using hi)
      rw [show a + (i + 1) = a + 1 + i by omega, this]
      rfl

theorem SMap.getList_congr {d : α} {m m' : List (Nat × α)} (a n : Nat)
    (h : ∀ b, a ≤ b → b < a + n → SMap.get d m b = SMap.get d m' b) : SMap.getList d m a n = SMap.getList d m' a n := by
  induction n generalizing a with
  | zero => rfl
  | succ n ih =>
    simp only [SMap.getList]
    rw [h a (Nat.le_refl a) (by omega), ih (a + 1) (fun b h1 h2 => h b (by omega) (by omega))]

theorem SMap.getList_putList [DecidableEq α] {d : α} (l : List α) {m : List (Nat × α)} (a : Nat) (h : SMap.wf d m = true) :
    SMap.getList d (SMap.putList d m a l) a l.length = l := by
  induction l generalizing m a with
  | nil => rfl
  | cons x l ih =>
    simp only [List.length_cons, SMap.getList, SMap.putList]
    rw [ih (a + 1) (SMap.wf_set a x h), SMap.get_putList_out l _ (by omega), SMap.get_set_same a h]

end Maps

end Sys2Proof.Machine
end

