-- ==== Sys2Proof/Laws/State.lean ====
section
/-! SUPPORT. Laws of the state: what each update leaves alone, field by field, and the reads that it leaves alone. -/

namespace Sys2Proof.Machine

variable (s : State)

/-! ### withPending -/

@[simp] theorem State.withPending_pending (x : List Instr) : (s.withPending x).pending = x := rfl
@[simp] theorem State.withPending_time (x : List Instr) : (s.withPending x).time = s.time := rfl
@[simp] theorem State.withPending_free (x : List Instr) : (s.withPending x).free = s.free := rfl
@[simp] theorem State.withPending_regs (x : List Instr) : (s.withPending x).regs = s.regs := rfl
@[simp] theorem State.withPending_mem (x : List Instr) : (s.withPending x).mem = s.mem := rfl
@[simp] theorem State.withPending_eccMask (x : List Instr) : (s.withPending x).eccMask = s.eccMask := rfl
@[simp] theorem State.withPending_eccDead (x : List Instr) : (s.withPending x).eccDead = s.eccDead := rfl
@[simp] theorem State.withPending_msBad (x : List Instr) : (s.withPending x).msBad = s.msBad := rfl
@[simp] theorem State.withPending_vio (x : List Instr) : (s.withPending x).vio = s.vio := rfl
@[simp] theorem State.withPending_out (x : List Instr) : (s.withPending x).out = s.out := rfl
@[simp] theorem State.withPending_host (x : List Instr) : (s.withPending x).host = s.host := rfl
@[simp] theorem State.withPending_boot (x : List Instr) : (s.withPending x).boot = s.boot := rfl
@[simp] theorem State.withPending_gov (x : List Instr) : (s.withPending x).gov = s.gov := rfl
@[simp] theorem State.withPending_sec (x : List Instr) : (s.withPending x).sec = s.sec := rfl
@[simp] theorem State.withPending_test (x : List Instr) : (s.withPending x).test = s.test := rfl
@[simp] theorem State.withPending_cores (x : List Instr) : (s.withPending x).cores = s.cores := rfl
@[simp] theorem State.withPending_sched (x : List Instr) : (s.withPending x).sched = s.sched := rfl
@[simp] theorem State.withPending_units (x : List Instr) : (s.withPending x).units = s.units := rfl
@[simp] theorem State.reg_withPending (x : List Instr) (x' : Nat) : (s.withPending x).reg x' = s.reg x' := rfl
@[simp] theorem State.fld_withPending (x : List Instr) (x' : Field) : (s.withPending x).fld x' = s.fld x' := rfl
@[simp] theorem State.flag_withPending (x : List Instr) (x' : Field) : (s.withPending x).flag x' = s.flag x' := rfl
@[simp] theorem State.ready_withPending (x : List Instr) (x' : Nat) : (s.withPending x).ready x' = s.ready x' := rfl
@[simp] theorem State.byte_withPending (x : List Instr) (x' : Nat) : (s.withPending x).byte x' = s.byte x' := rfl
@[simp] theorem State.bytes_withPending (x : List Instr) (x' y : Nat) : (s.withPending x).bytes x' y = s.bytes x' y := rfl
@[simp] theorem State.num_withPending (x : List Instr) (x' y : Nat) : (s.withPending x).num x' y = s.num x' y := rfl
@[simp] theorem State.core_withPending (x : List Instr) (x' : Nat) : (s.withPending x).core x' = s.core x' := rfl
@[simp] theorem State.ctx_withPending (x : List Instr) (x' : Site) : (s.withPending x).ctx x' = s.ctx x' := rfl
@[simp] theorem State.sem_withPending (x : List Instr) (x' y : Nat) : (s.withPending x).sem x' y = s.sem x' y := rfl
@[simp] theorem State.qp_withPending (x : List Instr) (x' : Nat) : (s.withPending x).qp x' = s.qp x' := rfl
@[simp] theorem State.vioLog_withPending (x : List Instr) (x' : Nat) : (s.withPending x).vioLog x' = s.vioLog x' := rfl

/-! ### withTime -/

@[simp] theorem State.withTime_time (x : BitVec 64) : (s.withTime x).time = x := rfl
@[simp] theorem State.withTime_pending (x : BitVec 64) : (s.withTime x).pending = s.pending := rfl
@[simp] theorem State.withTime_free (x : BitVec 64) : (s.withTime x).free = s.free := rfl
@[simp] theorem State.withTime_regs (x : BitVec 64) : (s.withTime x).regs = s.regs := rfl
@[simp] theorem State.withTime_mem (x : BitVec 64) : (s.withTime x).mem = s.mem := rfl
@[simp] theorem State.withTime_eccMask (x : BitVec 64) : (s.withTime x).eccMask = s.eccMask := rfl
@[simp] theorem State.withTime_eccDead (x : BitVec 64) : (s.withTime x).eccDead = s.eccDead := rfl
@[simp] theorem State.withTime_msBad (x : BitVec 64) : (s.withTime x).msBad = s.msBad := rfl
@[simp] theorem State.withTime_vio (x : BitVec 64) : (s.withTime x).vio = s.vio := rfl
@[simp] theorem State.withTime_out (x : BitVec 64) : (s.withTime x).out = s.out := rfl
@[simp] theorem State.withTime_host (x : BitVec 64) : (s.withTime x).host = s.host := rfl
@[simp] theorem State.withTime_boot (x : BitVec 64) : (s.withTime x).boot = s.boot := rfl
@[simp] theorem State.withTime_gov (x : BitVec 64) : (s.withTime x).gov = s.gov := rfl
@[simp] theorem State.withTime_sec (x : BitVec 64) : (s.withTime x).sec = s.sec := rfl
@[simp] theorem State.withTime_test (x : BitVec 64) : (s.withTime x).test = s.test := rfl
@[simp] theorem State.withTime_cores (x : BitVec 64) : (s.withTime x).cores = s.cores := rfl
@[simp] theorem State.withTime_sched (x : BitVec 64) : (s.withTime x).sched = s.sched := rfl
@[simp] theorem State.withTime_units (x : BitVec 64) : (s.withTime x).units = s.units := rfl
@[simp] theorem State.reg_withTime (x : BitVec 64) (x' : Nat) : (s.withTime x).reg x' = s.reg x' := rfl
@[simp] theorem State.fld_withTime (x : BitVec 64) (x' : Field) : (s.withTime x).fld x' = s.fld x' := rfl
@[simp] theorem State.flag_withTime (x : BitVec 64) (x' : Field) : (s.withTime x).flag x' = s.flag x' := rfl
@[simp] theorem State.ready_withTime (x : BitVec 64) (x' : Nat) : (s.withTime x).ready x' = s.ready x' := rfl
@[simp] theorem State.byte_withTime (x : BitVec 64) (x' : Nat) : (s.withTime x).byte x' = s.byte x' := rfl
@[simp] theorem State.bytes_withTime (x : BitVec 64) (x' y : Nat) : (s.withTime x).bytes x' y = s.bytes x' y := rfl
@[simp] theorem State.num_withTime (x : BitVec 64) (x' y : Nat) : (s.withTime x).num x' y = s.num x' y := rfl
@[simp] theorem State.core_withTime (x : BitVec 64) (x' : Nat) : (s.withTime x).core x' = s.core x' := rfl
@[simp] theorem State.ctx_withTime (x : BitVec 64) (x' : Site) : (s.withTime x).ctx x' = s.ctx x' := rfl
@[simp] theorem State.sem_withTime (x : BitVec 64) (x' y : Nat) : (s.withTime x).sem x' y = s.sem x' y := rfl
@[simp] theorem State.qp_withTime (x : BitVec 64) (x' : Nat) : (s.withTime x).qp x' = s.qp x' := rfl
@[simp] theorem State.vioLog_withTime (x : BitVec 64) (x' : Nat) : (s.withTime x).vioLog x' = s.vioLog x' := rfl

/-! ### withFree -/

@[simp] theorem State.withFree_free (x : Nat) : (s.withFree x).free = x := rfl
@[simp] theorem State.withFree_pending (x : Nat) : (s.withFree x).pending = s.pending := rfl
@[simp] theorem State.withFree_time (x : Nat) : (s.withFree x).time = s.time := rfl
@[simp] theorem State.withFree_regs (x : Nat) : (s.withFree x).regs = s.regs := rfl
@[simp] theorem State.withFree_mem (x : Nat) : (s.withFree x).mem = s.mem := rfl
@[simp] theorem State.withFree_eccMask (x : Nat) : (s.withFree x).eccMask = s.eccMask := rfl
@[simp] theorem State.withFree_eccDead (x : Nat) : (s.withFree x).eccDead = s.eccDead := rfl
@[simp] theorem State.withFree_msBad (x : Nat) : (s.withFree x).msBad = s.msBad := rfl
@[simp] theorem State.withFree_vio (x : Nat) : (s.withFree x).vio = s.vio := rfl
@[simp] theorem State.withFree_out (x : Nat) : (s.withFree x).out = s.out := rfl
@[simp] theorem State.withFree_host (x : Nat) : (s.withFree x).host = s.host := rfl
@[simp] theorem State.withFree_boot (x : Nat) : (s.withFree x).boot = s.boot := rfl
@[simp] theorem State.withFree_gov (x : Nat) : (s.withFree x).gov = s.gov := rfl
@[simp] theorem State.withFree_sec (x : Nat) : (s.withFree x).sec = s.sec := rfl
@[simp] theorem State.withFree_test (x : Nat) : (s.withFree x).test = s.test := rfl
@[simp] theorem State.withFree_cores (x : Nat) : (s.withFree x).cores = s.cores := rfl
@[simp] theorem State.withFree_sched (x : Nat) : (s.withFree x).sched = s.sched := rfl
@[simp] theorem State.withFree_units (x : Nat) : (s.withFree x).units = s.units := rfl
@[simp] theorem State.reg_withFree (x : Nat) (x' : Nat) : (s.withFree x).reg x' = s.reg x' := rfl
@[simp] theorem State.fld_withFree (x : Nat) (x' : Field) : (s.withFree x).fld x' = s.fld x' := rfl
@[simp] theorem State.flag_withFree (x : Nat) (x' : Field) : (s.withFree x).flag x' = s.flag x' := rfl
@[simp] theorem State.ready_withFree (x : Nat) (x' : Nat) : (s.withFree x).ready x' = s.ready x' := rfl
@[simp] theorem State.byte_withFree (x : Nat) (x' : Nat) : (s.withFree x).byte x' = s.byte x' := rfl
@[simp] theorem State.bytes_withFree (x : Nat) (x' y : Nat) : (s.withFree x).bytes x' y = s.bytes x' y := rfl
@[simp] theorem State.num_withFree (x : Nat) (x' y : Nat) : (s.withFree x).num x' y = s.num x' y := rfl
@[simp] theorem State.core_withFree (x : Nat) (x' : Nat) : (s.withFree x).core x' = s.core x' := rfl
@[simp] theorem State.ctx_withFree (x : Nat) (x' : Site) : (s.withFree x).ctx x' = s.ctx x' := rfl
@[simp] theorem State.sem_withFree (x : Nat) (x' y : Nat) : (s.withFree x).sem x' y = s.sem x' y := rfl
@[simp] theorem State.qp_withFree (x : Nat) (x' : Nat) : (s.withFree x).qp x' = s.qp x' := rfl
@[simp] theorem State.vioLog_withFree (x : Nat) (x' : Nat) : (s.withFree x).vioLog x' = s.vioLog x' := rfl

/-! ### withRegs -/

@[simp] theorem State.withRegs_regs (x : List (Nat × Word)) : (s.withRegs x).regs = x := rfl
@[simp] theorem State.withRegs_pending (x : List (Nat × Word)) : (s.withRegs x).pending = s.pending := rfl
@[simp] theorem State.withRegs_time (x : List (Nat × Word)) : (s.withRegs x).time = s.time := rfl
@[simp] theorem State.withRegs_free (x : List (Nat × Word)) : (s.withRegs x).free = s.free := rfl
@[simp] theorem State.withRegs_mem (x : List (Nat × Word)) : (s.withRegs x).mem = s.mem := rfl
@[simp] theorem State.withRegs_eccMask (x : List (Nat × Word)) : (s.withRegs x).eccMask = s.eccMask := rfl
@[simp] theorem State.withRegs_eccDead (x : List (Nat × Word)) : (s.withRegs x).eccDead = s.eccDead := rfl
@[simp] theorem State.withRegs_msBad (x : List (Nat × Word)) : (s.withRegs x).msBad = s.msBad := rfl
@[simp] theorem State.withRegs_vio (x : List (Nat × Word)) : (s.withRegs x).vio = s.vio := rfl
@[simp] theorem State.withRegs_out (x : List (Nat × Word)) : (s.withRegs x).out = s.out := rfl
@[simp] theorem State.withRegs_host (x : List (Nat × Word)) : (s.withRegs x).host = s.host := rfl
@[simp] theorem State.withRegs_boot (x : List (Nat × Word)) : (s.withRegs x).boot = s.boot := rfl
@[simp] theorem State.withRegs_gov (x : List (Nat × Word)) : (s.withRegs x).gov = s.gov := rfl
@[simp] theorem State.withRegs_sec (x : List (Nat × Word)) : (s.withRegs x).sec = s.sec := rfl
@[simp] theorem State.withRegs_test (x : List (Nat × Word)) : (s.withRegs x).test = s.test := rfl
@[simp] theorem State.withRegs_cores (x : List (Nat × Word)) : (s.withRegs x).cores = s.cores := rfl
@[simp] theorem State.withRegs_sched (x : List (Nat × Word)) : (s.withRegs x).sched = s.sched := rfl
@[simp] theorem State.withRegs_units (x : List (Nat × Word)) : (s.withRegs x).units = s.units := rfl
@[simp] theorem State.byte_withRegs (x : List (Nat × Word)) (x' : Nat) : (s.withRegs x).byte x' = s.byte x' := rfl
@[simp] theorem State.bytes_withRegs (x : List (Nat × Word)) (x' y : Nat) : (s.withRegs x).bytes x' y = s.bytes x' y := rfl
@[simp] theorem State.num_withRegs (x : List (Nat × Word)) (x' y : Nat) : (s.withRegs x).num x' y = s.num x' y := rfl
@[simp] theorem State.core_withRegs (x : List (Nat × Word)) (x' : Nat) : (s.withRegs x).core x' = s.core x' := rfl
@[simp] theorem State.ctx_withRegs (x : List (Nat × Word)) (x' : Site) : (s.withRegs x).ctx x' = s.ctx x' := rfl
@[simp] theorem State.sem_withRegs (x : List (Nat × Word)) (x' y : Nat) : (s.withRegs x).sem x' y = s.sem x' y := rfl
@[simp] theorem State.qp_withRegs (x : List (Nat × Word)) (x' : Nat) : (s.withRegs x).qp x' = s.qp x' := rfl
@[simp] theorem State.vioLog_withRegs (x : List (Nat × Word)) (x' : Nat) : (s.withRegs x).vioLog x' = s.vioLog x' := rfl

/-! ### withMem -/

@[simp] theorem State.withMem_mem (x : List (Nat × Byte)) : (s.withMem x).mem = x := rfl
@[simp] theorem State.withMem_pending (x : List (Nat × Byte)) : (s.withMem x).pending = s.pending := rfl
@[simp] theorem State.withMem_time (x : List (Nat × Byte)) : (s.withMem x).time = s.time := rfl
@[simp] theorem State.withMem_free (x : List (Nat × Byte)) : (s.withMem x).free = s.free := rfl
@[simp] theorem State.withMem_regs (x : List (Nat × Byte)) : (s.withMem x).regs = s.regs := rfl
@[simp] theorem State.withMem_eccMask (x : List (Nat × Byte)) : (s.withMem x).eccMask = s.eccMask := rfl
@[simp] theorem State.withMem_eccDead (x : List (Nat × Byte)) : (s.withMem x).eccDead = s.eccDead := rfl
@[simp] theorem State.withMem_msBad (x : List (Nat × Byte)) : (s.withMem x).msBad = s.msBad := rfl
@[simp] theorem State.withMem_vio (x : List (Nat × Byte)) : (s.withMem x).vio = s.vio := rfl
@[simp] theorem State.withMem_out (x : List (Nat × Byte)) : (s.withMem x).out = s.out := rfl
@[simp] theorem State.withMem_host (x : List (Nat × Byte)) : (s.withMem x).host = s.host := rfl
@[simp] theorem State.withMem_boot (x : List (Nat × Byte)) : (s.withMem x).boot = s.boot := rfl
@[simp] theorem State.withMem_gov (x : List (Nat × Byte)) : (s.withMem x).gov = s.gov := rfl
@[simp] theorem State.withMem_sec (x : List (Nat × Byte)) : (s.withMem x).sec = s.sec := rfl
@[simp] theorem State.withMem_test (x : List (Nat × Byte)) : (s.withMem x).test = s.test := rfl
@[simp] theorem State.withMem_cores (x : List (Nat × Byte)) : (s.withMem x).cores = s.cores := rfl
@[simp] theorem State.withMem_sched (x : List (Nat × Byte)) : (s.withMem x).sched = s.sched := rfl
@[simp] theorem State.withMem_units (x : List (Nat × Byte)) : (s.withMem x).units = s.units := rfl
@[simp] theorem State.reg_withMem (x : List (Nat × Byte)) (x' : Nat) : (s.withMem x).reg x' = s.reg x' := rfl
@[simp] theorem State.fld_withMem (x : List (Nat × Byte)) (x' : Field) : (s.withMem x).fld x' = s.fld x' := rfl
@[simp] theorem State.flag_withMem (x : List (Nat × Byte)) (x' : Field) : (s.withMem x).flag x' = s.flag x' := rfl
@[simp] theorem State.ready_withMem (x : List (Nat × Byte)) (x' : Nat) : (s.withMem x).ready x' = s.ready x' := rfl
@[simp] theorem State.core_withMem (x : List (Nat × Byte)) (x' : Nat) : (s.withMem x).core x' = s.core x' := rfl
@[simp] theorem State.ctx_withMem (x : List (Nat × Byte)) (x' : Site) : (s.withMem x).ctx x' = s.ctx x' := rfl
@[simp] theorem State.sem_withMem (x : List (Nat × Byte)) (x' y : Nat) : (s.withMem x).sem x' y = s.sem x' y := rfl
@[simp] theorem State.qp_withMem (x : List (Nat × Byte)) (x' : Nat) : (s.withMem x).qp x' = s.qp x' := rfl
@[simp] theorem State.vioLog_withMem (x : List (Nat × Byte)) (x' : Nat) : (s.withMem x).vioLog x' = s.vioLog x' := rfl

/-! ### withEccMask -/

@[simp] theorem State.withEccMask_eccMask (x : List (Nat × Nat)) : (s.withEccMask x).eccMask = x := rfl
@[simp] theorem State.withEccMask_pending (x : List (Nat × Nat)) : (s.withEccMask x).pending = s.pending := rfl
@[simp] theorem State.withEccMask_time (x : List (Nat × Nat)) : (s.withEccMask x).time = s.time := rfl
@[simp] theorem State.withEccMask_free (x : List (Nat × Nat)) : (s.withEccMask x).free = s.free := rfl
@[simp] theorem State.withEccMask_regs (x : List (Nat × Nat)) : (s.withEccMask x).regs = s.regs := rfl
@[simp] theorem State.withEccMask_mem (x : List (Nat × Nat)) : (s.withEccMask x).mem = s.mem := rfl
@[simp] theorem State.withEccMask_eccDead (x : List (Nat × Nat)) : (s.withEccMask x).eccDead = s.eccDead := rfl
@[simp] theorem State.withEccMask_msBad (x : List (Nat × Nat)) : (s.withEccMask x).msBad = s.msBad := rfl
@[simp] theorem State.withEccMask_vio (x : List (Nat × Nat)) : (s.withEccMask x).vio = s.vio := rfl
@[simp] theorem State.withEccMask_out (x : List (Nat × Nat)) : (s.withEccMask x).out = s.out := rfl
@[simp] theorem State.withEccMask_host (x : List (Nat × Nat)) : (s.withEccMask x).host = s.host := rfl
@[simp] theorem State.withEccMask_boot (x : List (Nat × Nat)) : (s.withEccMask x).boot = s.boot := rfl
@[simp] theorem State.withEccMask_gov (x : List (Nat × Nat)) : (s.withEccMask x).gov = s.gov := rfl
@[simp] theorem State.withEccMask_sec (x : List (Nat × Nat)) : (s.withEccMask x).sec = s.sec := rfl
@[simp] theorem State.withEccMask_test (x : List (Nat × Nat)) : (s.withEccMask x).test = s.test := rfl
@[simp] theorem State.withEccMask_cores (x : List (Nat × Nat)) : (s.withEccMask x).cores = s.cores := rfl
@[simp] theorem State.withEccMask_sched (x : List (Nat × Nat)) : (s.withEccMask x).sched = s.sched := rfl
@[simp] theorem State.withEccMask_units (x : List (Nat × Nat)) : (s.withEccMask x).units = s.units := rfl
@[simp] theorem State.reg_withEccMask (x : List (Nat × Nat)) (x' : Nat) : (s.withEccMask x).reg x' = s.reg x' := rfl
@[simp] theorem State.fld_withEccMask (x : List (Nat × Nat)) (x' : Field) : (s.withEccMask x).fld x' = s.fld x' := rfl
@[simp] theorem State.flag_withEccMask (x : List (Nat × Nat)) (x' : Field) : (s.withEccMask x).flag x' = s.flag x' := rfl
@[simp] theorem State.ready_withEccMask (x : List (Nat × Nat)) (x' : Nat) : (s.withEccMask x).ready x' = s.ready x' := rfl
@[simp] theorem State.byte_withEccMask (x : List (Nat × Nat)) (x' : Nat) : (s.withEccMask x).byte x' = s.byte x' := rfl
@[simp] theorem State.bytes_withEccMask (x : List (Nat × Nat)) (x' y : Nat) : (s.withEccMask x).bytes x' y = s.bytes x' y := rfl
@[simp] theorem State.num_withEccMask (x : List (Nat × Nat)) (x' y : Nat) : (s.withEccMask x).num x' y = s.num x' y := rfl
@[simp] theorem State.core_withEccMask (x : List (Nat × Nat)) (x' : Nat) : (s.withEccMask x).core x' = s.core x' := rfl
@[simp] theorem State.ctx_withEccMask (x : List (Nat × Nat)) (x' : Site) : (s.withEccMask x).ctx x' = s.ctx x' := rfl
@[simp] theorem State.sem_withEccMask (x : List (Nat × Nat)) (x' y : Nat) : (s.withEccMask x).sem x' y = s.sem x' y := rfl
@[simp] theorem State.qp_withEccMask (x : List (Nat × Nat)) (x' : Nat) : (s.withEccMask x).qp x' = s.qp x' := rfl
@[simp] theorem State.vioLog_withEccMask (x : List (Nat × Nat)) (x' : Nat) : (s.withEccMask x).vioLog x' = s.vioLog x' := rfl

/-! ### withEccDead -/

@[simp] theorem State.withEccDead_eccDead (x : List Nat) : (s.withEccDead x).eccDead = x := rfl
@[simp] theorem State.withEccDead_pending (x : List Nat) : (s.withEccDead x).pending = s.pending := rfl
@[simp] theorem State.withEccDead_time (x : List Nat) : (s.withEccDead x).time = s.time := rfl
@[simp] theorem State.withEccDead_free (x : List Nat) : (s.withEccDead x).free = s.free := rfl
@[simp] theorem State.withEccDead_regs (x : List Nat) : (s.withEccDead x).regs = s.regs := rfl
@[simp] theorem State.withEccDead_mem (x : List Nat) : (s.withEccDead x).mem = s.mem := rfl
@[simp] theorem State.withEccDead_eccMask (x : List Nat) : (s.withEccDead x).eccMask = s.eccMask := rfl
@[simp] theorem State.withEccDead_msBad (x : List Nat) : (s.withEccDead x).msBad = s.msBad := rfl
@[simp] theorem State.withEccDead_vio (x : List Nat) : (s.withEccDead x).vio = s.vio := rfl
@[simp] theorem State.withEccDead_out (x : List Nat) : (s.withEccDead x).out = s.out := rfl
@[simp] theorem State.withEccDead_host (x : List Nat) : (s.withEccDead x).host = s.host := rfl
@[simp] theorem State.withEccDead_boot (x : List Nat) : (s.withEccDead x).boot = s.boot := rfl
@[simp] theorem State.withEccDead_gov (x : List Nat) : (s.withEccDead x).gov = s.gov := rfl
@[simp] theorem State.withEccDead_sec (x : List Nat) : (s.withEccDead x).sec = s.sec := rfl
@[simp] theorem State.withEccDead_test (x : List Nat) : (s.withEccDead x).test = s.test := rfl
@[simp] theorem State.withEccDead_cores (x : List Nat) : (s.withEccDead x).cores = s.cores := rfl
@[simp] theorem State.withEccDead_sched (x : List Nat) : (s.withEccDead x).sched = s.sched := rfl
@[simp] theorem State.withEccDead_units (x : List Nat) : (s.withEccDead x).units = s.units := rfl
@[simp] theorem State.reg_withEccDead (x : List Nat) (x' : Nat) : (s.withEccDead x).reg x' = s.reg x' := rfl
@[simp] theorem State.fld_withEccDead (x : List Nat) (x' : Field) : (s.withEccDead x).fld x' = s.fld x' := rfl
@[simp] theorem State.flag_withEccDead (x : List Nat) (x' : Field) : (s.withEccDead x).flag x' = s.flag x' := rfl
@[simp] theorem State.ready_withEccDead (x : List Nat) (x' : Nat) : (s.withEccDead x).ready x' = s.ready x' := rfl
@[simp] theorem State.byte_withEccDead (x : List Nat) (x' : Nat) : (s.withEccDead x).byte x' = s.byte x' := rfl
@[simp] theorem State.bytes_withEccDead (x : List Nat) (x' y : Nat) : (s.withEccDead x).bytes x' y = s.bytes x' y := rfl
@[simp] theorem State.num_withEccDead (x : List Nat) (x' y : Nat) : (s.withEccDead x).num x' y = s.num x' y := rfl
@[simp] theorem State.core_withEccDead (x : List Nat) (x' : Nat) : (s.withEccDead x).core x' = s.core x' := rfl
@[simp] theorem State.ctx_withEccDead (x : List Nat) (x' : Site) : (s.withEccDead x).ctx x' = s.ctx x' := rfl
@[simp] theorem State.sem_withEccDead (x : List Nat) (x' y : Nat) : (s.withEccDead x).sem x' y = s.sem x' y := rfl
@[simp] theorem State.qp_withEccDead (x : List Nat) (x' : Nat) : (s.withEccDead x).qp x' = s.qp x' := rfl
@[simp] theorem State.vioLog_withEccDead (x : List Nat) (x' : Nat) : (s.withEccDead x).vioLog x' = s.vioLog x' := rfl

/-! ### withMsBad -/

@[simp] theorem State.withMsBad_msBad (x : List Nat) : (s.withMsBad x).msBad = x := rfl
@[simp] theorem State.withMsBad_pending (x : List Nat) : (s.withMsBad x).pending = s.pending := rfl
@[simp] theorem State.withMsBad_time (x : List Nat) : (s.withMsBad x).time = s.time := rfl
@[simp] theorem State.withMsBad_free (x : List Nat) : (s.withMsBad x).free = s.free := rfl
@[simp] theorem State.withMsBad_regs (x : List Nat) : (s.withMsBad x).regs = s.regs := rfl
@[simp] theorem State.withMsBad_mem (x : List Nat) : (s.withMsBad x).mem = s.mem := rfl
@[simp] theorem State.withMsBad_eccMask (x : List Nat) : (s.withMsBad x).eccMask = s.eccMask := rfl
@[simp] theorem State.withMsBad_eccDead (x : List Nat) : (s.withMsBad x).eccDead = s.eccDead := rfl
@[simp] theorem State.withMsBad_vio (x : List Nat) : (s.withMsBad x).vio = s.vio := rfl
@[simp] theorem State.withMsBad_out (x : List Nat) : (s.withMsBad x).out = s.out := rfl
@[simp] theorem State.withMsBad_host (x : List Nat) : (s.withMsBad x).host = s.host := rfl
@[simp] theorem State.withMsBad_boot (x : List Nat) : (s.withMsBad x).boot = s.boot := rfl
@[simp] theorem State.withMsBad_gov (x : List Nat) : (s.withMsBad x).gov = s.gov := rfl
@[simp] theorem State.withMsBad_sec (x : List Nat) : (s.withMsBad x).sec = s.sec := rfl
@[simp] theorem State.withMsBad_test (x : List Nat) : (s.withMsBad x).test = s.test := rfl
@[simp] theorem State.withMsBad_cores (x : List Nat) : (s.withMsBad x).cores = s.cores := rfl
@[simp] theorem State.withMsBad_sched (x : List Nat) : (s.withMsBad x).sched = s.sched := rfl
@[simp] theorem State.withMsBad_units (x : List Nat) : (s.withMsBad x).units = s.units := rfl
@[simp] theorem State.reg_withMsBad (x : List Nat) (x' : Nat) : (s.withMsBad x).reg x' = s.reg x' := rfl
@[simp] theorem State.fld_withMsBad (x : List Nat) (x' : Field) : (s.withMsBad x).fld x' = s.fld x' := rfl
@[simp] theorem State.flag_withMsBad (x : List Nat) (x' : Field) : (s.withMsBad x).flag x' = s.flag x' := rfl
@[simp] theorem State.ready_withMsBad (x : List Nat) (x' : Nat) : (s.withMsBad x).ready x' = s.ready x' := rfl
@[simp] theorem State.byte_withMsBad (x : List Nat) (x' : Nat) : (s.withMsBad x).byte x' = s.byte x' := rfl
@[simp] theorem State.bytes_withMsBad (x : List Nat) (x' y : Nat) : (s.withMsBad x).bytes x' y = s.bytes x' y := rfl
@[simp] theorem State.num_withMsBad (x : List Nat) (x' y : Nat) : (s.withMsBad x).num x' y = s.num x' y := rfl
@[simp] theorem State.core_withMsBad (x : List Nat) (x' : Nat) : (s.withMsBad x).core x' = s.core x' := rfl
@[simp] theorem State.ctx_withMsBad (x : List Nat) (x' : Site) : (s.withMsBad x).ctx x' = s.ctx x' := rfl
@[simp] theorem State.sem_withMsBad (x : List Nat) (x' y : Nat) : (s.withMsBad x).sem x' y = s.sem x' y := rfl
@[simp] theorem State.qp_withMsBad (x : List Nat) (x' : Nat) : (s.withMsBad x).qp x' = s.qp x' := rfl
@[simp] theorem State.vioLog_withMsBad (x : List Nat) (x' : Nat) : (s.withMsBad x).vioLog x' = s.vioLog x' := rfl

/-! ### withVio -/

@[simp] theorem State.withVio_vio (x : List (Nat × VioLog)) : (s.withVio x).vio = x := rfl
@[simp] theorem State.withVio_pending (x : List (Nat × VioLog)) : (s.withVio x).pending = s.pending := rfl
@[simp] theorem State.withVio_time (x : List (Nat × VioLog)) : (s.withVio x).time = s.time := rfl
@[simp] theorem State.withVio_free (x : List (Nat × VioLog)) : (s.withVio x).free = s.free := rfl
@[simp] theorem State.withVio_regs (x : List (Nat × VioLog)) : (s.withVio x).regs = s.regs := rfl
@[simp] theorem State.withVio_mem (x : List (Nat × VioLog)) : (s.withVio x).mem = s.mem := rfl
@[simp] theorem State.withVio_eccMask (x : List (Nat × VioLog)) : (s.withVio x).eccMask = s.eccMask := rfl
@[simp] theorem State.withVio_eccDead (x : List (Nat × VioLog)) : (s.withVio x).eccDead = s.eccDead := rfl
@[simp] theorem State.withVio_msBad (x : List (Nat × VioLog)) : (s.withVio x).msBad = s.msBad := rfl
@[simp] theorem State.withVio_out (x : List (Nat × VioLog)) : (s.withVio x).out = s.out := rfl
@[simp] theorem State.withVio_host (x : List (Nat × VioLog)) : (s.withVio x).host = s.host := rfl
@[simp] theorem State.withVio_boot (x : List (Nat × VioLog)) : (s.withVio x).boot = s.boot := rfl
@[simp] theorem State.withVio_gov (x : List (Nat × VioLog)) : (s.withVio x).gov = s.gov := rfl
@[simp] theorem State.withVio_sec (x : List (Nat × VioLog)) : (s.withVio x).sec = s.sec := rfl
@[simp] theorem State.withVio_test (x : List (Nat × VioLog)) : (s.withVio x).test = s.test := rfl
@[simp] theorem State.withVio_cores (x : List (Nat × VioLog)) : (s.withVio x).cores = s.cores := rfl
@[simp] theorem State.withVio_sched (x : List (Nat × VioLog)) : (s.withVio x).sched = s.sched := rfl
@[simp] theorem State.withVio_units (x : List (Nat × VioLog)) : (s.withVio x).units = s.units := rfl
@[simp] theorem State.reg_withVio (x : List (Nat × VioLog)) (x' : Nat) : (s.withVio x).reg x' = s.reg x' := rfl
@[simp] theorem State.fld_withVio (x : List (Nat × VioLog)) (x' : Field) : (s.withVio x).fld x' = s.fld x' := rfl
@[simp] theorem State.flag_withVio (x : List (Nat × VioLog)) (x' : Field) : (s.withVio x).flag x' = s.flag x' := rfl
@[simp] theorem State.ready_withVio (x : List (Nat × VioLog)) (x' : Nat) : (s.withVio x).ready x' = s.ready x' := rfl
@[simp] theorem State.byte_withVio (x : List (Nat × VioLog)) (x' : Nat) : (s.withVio x).byte x' = s.byte x' := rfl
@[simp] theorem State.bytes_withVio (x : List (Nat × VioLog)) (x' y : Nat) : (s.withVio x).bytes x' y = s.bytes x' y := rfl
@[simp] theorem State.num_withVio (x : List (Nat × VioLog)) (x' y : Nat) : (s.withVio x).num x' y = s.num x' y := rfl
@[simp] theorem State.core_withVio (x : List (Nat × VioLog)) (x' : Nat) : (s.withVio x).core x' = s.core x' := rfl
@[simp] theorem State.ctx_withVio (x : List (Nat × VioLog)) (x' : Site) : (s.withVio x).ctx x' = s.ctx x' := rfl
@[simp] theorem State.sem_withVio (x : List (Nat × VioLog)) (x' y : Nat) : (s.withVio x).sem x' y = s.sem x' y := rfl
@[simp] theorem State.qp_withVio (x : List (Nat × VioLog)) (x' : Nat) : (s.withVio x).qp x' = s.qp x' := rfl

/-! ### withOut -/

@[simp] theorem State.withOut_out (x : List Out) : (s.withOut x).out = x := rfl
@[simp] theorem State.withOut_pending (x : List Out) : (s.withOut x).pending = s.pending := rfl
@[simp] theorem State.withOut_time (x : List Out) : (s.withOut x).time = s.time := rfl
@[simp] theorem State.withOut_free (x : List Out) : (s.withOut x).free = s.free := rfl
@[simp] theorem State.withOut_regs (x : List Out) : (s.withOut x).regs = s.regs := rfl
@[simp] theorem State.withOut_mem (x : List Out) : (s.withOut x).mem = s.mem := rfl
@[simp] theorem State.withOut_eccMask (x : List Out) : (s.withOut x).eccMask = s.eccMask := rfl
@[simp] theorem State.withOut_eccDead (x : List Out) : (s.withOut x).eccDead = s.eccDead := rfl
@[simp] theorem State.withOut_msBad (x : List Out) : (s.withOut x).msBad = s.msBad := rfl
@[simp] theorem State.withOut_vio (x : List Out) : (s.withOut x).vio = s.vio := rfl
@[simp] theorem State.withOut_host (x : List Out) : (s.withOut x).host = s.host := rfl
@[simp] theorem State.withOut_boot (x : List Out) : (s.withOut x).boot = s.boot := rfl
@[simp] theorem State.withOut_gov (x : List Out) : (s.withOut x).gov = s.gov := rfl
@[simp] theorem State.withOut_sec (x : List Out) : (s.withOut x).sec = s.sec := rfl
@[simp] theorem State.withOut_test (x : List Out) : (s.withOut x).test = s.test := rfl
@[simp] theorem State.withOut_cores (x : List Out) : (s.withOut x).cores = s.cores := rfl
@[simp] theorem State.withOut_sched (x : List Out) : (s.withOut x).sched = s.sched := rfl
@[simp] theorem State.withOut_units (x : List Out) : (s.withOut x).units = s.units := rfl
@[simp] theorem State.reg_withOut (x : List Out) (x' : Nat) : (s.withOut x).reg x' = s.reg x' := rfl
@[simp] theorem State.fld_withOut (x : List Out) (x' : Field) : (s.withOut x).fld x' = s.fld x' := rfl
@[simp] theorem State.flag_withOut (x : List Out) (x' : Field) : (s.withOut x).flag x' = s.flag x' := rfl
@[simp] theorem State.ready_withOut (x : List Out) (x' : Nat) : (s.withOut x).ready x' = s.ready x' := rfl
@[simp] theorem State.byte_withOut (x : List Out) (x' : Nat) : (s.withOut x).byte x' = s.byte x' := rfl
@[simp] theorem State.bytes_withOut (x : List Out) (x' y : Nat) : (s.withOut x).bytes x' y = s.bytes x' y := rfl
@[simp] theorem State.num_withOut (x : List Out) (x' y : Nat) : (s.withOut x).num x' y = s.num x' y := rfl
@[simp] theorem State.core_withOut (x : List Out) (x' : Nat) : (s.withOut x).core x' = s.core x' := rfl
@[simp] theorem State.ctx_withOut (x : List Out) (x' : Site) : (s.withOut x).ctx x' = s.ctx x' := rfl
@[simp] theorem State.sem_withOut (x : List Out) (x' y : Nat) : (s.withOut x).sem x' y = s.sem x' y := rfl
@[simp] theorem State.qp_withOut (x : List Out) (x' : Nat) : (s.withOut x).qp x' = s.qp x' := rfl
@[simp] theorem State.vioLog_withOut (x : List Out) (x' : Nat) : (s.withOut x).vioLog x' = s.vioLog x' := rfl

/-! ### withHost -/

@[simp] theorem State.withHost_host (x : HostState) : (s.withHost x).host = x := rfl
@[simp] theorem State.withHost_pending (x : HostState) : (s.withHost x).pending = s.pending := rfl
@[simp] theorem State.withHost_time (x : HostState) : (s.withHost x).time = s.time := rfl
@[simp] theorem State.withHost_free (x : HostState) : (s.withHost x).free = s.free := rfl
@[simp] theorem State.withHost_regs (x : HostState) : (s.withHost x).regs = s.regs := rfl
@[simp] theorem State.withHost_mem (x : HostState) : (s.withHost x).mem = s.mem := rfl
@[simp] theorem State.withHost_eccMask (x : HostState) : (s.withHost x).eccMask = s.eccMask := rfl
@[simp] theorem State.withHost_eccDead (x : HostState) : (s.withHost x).eccDead = s.eccDead := rfl
@[simp] theorem State.withHost_msBad (x : HostState) : (s.withHost x).msBad = s.msBad := rfl
@[simp] theorem State.withHost_vio (x : HostState) : (s.withHost x).vio = s.vio := rfl
@[simp] theorem State.withHost_out (x : HostState) : (s.withHost x).out = s.out := rfl
@[simp] theorem State.withHost_boot (x : HostState) : (s.withHost x).boot = s.boot := rfl
@[simp] theorem State.withHost_gov (x : HostState) : (s.withHost x).gov = s.gov := rfl
@[simp] theorem State.withHost_sec (x : HostState) : (s.withHost x).sec = s.sec := rfl
@[simp] theorem State.withHost_test (x : HostState) : (s.withHost x).test = s.test := rfl
@[simp] theorem State.withHost_cores (x : HostState) : (s.withHost x).cores = s.cores := rfl
@[simp] theorem State.withHost_sched (x : HostState) : (s.withHost x).sched = s.sched := rfl
@[simp] theorem State.withHost_units (x : HostState) : (s.withHost x).units = s.units := rfl
@[simp] theorem State.reg_withHost (x : HostState) (x' : Nat) : (s.withHost x).reg x' = s.reg x' := rfl
@[simp] theorem State.fld_withHost (x : HostState) (x' : Field) : (s.withHost x).fld x' = s.fld x' := rfl
@[simp] theorem State.flag_withHost (x : HostState) (x' : Field) : (s.withHost x).flag x' = s.flag x' := rfl
@[simp] theorem State.ready_withHost (x : HostState) (x' : Nat) : (s.withHost x).ready x' = s.ready x' := rfl
@[simp] theorem State.byte_withHost (x : HostState) (x' : Nat) : (s.withHost x).byte x' = s.byte x' := rfl
@[simp] theorem State.bytes_withHost (x : HostState) (x' y : Nat) : (s.withHost x).bytes x' y = s.bytes x' y := rfl
@[simp] theorem State.num_withHost (x : HostState) (x' y : Nat) : (s.withHost x).num x' y = s.num x' y := rfl
@[simp] theorem State.core_withHost (x : HostState) (x' : Nat) : (s.withHost x).core x' = s.core x' := rfl
@[simp] theorem State.ctx_withHost (x : HostState) (x' : Site) : (s.withHost x).ctx x' = s.ctx x' := rfl
@[simp] theorem State.sem_withHost (x : HostState) (x' y : Nat) : (s.withHost x).sem x' y = s.sem x' y := rfl
@[simp] theorem State.vioLog_withHost (x : HostState) (x' : Nat) : (s.withHost x).vioLog x' = s.vioLog x' := rfl

/-! ### withBoot -/

@[simp] theorem State.withBoot_boot (x : Boot) : (s.withBoot x).boot = x := rfl
@[simp] theorem State.withBoot_pending (x : Boot) : (s.withBoot x).pending = s.pending := rfl
@[simp] theorem State.withBoot_time (x : Boot) : (s.withBoot x).time = s.time := rfl
@[simp] theorem State.withBoot_free (x : Boot) : (s.withBoot x).free = s.free := rfl
@[simp] theorem State.withBoot_regs (x : Boot) : (s.withBoot x).regs = s.regs := rfl
@[simp] theorem State.withBoot_mem (x : Boot) : (s.withBoot x).mem = s.mem := rfl
@[simp] theorem State.withBoot_eccMask (x : Boot) : (s.withBoot x).eccMask = s.eccMask := rfl
@[simp] theorem State.withBoot_eccDead (x : Boot) : (s.withBoot x).eccDead = s.eccDead := rfl
@[simp] theorem State.withBoot_msBad (x : Boot) : (s.withBoot x).msBad = s.msBad := rfl
@[simp] theorem State.withBoot_vio (x : Boot) : (s.withBoot x).vio = s.vio := rfl
@[simp] theorem State.withBoot_out (x : Boot) : (s.withBoot x).out = s.out := rfl
@[simp] theorem State.withBoot_host (x : Boot) : (s.withBoot x).host = s.host := rfl
@[simp] theorem State.withBoot_gov (x : Boot) : (s.withBoot x).gov = s.gov := rfl
@[simp] theorem State.withBoot_sec (x : Boot) : (s.withBoot x).sec = s.sec := rfl
@[simp] theorem State.withBoot_test (x : Boot) : (s.withBoot x).test = s.test := rfl
@[simp] theorem State.withBoot_cores (x : Boot) : (s.withBoot x).cores = s.cores := rfl
@[simp] theorem State.withBoot_sched (x : Boot) : (s.withBoot x).sched = s.sched := rfl
@[simp] theorem State.withBoot_units (x : Boot) : (s.withBoot x).units = s.units := rfl
@[simp] theorem State.reg_withBoot (x : Boot) (x' : Nat) : (s.withBoot x).reg x' = s.reg x' := rfl
@[simp] theorem State.fld_withBoot (x : Boot) (x' : Field) : (s.withBoot x).fld x' = s.fld x' := rfl
@[simp] theorem State.flag_withBoot (x : Boot) (x' : Field) : (s.withBoot x).flag x' = s.flag x' := rfl
@[simp] theorem State.ready_withBoot (x : Boot) (x' : Nat) : (s.withBoot x).ready x' = s.ready x' := rfl
@[simp] theorem State.byte_withBoot (x : Boot) (x' : Nat) : (s.withBoot x).byte x' = s.byte x' := rfl
@[simp] theorem State.bytes_withBoot (x : Boot) (x' y : Nat) : (s.withBoot x).bytes x' y = s.bytes x' y := rfl
@[simp] theorem State.num_withBoot (x : Boot) (x' y : Nat) : (s.withBoot x).num x' y = s.num x' y := rfl
@[simp] theorem State.core_withBoot (x : Boot) (x' : Nat) : (s.withBoot x).core x' = s.core x' := rfl
@[simp] theorem State.ctx_withBoot (x : Boot) (x' : Site) : (s.withBoot x).ctx x' = s.ctx x' := rfl
@[simp] theorem State.sem_withBoot (x : Boot) (x' y : Nat) : (s.withBoot x).sem x' y = s.sem x' y := rfl
@[simp] theorem State.qp_withBoot (x : Boot) (x' : Nat) : (s.withBoot x).qp x' = s.qp x' := rfl
@[simp] theorem State.vioLog_withBoot (x : Boot) (x' : Nat) : (s.withBoot x).vioLog x' = s.vioLog x' := rfl

/-! ### withGov -/

@[simp] theorem State.withGov_gov (x : Governor) : (s.withGov x).gov = x := rfl
@[simp] theorem State.withGov_pending (x : Governor) : (s.withGov x).pending = s.pending := rfl
@[simp] theorem State.withGov_time (x : Governor) : (s.withGov x).time = s.time := rfl
@[simp] theorem State.withGov_free (x : Governor) : (s.withGov x).free = s.free := rfl
@[simp] theorem State.withGov_regs (x : Governor) : (s.withGov x).regs = s.regs := rfl
@[simp] theorem State.withGov_mem (x : Governor) : (s.withGov x).mem = s.mem := rfl
@[simp] theorem State.withGov_eccMask (x : Governor) : (s.withGov x).eccMask = s.eccMask := rfl
@[simp] theorem State.withGov_eccDead (x : Governor) : (s.withGov x).eccDead = s.eccDead := rfl
@[simp] theorem State.withGov_msBad (x : Governor) : (s.withGov x).msBad = s.msBad := rfl
@[simp] theorem State.withGov_vio (x : Governor) : (s.withGov x).vio = s.vio := rfl
@[simp] theorem State.withGov_out (x : Governor) : (s.withGov x).out = s.out := rfl
@[simp] theorem State.withGov_host (x : Governor) : (s.withGov x).host = s.host := rfl
@[simp] theorem State.withGov_boot (x : Governor) : (s.withGov x).boot = s.boot := rfl
@[simp] theorem State.withGov_sec (x : Governor) : (s.withGov x).sec = s.sec := rfl
@[simp] theorem State.withGov_test (x : Governor) : (s.withGov x).test = s.test := rfl
@[simp] theorem State.withGov_cores (x : Governor) : (s.withGov x).cores = s.cores := rfl
@[simp] theorem State.withGov_sched (x : Governor) : (s.withGov x).sched = s.sched := rfl
@[simp] theorem State.withGov_units (x : Governor) : (s.withGov x).units = s.units := rfl
@[simp] theorem State.reg_withGov (x : Governor) (x' : Nat) : (s.withGov x).reg x' = s.reg x' := rfl
@[simp] theorem State.fld_withGov (x : Governor) (x' : Field) : (s.withGov x).fld x' = s.fld x' := rfl
@[simp] theorem State.flag_withGov (x : Governor) (x' : Field) : (s.withGov x).flag x' = s.flag x' := rfl
@[simp] theorem State.ready_withGov (x : Governor) (x' : Nat) : (s.withGov x).ready x' = s.ready x' := rfl
@[simp] theorem State.byte_withGov (x : Governor) (x' : Nat) : (s.withGov x).byte x' = s.byte x' := rfl
@[simp] theorem State.bytes_withGov (x : Governor) (x' y : Nat) : (s.withGov x).bytes x' y = s.bytes x' y := rfl
@[simp] theorem State.num_withGov (x : Governor) (x' y : Nat) : (s.withGov x).num x' y = s.num x' y := rfl
@[simp] theorem State.core_withGov (x : Governor) (x' : Nat) : (s.withGov x).core x' = s.core x' := rfl
@[simp] theorem State.ctx_withGov (x : Governor) (x' : Site) : (s.withGov x).ctx x' = s.ctx x' := rfl
@[simp] theorem State.sem_withGov (x : Governor) (x' y : Nat) : (s.withGov x).sem x' y = s.sem x' y := rfl
@[simp] theorem State.qp_withGov (x : Governor) (x' : Nat) : (s.withGov x).qp x' = s.qp x' := rfl
@[simp] theorem State.vioLog_withGov (x : Governor) (x' : Nat) : (s.withGov x).vioLog x' = s.vioLog x' := rfl

/-! ### withSec -/

@[simp] theorem State.withSec_sec (x : Security) : (s.withSec x).sec = x := rfl
@[simp] theorem State.withSec_pending (x : Security) : (s.withSec x).pending = s.pending := rfl
@[simp] theorem State.withSec_time (x : Security) : (s.withSec x).time = s.time := rfl
@[simp] theorem State.withSec_free (x : Security) : (s.withSec x).free = s.free := rfl
@[simp] theorem State.withSec_regs (x : Security) : (s.withSec x).regs = s.regs := rfl
@[simp] theorem State.withSec_mem (x : Security) : (s.withSec x).mem = s.mem := rfl
@[simp] theorem State.withSec_eccMask (x : Security) : (s.withSec x).eccMask = s.eccMask := rfl
@[simp] theorem State.withSec_eccDead (x : Security) : (s.withSec x).eccDead = s.eccDead := rfl
@[simp] theorem State.withSec_msBad (x : Security) : (s.withSec x).msBad = s.msBad := rfl
@[simp] theorem State.withSec_vio (x : Security) : (s.withSec x).vio = s.vio := rfl
@[simp] theorem State.withSec_out (x : Security) : (s.withSec x).out = s.out := rfl
@[simp] theorem State.withSec_host (x : Security) : (s.withSec x).host = s.host := rfl
@[simp] theorem State.withSec_boot (x : Security) : (s.withSec x).boot = s.boot := rfl
@[simp] theorem State.withSec_gov (x : Security) : (s.withSec x).gov = s.gov := rfl
@[simp] theorem State.withSec_test (x : Security) : (s.withSec x).test = s.test := rfl
@[simp] theorem State.withSec_cores (x : Security) : (s.withSec x).cores = s.cores := rfl
@[simp] theorem State.withSec_sched (x : Security) : (s.withSec x).sched = s.sched := rfl
@[simp] theorem State.withSec_units (x : Security) : (s.withSec x).units = s.units := rfl
@[simp] theorem State.reg_withSec (x : Security) (x' : Nat) : (s.withSec x).reg x' = s.reg x' := rfl
@[simp] theorem State.fld_withSec (x : Security) (x' : Field) : (s.withSec x).fld x' = s.fld x' := rfl
@[simp] theorem State.flag_withSec (x : Security) (x' : Field) : (s.withSec x).flag x' = s.flag x' := rfl
@[simp] theorem State.ready_withSec (x : Security) (x' : Nat) : (s.withSec x).ready x' = s.ready x' := rfl
@[simp] theorem State.byte_withSec (x : Security) (x' : Nat) : (s.withSec x).byte x' = s.byte x' := rfl
@[simp] theorem State.bytes_withSec (x : Security) (x' y : Nat) : (s.withSec x).bytes x' y = s.bytes x' y := rfl
@[simp] theorem State.num_withSec (x : Security) (x' y : Nat) : (s.withSec x).num x' y = s.num x' y := rfl
@[simp] theorem State.core_withSec (x : Security) (x' : Nat) : (s.withSec x).core x' = s.core x' := rfl
@[simp] theorem State.ctx_withSec (x : Security) (x' : Site) : (s.withSec x).ctx x' = s.ctx x' := rfl
@[simp] theorem State.sem_withSec (x : Security) (x' y : Nat) : (s.withSec x).sem x' y = s.sem x' y := rfl
@[simp] theorem State.qp_withSec (x : Security) (x' : Nat) : (s.withSec x).qp x' = s.qp x' := rfl
@[simp] theorem State.vioLog_withSec (x : Security) (x' : Nat) : (s.withSec x).vioLog x' = s.vioLog x' := rfl

/-! ### withTest -/

@[simp] theorem State.withTest_test (x : TestState) : (s.withTest x).test = x := rfl
@[simp] theorem State.withTest_pending (x : TestState) : (s.withTest x).pending = s.pending := rfl
@[simp] theorem State.withTest_time (x : TestState) : (s.withTest x).time = s.time := rfl
@[simp] theorem State.withTest_free (x : TestState) : (s.withTest x).free = s.free := rfl
@[simp] theorem State.withTest_regs (x : TestState) : (s.withTest x).regs = s.regs := rfl
@[simp] theorem State.withTest_mem (x : TestState) : (s.withTest x).mem = s.mem := rfl
@[simp] theorem State.withTest_eccMask (x : TestState) : (s.withTest x).eccMask = s.eccMask := rfl
@[simp] theorem State.withTest_eccDead (x : TestState) : (s.withTest x).eccDead = s.eccDead := rfl
@[simp] theorem State.withTest_msBad (x : TestState) : (s.withTest x).msBad = s.msBad := rfl
@[simp] theorem State.withTest_vio (x : TestState) : (s.withTest x).vio = s.vio := rfl
@[simp] theorem State.withTest_out (x : TestState) : (s.withTest x).out = s.out := rfl
@[simp] theorem State.withTest_host (x : TestState) : (s.withTest x).host = s.host := rfl
@[simp] theorem State.withTest_boot (x : TestState) : (s.withTest x).boot = s.boot := rfl
@[simp] theorem State.withTest_gov (x : TestState) : (s.withTest x).gov = s.gov := rfl
@[simp] theorem State.withTest_sec (x : TestState) : (s.withTest x).sec = s.sec := rfl
@[simp] theorem State.withTest_cores (x : TestState) : (s.withTest x).cores = s.cores := rfl
@[simp] theorem State.withTest_sched (x : TestState) : (s.withTest x).sched = s.sched := rfl
@[simp] theorem State.withTest_units (x : TestState) : (s.withTest x).units = s.units := rfl
@[simp] theorem State.reg_withTest (x : TestState) (x' : Nat) : (s.withTest x).reg x' = s.reg x' := rfl
@[simp] theorem State.fld_withTest (x : TestState) (x' : Field) : (s.withTest x).fld x' = s.fld x' := rfl
@[simp] theorem State.flag_withTest (x : TestState) (x' : Field) : (s.withTest x).flag x' = s.flag x' := rfl
@[simp] theorem State.ready_withTest (x : TestState) (x' : Nat) : (s.withTest x).ready x' = s.ready x' := rfl
@[simp] theorem State.byte_withTest (x : TestState) (x' : Nat) : (s.withTest x).byte x' = s.byte x' := rfl
@[simp] theorem State.bytes_withTest (x : TestState) (x' y : Nat) : (s.withTest x).bytes x' y = s.bytes x' y := rfl
@[simp] theorem State.num_withTest (x : TestState) (x' y : Nat) : (s.withTest x).num x' y = s.num x' y := rfl
@[simp] theorem State.core_withTest (x : TestState) (x' : Nat) : (s.withTest x).core x' = s.core x' := rfl
@[simp] theorem State.ctx_withTest (x : TestState) (x' : Site) : (s.withTest x).ctx x' = s.ctx x' := rfl
@[simp] theorem State.sem_withTest (x : TestState) (x' y : Nat) : (s.withTest x).sem x' y = s.sem x' y := rfl
@[simp] theorem State.qp_withTest (x : TestState) (x' : Nat) : (s.withTest x).qp x' = s.qp x' := rfl
@[simp] theorem State.vioLog_withTest (x : TestState) (x' : Nat) : (s.withTest x).vioLog x' = s.vioLog x' := rfl

/-! ### withCores -/

@[simp] theorem State.withCores_cores (x : List (Nat × Core)) : (s.withCores x).cores = x := rfl
@[simp] theorem State.withCores_pending (x : List (Nat × Core)) : (s.withCores x).pending = s.pending := rfl
@[simp] theorem State.withCores_time (x : List (Nat × Core)) : (s.withCores x).time = s.time := rfl
@[simp] theorem State.withCores_free (x : List (Nat × Core)) : (s.withCores x).free = s.free := rfl
@[simp] theorem State.withCores_regs (x : List (Nat × Core)) : (s.withCores x).regs = s.regs := rfl
@[simp] theorem State.withCores_mem (x : List (Nat × Core)) : (s.withCores x).mem = s.mem := rfl
@[simp] theorem State.withCores_eccMask (x : List (Nat × Core)) : (s.withCores x).eccMask = s.eccMask := rfl
@[simp] theorem State.withCores_eccDead (x : List (Nat × Core)) : (s.withCores x).eccDead = s.eccDead := rfl
@[simp] theorem State.withCores_msBad (x : List (Nat × Core)) : (s.withCores x).msBad = s.msBad := rfl
@[simp] theorem State.withCores_vio (x : List (Nat × Core)) : (s.withCores x).vio = s.vio := rfl
@[simp] theorem State.withCores_out (x : List (Nat × Core)) : (s.withCores x).out = s.out := rfl
@[simp] theorem State.withCores_host (x : List (Nat × Core)) : (s.withCores x).host = s.host := rfl
@[simp] theorem State.withCores_boot (x : List (Nat × Core)) : (s.withCores x).boot = s.boot := rfl
@[simp] theorem State.withCores_gov (x : List (Nat × Core)) : (s.withCores x).gov = s.gov := rfl
@[simp] theorem State.withCores_sec (x : List (Nat × Core)) : (s.withCores x).sec = s.sec := rfl
@[simp] theorem State.withCores_test (x : List (Nat × Core)) : (s.withCores x).test = s.test := rfl
@[simp] theorem State.withCores_sched (x : List (Nat × Core)) : (s.withCores x).sched = s.sched := rfl
@[simp] theorem State.withCores_units (x : List (Nat × Core)) : (s.withCores x).units = s.units := rfl
@[simp] theorem State.reg_withCores (x : List (Nat × Core)) (x' : Nat) : (s.withCores x).reg x' = s.reg x' := rfl
@[simp] theorem State.fld_withCores (x : List (Nat × Core)) (x' : Field) : (s.withCores x).fld x' = s.fld x' := rfl
@[simp] theorem State.flag_withCores (x : List (Nat × Core)) (x' : Field) : (s.withCores x).flag x' = s.flag x' := rfl
@[simp] theorem State.ready_withCores (x : List (Nat × Core)) (x' : Nat) : (s.withCores x).ready x' = s.ready x' := rfl
@[simp] theorem State.byte_withCores (x : List (Nat × Core)) (x' : Nat) : (s.withCores x).byte x' = s.byte x' := rfl
@[simp] theorem State.bytes_withCores (x : List (Nat × Core)) (x' y : Nat) : (s.withCores x).bytes x' y = s.bytes x' y := rfl
@[simp] theorem State.num_withCores (x : List (Nat × Core)) (x' y : Nat) : (s.withCores x).num x' y = s.num x' y := rfl
@[simp] theorem State.qp_withCores (x : List (Nat × Core)) (x' : Nat) : (s.withCores x).qp x' = s.qp x' := rfl
@[simp] theorem State.vioLog_withCores (x : List (Nat × Core)) (x' : Nat) : (s.withCores x).vioLog x' = s.vioLog x' := rfl

/-! ### withSched -/

@[simp] theorem State.withSched_sched (x : Sched) : (s.withSched x).sched = x := rfl
@[simp] theorem State.withSched_pending (x : Sched) : (s.withSched x).pending = s.pending := rfl
@[simp] theorem State.withSched_time (x : Sched) : (s.withSched x).time = s.time := rfl
@[simp] theorem State.withSched_free (x : Sched) : (s.withSched x).free = s.free := rfl
@[simp] theorem State.withSched_regs (x : Sched) : (s.withSched x).regs = s.regs := rfl
@[simp] theorem State.withSched_mem (x : Sched) : (s.withSched x).mem = s.mem := rfl
@[simp] theorem State.withSched_eccMask (x : Sched) : (s.withSched x).eccMask = s.eccMask := rfl
@[simp] theorem State.withSched_eccDead (x : Sched) : (s.withSched x).eccDead = s.eccDead := rfl
@[simp] theorem State.withSched_msBad (x : Sched) : (s.withSched x).msBad = s.msBad := rfl
@[simp] theorem State.withSched_vio (x : Sched) : (s.withSched x).vio = s.vio := rfl
@[simp] theorem State.withSched_out (x : Sched) : (s.withSched x).out = s.out := rfl
@[simp] theorem State.withSched_host (x : Sched) : (s.withSched x).host = s.host := rfl
@[simp] theorem State.withSched_boot (x : Sched) : (s.withSched x).boot = s.boot := rfl
@[simp] theorem State.withSched_gov (x : Sched) : (s.withSched x).gov = s.gov := rfl
@[simp] theorem State.withSched_sec (x : Sched) : (s.withSched x).sec = s.sec := rfl
@[simp] theorem State.withSched_test (x : Sched) : (s.withSched x).test = s.test := rfl
@[simp] theorem State.withSched_cores (x : Sched) : (s.withSched x).cores = s.cores := rfl
@[simp] theorem State.withSched_units (x : Sched) : (s.withSched x).units = s.units := rfl
@[simp] theorem State.reg_withSched (x : Sched) (x' : Nat) : (s.withSched x).reg x' = s.reg x' := rfl
@[simp] theorem State.fld_withSched (x : Sched) (x' : Field) : (s.withSched x).fld x' = s.fld x' := rfl
@[simp] theorem State.flag_withSched (x : Sched) (x' : Field) : (s.withSched x).flag x' = s.flag x' := rfl
@[simp] theorem State.ready_withSched (x : Sched) (x' : Nat) : (s.withSched x).ready x' = s.ready x' := rfl
@[simp] theorem State.byte_withSched (x : Sched) (x' : Nat) : (s.withSched x).byte x' = s.byte x' := rfl
@[simp] theorem State.bytes_withSched (x : Sched) (x' y : Nat) : (s.withSched x).bytes x' y = s.bytes x' y := rfl
@[simp] theorem State.num_withSched (x : Sched) (x' y : Nat) : (s.withSched x).num x' y = s.num x' y := rfl
@[simp] theorem State.core_withSched (x : Sched) (x' : Nat) : (s.withSched x).core x' = s.core x' := rfl
@[simp] theorem State.ctx_withSched (x : Sched) (x' : Site) : (s.withSched x).ctx x' = s.ctx x' := rfl
@[simp] theorem State.sem_withSched (x : Sched) (x' y : Nat) : (s.withSched x).sem x' y = s.sem x' y := rfl
@[simp] theorem State.qp_withSched (x : Sched) (x' : Nat) : (s.withSched x).qp x' = s.qp x' := rfl
@[simp] theorem State.vioLog_withSched (x : Sched) (x' : Nat) : (s.withSched x).vioLog x' = s.vioLog x' := rfl

/-! ### withUnits -/

@[simp] theorem State.withUnits_units (x : Units) : (s.withUnits x).units = x := rfl
@[simp] theorem State.withUnits_pending (x : Units) : (s.withUnits x).pending = s.pending := rfl
@[simp] theorem State.withUnits_time (x : Units) : (s.withUnits x).time = s.time := rfl
@[simp] theorem State.withUnits_free (x : Units) : (s.withUnits x).free = s.free := rfl
@[simp] theorem State.withUnits_regs (x : Units) : (s.withUnits x).regs = s.regs := rfl
@[simp] theorem State.withUnits_mem (x : Units) : (s.withUnits x).mem = s.mem := rfl
@[simp] theorem State.withUnits_eccMask (x : Units) : (s.withUnits x).eccMask = s.eccMask := rfl
@[simp] theorem State.withUnits_eccDead (x : Units) : (s.withUnits x).eccDead = s.eccDead := rfl
@[simp] theorem State.withUnits_msBad (x : Units) : (s.withUnits x).msBad = s.msBad := rfl
@[simp] theorem State.withUnits_vio (x : Units) : (s.withUnits x).vio = s.vio := rfl
@[simp] theorem State.withUnits_out (x : Units) : (s.withUnits x).out = s.out := rfl
@[simp] theorem State.withUnits_host (x : Units) : (s.withUnits x).host = s.host := rfl
@[simp] theorem State.withUnits_boot (x : Units) : (s.withUnits x).boot = s.boot := rfl
@[simp] theorem State.withUnits_gov (x : Units) : (s.withUnits x).gov = s.gov := rfl
@[simp] theorem State.withUnits_sec (x : Units) : (s.withUnits x).sec = s.sec := rfl
@[simp] theorem State.withUnits_test (x : Units) : (s.withUnits x).test = s.test := rfl
@[simp] theorem State.withUnits_cores (x : Units) : (s.withUnits x).cores = s.cores := rfl
@[simp] theorem State.withUnits_sched (x : Units) : (s.withUnits x).sched = s.sched := rfl
@[simp] theorem State.reg_withUnits (x : Units) (x' : Nat) : (s.withUnits x).reg x' = s.reg x' := rfl
@[simp] theorem State.fld_withUnits (x : Units) (x' : Field) : (s.withUnits x).fld x' = s.fld x' := rfl
@[simp] theorem State.flag_withUnits (x : Units) (x' : Field) : (s.withUnits x).flag x' = s.flag x' := rfl
@[simp] theorem State.ready_withUnits (x : Units) (x' : Nat) : (s.withUnits x).ready x' = s.ready x' := rfl
@[simp] theorem State.byte_withUnits (x : Units) (x' : Nat) : (s.withUnits x).byte x' = s.byte x' := rfl
@[simp] theorem State.bytes_withUnits (x : Units) (x' y : Nat) : (s.withUnits x).bytes x' y = s.bytes x' y := rfl
@[simp] theorem State.num_withUnits (x : Units) (x' y : Nat) : (s.withUnits x).num x' y = s.num x' y := rfl
@[simp] theorem State.core_withUnits (x : Units) (x' : Nat) : (s.withUnits x).core x' = s.core x' := rfl
@[simp] theorem State.ctx_withUnits (x : Units) (x' : Site) : (s.withUnits x).ctx x' = s.ctx x' := rfl
@[simp] theorem State.sem_withUnits (x : Units) (x' y : Nat) : (s.withUnits x).sem x' y = s.sem x' y := rfl
@[simp] theorem State.qp_withUnits (x : Units) (x' : Nat) : (s.withUnits x).qp x' = s.qp x' := rfl
@[simp] theorem State.vioLog_withUnits (x : Units) (x' : Nat) : (s.withUnits x).vioLog x' = s.vioLog x' := rfl

/-! ### setReg -/

@[simp] theorem State.setReg_pending (a : Nat) (w : Word) : (s.setReg a w).pending = s.pending := rfl
@[simp] theorem State.setReg_time (a : Nat) (w : Word) : (s.setReg a w).time = s.time := rfl
@[simp] theorem State.setReg_free (a : Nat) (w : Word) : (s.setReg a w).free = s.free := rfl
@[simp] theorem State.setReg_mem (a : Nat) (w : Word) : (s.setReg a w).mem = s.mem := rfl
@[simp] theorem State.setReg_eccMask (a : Nat) (w : Word) : (s.setReg a w).eccMask = s.eccMask := rfl
@[simp] theorem State.setReg_eccDead (a : Nat) (w : Word) : (s.setReg a w).eccDead = s.eccDead := rfl
@[simp] theorem State.setReg_msBad (a : Nat) (w : Word) : (s.setReg a w).msBad = s.msBad := rfl
@[simp] theorem State.setReg_vio (a : Nat) (w : Word) : (s.setReg a w).vio = s.vio := rfl
@[simp] theorem State.setReg_out (a : Nat) (w : Word) : (s.setReg a w).out = s.out := rfl
@[simp] theorem State.setReg_host (a : Nat) (w : Word) : (s.setReg a w).host = s.host := rfl
@[simp] theorem State.setReg_boot (a : Nat) (w : Word) : (s.setReg a w).boot = s.boot := rfl
@[simp] theorem State.setReg_gov (a : Nat) (w : Word) : (s.setReg a w).gov = s.gov := rfl
@[simp] theorem State.setReg_sec (a : Nat) (w : Word) : (s.setReg a w).sec = s.sec := rfl
@[simp] theorem State.setReg_test (a : Nat) (w : Word) : (s.setReg a w).test = s.test := rfl
@[simp] theorem State.setReg_cores (a : Nat) (w : Word) : (s.setReg a w).cores = s.cores := rfl
@[simp] theorem State.setReg_sched (a : Nat) (w : Word) : (s.setReg a w).sched = s.sched := rfl
@[simp] theorem State.setReg_units (a : Nat) (w : Word) : (s.setReg a w).units = s.units := rfl
@[simp] theorem State.byte_setReg (a : Nat) (w : Word) (x : Nat) : (s.setReg a w).byte x = s.byte x := rfl
@[simp] theorem State.bytes_setReg (a : Nat) (w : Word) (x y : Nat) : (s.setReg a w).bytes x y = s.bytes x y := rfl
@[simp] theorem State.num_setReg (a : Nat) (w : Word) (x y : Nat) : (s.setReg a w).num x y = s.num x y := rfl
@[simp] theorem State.core_setReg (a : Nat) (w : Word) (x : Nat) : (s.setReg a w).core x = s.core x := rfl
@[simp] theorem State.ctx_setReg (a : Nat) (w : Word) (x : Site) : (s.setReg a w).ctx x = s.ctx x := rfl
@[simp] theorem State.sem_setReg (a : Nat) (w : Word) (x y : Nat) : (s.setReg a w).sem x y = s.sem x y := rfl
@[simp] theorem State.qp_setReg (a : Nat) (w : Word) (x : Nat) : (s.setReg a w).qp x = s.qp x := rfl
@[simp] theorem State.vioLog_setReg (a : Nat) (w : Word) (x : Nat) : (s.setReg a w).vioLog x = s.vioLog x := rfl

/-! ### setFld -/

@[simp] theorem State.setFld_pending (f : Field) (x : Nat) : (s.setFld f x).pending = s.pending := rfl
@[simp] theorem State.setFld_time (f : Field) (x : Nat) : (s.setFld f x).time = s.time := rfl
@[simp] theorem State.setFld_free (f : Field) (x : Nat) : (s.setFld f x).free = s.free := rfl
@[simp] theorem State.setFld_mem (f : Field) (x : Nat) : (s.setFld f x).mem = s.mem := rfl
@[simp] theorem State.setFld_eccMask (f : Field) (x : Nat) : (s.setFld f x).eccMask = s.eccMask := rfl
@[simp] theorem State.setFld_eccDead (f : Field) (x : Nat) : (s.setFld f x).eccDead = s.eccDead := rfl
@[simp] theorem State.setFld_msBad (f : Field) (x : Nat) : (s.setFld f x).msBad = s.msBad := rfl
@[simp] theorem State.setFld_vio (f : Field) (x : Nat) : (s.setFld f x).vio = s.vio := rfl
@[simp] theorem State.setFld_out (f : Field) (x : Nat) : (s.setFld f x).out = s.out := rfl
@[simp] theorem State.setFld_host (f : Field) (x : Nat) : (s.setFld f x).host = s.host := rfl
@[simp] theorem State.setFld_boot (f : Field) (x : Nat) : (s.setFld f x).boot = s.boot := rfl
@[simp] theorem State.setFld_gov (f : Field) (x : Nat) : (s.setFld f x).gov = s.gov := rfl
@[simp] theorem State.setFld_sec (f : Field) (x : Nat) : (s.setFld f x).sec = s.sec := rfl
@[simp] theorem State.setFld_test (f : Field) (x : Nat) : (s.setFld f x).test = s.test := rfl
@[simp] theorem State.setFld_cores (f : Field) (x : Nat) : (s.setFld f x).cores = s.cores := rfl
@[simp] theorem State.setFld_sched (f : Field) (x : Nat) : (s.setFld f x).sched = s.sched := rfl
@[simp] theorem State.setFld_units (f : Field) (x : Nat) : (s.setFld f x).units = s.units := rfl
@[simp] theorem State.byte_setFld (f : Field) (x : Nat) (x' : Nat) : (s.setFld f x).byte x' = s.byte x' := rfl
@[simp] theorem State.bytes_setFld (f : Field) (x : Nat) (x' y : Nat) : (s.setFld f x).bytes x' y = s.bytes x' y := rfl
@[simp] theorem State.num_setFld (f : Field) (x : Nat) (x' y : Nat) : (s.setFld f x).num x' y = s.num x' y := rfl
@[simp] theorem State.core_setFld (f : Field) (x : Nat) (x' : Nat) : (s.setFld f x).core x' = s.core x' := rfl
@[simp] theorem State.ctx_setFld (f : Field) (x : Nat) (x' : Site) : (s.setFld f x).ctx x' = s.ctx x' := rfl
@[simp] theorem State.sem_setFld (f : Field) (x : Nat) (x' y : Nat) : (s.setFld f x).sem x' y = s.sem x' y := rfl
@[simp] theorem State.qp_setFld (f : Field) (x : Nat) (x' : Nat) : (s.setFld f x).qp x' = s.qp x' := rfl
@[simp] theorem State.vioLog_setFld (f : Field) (x : Nat) (x' : Nat) : (s.setFld f x).vioLog x' = s.vioLog x' := rfl

/-! ### putRw -/

@[simp] theorem State.putRw_pending (a : Nat) (w : Word) : (s.putRw a w).pending = s.pending := rfl
@[simp] theorem State.putRw_time (a : Nat) (w : Word) : (s.putRw a w).time = s.time := rfl
@[simp] theorem State.putRw_free (a : Nat) (w : Word) : (s.putRw a w).free = s.free := rfl
@[simp] theorem State.putRw_mem (a : Nat) (w : Word) : (s.putRw a w).mem = s.mem := rfl
@[simp] theorem State.putRw_eccMask (a : Nat) (w : Word) : (s.putRw a w).eccMask = s.eccMask := rfl
@[simp] theorem State.putRw_eccDead (a : Nat) (w : Word) : (s.putRw a w).eccDead = s.eccDead := rfl
@[simp] theorem State.putRw_msBad (a : Nat) (w : Word) : (s.putRw a w).msBad = s.msBad := rfl
@[simp] theorem State.putRw_vio (a : Nat) (w : Word) : (s.putRw a w).vio = s.vio := rfl
@[simp] theorem State.putRw_out (a : Nat) (w : Word) : (s.putRw a w).out = s.out := rfl
@[simp] theorem State.putRw_host (a : Nat) (w : Word) : (s.putRw a w).host = s.host := rfl
@[simp] theorem State.putRw_boot (a : Nat) (w : Word) : (s.putRw a w).boot = s.boot := rfl
@[simp] theorem State.putRw_gov (a : Nat) (w : Word) : (s.putRw a w).gov = s.gov := rfl
@[simp] theorem State.putRw_sec (a : Nat) (w : Word) : (s.putRw a w).sec = s.sec := rfl
@[simp] theorem State.putRw_test (a : Nat) (w : Word) : (s.putRw a w).test = s.test := rfl
@[simp] theorem State.putRw_cores (a : Nat) (w : Word) : (s.putRw a w).cores = s.cores := rfl
@[simp] theorem State.putRw_sched (a : Nat) (w : Word) : (s.putRw a w).sched = s.sched := rfl
@[simp] theorem State.putRw_units (a : Nat) (w : Word) : (s.putRw a w).units = s.units := rfl
@[simp] theorem State.byte_putRw (a : Nat) (w : Word) (x : Nat) : (s.putRw a w).byte x = s.byte x := rfl
@[simp] theorem State.bytes_putRw (a : Nat) (w : Word) (x y : Nat) : (s.putRw a w).bytes x y = s.bytes x y := rfl
@[simp] theorem State.num_putRw (a : Nat) (w : Word) (x y : Nat) : (s.putRw a w).num x y = s.num x y := rfl
@[simp] theorem State.core_putRw (a : Nat) (w : Word) (x : Nat) : (s.putRw a w).core x = s.core x := rfl
@[simp] theorem State.ctx_putRw (a : Nat) (w : Word) (x : Site) : (s.putRw a w).ctx x = s.ctx x := rfl
@[simp] theorem State.sem_putRw (a : Nat) (w : Word) (x y : Nat) : (s.putRw a w).sem x y = s.sem x y := rfl
@[simp] theorem State.qp_putRw (a : Nat) (w : Word) (x : Nat) : (s.putRw a w).qp x = s.qp x := rfl
@[simp] theorem State.vioLog_putRw (a : Nat) (w : Word) (x : Nat) : (s.putRw a w).vioLog x = s.vioLog x := rfl

/-! ### bumpWrap -/

@[simp] theorem State.bumpWrap_pending (f : Field) (n : Nat) : (s.bumpWrap f n).pending = s.pending := rfl
@[simp] theorem State.bumpWrap_time (f : Field) (n : Nat) : (s.bumpWrap f n).time = s.time := rfl
@[simp] theorem State.bumpWrap_free (f : Field) (n : Nat) : (s.bumpWrap f n).free = s.free := rfl
@[simp] theorem State.bumpWrap_mem (f : Field) (n : Nat) : (s.bumpWrap f n).mem = s.mem := rfl
@[simp] theorem State.bumpWrap_eccMask (f : Field) (n : Nat) : (s.bumpWrap f n).eccMask = s.eccMask := rfl
@[simp] theorem State.bumpWrap_eccDead (f : Field) (n : Nat) : (s.bumpWrap f n).eccDead = s.eccDead := rfl
@[simp] theorem State.bumpWrap_msBad (f : Field) (n : Nat) : (s.bumpWrap f n).msBad = s.msBad := rfl
@[simp] theorem State.bumpWrap_vio (f : Field) (n : Nat) : (s.bumpWrap f n).vio = s.vio := rfl
@[simp] theorem State.bumpWrap_out (f : Field) (n : Nat) : (s.bumpWrap f n).out = s.out := rfl
@[simp] theorem State.bumpWrap_host (f : Field) (n : Nat) : (s.bumpWrap f n).host = s.host := rfl
@[simp] theorem State.bumpWrap_boot (f : Field) (n : Nat) : (s.bumpWrap f n).boot = s.boot := rfl
@[simp] theorem State.bumpWrap_gov (f : Field) (n : Nat) : (s.bumpWrap f n).gov = s.gov := rfl
@[simp] theorem State.bumpWrap_sec (f : Field) (n : Nat) : (s.bumpWrap f n).sec = s.sec := rfl
@[simp] theorem State.bumpWrap_test (f : Field) (n : Nat) : (s.bumpWrap f n).test = s.test := rfl
@[simp] theorem State.bumpWrap_cores (f : Field) (n : Nat) : (s.bumpWrap f n).cores = s.cores := rfl
@[simp] theorem State.bumpWrap_sched (f : Field) (n : Nat) : (s.bumpWrap f n).sched = s.sched := rfl
@[simp] theorem State.bumpWrap_units (f : Field) (n : Nat) : (s.bumpWrap f n).units = s.units := rfl
@[simp] theorem State.byte_bumpWrap (f : Field) (n : Nat) (x : Nat) : (s.bumpWrap f n).byte x = s.byte x := rfl
@[simp] theorem State.bytes_bumpWrap (f : Field) (n : Nat) (x y : Nat) : (s.bumpWrap f n).bytes x y = s.bytes x y := rfl
@[simp] theorem State.num_bumpWrap (f : Field) (n : Nat) (x y : Nat) : (s.bumpWrap f n).num x y = s.num x y := rfl
@[simp] theorem State.core_bumpWrap (f : Field) (n : Nat) (x : Nat) : (s.bumpWrap f n).core x = s.core x := rfl
@[simp] theorem State.ctx_bumpWrap (f : Field) (n : Nat) (x : Site) : (s.bumpWrap f n).ctx x = s.ctx x := rfl
@[simp] theorem State.sem_bumpWrap (f : Field) (n : Nat) (x y : Nat) : (s.bumpWrap f n).sem x y = s.sem x y := rfl
@[simp] theorem State.qp_bumpWrap (f : Field) (n : Nat) (x : Nat) : (s.bumpWrap f n).qp x = s.qp x := rfl
@[simp] theorem State.vioLog_bumpWrap (f : Field) (n : Nat) (x : Nat) : (s.bumpWrap f n).vioLog x = s.vioLog x := rfl

/-! ### bumpStop -/

@[simp] theorem State.bumpStop_pending (f : Field) (n : Nat) : (s.bumpStop f n).pending = s.pending := rfl
@[simp] theorem State.bumpStop_time (f : Field) (n : Nat) : (s.bumpStop f n).time = s.time := rfl
@[simp] theorem State.bumpStop_free (f : Field) (n : Nat) : (s.bumpStop f n).free = s.free := rfl
@[simp] theorem State.bumpStop_mem (f : Field) (n : Nat) : (s.bumpStop f n).mem = s.mem := rfl
@[simp] theorem State.bumpStop_eccMask (f : Field) (n : Nat) : (s.bumpStop f n).eccMask = s.eccMask := rfl
@[simp] theorem State.bumpStop_eccDead (f : Field) (n : Nat) : (s.bumpStop f n).eccDead = s.eccDead := rfl
@[simp] theorem State.bumpStop_msBad (f : Field) (n : Nat) : (s.bumpStop f n).msBad = s.msBad := rfl
@[simp] theorem State.bumpStop_vio (f : Field) (n : Nat) : (s.bumpStop f n).vio = s.vio := rfl
@[simp] theorem State.bumpStop_out (f : Field) (n : Nat) : (s.bumpStop f n).out = s.out := rfl
@[simp] theorem State.bumpStop_host (f : Field) (n : Nat) : (s.bumpStop f n).host = s.host := rfl
@[simp] theorem State.bumpStop_boot (f : Field) (n : Nat) : (s.bumpStop f n).boot = s.boot := rfl
@[simp] theorem State.bumpStop_gov (f : Field) (n : Nat) : (s.bumpStop f n).gov = s.gov := rfl
@[simp] theorem State.bumpStop_sec (f : Field) (n : Nat) : (s.bumpStop f n).sec = s.sec := rfl
@[simp] theorem State.bumpStop_test (f : Field) (n : Nat) : (s.bumpStop f n).test = s.test := rfl
@[simp] theorem State.bumpStop_cores (f : Field) (n : Nat) : (s.bumpStop f n).cores = s.cores := rfl
@[simp] theorem State.bumpStop_sched (f : Field) (n : Nat) : (s.bumpStop f n).sched = s.sched := rfl
@[simp] theorem State.bumpStop_units (f : Field) (n : Nat) : (s.bumpStop f n).units = s.units := rfl
@[simp] theorem State.byte_bumpStop (f : Field) (n : Nat) (x : Nat) : (s.bumpStop f n).byte x = s.byte x := rfl
@[simp] theorem State.bytes_bumpStop (f : Field) (n : Nat) (x y : Nat) : (s.bumpStop f n).bytes x y = s.bytes x y := rfl
@[simp] theorem State.num_bumpStop (f : Field) (n : Nat) (x y : Nat) : (s.bumpStop f n).num x y = s.num x y := rfl
@[simp] theorem State.core_bumpStop (f : Field) (n : Nat) (x : Nat) : (s.bumpStop f n).core x = s.core x := rfl
@[simp] theorem State.ctx_bumpStop (f : Field) (n : Nat) (x : Site) : (s.bumpStop f n).ctx x = s.ctx x := rfl
@[simp] theorem State.sem_bumpStop (f : Field) (n : Nat) (x y : Nat) : (s.bumpStop f n).sem x y = s.sem x y := rfl
@[simp] theorem State.qp_bumpStop (f : Field) (n : Nat) (x : Nat) : (s.bumpStop f n).qp x = s.qp x := rfl
@[simp] theorem State.vioLog_bumpStop (f : Field) (n : Nat) (x : Nat) : (s.bumpStop f n).vioLog x = s.vioLog x := rfl

/-! ### bump -/

@[simp] theorem State.bump_pending (f g : Field) (n : Nat) : (s.bump f g n).pending = s.pending := by
  simp only [State.bump]; split <;> rfl
@[simp] theorem State.bump_time (f g : Field) (n : Nat) : (s.bump f g n).time = s.time := by
  simp only [State.bump]; split <;> rfl
@[simp] theorem State.bump_free (f g : Field) (n : Nat) : (s.bump f g n).free = s.free := by
  simp only [State.bump]; split <;> rfl
@[simp] theorem State.bump_mem (f g : Field) (n : Nat) : (s.bump f g n).mem = s.mem := by
  simp only [State.bump]; split <;> rfl
@[simp] theorem State.bump_eccMask (f g : Field) (n : Nat) : (s.bump f g n).eccMask = s.eccMask := by
  simp only [State.bump]; split <;> rfl
@[simp] theorem State.bump_eccDead (f g : Field) (n : Nat) : (s.bump f g n).eccDead = s.eccDead := by
  simp only [State.bump]; split <;> rfl
@[simp] theorem State.bump_msBad (f g : Field) (n : Nat) : (s.bump f g n).msBad = s.msBad := by
  simp only [State.bump]; split <;> rfl
@[simp] theorem State.bump_vio (f g : Field) (n : Nat) : (s.bump f g n).vio = s.vio := by
  simp only [State.bump]; split <;> rfl
@[simp] theorem State.bump_out (f g : Field) (n : Nat) : (s.bump f g n).out = s.out := by
  simp only [State.bump]; split <;> rfl
@[simp] theorem State.bump_host (f g : Field) (n : Nat) : (s.bump f g n).host = s.host := by
  simp only [State.bump]; split <;> rfl
@[simp] theorem State.bump_boot (f g : Field) (n : Nat) : (s.bump f g n).boot = s.boot := by
  simp only [State.bump]; split <;> rfl
@[simp] theorem State.bump_gov (f g : Field) (n : Nat) : (s.bump f g n).gov = s.gov := by
  simp only [State.bump]; split <;> rfl
@[simp] theorem State.bump_sec (f g : Field) (n : Nat) : (s.bump f g n).sec = s.sec := by
  simp only [State.bump]; split <;> rfl
@[simp] theorem State.bump_test (f g : Field) (n : Nat) : (s.bump f g n).test = s.test := by
  simp only [State.bump]; split <;> rfl
@[simp] theorem State.bump_cores (f g : Field) (n : Nat) : (s.bump f g n).cores = s.cores := by
  simp only [State.bump]; split <;> rfl
@[simp] theorem State.bump_sched (f g : Field) (n : Nat) : (s.bump f g n).sched = s.sched := by
  simp only [State.bump]; split <;> rfl
@[simp] theorem State.bump_units (f g : Field) (n : Nat) : (s.bump f g n).units = s.units := by
  simp only [State.bump]; split <;> rfl
@[simp] theorem State.byte_bump (f g : Field) (n : Nat) (x : Nat) : (s.bump f g n).byte x = s.byte x := by
  simp [State.byte]
@[simp] theorem State.bytes_bump (f g : Field) (n : Nat) (x y : Nat) : (s.bump f g n).bytes x y = s.bytes x y := by
  simp [State.bytes]
@[simp] theorem State.num_bump (f g : Field) (n : Nat) (x y : Nat) : (s.bump f g n).num x y = s.num x y := by
  simp [State.num, State.bytes]
@[simp] theorem State.core_bump (f g : Field) (n : Nat) (x : Nat) : (s.bump f g n).core x = s.core x := by
  simp [State.core]
@[simp] theorem State.ctx_bump (f g : Field) (n : Nat) (x : Site) : (s.bump f g n).ctx x = s.ctx x := by
  simp [State.ctx, State.core]
@[simp] theorem State.sem_bump (f g : Field) (n : Nat) (x y : Nat) : (s.bump f g n).sem x y = s.sem x y := by
  simp [State.sem, State.core]
@[simp] theorem State.qp_bump (f g : Field) (n : Nat) (x : Nat) : (s.bump f g n).qp x = s.qp x := by
  simp [State.qp]
@[simp] theorem State.vioLog_bump (f g : Field) (n : Nat) (x : Nat) : (s.bump f g n).vioLog x = s.vioLog x := by
  simp [State.vioLog]

/-! ### setReady -/

@[simp] theorem State.setReady_pending (b : Nat) : (s.setReady b).pending = s.pending := by
  simp only [State.setReady]; split <;> rfl
@[simp] theorem State.setReady_time (b : Nat) : (s.setReady b).time = s.time := by
  simp only [State.setReady]; split <;> rfl
@[simp] theorem State.setReady_free (b : Nat) : (s.setReady b).free = s.free := by
  simp only [State.setReady]; split <;> rfl
@[simp] theorem State.setReady_mem (b : Nat) : (s.setReady b).mem = s.mem := by
  simp only [State.setReady]; split <;> rfl
@[simp] theorem State.setReady_eccMask (b : Nat) : (s.setReady b).eccMask = s.eccMask := by
  simp only [State.setReady]; split <;> rfl
@[simp] theorem State.setReady_eccDead (b : Nat) : (s.setReady b).eccDead = s.eccDead := by
  simp only [State.setReady]; split <;> rfl
@[simp] theorem State.setReady_msBad (b : Nat) : (s.setReady b).msBad = s.msBad := by
  simp only [State.setReady]; split <;> rfl
@[simp] theorem State.setReady_vio (b : Nat) : (s.setReady b).vio = s.vio := by
  simp only [State.setReady]; split <;> rfl
@[simp] theorem State.setReady_out (b : Nat) : (s.setReady b).out = s.out := by
  simp only [State.setReady]; split <;> rfl
@[simp] theorem State.setReady_host (b : Nat) : (s.setReady b).host = s.host := by
  simp only [State.setReady]; split <;> rfl
@[simp] theorem State.setReady_boot (b : Nat) : (s.setReady b).boot = s.boot := by
  simp only [State.setReady]; split <;> rfl
@[simp] theorem State.setReady_gov (b : Nat) : (s.setReady b).gov = s.gov := by
  simp only [State.setReady]; split <;> rfl
@[simp] theorem State.setReady_sec (b : Nat) : (s.setReady b).sec = s.sec := by
  simp only [State.setReady]; split <;> rfl
@[simp] theorem State.setReady_test (b : Nat) : (s.setReady b).test = s.test := by
  simp only [State.setReady]; split <;> rfl
@[simp] theorem State.setReady_cores (b : Nat) : (s.setReady b).cores = s.cores := by
  simp only [State.setReady]; split <;> rfl
@[simp] theorem State.setReady_sched (b : Nat) : (s.setReady b).sched = s.sched := by
  simp only [State.setReady]; split <;> rfl
@[simp] theorem State.setReady_units (b : Nat) : (s.setReady b).units = s.units := by
  simp only [State.setReady]; split <;> rfl
@[simp] theorem State.byte_setReady (b : Nat) (x : Nat) : (s.setReady b).byte x = s.byte x := by
  simp [State.byte]
@[simp] theorem State.bytes_setReady (b : Nat) (x y : Nat) : (s.setReady b).bytes x y = s.bytes x y := by
  simp [State.bytes]
@[simp] theorem State.num_setReady (b : Nat) (x y : Nat) : (s.setReady b).num x y = s.num x y := by
  simp [State.num, State.bytes]
@[simp] theorem State.core_setReady (b : Nat) (x : Nat) : (s.setReady b).core x = s.core x := by
  simp [State.core]
@[simp] theorem State.ctx_setReady (b : Nat) (x : Site) : (s.setReady b).ctx x = s.ctx x := by
  simp [State.ctx, State.core]
@[simp] theorem State.sem_setReady (b : Nat) (x y : Nat) : (s.setReady b).sem x y = s.sem x y := by
  simp [State.sem, State.core]
@[simp] theorem State.qp_setReady (b : Nat) (x : Nat) : (s.setReady b).qp x = s.qp x := by
  simp [State.qp]
@[simp] theorem State.vioLog_setReady (b : Nat) (x : Nat) : (s.setReady b).vioLog x = s.vioLog x := by
  simp [State.vioLog]

/-! ### clearReady -/

@[simp] theorem State.clearReady_pending (b : Nat) : (s.clearReady b).pending = s.pending := rfl
@[simp] theorem State.clearReady_time (b : Nat) : (s.clearReady b).time = s.time := rfl
@[simp] theorem State.clearReady_free (b : Nat) : (s.clearReady b).free = s.free := rfl
@[simp] theorem State.clearReady_mem (b : Nat) : (s.clearReady b).mem = s.mem := rfl
@[simp] theorem State.clearReady_eccMask (b : Nat) : (s.clearReady b).eccMask = s.eccMask := rfl
@[simp] theorem State.clearReady_eccDead (b : Nat) : (s.clearReady b).eccDead = s.eccDead := rfl
@[simp] theorem State.clearReady_msBad (b : Nat) : (s.clearReady b).msBad = s.msBad := rfl
@[simp] theorem State.clearReady_vio (b : Nat) : (s.clearReady b).vio = s.vio := rfl
@[simp] theorem State.clearReady_out (b : Nat) : (s.clearReady b).out = s.out := rfl
@[simp] theorem State.clearReady_host (b : Nat) : (s.clearReady b).host = s.host := rfl
@[simp] theorem State.clearReady_boot (b : Nat) : (s.clearReady b).boot = s.boot := rfl
@[simp] theorem State.clearReady_gov (b : Nat) : (s.clearReady b).gov = s.gov := rfl
@[simp] theorem State.clearReady_sec (b : Nat) : (s.clearReady b).sec = s.sec := rfl
@[simp] theorem State.clearReady_test (b : Nat) : (s.clearReady b).test = s.test := rfl
@[simp] theorem State.clearReady_cores (b : Nat) : (s.clearReady b).cores = s.cores := rfl
@[simp] theorem State.clearReady_sched (b : Nat) : (s.clearReady b).sched = s.sched := rfl
@[simp] theorem State.clearReady_units (b : Nat) : (s.clearReady b).units = s.units := rfl
@[simp] theorem State.byte_clearReady (b : Nat) (x : Nat) : (s.clearReady b).byte x = s.byte x := rfl
@[simp] theorem State.bytes_clearReady (b : Nat) (x y : Nat) : (s.clearReady b).bytes x y = s.bytes x y := rfl
@[simp] theorem State.num_clearReady (b : Nat) (x y : Nat) : (s.clearReady b).num x y = s.num x y := rfl
@[simp] theorem State.core_clearReady (b : Nat) (x : Nat) : (s.clearReady b).core x = s.core x := rfl
@[simp] theorem State.ctx_clearReady (b : Nat) (x : Site) : (s.clearReady b).ctx x = s.ctx x := rfl
@[simp] theorem State.sem_clearReady (b : Nat) (x y : Nat) : (s.clearReady b).sem x y = s.sem x y := rfl
@[simp] theorem State.qp_clearReady (b : Nat) (x : Nat) : (s.clearReady b).qp x = s.qp x := rfl
@[simp] theorem State.vioLog_clearReady (b : Nat) (x : Nat) : (s.clearReady b).vioLog x = s.vioLog x := rfl

/-! ### emit -/

@[simp] theorem State.emit_pending (o : Out) : (s.emit o).pending = s.pending := rfl
@[simp] theorem State.emit_time (o : Out) : (s.emit o).time = s.time := rfl
@[simp] theorem State.emit_free (o : Out) : (s.emit o).free = s.free := rfl
@[simp] theorem State.emit_regs (o : Out) : (s.emit o).regs = s.regs := rfl
@[simp] theorem State.emit_mem (o : Out) : (s.emit o).mem = s.mem := rfl
@[simp] theorem State.emit_eccMask (o : Out) : (s.emit o).eccMask = s.eccMask := rfl
@[simp] theorem State.emit_eccDead (o : Out) : (s.emit o).eccDead = s.eccDead := rfl
@[simp] theorem State.emit_msBad (o : Out) : (s.emit o).msBad = s.msBad := rfl
@[simp] theorem State.emit_vio (o : Out) : (s.emit o).vio = s.vio := rfl
@[simp] theorem State.emit_host (o : Out) : (s.emit o).host = s.host := rfl
@[simp] theorem State.emit_boot (o : Out) : (s.emit o).boot = s.boot := rfl
@[simp] theorem State.emit_gov (o : Out) : (s.emit o).gov = s.gov := rfl
@[simp] theorem State.emit_sec (o : Out) : (s.emit o).sec = s.sec := rfl
@[simp] theorem State.emit_test (o : Out) : (s.emit o).test = s.test := rfl
@[simp] theorem State.emit_cores (o : Out) : (s.emit o).cores = s.cores := rfl
@[simp] theorem State.emit_sched (o : Out) : (s.emit o).sched = s.sched := rfl
@[simp] theorem State.emit_units (o : Out) : (s.emit o).units = s.units := rfl
@[simp] theorem State.reg_emit (o : Out) (x : Nat) : (s.emit o).reg x = s.reg x := rfl
@[simp] theorem State.fld_emit (o : Out) (x : Field) : (s.emit o).fld x = s.fld x := rfl
@[simp] theorem State.flag_emit (o : Out) (x : Field) : (s.emit o).flag x = s.flag x := rfl
@[simp] theorem State.ready_emit (o : Out) (x : Nat) : (s.emit o).ready x = s.ready x := rfl
@[simp] theorem State.byte_emit (o : Out) (x : Nat) : (s.emit o).byte x = s.byte x := rfl
@[simp] theorem State.bytes_emit (o : Out) (x y : Nat) : (s.emit o).bytes x y = s.bytes x y := rfl
@[simp] theorem State.num_emit (o : Out) (x y : Nat) : (s.emit o).num x y = s.num x y := rfl
@[simp] theorem State.core_emit (o : Out) (x : Nat) : (s.emit o).core x = s.core x := rfl
@[simp] theorem State.ctx_emit (o : Out) (x : Site) : (s.emit o).ctx x = s.ctx x := rfl
@[simp] theorem State.sem_emit (o : Out) (x y : Nat) : (s.emit o).sem x y = s.sem x y := rfl
@[simp] theorem State.qp_emit (o : Out) (x : Nat) : (s.emit o).qp x = s.qp x := rfl
@[simp] theorem State.vioLog_emit (o : Out) (x : Nat) : (s.emit o).vioLog x = s.vioLog x := rfl

/-! ### setVio -/

@[simp] theorem State.setVio_pending (b : Nat) (l : VioLog) : (s.setVio b l).pending = s.pending := rfl
@[simp] theorem State.setVio_time (b : Nat) (l : VioLog) : (s.setVio b l).time = s.time := rfl
@[simp] theorem State.setVio_free (b : Nat) (l : VioLog) : (s.setVio b l).free = s.free := rfl
@[simp] theorem State.setVio_regs (b : Nat) (l : VioLog) : (s.setVio b l).regs = s.regs := rfl
@[simp] theorem State.setVio_mem (b : Nat) (l : VioLog) : (s.setVio b l).mem = s.mem := rfl
@[simp] theorem State.setVio_eccMask (b : Nat) (l : VioLog) : (s.setVio b l).eccMask = s.eccMask := rfl
@[simp] theorem State.setVio_eccDead (b : Nat) (l : VioLog) : (s.setVio b l).eccDead = s.eccDead := rfl
@[simp] theorem State.setVio_msBad (b : Nat) (l : VioLog) : (s.setVio b l).msBad = s.msBad := rfl
@[simp] theorem State.setVio_out (b : Nat) (l : VioLog) : (s.setVio b l).out = s.out := rfl
@[simp] theorem State.setVio_host (b : Nat) (l : VioLog) : (s.setVio b l).host = s.host := rfl
@[simp] theorem State.setVio_boot (b : Nat) (l : VioLog) : (s.setVio b l).boot = s.boot := rfl
@[simp] theorem State.setVio_gov (b : Nat) (l : VioLog) : (s.setVio b l).gov = s.gov := rfl
@[simp] theorem State.setVio_sec (b : Nat) (l : VioLog) : (s.setVio b l).sec = s.sec := rfl
@[simp] theorem State.setVio_test (b : Nat) (l : VioLog) : (s.setVio b l).test = s.test := rfl
@[simp] theorem State.setVio_cores (b : Nat) (l : VioLog) : (s.setVio b l).cores = s.cores := rfl
@[simp] theorem State.setVio_sched (b : Nat) (l : VioLog) : (s.setVio b l).sched = s.sched := rfl
@[simp] theorem State.setVio_units (b : Nat) (l : VioLog) : (s.setVio b l).units = s.units := rfl
@[simp] theorem State.reg_setVio (b : Nat) (l : VioLog) (x : Nat) : (s.setVio b l).reg x = s.reg x := rfl
@[simp] theorem State.fld_setVio (b : Nat) (l : VioLog) (x : Field) : (s.setVio b l).fld x = s.fld x := rfl
@[simp] theorem State.flag_setVio (b : Nat) (l : VioLog) (x : Field) : (s.setVio b l).flag x = s.flag x := rfl
@[simp] theorem State.ready_setVio (b : Nat) (l : VioLog) (x : Nat) : (s.setVio b l).ready x = s.ready x := rfl
@[simp] theorem State.byte_setVio (b : Nat) (l : VioLog) (x : Nat) : (s.setVio b l).byte x = s.byte x := rfl
@[simp] theorem State.bytes_setVio (b : Nat) (l : VioLog) (x y : Nat) : (s.setVio b l).bytes x y = s.bytes x y := rfl
@[simp] theorem State.num_setVio (b : Nat) (l : VioLog) (x y : Nat) : (s.setVio b l).num x y = s.num x y := rfl
@[simp] theorem State.core_setVio (b : Nat) (l : VioLog) (x : Nat) : (s.setVio b l).core x = s.core x := rfl
@[simp] theorem State.ctx_setVio (b : Nat) (l : VioLog) (x : Site) : (s.setVio b l).ctx x = s.ctx x := rfl
@[simp] theorem State.sem_setVio (b : Nat) (l : VioLog) (x y : Nat) : (s.setVio b l).sem x y = s.sem x y := rfl
@[simp] theorem State.qp_setVio (b : Nat) (l : VioLog) (x : Nat) : (s.setVio b l).qp x = s.qp x := rfl

/-! ### setQp -/

@[simp] theorem State.setQp_pending (n : Nat) (q : QpRun) : (s.setQp n q).pending = s.pending := rfl
@[simp] theorem State.setQp_time (n : Nat) (q : QpRun) : (s.setQp n q).time = s.time := rfl
@[simp] theorem State.setQp_free (n : Nat) (q : QpRun) : (s.setQp n q).free = s.free := rfl
@[simp] theorem State.setQp_regs (n : Nat) (q : QpRun) : (s.setQp n q).regs = s.regs := rfl
@[simp] theorem State.setQp_mem (n : Nat) (q : QpRun) : (s.setQp n q).mem = s.mem := rfl
@[simp] theorem State.setQp_eccMask (n : Nat) (q : QpRun) : (s.setQp n q).eccMask = s.eccMask := rfl
@[simp] theorem State.setQp_eccDead (n : Nat) (q : QpRun) : (s.setQp n q).eccDead = s.eccDead := rfl
@[simp] theorem State.setQp_msBad (n : Nat) (q : QpRun) : (s.setQp n q).msBad = s.msBad := rfl
@[simp] theorem State.setQp_vio (n : Nat) (q : QpRun) : (s.setQp n q).vio = s.vio := rfl
@[simp] theorem State.setQp_out (n : Nat) (q : QpRun) : (s.setQp n q).out = s.out := rfl
@[simp] theorem State.setQp_boot (n : Nat) (q : QpRun) : (s.setQp n q).boot = s.boot := rfl
@[simp] theorem State.setQp_gov (n : Nat) (q : QpRun) : (s.setQp n q).gov = s.gov := rfl
@[simp] theorem State.setQp_sec (n : Nat) (q : QpRun) : (s.setQp n q).sec = s.sec := rfl
@[simp] theorem State.setQp_test (n : Nat) (q : QpRun) : (s.setQp n q).test = s.test := rfl
@[simp] theorem State.setQp_cores (n : Nat) (q : QpRun) : (s.setQp n q).cores = s.cores := rfl
@[simp] theorem State.setQp_sched (n : Nat) (q : QpRun) : (s.setQp n q).sched = s.sched := rfl
@[simp] theorem State.setQp_units (n : Nat) (q : QpRun) : (s.setQp n q).units = s.units := rfl
@[simp] theorem State.reg_setQp (n : Nat) (q : QpRun) (x : Nat) : (s.setQp n q).reg x = s.reg x := rfl
@[simp] theorem State.fld_setQp (n : Nat) (q : QpRun) (x : Field) : (s.setQp n q).fld x = s.fld x := rfl
@[simp] theorem State.flag_setQp (n : Nat) (q : QpRun) (x : Field) : (s.setQp n q).flag x = s.flag x := rfl
@[simp] theorem State.ready_setQp (n : Nat) (q : QpRun) (x : Nat) : (s.setQp n q).ready x = s.ready x := rfl
@[simp] theorem State.byte_setQp (n : Nat) (q : QpRun) (x : Nat) : (s.setQp n q).byte x = s.byte x := rfl
@[simp] theorem State.bytes_setQp (n : Nat) (q : QpRun) (x y : Nat) : (s.setQp n q).bytes x y = s.bytes x y := rfl
@[simp] theorem State.num_setQp (n : Nat) (q : QpRun) (x y : Nat) : (s.setQp n q).num x y = s.num x y := rfl
@[simp] theorem State.core_setQp (n : Nat) (q : QpRun) (x : Nat) : (s.setQp n q).core x = s.core x := rfl
@[simp] theorem State.ctx_setQp (n : Nat) (q : QpRun) (x : Site) : (s.setQp n q).ctx x = s.ctx x := rfl
@[simp] theorem State.sem_setQp (n : Nat) (q : QpRun) (x y : Nat) : (s.setQp n q).sem x y = s.sem x y := rfl
@[simp] theorem State.vioLog_setQp (n : Nat) (q : QpRun) (x : Nat) : (s.setQp n q).vioLog x = s.vioLog x := rfl

/-! ### putBytes -/

@[simp] theorem State.putBytes_pending (a : Nat) (l : List Byte) : (s.putBytes a l).pending = s.pending := rfl
@[simp] theorem State.putBytes_time (a : Nat) (l : List Byte) : (s.putBytes a l).time = s.time := rfl
@[simp] theorem State.putBytes_free (a : Nat) (l : List Byte) : (s.putBytes a l).free = s.free := rfl
@[simp] theorem State.putBytes_regs (a : Nat) (l : List Byte) : (s.putBytes a l).regs = s.regs := rfl
@[simp] theorem State.putBytes_eccMask (a : Nat) (l : List Byte) : (s.putBytes a l).eccMask = s.eccMask := rfl
@[simp] theorem State.putBytes_eccDead (a : Nat) (l : List Byte) : (s.putBytes a l).eccDead = s.eccDead := rfl
@[simp] theorem State.putBytes_msBad (a : Nat) (l : List Byte) : (s.putBytes a l).msBad = s.msBad := rfl
@[simp] theorem State.putBytes_vio (a : Nat) (l : List Byte) : (s.putBytes a l).vio = s.vio := rfl
@[simp] theorem State.putBytes_out (a : Nat) (l : List Byte) : (s.putBytes a l).out = s.out := rfl
@[simp] theorem State.putBytes_host (a : Nat) (l : List Byte) : (s.putBytes a l).host = s.host := rfl
@[simp] theorem State.putBytes_boot (a : Nat) (l : List Byte) : (s.putBytes a l).boot = s.boot := rfl
@[simp] theorem State.putBytes_gov (a : Nat) (l : List Byte) : (s.putBytes a l).gov = s.gov := rfl
@[simp] theorem State.putBytes_sec (a : Nat) (l : List Byte) : (s.putBytes a l).sec = s.sec := rfl
@[simp] theorem State.putBytes_test (a : Nat) (l : List Byte) : (s.putBytes a l).test = s.test := rfl
@[simp] theorem State.putBytes_cores (a : Nat) (l : List Byte) : (s.putBytes a l).cores = s.cores := rfl
@[simp] theorem State.putBytes_sched (a : Nat) (l : List Byte) : (s.putBytes a l).sched = s.sched := rfl
@[simp] theorem State.putBytes_units (a : Nat) (l : List Byte) : (s.putBytes a l).units = s.units := rfl
@[simp] theorem State.reg_putBytes (a : Nat) (l : List Byte) (x : Nat) : (s.putBytes a l).reg x = s.reg x := rfl
@[simp] theorem State.fld_putBytes (a : Nat) (l : List Byte) (x : Field) : (s.putBytes a l).fld x = s.fld x := rfl
@[simp] theorem State.flag_putBytes (a : Nat) (l : List Byte) (x : Field) : (s.putBytes a l).flag x = s.flag x := rfl
@[simp] theorem State.ready_putBytes (a : Nat) (l : List Byte) (x : Nat) : (s.putBytes a l).ready x = s.ready x := rfl
@[simp] theorem State.core_putBytes (a : Nat) (l : List Byte) (x : Nat) : (s.putBytes a l).core x = s.core x := rfl
@[simp] theorem State.ctx_putBytes (a : Nat) (l : List Byte) (x : Site) : (s.putBytes a l).ctx x = s.ctx x := rfl
@[simp] theorem State.sem_putBytes (a : Nat) (l : List Byte) (x y : Nat) : (s.putBytes a l).sem x y = s.sem x y := rfl
@[simp] theorem State.qp_putBytes (a : Nat) (l : List Byte) (x : Nat) : (s.putBytes a l).qp x = s.qp x := rfl
@[simp] theorem State.vioLog_putBytes (a : Nat) (l : List Byte) (x : Nat) : (s.putBytes a l).vioLog x = s.vioLog x := rfl

/-! ### putNum -/

@[simp] theorem State.putNum_pending (a n v : Nat) : (s.putNum a n v).pending = s.pending := rfl
@[simp] theorem State.putNum_time (a n v : Nat) : (s.putNum a n v).time = s.time := rfl
@[simp] theorem State.putNum_free (a n v : Nat) : (s.putNum a n v).free = s.free := rfl
@[simp] theorem State.putNum_regs (a n v : Nat) : (s.putNum a n v).regs = s.regs := rfl
@[simp] theorem State.putNum_eccMask (a n v : Nat) : (s.putNum a n v).eccMask = s.eccMask := rfl
@[simp] theorem State.putNum_eccDead (a n v : Nat) : (s.putNum a n v).eccDead = s.eccDead := rfl
@[simp] theorem State.putNum_msBad (a n v : Nat) : (s.putNum a n v).msBad = s.msBad := rfl
@[simp] theorem State.putNum_vio (a n v : Nat) : (s.putNum a n v).vio = s.vio := rfl
@[simp] theorem State.putNum_out (a n v : Nat) : (s.putNum a n v).out = s.out := rfl
@[simp] theorem State.putNum_host (a n v : Nat) : (s.putNum a n v).host = s.host := rfl
@[simp] theorem State.putNum_boot (a n v : Nat) : (s.putNum a n v).boot = s.boot := rfl
@[simp] theorem State.putNum_gov (a n v : Nat) : (s.putNum a n v).gov = s.gov := rfl
@[simp] theorem State.putNum_sec (a n v : Nat) : (s.putNum a n v).sec = s.sec := rfl
@[simp] theorem State.putNum_test (a n v : Nat) : (s.putNum a n v).test = s.test := rfl
@[simp] theorem State.putNum_cores (a n v : Nat) : (s.putNum a n v).cores = s.cores := rfl
@[simp] theorem State.putNum_sched (a n v : Nat) : (s.putNum a n v).sched = s.sched := rfl
@[simp] theorem State.putNum_units (a n v : Nat) : (s.putNum a n v).units = s.units := rfl
@[simp] theorem State.reg_putNum (a n v : Nat) (x : Nat) : (s.putNum a n v).reg x = s.reg x := rfl
@[simp] theorem State.fld_putNum (a n v : Nat) (x : Field) : (s.putNum a n v).fld x = s.fld x := rfl
@[simp] theorem State.flag_putNum (a n v : Nat) (x : Field) : (s.putNum a n v).flag x = s.flag x := rfl
@[simp] theorem State.ready_putNum (a n v : Nat) (x : Nat) : (s.putNum a n v).ready x = s.ready x := rfl
@[simp] theorem State.core_putNum (a n v : Nat) (x : Nat) : (s.putNum a n v).core x = s.core x := rfl
@[simp] theorem State.ctx_putNum (a n v : Nat) (x : Site) : (s.putNum a n v).ctx x = s.ctx x := rfl
@[simp] theorem State.sem_putNum (a n v : Nat) (x y : Nat) : (s.putNum a n v).sem x y = s.sem x y := rfl
@[simp] theorem State.qp_putNum (a n v : Nat) (x : Nat) : (s.putNum a n v).qp x = s.qp x := rfl
@[simp] theorem State.vioLog_putNum (a n v : Nat) (x : Nat) : (s.putNum a n v).vioLog x = s.vioLog x := rfl

/-! ### copyBytes -/

@[simp] theorem State.copyBytes_pending (a b n : Nat) : (s.copyBytes a b n).pending = s.pending := rfl
@[simp] theorem State.copyBytes_time (a b n : Nat) : (s.copyBytes a b n).time = s.time := rfl
@[simp] theorem State.copyBytes_free (a b n : Nat) : (s.copyBytes a b n).free = s.free := rfl
@[simp] theorem State.copyBytes_regs (a b n : Nat) : (s.copyBytes a b n).regs = s.regs := rfl
@[simp] theorem State.copyBytes_eccMask (a b n : Nat) : (s.copyBytes a b n).eccMask = s.eccMask := rfl
@[simp] theorem State.copyBytes_eccDead (a b n : Nat) : (s.copyBytes a b n).eccDead = s.eccDead := rfl
@[simp] theorem State.copyBytes_msBad (a b n : Nat) : (s.copyBytes a b n).msBad = s.msBad := rfl
@[simp] theorem State.copyBytes_vio (a b n : Nat) : (s.copyBytes a b n).vio = s.vio := rfl
@[simp] theorem State.copyBytes_out (a b n : Nat) : (s.copyBytes a b n).out = s.out := rfl
@[simp] theorem State.copyBytes_host (a b n : Nat) : (s.copyBytes a b n).host = s.host := rfl
@[simp] theorem State.copyBytes_boot (a b n : Nat) : (s.copyBytes a b n).boot = s.boot := rfl
@[simp] theorem State.copyBytes_gov (a b n : Nat) : (s.copyBytes a b n).gov = s.gov := rfl
@[simp] theorem State.copyBytes_sec (a b n : Nat) : (s.copyBytes a b n).sec = s.sec := rfl
@[simp] theorem State.copyBytes_test (a b n : Nat) : (s.copyBytes a b n).test = s.test := rfl
@[simp] theorem State.copyBytes_cores (a b n : Nat) : (s.copyBytes a b n).cores = s.cores := rfl
@[simp] theorem State.copyBytes_sched (a b n : Nat) : (s.copyBytes a b n).sched = s.sched := rfl
@[simp] theorem State.copyBytes_units (a b n : Nat) : (s.copyBytes a b n).units = s.units := rfl
@[simp] theorem State.reg_copyBytes (a b n : Nat) (x : Nat) : (s.copyBytes a b n).reg x = s.reg x := rfl
@[simp] theorem State.fld_copyBytes (a b n : Nat) (x : Field) : (s.copyBytes a b n).fld x = s.fld x := rfl
@[simp] theorem State.flag_copyBytes (a b n : Nat) (x : Field) : (s.copyBytes a b n).flag x = s.flag x := rfl
@[simp] theorem State.ready_copyBytes (a b n : Nat) (x : Nat) : (s.copyBytes a b n).ready x = s.ready x := rfl
@[simp] theorem State.core_copyBytes (a b n : Nat) (x : Nat) : (s.copyBytes a b n).core x = s.core x := rfl
@[simp] theorem State.ctx_copyBytes (a b n : Nat) (x : Site) : (s.copyBytes a b n).ctx x = s.ctx x := rfl
@[simp] theorem State.sem_copyBytes (a b n : Nat) (x y : Nat) : (s.copyBytes a b n).sem x y = s.sem x y := rfl
@[simp] theorem State.qp_copyBytes (a b n : Nat) (x : Nat) : (s.copyBytes a b n).qp x = s.qp x := rfl
@[simp] theorem State.vioLog_copyBytes (a b n : Nat) (x : Nat) : (s.copyBytes a b n).vioLog x = s.vioLog x := rfl

/-! ### zeroBytes -/

@[simp] theorem State.zeroBytes_pending (a n : Nat) : (s.zeroBytes a n).pending = s.pending := rfl
@[simp] theorem State.zeroBytes_time (a n : Nat) : (s.zeroBytes a n).time = s.time := rfl
@[simp] theorem State.zeroBytes_free (a n : Nat) : (s.zeroBytes a n).free = s.free := rfl
@[simp] theorem State.zeroBytes_regs (a n : Nat) : (s.zeroBytes a n).regs = s.regs := rfl
@[simp] theorem State.zeroBytes_eccMask (a n : Nat) : (s.zeroBytes a n).eccMask = s.eccMask := rfl
@[simp] theorem State.zeroBytes_eccDead (a n : Nat) : (s.zeroBytes a n).eccDead = s.eccDead := rfl
@[simp] theorem State.zeroBytes_msBad (a n : Nat) : (s.zeroBytes a n).msBad = s.msBad := rfl
@[simp] theorem State.zeroBytes_vio (a n : Nat) : (s.zeroBytes a n).vio = s.vio := rfl
@[simp] theorem State.zeroBytes_out (a n : Nat) : (s.zeroBytes a n).out = s.out := rfl
@[simp] theorem State.zeroBytes_host (a n : Nat) : (s.zeroBytes a n).host = s.host := rfl
@[simp] theorem State.zeroBytes_boot (a n : Nat) : (s.zeroBytes a n).boot = s.boot := rfl
@[simp] theorem State.zeroBytes_gov (a n : Nat) : (s.zeroBytes a n).gov = s.gov := rfl
@[simp] theorem State.zeroBytes_sec (a n : Nat) : (s.zeroBytes a n).sec = s.sec := rfl
@[simp] theorem State.zeroBytes_test (a n : Nat) : (s.zeroBytes a n).test = s.test := rfl
@[simp] theorem State.zeroBytes_cores (a n : Nat) : (s.zeroBytes a n).cores = s.cores := rfl
@[simp] theorem State.zeroBytes_sched (a n : Nat) : (s.zeroBytes a n).sched = s.sched := rfl
@[simp] theorem State.zeroBytes_units (a n : Nat) : (s.zeroBytes a n).units = s.units := rfl
@[simp] theorem State.reg_zeroBytes (a n : Nat) (x : Nat) : (s.zeroBytes a n).reg x = s.reg x := rfl
@[simp] theorem State.fld_zeroBytes (a n : Nat) (x : Field) : (s.zeroBytes a n).fld x = s.fld x := rfl
@[simp] theorem State.flag_zeroBytes (a n : Nat) (x : Field) : (s.zeroBytes a n).flag x = s.flag x := rfl
@[simp] theorem State.ready_zeroBytes (a n : Nat) (x : Nat) : (s.zeroBytes a n).ready x = s.ready x := rfl
@[simp] theorem State.core_zeroBytes (a n : Nat) (x : Nat) : (s.zeroBytes a n).core x = s.core x := rfl
@[simp] theorem State.ctx_zeroBytes (a n : Nat) (x : Site) : (s.zeroBytes a n).ctx x = s.ctx x := rfl
@[simp] theorem State.sem_zeroBytes (a n : Nat) (x y : Nat) : (s.zeroBytes a n).sem x y = s.sem x y := rfl
@[simp] theorem State.qp_zeroBytes (a n : Nat) (x : Nat) : (s.zeroBytes a n).qp x = s.qp x := rfl
@[simp] theorem State.vioLog_zeroBytes (a n : Nat) (x : Nat) : (s.zeroBytes a n).vioLog x = s.vioLog x := rfl

/-! ### setCore -/

@[simp] theorem State.setCore_pending (n : Nat) (c : Core) : (s.setCore n c).pending = s.pending := rfl
@[simp] theorem State.setCore_time (n : Nat) (c : Core) : (s.setCore n c).time = s.time := rfl
@[simp] theorem State.setCore_free (n : Nat) (c : Core) : (s.setCore n c).free = s.free := rfl
@[simp] theorem State.setCore_regs (n : Nat) (c : Core) : (s.setCore n c).regs = s.regs := rfl
@[simp] theorem State.setCore_mem (n : Nat) (c : Core) : (s.setCore n c).mem = s.mem := rfl
@[simp] theorem State.setCore_eccMask (n : Nat) (c : Core) : (s.setCore n c).eccMask = s.eccMask := rfl
@[simp] theorem State.setCore_eccDead (n : Nat) (c : Core) : (s.setCore n c).eccDead = s.eccDead := rfl
@[simp] theorem State.setCore_msBad (n : Nat) (c : Core) : (s.setCore n c).msBad = s.msBad := rfl
@[simp] theorem State.setCore_vio (n : Nat) (c : Core) : (s.setCore n c).vio = s.vio := rfl
@[simp] theorem State.setCore_out (n : Nat) (c : Core) : (s.setCore n c).out = s.out := rfl
@[simp] theorem State.setCore_host (n : Nat) (c : Core) : (s.setCore n c).host = s.host := rfl
@[simp] theorem State.setCore_boot (n : Nat) (c : Core) : (s.setCore n c).boot = s.boot := rfl
@[simp] theorem State.setCore_gov (n : Nat) (c : Core) : (s.setCore n c).gov = s.gov := rfl
@[simp] theorem State.setCore_sec (n : Nat) (c : Core) : (s.setCore n c).sec = s.sec := rfl
@[simp] theorem State.setCore_test (n : Nat) (c : Core) : (s.setCore n c).test = s.test := rfl
@[simp] theorem State.setCore_sched (n : Nat) (c : Core) : (s.setCore n c).sched = s.sched := rfl
@[simp] theorem State.setCore_units (n : Nat) (c : Core) : (s.setCore n c).units = s.units := rfl
@[simp] theorem State.reg_setCore (n : Nat) (c : Core) (x : Nat) : (s.setCore n c).reg x = s.reg x := rfl
@[simp] theorem State.fld_setCore (n : Nat) (c : Core) (x : Field) : (s.setCore n c).fld x = s.fld x := rfl
@[simp] theorem State.flag_setCore (n : Nat) (c : Core) (x : Field) : (s.setCore n c).flag x = s.flag x := rfl
@[simp] theorem State.ready_setCore (n : Nat) (c : Core) (x : Nat) : (s.setCore n c).ready x = s.ready x := rfl
@[simp] theorem State.byte_setCore (n : Nat) (c : Core) (x : Nat) : (s.setCore n c).byte x = s.byte x := rfl
@[simp] theorem State.bytes_setCore (n : Nat) (c : Core) (x y : Nat) : (s.setCore n c).bytes x y = s.bytes x y := rfl
@[simp] theorem State.num_setCore (n : Nat) (c : Core) (x y : Nat) : (s.setCore n c).num x y = s.num x y := rfl
@[simp] theorem State.qp_setCore (n : Nat) (c : Core) (x : Nat) : (s.setCore n c).qp x = s.qp x := rfl
@[simp] theorem State.vioLog_setCore (n : Nat) (c : Core) (x : Nat) : (s.setCore n c).vioLog x = s.vioLog x := rfl

/-! ### setCtx -/

@[simp] theorem State.setCtx_pending (t : Site) (c : Ctx) : (s.setCtx t c).pending = s.pending := rfl
@[simp] theorem State.setCtx_time (t : Site) (c : Ctx) : (s.setCtx t c).time = s.time := rfl
@[simp] theorem State.setCtx_free (t : Site) (c : Ctx) : (s.setCtx t c).free = s.free := rfl
@[simp] theorem State.setCtx_regs (t : Site) (c : Ctx) : (s.setCtx t c).regs = s.regs := rfl
@[simp] theorem State.setCtx_mem (t : Site) (c : Ctx) : (s.setCtx t c).mem = s.mem := rfl
@[simp] theorem State.setCtx_eccMask (t : Site) (c : Ctx) : (s.setCtx t c).eccMask = s.eccMask := rfl
@[simp] theorem State.setCtx_eccDead (t : Site) (c : Ctx) : (s.setCtx t c).eccDead = s.eccDead := rfl
@[simp] theorem State.setCtx_msBad (t : Site) (c : Ctx) : (s.setCtx t c).msBad = s.msBad := rfl
@[simp] theorem State.setCtx_vio (t : Site) (c : Ctx) : (s.setCtx t c).vio = s.vio := rfl
@[simp] theorem State.setCtx_out (t : Site) (c : Ctx) : (s.setCtx t c).out = s.out := rfl
@[simp] theorem State.setCtx_host (t : Site) (c : Ctx) : (s.setCtx t c).host = s.host := rfl
@[simp] theorem State.setCtx_boot (t : Site) (c : Ctx) : (s.setCtx t c).boot = s.boot := rfl
@[simp] theorem State.setCtx_gov (t : Site) (c : Ctx) : (s.setCtx t c).gov = s.gov := rfl
@[simp] theorem State.setCtx_sec (t : Site) (c : Ctx) : (s.setCtx t c).sec = s.sec := rfl
@[simp] theorem State.setCtx_test (t : Site) (c : Ctx) : (s.setCtx t c).test = s.test := rfl
@[simp] theorem State.setCtx_sched (t : Site) (c : Ctx) : (s.setCtx t c).sched = s.sched := rfl
@[simp] theorem State.setCtx_units (t : Site) (c : Ctx) : (s.setCtx t c).units = s.units := rfl
@[simp] theorem State.reg_setCtx (t : Site) (c : Ctx) (x : Nat) : (s.setCtx t c).reg x = s.reg x := rfl
@[simp] theorem State.fld_setCtx (t : Site) (c : Ctx) (x : Field) : (s.setCtx t c).fld x = s.fld x := rfl
@[simp] theorem State.flag_setCtx (t : Site) (c : Ctx) (x : Field) : (s.setCtx t c).flag x = s.flag x := rfl
@[simp] theorem State.ready_setCtx (t : Site) (c : Ctx) (x : Nat) : (s.setCtx t c).ready x = s.ready x := rfl
@[simp] theorem State.byte_setCtx (t : Site) (c : Ctx) (x : Nat) : (s.setCtx t c).byte x = s.byte x := rfl
@[simp] theorem State.bytes_setCtx (t : Site) (c : Ctx) (x y : Nat) : (s.setCtx t c).bytes x y = s.bytes x y := rfl
@[simp] theorem State.num_setCtx (t : Site) (c : Ctx) (x y : Nat) : (s.setCtx t c).num x y = s.num x y := rfl
@[simp] theorem State.qp_setCtx (t : Site) (c : Ctx) (x : Nat) : (s.setCtx t c).qp x = s.qp x := rfl
@[simp] theorem State.vioLog_setCtx (t : Site) (c : Ctx) (x : Nat) : (s.setCtx t c).vioLog x = s.vioLog x := rfl

/-! ### setSem -/

@[simp] theorem State.setSem_pending (n i v : Nat) : (s.setSem n i v).pending = s.pending := rfl
@[simp] theorem State.setSem_time (n i v : Nat) : (s.setSem n i v).time = s.time := rfl
@[simp] theorem State.setSem_free (n i v : Nat) : (s.setSem n i v).free = s.free := rfl
@[simp] theorem State.setSem_regs (n i v : Nat) : (s.setSem n i v).regs = s.regs := rfl
@[simp] theorem State.setSem_mem (n i v : Nat) : (s.setSem n i v).mem = s.mem := rfl
@[simp] theorem State.setSem_eccMask (n i v : Nat) : (s.setSem n i v).eccMask = s.eccMask := rfl
@[simp] theorem State.setSem_eccDead (n i v : Nat) : (s.setSem n i v).eccDead = s.eccDead := rfl
@[simp] theorem State.setSem_msBad (n i v : Nat) : (s.setSem n i v).msBad = s.msBad := rfl
@[simp] theorem State.setSem_vio (n i v : Nat) : (s.setSem n i v).vio = s.vio := rfl
@[simp] theorem State.setSem_out (n i v : Nat) : (s.setSem n i v).out = s.out := rfl
@[simp] theorem State.setSem_host (n i v : Nat) : (s.setSem n i v).host = s.host := rfl
@[simp] theorem State.setSem_boot (n i v : Nat) : (s.setSem n i v).boot = s.boot := rfl
@[simp] theorem State.setSem_gov (n i v : Nat) : (s.setSem n i v).gov = s.gov := rfl
@[simp] theorem State.setSem_sec (n i v : Nat) : (s.setSem n i v).sec = s.sec := rfl
@[simp] theorem State.setSem_test (n i v : Nat) : (s.setSem n i v).test = s.test := rfl
@[simp] theorem State.setSem_sched (n i v : Nat) : (s.setSem n i v).sched = s.sched := rfl
@[simp] theorem State.setSem_units (n i v : Nat) : (s.setSem n i v).units = s.units := rfl
@[simp] theorem State.reg_setSem (n i v : Nat) (x : Nat) : (s.setSem n i v).reg x = s.reg x := rfl
@[simp] theorem State.fld_setSem (n i v : Nat) (x : Field) : (s.setSem n i v).fld x = s.fld x := rfl
@[simp] theorem State.flag_setSem (n i v : Nat) (x : Field) : (s.setSem n i v).flag x = s.flag x := rfl
@[simp] theorem State.ready_setSem (n i v : Nat) (x : Nat) : (s.setSem n i v).ready x = s.ready x := rfl
@[simp] theorem State.byte_setSem (n i v : Nat) (x : Nat) : (s.setSem n i v).byte x = s.byte x := rfl
@[simp] theorem State.bytes_setSem (n i v : Nat) (x y : Nat) : (s.setSem n i v).bytes x y = s.bytes x y := rfl
@[simp] theorem State.num_setSem (n i v : Nat) (x y : Nat) : (s.setSem n i v).num x y = s.num x y := rfl
@[simp] theorem State.qp_setSem (n i v : Nat) (x : Nat) : (s.setSem n i v).qp x = s.qp x := rfl
@[simp] theorem State.vioLog_setSem (n i v : Nat) (x : Nat) : (s.setSem n i v).vioLog x = s.vioLog x := rfl

end Sys2Proof.Machine
end

