-- ==== Sys2Proof/Laws/Regs.lean ====
section
/-! SUPPORT. Laws of registers and their fields: a read after a write, in the same field, in another, in another register. -/

namespace Sys2Proof.Machine

/-! ### Fields of a word -/

theorem bits_lt (v hi lo : Nat) : bits v hi lo < 2 ^ (hi + 1 - lo) := Nat.mod_lt _ (Nat.two_pow_pos _)

theorem bits_eq (v hi lo : Nat) : bits v hi lo = v / 2 ^ lo % 2 ^ (hi + 1 - lo) := by
  simp only [bits, Nat.shiftRight_eq_div_pow]

theorem putBits_eq (v hi lo x : Nat) : putBits v hi lo x
    = (v / 2 ^ lo / 2 ^ (hi + 1 - lo) * 2 ^ (hi + 1 - lo) + x % 2 ^ (hi + 1 - lo)) * 2 ^ lo + v % 2 ^ lo := by
  simp only [putBits, bits_eq]
  generalize 2 ^ (hi + 1 - lo) = w
  generalize 2 ^ lo = p
  have h1 : v = p * (v / p) + v % p := (Nat.div_add_mod v p).symm
  have h2 : v / p = w * (v / p / w) + v / p % w := (Nat.div_add_mod _ w).symm
  generalize hq : v / p / w = q at *
  generalize hr : v / p % w = r at *
  generalize ht : v % p = t at *
  have h3 : v = (q * w) * p + r * p + t := by
    rw [h1, h2, Nat.mul_comm w q, Nat.mul_add, Nat.mul_comm p (q * w), Nat.mul_comm p r]
  rw [Nat.add_mul]
  omega

/-- A field reads as what was put there, cut to its width. -/
theorem bits_putBits_same (v hi lo x : Nat) : bits (putBits v hi lo x) hi lo = x % 2 ^ (hi + 1 - lo) := by
  rw [bits_eq, putBits_eq]
  have h : v % 2 ^ lo < 2 ^ lo := Nat.mod_lt _ (Nat.two_pow_pos _)
  rw [Nat.mul_comm _ (2 ^ lo), Nat.mul_add_div (Nat.two_pow_pos _), Nat.div_eq_of_lt h, Nat.add_zero, Nat.mul_comm _ (2 ^ (hi + 1 - lo)),
    Nat.mul_add_mod, Nat.mod_mod]

theorem testBit_bits (v hi lo i : Nat) : (bits v hi lo).testBit i = (decide (i < hi + 1 - lo) && v.testBit (lo + i)) := by
  simp [bits, Nat.testBit_mod_two_pow, Nat.testBit_shiftRight]

theorem testBit_putBits (v hi lo x i : Nat) : (putBits v hi lo x).testBit i
    = if i < lo then v.testBit i else if i < lo + (hi + 1 - lo) then x.testBit (i - lo) else v.testBit i := by
  rw [putBits_eq, Nat.mul_comm _ (2 ^ lo), Nat.testBit_two_pow_mul_add _ (Nat.mod_lt _ (Nat.two_pow_pos _)),
    Nat.mul_comm _ (2 ^ (hi + 1 - lo)), Nat.testBit_two_pow_mul_add _ (Nat.mod_lt _ (Nat.two_pow_pos _))]
  by_cases h : i < lo
  · simp [h, Nat.testBit_mod_two_pow]
  · by_cases h2 : i - lo < hi + 1 - lo
    · have h3 : i < lo + (hi + 1 - lo) := by omega
      simp [h, h2, h3, Nat.testBit_mod_two_pow]
    · have h3 : ¬ i < lo + (hi + 1 - lo) := by omega
      simp only [if_neg h, if_neg h2, if_neg h3]
      rw [← Nat.shiftRight_eq_div_pow, ← Nat.shiftRight_eq_div_pow, Nat.testBit_shiftRight, Nat.testBit_shiftRight]
      congr 1
      omega

/-- Another field of the same number keeps its value. -/
theorem bits_putBits_other (v hi lo x hi' lo' : Nat) (h : hi' < lo ∨ hi < lo') :
    bits (putBits v hi lo x) hi' lo' = bits v hi' lo' := by
  apply Nat.eq_of_testBit_eq
  intro i
  rw [testBit_bits, testBit_bits, testBit_putBits]
  by_cases hi1 : i < hi' + 1 - lo'
  · have : lo' + i < lo ∨ ¬ lo' + i < lo ∧ ¬ lo' + i < lo + (hi + 1 - lo) := by omega
    rcases this with h1 | ⟨h1, h2⟩ <;> simp [*]
  · simp [hi1]

theorem bits_mod64 (n hi lo : Nat) (h : hi < 64) : bits (n % 2 ^ 64) hi lo = bits n hi lo := by
  apply Nat.eq_of_testBit_eq
  intro i
  rw [testBit_bits, testBit_bits, Nat.testBit_mod_two_pow]
  by_cases hi1 : i < hi + 1 - lo
  · have : lo + i < 64 := by omega
    simp [this]
  · simp [hi1]

theorem wget_lt (v : Word) (hi lo : Nat) : wget v hi lo < 2 ^ (hi + 1 - lo) := bits_lt _ _ _

theorem wget_wput_same (v : Word) (hi lo x : Nat) (h : hi < 64) : wget (wput v hi lo x) hi lo = x % 2 ^ (hi + 1 - lo) := by
  rw [wget, wput, BitVec.toNat_ofNat, bits_mod64 _ _ _ h, bits_putBits_same]

theorem wget_wput_other (v : Word) (hi lo x hi' lo' : Nat) (h' : hi' < 64) (h : hi' < lo ∨ hi < lo') :
    wget (wput v hi lo x) hi' lo' = wget v hi' lo' := by
  rw [wget, wput, BitVec.toNat_ofNat, bits_mod64 _ _ _ h', bits_putBits_other _ _ _ _ _ _ h, wget]

/-! ### Registers -/

theorem SMap.find_insert_same {α : Type} (m : List (Nat × α)) (a : Nat) (x : α) : SMap.find (SMap.insert m a x) a = some x := by
  induction m with
  | nil => simp [SMap.insert, SMap.find]
  | cons p l ih =>
    simp only [SMap.insert]
    split
    · simp [SMap.find]
    · split
      · simp [SMap.find]
      · simp [SMap.find, *]

theorem SMap.find_insert_ne {α : Type} (m : List (Nat × α)) {a b : Nat} (x : α) (h : b ≠ a) :
    SMap.find (SMap.insert m a x) b = SMap.find m b := by
  induction m with
  | nil => simp [SMap.insert, SMap.find, h]
  | cons p l ih =>
    simp only [SMap.insert]
    split
    · simp [SMap.find, h]
    · split
      · next h2 => simp [SMap.find, h, ← h2]
      · simp [SMap.find, ih]

theorem SMap.find_erase_ne {α : Type} (m : List (Nat × α)) {a b : Nat} (h : b ≠ a) :
    SMap.find (SMap.erase m a) b = SMap.find m b := by
  induction m with
  | nil => rfl
  | cons p l ih =>
    simp only [SMap.erase]
    split
    · next h2 => simp [SMap.find, h, ← h2]
    · simp [SMap.find, ih]

/-- A write of one register leaves every other as it was. -/
theorem State.reg_setReg_ne (s : State) {a b : Nat} (w : Word) (h : b ≠ a) : (s.setReg a w).reg b = s.reg b := by
  simp only [State.reg, State.setReg, State.withRegs]
  split
  · rw [SMap.find_erase_ne _ h]
  · rw [SMap.find_insert_ne _ _ h]

/-- A register reads as it was written, where its reset value is written only if each register is listed once. -/
theorem State.reg_setReg_same (s : State) (a : Nat) (w : Word) (h : w = regReset a → s.regsOk = true) :
    (s.setReg a w).reg a = w := by
  simp only [State.reg, State.setReg, State.withRegs]
  split
  · next hw =>
    have : SMap.find (SMap.erase s.regs a) a = none := by
      have h1 := h hw
      simp only [State.regsOk] at h1
      revert h1
      generalize s.regs = m
      generalize 0 = b
      intro h1
      induction m generalizing b with
      | nil => rfl
      | cons p l ih =>
        simp only [regsUp, Bool.and_eq_true, decide_eq_true_eq] at h1
        simp only [SMap.erase]
        split
        · next h2 =>
          have : ∀ (m : List (Nat × Word)) (b : Nat), regsUp b m = true → a < b → SMap.find m a = none := by
            intro m
            induction m with
            | nil => intros; rfl
            | cons q m ih2 =>
              intro b hb hab
              simp only [regsUp, Bool.and_eq_true, decide_eq_true_eq] at hb
              have hne : a ≠ q.1 := by omega
              simp only [SMap.find, if_neg hne]
              exact ih2 _ hb.2 (by omega)
          exact this l _ h1.2 (by omega)
        · simp only [SMap.find, if_neg ‹_›]
          exact ih _ h1.2
    rw [this, hw]; rfl
  · rw [SMap.find_insert_same]; rfl

/-- A write keeps the list of registers canonical. -/
theorem State.regsOk_setReg (s : State) (a : Nat) (w : Word) (h : s.regsOk = true) : (s.setReg a w).regsOk = true := by
  simp only [State.regsOk, State.setReg, State.withRegs] at *
  revert h
  generalize s.regs = m
  have key : ∀ (m : List (Nat × Word)) (b : Nat), regsUp b m = true → b ≤ a →
      regsUp b (if w = regReset a then SMap.erase m a else SMap.insert m a w) = true := by
    intro m
    induction m with
    | nil =>
      intro b _ hb
      split
      · rfl
      · simp [SMap.insert, regsUp, *]
    | cons p l ih =>
      intro b h hb
      have h0 := h
      simp only [regsUp, Bool.and_eq_true, decide_eq_true_eq] at h
      split
      · next hw =>
        simp only [SMap.erase]
        split
        · next h2 =>
          have mono : ∀ (m : List (Nat × Word)) (b c : Nat), b ≤ c → regsUp c m = true → regsUp b m = true := by
            intro m b c hbc hm
            cases m with
            | nil => rfl
            | cons q m =>
              simp only [regsUp, Bool.and_eq_true, decide_eq_true_eq] at hm ⊢
              exact ⟨⟨by omega, hm.1.2⟩, hm.2⟩
          exact mono _ _ _ (by omega) h.2
        · simp only [regsUp, Bool.and_eq_true, decide_eq_true_eq]
          refine ⟨h.1, ?_⟩
          by_cases ha : p.1 + 1 ≤ a
          · have := ih _ h.2 ha
            rwa [if_pos hw] at this
          · have hlt : a < p.1 + 1 := by omega
            have out : ∀ (m : List (Nat × Word)) (b : Nat), regsUp b m = true → a < b → SMap.erase m a = m := by
              intro m
              induction m with
              | nil => intros; rfl
              | cons q m ih2 =>
                intro b hb hab
                simp only [regsUp, Bool.and_eq_true, decide_eq_true_eq] at hb
                have hne : a ≠ q.1 := by omega
                simp only [SMap.erase, if_neg hne]
                rw [ih2 _ hb.2 (by omega)]
            rw [out _ _ h.2 hlt]; exact h.2
      · next hw =>
        simp only [SMap.insert]
        split
        · simp only [regsUp, Bool.and_eq_true, decide_eq_true_eq]
          exact ⟨⟨hb, by simp [hw]⟩, ⟨by omega, h.1.2⟩, h.2⟩
        · split
          · next h2 =>
            simp only [regsUp, Bool.and_eq_true, decide_eq_true_eq]
            exact ⟨⟨hb, by simp [hw]⟩, by rw [h2]; exact h.2⟩
          · simp only [regsUp, Bool.and_eq_true, decide_eq_true_eq]
            refine ⟨h.1, ?_⟩
            have := ih _ h.2 (by omega)
            rwa [if_neg hw] at this
  intro h
  exact key m 0 h (Nat.zero_le a)

/-! ### Fields of registers -/

/-- Another register's field keeps its value. -/
theorem State.fld_setReg_ne (s : State) (f : Field) {a : Nat} (w : Word) (h : f.reg ≠ a) : (s.setReg a w).fld f = s.fld f := by
  simp only [State.fld, State.reg_setReg_ne s w h]

theorem State.fld_setFld_ne (s : State) {f g : Field} (x : Nat) (h : g.reg ≠ f.reg) : (s.setFld f x).fld g = s.fld g :=
  State.fld_setReg_ne s g _ h

theorem State.reg_setFld_ne (s : State) {f : Field} {b : Nat} (x : Nat) (h : b ≠ f.reg) : (s.setFld f x).reg b = s.reg b :=
  State.reg_setReg_ne s _ h

theorem State.reg_setFld_same (s : State) (f : Field) (x : Nat) (hs : s.regsOk = true) :
    (s.setFld f x).reg f.reg = wput (s.reg f.reg) f.hi f.lo x := State.reg_setReg_same s _ _ (fun _ => hs)

/-- A field reads as what was put there. -/
theorem State.fld_setFld_same (s : State) (f : Field) (x : Nat) (hs : s.regsOk = true) (hf : f.hi < 64)
    (hx : x < 2 ^ (f.hi + 1 - f.lo)) : (s.setFld f x).fld f = x := by
  rw [State.fld, State.reg_setFld_same s f x hs, wget_wput_same _ _ _ _ hf, Nat.mod_eq_of_lt hx]

/-- Another field of the same register keeps its value. -/
theorem State.fld_setFld_other (s : State) (f g : Field) (x : Nat) (hs : s.regsOk = true) (hg : g.hi < 64)
    (h : g.hi < f.lo ∨ f.hi < g.lo) : (s.setFld f x).fld g = s.fld g := by
  by_cases hr : g.reg = f.reg
  · rw [State.fld, State.fld, hr, State.reg_setFld_same s f x hs, wget_wput_other _ _ _ _ _ _ hg h]
  · exact State.fld_setFld_ne s x hr

theorem State.regsOk_setFld (s : State) (f : Field) (x : Nat) (h : s.regsOk = true) : (s.setFld f x).regsOk = true :=
  State.regsOk_setReg s _ _ h

end Sys2Proof.Machine
end

