-- ==== Sys2Proof/Laws/Keeps.lean ====
section
/-! SUPPORT. How `Keeps` is shown: it holds of a state and itself, along a chain of operations, in both branches of a choice and
over a list; and each replacement of one part of the state keeps the others. -/

namespace Sys2Proof.Machine

variable {k : List Part} {s t : State}

theorem Part.same_refl (p : Part) (s : State) : p.same s s := by cases p <;> simp [Part.same]

theorem Part.same_trans {p : Part} {s t u : State} (h : p.same s t) (h' : p.same t u) : p.same s u := by
  cases p <;> simp_all [Part.same]

theorem Part.sub_refl (k : List Part) : k.all k.contains = true :=
  List.all_eq_true.mpr (fun _ hx => List.contains_iff_mem.mpr hx)

theorem Part.sub_trans {a b c : List Part} (h : a.all b.contains = true) (h' : b.all c.contains = true) :
    a.all c.contains = true := by
  rw [List.all_eq_true] at *
  exact fun x hx => h' x (List.contains_iff_mem.mp (h x hx))

theorem Keeps.refl (k : List Part) (s : State) : Keeps k s s := ⟨fun p _ => p.same_refl s, rfl, id, id⟩

/-- An operation that keeps no fewer parts may follow. -/
theorem Keeps.after {k' : List Part} {u : State} (h : Keeps k' t u) (hk : k'.all k.contains = true) (h0 : Keeps k s t) :
    Keeps k s u := by
  refine ⟨fun p hp => Part.same_trans (h0.same p hp) (h.same p ?_), h.pending.trans h0.pending, h.memWf ∘ h0.memWf,
    h.regsOk ∘ h0.regsOk⟩
  cases hc : k'.contains p with
  | false => rfl
  | true =>
    rw [List.all_eq_true] at hk
    rw [hk p (List.contains_iff_mem.mp hc)] at hp
    cases hp

theorem Keeps.ite {c : Prop} [Decidable c] {a b : State} (h1 : Keeps k s a) (h2 : Keeps k s b) :
    Keeps k s (if c then a else b) := by
  split <;> assumption

theorem Keeps.ite_snd {α : Type} {c : Prop} [Decidable c] {a b : α × State} (h1 : Keeps k s a.2) (h2 : Keeps k s b.2) :
    Keeps k s (if c then a else b).2 := by
  split <;> assumption

theorem Keeps.ite_snd2 {α β : Type} {c : Prop} [Decidable c] {a b : α × β × State} (h1 : Keeps k s a.2.2)
    (h2 : Keeps k s b.2.2) : Keeps k s (if c then a else b).2.2 := by
  split <;> assumption

theorem Keeps.ite_snd3 {α β γ : Type} {c : Prop} [Decidable c] {a b : α × β × γ × State} (h1 : Keeps k s a.2.2.2)
    (h2 : Keeps k s b.2.2.2) : Keeps k s (if c then a else b).2.2.2 := by
  split <;> assumption

theorem Keeps.snd_mk {α : Type} {a : α} (h : Keeps k s t) : Keeps k s (a, t).2 := h

/-- The state that a pair or a triple was taken apart into. -/
theorem Keeps.of_eq {α : Type} {p : α × State} {a : α} (he : p = (a, t)) (h : Keeps k s p.2) : Keeps k s t := by
  rw [he] at h; exact h

theorem Keeps.of_eq3 {α β : Type} {p : α × β × State} {a : α} {b : β} (he : p = (a, b, t)) (h : Keeps k s p.2.2) :
    Keeps k s t := by
  rw [he] at h; exact h

theorem Keeps.foldl {β : Type} {f : State → β → State} {l : List β} (hf : ∀ t x, Keeps k s t → Keeps k s (f t x))
    (h0 : Keeps k s t) : Keeps k s (l.foldl f t) := by
  induction l generalizing t with
  | nil => exact h0
  | cons x l ih => exact ih (hf _ _ h0)

theorem Keeps.foldl_fst {α β : Type} {f : State × α → β → State × α} {l : List β} {t : State × α}
    (hf : ∀ t x, Keeps k s t.1 → Keeps k s (f t x).1) (h0 : Keeps k s t.1) : Keeps k s (l.foldl f t).1 := by
  induction l generalizing t with
  | nil => exact h0
  | cons x l ih => exact ih (hf _ _ h0)

theorem Keeps.foldl_snd {α β : Type} {f : α × State → β → α × State} {l : List β} {t : α × State}
    (hf : ∀ t x, Keeps k s t.2 → Keeps k s (f t x).2) (h0 : Keeps k s t.2) : Keeps k s (l.foldl f t).2 := by
  induction l generalizing t with
  | nil => exact h0
  | cons x l ih => exact ih (hf _ _ h0)

theorem State.withTime_keeps (s : State) (x : BitVec 64) : Keeps [.time] s (s.withTime x) :=
  ⟨fun p hp => by cases p <;> first | rfl | exact ⟨rfl, rfl, rfl⟩ | exact absurd hp (by decide), rfl, id, id⟩

theorem State.withFree_keeps (s : State) (x : Nat) : Keeps [.free] s (s.withFree x) :=
  ⟨fun p hp => by cases p <;> first | rfl | exact ⟨rfl, rfl, rfl⟩ | exact absurd hp (by decide), rfl, id, id⟩

theorem State.withRegs_keeps (s : State) (x : List (Nat × Word)) (h : s.regsOk = true → regsUp 0 x = true) : Keeps [.regs] s (s.withRegs x) :=
  ⟨fun p hp => by cases p <;> first | rfl | exact ⟨rfl, rfl, rfl⟩ | exact absurd hp (by decide), rfl, id, h⟩

theorem State.withMem_keeps (s : State) (x : List (Nat × Byte)) (h : s.memWf = true → SMap.wf (0 : Byte) x = true) : Keeps [.mem] s (s.withMem x) :=
  ⟨fun p hp => by cases p <;> first | rfl | exact ⟨rfl, rfl, rfl⟩ | exact absurd hp (by decide), rfl, h, id⟩

theorem State.withEccMask_keeps (s : State) (x : List (Nat × Nat)) : Keeps [.ecc] s (s.withEccMask x) :=
  ⟨fun p hp => by cases p <;> first | rfl | exact ⟨rfl, rfl, rfl⟩ | exact absurd hp (by decide), rfl, id, id⟩

theorem State.withEccDead_keeps (s : State) (x : List Nat) : Keeps [.ecc] s (s.withEccDead x) :=
  ⟨fun p hp => by cases p <;> first | rfl | exact ⟨rfl, rfl, rfl⟩ | exact absurd hp (by decide), rfl, id, id⟩

theorem State.withMsBad_keeps (s : State) (x : List Nat) : Keeps [.ecc] s (s.withMsBad x) :=
  ⟨fun p hp => by cases p <;> first | rfl | exact ⟨rfl, rfl, rfl⟩ | exact absurd hp (by decide), rfl, id, id⟩

theorem State.withVio_keeps (s : State) (x : List (Nat × VioLog)) : Keeps [.vio] s (s.withVio x) :=
  ⟨fun p hp => by cases p <;> first | rfl | exact ⟨rfl, rfl, rfl⟩ | exact absurd hp (by decide), rfl, id, id⟩

theorem State.withOut_keeps (s : State) (x : List Out) : Keeps [.out] s (s.withOut x) :=
  ⟨fun p hp => by cases p <;> first | rfl | exact ⟨rfl, rfl, rfl⟩ | exact absurd hp (by decide), rfl, id, id⟩

theorem State.withHost_keeps (s : State) (x : HostState) : Keeps [.host] s (s.withHost x) :=
  ⟨fun p hp => by cases p <;> first | rfl | exact ⟨rfl, rfl, rfl⟩ | exact absurd hp (by decide), rfl, id, id⟩

theorem State.withBoot_keeps (s : State) (x : Boot) : Keeps [.boot] s (s.withBoot x) :=
  ⟨fun p hp => by cases p <;> first | rfl | exact ⟨rfl, rfl, rfl⟩ | exact absurd hp (by decide), rfl, id, id⟩

theorem State.withGov_keeps (s : State) (x : Governor) : Keeps [.gov] s (s.withGov x) :=
  ⟨fun p hp => by cases p <;> first | rfl | exact ⟨rfl, rfl, rfl⟩ | exact absurd hp (by decide), rfl, id, id⟩

theorem State.withSec_keeps (s : State) (x : Security) : Keeps [.sec] s (s.withSec x) :=
  ⟨fun p hp => by cases p <;> first | rfl | exact ⟨rfl, rfl, rfl⟩ | exact absurd hp (by decide), rfl, id, id⟩

theorem State.withTest_keeps (s : State) (x : TestState) : Keeps [.test] s (s.withTest x) :=
  ⟨fun p hp => by cases p <;> first | rfl | exact ⟨rfl, rfl, rfl⟩ | exact absurd hp (by decide), rfl, id, id⟩

theorem State.withCores_keeps (s : State) (x : List (Nat × Core)) : Keeps [.cores] s (s.withCores x) :=
  ⟨fun p hp => by cases p <;> first | rfl | exact ⟨rfl, rfl, rfl⟩ | exact absurd hp (by decide), rfl, id, id⟩

theorem State.withSched_keeps (s : State) (x : Sched) : Keeps [.sched] s (s.withSched x) :=
  ⟨fun p hp => by cases p <;> first | rfl | exact ⟨rfl, rfl, rfl⟩ | exact absurd hp (by decide), rfl, id, id⟩

theorem State.withUnits_keeps (s : State) (x : Units) : Keeps [.units] s (s.withUnits x) :=
  ⟨fun p hp => by cases p <;> first | rfl | exact ⟨rfl, rfl, rfl⟩ | exact absurd hp (by decide), rfl, id, id⟩

/-! ### The operations on registers and memory -/

theorem State.setReg_keeps (s : State) (a : Nat) (w : Word) : Keeps [.regs] s (s.setReg a w) :=
  State.withRegs_keeps s _ (fun h => State.regsOk_setReg s a w h)

theorem State.putBytes_keeps (s : State) (a : Nat) (l : List Byte) : Keeps [.mem] s (s.putBytes a l) :=
  State.withMem_keeps s _ (fun h => SMap.wf_putList l a h)

theorem State.copyBytes_keeps (s : State) (src dst n : Nat) : Keeps [.mem] s (s.copyBytes src dst n) :=
  State.withMem_keeps s _ (fun h => SMap.wf_copy _ src dst n h)

theorem State.zeroBytes_keeps (s : State) (a n : Nat) : Keeps [.mem] s (s.zeroBytes a n) :=
  State.withMem_keeps s _ (fun h => SMap.wf_clear a n h)

end Sys2Proof.Machine
end

