-- ==== Sys2Proof/Laws/KeepsOps.lean ====
section
/-! SUPPORT. What the operations of Machine/Ops.lean may change: one law each. -/

namespace Sys2Proof.Machine

theorem State.setFld_keeps (s : State) (f : Field) (x : Nat) : Keeps [.regs] s (State.setFld s f x) := by
  unfold State.setFld
  try dsimp only
  repeat' (first
    | with_reducible exact Keeps.refl _ _
    | with_reducible assumption
    | ((with_reducible apply Keeps.after (State.setReg_keeps ..)); decide)
    | split)

theorem State.putRw_keeps (s : State) (a : Nat) (v : Word) : Keeps [.regs] s (State.putRw s a v) := by
  unfold State.putRw
  try dsimp only
  repeat' (first
    | with_reducible exact Keeps.refl _ _
    | with_reducible assumption
    | ((with_reducible apply Keeps.after (State.setReg_keeps ..)); decide)
    | split)

theorem State.bump_keeps (s : State) (cnt sat : Field) (n : Nat) : Keeps [.regs] s (State.bump s cnt sat n) := by
  unfold State.bump
  try dsimp only
  repeat' (first
    | with_reducible exact Keeps.refl _ _
    | with_reducible assumption
    | with_reducible apply Keeps.ite
    | ((with_reducible apply Keeps.after (State.setFld_keeps ..)); decide)
    | split)

theorem State.bumpWrap_keeps (s : State) (cnt : Field) (n : Nat) : Keeps [.regs] s (State.bumpWrap s cnt n) := by
  unfold State.bumpWrap
  try dsimp only
  repeat' (first
    | with_reducible exact Keeps.refl _ _
    | with_reducible assumption
    | ((with_reducible apply Keeps.after (State.setFld_keeps ..)); decide)
    | split)

theorem State.bumpStop_keeps (s : State) (cnt : Field) (n : Nat) : Keeps [.regs] s (State.bumpStop s cnt n) := by
  unfold State.bumpStop
  try dsimp only
  repeat' (first
    | with_reducible exact Keeps.refl _ _
    | with_reducible assumption
    | ((with_reducible apply Keeps.after (State.setFld_keeps ..)); decide)
    | split)

theorem State.draw_keeps (s : State) : Keeps [.free] s (State.draw s).2 := by
  unfold State.draw
  try dsimp only
  repeat' (first
    | with_reducible exact Keeps.refl _ _
    | with_reducible assumption
    | ((with_reducible apply Keeps.after (State.withFree_keeps ..)); decide)
    | split)

theorem State.emit_keeps (s : State) (o : Out) : Keeps [.out] s (State.emit s o) := by
  unfold State.emit
  try dsimp only
  repeat' (first
    | with_reducible exact Keeps.refl _ _
    | with_reducible assumption
    | ((with_reducible apply Keeps.after (State.withOut_keeps ..)); decide)
    | split)

theorem State.trace_keeps (s : State) (ev source : Nat) (st : Status) (unit addr data : Nat) : Keeps [.regs, .test] s (State.trace s ev source st unit addr data) := by
  unfold State.trace
  try dsimp only
  repeat' (first
    | with_reducible exact Keeps.refl _ _
    | with_reducible assumption
    | with_reducible apply Keeps.ite
    | ((with_reducible apply Keeps.after (State.withTest_keeps ..)); decide)
    | ((with_reducible apply Keeps.after (State.setFld_keeps ..)); decide)
    | ((with_reducible apply Keeps.of_eq); assumption)
    | ((with_reducible apply Keeps.of_eq3); assumption)
    | split)

theorem State.perf_keeps (s : State) (ev unit n : Nat) : Keeps [.regs] s (State.perf s ev unit n) := by
  unfold State.perf
  try dsimp only
  repeat' (first
    | with_reducible exact Keeps.refl _ _
    | with_reducible assumption
    | ((with_reducible apply Keeps.after (State.bump_keeps ..)); decide)
    | with_reducible refine Keeps.foldl (fun _ _ _ => ?_) ?_
    | split)

theorem State.setQp_keeps (s : State) (n : Nat) (q : QpRun) : Keeps [.host] s (State.setQp s n q) := by
  unfold State.setQp
  try dsimp only
  repeat' (first
    | with_reducible exact Keeps.refl _ _
    | with_reducible assumption
    | ((with_reducible apply Keeps.after (State.withHost_keeps ..)); decide)
    | split)

theorem State.sendNow_keeps (s : State) (n : Nat) (c : Completion) : Keeps [.out, .host] s (State.sendNow s n c) := by
  unfold State.sendNow
  try dsimp only
  repeat' (first
    | with_reducible exact Keeps.refl _ _
    | with_reducible assumption
    | ((with_reducible apply Keeps.after (State.setQp_keeps ..)); decide)
    | ((with_reducible apply Keeps.after (State.emit_keeps ..)); decide)
    | split)

theorem State.sendOn_keeps (s : State) (n : Nat) (c : Completion) : Keeps [.regs, .out, .host] s (State.sendOn s n c) := by
  unfold State.sendOn
  try dsimp only
  repeat' (first
    | with_reducible exact Keeps.refl _ _
    | with_reducible assumption
    | with_reducible apply Keeps.ite
    | ((with_reducible apply Keeps.after (State.sendNow_keeps ..)); decide)
    | ((with_reducible apply Keeps.after (State.setQp_keeps ..)); decide)
    | ((with_reducible apply Keeps.after (State.bump_keeps ..)); decide)
    | split)

theorem State.sendMgmt_keeps (s : State) (k : Nat) (c : Completion) : Keeps [.out, .host] s (State.sendMgmt s k c) := by
  unfold State.sendMgmt
  try dsimp only
  repeat' (first
    | with_reducible exact Keeps.refl _ _
    | with_reducible assumption
    | with_reducible apply Keeps.ite
    | ((with_reducible apply Keeps.after (State.sendNow_keeps ..)); decide)
    | ((with_reducible apply Keeps.after (State.setQp_keeps ..)); decide)
    | split)

theorem State.event_keeps (s : State) (c : Completion) : Keeps [.regs, .out, .host] s (State.event s c) := by
  unfold State.event
  try dsimp only
  repeat' (first
    | with_reducible exact Keeps.refl _ _
    | with_reducible assumption
    | with_reducible apply Keeps.ite
    | ((with_reducible apply Keeps.after (State.sendOn_keeps ..)); decide)
    | ((with_reducible apply Keeps.after (State.sendMgmt_keeps ..)); decide)
    | ((with_reducible apply Keeps.after (State.withHost_keeps ..)); decide)
    | ((with_reducible apply Keeps.of_eq); assumption)
    | ((with_reducible apply Keeps.of_eq3); assumption)
    | split)

theorem State.setVio_keeps (s : State) (b : Nat) (l : VioLog) : Keeps [.vio] s (State.setVio s b l) := by
  unfold State.setVio
  try dsimp only
  repeat' (first
    | with_reducible exact Keeps.refl _ _
    | with_reducible assumption
    | ((with_reducible apply Keeps.after (State.withVio_keeps ..)); decide)
    | split)

theorem State.log_keeps (s : State) (b : Nat) (st : Status) (req : Requester) (addr : Nat) : Keeps [.regs, .vio, .out, .host, .test] s (State.log s b st req addr) := by
  unfold State.log
  try dsimp only
  repeat' (first
    | with_reducible exact Keeps.refl _ _
    | with_reducible assumption
    | with_reducible apply Keeps.ite
    | ((with_reducible apply Keeps.after (State.setVio_keeps ..)); decide)
    | ((with_reducible apply Keeps.after (State.trace_keeps ..)); decide)
    | ((with_reducible apply Keeps.after (State.event_keeps ..)); decide)
    | split)

theorem State.payEvent_keeps (s : State) (b : Nat) : Keeps [.regs, .vio, .out, .host] s (State.payEvent s b) := by
  unfold State.payEvent
  try dsimp only
  repeat' (first
    | with_reducible exact Keeps.refl _ _
    | with_reducible assumption
    | with_reducible apply Keeps.ite
    | ((with_reducible apply Keeps.after (State.setVio_keeps ..)); decide)
    | ((with_reducible apply Keeps.after (State.event_keeps ..)); decide)
    | split)

theorem State.tick_keeps (s : State) : Keeps [.time, .regs, .vio, .out, .host] s (State.tick s) := by
  unfold State.tick
  try dsimp only
  repeat' (first
    | with_reducible exact Keeps.refl _ _
    | with_reducible assumption
    | ((with_reducible apply Keeps.after (State.payEvent_keeps ..)); decide)
    | ((with_reducible apply Keeps.after (State.withTime_keeps ..)); decide)
    | with_reducible refine Keeps.foldl (fun _ _ _ => ?_) ?_
    | split)

theorem State.logReg_keeps (s : State) (req : Requester) (a : Nat) (st : Status) : Keeps [.regs, .vio, .out, .host, .test] s (State.logReg s req a st) := by
  unfold State.logReg
  try dsimp only
  repeat' (first
    | with_reducible exact Keeps.refl _ _
    | with_reducible assumption
    | with_reducible apply Keeps.ite
    | ((with_reducible apply Keeps.after (State.log_keeps ..)); decide)
    | split)

theorem State.answerReg_keeps (s : State) (q a : Nat) (st : Status) (data : Nat) : Keeps [.regs, .vio, .out, .host, .test] s (State.answerReg s q a st data) := by
  unfold State.answerReg
  try dsimp only
  repeat' (first
    | with_reducible exact Keeps.refl _ _
    | with_reducible assumption
    | ((with_reducible apply Keeps.after (State.logReg_keeps ..)); decide)
    | ((with_reducible apply Keeps.after (State.emit_keeps ..)); decide)
    | split)

theorem State.regWrite_keeps {k : List Part} {s0 : State} (s : State) (q : Fin 4) (a : Nat) (f : State → Status × State)
    (hk : ([.regs, .vio, .out, .host, .test] : List Part).all k.contains = true) (hf : ∀ s, Keeps k s (f s).2) (h0 : Keeps k s0 s) :
    Keeps k s0 (s.regWrite q a f) := by
  refine Keeps.after ?_ (Part.sub_refl _) h0
  unfold State.regWrite
  split
  · exact Keeps.after (State.answerReg_keeps ..) hk (hf s)
  · exact Keeps.refl _ _

theorem State.setReady_keeps (s : State) (b : Nat) : Keeps [.regs] s (State.setReady s b) := by
  unfold State.setReady
  try dsimp only
  repeat' (first
    | with_reducible exact Keeps.refl _ _
    | with_reducible assumption
    | with_reducible apply Keeps.ite
    | ((with_reducible apply Keeps.after (State.setFld_keeps ..)); decide)
    | split)

theorem State.clearReady_keeps (s : State) (b : Nat) : Keeps [.regs] s (State.clearReady s b) := by
  unfold State.clearReady
  try dsimp only
  repeat' (first
    | with_reducible exact Keeps.refl _ _
    | with_reducible assumption
    | ((with_reducible apply Keeps.after (State.setFld_keeps ..)); decide)
    | split)

theorem State.putNum_keeps (s : State) (a n v : Nat) : Keeps [.mem] s (State.putNum s a n v) := by
  unfold State.putNum
  try dsimp only
  repeat' (first
    | with_reducible exact Keeps.refl _ _
    | with_reducible assumption
    | ((with_reducible apply Keeps.after (State.putBytes_keeps ..)); decide)
    | split)

theorem State.setCore_keeps (s : State) (n : Nat) (c : Core) : Keeps [.cores] s (State.setCore s n c) := by
  unfold State.setCore
  try dsimp only
  repeat' (first
    | with_reducible exact Keeps.refl _ _
    | with_reducible assumption
    | ((with_reducible apply Keeps.after (State.withCores_keeps ..)); decide)
    | split)

theorem State.showJob_keeps (s : State) : Keeps [.regs] s (State.showJob s) := by
  unfold State.showJob
  try dsimp only
  repeat' (first
    | with_reducible exact Keeps.refl _ _
    | with_reducible assumption
    | ((with_reducible apply Keeps.after (State.setReg_keeps ..)); decide)
    | ((with_reducible apply Keeps.of_eq); assumption)
    | ((with_reducible apply Keeps.of_eq3); assumption)
    | split)

theorem State.traceJob_keeps (s : State) (st : JobState) : Keeps [.regs, .test] s (State.traceJob s st) := by
  unfold State.traceJob
  try dsimp only
  repeat' (first
    | with_reducible exact Keeps.refl _ _
    | with_reducible assumption
    | ((with_reducible apply Keeps.after (State.trace_keeps ..)); decide)
    | split)

theorem State.setJob_keeps (s : State) (j : Option Job) : Keeps [.regs, .test, .sched] s (State.setJob s j) := by
  unfold State.setJob
  try dsimp only
  repeat' (first
    | with_reducible exact Keeps.refl _ _
    | with_reducible assumption
    | with_reducible apply Keeps.ite
    | ((with_reducible apply Keeps.after (State.withSched_keeps ..)); decide)
    | ((with_reducible apply Keeps.after (State.showJob_keeps ..)); decide)
    | ((with_reducible apply Keeps.after (State.traceJob_keeps ..)); decide)
    | ((with_reducible apply Keeps.of_eq); assumption)
    | ((with_reducible apply Keeps.of_eq3); assumption)
    | split)

theorem State.mapJob_keeps (s : State) (f : Job → Job) : Keeps [.regs, .test, .sched] s (State.mapJob s f) := by
  unfold State.mapJob
  try dsimp only
  repeat' (first
    | with_reducible exact Keeps.refl _ _
    | with_reducible assumption
    | ((with_reducible apply Keeps.after (State.setJob_keeps ..)); decide)
    | ((with_reducible apply Keeps.of_eq); assumption)
    | ((with_reducible apply Keeps.of_eq3); assumption)
    | split)

theorem State.orFlags_keeps (s : State) (fl : Nat) : Keeps [.sched] s (State.orFlags s fl) := by
  unfold State.orFlags
  try dsimp only
  repeat' (first
    | with_reducible exact Keeps.refl _ _
    | with_reducible assumption
    | ((with_reducible apply Keeps.after (State.withSched_keeps ..)); decide)
    | ((with_reducible apply Keeps.of_eq); assumption)
    | ((with_reducible apply Keeps.of_eq3); assumption)
    | split)

end Sys2Proof.Machine
end

