-- ==== Sys2Proof/Laws/KeepsHbm.lean ====
section
/-! SUPPORT. What the operations of Machine/Hbm.lean may change: one law each. -/

namespace Sys2Proof.Machine

theorem State.showDefects_keeps (s : State) : Keeps [.regs] s (State.showDefects s) := by
  unfold State.showDefects
  try dsimp only
  repeat' (first
    | with_reducible exact Keeps.refl _ _
    | with_reducible assumption
    | ((with_reducible apply Keeps.after (State.setFld_keeps ..)); decide)
    | split)

theorem State.addDefect_keeps (s : State) (d : Defect) : Keeps [.regs, .boot] s (State.addDefect s d) := by
  unfold State.addDefect
  try dsimp only
  repeat' (first
    | with_reducible exact Keeps.refl _ _
    | with_reducible assumption
    | with_reducible apply Keeps.ite
    | ((with_reducible apply Keeps.after (State.withBoot_keeps ..)); decide)
    | ((with_reducible apply Keeps.after (State.showDefects_keeps ..)); decide)
    | ((with_reducible apply Keeps.after (State.bumpStop_keeps ..)); decide)
    | ((with_reducible apply Keeps.after (State.setFld_keeps ..)); decide)
    | split)

theorem State.miscorrect_keeps (s : State) (ws : List Nat) : Keeps [.free, .mem] s (State.miscorrect s ws) := by
  unfold State.miscorrect
  try dsimp only
  repeat' (first
    | with_reducible exact Keeps.refl _ _
    | with_reducible assumption
    | with_reducible apply Keeps.ite
    | ((with_reducible apply Keeps.after (State.putBytes_keeps ..)); decide)
    | ((with_reducible apply Keeps.after (State.withFree_keeps ..)); decide)
    | with_reducible refine Keeps.foldl (fun _ _ _ => ?_) ?_
    | split)

theorem State.rewriteRow_keeps (s : State) (loc : Nat) : Keeps [.free, .mem, .ecc] s (State.rewriteRow s loc) := by
  unfold State.rewriteRow
  try dsimp only
  repeat' (first
    | with_reducible exact Keeps.refl _ _
    | with_reducible assumption
    | ((with_reducible apply Keeps.after (State.miscorrect_keeps ..)); decide)
    | ((with_reducible apply Keeps.after (State.withEccMask_keeps ..)); decide)
    | ((with_reducible apply Keeps.after (State.withEccDead_keeps ..)); decide)
    | split)

theorem State.repairRow_keeps (s : State) (a : Nat) : Keeps [.free, .regs, .mem, .ecc, .boot, .units] s (State.repairRow s a) := by
  unfold State.repairRow
  try dsimp only
  repeat' (first
    | with_reducible exact Keeps.refl _ _
    | with_reducible assumption
    | with_reducible apply Keeps.ite
    | ((with_reducible apply Keeps.after (State.addDefect_keeps ..)); decide)
    | ((with_reducible apply Keeps.after (State.bumpStop_keeps ..)); decide)
    | ((with_reducible apply Keeps.after (State.withUnits_keeps ..)); decide)
    | ((with_reducible apply Keeps.after (State.setFld_keeps ..)); decide)
    | ((with_reducible apply Keeps.after (State.rewriteRow_keeps ..)); decide)
    | split)

theorem State.meetDead_keeps (s : State) (req : Requester) (w : Nat) : Keeps [.free, .regs, .mem, .ecc, .vio, .out, .host, .boot, .test, .units] s (State.meetDead s req w) := by
  unfold State.meetDead
  try dsimp only
  repeat' (first
    | with_reducible exact Keeps.refl _ _
    | with_reducible assumption
    | with_reducible apply Keeps.ite
    | ((with_reducible apply Keeps.after (State.log_keeps ..)); decide)
    | ((with_reducible apply Keeps.after (State.bump_keeps ..)); decide)
    | ((with_reducible apply Keeps.after (State.repairRow_keeps ..)); decide)
    | split)

theorem State.meetSoft_keeps (s : State) (ws : List Nat) : Keeps [.free, .regs, .mem, .ecc] s (State.meetSoft s ws) := by
  unfold State.meetSoft
  try dsimp only
  repeat' (first
    | with_reducible exact Keeps.refl _ _
    | with_reducible assumption
    | with_reducible apply Keeps.ite
    | ((with_reducible apply Keeps.after (State.miscorrect_keeps ..)); decide)
    | ((with_reducible apply Keeps.after (State.withEccMask_keeps ..)); decide)
    | ((with_reducible apply Keeps.after (State.bump_keeps ..)); decide)
    | split)

theorem State.chargeHbm_keeps (s : State) (cls a n : Nat) : Keeps [.regs, .units] s (State.chargeHbm s cls a n) := by
  unfold State.chargeHbm
  try dsimp only
  repeat' (first
    | with_reducible exact Keeps.refl _ _
    | with_reducible assumption
    | with_reducible apply Keeps.ite
    | ((with_reducible apply Keeps.after (State.withUnits_keeps ..)); decide)
    | ((with_reducible apply Keeps.after (State.bump_keeps ..)); decide)
    | ((with_reducible apply Keeps.after (State.perf_keeps ..)); decide)
    | with_reducible refine Keeps.foldl_snd (fun _ _ _ => ?_) ?_
    | with_reducible refine Keeps.foldl (fun _ _ _ => ?_) ?_
    | split)

theorem State.chargeMs_keeps (s : State) (a n : Nat) : Keeps [.regs] s (State.chargeMs s a n) := by
  unfold State.chargeMs
  try dsimp only
  repeat' (first
    | with_reducible exact Keeps.refl _ _
    | with_reducible assumption
    | with_reducible apply Keeps.ite
    | ((with_reducible apply Keeps.after (State.perf_keeps ..)); decide)
    | split)

theorem State.meetRead_keeps (s : State) (cls : Nat) (req : Requester) (a n : Nat) : Keeps [.free, .regs, .mem, .ecc, .vio, .out, .host, .boot, .test, .units] s (State.meetRead s cls req a n).2 := by
  unfold State.meetRead
  try dsimp only
  repeat' (first
    | with_reducible exact Keeps.refl _ _
    | with_reducible assumption
    | ((with_reducible apply Keeps.after (State.chargeHbm_keeps ..)); decide)
    | ((with_reducible apply Keeps.after (State.chargeMs_keeps ..)); decide)
    | ((with_reducible apply Keeps.after (State.meetSoft_keeps ..)); decide)
    | ((with_reducible apply Keeps.after (State.meetDead_keeps ..)); decide)
    | ((with_reducible apply Keeps.of_eq); assumption)
    | ((with_reducible apply Keeps.of_eq3); assumption)
    | with_reducible refine Keeps.foldl (fun _ _ _ => ?_) ?_
    | split)

theorem State.readCheck_keeps (s : State) (cls : Nat) (req : Requester) (a n : Nat) : Keeps [.free, .regs, .mem, .ecc, .vio, .out, .host, .boot, .test, .units] s (State.readCheck s cls req a n).2 := by
  unfold State.readCheck
  try dsimp only
  repeat' (first
    | with_reducible exact Keeps.refl _ _
    | with_reducible assumption
    | with_reducible apply Keeps.ite
    | ((with_reducible apply Keeps.after (State.meetRead_keeps ..)); decide)
    | with_reducible apply Keeps.ite_snd
    | split)

theorem State.readMem_keeps (s : State) (cls : Nat) (req : Requester) (a n : Nat) : Keeps [.free, .regs, .mem, .ecc, .vio, .out, .host, .boot, .test, .units] s (State.readMem s cls req a n).2.2 := by
  unfold State.readMem
  try dsimp only
  repeat' (first
    | with_reducible exact Keeps.refl _ _
    | with_reducible assumption
    | with_reducible apply Keeps.ite
    | ((with_reducible apply Keeps.after (State.readCheck_keeps ..)); decide)
    | with_reducible apply Keeps.ite_snd2
    | split)

theorem State.readChecks_keeps (s : State) (cls : Nat) (req : Requester) (l : List (Nat × Nat)) :
    Keeps [.free, .regs, .mem, .ecc, .vio, .out, .host, .boot, .test, .units] s (s.readChecks cls req l).2.2 := by
  induction l generalizing s with
  | nil => exact Keeps.refl _ _
  | cons r l ih =>
    have h : Keeps [.free, .regs, .mem, .ecc, .vio, .out, .host, .boot, .test, .units] s (s.readCheck cls req r.1 r.2).2 := Keeps.after (State.readCheck_keeps ..) (by decide) (Keeps.refl _ _)
    unfold State.readChecks
    exact Keeps.ite_snd2 (Keeps.after (ih _) (by decide) h) h

theorem State.writeCheck_keeps (s : State) (cls a n : Nat) : Keeps [.free, .regs, .mem, .ecc, .boot, .units] s (State.writeCheck s cls a n).2 := by
  unfold State.writeCheck
  try dsimp only
  repeat' (first
    | with_reducible exact Keeps.refl _ _
    | with_reducible assumption
    | with_reducible apply Keeps.ite
    | ((with_reducible apply Keeps.after (State.chargeHbm_keeps ..)); decide)
    | ((with_reducible apply Keeps.after (State.chargeMs_keeps ..)); decide)
    | ((with_reducible apply Keeps.after (State.repairRow_keeps ..)); decide)
    | ((with_reducible apply Keeps.after (State.meetSoft_keeps ..)); decide)
    | ((with_reducible apply Keeps.after (State.withEccMask_keeps ..)); decide)
    | ((with_reducible apply Keeps.after (State.withEccDead_keeps ..)); decide)
    | ((with_reducible apply Keeps.after (State.withMsBad_keeps ..)); decide)
    | with_reducible refine Keeps.foldl (fun _ _ _ => ?_) ?_
    | with_reducible apply Keeps.ite_snd
    | split)

theorem State.writeMem_keeps (s : State) (cls a : Nat) (l : List Byte) : Keeps [.free, .regs, .mem, .ecc, .boot, .units] s (State.writeMem s cls a l).2 := by
  unfold State.writeMem
  try dsimp only
  repeat' (first
    | with_reducible exact Keeps.refl _ _
    | with_reducible assumption
    | with_reducible apply Keeps.ite
    | ((with_reducible apply Keeps.after (State.writeCheck_keeps ..)); decide)
    | ((with_reducible apply Keeps.after (State.putBytes_keeps ..)); decide)
    | with_reducible apply Keeps.ite_snd
    | split)

theorem State.copyMem_keeps (s : State) (cls : Nat) (req : Requester) (src dst n : Nat) : Keeps [.free, .regs, .mem, .ecc, .vio, .out, .host, .boot, .test, .units] s (State.copyMem s cls req src dst n).2 := by
  unfold State.copyMem
  try dsimp only
  repeat' (first
    | with_reducible exact Keeps.refl _ _
    | with_reducible assumption
    | with_reducible apply Keeps.ite
    | ((with_reducible apply Keeps.after (State.readCheck_keeps ..)); decide)
    | ((with_reducible apply Keeps.after (State.writeCheck_keeps ..)); decide)
    | ((with_reducible apply Keeps.after (State.copyBytes_keeps ..)); decide)
    | with_reducible apply Keeps.ite_snd
    | split)

theorem State.wipe_keeps (s : State) (a n : Nat) : Keeps [.mem, .ecc] s (State.wipe s a n) := by
  unfold State.wipe
  try dsimp only
  repeat' (first
    | with_reducible exact Keeps.refl _ _
    | with_reducible assumption
    | ((with_reducible apply Keeps.after (State.zeroBytes_keeps ..)); decide)
    | ((with_reducible apply Keeps.after (State.withEccMask_keeps ..)); decide)
    | ((with_reducible apply Keeps.after (State.withEccDead_keeps ..)); decide)
    | ((with_reducible apply Keeps.after (State.withMsBad_keeps ..)); decide)
    | split)

theorem execHbmRequest_keeps (cls : Fin 8) (write : Bool) (addr : BitVec 40) (len : Nat) (data : List Byte) (s : State) :
    ∃ nx, execHbmRequest cls write addr len data s = .next nx ∧ Keeps [.free, .regs, .mem, .ecc, .vio, .out, .host, .boot, .test, .units] s nx := by
  refine ⟨_, rfl, ?_⟩
  try dsimp only
  repeat' (first
    | with_reducible exact Keeps.refl _ _
    | with_reducible assumption
    | with_reducible apply Keeps.ite
    | ((with_reducible apply Keeps.after (State.emit_keeps ..)); decide)
    | ((with_reducible apply Keeps.after (State.writeMem_keeps ..)); decide)
    | ((with_reducible apply Keeps.after (State.readMem_keeps ..)); decide)
    | split)

theorem State.scrubWord_keeps (s : State) (a : Nat) : Keeps [.free, .regs, .mem, .ecc, .vio, .out, .host, .boot, .test, .units] s (State.scrubWord s a) := by
  unfold State.scrubWord
  try dsimp only
  repeat' (first
    | with_reducible exact Keeps.refl _ _
    | with_reducible assumption
    | with_reducible apply Keeps.ite
    | ((with_reducible apply Keeps.after (State.chargeHbm_keeps ..)); decide)
    | ((with_reducible apply Keeps.after (State.meetDead_keeps ..)); decide)
    | ((with_reducible apply Keeps.after (State.meetSoft_keeps ..)); decide)
    | ((with_reducible apply Keeps.after (State.withUnits_keeps ..)); decide)
    | ((with_reducible apply Keeps.after (State.repairRow_keeps ..)); decide)
    | ((with_reducible apply Keeps.of_eq); assumption)
    | ((with_reducible apply Keeps.of_eq3); assumption)
    | split)

theorem execScrubStep_keeps (idx : Fin 64) (s : State) :
    ∃ nx, execScrubStep idx s = .next nx ∧ Keeps [.free, .regs, .mem, .ecc, .vio, .out, .host, .boot, .test, .units] s nx := by
  refine ⟨_, rfl, ?_⟩
  try dsimp only
  repeat' (first
    | with_reducible exact Keeps.refl _ _
    | with_reducible assumption
    | with_reducible apply Keeps.ite
    | ((with_reducible apply Keeps.after (State.setReady_keeps ..)); decide)
    | ((with_reducible apply Keeps.after (State.scrubWord_keeps ..)); decide)
    | ((with_reducible apply Keeps.after (State.withUnits_keeps ..)); decide)
    | ((with_reducible apply Keeps.after (State.setFld_keeps ..)); decide)
    | ((with_reducible apply Keeps.after (State.bumpWrap_keeps ..)); decide)
    | with_reducible refine Keeps.foldl (fun _ _ _ => ?_) ?_
    | split)

theorem execSkewWindowEnd_keeps (s : State) :
    ∃ nx, execSkewWindowEnd s = .next nx ∧ Keeps [.regs, .units] s nx := by
  refine ⟨_, rfl, ?_⟩
  try dsimp only
  repeat' (first
    | with_reducible exact Keeps.refl _ _
    | with_reducible assumption
    | with_reducible apply Keeps.ite
    | ((with_reducible apply Keeps.after (State.setFld_keeps ..)); decide)
    | ((with_reducible apply Keeps.after (State.bumpWrap_keeps ..)); decide)
    | ((with_reducible apply Keeps.after (State.bump_keeps ..)); decide)
    | ((with_reducible apply Keeps.after (State.withUnits_keeps ..)); decide)
    | with_reducible refine Keeps.foldl (fun _ _ _ => ?_) ?_
    | split)

theorem execStackTemperatureHot_keeps (stack : Fin 12) (tempC : BitVec 8) (s : State) :
    ∃ nx, execStackTemperatureHot stack tempC s = .next nx ∧ Keeps [.regs] s nx := by
  refine ⟨_, rfl, ?_⟩
  try dsimp only
  repeat' (first
    | with_reducible exact Keeps.refl _ _
    | with_reducible assumption
    | ((with_reducible apply Keeps.after (State.setFld_keeps ..)); decide)
    | split)

theorem hbmSkewCtrlWrite_keeps (v : Word) (s : State) : Keeps [.regs] s (hbmSkewCtrlWrite v s).2 := by
  unfold hbmSkewCtrlWrite
  try dsimp only
  repeat' (first
    | with_reducible exact Keeps.refl _ _
    | with_reducible assumption
    | with_reducible apply Keeps.ite
    | ((with_reducible apply Keeps.after (State.setFld_keeps ..)); decide)
    | with_reducible apply Keeps.ite_snd
    | split)

theorem hbmScrubCtrlWrite_keeps (v : Word) (s : State) : Keeps [.regs] s (hbmScrubCtrlWrite v s).2 := by
  unfold hbmScrubCtrlWrite
  try dsimp only
  repeat' (first
    | with_reducible exact Keeps.refl _ _
    | with_reducible assumption
    | with_reducible apply Keeps.ite
    | ((with_reducible apply Keeps.after (State.setFld_keeps ..)); decide)
    | with_reducible apply Keeps.ite_snd
    | split)

theorem hbmNarrowCtrlWrite_keeps (v : Word) (s : State) : Keeps [.regs] s (hbmNarrowCtrlWrite v s).2 := by
  unfold hbmNarrowCtrlWrite
  try dsimp only
  repeat' (first
    | with_reducible exact Keeps.refl _ _
    | with_reducible assumption
    | ((with_reducible apply Keeps.after (State.setFld_keeps ..)); decide)
    | split)

theorem bwrSwap_keeps (v : Word) (s : State) : Keeps [.regs, .units] s (bwrSwap v s).2 := by
  unfold bwrSwap
  try dsimp only
  repeat' (first
    | with_reducible exact Keeps.refl _ _
    | with_reducible assumption
    | with_reducible apply Keeps.ite
    | ((with_reducible apply Keeps.after (State.setFld_keeps ..)); decide)
    | ((with_reducible apply Keeps.after (State.withUnits_keeps ..)); decide)
    | with_reducible apply Keeps.ite_snd
    | split)

theorem execBwrSwapEpoch_keeps (s : State) :
    ∃ nx, execBwrSwapEpoch s = .next nx ∧ Keeps [.regs, .units] s nx := by
  refine ⟨_, rfl, ?_⟩
  try dsimp only
  repeat' (first
    | with_reducible exact Keeps.refl _ _
    | with_reducible assumption
    | with_reducible apply Keeps.ite
    | ((with_reducible apply Keeps.after (State.setReg_keeps ..)); decide)
    | ((with_reducible apply Keeps.after (State.withUnits_keeps ..)); decide)
    | ((with_reducible apply Keeps.after (State.bumpWrap_keeps ..)); decide)
    | ((with_reducible apply Keeps.after (State.setFld_keeps ..)); decide)
    | ((with_reducible apply Keeps.of_eq); assumption)
    | ((with_reducible apply Keeps.of_eq3); assumption)
    | with_reducible refine Keeps.foldl (fun _ _ _ => ?_) ?_
    | split)

theorem bwrStageWrite_keeps (p : Nat) (v : Word) (s : State) : Keeps [.regs] s (bwrStageWrite p v s).2 := by
  unfold bwrStageWrite
  try dsimp only
  repeat' (first
    | with_reducible exact Keeps.refl _ _
    | with_reducible assumption
    | with_reducible apply Keeps.ite
    | ((with_reducible apply Keeps.after (State.setFld_keeps ..)); decide)
    | with_reducible apply Keeps.ite_snd
    | split)

theorem execMsUncorrectableRead_keeps (req : Requester) (addr : BitVec 40) (len : Nat) (s : State) :
    ∃ nx, execMsUncorrectableRead req addr len s = .next nx ∧ Keeps [.free, .regs, .mem, .ecc, .vio, .out, .host, .boot, .test, .units] s nx := by
  refine ⟨_, rfl, ?_⟩
  try dsimp only
  repeat' (first
    | with_reducible exact Keeps.refl _ _
    | with_reducible assumption
    | with_reducible apply Keeps.ite
    | ((with_reducible apply Keeps.after (State.readMem_keeps ..)); decide)
    | ((with_reducible apply Keeps.after (State.emit_keeps ..)); decide)
    | split)

end Sys2Proof.Machine
end

