-- ==== Sys2Proof/Laws/KeepsOperands.lean ====
section
/-! SUPPORT. What the operations of Machine/Operands.lean may change: one law each. -/

namespace Sys2Proof.Machine

theorem State.setCtx_keeps (s : State) (t : Site) (c : Ctx) : Keeps [.cores] s (State.setCtx s t c) := by
  unfold State.setCtx
  try dsimp only
  repeat' (first
    | with_reducible exact Keeps.refl _ _
    | with_reducible assumption
    | ((with_reducible apply Keeps.after (State.setCore_keeps ..)); decide)
    | split)

theorem State.coreFault_keeps (s : State) (n : Nat) (st : Status) (addr : Nat) : Keeps [.regs, .vio, .out, .host, .test, .sched] s (State.coreFault s n st addr) := by
  unfold State.coreFault
  try dsimp only
  repeat' (first
    | with_reducible exact Keeps.refl _ _
    | with_reducible assumption
    | ((with_reducible apply Keeps.after (State.setFld_keeps ..)); decide)
    | ((with_reducible apply Keeps.after (State.bump_keeps ..)); decide)
    | ((with_reducible apply Keeps.after (State.log_keeps ..)); decide)
    | ((with_reducible apply Keeps.after (State.mapJob_keeps ..)); decide)
    | split)

theorem State.setSem_keeps (s : State) (n i v : Nat) : Keeps [.cores] s (State.setSem s n i v) := by
  unfold State.setSem
  try dsimp only
  repeat' (first
    | with_reducible exact Keeps.refl _ _
    | with_reducible assumption
    | ((with_reducible apply Keeps.after (State.setCore_keeps ..)); decide)
    | split)

theorem State.haltGates_keeps (s : State) (n : Nat) : Keeps [.cores] s (State.haltGates s n) := by
  unfold State.haltGates
  try dsimp only
  repeat' (first
    | with_reducible exact Keeps.refl _ _
    | with_reducible assumption
    | with_reducible apply Keeps.ite
    | ((with_reducible apply Keeps.after (State.setCtx_keeps ..)); decide)
    | ((with_reducible apply Keeps.after (State.setSem_keeps ..)); decide)
    | with_reducible refine Keeps.foldl_snd (fun _ _ _ => ?_) ?_
    | with_reducible refine Keeps.foldl (fun _ _ _ => ?_) ?_
    | split)

theorem State.settleHalt_keeps (s : State) (n : Nat) : Keeps [.regs, .cores] s (State.settleHalt s n) := by
  unfold State.settleHalt
  try dsimp only
  repeat' (first
    | with_reducible exact Keeps.refl _ _
    | with_reducible assumption
    | with_reducible apply Keeps.ite
    | ((with_reducible apply Keeps.after (State.haltGates_keeps ..)); decide)
    | ((with_reducible apply Keeps.after (State.setFld_keeps ..)); decide)
    | split)

theorem State.haltPoint_keeps (s : State) (t : Site) : Keeps [.regs, .cores] s (State.haltPoint s t) := by
  unfold State.haltPoint
  try dsimp only
  repeat' (first
    | with_reducible exact Keeps.refl _ _
    | with_reducible assumption
    | with_reducible apply Keeps.ite
    | ((with_reducible apply Keeps.after (State.setCtx_keeps ..)); decide)
    | ((with_reducible apply Keeps.after (State.settleHalt_keeps ..)); decide)
    | split)

theorem State.track_keeps (s : State) (n : Nat) (f : InFlight) : Keeps [.cores] s (State.track s n f) := by
  unfold State.track
  try dsimp only
  repeat' (first
    | with_reducible exact Keeps.refl _ _
    | with_reducible assumption
    | with_reducible apply Keeps.ite
    | ((with_reducible apply Keeps.after (State.setCore_keeps ..)); decide)
    | split)

theorem State.settleEnd_keeps (s : State) (n : Nat) : Keeps [.regs, .cores] s (State.settleEnd s n) := by
  unfold State.settleEnd
  try dsimp only
  repeat' (first
    | with_reducible exact Keeps.refl _ _
    | with_reducible assumption
    | with_reducible apply Keeps.ite
    | ((with_reducible apply Keeps.after (State.setFld_keeps ..)); decide)
    | ((with_reducible apply Keeps.after (State.settleHalt_keeps ..)); decide)
    | split)

/-- What an instruction's outcome may change. -/
def Eff.Keeps (k : List Part) (s : State) : Eff → Prop
  | .done t => Machine.Keeps k s t
  | .fault _ _ t => Machine.Keeps k s t
  | .wait t => Machine.Keeps k s t
  | .hold _ t => Machine.Keeps k s t

theorem Eff.keeps_done {k : List Part} {s t : State} (h : Machine.Keeps k s t) : Eff.Keeps k s (.done t) := h
theorem Eff.keeps_fault {k : List Part} {s t : State} {st : Status} {a : Nat} (h : Machine.Keeps k s t) :
    Eff.Keeps k s (.fault st a t) := h
theorem Eff.keeps_wait {k : List Part} {s t : State} (h : Machine.Keeps k s t) : Eff.Keeps k s (.wait t) := h
theorem Eff.keeps_hold {k : List Part} {s t : State} {on : HeldFor} (h : Machine.Keeps k s t) : Eff.Keeps k s (.hold on t) := h

theorem Eff.keeps_ite {k : List Part} {s : State} {c : Prop} [Decidable c] {a b : Eff} (h1 : Eff.Keeps k s a)
    (h2 : Eff.Keeps k s b) : Eff.Keeps k s (if c then a else b) := by
  split <;> assumption

theorem Eff.keeps_ite_fst {β : Type} {k : List Part} {s : State} {c : Prop} [Decidable c] {a b : Eff × β} (h1 : Eff.Keeps k s a.1)
    (h2 : Eff.Keeps k s b.1) : Eff.Keeps k s (if c then a else b).1 := by
  split <;> assumption

/-- The outcome that a pair was taken apart into. -/
theorem Eff.keeps_of_eq {β : Type} {k : List Part} {s : State} {p : Eff × β} {e : Eff} {b : β} (he : p = (e, b))
    (h : Eff.Keeps k s p.1) : Eff.Keeps k s e := by
  rw [he] at h; exact h

theorem Eff.keeps_after {k k' : List Part} {s t : State} {e : Eff} (h : Eff.Keeps k' t e) (hk : k'.all k.contains = true)
    (h0 : Machine.Keeps k s t) : Eff.Keeps k s e := by
  cases e <;> exact Machine.Keeps.after h hk h0

theorem Eff.settle_keeps {k : List Part} (t : Site) (h : Hdr) (f : InFlight) (moves : Bool) {s : State} {e : Eff}
    (hk : ([.free, .regs, .mem, .ecc, .vio, .out, .host, .boot, .test, .cores, .sched, .units] : List Part).all k.contains = true) (he : Eff.Keeps k s e) : Machine.Keeps k s (e.settle t h f moves) := by
  cases e with
  | done s1 =>
    unfold Eff.settle
    dsimp only
    have h1 : Machine.Keeps [.free, .regs, .mem, .ecc, .vio, .out, .host, .boot, .test, .cores, .sched, .units] s1
        (State.track (if moves then s1.setCtx t (s1.ctx t).advance else s1) t.core { f with ctx := t.ctx, signal := h.signal }) := by
      repeat' (first
        | with_reducible exact Keeps.refl _ _
        | with_reducible apply Keeps.ite
        | ((with_reducible apply Keeps.after (State.track_keeps ..)); decide)
        | ((with_reducible apply Keeps.after (State.setCtx_keeps ..)); decide)
        | split)
    split
    · exact Keeps.after (Keeps.after (State.haltPoint_keeps ..) (by decide) h1) hk he
    · exact Keeps.after h1 hk he
  | fault st a s1 =>
    exact Keeps.after (Keeps.after (State.coreFault_keeps ..) (by decide) (Keeps.refl [.free, .regs, .mem, .ecc, .vio, .out, .host, .boot, .test, .cores, .sched, .units] _)) hk he
  | wait s1 => exact he
  | hold on s1 =>
    exact Keeps.after (Keeps.after (State.setCtx_keeps ..) (by decide) (Keeps.refl [.free, .regs, .mem, .ecc, .vio, .out, .host, .boot, .test, .cores, .sched, .units] _)) hk he

theorem State.issueAs_keeps {k : List Part} {s0 : State} (s : State) (t : Site) (h : Hdr) (f : InFlight) (moves ok : Bool) (body : State → Eff)
    (hk : ([.free, .regs, .mem, .ecc, .vio, .out, .host, .boot, .test, .cores, .sched, .units] : List Part).all k.contains = true) (hb : ∀ s, Eff.Keeps k s (body s)) (h0 : Keeps k s0 s) :
    Keeps k s0 (s.issueAs t h f moves ok body) := by
  refine Keeps.after ?_ (Part.sub_refl _) h0
  have h1 : ∀ (u : State), Keeps [.free, .regs, .mem, .ecc, .vio, .out, .host, .boot, .test, .cores, .sched, .units] s u → Keeps k s u := fun u hu => Keeps.after hu hk (Keeps.refl _ _)
  unfold State.issueAs
  split
  · exact Keeps.refl _ _
  · split
    · exact h1 _ (Keeps.after (State.setCtx_keeps ..) (by decide) (Keeps.refl _ _))
    · have h2 : ∀ u, u = (if h.wait = 0 then s else s.setSem t.core h.wait (s.sem t.core h.wait - 1)) → Keeps [.free, .regs, .mem, .ecc, .vio, .out, .host, .boot, .test, .cores, .sched, .units] s u := by
        intro u hu
        subst hu
        split
        · exact Keeps.refl _ _
        · exact Keeps.after (State.setSem_keeps ..) (by decide) (Keeps.refl _ _)
      have h3 : Keeps [.free, .regs, .mem, .ecc, .vio, .out, .host, .boot, .test, .cores, .sched, .units] s (if (s.ctx t).waiting.isNone then (if h.wait = 0 then s else s.setSem t.core h.wait (s.sem t.core h.wait - 1))
          else (if h.wait = 0 then s else s.setSem t.core h.wait (s.sem t.core h.wait - 1)).setCtx t
            { (if h.wait = 0 then s else s.setSem t.core h.wait (s.sem t.core h.wait - 1)).ctx t with waiting := none }) := by
        refine Keeps.ite (h2 _ rfl) (Keeps.after (State.setCtx_keeps ..) (by decide) (h2 _ rfl))
      refine Eff.settle_keeps t h _ moves hk ?_
      split
      · exact Eff.keeps_after (hb _) (Part.sub_refl _) (h1 _ h3)
      · exact h1 _ h3

theorem State.issue_keeps {k : List Part} {s0 : State} (s : State) (t : Site) (h : Hdr) (ok : Bool) (body : State → Eff)
    (hk : ([.free, .regs, .mem, .ecc, .vio, .out, .host, .boot, .test, .cores, .sched, .units] : List Part).all k.contains = true) (hb : ∀ s, Eff.Keeps k s (body s)) (h0 : Keeps k s0 s) :
    Keeps k s0 (s.issue t h ok body) :=
  Keeps.after (State.issueAs_keeps s t h _ true ok body hk hb (Keeps.refl _ _)) (Part.sub_refl _) h0

theorem State.asNow_keeps (s : State) (t : Site) (now : Ctx) : Keeps [.cores] s (State.asNow s t now) := by
  unfold State.asNow
  try dsimp only
  repeat' (first
    | with_reducible exact Keeps.refl _ _
    | with_reducible assumption
    | ((with_reducible apply Keeps.after (State.setCtx_keeps ..)); decide)
    | split)

theorem Eff.settleHeld_keeps {k : List Part} (t : Site) (h : Hdr) (f : InFlight) (now : Ctx) (x : HeldInsn) {s : State} {e : Eff}
    (hk : ([.regs, .vio, .out, .host, .test, .cores, .sched] : List Part).all k.contains = true) (he : Eff.Keeps k s e) : Machine.Keeps k s (e.settleHeld t h f now x) := by
  have now' : ∀ u : State, Machine.Keeps [.regs, .vio, .out, .host, .test, .cores, .sched] u (u.asNow t now) := fun u => Keeps.after (State.asNow_keeps ..) (by decide) (Keeps.refl _ _)
  cases e with
  | done s1 =>
    unfold Eff.settleHeld
    dsimp only
    have h1 : Machine.Keeps [.regs, .vio, .out, .host, .test, .cores, .sched] s1 ((s1.asNow t now).track t.core { f with ctx := t.ctx, signal := h.signal, pc := x.pc }) :=
      Keeps.after (State.track_keeps ..) (by decide) (now' _)
    refine Keeps.after (Keeps.after (State.settleEnd_keeps ..) (by decide) (Keeps.ite ?_ h1)) hk he
    exact Keeps.after (State.haltPoint_keeps ..) (by decide) h1
  | fault st a s1 =>
    exact Keeps.after (Keeps.after (State.coreFault_keeps ..) (by decide) (now' _)) hk he
  | wait s1 => exact Keeps.after (now' _) hk he
  | hold on s1 =>
    exact Keeps.after (Keeps.after (State.setCtx_keeps ..) (by decide) (now' _)) hk he

theorem State.resume_keeps {k : List Part} {s0 : State} (s : State) (t : Site) (h : Hdr) (f : InFlight) (op : HeldOp) (body : State → Eff)
    (hk : ([.regs, .vio, .out, .host, .test, .cores, .sched] : List Part).all k.contains = true) (hb : ∀ s, Eff.Keeps k s (body s)) (h0 : Keeps k s0 s) :
    Keeps k s0 (s.resume t h f op body) := by
  refine Keeps.after ?_ (Part.sub_refl _) h0
  unfold State.resume
  split
  · exact Keeps.refl _ _
  · refine Keeps.ite (Eff.settleHeld_keeps t h f _ _ hk (Eff.keeps_after (hb _) (Part.sub_refl _) ?_)) (Keeps.refl _ _)
    exact Keeps.after (Keeps.after (State.setCtx_keeps ..) (by decide) (Keeps.refl [.regs, .vio, .out, .host, .test, .cores, .sched] _)) hk (Keeps.refl _ _)

end Sys2Proof.Machine
end

