-- ==== Sys2Proof/Laws/KeepsMatrix.lean ====
section
/-! SUPPORT. What the operations of Machine/Matrix.lean may change: one law each. -/

namespace Sys2Proof.Machine

theorem State.markAnchored_keeps (s : State) (core slot bank : Nat) : Keeps [.cores] s (State.markAnchored s core slot bank) := by
  unfold State.markAnchored
  try dsimp only
  repeat' (first
    | with_reducible exact Keeps.refl _ _
    | with_reducible assumption
    | with_reducible apply Keeps.ite
    | ((with_reducible apply Keeps.after (State.setCore_keeps ..)); decide)
    | split)

theorem State.matrixStep_keeps (s : State) (t : Site) (x : Tile) (fmt : Nat) (clear : Bool) (src : AnchorFrom) (tt : Int) (as' bs : List (Nat × List (List FVal) × Int)) (cTile : Option Word) (slot : Option Nat) : Eff.Keeps [.cores] s (State.matrixStep s t x fmt clear src tt as' bs cTile slot) := by
  unfold State.matrixStep
  try dsimp only
  repeat' (first
    | with_reducible exact Keeps.refl _ _
    | with_reducible assumption
    | with_reducible apply Eff.keeps_done
    | with_reducible apply Eff.keeps_fault
    | with_reducible apply Eff.keeps_wait
    | with_reducible apply Eff.keeps_hold
    | with_reducible apply Eff.keeps_ite
    | with_reducible apply Eff.keeps_ite_fst
    | ((with_reducible apply Keeps.after (State.setCore_keeps ..)); decide)
    | ((with_reducible apply Keeps.after (State.markAnchored_keeps ..)); decide)
    | ((with_reducible apply Keeps.of_eq); assumption)
    | ((with_reducible apply Keeps.of_eq3); assumption)
    | split)

theorem State.slotRead_keeps (s : State) (core : Nat) (slot : Option Nat) : Keeps [.free, .regs, .mem, .ecc, .vio, .out, .host, .boot, .test, .units] s (State.slotRead s core slot).2 := by
  unfold State.slotRead
  try dsimp only
  repeat' (first
    | with_reducible exact Keeps.refl _ _
    | with_reducible assumption
    | ((with_reducible apply Keeps.after (State.readCheck_keeps ..)); decide)
    | ((with_reducible apply Keeps.of_eq); assumption)
    | ((with_reducible apply Keeps.of_eq3); assumption)
    | split)

theorem State.atSlot_keeps {k : List Part} {s0 : State} (s : State) (t : Site) (mode : Nat) (slot : Option Nat) (go : State → Eff)
    (hk : ([.free, .regs, .mem, .ecc, .vio, .out, .host, .boot, .test, .units] : List Part).all k.contains = true) (hb : ∀ s, Eff.Keeps k s (go s)) (h0 : Keeps k s0 s) :
    Eff.Keeps k s0 (s.atSlot t mode slot go) := by
  have h1 : Keeps k s0 (s.slotRead t.core slot).2 :=
    Keeps.after (Keeps.after (State.slotRead_keeps ..) (by decide) (Keeps.refl [.free, .regs, .mem, .ecc, .vio, .out, .host, .boot, .test, .units] _)) hk h0
  unfold State.atSlot
  exact Eff.keeps_ite h1 (Eff.keeps_ite h0 (Eff.keeps_ite h0 (Eff.keeps_after (hb _) (Part.sub_refl _) h1)))

theorem mmaEff_keeps (t : Site) (o : MmaOps) (s : State) : Eff.Keeps [.free, .regs, .mem, .ecc, .vio, .out, .host, .boot, .test, .cores, .units] s (mmaEff t o s) := by
  unfold mmaEff
  try dsimp only
  repeat' (first
    | with_reducible exact Keeps.refl _ _
    | with_reducible assumption
    | with_reducible apply Keeps.ite
    | with_reducible apply Eff.keeps_done
    | with_reducible apply Eff.keeps_fault
    | with_reducible apply Eff.keeps_wait
    | with_reducible apply Eff.keeps_hold
    | with_reducible apply Eff.keeps_ite
    | with_reducible apply Eff.keeps_ite_fst
    | ((with_reducible apply State.atSlot_keeps); decide)
    | ((with_reducible apply Eff.keeps_after (State.matrixStep_keeps ..)); decide)
    | intro _
    | split)

theorem execMma_keeps (t : Site) (h : Hdr) (o : MmaOps) (s : State) :
    ∃ nx, execMma t h o s = .next nx ∧ Keeps [.free, .regs, .mem, .ecc, .vio, .out, .host, .boot, .test, .cores, .sched, .units] s nx := by
  refine ⟨_, rfl, ?_⟩
  try dsimp only
  repeat' (first
    | with_reducible exact Keeps.refl _ _
    | with_reducible assumption
    | with_reducible apply Eff.keeps_done
    | with_reducible apply Eff.keeps_fault
    | with_reducible apply Eff.keeps_wait
    | with_reducible apply Eff.keeps_hold
    | with_reducible apply Eff.keeps_ite
    | with_reducible apply Eff.keeps_ite_fst
    | ((with_reducible apply State.issueAs_keeps); decide)
    | ((with_reducible apply Eff.keeps_after (mmaEff_keeps ..)); decide)
    | intro _
    | split)

theorem execMmaSlotMaximaWait_keeps (t : Site) (h : Hdr) (o : MmaOps) (s : State) :
    ∃ nx, execMmaSlotMaximaWait t h o s = .next nx ∧ Keeps [.free, .regs, .mem, .ecc, .vio, .out, .host, .boot, .test, .cores, .sched, .units] s nx := by
  refine ⟨_, rfl, ?_⟩
  try dsimp only
  repeat' (first
    | with_reducible exact Keeps.refl _ _
    | with_reducible assumption
    | with_reducible apply Eff.keeps_done
    | with_reducible apply Eff.keeps_fault
    | with_reducible apply Eff.keeps_wait
    | with_reducible apply Eff.keeps_hold
    | with_reducible apply Eff.keeps_ite
    | with_reducible apply Eff.keeps_ite_fst
    | ((with_reducible apply State.resume_keeps); decide)
    | ((with_reducible apply Eff.keeps_after (mmaEff_keeps ..)); decide)
    | intro _
    | split)

theorem State.putPieces_keeps (s : State) (core : Nat) (l : List OutPiece) : Keeps [.mem, .sched] s (State.putPieces s core l) := by
  unfold State.putPieces
  try dsimp only
  repeat' (first
    | with_reducible exact Keeps.refl _ _
    | with_reducible assumption
    | ((with_reducible apply Keeps.after (State.putBytes_keeps ..)); decide)
    | ((with_reducible apply Keeps.after (State.orFlags_keeps ..)); decide)
    | with_reducible refine Keeps.foldl (fun _ _ _ => ?_) ?_
    | split)

theorem State.closeSlot_keeps (s : State) (t : Site) (slot : Nat) (owner : Bool) : Keeps [.cores] s (State.closeSlot s t slot owner) := by
  unfold State.closeSlot
  try dsimp only
  repeat' (first
    | with_reducible exact Keeps.refl _ _
    | with_reducible assumption
    | ((with_reducible apply Keeps.after (State.setCtx_keeps ..)); decide)
    | split)

theorem State.openSlot_keeps (s : State) (t : Site) (slot : Nat) (owner : Bool) : Keeps [.cores] s (State.openSlot s t slot owner) := by
  unfold State.openSlot
  try dsimp only
  repeat' (first
    | with_reducible exact Keeps.refl _ _
    | with_reducible assumption
    | with_reducible apply Keeps.ite
    | ((with_reducible apply Keeps.after (State.setCtx_keeps ..)); decide)
    | split)

theorem State.emptySlot_keeps (s : State) (t : Site) (slot bank : Nat) : Keeps [.mem, .cores] s (State.emptySlot s t slot bank) := by
  unfold State.emptySlot
  try dsimp only
  repeat' (first
    | with_reducible exact Keeps.refl _ _
    | with_reducible assumption
    | ((with_reducible apply Keeps.after (State.zeroBytes_keeps ..)); decide)
    | ((with_reducible apply Keeps.after (State.closeSlot_keeps ..)); decide)
    | ((with_reducible apply Keeps.after (State.setCore_keeps ..)); decide)
    | with_reducible refine Keeps.foldl (fun _ _ _ => ?_) ?_
    | split)

theorem State.drainNow_keeps (s : State) (t : Site) (o : DrainOps) (x : Tile) : Keeps [.mem, .cores, .sched] s (State.drainNow s t o x) := by
  unfold State.drainNow
  try dsimp only
  repeat' (first
    | with_reducible exact Keeps.refl _ _
    | with_reducible assumption
    | with_reducible apply Keeps.ite
    | ((with_reducible apply Keeps.after (State.putPieces_keeps ..)); decide)
    | ((with_reducible apply Keeps.after (State.setCore_keeps ..)); decide)
    | ((with_reducible apply Keeps.after (State.emptySlot_keeps ..)); decide)
    | ((with_reducible apply Keeps.of_eq); assumption)
    | ((with_reducible apply Keeps.of_eq3); assumption)
    | split)

theorem drainEff_keeps (t : Site) (o : DrainOps) (s : State) : Eff.Keeps [.free, .regs, .mem, .ecc, .vio, .out, .host, .boot, .test, .cores, .sched, .units] s (drainEff t o s) := by
  unfold drainEff
  try dsimp only
  repeat' (first
    | with_reducible exact Keeps.refl _ _
    | with_reducible assumption
    | with_reducible apply Keeps.ite
    | with_reducible apply Eff.keeps_done
    | with_reducible apply Eff.keeps_fault
    | with_reducible apply Eff.keeps_wait
    | with_reducible apply Eff.keeps_hold
    | with_reducible apply Eff.keeps_ite
    | with_reducible apply Eff.keeps_ite_fst
    | ((with_reducible apply Keeps.after (State.slotRead_keeps ..)); decide)
    | ((with_reducible apply Keeps.after (State.drainNow_keeps ..)); decide)
    | split)

theorem State.exchDone_keeps (s : State) (t : Site) : Keeps [.cores] s (State.exchDone s t) := by
  unfold State.exchDone
  try dsimp only
  repeat' (first
    | with_reducible exact Keeps.refl _ _
    | with_reducible assumption
    | with_reducible apply Keeps.ite
    | ((with_reducible apply Keeps.after (State.setCore_keeps ..)); decide)
    | split)

theorem execDrain_keeps (t : Site) (h : Hdr) (o : DrainOps) (s : State) :
    ∃ nx, execDrain t h o s = .next nx ∧ Keeps [.free, .regs, .mem, .ecc, .vio, .out, .host, .boot, .test, .cores, .sched, .units] s nx := by
  refine ⟨_, rfl, ?_⟩
  try dsimp only
  repeat' (first
    | with_reducible exact Keeps.refl _ _
    | with_reducible assumption
    | with_reducible apply Eff.keeps_done
    | with_reducible apply Eff.keeps_fault
    | with_reducible apply Eff.keeps_wait
    | with_reducible apply Eff.keeps_hold
    | with_reducible apply Eff.keeps_ite
    | with_reducible apply Eff.keeps_ite_fst
    | ((with_reducible apply State.issueAs_keeps); decide)
    | ((with_reducible apply Eff.keeps_after (drainEff_keeps ..)); decide)
    | intro _
    | split)

theorem execDrainOwnerWait_keeps (t : Site) (h : Hdr) (o : DrainOps) (s : State) :
    ∃ nx, execDrainOwnerWait t h o s = .next nx ∧ Keeps [.free, .regs, .mem, .ecc, .vio, .out, .host, .boot, .test, .cores, .sched, .units] s nx := by
  refine ⟨_, rfl, ?_⟩
  try dsimp only
  repeat' (first
    | with_reducible exact Keeps.refl _ _
    | with_reducible assumption
    | with_reducible apply Eff.keeps_done
    | with_reducible apply Eff.keeps_fault
    | with_reducible apply Eff.keeps_wait
    | with_reducible apply Eff.keeps_hold
    | with_reducible apply Eff.keeps_ite
    | with_reducible apply Eff.keeps_ite_fst
    | ((with_reducible apply State.resume_keeps); decide)
    | ((with_reducible apply Eff.keeps_after (drainEff_keeps ..)); decide)
    | intro _
    | split)

theorem clearbEff_keeps (t : Site) (o : ClearbOps) (s : State) : Eff.Keeps [.cores] s (clearbEff t o s) := by
  unfold clearbEff
  try dsimp only
  repeat' (first
    | with_reducible exact Keeps.refl _ _
    | with_reducible assumption
    | with_reducible apply Eff.keeps_done
    | with_reducible apply Eff.keeps_fault
    | with_reducible apply Eff.keeps_wait
    | with_reducible apply Eff.keeps_hold
    | with_reducible apply Eff.keeps_ite
    | with_reducible apply Eff.keeps_ite_fst
    | ((with_reducible apply Keeps.after (State.setCore_keeps ..)); decide)
    | with_reducible refine Keeps.foldl (fun _ _ _ => ?_) ?_
    | split)

theorem execClearb_keeps (t : Site) (h : Hdr) (o : ClearbOps) (s : State) :
    ∃ nx, execClearb t h o s = .next nx ∧ Keeps [.free, .regs, .mem, .ecc, .vio, .out, .host, .boot, .test, .cores, .sched, .units] s nx := by
  refine ⟨_, rfl, ?_⟩
  try dsimp only
  repeat' (first
    | with_reducible exact Keeps.refl _ _
    | with_reducible assumption
    | with_reducible apply Eff.keeps_done
    | with_reducible apply Eff.keeps_fault
    | with_reducible apply Eff.keeps_wait
    | with_reducible apply Eff.keeps_hold
    | with_reducible apply Eff.keeps_ite
    | with_reducible apply Eff.keeps_ite_fst
    | ((with_reducible apply State.issueAs_keeps); decide)
    | ((with_reducible apply Eff.keeps_after (clearbEff_keeps ..)); decide)
    | intro _
    | split)

theorem State.startPost_keeps (s : State) (t : Site) (p : SlotPost) : Keeps [.cores] s (State.startPost s t p) := by
  unfold State.startPost
  try dsimp only
  repeat' (first
    | with_reducible exact Keeps.refl _ _
    | with_reducible assumption
    | ((with_reducible apply Keeps.after (State.setCtx_keeps ..)); decide)
    | ((with_reducible apply Keeps.after (State.openSlot_keeps ..)); decide)
    | split)

theorem xmaxEff_keeps (t : Site) (o : XmaxOps) (s : State) : Eff.Keeps [.cores] s (xmaxEff t o s) := by
  unfold xmaxEff
  try dsimp only
  repeat' (first
    | with_reducible exact Keeps.refl _ _
    | with_reducible assumption
    | with_reducible apply Keeps.ite
    | with_reducible apply Eff.keeps_done
    | with_reducible apply Eff.keeps_fault
    | with_reducible apply Eff.keeps_wait
    | with_reducible apply Eff.keeps_hold
    | with_reducible apply Eff.keeps_ite
    | with_reducible apply Eff.keeps_ite_fst
    | ((with_reducible apply Keeps.after (State.startPost_keeps ..)); decide)
    | split)

theorem execXmax_keeps (t : Site) (h : Hdr) (o : XmaxOps) (s : State) :
    ∃ nx, execXmax t h o s = .next nx ∧ Keeps [.free, .regs, .mem, .ecc, .vio, .out, .host, .boot, .test, .cores, .sched, .units] s nx := by
  refine ⟨_, rfl, ?_⟩
  try dsimp only
  repeat' (first
    | with_reducible exact Keeps.refl _ _
    | with_reducible assumption
    | with_reducible apply Eff.keeps_done
    | with_reducible apply Eff.keeps_fault
    | with_reducible apply Eff.keeps_wait
    | with_reducible apply Eff.keeps_hold
    | with_reducible apply Eff.keeps_ite
    | with_reducible apply Eff.keeps_ite_fst
    | ((with_reducible apply State.issueAs_keeps); decide)
    | ((with_reducible apply Eff.keeps_after (xmaxEff_keeps ..)); decide)
    | intro _
    | split)

theorem State.raise16_keeps (s : State) (a v : Nat) : Keeps [.mem] s (State.raise16 s a v) := by
  unfold State.raise16
  try dsimp only
  repeat' (first
    | with_reducible exact Keeps.refl _ _
    | with_reducible assumption
    | ((with_reducible apply Keeps.after (State.putNum_keeps ..)); decide)
    | split)

theorem State.applyPost_keeps (s : State) (core : Nat) (p : SlotPost) : Keeps [.free, .regs, .mem, .ecc, .vio, .out, .host, .boot, .test, .units] s (State.applyPost s core p).2 := by
  unfold State.applyPost
  try dsimp only
  repeat' (first
    | with_reducible exact Keeps.refl _ _
    | with_reducible assumption
    | with_reducible apply Keeps.ite
    | ((with_reducible apply Keeps.after (State.slotRead_keeps ..)); decide)
    | ((with_reducible apply Keeps.after (State.putNum_keeps ..)); decide)
    | ((with_reducible apply Keeps.after (State.raise16_keeps ..)); decide)
    | with_reducible refine Keeps.foldl_snd (fun _ _ _ => ?_) ?_
    | with_reducible refine Keeps.foldl (fun _ _ _ => ?_) ?_
    | with_reducible apply Keeps.ite_snd
    | split)

theorem execXmaxSlotPost_keeps (t : Site) (s : State) :
    ∃ nx, execXmaxSlotPost t s = .next nx ∧ Keeps [.free, .regs, .mem, .ecc, .vio, .out, .host, .boot, .test, .cores, .sched, .units] s nx := by
  refine ⟨_, rfl, ?_⟩
  try dsimp only
  repeat' (first
    | with_reducible exact Keeps.refl _ _
    | with_reducible assumption
    | with_reducible apply Keeps.ite
    | ((with_reducible apply Keeps.after (State.setCtx_keeps ..)); decide)
    | ((with_reducible apply Keeps.after (State.exchDone_keeps ..)); decide)
    | ((with_reducible apply Keeps.after (State.applyPost_keeps ..)); decide)
    | ((with_reducible apply Keeps.after (State.settleEnd_keeps ..)); decide)
    | ((with_reducible apply Keeps.after (State.coreFault_keeps ..)); decide)
    | ((with_reducible apply Keeps.of_eq); assumption)
    | ((with_reducible apply Keeps.of_eq3); assumption)
    | split)

theorem xmergeEff_keeps (t : Site) (o : XmergeOps) (s : State) : Eff.Keeps [.cores] s (xmergeEff t o s) := by
  unfold xmergeEff
  try dsimp only
  repeat' (first
    | with_reducible exact Keeps.refl _ _
    | with_reducible assumption
    | with_reducible apply Keeps.ite
    | with_reducible apply Eff.keeps_done
    | with_reducible apply Eff.keeps_fault
    | with_reducible apply Eff.keeps_wait
    | with_reducible apply Eff.keeps_hold
    | with_reducible apply Eff.keeps_ite
    | with_reducible apply Eff.keeps_ite_fst
    | ((with_reducible apply Keeps.after (State.setCtx_keeps ..)); decide)
    | split)

theorem execXmerge_keeps (t : Site) (h : Hdr) (o : XmergeOps) (s : State) :
    ∃ nx, execXmerge t h o s = .next nx ∧ Keeps [.free, .regs, .mem, .ecc, .vio, .out, .host, .boot, .test, .cores, .sched, .units] s nx := by
  refine ⟨_, rfl, ?_⟩
  try dsimp only
  repeat' (first
    | with_reducible exact Keeps.refl _ _
    | with_reducible assumption
    | with_reducible apply Eff.keeps_done
    | with_reducible apply Eff.keeps_fault
    | with_reducible apply Eff.keeps_wait
    | with_reducible apply Eff.keeps_hold
    | with_reducible apply Eff.keeps_ite
    | with_reducible apply Eff.keeps_ite_fst
    | ((with_reducible apply State.issueAs_keeps); decide)
    | ((with_reducible apply Eff.keeps_after (xmergeEff_keeps ..)); decide)
    | intro _
    | split)

theorem execXmergeOwnerMerge_keeps (t : Site) (s : State) :
    ∃ nx, execXmergeOwnerMerge t s = .next nx ∧ Keeps [.free, .regs, .mem, .ecc, .vio, .out, .host, .boot, .test, .cores, .sched, .units] s nx := by
  refine ⟨_, rfl, ?_⟩
  try dsimp only
  repeat' (first
    | with_reducible exact Keeps.refl _ _
    | with_reducible assumption
    | with_reducible apply Keeps.ite
    | ((with_reducible apply Keeps.after (State.slotRead_keeps ..)); decide)
    | ((with_reducible apply Keeps.after (State.setCtx_keeps ..)); decide)
    | ((with_reducible apply Keeps.after (State.exchDone_keeps ..)); decide)
    | ((with_reducible apply Keeps.after (State.coreFault_keeps ..)); decide)
    | ((with_reducible apply Keeps.after (State.setCore_keeps ..)); decide)
    | ((with_reducible apply Keeps.after (State.putNum_keeps ..)); decide)
    | ((with_reducible apply Keeps.after (State.closeSlot_keeps ..)); decide)
    | ((with_reducible apply Keeps.after (State.settleEnd_keeps ..)); decide)
    | with_reducible refine Keeps.foldl_snd (fun _ _ _ => ?_) ?_
    | ((with_reducible apply Keeps.of_eq); assumption)
    | ((with_reducible apply Keeps.of_eq3); assumption)
    | with_reducible refine Keeps.foldl (fun _ _ _ => ?_) ?_
    | split)

end Sys2Proof.Machine
end

