-- ==== Sys2Proof/Laws/KeepsVector.lean ====
section
/-! SUPPORT. What the operations of Machine/Vector.lean may change: one law each. -/

namespace Sys2Proof.Machine

theorem vopEff_keeps (f : Nat) (g : VFun) (t : Site) (o : VopOps) (s : State) : Eff.Keeps [.cores, .sched] s (vopEff f g t o s) := by
  unfold vopEff
  try dsimp only
  repeat' (first
    | with_reducible exact Keeps.refl _ _
    | with_reducible assumption
    | with_reducible apply Eff.keeps_done
    | with_reducible apply Eff.keeps_fault
    | with_reducible apply Eff.keeps_wait
    | with_reducible apply Eff.keeps_hold
    | with_reducible apply Eff.keeps_ite
    | with_reducible apply Eff.keeps_ite_fst
    | ((with_reducible apply Keeps.after (State.setCtx_keeps ..)); decide)
    | ((with_reducible apply Keeps.after (State.orFlags_keeps ..)); decide)
    | split)

theorem execVopAdd_keeps (t : Site) (h : Hdr) (o : VopOps) (s : State) :
    ∃ nx, execVopAdd t h o s = .next nx ∧ Keeps [.free, .regs, .mem, .ecc, .vio, .out, .host, .boot, .test, .cores, .sched, .units] s nx := by
  refine ⟨_, rfl, ?_⟩
  try dsimp only
  repeat' (first
    | with_reducible exact Keeps.refl _ _
    | with_reducible assumption
    | with_reducible apply Eff.keeps_done
    | with_reducible apply Eff.keeps_fault
    | with_reducible apply Eff.keeps_wait
    | with_reducible apply Eff.keeps_hold
    | with_reducible apply Eff.keeps_ite
    | with_reducible apply Eff.keeps_ite_fst
    | ((with_reducible apply State.issueAs_keeps); decide)
    | ((with_reducible apply Eff.keeps_after (vopEff_keeps ..)); decide)
    | intro _
    | split)

theorem execVopSub_keeps (t : Site) (h : Hdr) (o : VopOps) (s : State) :
    ∃ nx, execVopSub t h o s = .next nx ∧ Keeps [.free, .regs, .mem, .ecc, .vio, .out, .host, .boot, .test, .cores, .sched, .units] s nx := by
  refine ⟨_, rfl, ?_⟩
  try dsimp only
  repeat' (first
    | with_reducible exact Keeps.refl _ _
    | with_reducible assumption
    | with_reducible apply Eff.keeps_done
    | with_reducible apply Eff.keeps_fault
    | with_reducible apply Eff.keeps_wait
    | with_reducible apply Eff.keeps_hold
    | with_reducible apply Eff.keeps_ite
    | with_reducible apply Eff.keeps_ite_fst
    | ((with_reducible apply State.issueAs_keeps); decide)
    | ((with_reducible apply Eff.keeps_after (vopEff_keeps ..)); decide)
    | intro _
    | split)

theorem execVopMul_keeps (t : Site) (h : Hdr) (o : VopOps) (s : State) :
    ∃ nx, execVopMul t h o s = .next nx ∧ Keeps [.free, .regs, .mem, .ecc, .vio, .out, .host, .boot, .test, .cores, .sched, .units] s nx := by
  refine ⟨_, rfl, ?_⟩
  try dsimp only
  repeat' (first
    | with_reducible exact Keeps.refl _ _
    | with_reducible assumption
    | with_reducible apply Eff.keeps_done
    | with_reducible apply Eff.keeps_fault
    | with_reducible apply Eff.keeps_wait
    | with_reducible apply Eff.keeps_hold
    | with_reducible apply Eff.keeps_ite
    | with_reducible apply Eff.keeps_ite_fst
    | ((with_reducible apply State.issueAs_keeps); decide)
    | ((with_reducible apply Eff.keeps_after (vopEff_keeps ..)); decide)
    | intro _
    | split)

theorem execVopFma_keeps (t : Site) (h : Hdr) (o : VopOps) (s : State) :
    ∃ nx, execVopFma t h o s = .next nx ∧ Keeps [.free, .regs, .mem, .ecc, .vio, .out, .host, .boot, .test, .cores, .sched, .units] s nx := by
  refine ⟨_, rfl, ?_⟩
  try dsimp only
  repeat' (first
    | with_reducible exact Keeps.refl _ _
    | with_reducible assumption
    | with_reducible apply Eff.keeps_done
    | with_reducible apply Eff.keeps_fault
    | with_reducible apply Eff.keeps_wait
    | with_reducible apply Eff.keeps_hold
    | with_reducible apply Eff.keeps_ite
    | with_reducible apply Eff.keeps_ite_fst
    | ((with_reducible apply State.issueAs_keeps); decide)
    | ((with_reducible apply Eff.keeps_after (vopEff_keeps ..)); decide)
    | intro _
    | split)

theorem execVopMin_keeps (t : Site) (h : Hdr) (o : VopOps) (s : State) :
    ∃ nx, execVopMin t h o s = .next nx ∧ Keeps [.free, .regs, .mem, .ecc, .vio, .out, .host, .boot, .test, .cores, .sched, .units] s nx := by
  refine ⟨_, rfl, ?_⟩
  try dsimp only
  repeat' (first
    | with_reducible exact Keeps.refl _ _
    | with_reducible assumption
    | with_reducible apply Eff.keeps_done
    | with_reducible apply Eff.keeps_fault
    | with_reducible apply Eff.keeps_wait
    | with_reducible apply Eff.keeps_hold
    | with_reducible apply Eff.keeps_ite
    | with_reducible apply Eff.keeps_ite_fst
    | ((with_reducible apply State.issueAs_keeps); decide)
    | ((with_reducible apply Eff.keeps_after (vopEff_keeps ..)); decide)
    | intro _
    | split)

theorem execVopMax_keeps (t : Site) (h : Hdr) (o : VopOps) (s : State) :
    ∃ nx, execVopMax t h o s = .next nx ∧ Keeps [.free, .regs, .mem, .ecc, .vio, .out, .host, .boot, .test, .cores, .sched, .units] s nx := by
  refine ⟨_, rfl, ?_⟩
  try dsimp only
  repeat' (first
    | with_reducible exact Keeps.refl _ _
    | with_reducible assumption
    | with_reducible apply Eff.keeps_done
    | with_reducible apply Eff.keeps_fault
    | with_reducible apply Eff.keeps_wait
    | with_reducible apply Eff.keeps_hold
    | with_reducible apply Eff.keeps_ite
    | with_reducible apply Eff.keeps_ite_fst
    | ((with_reducible apply State.issueAs_keeps); decide)
    | ((with_reducible apply Eff.keeps_after (vopEff_keeps ..)); decide)
    | intro _
    | split)

theorem execVopCvt_keeps (t : Site) (h : Hdr) (o : VopOps) (s : State) :
    ∃ nx, execVopCvt t h o s = .next nx ∧ Keeps [.free, .regs, .mem, .ecc, .vio, .out, .host, .boot, .test, .cores, .sched, .units] s nx := by
  refine ⟨_, rfl, ?_⟩
  try dsimp only
  repeat' (first
    | with_reducible exact Keeps.refl _ _
    | with_reducible assumption
    | with_reducible apply Eff.keeps_done
    | with_reducible apply Eff.keeps_fault
    | with_reducible apply Eff.keeps_wait
    | with_reducible apply Eff.keeps_hold
    | with_reducible apply Eff.keeps_ite
    | with_reducible apply Eff.keeps_ite_fst
    | ((with_reducible apply State.issueAs_keeps); decide)
    | ((with_reducible apply Eff.keeps_after (vopEff_keeps ..)); decide)
    | intro _
    | split)

theorem execVopCmp_keeps (t : Site) (h : Hdr) (o : VopOps) (s : State) :
    ∃ nx, execVopCmp t h o s = .next nx ∧ Keeps [.free, .regs, .mem, .ecc, .vio, .out, .host, .boot, .test, .cores, .sched, .units] s nx := by
  refine ⟨_, rfl, ?_⟩
  try dsimp only
  repeat' (first
    | with_reducible exact Keeps.refl _ _
    | with_reducible assumption
    | with_reducible apply Eff.keeps_done
    | with_reducible apply Eff.keeps_fault
    | with_reducible apply Eff.keeps_wait
    | with_reducible apply Eff.keeps_hold
    | with_reducible apply Eff.keeps_ite
    | with_reducible apply Eff.keeps_ite_fst
    | ((with_reducible apply State.issueAs_keeps); decide)
    | ((with_reducible apply Eff.keeps_after (vopEff_keeps ..)); decide)
    | intro _
    | split)

theorem execVopAnd_keeps (t : Site) (h : Hdr) (o : VopOps) (s : State) :
    ∃ nx, execVopAnd t h o s = .next nx ∧ Keeps [.free, .regs, .mem, .ecc, .vio, .out, .host, .boot, .test, .cores, .sched, .units] s nx := by
  refine ⟨_, rfl, ?_⟩
  try dsimp only
  repeat' (first
    | with_reducible exact Keeps.refl _ _
    | with_reducible assumption
    | with_reducible apply Eff.keeps_done
    | with_reducible apply Eff.keeps_fault
    | with_reducible apply Eff.keeps_wait
    | with_reducible apply Eff.keeps_hold
    | with_reducible apply Eff.keeps_ite
    | with_reducible apply Eff.keeps_ite_fst
    | ((with_reducible apply State.issueAs_keeps); decide)
    | ((with_reducible apply Eff.keeps_after (vopEff_keeps ..)); decide)
    | intro _
    | split)

theorem execVopOr_keeps (t : Site) (h : Hdr) (o : VopOps) (s : State) :
    ∃ nx, execVopOr t h o s = .next nx ∧ Keeps [.free, .regs, .mem, .ecc, .vio, .out, .host, .boot, .test, .cores, .sched, .units] s nx := by
  refine ⟨_, rfl, ?_⟩
  try dsimp only
  repeat' (first
    | with_reducible exact Keeps.refl _ _
    | with_reducible assumption
    | with_reducible apply Eff.keeps_done
    | with_reducible apply Eff.keeps_fault
    | with_reducible apply Eff.keeps_wait
    | with_reducible apply Eff.keeps_hold
    | with_reducible apply Eff.keeps_ite
    | with_reducible apply Eff.keeps_ite_fst
    | ((with_reducible apply State.issueAs_keeps); decide)
    | ((with_reducible apply Eff.keeps_after (vopEff_keeps ..)); decide)
    | intro _
    | split)

theorem execVopXor_keeps (t : Site) (h : Hdr) (o : VopOps) (s : State) :
    ∃ nx, execVopXor t h o s = .next nx ∧ Keeps [.free, .regs, .mem, .ecc, .vio, .out, .host, .boot, .test, .cores, .sched, .units] s nx := by
  refine ⟨_, rfl, ?_⟩
  try dsimp only
  repeat' (first
    | with_reducible exact Keeps.refl _ _
    | with_reducible assumption
    | with_reducible apply Eff.keeps_done
    | with_reducible apply Eff.keeps_fault
    | with_reducible apply Eff.keeps_wait
    | with_reducible apply Eff.keeps_hold
    | with_reducible apply Eff.keeps_ite
    | with_reducible apply Eff.keeps_ite_fst
    | ((with_reducible apply State.issueAs_keeps); decide)
    | ((with_reducible apply Eff.keeps_after (vopEff_keeps ..)); decide)
    | intro _
    | split)

theorem execVopShl_keeps (t : Site) (h : Hdr) (o : VopOps) (s : State) :
    ∃ nx, execVopShl t h o s = .next nx ∧ Keeps [.free, .regs, .mem, .ecc, .vio, .out, .host, .boot, .test, .cores, .sched, .units] s nx := by
  refine ⟨_, rfl, ?_⟩
  try dsimp only
  repeat' (first
    | with_reducible exact Keeps.refl _ _
    | with_reducible assumption
    | with_reducible apply Eff.keeps_done
    | with_reducible apply Eff.keeps_fault
    | with_reducible apply Eff.keeps_wait
    | with_reducible apply Eff.keeps_hold
    | with_reducible apply Eff.keeps_ite
    | with_reducible apply Eff.keeps_ite_fst
    | ((with_reducible apply State.issueAs_keeps); decide)
    | ((with_reducible apply Eff.keeps_after (vopEff_keeps ..)); decide)
    | intro _
    | split)

theorem execVopShr_keeps (t : Site) (h : Hdr) (o : VopOps) (s : State) :
    ∃ nx, execVopShr t h o s = .next nx ∧ Keeps [.free, .regs, .mem, .ecc, .vio, .out, .host, .boot, .test, .cores, .sched, .units] s nx := by
  refine ⟨_, rfl, ?_⟩
  try dsimp only
  repeat' (first
    | with_reducible exact Keeps.refl _ _
    | with_reducible assumption
    | with_reducible apply Eff.keeps_done
    | with_reducible apply Eff.keeps_fault
    | with_reducible apply Eff.keeps_wait
    | with_reducible apply Eff.keeps_hold
    | with_reducible apply Eff.keeps_ite
    | with_reducible apply Eff.keeps_ite_fst
    | ((with_reducible apply State.issueAs_keeps); decide)
    | ((with_reducible apply Eff.keeps_after (vopEff_keeps ..)); decide)
    | intro _
    | split)

theorem execVopSel_keeps (t : Site) (h : Hdr) (o : VopOps) (s : State) :
    ∃ nx, execVopSel t h o s = .next nx ∧ Keeps [.free, .regs, .mem, .ecc, .vio, .out, .host, .boot, .test, .cores, .sched, .units] s nx := by
  refine ⟨_, rfl, ?_⟩
  try dsimp only
  repeat' (first
    | with_reducible exact Keeps.refl _ _
    | with_reducible assumption
    | with_reducible apply Eff.keeps_done
    | with_reducible apply Eff.keeps_fault
    | with_reducible apply Eff.keeps_wait
    | with_reducible apply Eff.keeps_hold
    | with_reducible apply Eff.keeps_ite
    | with_reducible apply Eff.keeps_ite_fst
    | ((with_reducible apply State.issueAs_keeps); decide)
    | ((with_reducible apply Eff.keeps_after (vopEff_keeps ..)); decide)
    | intro _
    | split)

theorem execVopAbs_keeps (t : Site) (h : Hdr) (o : VopOps) (s : State) :
    ∃ nx, execVopAbs t h o s = .next nx ∧ Keeps [.free, .regs, .mem, .ecc, .vio, .out, .host, .boot, .test, .cores, .sched, .units] s nx := by
  refine ⟨_, rfl, ?_⟩
  try dsimp only
  repeat' (first
    | with_reducible exact Keeps.refl _ _
    | with_reducible assumption
    | with_reducible apply Eff.keeps_done
    | with_reducible apply Eff.keeps_fault
    | with_reducible apply Eff.keeps_wait
    | with_reducible apply Eff.keeps_hold
    | with_reducible apply Eff.keeps_ite
    | with_reducible apply Eff.keeps_ite_fst
    | ((with_reducible apply State.issueAs_keeps); decide)
    | ((with_reducible apply Eff.keeps_after (vopEff_keeps ..)); decide)
    | intro _
    | split)

theorem execVopNeg_keeps (t : Site) (h : Hdr) (o : VopOps) (s : State) :
    ∃ nx, execVopNeg t h o s = .next nx ∧ Keeps [.free, .regs, .mem, .ecc, .vio, .out, .host, .boot, .test, .cores, .sched, .units] s nx := by
  refine ⟨_, rfl, ?_⟩
  try dsimp only
  repeat' (first
    | with_reducible exact Keeps.refl _ _
    | with_reducible assumption
    | with_reducible apply Eff.keeps_done
    | with_reducible apply Eff.keeps_fault
    | with_reducible apply Eff.keeps_wait
    | with_reducible apply Eff.keeps_hold
    | with_reducible apply Eff.keeps_ite
    | with_reducible apply Eff.keeps_ite_fst
    | ((with_reducible apply State.issueAs_keeps); decide)
    | ((with_reducible apply Eff.keeps_after (vopEff_keeps ..)); decide)
    | intro _
    | split)

theorem laccClearEff_keeps (product : Bool) (t : Site) (o : LaccOps) (s : State) : Eff.Keeps [.cores] s (laccClearEff product t o s) := by
  unfold laccClearEff
  try dsimp only
  repeat' (first
    | with_reducible exact Keeps.refl _ _
    | with_reducible assumption
    | with_reducible apply Eff.keeps_done
    | with_reducible apply Eff.keeps_fault
    | with_reducible apply Eff.keeps_wait
    | with_reducible apply Eff.keeps_hold
    | with_reducible apply Eff.keeps_ite
    | with_reducible apply Eff.keeps_ite_fst
    | ((with_reducible apply Keeps.after (State.setCore_keeps ..)); decide)
    | with_reducible refine Keeps.foldl (fun _ _ _ => ?_) ?_
    | split)

theorem execLaccClearSum_keeps (t : Site) (h : Hdr) (o : LaccOps) (s : State) :
    ∃ nx, execLaccClearSum t h o s = .next nx ∧ Keeps [.free, .regs, .mem, .ecc, .vio, .out, .host, .boot, .test, .cores, .sched, .units] s nx := by
  refine ⟨_, rfl, ?_⟩
  try dsimp only
  repeat' (first
    | with_reducible exact Keeps.refl _ _
    | with_reducible assumption
    | with_reducible apply Eff.keeps_done
    | with_reducible apply Eff.keeps_fault
    | with_reducible apply Eff.keeps_wait
    | with_reducible apply Eff.keeps_hold
    | with_reducible apply Eff.keeps_ite
    | with_reducible apply Eff.keeps_ite_fst
    | ((with_reducible apply State.issueAs_keeps); decide)
    | ((with_reducible apply Eff.keeps_after (laccClearEff_keeps ..)); decide)
    | intro _
    | split)

theorem execLaccClearProduct_keeps (t : Site) (h : Hdr) (o : LaccOps) (s : State) :
    ∃ nx, execLaccClearProduct t h o s = .next nx ∧ Keeps [.free, .regs, .mem, .ecc, .vio, .out, .host, .boot, .test, .cores, .sched, .units] s nx := by
  refine ⟨_, rfl, ?_⟩
  try dsimp only
  repeat' (first
    | with_reducible exact Keeps.refl _ _
    | with_reducible assumption
    | with_reducible apply Eff.keeps_done
    | with_reducible apply Eff.keeps_fault
    | with_reducible apply Eff.keeps_wait
    | with_reducible apply Eff.keeps_hold
    | with_reducible apply Eff.keeps_ite
    | with_reducible apply Eff.keeps_ite_fst
    | ((with_reducible apply State.issueAs_keeps); decide)
    | ((with_reducible apply Eff.keeps_after (laccClearEff_keeps ..)); decide)
    | intro _
    | split)

theorem laccAddEff_keeps (t : Site) (o : LaccOps) (s : State) : Eff.Keeps [.cores] s (laccAddEff t o s) := by
  unfold laccAddEff
  try dsimp only
  repeat' (first
    | with_reducible exact Keeps.refl _ _
    | with_reducible assumption
    | with_reducible apply Keeps.ite
    | with_reducible apply Eff.keeps_done
    | with_reducible apply Eff.keeps_fault
    | with_reducible apply Eff.keeps_wait
    | with_reducible apply Eff.keeps_hold
    | with_reducible apply Eff.keeps_ite
    | with_reducible apply Eff.keeps_ite_fst
    | ((with_reducible apply Keeps.after (State.setCore_keeps ..)); decide)
    | split)

theorem execLaccAdd_keeps (t : Site) (h : Hdr) (o : LaccOps) (s : State) :
    ∃ nx, execLaccAdd t h o s = .next nx ∧ Keeps [.free, .regs, .mem, .ecc, .vio, .out, .host, .boot, .test, .cores, .sched, .units] s nx := by
  refine ⟨_, rfl, ?_⟩
  try dsimp only
  repeat' (first
    | with_reducible exact Keeps.refl _ _
    | with_reducible assumption
    | with_reducible apply Eff.keeps_done
    | with_reducible apply Eff.keeps_fault
    | with_reducible apply Eff.keeps_wait
    | with_reducible apply Eff.keeps_hold
    | with_reducible apply Eff.keeps_ite
    | with_reducible apply Eff.keeps_ite_fst
    | ((with_reducible apply State.issueAs_keeps); decide)
    | ((with_reducible apply Eff.keeps_after (laccAddEff_keeps ..)); decide)
    | intro _
    | split)

theorem laccDrainEff_keeps (t : Site) (o : LaccOps) (s : State) : Eff.Keeps [.cores, .sched] s (laccDrainEff t o s) := by
  unfold laccDrainEff
  try dsimp only
  repeat' (first
    | with_reducible exact Keeps.refl _ _
    | with_reducible assumption
    | with_reducible apply Keeps.ite
    | with_reducible apply Eff.keeps_done
    | with_reducible apply Eff.keeps_fault
    | with_reducible apply Eff.keeps_wait
    | with_reducible apply Eff.keeps_hold
    | with_reducible apply Eff.keeps_ite
    | with_reducible apply Eff.keeps_ite_fst
    | ((with_reducible apply Keeps.after (State.setCtx_keeps ..)); decide)
    | ((with_reducible apply Keeps.after (State.setCore_keeps ..)); decide)
    | ((with_reducible apply Keeps.after (State.orFlags_keeps ..)); decide)
    | with_reducible refine Keeps.foldl (fun _ _ _ => ?_) ?_
    | split)

theorem execLaccDrain_keeps (t : Site) (h : Hdr) (o : LaccOps) (s : State) :
    ∃ nx, execLaccDrain t h o s = .next nx ∧ Keeps [.free, .regs, .mem, .ecc, .vio, .out, .host, .boot, .test, .cores, .sched, .units] s nx := by
  refine ⟨_, rfl, ?_⟩
  try dsimp only
  repeat' (first
    | with_reducible exact Keeps.refl _ _
    | with_reducible assumption
    | with_reducible apply Eff.keeps_done
    | with_reducible apply Eff.keeps_fault
    | with_reducible apply Eff.keeps_wait
    | with_reducible apply Eff.keeps_hold
    | with_reducible apply Eff.keeps_ite
    | with_reducible apply Eff.keeps_ite_fst
    | ((with_reducible apply State.issueAs_keeps); decide)
    | ((with_reducible apply Eff.keeps_after (laccDrainEff_keeps ..)); decide)
    | intro _
    | split)

theorem ldEff_keeps (t : Site) (o : MemOps) (s : State) : Eff.Keeps [.cores] s (ldEff t o s) := by
  unfold ldEff
  try dsimp only
  repeat' (first
    | with_reducible exact Keeps.refl _ _
    | with_reducible assumption
    | with_reducible apply Keeps.ite
    | with_reducible apply Eff.keeps_done
    | with_reducible apply Eff.keeps_fault
    | with_reducible apply Eff.keeps_wait
    | with_reducible apply Eff.keeps_hold
    | with_reducible apply Eff.keeps_ite
    | with_reducible apply Eff.keeps_ite_fst
    | ((with_reducible apply Keeps.after (State.setCtx_keeps ..)); decide)
    | split)

theorem execLd_keeps (t : Site) (h : Hdr) (o : MemOps) (s : State) :
    ∃ nx, execLd t h o s = .next nx ∧ Keeps [.free, .regs, .mem, .ecc, .vio, .out, .host, .boot, .test, .cores, .sched, .units] s nx := by
  refine ⟨_, rfl, ?_⟩
  try dsimp only
  repeat' (first
    | with_reducible exact Keeps.refl _ _
    | with_reducible assumption
    | with_reducible apply Eff.keeps_done
    | with_reducible apply Eff.keeps_fault
    | with_reducible apply Eff.keeps_wait
    | with_reducible apply Eff.keeps_hold
    | with_reducible apply Eff.keeps_ite
    | with_reducible apply Eff.keeps_ite_fst
    | ((with_reducible apply State.issueAs_keeps); decide)
    | ((with_reducible apply Eff.keeps_after (ldEff_keeps ..)); decide)
    | intro _
    | split)

theorem stEff_keeps (t : Site) (o : MemOps) (s : State) : Eff.Keeps [.mem] s (stEff t o s) := by
  unfold stEff
  try dsimp only
  repeat' (first
    | with_reducible exact Keeps.refl _ _
    | with_reducible assumption
    | with_reducible apply Keeps.ite
    | with_reducible apply Eff.keeps_done
    | with_reducible apply Eff.keeps_fault
    | with_reducible apply Eff.keeps_wait
    | with_reducible apply Eff.keeps_hold
    | with_reducible apply Eff.keeps_ite
    | with_reducible apply Eff.keeps_ite_fst
    | ((with_reducible apply Keeps.after (State.putNum_keeps ..)); decide)
    | with_reducible refine Keeps.foldl_snd (fun _ _ _ => ?_) ?_
    | with_reducible refine Keeps.foldl (fun _ _ _ => ?_) ?_
    | split)

theorem execSt_keeps (t : Site) (h : Hdr) (o : MemOps) (s : State) :
    ∃ nx, execSt t h o s = .next nx ∧ Keeps [.free, .regs, .mem, .ecc, .vio, .out, .host, .boot, .test, .cores, .sched, .units] s nx := by
  refine ⟨_, rfl, ?_⟩
  try dsimp only
  repeat' (first
    | with_reducible exact Keeps.refl _ _
    | with_reducible assumption
    | with_reducible apply Eff.keeps_done
    | with_reducible apply Eff.keeps_fault
    | with_reducible apply Eff.keeps_wait
    | with_reducible apply Eff.keeps_hold
    | with_reducible apply Eff.keeps_ite
    | with_reducible apply Eff.keeps_ite_fst
    | ((with_reducible apply State.issueAs_keeps); decide)
    | ((with_reducible apply Eff.keeps_after (stEff_keeps ..)); decide)
    | intro _
    | split)

end Sys2Proof.Machine
end

