-- ==== Sys2Proof/Laws/KeepsNest.lean ====
section
/-! SUPPORT. What the operations of Machine/Nest.lean may change: one law each. -/

namespace Sys2Proof.Machine

theorem State.clearHolds_keeps (s : State) (a n : Nat) : Keeps [.mem] s (s.clearHolds a n) := by
  induction n generalizing s with
  | zero => exact Keeps.refl _ _
  | succ n ih =>
    exact Keeps.after (ih _) (by decide) (Keeps.after (State.zeroBytes_keeps ..) (by decide)
      (Keeps.after (State.putNum_keeps ..) (by decide) (Keeps.refl _ _)))

theorem State.showNest_keeps (s : State) (index done : Nat) : Keeps [.regs] s (State.showNest s index done) := by
  unfold State.showNest
  try dsimp only
  repeat' (first
    | with_reducible exact Keeps.refl _ _
    | with_reducible assumption
    | ((with_reducible apply Keeps.after (State.setFld_keeps ..)); decide)
    | split)

theorem State.prepareNest_keeps (s : State) (r : RunNest) : Keeps [.free, .regs, .mem, .ecc, .vio, .out, .host, .boot, .test, .cores, .sched, .units] s (State.prepareNest s r) := by
  unfold State.prepareNest
  try dsimp only
  repeat' (first
    | with_reducible exact Keeps.refl _ _
    | with_reducible assumption
    | with_reducible apply Keeps.ite
    | with_reducible apply Eff.keeps_done
    | with_reducible apply Eff.keeps_fault
    | with_reducible apply Eff.keeps_wait
    | with_reducible apply Eff.keeps_hold
    | with_reducible apply Eff.keeps_ite
    | with_reducible apply Eff.keeps_ite_fst
    | ((with_reducible apply Keeps.after (State.zeroBytes_keeps ..)); decide)
    | ((with_reducible apply Keeps.after (State.putNum_keeps ..)); decide)
    | ((with_reducible apply Keeps.after (State.clearHolds_keeps ..)); decide)
    | ((with_reducible apply State.committed_keeps); decide)
    | ((with_reducible apply Keeps.after (State.mapJob_keeps ..)); decide)
    | ((with_reducible apply Keeps.after (State.showNest_keeps ..)); decide)
    | intro _
    | split)

theorem State.setNest_keeps (s : State) (r : RunNest) : Keeps [.regs, .test, .sched] s (State.setNest s r) := by
  unfold State.setNest
  try dsimp only
  repeat' (first
    | with_reducible exact Keeps.refl _ _
    | with_reducible assumption
    | ((with_reducible apply Keeps.after (State.mapJob_keeps ..)); decide)
    | split)

theorem State.grab_keeps (s : State) (r : RunNest) : Keeps [.regs, .mem, .test, .sched] s (s.grab r).2 := by
  unfold State.grab
  dsimp only
  repeat' (first
    | with_reducible exact Keeps.refl _ _
    | with_reducible apply Keeps.ite_snd
    | ((with_reducible apply Keeps.after (State.perf_keeps ..)); decide)
    | ((with_reducible apply Keeps.after (State.putNum_keeps ..)); decide)
    | ((with_reducible apply Keeps.after (State.setNest_keeps ..)); decide)
    | split)

theorem State.beginItem_keeps (s : State) (r : RunNest) (t : Site) (i stop : Nat) : Keeps [.regs, .test, .cores, .sched] s (State.beginItem s r t i stop) := by
  unfold State.beginItem
  try dsimp only
  repeat' (first
    | with_reducible exact Keeps.refl _ _
    | with_reducible assumption
    | with_reducible apply Keeps.ite
    | ((with_reducible apply Keeps.after (State.setCtx_keeps ..)); decide)
    | ((with_reducible apply Keeps.after (State.setNest_keeps ..)); decide)
    | split)

theorem State.leaveNest_keeps (s : State) (r : RunNest) (t : Site) : Keeps [.cores] s (State.leaveNest s r t) := by
  unfold State.leaveNest
  try dsimp only
  repeat' (first
    | with_reducible exact Keeps.refl _ _
    | with_reducible assumption
    | ((with_reducible apply Keeps.after (State.setCtx_keeps ..)); decide)
    | split)

theorem State.haltBetween_keeps (s : State) (r : RunNest) (t : Site) : Keeps [.regs, .cores] s (State.haltBetween s r t) := by
  unfold State.haltBetween
  try dsimp only
  repeat' (first
    | with_reducible exact Keeps.refl _ _
    | with_reducible assumption
    | ((with_reducible apply Keeps.after (State.setCtx_keeps ..)); decide)
    | ((with_reducible apply Keeps.after (State.settleHalt_keeps ..)); decide)
    | split)

theorem State.takeItem_keeps (s : State) (r : RunNest) (t : Site) : Keeps [.regs, .mem, .test, .cores, .sched] s (State.takeItem s r t) := by
  unfold State.takeItem
  try dsimp only
  repeat' (first
    | with_reducible exact Keeps.refl _ _
    | with_reducible assumption
    | with_reducible apply Keeps.ite
    | ((with_reducible apply Keeps.after (State.beginItem_keeps ..)); decide)
    | ((with_reducible apply Keeps.after (State.grab_keeps ..)); decide)
    | ((with_reducible apply Keeps.after (State.leaveNest_keeps ..)); decide)
    | ((with_reducible apply Keeps.after (State.putNum_keeps ..)); decide)
    | ((with_reducible apply Keeps.of_eq); assumption)
    | ((with_reducible apply Keeps.of_eq3); assumption)
    | split)

theorem State.nextItem_keeps (s : State) (t : Site) : Keeps [.free, .regs, .mem, .ecc, .vio, .out, .host, .boot, .test, .cores, .sched, .units] s (State.nextItem s t) := by
  unfold State.nextItem
  try dsimp only
  repeat' (first
    | with_reducible exact Keeps.refl _ _
    | with_reducible assumption
    | with_reducible apply Keeps.ite
    | ((with_reducible apply Keeps.after (State.haltBetween_keeps ..)); decide)
    | ((with_reducible apply Keeps.after (State.readChecks_keeps ..)); decide)
    | ((with_reducible apply Keeps.after (State.takeItem_keeps ..)); decide)
    | ((with_reducible apply Keeps.after (State.coreFault_keeps ..)); decide)
    | ((with_reducible apply Keeps.of_eq); assumption)
    | ((with_reducible apply Keeps.of_eq3); assumption)
    | split)

theorem State.joinNest_keeps (s : State) (t : Site) (r : RunNest) : Keeps [.free, .regs, .mem, .ecc, .vio, .out, .host, .boot, .test, .cores, .sched, .units] s (State.joinNest s t r) := by
  unfold State.joinNest
  try dsimp only
  repeat' (first
    | with_reducible exact Keeps.refl _ _
    | with_reducible assumption
    | with_reducible apply Keeps.ite
    | ((with_reducible apply Keeps.after (State.setCtx_keeps ..)); decide)
    | ((with_reducible apply Keeps.after (State.nextItem_keeps ..)); decide)
    | with_reducible refine Keeps.foldl (fun _ _ _ => ?_) ?_
    | split)

theorem nestEff_keeps (t : Site) (o : NestOps) (s : State) : Eff.Keeps [.free, .regs, .mem, .ecc, .vio, .out, .host, .boot, .test, .cores, .sched, .units] s (nestEff t o s) := by
  unfold nestEff
  try dsimp only
  repeat' (first
    | with_reducible exact Keeps.refl _ _
    | with_reducible assumption
    | with_reducible apply Keeps.ite
    | with_reducible apply Eff.keeps_done
    | with_reducible apply Eff.keeps_fault
    | with_reducible apply Eff.keeps_wait
    | with_reducible apply Eff.keeps_hold
    | with_reducible apply Eff.keeps_ite
    | with_reducible apply Eff.keeps_ite_fst
    | ((with_reducible apply Eff.keeps_after (State.passed_keeps ..)); decide)
    | ((with_reducible apply Keeps.after (State.setCtx_keeps ..)); decide)
    | ((with_reducible apply Keeps.after (State.advance_keeps ..)); decide)
    | ((with_reducible apply Keeps.after (State.mapJob_keeps ..)); decide)
    | ((with_reducible apply Keeps.after (State.joinNest_keeps ..)); decide)
    | ((with_reducible apply Keeps.after (State.prepareNest_keeps ..)); decide)
    | ((with_reducible apply Keeps.of_eq); assumption)
    | ((with_reducible apply Keeps.of_eq3); assumption)
    | split)

theorem execNest_keeps (t : Site) (h : Hdr) (o : NestOps) (s : State) :
    ∃ nx, execNest t h o s = .next nx ∧ Keeps [.free, .regs, .mem, .ecc, .vio, .out, .host, .boot, .test, .cores, .sched, .units] s nx := by
  refine ⟨_, rfl, ?_⟩
  try dsimp only
  repeat' (first
    | with_reducible exact Keeps.refl _ _
    | with_reducible assumption
    | with_reducible apply Keeps.ite
    | with_reducible apply Eff.keeps_done
    | with_reducible apply Eff.keeps_fault
    | with_reducible apply Eff.keeps_wait
    | with_reducible apply Eff.keeps_hold
    | with_reducible apply Eff.keeps_ite
    | with_reducible apply Eff.keeps_ite_fst
    | ((with_reducible apply State.issueAs_keeps); decide)
    | ((with_reducible apply Eff.keeps_after (nestEff_keeps ..)); decide)
    | intro _
    | split)

theorem State.countItem_keeps (s : State) (r : RunNest) (t : Site) (it : Item) : Keeps [.regs, .mem, .cores] s (State.countItem s r t it) := by
  unfold State.countItem
  try dsimp only
  repeat' (first
    | with_reducible exact Keeps.refl _ _
    | with_reducible assumption
    | with_reducible apply Keeps.ite
    | ((with_reducible apply Keeps.after (State.putNum_keeps ..)); decide)
    | ((with_reducible apply Keeps.after (State.zeroBytes_keeps ..)); decide)
    | ((with_reducible apply Keeps.after (State.showNest_keeps ..)); decide)
    | ((with_reducible apply Keeps.after (State.setCtx_keeps ..)); decide)
    | split)

theorem execItemEnd_keeps (t : Site) (s : State) :
    ∃ nx, execItemEnd t s = .next nx ∧ Keeps [.free, .regs, .mem, .ecc, .vio, .out, .host, .boot, .test, .cores, .sched, .units] s nx := by
  refine ⟨_, rfl, ?_⟩
  try dsimp only
  repeat' (first
    | with_reducible exact Keeps.refl _ _
    | with_reducible assumption
    | with_reducible apply Keeps.ite
    | ((with_reducible apply Keeps.after (State.coreFault_keeps ..)); decide)
    | ((with_reducible apply Keeps.after (State.readChecks_keeps ..)); decide)
    | ((with_reducible apply Keeps.after (State.countItem_keeps ..)); decide)
    | ((with_reducible apply Keeps.after (State.nextItem_keeps ..)); decide)
    | ((with_reducible apply Keeps.of_eq); assumption)
    | ((with_reducible apply Keeps.of_eq3); assumption)
    | split)

theorem State.endNest_keeps (s : State) (waits : List Nat) : Keeps [.free, .regs, .mem, .ecc, .vio, .out, .host, .boot, .test, .cores, .sched, .units] s (State.endNest s waits) := by
  unfold State.endNest
  try dsimp only
  repeat' (first
    | with_reducible exact Keeps.refl _ _
    | with_reducible assumption
    | ((with_reducible apply Keeps.after (State.setCtx_keeps ..)); decide)
    | ((with_reducible apply Keeps.after (State.advance_keeps ..)); decide)
    | ((with_reducible apply Keeps.after (State.mapJob_keeps ..)); decide)
    | with_reducible refine Keeps.foldl (fun _ _ _ => ?_) ?_
    | split)

theorem execNestComplete_keeps (s : State) :
    ∃ nx, execNestComplete s = .next nx ∧ Keeps [.free, .regs, .mem, .ecc, .vio, .out, .host, .boot, .test, .cores, .sched, .units] s nx := by
  refine ⟨_, rfl, ?_⟩
  try dsimp only
  repeat' (first
    | with_reducible exact Keeps.refl _ _
    | with_reducible assumption
    | with_reducible apply Keeps.ite
    | ((with_reducible apply Keeps.after (State.readCheck_keeps ..)); decide)
    | ((with_reducible apply Keeps.after (State.coreFault_keeps ..)); decide)
    | ((with_reducible apply Keeps.after (State.endNest_keeps ..)); decide)
    | ((with_reducible apply Keeps.of_eq); assumption)
    | ((with_reducible apply Keeps.of_eq3); assumption)
    | split)

end Sys2Proof.Machine
end

