-- ==== Sys2Proof/Laws/KeepsControl.lean ====
section
/-! SUPPORT. What the operations of Machine/Control.lean may change: one law each. -/

namespace Sys2Proof.Machine

theorem execInstrNop_keeps (t : Site) (h : Hdr) (s : State) :
    ∃ nx, execInstrNop t h s = .next nx ∧ Keeps [.free, .regs, .mem, .ecc, .vio, .out, .host, .boot, .test, .cores, .sched, .units] s nx := by
  refine ⟨_, rfl, ?_⟩
  try dsimp only
  repeat' (first
    | with_reducible exact Keeps.refl _ _
    | with_reducible assumption
    | with_reducible apply Eff.keeps_done
    | with_reducible apply Eff.keeps_fault
    | with_reducible apply Eff.keeps_wait
    | with_reducible apply Eff.keeps_hold
    | with_reducible apply Eff.keeps_ite
    | with_reducible apply Eff.keeps_ite_fst
    | ((with_reducible apply State.issueAs_keeps); decide)
    | intro _
    | split)

theorem semEff_keeps (t : Site) (i v : Nat) (s : State) : Eff.Keeps [.cores] s (semEff t i v s) := by
  unfold semEff
  try dsimp only
  repeat' (first
    | with_reducible exact Keeps.refl _ _
    | with_reducible assumption
    | with_reducible apply Keeps.ite
    | with_reducible apply Eff.keeps_done
    | with_reducible apply Eff.keeps_fault
    | with_reducible apply Eff.keeps_wait
    | with_reducible apply Eff.keeps_hold
    | with_reducible apply Eff.keeps_ite
    | with_reducible apply Eff.keeps_ite_fst
    | ((with_reducible apply Keeps.after (State.setSem_keeps ..)); decide)
    | split)

theorem execSemSet_keeps (t : Site) (h : Hdr) (o : SemOps) (s : State) :
    ∃ nx, execSemSet t h o s = .next nx ∧ Keeps [.free, .regs, .mem, .ecc, .vio, .out, .host, .boot, .test, .cores, .sched, .units] s nx := by
  refine ⟨_, rfl, ?_⟩
  try dsimp only
  repeat' (first
    | with_reducible exact Keeps.refl _ _
    | with_reducible assumption
    | with_reducible apply Eff.keeps_done
    | with_reducible apply Eff.keeps_fault
    | with_reducible apply Eff.keeps_wait
    | with_reducible apply Eff.keeps_hold
    | with_reducible apply Eff.keeps_ite
    | with_reducible apply Eff.keeps_ite_fst
    | ((with_reducible apply State.issueAs_keeps); decide)
    | ((with_reducible apply Eff.keeps_after (semEff_keeps ..)); decide)
    | intro _
    | split)

theorem execSemAdd_keeps (t : Site) (h : Hdr) (o : SemOps) (s : State) :
    ∃ nx, execSemAdd t h o s = .next nx ∧ Keeps [.free, .regs, .mem, .ecc, .vio, .out, .host, .boot, .test, .cores, .sched, .units] s nx := by
  refine ⟨_, rfl, ?_⟩
  try dsimp only
  repeat' (first
    | with_reducible exact Keeps.refl _ _
    | with_reducible assumption
    | with_reducible apply Eff.keeps_done
    | with_reducible apply Eff.keeps_fault
    | with_reducible apply Eff.keeps_wait
    | with_reducible apply Eff.keeps_hold
    | with_reducible apply Eff.keeps_ite
    | with_reducible apply Eff.keeps_ite_fst
    | ((with_reducible apply State.issueAs_keeps); decide)
    | ((with_reducible apply Eff.keeps_after (semEff_keeps ..)); decide)
    | intro _
    | split)

theorem branchTo_keeps (t : Site) (o : BranchOps) (taken : Bool) (c : Ctx) (s : State) : Eff.Keeps [.free, .regs, .mem, .ecc, .vio, .out, .host, .boot, .test, .cores, .units] s (branchTo t o taken c s) := by
  unfold branchTo
  try dsimp only
  repeat' (first
    | with_reducible exact Keeps.refl _ _
    | with_reducible assumption
    | with_reducible apply Keeps.ite
    | with_reducible apply Eff.keeps_done
    | with_reducible apply Eff.keeps_fault
    | with_reducible apply Eff.keeps_wait
    | with_reducible apply Eff.keeps_hold
    | with_reducible apply Eff.keeps_ite
    | with_reducible apply Eff.keeps_ite_fst
    | ((with_reducible apply Keeps.after (State.setCtx_keeps ..)); decide)
    | ((with_reducible apply Keeps.after (State.advance_keeps ..)); decide)
    | split)

theorem execBranchAlways_keeps (t : Site) (h : Hdr) (o : BranchOps) (s : State) :
    ∃ nx, execBranchAlways t h o s = .next nx ∧ Keeps [.free, .regs, .mem, .ecc, .vio, .out, .host, .boot, .test, .cores, .sched, .units] s nx := by
  refine ⟨_, rfl, ?_⟩
  try dsimp only
  repeat' (first
    | with_reducible exact Keeps.refl _ _
    | with_reducible assumption
    | with_reducible apply Eff.keeps_done
    | with_reducible apply Eff.keeps_fault
    | with_reducible apply Eff.keeps_wait
    | with_reducible apply Eff.keeps_hold
    | with_reducible apply Eff.keeps_ite
    | with_reducible apply Eff.keeps_ite_fst
    | ((with_reducible apply State.issueAs_keeps); decide)
    | ((with_reducible apply Eff.keeps_after (branchTo_keeps ..)); decide)
    | intro _
    | split)

theorem execBranchLoop_keeps (t : Site) (h : Hdr) (o : BranchOps) (s : State) :
    ∃ nx, execBranchLoop t h o s = .next nx ∧ Keeps [.free, .regs, .mem, .ecc, .vio, .out, .host, .boot, .test, .cores, .sched, .units] s nx := by
  refine ⟨_, rfl, ?_⟩
  try dsimp only
  repeat' (first
    | with_reducible exact Keeps.refl _ _
    | with_reducible assumption
    | with_reducible apply Eff.keeps_done
    | with_reducible apply Eff.keeps_fault
    | with_reducible apply Eff.keeps_wait
    | with_reducible apply Eff.keeps_hold
    | with_reducible apply Eff.keeps_ite
    | with_reducible apply Eff.keeps_ite_fst
    | ((with_reducible apply State.issueAs_keeps); decide)
    | ((with_reducible apply Eff.keeps_after (branchTo_keeps ..)); decide)
    | intro _
    | split)

theorem execBranchNonzero_keeps (t : Site) (h : Hdr) (o : BranchOps) (s : State) :
    ∃ nx, execBranchNonzero t h o s = .next nx ∧ Keeps [.free, .regs, .mem, .ecc, .vio, .out, .host, .boot, .test, .cores, .sched, .units] s nx := by
  refine ⟨_, rfl, ?_⟩
  try dsimp only
  repeat' (first
    | with_reducible exact Keeps.refl _ _
    | with_reducible assumption
    | with_reducible apply Eff.keeps_done
    | with_reducible apply Eff.keeps_fault
    | with_reducible apply Eff.keeps_wait
    | with_reducible apply Eff.keeps_hold
    | with_reducible apply Eff.keeps_ite
    | with_reducible apply Eff.keeps_ite_fst
    | ((with_reducible apply State.issueAs_keeps); decide)
    | ((with_reducible apply Eff.keeps_after (branchTo_keeps ..)); decide)
    | intro _
    | split)

theorem execBranchLoadLoop_keeps (t : Site) (h : Hdr) (o : BranchOps) (s : State) :
    ∃ nx, execBranchLoadLoop t h o s = .next nx ∧ Keeps [.free, .regs, .mem, .ecc, .vio, .out, .host, .boot, .test, .cores, .sched, .units] s nx := by
  refine ⟨_, rfl, ?_⟩
  try dsimp only
  repeat' (first
    | with_reducible exact Keeps.refl _ _
    | with_reducible assumption
    | with_reducible apply Eff.keeps_done
    | with_reducible apply Eff.keeps_fault
    | with_reducible apply Eff.keeps_wait
    | with_reducible apply Eff.keeps_hold
    | with_reducible apply Eff.keeps_ite
    | with_reducible apply Eff.keeps_ite_fst
    | ((with_reducible apply State.issueAs_keeps); decide)
    | ((with_reducible apply Keeps.after (State.setCtx_keeps ..)); decide)
    | intro _
    | split)

theorem endEff_keeps (t : Site) (s : State) : Eff.Keeps [.regs, .cores] s (endEff t s) := by
  unfold endEff
  try dsimp only
  repeat' (first
    | with_reducible exact Keeps.refl _ _
    | with_reducible assumption
    | with_reducible apply Eff.keeps_done
    | with_reducible apply Eff.keeps_fault
    | with_reducible apply Eff.keeps_wait
    | with_reducible apply Eff.keeps_hold
    | with_reducible apply Eff.keeps_ite
    | with_reducible apply Eff.keeps_ite_fst
    | ((with_reducible apply Keeps.after (State.setCtx_keeps ..)); decide)
    | ((with_reducible apply Keeps.after (State.settleEnd_keeps ..)); decide)
    | split)

theorem execEnd_keeps (t : Site) (h : Hdr) (s : State) :
    ∃ nx, execEnd t h s = .next nx ∧ Keeps [.free, .regs, .mem, .ecc, .vio, .out, .host, .boot, .test, .cores, .sched, .units] s nx := by
  refine ⟨_, rfl, ?_⟩
  try dsimp only
  repeat' (first
    | with_reducible exact Keeps.refl _ _
    | with_reducible assumption
    | with_reducible apply Eff.keeps_done
    | with_reducible apply Eff.keeps_fault
    | with_reducible apply Eff.keeps_wait
    | with_reducible apply Eff.keeps_hold
    | with_reducible apply Eff.keeps_ite
    | with_reducible apply Eff.keeps_ite_fst
    | ((with_reducible apply State.issueAs_keeps); decide)
    | ((with_reducible apply Eff.keeps_after (endEff_keeps ..)); decide)
    | intro _
    | split)

theorem State.signal_keeps (s : State) (core i pc : Nat) : Keeps [.regs, .vio, .out, .host, .test, .cores, .sched] s (State.signal s core i pc) := by
  unfold State.signal
  try dsimp only
  repeat' (first
    | with_reducible exact Keeps.refl _ _
    | with_reducible assumption
    | with_reducible apply Keeps.ite
    | ((with_reducible apply Keeps.after (State.coreFault_keeps ..)); decide)
    | ((with_reducible apply Keeps.after (State.setSem_keeps ..)); decide)
    | split)

theorem execInstructionComplete_keeps (core index : Nat) (s : State) :
    ∃ nx, execInstructionComplete core index s = .next nx ∧ Keeps [.free, .regs, .mem, .ecc, .vio, .out, .host, .boot, .test, .cores, .sched, .units] s nx := by
  refine ⟨_, rfl, ?_⟩
  try dsimp only
  repeat' (first
    | with_reducible exact Keeps.refl _ _
    | with_reducible assumption
    | with_reducible apply Keeps.ite
    | ((with_reducible apply Keeps.after (State.setCore_keeps ..)); decide)
    | ((with_reducible apply Keeps.after (State.coreFault_keeps ..)); decide)
    | ((with_reducible apply Keeps.after (State.signal_keeps ..)); decide)
    | ((with_reducible apply Keeps.after (State.settleHalt_keeps ..)); decide)
    | ((with_reducible apply Keeps.after (State.readCheck_keeps ..)); decide)
    | ((with_reducible apply Keeps.after (State.putNum_keeps ..)); decide)
    | ((with_reducible apply Keeps.of_eq); assumption)
    | ((with_reducible apply Keeps.of_eq3); assumption)
    | split)

theorem execSemWaitTimeout_keeps (t : Site) (s : State) :
    ∃ nx, execSemWaitTimeout t s = .next nx ∧ Keeps [.regs, .vio, .out, .host, .test, .sched] s nx := by
  refine ⟨_, rfl, ?_⟩
  try dsimp only
  repeat' (first
    | with_reducible exact Keeps.refl _ _
    | with_reducible assumption
    | with_reducible apply Keeps.ite
    | ((with_reducible apply Keeps.after (State.coreFault_keeps ..)); decide)
    | ((with_reducible apply Keeps.of_eq); assumption)
    | ((with_reducible apply Keeps.of_eq3); assumption)
    | split)

theorem coreLimitsWrite_keeps (v : Word) (s : State) : Keeps [.regs] s (coreLimitsWrite v s).2 := by
  unfold coreLimitsWrite
  try dsimp only
  repeat' (first
    | with_reducible exact Keeps.refl _ _
    | with_reducible assumption
    | with_reducible apply Keeps.ite
    | ((with_reducible apply Keeps.after (State.setFld_keeps ..)); decide)
    | with_reducible apply Keeps.ite_snd
    | split)

theorem execCoreLimitsWrite_keeps (q : Fin 4) (v : Word) (s : State) :
    ∃ nx, execCoreLimitsWrite q v s = .next nx ∧ Keeps [.regs, .vio, .out, .host, .test] s nx := by
  refine ⟨_, rfl, ?_⟩
  try dsimp only
  repeat' (first
    | with_reducible exact Keeps.refl _ _
    | with_reducible assumption
    | with_reducible apply Eff.keeps_done
    | with_reducible apply Eff.keeps_fault
    | with_reducible apply Eff.keeps_wait
    | with_reducible apply Eff.keeps_hold
    | with_reducible apply Eff.keeps_ite
    | with_reducible apply Eff.keeps_ite_fst
    | ((with_reducible apply State.regWrite_keeps); decide)
    | ((with_reducible apply Keeps.after (coreLimitsWrite_keeps ..)); decide)
    | intro _
    | split)

end Sys2Proof.Machine
end

