-- ==== Sys2Proof/Laws/KeepsAccess.lean ====
section
/-! SUPPORT. What the operations of Machine/Access.lean may change: one law each. -/

namespace Sys2Proof.Machine

theorem State.jobRead_keeps (s : State) (core a n : Nat) : Keeps [.free, .regs, .mem, .ecc, .vio, .out, .host, .boot, .test, .units] s (State.jobRead s core a n).2.2 := by
  unfold State.jobRead
  try dsimp only
  repeat' (first
    | with_reducible exact Keeps.refl _ _
    | with_reducible assumption
    | with_reducible apply Keeps.ite
    | ((with_reducible apply Keeps.after (State.readMem_keeps ..)); decide)
    | with_reducible apply Keeps.ite_snd2
    | split)

theorem State.jobWrite_keeps (s : State) (a : Nat) (l : List Byte) : Keeps [.free, .regs, .mem, .ecc, .boot, .units] s (State.jobWrite s a l).2 := by
  unfold State.jobWrite
  try dsimp only
  repeat' (first
    | with_reducible exact Keeps.refl _ _
    | with_reducible assumption
    | with_reducible apply Keeps.ite
    | ((with_reducible apply Keeps.after (State.putBytes_keeps ..)); decide)
    | ((with_reducible apply Keeps.after (State.writeMem_keeps ..)); decide)
    | with_reducible apply Keeps.ite_snd
    | split)

theorem State.jobCopy_keeps (s : State) (core src dst n : Nat) : Keeps [.free, .regs, .mem, .ecc, .vio, .out, .host, .boot, .test, .units] s (State.jobCopy s core src dst n).2 := by
  unfold State.jobCopy
  try dsimp only
  repeat' (first
    | with_reducible exact Keeps.refl _ _
    | with_reducible assumption
    | with_reducible apply Keeps.ite
    | ((with_reducible apply Keeps.after (State.readCheck_keeps ..)); decide)
    | ((with_reducible apply Keeps.after (State.writeCheck_keeps ..)); decide)
    | ((with_reducible apply Keeps.after (State.copyBytes_keeps ..)); decide)
    | with_reducible apply Keeps.ite_snd
    | split)

end Sys2Proof.Machine
end

