-- ==== Sys2Proof/Laws/KeepsRemote.lean ====
section
/-! SUPPORT. What the operations of Machine/Remote.lean may change: one law each. -/

namespace Sys2Proof.Machine

theorem State.setFab_keeps (s : State) (f : FabUnit) : Keeps [.units] s (State.setFab s f) := by
  unfold State.setFab
  try dsimp only
  repeat' (first
    | with_reducible exact Keeps.refl _ _
    | with_reducible assumption
    | ((with_reducible apply Keeps.after (State.withUnits_keeps ..)); decide)
    | split)

theorem State.setPort_keeps (s : State) (p : Nat) (r : PortRun) : Keeps [.units] s (State.setPort s p r) := by
  unfold State.setPort
  try dsimp only
  repeat' (first
    | with_reducible exact Keeps.refl _ _
    | with_reducible assumption
    | ((with_reducible apply Keeps.after (State.setFab_keeps ..)); decide)
    | split)

theorem State.rebuildMaps_keeps (s : State) (g : Nat) : Keeps [.units] s (State.rebuildMaps s g) := by
  unfold State.rebuildMaps
  try dsimp only
  repeat' (first
    | with_reducible exact Keeps.refl _ _
    | with_reducible assumption
    | with_reducible apply Keeps.ite
    | ((with_reducible apply Keeps.after (State.setFab_keeps ..)); decide)
    | with_reducible refine Keeps.foldl (fun _ _ _ => ?_) ?_
    | split)

theorem State.arriving_keeps {k : List Part} {s0 : State} (s : State) (p : Nat) (f : State → State)
    (hk : ([] : List Part).all k.contains = true) (hf : ∀ s, Keeps k s (f s)) (h0 : Keeps k s0 s) : Keeps k s0 (s.arriving p f) := by
  unfold State.arriving
  exact Keeps.ite (Keeps.after (hf _) (Part.sub_refl _) h0) h0

theorem State.owe_keeps (s : State) (inPort : Option Nat) (vc slots : Nat) : Keeps [.units] s (State.owe s inPort vc slots) := by
  unfold State.owe
  try dsimp only
  repeat' (first
    | with_reducible exact Keeps.refl _ _
    | with_reducible assumption
    | ((with_reducible apply Keeps.after (State.setPort_keeps ..)); decide)
    | ((with_reducible apply Keeps.of_eq); assumption)
    | ((with_reducible apply Keeps.of_eq3); assumption)
    | split)

theorem State.oweFor_keeps (s : State) (w : Waiting) : Keeps [.units] s (State.oweFor s w) := by
  unfold State.oweFor
  try dsimp only
  repeat' (first
    | with_reducible exact Keeps.refl _ _
    | with_reducible assumption
    | ((with_reducible apply Keeps.after (State.owe_keeps ..)); decide)
    | ((with_reducible apply Keeps.of_eq); assumption)
    | ((with_reducible apply Keeps.of_eq3); assumption)
    | split)

theorem State.countFlits_keeps (s : State) (cnt sat : Field) (before after : Nat) : Keeps [.regs] s (State.countFlits s cnt sat before after) := by
  unfold State.countFlits
  try dsimp only
  repeat' (first
    | with_reducible exact Keeps.refl _ _
    | with_reducible assumption
    | with_reducible apply Keeps.ite
    | ((with_reducible apply Keeps.after (State.bump_keeps ..)); decide)
    | split)

theorem State.sendControl_keeps (s : State) (p : Nat) (nak : Bool) (record : List Byte) : Keeps [.out, .units] s (State.sendControl s p nak record) := by
  unfold State.sendControl
  try dsimp only
  repeat' (first
    | with_reducible exact Keeps.refl _ _
    | with_reducible assumption
    | ((with_reducible apply Keeps.after (State.setPort_keeps ..)); decide)
    | ((with_reducible apply Keeps.after (State.emit_keeps ..)); decide)
    | split)

theorem State.sendFlit_keeps (s : State) (p : Nat) (f : Flit) : Keeps [.regs, .out, .units] s (State.sendFlit s p f) := by
  unfold State.sendFlit
  try dsimp only
  repeat' (first
    | with_reducible exact Keeps.refl _ _
    | with_reducible assumption
    | with_reducible apply Keeps.ite
    | ((with_reducible apply Keeps.after (State.setPort_keeps ..)); decide)
    | ((with_reducible apply Keeps.after (State.emit_keeps ..)); decide)
    | ((with_reducible apply Keeps.after (State.countFlits_keeps ..)); decide)
    | ((with_reducible apply Keeps.after (State.sendControl_keeps ..)); decide)
    | split)

theorem State.sendBytes_keeps (s : State) (p : Nat) (w : Waiting) : Keeps [.free, .out, .units] s (State.sendBytes s p w).2 := by
  unfold State.sendBytes
  try dsimp only
  repeat' (first
    | with_reducible exact Keeps.refl _ _
    | with_reducible assumption
    | with_reducible apply Keeps.ite
    | ((with_reducible apply Keeps.after (State.draw_keeps ..)); decide)
    | ((with_reducible apply Keeps.after (State.oweFor_keeps ..)); decide)
    | ((with_reducible apply Keeps.after (State.emit_keeps ..)); decide)
    | with_reducible apply Keeps.ite_snd
    | split)

theorem State.sendAll_keeps (s : State) (p : Nat) (l : List Waiting) : Keeps [.free, .out, .units] s (s.sendAll p l).2 := by
  induction l generalizing s with
  | nil => exact Keeps.refl _ _
  | cons w l ih =>
    unfold State.sendAll
    exact Keeps.snd_mk (Keeps.after (ih _) (by decide) (Keeps.after (State.sendBytes_keeps ..) (by decide) (Keeps.refl _ _)))

theorem State.portPump_keeps (s : State) (p : Nat) : Keeps [.free, .regs, .out, .units] s (State.portPump s p) := by
  unfold State.portPump
  try dsimp only
  repeat' (first
    | with_reducible exact Keeps.refl _ _
    | with_reducible assumption
    | with_reducible apply Keeps.ite
    | ((with_reducible apply Keeps.after (State.setPort_keeps ..)); decide)
    | ((with_reducible apply Keeps.after (State.sendAll_keeps ..)); decide)
    | ((with_reducible apply Keeps.after (State.sendFlit_keeps ..)); decide)
    | ((with_reducible apply Keeps.after (State.perf_keeps ..)); decide)
    | with_reducible refine Keeps.foldl_snd (fun _ _ _ => ?_) ?_
    | with_reducible refine Keeps.foldl (fun _ _ _ => ?_) ?_
    | split)

theorem State.onPort_keeps (s : State) (p : Nat) (w : Waiting) : Keeps [.free, .regs, .out, .units] s (State.onPort s p w) := by
  unfold State.onPort
  try dsimp only
  repeat' (first
    | with_reducible exact Keeps.refl _ _
    | with_reducible assumption
    | ((with_reducible apply Keeps.after (State.setPort_keeps ..)); decide)
    | ((with_reducible apply Keeps.after (State.portPump_keeps ..)); decide)
    | split)

theorem State.launch_keeps (s : State) (reqId : Nat) : Keeps [.free, .regs, .out, .units] s (State.launch s reqId) := by
  unfold State.launch
  try dsimp only
  repeat' (first
    | with_reducible exact Keeps.refl _ _
    | with_reducible assumption
    | with_reducible apply Keeps.ite
    | ((with_reducible apply Keeps.after (State.setFab_keeps ..)); decide)
    | ((with_reducible apply Keeps.after (State.onPort_keeps ..)); decide)
    | ((with_reducible apply Keeps.of_eq); assumption)
    | ((with_reducible apply Keeps.of_eq3); assumption)
    | split)

theorem State.inject_keeps (s : State) (t : Trans) : Keeps [.free, .regs, .out, .units] s (State.inject s t) := by
  unfold State.inject
  try dsimp only
  repeat' (first
    | with_reducible exact Keeps.refl _ _
    | with_reducible assumption
    | with_reducible apply Keeps.ite
    | ((with_reducible apply Keeps.after (State.setFab_keeps ..)); decide)
    | ((with_reducible apply Keeps.after (State.launch_keeps ..)); decide)
    | split)

theorem State.injectAll_keeps (s : State) (l : List Trans) : Keeps [.free, .regs, .out, .units] s (s.injectAll l).2 := by
  induction l generalizing s with
  | nil => exact Keeps.refl _ _
  | cons t l ih =>
    exact Keeps.after (ih _) (by decide) (Keeps.after (State.inject_keeps ..) (by decide)
      (Keeps.after (State.setFab_keeps ..) (by decide) (Keeps.refl _ _)))

theorem State.freeTrans_keeps (s : State) (reqId : Nat) : Keeps [.free, .regs, .out, .units] s (State.freeTrans s reqId) := by
  unfold State.freeTrans
  try dsimp only
  repeat' (first
    | with_reducible exact Keeps.refl _ _
    | with_reducible assumption
    | ((with_reducible apply Keeps.after (State.setFab_keeps ..)); decide)
    | ((with_reducible apply Keeps.after (State.inject_keeps ..)); decide)
    | ((with_reducible apply Keeps.of_eq); assumption)
    | ((with_reducible apply Keeps.of_eq3); assumption)
    | split)

theorem State.endPost_keeps (s : State) (core : Nat) : Keeps [.free, .regs, .out, .units] s (State.endPost s core) := by
  unfold State.endPost
  try dsimp only
  repeat' (first
    | with_reducible exact Keeps.refl _ _
    | with_reducible assumption
    | ((with_reducible apply Keeps.after (State.bump_keeps ..)); decide)
    | ((with_reducible apply Keeps.after (State.freeTrans_keeps ..)); decide)
    | ((with_reducible apply Keeps.of_eq); assumption)
    | ((with_reducible apply Keeps.of_eq3); assumption)
    | split)

theorem execSlotWaitTimeout_keeps (t : Site) (s : State) :
    ∃ nx, execSlotWaitTimeout t s = .next nx ∧ Keeps [.free, .regs, .vio, .out, .host, .test, .sched, .units] s nx := by
  refine ⟨_, rfl, ?_⟩
  try dsimp only
  repeat' (first
    | with_reducible exact Keeps.refl _ _
    | with_reducible assumption
    | with_reducible apply Keeps.ite
    | ((with_reducible apply Keeps.after (State.endPost_keeps ..)); decide)
    | ((with_reducible apply Keeps.after (State.coreFault_keeps ..)); decide)
    | ((with_reducible apply Keeps.of_eq); assumption)
    | ((with_reducible apply Keeps.of_eq3); assumption)
    | split)

theorem State.instrAnswer_keeps (s : State) (core serial : Nat) (st : Status) : Keeps [.free, .regs, .out, .cores, .units] s (State.instrAnswer s core serial st) := by
  unfold State.instrAnswer
  try dsimp only
  repeat' (first
    | with_reducible exact Keeps.refl _ _
    | with_reducible assumption
    | with_reducible apply Keeps.ite
    | ((with_reducible apply Keeps.after (State.setCore_keeps ..)); decide)
    | ((with_reducible apply Keeps.after (State.injectAll_keeps ..)); decide)
    | ((with_reducible apply Keeps.of_eq); assumption)
    | ((with_reducible apply Keeps.of_eq3); assumption)
    | split)

theorem State.countDrop_keeps (s : State) (st : Status) (p : Packet) : Keeps [.regs, .vio, .out, .host, .test] s (State.countDrop s st p) := by
  unfold State.countDrop
  try dsimp only
  repeat' (first
    | with_reducible exact Keeps.refl _ _
    | with_reducible assumption
    | ((with_reducible apply Keeps.after (State.log_keeps ..)); decide)
    | ((with_reducible apply Keeps.after (State.bump_keeps ..)); decide)
    | split)

theorem State.place_keeps (s : State) (inPort : Option Nat) (p : Packet) : Keeps [.free, .regs, .out, .units] s (State.place s inPort p) := by
  unfold State.place
  try dsimp only
  repeat' (first
    | with_reducible exact Keeps.refl _ _
    | with_reducible assumption
    | with_reducible apply Keeps.ite
    | ((with_reducible apply Keeps.after (State.setFab_keeps ..)); decide)
    | ((with_reducible apply Keeps.after (State.onPort_keeps ..)); decide)
    | ((with_reducible apply Keeps.of_eq); assumption)
    | ((with_reducible apply Keeps.of_eq3); assumption)
    | split)

theorem State.discard_keeps (s : State) (inPort : Option Nat) (st : Status) (p : Packet) : Keeps [.free, .regs, .vio, .out, .host, .test, .units] s (State.discard s inPort st p) := by
  unfold State.discard
  try dsimp only
  repeat' (first
    | with_reducible exact Keeps.refl _ _
    | with_reducible assumption
    | with_reducible apply Keeps.ite
    | ((with_reducible apply Keeps.after (State.owe_keeps ..)); decide)
    | ((with_reducible apply Keeps.after (State.countDrop_keeps ..)); decide)
    | ((with_reducible apply Keeps.after (State.place_keeps ..)); decide)
    | split)

theorem State.sendPacket_keeps (s : State) (inPort : Option Nat) (p : Packet) : Keeps [.free, .regs, .vio, .out, .host, .test, .units] s (State.sendPacket s inPort p) := by
  unfold State.sendPacket
  try dsimp only
  repeat' (first
    | with_reducible exact Keeps.refl _ _
    | with_reducible assumption
    | with_reducible apply Keeps.ite
    | ((with_reducible apply Keeps.after (State.place_keeps ..)); decide)
    | ((with_reducible apply Keeps.after (State.discard_keeps ..)); decide)
    | split)

theorem State.answerTo_keeps (s : State) (h : PktHdr) (op : Nat) (st : Status) (data : List Byte) : Keeps [.free, .regs, .vio, .out, .host, .test, .units] s (State.answerTo s h op st data) := by
  unfold State.answerTo
  try dsimp only
  repeat' (first
    | with_reducible exact Keeps.refl _ _
    | with_reducible assumption
    | ((with_reducible apply Keeps.after (State.sendPacket_keeps ..)); decide)
    | split)

theorem State.releaseHeld_keeps (s : State) (a : Nat) : Keeps [.free, .regs, .vio, .out, .host, .test, .units] s (State.releaseHeld s a) := by
  unfold State.releaseHeld
  try dsimp only
  repeat' (first
    | with_reducible exact Keeps.refl _ _
    | with_reducible assumption
    | with_reducible apply Keeps.ite
    | ((with_reducible apply Keeps.after (State.sendPacket_keeps ..)); decide)
    | ((with_reducible apply Keeps.after (State.setFab_keeps ..)); decide)
    | with_reducible refine Keeps.foldl (fun _ _ _ => ?_) ?_
    | split)

theorem State.countSkipped_keeps (s : State) : Keeps [.mem] s (State.countSkipped s) := by
  unfold State.countSkipped
  try dsimp only
  repeat' (first
    | with_reducible exact Keeps.refl _ _
    | with_reducible assumption
    | ((with_reducible apply Keeps.after (State.putNum_keeps ..)); decide)
    | ((with_reducible apply Keeps.of_eq); assumption)
    | ((with_reducible apply Keeps.of_eq3); assumption)
    | split)

theorem State.nextWrite_keeps (s : State) (t : Site) : Keeps [.cores] s (State.nextWrite s t) := by
  unfold State.nextWrite
  try dsimp only
  repeat' (first
    | with_reducible exact Keeps.refl _ _
    | with_reducible assumption
    | ((with_reducible apply Keeps.after (State.setCtx_keeps ..)); decide)
    | split)

theorem State.committed_keeps {k : List Part} {s0 : State} (s : State) (t : Site) (com : Option (Nat × Nat))
    (go : State → Eff × List Nat × Option (Nat × Nat)) (hk : ([.free, .regs, .mem, .ecc, .vio, .out, .host, .boot, .test, .cores, .units] : List Part).all k.contains = true)
    (hb : ∀ s, Eff.Keeps k s (go s).1) (h0 : Keeps k s0 s) : Eff.Keeps k s0 (s.committed t com go).1 := by
  cases com with
  | none => exact Eff.keeps_after (hb _) (Part.sub_refl _) h0
  | some c =>
    have h1 : Keeps [.free, .regs, .mem, .ecc, .vio, .out, .host, .boot, .test, .cores, .units] s (s.readCheck s.coreClass (.core t.core) c.1 8).2 := Keeps.after (State.readCheck_keeps ..) (by decide) (Keeps.refl _ _)
    have h2 : Keeps [.free, .regs, .mem, .ecc, .vio, .out, .host, .boot, .test, .cores, .units] s ((s.readCheck s.coreClass (.core t.core) c.1 8).2.nextWrite t) := Keeps.after (State.nextWrite_keeps ..) (by decide) h1
    have up : ∀ u, Keeps [.free, .regs, .mem, .ecc, .vio, .out, .host, .boot, .test, .cores, .units] s u → Keeps k s0 u := fun u hu => Keeps.after hu hk h0
    unfold State.committed
    dsimp only
    refine Eff.keeps_ite_fst h0 (Eff.keeps_ite_fst (up _ h1) (Eff.keeps_ite_fst (up _ ?_) ?_))
    · exact Keeps.after (State.countSkipped_keeps ..) (by decide) h2
    · exact Eff.keeps_after (hb _) (Part.sub_refl _) (up _ h2)

theorem State.moveNow_keeps (s : State) (t : Site) (src dst n : Nat) (com : Option (Nat × Nat)) : Eff.Keeps [.free, .regs, .mem, .ecc, .vio, .out, .host, .boot, .test, .units] s (State.moveNow s t src dst n com).1 := by
  unfold State.moveNow
  try dsimp only
  repeat' (first
    | with_reducible exact Keeps.refl _ _
    | with_reducible assumption
    | with_reducible apply Keeps.ite
    | with_reducible apply Eff.keeps_done
    | with_reducible apply Eff.keeps_fault
    | with_reducible apply Eff.keeps_wait
    | with_reducible apply Eff.keeps_hold
    | with_reducible apply Eff.keeps_ite
    | with_reducible apply Eff.keeps_ite_fst
    | ((with_reducible apply Keeps.after (State.jobCopy_keeps ..)); decide)
    | ((with_reducible apply Keeps.after (State.jobRead_keeps ..)); decide)
    | ((with_reducible apply Keeps.after (State.injectAll_keeps ..)); decide)
    | split)

theorem moveStart_keeps (t : Site) (src dst n : Nat) (s : State) : Eff.Keeps [.free, .regs, .mem, .ecc, .vio, .out, .host, .boot, .test, .cores, .units] s (moveStart t src dst n s).1 := by
  unfold moveStart
  try dsimp only
  repeat' (first
    | with_reducible exact Keeps.refl _ _
    | with_reducible assumption
    | with_reducible apply Keeps.ite
    | with_reducible apply Eff.keeps_done
    | with_reducible apply Eff.keeps_fault
    | with_reducible apply Eff.keeps_wait
    | with_reducible apply Eff.keeps_hold
    | with_reducible apply Eff.keeps_ite
    | with_reducible apply Eff.keeps_ite_fst
    | ((with_reducible apply State.committed_keeps); decide)
    | ((with_reducible apply Eff.keeps_after (State.moveNow_keeps ..)); decide)
    | intro _
    | split)

theorem State.issueMove_keeps {k : List Part} {s0 : State} (s : State) (t : Site) (h : Hdr) (unit : UnitClass) (ok : Bool)
    (body : State → Eff × List Nat × Option (Nat × Nat)) (hk : ([.free, .regs, .mem, .ecc, .vio, .out, .host, .boot, .test, .cores, .sched, .units] : List Part).all k.contains = true)
    (hb : ∀ s, Eff.Keeps k s (body s).1) (h0 : Keeps k s0 s) :
    Keeps k s0 (s.issueMove t h unit ok body) := by
  refine Keeps.after ?_ (Part.sub_refl _) h0
  refine State.issueAs_keeps _ _ _ _ _ _ _ hk (fun s1 => ?_) (Keeps.refl _ _)
  have h1 := hb s1
  generalize body s1 = r at *
  obtain ⟨e, ids, com⟩ := r
  cases e with
  | done s2 =>
    have h2 : Keeps k s2 (s2.setCore t.core { s2.core t.core with inflight := (s2.core t.core).inflight ++
        [s1.moveFlight t h ids com] }) :=
      Keeps.after (Keeps.after (State.setCore_keeps ..) (by decide) (Keeps.refl [.free, .regs, .mem, .ecc, .vio, .out, .host, .boot, .test, .cores, .sched, .units] _)) hk (Keeps.refl _ _)
    exact Keeps.after h2 (Part.sub_refl _) h1
  | fault st a s2 => exact h1
  | wait s2 => exact h1
  | hold on s2 => exact h1

theorem execMove_keeps (t : Site) (h : Hdr) (o : MoveOps) (s : State) :
    ∃ nx, execMove t h o s = .next nx ∧ Keeps [.free, .regs, .mem, .ecc, .vio, .out, .host, .boot, .test, .cores, .sched, .units] s nx := by
  refine ⟨_, rfl, ?_⟩
  try dsimp only
  repeat' (first
    | with_reducible exact Keeps.refl _ _
    | with_reducible assumption
    | with_reducible apply Eff.keeps_done
    | with_reducible apply Eff.keeps_fault
    | with_reducible apply Eff.keeps_wait
    | with_reducible apply Eff.keeps_hold
    | with_reducible apply Eff.keeps_ite
    | with_reducible apply Eff.keeps_ite_fst
    | ((with_reducible apply State.issueMove_keeps); decide)
    | ((with_reducible apply Eff.keeps_after (moveStart_keeps ..)); decide)
    | intro _
    | split)

end Sys2Proof.Machine
end

