-- ==== Sys2Proof/Laws/KeepsSpecial.lean ====
section
/-! SUPPORT. What the operations of Machine/Special.lean may change: one law each. -/

namespace Sys2Proof.Machine

theorem sfnLanes_keeps (t : Site) (o : SfnOps) (g : Lane → Lane → Conv) (s : State) : Eff.Keeps [.cores, .sched] s (sfnLanes t o g s) := by
  unfold sfnLanes
  try dsimp only
  repeat' (first
    | with_reducible exact Keeps.refl _ _
    | with_reducible assumption
    | with_reducible apply Eff.keeps_done
    | with_reducible apply Eff.keeps_fault
    | with_reducible apply Eff.keeps_wait
    | with_reducible apply Eff.keeps_hold
    | with_reducible apply Eff.keeps_ite
    | with_reducible apply Eff.keeps_ite_fst
    | ((with_reducible apply Keeps.after (State.setCtx_keeps ..)); decide)
    | ((with_reducible apply Keeps.after (State.orFlags_keeps ..)); decide)
    | split)

theorem sfnUnary_keeps (f : Nat) (t : Site) (o : SfnOps) (s : State) : Eff.Keeps [.cores, .sched] s (sfnUnary f t o s) := by
  unfold sfnUnary
  try dsimp only
  repeat' (first
    | with_reducible exact Keeps.refl _ _
    | with_reducible assumption
    | with_reducible apply Eff.keeps_done
    | with_reducible apply Eff.keeps_fault
    | with_reducible apply Eff.keeps_wait
    | with_reducible apply Eff.keeps_hold
    | with_reducible apply Eff.keeps_ite
    | with_reducible apply Eff.keeps_ite_fst
    | ((with_reducible apply Eff.keeps_after (sfnLanes_keeps ..)); decide)
    | split)

theorem execSfnExp2_keeps (t : Site) (h : Hdr) (o : SfnOps) (s : State) :
    ∃ nx, execSfnExp2 t h o s = .next nx ∧ Keeps [.free, .regs, .mem, .ecc, .vio, .out, .host, .boot, .test, .cores, .sched, .units] s nx := by
  refine ⟨_, rfl, ?_⟩
  try dsimp only
  repeat' (first
    | with_reducible exact Keeps.refl _ _
    | with_reducible assumption
    | with_reducible apply Eff.keeps_done
    | with_reducible apply Eff.keeps_fault
    | with_reducible apply Eff.keeps_wait
    | with_reducible apply Eff.keeps_hold
    | with_reducible apply Eff.keeps_ite
    | with_reducible apply Eff.keeps_ite_fst
    | ((with_reducible apply State.issueAs_keeps); decide)
    | ((with_reducible apply Eff.keeps_after (sfnUnary_keeps ..)); decide)
    | intro _
    | split)

theorem execSfnExp_keeps (t : Site) (h : Hdr) (o : SfnOps) (s : State) :
    ∃ nx, execSfnExp t h o s = .next nx ∧ Keeps [.free, .regs, .mem, .ecc, .vio, .out, .host, .boot, .test, .cores, .sched, .units] s nx := by
  refine ⟨_, rfl, ?_⟩
  try dsimp only
  repeat' (first
    | with_reducible exact Keeps.refl _ _
    | with_reducible assumption
    | with_reducible apply Eff.keeps_done
    | with_reducible apply Eff.keeps_fault
    | with_reducible apply Eff.keeps_wait
    | with_reducible apply Eff.keeps_hold
    | with_reducible apply Eff.keeps_ite
    | with_reducible apply Eff.keeps_ite_fst
    | ((with_reducible apply State.issueAs_keeps); decide)
    | ((with_reducible apply Eff.keeps_after (sfnUnary_keeps ..)); decide)
    | intro _
    | split)

theorem execSfnLog2_keeps (t : Site) (h : Hdr) (o : SfnOps) (s : State) :
    ∃ nx, execSfnLog2 t h o s = .next nx ∧ Keeps [.free, .regs, .mem, .ecc, .vio, .out, .host, .boot, .test, .cores, .sched, .units] s nx := by
  refine ⟨_, rfl, ?_⟩
  try dsimp only
  repeat' (first
    | with_reducible exact Keeps.refl _ _
    | with_reducible assumption
    | with_reducible apply Eff.keeps_done
    | with_reducible apply Eff.keeps_fault
    | with_reducible apply Eff.keeps_wait
    | with_reducible apply Eff.keeps_hold
    | with_reducible apply Eff.keeps_ite
    | with_reducible apply Eff.keeps_ite_fst
    | ((with_reducible apply State.issueAs_keeps); decide)
    | ((with_reducible apply Eff.keeps_after (sfnUnary_keeps ..)); decide)
    | intro _
    | split)

theorem execSfnLn_keeps (t : Site) (h : Hdr) (o : SfnOps) (s : State) :
    ∃ nx, execSfnLn t h o s = .next nx ∧ Keeps [.free, .regs, .mem, .ecc, .vio, .out, .host, .boot, .test, .cores, .sched, .units] s nx := by
  refine ⟨_, rfl, ?_⟩
  try dsimp only
  repeat' (first
    | with_reducible exact Keeps.refl _ _
    | with_reducible assumption
    | with_reducible apply Eff.keeps_done
    | with_reducible apply Eff.keeps_fault
    | with_reducible apply Eff.keeps_wait
    | with_reducible apply Eff.keeps_hold
    | with_reducible apply Eff.keeps_ite
    | with_reducible apply Eff.keeps_ite_fst
    | ((with_reducible apply State.issueAs_keeps); decide)
    | ((with_reducible apply Eff.keeps_after (sfnUnary_keeps ..)); decide)
    | intro _
    | split)

theorem execSfnTanh_keeps (t : Site) (h : Hdr) (o : SfnOps) (s : State) :
    ∃ nx, execSfnTanh t h o s = .next nx ∧ Keeps [.free, .regs, .mem, .ecc, .vio, .out, .host, .boot, .test, .cores, .sched, .units] s nx := by
  refine ⟨_, rfl, ?_⟩
  try dsimp only
  repeat' (first
    | with_reducible exact Keeps.refl _ _
    | with_reducible assumption
    | with_reducible apply Eff.keeps_done
    | with_reducible apply Eff.keeps_fault
    | with_reducible apply Eff.keeps_wait
    | with_reducible apply Eff.keeps_hold
    | with_reducible apply Eff.keeps_ite
    | with_reducible apply Eff.keeps_ite_fst
    | ((with_reducible apply State.issueAs_keeps); decide)
    | ((with_reducible apply Eff.keeps_after (sfnUnary_keeps ..)); decide)
    | intro _
    | split)

theorem execSfnSigmoid_keeps (t : Site) (h : Hdr) (o : SfnOps) (s : State) :
    ∃ nx, execSfnSigmoid t h o s = .next nx ∧ Keeps [.free, .regs, .mem, .ecc, .vio, .out, .host, .boot, .test, .cores, .sched, .units] s nx := by
  refine ⟨_, rfl, ?_⟩
  try dsimp only
  repeat' (first
    | with_reducible exact Keeps.refl _ _
    | with_reducible assumption
    | with_reducible apply Eff.keeps_done
    | with_reducible apply Eff.keeps_fault
    | with_reducible apply Eff.keeps_wait
    | with_reducible apply Eff.keeps_hold
    | with_reducible apply Eff.keeps_ite
    | with_reducible apply Eff.keeps_ite_fst
    | ((with_reducible apply State.issueAs_keeps); decide)
    | ((with_reducible apply Eff.keeps_after (sfnUnary_keeps ..)); decide)
    | intro _
    | split)

theorem execSfnErf_keeps (t : Site) (h : Hdr) (o : SfnOps) (s : State) :
    ∃ nx, execSfnErf t h o s = .next nx ∧ Keeps [.free, .regs, .mem, .ecc, .vio, .out, .host, .boot, .test, .cores, .sched, .units] s nx := by
  refine ⟨_, rfl, ?_⟩
  try dsimp only
  repeat' (first
    | with_reducible exact Keeps.refl _ _
    | with_reducible assumption
    | with_reducible apply Eff.keeps_done
    | with_reducible apply Eff.keeps_fault
    | with_reducible apply Eff.keeps_wait
    | with_reducible apply Eff.keeps_hold
    | with_reducible apply Eff.keeps_ite
    | with_reducible apply Eff.keeps_ite_fst
    | ((with_reducible apply State.issueAs_keeps); decide)
    | ((with_reducible apply Eff.keeps_after (sfnUnary_keeps ..)); decide)
    | intro _
    | split)

theorem execSfnRcp_keeps (t : Site) (h : Hdr) (o : SfnOps) (s : State) :
    ∃ nx, execSfnRcp t h o s = .next nx ∧ Keeps [.free, .regs, .mem, .ecc, .vio, .out, .host, .boot, .test, .cores, .sched, .units] s nx := by
  refine ⟨_, rfl, ?_⟩
  try dsimp only
  repeat' (first
    | with_reducible exact Keeps.refl _ _
    | with_reducible assumption
    | with_reducible apply Eff.keeps_done
    | with_reducible apply Eff.keeps_fault
    | with_reducible apply Eff.keeps_wait
    | with_reducible apply Eff.keeps_hold
    | with_reducible apply Eff.keeps_ite
    | with_reducible apply Eff.keeps_ite_fst
    | ((with_reducible apply State.issueAs_keeps); decide)
    | ((with_reducible apply Eff.keeps_after (sfnUnary_keeps ..)); decide)
    | intro _
    | split)

theorem execSfnRsqrt_keeps (t : Site) (h : Hdr) (o : SfnOps) (s : State) :
    ∃ nx, execSfnRsqrt t h o s = .next nx ∧ Keeps [.free, .regs, .mem, .ecc, .vio, .out, .host, .boot, .test, .cores, .sched, .units] s nx := by
  refine ⟨_, rfl, ?_⟩
  try dsimp only
  repeat' (first
    | with_reducible exact Keeps.refl _ _
    | with_reducible assumption
    | with_reducible apply Eff.keeps_done
    | with_reducible apply Eff.keeps_fault
    | with_reducible apply Eff.keeps_wait
    | with_reducible apply Eff.keeps_hold
    | with_reducible apply Eff.keeps_ite
    | with_reducible apply Eff.keeps_ite_fst
    | ((with_reducible apply State.issueAs_keeps); decide)
    | ((with_reducible apply Eff.keeps_after (sfnUnary_keeps ..)); decide)
    | intro _
    | split)

theorem execSfnSqrt_keeps (t : Site) (h : Hdr) (o : SfnOps) (s : State) :
    ∃ nx, execSfnSqrt t h o s = .next nx ∧ Keeps [.free, .regs, .mem, .ecc, .vio, .out, .host, .boot, .test, .cores, .sched, .units] s nx := by
  refine ⟨_, rfl, ?_⟩
  try dsimp only
  repeat' (first
    | with_reducible exact Keeps.refl _ _
    | with_reducible assumption
    | with_reducible apply Eff.keeps_done
    | with_reducible apply Eff.keeps_fault
    | with_reducible apply Eff.keeps_wait
    | with_reducible apply Eff.keeps_hold
    | with_reducible apply Eff.keeps_ite
    | with_reducible apply Eff.keeps_ite_fst
    | ((with_reducible apply State.issueAs_keeps); decide)
    | ((with_reducible apply Eff.keeps_after (sfnUnary_keeps ..)); decide)
    | intro _
    | split)

theorem execSfnSinpi_keeps (t : Site) (h : Hdr) (o : SfnOps) (s : State) :
    ∃ nx, execSfnSinpi t h o s = .next nx ∧ Keeps [.free, .regs, .mem, .ecc, .vio, .out, .host, .boot, .test, .cores, .sched, .units] s nx := by
  refine ⟨_, rfl, ?_⟩
  try dsimp only
  repeat' (first
    | with_reducible exact Keeps.refl _ _
    | with_reducible assumption
    | with_reducible apply Eff.keeps_done
    | with_reducible apply Eff.keeps_fault
    | with_reducible apply Eff.keeps_wait
    | with_reducible apply Eff.keeps_hold
    | with_reducible apply Eff.keeps_ite
    | with_reducible apply Eff.keeps_ite_fst
    | ((with_reducible apply State.issueAs_keeps); decide)
    | ((with_reducible apply Eff.keeps_after (sfnUnary_keeps ..)); decide)
    | intro _
    | split)

theorem execSfnCospi_keeps (t : Site) (h : Hdr) (o : SfnOps) (s : State) :
    ∃ nx, execSfnCospi t h o s = .next nx ∧ Keeps [.free, .regs, .mem, .ecc, .vio, .out, .host, .boot, .test, .cores, .sched, .units] s nx := by
  refine ⟨_, rfl, ?_⟩
  try dsimp only
  repeat' (first
    | with_reducible exact Keeps.refl _ _
    | with_reducible assumption
    | with_reducible apply Eff.keeps_done
    | with_reducible apply Eff.keeps_fault
    | with_reducible apply Eff.keeps_wait
    | with_reducible apply Eff.keeps_hold
    | with_reducible apply Eff.keeps_ite
    | with_reducible apply Eff.keeps_ite_fst
    | ((with_reducible apply State.issueAs_keeps); decide)
    | ((with_reducible apply Eff.keeps_after (sfnUnary_keeps ..)); decide)
    | intro _
    | split)

theorem execSfnSilu_keeps (t : Site) (h : Hdr) (o : SfnOps) (s : State) :
    ∃ nx, execSfnSilu t h o s = .next nx ∧ Keeps [.free, .regs, .mem, .ecc, .vio, .out, .host, .boot, .test, .cores, .sched, .units] s nx := by
  refine ⟨_, rfl, ?_⟩
  try dsimp only
  repeat' (first
    | with_reducible exact Keeps.refl _ _
    | with_reducible assumption
    | with_reducible apply Eff.keeps_done
    | with_reducible apply Eff.keeps_fault
    | with_reducible apply Eff.keeps_wait
    | with_reducible apply Eff.keeps_hold
    | with_reducible apply Eff.keeps_ite
    | with_reducible apply Eff.keeps_ite_fst
    | ((with_reducible apply State.issueAs_keeps); decide)
    | ((with_reducible apply Eff.keeps_after (sfnUnary_keeps ..)); decide)
    | intro _
    | split)

theorem execSfnGelu_keeps (t : Site) (h : Hdr) (o : SfnOps) (s : State) :
    ∃ nx, execSfnGelu t h o s = .next nx ∧ Keeps [.free, .regs, .mem, .ecc, .vio, .out, .host, .boot, .test, .cores, .sched, .units] s nx := by
  refine ⟨_, rfl, ?_⟩
  try dsimp only
  repeat' (first
    | with_reducible exact Keeps.refl _ _
    | with_reducible assumption
    | with_reducible apply Eff.keeps_done
    | with_reducible apply Eff.keeps_fault
    | with_reducible apply Eff.keeps_wait
    | with_reducible apply Eff.keeps_hold
    | with_reducible apply Eff.keeps_ite
    | with_reducible apply Eff.keeps_ite_fst
    | ((with_reducible apply State.issueAs_keeps); decide)
    | ((with_reducible apply Eff.keeps_after (sfnUnary_keeps ..)); decide)
    | intro _
    | split)

theorem execSfnExp2a_keeps (t : Site) (h : Hdr) (o : SfnOps) (s : State) :
    ∃ nx, execSfnExp2a t h o s = .next nx ∧ Keeps [.free, .regs, .mem, .ecc, .vio, .out, .host, .boot, .test, .cores, .sched, .units] s nx := by
  refine ⟨_, rfl, ?_⟩
  try dsimp only
  repeat' (first
    | with_reducible exact Keeps.refl _ _
    | with_reducible assumption
    | with_reducible apply Eff.keeps_done
    | with_reducible apply Eff.keeps_fault
    | with_reducible apply Eff.keeps_wait
    | with_reducible apply Eff.keeps_hold
    | with_reducible apply Eff.keeps_ite
    | with_reducible apply Eff.keeps_ite_fst
    | ((with_reducible apply State.issueAs_keeps); decide)
    | ((with_reducible apply Eff.keeps_after (sfnLanes_keeps ..)); decide)
    | intro _
    | split)

theorem execSfnScalb_keeps (t : Site) (h : Hdr) (o : SfnOps) (s : State) :
    ∃ nx, execSfnScalb t h o s = .next nx ∧ Keeps [.free, .regs, .mem, .ecc, .vio, .out, .host, .boot, .test, .cores, .sched, .units] s nx := by
  refine ⟨_, rfl, ?_⟩
  try dsimp only
  repeat' (first
    | with_reducible exact Keeps.refl _ _
    | with_reducible assumption
    | with_reducible apply Eff.keeps_done
    | with_reducible apply Eff.keeps_fault
    | with_reducible apply Eff.keeps_wait
    | with_reducible apply Eff.keeps_hold
    | with_reducible apply Eff.keeps_ite
    | with_reducible apply Eff.keeps_ite_fst
    | ((with_reducible apply State.issueAs_keeps); decide)
    | ((with_reducible apply Eff.keeps_after (sfnLanes_keeps ..)); decide)
    | intro _
    | split)

theorem execSfnAnch_keeps (t : Site) (h : Hdr) (o : SfnOps) (s : State) :
    ∃ nx, execSfnAnch t h o s = .next nx ∧ Keeps [.free, .regs, .mem, .ecc, .vio, .out, .host, .boot, .test, .cores, .sched, .units] s nx := by
  refine ⟨_, rfl, ?_⟩
  try dsimp only
  repeat' (first
    | with_reducible exact Keeps.refl _ _
    | with_reducible assumption
    | with_reducible apply Eff.keeps_done
    | with_reducible apply Eff.keeps_fault
    | with_reducible apply Eff.keeps_wait
    | with_reducible apply Eff.keeps_hold
    | with_reducible apply Eff.keeps_ite
    | with_reducible apply Eff.keeps_ite_fst
    | ((with_reducible apply State.issueAs_keeps); decide)
    | ((with_reducible apply Eff.keeps_after (sfnLanes_keeps ..)); decide)
    | intro _
    | split)

theorem rowEff_keeps (isMax : Bool) (t : Site) (o : SfnOps) (s : State) : Eff.Keeps [.cores, .sched] s (rowEff isMax t o s) := by
  unfold rowEff
  try dsimp only
  repeat' (first
    | with_reducible exact Keeps.refl _ _
    | with_reducible assumption
    | with_reducible apply Eff.keeps_done
    | with_reducible apply Eff.keeps_fault
    | with_reducible apply Eff.keeps_wait
    | with_reducible apply Eff.keeps_hold
    | with_reducible apply Eff.keeps_ite
    | with_reducible apply Eff.keeps_ite_fst
    | ((with_reducible apply Keeps.after (State.setCtx_keeps ..)); decide)
    | ((with_reducible apply Keeps.after (State.orFlags_keeps ..)); decide)
    | split)

theorem execSfnHmax_keeps (t : Site) (h : Hdr) (o : SfnOps) (s : State) :
    ∃ nx, execSfnHmax t h o s = .next nx ∧ Keeps [.free, .regs, .mem, .ecc, .vio, .out, .host, .boot, .test, .cores, .sched, .units] s nx := by
  refine ⟨_, rfl, ?_⟩
  try dsimp only
  repeat' (first
    | with_reducible exact Keeps.refl _ _
    | with_reducible assumption
    | with_reducible apply Eff.keeps_done
    | with_reducible apply Eff.keeps_fault
    | with_reducible apply Eff.keeps_wait
    | with_reducible apply Eff.keeps_hold
    | with_reducible apply Eff.keeps_ite
    | with_reducible apply Eff.keeps_ite_fst
    | ((with_reducible apply State.issueAs_keeps); decide)
    | ((with_reducible apply Eff.keeps_after (rowEff_keeps ..)); decide)
    | intro _
    | split)

theorem execSfnHmin_keeps (t : Site) (h : Hdr) (o : SfnOps) (s : State) :
    ∃ nx, execSfnHmin t h o s = .next nx ∧ Keeps [.free, .regs, .mem, .ecc, .vio, .out, .host, .boot, .test, .cores, .sched, .units] s nx := by
  refine ⟨_, rfl, ?_⟩
  try dsimp only
  repeat' (first
    | with_reducible exact Keeps.refl _ _
    | with_reducible assumption
    | with_reducible apply Eff.keeps_done
    | with_reducible apply Eff.keeps_fault
    | with_reducible apply Eff.keeps_wait
    | with_reducible apply Eff.keeps_hold
    | with_reducible apply Eff.keeps_ite
    | with_reducible apply Eff.keeps_ite_fst
    | ((with_reducible apply State.issueAs_keeps); decide)
    | ((with_reducible apply Eff.keeps_after (rowEff_keeps ..)); decide)
    | intro _
    | split)

theorem lsaveEff_keeps (t : Site) (o : SfnOps) (s : State) : Eff.Keeps [.mem] s (lsaveEff t o s) := by
  unfold lsaveEff
  try dsimp only
  repeat' (first
    | with_reducible exact Keeps.refl _ _
    | with_reducible assumption
    | with_reducible apply Keeps.ite
    | with_reducible apply Eff.keeps_done
    | with_reducible apply Eff.keeps_fault
    | with_reducible apply Eff.keeps_wait
    | with_reducible apply Eff.keeps_hold
    | with_reducible apply Eff.keeps_ite
    | with_reducible apply Eff.keeps_ite_fst
    | ((with_reducible apply Keeps.after (State.putNum_keeps ..)); decide)
    | split)

theorem execSfnLsave_keeps (t : Site) (h : Hdr) (o : SfnOps) (s : State) :
    ∃ nx, execSfnLsave t h o s = .next nx ∧ Keeps [.free, .regs, .mem, .ecc, .vio, .out, .host, .boot, .test, .cores, .sched, .units] s nx := by
  refine ⟨_, rfl, ?_⟩
  try dsimp only
  repeat' (first
    | with_reducible exact Keeps.refl _ _
    | with_reducible assumption
    | with_reducible apply Eff.keeps_done
    | with_reducible apply Eff.keeps_fault
    | with_reducible apply Eff.keeps_wait
    | with_reducible apply Eff.keeps_hold
    | with_reducible apply Eff.keeps_ite
    | with_reducible apply Eff.keeps_ite_fst
    | ((with_reducible apply State.issueAs_keeps); decide)
    | ((with_reducible apply Eff.keeps_after (lsaveEff_keeps ..)); decide)
    | intro _
    | split)

theorem lmergeEff_keeps (t : Site) (o : SfnOps) (s : State) : Eff.Keeps [.cores] s (lmergeEff t o s) := by
  unfold lmergeEff
  try dsimp only
  repeat' (first
    | with_reducible exact Keeps.refl _ _
    | with_reducible assumption
    | with_reducible apply Keeps.ite
    | with_reducible apply Eff.keeps_done
    | with_reducible apply Eff.keeps_fault
    | with_reducible apply Eff.keeps_wait
    | with_reducible apply Eff.keeps_hold
    | with_reducible apply Eff.keeps_ite
    | with_reducible apply Eff.keeps_ite_fst
    | ((with_reducible apply Keeps.after (State.setCore_keeps ..)); decide)
    | ((with_reducible apply Keeps.of_eq); assumption)
    | ((with_reducible apply Keeps.of_eq3); assumption)
    | split)

theorem execSfnLmerge_keeps (t : Site) (h : Hdr) (o : SfnOps) (s : State) :
    ∃ nx, execSfnLmerge t h o s = .next nx ∧ Keeps [.free, .regs, .mem, .ecc, .vio, .out, .host, .boot, .test, .cores, .sched, .units] s nx := by
  refine ⟨_, rfl, ?_⟩
  try dsimp only
  repeat' (first
    | with_reducible exact Keeps.refl _ _
    | with_reducible assumption
    | with_reducible apply Eff.keeps_done
    | with_reducible apply Eff.keeps_fault
    | with_reducible apply Eff.keeps_wait
    | with_reducible apply Eff.keeps_hold
    | with_reducible apply Eff.keeps_ite
    | with_reducible apply Eff.keeps_ite_fst
    | ((with_reducible apply State.issueAs_keeps); decide)
    | ((with_reducible apply Eff.keeps_after (lmergeEff_keeps ..)); decide)
    | intro _
    | split)

end Sys2Proof.Machine
end

