-- ==== Sys2Proof/Laws/KeepsTables.lean ====
section
/-! SUPPORT. What the operations of Machine/Tables.lean may change: one law each. -/

namespace Sys2Proof.Machine

theorem sfuTableLoadWrite_keeps (v : Word) (s : State) : Keeps [.regs, .units] s (sfuTableLoadWrite v s).2 := by
  unfold sfuTableLoadWrite
  try dsimp only
  repeat' (first
    | with_reducible exact Keeps.refl _ _
    | with_reducible assumption
    | with_reducible apply Keeps.ite
    | ((with_reducible apply Keeps.after (State.setFld_keeps ..)); decide)
    | ((with_reducible apply Keeps.after (State.withUnits_keeps ..)); decide)
    | with_reducible apply Keeps.ite_snd
    | split)

theorem execSfuTableLoad_keeps (q : Fin 4) (v : Word) (s : State) :
    ∃ nx, execSfuTableLoad q v s = .next nx ∧ Keeps [.regs, .vio, .out, .host, .test, .units] s nx := by
  refine ⟨_, rfl, ?_⟩
  try dsimp only
  repeat' (first
    | with_reducible exact Keeps.refl _ _
    | with_reducible assumption
    | with_reducible apply Eff.keeps_done
    | with_reducible apply Eff.keeps_fault
    | with_reducible apply Eff.keeps_wait
    | with_reducible apply Eff.keeps_hold
    | with_reducible apply Eff.keeps_ite
    | with_reducible apply Eff.keeps_ite_fst
    | ((with_reducible apply State.regWrite_keeps); decide)
    | ((with_reducible apply Keeps.after (sfuTableLoadWrite_keeps ..)); decide)
    | intro _
    | split)

theorem State.sfuVerify_keeps (s : State) (a : Nat) (sig : SigVerdict) : Keeps [.free, .regs, .mem, .ecc, .vio, .out, .host, .boot, .test, .units] s (State.sfuVerify s a sig).2.2 := by
  unfold State.sfuVerify
  try dsimp only
  repeat' (first
    | with_reducible exact Keeps.refl _ _
    | with_reducible assumption
    | with_reducible apply Keeps.ite
    | ((with_reducible apply Keeps.after (State.readMem_keeps ..)); decide)
    | with_reducible apply Keeps.ite_snd2
    | split)

theorem execSfuTableLoadDone_keeps (sig : SigVerdict) (failed : Nat) (s : State) :
    ∃ nx, execSfuTableLoadDone sig failed s = .next nx ∧ Keeps [.free, .regs, .mem, .ecc, .vio, .out, .host, .boot, .test, .units] s nx := by
  refine ⟨_, rfl, ?_⟩
  try dsimp only
  repeat' (first
    | with_reducible exact Keeps.refl _ _
    | with_reducible assumption
    | with_reducible apply Keeps.ite
    | ((with_reducible apply Keeps.after (State.sfuVerify_keeps ..)); decide)
    | ((with_reducible apply Keeps.after (State.withUnits_keeps ..)); decide)
    | ((with_reducible apply Keeps.after (State.setFld_keeps ..)); decide)
    | ((with_reducible apply Keeps.of_eq); assumption)
    | ((with_reducible apply Keeps.of_eq3); assumption)
    | split)

theorem State.sfuEmpty_keeps (s : State) : Keeps [.regs, .units] s (State.sfuEmpty s) := by
  unfold State.sfuEmpty
  try dsimp only
  repeat' (first
    | with_reducible exact Keeps.refl _ _
    | with_reducible assumption
    | ((with_reducible apply Keeps.after (State.setFld_keeps ..)); decide)
    | ((with_reducible apply Keeps.after (State.withUnits_keeps ..)); decide)
    | split)

theorem sfuCtrlWrite_keeps (v : Word) (s : State) : Keeps [.regs, .units] s (sfuCtrlWrite v s).2 := by
  unfold sfuCtrlWrite
  try dsimp only
  repeat' (first
    | with_reducible exact Keeps.refl _ _
    | with_reducible assumption
    | with_reducible apply Keeps.ite
    | ((with_reducible apply Keeps.after (State.setFld_keeps ..)); decide)
    | ((with_reducible apply Keeps.after (State.sfuEmpty_keeps ..)); decide)
    | with_reducible apply Keeps.ite_snd
    | split)

theorem execSfuSwap_keeps (q : Fin 4) (s : State) :
    ∃ nx, execSfuSwap q s = .next nx ∧ Keeps [.regs, .vio, .out, .host, .test, .units] s nx := by
  refine ⟨_, rfl, ?_⟩
  try dsimp only
  repeat' (first
    | with_reducible exact Keeps.refl _ _
    | with_reducible assumption
    | with_reducible apply Eff.keeps_done
    | with_reducible apply Eff.keeps_fault
    | with_reducible apply Eff.keeps_wait
    | with_reducible apply Eff.keeps_hold
    | with_reducible apply Eff.keeps_ite
    | with_reducible apply Eff.keeps_ite_fst
    | ((with_reducible apply State.regWrite_keeps); decide)
    | ((with_reducible apply Keeps.after (sfuCtrlWrite_keeps ..)); decide)
    | intro _
    | split)

theorem execSfuDiscard_keeps (q : Fin 4) (s : State) :
    ∃ nx, execSfuDiscard q s = .next nx ∧ Keeps [.regs, .vio, .out, .host, .test, .units] s nx := by
  refine ⟨_, rfl, ?_⟩
  try dsimp only
  repeat' (first
    | with_reducible exact Keeps.refl _ _
    | with_reducible assumption
    | with_reducible apply Eff.keeps_done
    | with_reducible apply Eff.keeps_fault
    | with_reducible apply Eff.keeps_wait
    | with_reducible apply Eff.keeps_hold
    | with_reducible apply Eff.keeps_ite
    | with_reducible apply Eff.keeps_ite_fst
    | ((with_reducible apply State.regWrite_keeps); decide)
    | ((with_reducible apply Keeps.after (sfuCtrlWrite_keeps ..)); decide)
    | intro _
    | split)

theorem State.applySfuSwap_keeps (s : State) : Keeps [.regs, .units] s (State.applySfuSwap s) := by
  unfold State.applySfuSwap
  try dsimp only
  repeat' (first
    | with_reducible exact Keeps.refl _ _
    | with_reducible assumption
    | with_reducible apply Keeps.ite
    | ((with_reducible apply Keeps.after (State.withUnits_keeps ..)); decide)
    | ((with_reducible apply Keeps.after (State.setFld_keeps ..)); decide)
    | split)

theorem execHbmSkewCtrlWrite_keeps (q : Fin 4) (v : Word) (s : State) :
    ∃ nx, execHbmSkewCtrlWrite q v s = .next nx ∧ Keeps [.regs, .vio, .out, .host, .test] s nx := by
  refine ⟨_, rfl, ?_⟩
  try dsimp only
  repeat' (first
    | with_reducible exact Keeps.refl _ _
    | with_reducible assumption
    | with_reducible apply Eff.keeps_done
    | with_reducible apply Eff.keeps_fault
    | with_reducible apply Eff.keeps_wait
    | with_reducible apply Eff.keeps_hold
    | with_reducible apply Eff.keeps_ite
    | with_reducible apply Eff.keeps_ite_fst
    | ((with_reducible apply State.regWrite_keeps); decide)
    | ((with_reducible apply Keeps.after (hbmSkewCtrlWrite_keeps ..)); decide)
    | intro _
    | split)

theorem execHbmScrubCtrlWrite_keeps (q : Fin 4) (v : Word) (s : State) :
    ∃ nx, execHbmScrubCtrlWrite q v s = .next nx ∧ Keeps [.regs, .vio, .out, .host, .test] s nx := by
  refine ⟨_, rfl, ?_⟩
  try dsimp only
  repeat' (first
    | with_reducible exact Keeps.refl _ _
    | with_reducible assumption
    | with_reducible apply Eff.keeps_done
    | with_reducible apply Eff.keeps_fault
    | with_reducible apply Eff.keeps_wait
    | with_reducible apply Eff.keeps_hold
    | with_reducible apply Eff.keeps_ite
    | with_reducible apply Eff.keeps_ite_fst
    | ((with_reducible apply State.regWrite_keeps); decide)
    | ((with_reducible apply Keeps.after (hbmScrubCtrlWrite_keeps ..)); decide)
    | intro _
    | split)

theorem execHbmNarrowCtrlWrite_keeps (q : Fin 4) (v : Word) (s : State) :
    ∃ nx, execHbmNarrowCtrlWrite q v s = .next nx ∧ Keeps [.regs, .vio, .out, .host, .test] s nx := by
  refine ⟨_, rfl, ?_⟩
  try dsimp only
  repeat' (first
    | with_reducible exact Keeps.refl _ _
    | with_reducible assumption
    | with_reducible apply Eff.keeps_done
    | with_reducible apply Eff.keeps_fault
    | with_reducible apply Eff.keeps_wait
    | with_reducible apply Eff.keeps_hold
    | with_reducible apply Eff.keeps_ite
    | with_reducible apply Eff.keeps_ite_fst
    | ((with_reducible apply State.regWrite_keeps); decide)
    | ((with_reducible apply Keeps.after (hbmNarrowCtrlWrite_keeps ..)); decide)
    | intro _
    | split)

theorem execBwrSwap_keeps (q : Fin 4) (s : State) :
    ∃ nx, execBwrSwap q s = .next nx ∧ Keeps [.regs, .vio, .out, .host, .test, .units] s nx := by
  refine ⟨_, rfl, ?_⟩
  try dsimp only
  repeat' (first
    | with_reducible exact Keeps.refl _ _
    | with_reducible assumption
    | with_reducible apply Eff.keeps_done
    | with_reducible apply Eff.keeps_fault
    | with_reducible apply Eff.keeps_wait
    | with_reducible apply Eff.keeps_hold
    | with_reducible apply Eff.keeps_ite
    | with_reducible apply Eff.keeps_ite_fst
    | ((with_reducible apply State.regWrite_keeps); decide)
    | ((with_reducible apply Keeps.after (bwrSwap_keeps ..)); decide)
    | intro _
    | split)

theorem execBwrStageWrite_keeps (q : Fin 4) (p : Fin 8) (v : Word) (s : State) :
    ∃ nx, execBwrStageWrite q p v s = .next nx ∧ Keeps [.regs, .vio, .out, .host, .test] s nx := by
  refine ⟨_, rfl, ?_⟩
  try dsimp only
  repeat' (first
    | with_reducible exact Keeps.refl _ _
    | with_reducible assumption
    | with_reducible apply Eff.keeps_done
    | with_reducible apply Eff.keeps_fault
    | with_reducible apply Eff.keeps_wait
    | with_reducible apply Eff.keeps_hold
    | with_reducible apply Eff.keeps_ite
    | with_reducible apply Eff.keeps_ite_fst
    | ((with_reducible apply State.regWrite_keeps); decide)
    | ((with_reducible apply Keeps.after (bwrStageWrite_keeps ..)); decide)
    | intro _
    | split)

end Sys2Proof.Machine
end

