-- ==== Sys2Proof/Laws/KeepsKvp.lean ====
section
/-! SUPPORT. What the operations of Machine/Kvp.lean may change: one law each. -/

namespace Sys2Proof.Machine

theorem State.setDir_keeps (s : State) (i : Nat) (e : DirEntry) : Keeps [.free, .regs, .mem, .ecc, .boot, .units] s (State.setDir s i e) := by
  unfold State.setDir
  try dsimp only
  repeat' (first
    | with_reducible exact Keeps.refl _ _
    | with_reducible assumption
    | ((with_reducible apply Keeps.after (State.writeMem_keeps ..)); decide)
    | split)

theorem State.dirReads_keeps (s : State) (l : List Nat) : Keeps [.free, .regs, .mem, .ecc, .vio, .out, .host, .boot, .test, .units] s (State.dirReads s l).2 := by
  unfold State.dirReads
  try dsimp only
  repeat' (first
    | with_reducible exact Keeps.refl _ _
    | with_reducible assumption
    | ((with_reducible apply Keeps.after (State.readChecks_keeps ..)); decide)
    | split)

theorem State.setKvp_keeps (s : State) (k : KvpUnit) : Keeps [.units] s (State.setKvp s k) := by
  unfold State.setKvp
  try dsimp only
  repeat' (first
    | with_reducible exact Keeps.refl _ _
    | with_reducible assumption
    | ((with_reducible apply Keeps.after (State.withUnits_keeps ..)); decide)
    | split)

theorem State.putCopy_keeps (s : State) (staged : Bool) (x : KvpChange) : Keeps [.free, .regs, .mem, .ecc, .boot, .units] s (State.putCopy s staged x) := by
  unfold State.putCopy
  try dsimp only
  repeat' (first
    | with_reducible exact Keeps.refl _ _
    | with_reducible assumption
    | with_reducible apply Keeps.ite
    | ((with_reducible apply Keeps.after (State.writeMem_keeps ..)); decide)
    | ((with_reducible apply Keeps.of_eq); assumption)
    | ((with_reducible apply Keeps.of_eq3); assumption)
    | split)

theorem State.stage_keeps (s : State) (x : KvpChange) : Keeps [.free, .regs, .mem, .ecc, .boot, .units] s (State.stage s x) := by
  unfold State.stage
  try dsimp only
  repeat' (first
    | with_reducible exact Keeps.refl _ _
    | with_reducible assumption
    | ((with_reducible apply Keeps.after (State.setKvp_keeps ..)); decide)
    | ((with_reducible apply Keeps.after (State.staged_keeps ..)); decide)
    | ((with_reducible apply Keeps.after (State.putCopy_keeps ..)); decide)
    | split)

theorem State.showKvp_keeps (s : State) : Keeps [.free, .regs, .mem] s (State.showKvp s) := by
  unfold State.showKvp
  try dsimp only
  repeat' (first
    | with_reducible exact Keeps.refl _ _
    | with_reducible assumption
    | ((with_reducible apply Keeps.after (State.setFld_keeps ..)); decide)
    | ((with_reducible apply Keeps.after (State.staged_keeps ..)); decide)
    | split)

theorem State.answerRecord_keeps (s : State) (a : Nat) (st : Status) (result : Nat) : Keeps [.free, .regs, .mem, .ecc, .boot, .units] s (State.answerRecord s a st result) := by
  unfold State.answerRecord
  try dsimp only
  repeat' (first
    | with_reducible exact Keeps.refl _ _
    | with_reducible assumption
    | ((with_reducible apply Keeps.after (State.writeMem_keeps ..)); decide)
    | split)

theorem State.kvpComplete_keeps (s : State) (a op : Nat) (st : Status) (result : Nat) : Keeps [.free, .regs, .mem, .ecc, .boot, .units] s (State.kvpComplete s a op st result) := by
  unfold State.kvpComplete
  try dsimp only
  repeat' (first
    | with_reducible exact Keeps.refl _ _
    | with_reducible assumption
    | ((with_reducible apply Keeps.after (State.answerRecord_keeps ..)); decide)
    | ((with_reducible apply Keeps.after (State.bumpWrap_keeps ..)); decide)
    | ((with_reducible apply Keeps.after (State.setFld_keeps ..)); decide)
    | ((with_reducible apply Keeps.after (State.showKvp_keeps ..)); decide)
    | split)

theorem State.fabRead_keeps (s : State) (cls : Nat) (req : Requester) (tag : Nat) (got : List (Nat × Status × List Byte)) (fa n : Nat) :
    Keeps [.free, .regs, .mem, .ecc, .vio, .out, .host, .boot, .test, .units] s (s.fabRead cls req tag got fa n).2.2 := by
  unfold State.fabRead
  exact Keeps.ite_snd2 (Keeps.after (State.readCheck_keeps ..) (by decide) (Keeps.refl _ _))
    (Keeps.ite_snd2 (Keeps.refl _ _) (Keeps.refl _ _))

theorem State.fabReads_keeps (s : State) (cls : Nat) (req : Requester) (tag : Nat) (got : List (Nat × Status × List Byte))
    (l : List (Nat × Nat)) : Keeps [.free, .regs, .mem, .ecc, .vio, .out, .host, .boot, .test, .units] s (s.fabReads cls req tag got l).2.2.2 := by
  induction l generalizing s with
  | nil => exact Keeps.refl _ _
  | cons p l ih =>
    have h : Keeps [.free, .regs, .mem, .ecc, .vio, .out, .host, .boot, .test, .units] s (s.fabRead cls req tag got p.1 p.2).2.2 := Keeps.after (State.fabRead_keeps ..) (by decide) (Keeps.refl _ _)
    unfold State.fabReads
    exact Keeps.ite_snd3 h (Keeps.after (ih _) (by decide) h)

theorem State.kvpSend_keeps (s : State) (l : List Trans) (sent : Option Status) : Keeps [.free, .regs, .out, .units] s (State.kvpSend s l sent) := by
  unfold State.kvpSend
  try dsimp only
  repeat' (first
    | with_reducible exact Keeps.refl _ _
    | with_reducible assumption
    | ((with_reducible apply Keeps.after (State.setKvp_keeps ..)); decide)
    | ((with_reducible apply Keeps.after (State.injectAll_keeps ..)); decide)
    | split)

theorem State.kvpDrop_keeps (s : State) : Keeps [.units] s (State.kvpDrop s) := by
  unfold State.kvpDrop
  try dsimp only
  repeat' (first
    | with_reducible exact Keeps.refl _ _
    | with_reducible assumption
    | ((with_reducible apply Keeps.after (State.setKvp_keeps ..)); decide)
    | split)

theorem State.putOwn_keeps (s : State) (l : List (Nat × List Byte)) : Keeps [.free, .regs, .mem, .ecc, .boot, .units] s (State.putOwn s l) := by
  unfold State.putOwn
  try dsimp only
  repeat' (first
    | with_reducible exact Keeps.refl _ _
    | with_reducible assumption
    | with_reducible apply Keeps.ite
    | ((with_reducible apply Keeps.after (State.writeMem_keeps ..)); decide)
    | with_reducible refine Keeps.foldl_snd (fun _ _ _ => ?_) ?_
    | with_reducible refine Keeps.foldl (fun _ _ _ => ?_) ?_
    | split)

theorem State.kvpRead_keeps (s : State) (a n : Nat) : Keeps [.free, .regs, .mem, .ecc, .vio, .out, .host, .boot, .test, .units] s (s.kvpRead a n).2 := by
  unfold State.kvpRead
  exact Keeps.ite_snd (Keeps.refl _ _) (Keeps.after (State.readCheck_keeps ..) (by decide) (Keeps.refl _ _))

/-- What a command's rule may change. -/
def KvpEff.Keeps (k : List Part) (s : State) : KvpEff → Prop
  | .fail _ t => Machine.Keeps k s t
  | .later t => Machine.Keeps k s t
  | .done t => Machine.Keeps k s t
  | .waits _ _ t => Machine.Keeps k s t
  | .copies _ _ _ t => Machine.Keeps k s t

theorem KvpEff.keeps_fail {k : List Part} {s t : State} {st : Status} (h : Machine.Keeps k s t) : KvpEff.Keeps k s (.fail st t) := h
theorem KvpEff.keeps_later {k : List Part} {s t : State} (h : Machine.Keeps k s t) : KvpEff.Keeps k s (.later t) := h
theorem KvpEff.keeps_done {k : List Part} {s t : State} (h : Machine.Keeps k s t) : KvpEff.Keeps k s (.done t) := h
theorem KvpEff.keeps_waits {k : List Part} {s t : State} {r : Nat} {l : List Nat} (h : Machine.Keeps k s t) :
    KvpEff.Keeps k s (.waits r l t) := h
theorem KvpEff.keeps_copies {k : List Part} {s t : State} {e f u : Nat} (h : Machine.Keeps k s t) :
    KvpEff.Keeps k s (.copies e f u t) := h
theorem KvpEff.keeps_ite {k : List Part} {s : State} {c : Prop} [Decidable c] {a b : KvpEff} (h1 : KvpEff.Keeps k s a)
    (h2 : KvpEff.Keeps k s b) : KvpEff.Keeps k s (if c then a else b) := by
  split <;> assumption

theorem KvpEff.keeps_mono {k k' : List Part} {s : State} {e : KvpEff} (h : KvpEff.Keeps k' s e) (hk : k'.all k.contains = true) :
    KvpEff.Keeps k s e := by
  cases e <;> exact Machine.Keeps.after h hk (Machine.Keeps.refl _ _)

theorem State.kvpExec_keeps {k : List Part} {s0 : State} (s : State) (op : Nat) (f : Nat → State → KvpEff)
    (hk : ([.free, .regs, .mem, .ecc, .vio, .out, .host, .boot, .test, .units] : List Part).all k.contains = true) (hf : ∀ w s, KvpEff.Keeps k s (f w s)) (h0 : Keeps k s0 s) :
    Keeps k s0 (s.kvpExec op f) := by
  refine Keeps.after ?_ (Part.sub_refl _) h0
  have up : ∀ t u, Keeps [.free, .regs, .mem, .ecc, .vio, .out, .host, .boot, .test, .units] t u → Keeps k t u := fun t u h => Keeps.after h hk (Keeps.refl _ _)
  unfold State.kvpExec
  split
  · exact Keeps.refl _ _
  · split
    · exact Keeps.refl _ _
    · next a rest _ _ =>
      have h1 : Keeps k s ((s.readCheck 7 .module a 64).2.setKvp { (s.readCheck 7 .module a 64).2.kvp with queue := rest }) :=
        up _ _ (Keeps.after (State.setKvp_keeps ..) (by decide) (Keeps.after (State.readCheck_keeps ..) (by decide) (Keeps.refl _ _)))
      dsimp only
      have h2 : ∀ b st x y, Keeps k s (State.kvpComplete ((s.readCheck 7 .module a 64).2.setKvp
          { (s.readCheck 7 .module a 64).2.kvp with queue := rest }) b st x y) := fun b st x y =>
        Keeps.after (up _ _ (Keeps.after (State.kvpComplete_keeps ..) (by decide) (Keeps.refl _ _)))
          (Part.sub_refl _) h1
      split
      · exact h2 _ _ _ _
      · split
        · exact h2 _ _ _ _
        · split
          · exact Keeps.refl _ _
          · split
            · exact h2 _ _ _ _
            · generalize (s.readCheck 7 .module a 64).2.setKvp { (s.readCheck 7 .module a 64).2.kvp with queue := rest } = s1 at *
              have h3 := hf (s.num a 64) s1
              have self : k.all k.contains = true := Part.sub_refl _
              generalize f (s.num a 64) s1 = e at *
              cases e with
              | fail st s2 =>
                exact Keeps.after (up _ _ (Keeps.after (State.kvpComplete_keeps ..) (by decide)
                  (Keeps.after (State.kvpDrop_keeps ..) (by decide) (Keeps.refl _ _)))) self (Keeps.after h3 self h1)
              | later s2 =>
                exact Keeps.after (up _ _ (Keeps.after (State.setKvp_keeps ..) (by decide) (Keeps.refl _ _))) self
                  (Keeps.after h3 self h1)
              | done s2 =>
                exact Keeps.after (up _ _ (Keeps.after (State.kvpComplete_keeps ..) (by decide)
                  (Keeps.after (State.kvpDrop_keeps ..) (by decide) (Keeps.refl _ _)))) self (Keeps.after h3 self h1)
              | waits r l s2 =>
                exact Keeps.after (up _ _ (Keeps.after (State.showKvp_keeps ..) (by decide)
                  (Keeps.after (State.setKvp_keeps ..) (by decide) (Keeps.refl _ _)))) self (Keeps.after h3 self h1)
              | copies x y z s2 =>
                exact Keeps.after (up _ _ (Keeps.after (State.showKvp_keeps ..) (by decide)
                  (Keeps.after (State.setKvp_keeps ..) (by decide) (Keeps.refl _ _)))) self (Keeps.after h3 self h1)

theorem ctxSetEff_keeps (w : Nat) (s : State) : KvpEff.Keeps [.free, .regs, .mem, .ecc, .vio, .out, .host, .boot, .test, .units] s (ctxSetEff w s) := by
  have h : Keeps [.free, .regs, .mem, .ecc, .vio, .out, .host, .boot, .test, .units] s (s.kvpRead (addr0 w) 64).2 := Keeps.after (State.kvpRead_keeps ..) (by decide) (Keeps.refl _ _)
  unfold ctxSetEff
  dsimp only
  generalize WalkCtx.ofNum _ = o
  refine KvpEff.keeps_ite (KvpEff.keeps_fail h) ?_
  cases o with
  | none => exact KvpEff.keeps_fail h
  | some c =>
    refine KvpEff.keeps_ite (KvpEff.keeps_fail h) (KvpEff.keeps_done ?_)
    exact Keeps.after (State.stage_keeps ..) (by decide) h

theorem execCtxSet_keeps (s : State) :
    ∃ nx, execCtxSet s = .next nx ∧ Keeps [.free, .regs, .mem, .ecc, .vio, .out, .host, .boot, .test, .units] s nx := by
  refine ⟨_, rfl, ?_⟩
  try dsimp only
  repeat' (first
    | with_reducible exact Keeps.refl _ _
    | with_reducible assumption
    | with_reducible apply Eff.keeps_done
    | with_reducible apply Eff.keeps_fault
    | with_reducible apply Eff.keeps_wait
    | with_reducible apply Eff.keeps_hold
    | with_reducible apply Eff.keeps_ite
    | with_reducible apply Eff.keeps_ite_fst
    | ((with_reducible apply State.kvpExec_keeps); decide)
    | ((with_reducible apply KvpEff.keeps_mono (ctxSetEff_keeps ..)); decide)
    | intro _
    | split)

theorem State.addRefs_keeps (s : State) (up : Bool) (l : List Nat) : Keeps [.free, .regs, .mem, .ecc, .boot, .units] s (State.addRefs s up l) := by
  unfold State.addRefs
  try dsimp only
  repeat' (first
    | with_reducible exact Keeps.refl _ _
    | with_reducible assumption
    | with_reducible apply Keeps.ite
    | ((with_reducible apply Keeps.after (State.setDir_keeps ..)); decide)
    | with_reducible refine Keeps.foldl (fun _ _ _ => ?_) ?_
    | split)

theorem seqPublishEff_keeps (w : Nat) (s : State) : KvpEff.Keeps [.free, .regs, .mem, .ecc, .vio, .out, .host, .boot, .test, .units] s (seqPublishEff w s) := by
  unfold seqPublishEff
  try dsimp only
  repeat' (first
    | with_reducible exact Keeps.refl _ _
    | with_reducible assumption
    | with_reducible apply Keeps.ite
    | with_reducible apply KvpEff.keeps_fail
    | with_reducible apply KvpEff.keeps_later
    | with_reducible apply KvpEff.keeps_done
    | with_reducible apply KvpEff.keeps_waits
    | with_reducible apply KvpEff.keeps_copies
    | with_reducible apply KvpEff.keeps_ite
    | ((with_reducible apply Keeps.after (State.kvpRead_keeps ..)); decide)
    | ((with_reducible apply Keeps.after (State.dirReads_keeps ..)); decide)
    | ((with_reducible apply Keeps.after (State.addRefs_keeps ..)); decide)
    | ((with_reducible apply Keeps.after (State.stage_keeps ..)); decide)
    | ((with_reducible apply Keeps.of_eq); assumption)
    | ((with_reducible apply Keeps.of_eq3); assumption)
    | split)

theorem execSeqPublish_keeps (s : State) :
    ∃ nx, execSeqPublish s = .next nx ∧ Keeps [.free, .regs, .mem, .ecc, .vio, .out, .host, .boot, .test, .units] s nx := by
  refine ⟨_, rfl, ?_⟩
  try dsimp only
  repeat' (first
    | with_reducible exact Keeps.refl _ _
    | with_reducible assumption
    | with_reducible apply Eff.keeps_done
    | with_reducible apply Eff.keeps_fault
    | with_reducible apply Eff.keeps_wait
    | with_reducible apply Eff.keeps_hold
    | with_reducible apply Eff.keeps_ite
    | with_reducible apply Eff.keeps_ite_fst
    | ((with_reducible apply State.kvpExec_keeps); decide)
    | ((with_reducible apply KvpEff.keeps_mono (seqPublishEff_keeps ..)); decide)
    | intro _
    | split)

theorem seqClearEff_keeps (w : Nat) (s : State) : KvpEff.Keeps [.free, .regs, .mem, .ecc, .boot, .units] s (seqClearEff w s) := by
  unfold seqClearEff
  try dsimp only
  repeat' (first
    | with_reducible exact Keeps.refl _ _
    | with_reducible assumption
    | with_reducible apply Keeps.ite
    | with_reducible apply KvpEff.keeps_fail
    | with_reducible apply KvpEff.keeps_later
    | with_reducible apply KvpEff.keeps_done
    | with_reducible apply KvpEff.keeps_waits
    | with_reducible apply KvpEff.keeps_copies
    | with_reducible apply KvpEff.keeps_ite
    | ((with_reducible apply Keeps.after (State.stage_keeps ..)); decide)
    | split)

theorem execSeqClear_keeps (s : State) :
    ∃ nx, execSeqClear s = .next nx ∧ Keeps [.free, .regs, .mem, .ecc, .vio, .out, .host, .boot, .test, .units] s nx := by
  refine ⟨_, rfl, ?_⟩
  try dsimp only
  repeat' (first
    | with_reducible exact Keeps.refl _ _
    | with_reducible assumption
    | with_reducible apply Eff.keeps_done
    | with_reducible apply Eff.keeps_fault
    | with_reducible apply Eff.keeps_wait
    | with_reducible apply Eff.keeps_hold
    | with_reducible apply Eff.keeps_ite
    | with_reducible apply Eff.keeps_ite_fst
    | ((with_reducible apply State.kvpExec_keeps); decide)
    | ((with_reducible apply KvpEff.keeps_mono (seqClearEff_keeps ..)); decide)
    | intro _
    | split)

theorem mapEff_keeps (w : Nat) (s : State) : KvpEff.Keeps [.free, .regs, .mem, .ecc, .vio, .out, .host, .boot, .test, .units] s (mapEff w s) := by
  unfold mapEff
  try dsimp only
  repeat' (first
    | with_reducible exact Keeps.refl _ _
    | with_reducible assumption
    | with_reducible apply Keeps.ite
    | with_reducible apply KvpEff.keeps_fail
    | with_reducible apply KvpEff.keeps_later
    | with_reducible apply KvpEff.keeps_done
    | with_reducible apply KvpEff.keeps_waits
    | with_reducible apply KvpEff.keeps_copies
    | with_reducible apply KvpEff.keeps_ite
    | ((with_reducible apply Keeps.after (State.kvpRead_keeps ..)); decide)
    | ((with_reducible apply Keeps.after (State.setDir_keeps ..)); decide)
    | ((with_reducible apply Keeps.after (State.setFld_keeps ..)); decide)
    | with_reducible refine Keeps.foldl_snd (fun _ _ _ => ?_) ?_
    | ((with_reducible apply Keeps.of_eq); assumption)
    | ((with_reducible apply Keeps.of_eq3); assumption)
    | with_reducible refine Keeps.foldl (fun _ _ _ => ?_) ?_
    | split)

theorem execMapCmd_keeps (s : State) :
    ∃ nx, execMapCmd s = .next nx ∧ Keeps [.free, .regs, .mem, .ecc, .vio, .out, .host, .boot, .test, .units] s nx := by
  refine ⟨_, rfl, ?_⟩
  try dsimp only
  repeat' (first
    | with_reducible exact Keeps.refl _ _
    | with_reducible assumption
    | with_reducible apply Eff.keeps_done
    | with_reducible apply Eff.keeps_fault
    | with_reducible apply Eff.keeps_wait
    | with_reducible apply Eff.keeps_hold
    | with_reducible apply Eff.keeps_ite
    | with_reducible apply Eff.keeps_ite_fst
    | ((with_reducible apply State.kvpExec_keeps); decide)
    | ((with_reducible apply KvpEff.keeps_mono (mapEff_keeps ..)); decide)
    | intro _
    | split)

theorem State.kvpReads_keeps (s : State) (l : List (Nat × Nat)) : Keeps [.free, .regs, .mem, .ecc, .vio, .out, .host, .boot, .test, .units] s (s.kvpReads l).2.2.2 :=
  State.fabReads_keeps ..

theorem State.sealAll_keeps (s : State) (l : List Nat) (sums : List (Nat × List Byte)) : Keeps [.free, .regs, .mem, .ecc, .boot, .units] s (State.sealAll s l sums) := by
  unfold State.sealAll
  try dsimp only
  repeat' (first
    | with_reducible exact Keeps.refl _ _
    | with_reducible assumption
    | ((with_reducible apply Keeps.after (State.setDir_keeps ..)); decide)
    | ((with_reducible apply Keeps.after (State.putOwn_keeps ..)); decide)
    | with_reducible refine Keeps.foldl (fun _ _ _ => ?_) ?_
    | split)

theorem sealEff_keeps (w : Nat) (s : State) : KvpEff.Keeps [.free, .regs, .mem, .ecc, .vio, .out, .host, .boot, .test, .units] s (sealEff w s) := by
  unfold sealEff
  try dsimp only
  repeat' (first
    | with_reducible exact Keeps.refl _ _
    | with_reducible assumption
    | with_reducible apply Keeps.ite
    | with_reducible apply KvpEff.keeps_fail
    | with_reducible apply KvpEff.keeps_later
    | with_reducible apply KvpEff.keeps_done
    | with_reducible apply KvpEff.keeps_waits
    | with_reducible apply KvpEff.keeps_copies
    | with_reducible apply KvpEff.keeps_ite
    | ((with_reducible apply Keeps.after (State.kvpRead_keeps ..)); decide)
    | ((with_reducible apply Keeps.after (State.kvpReads_keeps ..)); decide)
    | ((with_reducible apply Keeps.after (State.kvpSend_keeps ..)); decide)
    | ((with_reducible apply Keeps.after (State.sealAll_keeps ..)); decide)
    | ((with_reducible apply Keeps.of_eq); assumption)
    | ((with_reducible apply Keeps.of_eq3); assumption)
    | split)

theorem execSeal_keeps (s : State) :
    ∃ nx, execSeal s = .next nx ∧ Keeps [.free, .regs, .mem, .ecc, .vio, .out, .host, .boot, .test, .units] s nx := by
  refine ⟨_, rfl, ?_⟩
  try dsimp only
  repeat' (first
    | with_reducible exact Keeps.refl _ _
    | with_reducible assumption
    | with_reducible apply Eff.keeps_done
    | with_reducible apply Eff.keeps_fault
    | with_reducible apply Eff.keeps_wait
    | with_reducible apply Eff.keeps_hold
    | with_reducible apply Eff.keeps_ite
    | with_reducible apply Eff.keeps_ite_fst
    | ((with_reducible apply State.kvpExec_keeps); decide)
    | ((with_reducible apply KvpEff.keeps_mono (sealEff_keeps ..)); decide)
    | intro _
    | split)

theorem movePageEff_keeps (w : Nat) (s : State) : KvpEff.Keeps [.free, .regs, .mem, .ecc, .vio, .out, .host, .boot, .test, .units] s (movePageEff w s) := by
  unfold movePageEff
  try dsimp only
  repeat' (first
    | with_reducible exact Keeps.refl _ _
    | with_reducible assumption
    | with_reducible apply Keeps.ite
    | with_reducible apply KvpEff.keeps_fail
    | with_reducible apply KvpEff.keeps_later
    | with_reducible apply KvpEff.keeps_done
    | with_reducible apply KvpEff.keeps_waits
    | with_reducible apply KvpEff.keeps_copies
    | with_reducible apply KvpEff.keeps_ite
    | ((with_reducible apply Keeps.after (State.kvpRead_keeps ..)); decide)
    | ((with_reducible apply Keeps.after (State.setDir_keeps ..)); decide)
    | split)

theorem execMovePage_keeps (s : State) :
    ∃ nx, execMovePage s = .next nx ∧ Keeps [.free, .regs, .mem, .ecc, .vio, .out, .host, .boot, .test, .units] s nx := by
  refine ⟨_, rfl, ?_⟩
  try dsimp only
  repeat' (first
    | with_reducible exact Keeps.refl _ _
    | with_reducible assumption
    | with_reducible apply Eff.keeps_done
    | with_reducible apply Eff.keeps_fault
    | with_reducible apply Eff.keeps_wait
    | with_reducible apply Eff.keeps_hold
    | with_reducible apply Eff.keeps_ite
    | with_reducible apply Eff.keeps_ite_fst
    | ((with_reducible apply State.kvpExec_keeps); decide)
    | ((with_reducible apply KvpEff.keeps_mono (movePageEff_keeps ..)); decide)
    | intro _
    | split)

theorem State.copyFails_keeps (s : State) (m : KvpCopy) (st : Status) : Keeps [.free, .regs, .mem, .ecc, .boot, .units] s (State.copyFails s m st) := by
  unfold State.copyFails
  try dsimp only
  repeat' (first
    | with_reducible exact Keeps.refl _ _
    | with_reducible assumption
    | ((with_reducible apply Keeps.after (State.setKvp_keeps ..)); decide)
    | ((with_reducible apply Keeps.after (State.setDir_keeps ..)); decide)
    | ((with_reducible apply Keeps.after (State.kvpComplete_keeps ..)); decide)
    | split)

theorem State.copyEnds_keeps (s : State) (m : KvpCopy) (l : List (Nat × List Byte)) : Keeps [.free, .regs, .mem, .ecc, .boot, .units] s (State.copyEnds s m l) := by
  unfold State.copyEnds
  try dsimp only
  repeat' (first
    | with_reducible exact Keeps.refl _ _
    | with_reducible assumption
    | ((with_reducible apply Keeps.after (State.setKvp_keeps ..)); decide)
    | ((with_reducible apply Keeps.after (State.putOwn_keeps ..)); decide)
    | ((with_reducible apply Keeps.after (State.setDir_keeps ..)); decide)
    | ((with_reducible apply Keeps.after (State.showKvp_keeps ..)); decide)
    | split)

theorem execMovePageCopyDone_keeps (s : State) :
    ∃ nx, execMovePageCopyDone s = .next nx ∧ Keeps [.free, .regs, .mem, .ecc, .vio, .out, .host, .boot, .test, .units] s nx := by
  refine ⟨_, rfl, ?_⟩
  try dsimp only
  repeat' (first
    | with_reducible exact Keeps.refl _ _
    | with_reducible assumption
    | with_reducible apply Keeps.ite
    | ((with_reducible apply Keeps.after (State.kvpReads_keeps ..)); decide)
    | ((with_reducible apply Keeps.after (State.kvpSend_keeps ..)); decide)
    | ((with_reducible apply Keeps.after (State.copyFails_keeps ..)); decide)
    | ((with_reducible apply Keeps.after (State.copyEnds_keeps ..)); decide)
    | ((with_reducible apply Keeps.of_eq); assumption)
    | ((with_reducible apply Keeps.of_eq3); assumption)
    | split)

theorem replaceEff_keeps (w : Nat) (s : State) : KvpEff.Keeps [.free, .regs, .mem, .ecc, .vio, .out, .host, .boot, .test, .units] s (replaceEff w s) := by
  unfold replaceEff
  try dsimp only
  repeat' (first
    | with_reducible exact Keeps.refl _ _
    | with_reducible assumption
    | with_reducible apply Keeps.ite
    | with_reducible apply KvpEff.keeps_fail
    | with_reducible apply KvpEff.keeps_later
    | with_reducible apply KvpEff.keeps_done
    | with_reducible apply KvpEff.keeps_waits
    | with_reducible apply KvpEff.keeps_copies
    | with_reducible apply KvpEff.keeps_ite
    | ((with_reducible apply Keeps.after (State.kvpRead_keeps ..)); decide)
    | ((with_reducible apply Keeps.after (State.setDir_keeps ..)); decide)
    | split)

theorem execReplace_keeps (s : State) :
    ∃ nx, execReplace s = .next nx ∧ Keeps [.free, .regs, .mem, .ecc, .vio, .out, .host, .boot, .test, .units] s nx := by
  refine ⟨_, rfl, ?_⟩
  try dsimp only
  repeat' (first
    | with_reducible exact Keeps.refl _ _
    | with_reducible assumption
    | with_reducible apply Eff.keeps_done
    | with_reducible apply Eff.keeps_fault
    | with_reducible apply Eff.keeps_wait
    | with_reducible apply Eff.keeps_hold
    | with_reducible apply Eff.keeps_ite
    | with_reducible apply Eff.keeps_ite_fst
    | ((with_reducible apply State.kvpExec_keeps); decide)
    | ((with_reducible apply KvpEff.keeps_mono (replaceEff_keeps ..)); decide)
    | intro _
    | split)

theorem freeEff_keeps (w : Nat) (s : State) : KvpEff.Keeps [.free, .regs, .mem, .ecc, .vio, .out, .host, .boot, .test, .units] s (freeEff w s) := by
  unfold freeEff
  try dsimp only
  repeat' (first
    | with_reducible exact Keeps.refl _ _
    | with_reducible assumption
    | with_reducible apply Keeps.ite
    | with_reducible apply KvpEff.keeps_fail
    | with_reducible apply KvpEff.keeps_later
    | with_reducible apply KvpEff.keeps_done
    | with_reducible apply KvpEff.keeps_waits
    | with_reducible apply KvpEff.keeps_copies
    | with_reducible apply KvpEff.keeps_ite
    | ((with_reducible apply Keeps.after (State.kvpRead_keeps ..)); decide)
    | ((with_reducible apply Keeps.after (State.setDir_keeps ..)); decide)
    | with_reducible refine Keeps.foldl_snd (fun _ _ _ => ?_) ?_
    | with_reducible refine Keeps.foldl (fun _ _ _ => ?_) ?_
    | split)

theorem execFreeCmd_keeps (s : State) :
    ∃ nx, execFreeCmd s = .next nx ∧ Keeps [.free, .regs, .mem, .ecc, .vio, .out, .host, .boot, .test, .units] s nx := by
  refine ⟨_, rfl, ?_⟩
  try dsimp only
  repeat' (first
    | with_reducible exact Keeps.refl _ _
    | with_reducible assumption
    | with_reducible apply Eff.keeps_done
    | with_reducible apply Eff.keeps_fault
    | with_reducible apply Eff.keeps_wait
    | with_reducible apply Eff.keeps_hold
    | with_reducible apply Eff.keeps_ite
    | with_reducible apply Eff.keeps_ite_fst
    | ((with_reducible apply State.kvpExec_keeps); decide)
    | ((with_reducible apply KvpEff.keeps_mono (freeEff_keeps ..)); decide)
    | intro _
    | split)

theorem State.applyChange_keeps (s : State) (x : KvpChange) : Keeps [.free, .regs, .mem, .ecc, .boot, .units] s (State.applyChange s x) := by
  unfold State.applyChange
  try dsimp only
  repeat' (first
    | with_reducible exact Keeps.refl _ _
    | with_reducible assumption
    | ((with_reducible apply Keeps.after (State.setKvp_keeps ..)); decide)
    | ((with_reducible apply Keeps.after (State.putCopy_keeps ..)); decide)
    | ((with_reducible apply Keeps.after (State.addRefs_keeps ..)); decide)
    | ((with_reducible apply Keeps.of_eq); assumption)
    | ((with_reducible apply Keeps.of_eq3); assumption)
    | split)

theorem State.completeWait_keeps (s : State) (w : KvpWait) : Keeps [.free, .regs, .mem, .ecc, .vio, .out, .host, .boot, .test, .units] s (State.completeWait s w) := by
  unfold State.completeWait
  try dsimp only
  repeat' (first
    | with_reducible exact Keeps.refl _ _
    | with_reducible assumption
    | with_reducible apply Keeps.ite
    | ((with_reducible apply Keeps.after (State.dirReads_keeps ..)); decide)
    | ((with_reducible apply Keeps.after (State.kvpComplete_keeps ..)); decide)
    | ((with_reducible apply Keeps.after (State.setDir_keeps ..)); decide)
    | ((with_reducible apply Keeps.after (State.setFld_keeps ..)); decide)
    | with_reducible refine Keeps.foldl_snd (fun _ _ _ => ?_) ?_
    | with_reducible refine Keeps.foldl (fun _ _ _ => ?_) ?_
    | split)

theorem State.applyKvp_keeps (s : State) : Keeps [.free, .regs, .mem, .ecc, .vio, .out, .host, .boot, .test, .units] s (State.applyKvp s) := by
  unfold State.applyKvp
  try dsimp only
  repeat' (first
    | with_reducible exact Keeps.refl _ _
    | with_reducible assumption
    | with_reducible apply Keeps.ite
    | ((with_reducible apply Keeps.after (State.staged_keeps ..)); decide)
    | ((with_reducible apply Keeps.after (State.applyChange_keeps ..)); decide)
    | ((with_reducible apply Keeps.after (State.setKvp_keeps ..)); decide)
    | ((with_reducible apply Keeps.after (State.bumpWrap_keeps ..)); decide)
    | ((with_reducible apply Keeps.after (State.completeWait_keeps ..)); decide)
    | ((with_reducible apply Keeps.after (State.showKvp_keeps ..)); decide)
    | with_reducible refine Keeps.foldl (fun _ _ _ => ?_) ?_
    | split)

theorem State.wipeKvp_keeps (s : State) : Keeps [.free, .regs, .mem, .ecc, .units] s (State.wipeKvp s) := by
  unfold State.wipeKvp
  try dsimp only
  repeat' (first
    | with_reducible exact Keeps.refl _ _
    | with_reducible assumption
    | ((with_reducible apply Keeps.after (State.wipe_keeps ..)); decide)
    | ((with_reducible apply Keeps.after (State.setKvp_keeps ..)); decide)
    | ((with_reducible apply Keeps.after (State.setFld_keeps ..)); decide)
    | ((with_reducible apply Keeps.after (State.showKvp_keeps ..)); decide)
    | ((with_reducible apply Keeps.of_eq); assumption)
    | ((with_reducible apply Keeps.of_eq3); assumption)
    | split)

theorem kvpCtrlWrite_keeps (v : Word) (s : State) : Keeps [.free, .regs, .mem, .ecc, .units] s (kvpCtrlWrite v s).2 := by
  unfold kvpCtrlWrite
  try dsimp only
  repeat' (first
    | with_reducible exact Keeps.refl _ _
    | with_reducible assumption
    | with_reducible apply Keeps.ite
    | ((with_reducible apply Keeps.after (State.wipeKvp_keeps ..)); decide)
    | ((with_reducible apply Keeps.after (State.setFld_keeps ..)); decide)
    | ((with_reducible apply Keeps.after (State.bumpWrap_keeps ..)); decide)
    | with_reducible apply Keeps.ite_snd
    | split)

theorem execKvpEnable_keeps (q : Fin 4) (s : State) :
    ∃ nx, execKvpEnable q s = .next nx ∧ Keeps [.free, .regs, .mem, .ecc, .vio, .out, .host, .test, .units] s nx := by
  refine ⟨_, rfl, ?_⟩
  try dsimp only
  repeat' (first
    | with_reducible exact Keeps.refl _ _
    | with_reducible assumption
    | with_reducible apply Eff.keeps_done
    | with_reducible apply Eff.keeps_fault
    | with_reducible apply Eff.keeps_wait
    | with_reducible apply Eff.keeps_hold
    | with_reducible apply Eff.keeps_ite
    | with_reducible apply Eff.keeps_ite_fst
    | ((with_reducible apply State.regWrite_keeps); decide)
    | ((with_reducible apply Keeps.after (kvpCtrlWrite_keeps ..)); decide)
    | intro _
    | split)

theorem execKvpDisable_keeps (q : Fin 4) (s : State) :
    ∃ nx, execKvpDisable q s = .next nx ∧ Keeps [.free, .regs, .mem, .ecc, .vio, .out, .host, .test, .units] s nx := by
  refine ⟨_, rfl, ?_⟩
  try dsimp only
  repeat' (first
    | with_reducible exact Keeps.refl _ _
    | with_reducible assumption
    | with_reducible apply Eff.keeps_done
    | with_reducible apply Eff.keeps_fault
    | with_reducible apply Eff.keeps_wait
    | with_reducible apply Eff.keeps_hold
    | with_reducible apply Eff.keeps_ite
    | with_reducible apply Eff.keeps_ite_fst
    | ((with_reducible apply State.regWrite_keeps); decide)
    | ((with_reducible apply Keeps.after (kvpCtrlWrite_keeps ..)); decide)
    | intro _
    | split)

theorem kvpLimitsWrite_keeps (v : Word) (s : State) : Keeps [.regs] s (kvpLimitsWrite v s).2 := by
  unfold kvpLimitsWrite
  try dsimp only
  repeat' (first
    | with_reducible exact Keeps.refl _ _
    | with_reducible assumption
    | with_reducible apply Keeps.ite
    | ((with_reducible apply Keeps.after (State.setFld_keeps ..)); decide)
    | with_reducible apply Keeps.ite_snd
    | split)

theorem execKvpLimitsWrite_keeps (q : Fin 4) (v : Word) (s : State) :
    ∃ nx, execKvpLimitsWrite q v s = .next nx ∧ Keeps [.regs, .vio, .out, .host, .test] s nx := by
  refine ⟨_, rfl, ?_⟩
  try dsimp only
  repeat' (first
    | with_reducible exact Keeps.refl _ _
    | with_reducible assumption
    | with_reducible apply Eff.keeps_done
    | with_reducible apply Eff.keeps_fault
    | with_reducible apply Eff.keeps_wait
    | with_reducible apply Eff.keeps_hold
    | with_reducible apply Eff.keeps_ite
    | with_reducible apply Eff.keeps_ite_fst
    | ((with_reducible apply State.regWrite_keeps); decide)
    | ((with_reducible apply Keeps.after (kvpLimitsWrite_keeps ..)); decide)
    | intro _
    | split)

theorem kvpSubmitWrite_keeps (v : Word) (s : State) : Keeps [.free, .regs, .mem, .units] s (kvpSubmitWrite v s).2 := by
  unfold kvpSubmitWrite
  try dsimp only
  repeat' (first
    | with_reducible exact Keeps.refl _ _
    | with_reducible assumption
    | with_reducible apply Keeps.ite
    | ((with_reducible apply Keeps.after (State.setKvp_keeps ..)); decide)
    | ((with_reducible apply Keeps.after (State.showKvp_keeps ..)); decide)
    | with_reducible apply Keeps.ite_snd
    | split)

theorem execKvpCmdSubmit_keeps (q : Fin 4) (v : Word) (s : State) :
    ∃ nx, execKvpCmdSubmit q v s = .next nx ∧ Keeps [.free, .regs, .mem, .vio, .out, .host, .test, .units] s nx := by
  refine ⟨_, rfl, ?_⟩
  try dsimp only
  repeat' (first
    | with_reducible exact Keeps.refl _ _
    | with_reducible assumption
    | with_reducible apply Eff.keeps_done
    | with_reducible apply Eff.keeps_fault
    | with_reducible apply Eff.keeps_wait
    | with_reducible apply Eff.keeps_hold
    | with_reducible apply Eff.keeps_ite
    | with_reducible apply Eff.keeps_ite_fst
    | ((with_reducible apply State.regWrite_keeps); decide)
    | ((with_reducible apply Keeps.after (kvpSubmitWrite_keeps ..)); decide)
    | intro _
    | split)

end Sys2Proof.Machine
end

