-- ==== Sys2Proof/Laws/KeepsAtt.lean ====
section
/-! SUPPORT. What the operations of Machine/Att.lean may change: one law each. -/

namespace Sys2Proof.Machine

/-- What the result of an attention read may change. -/
def AttRes.Keeps (k : List Part) (s : State) : AttRes → Prop
  | .ok _ t => Machine.Keeps k s t
  | .fault _ _ t => Machine.Keeps k s t
  | .remote _ => True
  | .busy _ t => Machine.Keeps k s t
  | .stale _ t => Machine.Keeps k s t

theorem AttRes.keeps_ok {k : List Part} {s t : State} {a : AttAcc} (h : Machine.Keeps k s t) : AttRes.Keeps k s (.ok a t) := h
theorem AttRes.keeps_fault {k : List Part} {s t : State} {st : Status} {a : Nat} (h : Machine.Keeps k s t) :
    AttRes.Keeps k s (.fault st a t) := h
theorem AttRes.keeps_remote {k : List Part} {s : State} {l : List (Nat × Nat)} : AttRes.Keeps k s (.remote l) := trivial
theorem AttRes.keeps_busy {k : List Part} {s t : State} {i : Nat} (h : Machine.Keeps k s t) : AttRes.Keeps k s (.busy i t) := h
theorem AttRes.keeps_stale {k : List Part} {s t : State} {i : Nat} (h : Machine.Keeps k s t) : AttRes.Keeps k s (.stale i t) := h
theorem AttRes.keeps_ite {k : List Part} {s : State} {c : Prop} [Decidable c] {a b : AttRes} (h1 : AttRes.Keeps k s a)
    (h2 : AttRes.Keeps k s b) : AttRes.Keeps k s (if c then a else b) := by
  split <;> assumption

theorem AttRes.keeps_after {k k' : List Part} {s t : State} {e : AttRes} (h : AttRes.Keeps k' t e)
    (hk : k'.all k.contains = true) (h0 : Machine.Keeps k s t) : AttRes.Keeps k s e := by
  cases e <;> first | trivial | exact Machine.Keeps.after h hk h0

theorem State.attReads_keeps (s : State) (core : Nat) (e : AttEnv) (l : List (Nat × Nat)) :
    Keeps [.free, .regs, .mem, .ecc, .vio, .out, .host, .boot, .test, .units] s (s.attReads core e l).2.2.2 := Keeps.after (State.fabReads_keeps ..) (by decide) (Keeps.refl _ _)

theorem State.attRange_keeps (s : State) (t : Site) (e : AttEnv) (sel : Option (List (Nat × List Nat))) (fixed : Bool) (r : AttRange)
    (a : AttAcc) : AttRes.Keeps [.free, .regs, .mem, .ecc, .vio, .out, .host, .boot, .test, .units] s (s.attRange t e sel fixed r a) := by
  have h1 : ∀ u l, Keeps [.free, .regs, .mem, .ecc, .vio, .out, .host, .boot, .test, .units] s u → Keeps [.free, .regs, .mem, .ecc, .vio, .out, .host, .boot, .test, .units] s (u.attReads t.core e l).2.2.2 := fun u l hu =>
    Keeps.after (State.attReads_keeps ..) (by decide) hu
  have h2 : ∀ x l, Keeps [.free, .regs, .mem, .ecc, .vio, .out, .host, .boot, .test, .units] s ((s.attReads t.core e x).2.2.2.attReads t.core e l).2.2.2 := fun x l =>
    h1 _ l (h1 _ x (Keeps.refl _ _))
  unfold State.attRange
  dsimp only
  refine AttRes.keeps_ite (h1 _ _ (Keeps.refl _ _)) (AttRes.keeps_ite (h1 _ _ (Keeps.refl _ _)) ?_)
  split
  · exact h1 _ _ (Keeps.refl _ _)
  · exact h1 _ _ (Keeps.refl _ _)
  · exact h1 _ _ (Keeps.refl _ _)
  · exact h1 _ _ (Keeps.refl _ _)
  · exact AttRes.keeps_ite AttRes.keeps_remote (AttRes.keeps_ite (h2 _ _) (AttRes.keeps_ite (h2 _ _) (h2 _ _)))

/-- What the selection of pages may change. -/
def AttSel.Keeps (k : List Part) (s : State) : Sum AttRes (Option (List (Nat × List Nat)) × State) → Prop
  | .inl x => AttRes.Keeps k s x
  | .inr x => Machine.Keeps k s x.2

theorem State.attSelect_keeps (s : State) (t : Site) (e : AttEnv) (r : AttRange) : AttSel.Keeps [.free, .regs, .mem, .ecc, .vio, .out, .host, .boot, .test, .units] s (s.attSelect t e r) := by
  have h1 : ∀ u l, Keeps [.free, .regs, .mem, .ecc, .vio, .out, .host, .boot, .test, .units] s u → Keeps [.free, .regs, .mem, .ecc, .vio, .out, .host, .boot, .test, .units] s (u.attReads t.core e l).2.2.2 := fun u l hu =>
    Keeps.after (State.attReads_keeps ..) (by decide) hu
  unfold State.attSelect
  split
  · exact Keeps.refl _ _
  · dsimp only
    split
    · exact h1 _ _ (Keeps.refl _ _)
    · split
      · exact h1 _ _ (Keeps.refl _ _)
      · exact h1 _ _ (Keeps.refl _ _)
      · exact h1 _ _ (Keeps.refl _ _)
      · split
        · trivial
        · split
          · exact h1 _ _ (h1 _ _ (Keeps.refl _ _))
          · exact h1 _ _ (h1 _ _ (Keeps.refl _ _))

theorem State.attApply_keeps (s : State) (a : Nat) (p : AttPost) : Keeps [.mem] s (State.attApply s a p).2 := by
  unfold State.attApply
  try dsimp only
  repeat' (first
    | with_reducible exact Keeps.refl _ _
    | with_reducible assumption
    | with_reducible apply Keeps.ite
    | ((with_reducible apply Keeps.after (State.putNum_keeps ..)); decide)
    | with_reducible refine Keeps.foldl_snd (fun _ _ _ => ?_) ?_
    | with_reducible refine Keeps.foldl (fun _ _ _ => ?_) ?_
    | with_reducible apply Keeps.ite_snd
    | split)

theorem State.postArrives_keeps (s : State) (h : PktHdr) (x : AttPost) (n : Nat) : Keeps [.free, .regs, .mem, .vio, .out, .host, .test, .units] s (State.postArrives s h x n) := by
  unfold State.postArrives
  try dsimp only
  repeat' (first
    | with_reducible exact Keeps.refl _ _
    | with_reducible assumption
    | with_reducible apply Keeps.ite
    | ((with_reducible apply Keeps.after (State.setFab_keeps ..)); decide)
    | ((with_reducible apply Keeps.after (State.owe_keeps ..)); decide)
    | ((with_reducible apply Keeps.after (State.attApply_keeps ..)); decide)
    | ((with_reducible apply Keeps.after (State.answerTo_keeps ..)); decide)
    | split)

theorem State.afterPost_keeps (s : State) (a : Nat) : Keeps [.free, .regs, .mem, .vio, .out, .host, .test, .units] s (State.afterPost s a) := by
  unfold State.afterPost
  try dsimp only
  repeat' (first
    | with_reducible exact Keeps.refl _ _
    | with_reducible assumption
    | ((with_reducible apply Keeps.after (State.releaseHeld_keeps ..)); decide)
    | ((with_reducible apply Keeps.after (State.postArrives_keeps ..)); decide)
    | ((with_reducible apply Keeps.after (State.setFab_keeps ..)); decide)
    | with_reducible refine Keeps.foldl_snd (fun _ _ _ => ?_) ?_
    | with_reducible refine Keeps.foldl (fun _ _ _ => ?_) ?_
    | split)

theorem State.setAtt_keeps (s : State) (core : Nat) (a : AttAcc) (p : AttPart) : Keeps [.cores, .sched] s (State.setAtt s core a p) := by
  unfold State.setAtt
  try dsimp only
  repeat' (first
    | with_reducible exact Keeps.refl _ _
    | with_reducible assumption
    | ((with_reducible apply Keeps.after (State.setCore_keeps ..)); decide)
    | ((with_reducible apply Keeps.after (State.orFlags_keeps ..)); decide)
    | split)

theorem State.attStale_keeps (s : State) (t : Site) (entry : Nat) : Eff.Keeps [.regs, .vio, .out, .host, .test] s (State.attStale s t entry) := by
  unfold State.attStale
  try dsimp only
  repeat' (first
    | with_reducible exact Keeps.refl _ _
    | with_reducible assumption
    | with_reducible apply Eff.keeps_done
    | with_reducible apply Eff.keeps_fault
    | with_reducible apply Eff.keeps_wait
    | with_reducible apply Eff.keeps_hold
    | with_reducible apply Eff.keeps_ite
    | with_reducible apply Eff.keeps_ite_fst
    | ((with_reducible apply Keeps.after (State.log_keeps ..)); decide)
    | ((with_reducible apply Keeps.after (State.bump_keeps ..)); decide)
    | split)

theorem State.countRetry_keeps (s : State) : Keeps [.regs] s (State.countRetry s) := by
  unfold State.countRetry
  try dsimp only
  repeat' (first
    | with_reducible exact Keeps.refl _ _
    | with_reducible assumption
    | ((with_reducible apply Keeps.after (State.bump_keeps ..)); decide)
    | split)

theorem State.readPages_keeps (s : State) (core : Nat) (l : List (Nat × Nat)) : Keeps [.free, .regs, .out, .units] s (State.readPages s core l) := by
  unfold State.readPages
  try dsimp only
  repeat' (first
    | with_reducible exact Keeps.refl _ _
    | with_reducible assumption
    | with_reducible apply Keeps.ite
    | ((with_reducible apply Keeps.after (State.injectAll_keeps ..)); decide)
    | split)

theorem AttRes.eff_keeps {k : List Part} {s : State} (t : Site) (tried : Option Nat) (s0 : State) (p : AttPart)
    (f : AttAcc → State → Eff) {x : AttRes} (hk : ([.free, .regs, .vio, .out, .host, .test, .cores, .units] : List Part).all k.contains = true) (h0 : Machine.Keeps k s s0)
    (h : AttRes.Keeps k s x) (hf : ∀ a u, Machine.Keeps k s u → Eff.Keeps k s (f a u)) : Eff.Keeps k s (x.eff t tried s0 p f) := by
  have up : ∀ u w, Machine.Keeps [.free, .regs, .vio, .out, .host, .test, .cores, .units] u w → Machine.Keeps k s u → Machine.Keeps k s w := fun u w h h0 => Machine.Keeps.after h hk h0
  have stale : ∀ u i, Machine.Keeps k s u → Eff.Keeps k s (u.attStale t i) := fun u i hu =>
    Eff.keeps_after (State.attStale_keeps ..) (Part.sub_trans (b := [.free, .regs, .vio, .out, .host, .test, .cores, .units]) (by decide) hk) hu
  cases x with
  | ok a s1 => exact hf a s1 h
  | fault st a s1 => exact h
  | remote l =>
    exact up _ _ (Machine.Keeps.after (State.readPages_keeps ..) (by decide) (Machine.Keeps.after (State.setCore_keeps ..) (by decide)
      (Machine.Keeps.refl _ _))) h0
  | busy i s1 => exact up _ _ (Machine.Keeps.after (State.setCore_keeps ..) (by decide) (Machine.Keeps.refl _ _)) h
  | stale i s1 =>
    exact Eff.keeps_ite (stale _ _ h)
      (stale _ _ (up _ _ (Machine.Keeps.after (State.countRetry_keeps ..) (by decide) (Machine.Keeps.refl _ _)) h))

theorem State.attReplay_keeps (s : State) (t : Site) (e : AttEnv) (p : AttPart) (a : AttAcc) (l : List AttRange) :
    AttRes.Keeps [.free, .regs, .mem, .ecc, .vio, .out, .host, .boot, .test, .units] s (s.attReplay t e p a l) := by
  induction l generalizing s a with
  | nil => exact Keeps.refl _ _
  | cons r l ih =>
    have h := State.attRange_keeps s t e p.sel true r a
    unfold State.attReplay
    generalize s.attRange t e p.sel true r a = x at *
    cases x with
    | ok a1 s1 => exact AttRes.keeps_after (ih ..) (by decide) h
    | fault st a s1 => exact h
    | remote l => exact h
    | busy i s1 => exact h
    | stale i s1 => exact h

theorem State.attSettle_keeps (s : State) (t : Site) (tried : Option Nat) (e : AttEnv) (p : AttPart) (f : AttFinal) :
    Eff.Keeps [.free, .regs, .mem, .ecc, .vio, .out, .host, .boot, .test, .cores, .sched, .units] s (s.attSettle t tried e p f) := by
  unfold State.attSettle
  dsimp only
  have done : ∀ (o : Option AttSlot) (a : AttAcc) (q : AttPart) (u : State), Keeps [.free, .regs, .mem, .ecc, .vio, .out, .host, .boot, .test, .cores, .sched, .units] s u → Eff.Keeps [.free, .regs, .mem, .ecc, .vio, .out, .host, .boot, .test, .cores, .sched, .units] s
      (.done (match o with
        | some x => if x.part = 0 then (u.setAtt t.core a q).markAnchored t.core (fabLocal x.fa) e.tile.bank else u.setAtt t.core a q
        | none => u.setAtt t.core a q)) := by
    intro o a q u hu
    have h1 : Keeps [.free, .regs, .mem, .ecc, .vio, .out, .host, .boot, .test, .cores, .sched, .units] s (u.setAtt t.core a q) := Keeps.after (State.setAtt_keeps ..) (by decide) hu
    cases o with
    | none => exact h1
    | some x =>
      dsimp only
      split
      · exact Keeps.after (State.markAnchored_keeps ..) (by decide) h1
      · exact h1
  split
  · exact done _ _ _ _ (Keeps.refl _ _)
  · refine AttRes.eff_keeps t _ _ _ _ (by decide) (Keeps.refl _ _) (AttRes.keeps_after (State.attReplay_keeps ..) (by decide) (Keeps.refl _ _)) ?_
    intro a u hu
    exact done _ _ _ _ (Keeps.after (State.bump_keeps ..) (by decide) hu)

theorem State.attReach_keeps (s : State) (t : Site) (o : AttOps) : Keeps [.free, .regs, .mem, .ecc, .vio, .out, .host, .boot, .test, .units] s (State.attReach s t o).2.2 := by
  unfold State.attReach
  try dsimp only
  repeat' (first
    | with_reducible exact Keeps.refl _ _
    | with_reducible assumption
    | with_reducible apply Keeps.ite
    | ((with_reducible apply Keeps.after (State.readCheck_keeps ..)); decide)
    | with_reducible apply Keeps.ite_snd2
    | split)

theorem State.staged_keeps (s : State) (core : Nat) (d : AttDesc) : Keeps [.free, .mem] s (State.staged s core d) := by
  unfold State.staged
  try dsimp only
  repeat' (first
    | with_reducible exact Keeps.refl _ _
    | with_reducible assumption
    | ((with_reducible apply Keeps.after (State.putBytes_keeps ..)); decide)
    | ((with_reducible apply Keeps.after (State.withFree_keeps ..)); decide)
    | split)

theorem State.passed_keeps (s : State) (t : Site) (tried : Option Nat) (o : AttOps) (e : AttEnv) (p : AttPart) (a : AttAcc) :
    Eff.Keeps [.free, .regs, .mem, .ecc, .vio, .out, .host, .boot, .test, .cores, .sched, .units] s (s.passed t tried o e p a) := by
  have h : Keeps [.free, .regs, .mem, .ecc, .vio, .out, .host, .boot, .test, .cores, .sched, .units] s ((s.staged t.core e.d).setAtt t.core a p) :=
    Keeps.after (State.setAtt_keeps ..) (by decide) (Keeps.after (State.staged_keeps ..) (by decide) (Keeps.refl _ _))
  unfold State.passed
  dsimp only
  refine Eff.keeps_ite h ?_
  split
  · exact Eff.keeps_after (State.attSettle_keeps ..) (by decide) h
  · exact Keeps.after (State.openSlot_keeps ..) (by decide) (Keeps.after (State.setCore_keeps ..) (by decide) h)

theorem attPassEff_keeps (t : Site) (tried : Option Nat) (o : AttOps) (s : State) : Eff.Keeps [.free, .regs, .mem, .ecc, .vio, .out, .host, .boot, .test, .cores, .sched, .units] s (attPassEff t tried o s) := by
  have reach : Keeps [.free, .regs, .mem, .ecc, .vio, .out, .host, .boot, .test, .cores, .sched, .units] s (s.attReach t o).2.2 := Keeps.after (State.attReach_keeps ..) (by decide) (Keeps.refl _ _)
  unfold attPassEff
  dsimp only
  refine Eff.keeps_ite reach ?_
  split
  · exact reach
  · refine Eff.keeps_ite reach ?_
    split
    · exact reach
    · exact reach
    · next e _ _ _ p b _ _ =>
      refine Eff.keeps_ite reach ?_
      generalize (⟨(s.ctx t).sreg o.qReg, (s.ctx t).sreg (o.qReg + 1), b.1, b.2⟩ : AttRange) = r
      have sel : AttSel.Keeps [.free, .regs, .mem, .ecc, .vio, .out, .host, .boot, .test, .cores, .sched, .units] s (if o.first = 1 then (s.attReach t o).2.2.attSelect t e r else .inr (p.sel, (s.attReach t o).2.2)) := by
        split
        · have h2 := State.attSelect_keeps (s.attReach t o).2.2 t e r
          generalize (s.attReach t o).2.2.attSelect t e r = y at *
          cases y with
          | inl z => exact AttRes.keeps_after h2 (by decide) reach
          | inr z => exact Keeps.after h2 (by decide) reach
        · exact reach
      generalize (if o.first = 1 then (s.attReach t o).2.2.attSelect t e r else .inr (p.sel, (s.attReach t o).2.2)) = y at *
      cases y with
      | inl z => exact AttRes.eff_keeps t _ _ _ _ (by decide) (Keeps.refl _ _) sel (fun a u hu => hu)
      | inr z =>
        exact AttRes.eff_keeps t _ _ _ _ (by decide) (Keeps.refl _ _)
          (AttRes.keeps_after (State.attRange_keeps ..) (by decide) sel)
          (fun a u hu => Eff.keeps_after (State.passed_keeps ..) (by decide) hu)

theorem attAgain_keeps (t : Site) (tried : Option Nat) (o : AttOps) (f : Option AttFinal) (s : State) :
    Eff.Keeps [.free, .regs, .mem, .ecc, .vio, .out, .host, .boot, .test, .cores, .sched, .units] s (attAgain t tried o f s) := by
  unfold attAgain
  split
  · split
    · exact Keeps.refl _ _
    · exact Eff.keeps_after (State.attSettle_keeps ..) (by decide) (Keeps.refl _ _)
  · exact Eff.keeps_after (attPassEff_keeps ..) (by decide) (Keeps.refl _ _)

theorem execAttPass_keeps (t : Site) (h : Hdr) (o : AttOps) (s : State) :
    ∃ nx, execAttPass t h o s = .next nx ∧ Keeps [.free, .regs, .mem, .ecc, .vio, .out, .host, .boot, .test, .cores, .sched, .units] s nx := by
  refine ⟨_, rfl, ?_⟩
  try dsimp only
  repeat' (first
    | with_reducible exact Keeps.refl _ _
    | with_reducible assumption
    | with_reducible apply Keeps.ite
    | with_reducible apply Eff.keeps_done
    | with_reducible apply Eff.keeps_fault
    | with_reducible apply Eff.keeps_wait
    | with_reducible apply Eff.keeps_hold
    | with_reducible apply Eff.keeps_ite
    | with_reducible apply Eff.keeps_ite_fst
    | ((with_reducible apply State.resume_keeps); decide)
    | ((with_reducible apply Eff.keeps_after (attAgain_keeps ..)); decide)
    | ((with_reducible apply State.issueAs_keeps); decide)
    | ((with_reducible apply Eff.keeps_after (attPassEff_keeps ..)); decide)
    | intro _
    | split)

theorem execWalkBusyRetry_keeps (t : Site) (h : Hdr) (o : AttOps) (s : State) :
    ∃ nx, execWalkBusyRetry t h o s = .next nx ∧ Keeps [.free, .regs, .mem, .ecc, .vio, .out, .host, .boot, .test, .cores, .sched, .units] s nx := by
  refine ⟨_, rfl, ?_⟩
  try dsimp only
  repeat' (first
    | with_reducible exact Keeps.refl _ _
    | with_reducible assumption
    | with_reducible apply Keeps.ite
    | with_reducible apply Eff.keeps_done
    | with_reducible apply Eff.keeps_fault
    | with_reducible apply Eff.keeps_wait
    | with_reducible apply Eff.keeps_hold
    | with_reducible apply Eff.keeps_ite
    | with_reducible apply Eff.keeps_ite_fst
    | ((with_reducible apply Keeps.after (State.countRetry_keeps ..)); decide)
    | ((with_reducible apply State.resume_keeps); decide)
    | ((with_reducible apply Eff.keeps_after (attAgain_keeps ..)); decide)
    | ((with_reducible apply Eff.keeps_after (State.attStale_keeps ..)); decide)
    | intro _
    | ((with_reducible apply Keeps.of_eq); assumption)
    | ((with_reducible apply Keeps.of_eq3); assumption)
    | split)

theorem execAttSlotPost_keeps (t : Site) (s : State) :
    ∃ nx, execAttSlotPost t s = .next nx ∧ Keeps [.free, .regs, .mem, .ecc, .vio, .out, .host, .boot, .test, .cores, .sched, .units] s nx := by
  refine ⟨_, rfl, ?_⟩
  try dsimp only
  repeat' (first
    | with_reducible exact Keeps.refl _ _
    | with_reducible assumption
    | with_reducible apply Keeps.ite
    | ((with_reducible apply Keeps.after (State.setCore_keeps ..)); decide)
    | ((with_reducible apply Keeps.after (State.slotRead_keeps ..)); decide)
    | ((with_reducible apply Keeps.after (State.coreFault_keeps ..)); decide)
    | ((with_reducible apply Keeps.after (State.attApply_keeps ..)); decide)
    | ((with_reducible apply Keeps.after (State.afterPost_keeps ..)); decide)
    | ((with_reducible apply Keeps.after (State.injectAll_keeps ..)); decide)
    | ((with_reducible apply Keeps.of_eq); assumption)
    | ((with_reducible apply Keeps.of_eq3); assumption)
    | split)

theorem execAttFinalAnchors_keeps (t : Site) (h : Hdr) (s : State) :
    ∃ nx, execAttFinalAnchors t h s = .next nx ∧ Keeps [.free, .regs, .mem, .ecc, .vio, .out, .host, .boot, .test, .cores, .sched, .units] s nx := by
  refine ⟨_, rfl, ?_⟩
  try dsimp only
  repeat' (first
    | with_reducible exact Keeps.refl _ _
    | with_reducible assumption
    | with_reducible apply Keeps.ite
    | with_reducible apply Eff.keeps_done
    | with_reducible apply Eff.keeps_fault
    | with_reducible apply Eff.keeps_wait
    | with_reducible apply Eff.keeps_hold
    | with_reducible apply Eff.keeps_ite
    | with_reducible apply Eff.keeps_ite_fst
    | ((with_reducible apply State.resume_keeps); decide)
    | ((with_reducible apply Keeps.after (State.slotRead_keeps ..)); decide)
    | ((with_reducible apply Keeps.after (State.setCore_keeps ..)); decide)
    | ((with_reducible apply Eff.keeps_after (attAgain_keeps ..)); decide)
    | intro _
    | ((with_reducible apply Keeps.of_eq); assumption)
    | ((with_reducible apply Keeps.of_eq3); assumption)
    | split)

theorem attSendStart_keeps (t : Site) (o : AttOps) (s : State) : Eff.Keeps [.free, .regs, .mem, .ecc, .vio, .out, .host, .boot, .test, .cores, .units] s (attSendStart t o s).1 := by
  unfold attSendStart
  try dsimp only
  repeat' (first
    | with_reducible exact Keeps.refl _ _
    | with_reducible assumption
    | with_reducible apply Keeps.ite
    | with_reducible apply Eff.keeps_done
    | with_reducible apply Eff.keeps_fault
    | with_reducible apply Eff.keeps_wait
    | with_reducible apply Eff.keeps_hold
    | with_reducible apply Eff.keeps_ite
    | with_reducible apply Eff.keeps_ite_fst
    | ((with_reducible apply Keeps.after (State.attReach_keeps ..)); decide)
    | ((with_reducible apply Keeps.after (State.slotRead_keeps ..)); decide)
    | ((with_reducible apply Keeps.after (State.setCore_keeps ..)); decide)
    | ((with_reducible apply Keeps.after (State.putNum_keeps ..)); decide)
    | ((with_reducible apply Keeps.after (State.closeSlot_keeps ..)); decide)
    | ((with_reducible apply Keeps.after (State.injectAll_keeps ..)); decide)
    | ((with_reducible apply Keeps.of_eq); assumption)
    | ((with_reducible apply Keeps.of_eq3); assumption)
    | split)

theorem State.issueOrResume_keeps {k : List Part} {s0 : State} (s : State) (t : Site) (h : Hdr) (op : HeldOp) (ok : Bool)
    (body : State → Eff) (hk : ([.free, .regs, .mem, .ecc, .vio, .out, .host, .boot, .test, .cores, .sched, .units] : List Part).all k.contains = true) (hb : ∀ s, Eff.Keeps k s (body s)) (h0 : Keeps k s0 s) :
    Keeps k s0 (s.issueOrResume t h op ok body) := by
  refine Keeps.after ?_ (Part.sub_refl _) h0
  unfold State.issueOrResume
  split
  · exact State.resume_keeps s t h _ op body (Part.sub_trans (b := [.free, .regs, .mem, .ecc, .vio, .out, .host, .boot, .test, .cores, .sched, .units]) (by decide) hk) hb (Keeps.refl _ _)
  · exact State.issueAs_keeps s t h _ true ok body (Part.sub_trans (b := [.free, .regs, .mem, .ecc, .vio, .out, .host, .boot, .test, .cores, .sched, .units]) (by decide) hk) hb (Keeps.refl _ _)

theorem execAttSend_keeps (t : Site) (h : Hdr) (o : AttOps) (s : State) :
    ∃ nx, execAttSend t h o s = .next nx ∧ Keeps [.free, .regs, .mem, .ecc, .vio, .out, .host, .boot, .test, .cores, .sched, .units] s nx := by
  refine ⟨_, rfl, State.issueOrResume_keeps _ _ _ _ _ _ (by decide) (fun s1 => ?_) (Keeps.refl _ _)⟩
  have h1 := attSendStart_keeps t o s1
  generalize attSendStart t o s1 = r at *
  obtain ⟨e, ids, next⟩ := r
  cases e with
  | done s2 =>
    exact Keeps.after (State.setCore_keeps ..) (by decide) (Keeps.after h1 (by decide) (Keeps.refl _ _))
  | fault st a s2 => exact Keeps.after h1 (by decide) (Keeps.refl _ _)
  | wait s2 => exact Keeps.after h1 (by decide) (Keeps.refl _ _)
  | hold on s2 => exact Keeps.after h1 (by decide) (Keeps.refl _ _)

theorem State.attDrained_keeps (s : State) (t : Site) (o : AttOps) (e : AttEnv) (k : Core) : Keeps [.regs, .mem, .cores, .sched, .units] s (State.attDrained s t o e k) := by
  unfold State.attDrained
  try dsimp only
  repeat' (first
    | with_reducible exact Keeps.refl _ _
    | with_reducible assumption
    | ((with_reducible apply Keeps.after (State.putPieces_keeps ..)); decide)
    | ((with_reducible apply Keeps.after (State.setCore_keeps ..)); decide)
    | ((with_reducible apply Keeps.after (State.bump_keeps ..)); decide)
    | ((with_reducible apply Keeps.after (State.emptySlot_keeps ..)); decide)
    | ((with_reducible apply Keeps.after (State.setFab_keeps ..)); decide)
    | ((with_reducible apply Keeps.of_eq); assumption)
    | ((with_reducible apply Keeps.of_eq3); assumption)
    | split)

theorem attDrainEff_keeps (t : Site) (o : AttOps) (s : State) : Eff.Keeps [.free, .regs, .mem, .ecc, .vio, .out, .host, .boot, .test, .cores, .sched, .units] s (attDrainEff t o s) := by
  unfold attDrainEff
  try dsimp only
  repeat' (first
    | with_reducible exact Keeps.refl _ _
    | with_reducible assumption
    | with_reducible apply Keeps.ite
    | with_reducible apply Eff.keeps_done
    | with_reducible apply Eff.keeps_fault
    | with_reducible apply Eff.keeps_wait
    | with_reducible apply Eff.keeps_hold
    | with_reducible apply Eff.keeps_ite
    | with_reducible apply Eff.keeps_ite_fst
    | ((with_reducible apply Keeps.after (State.attReach_keeps ..)); decide)
    | ((with_reducible apply Keeps.after (State.slotRead_keeps ..)); decide)
    | ((with_reducible apply Keeps.after (State.attDrained_keeps ..)); decide)
    | ((with_reducible apply Keeps.of_eq); assumption)
    | ((with_reducible apply Keeps.of_eq3); assumption)
    | split)

theorem execAttDrain_keeps (t : Site) (h : Hdr) (o : AttOps) (s : State) :
    ∃ nx, execAttDrain t h o s = .next nx ∧ Keeps [.free, .regs, .mem, .ecc, .vio, .out, .host, .boot, .test, .cores, .sched, .units] s nx := by
  refine ⟨_, rfl, ?_⟩
  try dsimp only
  repeat' (first
    | with_reducible exact Keeps.refl _ _
    | with_reducible assumption
    | with_reducible apply Eff.keeps_done
    | with_reducible apply Eff.keeps_fault
    | with_reducible apply Eff.keeps_wait
    | with_reducible apply Eff.keeps_hold
    | with_reducible apply Eff.keeps_ite
    | with_reducible apply Eff.keeps_ite_fst
    | ((with_reducible apply State.issueOrResume_keeps); decide)
    | ((with_reducible apply Eff.keeps_after (attDrainEff_keeps ..)); decide)
    | intro _
    | split)

end Sys2Proof.Machine
end

