-- ==== Sys2Proof/Laws/KeepsGrd.lean ====
section
/-! SUPPORT. What the operations of Machine/Grd.lean may change: one law each. -/

namespace Sys2Proof.Machine

theorem State.setRed_keeps (s : State) (id : Nat) (r : Reduction) : Keeps [.units] s (State.setRed s id r) := by
  unfold State.setRed
  try dsimp only
  repeat' (first
    | with_reducible exact Keeps.refl _ _
    | with_reducible assumption
    | ((with_reducible apply Keeps.after (State.withUnits_keeps ..)); decide)
    | split)

theorem State.mapRed_keeps (s : State) (id : Nat) (f : Reduction → Reduction) : Keeps [.units] s (State.mapRed s id f) := by
  unfold State.mapRed
  try dsimp only
  repeat' (first
    | with_reducible exact Keeps.refl _ _
    | with_reducible assumption
    | ((with_reducible apply Keeps.after (State.setRed_keeps ..)); decide)
    | ((with_reducible apply Keeps.of_eq); assumption)
    | ((with_reducible apply Keeps.of_eq3); assumption)
    | split)

theorem State.showGrd_keeps (s : State) : Keeps [.regs] s (State.showGrd s) := by
  unfold State.showGrd
  try dsimp only
  repeat' (first
    | with_reducible exact Keeps.refl _ _
    | with_reducible assumption
    | ((with_reducible apply Keeps.after (State.setFld_keeps ..)); decide)
    | split)

theorem State.judge345_keeps (s : State) (id : Nat) (r : Reduction) (j : Nat) : Keeps [.regs, .units] s (State.judge345 s id r j) := by
  unfold State.judge345
  try dsimp only
  repeat' (first
    | with_reducible exact Keeps.refl _ _
    | with_reducible assumption
    | with_reducible apply Keeps.ite
    | ((with_reducible apply Keeps.after (State.setRed_keeps ..)); decide)
    | ((with_reducible apply Keeps.after (State.bump_keeps ..)); decide)
    | ((with_reducible apply Keeps.of_eq); assumption)
    | ((with_reducible apply Keeps.of_eq3); assumption)
    | split)

theorem State.gradFree_keeps (id : Nat) (p : GradPkt) (s : State) : Keeps [.free, .regs, .mem, .ecc, .boot, .units] s (State.gradFree id p s) := by
  unfold State.gradFree
  try dsimp only
  repeat' (first
    | with_reducible exact Keeps.refl _ _
    | with_reducible assumption
    | with_reducible apply Keeps.ite
    | ((with_reducible apply Keeps.after (State.mapRed_keeps ..)); decide)
    | ((with_reducible apply Keeps.after (State.stage_keeps ..)); decide)
    | with_reducible refine Keeps.foldl (fun _ _ _ => ?_) ?_
    | split)

theorem State.gradDrain_keeps (s : State) (id : Nat) (c : Nat) (x : ChunkState) : Keeps [.free, .regs, .mem, .ecc, .boot, .units] s (State.gradDrain s id c x) := by
  unfold State.gradDrain
  try dsimp only
  repeat' (first
    | with_reducible exact Keeps.refl _ _
    | with_reducible assumption
    | with_reducible apply Keeps.ite
    | ((with_reducible apply Keeps.after (State.writeMem_keeps ..)); decide)
    | ((with_reducible apply Keeps.after (State.setRed_keeps ..)); decide)
    | ((with_reducible apply Keeps.of_eq); assumption)
    | ((with_reducible apply Keeps.of_eq3); assumption)
    | split)

theorem State.gradSample_keeps (s : State) (id : Nat) (sec : Bool) (c : Nat) (x : ChunkState) : Keeps [.regs, .units] s (State.gradSample s id sec c x) := by
  unfold State.gradSample
  try dsimp only
  repeat' (first
    | with_reducible exact Keeps.refl _ _
    | with_reducible assumption
    | with_reducible apply Keeps.ite
    | ((with_reducible apply Keeps.after (State.judge345_keeps ..)); decide)
    | ((with_reducible apply Keeps.of_eq); assumption)
    | ((with_reducible apply Keeps.of_eq3); assumption)
    | split)

theorem State.gradClose_keeps (s : State) (stop : Bool) (id : Nat) (sec : Bool) (st c : Nat) : Keeps [.free, .regs, .mem, .ecc, .boot, .units] s (State.gradClose s stop id sec st c) := by
  unfold State.gradClose
  try dsimp only
  repeat' (first
    | with_reducible exact Keeps.refl _ _
    | with_reducible assumption
    | with_reducible apply Keeps.ite
    | ((with_reducible apply Keeps.after (State.setRed_keeps ..)); decide)
    | ((with_reducible apply Keeps.after (State.gradSample_keeps ..)); decide)
    | ((with_reducible apply Keeps.after (State.gradDrain_keeps ..)); decide)
    | ((with_reducible apply Keeps.after (State.bump_keeps ..)); decide)
    | ((with_reducible apply Keeps.of_eq); assumption)
    | ((with_reducible apply Keeps.of_eq3); assumption)
    | split)

theorem State.gradArrive_keeps (s : State) (id : Nat) (sec : Bool) (st c : Nat) (words : List (Nat × List Nat)) (weight count : Nat) (cut : Bool) : Keeps [.free, .regs, .mem, .ecc, .boot, .units] s (State.gradArrive s id sec st c words weight count cut).2 := by
  unfold State.gradArrive
  try dsimp only
  repeat' (first
    | with_reducible exact Keeps.refl _ _
    | with_reducible assumption
    | with_reducible apply Keeps.ite
    | ((with_reducible apply Keeps.after (State.setRed_keeps ..)); decide)
    | ((with_reducible apply Keeps.after (State.bump_keeps ..)); decide)
    | ((with_reducible apply Keeps.after (State.gradClose_keeps ..)); decide)
    | with_reducible refine Keeps.foldl_snd (fun _ _ _ => ?_) ?_
    | ((with_reducible apply Keeps.of_eq); assumption)
    | ((with_reducible apply Keeps.of_eq3); assumption)
    | with_reducible refine Keeps.foldl (fun _ _ _ => ?_) ?_
    | with_reducible apply Keeps.ite_snd
    | split)

theorem State.gradApply_keeps (s : State) (id : Nat) (p : GradPkt) : Keeps [.free, .regs, .mem, .ecc, .boot, .units] s (State.gradApply s id p).2 := by
  unfold State.gradApply
  try dsimp only
  repeat' (first
    | with_reducible exact Keeps.refl _ _
    | with_reducible assumption
    | ((with_reducible apply Keeps.after (State.gradArrive_keeps ..)); decide)
    | ((with_reducible apply Keeps.after (State.stage_keeps ..)); decide)
    | with_reducible refine Keeps.foldl_snd (fun _ _ _ => ?_) ?_
    | ((with_reducible apply Keeps.of_eq); assumption)
    | ((with_reducible apply Keeps.of_eq3); assumption)
    | with_reducible refine Keeps.foldl (fun _ _ _ => ?_) ?_
    | split)

theorem State.gradInject_keeps (s : State) (id dest piece : Nat) (p : GradPkt) : Keeps [.free, .regs, .mem, .ecc, .out, .boot, .units] s (State.gradInject s id dest piece p) := by
  unfold State.gradInject
  try dsimp only
  repeat' (first
    | with_reducible exact Keeps.refl _ _
    | with_reducible assumption
    | with_reducible apply Keeps.ite
    | ((with_reducible apply Keeps.after (State.gradFree_keeps ..)); decide)
    | ((with_reducible apply Keeps.after (State.mapRed_keeps ..)); decide)
    | ((with_reducible apply Keeps.after (State.injectAll_keeps ..)); decide)
    | ((with_reducible apply Keeps.of_eq); assumption)
    | ((with_reducible apply Keeps.of_eq3); assumption)
    | split)

theorem State.gradSend_keeps (s : State) (id : Nat) (x : GradSend) : Keeps [.free, .regs, .mem, .ecc, .out, .boot, .units] s (State.gradSend s id x) := by
  unfold State.gradSend
  try dsimp only
  repeat' (first
    | with_reducible exact Keeps.refl _ _
    | with_reducible assumption
    | with_reducible apply Keeps.ite
    | ((with_reducible apply Keeps.after (State.gradApply_keeps ..)); decide)
    | ((with_reducible apply Keeps.after (State.mapRed_keeps ..)); decide)
    | ((with_reducible apply Keeps.after (State.gradFree_keeps ..)); decide)
    | ((with_reducible apply Keeps.after (State.gradInject_keeps ..)); decide)
    | split)

theorem State.gradFlush_keeps (id n : Nat) (s : State) : Keeps [.free, .regs, .mem, .ecc, .out, .boot, .units] s (State.gradFlush id n s) := by
  induction n generalizing s with
  | zero => exact Keeps.refl _ _
  | succ n ih =>
    unfold State.gradFlush
    split
    · exact Keeps.refl _ _
    · refine Keeps.ite (Keeps.refl _ _) (Keeps.after (ih _) (by decide) (Keeps.foldl (fun _ _ _ => ?_) ?_))
      · exact Keeps.after (State.gradSend_keeps ..) (by decide) (by assumption)
      · exact Keeps.after (State.setRed_keeps ..) (by decide) (Keeps.refl _ _)

theorem State.gradSettle_keeps (s : State) : Keeps [.free, .regs, .mem, .ecc, .out, .boot, .units] s (State.gradSettle s) := by
  unfold State.gradSettle
  try dsimp only
  repeat' (first
    | with_reducible exact Keeps.refl _ _
    | with_reducible assumption
    | ((with_reducible apply Keeps.after (State.gradFlush_keeps ..)); decide)
    | ((with_reducible apply Keeps.after (State.setRed_keeps ..)); decide)
    | ((with_reducible apply Keeps.after (State.gradSend_keeps ..)); decide)
    | ((with_reducible apply Keeps.of_eq); assumption)
    | ((with_reducible apply Keeps.of_eq3); assumption)
    | with_reducible refine Keeps.foldl (fun _ _ _ => ?_) ?_
    | split)

theorem grdOpenWrite_keeps (v : Word) (s : State) : Keeps [.free, .regs, .mem, .ecc, .vio, .out, .host, .boot, .test, .units] s (grdOpenWrite v s).2 := by
  unfold grdOpenWrite
  try dsimp only
  repeat' (first
    | with_reducible exact Keeps.refl _ _
    | with_reducible assumption
    | with_reducible apply Keeps.ite
    | ((with_reducible apply Keeps.after (State.readCheck_keeps ..)); decide)
    | ((with_reducible apply Keeps.after (State.setFld_keeps ..)); decide)
    | ((with_reducible apply Keeps.after (State.setRed_keeps ..)); decide)
    | ((with_reducible apply Keeps.after (State.showGrd_keeps ..)); decide)
    | ((with_reducible apply Keeps.after (State.writeMem_keeps ..)); decide)
    | with_reducible apply Keeps.ite_snd
    | split)

theorem execGrdOpen_keeps (q : Fin 4) (v : Word) (s : State) :
    ∃ nx, execGrdOpen q v s = .next nx ∧ Keeps [.free, .regs, .mem, .ecc, .vio, .out, .host, .boot, .test, .units] s nx := by
  refine ⟨_, rfl, ?_⟩
  try dsimp only
  repeat' (first
    | with_reducible exact Keeps.refl _ _
    | with_reducible assumption
    | with_reducible apply Eff.keeps_done
    | with_reducible apply Eff.keeps_fault
    | with_reducible apply Eff.keeps_wait
    | with_reducible apply Eff.keeps_hold
    | with_reducible apply Eff.keeps_ite
    | with_reducible apply Eff.keeps_ite_fst
    | ((with_reducible apply State.regWrite_keeps); decide)
    | ((with_reducible apply Keeps.after (grdOpenWrite_keeps ..)); decide)
    | intro _
    | split)

theorem State.gradReadReady_keeps (s : State) (id : Nat) : Keeps [.free, .regs, .mem, .ecc, .vio, .out, .host, .boot, .test, .units] s (State.gradReadReady s id) := by
  unfold State.gradReadReady
  try dsimp only
  repeat' (first
    | with_reducible exact Keeps.refl _ _
    | with_reducible assumption
    | with_reducible apply Keeps.ite
    | ((with_reducible apply Keeps.after (State.setRed_keeps ..)); decide)
    | ((with_reducible apply Keeps.after (State.readMem_keeps ..)); decide)
    | ((with_reducible apply Keeps.of_eq); assumption)
    | ((with_reducible apply Keeps.of_eq3); assumption)
    | split)

theorem State.readChunks_keeps (s : State) (at' : Nat → Nat × Nat) (l : List Nat) :
    Keeps [.free, .regs, .mem, .ecc, .vio, .out, .host, .boot, .test, .units] s (s.readChunks at' l).2.2 := by
  induction l generalizing s with
  | nil => exact Keeps.refl _ _
  | cons c l ih =>
    have h : Keeps [.free, .regs, .mem, .ecc, .vio, .out, .host, .boot, .test, .units] s (s.readMem 7 (.engine (8 + gradEngine false c)) (at' c).1 (at' c).2).2.2 :=
      Keeps.after (State.readMem_keeps ..) (by decide) (Keeps.refl _ _)
    unfold State.readChunks
    exact Keeps.ite_snd2 h (Keeps.after (ih _) (by decide) h)

theorem State.readRuns_keeps (at' : Nat → Nat × Nat) (n : Nat) (cs : List Nat) (s : State) :
    Keeps [.free, .regs, .mem, .ecc, .vio, .out, .host, .boot, .test, .units] s (State.readRuns at' n cs s).2.2 := by
  induction n generalizing s cs with
  | zero => exact Keeps.refl _ _
  | succ n ih =>
    have h : Keeps [.free, .regs, .mem, .ecc, .vio, .out, .host, .boot, .test, .units] s (s.readChunks at' cs).2.2 := Keeps.after (State.readChunks_keeps ..) (by decide) (Keeps.refl _ _)
    unfold State.readRuns
    dsimp only
    split
    · exact h
    · exact Keeps.after (ih _ _) (by decide) h

theorem State.gradSendRaw_keeps (s : State) (id : Nat) : Keeps [.free, .regs, .mem, .ecc, .vio, .out, .host, .boot, .test, .units] s (State.gradSendRaw s id) := by
  unfold State.gradSendRaw
  try dsimp only
  repeat' (first
    | with_reducible exact Keeps.refl _ _
    | with_reducible assumption
    | with_reducible apply Keeps.ite
    | ((with_reducible apply Keeps.after (State.readChunks_keeps ..)); decide)
    | ((with_reducible apply Keeps.after (State.mapRed_keeps ..)); decide)
    | ((with_reducible apply Keeps.after (State.gradSend_keeps ..)); decide)
    | with_reducible refine Keeps.foldl_snd (fun _ _ _ => ?_) ?_
    | ((with_reducible apply Keeps.of_eq); assumption)
    | ((with_reducible apply Keeps.of_eq3); assumption)
    | with_reducible refine Keeps.foldl (fun _ _ _ => ?_) ?_
    | split)

theorem State.gatherForward_keeps (s : State) (id : Nat) (d : GradDesc) (done c n : Nat) (data : List Byte) : Keeps [.free, .regs, .mem, .ecc, .out, .boot, .units] s (State.gatherForward s id d done c n data) := by
  unfold State.gatherForward
  try dsimp only
  repeat' (first
    | with_reducible exact Keeps.refl _ _
    | with_reducible assumption
    | ((with_reducible apply Keeps.after (State.gradSend_keeps ..)); decide)
    | with_reducible refine Keeps.foldl (fun _ _ _ => ?_) ?_
    | split)

theorem State.gatherTake_keeps (s : State) (id : Nat) (d : GradDesc) (done : Nat) (l : List (Nat × List Byte)) : Keeps [.free, .regs, .mem, .ecc, .out, .boot, .units] s (State.gatherTake s id d done l) := by
  unfold State.gatherTake
  try dsimp only
  repeat' (first
    | with_reducible exact Keeps.refl _ _
    | with_reducible assumption
    | with_reducible apply Keeps.ite
    | ((with_reducible apply Keeps.after (State.writeMem_keeps ..)); decide)
    | ((with_reducible apply Keeps.after (State.mapRed_keeps ..)); decide)
    | ((with_reducible apply Keeps.after (State.gatherForward_keeps ..)); decide)
    | ((with_reducible apply Keeps.of_eq); assumption)
    | ((with_reducible apply Keeps.of_eq3); assumption)
    | split)

theorem State.gatherSendOwn_keeps (s : State) (id : Nat) : Keeps [.free, .regs, .mem, .ecc, .vio, .out, .host, .boot, .test, .units] s (State.gatherSendOwn s id) := by
  unfold State.gatherSendOwn
  try dsimp only
  repeat' (first
    | with_reducible exact Keeps.refl _ _
    | with_reducible assumption
    | ((with_reducible apply Keeps.after (State.readChunks_keeps ..)); decide)
    | ((with_reducible apply Keeps.after (State.mapRed_keeps ..)); decide)
    | ((with_reducible apply Keeps.after (State.gatherTake_keeps ..)); decide)
    | ((with_reducible apply Keeps.of_eq); assumption)
    | ((with_reducible apply Keeps.of_eq3); assumption)
    | split)

theorem execGrdChunkSend_keeps (red dst : Nat) (s : State) :
    ∃ nx, execGrdChunkSend red dst s = .next nx ∧ Keeps [.free, .regs, .mem, .ecc, .vio, .out, .host, .boot, .test, .units] s nx := by
  refine ⟨_, rfl, ?_⟩
  try dsimp only
  repeat' (first
    | with_reducible exact Keeps.refl _ _
    | with_reducible assumption
    | with_reducible apply Keeps.ite
    | ((with_reducible apply Keeps.after (State.gradReadReady_keeps ..)); decide)
    | ((with_reducible apply Keeps.after (State.gatherSendOwn_keeps ..)); decide)
    | ((with_reducible apply Keeps.after (State.gradSettle_keeps ..)); decide)
    | ((with_reducible apply Keeps.after (State.gradSendRaw_keeps ..)); decide)
    | ((with_reducible apply Keeps.of_eq); assumption)
    | ((with_reducible apply Keeps.of_eq3); assumption)
    | split)

theorem State.gradAnswerTo_keeps (s : State) (h : PktHdr) (st : Status) : Keeps [.free, .regs, .vio, .out, .host, .test, .units] s (State.gradAnswerTo s h st) := by
  unfold State.gradAnswerTo
  try dsimp only
  repeat' (first
    | with_reducible exact Keeps.refl _ _
    | with_reducible assumption
    | with_reducible apply Keeps.ite
    | ((with_reducible apply Keeps.after (State.log_keeps ..)); decide)
    | ((with_reducible apply Keeps.after (State.answerTo_keeps ..)); decide)
    | split)

theorem State.crcDiscard_keeps (s : State) (h : PktHdr) : Keeps [.regs, .vio, .out, .host, .test] s (State.crcDiscard s h) := by
  unfold State.crcDiscard
  try dsimp only
  repeat' (first
    | with_reducible exact Keeps.refl _ _
    | with_reducible assumption
    | ((with_reducible apply Keeps.after (State.log_keeps ..)); decide)
    | ((with_reducible apply Keeps.after (State.bump_keeps ..)); decide)
    | split)

theorem State.gradPacket_keeps {k : List Part} {s0 : State} (s : State) (h : PktHdr) (p : GradPkt) (f : State → Status × State)
    (hk : ([.free, .regs, .mem, .ecc, .vio, .out, .host, .boot, .test, .units] : List Part).all k.contains = true) (hf : ∀ s, Keeps k s (f s).2) (h0 : Keeps k s0 s) :
    Keeps k s0 (s.gradPacket h p f) := by
  unfold State.gradPacket
  refine State.arriving_keeps _ _ _ rfl (fun s1 => ?_) h0
  have up : ∀ u w, Keeps [.free, .regs, .mem, .ecc, .vio, .out, .host, .boot, .test, .units] u w → Keeps k u w := fun u w h => Keeps.after h hk (Keeps.refl _ _)
  have owe : Keeps [.free, .regs, .mem, .ecc, .vio, .out, .host, .boot, .test, .units] s1 (s1.owe (some h.port) (vcOf 3 h.sub) (packetSlots p.data.length)) :=
    Keeps.after (State.owe_keeps ..) (by decide) (Keeps.refl _ _)
  dsimp only
  refine Keeps.ite (up _ _ ?_) (Keeps.ite (up _ _ ?_) ?_)
  · exact Keeps.after (State.crcDiscard_keeps ..) (by decide) owe
  · exact Keeps.after (State.gradAnswerTo_keeps ..) (by decide) owe
  · refine Keeps.after (up _ _ ?_) (Part.sub_refl _) (Keeps.after (hf _) (Part.sub_refl _) (up _ _ owe))
    exact Keeps.after (State.gradSettle_keeps ..) (by decide) (Keeps.after (State.gradAnswerTo_keeps ..) (by decide) (Keeps.refl _ _))

theorem execGrdRaw_keeps (h : PktHdr) (p : GradPkt) (s : State) :
    ∃ nx, execGrdRaw h p s = .next nx ∧ Keeps [.free, .regs, .mem, .ecc, .vio, .out, .host, .boot, .test, .units] s nx := by
  refine ⟨_, rfl, ?_⟩
  try dsimp only
  repeat' (first
    | with_reducible exact Keeps.refl _ _
    | with_reducible assumption
    | with_reducible apply Eff.keeps_done
    | with_reducible apply Eff.keeps_fault
    | with_reducible apply Eff.keeps_wait
    | with_reducible apply Eff.keeps_hold
    | with_reducible apply Eff.keeps_ite
    | with_reducible apply Eff.keeps_ite_fst
    | ((with_reducible apply State.gradPacket_keeps); decide)
    | ((with_reducible apply Keeps.after (State.gradApply_keeps ..)); decide)
    | intro _
    | split)

theorem execGrdPart_keeps (h : PktHdr) (p : GradPkt) (s : State) :
    ∃ nx, execGrdPart h p s = .next nx ∧ Keeps [.free, .regs, .mem, .ecc, .vio, .out, .host, .boot, .test, .units] s nx := by
  refine ⟨_, rfl, ?_⟩
  try dsimp only
  repeat' (first
    | with_reducible exact Keeps.refl _ _
    | with_reducible assumption
    | with_reducible apply Eff.keeps_done
    | with_reducible apply Eff.keeps_fault
    | with_reducible apply Eff.keeps_wait
    | with_reducible apply Eff.keeps_hold
    | with_reducible apply Eff.keeps_ite
    | with_reducible apply Eff.keeps_ite_fst
    | ((with_reducible apply State.gradPacket_keeps); decide)
    | ((with_reducible apply Keeps.after (State.gradApply_keeps ..)); decide)
    | intro _
    | split)

theorem execGrdSample_keeps (h : PktHdr) (p : GradPkt) (s : State) :
    ∃ nx, execGrdSample h p s = .next nx ∧ Keeps [.free, .regs, .mem, .ecc, .vio, .out, .host, .boot, .test, .units] s nx := by
  refine ⟨_, rfl, ?_⟩
  try dsimp only
  repeat' (first
    | with_reducible exact Keeps.refl _ _
    | with_reducible assumption
    | with_reducible apply Eff.keeps_done
    | with_reducible apply Eff.keeps_fault
    | with_reducible apply Eff.keeps_wait
    | with_reducible apply Eff.keeps_hold
    | with_reducible apply Eff.keeps_ite
    | with_reducible apply Eff.keeps_ite_fst
    | ((with_reducible apply State.gradPacket_keeps); decide)
    | ((with_reducible apply Keeps.after (State.gradApply_keeps ..)); decide)
    | intro _
    | split)

theorem State.gatherApply_keeps (p : GradPkt) (s : State) : Keeps [.free, .regs, .mem, .ecc, .out, .boot, .units] s (State.gatherApply p s).2 := by
  unfold State.gatherApply
  try dsimp only
  repeat' (first
    | with_reducible exact Keeps.refl _ _
    | with_reducible assumption
    | ((with_reducible apply Keeps.after (State.stage_keeps ..)); decide)
    | ((with_reducible apply Keeps.after (State.gatherTake_keeps ..)); decide)
    | ((with_reducible apply Keeps.of_eq); assumption)
    | ((with_reducible apply Keeps.of_eq3); assumption)
    | with_reducible refine Keeps.foldl (fun _ _ _ => ?_) ?_
    | split)

theorem execGrdGather_keeps (h : PktHdr) (p : GradPkt) (s : State) :
    ∃ nx, execGrdGather h p s = .next nx ∧ Keeps [.free, .regs, .mem, .ecc, .vio, .out, .host, .boot, .test, .units] s nx := by
  refine ⟨_, rfl, ?_⟩
  try dsimp only
  repeat' (first
    | with_reducible exact Keeps.refl _ _
    | with_reducible assumption
    | with_reducible apply Eff.keeps_done
    | with_reducible apply Eff.keeps_fault
    | with_reducible apply Eff.keeps_wait
    | with_reducible apply Eff.keeps_hold
    | with_reducible apply Eff.keeps_ite
    | with_reducible apply Eff.keeps_ite_fst
    | ((with_reducible apply State.gradPacket_keeps); decide)
    | ((with_reducible apply Keeps.after (State.gatherApply_keeps ..)); decide)
    | intro _
    | split)

theorem State.gradAnswer_keeps (s : State) (id : Nat) (t : Trans) (st : Status) : Keeps [.free, .regs, .mem, .ecc, .out, .boot, .units] s (State.gradAnswer s id t st) := by
  unfold State.gradAnswer
  try dsimp only
  repeat' (first
    | with_reducible exact Keeps.refl _ _
    | with_reducible assumption
    | with_reducible apply Keeps.ite
    | ((with_reducible apply Keeps.after (State.setRed_keeps ..)); decide)
    | ((with_reducible apply Keeps.after (State.resend_keeps ..)); decide)
    | ((with_reducible apply Keeps.after (State.gradFree_keeps ..)); decide)
    | ((with_reducible apply Keeps.after (State.gradSettle_keeps ..)); decide)
    | ((with_reducible apply Keeps.of_eq); assumption)
    | ((with_reducible apply Keeps.of_eq3); assumption)
    | split)

theorem State.gradReread_keeps (s : State) (d : GradDesc) (piece : Nat) (p : GradPkt) : Keeps [.free, .regs, .mem, .ecc, .vio, .out, .host, .boot, .test, .units] s (s.gradReread d piece p).2.2 := by
  have sample : ∀ x : List (Nat × List Byte) × Option (Nat × Status) × State, Keeps [.free, .regs, .mem, .ecc, .vio, .out, .host, .boot, .test, .units] s x.2.2 →
      Keeps [.free, .regs, .mem, .ecc, .vio, .out, .host, .boot, .test, .units] s (have y := x; (y.1.filterMap d.samplePkt, failOf y.2.1, y.2.2)).2.2 := fun _ h => h
  unfold State.gradReread
  split
  · exact Keeps.after (State.readRuns_keeps ..) (by decide) (Keeps.refl _ _)
  · split
    · exact sample _ (Keeps.after (State.readChunks_keeps ..) (by decide) (Keeps.refl _ _))
    · exact Keeps.refl _ _

theorem execGrdResend_keeps (red : Nat) (s : State) :
    ∃ nx, execGrdResend red s = .next nx ∧ Keeps [.free, .regs, .mem, .ecc, .vio, .out, .host, .boot, .test, .units] s nx := by
  refine ⟨_, rfl, ?_⟩
  try dsimp only
  repeat' (first
    | with_reducible exact Keeps.refl _ _
    | with_reducible assumption
    | ((with_reducible apply Keeps.after (State.resend_keeps ..)); decide)
    | ((with_reducible apply Keeps.after (State.setRed_keeps ..)); decide)
    | ((with_reducible apply Keeps.after (State.gradReread_keeps ..)); decide)
    | ((with_reducible apply Keeps.after (State.mapRed_keeps ..)); decide)
    | ((with_reducible apply Keeps.after (State.gradInject_keeps ..)); decide)
    | ((with_reducible apply Keeps.after (State.bump_keeps ..)); decide)
    | with_reducible refine Keeps.foldl_snd (fun _ _ _ => ?_) ?_
    | ((with_reducible apply Keeps.of_eq); assumption)
    | ((with_reducible apply Keeps.of_eq3); assumption)
    | with_reducible refine Keeps.foldl (fun _ _ _ => ?_) ?_
    | split)

theorem execGrdStageDeadline_keeps (red : Nat) (sec : Bool) (stage : Fin 4) (chunk : Nat) (s : State) :
    ∃ nx, execGrdStageDeadline red sec stage chunk s = .next nx ∧ Keeps [.free, .regs, .mem, .ecc, .out, .boot, .units] s nx := by
  refine ⟨_, rfl, ?_⟩
  try dsimp only
  repeat' (first
    | with_reducible exact Keeps.refl _ _
    | with_reducible assumption
    | with_reducible apply Keeps.ite
    | ((with_reducible apply Keeps.after (State.gradClose_keeps ..)); decide)
    | ((with_reducible apply Keeps.after (State.gradSettle_keeps ..)); decide)
    | split)

theorem State.abandonSends_keeps (s : State) (id : Nat) : Keeps [.free, .regs, .out, .units] s (State.abandonSends s id) := by
  unfold State.abandonSends
  try dsimp only
  repeat' (first
    | with_reducible exact Keeps.refl _ _
    | with_reducible assumption
    | ((with_reducible apply Keeps.after (State.setPort_keeps ..)); decide)
    | ((with_reducible apply Keeps.after (State.freeTrans_keeps ..)); decide)
    | ((with_reducible apply Keeps.after (State.setFab_keeps ..)); decide)
    | with_reducible refine Keeps.foldl_snd (fun _ _ _ => ?_) ?_
    | with_reducible refine Keeps.foldl (fun _ _ _ => ?_) ?_
    | split)

theorem State.closeAll_keeps (s : State) (red : Nat) (r : Reduction) : Keeps [.free, .regs, .mem, .ecc, .boot, .units] s (State.closeAll s red r) := by
  unfold State.closeAll
  try dsimp only
  repeat' (first
    | with_reducible exact Keeps.refl _ _
    | with_reducible assumption
    | with_reducible apply Keeps.ite
    | ((with_reducible apply Keeps.after (State.gradClose_keeps ..)); decide)
    | ((with_reducible apply Keeps.after (State.mapRed_keeps ..)); decide)
    | ((with_reducible apply Keeps.after (State.gradDrain_keeps ..)); decide)
    | with_reducible refine Keeps.foldl_snd (fun _ _ _ => ?_) ?_
    | with_reducible refine Keeps.foldl (fun _ _ _ => ?_) ?_
    | split)

theorem execGrdTotalTimeout_keeps (red : Nat) (s : State) :
    ∃ nx, execGrdTotalTimeout red s = .next nx ∧ Keeps [.free, .regs, .mem, .ecc, .out, .boot, .units] s nx := by
  refine ⟨_, rfl, ?_⟩
  try dsimp only
  repeat' (first
    | with_reducible exact Keeps.refl _ _
    | with_reducible assumption
    | with_reducible apply Keeps.ite
    | ((with_reducible apply Keeps.after (State.setRed_keeps ..)); decide)
    | ((with_reducible apply Keeps.after (State.abandonSends_keeps ..)); decide)
    | ((with_reducible apply Keeps.after (State.closeAll_keeps ..)); decide)
    | ((with_reducible apply Keeps.of_eq); assumption)
    | ((with_reducible apply Keeps.of_eq3); assumption)
    | split)

theorem execGrdComplete_keeps (red : Nat) (s : State) :
    ∃ nx, execGrdComplete red s = .next nx ∧ Keeps [.free, .regs, .mem, .ecc, .out, .host, .boot, .units] s nx := by
  refine ⟨_, rfl, ?_⟩
  try dsimp only
  repeat' (first
    | with_reducible exact Keeps.refl _ _
    | with_reducible assumption
    | with_reducible apply Keeps.ite
    | ((with_reducible apply Keeps.after (State.writeMem_keeps ..)); decide)
    | ((with_reducible apply Keeps.after (State.withUnits_keeps ..)); decide)
    | ((with_reducible apply Keeps.after (State.showGrd_keeps ..)); decide)
    | ((with_reducible apply Keeps.after (State.event_keeps ..)); decide)
    | ((with_reducible apply Keeps.of_eq); assumption)
    | ((with_reducible apply Keeps.of_eq3); assumption)
    | split)

end Sys2Proof.Machine
end

