-- ==== Sys2Proof/Laws/KeepsRings.lean ====
section
/-! SUPPORT. What the operations of Machine/Rings.lean may change: one law each. -/

namespace Sys2Proof.Machine

theorem State.setConsumed_keeps (s : State) (n v : Nat) : Keeps [.regs] s (State.setConsumed s n v) := by
  unfold State.setConsumed
  try dsimp only
  repeat' (first
    | with_reducible exact Keeps.refl _ _
    | with_reducible assumption
    | ((with_reducible apply Keeps.after (State.setFld_keeps ..)); decide)
    | split)

theorem State.fetchRun_keeps (s : State) (n : Nat) (c : Consist) : Keeps [.free, .regs, .mem, .ecc, .vio, .out, .host, .boot, .test, .units] s (State.fetchRun s n c) := by
  unfold State.fetchRun
  try dsimp only
  repeat' (first
    | with_reducible exact Keeps.refl _ _
    | with_reducible assumption
    | ((with_reducible apply Keeps.after (State.readCheck_keeps ..)); decide)
    | with_reducible refine Keeps.foldl_snd (fun _ _ _ => ?_) ?_
    | with_reducible refine Keeps.foldl (fun _ _ _ => ?_) ?_
    | split)

theorem State.takeConsists_keeps (s : State) (n k : Nat) : Keeps [.free, .regs, .mem, .ecc, .vio, .out, .host, .boot, .test, .units] s (s.takeConsists n k) := by
  induction k generalizing s with
  | zero => exact Keeps.refl _ _
  | succ k ih =>
    unfold State.takeConsists
    split
    · exact Keeps.refl _ _
    · exact Keeps.after (ih _) (by decide) (Keeps.after (State.setConsumed_keeps ..) (by decide)
        (Keeps.after (State.setQp_keeps ..) (by decide) (Keeps.after (State.fetchRun_keeps ..) (by decide) (Keeps.refl _ _))))

theorem State.advance_keeps (s : State) (n : Nat) : Keeps [.free, .regs, .mem, .ecc, .vio, .out, .host, .boot, .test, .units] s (State.advance s n) := by
  unfold State.advance
  try dsimp only
  repeat' (first
    | with_reducible exact Keeps.refl _ _
    | with_reducible assumption
    | ((with_reducible apply Keeps.after (State.takeConsists_keeps ..)); decide)
    | split)

end Sys2Proof.Machine
end

