-- ==== Sys2Proof/Laws/KeepsRandom.lean ====
section
/-! SUPPORT. What the operations of Machine/Random.lean may change: one law each. -/

namespace Sys2Proof.Machine

theorem rngEff_keeps (d : Draw) (t : Site) (o : RngOps) (s : State) : Eff.Keeps [.cores] s (rngEff d t o s) := by
  unfold rngEff
  try dsimp only
  repeat' (first
    | with_reducible exact Keeps.refl _ _
    | with_reducible assumption
    | with_reducible apply Keeps.ite
    | with_reducible apply Eff.keeps_done
    | with_reducible apply Eff.keeps_fault
    | with_reducible apply Eff.keeps_wait
    | with_reducible apply Eff.keeps_hold
    | with_reducible apply Eff.keeps_ite
    | with_reducible apply Eff.keeps_ite_fst
    | ((with_reducible apply Keeps.after (State.setCtx_keeps ..)); decide)
    | ((with_reducible apply Keeps.of_eq); assumption)
    | ((with_reducible apply Keeps.of_eq3); assumption)
    | split)

theorem execRngBits_keeps (t : Site) (h : Hdr) (o : RngOps) (s : State) :
    ∃ nx, execRngBits t h o s = .next nx ∧ Keeps [.free, .regs, .mem, .ecc, .vio, .out, .host, .boot, .test, .cores, .sched, .units] s nx := by
  refine ⟨_, rfl, ?_⟩
  try dsimp only
  repeat' (first
    | with_reducible exact Keeps.refl _ _
    | with_reducible assumption
    | with_reducible apply Eff.keeps_done
    | with_reducible apply Eff.keeps_fault
    | with_reducible apply Eff.keeps_wait
    | with_reducible apply Eff.keeps_hold
    | with_reducible apply Eff.keeps_ite
    | with_reducible apply Eff.keeps_ite_fst
    | ((with_reducible apply State.issueAs_keeps); decide)
    | ((with_reducible apply Eff.keeps_after (rngEff_keeps ..)); decide)
    | intro _
    | split)

theorem execRngUniform_keeps (t : Site) (h : Hdr) (o : RngOps) (s : State) :
    ∃ nx, execRngUniform t h o s = .next nx ∧ Keeps [.free, .regs, .mem, .ecc, .vio, .out, .host, .boot, .test, .cores, .sched, .units] s nx := by
  refine ⟨_, rfl, ?_⟩
  try dsimp only
  repeat' (first
    | with_reducible exact Keeps.refl _ _
    | with_reducible assumption
    | with_reducible apply Eff.keeps_done
    | with_reducible apply Eff.keeps_fault
    | with_reducible apply Eff.keeps_wait
    | with_reducible apply Eff.keeps_hold
    | with_reducible apply Eff.keeps_ite
    | with_reducible apply Eff.keeps_ite_fst
    | ((with_reducible apply State.issueAs_keeps); decide)
    | ((with_reducible apply Eff.keeps_after (rngEff_keeps ..)); decide)
    | intro _
    | split)

theorem execRngUniformOpen_keeps (t : Site) (h : Hdr) (o : RngOps) (s : State) :
    ∃ nx, execRngUniformOpen t h o s = .next nx ∧ Keeps [.free, .regs, .mem, .ecc, .vio, .out, .host, .boot, .test, .cores, .sched, .units] s nx := by
  refine ⟨_, rfl, ?_⟩
  try dsimp only
  repeat' (first
    | with_reducible exact Keeps.refl _ _
    | with_reducible assumption
    | with_reducible apply Eff.keeps_done
    | with_reducible apply Eff.keeps_fault
    | with_reducible apply Eff.keeps_wait
    | with_reducible apply Eff.keeps_hold
    | with_reducible apply Eff.keeps_ite
    | with_reducible apply Eff.keeps_ite_fst
    | ((with_reducible apply State.issueAs_keeps); decide)
    | ((with_reducible apply Eff.keeps_after (rngEff_keeps ..)); decide)
    | intro _
    | split)

theorem execRngNormalFast_keeps (t : Site) (h : Hdr) (o : RngOps) (s : State) :
    ∃ nx, execRngNormalFast t h o s = .next nx ∧ Keeps [.free, .regs, .mem, .ecc, .vio, .out, .host, .boot, .test, .cores, .sched, .units] s nx := by
  refine ⟨_, rfl, ?_⟩
  try dsimp only
  repeat' (first
    | with_reducible exact Keeps.refl _ _
    | with_reducible assumption
    | with_reducible apply Eff.keeps_done
    | with_reducible apply Eff.keeps_fault
    | with_reducible apply Eff.keeps_wait
    | with_reducible apply Eff.keeps_hold
    | with_reducible apply Eff.keeps_ite
    | with_reducible apply Eff.keeps_ite_fst
    | ((with_reducible apply State.issueAs_keeps); decide)
    | ((with_reducible apply Eff.keeps_after (rngEff_keeps ..)); decide)
    | intro _
    | split)

theorem execRngNormalPrecise_keeps (t : Site) (h : Hdr) (o : RngOps) (s : State) :
    ∃ nx, execRngNormalPrecise t h o s = .next nx ∧ Keeps [.free, .regs, .mem, .ecc, .vio, .out, .host, .boot, .test, .cores, .sched, .units] s nx := by
  refine ⟨_, rfl, ?_⟩
  try dsimp only
  repeat' (first
    | with_reducible exact Keeps.refl _ _
    | with_reducible assumption
    | with_reducible apply Eff.keeps_done
    | with_reducible apply Eff.keeps_fault
    | with_reducible apply Eff.keeps_wait
    | with_reducible apply Eff.keeps_hold
    | with_reducible apply Eff.keeps_ite
    | with_reducible apply Eff.keeps_ite_fst
    | ((with_reducible apply State.issueAs_keeps); decide)
    | ((with_reducible apply Eff.keeps_after (rngEff_keeps ..)); decide)
    | intro _
    | split)

theorem sampleEff_keeps (t : Site) (o : RngOps) (s : State) : Eff.Keeps [.free, .regs, .mem, .ecc, .vio, .out, .host, .boot, .test, .sched, .units] s (sampleEff t o s) := by
  unfold sampleEff
  dsimp only
  split
  · exact Eff.keeps_fault (Keeps.refl _ _)
  · rename_i d _
    have rd : ∀ a n, Keeps [.free, .regs, .mem, .ecc, .vio, .out, .host, .boot, .test, .sched, .units] s (s.jobRead t.core a n).2.2 := fun a n =>
      Keeps.after (State.jobRead_keeps ..) (by decide) (Keeps.refl _ _)
    have wr : ∀ u a l, Keeps [.free, .regs, .mem, .ecc, .vio, .out, .host, .boot, .test, .sched, .units] s u → Keeps [.free, .regs, .mem, .ecc, .vio, .out, .host, .boot, .test, .sched, .units] s (u.jobWrite a l).2 := fun u a l hu =>
      Keeps.after (State.jobWrite_keeps ..) (by decide) hu
    refine Eff.keeps_ite (Keeps.refl _ _) (Eff.keeps_ite (rd _ _) (Eff.keeps_ite (wr _ _ _ (rd _ _)) ?_))
    have flags : ∀ u fl, Keeps [.free, .regs, .mem, .ecc, .vio, .out, .host, .boot, .test, .sched, .units] s u → Keeps [.free, .regs, .mem, .ecc, .vio, .out, .host, .boot, .test, .sched, .units] s ((u.orFlags fl).bump Fld.RNG_COUNTS_SAMPLE_ROWS Fld.RNG_COUNTS_SAMPLE_SAT 1) :=
      fun u fl hu => Keeps.after (State.bump_keeps ..) (by decide) (Keeps.after (State.orFlags_keeps ..) (by decide) hu)
    refine Eff.keeps_done (Keeps.ite ?_ ?_)
    · exact Keeps.after (State.bump_keeps ..) (by decide) (flags _ _ (wr _ _ _ (rd _ _)))
    · exact flags _ _ (wr _ _ _ (rd _ _))

theorem execRngSample_keeps (t : Site) (h : Hdr) (o : RngOps) (s : State) :
    ∃ nx, execRngSample t h o s = .next nx ∧ Keeps [.free, .regs, .mem, .ecc, .vio, .out, .host, .boot, .test, .cores, .sched, .units] s nx := by
  refine ⟨_, rfl, ?_⟩
  try dsimp only
  repeat' (first
    | with_reducible exact Keeps.refl _ _
    | with_reducible assumption
    | with_reducible apply Eff.keeps_done
    | with_reducible apply Eff.keeps_fault
    | with_reducible apply Eff.keeps_wait
    | with_reducible apply Eff.keeps_hold
    | with_reducible apply Eff.keeps_ite
    | with_reducible apply Eff.keeps_ite_fst
    | ((with_reducible apply State.issueAs_keeps); decide)
    | ((with_reducible apply Eff.keeps_after (sampleEff_keeps ..)); decide)
    | intro _
    | split)

end Sys2Proof.Machine
end

