-- ==== Sys2Proof/Laws/KeepsWin.lean ====
section
/-! SUPPORT. What the operations of Machine/Win.lean may change: one law each. -/

namespace Sys2Proof.Machine

theorem State.convReads_keeps (s : State) (core : Nat) (l : List (Nat × Nat)) : Keeps [.free, .regs, .mem, .ecc, .vio, .out, .host, .boot, .test, .units] s (s.convReads core l).2.2 := by
  induction l generalizing s with
  | nil => exact Keeps.refl _ _
  | cons p l ih =>
    unfold State.convReads
    refine Keeps.ite_snd2 (Keeps.refl _ _) (Keeps.ite_snd2 (Keeps.after (ih _) (by decide) ?_) ?_)
    · exact Keeps.after (State.readCheck_keeps ..) (by decide) (Keeps.refl _ _)
    · exact Keeps.after (State.readCheck_keeps ..) (by decide) (Keeps.refl _ _)

theorem State.stageFetch_keeps (s : State) (core : Nat) (d : ConvDesc) (o : WinOps) (p : WinPos) (blocks : List (Nat × List (Option Block))) : Keeps [.mem] s (State.stageFetch s core d o p blocks) := by
  unfold State.stageFetch
  try dsimp only
  repeat' (first
    | with_reducible exact Keeps.refl _ _
    | with_reducible assumption
    | with_reducible apply Keeps.ite
    | ((with_reducible apply Keeps.after (State.zeroBytes_keeps ..)); decide)
    | ((with_reducible apply Keeps.after (State.putNum_keeps ..)); decide)
    | with_reducible refine Keeps.foldl_snd (fun _ _ _ => ?_) ?_
    | ((with_reducible apply Keeps.of_eq); assumption)
    | ((with_reducible apply Keeps.of_eq3); assumption)
    | with_reducible refine Keeps.foldl (fun _ _ _ => ?_) ?_
    | split)

theorem winFetchEff_keeps (t : Site) (h : Hdr) (o : WinOps) (s : State) : Eff.Keeps [.free, .regs, .mem, .ecc, .vio, .out, .host, .boot, .test, .cores, .units] s (winFetchEff t h o s) := by
  unfold winFetchEff
  try dsimp only
  repeat' (first
    | with_reducible exact Keeps.refl _ _
    | with_reducible assumption
    | with_reducible apply Keeps.ite
    | with_reducible apply Eff.keeps_done
    | with_reducible apply Eff.keeps_fault
    | with_reducible apply Eff.keeps_wait
    | with_reducible apply Eff.keeps_hold
    | with_reducible apply Eff.keeps_ite
    | with_reducible apply Eff.keeps_ite_fst
    | ((with_reducible apply Keeps.after (State.readChecks_keeps ..)); decide)
    | ((with_reducible apply Keeps.after (State.setCtx_keeps ..)); decide)
    | ((with_reducible apply Keeps.after (State.convReads_keeps ..)); decide)
    | ((with_reducible apply Keeps.after (State.stageFetch_keeps ..)); decide)
    | ((with_reducible apply Keeps.of_eq); assumption)
    | ((with_reducible apply Keeps.of_eq3); assumption)
    | split)

theorem countGateWait_keeps (before after : State) (t : Site) : Keeps [.regs, .cores] after (countGateWait before after t) := by
  unfold countGateWait
  repeat' (first
    | with_reducible exact Keeps.refl _ _
    | with_reducible apply Keeps.ite
    | ((with_reducible apply Keeps.after (State.settleHalt_keeps ..)); decide)
    | ((with_reducible apply Keeps.after (State.bump_keeps ..)); decide))

theorem execWinFetch_keeps (t : Site) (h : Hdr) (o : WinOps) (s : State) :
    ∃ nx, execWinFetch t h o s = .next nx ∧ Keeps [.free, .regs, .mem, .ecc, .vio, .out, .host, .boot, .test, .cores, .sched, .units] s nx := by
  refine ⟨_, rfl, ?_⟩
  try dsimp only
  repeat' (first
    | with_reducible exact Keeps.refl _ _
    | with_reducible assumption
    | with_reducible apply Eff.keeps_done
    | with_reducible apply Eff.keeps_fault
    | with_reducible apply Eff.keeps_wait
    | with_reducible apply Eff.keeps_hold
    | with_reducible apply Eff.keeps_ite
    | with_reducible apply Eff.keeps_ite_fst
    | ((with_reducible apply Keeps.after (countGateWait_keeps ..)); decide)
    | ((with_reducible apply State.issueAs_keeps); decide)
    | ((with_reducible apply Eff.keeps_after (winFetchEff_keeps ..)); decide)
    | intro _
    | split)

theorem execHaloGateWait_keeps (t : Site) (h : Hdr) (o : WinOps) (expired : Bool) (s : State) :
    ∃ nx, execHaloGateWait t h o expired s = .next nx ∧ Keeps [.free, .regs, .mem, .ecc, .vio, .out, .host, .boot, .test, .cores, .sched, .units] s nx := by
  refine ⟨_, rfl, ?_⟩
  try dsimp only
  repeat' (first
    | with_reducible exact Keeps.refl _ _
    | with_reducible assumption
    | with_reducible apply Keeps.ite
    | ((with_reducible apply Keeps.after (State.readCheck_keeps ..)); decide)
    | ((with_reducible apply Keeps.after (State.coreFault_keeps ..)); decide)
    | ((with_reducible apply Keeps.after (State.setCtx_keeps ..)); decide)
    | ((with_reducible apply Eff.keeps_after (winFetchEff_keeps ..)); decide)
    | ((with_reducible apply Eff.settle_keeps); decide)
    | ((with_reducible apply Keeps.after (State.setFld_keeps ..)); decide)
    | ((with_reducible apply Keeps.after (State.bump_keeps ..)); decide)
    | ((with_reducible apply Keeps.of_eq); assumption)
    | ((with_reducible apply Keeps.of_eq3); assumption)
    | split)

theorem winMmaEff_keeps (t : Site) (o : WinOps) (s : State) : Eff.Keeps [.free, .regs, .mem, .ecc, .vio, .out, .host, .boot, .test, .cores, .units] s (winMmaEff t o s) := by
  unfold winMmaEff
  try dsimp only
  repeat' (first
    | with_reducible exact Keeps.refl _ _
    | with_reducible assumption
    | with_reducible apply Eff.keeps_done
    | with_reducible apply Eff.keeps_fault
    | with_reducible apply Eff.keeps_wait
    | with_reducible apply Eff.keeps_hold
    | with_reducible apply Eff.keeps_ite
    | with_reducible apply Eff.keeps_ite_fst
    | ((with_reducible apply State.atSlot_keeps); decide)
    | ((with_reducible apply Eff.keeps_after (State.matrixStep_keeps ..)); decide)
    | intro _
    | ((with_reducible apply Keeps.of_eq); assumption)
    | ((with_reducible apply Keeps.of_eq3); assumption)
    | split)

theorem execWinMma_keeps (t : Site) (h : Hdr) (o : WinOps) (s : State) :
    ∃ nx, execWinMma t h o s = .next nx ∧ Keeps [.free, .regs, .mem, .ecc, .vio, .out, .host, .boot, .test, .cores, .sched, .units] s nx := by
  refine ⟨_, rfl, ?_⟩
  try dsimp only
  repeat' (first
    | with_reducible exact Keeps.refl _ _
    | with_reducible assumption
    | with_reducible apply Keeps.ite
    | with_reducible apply Eff.keeps_done
    | with_reducible apply Eff.keeps_fault
    | with_reducible apply Eff.keeps_wait
    | with_reducible apply Eff.keeps_hold
    | with_reducible apply Eff.keeps_ite
    | with_reducible apply Eff.keeps_ite_fst
    | ((with_reducible apply State.resume_keeps); decide)
    | ((with_reducible apply Eff.keeps_after (winMmaEff_keeps ..)); decide)
    | ((with_reducible apply State.issueAs_keeps); decide)
    | intro _
    | split)

theorem winWmaxEff_keeps (t : Site) (o : WinOps) (s : State) : Eff.Keeps [.cores] s (winWmaxEff t o s) := by
  unfold winWmaxEff
  try dsimp only
  repeat' (first
    | with_reducible exact Keeps.refl _ _
    | with_reducible assumption
    | with_reducible apply Eff.keeps_done
    | with_reducible apply Eff.keeps_fault
    | with_reducible apply Eff.keeps_wait
    | with_reducible apply Eff.keeps_hold
    | with_reducible apply Eff.keeps_ite
    | with_reducible apply Eff.keeps_ite_fst
    | ((with_reducible apply Keeps.after (State.startPost_keeps ..)); decide)
    | ((with_reducible apply Keeps.of_eq); assumption)
    | ((with_reducible apply Keeps.of_eq3); assumption)
    | split)

theorem execWinWmax_keeps (t : Site) (h : Hdr) (o : WinOps) (s : State) :
    ∃ nx, execWinWmax t h o s = .next nx ∧ Keeps [.free, .regs, .mem, .ecc, .vio, .out, .host, .boot, .test, .cores, .sched, .units] s nx := by
  refine ⟨_, rfl, ?_⟩
  try dsimp only
  repeat' (first
    | with_reducible exact Keeps.refl _ _
    | with_reducible assumption
    | with_reducible apply Eff.keeps_done
    | with_reducible apply Eff.keeps_fault
    | with_reducible apply Eff.keeps_wait
    | with_reducible apply Eff.keeps_hold
    | with_reducible apply Eff.keeps_ite
    | with_reducible apply Eff.keeps_ite_fst
    | ((with_reducible apply State.issueAs_keeps); decide)
    | ((with_reducible apply Eff.keeps_after (winWmaxEff_keeps ..)); decide)
    | intro _
    | split)

theorem winPoolEff_keeps (t : Site) (o : WinOps) (s : State) : Eff.Keeps [.mem, .cores, .sched] s (winPoolEff t o s) := by
  unfold winPoolEff
  try dsimp only
  repeat' (first
    | with_reducible exact Keeps.refl _ _
    | with_reducible assumption
    | with_reducible apply Keeps.ite
    | with_reducible apply Eff.keeps_done
    | with_reducible apply Eff.keeps_fault
    | with_reducible apply Eff.keeps_wait
    | with_reducible apply Eff.keeps_hold
    | with_reducible apply Eff.keeps_ite
    | with_reducible apply Eff.keeps_ite_fst
    | ((with_reducible apply Keeps.after (State.putPieces_keeps ..)); decide)
    | ((with_reducible apply Keeps.after (State.setCore_keeps ..)); decide)
    | ((with_reducible apply Keeps.of_eq); assumption)
    | ((with_reducible apply Keeps.of_eq3); assumption)
    | split)

theorem execWinPool_keeps (t : Site) (h : Hdr) (o : WinOps) (s : State) :
    ∃ nx, execWinPool t h o s = .next nx ∧ Keeps [.free, .regs, .mem, .ecc, .vio, .out, .host, .boot, .test, .cores, .sched, .units] s nx := by
  refine ⟨_, rfl, ?_⟩
  try dsimp only
  repeat' (first
    | with_reducible exact Keeps.refl _ _
    | with_reducible assumption
    | with_reducible apply Eff.keeps_done
    | with_reducible apply Eff.keeps_fault
    | with_reducible apply Eff.keeps_wait
    | with_reducible apply Eff.keeps_hold
    | with_reducible apply Eff.keeps_ite
    | with_reducible apply Eff.keeps_ite_fst
    | ((with_reducible apply State.issueAs_keeps); decide)
    | ((with_reducible apply Eff.keeps_after (winPoolEff_keeps ..)); decide)
    | intro _
    | split)

theorem State.putAll_keeps (s : State) (l : List (Nat × List Byte)) : Keeps [.free, .regs, .mem, .ecc, .boot, .units] s (s.putAll l).2.2 := by
  induction l generalizing s with
  | nil => exact Keeps.refl _ _
  | cons p l ih =>
    unfold State.putAll
    refine Keeps.ite_snd2 (Keeps.after (ih _) (by decide) ?_) ?_
    · exact Keeps.after (State.jobWrite_keeps ..) (by decide) (Keeps.refl _ _)
    · exact Keeps.after (State.jobWrite_keeps ..) (by decide) (Keeps.refl _ _)

theorem winPutStart_keeps (t : Site) (o : WinOps) (s : State) : Eff.Keeps [.free, .regs, .mem, .ecc, .vio, .out, .host, .boot, .test, .cores, .units] s (winPutStart t o s).1 := by
  unfold winPutStart
  try dsimp only
  repeat' (first
    | with_reducible exact Keeps.refl _ _
    | with_reducible assumption
    | with_reducible apply Keeps.ite
    | with_reducible apply Eff.keeps_done
    | with_reducible apply Eff.keeps_fault
    | with_reducible apply Eff.keeps_wait
    | with_reducible apply Eff.keeps_hold
    | with_reducible apply Eff.keeps_ite
    | with_reducible apply Eff.keeps_ite_fst
    | ((with_reducible apply State.committed_keeps); decide)
    | ((with_reducible apply Keeps.after (State.putAll_keeps ..)); decide)
    | intro _
    | ((with_reducible apply Keeps.of_eq); assumption)
    | ((with_reducible apply Keeps.of_eq3); assumption)
    | split)

theorem execWinPut_keeps (t : Site) (h : Hdr) (o : WinOps) (s : State) :
    ∃ nx, execWinPut t h o s = .next nx ∧ Keeps [.free, .regs, .mem, .ecc, .vio, .out, .host, .boot, .test, .cores, .sched, .units] s nx := by
  refine ⟨_, rfl, ?_⟩
  try dsimp only
  repeat' (first
    | with_reducible exact Keeps.refl _ _
    | with_reducible assumption
    | with_reducible apply Eff.keeps_done
    | with_reducible apply Eff.keeps_fault
    | with_reducible apply Eff.keeps_wait
    | with_reducible apply Eff.keeps_hold
    | with_reducible apply Eff.keeps_ite
    | with_reducible apply Eff.keeps_ite_fst
    | ((with_reducible apply State.issueMove_keeps); decide)
    | ((with_reducible apply Eff.keeps_after (winPutStart_keeps ..)); decide)
    | intro _
    | split)

end Sys2Proof.Machine
end

