-- ==== Sys2Proof/Laws/KeepsLoader.lean ====
section
/-! SUPPORT. What the operations of Machine/Loader.lean may change: one law each. -/

namespace Sys2Proof.Machine

theorem State.report_keeps (s : State) (l : List Finding) : Keeps [.free, .regs, .out, .units] s (State.report s l) := by
  unfold State.report
  try dsimp only
  repeat' (first
    | with_reducible exact Keeps.refl _ _
    | with_reducible assumption
    | ((with_reducible apply Keeps.after (State.setFld_keeps ..)); decide)
    | ((with_reducible apply Keeps.after (State.place_keeps ..)); decide)
    | split)

theorem State.judge_keeps (s : State) (g : JobImg) (cls : Nat) : Keeps [.free, .regs, .mem, .ecc, .vio, .out, .host, .boot, .test, .units] s (State.judge s g cls).2 := by
  unfold State.judge
  try dsimp only
  repeat' (first
    | with_reducible exact Keeps.refl _ _
    | with_reducible assumption
    | with_reducible apply Keeps.ite
    | ((with_reducible apply Keeps.after (State.readCheck_keeps ..)); decide)
    | ((with_reducible apply Keeps.after (State.place_keeps ..)); decide)
    | with_reducible refine Keeps.foldl_snd (fun _ _ _ => ?_) ?_
    | with_reducible refine Keeps.foldl (fun _ _ _ => ?_) ?_
    | with_reducible apply Keeps.ite_snd
    | split)

end Sys2Proof.Machine
end

