-- ==== Sys2Proof/Laws/KeepsSidings.lean ====
section
/-! SUPPORT. What the operations of Machine/Sidings.lean may change: one law each. -/

namespace Sys2Proof.Machine

theorem State.setSiding_keeps (s : State) (n st tenant : Nat) : Keeps [.regs] s (State.setSiding s n st tenant) := by
  unfold State.setSiding
  try dsimp only
  repeat' (first
    | with_reducible exact Keeps.refl _ _
    | with_reducible assumption
    | ((with_reducible apply Keeps.after (State.setFld_keeps ..)); decide)
    | split)

theorem State.moveRegions_keeps (s : State) (save : Bool) (cores a : Nat) : Keeps [.mem] s (State.moveRegions s save cores a) := by
  unfold State.moveRegions
  try dsimp only
  repeat' (first
    | with_reducible exact Keeps.refl _ _
    | with_reducible assumption
    | with_reducible apply Keeps.ite
    | ((with_reducible apply Keeps.after (State.copyBytes_keeps ..)); decide)
    | with_reducible refine Keeps.foldl_fst (fun _ _ _ => ?_) ?_
    | with_reducible refine Keeps.foldl_snd (fun _ _ _ => ?_) ?_
    | with_reducible refine Keeps.foldl (fun _ _ _ => ?_) ?_
    | split)

theorem State.moveBuffers_keeps (s : State) (save : Bool) (l : List (Nat × Buf)) (a : Nat) : Keeps [.free, .regs, .mem, .ecc, .boot, .units] s (State.moveBuffers s save l a) := by
  unfold State.moveBuffers
  try dsimp only
  repeat' (first
    | with_reducible exact Keeps.refl _ _
    | with_reducible assumption
    | with_reducible apply Keeps.ite
    | ((with_reducible apply Keeps.after (State.zeroBytes_keeps ..)); decide)
    | ((with_reducible apply Keeps.after (State.copyBytes_keeps ..)); decide)
    | ((with_reducible apply Keeps.after (State.writeCheck_keeps ..)); decide)
    | with_reducible refine Keeps.foldl_fst (fun _ _ _ => ?_) ?_
    | with_reducible refine Keeps.foldl_snd (fun _ _ _ => ?_) ?_
    | with_reducible refine Keeps.foldl (fun _ _ _ => ?_) ?_
    | split)

theorem State.saveSections_keeps (s : State) (a used : Nat) (bufs : List (Nat × Buf)) : Keeps [.free, .regs, .mem, .ecc, .boot, .units] s (State.saveSections s a used bufs) := by
  unfold State.saveSections
  try dsimp only
  repeat' (first
    | with_reducible exact Keeps.refl _ _
    | with_reducible assumption
    | with_reducible apply Keeps.ite
    | ((with_reducible apply Keeps.after (State.putBytes_keeps ..)); decide)
    | ((with_reducible apply Keeps.after (State.moveRegions_keeps ..)); decide)
    | ((with_reducible apply Keeps.after (State.moveBuffers_keeps ..)); decide)
    | with_reducible refine Keeps.foldl (fun _ _ _ => ?_) ?_
    | split)

theorem State.restoreReads_keeps (s : State) (a size len : Nat) : Keeps [.free, .regs, .mem, .ecc, .vio, .out, .host, .boot, .test, .units] s (State.restoreReads s a size len).2.2 := by
  unfold State.restoreReads
  try dsimp only
  repeat' (first
    | with_reducible exact Keeps.refl _ _
    | with_reducible assumption
    | with_reducible apply Keeps.ite
    | ((with_reducible apply Keeps.after (State.readCheck_keeps ..)); decide)
    | ((with_reducible apply Keeps.after (State.readChecks_keeps ..)); decide)
    | with_reducible apply Keeps.ite_snd2
    | split)

theorem State.multicast_keeps (s : State) (g : JobImg) (p : Program) : Keeps [.mem] s (State.multicast s g p) := by
  unfold State.multicast
  try dsimp only
  repeat' (first
    | with_reducible exact Keeps.refl _ _
    | with_reducible assumption
    | ((with_reducible apply Keeps.after (State.copyBytes_keeps ..)); decide)
    | with_reducible refine Keeps.foldl (fun _ _ _ => ?_) ?_
    | split)

theorem State.resumeCtx_keeps (s : State) (r : RunNest) (keep : SidedKeep) (t : Site) : Keeps [.cores] s (State.resumeCtx s r keep t) := by
  unfold State.resumeCtx
  try dsimp only
  repeat' (first
    | with_reducible exact Keeps.refl _ _
    | with_reducible assumption
    | with_reducible apply Keeps.ite
    | ((with_reducible apply Keeps.after (State.setCtx_keeps ..)); decide)
    | split)

theorem State.resumeCore_keeps (s : State) (r : RunNest) (keep : SidedKeep) (n : Nat) : Keeps [.free, .regs, .mem, .ecc, .vio, .out, .host, .boot, .test, .cores, .sched, .units] s (State.resumeCore s r keep n) := by
  unfold State.resumeCore
  try dsimp only
  repeat' (first
    | with_reducible exact Keeps.refl _ _
    | with_reducible assumption
    | with_reducible apply Keeps.ite
    | ((with_reducible apply Keeps.after (State.resumeCtx_keeps ..)); decide)
    | ((with_reducible apply Keeps.after (State.setCore_keeps ..)); decide)
    | ((with_reducible apply Keeps.after (State.nextItem_keeps ..)); decide)
    | with_reducible refine Keeps.foldl (fun _ _ _ => ?_) ?_
    | split)

theorem State.restoreSame_keeps (s : State) (a : Nat) (p : Program) (keep : SidedKeep) : Keeps [.free, .regs, .mem, .ecc, .vio, .out, .host, .boot, .test, .cores, .sched, .units] s (State.restoreSame s a p keep) := by
  unfold State.restoreSame
  try dsimp only
  repeat' (first
    | with_reducible exact Keeps.refl _ _
    | with_reducible assumption
    | with_reducible apply Keeps.ite
    | ((with_reducible apply Keeps.after (State.setCore_keeps ..)); decide)
    | ((with_reducible apply Keeps.after (State.setFld_keeps ..)); decide)
    | ((with_reducible apply Keeps.after (State.moveRegions_keeps ..)); decide)
    | ((with_reducible apply Keeps.after (State.moveBuffers_keeps ..)); decide)
    | ((with_reducible apply Keeps.after (State.mapJob_keeps ..)); decide)
    | ((with_reducible apply Keeps.after (State.resumeCore_keeps ..)); decide)
    | ((with_reducible apply Keeps.after (State.showNest_keeps ..)); decide)
    | with_reducible refine Keeps.foldl_snd (fun _ _ _ => ?_) ?_
    | ((with_reducible apply Keeps.of_eq); assumption)
    | ((with_reducible apply Keeps.of_eq3); assumption)
    | with_reducible refine Keeps.foldl (fun _ _ _ => ?_) ?_
    | split)

theorem State.restoreMoved_keeps (s : State) (a cores : Nat) (g : JobImg) (p : Program) (keep : SidedKeep) : Keeps [.free, .regs, .mem, .ecc, .boot, .test, .cores, .sched, .units] s (State.restoreMoved s a cores g p keep) := by
  unfold State.restoreMoved
  try dsimp only
  repeat' (first
    | with_reducible exact Keeps.refl _ _
    | with_reducible assumption
    | ((with_reducible apply Keeps.after (State.moveBuffers_keeps ..)); decide)
    | ((with_reducible apply Keeps.after (State.zeroBytes_keeps ..)); decide)
    | ((with_reducible apply Keeps.after (State.setCore_keeps ..)); decide)
    | ((with_reducible apply Keeps.after (State.multicast_keeps ..)); decide)
    | ((with_reducible apply Keeps.after (State.setCtx_keeps ..)); decide)
    | ((with_reducible apply Keeps.after (State.setFld_keeps ..)); decide)
    | ((with_reducible apply Keeps.after (State.mapJob_keeps ..)); decide)
    | ((with_reducible apply Keeps.after (State.clearHolds_keeps ..)); decide)
    | ((with_reducible apply Keeps.after (State.putNum_keeps ..)); decide)
    | ((with_reducible apply Keeps.after (State.showNest_keeps ..)); decide)
    | with_reducible refine Keeps.foldl_snd (fun _ _ _ => ?_) ?_
    | ((with_reducible apply Keeps.of_eq); assumption)
    | ((with_reducible apply Keeps.of_eq3); assumption)
    | with_reducible refine Keeps.foldl (fun _ _ _ => ?_) ?_
    | split)

end Sys2Proof.Machine
end

