-- ==== Sys2Proof/Laws/KeepsJobs.lean ====
section
/-! SUPPORT. What the operations of Machine/Jobs.lean may change: one law each. -/

namespace Sys2Proof.Machine

theorem State.showQueued_keeps (s : State) : Keeps [.regs] s (State.showQueued s) := by
  unfold State.showQueued
  try dsimp only
  repeat' (first
    | with_reducible exact Keeps.refl _ _
    | with_reducible assumption
    | ((with_reducible apply Keeps.after (State.setFld_keeps ..)); decide)
    | split)

theorem State.setQueue_keeps (s : State) (q : List Job) : Keeps [.regs, .sched] s (State.setQueue s q) := by
  unfold State.setQueue
  try dsimp only
  repeat' (first
    | with_reducible exact Keeps.refl _ _
    | with_reducible assumption
    | ((with_reducible apply Keeps.after (State.withSched_keeps ..)); decide)
    | ((with_reducible apply Keeps.after (State.showQueued_keeps ..)); decide)
    | split)

theorem State.closeCharge_keeps (s : State) : Keeps [.regs, .sched] s (State.closeCharge s) := by
  unfold State.closeCharge
  try dsimp only
  repeat' (first
    | with_reducible exact Keeps.refl _ _
    | with_reducible assumption
    | ((with_reducible apply Keeps.after (State.withSched_keeps ..)); decide)
    | ((with_reducible apply Keeps.after (State.setFld_keeps ..)); decide)
    | ((with_reducible apply Keeps.of_eq); assumption)
    | ((with_reducible apply Keeps.of_eq3); assumption)
    | split)

theorem State.postJob_keeps (s : State) (j : Job) (st : Status) (kind : CplKind) (info : Nat) : Keeps [.free, .regs, .mem, .ecc, .vio, .out, .host, .boot, .test, .units] s (State.postJob s j st kind info) := by
  unfold State.postJob
  try dsimp only
  repeat' (first
    | with_reducible exact Keeps.refl _ _
    | with_reducible assumption
    | with_reducible apply Keeps.ite
    | ((with_reducible apply Keeps.after (State.setQp_keeps ..)); decide)
    | ((with_reducible apply Keeps.after (State.sendOn_keeps ..)); decide)
    | ((with_reducible apply Keeps.after (State.advance_keeps ..)); decide)
    | ((with_reducible apply Keeps.after (State.event_keeps ..)); decide)
    | split)

theorem State.showPreempt_keeps (s : State) (b : Bool) : Keeps [.regs] s (State.showPreempt s b) := by
  unfold State.showPreempt
  try dsimp only
  repeat' (first
    | with_reducible exact Keeps.refl _ _
    | with_reducible assumption
    | ((with_reducible apply Keeps.after (State.setFld_keeps ..)); decide)
    | split)

theorem State.requestPreempt_keeps (s : State) : Keeps [.regs, .test, .cores, .sched] s (State.requestPreempt s) := by
  unfold State.requestPreempt
  try dsimp only
  repeat' (first
    | with_reducible exact Keeps.refl _ _
    | with_reducible assumption
    | ((with_reducible apply Keeps.after (State.settleHalt_keeps ..)); decide)
    | ((with_reducible apply Keeps.after (State.setJob_keeps ..)); decide)
    | ((with_reducible apply Keeps.of_eq); assumption)
    | ((with_reducible apply Keeps.of_eq3); assumption)
    | with_reducible refine Keeps.foldl (fun _ _ _ => ?_) ?_
    | split)

theorem State.rtArrives_keeps (s : State) : Keeps [.regs, .test, .cores, .sched] s (State.rtArrives s) := by
  unfold State.rtArrives
  try dsimp only
  repeat' (first
    | with_reducible exact Keeps.refl _ _
    | with_reducible assumption
    | with_reducible apply Keeps.ite
    | ((with_reducible apply Keeps.after (State.requestPreempt_keeps ..)); decide)
    | ((with_reducible apply Keeps.of_eq); assumption)
    | ((with_reducible apply Keeps.of_eq3); assumption)
    | split)

theorem State.admitJob_keeps (s : State) (j0 : Job) : Keeps [.free, .regs, .mem, .ecc, .vio, .out, .host, .boot, .test, .cores, .sched, .units] s (State.admitJob s j0).2 := by
  unfold State.admitJob
  try dsimp only
  repeat' (first
    | with_reducible exact Keeps.refl _ _
    | with_reducible assumption
    | with_reducible apply Keeps.ite
    | ((with_reducible apply Keeps.after (State.readChecks_keeps ..)); decide)
    | ((with_reducible apply Keeps.after (State.traceJob_keeps ..)); decide)
    | ((with_reducible apply Keeps.after (State.setQueue_keeps ..)); decide)
    | ((with_reducible apply Keeps.after (State.rtArrives_keeps ..)); decide)
    | with_reducible apply Keeps.ite_snd
    | split)

theorem State.clearCores_keeps (s : State) : Keeps [.regs, .cores] s (State.clearCores s) := by
  unfold State.clearCores
  try dsimp only
  repeat' (first
    | with_reducible exact Keeps.refl _ _
    | with_reducible assumption
    | ((with_reducible apply Keeps.after (State.setCore_keeps ..)); decide)
    | ((with_reducible apply Keeps.after (State.setFld_keeps ..)); decide)
    | with_reducible refine Keeps.foldl (fun _ _ _ => ?_) ?_
    | split)

theorem State.releaseSiding_keeps (s : State) (j : Job) : Keeps [.regs] s (State.releaseSiding s j) := by
  unfold State.releaseSiding
  try dsimp only
  repeat' (first
    | with_reducible exact Keeps.refl _ _
    | with_reducible assumption
    | ((with_reducible apply Keeps.after (State.setSiding_keeps ..)); decide)
    | ((with_reducible apply Keeps.of_eq); assumption)
    | ((with_reducible apply Keeps.of_eq3); assumption)
    | split)

theorem State.freeCores_keeps (s : State) : Keeps [.regs, .test, .cores, .sched, .units] s (State.freeCores s) := by
  unfold State.freeCores
  try dsimp only
  repeat' (first
    | with_reducible exact Keeps.refl _ _
    | with_reducible assumption
    | ((with_reducible apply Keeps.after (State.clearCores_keeps ..)); decide)
    | ((with_reducible apply Keeps.after (State.setFab_keeps ..)); decide)
    | ((with_reducible apply Keeps.after (State.setJob_keeps ..)); decide)
    | ((with_reducible apply Keeps.after (State.showPreempt_keeps ..)); decide)
    | ((with_reducible apply Keeps.after (State.showQueued_keeps ..)); decide)
    | split)

theorem State.endJob_keeps (s : State) (st : Status) (info : Nat) : Keeps [.free, .regs, .mem, .ecc, .vio, .out, .host, .boot, .test, .cores, .sched, .units] s (State.endJob s st info) := by
  unfold State.endJob
  try dsimp only
  repeat' (first
    | with_reducible exact Keeps.refl _ _
    | with_reducible assumption
    | ((with_reducible apply Keeps.after (State.closeCharge_keeps ..)); decide)
    | ((with_reducible apply Keeps.after (State.releaseSiding_keeps ..)); decide)
    | ((with_reducible apply Keeps.after (State.freeCores_keeps ..)); decide)
    | ((with_reducible apply Keeps.after (State.traceJob_keeps ..)); decide)
    | ((with_reducible apply Keeps.after (State.postJob_keeps ..)); decide)
    | ((with_reducible apply Keeps.of_eq); assumption)
    | ((with_reducible apply Keeps.of_eq3); assumption)
    | split)

theorem State.unloadJob_keeps (s : State) : Keeps [.regs, .test, .cores, .sched, .units] s (State.unloadJob s) := by
  unfold State.unloadJob
  try dsimp only
  repeat' (first
    | with_reducible exact Keeps.refl _ _
    | with_reducible assumption
    | ((with_reducible apply Keeps.after (State.closeCharge_keeps ..)); decide)
    | ((with_reducible apply Keeps.after (State.releaseSiding_keeps ..)); decide)
    | ((with_reducible apply Keeps.after (State.freeCores_keeps ..)); decide)
    | ((with_reducible apply Keeps.after (State.traceJob_keeps ..)); decide)
    | ((with_reducible apply Keeps.after (State.setQueue_keeps ..)); decide)
    | ((with_reducible apply Keeps.of_eq); assumption)
    | ((with_reducible apply Keeps.of_eq3); assumption)
    | split)

theorem State.clearRefused_keeps (s : State) : Keeps [.sched] s (State.clearRefused s) := by
  unfold State.clearRefused
  try dsimp only
  repeat' (first
    | with_reducible exact Keeps.refl _ _
    | with_reducible assumption
    | ((with_reducible apply Keeps.after (State.withSched_keeps ..)); decide)
    | split)

theorem State.applyTtSwap_keeps (s : State) : Keeps [.free, .regs, .mem, .sched] s (State.applyTtSwap s) := by
  unfold State.applyTtSwap
  try dsimp only
  repeat' (first
    | with_reducible exact Keeps.refl _ _
    | with_reducible assumption
    | with_reducible apply Keeps.ite
    | ((with_reducible apply Keeps.after (State.withSched_keeps ..)); decide)
    | ((with_reducible apply Keeps.after (State.staged_keeps ..)); decide)
    | ((with_reducible apply Keeps.after (State.setFld_keeps ..)); decide)
    | split)

theorem State.applyChanges_keeps (s : State) : Keeps [.free, .regs, .mem, .ecc, .vio, .out, .host, .boot, .test, .sched, .units] s (State.applyChanges s) := by
  unfold State.applyChanges
  try dsimp only
  repeat' (first
    | with_reducible exact Keeps.refl _ _
    | with_reducible assumption
    | with_reducible apply Keeps.ite
    | ((with_reducible apply Keeps.after (State.staged_keeps ..)); decide)
    | ((with_reducible apply Keeps.after (State.applySfuSwap_keeps ..)); decide)
    | ((with_reducible apply Keeps.after (State.applyKvp_keeps ..)); decide)
    | ((with_reducible apply Keeps.after (State.applyTtSwap_keeps ..)); decide)
    | ((with_reducible apply Keeps.after (State.clearRefused_keeps ..)); decide)
    | split)

theorem State.dequeue_keeps (s : State) (j : Job) : Keeps [.sched] s (State.dequeue s j) := by
  unfold State.dequeue
  try dsimp only
  repeat' (first
    | with_reducible exact Keeps.refl _ _
    | with_reducible assumption
    | ((with_reducible apply Keeps.after (State.withSched_keeps ..)); decide)
    | split)

theorem State.loadJob_keeps (s : State) (j : Job) (siding : Nat) : Keeps [.free, .regs, .mem, .ecc, .vio, .out, .host, .boot, .test, .cores, .sched, .units] s (State.loadJob s j siding) := by
  unfold State.loadJob
  try dsimp only
  repeat' (first
    | with_reducible exact Keeps.refl _ _
    | with_reducible assumption
    | with_reducible apply Keeps.ite
    | ((with_reducible apply Keeps.after (State.dequeue_keeps ..)); decide)
    | ((with_reducible apply Keeps.after (State.setSiding_keeps ..)); decide)
    | ((with_reducible apply Keeps.after (State.setJob_keeps ..)); decide)
    | ((with_reducible apply Keeps.after (State.showQueued_keeps ..)); decide)
    | ((with_reducible apply Keeps.after (State.judge_keeps ..)); decide)
    | ((with_reducible apply Keeps.after (State.report_keeps ..)); decide)
    | ((with_reducible apply Keeps.after (State.mapJob_keeps ..)); decide)
    | ((with_reducible apply Keeps.after (State.endJob_keeps ..)); decide)
    | split)

theorem State.restoreJob_keeps (s : State) (j : Job) (siding : Nat) : Keeps [.free, .regs, .mem, .ecc, .vio, .out, .host, .boot, .test, .sched, .units] s (State.restoreJob s j siding) := by
  unfold State.restoreJob
  try dsimp only
  repeat' (first
    | with_reducible exact Keeps.refl _ _
    | with_reducible assumption
    | with_reducible apply Keeps.ite
    | ((with_reducible apply Keeps.after (State.dequeue_keeps ..)); decide)
    | ((with_reducible apply Keeps.after (State.setJob_keeps ..)); decide)
    | ((with_reducible apply Keeps.after (State.restoreReads_keeps ..)); decide)
    | ((with_reducible apply Keeps.after (State.showQueued_keeps ..)); decide)
    | ((with_reducible apply Keeps.after (State.log_keeps ..)); decide)
    | ((with_reducible apply Keeps.after (State.closeCharge_keeps ..)); decide)
    | ((with_reducible apply Keeps.after (State.traceJob_keeps ..)); decide)
    | ((with_reducible apply Keeps.after (State.setQueue_keeps ..)); decide)
    | ((with_reducible apply Keeps.after (State.postJob_keeps ..)); decide)
    | ((with_reducible apply Keeps.of_eq); assumption)
    | ((with_reducible apply Keeps.of_eq3); assumption)
    | split)

theorem execJobBoundary_keeps (s : State) :
    ∃ nx, execJobBoundary s = .next nx ∧ Keeps [.free, .regs, .mem, .ecc, .vio, .out, .host, .boot, .test, .cores, .sched, .units] s nx := by
  refine ⟨_, rfl, ?_⟩
  try dsimp only
  repeat' (first
    | with_reducible exact Keeps.refl _ _
    | with_reducible assumption
    | with_reducible apply Keeps.ite
    | ((with_reducible apply Keeps.after (State.applyChanges_keeps ..)); decide)
    | ((with_reducible apply Keeps.after (State.restoreJob_keeps ..)); decide)
    | ((with_reducible apply Keeps.after (State.loadJob_keeps ..)); decide)
    | ((with_reducible apply Keeps.of_eq); assumption)
    | ((with_reducible apply Keeps.of_eq3); assumption)
    | split)

theorem execStagedChangesApplyIdle_keeps (s : State) :
    ∃ nx, execStagedChangesApplyIdle s = .next nx ∧ Keeps [.free, .regs, .mem, .ecc, .vio, .out, .host, .boot, .test, .sched, .units] s nx := by
  refine ⟨_, rfl, ?_⟩
  try dsimp only
  repeat' (first
    | with_reducible exact Keeps.refl _ _
    | with_reducible assumption
    | with_reducible apply Keeps.ite
    | ((with_reducible apply Keeps.after (State.applyChanges_keeps ..)); decide)
    | split)

theorem State.startStream_keeps (s : State) (g : JobImg) (n : Nat) (e : StreamEntry) : Keeps [.regs, .mem, .cores] s (State.startStream s g n e) := by
  unfold State.startStream
  try dsimp only
  repeat' (first
    | with_reducible exact Keeps.refl _ _
    | with_reducible assumption
    | ((with_reducible apply Keeps.after (State.copyBytes_keeps ..)); decide)
    | ((with_reducible apply Keeps.after (State.setCore_keeps ..)); decide)
    | ((with_reducible apply Keeps.after (State.setFld_keeps ..)); decide)
    | with_reducible refine Keeps.foldl (fun _ _ _ => ?_) ?_
    | split)

theorem State.startTiles_keeps (s : State) (j : Job) (p : Program) : Keeps [.regs, .mem, .ecc, .cores] s (State.startTiles s j p) := by
  unfold State.startTiles
  try dsimp only
  repeat' (first
    | with_reducible exact Keeps.refl _ _
    | with_reducible assumption
    | with_reducible apply Keeps.ite
    | ((with_reducible apply Keeps.after (State.clearCores_keeps ..)); decide)
    | ((with_reducible apply Keeps.after (State.wipe_keeps ..)); decide)
    | ((with_reducible apply Keeps.after (State.startStream_keeps ..)); decide)
    | ((with_reducible apply Keeps.after (State.setCtx_keeps ..)); decide)
    | ((with_reducible apply Keeps.after (State.setFld_keeps ..)); decide)
    | ((with_reducible apply Keeps.after (State.multicast_keeps ..)); decide)
    | with_reducible refine Keeps.foldl_snd (fun _ _ _ => ?_) ?_
    | with_reducible refine Keeps.foldl (fun _ _ _ => ?_) ?_
    | split)

theorem State.enterRunning_keeps (s : State) : Keeps [.regs, .test, .cores, .sched] s (State.enterRunning s) := by
  unfold State.enterRunning
  try dsimp only
  repeat' (first
    | with_reducible exact Keeps.refl _ _
    | with_reducible assumption
    | with_reducible apply Keeps.ite
    | ((with_reducible apply Keeps.after (State.mapJob_keeps ..)); decide)
    | ((with_reducible apply Keeps.after (State.requestPreempt_keeps ..)); decide)
    | split)

theorem execJobTilesStart_keeps (s : State) :
    ∃ nx, execJobTilesStart s = .next nx ∧ Keeps [.regs, .mem, .ecc, .test, .cores, .sched] s nx := by
  refine ⟨_, rfl, ?_⟩
  try dsimp only
  repeat' (first
    | with_reducible exact Keeps.refl _ _
    | with_reducible assumption
    | with_reducible apply Keeps.ite
    | ((with_reducible apply Keeps.after (State.startTiles_keeps ..)); decide)
    | ((with_reducible apply Keeps.after (State.enterRunning_keeps ..)); decide)
    | ((with_reducible apply Keeps.of_eq); assumption)
    | ((with_reducible apply Keeps.of_eq3); assumption)
    | split)

theorem execRestoreComplete_keeps (s : State) :
    ∃ nx, execRestoreComplete s = .next nx ∧ Keeps [.free, .regs, .mem, .ecc, .vio, .out, .host, .boot, .test, .cores, .sched, .units] s nx := by
  refine ⟨_, rfl, ?_⟩
  try dsimp only
  repeat' (first
    | with_reducible exact Keeps.refl _ _
    | with_reducible assumption
    | with_reducible apply Keeps.ite
    | ((with_reducible apply Keeps.after (State.mapJob_keeps ..)); decide)
    | ((with_reducible apply Keeps.after (State.restoreSame_keeps ..)); decide)
    | ((with_reducible apply Keeps.after (State.restoreMoved_keeps ..)); decide)
    | ((with_reducible apply Keeps.after (State.setSiding_keeps ..)); decide)
    | ((with_reducible apply Keeps.after (State.enterRunning_keeps ..)); decide)
    | ((with_reducible apply Keeps.of_eq); assumption)
    | ((with_reducible apply Keeps.of_eq3); assumption)
    | split)

theorem execJobComplete_keeps (s : State) :
    ∃ nx, execJobComplete s = .next nx ∧ Keeps [.free, .regs, .mem, .ecc, .vio, .out, .host, .boot, .test, .cores, .sched, .units] s nx := by
  refine ⟨_, rfl, ?_⟩
  try dsimp only
  repeat' (first
    | with_reducible exact Keeps.refl _ _
    | with_reducible assumption
    | with_reducible apply Keeps.ite
    | ((with_reducible apply Keeps.after (State.endJob_keeps ..)); decide)
    | ((with_reducible apply Keeps.of_eq); assumption)
    | ((with_reducible apply Keeps.of_eq3); assumption)
    | split)

theorem execSlotBoundary_keeps (s : State) :
    ∃ nx, execSlotBoundary s = .next nx ∧ Keeps [.regs, .test, .cores, .sched] s nx := by
  refine ⟨_, rfl, ?_⟩
  try dsimp only
  repeat' (first
    | with_reducible exact Keeps.refl _ _
    | with_reducible assumption
    | with_reducible apply Keeps.ite
    | ((with_reducible apply Keeps.after (State.withSched_keeps ..)); decide)
    | ((with_reducible apply Keeps.after (State.setFld_keeps ..)); decide)
    | ((with_reducible apply Keeps.after (State.requestPreempt_keeps ..)); decide)
    | ((with_reducible apply Keeps.of_eq); assumption)
    | ((with_reducible apply Keeps.of_eq3); assumption)
    | split)

theorem execQuantumExpiry_keeps (s : State) :
    ∃ nx, execQuantumExpiry s = .next nx ∧ Keeps [.regs, .test, .cores, .sched] s nx := by
  refine ⟨_, rfl, ?_⟩
  try dsimp only
  repeat' (first
    | with_reducible exact Keeps.refl _ _
    | with_reducible assumption
    | with_reducible apply Keeps.ite
    | ((with_reducible apply Keeps.after (State.requestPreempt_keeps ..)); decide)
    | ((with_reducible apply Keeps.of_eq); assumption)
    | ((with_reducible apply Keeps.of_eq3); assumption)
    | split)

theorem ttCtrlWrite_keeps (v : Word) (s : State) : Keeps [.regs, .test, .cores, .sched] s (ttCtrlWrite v s).2 := by
  unfold ttCtrlWrite
  try dsimp only
  repeat' (first
    | with_reducible exact Keeps.refl _ _
    | with_reducible assumption
    | with_reducible apply Keeps.ite
    | ((with_reducible apply Keeps.after (State.setFld_keeps ..)); decide)
    | ((with_reducible apply Keeps.after (State.withSched_keeps ..)); decide)
    | ((with_reducible apply Keeps.after (State.showPreempt_keeps ..)); decide)
    | ((with_reducible apply Keeps.after (State.requestPreempt_keeps ..)); decide)
    | with_reducible apply Keeps.ite_snd
    | split)

theorem execPreempt_keeps (q : Fin 4) (s : State) :
    ∃ nx, execPreempt q s = .next nx ∧ Keeps [.regs, .vio, .out, .host, .test, .cores, .sched] s nx := by
  refine ⟨_, rfl, ?_⟩
  try dsimp only
  repeat' (first
    | with_reducible exact Keeps.refl _ _
    | with_reducible assumption
    | with_reducible apply Eff.keeps_done
    | with_reducible apply Eff.keeps_fault
    | with_reducible apply Eff.keeps_wait
    | with_reducible apply Eff.keeps_hold
    | with_reducible apply Eff.keeps_ite
    | with_reducible apply Eff.keeps_ite_fst
    | ((with_reducible apply State.regWrite_keeps); decide)
    | ((with_reducible apply Keeps.after (ttCtrlWrite_keeps ..)); decide)
    | intro _
    | split)

theorem execPreemptHalted_keeps (s : State) :
    ∃ nx, execPreemptHalted s = .next nx ∧ Keeps [.regs, .test, .sched] s nx := by
  refine ⟨_, rfl, ?_⟩
  try dsimp only
  repeat' (first
    | with_reducible exact Keeps.refl _ _
    | with_reducible assumption
    | with_reducible apply Keeps.ite
    | ((with_reducible apply Keeps.after (State.setJob_keeps ..)); decide)
    | ((with_reducible apply Keeps.of_eq); assumption)
    | ((with_reducible apply Keeps.of_eq3); assumption)
    | split)

theorem execPreemptDrained_keeps (s : State) :
    ∃ nx, execPreemptDrained s = .next nx ∧ Keeps [.free, .regs, .mem, .ecc, .vio, .out, .host, .boot, .test, .cores, .sched, .units] s nx := by
  refine ⟨_, rfl, ?_⟩
  try dsimp only
  repeat' (first
    | with_reducible exact Keeps.refl _ _
    | with_reducible assumption
    | with_reducible apply Keeps.ite
    | ((with_reducible apply Keeps.after (State.setJob_keeps ..)); decide)
    | ((with_reducible apply Keeps.after (State.setFld_keeps ..)); decide)
    | ((with_reducible apply Keeps.after (State.readCheck_keeps ..)); decide)
    | ((with_reducible apply Keeps.after (State.endJob_keeps ..)); decide)
    | ((with_reducible apply Keeps.after (State.writeCheck_keeps ..)); decide)
    | ((with_reducible apply Keeps.after (State.saveSections_keeps ..)); decide)
    | with_reducible refine Keeps.foldl_snd (fun _ _ _ => ?_) ?_
    | ((with_reducible apply Keeps.of_eq); assumption)
    | ((with_reducible apply Keeps.of_eq3); assumption)
    | with_reducible refine Keeps.foldl (fun _ _ _ => ?_) ?_
    | split)

theorem execPreemptSaved_keeps (s : State) :
    ∃ nx, execPreemptSaved s = .next nx ∧ Keeps [.free, .regs, .mem, .ecc, .vio, .out, .host, .boot, .test, .cores, .sched, .units] s nx := by
  refine ⟨_, rfl, ?_⟩
  try dsimp only
  repeat' (first
    | with_reducible exact Keeps.refl _ _
    | with_reducible assumption
    | with_reducible apply Keeps.ite
    | ((with_reducible apply Keeps.after (State.putBytes_keeps ..)); decide)
    | ((with_reducible apply Keeps.after (State.closeCharge_keeps ..)); decide)
    | ((with_reducible apply Keeps.after (State.withSched_keeps ..)); decide)
    | ((with_reducible apply Keeps.after (State.setSiding_keeps ..)); decide)
    | ((with_reducible apply Keeps.after (State.setFld_keeps ..)); decide)
    | ((with_reducible apply Keeps.after (State.freeCores_keeps ..)); decide)
    | ((with_reducible apply Keeps.after (State.traceJob_keeps ..)); decide)
    | ((with_reducible apply Keeps.after (State.setQueue_keeps ..)); decide)
    | ((with_reducible apply Keeps.after (State.postJob_keeps ..)); decide)
    | ((with_reducible apply Keeps.of_eq); assumption)
    | ((with_reducible apply Keeps.of_eq3); assumption)
    | split)

theorem execPreemptTimeout_keeps (s : State) :
    ∃ nx, execPreemptTimeout s = .next nx ∧ Keeps [.free, .regs, .mem, .ecc, .vio, .out, .host, .boot, .test, .cores, .sched, .units] s nx := by
  refine ⟨_, rfl, ?_⟩
  try dsimp only
  repeat' (first
    | with_reducible exact Keeps.refl _ _
    | with_reducible assumption
    | with_reducible apply Keeps.ite
    | ((with_reducible apply Keeps.after (State.endJob_keeps ..)); decide)
    | ((with_reducible apply Keeps.of_eq); assumption)
    | ((with_reducible apply Keeps.of_eq3); assumption)
    | split)

theorem ttLoadWrite_keeps (v : Word) (s : State) : Keeps [.regs, .sched] s (ttLoadWrite v s).2 := by
  unfold ttLoadWrite
  try dsimp only
  repeat' (first
    | with_reducible exact Keeps.refl _ _
    | with_reducible assumption
    | with_reducible apply Keeps.ite
    | ((with_reducible apply Keeps.after (State.withSched_keeps ..)); decide)
    | ((with_reducible apply Keeps.after (State.setFld_keeps ..)); decide)
    | with_reducible apply Keeps.ite_snd
    | split)

theorem execTtLoad_keeps (q : Fin 4) (v : Word) (s : State) :
    ∃ nx, execTtLoad q v s = .next nx ∧ Keeps [.regs, .vio, .out, .host, .test, .sched] s nx := by
  refine ⟨_, rfl, ?_⟩
  try dsimp only
  repeat' (first
    | with_reducible exact Keeps.refl _ _
    | with_reducible assumption
    | with_reducible apply Eff.keeps_done
    | with_reducible apply Eff.keeps_fault
    | with_reducible apply Eff.keeps_wait
    | with_reducible apply Eff.keeps_hold
    | with_reducible apply Eff.keeps_ite
    | with_reducible apply Eff.keeps_ite_fst
    | ((with_reducible apply State.regWrite_keeps); decide)
    | ((with_reducible apply Keeps.after (ttLoadWrite_keeps ..)); decide)
    | intro _
    | split)

theorem execTtLoadDone_keeps (s : State) :
    ∃ nx, execTtLoadDone s = .next nx ∧ Keeps [.free, .regs, .mem, .ecc, .vio, .out, .host, .boot, .test, .sched, .units] s nx := by
  refine ⟨_, rfl, ?_⟩
  try dsimp only
  repeat' (first
    | with_reducible exact Keeps.refl _ _
    | with_reducible assumption
    | with_reducible apply Keeps.ite
    | ((with_reducible apply Keeps.after (State.readCheck_keeps ..)); decide)
    | ((with_reducible apply Keeps.after (State.withSched_keeps ..)); decide)
    | ((with_reducible apply Keeps.after (State.setFld_keeps ..)); decide)
    | ((with_reducible apply Keeps.of_eq); assumption)
    | ((with_reducible apply Keeps.of_eq3); assumption)
    | split)

theorem execTtSwapRequest_keeps (q : Fin 4) (s : State) :
    ∃ nx, execTtSwapRequest q s = .next nx ∧ Keeps [.regs, .vio, .out, .host, .test, .cores, .sched] s nx := by
  refine ⟨_, rfl, ?_⟩
  try dsimp only
  repeat' (first
    | with_reducible exact Keeps.refl _ _
    | with_reducible assumption
    | with_reducible apply Eff.keeps_done
    | with_reducible apply Eff.keeps_fault
    | with_reducible apply Eff.keeps_wait
    | with_reducible apply Eff.keeps_hold
    | with_reducible apply Eff.keeps_ite
    | with_reducible apply Eff.keeps_ite_fst
    | ((with_reducible apply State.regWrite_keeps); decide)
    | ((with_reducible apply Keeps.after (ttCtrlWrite_keeps ..)); decide)
    | intro _
    | split)

theorem execTtStagedDiscard_keeps (q : Fin 4) (s : State) :
    ∃ nx, execTtStagedDiscard q s = .next nx ∧ Keeps [.regs, .vio, .out, .host, .test, .cores, .sched] s nx := by
  refine ⟨_, rfl, ?_⟩
  try dsimp only
  repeat' (first
    | with_reducible exact Keeps.refl _ _
    | with_reducible assumption
    | with_reducible apply Eff.keeps_done
    | with_reducible apply Eff.keeps_fault
    | with_reducible apply Eff.keeps_wait
    | with_reducible apply Eff.keeps_hold
    | with_reducible apply Eff.keeps_ite
    | with_reducible apply Eff.keeps_ite_fst
    | ((with_reducible apply State.regWrite_keeps); decide)
    | ((with_reducible apply Keeps.after (ttCtrlWrite_keeps ..)); decide)
    | intro _
    | split)

theorem ttLimitsWrite_keeps (v : Word) (s : State) : Keeps [.regs] s (ttLimitsWrite v s).2 := by
  unfold ttLimitsWrite
  try dsimp only
  repeat' (first
    | with_reducible exact Keeps.refl _ _
    | with_reducible assumption
    | with_reducible apply Keeps.ite
    | ((with_reducible apply Keeps.after (State.setFld_keeps ..)); decide)
    | with_reducible apply Keeps.ite_snd
    | split)

theorem execTtLimitsWrite_keeps (q : Fin 4) (v : Word) (s : State) :
    ∃ nx, execTtLimitsWrite q v s = .next nx ∧ Keeps [.regs, .vio, .out, .host, .test] s nx := by
  refine ⟨_, rfl, ?_⟩
  try dsimp only
  repeat' (first
    | with_reducible exact Keeps.refl _ _
    | with_reducible assumption
    | with_reducible apply Eff.keeps_done
    | with_reducible apply Eff.keeps_fault
    | with_reducible apply Eff.keeps_wait
    | with_reducible apply Eff.keeps_hold
    | with_reducible apply Eff.keeps_ite
    | with_reducible apply Eff.keeps_ite_fst
    | ((with_reducible apply State.regWrite_keeps); decide)
    | ((with_reducible apply Keeps.after (ttLimitsWrite_keeps ..)); decide)
    | intro _
    | split)

theorem State.detach_keeps (s : State) (n : Nat) : Keeps [.regs, .sched] s (State.detach s n).2 := by
  unfold State.detach
  try dsimp only
  repeat' (first
    | with_reducible exact Keeps.refl _ _
    | with_reducible assumption
    | with_reducible apply Keeps.ite
    | ((with_reducible apply Keeps.after (State.setFld_keeps ..)); decide)
    | ((with_reducible apply Keeps.after (State.setQueue_keeps ..)); decide)
    | with_reducible apply Keeps.ite_snd
    | split)

theorem State.releaseCmd_keeps (s : State) (n : Nat) : Keeps [.regs, .test, .cores, .sched] s (State.releaseCmd s n).2 := by
  unfold State.releaseCmd
  try dsimp only
  repeat' (first
    | with_reducible exact Keeps.refl _ _
    | with_reducible assumption
    | with_reducible apply Keeps.ite
    | ((with_reducible apply Keeps.after (State.setSiding_keeps ..)); decide)
    | ((with_reducible apply Keeps.after (State.rtArrives_keeps ..)); decide)
    | with_reducible apply Keeps.ite_snd
    | split)

theorem State.attach_keeps (s : State) (n : Nat) (rec' : SidingRec) : Keeps [.free, .regs, .mem, .ecc, .vio, .out, .host, .boot, .test, .cores, .sched, .units] s (State.attach s n rec').2 := by
  unfold State.attach
  try dsimp only
  repeat' (first
    | with_reducible exact Keeps.refl _ _
    | with_reducible assumption
    | with_reducible apply Keeps.ite
    | ((with_reducible apply Keeps.after (State.readCheck_keeps ..)); decide)
    | ((with_reducible apply Keeps.after (State.setSiding_keeps ..)); decide)
    | ((with_reducible apply Keeps.after (State.traceJob_keeps ..)); decide)
    | ((with_reducible apply Keeps.after (State.setQueue_keeps ..)); decide)
    | ((with_reducible apply Keeps.after (State.rtArrives_keeps ..)); decide)
    | with_reducible apply Keeps.ite_snd
    | split)

theorem ttSidingCmdWrite_keeps (v : Word) (s : State) : Keeps [.free, .regs, .mem, .ecc, .vio, .out, .host, .boot, .test, .cores, .sched, .units] s (ttSidingCmdWrite v s).2 := by
  unfold ttSidingCmdWrite
  try dsimp only
  repeat' (first
    | with_reducible exact Keeps.refl _ _
    | with_reducible assumption
    | ((with_reducible apply Keeps.after (State.detach_keeps ..)); decide)
    | ((with_reducible apply Keeps.after (State.releaseCmd_keeps ..)); decide)
    | ((with_reducible apply Keeps.after (State.attach_keeps ..)); decide)
    | ((with_reducible apply Keeps.of_eq); assumption)
    | ((with_reducible apply Keeps.of_eq3); assumption)
    | split)

theorem execSidingDetach_keeps (q : Fin 4) (n : Fin 16) (s : State) :
    ∃ nx, execSidingDetach q n s = .next nx ∧ Keeps [.free, .regs, .mem, .ecc, .vio, .out, .host, .boot, .test, .cores, .sched, .units] s nx := by
  refine ⟨_, rfl, ?_⟩
  try dsimp only
  repeat' (first
    | with_reducible exact Keeps.refl _ _
    | with_reducible assumption
    | with_reducible apply Eff.keeps_done
    | with_reducible apply Eff.keeps_fault
    | with_reducible apply Eff.keeps_wait
    | with_reducible apply Eff.keeps_hold
    | with_reducible apply Eff.keeps_ite
    | with_reducible apply Eff.keeps_ite_fst
    | ((with_reducible apply State.regWrite_keeps); decide)
    | ((with_reducible apply Keeps.after (ttSidingCmdWrite_keeps ..)); decide)
    | intro _
    | split)

theorem execSidingRelease_keeps (q : Fin 4) (n : Fin 16) (s : State) :
    ∃ nx, execSidingRelease q n s = .next nx ∧ Keeps [.free, .regs, .mem, .ecc, .vio, .out, .host, .boot, .test, .cores, .sched, .units] s nx := by
  refine ⟨_, rfl, ?_⟩
  try dsimp only
  repeat' (first
    | with_reducible exact Keeps.refl _ _
    | with_reducible assumption
    | with_reducible apply Eff.keeps_done
    | with_reducible apply Eff.keeps_fault
    | with_reducible apply Eff.keeps_wait
    | with_reducible apply Eff.keeps_hold
    | with_reducible apply Eff.keeps_ite
    | with_reducible apply Eff.keeps_ite_fst
    | ((with_reducible apply State.regWrite_keeps); decide)
    | ((with_reducible apply Keeps.after (ttSidingCmdWrite_keeps ..)); decide)
    | intro _
    | split)

theorem execSidingAttach_keeps (q : Fin 4) (n : Fin 16) (s : State) :
    ∃ nx, execSidingAttach q n s = .next nx ∧ Keeps [.free, .regs, .mem, .ecc, .vio, .out, .host, .boot, .test, .cores, .sched, .units] s nx := by
  refine ⟨_, rfl, ?_⟩
  try dsimp only
  repeat' (first
    | with_reducible exact Keeps.refl _ _
    | with_reducible assumption
    | with_reducible apply Eff.keeps_done
    | with_reducible apply Eff.keeps_fault
    | with_reducible apply Eff.keeps_wait
    | with_reducible apply Eff.keeps_hold
    | with_reducible apply Eff.keeps_ite
    | with_reducible apply Eff.keeps_ite_fst
    | ((with_reducible apply State.regWrite_keeps); decide)
    | ((with_reducible apply Keeps.after (ttSidingCmdWrite_keeps ..)); decide)
    | intro _
    | split)

end Sys2Proof.Machine
end

