-- ==== Sys2Proof/Laws/KeepsFabric.lean ====
section
/-! SUPPORT. What the operations of Machine/Fabric.lean may change: one law each. -/

namespace Sys2Proof.Machine

theorem State.tracePort_keeps (s : State) (p st : Nat) (reason : Status) : Keeps [.regs, .test] s (State.tracePort s p st reason) := by
  unfold State.tracePort
  try dsimp only
  repeat' (first
    | with_reducible exact Keeps.refl _ _
    | with_reducible assumption
    | ((with_reducible apply Keeps.after (State.trace_keeps ..)); decide)
    | split)

theorem State.setPortState_keeps (s : State) (p st : Nat) (reason : Status) (cause : Nat) : Keeps [.regs, .test] s (State.setPortState s p st reason cause) := by
  unfold State.setPortState
  try dsimp only
  repeat' (first
    | with_reducible exact Keeps.refl _ _
    | with_reducible assumption
    | with_reducible apply Keeps.ite
    | ((with_reducible apply Keeps.after (State.setFld_keeps ..)); decide)
    | ((with_reducible apply Keeps.after (State.tracePort_keeps ..)); decide)
    | split)

theorem State.showFabric_keeps (s : State) : Keeps [.regs, .units] s (State.showFabric s) := by
  unfold State.showFabric
  try dsimp only
  repeat' (first
    | with_reducible exact Keeps.refl _ _
    | with_reducible assumption
    | with_reducible apply Keeps.ite
    | ((with_reducible apply Keeps.after (State.setFld_keeps ..)); decide)
    | ((with_reducible apply Keeps.after (State.setReady_keeps ..)); decide)
    | ((with_reducible apply Keeps.after (State.setFab_keeps ..)); decide)
    | ((with_reducible apply Keeps.after (State.clearReady_keeps ..)); decide)
    | split)

theorem State.portsChanged_keeps (s : State) (g : Nat) : Keeps [.regs, .units] s (State.portsChanged s g) := by
  unfold State.portsChanged
  try dsimp only
  repeat' (first
    | with_reducible exact Keeps.refl _ _
    | with_reducible assumption
    | with_reducible apply Keeps.ite
    | ((with_reducible apply Keeps.after (State.setFab_keeps ..)); decide)
    | ((with_reducible apply Keeps.after (State.setFld_keeps ..)); decide)
    | split)

theorem State.leftAccepted_keeps (s : State) (p : Nat) : Keeps [.regs, .units] s (State.leftAccepted s p) := by
  unfold State.leftAccepted
  try dsimp only
  repeat' (first
    | with_reducible exact Keeps.refl _ _
    | with_reducible assumption
    | ((with_reducible apply Keeps.after (State.portsChanged_keeps ..)); decide)
    | ((with_reducible apply Keeps.after (State.bump_keeps ..)); decide)
    | split)

theorem State.dropPort_keeps (s : State) (p : Nat) : Keeps [.units] s (State.dropPort s p) := by
  unfold State.dropPort
  try dsimp only
  repeat' (first
    | with_reducible exact Keeps.refl _ _
    | with_reducible assumption
    | ((with_reducible apply Keeps.after (State.oweFor_keeps ..)); decide)
    | ((with_reducible apply Keeps.after (State.setPort_keeps ..)); decide)
    | with_reducible refine Keeps.foldl (fun _ _ _ => ?_) ?_
    | split)

theorem State.leaveService_keeps (s : State) (p st : Nat) (reason : Status) (cause : Nat) : Keeps [.regs, .test, .units] s (State.leaveService s p st reason cause) := by
  unfold State.leaveService
  try dsimp only
  repeat' (first
    | with_reducible exact Keeps.refl _ _
    | with_reducible assumption
    | with_reducible apply Keeps.ite
    | ((with_reducible apply Keeps.after (State.leftAccepted_keeps ..)); decide)
    | ((with_reducible apply Keeps.after (State.dropPort_keeps ..)); decide)
    | ((with_reducible apply Keeps.after (State.setFld_keeps ..)); decide)
    | ((with_reducible apply Keeps.after (State.setPortState_keeps ..)); decide)
    | ((with_reducible apply Keeps.after (State.showFabric_keeps ..)); decide)
    | ((with_reducible apply Keeps.after (State.setPort_keeps ..)); decide)
    | split)

theorem State.beginAttempt_keeps (s : State) (p : Nat) : Keeps [.regs, .test, .units] s (State.beginAttempt s p) := by
  unfold State.beginAttempt
  try dsimp only
  repeat' (first
    | with_reducible exact Keeps.refl _ _
    | with_reducible assumption
    | with_reducible apply Keeps.ite
    | ((with_reducible apply Keeps.after (State.leftAccepted_keeps ..)); decide)
    | ((with_reducible apply Keeps.after (State.tracePort_keeps ..)); decide)
    | ((with_reducible apply Keeps.after (State.dropPort_keeps ..)); decide)
    | ((with_reducible apply Keeps.after (State.bumpStop_keeps ..)); decide)
    | ((with_reducible apply Keeps.after (State.setFld_keeps ..)); decide)
    | ((with_reducible apply Keeps.after (State.showFabric_keeps ..)); decide)
    | split)

theorem State.showPeer_keeps (s : State) (p : Nat) (i : Ident) : Keeps [.regs] s (State.showPeer s p i) := by
  unfold State.showPeer
  try dsimp only
  repeat' (first
    | with_reducible exact Keeps.refl _ _
    | with_reducible assumption
    | ((with_reducible apply Keeps.after (State.setFld_keeps ..)); decide)
    | split)

theorem State.attemptFails_keeps (s : State) (p : Nat) : Keeps [.regs, .test, .units] s (State.attemptFails s p) := by
  unfold State.attemptFails
  try dsimp only
  repeat' (first
    | with_reducible exact Keeps.refl _ _
    | with_reducible assumption
    | ((with_reducible apply Keeps.after (State.setPort_keeps ..)); decide)
    | ((with_reducible apply Keeps.after (State.setPortState_keeps ..)); decide)
    | ((with_reducible apply Keeps.after (State.showFabric_keeps ..)); decide)
    | split)

theorem State.acceptPort_keeps (s : State) (p : Nat) : Keeps [.regs, .test, .units] s (State.acceptPort s p) := by
  unfold State.acceptPort
  try dsimp only
  repeat' (first
    | with_reducible exact Keeps.refl _ _
    | with_reducible assumption
    | ((with_reducible apply Keeps.after (State.portsChanged_keeps ..)); decide)
    | ((with_reducible apply Keeps.after (State.setPortState_keeps ..)); decide)
    | ((with_reducible apply Keeps.after (State.showFabric_keeps ..)); decide)
    | split)

theorem State.attempting_keeps {s s1 : State} {p : Nat} (h : s.attempting p = some s1) : Keeps [.regs, .test, .units] s s1 := by
  unfold State.attempting at h
  split at h
  · cases h
  · split at h
    · cases h; exact Keeps.refl _ _
    · split at h
      · cases h; exact Keeps.after (State.beginAttempt_keeps ..) (by decide) (Keeps.refl _ _)
      · cases h

theorem State.takeWidth_keeps (s : State) (p : Nat) (o : TrainObs) (set w : Nat) : Keeps [.regs, .units] s (State.takeWidth s p o set w) := by
  unfold State.takeWidth
  try dsimp only
  repeat' (first
    | with_reducible exact Keeps.refl _ _
    | with_reducible assumption
    | ((with_reducible apply Keeps.after (State.setFld_keeps ..)); decide)
    | ((with_reducible apply Keeps.after (State.setPort_keeps ..)); decide)
    | split)

theorem State.endAttempt_keeps (s : State) (p w : Nat) (record : List Byte) (i : Ident) : Keeps [.regs, .test, .units] s (State.endAttempt s p w record i) := by
  unfold State.endAttempt
  try dsimp only
  repeat' (first
    | with_reducible exact Keeps.refl _ _
    | with_reducible assumption
    | with_reducible apply Keeps.ite
    | ((with_reducible apply Keeps.after (State.showPeer_keeps ..)); decide)
    | ((with_reducible apply Keeps.after (State.setPort_keeps ..)); decide)
    | ((with_reducible apply Keeps.after (State.setPortState_keeps ..)); decide)
    | ((with_reducible apply Keeps.after (State.showFabric_keeps ..)); decide)
    | ((with_reducible apply Keeps.after (State.acceptPort_keeps ..)); decide)
    | ((with_reducible apply Keeps.of_eq); assumption)
    | ((with_reducible apply Keeps.of_eq3); assumption)
    | split)

theorem execPortTrainingAttempt_keeps (p : Fin 36) (o : TrainObs) (s : State) :
    ∃ nx, execPortTrainingAttempt p o s = .next nx ∧ Keeps [.regs, .out, .test, .units] s nx := by
  refine ⟨_, rfl, ?_⟩
  split
  · exact Keeps.refl _ _
  · next s1 h =>
    have h1 : Keeps [.regs, .out, .test, .units] s s1 := Keeps.after (State.attempting_keeps h) (by decide) (Keeps.refl _ _)
    clear h
    dsimp only
    repeat' (first
      | with_reducible assumption
      | with_reducible apply Keeps.ite
      | ((with_reducible apply Keeps.after (State.emit_keeps ..)); decide)
      | ((with_reducible apply Keeps.after (State.takeWidth_keeps ..)); decide)
      | ((with_reducible apply Keeps.after (State.endAttempt_keeps ..)); decide)
      | ((with_reducible apply Keeps.after (State.attemptFails_keeps ..)); decide)
      | split)

theorem execTrainingStepTimeout_keeps (p : Fin 36) (s : State) :
    ∃ nx, execTrainingStepTimeout p s = .next nx ∧ Keeps [.regs, .test, .units] s nx := by
  refine ⟨_, rfl, ?_⟩
  split
  · exact Keeps.refl _ _
  · exact Keeps.after (State.attemptFails_keeps ..) (by decide) (Keeps.after (State.attempting_keeps ‹_›) (by decide) (Keeps.refl _ _))

theorem execRetrainInterval_keeps (p : Fin 36) (s : State) :
    ∃ nx, execRetrainInterval p s = .next nx ∧ Keeps [.regs, .test, .units] s nx := by
  refine ⟨_, rfl, ?_⟩
  try dsimp only
  repeat' (first
    | with_reducible exact Keeps.refl _ _
    | with_reducible assumption
    | with_reducible apply Keeps.ite
    | ((with_reducible apply Keeps.after (State.beginAttempt_keeps ..)); decide)
    | split)

theorem execIdentRecordReceived_keeps (p : Fin 36) (body : List Byte) (crc : BitVec 32) (s : State) :
    ∃ nx, execIdentRecordReceived p body crc s = .next nx ∧ Keeps [.regs, .test, .units] s nx := by
  refine ⟨_, rfl, ?_⟩
  try dsimp only
  repeat' (first
    | with_reducible exact Keeps.refl _ _
    | with_reducible assumption
    | with_reducible apply Keeps.ite
    | ((with_reducible apply Keeps.after (State.showPeer_keeps ..)); decide)
    | ((with_reducible apply Keeps.after (State.leaveService_keeps ..)); decide)
    | ((with_reducible apply Keeps.of_eq); assumption)
    | ((with_reducible apply Keeps.of_eq3); assumption)
    | split)

theorem execIdentTimeout_keeps (p : Fin 36) (s : State) :
    ∃ nx, execIdentTimeout p s = .next nx ∧ Keeps [.regs, .test, .units] s nx := by
  refine ⟨_, rfl, ?_⟩
  try dsimp only
  repeat' (first
    | with_reducible exact Keeps.refl _ _
    | with_reducible assumption
    | with_reducible apply Keeps.ite
    | ((with_reducible apply Keeps.after (State.leaveService_keeps ..)); decide)
    | split)

theorem State.endDrain_keeps (s : State) (p : Nat) : Keeps [.regs, .test, .units] s (State.endDrain s p) := by
  unfold State.endDrain
  try dsimp only
  repeat' (first
    | with_reducible exact Keeps.refl _ _
    | with_reducible assumption
    | with_reducible apply Keeps.ite
    | ((with_reducible apply Keeps.after (State.leaveService_keeps ..)); decide)
    | ((with_reducible apply Keeps.after (State.beginAttempt_keeps ..)); decide)
    | split)

theorem State.countCodeword_keeps (s : State) (p : Nat) (good corrected : Bool) : Keeps [.regs] s (State.countCodeword s p good corrected) := by
  unfold State.countCodeword
  try dsimp only
  repeat' (first
    | with_reducible exact Keeps.refl _ _
    | with_reducible assumption
    | with_reducible apply Keeps.ite
    | ((with_reducible apply Keeps.after (State.bump_keeps ..)); decide)
    | split)

theorem State.nakFlit_keeps (s : State) (p : Nat) : Keeps [.out, .units] s (State.nakFlit s p) := by
  unfold State.nakFlit
  try dsimp only
  repeat' (first
    | with_reducible exact Keeps.refl _ _
    | with_reducible assumption
    | ((with_reducible apply Keeps.after (State.setPort_keeps ..)); decide)
    | ((with_reducible apply Keeps.after (State.sendControl_keeps ..)); decide)
    | split)

theorem execDataFlitReceived_keeps (p : Fin 36) (seq : Fin 4096) (good corrected : Bool) (s : State) :
    ∃ nx, execDataFlitReceived p seq good corrected s = .next nx ∧ Keeps [.regs, .out, .units] s nx := by
  refine ⟨_, rfl, ?_⟩
  try dsimp only
  repeat' (first
    | with_reducible exact Keeps.refl _ _
    | with_reducible assumption
    | with_reducible apply Keeps.ite
    | ((with_reducible apply Keeps.after (State.countCodeword_keeps ..)); decide)
    | ((with_reducible apply Keeps.after (State.nakFlit_keeps ..)); decide)
    | ((with_reducible apply Keeps.after (State.setPort_keeps ..)); decide)
    | ((with_reducible apply Keeps.after (State.countFlits_keeps ..)); decide)
    | split)

theorem State.resend_keeps (s : State) (p : Nat) : Keeps [.regs, .out, .units] s (State.resend s p) := by
  unfold State.resend
  try dsimp only
  repeat' (first
    | with_reducible exact Keeps.refl _ _
    | with_reducible assumption
    | ((with_reducible apply Keeps.after (State.sendFlit_keeps ..)); decide)
    | ((with_reducible apply Keeps.after (State.bump_keeps ..)); decide)
    | with_reducible refine Keeps.foldl (fun _ _ _ => ?_) ?_
    | split)

theorem execControlFlitReceived_keeps (p : Fin 36) (ack : AckField) (nak : Bool) (credits : List Nat) (s : State) :
    ∃ nx, execControlFlitReceived p ack nak credits s = .next nx ∧ Keeps [.free, .regs, .out, .test, .units] s nx := by
  refine ⟨_, rfl, ?_⟩
  try dsimp only
  repeat' (first
    | with_reducible exact Keeps.refl _ _
    | with_reducible assumption
    | with_reducible apply Keeps.ite
    | ((with_reducible apply Keeps.after (State.countCodeword_keeps ..)); decide)
    | ((with_reducible apply Keeps.after (State.setPort_keeps ..)); decide)
    | ((with_reducible apply Keeps.after (State.leaveService_keeps ..)); decide)
    | ((with_reducible apply Keeps.after (State.resend_keeps ..)); decide)
    | ((with_reducible apply Keeps.after (State.portPump_keeps ..)); decide)
    | ((with_reducible apply Keeps.after (State.endDrain_keeps ..)); decide)
    | split)

theorem execControlFlitSend_keeps (p : Fin 36) (ident : Bool) (s : State) :
    ∃ nx, execControlFlitSend p ident s = .next nx ∧ Keeps [.out, .units] s nx := by
  refine ⟨_, rfl, ?_⟩
  try dsimp only
  repeat' (first
    | with_reducible exact Keeps.refl _ _
    | with_reducible assumption
    | with_reducible apply Keeps.ite
    | ((with_reducible apply Keeps.after (State.sendControl_keeps ..)); decide)
    | split)

theorem execControlFlitTimeout_keeps (p : Fin 36) (s : State) :
    ∃ nx, execControlFlitTimeout p s = .next nx ∧ Keeps [.regs, .test, .units] s nx := by
  refine ⟨_, rfl, ?_⟩
  try dsimp only
  repeat' (first
    | with_reducible exact Keeps.refl _ _
    | with_reducible assumption
    | with_reducible apply Keeps.ite
    | ((with_reducible apply Keeps.after (State.leaveService_keeps ..)); decide)
    | split)

theorem execLaneSignalLoss_keeps (p : Fin 36) (s : State) :
    ∃ nx, execLaneSignalLoss p s = .next nx ∧ Keeps [.regs, .test, .units] s nx := by
  refine ⟨_, rfl, ?_⟩
  try dsimp only
  repeat' (first
    | with_reducible exact Keeps.refl _ _
    | with_reducible assumption
    | with_reducible apply Keeps.ite
    | ((with_reducible apply Keeps.after (State.leaveService_keeps ..)); decide)
    | split)

theorem State.relaunch_keeps (s : State) : Keeps [.free, .regs, .vio, .out, .host, .test, .units] s (State.relaunch s) := by
  unfold State.relaunch
  try dsimp only
  repeat' (first
    | with_reducible exact Keeps.refl _ _
    | with_reducible assumption
    | ((with_reducible apply Keeps.after (State.sendPacket_keeps ..)); decide)
    | ((with_reducible apply Keeps.after (State.setFab_keeps ..)); decide)
    | ((with_reducible apply Keeps.after (State.launch_keeps ..)); decide)
    | with_reducible refine Keeps.foldl_snd (fun _ _ _ => ?_) ?_
    | with_reducible refine Keeps.foldl (fun _ _ _ => ?_) ?_
    | split)

theorem execGroupRebuild_keeps (g : Fin 6) (late : Bool) (s : State) :
    ∃ nx, execGroupRebuild g late s = .next nx ∧ Keeps [.free, .regs, .vio, .out, .host, .test, .units] s nx := by
  refine ⟨_, rfl, ?_⟩
  try dsimp only
  repeat' (first
    | with_reducible exact Keeps.refl _ _
    | with_reducible assumption
    | with_reducible apply Keeps.ite
    | ((with_reducible apply Keeps.after (State.rebuildMaps_keeps ..)); decide)
    | ((with_reducible apply Keeps.after (State.setFab_keeps ..)); decide)
    | ((with_reducible apply Keeps.after (State.setFld_keeps ..)); decide)
    | ((with_reducible apply Keeps.after (State.relaunch_keeps ..)); decide)
    | split)

theorem execPacketForward_keeps (p : Fin 36) (x : Packet) (s : State) :
    ∃ nx, execPacketForward p x s = .next nx ∧ Keeps [.free, .regs, .vio, .out, .host, .test, .units] s nx := by
  refine ⟨_, rfl, ?_⟩
  try dsimp only
  repeat' (first
    | with_reducible exact Keeps.refl _ _
    | with_reducible assumption
    | with_reducible apply Keeps.ite
    | with_reducible apply Eff.keeps_done
    | with_reducible apply Eff.keeps_fault
    | with_reducible apply Eff.keeps_wait
    | with_reducible apply Eff.keeps_hold
    | with_reducible apply Eff.keeps_ite
    | with_reducible apply Eff.keeps_ite_fst
    | ((with_reducible apply State.arriving_keeps); decide)
    | ((with_reducible apply Keeps.after (State.sendPacket_keeps ..)); decide)
    | intro _
    | split)

theorem State.pageAnswer_keeps (s : State) (core : Nat) (t : Trans) (st : Status) (data : List Byte) : Keeps [.cores] s (State.pageAnswer s core t st data) := by
  unfold State.pageAnswer
  try dsimp only
  repeat' (first
    | with_reducible exact Keeps.refl _ _
    | with_reducible assumption
    | ((with_reducible apply Keeps.after (State.setCore_keeps ..)); decide)
    | ((with_reducible apply Keeps.of_eq); assumption)
    | ((with_reducible apply Keeps.of_eq3); assumption)
    | split)

theorem State.kvpAnswer_keeps (s : State) (t : Trans) (st : Status) (data : List Byte) : Keeps [.units] s (State.kvpAnswer s t st data) := by
  unfold State.kvpAnswer
  try dsimp only
  repeat' (first
    | with_reducible exact Keeps.refl _ _
    | with_reducible assumption
    | with_reducible apply Keeps.ite
    | ((with_reducible apply Keeps.after (State.withUnits_keeps ..)); decide)
    | split)

theorem State.anchorAnswer_keeps (s : State) (core : Nat) (st : Status) (data : List Byte) : Keeps [.cores] s (State.anchorAnswer s core st data) := by
  unfold State.anchorAnswer
  try dsimp only
  repeat' (first
    | with_reducible exact Keeps.refl _ _
    | with_reducible assumption
    | ((with_reducible apply Keeps.after (State.setCore_keeps ..)); decide)
    | ((with_reducible apply Keeps.of_eq); assumption)
    | ((with_reducible apply Keeps.of_eq3); assumption)
    | split)

theorem State.endTrans_keeps (s : State) (reqId : Nat) (t : Trans) (st : Status) (data : List Byte) : Keeps [.free, .regs, .mem, .ecc, .out, .boot, .cores, .units] s (State.endTrans s reqId t st data) := by
  unfold State.endTrans
  try dsimp only
  repeat' (first
    | with_reducible exact Keeps.refl _ _
    | with_reducible assumption
    | ((with_reducible apply Keeps.after (State.freeTrans_keeps ..)); decide)
    | ((with_reducible apply Keeps.after (State.instrAnswer_keeps ..)); decide)
    | ((with_reducible apply Keeps.after (State.anchorAnswer_keeps ..)); decide)
    | ((with_reducible apply Keeps.after (State.pageAnswer_keeps ..)); decide)
    | ((with_reducible apply Keeps.after (State.kvpAnswer_keeps ..)); decide)
    | ((with_reducible apply Keeps.after (State.gradAnswer_keeps ..)); decide)
    | ((with_reducible apply Keeps.of_eq); assumption)
    | ((with_reducible apply Keeps.of_eq3); assumption)
    | split)

theorem State.timeoutTrans_keeps (s : State) (reqId : Nat) (t : Trans) : Keeps [.free, .regs, .mem, .ecc, .out, .boot, .cores, .units] s (State.timeoutTrans s reqId t) := by
  unfold State.timeoutTrans
  try dsimp only
  repeat' (first
    | with_reducible exact Keeps.refl _ _
    | with_reducible assumption
    | ((with_reducible apply Keeps.after (State.bump_keeps ..)); decide)
    | ((with_reducible apply Keeps.after (State.endTrans_keeps ..)); decide)
    | split)

theorem execNoAcceptedPortTimeout_keeps (own : Bool) (n : Nat) (s : State) :
    ∃ nx, execNoAcceptedPortTimeout own n s = .next nx ∧ Keeps [.free, .regs, .mem, .ecc, .vio, .out, .host, .boot, .test, .cores, .units] s nx := by
  refine ⟨_, rfl, ?_⟩
  try dsimp only
  repeat' (first
    | with_reducible exact Keeps.refl _ _
    | with_reducible assumption
    | with_reducible apply Keeps.ite
    | ((with_reducible apply Keeps.after (State.countDrop_keeps ..)); decide)
    | ((with_reducible apply Keeps.after (State.timeoutTrans_keeps ..)); decide)
    | ((with_reducible apply Keeps.after (State.setFab_keeps ..)); decide)
    | ((with_reducible apply Keeps.after (State.discard_keeps ..)); decide)
    | ((with_reducible apply Keeps.of_eq); assumption)
    | ((with_reducible apply Keeps.of_eq3); assumption)
    | split)

theorem State.refuse_keeps (s : State) (h : PktHdr) (op : Nat) (st : Status) : Keeps [.free, .regs, .vio, .out, .host, .test, .units] s (State.refuse s h op st) := by
  unfold State.refuse
  try dsimp only
  repeat' (first
    | with_reducible exact Keeps.refl _ _
    | with_reducible assumption
    | ((with_reducible apply Keeps.after (State.log_keeps ..)); decide)
    | ((with_reducible apply Keeps.after (State.bump_keeps ..)); decide)
    | ((with_reducible apply Keeps.after (State.answerTo_keeps ..)); decide)
    | split)

theorem State.request_keeps {k : List Part} {s0 : State} (s : State) (h : PktHdr) (cls slots op : Nat) (status : State → Status)
    (go : State → State) (hk : ([.free, .regs, .vio, .out, .host, .test, .units] : List Part).all k.contains = true) (hg : ∀ s, Keeps k s (go s)) (h0 : Keeps k s0 s) :
    Keeps k s0 (s.request h cls slots op status go) := by
  unfold State.request
  refine State.arriving_keeps _ _ _ rfl (fun s1 => ?_) h0
  have up : ∀ u w, Keeps [.free, .regs, .vio, .out, .host, .test, .units] u w → Keeps k u w := fun u w h => Keeps.after h hk (Keeps.refl _ _)
  have owe : Keeps [.free, .regs, .vio, .out, .host, .test, .units] s1 (s1.owe (some h.port) (vcOf cls h.sub) slots) := Keeps.after (State.owe_keeps ..) (by decide) (Keeps.refl _ _)
  have refused : ∀ op st, Keeps [.free, .regs, .vio, .out, .host, .test, .units] s1 ((s1.owe (some h.port) (vcOf cls h.sub) slots).refuse h op st) := fun _ _ =>
    Keeps.after (State.refuse_keeps ..) (by decide) owe
  dsimp only
  refine Keeps.ite (up _ _ ?_) (Keeps.ite (up _ _ (refused _ _)) (Keeps.ite (up _ _ (refused _ _)) ?_))
  · exact Keeps.after (State.crcDiscard_keeps ..) (by decide) owe
  · exact Keeps.after (hg _) (Part.sub_refl _) (up _ _ owe)

theorem execFabricWrite_keeps (h : PktHdr) (data : List Byte) (s : State) :
    ∃ nx, execFabricWrite h data s = .next nx ∧ Keeps [.free, .regs, .mem, .ecc, .vio, .out, .host, .boot, .test, .units] s nx := by
  refine ⟨_, rfl, ?_⟩
  try dsimp only
  repeat' (first
    | with_reducible exact Keeps.refl _ _
    | with_reducible assumption
    | with_reducible apply Keeps.ite
    | with_reducible apply Eff.keeps_done
    | with_reducible apply Eff.keeps_fault
    | with_reducible apply Eff.keeps_wait
    | with_reducible apply Eff.keeps_hold
    | with_reducible apply Eff.keeps_ite
    | with_reducible apply Eff.keeps_ite_fst
    | ((with_reducible apply State.request_keeps); decide)
    | ((with_reducible apply Keeps.after (State.writeMem_keeps ..)); decide)
    | ((with_reducible apply Keeps.after (State.answerTo_keeps ..)); decide)
    | ((with_reducible apply Keeps.after (State.refuse_keeps ..)); decide)
    | intro _
    | split)

theorem execFabricRead_keeps (h : PktHdr) (len : Nat) (s : State) :
    ∃ nx, execFabricRead h len s = .next nx ∧ Keeps [.free, .regs, .mem, .ecc, .vio, .out, .host, .boot, .test, .units] s nx := by
  refine ⟨_, rfl, ?_⟩
  try dsimp only
  repeat' (first
    | with_reducible exact Keeps.refl _ _
    | with_reducible assumption
    | with_reducible apply Keeps.ite
    | with_reducible apply Eff.keeps_done
    | with_reducible apply Eff.keeps_fault
    | with_reducible apply Eff.keeps_wait
    | with_reducible apply Eff.keeps_hold
    | with_reducible apply Eff.keeps_ite
    | with_reducible apply Eff.keeps_ite_fst
    | ((with_reducible apply State.request_keeps); decide)
    | ((with_reducible apply Keeps.after (State.readMem_keeps ..)); decide)
    | ((with_reducible apply Keeps.after (State.answerTo_keeps ..)); decide)
    | ((with_reducible apply Keeps.after (State.refuse_keeps ..)); decide)
    | intro _
    | split)

theorem execFabricPostAtt_keeps (h : PktHdr) (x : AttPost) (s : State) :
    ∃ nx, execFabricPostAtt h x s = .next nx ∧ Keeps [.free, .regs, .mem, .ecc, .vio, .out, .host, .boot, .test, .units] s nx := by
  refine ⟨_, rfl, ?_⟩
  dsimp only
  refine Keeps.ite ?_ ?_
  · unfold State.arriving
    refine Keeps.ite ?_ (Keeps.refl _ _)
    refine Keeps.after (State.afterPost_keeps ..) (by decide) (Keeps.after (State.postArrives_keeps ..) (by decide) ?_)
    exact Keeps.after (State.readCheck_keeps ..) (by decide) (Keeps.refl _ _)
  · refine State.request_keeps _ _ _ _ _ _ _ (by decide) (fun s1 => ?_) (Keeps.refl _ _)
    exact Keeps.after (State.refuse_keeps ..) (by decide) (Keeps.after (State.readCheck_keeps ..) (by decide) (Keeps.refl _ _))

theorem execFabricPostMergedInc_keeps (h : PktHdr) (s : State) :
    ∃ nx, execFabricPostMergedInc h s = .next nx ∧ Keeps [.free, .regs, .mem, .ecc, .vio, .out, .host, .boot, .test, .units] s nx := by
  refine ⟨_, rfl, ?_⟩
  try dsimp only
  repeat' (first
    | with_reducible exact Keeps.refl _ _
    | with_reducible assumption
    | with_reducible apply Keeps.ite
    | with_reducible apply Eff.keeps_done
    | with_reducible apply Eff.keeps_fault
    | with_reducible apply Eff.keeps_wait
    | with_reducible apply Eff.keeps_hold
    | with_reducible apply Eff.keeps_ite
    | with_reducible apply Eff.keeps_ite_fst
    | ((with_reducible apply State.request_keeps); decide)
    | ((with_reducible apply Keeps.after (State.readCheck_keeps ..)); decide)
    | ((with_reducible apply Keeps.after (State.refuse_keeps ..)); decide)
    | ((with_reducible apply Keeps.after (State.putNum_keeps ..)); decide)
    | ((with_reducible apply Keeps.after (State.answerTo_keeps ..)); decide)
    | intro _
    | split)

theorem State.answerArrives_keeps {k : List Part} {s0 : State} (s : State) (h : PktHdr) (slots : Nat) (want : Trans → Bool)
    (f : Trans → State → State) (hk : ([.regs, .vio, .out, .host, .test, .units] : List Part).all k.contains = true) (hf : ∀ t s, Keeps k s (f t s))
    (h0 : Keeps k s0 s) : Keeps k s0 (s.answerArrives h slots want f) := by
  unfold State.answerArrives
  refine State.arriving_keeps _ _ _ rfl (fun s1 => ?_) h0
  have up : ∀ u w, Keeps [.regs, .vio, .out, .host, .test, .units] u w → Keeps k u w := fun u w h => Keeps.after h hk (Keeps.refl _ _)
  have owe : Keeps [.regs, .vio, .out, .host, .test, .units] s1 (s1.owe (some h.port) (vcOf 1 h.sub) slots) := Keeps.after (State.owe_keeps ..) (by decide) (Keeps.refl _ _)
  have late : Keeps [.regs, .vio, .out, .host, .test, .units] s1 ((s1.owe (some h.port) (vcOf 1 h.sub) slots).bump Fld.FAB_ERRORS_LATE Fld.FAB_ERRORS_LATE_SAT 1) :=
    Keeps.after (State.bump_keeps ..) (by decide) owe
  dsimp only
  split
  · exact up _ _ (Keeps.after (State.crcDiscard_keeps ..) (by decide) owe)
  · split
    · exact up _ _ late
    · split
      · exact Keeps.after (hf _ _) (Part.sub_refl _) (up _ _ owe)
      · exact up _ _ late

theorem execFabricAck_keeps (h : PktHdr) (st : Status) (data : List Byte) (s : State) :
    ∃ nx, execFabricAck h st data s = .next nx ∧ Keeps [.free, .regs, .mem, .ecc, .vio, .out, .host, .boot, .test, .cores, .units] s nx := by
  refine ⟨_, rfl, ?_⟩
  try dsimp only
  repeat' (first
    | with_reducible exact Keeps.refl _ _
    | with_reducible assumption
    | with_reducible apply Eff.keeps_done
    | with_reducible apply Eff.keeps_fault
    | with_reducible apply Eff.keeps_wait
    | with_reducible apply Eff.keeps_hold
    | with_reducible apply Eff.keeps_ite
    | with_reducible apply Eff.keeps_ite_fst
    | ((with_reducible apply State.answerArrives_keeps); decide)
    | ((with_reducible apply Keeps.after (State.endTrans_keeps ..)); decide)
    | intro _
    | split)

theorem execFabricReadData_keeps (h : PktHdr) (st : Status) (data : List Byte) (s : State) :
    ∃ nx, execFabricReadData h st data s = .next nx ∧ Keeps [.free, .regs, .mem, .ecc, .vio, .out, .host, .boot, .test, .cores, .units] s nx := by
  refine ⟨_, rfl, ?_⟩
  try dsimp only
  repeat' (first
    | with_reducible exact Keeps.refl _ _
    | with_reducible assumption
    | with_reducible apply Keeps.ite
    | with_reducible apply Eff.keeps_done
    | with_reducible apply Eff.keeps_fault
    | with_reducible apply Eff.keeps_wait
    | with_reducible apply Eff.keeps_hold
    | with_reducible apply Eff.keeps_ite
    | with_reducible apply Eff.keeps_ite_fst
    | ((with_reducible apply State.answerArrives_keeps); decide)
    | ((with_reducible apply Keeps.after (State.jobWrite_keeps ..)); decide)
    | ((with_reducible apply Keeps.after (State.endTrans_keeps ..)); decide)
    | intro _
    | ((with_reducible apply Keeps.of_eq); assumption)
    | ((with_reducible apply Keeps.of_eq3); assumption)
    | split)

theorem execFabricError_keeps (h : PktHdr) (st : Status) (s : State) :
    ∃ nx, execFabricError h st s = .next nx ∧ Keeps [.free, .regs, .mem, .ecc, .vio, .out, .host, .boot, .test, .cores, .units] s nx := by
  refine ⟨_, rfl, ?_⟩
  try dsimp only
  repeat' (first
    | with_reducible exact Keeps.refl _ _
    | with_reducible assumption
    | with_reducible apply Eff.keeps_done
    | with_reducible apply Eff.keeps_fault
    | with_reducible apply Eff.keeps_wait
    | with_reducible apply Eff.keeps_hold
    | with_reducible apply Eff.keeps_ite
    | with_reducible apply Eff.keeps_ite_fst
    | ((with_reducible apply State.answerArrives_keeps); decide)
    | ((with_reducible apply Keeps.after (State.endTrans_keeps ..)); decide)
    | intro _
    | split)

theorem execRemoteTimeout_keeps (reqId : Fin 16384) (s : State) :
    ∃ nx, execRemoteTimeout reqId s = .next nx ∧ Keeps [.free, .regs, .mem, .ecc, .out, .boot, .cores, .units] s nx := by
  refine ⟨_, rfl, ?_⟩
  try dsimp only
  repeat' (first
    | with_reducible exact Keeps.refl _ _
    | with_reducible assumption
    | with_reducible apply Keeps.ite
    | ((with_reducible apply Keeps.after (State.timeoutTrans_keeps ..)); decide)
    | ((with_reducible apply Keeps.of_eq); assumption)
    | ((with_reducible apply Keeps.of_eq3); assumption)
    | split)

theorem fabTtLoadWrite_keeps (v : Word) (s : State) : Keeps [.regs, .units] s (fabTtLoadWrite v s).2 := by
  unfold fabTtLoadWrite
  try dsimp only
  repeat' (first
    | with_reducible exact Keeps.refl _ _
    | with_reducible assumption
    | with_reducible apply Keeps.ite
    | ((with_reducible apply Keeps.after (State.setFab_keeps ..)); decide)
    | ((with_reducible apply Keeps.after (State.setFld_keeps ..)); decide)
    | with_reducible apply Keeps.ite_snd
    | split)

theorem execFabTtLoad_keeps (q : Fin 4) (v : Word) (s : State) :
    ∃ nx, execFabTtLoad q v s = .next nx ∧ Keeps [.regs, .vio, .out, .host, .test, .units] s nx := by
  refine ⟨_, rfl, ?_⟩
  try dsimp only
  repeat' (first
    | with_reducible exact Keeps.refl _ _
    | with_reducible assumption
    | with_reducible apply Eff.keeps_done
    | with_reducible apply Eff.keeps_fault
    | with_reducible apply Eff.keeps_wait
    | with_reducible apply Eff.keeps_hold
    | with_reducible apply Eff.keeps_ite
    | with_reducible apply Eff.keeps_ite_fst
    | ((with_reducible apply State.regWrite_keeps); decide)
    | ((with_reducible apply Keeps.after (fabTtLoadWrite_keeps ..)); decide)
    | intro _
    | split)

theorem execFabTtLoadDone_keeps (s : State) :
    ∃ nx, execFabTtLoadDone s = .next nx ∧ Keeps [.free, .regs, .mem, .ecc, .vio, .out, .host, .boot, .test, .units] s nx := by
  refine ⟨_, rfl, ?_⟩
  try dsimp only
  repeat' (first
    | with_reducible exact Keeps.refl _ _
    | with_reducible assumption
    | with_reducible apply Keeps.ite
    | ((with_reducible apply Keeps.after (State.readCheck_keeps ..)); decide)
    | ((with_reducible apply Keeps.after (State.setFab_keeps ..)); decide)
    | ((with_reducible apply Keeps.after (State.setFld_keeps ..)); decide)
    | ((with_reducible apply Keeps.of_eq); assumption)
    | ((with_reducible apply Keeps.of_eq3); assumption)
    | split)

theorem State.swapTurnout_keeps (s : State) : Keeps [.free, .regs, .mem, .vio, .out, .host, .test, .units] s (State.swapTurnout s) := by
  unfold State.swapTurnout
  try dsimp only
  repeat' (first
    | with_reducible exact Keeps.refl _ _
    | with_reducible assumption
    | ((with_reducible apply Keeps.after (State.setFab_keeps ..)); decide)
    | ((with_reducible apply Keeps.after (State.staged_keeps ..)); decide)
    | ((with_reducible apply Keeps.after (State.setFld_keeps ..)); decide)
    | ((with_reducible apply Keeps.after (State.relaunch_keeps ..)); decide)
    | split)

theorem State.discardTurnout_keeps (s : State) : Keeps [.regs, .units] s (State.discardTurnout s) := by
  unfold State.discardTurnout
  try dsimp only
  repeat' (first
    | with_reducible exact Keeps.refl _ _
    | with_reducible assumption
    | ((with_reducible apply Keeps.after (State.setFab_keeps ..)); decide)
    | ((with_reducible apply Keeps.after (State.setFld_keeps ..)); decide)
    | split)

theorem State.judgeWidths_keeps (s : State) : Keeps [.regs, .test, .units] s (State.judgeWidths s) := by
  unfold State.judgeWidths
  try dsimp only
  repeat' (first
    | with_reducible exact Keeps.refl _ _
    | with_reducible assumption
    | with_reducible apply Keeps.ite
    | ((with_reducible apply Keeps.after (State.leftAccepted_keeps ..)); decide)
    | ((with_reducible apply Keeps.after (State.setPortState_keeps ..)); decide)
    | ((with_reducible apply Keeps.after (State.showFabric_keeps ..)); decide)
    | ((with_reducible apply Keeps.after (State.acceptPort_keeps ..)); decide)
    | with_reducible refine Keeps.foldl (fun _ _ _ => ?_) ?_
    | split)

theorem fabCtrlWrite_keeps (v : Word) (s : State) : Keeps [.free, .regs, .mem, .vio, .out, .host, .test, .units] s (fabCtrlWrite v s).2 := by
  unfold fabCtrlWrite
  try dsimp only
  repeat' (first
    | with_reducible exact Keeps.refl _ _
    | with_reducible assumption
    | with_reducible apply Keeps.ite
    | ((with_reducible apply Keeps.after (State.setFld_keeps ..)); decide)
    | ((with_reducible apply Keeps.after (State.judgeWidths_keeps ..)); decide)
    | ((with_reducible apply Keeps.after (State.swapTurnout_keeps ..)); decide)
    | ((with_reducible apply Keeps.after (State.discardTurnout_keeps ..)); decide)
    | with_reducible apply Keeps.ite_snd
    | split)

theorem execTtSwap_keeps (q : Fin 4) (s : State) :
    ∃ nx, execTtSwap q s = .next nx ∧ Keeps [.free, .regs, .mem, .vio, .out, .host, .test, .units] s nx := by
  refine ⟨_, rfl, ?_⟩
  try dsimp only
  repeat' (first
    | with_reducible exact Keeps.refl _ _
    | with_reducible assumption
    | with_reducible apply Eff.keeps_done
    | with_reducible apply Eff.keeps_fault
    | with_reducible apply Eff.keeps_wait
    | with_reducible apply Eff.keeps_hold
    | with_reducible apply Eff.keeps_ite
    | with_reducible apply Eff.keeps_ite_fst
    | ((with_reducible apply State.regWrite_keeps); decide)
    | ((with_reducible apply Keeps.after (fabCtrlWrite_keeps ..)); decide)
    | intro _
    | split)

theorem execTtDiscard_keeps (q : Fin 4) (s : State) :
    ∃ nx, execTtDiscard q s = .next nx ∧ Keeps [.free, .regs, .mem, .vio, .out, .host, .test, .units] s nx := by
  refine ⟨_, rfl, ?_⟩
  try dsimp only
  repeat' (first
    | with_reducible exact Keeps.refl _ _
    | with_reducible assumption
    | with_reducible apply Eff.keeps_done
    | with_reducible apply Eff.keeps_fault
    | with_reducible apply Eff.keeps_wait
    | with_reducible apply Eff.keeps_hold
    | with_reducible apply Eff.keeps_ite
    | with_reducible apply Eff.keeps_ite_fst
    | ((with_reducible apply State.regWrite_keeps); decide)
    | ((with_reducible apply Keeps.after (fabCtrlWrite_keeps ..)); decide)
    | intro _
    | split)

theorem execMinWidthWrite_keeps (q : Fin 4) (w : Fin 4) (s : State) :
    ∃ nx, execMinWidthWrite q w s = .next nx ∧ Keeps [.free, .regs, .mem, .vio, .out, .host, .test, .units] s nx := by
  refine ⟨_, rfl, ?_⟩
  try dsimp only
  repeat' (first
    | with_reducible exact Keeps.refl _ _
    | with_reducible assumption
    | with_reducible apply Eff.keeps_done
    | with_reducible apply Eff.keeps_fault
    | with_reducible apply Eff.keeps_wait
    | with_reducible apply Eff.keeps_hold
    | with_reducible apply Eff.keeps_ite
    | with_reducible apply Eff.keeps_ite_fst
    | ((with_reducible apply State.regWrite_keeps); decide)
    | ((with_reducible apply Keeps.after (fabCtrlWrite_keeps ..)); decide)
    | intro _
    | split)

theorem fabLimitsWrite_keeps (v : Word) (s : State) : Keeps [.regs] s (fabLimitsWrite v s).2 := by
  unfold fabLimitsWrite
  try dsimp only
  repeat' (first
    | with_reducible exact Keeps.refl _ _
    | with_reducible assumption
    | with_reducible apply Keeps.ite
    | ((with_reducible apply Keeps.after (State.setFld_keeps ..)); decide)
    | with_reducible apply Keeps.ite_snd
    | split)

theorem execFabLimitsWrite_keeps (q : Fin 4) (v : Word) (s : State) :
    ∃ nx, execFabLimitsWrite q v s = .next nx ∧ Keeps [.regs, .vio, .out, .host, .test] s nx := by
  refine ⟨_, rfl, ?_⟩
  try dsimp only
  repeat' (first
    | with_reducible exact Keeps.refl _ _
    | with_reducible assumption
    | with_reducible apply Eff.keeps_done
    | with_reducible apply Eff.keeps_fault
    | with_reducible apply Eff.keeps_wait
    | with_reducible apply Eff.keeps_hold
    | with_reducible apply Eff.keeps_ite
    | with_reducible apply Eff.keeps_ite_fst
    | ((with_reducible apply State.regWrite_keeps); decide)
    | ((with_reducible apply Keeps.after (fabLimitsWrite_keeps ..)); decide)
    | intro _
    | split)

theorem fabWinBaseWrite_keeps (i : Nat) (v : Word) (s : State) : Keeps [.regs] s (fabWinBaseWrite i v s).2 := by
  unfold fabWinBaseWrite
  try dsimp only
  repeat' (first
    | with_reducible exact Keeps.refl _ _
    | with_reducible assumption
    | with_reducible apply Keeps.ite
    | ((with_reducible apply Keeps.after (State.setReg_keeps ..)); decide)
    | with_reducible apply Keeps.ite_snd
    | split)

theorem fabWinSizeWrite_keeps (i : Nat) (v : Word) (s : State) : Keeps [.regs] s (fabWinSizeWrite i v s).2 := by
  unfold fabWinSizeWrite
  try dsimp only
  repeat' (first
    | with_reducible exact Keeps.refl _ _
    | with_reducible assumption
    | with_reducible apply Keeps.ite
    | ((with_reducible apply Keeps.after (State.setFld_keeps ..)); decide)
    | with_reducible apply Keeps.ite_snd
    | split)

theorem execFabWinWrite_keeps (q : Fin 4) (i : Fin 64) (size : Bool) (v : Word) (s : State) :
    ∃ nx, execFabWinWrite q i size v s = .next nx ∧ Keeps [.regs, .vio, .out, .host, .test] s nx := by
  refine ⟨_, rfl, ?_⟩
  try dsimp only
  repeat' (first
    | with_reducible exact Keeps.refl _ _
    | with_reducible assumption
    | with_reducible apply Keeps.ite
    | with_reducible apply Eff.keeps_done
    | with_reducible apply Eff.keeps_fault
    | with_reducible apply Eff.keeps_wait
    | with_reducible apply Eff.keeps_hold
    | with_reducible apply Eff.keeps_ite
    | with_reducible apply Eff.keeps_ite_fst
    | ((with_reducible apply State.regWrite_keeps); decide)
    | ((with_reducible apply Keeps.after (fabWinSizeWrite_keeps ..)); decide)
    | ((with_reducible apply Keeps.after (fabWinBaseWrite_keeps ..)); decide)
    | intro _
    | split)

theorem State.startDrain_keeps (s : State) (p : Nat) : Keeps [.regs, .test, .units] s (State.startDrain s p) := by
  unfold State.startDrain
  try dsimp only
  repeat' (first
    | with_reducible exact Keeps.refl _ _
    | with_reducible assumption
    | with_reducible apply Keeps.ite
    | ((with_reducible apply Keeps.after (State.setPort_keeps ..)); decide)
    | ((with_reducible apply Keeps.after (State.portsChanged_keeps ..)); decide)
    | ((with_reducible apply Keeps.after (State.endDrain_keeps ..)); decide)
    | split)

theorem fabPortCtrlWrite_keeps (p : Nat) (v : Word) (s : State) : Keeps [.regs, .test, .units] s (fabPortCtrlWrite p v s).2 := by
  unfold fabPortCtrlWrite
  try dsimp only
  repeat' (first
    | with_reducible exact Keeps.refl _ _
    | with_reducible assumption
    | with_reducible apply Keeps.ite
    | ((with_reducible apply Keeps.after (State.setFld_keeps ..)); decide)
    | ((with_reducible apply Keeps.after (State.startDrain_keeps ..)); decide)
    | ((with_reducible apply Keeps.after (State.beginAttempt_keeps ..)); decide)
    | with_reducible apply Keeps.ite_snd
    | split)

theorem execPortRetrain_keeps (q : Fin 4) (p : Fin 36) (s : State) :
    ∃ nx, execPortRetrain q p s = .next nx ∧ Keeps [.regs, .vio, .out, .host, .test, .units] s nx := by
  refine ⟨_, rfl, ?_⟩
  try dsimp only
  repeat' (first
    | with_reducible exact Keeps.refl _ _
    | with_reducible assumption
    | with_reducible apply Eff.keeps_done
    | with_reducible apply Eff.keeps_fault
    | with_reducible apply Eff.keeps_wait
    | with_reducible apply Eff.keeps_hold
    | with_reducible apply Eff.keeps_ite
    | with_reducible apply Eff.keeps_ite_fst
    | ((with_reducible apply State.regWrite_keeps); decide)
    | ((with_reducible apply Keeps.after (fabPortCtrlWrite_keeps ..)); decide)
    | intro _
    | split)

theorem execPortDisable_keeps (q : Fin 4) (p : Fin 36) (s : State) :
    ∃ nx, execPortDisable q p s = .next nx ∧ Keeps [.regs, .vio, .out, .host, .test, .units] s nx := by
  refine ⟨_, rfl, ?_⟩
  try dsimp only
  repeat' (first
    | with_reducible exact Keeps.refl _ _
    | with_reducible assumption
    | with_reducible apply Eff.keeps_done
    | with_reducible apply Eff.keeps_fault
    | with_reducible apply Eff.keeps_wait
    | with_reducible apply Eff.keeps_hold
    | with_reducible apply Eff.keeps_ite
    | with_reducible apply Eff.keeps_ite_fst
    | ((with_reducible apply State.regWrite_keeps); decide)
    | ((with_reducible apply Keeps.after (fabPortCtrlWrite_keeps ..)); decide)
    | intro _
    | split)

theorem execTopoDone_keeps (s : State) :
    ∃ nx, execTopoDone s = .next nx ∧ Keeps [.regs, .vio, .out, .host, .test] s nx := by
  refine ⟨_, rfl, ?_⟩
  try dsimp only
  repeat' (first
    | with_reducible exact Keeps.refl _ _
    | with_reducible assumption
    | with_reducible apply Keeps.ite
    | ((with_reducible apply Keeps.after (State.log_keeps ..)); decide)
    | ((with_reducible apply Keeps.after (State.setFld_keeps ..)); decide)
    | ((with_reducible apply Keeps.of_eq); assumption)
    | ((with_reducible apply Keeps.of_eq3); assumption)
    | with_reducible refine Keeps.foldl (fun _ _ _ => ?_) ?_
    | split)

end Sys2Proof.Machine
end

