-- ==== Sys2Proof/Laws/KeepsHost.lean ====
section
/-! SUPPORT. What the operations of Machine/Host.lean may change: one law each. -/

namespace Sys2Proof.Machine

theorem State.dropFrame_keeps (s : State) (k : Nat) : Keeps [.regs] s (State.dropFrame s k) := by
  unfold State.dropFrame
  try dsimp only
  repeat' (first
    | with_reducible exact Keeps.refl _ _
    | with_reducible assumption
    | with_reducible apply Keeps.ite
    | ((with_reducible apply Keeps.after (State.bump_keeps ..)); decide)
    | split)

theorem execHostLinkUp_keeps (k : Fin 4) (kr : Bool) (s : State) :
    ∃ nx, execHostLinkUp k kr s = .next nx ∧ Keeps [.regs] s nx := by
  refine ⟨_, rfl, ?_⟩
  try dsimp only
  repeat' (first
    | with_reducible exact Keeps.refl _ _
    | with_reducible assumption
    | with_reducible apply Keeps.ite
    | ((with_reducible apply Keeps.after (State.setFld_keeps ..)); decide)
    | ((with_reducible apply Keeps.after (State.setReady_keeps ..)); decide)
    | split)

theorem State.linkLost_keeps (s : State) (k : Nat) : Keeps [.regs] s (State.linkLost s k) := by
  unfold State.linkLost
  try dsimp only
  repeat' (first
    | with_reducible exact Keeps.refl _ _
    | with_reducible assumption
    | with_reducible apply Keeps.ite
    | ((with_reducible apply Keeps.after (State.setFld_keeps ..)); decide)
    | ((with_reducible apply Keeps.after (State.clearReady_keeps ..)); decide)
    | split)

theorem execHostLinkDown_keeps (k : Fin 4) (s : State) :
    ∃ nx, execHostLinkDown k s = .next nx ∧ Keeps [.regs] s nx := by
  refine ⟨_, rfl, ?_⟩
  try dsimp only
  repeat' (first
    | with_reducible exact Keeps.refl _ _
    | with_reducible assumption
    | ((with_reducible apply Keeps.after (State.linkLost_keeps ..)); decide)
    | split)

theorem State.answerCe_keeps (s : State) (qpn : Nat) : Keeps [.out, .host] s (State.answerCe s qpn) := by
  unfold State.answerCe
  try dsimp only
  repeat' (first
    | with_reducible exact Keeps.refl _ _
    | with_reducible assumption
    | with_reducible apply Keeps.ite
    | ((with_reducible apply Keeps.after (State.withHost_keeps ..)); decide)
    | ((with_reducible apply Keeps.after (State.emit_keeps ..)); decide)
    | ((with_reducible apply Keeps.of_eq); assumption)
    | ((with_reducible apply Keeps.of_eq3); assumption)
    | split)

theorem execEthFrameReceived_keeps (k : Fin 4) (f : EthFrame) (s : State) :
    ∃ nx, execEthFrameReceived k f s = .next nx ∧ Keeps [.regs, .out, .host] s nx := by
  refine ⟨_, rfl, ?_⟩
  try dsimp only
  repeat' (first
    | with_reducible exact Keeps.refl _ _
    | with_reducible assumption
    | with_reducible apply Keeps.ite
    | ((with_reducible apply Keeps.after (State.bump_keeps ..)); decide)
    | ((with_reducible apply Keeps.after (State.dropFrame_keeps ..)); decide)
    | ((with_reducible apply Keeps.after (State.answerCe_keeps ..)); decide)
    | ((with_reducible apply Keeps.of_eq); assumption)
    | ((with_reducible apply Keeps.of_eq3); assumption)
    | split)

theorem execCnpReceived_keeps (n : Fin 256) (s : State) :
    ∃ nx, execCnpReceived n s = .next nx ∧ Keeps [.host] s nx := by
  refine ⟨_, rfl, ?_⟩
  try dsimp only
  repeat' (first
    | with_reducible exact Keeps.refl _ _
    | with_reducible assumption
    | with_reducible apply Keeps.ite
    | ((with_reducible apply Keeps.after (State.setQp_keeps ..)); decide)
    | split)

theorem State.sendHeldEvents_keeps (s : State) : Keeps [.regs, .out, .host] s (State.sendHeldEvents s) := by
  unfold State.sendHeldEvents
  try dsimp only
  repeat' (first
    | with_reducible exact Keeps.refl _ _
    | with_reducible assumption
    | ((with_reducible apply Keeps.after (State.event_keeps ..)); decide)
    | ((with_reducible apply Keeps.after (State.withHost_keeps ..)); decide)
    | with_reducible refine Keeps.foldl (fun _ _ _ => ?_) ?_
    | split)

theorem execCmReq_keeps (k : Fin 4) (service : Nat) (s : State) :
    ∃ nx, execCmReq k service s = .next nx ∧ Keeps [.regs, .out, .host] s nx := by
  refine ⟨_, rfl, ?_⟩
  try dsimp only
  repeat' (first
    | with_reducible exact Keeps.refl _ _
    | with_reducible assumption
    | with_reducible apply Keeps.ite
    | ((with_reducible apply Keeps.after (State.emit_keeps ..)); decide)
    | ((with_reducible apply Keeps.after (State.setQp_keeps ..)); decide)
    | ((with_reducible apply Keeps.after (State.setFld_keeps ..)); decide)
    | ((with_reducible apply Keeps.after (State.withHost_keeps ..)); decide)
    | ((with_reducible apply Keeps.after (State.sendHeldEvents_keeps ..)); decide)
    | split)

theorem State.dropConn_keeps (s : State) (k : Nat) : Keeps [.regs, .out, .host] s (State.dropConn s k) := by
  unfold State.dropConn
  try dsimp only
  repeat' (first
    | with_reducible exact Keeps.refl _ _
    | with_reducible assumption
    | ((with_reducible apply Keeps.after (State.event_keeps ..)); decide)
    | ((with_reducible apply Keeps.after (State.setQp_keeps ..)); decide)
    | ((with_reducible apply Keeps.after (State.setFld_keeps ..)); decide)
    | ((with_reducible apply Keeps.of_eq); assumption)
    | ((with_reducible apply Keeps.of_eq3); assumption)
    | with_reducible refine Keeps.foldl (fun _ _ _ => ?_) ?_
    | split)

theorem execCmDreq_keeps (k : Fin 4) (s : State) :
    ∃ nx, execCmDreq k s = .next nx ∧ Keeps [.regs, .out, .host] s nx := by
  refine ⟨_, rfl, ?_⟩
  try dsimp only
  repeat' (first
    | with_reducible exact Keeps.refl _ _
    | with_reducible assumption
    | with_reducible apply Keeps.ite
    | ((with_reducible apply Keeps.after (State.dropConn_keeps ..)); decide)
    | ((with_reducible apply Keeps.after (State.emit_keeps ..)); decide)
    | split)

theorem hstPortCfgWrite_keeps (k : Nat) (v : Word) (s : State) : Keeps [.regs] s (hstPortCfgWrite k v s).2 := by
  unfold hstPortCfgWrite
  try dsimp only
  repeat' (first
    | with_reducible exact Keeps.refl _ _
    | with_reducible assumption
    | with_reducible apply Keeps.ite
    | ((with_reducible apply Keeps.after (State.setFld_keeps ..)); decide)
    | with_reducible apply Keeps.ite_snd
    | split)

theorem hstPortGidWrite_keeps (k : Nat) (hi : Bool) (v : Word) (s : State) : Keeps [.regs] s (hstPortGidWrite k hi v s).2 := by
  unfold hstPortGidWrite
  try dsimp only
  repeat' (first
    | with_reducible exact Keeps.refl _ _
    | with_reducible assumption
    | with_reducible apply Keeps.ite
    | ((with_reducible apply Keeps.after (State.setReg_keeps ..)); decide)
    | with_reducible apply Keeps.ite_snd
    | split)

theorem execHstPortCfgWrite_keeps (q : Fin 4) (k : Fin 4) (r : Fin 3) (v : Word) (s : State) :
    ∃ nx, execHstPortCfgWrite q k r v s = .next nx ∧ Keeps [.regs, .vio, .out, .host, .test] s nx := by
  refine ⟨_, rfl, ?_⟩
  try dsimp only
  repeat' (first
    | with_reducible exact Keeps.refl _ _
    | with_reducible assumption
    | with_reducible apply Keeps.ite
    | with_reducible apply Eff.keeps_done
    | with_reducible apply Eff.keeps_fault
    | with_reducible apply Eff.keeps_wait
    | with_reducible apply Eff.keeps_hold
    | with_reducible apply Eff.keeps_ite
    | with_reducible apply Eff.keeps_ite_fst
    | ((with_reducible apply State.regWrite_keeps); decide)
    | ((with_reducible apply Keeps.after (hstPortCfgWrite_keeps ..)); decide)
    | ((with_reducible apply Keeps.after (hstPortGidWrite_keeps ..)); decide)
    | intro _
    | split)

theorem State.enterReady_keeps (s : State) (n : Nat) (fresh : Bool) : Keeps [.free, .regs, .mem, .ecc, .vio, .out, .host, .boot, .test, .units] s (State.enterReady s n fresh) := by
  unfold State.enterReady
  try dsimp only
  repeat' (first
    | with_reducible exact Keeps.refl _ _
    | with_reducible assumption
    | with_reducible apply Keeps.ite
    | ((with_reducible apply Keeps.after (State.setQp_keeps ..)); decide)
    | ((with_reducible apply Keeps.after (State.sendNow_keeps ..)); decide)
    | ((with_reducible apply Keeps.after (State.sendHeldEvents_keeps ..)); decide)
    | ((with_reducible apply Keeps.after (State.advance_keeps ..)); decide)
    | with_reducible refine Keeps.foldl (fun _ _ _ => ?_) ?_
    | split)

theorem State.enterReset_keeps (s : State) (n : Nat) : Keeps [.regs, .host] s (State.enterReset s n) := by
  unfold State.enterReset
  try dsimp only
  repeat' (first
    | with_reducible exact Keeps.refl _ _
    | with_reducible assumption
    | ((with_reducible apply Keeps.after (State.setQp_keeps ..)); decide)
    | ((with_reducible apply Keeps.after (State.setConsumed_keeps ..)); decide)
    | ((with_reducible apply Keeps.after (State.setFld_keeps ..)); decide)
    | split)

theorem State.enterError_keeps (s : State) (n : Nat) (cause : Status) : Keeps [.regs, .host] s (State.enterError s n cause) := by
  unfold State.enterError
  try dsimp only
  repeat' (first
    | with_reducible exact Keeps.refl _ _
    | with_reducible assumption
    | ((with_reducible apply Keeps.after (State.setQp_keeps ..)); decide)
    | ((with_reducible apply Keeps.after (State.setFld_keeps ..)); decide)
    | ((with_reducible apply Keeps.of_eq); assumption)
    | ((with_reducible apply Keeps.of_eq3); assumption)
    | split)

theorem qpPageWrite_keeps (n w : Nat) (v : Word) (s : State) : Keeps [.free, .regs, .mem, .ecc, .vio, .out, .host, .boot, .test, .units] s (qpPageWrite n w v s).2 := by
  unfold qpPageWrite
  try dsimp only
  repeat' (first
    | with_reducible exact Keeps.refl _ _
    | with_reducible assumption
    | with_reducible apply Keeps.ite
    | ((with_reducible apply Keeps.after (State.setReg_keeps ..)); decide)
    | ((with_reducible apply Keeps.after (State.enterReset_keeps ..)); decide)
    | ((with_reducible apply Keeps.after (State.enterReady_keeps ..)); decide)
    | with_reducible apply Keeps.ite_snd
    | split)

theorem execQpStateWrite_keeps (q : Fin 4) (n : Fin 256) (w : Fin 8) (v : Word) (s : State) :
    ∃ nx, execQpStateWrite q n w v s = .next nx ∧ Keeps [.free, .regs, .mem, .ecc, .vio, .out, .host, .boot, .test, .units] s nx := by
  refine ⟨_, rfl, ?_⟩
  try dsimp only
  repeat' (first
    | with_reducible exact Keeps.refl _ _
    | with_reducible assumption
    | with_reducible apply Eff.keeps_done
    | with_reducible apply Eff.keeps_fault
    | with_reducible apply Eff.keeps_wait
    | with_reducible apply Eff.keeps_hold
    | with_reducible apply Eff.keeps_ite
    | with_reducible apply Eff.keeps_ite_fst
    | ((with_reducible apply State.regWrite_keeps); decide)
    | ((with_reducible apply Keeps.after (qpPageWrite_keeps ..)); decide)
    | intro _
    | split)

theorem State.ring'_keeps (s : State) (n p : Nat) : Keeps [.free, .regs, .mem, .ecc, .vio, .out, .host, .boot, .test, .units] s (State.ring' s n p) := by
  unfold State.ring'
  try dsimp only
  repeat' (first
    | with_reducible exact Keeps.refl _ _
    | with_reducible assumption
    | with_reducible apply Keeps.ite
    | ((with_reducible apply Keeps.after (State.log_keeps ..)); decide)
    | ((with_reducible apply Keeps.after (State.enterError_keeps ..)); decide)
    | ((with_reducible apply Keeps.after (State.setFld_keeps ..)); decide)
    | ((with_reducible apply Keeps.after (State.advance_keeps ..)); decide)
    | split)

theorem doorbellWrite_keeps (n : Nat) (v : Word) (s : State) : Keeps [.free, .regs, .mem, .ecc, .vio, .out, .host, .boot, .test, .units] s (doorbellWrite n v s).2 := by
  unfold doorbellWrite
  try dsimp only
  repeat' (first
    | with_reducible exact Keeps.refl _ _
    | with_reducible assumption
    | with_reducible apply Keeps.ite
    | ((with_reducible apply Keeps.after (State.ring'_keeps ..)); decide)
    | with_reducible apply Keeps.ite_snd
    | split)

theorem execDoorbell_keeps (n : Fin 256) (produced : BitVec 32) (s : State) :
    ∃ nx, execDoorbell n produced s = .next nx ∧ Keeps [.free, .regs, .mem, .ecc, .vio, .out, .host, .boot, .test, .units] s nx := by
  refine ⟨_, rfl, ?_⟩
  try dsimp only
  repeat' (first
    | with_reducible exact Keeps.refl _ _
    | with_reducible assumption
    | with_reducible apply Keeps.ite
    | ((with_reducible apply Keeps.after (State.ring'_keeps ..)); decide)
    | ((with_reducible apply Keeps.after (State.dropFrame_keeps ..)); decide)
    | split)

theorem State.nakHost_keeps (s : State) (qpn psn va : Nat) (st : Status) : Keeps [.regs, .vio, .out, .host, .test] s (State.nakHost s qpn psn va st) := by
  unfold State.nakHost
  try dsimp only
  repeat' (first
    | with_reducible exact Keeps.refl _ _
    | with_reducible assumption
    | with_reducible apply Keeps.ite
    | ((with_reducible apply Keeps.after (State.log_keeps ..)); decide)
    | ((with_reducible apply Keeps.after (State.emit_keeps ..)); decide)
    | split)

theorem execDataQpRdmaWrite_keeps (n : Fin 256) (psn va rkey : Nat) (data : List Byte) (s : State) :
    ∃ nx, execDataQpRdmaWrite n psn va rkey data s = .next nx ∧ Keeps [.free, .regs, .mem, .ecc, .vio, .out, .host, .boot, .test, .units] s nx := by
  refine ⟨_, rfl, ?_⟩
  try dsimp only
  repeat' (first
    | with_reducible exact Keeps.refl _ _
    | with_reducible assumption
    | with_reducible apply Keeps.ite
    | ((with_reducible apply Keeps.after (State.dropFrame_keeps ..)); decide)
    | ((with_reducible apply Keeps.after (State.nakHost_keeps ..)); decide)
    | ((with_reducible apply Keeps.after (State.ring'_keeps ..)); decide)
    | ((with_reducible apply Keeps.after (State.emit_keeps ..)); decide)
    | ((with_reducible apply Keeps.after (State.writeMem_keeps ..)); decide)
    | split)

theorem execDataQpRdmaRead_keeps (n : Fin 256) (psn va rkey len : Nat) (s : State) :
    ∃ nx, execDataQpRdmaRead n psn va rkey len s = .next nx ∧ Keeps [.free, .regs, .mem, .ecc, .vio, .out, .host, .boot, .test, .units] s nx := by
  refine ⟨_, rfl, ?_⟩
  try dsimp only
  repeat' (first
    | with_reducible exact Keeps.refl _ _
    | with_reducible assumption
    | with_reducible apply Keeps.ite
    | ((with_reducible apply Keeps.after (State.dropFrame_keeps ..)); decide)
    | ((with_reducible apply Keeps.after (State.nakHost_keeps ..)); decide)
    | ((with_reducible apply Keeps.after (State.emit_keeps ..)); decide)
    | ((with_reducible apply Keeps.after (State.readMem_keeps ..)); decide)
    | split)

theorem State.setConsist_keeps (s : State) (n c : Nat) (x : Consist) : Keeps [.host] s (State.setConsist s n c x) := by
  unfold State.setConsist
  try dsimp only
  repeat' (first
    | with_reducible exact Keeps.refl _ _
    | with_reducible assumption
    | ((with_reducible apply Keeps.after (State.setQp_keeps ..)); decide)
    | split)

theorem State.setProgress_keeps (s : State) (n c e : Nat) (p : Progress) : Keeps [.host] s (State.setProgress s n c e p) := by
  unfold State.setProgress
  try dsimp only
  repeat' (first
    | with_reducible exact Keeps.refl _ _
    | with_reducible assumption
    | ((with_reducible apply Keeps.after (State.setConsist_keeps ..)); decide)
    | ((with_reducible apply Keeps.of_eq); assumption)
    | ((with_reducible apply Keeps.of_eq3); assumption)
    | split)

theorem State.beginEntry_keeps {k : List Part} {s0 : State} (s : State) (n c e op : Nat) (f : Entry → State → State)
    (hk : ([.host] : List Part).all k.contains = true) (hf : ∀ y s, Keeps k s (f y s)) (h0 : Keeps k s0 s) :
    Keeps k s0 (s.beginEntry n c e op f) := by
  refine Keeps.after ?_ (Part.sub_refl _) h0
  unfold State.beginEntry
  split
  · refine Keeps.ite (Keeps.refl _ _) (Keeps.ite ?_ (hf _ _))
    exact Keeps.after (State.setProgress_keeps ..) hk (Keeps.refl _ _)
  · exact Keeps.refl _ _

theorem execConsistNop_keeps (n : Fin 256) (c e : Nat) (s : State) :
    ∃ nx, execConsistNop n c e s = .next nx ∧ Keeps [.host] s nx := by
  refine ⟨_, rfl, ?_⟩
  try dsimp only
  repeat' (first
    | with_reducible exact Keeps.refl _ _
    | with_reducible assumption
    | with_reducible apply Eff.keeps_done
    | with_reducible apply Eff.keeps_fault
    | with_reducible apply Eff.keeps_wait
    | with_reducible apply Eff.keeps_hold
    | with_reducible apply Eff.keeps_ite
    | with_reducible apply Eff.keeps_ite_fst
    | ((with_reducible apply State.beginEntry_keeps); decide)
    | ((with_reducible apply Keeps.after (State.setProgress_keeps ..)); decide)
    | intro _
    | split)

theorem execConsistCopyLocal_keeps (n : Fin 256) (c e : Nat) (s : State) :
    ∃ nx, execConsistCopyLocal n c e s = .next nx ∧ Keeps [.free, .regs, .mem, .ecc, .vio, .out, .host, .boot, .test, .units] s nx := by
  refine ⟨_, rfl, ?_⟩
  try dsimp only
  repeat' (first
    | with_reducible exact Keeps.refl _ _
    | with_reducible assumption
    | with_reducible apply Eff.keeps_done
    | with_reducible apply Eff.keeps_fault
    | with_reducible apply Eff.keeps_wait
    | with_reducible apply Eff.keeps_hold
    | with_reducible apply Eff.keeps_ite
    | with_reducible apply Eff.keeps_ite_fst
    | ((with_reducible apply State.beginEntry_keeps); decide)
    | ((with_reducible apply Keeps.after (State.copyMem_keeps ..)); decide)
    | ((with_reducible apply Keeps.after (State.setProgress_keeps ..)); decide)
    | intro _
    | split)

theorem State.pumpEntry_keeps (s : State) (n c e k : Nat) : Keeps [.out, .host] s (s.pumpEntry n c e k) := by
  induction k generalizing s with
  | zero => exact Keeps.refl _ _
  | succ k ih =>
    unfold State.pumpEntry
    split
    · refine Keeps.ite (Keeps.refl _ _) (Keeps.after (ih _) (by decide) (Keeps.after (State.emit_keeps ..) (by decide)
        (Keeps.after (State.setProgress_keeps ..) (by decide) (Keeps.after (State.setQp_keeps ..) (by decide) (Keeps.refl _ _)))))
    · exact Keeps.refl _ _

theorem State.pump_keeps (s : State) (n : Nat) : Keeps [.out, .host] s (State.pump s n) := by
  unfold State.pump
  try dsimp only
  repeat' (first
    | with_reducible exact Keeps.refl _ _
    | with_reducible assumption
    | ((with_reducible apply Keeps.after (State.pumpEntry_keeps ..)); decide)
    | with_reducible refine Keeps.foldl_snd (fun _ _ _ => ?_) ?_
    | with_reducible refine Keeps.foldl (fun _ _ _ => ?_) ?_
    | split)

theorem execConsistCopyIn_keeps (n : Fin 256) (c e : Nat) (s : State) :
    ∃ nx, execConsistCopyIn n c e s = .next nx ∧ Keeps [.out, .host] s nx := by
  refine ⟨_, rfl, ?_⟩
  try dsimp only
  repeat' (first
    | with_reducible exact Keeps.refl _ _
    | with_reducible assumption
    | with_reducible apply Eff.keeps_done
    | with_reducible apply Eff.keeps_fault
    | with_reducible apply Eff.keeps_wait
    | with_reducible apply Eff.keeps_hold
    | with_reducible apply Eff.keeps_ite
    | with_reducible apply Eff.keeps_ite_fst
    | ((with_reducible apply State.beginEntry_keeps); decide)
    | ((with_reducible apply Keeps.after (State.setProgress_keeps ..)); decide)
    | ((with_reducible apply Keeps.after (State.pumpEntry_keeps ..)); decide)
    | intro _
    | split)

theorem execConsistCopyOut_keeps (n : Fin 256) (c e : Nat) (s : State) :
    ∃ nx, execConsistCopyOut n c e s = .next nx ∧ Keeps [.free, .regs, .mem, .ecc, .vio, .out, .host, .boot, .test, .units] s nx := by
  refine ⟨_, rfl, ?_⟩
  try dsimp only
  repeat' (first
    | with_reducible exact Keeps.refl _ _
    | with_reducible assumption
    | with_reducible apply Keeps.ite
    | with_reducible apply Eff.keeps_done
    | with_reducible apply Eff.keeps_fault
    | with_reducible apply Eff.keeps_wait
    | with_reducible apply Eff.keeps_hold
    | with_reducible apply Eff.keeps_ite
    | with_reducible apply Eff.keeps_ite_fst
    | ((with_reducible apply State.beginEntry_keeps); decide)
    | ((with_reducible apply Keeps.after (State.readMem_keeps ..)); decide)
    | ((with_reducible apply Keeps.after (State.setProgress_keeps ..)); decide)
    | ((with_reducible apply Keeps.after (State.setQp_keeps ..)); decide)
    | ((with_reducible apply Keeps.after (State.emit_keeps ..)); decide)
    | intro _
    | split)

theorem execConsistJob_keeps (n : Fin 256) (c e : Nat) (s : State) :
    ∃ nx, execConsistJob n c e s = .next nx ∧ Keeps [.free, .regs, .mem, .ecc, .vio, .out, .host, .boot, .test, .cores, .sched, .units] s nx := by
  refine ⟨_, rfl, ?_⟩
  try dsimp only
  repeat' (first
    | with_reducible exact Keeps.refl _ _
    | with_reducible assumption
    | with_reducible apply Keeps.ite
    | with_reducible apply Eff.keeps_done
    | with_reducible apply Eff.keeps_fault
    | with_reducible apply Eff.keeps_wait
    | with_reducible apply Eff.keeps_hold
    | with_reducible apply Eff.keeps_ite
    | with_reducible apply Eff.keeps_ite_fst
    | ((with_reducible apply State.beginEntry_keeps); decide)
    | ((with_reducible apply Keeps.after (State.setProgress_keeps ..)); decide)
    | ((with_reducible apply Keeps.after (State.admitJob_keeps ..)); decide)
    | intro _
    | split)

theorem execConsistComplete_keeps (n : Fin 256) (c : Nat) (s : State) :
    ∃ nx, execConsistComplete n c s = .next nx ∧ Keeps [.free, .regs, .mem, .ecc, .vio, .out, .host, .boot, .test, .units] s nx := by
  refine ⟨_, rfl, ?_⟩
  try dsimp only
  repeat' (first
    | with_reducible exact Keeps.refl _ _
    | with_reducible assumption
    | with_reducible apply Keeps.ite
    | ((with_reducible apply Keeps.after (State.setQp_keeps ..)); decide)
    | ((with_reducible apply Keeps.after (State.sendOn_keeps ..)); decide)
    | ((with_reducible apply Keeps.after (State.advance_keeps ..)); decide)
    | ((with_reducible apply Keeps.of_eq); assumption)
    | ((with_reducible apply Keeps.of_eq3); assumption)
    | split)

theorem State.onEntry_keeps (s : State) (n first e : Nat) (f : Entry → Progress → Progress) : Keeps [.host] s (State.onEntry s n first e f) := by
  unfold State.onEntry
  try dsimp only
  repeat' (first
    | with_reducible exact Keeps.refl _ _
    | with_reducible assumption
    | with_reducible apply Keeps.ite
    | ((with_reducible apply Keeps.after (State.setQp_keeps ..)); decide)
    | ((with_reducible apply Keeps.of_eq); assumption)
    | ((with_reducible apply Keeps.of_eq3); assumption)
    | split)

theorem State.acknowledged_keeps (s : State) (n : Nat) (r : OutReq) : Keeps [.host] s (State.acknowledged s n r) := by
  unfold State.acknowledged
  try dsimp only
  repeat' (first
    | with_reducible exact Keeps.refl _ _
    | with_reducible assumption
    | ((with_reducible apply Keeps.after (State.onEntry_keeps ..)); decide)
    | ((with_reducible apply Keeps.of_eq); assumption)
    | ((with_reducible apply Keeps.of_eq3); assumption)
    | split)

theorem State.ackAll_keeps (s : State) (n : Nat) (l rest : List OutReq) : Keeps [.host] s (State.ackAll s n l rest) := by
  unfold State.ackAll
  try dsimp only
  repeat' (first
    | with_reducible exact Keeps.refl _ _
    | with_reducible assumption
    | ((with_reducible apply Keeps.after (State.acknowledged_keeps ..)); decide)
    | ((with_reducible apply Keeps.after (State.setQp_keeps ..)); decide)
    | with_reducible refine Keeps.foldl (fun _ _ _ => ?_) ?_
    | split)

theorem execRoceResponse_keeps (n : Fin 260) (r : RoceResp) (s : State) :
    ∃ nx, execRoceResponse n r s = .next nx ∧ Keeps [.free, .regs, .mem, .ecc, .out, .host, .boot, .units] s nx := by
  refine ⟨_, rfl, ?_⟩
  try dsimp only
  repeat' (first
    | with_reducible exact Keeps.refl _ _
    | with_reducible assumption
    | with_reducible apply Keeps.ite
    | ((with_reducible apply Keeps.after (State.ackAll_keeps ..)); decide)
    | ((with_reducible apply Keeps.after (State.pump_keeps ..)); decide)
    | ((with_reducible apply Keeps.after (State.writeMem_keeps ..)); decide)
    | ((with_reducible apply Keeps.after (State.onEntry_keeps ..)); decide)
    | ((with_reducible apply Keeps.after (State.setQp_keeps ..)); decide)
    | ((with_reducible apply Keeps.of_eq); assumption)
    | ((with_reducible apply Keeps.of_eq3); assumption)
    | split)

theorem execRnrRetry_keeps (n : Fin 260) (s : State) :
    ∃ nx, execRnrRetry n s = .next nx ∧ Keeps [.free, .regs, .mem, .ecc, .vio, .out, .host, .boot, .test, .units] s nx := by
  refine ⟨_, rfl, ?_⟩
  try dsimp only
  repeat' (first
    | with_reducible exact Keeps.refl _ _
    | with_reducible assumption
    | with_reducible apply Keeps.ite
    | ((with_reducible apply Keeps.after (State.setQp_keeps ..)); decide)
    | ((with_reducible apply Keeps.after (State.emit_keeps ..)); decide)
    | ((with_reducible apply Keeps.after (State.sendNow_keeps ..)); decide)
    | ((with_reducible apply Keeps.after (State.advance_keeps ..)); decide)
    | ((with_reducible apply Keeps.of_eq); assumption)
    | ((with_reducible apply Keeps.of_eq3); assumption)
    | with_reducible refine Keeps.foldl (fun _ _ _ => ?_) ?_
    | split)

theorem execQpAckTimeout_keeps (n : Fin 260) (s : State) :
    ∃ nx, execQpAckTimeout n s = .next nx ∧ Keeps [.regs, .out, .host] s nx := by
  refine ⟨_, rfl, ?_⟩
  try dsimp only
  repeat' (first
    | with_reducible exact Keeps.refl _ _
    | with_reducible assumption
    | with_reducible apply Keeps.ite
    | ((with_reducible apply Keeps.after (State.dropConn_keeps ..)); decide)
    | ((with_reducible apply Keeps.after (State.setQp_keeps ..)); decide)
    | ((with_reducible apply Keeps.after (State.enterError_keeps ..)); decide)
    | split)

end Sys2Proof.Machine
end

