-- ==== Sys2Proof/Laws/KeepsImage.lean ====
section
/-! SUPPORT. What the operations of Machine/Image.lean may change: one law each. -/

namespace Sys2Proof.Machine

theorem State.eraseSector_keeps (s : State) (n : Nat) : Keeps [.boot] s (State.eraseSector s n) := by
  unfold State.eraseSector
  try dsimp only
  repeat' (first
    | with_reducible exact Keeps.refl _ _
    | with_reducible assumption
    | ((with_reducible apply Keeps.after (State.withBoot_keeps ..)); decide)
    | split)

theorem State.writeSector_keeps (s : State) (n : Nat) (l : List Byte) : Keeps [.boot] s (State.writeSector s n l) := by
  unfold State.writeSector
  try dsimp only
  repeat' (first
    | with_reducible exact Keeps.refl _ _
    | with_reducible assumption
    | ((with_reducible apply Keeps.after (State.withBoot_keeps ..)); decide)
    | split)

theorem State.eraseSectors_keeps (s : State) (first n : Nat) : Keeps [.boot] s (State.eraseSectors s first n) := by
  unfold State.eraseSectors
  try dsimp only
  repeat' (first
    | with_reducible exact Keeps.refl _ _
    | with_reducible assumption
    | ((with_reducible apply Keeps.after (State.eraseSector_keeps ..)); decide)
    | with_reducible refine Keeps.foldl (fun _ _ _ => ?_) ?_
    | split)

theorem execDefectListWrite_keeps (s : State) :
    ∃ nx, execDefectListWrite s = .next nx ∧ Keeps [.boot] s nx := by
  refine ⟨_, rfl, ?_⟩
  try dsimp only
  repeat' (first
    | with_reducible exact Keeps.refl _ _
    | with_reducible assumption
    | with_reducible apply Keeps.ite
    | ((with_reducible apply Keeps.after (State.withBoot_keeps ..)); decide)
    | ((with_reducible apply Keeps.of_eq); assumption)
    | ((with_reducible apply Keeps.of_eq3); assumption)
    | split)

end Sys2Proof.Machine
end

