-- ==== Sys2Proof/Laws/KeepsLinks.lean ====
section
/-! SUPPORT. What the operations of Machine/Links.lean may change: one law each. -/

namespace Sys2Proof.Machine

theorem State.cutEngines_keeps (s : State) : Keeps [.regs, .boot] s (State.cutEngines s) := by
  unfold State.cutEngines
  try dsimp only
  repeat' (first
    | with_reducible exact Keeps.refl _ _
    | with_reducible assumption
    | ((with_reducible apply Keeps.after (State.setFld_keeps ..)); decide)
    | ((with_reducible apply Keeps.after (State.withBoot_keeps ..)); decide)
    | split)

theorem State.showDegraded_keeps (s : State) : Keeps [.regs] s (State.showDegraded s) := by
  unfold State.showDegraded
  try dsimp only
  repeat' (first
    | with_reducible exact Keeps.refl _ _
    | with_reducible assumption
    | ((with_reducible apply Keeps.after (State.setFld_keeps ..)); decide)
    | split)

theorem State.cutFx_keeps (s : State) (f : Nat) : Keeps [.regs, .test, .units] s (State.cutFx s f) := by
  unfold State.cutFx
  try dsimp only
  repeat' (first
    | with_reducible exact Keeps.refl _ _
    | with_reducible assumption
    | with_reducible apply Keeps.ite
    | ((with_reducible apply Keeps.after (State.leaveService_keeps ..)); decide)
    | ((with_reducible apply Keeps.after (State.linkLost_keeps ..)); decide)
    | with_reducible refine Keeps.foldl (fun _ _ _ => ?_) ?_
    | split)

theorem State.failStack_keeps (s : State) (st : Nat) : Keeps [.regs] s (State.failStack s st) := by
  unfold State.failStack
  try dsimp only
  repeat' (first
    | with_reducible exact Keeps.refl _ _
    | with_reducible assumption
    | with_reducible apply Keeps.ite
    | ((with_reducible apply Keeps.after (State.setFld_keeps ..)); decide)
    | ((with_reducible apply Keeps.after (State.clearReady_keeps ..)); decide)
    | split)

theorem State.dependants_keeps (s : State) (l : Nat) : Keeps [.regs, .boot, .test, .units] s (State.dependants s l) := by
  unfold State.dependants
  try dsimp only
  repeat' (first
    | with_reducible exact Keeps.refl _ _
    | with_reducible assumption
    | with_reducible apply Keeps.ite
    | ((with_reducible apply Keeps.after (State.clearReady_keeps ..)); decide)
    | ((with_reducible apply Keeps.after (State.cutFx_keeps ..)); decide)
    | ((with_reducible apply Keeps.after (State.cutEngines_keeps ..)); decide)
    | ((with_reducible apply Keeps.after (State.failStack_keeps ..)); decide)
    | split)

theorem State.linkDown_keeps (s : State) (l : Nat) : Keeps [.regs, .boot, .test, .units] s (State.linkDown s l) := by
  unfold State.linkDown
  try dsimp only
  repeat' (first
    | with_reducible exact Keeps.refl _ _
    | with_reducible assumption
    | with_reducible apply Keeps.ite
    | ((with_reducible apply Keeps.after (State.withBoot_keeps ..)); decide)
    | ((with_reducible apply Keeps.after (State.dependants_keeps ..)); decide)
    | ((with_reducible apply Keeps.after (State.showDegraded_keeps ..)); decide)
    | split)

theorem execD2dFlitCrcFail_keeps (l : Fin 56) (s : State) :
    ∃ nx, execD2dFlitCrcFail l s = .next nx ∧ Keeps [.boot] s nx := by
  refine ⟨_, rfl, ?_⟩
  try dsimp only
  repeat' (first
    | with_reducible exact Keeps.refl _ _
    | with_reducible assumption
    | ((with_reducible apply Keeps.after (State.withBoot_keeps ..)); decide)
    | ((with_reducible apply Keeps.of_eq); assumption)
    | ((with_reducible apply Keeps.of_eq3); assumption)
    | split)

theorem State.strand_keeps (s : State) (hit : Nat × Nat) : Keeps [.cores] s (State.strand s hit) := by
  unfold State.strand
  try dsimp only
  repeat' (first
    | with_reducible exact Keeps.refl _ _
    | with_reducible assumption
    | with_reducible apply Keeps.ite
    | ((with_reducible apply Keeps.after (State.setCore_keeps ..)); decide)
    | ((with_reducible apply Keeps.of_eq); assumption)
    | ((with_reducible apply Keeps.of_eq3); assumption)
    | split)

theorem execD2dLinkOutOfService_keeps (l : LinkLoss) (s : State) :
    ∃ nx, execD2dLinkOutOfService l s = .next nx ∧ Keeps [.regs, .boot, .test, .cores, .units] s nx := by
  refine ⟨_, rfl, ?_⟩
  try dsimp only
  repeat' (first
    | with_reducible exact Keeps.refl _ _
    | with_reducible assumption
    | with_reducible apply Keeps.ite
    | ((with_reducible apply Keeps.after (State.strand_keeps ..)); decide)
    | ((with_reducible apply Keeps.after (State.linkDown_keeps ..)); decide)
    | with_reducible refine Keeps.foldl (fun _ _ _ => ?_) ?_
    | split)

end Sys2Proof.Machine
end

