-- ==== Sys2Proof/Laws/KeepsBringUp.lean ====
section
/-! SUPPORT. What the operations of Machine/BringUp.lean may change: one law each. -/

namespace Sys2Proof.Machine

theorem State.showFuses_keeps (s : State) : Keeps [.regs] s (State.showFuses s) := by
  unfold State.showFuses
  try dsimp only
  repeat' (first
    | with_reducible exact Keeps.refl _ _
    | with_reducible assumption
    | ((with_reducible apply Keeps.after (State.setFld_keeps ..)); decide)
    | with_reducible refine Keeps.foldl (fun _ _ _ => ?_) ?_
    | split)

theorem State.showSec_keeps (s : State) : Keeps [.regs] s (State.showSec s) := by
  unfold State.showSec
  try dsimp only
  repeat' (first
    | with_reducible exact Keeps.refl _ _
    | with_reducible assumption
    | ((with_reducible apply Keeps.after (State.showFuses_keeps ..)); decide)
    | ((with_reducible apply Keeps.after (State.setFld_keeps ..)); decide)
    | with_reducible refine Keeps.foldl (fun _ _ _ => ?_) ?_
    | split)

theorem State.applyPower_keeps (s : State) : Keeps [.regs] s (State.applyPower s) := by
  unfold State.applyPower
  try dsimp only
  repeat' (first
    | with_reducible exact Keeps.refl _ _
    | with_reducible assumption
    | ((with_reducible apply Keeps.after (State.setFld_keeps ..)); decide)
    | with_reducible refine Keeps.foldl (fun _ _ _ => ?_) ?_
    | split)

theorem State.noNeighbours_keeps (s : State) : Keeps [.regs] s (State.noNeighbours s) := by
  unfold State.noNeighbours
  try dsimp only
  repeat' (first
    | with_reducible exact Keeps.refl _ _
    | with_reducible assumption
    | ((with_reducible apply Keeps.after (State.setFld_keeps ..)); decide)
    | with_reducible refine Keeps.foldl (fun _ _ _ => ?_) ?_
    | split)

theorem State.stopped_keeps (s : State) : Keeps [.regs, .mem, .ecc, .vio, .host, .boot, .gov, .sec, .test, .cores, .sched, .units] s s.stopped := by
  unfold State.stopped
  dsimp only
  with_reducible apply Keeps.after (State.applyPower_keeps ..) (by decide)
  with_reducible apply Keeps.after (State.noNeighbours_keeps ..) (by decide)
  with_reducible apply Keeps.after (State.showSec_keeps ..) (by decide)
  with_reducible apply Keeps.after (State.withBoot_keeps ..) (by decide)
  with_reducible apply Keeps.after (State.withSec_keeps ..) (by decide)
  with_reducible apply Keeps.after (State.withUnits_keeps ..) (by decide)
  with_reducible apply Keeps.after (State.withSched_keeps ..) (by decide)
  with_reducible apply Keeps.after (State.withCores_keeps ..) (by decide)
  with_reducible apply Keeps.after (State.withTest_keeps ..) (by decide)
  with_reducible apply Keeps.after (State.withGov_keeps ..) (by decide)
  with_reducible apply Keeps.after (State.withHost_keeps ..) (by decide)
  with_reducible apply Keeps.after (State.withVio_keeps ..) (by decide)
  with_reducible apply Keeps.after (State.withMsBad_keeps ..) (by decide)
  with_reducible apply Keeps.after (State.withEccDead_keeps ..) (by decide)
  with_reducible apply Keeps.after (State.withEccMask_keeps ..) (by decide)
  refine ⟨fun p hp => ?_, rfl, fun _ => rfl, fun _ => rfl⟩
  cases p <;> first | rfl | (exact absurd hp (by decide))

theorem State.beginStart_keeps (s : State) : Keeps [.free, .regs, .boot, .sec] s (State.beginStart s) := by
  unfold State.beginStart
  try dsimp only
  repeat' (first
    | with_reducible exact Keeps.refl _ _
    | with_reducible assumption
    | with_reducible apply Keeps.ite
    | ((with_reducible apply Keeps.after (State.draw_keeps ..)); decide)
    | ((with_reducible apply Keeps.after (State.withBoot_keeps ..)); decide)
    | ((with_reducible apply Keeps.after (State.withSec_keeps ..)); decide)
    | ((with_reducible apply Keeps.after (State.showSec_keeps ..)); decide)
    | split)

theorem State.setPhase_keeps (s : State) (p : Nat) : Keeps [.regs] s (State.setPhase s p) := by
  unfold State.setPhase
  try dsimp only
  repeat' (first
    | with_reducible exact Keeps.refl _ _
    | with_reducible assumption
    | ((with_reducible apply Keeps.after (State.setFld_keeps ..)); decide)
    | split)

theorem State.applyClocks_keeps (s : State) (khz : List Nat) : Keeps [.regs] s (State.applyClocks s khz) := by
  unfold State.applyClocks
  try dsimp only
  repeat' (first
    | with_reducible exact Keeps.refl _ _
    | with_reducible assumption
    | ((with_reducible apply Keeps.after (State.setFld_keeps ..)); decide)
    | with_reducible refine Keeps.foldl (fun _ _ _ => ?_) ?_
    | split)

theorem State.applyHbm_keeps (s : State) (im : StructImage) : Keeps [.regs] s (State.applyHbm s im) := by
  unfold State.applyHbm
  try dsimp only
  repeat' (first
    | with_reducible exact Keeps.refl _ _
    | with_reducible assumption
    | ((with_reducible apply Keeps.after (State.setFld_keeps ..)); decide)
    | ((with_reducible apply Keeps.after (State.setReg_keeps ..)); decide)
    | with_reducible refine Keeps.foldl (fun _ _ _ => ?_) ?_
    | split)

theorem State.applyFabric_keeps (s : State) (f : FabricSec) : Keeps [.regs, .units] s (State.applyFabric s f) := by
  unfold State.applyFabric
  try dsimp only
  repeat' (first
    | with_reducible exact Keeps.refl _ _
    | with_reducible assumption
    | ((with_reducible apply Keeps.after (State.setFld_keeps ..)); decide)
    | ((with_reducible apply Keeps.after (State.setFab_keeps ..)); decide)
    | with_reducible refine Keeps.foldl_snd (fun _ _ _ => ?_) ?_
    | with_reducible refine Keeps.foldl (fun _ _ _ => ?_) ?_
    | split)

theorem State.applySidings_keeps (s : State) (l : List SidingRec) : Keeps [.regs] s (State.applySidings s l) := by
  unfold State.applySidings
  try dsimp only
  repeat' (first
    | with_reducible exact Keeps.refl _ _
    | with_reducible assumption
    | ((with_reducible apply Keeps.after (State.setFld_keeps ..)); decide)
    | ((with_reducible apply Keeps.of_eq); assumption)
    | ((with_reducible apply Keeps.of_eq3); assumption)
    | with_reducible refine Keeps.foldl (fun _ _ _ => ?_) ?_
    | split)

theorem State.showBattery_keeps (s : State) : Keeps [.regs] s (State.showBattery s) := by
  unfold State.showBattery
  try dsimp only
  repeat' (first
    | with_reducible exact Keeps.refl _ _
    | with_reducible assumption
    | ((with_reducible apply Keeps.after (State.setFld_keeps ..)); decide)
    | split)

theorem State.readShelf_keeps (s : State) (r : Option ShelfRead) : Keeps [.regs, .out, .gov] s (State.readShelf s r) := by
  unfold State.readShelf
  try dsimp only
  repeat' (first
    | with_reducible exact Keeps.refl _ _
    | with_reducible assumption
    | with_reducible apply Keeps.ite
    | ((with_reducible apply Keeps.after (State.emit_keeps ..)); decide)
    | ((with_reducible apply Keeps.after (State.setFld_keeps ..)); decide)
    | ((with_reducible apply Keeps.after (State.withGov_keeps ..)); decide)
    | ((with_reducible apply Keeps.after (State.showBattery_keeps ..)); decide)
    | ((with_reducible apply Keeps.of_eq); assumption)
    | ((with_reducible apply Keeps.of_eq3); assumption)
    | with_reducible refine Keeps.foldl (fun _ _ _ => ?_) ?_
    | split)

theorem State.loseShelf_keeps (s : State) : Keeps [.regs] s (State.loseShelf s) := by
  unfold State.loseShelf
  try dsimp only
  repeat' (first
    | with_reducible exact Keeps.refl _ _
    | with_reducible assumption
    | ((with_reducible apply Keeps.after (State.setFld_keeps ..)); decide)
    | ((with_reducible apply Keeps.after (State.bump_keeps ..)); decide)
    | ((with_reducible apply Keeps.after (State.showBattery_keeps ..)); decide)
    | split)

theorem State.startGovernor_keeps (s : State) (o : StartObs) : Keeps [.regs, .out, .gov] s (State.startGovernor s o) := by
  unfold State.startGovernor
  try dsimp only
  repeat' (first
    | with_reducible exact Keeps.refl _ _
    | with_reducible assumption
    | with_reducible apply Keeps.ite
    | ((with_reducible apply Keeps.after (State.withGov_keeps ..)); decide)
    | ((with_reducible apply Keeps.after (State.setFld_keeps ..)); decide)
    | ((with_reducible apply Keeps.after (State.setReady_keeps ..)); decide)
    | ((with_reducible apply Keeps.after (State.readShelf_keeps ..)); decide)
    | ((with_reducible apply Keeps.after (State.loseShelf_keeps ..)); decide)
    | split)

theorem State.startPorts_keeps (s : State) : Keeps [.regs, .test, .units] s (State.startPorts s) := by
  unfold State.startPorts
  try dsimp only
  repeat' (first
    | with_reducible exact Keeps.refl _ _
    | with_reducible assumption
    | with_reducible apply Keeps.ite
    | ((with_reducible apply Keeps.after (State.beginAttempt_keeps ..)); decide)
    | ((with_reducible apply Keeps.after (State.attemptFails_keeps ..)); decide)
    | ((with_reducible apply Keeps.after (State.showFabric_keeps ..)); decide)
    | with_reducible refine Keeps.foldl (fun _ _ _ => ?_) ?_
    | split)

theorem State.startMedia_keeps (s : State) (sec : List Byte) (bad : List Nat) : Keeps [.regs, .boot] s (State.startMedia s sec bad) := by
  unfold State.startMedia
  try dsimp only
  repeat' (first
    | with_reducible exact Keeps.refl _ _
    | with_reducible assumption
    | with_reducible apply Keeps.ite
    | ((with_reducible apply Keeps.after (State.addDefect_keeps ..)); decide)
    | ((with_reducible apply Keeps.after (State.setFld_keeps ..)); decide)
    | ((with_reducible apply Keeps.after (State.withBoot_keeps ..)); decide)
    | ((with_reducible apply Keeps.after (State.cutEngines_keeps ..)); decide)
    | ((with_reducible apply Keeps.after (State.setReady_keeps ..)); decide)
    | with_reducible refine Keeps.foldl (fun _ _ _ => ?_) ?_
    | split)

theorem State.msRowFails_keeps (s : State) (x : Nat × Nat × Bool) : Keeps [.regs, .boot] s (State.msRowFails s x) := by
  unfold State.msRowFails
  try dsimp only
  repeat' (first
    | with_reducible exact Keeps.refl _ _
    | with_reducible assumption
    | with_reducible apply Keeps.ite
    | ((with_reducible apply Keeps.after (State.addDefect_keeps ..)); decide)
    | ((with_reducible apply Keeps.after (State.withBoot_keeps ..)); decide)
    | ((with_reducible apply Keeps.after (State.setFld_keeps ..)); decide)
    | split)

theorem State.startMapStore_keeps (s : State) (full : Bool) (rows : List (Nat × Nat × Bool)) : Keeps [.regs, .boot] s (State.startMapStore s full rows) := by
  unfold State.startMapStore
  try dsimp only
  repeat' (first
    | with_reducible exact Keeps.refl _ _
    | with_reducible assumption
    | with_reducible apply Keeps.ite
    | ((with_reducible apply Keeps.after (State.withBoot_keeps ..)); decide)
    | ((with_reducible apply Keeps.after (State.msRowFails_keeps ..)); decide)
    | ((with_reducible apply Keeps.after (State.setReady_keeps ..)); decide)
    | with_reducible refine Keeps.foldl (fun _ _ _ => ?_) ?_
    | split)

theorem State.coreFails_keeps (s : State) (cause : Nat) (x : Nat × Nat) : Keeps [.regs, .boot] s (State.coreFails s cause x) := by
  unfold State.coreFails
  try dsimp only
  repeat' (first
    | with_reducible exact Keeps.refl _ _
    | with_reducible assumption
    | with_reducible apply Keeps.ite
    | ((with_reducible apply Keeps.after (State.withBoot_keeps ..)); decide)
    | ((with_reducible apply Keeps.after (State.addDefect_keeps ..)); decide)
    | split)

theorem State.placeCore_keeps (s : State) (n cd p : Nat) : Keeps [.regs] s (State.placeCore s n cd p) := by
  unfold State.placeCore
  try dsimp only
  repeat' (first
    | with_reducible exact Keeps.refl _ _
    | with_reducible assumption
    | ((with_reducible apply Keeps.after (State.setFld_keeps ..)); decide)
    | with_reducible refine Keeps.foldl_snd (fun _ _ _ => ?_) ?_
    | with_reducible refine Keeps.foldl (fun _ _ _ => ?_) ?_
    | split)

theorem State.showCd_keeps (s : State) (cd first used : Nat) (mesh : Bool) : Keeps [.regs] s (State.showCd s cd first used mesh) := by
  unfold State.showCd
  try dsimp only
  repeat' (first
    | with_reducible exact Keeps.refl _ _
    | with_reducible assumption
    | with_reducible apply Keeps.ite
    | ((with_reducible apply Keeps.after (State.setFld_keeps ..)); decide)
    | split)

theorem State.takeCd_keeps (s : State) (mesh : List Nat) (cd n : Nat) : Keeps [.regs] s (s.takeCd mesh cd n).1 := by
  unfold State.takeCd
  dsimp only
  with_reducible apply Keeps.after (State.showCd_keeps ..) (by decide)
  with_reducible refine Keeps.foldl (fun _ _ h => ?_) (Keeps.refl _ _)
  exact Keeps.after (State.placeCore_keeps ..) (by decide) h

theorem State.quickTest_keeps (s : State) (bad : List (Nat × Nat)) (mesh : List Nat) :
    Keeps [.regs, .boot] s (s.quickTest bad mesh) := by
  unfold State.quickTest
  dsimp only
  with_reducible refine Keeps.foldl (fun _ _ h => ?_) ?_
  · with_reducible exact Keeps.ite (Keeps.after (State.failStack_keeps ..) (by decide) h) h
  · with_reducible apply Keeps.after (State.setFld_keeps ..) (by decide)
    with_reducible refine Keeps.foldl_fst (fun _ _ h => ?_) ?_
    · exact Keeps.after (State.takeCd_keeps ..) (by decide) h
    · with_reducible refine Keeps.foldl (fun _ _ h => ?_) (Keeps.refl _ _)
      exact Keeps.after (State.coreFails_keeps ..) (by decide) h

theorem State.takeSoft_keeps (s : State) (loc : Nat) : Keeps [.regs, .units] s (State.takeSoft s loc) := by
  unfold State.takeSoft
  try dsimp only
  repeat' (first
    | with_reducible exact Keeps.refl _ _
    | with_reducible assumption
    | ((with_reducible apply Keeps.after (State.setFld_keeps ..)); decide)
    | ((with_reducible apply Keeps.after (State.withUnits_keeps ..)); decide)
    | split)

theorem State.advanceRepair_keeps (s : State) (loc r : Nat) : Keeps [.boot] s (State.advanceRepair s loc r) := by
  unfold State.advanceRepair
  try dsimp only
  repeat' (first
    | with_reducible exact Keeps.refl _ _
    | with_reducible assumption
    | with_reducible apply Keeps.ite
    | ((with_reducible apply Keeps.after (State.withBoot_keeps ..)); decide)
    | split)

theorem State.applyRepair_keeps (s : State) (loc r : Nat) : Keeps [.regs, .boot, .units] s (State.applyRepair s loc r) := by
  unfold State.applyRepair
  try dsimp only
  repeat' (first
    | with_reducible exact Keeps.refl _ _
    | with_reducible assumption
    | with_reducible apply Keeps.ite
    | ((with_reducible apply Keeps.after (State.withBoot_keeps ..)); decide)
    | ((with_reducible apply Keeps.after (State.takeSoft_keeps ..)); decide)
    | ((with_reducible apply Keeps.after (State.failStack_keeps ..)); decide)
    | split)

theorem State.startRepairs_keeps (s : State) (left : List Nat) : Keeps [.regs, .boot, .units] s (State.startRepairs s left) := by
  unfold State.startRepairs
  try dsimp only
  repeat' (first
    | with_reducible exact Keeps.refl _ _
    | with_reducible assumption
    | ((with_reducible apply Keeps.after (State.takeSoft_keeps ..)); decide)
    | ((with_reducible apply Keeps.after (State.advanceRepair_keeps ..)); decide)
    | ((with_reducible apply Keeps.after (State.applyRepair_keeps ..)); decide)
    | ((with_reducible apply Keeps.after (State.setFld_keeps ..)); decide)
    | with_reducible refine Keeps.foldl (fun _ _ _ => ?_) ?_
    | split)

theorem State.rowFails_keeps (s : State) (x : Nat × Nat) : Keeps [.regs, .boot, .units] s (State.rowFails s x) := by
  unfold State.rowFails
  try dsimp only
  repeat' (first
    | with_reducible exact Keeps.refl _ _
    | with_reducible assumption
    | with_reducible apply Keeps.ite
    | ((with_reducible apply Keeps.after (State.failStack_keeps ..)); decide)
    | ((with_reducible apply Keeps.after (State.addDefect_keeps ..)); decide)
    | ((with_reducible apply Keeps.after (State.applyRepair_keeps ..)); decide)
    | split)

theorem State.activateTimetable_keeps (s : State) : Keeps [.regs, .sched] s (State.activateTimetable s) := by
  unfold State.activateTimetable
  try dsimp only
  repeat' (first
    | with_reducible exact Keeps.refl _ _
    | with_reducible assumption
    | ((with_reducible apply Keeps.after (State.withSched_keeps ..)); decide)
    | ((with_reducible apply Keeps.after (State.setFld_keeps ..)); decide)
    | ((with_reducible apply Keeps.after (State.setReady_keeps ..)); decide)
    | ((with_reducible apply Keeps.of_eq); assumption)
    | ((with_reducible apply Keeps.of_eq3); assumption)
    | split)

theorem State.settleStart_keeps (s : State) : Keeps [.regs, .sched] s (State.settleStart s) := by
  unfold State.settleStart
  try dsimp only
  repeat' (first
    | with_reducible exact Keeps.refl _ _
    | with_reducible assumption
    | with_reducible apply Keeps.ite
    | ((with_reducible apply Keeps.after (State.setFld_keeps ..)); decide)
    | ((with_reducible apply Keeps.after (State.setReady_keeps ..)); decide)
    | ((with_reducible apply Keeps.after (State.activateTimetable_keeps ..)); decide)
    | ((with_reducible apply Keeps.after (State.showGrd_keeps ..)); decide)
    | ((with_reducible apply Keeps.after (State.setPhase_keeps ..)); decide)
    | ((with_reducible apply Keeps.after (State.showDegraded_keeps ..)); decide)
    | split)

theorem State.stopStart_keeps (s : State) (st : Status) : Keeps [.regs] s (State.stopStart s st) := by
  unfold State.stopStart
  try dsimp only
  repeat' (first
    | with_reducible exact Keeps.refl _ _
    | with_reducible assumption
    | with_reducible apply Keeps.ite
    | ((with_reducible apply Keeps.after (State.setFld_keeps ..)); decide)
    | ((with_reducible apply Keeps.after (State.setPhase_keeps ..)); decide)
    | ((with_reducible apply Keeps.after (State.applyPower_keeps ..)); decide)
    | ((with_reducible apply Keeps.after (State.setReady_keeps ..)); decide)
    | split)

theorem State.initialTables_keeps (s : State) (image : List Byte) : Keeps [.regs] s (State.initialTables s image) := by
  unfold State.initialTables
  try dsimp only
  repeat' (first
    | with_reducible exact Keeps.refl _ _
    | with_reducible assumption
    | ((with_reducible apply Keeps.after (State.setFld_keeps ..)); decide)
    | split)

theorem State.runSteps_keeps (s : State) (full : Bool) (o : StartObs) (im : StructImage) : Keeps [.regs, .mem, .out, .boot, .gov, .test, .cores, .sched, .units] s (State.runSteps s full o im) := by
  unfold State.runSteps
  try dsimp only
  repeat' (first
    | with_reducible exact Keeps.refl _ _
    | with_reducible assumption
    | with_reducible apply Keeps.ite
    | ((with_reducible apply Keeps.after (State.setPhase_keeps ..)); decide)
    | ((with_reducible apply Keeps.after (State.applyClocks_keeps ..)); decide)
    | ((with_reducible apply Keeps.after (State.applyHbm_keeps ..)); decide)
    | ((with_reducible apply Keeps.after (State.setFld_keeps ..)); decide)
    | ((with_reducible apply Keeps.after (State.applySidings_keeps ..)); decide)
    | ((with_reducible apply Keeps.after (State.applyPower_keeps ..)); decide)
    | ((with_reducible apply Keeps.after (State.withBoot_keeps ..)); decide)
    | ((with_reducible apply Keeps.after (State.startGovernor_keeps ..)); decide)
    | ((with_reducible apply Keeps.after (State.setReady_keeps ..)); decide)
    | ((with_reducible apply Keeps.after (State.applyFabric_keeps ..)); decide)
    | ((with_reducible apply Keeps.after (State.startPorts_keeps ..)); decide)
    | ((with_reducible apply Keeps.after (State.startMedia_keeps ..)); decide)
    | ((with_reducible apply Keeps.after (State.startMapStore_keeps ..)); decide)
    | ((with_reducible apply Keeps.after (State.quickTest_keeps ..)); decide)
    | ((with_reducible apply Keeps.after (State.startRepairs_keeps ..)); decide)
    | ((with_reducible apply Keeps.after (State.failStack_keeps ..)); decide)
    | ((with_reducible apply Keeps.after (State.withCores_keeps ..)); decide)
    | ((with_reducible apply Keeps.after (State.putBytes_keeps ..)); decide)
    | ((with_reducible apply Keeps.after (State.initialTables_keeps ..)); decide)
    | ((with_reducible apply Keeps.after (State.settleStart_keeps ..)); decide)
    | with_reducible refine Keeps.foldl (fun _ _ _ => ?_) ?_
    | split)

theorem State.startImage_keeps (s : State) (full : Bool) (o : StartObs) (order : List Nat) (slot k : Nat) : Keeps [.regs, .mem, .out, .boot, .gov, .test, .cores, .sched, .units] s (State.startImage s full o order slot k) := by
  unfold State.startImage
  try dsimp only
  repeat' (first
    | with_reducible exact Keeps.refl _ _
    | with_reducible assumption
    | ((with_reducible apply Keeps.after (State.withBoot_keeps ..)); decide)
    | ((with_reducible apply Keeps.after (State.setReady_keeps ..)); decide)
    | ((with_reducible apply Keeps.after (State.setFld_keeps ..)); decide)
    | ((with_reducible apply Keeps.after (State.runSteps_keeps ..)); decide)
    | split)

theorem State.startBundle_keeps (s : State) (warm full : Bool) (sel : Nat) (o : StartObs) (slot : Nat) : Keeps [.regs, .mem, .out, .boot, .gov, .test, .cores, .sched, .units] s (State.startBundle s warm full sel o slot) := by
  unfold State.startBundle
  try dsimp only
  repeat' (first
    | with_reducible exact Keeps.refl _ _
    | with_reducible assumption
    | with_reducible apply Keeps.ite
    | ((with_reducible apply Keeps.after (State.setReady_keeps ..)); decide)
    | ((with_reducible apply Keeps.after (State.setFld_keeps ..)); decide)
    | ((with_reducible apply Keeps.after (State.stopStart_keeps ..)); decide)
    | ((with_reducible apply Keeps.after (State.withBoot_keeps ..)); decide)
    | ((with_reducible apply Keeps.after (State.showDefects_keeps ..)); decide)
    | ((with_reducible apply Keeps.after (State.setPhase_keeps ..)); decide)
    | ((with_reducible apply Keeps.after (State.startImage_keeps ..)); decide)
    | ((with_reducible apply Keeps.of_eq); assumption)
    | ((with_reducible apply Keeps.of_eq3); assumption)
    | split)

theorem State.startRoot_keeps (s : State) (warm : Bool) (o : StartObs) : Keeps [.free, .regs, .mem, .ecc, .vio, .host, .boot, .gov, .sec, .test, .cores, .sched, .units] s (State.startRoot s warm o) := by
  unfold State.startRoot
  try dsimp only
  repeat' (first
    | with_reducible exact Keeps.refl _ _
    | with_reducible assumption
    | with_reducible apply Keeps.ite
    | ((with_reducible apply Keeps.after (State.stopped_keeps ..)); decide)
    | ((with_reducible apply Keeps.after (State.withSec_keeps ..)); decide)
    | ((with_reducible apply Keeps.after (State.withBoot_keeps ..)); decide)
    | ((with_reducible apply Keeps.after (State.beginStart_keeps ..)); decide)
    | split)

theorem State.start_keeps (s : State) (warm : Bool) (sel : Nat) (o : StartObs) : Keeps [.free, .regs, .mem, .ecc, .vio, .out, .host, .boot, .gov, .sec, .test, .cores, .sched, .units] s (State.start s warm sel o) := by
  unfold State.start
  try dsimp only
  repeat' (first
    | with_reducible exact Keeps.refl _ _
    | with_reducible assumption
    | with_reducible apply Keeps.ite
    | ((with_reducible apply Keeps.after (State.startRoot_keeps ..)); decide)
    | ((with_reducible apply Keeps.after (State.setFld_keeps ..)); decide)
    | ((with_reducible apply Keeps.after (State.startBundle_keeps ..)); decide)
    | ((with_reducible apply Keeps.of_eq); assumption)
    | ((with_reducible apply Keeps.of_eq3); assumption)
    | split)

theorem flashCmdWrite_keeps (sig : SigVerdict) (v : Word) (s : State) : Keeps [.regs, .boot] s (flashCmdWrite sig v s).2 := by
  unfold flashCmdWrite
  try dsimp only
  repeat' (first
    | with_reducible exact Keeps.refl _ _
    | with_reducible assumption
    | with_reducible apply Keeps.ite
    | ((with_reducible apply Keeps.after (State.withBoot_keeps ..)); decide)
    | ((with_reducible apply Keeps.after (State.setFld_keeps ..)); decide)
    | with_reducible apply Keeps.ite_snd
    | split)

theorem State.finishFlash_keeps (s : State) : Keeps [.free, .regs, .mem, .ecc, .vio, .out, .host, .boot, .test, .units] s (State.finishFlash s) := by
  unfold State.finishFlash
  try dsimp only
  repeat' (first
    | with_reducible exact Keeps.refl _ _
    | with_reducible assumption
    | with_reducible apply Keeps.ite
    | ((with_reducible apply Keeps.after (State.eraseSector_keeps ..)); decide)
    | ((with_reducible apply Keeps.after (State.readMem_keeps ..)); decide)
    | ((with_reducible apply Keeps.after (State.writeSector_keeps ..)); decide)
    | ((with_reducible apply Keeps.after (State.withBoot_keeps ..)); decide)
    | ((with_reducible apply Keeps.after (State.setFld_keeps ..)); decide)
    | ((with_reducible apply Keeps.of_eq); assumption)
    | ((with_reducible apply Keeps.of_eq3); assumption)
    | split)

theorem execFlashErase_keeps (q : Fin 4) (n : Fin 1024) (s : State) :
    ∃ nx, execFlashErase q n s = .next nx ∧ Keeps [.regs, .vio, .out, .host, .boot, .test] s nx := by
  refine ⟨_, rfl, ?_⟩
  try dsimp only
  repeat' (first
    | with_reducible exact Keeps.refl _ _
    | with_reducible assumption
    | with_reducible apply Eff.keeps_done
    | with_reducible apply Eff.keeps_fault
    | with_reducible apply Eff.keeps_wait
    | with_reducible apply Eff.keeps_hold
    | with_reducible apply Eff.keeps_ite
    | with_reducible apply Eff.keeps_ite_fst
    | ((with_reducible apply State.regWrite_keeps); decide)
    | ((with_reducible apply Keeps.after (flashCmdWrite_keeps ..)); decide)
    | intro _
    | split)

theorem execFlashProgram_keeps (q : Fin 4) (n : Fin 1024) (src4k : BitVec 28) (s : State) :
    ∃ nx, execFlashProgram q n src4k s = .next nx ∧ Keeps [.regs, .vio, .out, .host, .boot, .test] s nx := by
  refine ⟨_, rfl, ?_⟩
  try dsimp only
  repeat' (first
    | with_reducible exact Keeps.refl _ _
    | with_reducible assumption
    | with_reducible apply Eff.keeps_done
    | with_reducible apply Eff.keeps_fault
    | with_reducible apply Eff.keeps_wait
    | with_reducible apply Eff.keeps_hold
    | with_reducible apply Eff.keeps_ite
    | with_reducible apply Eff.keeps_ite_fst
    | ((with_reducible apply State.regWrite_keeps); decide)
    | ((with_reducible apply Keeps.after (flashCmdWrite_keeps ..)); decide)
    | intro _
    | split)

theorem execFlashVerifySlot_keeps (q : Fin 4) (n : Fin 1024) (sig : SigVerdict) (s : State) :
    ∃ nx, execFlashVerifySlot q n sig s = .next nx ∧ Keeps [.regs, .vio, .out, .host, .boot, .test] s nx := by
  refine ⟨_, rfl, ?_⟩
  try dsimp only
  repeat' (first
    | with_reducible exact Keeps.refl _ _
    | with_reducible assumption
    | with_reducible apply Eff.keeps_done
    | with_reducible apply Eff.keeps_fault
    | with_reducible apply Eff.keeps_wait
    | with_reducible apply Eff.keeps_hold
    | with_reducible apply Eff.keeps_ite
    | with_reducible apply Eff.keeps_ite_fst
    | ((with_reducible apply State.regWrite_keeps); decide)
    | ((with_reducible apply Keeps.after (flashCmdWrite_keeps ..)); decide)
    | intro _
    | split)

theorem execFlashCommandComplete_keeps (s : State) :
    ∃ nx, execFlashCommandComplete s = .next nx ∧ Keeps [.free, .regs, .mem, .ecc, .vio, .out, .host, .boot, .test, .units] s nx := by
  refine ⟨_, rfl, ?_⟩
  try dsimp only
  repeat' (first
    | with_reducible exact Keeps.refl _ _
    | with_reducible assumption
    | with_reducible apply Keeps.ite
    | ((with_reducible apply Keeps.after (State.finishFlash_keeps ..)); decide)
    | split)

theorem State.warmReset_keeps (s : State) (sel : Nat) (o : StartObs) : Keeps [.free, .regs, .mem, .ecc, .vio, .out, .host, .boot, .gov, .sec, .test, .cores, .sched, .units] s (State.warmReset s sel o) := by
  unfold State.warmReset
  try dsimp only
  repeat' (first
    | with_reducible exact Keeps.refl _ _
    | with_reducible assumption
    | ((with_reducible apply Keeps.after (State.finishFlash_keeps ..)); decide)
    | ((with_reducible apply Keeps.after (State.start_keeps ..)); decide)
    | split)

theorem bupResetWrite_keeps (o : StartObs) (v : Word) (s : State) : Keeps [.free, .regs, .mem, .ecc, .vio, .out, .host, .boot, .gov, .sec, .test, .cores, .sched, .units] s (bupResetWrite o v s).2 := by
  unfold bupResetWrite
  try dsimp only
  repeat' (first
    | with_reducible exact Keeps.refl _ _
    | with_reducible assumption
    | with_reducible apply Keeps.ite
    | ((with_reducible apply Keeps.after (State.warmReset_keeps ..)); decide)
    | with_reducible apply Keeps.ite_snd
    | split)

theorem execBupReset_keeps (q : Fin 4) (key : BitVec 8) (slot : BitVec 2) (o : StartObs) (s : State) :
    ∃ nx, execBupReset q key slot o s = .next nx ∧ Keeps [.free, .regs, .mem, .ecc, .vio, .out, .host, .boot, .gov, .sec, .test, .cores, .sched, .units] s nx := by
  refine ⟨_, rfl, ?_⟩
  try dsimp only
  repeat' (first
    | with_reducible exact Keeps.refl _ _
    | with_reducible assumption
    | with_reducible apply Eff.keeps_done
    | with_reducible apply Eff.keeps_fault
    | with_reducible apply Eff.keeps_wait
    | with_reducible apply Eff.keeps_hold
    | with_reducible apply Eff.keeps_ite
    | with_reducible apply Eff.keeps_ite_fst
    | ((with_reducible apply State.regWrite_keeps); decide)
    | ((with_reducible apply Keeps.after (bupResetWrite_keeps ..)); decide)
    | intro _
    | split)

theorem State.takeProgrammed_keeps (s : State) (l : FlashImage) : Keeps [.boot] s (State.takeProgrammed s l) := by
  unfold State.takeProgrammed
  try dsimp only
  repeat' (first
    | with_reducible exact Keeps.refl _ _
    | with_reducible assumption
    | with_reducible apply Keeps.ite
    | ((with_reducible apply Keeps.after (State.withBoot_keeps ..)); decide)
    | with_reducible refine Keeps.foldl_snd (fun _ _ _ => ?_) ?_
    | with_reducible refine Keeps.foldl (fun _ _ _ => ?_) ?_
    | split)

theorem State.coldStart_keeps (s : State) (o : StartObs) : Keeps [.time, .free, .regs, .mem, .ecc, .vio, .out, .host, .boot, .gov, .sec, .test, .cores, .sched, .units] s (State.coldStart s o) := by
  unfold State.coldStart
  try dsimp only
  repeat' (first
    | with_reducible exact Keeps.refl _ _
    | with_reducible assumption
    | ((with_reducible apply Keeps.after (State.withTime_keeps ..)); decide)
    | ((with_reducible apply Keeps.after (State.withBoot_keeps ..)); decide)
    | ((with_reducible apply Keeps.after (State.start_keeps ..)); decide)
    | split)

theorem execPowerGoodRise_keeps (o : StartObs) (s : State) :
    ∃ nx, execPowerGoodRise o s = .next nx ∧ Keeps [.time, .free, .regs, .mem, .ecc, .vio, .out, .host, .boot, .gov, .sec, .test, .cores, .sched, .units] s nx := by
  refine ⟨_, rfl, ?_⟩
  try dsimp only
  repeat' (first
    | with_reducible exact Keeps.refl _ _
    | with_reducible assumption
    | with_reducible apply Keeps.ite
    | ((with_reducible apply Keeps.after (State.takeProgrammed_keeps ..)); decide)
    | ((with_reducible apply Keeps.after (State.withBoot_keeps ..)); decide)
    | ((with_reducible apply Keeps.after (State.coldStart_keeps ..)); decide)
    | split)

theorem State.loseSupply_keeps (s : State) : Keeps [.regs, .mem, .ecc, .vio, .host, .boot, .gov, .sec, .test, .cores, .sched, .units] s (State.loseSupply s) := by
  unfold State.loseSupply
  try dsimp only
  repeat' (first
    | with_reducible exact Keeps.refl _ _
    | with_reducible assumption
    | ((with_reducible apply Keeps.after (State.stopped_keeps ..)); decide)
    | ((with_reducible apply Keeps.after (State.withBoot_keeps ..)); decide)
    | split)

theorem execPowerGoodFall_keeps (s : State) :
    ∃ nx, execPowerGoodFall s = .next nx ∧ Keeps [.regs, .mem, .ecc, .vio, .host, .boot, .gov, .sec, .test, .cores, .sched, .units] s nx := by
  refine ⟨_, rfl, ?_⟩
  try dsimp only
  repeat' (first
    | with_reducible exact Keeps.refl _ _
    | with_reducible assumption
    | with_reducible apply Keeps.ite
    | ((with_reducible apply Keeps.after (State.loseSupply_keeps ..)); decide)
    | ((with_reducible apply Keeps.after (State.withBoot_keeps ..)); decide)
    | split)

theorem execResetNFall_keeps (s : State) :
    ∃ nx, execResetNFall s = .next nx ∧ Keeps [.regs, .mem, .ecc, .vio, .host, .boot, .gov, .sec, .test, .cores, .sched, .units] s nx := by
  refine ⟨_, rfl, ?_⟩
  try dsimp only
  repeat' (first
    | with_reducible exact Keeps.refl _ _
    | with_reducible assumption
    | with_reducible apply Keeps.ite
    | ((with_reducible apply Keeps.after (State.loseSupply_keeps ..)); decide)
    | ((with_reducible apply Keeps.after (State.withBoot_keeps ..)); decide)
    | split)

theorem execFlashEnNFall_keeps (s : State) :
    ∃ nx, execFlashEnNFall s = .next nx ∧ Keeps [.boot] s nx := by
  refine ⟨_, rfl, ?_⟩
  try dsimp only
  repeat' (first
    | with_reducible exact Keeps.refl _ _
    | with_reducible assumption
    | ((with_reducible apply Keeps.after (State.withBoot_keeps ..)); decide)
    | split)

theorem execFlashEnNRise_keeps (o : StartObs) (s : State) :
    ∃ nx, execFlashEnNRise o s = .next nx ∧ Keeps [.time, .free, .regs, .mem, .ecc, .vio, .out, .host, .boot, .gov, .sec, .test, .cores, .sched, .units] s nx := by
  refine ⟨_, rfl, ?_⟩
  try dsimp only
  repeat' (first
    | with_reducible exact Keeps.refl _ _
    | with_reducible assumption
    | with_reducible apply Keeps.ite
    | ((with_reducible apply Keeps.after (State.takeProgrammed_keeps ..)); decide)
    | ((with_reducible apply Keeps.after (State.withBoot_keeps ..)); decide)
    | ((with_reducible apply Keeps.after (State.coldStart_keeps ..)); decide)
    | split)

theorem execSdsclkLoss_keeps (s : State) :
    ∃ nx, execSdsclkLoss s = .next nx ∧ Keeps [.regs, .boot, .test, .units] s nx := by
  refine ⟨_, rfl, ?_⟩
  try dsimp only
  repeat' (first
    | with_reducible exact Keeps.refl _ _
    | with_reducible assumption
    | with_reducible apply Keeps.ite
    | ((with_reducible apply Keeps.after (State.withBoot_keeps ..)); decide)
    | ((with_reducible apply Keeps.after (State.setFld_keeps ..)); decide)
    | ((with_reducible apply Keeps.after (State.leaveService_keeps ..)); decide)
    | ((with_reducible apply Keeps.after (State.linkLost_keeps ..)); decide)
    | with_reducible refine Keeps.foldl (fun _ _ _ => ?_) ?_
    | split)

theorem execSdsclkReturn_keeps (s : State) :
    ∃ nx, execSdsclkReturn s = .next nx ∧ Keeps [.regs, .boot] s nx := by
  refine ⟨_, rfl, ?_⟩
  try dsimp only
  repeat' (first
    | with_reducible exact Keeps.refl _ _
    | with_reducible assumption
    | with_reducible apply Keeps.ite
    | ((with_reducible apply Keeps.after (State.withBoot_keeps ..)); decide)
    | ((with_reducible apply Keeps.after (State.setFld_keeps ..)); decide)
    | split)

theorem execRecoveryAreaReady_keeps (s : State) :
    ∃ nx, execRecoveryAreaReady s = .next nx ∧ Keeps [.regs, .mem, .ecc] s nx := by
  refine ⟨_, rfl, ?_⟩
  try dsimp only
  repeat' (first
    | with_reducible exact Keeps.refl _ _
    | with_reducible assumption
    | with_reducible apply Keeps.ite
    | ((with_reducible apply Keeps.after (State.applyClocks_keeps ..)); decide)
    | ((with_reducible apply Keeps.after (State.wipe_keeps ..)); decide)
    | ((with_reducible apply Keeps.after (State.setFld_keeps ..)); decide)
    | split)

theorem execHbmTestDone_keeps (o : HbmObs) (s : State) :
    ∃ nx, execHbmTestDone o s = .next nx ∧ Keeps [.regs, .mem, .ecc, .boot, .sched, .units] s nx := by
  refine ⟨_, rfl, ?_⟩
  try dsimp only
  repeat' (first
    | with_reducible exact Keeps.refl _ _
    | with_reducible assumption
    | with_reducible apply Keeps.ite
    | ((with_reducible apply Keeps.after (State.withBoot_keeps ..)); decide)
    | ((with_reducible apply Keeps.after (State.failStack_keeps ..)); decide)
    | ((with_reducible apply Keeps.after (State.rowFails_keeps ..)); decide)
    | ((with_reducible apply Keeps.after (State.setFld_keeps ..)); decide)
    | ((with_reducible apply Keeps.after (State.wipe_keeps ..)); decide)
    | ((with_reducible apply Keeps.after (State.setReady_keeps ..)); decide)
    | ((with_reducible apply Keeps.after (State.settleStart_keeps ..)); decide)
    | with_reducible refine Keeps.foldl (fun _ _ _ => ?_) ?_
    | split)

theorem State.fwSegment_keeps (s : State) (seg : Nat) : Keeps [.free, .regs, .mem, .ecc, .vio, .out, .host, .boot, .test, .units] s (State.fwSegment s seg).2.2 := by
  unfold State.fwSegment
  try dsimp only
  repeat' (first
    | with_reducible exact Keeps.refl _ _
    | with_reducible assumption
    | ((with_reducible apply Keeps.after (State.meetRead_keeps ..)); decide)
    | split)

theorem State.showFw_keeps (s : State) (n : Nat) : Keeps [.regs] s (State.showFw s n) := by
  unfold State.showFw
  try dsimp only
  repeat' (first
    | with_reducible exact Keeps.refl _ _
    | with_reducible assumption
    | with_reducible apply Keeps.ite
    | ((with_reducible apply Keeps.after (State.setFld_keeps ..)); decide)
    | with_reducible refine Keeps.foldl_snd (fun _ _ _ => ?_) ?_
    | with_reducible refine Keeps.foldl (fun _ _ _ => ?_) ?_
    | split)

theorem State.setFw_keeps (s : State) (n : Nat) (f : FwLoad) : Keeps [.regs, .cores] s (State.setFw s n f) := by
  unfold State.setFw
  try dsimp only
  repeat' (first
    | with_reducible exact Keeps.refl _ _
    | with_reducible assumption
    | ((with_reducible apply Keeps.after (State.setCore_keeps ..)); decide)
    | ((with_reducible apply Keeps.after (State.showFw_keeps ..)); decide)
    | split)

theorem execFwSegmentMessage_keeps (n : Fin 2048) (msg : List Byte) (s : State) :
    ∃ nx, execFwSegmentMessage n msg s = .next nx ∧ Keeps [.regs, .cores] s nx := by
  refine ⟨_, rfl, ?_⟩
  try dsimp only
  repeat' (first
    | with_reducible exact Keeps.refl _ _
    | with_reducible assumption
    | with_reducible apply Keeps.ite
    | ((with_reducible apply Keeps.after (State.setFw_keeps ..)); decide)
    | split)

theorem State.pull_keeps (s : State) (n imageId : Nat) (segs missed : List Nat) : Keeps [.free, .regs, .mem, .ecc, .vio, .out, .host, .boot, .test, .cores, .units] s (State.pull s n imageId segs missed) := by
  unfold State.pull
  try dsimp only
  repeat' (first
    | with_reducible exact Keeps.refl _ _
    | with_reducible assumption
    | with_reducible apply Keeps.ite
    | ((with_reducible apply Keeps.after (State.fwSegment_keeps ..)); decide)
    | ((with_reducible apply Keeps.after (State.setFw_keeps ..)); decide)
    | with_reducible refine Keeps.foldl_snd (fun _ _ _ => ?_) ?_
    | with_reducible refine Keeps.foldl (fun _ _ _ => ?_) ?_
    | split)

theorem State.removeCore_keeps (s : State) (n : Nat) : Keeps [.regs, .cores] s (State.removeCore s n) := by
  unfold State.removeCore
  try dsimp only
  repeat' (first
    | with_reducible exact Keeps.refl _ _
    | with_reducible assumption
    | ((with_reducible apply Keeps.after (State.setReg_keeps ..)); decide)
    | ((with_reducible apply Keeps.after (State.setCore_keeps ..)); decide)
    | ((with_reducible apply Keeps.after (State.setFld_keeps ..)); decide)
    | ((with_reducible apply Keeps.after (State.showCd_keeps ..)); decide)
    | with_reducible refine Keeps.foldl (fun _ _ _ => ?_) ?_
    | split)

theorem State.coreDefective_keeps (s : State) (n imageId : Nat) (missed : List Nat) : Keeps [.free, .regs, .mem, .ecc, .vio, .out, .host, .boot, .test, .cores, .units] s (State.coreDefective s n imageId missed) := by
  unfold State.coreDefective
  try dsimp only
  repeat' (first
    | with_reducible exact Keeps.refl _ _
    | with_reducible assumption
    | ((with_reducible apply Keeps.after (State.setFld_keeps ..)); decide)
    | ((with_reducible apply Keeps.after (State.coreFails_keeps ..)); decide)
    | ((with_reducible apply Keeps.after (State.removeCore_keeps ..)); decide)
    | ((with_reducible apply Keeps.after (State.setCore_keeps ..)); decide)
    | ((with_reducible apply Keeps.after (State.placeCore_keeps ..)); decide)
    | ((with_reducible apply Keeps.after (State.showCd_keeps ..)); decide)
    | ((with_reducible apply Keeps.after (State.showFw_keeps ..)); decide)
    | ((with_reducible apply Keeps.after (State.pull_keeps ..)); decide)
    | ((with_reducible apply Keeps.of_eq); assumption)
    | ((with_reducible apply Keeps.of_eq3); assumption)
    | split)

theorem State.judgeFw_keeps (s : State) (n imageId : Nat) (missed : List Nat) (k : Nat) :
    Keeps [.free, .regs, .mem, .ecc, .vio, .out, .host, .boot, .test, .cores, .units] s (s.judgeFw n imageId missed k) := by
  induction k generalizing s with
  | zero => exact Keeps.refl _ _
  | succ k ih =>
    unfold State.judgeFw
    dsimp only
    repeat' (first
      | with_reducible exact Keeps.refl _ _
      | with_reducible apply Keeps.ite
      | ((with_reducible apply Keeps.after (ih ..)); decide)
      | ((with_reducible apply Keeps.after (State.setFld_keeps ..)); decide)
      | ((with_reducible apply Keeps.after (State.setFw_keeps ..)); decide)
      | ((with_reducible apply Keeps.after (State.pull_keeps ..)); decide)
      | ((with_reducible apply Keeps.after (State.coreDefective_keeps ..)); decide))

theorem execFwEndMessage_keeps (n : Fin 2048) (imageId : Fin 65536) (missed : List Nat) (s : State) :
    ∃ nx, execFwEndMessage n imageId missed s = .next nx ∧ Keeps [.free, .regs, .mem, .ecc, .vio, .out, .host, .boot, .test, .cores, .sched, .units] s nx := by
  refine ⟨_, rfl, ?_⟩
  try dsimp only
  repeat' (first
    | with_reducible exact Keeps.refl _ _
    | with_reducible assumption
    | with_reducible apply Keeps.ite
    | ((with_reducible apply Keeps.after (State.pull_keeps ..)); decide)
    | ((with_reducible apply Keeps.after (State.judgeFw_keeps ..)); decide)
    | ((with_reducible apply Keeps.after (State.settleStart_keeps ..)); decide)
    | split)

theorem execFwPullTimeout_keeps (n : Fin 2048) (seg : Fin 64) (imageId : Fin 65536) (missed : List Nat) (s : State) :
    ∃ nx, execFwPullTimeout n seg imageId missed s = .next nx ∧ Keeps [.free, .regs, .mem, .ecc, .vio, .out, .host, .boot, .test, .cores, .sched, .units] s nx := by
  refine ⟨_, rfl, ?_⟩
  try dsimp only
  repeat' (first
    | with_reducible exact Keeps.refl _ _
    | with_reducible assumption
    | with_reducible apply Keeps.ite
    | ((with_reducible apply Keeps.after (State.setFw_keeps ..)); decide)
    | ((with_reducible apply Keeps.after (State.coreDefective_keeps ..)); decide)
    | ((with_reducible apply Keeps.after (State.pull_keeps ..)); decide)
    | ((with_reducible apply Keeps.after (State.judgeFw_keeps ..)); decide)
    | ((with_reducible apply Keeps.after (State.settleStart_keeps ..)); decide)
    | split)

end Sys2Proof.Machine
end

