-- ==== Sys2Proof/Laws/KeepsMedia.lean ====
section
/-! SUPPORT. What the operations of Machine/Media.lean may change: one law each. -/

namespace Sys2Proof.Machine

theorem State.setMed_keeps (s : State) (m : MedUnit) : Keeps [.units] s (State.setMed s m) := by
  unfold State.setMed
  try dsimp only
  repeat' (first
    | with_reducible exact Keeps.refl _ _
    | with_reducible assumption
    | ((with_reducible apply Keeps.after (State.withUnits_keeps ..)); decide)
    | split)

theorem State.setStream_keeps (s : State) (n : Nat) (x : Stream) : Keeps [.units] s (State.setStream s n x) := by
  unfold State.setStream
  try dsimp only
  repeat' (first
    | with_reducible exact Keeps.refl _ _
    | with_reducible assumption
    | ((with_reducible apply Keeps.after (State.setMed_keeps ..)); decide)
    | split)

theorem State.showOpen_keeps (s : State) : Keeps [.regs] s (State.showOpen s) := by
  unfold State.showOpen
  try dsimp only
  repeat' (first
    | with_reducible exact Keeps.refl _ _
    | with_reducible assumption
    | ((with_reducible apply Keeps.after (State.setFld_keeps ..)); decide)
    | split)

theorem State.setBusy_keeps (s : State) (enc : Bool) (l : List Nat) (v : Nat) : Keeps [.regs] s (State.setBusy s enc l v) := by
  unfold State.setBusy
  try dsimp only
  repeat' (first
    | with_reducible exact Keeps.refl _ _
    | with_reducible assumption
    | with_reducible apply Keeps.ite
    | ((with_reducible apply Keeps.after (State.setFld_keeps ..)); decide)
    | with_reducible refine Keeps.foldl (fun _ _ _ => ?_) ?_
    | split)

theorem State.dropRun_keeps (s : State) (n : Nat) : Keeps [.regs, .units] s (State.dropRun s n) := by
  unfold State.dropRun
  try dsimp only
  repeat' (first
    | with_reducible exact Keeps.refl _ _
    | with_reducible assumption
    | ((with_reducible apply Keeps.after (State.setBusy_keeps ..)); decide)
    | ((with_reducible apply Keeps.after (State.setStream_keeps ..)); decide)
    | ((with_reducible apply Keeps.of_eq); assumption)
    | ((with_reducible apply Keeps.of_eq3); assumption)
    | split)

theorem State.medStop_keeps (s : State) (n : Nat) (st : Status) (addr : Nat) : Keeps [.regs, .vio, .out, .host, .test, .units] s (State.medStop s n st addr) := by
  unfold State.medStop
  try dsimp only
  repeat' (first
    | with_reducible exact Keeps.refl _ _
    | with_reducible assumption
    | ((with_reducible apply Keeps.after (State.dropRun_keeps ..)); decide)
    | ((with_reducible apply Keeps.after (State.setFld_keeps ..)); decide)
    | ((with_reducible apply Keeps.after (State.bump_keeps ..)); decide)
    | ((with_reducible apply Keeps.after (State.log_keeps ..)); decide)
    | split)

theorem State.medRead_keeps (s : State) (n a len : Nat) : Keeps [.free, .regs, .mem, .ecc, .vio, .out, .host, .boot, .test, .units] s (State.medRead s n a len).2 := by
  unfold State.medRead
  try dsimp only
  repeat' (first
    | with_reducible exact Keeps.refl _ _
    | with_reducible assumption
    | ((with_reducible apply Keeps.after (State.readCheck_keeps ..)); decide)
    | split)

theorem State.medWrite_keeps (s : State) (a : Nat) (l : List Byte) : Keeps [.free, .regs, .mem, .ecc, .boot, .units] s (State.medWrite s a l) := by
  unfold State.medWrite
  try dsimp only
  repeat' (first
    | with_reducible exact Keeps.refl _ _
    | with_reducible assumption
    | ((with_reducible apply Keeps.after (State.writeMem_keeps ..)); decide)
    | split)

theorem medSubmitWrite_keeps (v : Word) (s : State) : Keeps [.regs, .units] s (medSubmitWrite v s).2 := by
  unfold medSubmitWrite
  try dsimp only
  repeat' (first
    | with_reducible exact Keeps.refl _ _
    | with_reducible assumption
    | with_reducible apply Keeps.ite
    | ((with_reducible apply Keeps.after (State.setMed_keeps ..)); decide)
    | ((with_reducible apply Keeps.after (State.setFld_keeps ..)); decide)
    | with_reducible apply Keeps.ite_snd
    | split)

theorem execMedCmdSubmit_keeps (q : Fin 4) (v : Word) (s : State) :
    ∃ nx, execMedCmdSubmit q v s = .next nx ∧ Keeps [.regs, .vio, .out, .host, .test, .units] s nx := by
  refine ⟨_, rfl, ?_⟩
  try dsimp only
  repeat' (first
    | with_reducible exact Keeps.refl _ _
    | with_reducible assumption
    | with_reducible apply Eff.keeps_done
    | with_reducible apply Eff.keeps_fault
    | with_reducible apply Eff.keeps_wait
    | with_reducible apply Eff.keeps_hold
    | with_reducible apply Eff.keeps_ite
    | with_reducible apply Eff.keeps_ite_fst
    | ((with_reducible apply State.regWrite_keeps); decide)
    | ((with_reducible apply Keeps.after (medSubmitWrite_keeps ..)); decide)
    | intro _
    | split)

theorem State.medComplete_keeps (s : State) (a op n : Nat) (st : Status) : Keeps [.free, .regs, .mem, .ecc, .boot, .units] s (State.medComplete s a op n st) := by
  unfold State.medComplete
  try dsimp only
  repeat' (first
    | with_reducible exact Keeps.refl _ _
    | with_reducible assumption
    | ((with_reducible apply Keeps.after (State.medWrite_keeps ..)); decide)
    | ((with_reducible apply Keeps.after (State.bumpWrap_keeps ..)); decide)
    | ((with_reducible apply Keeps.after (State.setFld_keeps ..)); decide)
    | split)

theorem State.medExec_keeps {k : List Part} {s0 : State} (s : State) (op : Nat) (f : Nat → Nat → State → Status × State)
    (hk : ([.free, .regs, .mem, .ecc, .vio, .out, .host, .boot, .test, .units] : List Part).all k.contains = true) (hf : ∀ n a s, Keeps k s (f n a s).2) (h0 : Keeps k s0 s) :
    Keeps k s0 (s.medExec op f) := by
  refine Keeps.after ?_ (Part.sub_refl _) h0
  unfold State.medExec
  split
  · exact Keeps.refl _ _
  · next a rest _ =>
    have h1 : Keeps k s ((s.medRead 0 a 64).2.setMed { (s.medRead 0 a 64).2.med with queue := rest }) :=
      Keeps.after (Keeps.after (State.setMed_keeps ..) (by decide) (Keeps.after (State.medRead_keeps ..) (by decide)
        (Keeps.refl [.free, .regs, .mem, .ecc, .vio, .out, .host, .boot, .test, .units] _))) hk (Keeps.refl _ _)
    have done : ∀ u a op n st, Keeps k s u → Keeps k s (State.medComplete u a op n st) := fun u a op n st hu =>
      Keeps.after (State.medComplete_keeps ..) (Part.sub_trans (b := [.free, .regs, .mem, .ecc, .vio, .out, .host, .boot, .test, .units]) (by decide) hk) hu
    dsimp only
    refine Keeps.ite (done _ _ _ _ _ h1) (Keeps.ite (done _ _ _ _ _ h1) (Keeps.ite (Keeps.refl _ _)
      (Keeps.ite (done _ _ _ _ _ h1) (Keeps.ite ?_ (done _ _ _ _ _ h1)))))
    exact done _ _ _ _ _ (Keeps.after (hf _ _ _) (Part.sub_refl _) h1)

theorem medOpen_keeps (n addr : Nat) (s : State) : Keeps [.free, .regs, .mem, .ecc, .vio, .out, .host, .boot, .test, .units] s (medOpen n addr s).2 := by
  unfold medOpen
  try dsimp only
  repeat' (first
    | with_reducible exact Keeps.refl _ _
    | with_reducible assumption
    | with_reducible apply Keeps.ite
    | ((with_reducible apply Keeps.after (State.medRead_keeps ..)); decide)
    | ((with_reducible apply Keeps.after (State.setReg_keeps ..)); decide)
    | ((with_reducible apply Keeps.after (State.setStream_keeps ..)); decide)
    | ((with_reducible apply Keeps.after (State.showOpen_keeps ..)); decide)
    | with_reducible apply Keeps.ite_snd
    | split)

theorem execMedOpen_keeps (s : State) :
    ∃ nx, execMedOpen s = .next nx ∧ Keeps [.free, .regs, .mem, .ecc, .vio, .out, .host, .boot, .test, .units] s nx := by
  refine ⟨_, rfl, ?_⟩
  try dsimp only
  repeat' (first
    | with_reducible exact Keeps.refl _ _
    | with_reducible assumption
    | with_reducible apply Eff.keeps_done
    | with_reducible apply Eff.keeps_fault
    | with_reducible apply Eff.keeps_wait
    | with_reducible apply Eff.keeps_hold
    | with_reducible apply Eff.keeps_ite
    | with_reducible apply Eff.keeps_ite_fst
    | ((with_reducible apply State.medExec_keeps); decide)
    | ((with_reducible apply Keeps.after (medOpen_keeps ..)); decide)
    | intro _
    | split)

theorem medClose_keeps (n _addr : Nat) (s : State) : Keeps [.regs, .units] s (medClose n _addr s).2 := by
  unfold medClose
  try dsimp only
  repeat' (first
    | with_reducible exact Keeps.refl _ _
    | with_reducible assumption
    | with_reducible apply Keeps.ite
    | ((with_reducible apply Keeps.after (State.dropRun_keeps ..)); decide)
    | ((with_reducible apply Keeps.after (State.setReg_keeps ..)); decide)
    | ((with_reducible apply Keeps.after (State.setMed_keeps ..)); decide)
    | ((with_reducible apply Keeps.after (State.showOpen_keeps ..)); decide)
    | with_reducible apply Keeps.ite_snd
    | split)

theorem execMedClose_keeps (s : State) :
    ∃ nx, execMedClose s = .next nx ∧ Keeps [.free, .regs, .mem, .ecc, .vio, .out, .host, .boot, .test, .units] s nx := by
  refine ⟨_, rfl, ?_⟩
  try dsimp only
  repeat' (first
    | with_reducible exact Keeps.refl _ _
    | with_reducible assumption
    | with_reducible apply Eff.keeps_done
    | with_reducible apply Eff.keeps_fault
    | with_reducible apply Eff.keeps_wait
    | with_reducible apply Eff.keeps_hold
    | with_reducible apply Eff.keeps_ite
    | with_reducible apply Eff.keeps_ite_fst
    | ((with_reducible apply State.medExec_keeps); decide)
    | ((with_reducible apply Keeps.after (medClose_keeps ..)); decide)
    | intro _
    | split)

theorem State.putPicture_keeps (s : State) (d : StreamDesc) (slot : Nat) (p : Picture) : Keeps [.free, .regs, .mem, .ecc, .boot, .units] s (State.putPicture s d slot p) := by
  unfold State.putPicture
  try dsimp only
  repeat' (first
    | with_reducible exact Keeps.refl _ _
    | with_reducible assumption
    | ((with_reducible apply Keeps.after (State.medWrite_keeps ..)); decide)
    | with_reducible refine Keeps.foldl (fun _ _ _ => ?_) ?_
    | split)

theorem State.flushOut_keeps (s : State) (n : Nat) : Keeps [.free, .regs, .mem, .ecc, .boot, .units] s (State.flushOut s n) := by
  unfold State.flushOut
  try dsimp only
  repeat' (first
    | with_reducible exact Keeps.refl _ _
    | with_reducible assumption
    | with_reducible apply Keeps.ite
    | ((with_reducible apply Keeps.after (State.setStream_keeps ..)); decide)
    | ((with_reducible apply Keeps.after (State.bumpWrap_keeps ..)); decide)
    | ((with_reducible apply Keeps.after (State.putPicture_keeps ..)); decide)
    | ((with_reducible apply Keeps.after (State.medWrite_keeps ..)); decide)
    | ((with_reducible apply Keeps.of_eq); assumption)
    | ((with_reducible apply Keeps.of_eq3); assumption)
    | with_reducible refine Keeps.foldl (fun _ _ _ => ?_) ?_
    | split)

theorem State.drainStream_keeps (s : State) (n : Nat) : Keeps [.free, .regs, .mem, .ecc, .boot, .units] s (State.drainStream s n) := by
  unfold State.drainStream
  try dsimp only
  repeat' (first
    | with_reducible exact Keeps.refl _ _
    | with_reducible assumption
    | with_reducible apply Keeps.ite
    | ((with_reducible apply Keeps.after (State.setStream_keeps ..)); decide)
    | ((with_reducible apply Keeps.after (State.flushOut_keeps ..)); decide)
    | ((with_reducible apply Keeps.after (State.setFld_keeps ..)); decide)
    | ((with_reducible apply Keeps.of_eq); assumption)
    | ((with_reducible apply Keeps.of_eq3); assumption)
    | split)

theorem medFlush_keeps (n _addr : Nat) (s : State) : Keeps [.free, .regs, .mem, .ecc, .boot, .units] s (medFlush n _addr s).2 := by
  unfold medFlush
  try dsimp only
  repeat' (first
    | with_reducible exact Keeps.refl _ _
    | with_reducible assumption
    | with_reducible apply Keeps.ite
    | ((with_reducible apply Keeps.after (State.setFld_keeps ..)); decide)
    | ((with_reducible apply Keeps.after (State.drainStream_keeps ..)); decide)
    | with_reducible apply Keeps.ite_snd
    | split)

theorem execMedFlush_keeps (s : State) :
    ∃ nx, execMedFlush s = .next nx ∧ Keeps [.free, .regs, .mem, .ecc, .vio, .out, .host, .boot, .test, .units] s nx := by
  refine ⟨_, rfl, ?_⟩
  try dsimp only
  repeat' (first
    | with_reducible exact Keeps.refl _ _
    | with_reducible assumption
    | with_reducible apply Eff.keeps_done
    | with_reducible apply Eff.keeps_fault
    | with_reducible apply Eff.keeps_wait
    | with_reducible apply Eff.keeps_hold
    | with_reducible apply Eff.keeps_ite
    | with_reducible apply Eff.keeps_ite_fst
    | ((with_reducible apply State.medExec_keeps); decide)
    | ((with_reducible apply Keeps.after (medFlush_keeps ..)); decide)
    | intro _
    | split)

theorem medRoi_keeps (n addr : Nat) (s : State) : Keeps [.free, .regs, .mem, .ecc, .vio, .out, .host, .boot, .test, .units] s (medRoi n addr s).2 := by
  unfold medRoi
  try dsimp only
  repeat' (first
    | with_reducible exact Keeps.refl _ _
    | with_reducible assumption
    | with_reducible apply Keeps.ite
    | ((with_reducible apply Keeps.after (State.medRead_keeps ..)); decide)
    | ((with_reducible apply Keeps.after (State.setStream_keeps ..)); decide)
    | ((with_reducible apply Keeps.of_eq); assumption)
    | ((with_reducible apply Keeps.of_eq3); assumption)
    | with_reducible apply Keeps.ite_snd
    | split)

theorem execRoiSet_keeps (s : State) :
    ∃ nx, execRoiSet s = .next nx ∧ Keeps [.free, .regs, .mem, .ecc, .vio, .out, .host, .boot, .test, .units] s nx := by
  refine ⟨_, rfl, ?_⟩
  try dsimp only
  repeat' (first
    | with_reducible exact Keeps.refl _ _
    | with_reducible assumption
    | with_reducible apply Eff.keeps_done
    | with_reducible apply Eff.keeps_fault
    | with_reducible apply Eff.keeps_wait
    | with_reducible apply Eff.keeps_hold
    | with_reducible apply Eff.keeps_ite
    | with_reducible apply Eff.keeps_ite_fst
    | ((with_reducible apply State.medExec_keeps); decide)
    | ((with_reducible apply Keeps.after (medRoi_keeps ..)); decide)
    | intro _
    | split)

theorem medRate_keeps (n addr : Nat) (s : State) : Keeps [.free, .regs, .mem, .ecc, .vio, .out, .host, .boot, .test, .units] s (medRate n addr s).2 := by
  unfold medRate
  try dsimp only
  repeat' (first
    | with_reducible exact Keeps.refl _ _
    | with_reducible assumption
    | with_reducible apply Keeps.ite
    | ((with_reducible apply Keeps.after (State.medRead_keeps ..)); decide)
    | ((with_reducible apply Keeps.after (State.setStream_keeps ..)); decide)
    | ((with_reducible apply Keeps.of_eq); assumption)
    | ((with_reducible apply Keeps.of_eq3); assumption)
    | with_reducible apply Keeps.ite_snd
    | split)

theorem execRateSet_keeps (s : State) :
    ∃ nx, execRateSet s = .next nx ∧ Keeps [.free, .regs, .mem, .ecc, .vio, .out, .host, .boot, .test, .units] s nx := by
  refine ⟨_, rfl, ?_⟩
  try dsimp only
  repeat' (first
    | with_reducible exact Keeps.refl _ _
    | with_reducible assumption
    | with_reducible apply Eff.keeps_done
    | with_reducible apply Eff.keeps_fault
    | with_reducible apply Eff.keeps_wait
    | with_reducible apply Eff.keeps_hold
    | with_reducible apply Eff.keeps_ite
    | with_reducible apply Eff.keeps_ite_fst
    | ((with_reducible apply State.medExec_keeps); decide)
    | ((with_reducible apply Keeps.after (medRate_keeps ..)); decide)
    | intro _
    | split)

theorem medKey_keeps (n _addr : Nat) (s : State) : Keeps [.units] s (medKey n _addr s).2 := by
  unfold medKey
  try dsimp only
  repeat' (first
    | with_reducible exact Keeps.refl _ _
    | with_reducible assumption
    | ((with_reducible apply Keeps.after (State.setStream_keeps ..)); decide)
    | ((with_reducible apply Keeps.of_eq); assumption)
    | ((with_reducible apply Keeps.of_eq3); assumption)
    | split)

theorem execMedKey_keeps (s : State) :
    ∃ nx, execMedKey s = .next nx ∧ Keeps [.free, .regs, .mem, .ecc, .vio, .out, .host, .boot, .test, .units] s nx := by
  refine ⟨_, rfl, ?_⟩
  try dsimp only
  repeat' (first
    | with_reducible exact Keeps.refl _ _
    | with_reducible assumption
    | with_reducible apply Eff.keeps_done
    | with_reducible apply Eff.keeps_fault
    | with_reducible apply Eff.keeps_wait
    | with_reducible apply Eff.keeps_hold
    | with_reducible apply Eff.keeps_ite
    | with_reducible apply Eff.keeps_ite_fst
    | ((with_reducible apply State.medExec_keeps); decide)
    | ((with_reducible apply Keeps.after (medKey_keeps ..)); decide)
    | intro _
    | split)

theorem State.refresh_keeps (s : State) (n : Nat) : Keeps [.free, .regs, .mem, .ecc, .vio, .out, .host, .boot, .test, .units] s (State.refresh s n) := by
  unfold State.refresh
  try dsimp only
  repeat' (first
    | with_reducible exact Keeps.refl _ _
    | with_reducible assumption
    | with_reducible apply Keeps.ite
    | ((with_reducible apply Keeps.after (State.medRead_keeps ..)); decide)
    | ((with_reducible apply Keeps.after (State.medStop_keeps ..)); decide)
    | ((with_reducible apply Keeps.after (State.setStream_keeps ..)); decide)
    | ((with_reducible apply Keeps.of_eq); assumption)
    | ((with_reducible apply Keeps.of_eq3); assumption)
    | split)

theorem execUnitQueuePoll_keeps (n : Fin 256) (s : State) :
    ∃ nx, execUnitQueuePoll n s = .next nx ∧ Keeps [.free, .regs, .mem, .ecc, .vio, .out, .host, .boot, .test, .units] s nx := by
  refine ⟨_, rfl, ?_⟩
  try dsimp only
  repeat' (first
    | with_reducible exact Keeps.refl _ _
    | with_reducible assumption
    | with_reducible apply Keeps.ite
    | ((with_reducible apply Keeps.after (State.refresh_keeps ..)); decide)
    | ((with_reducible apply Keeps.after (State.flushOut_keeps ..)); decide)
    | ((with_reducible apply Keeps.after (State.drainStream_keeps ..)); decide)
    | split)

theorem State.answerUnit_keeps (s : State) (n : Nat) (st : Status) : Keeps [.free, .regs, .mem, .ecc, .boot, .units] s (State.answerUnit s n st) := by
  unfold State.answerUnit
  try dsimp only
  repeat' (first
    | with_reducible exact Keeps.refl _ _
    | with_reducible assumption
    | ((with_reducible apply Keeps.after (State.medWrite_keeps ..)); decide)
    | ((with_reducible apply Keeps.after (State.setStream_keeps ..)); decide)
    | ((with_reducible apply Keeps.of_eq); assumption)
    | ((with_reducible apply Keeps.of_eq3); assumption)
    | split)

theorem State.beginPicture_keeps (s : State) (n : Nat) (x : Stream) : Keeps [.units] s (State.beginPicture s n x) := by
  unfold State.beginPicture
  try dsimp only
  repeat' (first
    | with_reducible exact Keeps.refl _ _
    | with_reducible assumption
    | ((with_reducible apply Keeps.after (State.setStream_keeps ..)); decide)
    | ((with_reducible apply Keeps.after (State.setMed_keeps ..)); decide)
    | split)

theorem State.skipUnit_keeps (s : State) (n : Nat) (ends : Bool) : Keeps [.free, .regs, .mem, .ecc, .boot, .units] s (State.skipUnit s n ends) := by
  unfold State.skipUnit
  try dsimp only
  repeat' (first
    | with_reducible exact Keeps.refl _ _
    | with_reducible assumption
    | with_reducible apply Keeps.ite
    | ((with_reducible apply Keeps.after (State.answerUnit_keeps ..)); decide)
    | ((with_reducible apply Keeps.after (State.bump_keeps ..)); decide)
    | ((with_reducible apply Keeps.after (State.setStream_keeps ..)); decide)
    | ((with_reducible apply Keeps.after (State.setFld_keeps ..)); decide)
    | ((with_reducible apply Keeps.after (State.drainStream_keeps ..)); decide)
    | ((with_reducible apply Keeps.of_eq); assumption)
    | ((with_reducible apply Keeps.of_eq3); assumption)
    | split)

theorem State.startDecode_keeps (s : State) (n : Nat) (x : Stream) (engines : List Nat) (o : DecObs) : Keeps [.free, .regs, .mem, .ecc, .vio, .out, .host, .boot, .test, .units] s (State.startDecode s n x engines o) := by
  unfold State.startDecode
  try dsimp only
  repeat' (first
    | with_reducible exact Keeps.refl _ _
    | with_reducible assumption
    | with_reducible apply Keeps.ite
    | ((with_reducible apply Keeps.after (State.medRead_keeps ..)); decide)
    | ((with_reducible apply Keeps.after (State.medStop_keeps ..)); decide)
    | ((with_reducible apply Keeps.after (State.skipUnit_keeps ..)); decide)
    | ((with_reducible apply Keeps.after (State.setBusy_keeps ..)); decide)
    | ((with_reducible apply Keeps.after (State.beginPicture_keeps ..)); decide)
    | ((with_reducible apply Keeps.after (State.setFld_keeps ..)); decide)
    | with_reducible refine Keeps.foldl_snd (fun _ _ _ => ?_) ?_
    | with_reducible refine Keeps.foldl (fun _ _ _ => ?_) ?_
    | split)

theorem State.putRef_keeps (s : State) (d : StreamDesc) (slot : Nat) : Keeps [.free, .regs, .mem, .ecc, .boot, .units] s (State.putRef s d slot) := by
  unfold State.putRef
  try dsimp only
  repeat' (first
    | with_reducible exact Keeps.refl _ _
    | with_reducible assumption
    | ((with_reducible apply Keeps.after (State.medWrite_keeps ..)); decide)
    | ((with_reducible apply Keeps.after (State.withFree_keeps ..)); decide)
    | split)

theorem State.unitPicture_keeps (s : State) (n : Nat) (more : Bool) (st : Status) : Keeps [.free, .regs, .mem, .ecc, .boot, .units] s (State.unitPicture s n more st) := by
  unfold State.unitPicture
  try dsimp only
  repeat' (first
    | with_reducible exact Keeps.refl _ _
    | with_reducible assumption
    | with_reducible apply Keeps.ite
    | ((with_reducible apply Keeps.after (State.answerUnit_keeps ..)); decide)
    | ((with_reducible apply Keeps.after (State.setStream_keeps ..)); decide)
    | ((with_reducible apply Keeps.of_eq); assumption)
    | ((with_reducible apply Keeps.of_eq3); assumption)
    | split)

theorem State.endDecode_keeps (s : State) (n : Nat) (x : Stream) (r : DecRun) (f : DecDone) : Keeps [.free, .regs, .mem, .ecc, .boot, .units] s (State.endDecode s n x r f) := by
  unfold State.endDecode
  try dsimp only
  repeat' (first
    | with_reducible exact Keeps.refl _ _
    | with_reducible assumption
    | with_reducible apply Keeps.ite
    | ((with_reducible apply Keeps.after (State.dropRun_keeps ..)); decide)
    | ((with_reducible apply Keeps.after (State.unitPicture_keeps ..)); decide)
    | ((with_reducible apply Keeps.after (State.perf_keeps ..)); decide)
    | ((with_reducible apply Keeps.after (State.bump_keeps ..)); decide)
    | ((with_reducible apply Keeps.after (State.putRef_keeps ..)); decide)
    | ((with_reducible apply Keeps.after (State.setStream_keeps ..)); decide)
    | ((with_reducible apply Keeps.after (State.flushOut_keeps ..)); decide)
    | ((with_reducible apply Keeps.after (State.drainStream_keeps ..)); decide)
    | ((with_reducible apply Keeps.of_eq); assumption)
    | ((with_reducible apply Keeps.of_eq3); assumption)
    | split)

theorem State.encInput_keeps (s : State) (n : Nat) (x : Stream) (num : Nat) : Keeps [.free, .regs, .mem, .ecc, .vio, .out, .host, .boot, .test, .units] s (State.encInput s n x num).2.2.2 := by
  unfold State.encInput
  try dsimp only
  repeat' (first
    | with_reducible exact Keeps.refl _ _
    | with_reducible assumption
    | with_reducible apply Keeps.ite
    | ((with_reducible apply Keeps.after (State.medRead_keeps ..)); decide)
    | ((with_reducible apply Keeps.of_eq); assumption)
    | ((with_reducible apply Keeps.of_eq3); assumption)
    | with_reducible apply Keeps.ite_snd3
    | split)

theorem State.startEncode_keeps (s : State) (n : Nat) (x0 : Stream) (engines : List Nat) (o : EncObs) : Keeps [.free, .regs, .mem, .ecc, .vio, .out, .host, .boot, .test, .units] s (State.startEncode s n x0 engines o) := by
  unfold State.startEncode
  try dsimp only
  repeat' (first
    | with_reducible exact Keeps.refl _ _
    | with_reducible assumption
    | with_reducible apply Keeps.ite
    | ((with_reducible apply Keeps.after (State.encInput_keeps ..)); decide)
    | ((with_reducible apply Keeps.after (State.readChecks_keeps ..)); decide)
    | ((with_reducible apply Keeps.after (State.medStop_keeps ..)); decide)
    | ((with_reducible apply Keeps.after (State.setBusy_keeps ..)); decide)
    | ((with_reducible apply Keeps.after (State.beginPicture_keeps ..)); decide)
    | split)

theorem State.endEncode_keeps (s : State) (n : Nat) (x : Stream) (r : EncRun) (f : EncDone) : Keeps [.free, .regs, .mem, .ecc, .boot, .units] s (State.endEncode s n x r f) := by
  unfold State.endEncode
  try dsimp only
  repeat' (first
    | with_reducible exact Keeps.refl _ _
    | with_reducible assumption
    | with_reducible apply Keeps.ite
    | ((with_reducible apply Keeps.after (State.dropRun_keeps ..)); decide)
    | ((with_reducible apply Keeps.after (State.medWrite_keeps ..)); decide)
    | ((with_reducible apply Keeps.after (State.putRef_keeps ..)); decide)
    | ((with_reducible apply Keeps.after (State.setStream_keeps ..)); decide)
    | ((with_reducible apply Keeps.after (State.bumpWrap_keeps ..)); decide)
    | ((with_reducible apply Keeps.after (State.perf_keeps ..)); decide)
    | ((with_reducible apply Keeps.after (State.drainStream_keeps ..)); decide)
    | with_reducible refine Keeps.foldl_snd (fun _ _ _ => ?_) ?_
    | ((with_reducible apply Keeps.of_eq); assumption)
    | ((with_reducible apply Keeps.of_eq3); assumption)
    | with_reducible refine Keeps.foldl (fun _ _ _ => ?_) ?_
    | split)

theorem execPictureStart_keeps (md : Fin 4) (enc : Bool) (engines : List Nat) (d : DecObs) (e : EncObs) (s : State) :
    ∃ nx, execPictureStart md enc engines d e s = .next nx ∧ Keeps [.free, .regs, .mem, .ecc, .vio, .out, .host, .boot, .test, .units] s nx := by
  refine ⟨_, rfl, ?_⟩
  try dsimp only
  repeat' (first
    | with_reducible exact Keeps.refl _ _
    | with_reducible assumption
    | with_reducible apply Keeps.ite
    | ((with_reducible apply Keeps.after (State.refresh_keeps ..)); decide)
    | ((with_reducible apply Keeps.after (State.flushOut_keeps ..)); decide)
    | ((with_reducible apply Keeps.after (State.startEncode_keeps ..)); decide)
    | ((with_reducible apply Keeps.after (State.startDecode_keeps ..)); decide)
    | with_reducible refine Keeps.foldl_snd (fun _ _ _ => ?_) ?_
    | ((with_reducible apply Keeps.of_eq); assumption)
    | ((with_reducible apply Keeps.of_eq3); assumption)
    | with_reducible refine Keeps.foldl (fun _ _ _ => ?_) ?_
    | split)

theorem execPictureComplete_keeps (n : Fin 256) (d : DecDone) (e : EncDone) (s : State) :
    ∃ nx, execPictureComplete n d e s = .next nx ∧ Keeps [.free, .regs, .mem, .ecc, .boot, .units] s nx := by
  refine ⟨_, rfl, ?_⟩
  try dsimp only
  repeat' (first
    | with_reducible exact Keeps.refl _ _
    | with_reducible assumption
    | ((with_reducible apply Keeps.after (State.endDecode_keeps ..)); decide)
    | ((with_reducible apply Keeps.after (State.endEncode_keeps ..)); decide)
    | ((with_reducible apply Keeps.of_eq); assumption)
    | ((with_reducible apply Keeps.of_eq3); assumption)
    | split)

end Sys2Proof.Machine
end

