-- ==== Sys2Proof/Laws/KeepsNge.lean ====
section
/-! SUPPORT. What the operations of Machine/Nge.lean may change: one law each. -/

namespace Sys2Proof.Machine

theorem State.setNge_keeps (s : State) (u : NgeUnit) : Keeps [.units] s (State.setNge s u) := by
  unfold State.setNge
  try dsimp only
  repeat' (first
    | with_reducible exact Keeps.refl _ _
    | with_reducible assumption
    | ((with_reducible apply Keeps.after (State.withUnits_keeps ..)); decide)
    | split)

theorem State.ngeOutcome_keeps (s : State) (e : Nat) (st : Status) (stage : Nat) : Keeps [.regs] s (State.ngeOutcome s e st stage) := by
  unfold State.ngeOutcome
  try dsimp only
  repeat' (first
    | with_reducible exact Keeps.refl _ _
    | with_reducible assumption
    | ((with_reducible apply Keeps.after (State.setFld_keeps ..)); decide)
    | split)

theorem State.loadStages_keeps (s : State) (recs : List Nat) (gs : List NgeStage) : Keeps [.free, .regs, .mem, .ecc, .vio, .out, .host, .boot, .test, .units] s (s.loadStages recs gs).2.2 := by
  unfold State.loadStages
  generalize List.zip recs gs = l
  suffices h : ∀ (a : Status × List NgeStage × State), Keeps [.free, .regs, .mem, .ecc, .vio, .out, .host, .boot, .test, .units] s a.2.2 → Keeps [.free, .regs, .mem, .ecc, .vio, .out, .host, .boot, .test, .units] s (l.foldl
      (fun (acc : Status × List NgeStage × State) p =>
        if acc.1 ≠ .ok then acc
        else if p.2.kind ≠ skConv then (.ok, acc.2.1 ++ [p.2], acc.2.2)
        else
          let r := acc.2.2.readMem clsNge .module (stageWeightsAt p.1) p.2.weightBytes
          let b : Status × List Byte × State := if stageBiasAt p.1 = 0 then (.ok, [], r.2.2)
            else r.2.2.readMem clsNge .module (stageBiasAt p.1) (2 * p.2.c)
          (Status.lowest [r.1, b.1], acc.2.1 ++ [{ p.2 with weights := r.2.1, bias := b.2.1 }], b.2.2)) a).2.2 from
    h _ (Keeps.refl _ _)
  intro a ha
  induction l generalizing a with
  | nil => exact ha
  | cons p l ih =>
    refine ih _ ?_
    dsimp only
    have h1 : Keeps [.free, .regs, .mem, .ecc, .vio, .out, .host, .boot, .test, .units] s (a.2.2.readMem clsNge .module (stageWeightsAt p.1) p.2.weightBytes).2.2 :=
      Keeps.after (State.readMem_keeps ..) (by decide) ha
    refine Keeps.ite_snd2 ha (Keeps.ite_snd2 ha (Keeps.ite_snd2 h1 ?_))
    exact Keeps.after (State.readMem_keeps ..) (by decide) h1

theorem State.ngeVerify_keeps (s : State) (e n addr : Nat) (d : StreamDesc) : Keeps [.free, .regs, .mem, .ecc, .vio, .out, .host, .boot, .test, .units] s (State.ngeVerify s e n addr d).2.2 := by
  unfold State.ngeVerify
  try dsimp only
  repeat' (first
    | with_reducible exact Keeps.refl _ _
    | with_reducible assumption
    | with_reducible apply Keeps.ite
    | ((with_reducible apply Keeps.after (State.readCheck_keeps ..)); decide)
    | ((with_reducible apply Keeps.after (State.loadStages_keeps ..)); decide)
    | ((with_reducible apply Keeps.after (State.setNge_keeps ..)); decide)
    | with_reducible refine Keeps.foldl_snd (fun _ _ _ => ?_) ?_
    | ((with_reducible apply Keeps.of_eq); assumption)
    | ((with_reducible apply Keeps.of_eq3); assumption)
    | with_reducible refine Keeps.foldl (fun _ _ _ => ?_) ?_
    | with_reducible apply Keeps.ite_snd2
    | split)

theorem ngeBindWrite_keeps (e : Nat) (v : Word) (s : State) : Keeps [.free, .regs, .mem, .ecc, .vio, .out, .host, .boot, .test, .units] s (ngeBindWrite e v s).2 := by
  unfold ngeBindWrite
  try dsimp only
  repeat' (first
    | with_reducible exact Keeps.refl _ _
    | with_reducible assumption
    | with_reducible apply Keeps.ite
    | ((with_reducible apply Keeps.after (State.ngeOutcome_keeps ..)); decide)
    | ((with_reducible apply Keeps.after (State.setNge_keeps ..)); decide)
    | ((with_reducible apply Keeps.after (State.ngeVerify_keeps ..)); decide)
    | ((with_reducible apply Keeps.of_eq); assumption)
    | ((with_reducible apply Keeps.of_eq3); assumption)
    | with_reducible apply Keeps.ite_snd
    | split)

theorem execNgeBind_keeps (q e : Fin 4) (v : Word) (s : State) :
    ∃ nx, execNgeBind q e v s = .next nx ∧ Keeps [.free, .regs, .mem, .ecc, .vio, .out, .host, .boot, .test, .units] s nx := by
  refine ⟨_, rfl, ?_⟩
  try dsimp only
  repeat' (first
    | with_reducible exact Keeps.refl _ _
    | with_reducible assumption
    | with_reducible apply Eff.keeps_done
    | with_reducible apply Eff.keeps_fault
    | with_reducible apply Eff.keeps_wait
    | with_reducible apply Eff.keeps_hold
    | with_reducible apply Eff.keeps_ite
    | with_reducible apply Eff.keeps_ite_fst
    | ((with_reducible apply State.regWrite_keeps); decide)
    | ((with_reducible apply Keeps.after (ngeBindWrite_keeps ..)); decide)
    | intro _
    | split)

theorem execNgeUnbind_keeps (q e : Fin 4) (v : Word) (s : State) :
    ∃ nx, execNgeUnbind q e v s = .next nx ∧ Keeps [.free, .regs, .mem, .ecc, .vio, .out, .host, .boot, .test, .units] s nx := by
  refine ⟨_, rfl, ?_⟩
  try dsimp only
  repeat' (first
    | with_reducible exact Keeps.refl _ _
    | with_reducible assumption
    | with_reducible apply Eff.keeps_done
    | with_reducible apply Eff.keeps_fault
    | with_reducible apply Eff.keeps_wait
    | with_reducible apply Eff.keeps_hold
    | with_reducible apply Eff.keeps_ite
    | with_reducible apply Eff.keeps_ite_fst
    | ((with_reducible apply State.regWrite_keeps); decide)
    | ((with_reducible apply Keeps.after (ngeBindWrite_keeps ..)); decide)
    | intro _
    | split)

theorem State.ngeWrite_keeps (s : State) (a : Nat) (l : List Byte) : Keeps [.free, .regs, .mem, .ecc, .boot, .units] s (State.ngeWrite s a l) := by
  unfold State.ngeWrite
  try dsimp only
  repeat' (first
    | with_reducible exact Keeps.refl _ _
    | with_reducible assumption
    | ((with_reducible apply Keeps.after (State.writeMem_keeps ..)); decide)
    | split)

theorem State.landPosition_keeps (s : State) (p : NgeProg) (slot y x : Nat) (l : List WideEntry) : Keeps [.free, .regs, .mem, .ecc, .boot, .units] s (State.landPosition s p slot y x l) := by
  unfold State.landPosition
  try dsimp only
  repeat' (first
    | with_reducible exact Keeps.refl _ _
    | with_reducible assumption
    | with_reducible apply Keeps.ite
    | ((with_reducible apply Keeps.after (State.ngeWrite_keeps ..)); decide)
    | with_reducible refine Keeps.foldl_snd (fun _ _ _ => ?_) ?_
    | with_reducible refine Keeps.foldl (fun _ _ _ => ?_) ?_
    | split)

theorem State.landMap_keeps (s : State) (p : NgeProg) (slot : Nat) (l : List WideEntry) : Keeps [.free, .regs, .mem, .ecc, .boot, .units] s (State.landMap s p slot l) := by
  unfold State.landMap
  try dsimp only
  repeat' (first
    | with_reducible exact Keeps.refl _ _
    | with_reducible assumption
    | ((with_reducible apply Keeps.after (State.landPosition_keeps ..)); decide)
    | with_reducible refine Keeps.foldl (fun _ _ _ => ?_) ?_
    | split)

theorem State.ngeStop_keeps (s : State) (e n : Nat) (st : Status) (addr : Nat) : Keeps [.regs, .vio, .out, .host, .test, .units] s (State.ngeStop s e n st addr) := by
  unfold State.ngeStop
  try dsimp only
  repeat' (first
    | with_reducible exact Keeps.refl _ _
    | with_reducible assumption
    | ((with_reducible apply Keeps.after (State.setFld_keeps ..)); decide)
    | ((with_reducible apply Keeps.after (State.log_keeps ..)); decide)
    | ((with_reducible apply Keeps.after (State.medStop_keeps ..)); decide)
    | split)

theorem State.setProg_keeps (s : State) (e n : Nat) (p : NgeProg) : Keeps [.units] s (State.setProg s e n p) := by
  unfold State.setProg
  try dsimp only
  repeat' (first
    | with_reducible exact Keeps.refl _ _
    | with_reducible assumption
    | ((with_reducible apply Keeps.after (State.setNge_keeps ..)); decide)
    | split)

theorem State.ngeRefresh_keeps (s : State) (e n : Nat) : Keeps [.free, .regs, .mem, .ecc, .vio, .out, .host, .boot, .test, .units] s (State.ngeRefresh s e n) := by
  unfold State.ngeRefresh
  try dsimp only
  repeat' (first
    | with_reducible exact Keeps.refl _ _
    | with_reducible assumption
    | with_reducible apply Keeps.ite
    | ((with_reducible apply Keeps.after (State.readCheck_keeps ..)); decide)
    | ((with_reducible apply Keeps.after (State.ngeStop_keeps ..)); decide)
    | ((with_reducible apply Keeps.after (State.setProg_keeps ..)); decide)
    | ((with_reducible apply Keeps.after (State.bump_keeps ..)); decide)
    | ((with_reducible apply Keeps.of_eq); assumption)
    | ((with_reducible apply Keeps.of_eq3); assumption)
    | split)

theorem State.ngeDone_keeps (s : State) (e n : Nat) (p : NgeProg) (hist : List (Nat × List (List Nat))) : Keeps [.regs, .units] s (State.ngeDone s e n p hist) := by
  unfold State.ngeDone
  try dsimp only
  repeat' (first
    | with_reducible exact Keeps.refl _ _
    | with_reducible assumption
    | ((with_reducible apply Keeps.after (State.setProg_keeps ..)); decide)
    | ((with_reducible apply Keeps.after (State.setNge_keeps ..)); decide)
    | ((with_reducible apply Keeps.after (State.bump_keeps ..)); decide)
    | split)

theorem State.runFront_keeps (s : State) (e n : Nat) (p : NgeProg) (x : Stream) : Keeps [.free, .regs, .mem, .ecc, .boot, .units] s (State.runFront s e n p x) := by
  unfold State.runFront
  try dsimp only
  repeat' (first
    | with_reducible exact Keeps.refl _ _
    | with_reducible assumption
    | ((with_reducible apply Keeps.after (State.withFree_keeps ..)); decide)
    | ((with_reducible apply Keeps.after (State.landMap_keeps ..)); decide)
    | ((with_reducible apply Keeps.after (State.ngeWrite_keeps ..)); decide)
    | ((with_reducible apply Keeps.after (State.setStream_keeps ..)); decide)
    | ((with_reducible apply Keeps.after (State.ngeDone_keeps ..)); decide)
    | ((with_reducible apply Keeps.after (State.flushOut_keeps ..)); decide)
    | ((with_reducible apply Keeps.after (State.drainStream_keeps ..)); decide)
    | ((with_reducible apply Keeps.of_eq); assumption)
    | ((with_reducible apply Keeps.of_eq3); assumption)
    | split)

theorem State.runTail_keeps (s : State) (e n : Nat) (p : NgeProg) (x : Stream) : Keeps [.free, .regs, .mem, .ecc, .vio, .out, .host, .boot, .test, .units] s (State.runTail s e n p x) := by
  unfold State.runTail
  try dsimp only
  repeat' (first
    | with_reducible exact Keeps.refl _ _
    | with_reducible assumption
    | with_reducible apply Keeps.ite
    | ((with_reducible apply Keeps.after (State.readChecks_keeps ..)); decide)
    | ((with_reducible apply Keeps.after (State.ngeStop_keeps ..)); decide)
    | ((with_reducible apply Keeps.after (State.withFree_keeps ..)); decide)
    | ((with_reducible apply Keeps.after (State.ngeWrite_keeps ..)); decide)
    | ((with_reducible apply Keeps.after (State.setStream_keeps ..)); decide)
    | ((with_reducible apply Keeps.after (State.ngeDone_keeps ..)); decide)
    | split)

theorem execNgePictureRun_keeps (e : Fin 4) (s : State) :
    ∃ nx, execNgePictureRun e s = .next nx ∧ Keeps [.free, .regs, .mem, .ecc, .vio, .out, .host, .boot, .test, .units] s nx := by
  refine ⟨_, rfl, ?_⟩
  try dsimp only
  repeat' (first
    | with_reducible exact Keeps.refl _ _
    | with_reducible assumption
    | with_reducible apply Keeps.ite
    | ((with_reducible apply Keeps.after (State.ngeRefresh_keeps ..)); decide)
    | ((with_reducible apply Keeps.after (State.runFront_keeps ..)); decide)
    | ((with_reducible apply Keeps.after (State.runTail_keeps ..)); decide)
    | ((with_reducible apply Keeps.of_eq); assumption)
    | ((with_reducible apply Keeps.of_eq3); assumption)
    | with_reducible refine Keeps.foldl (fun _ _ _ => ?_) ?_
    | split)

end Sys2Proof.Machine
end

