-- ==== Sys2Proof/Laws/KeepsPower.lean ====
section
/-! SUPPORT. What the operations of Machine/Power.lean may change: one law each. -/

namespace Sys2Proof.Machine

theorem State.killJob_keeps (s : State) : Keeps [.regs, .test, .cores, .sched, .units] s (State.killJob s) := by
  unfold State.killJob
  try dsimp only
  repeat' (first
    | with_reducible exact Keeps.refl _ _
    | with_reducible assumption
    | ((with_reducible apply Keeps.after (State.closeCharge_keeps ..)); decide)
    | ((with_reducible apply Keeps.after (State.releaseSiding_keeps ..)); decide)
    | ((with_reducible apply Keeps.after (State.freeCores_keeps ..)); decide)
    | ((with_reducible apply Keeps.of_eq); assumption)
    | ((with_reducible apply Keeps.of_eq3); assumption)
    | split)

theorem State.holdJob_keeps (s : State) : Keeps [.regs, .test, .cores, .sched, .units] s (State.holdJob s) := by
  unfold State.holdJob
  try dsimp only
  repeat' (first
    | with_reducible exact Keeps.refl _ _
    | with_reducible assumption
    | ((with_reducible apply Keeps.after (State.unloadJob_keeps ..)); decide)
    | ((with_reducible apply Keeps.after (State.closeCharge_keeps ..)); decide)
    | ((with_reducible apply Keeps.after (State.setJob_keeps ..)); decide)
    | ((with_reducible apply Keeps.after (State.traceJob_keeps ..)); decide)
    | ((with_reducible apply Keeps.after (State.setQueue_keeps ..)); decide)
    | ((with_reducible apply Keeps.after (State.requestPreempt_keeps ..)); decide)
    | ((with_reducible apply Keeps.of_eq); assumption)
    | ((with_reducible apply Keeps.of_eq3); assumption)
    | split)

theorem State.enterStep_keeps (s : State) (n : Nat) : Keeps [.regs, .vio, .out, .host, .gov, .test, .cores, .sched, .units] s (State.enterStep s n) := by
  unfold State.enterStep
  try dsimp only
  repeat' (first
    | with_reducible exact Keeps.refl _ _
    | with_reducible assumption
    | with_reducible apply Keeps.ite
    | ((with_reducible apply Keeps.after (State.setFld_keeps ..)); decide)
    | ((with_reducible apply Keeps.after (State.withGov_keeps ..)); decide)
    | ((with_reducible apply Keeps.after (State.trace_keeps ..)); decide)
    | ((with_reducible apply Keeps.after (State.bump_keeps ..)); decide)
    | ((with_reducible apply Keeps.after (State.log_keeps ..)); decide)
    | ((with_reducible apply Keeps.after (State.holdJob_keeps ..)); decide)
    | ((with_reducible apply Keeps.after (State.killJob_keeps ..)); decide)
    | split)

theorem State.reStep_keeps (s : State) : Keeps [.regs, .vio, .out, .host, .gov, .test, .cores, .sched, .units] s (State.reStep s) := by
  unfold State.reStep
  try dsimp only
  repeat' (first
    | with_reducible exact Keeps.refl _ _
    | with_reducible assumption
    | with_reducible apply Keeps.ite
    | ((with_reducible apply Keeps.after (State.enterStep_keeps ..)); decide)
    | ((with_reducible apply Keeps.after (State.withGov_keeps ..)); decide)
    | split)

theorem execGovernorUpdate_keeps (draw : Nat) (levels : List Nat) (s : State) :
    ∃ nx, execGovernorUpdate draw levels s = .next nx ∧ Keeps [.regs, .vio, .out, .host, .gov, .test, .cores, .sched, .units] s nx := by
  refine ⟨_, rfl, ?_⟩
  try dsimp only
  repeat' (first
    | with_reducible exact Keeps.refl _ _
    | with_reducible assumption
    | with_reducible apply Keeps.ite
    | ((with_reducible apply Keeps.after (State.withGov_keeps ..)); decide)
    | ((with_reducible apply Keeps.after (State.reStep_keeps ..)); decide)
    | ((with_reducible apply Keeps.after (State.setFld_keeps ..)); decide)
    | split)

theorem execSupplySample_keeps (vin : Fin 16384) (s : State) :
    ∃ nx, execSupplySample vin s = .next nx ∧ Keeps [.regs, .vio, .out, .host, .gov, .test, .cores, .sched, .units] s nx := by
  refine ⟨_, rfl, ?_⟩
  try dsimp only
  repeat' (first
    | with_reducible exact Keeps.refl _ _
    | with_reducible assumption
    | with_reducible apply Keeps.ite
    | ((with_reducible apply Keeps.after (State.setFld_keeps ..)); decide)
    | ((with_reducible apply Keeps.after (State.withGov_keeps ..)); decide)
    | ((with_reducible apply Keeps.after (State.reStep_keeps ..)); decide)
    | split)

theorem execPlantSample_keeps (o : PlantObs) (s : State) :
    ∃ nx, execPlantSample o s = .next nx ∧ Keeps [.regs, .vio, .out, .host, .gov, .test, .cores, .sched, .units] s nx := by
  refine ⟨_, rfl, ?_⟩
  try dsimp only
  repeat' (first
    | with_reducible exact Keeps.refl _ _
    | with_reducible assumption
    | with_reducible apply Keeps.ite
    | ((with_reducible apply Keeps.after (State.withGov_keeps ..)); decide)
    | ((with_reducible apply Keeps.after (State.trace_keeps ..)); decide)
    | ((with_reducible apply Keeps.after (State.setFld_keeps ..)); decide)
    | ((with_reducible apply Keeps.after (State.reStep_keeps ..)); decide)
    | ((with_reducible apply Keeps.of_eq); assumption)
    | ((with_reducible apply Keeps.of_eq3); assumption)
    | split)

theorem State.driveValve_keeps (s : State) : Keeps [.regs] s (State.driveValve s) := by
  unfold State.driveValve
  try dsimp only
  repeat' (first
    | with_reducible exact Keeps.refl _ _
    | with_reducible assumption
    | with_reducible apply Keeps.ite
    | ((with_reducible apply Keeps.after (State.setFld_keeps ..)); decide)
    | split)

theorem execValveUpdate_keeps (s : State) :
    ∃ nx, execValveUpdate s = .next nx ∧ Keeps [.regs, .gov] s nx := by
  refine ⟨_, rfl, ?_⟩
  try dsimp only
  repeat' (first
    | with_reducible exact Keeps.refl _ _
    | with_reducible assumption
    | with_reducible apply Keeps.ite
    | ((with_reducible apply Keeps.after (State.driveValve_keeps ..)); decide)
    | ((with_reducible apply Keeps.after (State.withGov_keeps ..)); decide)
    | ((with_reducible apply Keeps.after (State.setFld_keeps ..)); decide)
    | ((with_reducible apply Keeps.of_eq); assumption)
    | ((with_reducible apply Keeps.of_eq3); assumption)
    | split)

theorem execShelfPoll_keeps (r : Option ShelfRead) (s : State) :
    ∃ nx, execShelfPoll r s = .next nx ∧ Keeps [.regs, .out, .gov] s nx := by
  refine ⟨_, rfl, ?_⟩
  try dsimp only
  repeat' (first
    | with_reducible exact Keeps.refl _ _
    | with_reducible assumption
    | ((with_reducible apply Keeps.after (State.readShelf_keeps ..)); decide)
    | split)

theorem execSmbalert_keeps (r : Option ShelfRead) (s : State) :
    ∃ nx, execSmbalert r s = .next nx ∧ Keeps [.regs, .out, .gov] s nx := by
  refine ⟨_, rfl, ?_⟩
  try dsimp only
  repeat' (first
    | with_reducible exact Keeps.refl _ _
    | with_reducible assumption
    | ((with_reducible apply Keeps.after (State.readShelf_keeps ..)); decide)
    | split)

theorem execShelfLost_keeps (s : State) :
    ∃ nx, execShelfLost s = .next nx ∧ Keeps [.regs] s nx := by
  refine ⟨_, rfl, ?_⟩
  try dsimp only
  repeat' (first
    | with_reducible exact Keeps.refl _ _
    | with_reducible assumption
    | with_reducible apply Keeps.ite
    | ((with_reducible apply Keeps.after (State.loseShelf_keeps ..)); decide)
    | split)

theorem execTripExitReset_keeps (o : StartObs) (s : State) :
    ∃ nx, execTripExitReset o s = .next nx ∧ Keeps [.free, .regs, .mem, .ecc, .vio, .out, .host, .boot, .gov, .sec, .test, .cores, .sched, .units] s nx := by
  refine ⟨_, rfl, ?_⟩
  try dsimp only
  repeat' (first
    | with_reducible exact Keeps.refl _ _
    | with_reducible assumption
    | with_reducible apply Keeps.ite
    | ((with_reducible apply Keeps.after (State.warmReset_keeps ..)); decide)
    | split)

theorem pwrLimitWrite_keeps (v : Word) (s : State) : Keeps [.regs] s (pwrLimitWrite v s).2 := by
  unfold pwrLimitWrite
  try dsimp only
  repeat' (first
    | with_reducible exact Keeps.refl _ _
    | with_reducible assumption
    | with_reducible apply Keeps.ite
    | ((with_reducible apply Keeps.after (State.setFld_keeps ..)); decide)
    | with_reducible apply Keeps.ite_snd
    | split)

theorem execPwrLimitWrite_keeps (q : Fin 4) (v : Word) (s : State) :
    ∃ nx, execPwrLimitWrite q v s = .next nx ∧ Keeps [.regs, .vio, .out, .host, .test] s nx := by
  refine ⟨_, rfl, ?_⟩
  try dsimp only
  repeat' (first
    | with_reducible exact Keeps.refl _ _
    | with_reducible assumption
    | with_reducible apply Eff.keeps_done
    | with_reducible apply Eff.keeps_fault
    | with_reducible apply Eff.keeps_wait
    | with_reducible apply Eff.keeps_hold
    | with_reducible apply Eff.keeps_ite
    | with_reducible apply Eff.keeps_ite_fst
    | ((with_reducible apply State.regWrite_keeps); decide)
    | ((with_reducible apply Keeps.after (pwrLimitWrite_keeps ..)); decide)
    | intro _
    | split)

end Sys2Proof.Machine
end

