-- ==== Sys2Proof/Laws/KeepsSecurity.lean ====
section
/-! SUPPORT. What the operations of Machine/Security.lean may change: one law each. -/

namespace Sys2Proof.Machine

theorem State.setFuses_keeps (s : State) (f : Fuses) : Keeps [.sec] s (State.setFuses s f) := by
  unfold State.setFuses
  try dsimp only
  repeat' (first
    | with_reducible exact Keeps.refl _ _
    | with_reducible assumption
    | ((with_reducible apply Keeps.after (State.withSec_keeps ..)); decide)
    | split)

theorem State.secEnd_keeps (s : State) (op : Nat) (st : Status) (signed : Bool) : Keeps [.free, .regs, .sec] s (State.secEnd s op st signed) := by
  unfold State.secEnd
  try dsimp only
  repeat' (first
    | with_reducible exact Keeps.refl _ _
    | with_reducible assumption
    | with_reducible apply Keeps.ite
    | ((with_reducible apply Keeps.after (State.draw_keeps ..)); decide)
    | ((with_reducible apply Keeps.after (State.withSec_keeps ..)); decide)
    | ((with_reducible apply Keeps.after (State.showSec_keeps ..)); decide)
    | ((with_reducible apply Keeps.after (State.setFld_keeps ..)); decide)
    | split)

theorem State.secFinish_keeps (s : State) (a w : Nat) (st : Status) : Keeps [.free, .regs, .mem, .ecc, .boot, .sec, .units] s (State.secFinish s a w st) := by
  unfold State.secFinish
  try dsimp only
  repeat' (first
    | with_reducible exact Keeps.refl _ _
    | with_reducible assumption
    | ((with_reducible apply Keeps.after (State.writeMem_keeps ..)); decide)
    | ((with_reducible apply Keeps.after (State.secEnd_keeps ..)); decide)
    | split)

theorem secSubmitWrite_keeps (v : Word) (s : State) : Keeps [.free, .regs, .mem, .ecc, .vio, .out, .host, .boot, .sec, .test, .units] s (secSubmitWrite v s).2 := by
  unfold secSubmitWrite
  try dsimp only
  repeat' (first
    | with_reducible exact Keeps.refl _ _
    | with_reducible assumption
    | with_reducible apply Keeps.ite
    | ((with_reducible apply Keeps.after (State.readMem_keeps ..)); decide)
    | ((with_reducible apply Keeps.after (State.secEnd_keeps ..)); decide)
    | ((with_reducible apply Keeps.after (State.withSec_keeps ..)); decide)
    | ((with_reducible apply Keeps.after (State.setFld_keeps ..)); decide)
    | ((with_reducible apply Keeps.after (State.secFinish_keeps ..)); decide)
    | with_reducible apply Keeps.ite_snd
    | split)

theorem execSecCmdSubmit_keeps (q : Fin 4) (v : Word) (s : State) :
    ∃ nx, execSecCmdSubmit q v s = .next nx ∧ Keeps [.free, .regs, .mem, .ecc, .vio, .out, .host, .boot, .sec, .test, .units] s nx := by
  refine ⟨_, rfl, ?_⟩
  try dsimp only
  repeat' (first
    | with_reducible exact Keeps.refl _ _
    | with_reducible assumption
    | with_reducible apply Eff.keeps_done
    | with_reducible apply Eff.keeps_fault
    | with_reducible apply Eff.keeps_wait
    | with_reducible apply Eff.keeps_hold
    | with_reducible apply Eff.keeps_ite
    | with_reducible apply Eff.keeps_ite_fst
    | ((with_reducible apply State.regWrite_keeps); decide)
    | ((with_reducible apply Keeps.after (secSubmitWrite_keeps ..)); decide)
    | intro _
    | split)

theorem State.runSec_keeps {k : List Part} {s0 : State} (s : State) (op : Nat) (sigOk : Bool)
    (f : Nat → State → Status × State) (hk : ([.free, .regs, .mem, .ecc, .boot, .sec, .units] : List Part).all k.contains = true) (hf : ∀ w t, Keeps k t (f w t).2)
    (h0 : Keeps k s0 s) : Keeps k s0 (s.runSec op sigOk f) := by
  refine Keeps.after ?_ (Part.sub_refl _) h0
  unfold State.runSec
  split
  · exact Keeps.refl _ _
  · split
    · exact Keeps.refl _ _
    · exact Keeps.after (State.secFinish_keeps ..) hk (Keeps.ite_snd (hf _ s) (Keeps.refl _ _))

theorem State.burnLife_keeps (s : State) (bitNo : Nat) (masks : List Nat) (i : Nat) : Keeps [.sec] s (State.burnLife s bitNo masks i).2 := by
  unfold State.burnLife
  try dsimp only
  repeat' (first
    | with_reducible exact Keeps.refl _ _
    | with_reducible assumption
    | with_reducible apply Keeps.ite
    | ((with_reducible apply Keeps.after (State.setFuses_keeps ..)); decide)
    | with_reducible apply Keeps.ite_snd
    | split)

theorem State.transit_keeps (s : State) (bitNo : Nat) (masks : List Nat) (i : Nat) : Keeps [.sec] s (State.transit s bitNo masks i).2 := by
  unfold State.transit
  try dsimp only
  repeat' (first
    | with_reducible exact Keeps.refl _ _
    | with_reducible assumption
    | with_reducible apply Keeps.ite
    | ((with_reducible apply Keeps.after (State.burnLife_keeps ..)); decide)
    | ((with_reducible apply Keeps.after (State.withSec_keeps ..)); decide)
    | with_reducible apply Keeps.ite_snd
    | split)

theorem provision_keeps (masks : List Nat) (seedOk : Bool) (w : Nat) (s : State) : Keeps [.sec] s (provision masks seedOk w s).2 := by
  unfold provision
  try dsimp only
  repeat' (first
    | with_reducible exact Keeps.refl _ _
    | with_reducible assumption
    | with_reducible apply Keeps.ite
    | ((with_reducible apply Keeps.after (State.setFuses_keeps ..)); decide)
    | ((with_reducible apply Keeps.after (State.transit_keeps ..)); decide)
    | with_reducible apply Keeps.ite_snd
    | split)

theorem execProvision_keeps (sigOk : Bool) (masks : List Nat) (seedOk : Bool) (s : State) :
    ∃ nx, execProvision sigOk masks seedOk s = .next nx ∧ Keeps [.free, .regs, .mem, .ecc, .boot, .sec, .units] s nx := by
  refine ⟨_, rfl, ?_⟩
  try dsimp only
  repeat' (first
    | with_reducible exact Keeps.refl _ _
    | with_reducible assumption
    | with_reducible apply Eff.keeps_done
    | with_reducible apply Eff.keeps_fault
    | with_reducible apply Eff.keeps_wait
    | with_reducible apply Eff.keeps_hold
    | with_reducible apply Eff.keeps_ite
    | with_reducible apply Eff.keeps_ite_fst
    | ((with_reducible apply State.runSec_keeps); decide)
    | ((with_reducible apply Keeps.after (provision_keeps ..)); decide)
    | intro _
    | split)

theorem certStore_keeps (w : Nat) (s : State) : Keeps [.free, .regs, .mem, .ecc, .vio, .out, .host, .boot, .test, .units] s (certStore w s).2 := by
  unfold certStore
  try dsimp only
  repeat' (first
    | with_reducible exact Keeps.refl _ _
    | with_reducible assumption
    | with_reducible apply Keeps.ite
    | ((with_reducible apply Keeps.after (State.readMem_keeps ..)); decide)
    | ((with_reducible apply Keeps.after (State.writeSector_keeps ..)); decide)
    | ((with_reducible apply Keeps.after (State.withBoot_keeps ..)); decide)
    | with_reducible apply Keeps.ite_snd
    | split)

theorem execCertStore_keeps (sigOk : Bool) (s : State) :
    ∃ nx, execCertStore sigOk s = .next nx ∧ Keeps [.free, .regs, .mem, .ecc, .vio, .out, .host, .boot, .sec, .test, .units] s nx := by
  refine ⟨_, rfl, ?_⟩
  try dsimp only
  repeat' (first
    | with_reducible exact Keeps.refl _ _
    | with_reducible assumption
    | with_reducible apply Eff.keeps_done
    | with_reducible apply Eff.keeps_fault
    | with_reducible apply Eff.keeps_wait
    | with_reducible apply Eff.keeps_hold
    | with_reducible apply Eff.keeps_ite
    | with_reducible apply Eff.keeps_ite_fst
    | ((with_reducible apply State.runSec_keeps); decide)
    | ((with_reducible apply Keeps.after (certStore_keeps ..)); decide)
    | intro _
    | split)

theorem execEnterField_keeps (sigOk : Bool) (masks : List Nat) (s : State) :
    ∃ nx, execEnterField sigOk masks s = .next nx ∧ Keeps [.free, .regs, .mem, .ecc, .boot, .sec, .units] s nx := by
  refine ⟨_, rfl, ?_⟩
  try dsimp only
  repeat' (first
    | with_reducible exact Keeps.refl _ _
    | with_reducible assumption
    | with_reducible apply Eff.keeps_done
    | with_reducible apply Eff.keeps_fault
    | with_reducible apply Eff.keeps_wait
    | with_reducible apply Eff.keeps_hold
    | with_reducible apply Eff.keeps_ite
    | with_reducible apply Eff.keeps_ite_fst
    | ((with_reducible apply State.runSec_keeps); decide)
    | ((with_reducible apply Keeps.after (State.transit_keeps ..)); decide)
    | intro _
    | split)

theorem execEnterReturn_keeps (sigOk : Bool) (masks : List Nat) (s : State) :
    ∃ nx, execEnterReturn sigOk masks s = .next nx ∧ Keeps [.free, .regs, .mem, .ecc, .boot, .sec, .units] s nx := by
  refine ⟨_, rfl, ?_⟩
  try dsimp only
  repeat' (first
    | with_reducible exact Keeps.refl _ _
    | with_reducible assumption
    | with_reducible apply Eff.keeps_done
    | with_reducible apply Eff.keeps_fault
    | with_reducible apply Eff.keeps_wait
    | with_reducible apply Eff.keeps_hold
    | with_reducible apply Eff.keeps_ite
    | with_reducible apply Eff.keeps_ite_fst
    | ((with_reducible apply State.runSec_keeps); decide)
    | ((with_reducible apply Keeps.after (State.eraseSectors_keeps ..)); decide)
    | ((with_reducible apply Keeps.after (State.transit_keeps ..)); decide)
    | intro _
    | split)

theorem execScrap_keeps (sigOk : Bool) (masks : List Nat) (s : State) :
    ∃ nx, execScrap sigOk masks s = .next nx ∧ Keeps [.free, .regs, .mem, .ecc, .boot, .sec, .units] s nx := by
  refine ⟨_, rfl, ?_⟩
  try dsimp only
  repeat' (first
    | with_reducible exact Keeps.refl _ _
    | with_reducible assumption
    | with_reducible apply Eff.keeps_done
    | with_reducible apply Eff.keeps_fault
    | with_reducible apply Eff.keeps_wait
    | with_reducible apply Eff.keeps_hold
    | with_reducible apply Eff.keeps_ite
    | with_reducible apply Eff.keeps_ite_fst
    | ((with_reducible apply State.runSec_keeps); decide)
    | ((with_reducible apply Keeps.after (State.transit_keeps ..)); decide)
    | intro _
    | split)

theorem keyProg_keeps (masks : List Nat) (w : Nat) (s : State) : Keeps [.sec] s (keyProg masks w s).2 := by
  unfold keyProg
  try dsimp only
  repeat' (first
    | with_reducible exact Keeps.refl _ _
    | with_reducible assumption
    | with_reducible apply Keeps.ite
    | ((with_reducible apply Keeps.after (State.setFuses_keeps ..)); decide)
    | with_reducible apply Keeps.ite_snd
    | split)

theorem execKeyProg_keeps (sigOk : Bool) (masks : List Nat) (s : State) :
    ∃ nx, execKeyProg sigOk masks s = .next nx ∧ Keeps [.free, .regs, .mem, .ecc, .boot, .sec, .units] s nx := by
  refine ⟨_, rfl, ?_⟩
  try dsimp only
  repeat' (first
    | with_reducible exact Keeps.refl _ _
    | with_reducible assumption
    | with_reducible apply Eff.keeps_done
    | with_reducible apply Eff.keeps_fault
    | with_reducible apply Eff.keeps_wait
    | with_reducible apply Eff.keeps_hold
    | with_reducible apply Eff.keeps_ite
    | with_reducible apply Eff.keeps_ite_fst
    | ((with_reducible apply State.runSec_keeps); decide)
    | ((with_reducible apply Keeps.after (keyProg_keeps ..)); decide)
    | intro _
    | split)

theorem keyRevoke_keeps (masks : List Nat) (w : Nat) (s : State) : Keeps [.sec] s (keyRevoke masks w s).2 := by
  unfold keyRevoke
  try dsimp only
  repeat' (first
    | with_reducible exact Keeps.refl _ _
    | with_reducible assumption
    | with_reducible apply Keeps.ite
    | ((with_reducible apply Keeps.after (State.setFuses_keeps ..)); decide)
    | with_reducible apply Keeps.ite_snd
    | split)

theorem execKeyRevoke_keeps (sigOk : Bool) (masks : List Nat) (s : State) :
    ∃ nx, execKeyRevoke sigOk masks s = .next nx ∧ Keeps [.free, .regs, .mem, .ecc, .boot, .sec, .units] s nx := by
  refine ⟨_, rfl, ?_⟩
  try dsimp only
  repeat' (first
    | with_reducible exact Keeps.refl _ _
    | with_reducible assumption
    | with_reducible apply Eff.keeps_done
    | with_reducible apply Eff.keeps_fault
    | with_reducible apply Eff.keeps_wait
    | with_reducible apply Eff.keeps_hold
    | with_reducible apply Eff.keeps_ite
    | with_reducible apply Eff.keeps_ite_fst
    | ((with_reducible apply State.runSec_keeps); decide)
    | ((with_reducible apply Keeps.after (keyRevoke_keeps ..)); decide)
    | intro _
    | split)

theorem fwRevoke_keeps (masks : List Nat) (w : Nat) (s : State) : Keeps [.sec] s (fwRevoke masks w s).2 := by
  unfold fwRevoke
  try dsimp only
  repeat' (first
    | with_reducible exact Keeps.refl _ _
    | with_reducible assumption
    | with_reducible apply Keeps.ite
    | ((with_reducible apply Keeps.after (State.setFuses_keeps ..)); decide)
    | with_reducible apply Keeps.ite_snd
    | split)

theorem execFwRevoke_keeps (sigOk : Bool) (masks : List Nat) (s : State) :
    ∃ nx, execFwRevoke sigOk masks s = .next nx ∧ Keeps [.free, .regs, .mem, .ecc, .boot, .sec, .units] s nx := by
  refine ⟨_, rfl, ?_⟩
  try dsimp only
  repeat' (first
    | with_reducible exact Keeps.refl _ _
    | with_reducible assumption
    | with_reducible apply Eff.keeps_done
    | with_reducible apply Eff.keeps_fault
    | with_reducible apply Eff.keeps_wait
    | with_reducible apply Eff.keeps_hold
    | with_reducible apply Eff.keeps_ite
    | with_reducible apply Eff.keeps_ite_fst
    | ((with_reducible apply State.runSec_keeps); decide)
    | ((with_reducible apply Keeps.after (fwRevoke_keeps ..)); decide)
    | intro _
    | split)

theorem svnCommit_keeps (masks : List Nat) (_w : Nat) (s : State) : Keeps [.sec] s (svnCommit masks _w s).2 := by
  unfold svnCommit
  try dsimp only
  repeat' (first
    | with_reducible exact Keeps.refl _ _
    | with_reducible assumption
    | with_reducible apply Keeps.ite
    | ((with_reducible apply Keeps.after (State.setFuses_keeps ..)); decide)
    | with_reducible apply Keeps.ite_snd
    | split)

theorem execSvnCommit_keeps (masks : List Nat) (s : State) :
    ∃ nx, execSvnCommit masks s = .next nx ∧ Keeps [.free, .regs, .mem, .ecc, .boot, .sec, .units] s nx := by
  refine ⟨_, rfl, ?_⟩
  try dsimp only
  repeat' (first
    | with_reducible exact Keeps.refl _ _
    | with_reducible assumption
    | with_reducible apply Eff.keeps_done
    | with_reducible apply Eff.keeps_fault
    | with_reducible apply Eff.keeps_wait
    | with_reducible apply Eff.keeps_hold
    | with_reducible apply Eff.keeps_ite
    | with_reducible apply Eff.keeps_ite_fst
    | ((with_reducible apply State.runSec_keeps); decide)
    | ((with_reducible apply Keeps.after (svnCommit_keeps ..)); decide)
    | intro _
    | split)

theorem execDebugUnlock_keeps (sigOk : Bool) (s : State) :
    ∃ nx, execDebugUnlock sigOk s = .next nx ∧ Keeps [.free, .regs, .mem, .ecc, .boot, .sec, .units] s nx := by
  refine ⟨_, rfl, ?_⟩
  try dsimp only
  repeat' (first
    | with_reducible exact Keeps.refl _ _
    | with_reducible assumption
    | with_reducible apply Eff.keeps_done
    | with_reducible apply Eff.keeps_fault
    | with_reducible apply Eff.keeps_wait
    | with_reducible apply Eff.keeps_hold
    | with_reducible apply Eff.keeps_ite
    | with_reducible apply Eff.keeps_ite_fst
    | ((with_reducible apply State.runSec_keeps); decide)
    | ((with_reducible apply Keeps.after (State.withSec_keeps ..)); decide)
    | intro _
    | split)

theorem defectClear_keeps (w : Nat) (s : State) : Keeps [.boot] s (defectClear w s).2 := by
  unfold defectClear
  try dsimp only
  repeat' (first
    | with_reducible exact Keeps.refl _ _
    | with_reducible assumption
    | ((with_reducible apply Keeps.after (State.withBoot_keeps ..)); decide)
    | ((with_reducible apply Keeps.of_eq); assumption)
    | ((with_reducible apply Keeps.of_eq3); assumption)
    | split)

theorem execDefectClear_keeps (sigOk : Bool) (s : State) :
    ∃ nx, execDefectClear sigOk s = .next nx ∧ Keeps [.free, .regs, .mem, .ecc, .boot, .sec, .units] s nx := by
  refine ⟨_, rfl, ?_⟩
  try dsimp only
  repeat' (first
    | with_reducible exact Keeps.refl _ _
    | with_reducible assumption
    | with_reducible apply Eff.keeps_done
    | with_reducible apply Eff.keeps_fault
    | with_reducible apply Eff.keeps_wait
    | with_reducible apply Eff.keeps_hold
    | with_reducible apply Eff.keeps_ite
    | with_reducible apply Eff.keeps_ite_fst
    | ((with_reducible apply State.runSec_keeps); decide)
    | ((with_reducible apply Keeps.after (defectClear_keeps ..)); decide)
    | intro _
    | split)

theorem identRead_keeps (w : Nat) (s : State) : Keeps [.free, .regs, .mem, .ecc, .boot, .units] s (identRead w s).2 := by
  unfold identRead
  try dsimp only
  repeat' (first
    | with_reducible exact Keeps.refl _ _
    | with_reducible assumption
    | ((with_reducible apply Keeps.after (State.writeMem_keeps ..)); decide)
    | split)

theorem execIdentRead_keeps (s : State) :
    ∃ nx, execIdentRead s = .next nx ∧ Keeps [.free, .regs, .mem, .ecc, .boot, .sec, .units] s nx := by
  refine ⟨_, rfl, ?_⟩
  try dsimp only
  repeat' (first
    | with_reducible exact Keeps.refl _ _
    | with_reducible assumption
    | with_reducible apply Eff.keeps_done
    | with_reducible apply Eff.keeps_fault
    | with_reducible apply Eff.keeps_wait
    | with_reducible apply Eff.keeps_hold
    | with_reducible apply Eff.keeps_ite
    | with_reducible apply Eff.keeps_ite_fst
    | ((with_reducible apply State.runSec_keeps); decide)
    | ((with_reducible apply Keeps.after (identRead_keeps ..)); decide)
    | intro _
    | split)

theorem attest_keeps (w : Nat) (s : State) : Keeps [.free, .regs, .mem, .ecc, .vio, .out, .host, .boot, .test, .units] s (attest w s).2 := by
  unfold attest
  try dsimp only
  repeat' (first
    | with_reducible exact Keeps.refl _ _
    | with_reducible assumption
    | with_reducible apply Keeps.ite
    | ((with_reducible apply Keeps.after (State.readMem_keeps ..)); decide)
    | ((with_reducible apply Keeps.after (State.writeMem_keeps ..)); decide)
    | with_reducible apply Keeps.ite_snd
    | split)

theorem execAttest_keeps (s : State) :
    ∃ nx, execAttest s = .next nx ∧ Keeps [.free, .regs, .mem, .ecc, .vio, .out, .host, .boot, .sec, .test, .units] s nx := by
  refine ⟨_, rfl, ?_⟩
  try dsimp only
  repeat' (first
    | with_reducible exact Keeps.refl _ _
    | with_reducible assumption
    | with_reducible apply Eff.keeps_done
    | with_reducible apply Eff.keeps_fault
    | with_reducible apply Eff.keeps_wait
    | with_reducible apply Eff.keeps_hold
    | with_reducible apply Eff.keeps_ite
    | with_reducible apply Eff.keeps_ite_fst
    | ((with_reducible apply State.runSec_keeps); decide)
    | ((with_reducible apply Keeps.after (attest_keeps ..)); decide)
    | intro _
    | split)

theorem State.scrapErase_keeps (s : State) : Keeps [.boot, .sec] s (State.scrapErase s) := by
  unfold State.scrapErase
  try dsimp only
  repeat' (first
    | with_reducible exact Keeps.refl _ _
    | with_reducible assumption
    | ((with_reducible apply Keeps.after (State.eraseSectors_keeps ..)); decide)
    | ((with_reducible apply Keeps.after (State.setFuses_keeps ..)); decide)
    | split)

theorem execLifecycleWarmReset_keeps (o : StartObs) (s : State) :
    ∃ nx, execLifecycleWarmReset o s = .next nx ∧ Keeps [.free, .regs, .mem, .ecc, .vio, .out, .host, .boot, .gov, .sec, .test, .cores, .sched, .units] s nx := by
  refine ⟨_, rfl, ?_⟩
  try dsimp only
  repeat' (first
    | with_reducible exact Keeps.refl _ _
    | with_reducible assumption
    | with_reducible apply Keeps.ite
    | ((with_reducible apply Keeps.after (State.warmReset_keeps ..)); decide)
    | ((with_reducible apply Keeps.after (State.scrapErase_keeps ..)); decide)
    | split)

end Sys2Proof.Machine
end

