-- ==== Sys2Proof/Laws/KeepsTest.lean ====
section
/-! SUPPORT. What the operations of Machine/Test.lean may change: one law each. -/

namespace Sys2Proof.Machine

theorem tstWrite_keeps {k : List Part} {s0 : State} (a : Nat) (f : Word → State → Status × State) (v : Word) (s : State)
    (_ : ([] : List Part).all k.contains = true) (hf : ∀ v t, Keeps k t (f v t).2) (h0 : Keeps k s0 s) :
    Keeps k s0 (tstWrite a f v s).2 := by
  refine Keeps.after ?_ (Part.sub_refl _) h0
  unfold tstWrite
  exact Keeps.ite_snd (Keeps.refl _ _) (hf v s)

theorem checkedWrite_keeps (a : Nat) (ok : Bool) (v : Word) (s : State) : Keeps [.regs] s (checkedWrite a ok v s).2 := by
  unfold checkedWrite
  try dsimp only
  repeat' (first
    | with_reducible exact Keeps.refl _ _
    | with_reducible assumption
    | with_reducible apply Keeps.ite
    | ((with_reducible apply Keeps.after (State.putRw_keeps ..)); decide)
    | with_reducible apply Keeps.ite_snd
    | split)

theorem tstDcqWrite_keeps (v : Word) (s : State) : Keeps [.regs] s (tstDcqWrite v s).2 := by
  unfold tstDcqWrite
  try dsimp only
  repeat' (first
    | with_reducible exact Keeps.refl _ _
    | with_reducible assumption
    | with_reducible apply Eff.keeps_done
    | with_reducible apply Eff.keeps_fault
    | with_reducible apply Eff.keeps_wait
    | with_reducible apply Eff.keeps_hold
    | with_reducible apply Eff.keeps_ite
    | with_reducible apply Eff.keeps_ite_fst
    | ((with_reducible apply tstWrite_keeps); decide)
    | ((with_reducible apply Keeps.after (checkedWrite_keeps ..)); decide)
    | intro _
    | split)

theorem tstThrottleWrite_keeps (v : Word) (s : State) : Keeps [.regs] s (tstThrottleWrite v s).2 := by
  unfold tstThrottleWrite
  try dsimp only
  repeat' (first
    | with_reducible exact Keeps.refl _ _
    | with_reducible assumption
    | with_reducible apply Eff.keeps_done
    | with_reducible apply Eff.keeps_fault
    | with_reducible apply Eff.keeps_wait
    | with_reducible apply Eff.keeps_hold
    | with_reducible apply Eff.keeps_ite
    | with_reducible apply Eff.keeps_ite_fst
    | ((with_reducible apply tstWrite_keeps); decide)
    | ((with_reducible apply Keeps.after (checkedWrite_keeps ..)); decide)
    | intro _
    | split)

theorem tstCreditWrite_keeps (v : Word) (s : State) : Keeps [.regs] s (tstCreditWrite v s).2 := by
  unfold tstCreditWrite
  try dsimp only
  repeat' (first
    | with_reducible exact Keeps.refl _ _
    | with_reducible assumption
    | with_reducible apply Eff.keeps_done
    | with_reducible apply Eff.keeps_fault
    | with_reducible apply Eff.keeps_wait
    | with_reducible apply Eff.keeps_hold
    | with_reducible apply Eff.keeps_ite
    | with_reducible apply Eff.keeps_ite_fst
    | ((with_reducible apply tstWrite_keeps); decide)
    | ((with_reducible apply Keeps.after (checkedWrite_keeps ..)); decide)
    | intro _
    | split)

theorem tstRefreshWrite_keeps (v : Word) (s : State) : Keeps [.regs] s (tstRefreshWrite v s).2 := by
  unfold tstRefreshWrite
  try dsimp only
  repeat' (first
    | with_reducible exact Keeps.refl _ _
    | with_reducible assumption
    | with_reducible apply Eff.keeps_done
    | with_reducible apply Eff.keeps_fault
    | with_reducible apply Eff.keeps_wait
    | with_reducible apply Eff.keeps_hold
    | with_reducible apply Eff.keeps_ite
    | with_reducible apply Eff.keeps_ite_fst
    | ((with_reducible apply tstWrite_keeps); decide)
    | ((with_reducible apply Keeps.after (checkedWrite_keeps ..)); decide)
    | intro _
    | split)

theorem execTstDcqWrite_keeps (q : Fin 4) (v : Word) (s : State) :
    ∃ nx, execTstDcqWrite q v s = .next nx ∧ Keeps [.regs, .vio, .out, .host, .test] s nx := by
  refine ⟨_, rfl, ?_⟩
  try dsimp only
  repeat' (first
    | with_reducible exact Keeps.refl _ _
    | with_reducible assumption
    | with_reducible apply Eff.keeps_done
    | with_reducible apply Eff.keeps_fault
    | with_reducible apply Eff.keeps_wait
    | with_reducible apply Eff.keeps_hold
    | with_reducible apply Eff.keeps_ite
    | with_reducible apply Eff.keeps_ite_fst
    | ((with_reducible apply State.regWrite_keeps); decide)
    | ((with_reducible apply Keeps.after (tstDcqWrite_keeps ..)); decide)
    | intro _
    | split)

theorem execTstThrottleWrite_keeps (q : Fin 4) (v : Word) (s : State) :
    ∃ nx, execTstThrottleWrite q v s = .next nx ∧ Keeps [.regs, .vio, .out, .host, .test] s nx := by
  refine ⟨_, rfl, ?_⟩
  try dsimp only
  repeat' (first
    | with_reducible exact Keeps.refl _ _
    | with_reducible assumption
    | with_reducible apply Eff.keeps_done
    | with_reducible apply Eff.keeps_fault
    | with_reducible apply Eff.keeps_wait
    | with_reducible apply Eff.keeps_hold
    | with_reducible apply Eff.keeps_ite
    | with_reducible apply Eff.keeps_ite_fst
    | ((with_reducible apply State.regWrite_keeps); decide)
    | ((with_reducible apply Keeps.after (tstThrottleWrite_keeps ..)); decide)
    | intro _
    | split)

theorem execTstCreditWrite_keeps (q : Fin 4) (v : Word) (s : State) :
    ∃ nx, execTstCreditWrite q v s = .next nx ∧ Keeps [.regs, .vio, .out, .host, .test] s nx := by
  refine ⟨_, rfl, ?_⟩
  try dsimp only
  repeat' (first
    | with_reducible exact Keeps.refl _ _
    | with_reducible assumption
    | with_reducible apply Eff.keeps_done
    | with_reducible apply Eff.keeps_fault
    | with_reducible apply Eff.keeps_wait
    | with_reducible apply Eff.keeps_hold
    | with_reducible apply Eff.keeps_ite
    | with_reducible apply Eff.keeps_ite_fst
    | ((with_reducible apply State.regWrite_keeps); decide)
    | ((with_reducible apply Keeps.after (tstCreditWrite_keeps ..)); decide)
    | intro _
    | split)

theorem execTstRefreshWrite_keeps (q : Fin 4) (v : Word) (s : State) :
    ∃ nx, execTstRefreshWrite q v s = .next nx ∧ Keeps [.regs, .vio, .out, .host, .test] s nx := by
  refine ⟨_, rfl, ?_⟩
  try dsimp only
  repeat' (first
    | with_reducible exact Keeps.refl _ _
    | with_reducible assumption
    | with_reducible apply Eff.keeps_done
    | with_reducible apply Eff.keeps_fault
    | with_reducible apply Eff.keeps_wait
    | with_reducible apply Eff.keeps_hold
    | with_reducible apply Eff.keeps_ite
    | with_reducible apply Eff.keeps_ite_fst
    | ((with_reducible apply State.regWrite_keeps); decide)
    | ((with_reducible apply Keeps.after (tstRefreshWrite_keeps ..)); decide)
    | intro _
    | split)

theorem tstInjCtrlWrite_keeps (v : Word) (s : State) : Keeps [.regs, .test] s (tstInjCtrlWrite v s).2 := by
  unfold tstInjCtrlWrite
  try dsimp only
  repeat' (first
    | with_reducible exact Keeps.refl _ _
    | with_reducible assumption
    | with_reducible apply Keeps.ite
    | with_reducible apply Eff.keeps_done
    | with_reducible apply Eff.keeps_fault
    | with_reducible apply Eff.keeps_wait
    | with_reducible apply Eff.keeps_hold
    | with_reducible apply Eff.keeps_ite
    | with_reducible apply Eff.keeps_ite_fst
    | ((with_reducible apply tstWrite_keeps); decide)
    | ((with_reducible apply Keeps.after (State.putRw_keeps ..)); decide)
    | ((with_reducible apply Keeps.after (State.setFld_keeps ..)); decide)
    | ((with_reducible apply Keeps.after (State.withTest_keeps ..)); decide)
    | intro _
    | split)

theorem tstInjAddrWrite_keeps (v : Word) (s : State) : Keeps [.regs] s (tstInjAddrWrite v s).2 := by
  unfold tstInjAddrWrite
  try dsimp only
  repeat' (first
    | with_reducible exact Keeps.refl _ _
    | with_reducible assumption
    | with_reducible apply Keeps.ite
    | with_reducible apply Eff.keeps_done
    | with_reducible apply Eff.keeps_fault
    | with_reducible apply Eff.keeps_wait
    | with_reducible apply Eff.keeps_hold
    | with_reducible apply Eff.keeps_ite
    | with_reducible apply Eff.keeps_ite_fst
    | ((with_reducible apply tstWrite_keeps); decide)
    | ((with_reducible apply Keeps.after (State.putRw_keeps ..)); decide)
    | intro _
    | split)

theorem execTstInjArm_keeps (q : Fin 4) (v : Word) (s : State) :
    ∃ nx, execTstInjArm q v s = .next nx ∧ Keeps [.regs, .vio, .out, .host, .test] s nx := by
  refine ⟨_, rfl, ?_⟩
  try dsimp only
  repeat' (first
    | with_reducible exact Keeps.refl _ _
    | with_reducible assumption
    | with_reducible apply Eff.keeps_done
    | with_reducible apply Eff.keeps_fault
    | with_reducible apply Eff.keeps_wait
    | with_reducible apply Eff.keeps_hold
    | with_reducible apply Eff.keeps_ite
    | with_reducible apply Eff.keeps_ite_fst
    | ((with_reducible apply State.regWrite_keeps); decide)
    | ((with_reducible apply Keeps.after (tstInjCtrlWrite_keeps ..)); decide)
    | intro _
    | split)

theorem State.fire_keeps {k : List Part} {s0 : State} (s : State) (kind : Nat) (f : State → State)
    (hk : ([.regs, .test] : List Part).all k.contains = true) (hf : ∀ t, Keeps k t (f t)) (h0 : Keeps k s0 s) :
    Keeps k s0 (s.fire kind f) := by
  have hr : ([.regs] : List Part).all k.contains = true := Part.sub_trans (by decide) hk
  have ht : ([.test] : List Part).all k.contains = true := Part.sub_trans (by decide) hk
  refine Keeps.after ?_ (Part.sub_refl _) h0
  unfold State.fire
  split
  · dsimp only
    with_reducible refine Keeps.after (State.trace_keeps ..) (Part.sub_trans (by decide) hk) ?_
    with_reducible refine Keeps.after (hf _) (Part.sub_refl _) ?_
    exact Keeps.after (State.withTest_keeps ..) ht (Keeps.after (State.setFld_keeps ..) hr (Keeps.refl _ _))
  · exact Keeps.refl _ _

theorem State.invert_keeps (s : State) (w mask : Nat) : Keeps [.ecc] s (State.invert s w mask) := by
  unfold State.invert
  try dsimp only
  repeat' (first
    | with_reducible exact Keeps.refl _ _
    | with_reducible assumption
    | with_reducible apply Keeps.ite
    | ((with_reducible apply Keeps.after (State.withEccMask_keeps ..)); decide)
    | split)

theorem execInjectHbmCe_keeps (s : State) :
    ∃ nx, execInjectHbmCe s = .next nx ∧ Keeps [.regs, .ecc, .test] s nx := by
  refine ⟨_, rfl, ?_⟩
  try dsimp only
  repeat' (first
    | with_reducible exact Keeps.refl _ _
    | with_reducible assumption
    | with_reducible apply Eff.keeps_done
    | with_reducible apply Eff.keeps_fault
    | with_reducible apply Eff.keeps_wait
    | with_reducible apply Eff.keeps_hold
    | with_reducible apply Eff.keeps_ite
    | with_reducible apply Eff.keeps_ite_fst
    | ((with_reducible apply State.fire_keeps); decide)
    | ((with_reducible apply Keeps.after (State.invert_keeps ..)); decide)
    | intro _
    | split)

theorem execInjectHbmUe_keeps (s : State) :
    ∃ nx, execInjectHbmUe s = .next nx ∧ Keeps [.regs, .ecc, .test] s nx := by
  refine ⟨_, rfl, ?_⟩
  try dsimp only
  repeat' (first
    | with_reducible exact Keeps.refl _ _
    | with_reducible assumption
    | with_reducible apply Eff.keeps_done
    | with_reducible apply Eff.keeps_fault
    | with_reducible apply Eff.keeps_wait
    | with_reducible apply Eff.keeps_hold
    | with_reducible apply Eff.keeps_ite
    | with_reducible apply Eff.keeps_ite_fst
    | ((with_reducible apply State.fire_keeps); decide)
    | ((with_reducible apply Keeps.after (State.invert_keeps ..)); decide)
    | intro _
    | split)

theorem execInjectMsUe_keeps (s : State) :
    ∃ nx, execInjectMsUe s = .next nx ∧ Keeps [.regs, .ecc, .test] s nx := by
  refine ⟨_, rfl, ?_⟩
  try dsimp only
  repeat' (first
    | with_reducible exact Keeps.refl _ _
    | with_reducible assumption
    | with_reducible apply Keeps.ite
    | with_reducible apply Eff.keeps_done
    | with_reducible apply Eff.keeps_fault
    | with_reducible apply Eff.keeps_wait
    | with_reducible apply Eff.keeps_hold
    | with_reducible apply Eff.keeps_ite
    | with_reducible apply Eff.keeps_ite_fst
    | ((with_reducible apply State.fire_keeps); decide)
    | ((with_reducible apply Keeps.after (State.withMsBad_keeps ..)); decide)
    | intro _
    | split)

theorem execInjectD2dCrc_keeps (s : State) :
    ∃ nx, execInjectD2dCrc s = .next nx ∧ Keeps [.regs, .boot, .test] s nx := by
  refine ⟨_, rfl, ?_⟩
  try dsimp only
  repeat' (first
    | with_reducible exact Keeps.refl _ _
    | with_reducible assumption
    | with_reducible apply Eff.keeps_done
    | with_reducible apply Eff.keeps_fault
    | with_reducible apply Eff.keeps_wait
    | with_reducible apply Eff.keeps_hold
    | with_reducible apply Eff.keeps_ite
    | with_reducible apply Eff.keeps_ite_fst
    | ((with_reducible apply State.fire_keeps); decide)
    | ((with_reducible apply Keeps.after (State.withBoot_keeps ..)); decide)
    | intro _
    | split)

theorem execInjectFabFec_keeps (s : State) :
    ∃ nx, execInjectFabFec s = .next nx ∧ Keeps [.regs, .out, .test] s nx := by
  refine ⟨_, rfl, ?_⟩
  try dsimp only
  repeat' (first
    | with_reducible exact Keeps.refl _ _
    | with_reducible assumption
    | with_reducible apply Eff.keeps_done
    | with_reducible apply Eff.keeps_fault
    | with_reducible apply Eff.keeps_wait
    | with_reducible apply Eff.keeps_hold
    | with_reducible apply Eff.keeps_ite
    | with_reducible apply Eff.keeps_ite_fst
    | ((with_reducible apply State.fire_keeps); decide)
    | ((with_reducible apply Keeps.after (State.emit_keeps ..)); decide)
    | intro _
    | split)

theorem execForceHalt_keeps (s : State) :
    ∃ nx, execForceHalt s = .next nx ∧ Keeps [.regs, .test, .cores, .sched] s nx := by
  refine ⟨_, rfl, ?_⟩
  try dsimp only
  repeat' (first
    | with_reducible exact Keeps.refl _ _
    | with_reducible assumption
    | with_reducible apply Eff.keeps_done
    | with_reducible apply Eff.keeps_fault
    | with_reducible apply Eff.keeps_wait
    | with_reducible apply Eff.keeps_hold
    | with_reducible apply Eff.keeps_ite
    | with_reducible apply Eff.keeps_ite_fst
    | ((with_reducible apply State.fire_keeps); decide)
    | ((with_reducible apply Keeps.after (ttCtrlWrite_keeps ..)); decide)
    | intro _
    | split)

theorem execForceRetrain_keeps (s : State) :
    ∃ nx, execForceRetrain s = .next nx ∧ Keeps [.regs, .test, .units] s nx := by
  refine ⟨_, rfl, ?_⟩
  try dsimp only
  repeat' (first
    | with_reducible exact Keeps.refl _ _
    | with_reducible assumption
    | with_reducible apply Keeps.ite
    | with_reducible apply Eff.keeps_done
    | with_reducible apply Eff.keeps_fault
    | with_reducible apply Eff.keeps_wait
    | with_reducible apply Eff.keeps_hold
    | with_reducible apply Eff.keeps_ite
    | with_reducible apply Eff.keeps_ite_fst
    | ((with_reducible apply State.fire_keeps); decide)
    | ((with_reducible apply Keeps.after (State.leaveService_keeps ..)); decide)
    | intro _
    | split)

theorem tstPerfSelWrite_keeps (i : Nat) (v : Word) (s : State) : Keeps [.regs] s (tstPerfSelWrite i v s).2 := by
  unfold tstPerfSelWrite
  try dsimp only
  repeat' (first
    | with_reducible exact Keeps.refl _ _
    | with_reducible assumption
    | with_reducible apply Keeps.ite
    | with_reducible apply Eff.keeps_done
    | with_reducible apply Eff.keeps_fault
    | with_reducible apply Eff.keeps_wait
    | with_reducible apply Eff.keeps_hold
    | with_reducible apply Eff.keeps_ite
    | with_reducible apply Eff.keeps_ite_fst
    | ((with_reducible apply tstWrite_keeps); decide)
    | ((with_reducible apply Keeps.after (State.putRw_keeps ..)); decide)
    | ((with_reducible apply Keeps.after (State.setReg_keeps ..)); decide)
    | intro _
    | ((with_reducible apply Keeps.of_eq); assumption)
    | ((with_reducible apply Keeps.of_eq3); assumption)
    | split)

theorem execTstPerfSelWrite_keeps (q : Fin 4) (i : Fin 16) (v : Word) (s : State) :
    ∃ nx, execTstPerfSelWrite q i v s = .next nx ∧ Keeps [.regs, .vio, .out, .host, .test] s nx := by
  refine ⟨_, rfl, ?_⟩
  try dsimp only
  repeat' (first
    | with_reducible exact Keeps.refl _ _
    | with_reducible assumption
    | with_reducible apply Eff.keeps_done
    | with_reducible apply Eff.keeps_fault
    | with_reducible apply Eff.keeps_wait
    | with_reducible apply Eff.keeps_hold
    | with_reducible apply Eff.keeps_ite
    | with_reducible apply Eff.keeps_ite_fst
    | ((with_reducible apply State.regWrite_keeps); decide)
    | ((with_reducible apply Keeps.after (tstPerfSelWrite_keeps ..)); decide)
    | intro _
    | split)

theorem State.clearTrace_keeps (s : State) : Keeps [.regs, .test] s (State.clearTrace s) := by
  unfold State.clearTrace
  try dsimp only
  repeat' (first
    | with_reducible exact Keeps.refl _ _
    | with_reducible assumption
    | ((with_reducible apply Keeps.after (State.setFld_keeps ..)); decide)
    | ((with_reducible apply Keeps.after (State.withTest_keeps ..)); decide)
    | split)

theorem tstTraceCtrlWrite_keeps (points : List Nat) (v : Word) (s : State) : Keeps [.regs, .test] s (tstTraceCtrlWrite points v s).2 := by
  unfold tstTraceCtrlWrite
  try dsimp only
  repeat' (first
    | with_reducible exact Keeps.refl _ _
    | with_reducible assumption
    | with_reducible apply Keeps.ite
    | with_reducible apply Eff.keeps_done
    | with_reducible apply Eff.keeps_fault
    | with_reducible apply Eff.keeps_wait
    | with_reducible apply Eff.keeps_hold
    | with_reducible apply Eff.keeps_ite
    | with_reducible apply Eff.keeps_ite_fst
    | ((with_reducible apply tstWrite_keeps); decide)
    | ((with_reducible apply Keeps.after (State.putRw_keeps ..)); decide)
    | ((with_reducible apply Keeps.after (State.clearTrace_keeps ..)); decide)
    | ((with_reducible apply Keeps.after (State.trace_keeps ..)); decide)
    | intro _
    | with_reducible refine Keeps.foldl (fun _ _ _ => ?_) ?_
    | split)

theorem execTstTraceEnable_keeps (q : Fin 4) (v : Word) (s : State) :
    ∃ nx, execTstTraceEnable q v s = .next nx ∧ Keeps [.regs, .vio, .out, .host, .test] s nx := by
  refine ⟨_, rfl, ?_⟩
  try dsimp only
  repeat' (first
    | with_reducible exact Keeps.refl _ _
    | with_reducible assumption
    | with_reducible apply Eff.keeps_done
    | with_reducible apply Eff.keeps_fault
    | with_reducible apply Eff.keeps_wait
    | with_reducible apply Eff.keeps_hold
    | with_reducible apply Eff.keeps_ite
    | with_reducible apply Eff.keeps_ite_fst
    | ((with_reducible apply State.regWrite_keeps); decide)
    | ((with_reducible apply Keeps.after (tstTraceCtrlWrite_keeps ..)); decide)
    | intro _
    | split)

theorem execEyeStart_keeps (q : Fin 4) (v : Word) (points : List Nat) (s : State) :
    ∃ nx, execEyeStart q v points s = .next nx ∧ Keeps [.regs, .vio, .out, .host, .test] s nx := by
  refine ⟨_, rfl, ?_⟩
  try dsimp only
  repeat' (first
    | with_reducible exact Keeps.refl _ _
    | with_reducible assumption
    | with_reducible apply Eff.keeps_done
    | with_reducible apply Eff.keeps_fault
    | with_reducible apply Eff.keeps_wait
    | with_reducible apply Eff.keeps_hold
    | with_reducible apply Eff.keeps_ite
    | with_reducible apply Eff.keeps_ite_fst
    | ((with_reducible apply State.regWrite_keeps); decide)
    | ((with_reducible apply Keeps.after (tstTraceCtrlWrite_keeps ..)); decide)
    | intro _
    | split)

theorem tstValveOvrWrite_keeps (v : Word) (s : State) : Keeps [.regs] s (tstValveOvrWrite v s).2 := by
  unfold tstValveOvrWrite
  try dsimp only
  repeat' (first
    | with_reducible exact Keeps.refl _ _
    | with_reducible assumption
    | with_reducible apply Keeps.ite
    | with_reducible apply Eff.keeps_done
    | with_reducible apply Eff.keeps_fault
    | with_reducible apply Eff.keeps_wait
    | with_reducible apply Eff.keeps_hold
    | with_reducible apply Eff.keeps_ite
    | with_reducible apply Eff.keeps_ite_fst
    | ((with_reducible apply tstWrite_keeps); decide)
    | ((with_reducible apply Keeps.after (State.putRw_keeps ..)); decide)
    | ((with_reducible apply Keeps.after (State.driveValve_keeps ..)); decide)
    | intro _
    | split)

theorem execTstValveOvrWrite_keeps (q : Fin 4) (v : Word) (s : State) :
    ∃ nx, execTstValveOvrWrite q v s = .next nx ∧ Keeps [.regs, .vio, .out, .host, .test] s nx := by
  refine ⟨_, rfl, ?_⟩
  try dsimp only
  repeat' (first
    | with_reducible exact Keeps.refl _ _
    | with_reducible assumption
    | with_reducible apply Eff.keeps_done
    | with_reducible apply Eff.keeps_fault
    | with_reducible apply Eff.keeps_wait
    | with_reducible apply Eff.keeps_hold
    | with_reducible apply Eff.keeps_ite
    | with_reducible apply Eff.keeps_ite_fst
    | ((with_reducible apply State.regWrite_keeps); decide)
    | ((with_reducible apply Keeps.after (tstValveOvrWrite_keeps ..)); decide)
    | intro _
    | split)

theorem State.direct_keeps (s : State) (op code a : Nat) (shelf : Option (List Byte)) : Keeps [.free, .regs, .mem, .ecc, .vio, .out, .host, .boot, .test, .units] s (State.direct s op code a shelf).2 := by
  unfold State.direct
  try dsimp only
  repeat' (first
    | with_reducible exact Keeps.refl _ _
    | with_reducible assumption
    | with_reducible apply Keeps.ite
    | ((with_reducible apply Keeps.after (State.emit_keeps ..)); decide)
    | ((with_reducible apply Keeps.after (State.writeMem_keeps ..)); decide)
    | ((with_reducible apply Keeps.after (State.readMem_keeps ..)); decide)
    | ((with_reducible apply Keeps.of_eq); assumption)
    | ((with_reducible apply Keeps.of_eq3); assumption)
    | with_reducible apply Keeps.ite_snd
    | split)

theorem tstDirectWrite_keeps (shelf : Option (List Byte)) (v : Word) (s : State) : Keeps [.free, .regs, .mem, .ecc, .vio, .out, .host, .boot, .test, .units] s (tstDirectWrite shelf v s).2 := by
  unfold tstDirectWrite
  try dsimp only
  repeat' (first
    | with_reducible exact Keeps.refl _ _
    | with_reducible assumption
    | with_reducible apply Keeps.ite
    | with_reducible apply Eff.keeps_done
    | with_reducible apply Eff.keeps_fault
    | with_reducible apply Eff.keeps_wait
    | with_reducible apply Eff.keeps_hold
    | with_reducible apply Eff.keeps_ite
    | with_reducible apply Eff.keeps_ite_fst
    | ((with_reducible apply tstWrite_keeps); decide)
    | ((with_reducible apply Keeps.after (State.direct_keeps ..)); decide)
    | intro _
    | split)

theorem execPmbusRead_keeps (q : Fin 4) (code : Fin 256) (addr : BitVec 40) (shelf : Option (List Byte)) (s : State) :
    ∃ nx, execPmbusRead q code addr shelf s = .next nx ∧ Keeps [.free, .regs, .mem, .ecc, .vio, .out, .host, .boot, .test, .units] s nx := by
  refine ⟨_, rfl, ?_⟩
  try dsimp only
  repeat' (first
    | with_reducible exact Keeps.refl _ _
    | with_reducible assumption
    | with_reducible apply Eff.keeps_done
    | with_reducible apply Eff.keeps_fault
    | with_reducible apply Eff.keeps_wait
    | with_reducible apply Eff.keeps_hold
    | with_reducible apply Eff.keeps_ite
    | with_reducible apply Eff.keeps_ite_fst
    | ((with_reducible apply State.regWrite_keeps); decide)
    | ((with_reducible apply Keeps.after (tstDirectWrite_keeps ..)); decide)
    | intro _
    | split)

theorem execPmbusWrite_keeps (q : Fin 4) (code : Fin 256) (addr : BitVec 40) (s : State) :
    ∃ nx, execPmbusWrite q code addr s = .next nx ∧ Keeps [.free, .regs, .mem, .ecc, .vio, .out, .host, .boot, .test, .units] s nx := by
  refine ⟨_, rfl, ?_⟩
  try dsimp only
  repeat' (first
    | with_reducible exact Keeps.refl _ _
    | with_reducible assumption
    | with_reducible apply Eff.keeps_done
    | with_reducible apply Eff.keeps_fault
    | with_reducible apply Eff.keeps_wait
    | with_reducible apply Eff.keeps_hold
    | with_reducible apply Eff.keeps_ite
    | with_reducible apply Eff.keeps_ite_fst
    | ((with_reducible apply State.regWrite_keeps); decide)
    | ((with_reducible apply Keeps.after (tstDirectWrite_keeps ..)); decide)
    | intro _
    | split)

theorem execFlashRead_keeps (q : Fin 4) (addr : BitVec 40) (s : State) :
    ∃ nx, execFlashRead q addr s = .next nx ∧ Keeps [.free, .regs, .mem, .ecc, .vio, .out, .host, .boot, .test, .units] s nx := by
  refine ⟨_, rfl, ?_⟩
  try dsimp only
  repeat' (first
    | with_reducible exact Keeps.refl _ _
    | with_reducible assumption
    | with_reducible apply Eff.keeps_done
    | with_reducible apply Eff.keeps_fault
    | with_reducible apply Eff.keeps_wait
    | with_reducible apply Eff.keeps_hold
    | with_reducible apply Eff.keeps_ite
    | with_reducible apply Eff.keeps_ite_fst
    | ((with_reducible apply State.regWrite_keeps); decide)
    | ((with_reducible apply Keeps.after (tstDirectWrite_keeps ..)); decide)
    | intro _
    | split)

end Sys2Proof.Machine
end

