-- ==== Sys2Proof/Laws/KeepsRegAccess.lean ====
section
/-! SUPPORT. What the operations of Machine/RegAccess.lean may change: one law each. -/

namespace Sys2Proof.Machine

theorem State.clearRc_keeps (s : State) (r : RegRow) (a : Nat) : Keeps [.regs, .vio] s (State.clearRc s r a) := by
  unfold State.clearRc
  try dsimp only
  repeat' (first
    | with_reducible exact Keeps.refl _ _
    | with_reducible assumption
    | with_reducible apply Keeps.ite
    | ((with_reducible apply Keeps.after (State.setVio_keeps ..)); decide)
    | ((with_reducible apply Keeps.after (State.setReg_keeps ..)); decide)
    | split)

theorem State.readReg_keeps (s : State) (a : Nat) : Keeps [.regs, .vio] s (State.readReg s a).2.2 := by
  unfold State.readReg
  try dsimp only
  repeat' (first
    | with_reducible exact Keeps.refl _ _
    | with_reducible assumption
    | with_reducible apply Keeps.ite
    | ((with_reducible apply Keeps.after (State.clearRc_keeps ..)); decide)
    | ((with_reducible apply Keeps.of_eq); assumption)
    | ((with_reducible apply Keeps.of_eq3); assumption)
    | with_reducible apply Keeps.ite_snd2
    | split)

theorem hbmSkewWrite_keeps (v : Word) (s : State) : Keeps [.regs] s (hbmSkewWrite v s).2 := by
  unfold hbmSkewWrite
  try dsimp only
  repeat' (first
    | with_reducible exact Keeps.refl _ _
    | with_reducible assumption
    | ((with_reducible apply Keeps.after (State.setReg_keeps ..)); decide)
    | split)

theorem hstEventQpWrite_keeps (v : Word) (s : State) : Keeps [.regs, .out, .host] s (hstEventQpWrite v s).2 := by
  unfold hstEventQpWrite
  try dsimp only
  repeat' (first
    | with_reducible exact Keeps.refl _ _
    | with_reducible assumption
    | ((with_reducible apply Keeps.after (State.putRw_keeps ..)); decide)
    | ((with_reducible apply Keeps.after (State.sendHeldEvents_keeps ..)); decide)
    | split)

theorem ruleTt_keeps (a : Nat) (v : Word) (s : State) : Keeps [.free, .regs, .mem, .ecc, .vio, .out, .host, .boot, .test, .cores, .sched, .units] s (ruleTt a v s).2 := by
  unfold ruleTt
  try dsimp only
  repeat' (first
    | with_reducible exact Keeps.refl _ _
    | with_reducible assumption
    | with_reducible apply Keeps.ite
    | ((with_reducible apply Keeps.after (ttCtrlWrite_keeps ..)); decide)
    | ((with_reducible apply Keeps.after (ttLoadWrite_keeps ..)); decide)
    | ((with_reducible apply Keeps.after (ttLimitsWrite_keeps ..)); decide)
    | ((with_reducible apply Keeps.after (ttSidingCmdWrite_keeps ..)); decide)
    | split)

theorem ruleSfu_keeps (a : Nat) (v : Word) (s : State) : Keeps [.regs, .units] s (ruleSfu a v s).2 := by
  unfold ruleSfu
  try dsimp only
  repeat' (first
    | with_reducible exact Keeps.refl _ _
    | with_reducible assumption
    | with_reducible apply Keeps.ite
    | ((with_reducible apply Keeps.after (sfuTableLoadWrite_keeps ..)); decide)
    | ((with_reducible apply Keeps.after (sfuCtrlWrite_keeps ..)); decide)
    | split)

theorem ruleKvp_keeps (a : Nat) (v : Word) (s : State) : Keeps [.free, .regs, .mem, .ecc, .units] s (ruleKvp a v s).2 := by
  unfold ruleKvp
  try dsimp only
  repeat' (first
    | with_reducible exact Keeps.refl _ _
    | with_reducible assumption
    | with_reducible apply Keeps.ite
    | ((with_reducible apply Keeps.after (kvpCtrlWrite_keeps ..)); decide)
    | ((with_reducible apply Keeps.after (kvpLimitsWrite_keeps ..)); decide)
    | ((with_reducible apply Keeps.after (kvpSubmitWrite_keeps ..)); decide)
    | split)

theorem ruleHbm_keeps (a : Nat) (v : Word) (s : State) : Keeps [.regs] s (ruleHbm a v s).2 := by
  unfold ruleHbm
  try dsimp only
  repeat' (first
    | with_reducible exact Keeps.refl _ _
    | with_reducible assumption
    | with_reducible apply Keeps.ite
    | ((with_reducible apply Keeps.after (hbmSkewWrite_keeps ..)); decide)
    | ((with_reducible apply Keeps.after (hbmSkewCtrlWrite_keeps ..)); decide)
    | ((with_reducible apply Keeps.after (hbmNarrowCtrlWrite_keeps ..)); decide)
    | ((with_reducible apply Keeps.after (hbmScrubCtrlWrite_keeps ..)); decide)
    | split)

theorem ruleBwr_keeps (a n : Nat) (v : Word) (s : State) : Keeps [.regs, .units] s (ruleBwr a n v s).2 := by
  unfold ruleBwr
  try dsimp only
  repeat' (first
    | with_reducible exact Keeps.refl _ _
    | with_reducible assumption
    | with_reducible apply Keeps.ite
    | ((with_reducible apply Keeps.after (bwrSwap_keeps ..)); decide)
    | ((with_reducible apply Keeps.after (bwrStageWrite_keeps ..)); decide)
    | split)

theorem ruleFab_keeps (r : RegRow) (a n : Nat) (v : Word) (s : State) : Keeps [.free, .regs, .mem, .vio, .out, .host, .test, .units] s (ruleFab r a n v s).2 := by
  unfold ruleFab
  try dsimp only
  repeat' (first
    | with_reducible exact Keeps.refl _ _
    | with_reducible assumption
    | with_reducible apply Keeps.ite
    | ((with_reducible apply Keeps.after (fabCtrlWrite_keeps ..)); decide)
    | ((with_reducible apply Keeps.after (fabLimitsWrite_keeps ..)); decide)
    | ((with_reducible apply Keeps.after (fabTtLoadWrite_keeps ..)); decide)
    | ((with_reducible apply Keeps.after (fabWinBaseWrite_keeps ..)); decide)
    | ((with_reducible apply Keeps.after (fabWinSizeWrite_keeps ..)); decide)
    | ((with_reducible apply Keeps.after (fabPortCtrlWrite_keeps ..)); decide)
    | ((with_reducible apply Keeps.after (State.putRw_keeps ..)); decide)
    | split)

theorem ruleHst_keeps (r : RegRow) (a n : Nat) (v : Word) (s : State) : Keeps [.free, .regs, .mem, .ecc, .vio, .out, .host, .boot, .test, .units] s (ruleHst r a n v s).2 := by
  unfold ruleHst
  try dsimp only
  repeat' (first
    | with_reducible exact Keeps.refl _ _
    | with_reducible assumption
    | with_reducible apply Keeps.ite
    | ((with_reducible apply Keeps.after (hstEventQpWrite_keeps ..)); decide)
    | ((with_reducible apply Keeps.after (hstPortCfgWrite_keeps ..)); decide)
    | ((with_reducible apply Keeps.after (hstPortGidWrite_keeps ..)); decide)
    | ((with_reducible apply Keeps.after (doorbellWrite_keeps ..)); decide)
    | ((with_reducible apply Keeps.after (qpPageWrite_keeps ..)); decide)
    | split)

theorem ruleBup_keeps (o : WriteObs) (a : Nat) (v : Word) (s : State) : Keeps [.free, .regs, .mem, .ecc, .vio, .out, .host, .boot, .gov, .sec, .test, .cores, .sched, .units] s (ruleBup o a v s).2 := by
  unfold ruleBup
  try dsimp only
  repeat' (first
    | with_reducible exact Keeps.refl _ _
    | with_reducible assumption
    | with_reducible apply Keeps.ite
    | ((with_reducible apply Keeps.after (bupResetWrite_keeps ..)); decide)
    | ((with_reducible apply Keeps.after (flashCmdWrite_keeps ..)); decide)
    | split)

theorem ruleTst_keeps (o : WriteObs) (r : RegRow) (a n : Nat) (v : Word) (s : State) : Keeps [.free, .regs, .mem, .ecc, .vio, .out, .host, .boot, .test, .units] s (ruleTst o r a n v s).2 := by
  unfold ruleTst
  try dsimp only
  repeat' (first
    | with_reducible exact Keeps.refl _ _
    | with_reducible assumption
    | with_reducible apply Keeps.ite
    | ((with_reducible apply Keeps.after (tstDcqWrite_keeps ..)); decide)
    | ((with_reducible apply Keeps.after (tstThrottleWrite_keeps ..)); decide)
    | ((with_reducible apply Keeps.after (tstCreditWrite_keeps ..)); decide)
    | ((with_reducible apply Keeps.after (tstRefreshWrite_keeps ..)); decide)
    | ((with_reducible apply Keeps.after (tstInjCtrlWrite_keeps ..)); decide)
    | ((with_reducible apply Keeps.after (tstInjAddrWrite_keeps ..)); decide)
    | ((with_reducible apply Keeps.after (tstTraceCtrlWrite_keeps ..)); decide)
    | ((with_reducible apply Keeps.after (tstValveOvrWrite_keeps ..)); decide)
    | ((with_reducible apply Keeps.after (tstPerfSelWrite_keeps ..)); decide)
    | ((with_reducible apply Keeps.after (tstDirectWrite_keeps ..)); decide)
    | split)

theorem writeRule_keeps (o : WriteObs) (r : RegRow) (a : Nat) (v : Word) (s : State) :
    Keeps [.free, .regs, .mem, .ecc, .vio, .out, .host, .boot, .gov, .sec, .test, .cores, .sched, .units] s (writeRule o r a v s).2 := by
  unfold writeRule
  generalize r.block = b
  split
  · exact (ruleTt_keeps ..).after (by decide) (Keeps.refl _ _)
  · exact (coreLimitsWrite_keeps ..).after (by decide) (Keeps.refl _ _)
  · exact (ruleSfu_keeps ..).after (by decide) (Keeps.refl _ _)
  · exact (ruleKvp_keeps ..).after (by decide) (Keeps.refl _ _)
  · exact (ngeBindWrite_keeps ..).after (by decide) (Keeps.refl _ _)
  · exact (ruleHbm_keeps ..).after (by decide) (Keeps.refl _ _)
  · exact (ruleBwr_keeps ..).after (by decide) (Keeps.refl _ _)
  · exact (ruleFab_keeps ..).after (by decide) (Keeps.refl _ _)
  · exact (grdOpenWrite_keeps ..).after (by decide) (Keeps.refl _ _)
  · exact (medSubmitWrite_keeps ..).after (by decide) (Keeps.refl _ _)
  · exact (ruleHst_keeps ..).after (by decide) (Keeps.refl _ _)
  · exact (ruleBup_keeps ..).after (by decide) (Keeps.refl _ _)
  · exact (pwrLimitWrite_keeps ..).after (by decide) (Keeps.refl _ _)
  · exact (secSubmitWrite_keeps ..).after (by decide) (Keeps.refl _ _)
  · exact (ruleTst_keeps ..).after (by decide) (Keeps.refl _ _)
  · exact (State.putRw_keeps ..).after (by decide) (Keeps.refl _ _)

theorem State.writeReg_keeps (s : State) (o : WriteObs) (a : Nat) (v : Word) : Keeps [.free, .regs, .mem, .ecc, .vio, .out, .host, .boot, .gov, .sec, .test, .cores, .sched, .units] s (State.writeReg s o a v).2 := by
  unfold State.writeReg
  try dsimp only
  repeat' (first
    | with_reducible exact Keeps.refl _ _
    | with_reducible assumption
    | with_reducible apply Keeps.ite
    | ((with_reducible apply Keeps.after (writeRule_keeps ..)); decide)
    | ((with_reducible apply Keeps.of_eq); assumption)
    | ((with_reducible apply Keeps.of_eq3); assumption)
    | with_reducible apply Keeps.ite_snd
    | split)

theorem execRegisterWrite_keeps (x : RegAccess) (s : State) :
    ∃ nx, execRegisterWrite x s = .next nx ∧ Keeps [.free, .regs, .mem, .ecc, .vio, .out, .host, .boot, .gov, .sec, .test, .cores, .sched, .units] s nx := by
  refine ⟨_, rfl, ?_⟩
  try dsimp only
  repeat' (first
    | with_reducible exact Keeps.refl _ _
    | with_reducible assumption
    | with_reducible apply Keeps.ite
    | ((with_reducible apply Keeps.after (State.writeReg_keeps ..)); decide)
    | ((with_reducible apply Keeps.after (State.logReg_keeps ..)); decide)
    | ((with_reducible apply Keeps.after (State.emit_keeps ..)); decide)
    | split)

theorem State.keepSeen_keeps (s : State) (q : Nat) (m : MgmtSeen) : Keeps [.host] s (State.keepSeen s q m) := by
  unfold State.keepSeen
  try dsimp only
  repeat' (first
    | with_reducible exact Keeps.refl _ _
    | with_reducible assumption
    | ((with_reducible apply Keeps.after (State.withHost_keeps ..)); decide)
    | split)

theorem State.writeWords_keeps (s : State) (q : Nat) (o : WriteObs) (a : Nat) (l : List Word) : Keeps [.free, .regs, .mem, .ecc, .vio, .out, .host, .boot, .gov, .sec, .test, .cores, .sched, .units] s (s.writeWords q o a l) := by
  induction l generalizing s a with
  | nil => exact Keeps.refl _ _
  | cons v l ih =>
    unfold State.writeWords
    refine Keeps.ite (Keeps.refl _ _) (Keeps.after (ih ..) (by decide) (Keeps.after (State.logReg_keeps ..) (by decide)
      (Keeps.after (State.writeReg_keeps ..) (by decide) (Keeps.refl _ _))))

theorem State.readWords_keeps (s : State) (q a n : Nat) : Keeps [.regs, .vio, .out, .host, .test] s (s.readWords q a n).2 := by
  induction n generalizing s a with
  | zero => exact Keeps.refl _ _
  | succ n ih =>
    unfold State.readWords
    exact Keeps.snd_mk (Keeps.after (ih ..) (by decide) (Keeps.after (State.logReg_keeps ..) (by decide)
      (Keeps.after (State.readReg_keeps ..) (by decide) (Keeps.refl _ _))))

theorem State.beginLogRead_keeps (s : State) (i : Nat) : Keeps [.vio] s (State.beginLogRead s i) := by
  unfold State.beginLogRead
  try dsimp only
  repeat' (first
    | with_reducible exact Keeps.refl _ _
    | with_reducible assumption
    | ((with_reducible apply Keeps.after (State.setVio_keeps ..)); decide)
    | split)

theorem State.endLogRead_keeps (s : State) (i : Nat) : Keeps [.vio] s (State.endLogRead s i) := by
  unfold State.endLogRead
  try dsimp only
  repeat' (first
    | with_reducible exact Keeps.refl _ _
    | with_reducible assumption
    | ((with_reducible apply Keeps.after (State.setVio_keeps ..)); decide)
    | split)

theorem State.readWindow_keeps (s : State) (q psn a n : Nat) (arising : List (Nat × Arising)) : Keeps [.regs, .vio, .out, .host, .test] s (State.readWindow s q psn a n arising) := by
  unfold State.readWindow
  try dsimp only
  repeat' (first
    | with_reducible exact Keeps.refl _ _
    | with_reducible assumption
    | ((with_reducible apply Keeps.after (State.beginLogRead_keeps ..)); decide)
    | ((with_reducible apply Keeps.after (State.readWords_keeps ..)); decide)
    | ((with_reducible apply Keeps.after (State.log_keeps ..)); decide)
    | ((with_reducible apply Keeps.after (State.endLogRead_keeps ..)); decide)
    | ((with_reducible apply Keeps.after (State.keepSeen_keeps ..)); decide)
    | ((with_reducible apply Keeps.after (State.emit_keeps ..)); decide)
    | with_reducible refine Keeps.foldl_snd (fun _ _ _ => ?_) ?_
    | with_reducible refine Keeps.foldl (fun _ _ _ => ?_) ?_
    | split)

theorem execMgmtRdmaWrite_keeps (q : Fin 4) (psn va : Nat) (data : List Byte) (obs : WriteObs) (s : State) :
    ∃ nx, execMgmtRdmaWrite q psn va data obs s = .next nx ∧ Keeps [.free, .regs, .mem, .ecc, .vio, .out, .host, .boot, .gov, .sec, .test, .cores, .sched, .units] s nx := by
  refine ⟨_, rfl, ?_⟩
  try dsimp only
  repeat' (first
    | with_reducible exact Keeps.refl _ _
    | with_reducible assumption
    | with_reducible apply Keeps.ite
    | ((with_reducible apply Keeps.after (State.dropFrame_keeps ..)); decide)
    | ((with_reducible apply Keeps.after (State.emit_keeps ..)); decide)
    | ((with_reducible apply Keeps.after (State.nakHost_keeps ..)); decide)
    | ((with_reducible apply Keeps.after (State.writeWords_keeps ..)); decide)
    | ((with_reducible apply Keeps.after (State.keepSeen_keeps ..)); decide)
    | ((with_reducible apply Keeps.after (State.writeMem_keeps ..)); decide)
    | split)

theorem State.mgmtRead_keeps (s : State) (q psn va len : Nat) (arising : List (Nat × Arising)) : Keeps [.free, .regs, .mem, .ecc, .vio, .out, .host, .boot, .test, .units] s (State.mgmtRead s q psn va len arising) := by
  unfold State.mgmtRead
  try dsimp only
  repeat' (first
    | with_reducible exact Keeps.refl _ _
    | with_reducible assumption
    | with_reducible apply Keeps.ite
    | ((with_reducible apply Keeps.after (State.dropFrame_keeps ..)); decide)
    | ((with_reducible apply Keeps.after (State.emit_keeps ..)); decide)
    | ((with_reducible apply Keeps.after (State.nakHost_keeps ..)); decide)
    | ((with_reducible apply Keeps.after (State.readWindow_keeps ..)); decide)
    | ((with_reducible apply Keeps.after (State.readMem_keeps ..)); decide)
    | ((with_reducible apply Keeps.of_eq); assumption)
    | ((with_reducible apply Keeps.of_eq3); assumption)
    | split)

theorem execMgmtRdmaRead_keeps (q : Fin 4) (psn va len : Nat) (s : State) :
    ∃ nx, execMgmtRdmaRead q psn va len s = .next nx ∧ Keeps [.free, .regs, .mem, .ecc, .vio, .out, .host, .boot, .test, .units] s nx := by
  refine ⟨_, rfl, ?_⟩
  try dsimp only
  repeat' (first
    | with_reducible exact Keeps.refl _ _
    | with_reducible assumption
    | ((with_reducible apply Keeps.after (State.mgmtRead_keeps ..)); decide)
    | split)

theorem execVioLogRead_keeps (q : Fin 4) (psn : Nat) (page : Fin 21) (first words : Nat) (arising : List Arising) (s : State) :
    ∃ nx, execVioLogRead q psn page first words arising s = .next nx ∧ Keeps [.free, .regs, .mem, .ecc, .vio, .out, .host, .boot, .test, .units] s nx := by
  refine ⟨_, rfl, ?_⟩
  try dsimp only
  repeat' (first
    | with_reducible exact Keeps.refl _ _
    | with_reducible assumption
    | ((with_reducible apply Keeps.after (State.mgmtRead_keeps ..)); decide)
    | split)

end Sys2Proof.Machine
end

