-- ==== Sys2Proof/Laws/Exec.lean ====
section
/-! SUPPORT. Everything a command or a step can do to the parts of the state, from the laws of the commands. -/

namespace Sys2Proof.Machine

/-- Every command answers a next state that differs from the state before only in the parts it may change. -/
theorem exec_keeps (i : Instr) (s : State) : ∃ t, exec i s = .next t ∧ Keeps (touches i) s t := by
  cases i with
  | registerWrite x => exact execRegisterWrite_keeps x s
  | vioLogRead q psn page first words arising => exact execVioLogRead_keeps q psn page first words arising s
  | d2dFlitCrcFail l => exact execD2dFlitCrcFail_keeps l s
  | d2dLinkOutOfService l => exact execD2dLinkOutOfService_keeps l s
  | instrNop t h => exact execInstrNop_keeps t h s
  | mma t h o => exact execMma_keeps t h o s
  | mmaSlotMaximaWait t h o => exact execMmaSlotMaximaWait_keeps t h o s
  | drain t h o => exact execDrain_keeps t h o s
  | drainOwnerWait t h o => exact execDrainOwnerWait_keeps t h o s
  | clearb t h o => exact execClearb_keeps t h o s
  | xmax t h o => exact execXmax_keeps t h o s
  | xmaxSlotPost t => exact execXmaxSlotPost_keeps t s
  | xmerge t h o => exact execXmerge_keeps t h o s
  | xmergeOwnerMerge t => exact execXmergeOwnerMerge_keeps t s
  | vopAdd t h o => exact execVopAdd_keeps t h o s
  | vopSub t h o => exact execVopSub_keeps t h o s
  | vopMul t h o => exact execVopMul_keeps t h o s
  | vopFma t h o => exact execVopFma_keeps t h o s
  | vopMin t h o => exact execVopMin_keeps t h o s
  | vopMax t h o => exact execVopMax_keeps t h o s
  | vopCvt t h o => exact execVopCvt_keeps t h o s
  | vopCmp t h o => exact execVopCmp_keeps t h o s
  | vopAnd t h o => exact execVopAnd_keeps t h o s
  | vopOr t h o => exact execVopOr_keeps t h o s
  | vopXor t h o => exact execVopXor_keeps t h o s
  | vopShl t h o => exact execVopShl_keeps t h o s
  | vopShr t h o => exact execVopShr_keeps t h o s
  | vopSel t h o => exact execVopSel_keeps t h o s
  | vopAbs t h o => exact execVopAbs_keeps t h o s
  | vopNeg t h o => exact execVopNeg_keeps t h o s
  | laccClearSum t h o => exact execLaccClearSum_keeps t h o s
  | laccClearProduct t h o => exact execLaccClearProduct_keeps t h o s
  | laccAdd t h o => exact execLaccAdd_keeps t h o s
  | laccDrain t h o => exact execLaccDrain_keeps t h o s
  | sfnExp2 t h o => exact execSfnExp2_keeps t h o s
  | sfnExp t h o => exact execSfnExp_keeps t h o s
  | sfnLog2 t h o => exact execSfnLog2_keeps t h o s
  | sfnLn t h o => exact execSfnLn_keeps t h o s
  | sfnTanh t h o => exact execSfnTanh_keeps t h o s
  | sfnSigmoid t h o => exact execSfnSigmoid_keeps t h o s
  | sfnErf t h o => exact execSfnErf_keeps t h o s
  | sfnRcp t h o => exact execSfnRcp_keeps t h o s
  | sfnRsqrt t h o => exact execSfnRsqrt_keeps t h o s
  | sfnSqrt t h o => exact execSfnSqrt_keeps t h o s
  | sfnSinpi t h o => exact execSfnSinpi_keeps t h o s
  | sfnCospi t h o => exact execSfnCospi_keeps t h o s
  | sfnSilu t h o => exact execSfnSilu_keeps t h o s
  | sfnGelu t h o => exact execSfnGelu_keeps t h o s
  | sfnExp2a t h o => exact execSfnExp2a_keeps t h o s
  | sfnScalb t h o => exact execSfnScalb_keeps t h o s
  | sfnAnch t h o => exact execSfnAnch_keeps t h o s
  | sfnHmax t h o => exact execSfnHmax_keeps t h o s
  | sfnHmin t h o => exact execSfnHmin_keeps t h o s
  | sfnLsave t h o => exact execSfnLsave_keeps t h o s
  | sfnLmerge t h o => exact execSfnLmerge_keeps t h o s
  | rngBits t h o => exact execRngBits_keeps t h o s
  | rngUniform t h o => exact execRngUniform_keeps t h o s
  | rngUniformOpen t h o => exact execRngUniformOpen_keeps t h o s
  | rngNormalFast t h o => exact execRngNormalFast_keeps t h o s
  | rngNormalPrecise t h o => exact execRngNormalPrecise_keeps t h o s
  | rngSample t h o => exact execRngSample_keeps t h o s
  | ld t h o => exact execLd_keeps t h o s
  | st t h o => exact execSt_keeps t h o s
  | move t h o => exact execMove_keeps t h o s
  | semSet t h o => exact execSemSet_keeps t h o s
  | semAdd t h o => exact execSemAdd_keeps t h o s
  | branchAlways t h o => exact execBranchAlways_keeps t h o s
  | branchLoop t h o => exact execBranchLoop_keeps t h o s
  | branchNonzero t h o => exact execBranchNonzero_keeps t h o s
  | branchLoadLoop t h o => exact execBranchLoadLoop_keeps t h o s
  | attPass t h o => exact execAttPass_keeps t h o s
  | walkBusyRetry t h o => exact execWalkBusyRetry_keeps t h o s
  | attSlotPost t => exact execAttSlotPost_keeps t s
  | attFinalAnchors t h => exact execAttFinalAnchors_keeps t h s
  | attSend t h o => exact execAttSend_keeps t h o s
  | attDrain t h o => exact execAttDrain_keeps t h o s
  | winFetch t h o => exact execWinFetch_keeps t h o s
  | haloGateWait t h o expired => exact execHaloGateWait_keeps t h o expired s
  | winMma t h o => exact execWinMma_keeps t h o s
  | winWmax t h o => exact execWinWmax_keeps t h o s
  | winPool t h o => exact execWinPool_keeps t h o s
  | winPut t h o => exact execWinPut_keeps t h o s
  | nest t h o => exact execNest_keeps t h o s
  | itemEnd t => exact execItemEnd_keeps t s
  | nestComplete => exact execNestComplete_keeps s
  | endInstr t h => exact execEnd_keeps t h s
  | instructionComplete core index => exact execInstructionComplete_keeps core index s
  | semWaitTimeout t => exact execSemWaitTimeout_keeps t s
  | slotWaitTimeout t => exact execSlotWaitTimeout_keeps t s
  | fwSegmentMessage n msg => exact execFwSegmentMessage_keeps n msg s
  | fwEndMessage n imageId missed => exact execFwEndMessage_keeps n imageId missed s
  | fwPullTimeout n seg imageId missed => exact execFwPullTimeout_keeps n seg imageId missed s
  | coreLimitsWrite q v => exact execCoreLimitsWrite_keeps q v s
  | sfuTableLoad q v => exact execSfuTableLoad_keeps q v s
  | sfuTableLoadDone sig failed => exact execSfuTableLoadDone_keeps sig failed s
  | sfuSwap q => exact execSfuSwap_keeps q s
  | sfuDiscard q => exact execSfuDiscard_keeps q s
  | kvpEnable q => exact execKvpEnable_keeps q s
  | kvpDisable q => exact execKvpDisable_keeps q s
  | kvpLimitsWrite q v => exact execKvpLimitsWrite_keeps q v s
  | kvpCmdSubmit q v => exact execKvpCmdSubmit_keeps q v s
  | ctxSet => exact execCtxSet_keeps s
  | seqPublish => exact execSeqPublish_keeps s
  | seqClear => exact execSeqClear_keeps s
  | mapCmd => exact execMapCmd_keeps s
  | sealPage => exact execSeal_keeps s
  | movePage => exact execMovePage_keeps s
  | replace => exact execReplace_keeps s
  | freeCmd => exact execFreeCmd_keeps s
  | stagedChangesApplyIdle => exact execStagedChangesApplyIdle_keeps s
  | jobBoundary => exact execJobBoundary_keeps s
  | restoreComplete => exact execRestoreComplete_keeps s
  | jobTilesStart => exact execJobTilesStart_keeps s
  | jobComplete => exact execJobComplete_keeps s
  | ngeBind q e v => exact execNgeBind_keeps q e v s
  | ngeUnbind q e v => exact execNgeUnbind_keeps q e v s
  | ngePictureRun e => exact execNgePictureRun_keeps e s
  | hbmRequest cls write addr len data => exact execHbmRequest_keeps cls write addr len data s
  | scrubStep idx => exact execScrubStep_keeps idx s
  | skewWindowEnd => exact execSkewWindowEnd_keeps s
  | stackTemperatureHot stack tempC => exact execStackTemperatureHot_keeps stack tempC s
  | hbmSkewCtrlWrite q v => exact execHbmSkewCtrlWrite_keeps q v s
  | hbmScrubCtrlWrite q v => exact execHbmScrubCtrlWrite_keeps q v s
  | hbmNarrowCtrlWrite q v => exact execHbmNarrowCtrlWrite_keeps q v s
  | bwrSwap q => exact execBwrSwap_keeps q s
  | bwrSwapEpoch => exact execBwrSwapEpoch_keeps s
  | bwrStageWrite q p v => exact execBwrStageWrite_keeps q p v s
  | msUncorrectableRead req addr len => exact execMsUncorrectableRead_keeps req addr len s
  | portTrainingAttempt p o => exact execPortTrainingAttempt_keeps p o s
  | trainingStepTimeout p => exact execTrainingStepTimeout_keeps p s
  | retrainInterval p => exact execRetrainInterval_keeps p s
  | identRecordReceived p body crc => exact execIdentRecordReceived_keeps p body crc s
  | identTimeout p => exact execIdentTimeout_keeps p s
  | dataFlitReceived p seq good corrected => exact execDataFlitReceived_keeps p seq good corrected s
  | controlFlitReceived p ack nak credits => exact execControlFlitReceived_keeps p ack nak credits s
  | controlFlitTimeout p => exact execControlFlitTimeout_keeps p s
  | laneSignalLoss p => exact execLaneSignalLoss_keeps p s
  | groupRebuild g late => exact execGroupRebuild_keeps g late s
  | packetForward p x => exact execPacketForward_keeps p x s
  | fabricWrite h data => exact execFabricWrite_keeps h data s
  | fabricRead h len => exact execFabricRead_keeps h len s
  | fabricPostAtt h x => exact execFabricPostAtt_keeps h x s
  | fabricPostMergedInc h => exact execFabricPostMergedInc_keeps h s
  | fabricAck h st data => exact execFabricAck_keeps h st data s
  | fabricReadData h st data => exact execFabricReadData_keeps h st data s
  | fabricError h st => exact execFabricError_keeps h st s
  | remoteTimeout reqId => exact execRemoteTimeout_keeps reqId s
  | fabTtLoad q v => exact execFabTtLoad_keeps q v s
  | fabTtLoadDone => exact execFabTtLoadDone_keeps s
  | ttSwap q => exact execTtSwap_keeps q s
  | ttDiscard q => exact execTtDiscard_keeps q s
  | minWidthWrite q w => exact execMinWidthWrite_keeps q w s
  | fabLimitsWrite q v => exact execFabLimitsWrite_keeps q v s
  | fabWinWrite q idx size v => exact execFabWinWrite_keeps q idx size v s
  | portRetrain q p => exact execPortRetrain_keeps q p s
  | portDisable q p => exact execPortDisable_keeps q p s
  | topoDone => exact execTopoDone_keeps s
  | grdOpen q v => exact execGrdOpen_keeps q v s
  | grdChunkSend red dst => exact execGrdChunkSend_keeps red dst s
  | grdRaw h p => exact execGrdRaw_keeps h p s
  | grdPart h p => exact execGrdPart_keeps h p s
  | grdSample h p => exact execGrdSample_keeps h p s
  | grdGather h p => exact execGrdGather_keeps h p s
  | grdStageDeadline red sec stage chunk => exact execGrdStageDeadline_keeps red sec stage chunk s
  | grdTotalTimeout red => exact execGrdTotalTimeout_keeps red s
  | grdResend red => exact execGrdResend_keeps red s
  | grdComplete red => exact execGrdComplete_keeps red s
  | medCmdSubmit q v => exact execMedCmdSubmit_keeps q v s
  | medOpen => exact execMedOpen_keeps s
  | medClose => exact execMedClose_keeps s
  | medFlush => exact execMedFlush_keeps s
  | roiSet => exact execRoiSet_keeps s
  | rateSet => exact execRateSet_keeps s
  | medKey => exact execMedKey_keeps s
  | unitQueuePoll n => exact execUnitQueuePoll_keeps n s
  | pictureStart md enc engines d e => exact execPictureStart_keeps md enc engines d e s
  | pictureComplete n d e => exact execPictureComplete_keeps n d e s
  | slotBoundary => exact execSlotBoundary_keeps s
  | quantumExpiry => exact execQuantumExpiry_keeps s
  | preempt q => exact execPreempt_keeps q s
  | preemptHalted => exact execPreemptHalted_keeps s
  | preemptDrained => exact execPreemptDrained_keeps s
  | preemptSaved => exact execPreemptSaved_keeps s
  | preemptTimeout => exact execPreemptTimeout_keeps s
  | ttLoad q v => exact execTtLoad_keeps q v s
  | ttLoadDone => exact execTtLoadDone_keeps s
  | ttSwapRequest q => exact execTtSwapRequest_keeps q s
  | ttStagedDiscard q => exact execTtStagedDiscard_keeps q s
  | ttLimitsWrite q v => exact execTtLimitsWrite_keeps q v s
  | sidingDetach q n => exact execSidingDetach_keeps q n s
  | sidingRelease q n => exact execSidingRelease_keeps q n s
  | sidingAttach q n => exact execSidingAttach_keeps q n s
  | hostLinkUp k kr => exact execHostLinkUp_keeps k kr s
  | hostLinkDown k => exact execHostLinkDown_keeps k s
  | ethFrameReceived k f => exact execEthFrameReceived_keeps k f s
  | cnpReceived n => exact execCnpReceived_keeps n s
  | cmReq k service => exact execCmReq_keeps k service s
  | cmDreq k => exact execCmDreq_keeps k s
  | mgmtRdmaWrite q psn va data obs => exact execMgmtRdmaWrite_keeps q psn va data obs s
  | mgmtRdmaRead q psn va len => exact execMgmtRdmaRead_keeps q psn va len s
  | dataQpRdmaWrite n psn va rkey data => exact execDataQpRdmaWrite_keeps n psn va rkey data s
  | dataQpRdmaRead n psn va rkey len => exact execDataQpRdmaRead_keeps n psn va rkey len s
  | qpStateWrite q n w v => exact execQpStateWrite_keeps q n w v s
  | doorbell n produced => exact execDoorbell_keeps n produced s
  | consistNop n c e => exact execConsistNop_keeps n c e s
  | consistCopyIn n c e => exact execConsistCopyIn_keeps n c e s
  | consistCopyOut n c e => exact execConsistCopyOut_keeps n c e s
  | consistCopyLocal n c e => exact execConsistCopyLocal_keeps n c e s
  | consistJob n c e => exact execConsistJob_keeps n c e s
  | consistComplete n c => exact execConsistComplete_keeps n c s
  | qpAckTimeout n => exact execQpAckTimeout_keeps n s
  | rnrRetry n => exact execRnrRetry_keeps n s
  | hstPortCfgWrite q k r v => exact execHstPortCfgWrite_keeps q k r v s
  | powerGoodRise o => exact execPowerGoodRise_keeps o s
  | powerGoodFall => exact execPowerGoodFall_keeps s
  | resetNFall => exact execResetNFall_keeps s
  | flashEnNFall => exact execFlashEnNFall_keeps s
  | flashEnNRise o => exact execFlashEnNRise_keeps o s
  | bupReset q key slot o => exact execBupReset_keeps q key slot o s
  | recoveryAreaReady => exact execRecoveryAreaReady_keeps s
  | defectListWrite => exact execDefectListWrite_keeps s
  | hbmTestDone o => exact execHbmTestDone_keeps o s
  | flashErase q n => exact execFlashErase_keeps q n s
  | flashProgram q n src4k => exact execFlashProgram_keeps q n src4k s
  | flashVerifySlot q n sig => exact execFlashVerifySlot_keeps q n sig s
  | flashCommandComplete => exact execFlashCommandComplete_keeps s
  | sdsclkLoss => exact execSdsclkLoss_keeps s
  | sdsclkReturn => exact execSdsclkReturn_keeps s
  | governorUpdate draw levels => exact execGovernorUpdate_keeps draw levels s
  | supplySample vin => exact execSupplySample_keeps vin s
  | valveUpdate => exact execValveUpdate_keeps s
  | plantSample o => exact execPlantSample_keeps o s
  | shelfPoll r => exact execShelfPoll_keeps r s
  | smbalert r => exact execSmbalert_keeps r s
  | shelfLost => exact execShelfLost_keeps s
  | tripExitReset o => exact execTripExitReset_keeps o s
  | pwrLimitWrite q v => exact execPwrLimitWrite_keeps q v s
  | secCmdSubmit q v => exact execSecCmdSubmit_keeps q v s
  | provision sigOk masks seedOk => exact execProvision_keeps sigOk masks seedOk s
  | certStore sigOk => exact execCertStore_keeps sigOk s
  | enterField sigOk masks => exact execEnterField_keeps sigOk masks s
  | enterReturn sigOk masks => exact execEnterReturn_keeps sigOk masks s
  | scrap sigOk masks => exact execScrap_keeps sigOk masks s
  | keyProg sigOk masks => exact execKeyProg_keeps sigOk masks s
  | keyRevoke sigOk masks => exact execKeyRevoke_keeps sigOk masks s
  | fwRevoke sigOk masks => exact execFwRevoke_keeps sigOk masks s
  | svnCommit masks => exact execSvnCommit_keeps masks s
  | debugUnlock sigOk => exact execDebugUnlock_keeps sigOk s
  | defectClear sigOk => exact execDefectClear_keeps sigOk s
  | identRead => exact execIdentRead_keeps s
  | attest => exact execAttest_keeps s
  | lifecycleWarmReset o => exact execLifecycleWarmReset_keeps o s
  | tstDcqWrite q v => exact execTstDcqWrite_keeps q v s
  | tstThrottleWrite q v => exact execTstThrottleWrite_keeps q v s
  | tstCreditWrite q v => exact execTstCreditWrite_keeps q v s
  | tstRefreshWrite q v => exact execTstRefreshWrite_keeps q v s
  | tstInjArm q v => exact execTstInjArm_keeps q v s
  | injectHbmCe => exact execInjectHbmCe_keeps s
  | injectHbmUe => exact execInjectHbmUe_keeps s
  | injectMsUe => exact execInjectMsUe_keeps s
  | injectD2dCrc => exact execInjectD2dCrc_keeps s
  | injectFabFec => exact execInjectFabFec_keeps s
  | forceHalt => exact execForceHalt_keeps s
  | forceRetrain => exact execForceRetrain_keeps s
  | tstPerfSelWrite q idx v => exact execTstPerfSelWrite_keeps q idx v s
  | tstTraceEnable q v => exact execTstTraceEnable_keeps q v s
  | eyeStart q v points => exact execEyeStart_keeps q v points s
  | tstValveOvrWrite q v => exact execTstValveOvrWrite_keeps q v s
  | pmbusRead q code addr shelf => exact execPmbusRead_keeps q code addr shelf s
  | pmbusWrite q code addr => exact execPmbusWrite_keeps q code addr s
  | flashRead q addr => exact execFlashRead_keeps q addr s
  | movePageCopyDone => exact execMovePageCopyDone_keeps s
  | noAcceptedPortTimeout own n => exact execNoAcceptedPortTimeout_keeps own n s
  | controlFlitSend p ident => exact execControlFlitSend_keeps p ident s
  | roceResponse n r => exact execRoceResponse_keeps n r s

end Sys2Proof.Machine
end

