-- ==== Sys2Proof/Laws/Issue.lean ====
section
/-! SUPPORT. What issue does with an instruction whose conditions hold: one law for each of the four outcomes of its effect, one
for fields that fail, and one for an unmet wait. -/

namespace Sys2Proof.Machine

variable {s : State} {t : Site} {h : Hdr} {f : InFlight} {moves ok : Bool} {body : State → Eff}

/-- An instruction that issues is judged by its fields and its effect on the state at issue. -/
theorem State.issueAs_of_issues (hi : s.issues t h f = true) :
    s.issueAs t h f moves ok body =
      (if ok then body (s.issued t h) else .fault .verify (csAddr t.core (s.ctx t).pc) (s.issued t h)).settle t h
        { f with pc := (s.ctx t).pc } moves := by
  simp only [State.issues, Bool.and_eq_true, Bool.or_eq_true, decide_eq_true_eq] at hi
  obtain ⟨⟨⟨⟨⟨hc, ha⟩, hw⟩, h1⟩, h2⟩, h3⟩ := hi
  have h4 : ¬ (h.wait ≠ 0 ∧ s.sem t.core h.wait = 0) := by omega
  simp only [State.issueAs, State.issued, hc, ha, hw, h1, h2, Bool.and_eq_true, decide_eq_true_eq, h4, Bool.not_true, Bool.and_true,
    decide_true, if_false, Bool.false_eq_true]

theorem State.issueAs_done {s1 : State} (hi : s.issues t h f = true) (hok : ok = true) (hb : body (s.issued t h) = .done s1) :
    s.issueAs t h f moves ok body = s1.retired t h { f with pc := (s.ctx t).pc } moves := by
  rw [State.issueAs_of_issues hi, hok, if_pos rfl, hb]
  rfl

theorem State.issueAs_fault {s1 : State} {st : Status} {a : Nat} (hi : s.issues t h f = true) (hok : ok = true)
    (hb : body (s.issued t h) = .fault st a s1) : s.issueAs t h f moves ok body = s1.coreFault t.core st a := by
  rw [State.issueAs_of_issues hi, hok, if_pos rfl, hb]
  rfl

theorem State.issueAs_hold {s1 : State} {on : HeldFor} (hi : s.issues t h f = true) (hok : ok = true)
    (hb : body (s.issued t h) = .hold on s1) :
    s.issueAs t h f moves ok body = s1.setCtx t ((s1.ctx t).hold on { f with pc := (s.ctx t).pc }) := by
  rw [State.issueAs_of_issues hi, hok, if_pos rfl, hb]
  rfl

theorem State.issueAs_wait {s1 : State} (hi : s.issues t h f = true) (hok : ok = true) (hb : body (s.issued t h) = .wait s1) :
    s.issueAs t h f moves ok body = s1 := by
  rw [State.issueAs_of_issues hi, hok, if_pos rfl, hb]
  rfl

theorem State.issueAs_refused (hi : s.issues t h f = true) (hok : ok = false) :
    s.issueAs t h f moves ok body = (s.issued t h).coreFault t.core .verify (csAddr t.core (s.ctx t).pc) := by
  rw [State.issueAs_of_issues hi, hok]
  rfl

/-- An unmet wait: the context waits and nothing else happens. -/
theorem State.issueAs_waiting (hc : s.canIssue t = true) (ha : s.accepts t f = true) (hw : h.wait ≠ 0) (hs : s.sem t.core h.wait = 0) :
    s.issueAs t h f moves ok body = s.setCtx t { s.ctx t with waiting := some h.wait } := by
  simp [State.issueAs, hc, ha, hw, hs]

end Sys2Proof.Machine
end

