-- ==== Sys2Proof/Tests/Slice0.lean ====
section
/-! SUPPORT. Tests of the model: words of the core's encoding tables, ill-formed commands that the check refuses, small examples of
the spec, and for each statement with hypotheses states and operands that meet them. -/

namespace Sys2Proof.Tests

set_option maxRecDepth 100000
set_option Elab.async false

open Sys2Proof.Machine Sys2Proof.Claims

/-! ### Small states -/

/-- A structure image with one JOB region over the whole core store, one page region, one siding and the coordinates (0, 0, 0). -/
def image0 : StructImage :=
  { imageGen := 1, slot := 0, sigOffset := 4096, khz := [], coreMap := [], coreRegions := [⟨1, 64, 0⟩], regions := [],
    sidings := [⟨0, 1024, 1024⟩], hashKey := 0, regulators := [], classMap := 0,
    fabric := ⟨0, 1, 2, 1, 1, 0, 0, 0, 1, [], [], 1, []⟩, media := [], ownership := [],
    timetable := ⟨1, 100, [], [⟨1000, 0, true⟩], []⟩, power := {} }

/-- A tile program whose exchange region is the first MiB of the map store, with a buffer for both ways and an input behind it. -/
def prog0 : Program :=
  { mode := 0, relocatable := false, coresUsed := 1, listCount := 0, exch := 0, listOff := 0, commonLen := 0, commonLoad := 0,
    nestPcs := [], bufs := [⟨msBase, 0x100000, bufExch⟩, ⟨msBase + 0x100000, 0x100000, bufInout⟩, ⟨msBase + 0x200000, 0x100000, bufIn⟩] }

/-- A job that runs. -/
def job0 : Job := { jobId := 1, state := .running, tilesStarted := true, tag := 1, prog := some prog0 }

/-- A state whose core 0 runs the job `job0` with a context 0, every part of the module being ready. -/
def coreState (c : Ctx) (k : Core) : State :=
  let s : State := { regs := [(Reg.CORE_STATUS 0, wput (regReset (Reg.CORE_STATUS 0)) 62 60 3)], boot := { image := some image0 },
                     sched := { run := some job0 }, cores := [(0, { k with ctxs := [(0, { c with active := true })] })] }
  s.setReg Reg.BUP_READY 0x1fff

/-- Core 0, context 0. -/
def site0 : Site := ⟨0, 0⟩

/-- Scalar registers 2 to 10: element and scale words of three operands; a slot in the exchange region with K_DECL 32. -/
def words0 : List (Nat × Word) := [(2, 0x1000), (4, 0x2000), (6, 0x3000), (8, 0xc000000000), (9, 32), (10, 64)]

/-- Core 0 with those registers. -/
def core0 : State := coreState { s := words0 } {}

/-- A record from its fields: byte place and value. -/
def record (l : List (Nat × Nat)) : Nat := l.foldl (fun n p => n + p.2 * 256 ^ p.1) 0

/-! ### Hypotheses that are met: the core's instructions -/

theorem test_issues : core0.issues site0 {} (plainFlight site0 {}) = true := by decide

/-- A semaphore that is waited for and one that is signalled. -/
theorem test_issues_wait : (core0.setSem 0 63 1).issues site0 ⟨63, 63, true⟩ (plainFlight site0 ⟨63, 63, true⟩) = true := by decide

/-- Context 0 of the core has ended once it is inactive; another is still active. -/
def endedCtxs (s : State) : Bool :=
  (((s.issued site0 {}).setCtx site0 { (s.issued site0 {}).ctx site0 with active := false, laneGroup := 0 }).core 0).ctxs.all
    (fun p => !p.2.active && p.2.held.isEmpty && p.2.post.isNone && p.2.merge.isNone)

theorem test_end_clauses : (core0.issued site0 {}).coreRuns 0 = true ∧ endedCtxs core0 = true
    ∧ endedCtxs (core0.setCtx ⟨0, 1⟩ { active := true }) = false := by decide

theorem test_sem_clauses : SemOps.ok ⟨63, 65535⟩ = true ∧ (core0.issued site0 {}).sem 0 63 + 65535 ≤ 65535
    ∧ 65535 < ((core0.setSem 0 63 1).issued site0 {}).sem 0 63 + 65535 := by decide

theorem test_branch_fields : (∀ cond < 3, BranchOps.ok cond ⟨3, 63, 0xffffff⟩ = true) ∧ BranchOps.ok 3 ⟨3, 63, 0⟩ = true := by decide

theorem test_vop_fields : (∀ f < 16, VopOps.ok f { fmt := 10 } = true) ∧ VopOps.ok 3 { rnd := 5, vc := 30 } = true
    ∧ isMX 3 = true ∧ VopOps.ok 6 { fmt := 3 } = true ∧ isMX 10 = false ∧ VopOps.ok 0 { rnd := 5, vc := 31 } = true := by decide

set_option exponentiation.threshold 1000 in
theorem test_lacc_fields : LaccOps.ok 0 { lidx := 511 } = true ∧ LaccOps.ok 1 { lidx := 384, spread := 1 } = true
    ∧ LaccOps.ok 2 { fmtOut := 10 } = true ∧ LaccOps.ok 3 { divReg := 10 } = true
    ∧ (laccAdd { fmtOut := 10 } {} [0, 127] {}).1 = .ok ∧ (laccAdd {} {} [0] { long := [(0, { count := 2 ^ 42 })] }).1 = .window
    ∧ wget ((core0.issued site0 {}).ctx site0 |>.sreg 10) 32 0 ≤ 2 ^ 32 := by decide

theorem test_ld_st : MemOps.ok ⟨31, 2, 0, 2⟩ = true ∧ awFlat (((core0.issued site0 {}).ctx site0).sreg 2) 64 = .ok
    ∧ ((core0.issued site0 {}).reachAll 0 [laneSpan ((core0.issued site0 {}).lanes site0 0) 0x1000 4]).1 = .ok := by decide

theorem test_sfn_fields : (∀ f < 14, SfnOps.ok f { compat := 0 } = true) ∧ SfnOps.ok 0x10 { vb := 31 } = true
    ∧ SfnOps.ok 0x11 { vb := 1, rnd := 4 } = true ∧ SfnOps.ok 0x12 {} = true ∧ SfnOps.ok 0x13 {} = true ∧ SfnOps.ok 0x14 {} = true := by
  decide

/-- Images of an empty accumulator in SUM mode, in PRODUCT mode, of one with a full count, and of none that is good. -/
def imageAt (n : Nat) : State := core0.putNum (csAddr 0 0x1000) 48 n

set_option exponentiation.threshold 1000 in
theorem test_long_images : SfnOps.ok 0x18 { lidx := 511, addrReg := 2 } = true ∧ SfnOps.ok 0x19 { lidx := 511, addrReg := 2 } = true
    ∧ awFlat (((core0.issued site0 {}).ctx site0).sreg 2) 64 = .ok ∧ ((core0.issued site0 {}).reachAll 0 [(0x1000, 48)]).1 = .ok
    ∧ LongAcc.ofImage (((imageAt (2 ^ 200 * 2 ^ 183)).issued site0 {}).num (csAddr 0 0x1000) 48) = none
    ∧ LongAcc.ofImage (((imageAt 0).issued site0 {}).num (csAddr 0 0x1000) 48) = some {}
    ∧ LongAcc.ofImage (((imageAt (2 ^ 200 * 2 ^ 120)).issued site0 {}).num (csAddr 0 0x1000) 48) = some { product := true }
    ∧ LongAcc.ofImage (((imageAt (2 ^ 200 * 2 ^ 170)).issued site0 {}).num (csAddr 0 0x1000) 48) = some { count := 2 ^ 42 }
    ∧ longLimit false = 2 ^ 42 := by decide

theorem test_rng_fields : (∀ op < 4, RngOps.ok op { nameReg := 8, vd := 31 } = true) ∧ RngOps.ok 4 { nameReg := 8, vd := 30 } = true
    ∧ ((core0.issued site0 {}).streamName site0 8).isSome = true := by decide

/-- Word indices at both ends of what a draw may take. -/
theorem test_rng_first : ∀ w ∈ ([65534, 65535, 65536] : List Nat),
    ((coreState { s := [(3, BitVec.ofNat 64 w)] } {}).issued site0 {} |>.ctx site0).sreg 3 = BitVec.ofNat 64 w := by decide

/-! ### Matrix instructions and the exchange -/

/-- One BF16 product into entry (0, 0), anchors from the slot of registers 8 and 9. -/
def mma0 : MmaOps := { fmtA := 1, fmtB := 1, anchorMode := 0, clear := 1, aReg := 2, bReg := 4, xslotReg := 8 }

/-- The slot in the exchange region with PARTS parts of which some have posted a K of 32 in all, and some have merged. -/
def slotState (parts posted merged : Nat) (c : Ctx) (k : Core) : State :=
  (((coreState { c with s := words0 } k).putNum msBase 2 parts).putNum (msBase + 2) 2 posted).putNum (msBase + 4) 2 merged
    |>.putNum (msBase + 16) 8 32 |>.putNum (msBase + 24) 8 32

/-- An instruction that waits, with the registers of `words0`. -/
def heldAt (op : HeldOp) (on : HeldFor) : HeldInsn := ⟨op, on, 0, [0], words0, []⟩

/-- A slot state whose context waits at that slot. -/
def heldSlot (op : HeldOp) (parts posted merged : Nat) : State := slotState parts posted merged { held := [heldAt op (.slot msBase)] } {}

def mmaFixed : MmaOps := { fmtA := 1, fmtB := 1, anchorMode := 1, accC := 1, aReg := 2, bReg := 4, cReg := 6, anchor := 320 }

/-- Does an MMA at `s`, read through `x`, find entries? -/
def mmaGives (x s : State) (o : MmaOps) : Bool := (mmaEntries (x.slotRead 0 (s.slotOf site0 o.xslotReg)).2 s site0 o).isSome

theorem test_mma_fixed : mmaFixed.ok = true ∧ core0.issues site0 {} (core0.mmaFlight site0 {} mmaFixed) = true
    ∧ MmaReady (core0.issued site0 {}) site0 mmaFixed
    ∧ (core0.issued site0 {}).postsMissing 1 none = false ∧ (core0.issued site0 {}).postsWrong 1 none = false
    ∧ mmaGives (core0.issued site0 {}) (core0.issued site0 {}) mmaFixed = true := by
  unfold MmaReady
  decide

/-- An entry near its limit, from which an MMA faults. -/
def mmaFull : State := slotState 2 2 0 {} { wide := [(0, { count := 2 ^ 31 })] }

theorem test_mma_slot : mma0.ok = true ∧ (slotState 2 2 0 {} {}).issues site0 {} ((slotState 2 2 0 {} {}).mmaFlight site0 {} mma0) = true
    ∧ MmaReady ((slotState 2 2 0 {} {}).issued site0 {}) site0 mma0
    ∧ ((slotState 2 2 0 {} {}).issued site0 {}).slotOf site0 8 = some msBase
    ∧ ((slotState 2 2 0 {} {}).issued site0 {}).postsMissing 0 (some msBase) = false
    ∧ ((slotState 2 2 0 {} {}).issued site0 {}).postsWrong 0 (some msBase) = false
    ∧ mmaGives ((slotState 2 2 0 {} {}).issued site0 {}) ((slotState 2 2 0 {} {}).issued site0 {}) mma0 = true
    ∧ mmaGives (mmaFull.issued site0 {}) (mmaFull.issued site0 {}) { mma0 with clear := 0, anchorMode := 2 } = false
    ∧ ((slotState 2 1 0 {} {}).issued site0 {}).postsMissing 0 (some msBase) = true
    ∧ (((slotState 2 2 0 {} {}).putNum (msBase + 24) 8 33).issued site0 {}).postsWrong 0 (some msBase) = true := by
  unfold MmaReady
  decide

theorem test_mma_wait : ((heldSlot .mma 2 2 0).ctx site0).heldOp .mma = some (heldAt .mma (.slot msBase)) ∧ (heldSlot .mma 2 2 0).coreRuns 0 = true
    ∧ MmaReady (woken (heldSlot .mma 2 2 0) site0 (heldAt .mma (.slot msBase))) site0 mma0
    ∧ (woken (heldSlot .mma 2 2 0) site0 (heldAt .mma (.slot msBase))).postsMissing 0 (some msBase) = false
    ∧ (woken (heldSlot .mma 2 2 0) site0 (heldAt .mma (.slot msBase))).postsWrong 0 (some msBase) = false
    ∧ mmaGives (woken (heldSlot .mma 2 2 0) site0 (heldAt .mma (.slot msBase))) (woken (heldSlot .mma 2 2 0) site0 (heldAt .mma (.slot msBase))) mma0
        = true := by
  unfold MmaReady
  decide

/-- Drain of entry (0, 0) to FP32 at the address of register 6, waiting for its owner's merges. -/
def drain0 : DrainOps := { fmtOut := 0, ownerWait := 1, outReg := 6, xslotReg := 8 }
def drainStoch : DrainOps := { fmtOut := 0, rnd := 5, outReg := 6, rngReg := 2 }

theorem test_drain : drain0.ok = true ∧ (slotState 2 2 1 {} {}).issues site0 {} ((slotState 2 2 1 {} {}).drainFlight site0 {} drain0) = true
    ∧ DrainReady ((slotState 2 2 1 {} {}).issued site0 {}) site0 drain0
    ∧ ((slotState 2 2 1 {} {}).issued site0 {}).drainSlot site0 drain0 = some msBase
    ∧ ((slotState 2 2 1 {} {}).issued site0 {}).mergesMissing msBase = false
    ∧ DrainReady ((slotState 2 2 0 {} {}).issued site0 {}) site0 drain0
    ∧ ((slotState 2 2 0 {} {}).issued site0 {}).mergesMissing msBase = true
    ∧ ((heldSlot .drain 2 2 1).ctx site0).heldOp .drain = some (heldAt .drain (.slot msBase)) ∧ (heldSlot .drain 2 2 1).coreRuns 0 = true
    ∧ DrainReady (woken (heldSlot .drain 2 2 1) site0 (heldAt .drain (.slot msBase))) site0 drain0
    ∧ drainStoch.ok = true ∧ DrainReady (core0.issued site0 {}) site0 drainStoch := by
  unfold DrainReady
  decide

theorem test_clearb : ClearbOps.inWidth ⟨15⟩ = true ∧ core0.issues site0 {} (accumFlight site0 {} (clearbBanks 15 0)) = true := by decide

/-- The widest part number, with one entry of maxima. -/
def xmax0 : XmaxOps := { fmtA := 1, fmtB := 1, aReg := 2, bReg := 4, xslotReg := 8, part := 63, partsM1 := 63 }

theorem test_xmax : xmax0.ok = true ∧ core0.issues site0 {} (exchFlight site0 {}) = true
    ∧ ((core0.issued site0 {}).xmaxCheck site0 xmax0 ((core0.issued site0 {}).tile site0 0 1 1 0 0) ((core0.issued site0 {}).xmaxA site0 xmax0)
        ((core0.issued site0 {}).xmaxB site0 xmax0)).1 = .ok
    ∧ XmergeOps.ok { xslotReg := 8 } = true ∧ (core0.issued site0 {}).slotOk site0 8 = .ok
    ∧ core0.issues site0 {} { accumFlight site0 {} (core0.banksOf site0 0 1 1) with exch := true } = true
    ∧ bankOk 3 64 128 = true ∧ bankOk 0 128 256 = true := by decide

/-- Posts of part 0 and of part 1 to an empty and to an open slot, one that disagrees and one too many. -/
def post0 (part parts : Nat) : SlotPost := ⟨msBase, part, parts, 32, 16, 0, [(0, 0x8001)], [(0, 0x7fff)]⟩

theorem test_post_clauses :
    ((coreState { post := some (post0 0 2) } {}).ctx site0).post = some (post0 0 2)
    ∧ ((coreState { post := some (post0 0 2) } {}).slotRead 0 (some msBase)).1 = .ok
    ∧ (coreState { post := some (post0 0 2) } {}).slotParts msBase = 0
    ∧ (slotState 3 1 0 { post := some (post0 1 2) } {}).slotParts msBase = 3
    ∧ (slotState 2 2 0 { post := some (post0 1 2) } {}).slotPosted msBase = 2 := by decide

/-- A merge into the own core's anchored bank 0, from bank 1. -/
def mergeState (anchored : List Nat) : State := slotState 2 2 0 { merge := some ⟨msBase, 1, 1, 1⟩ } { anchored }

theorem test_merge_clauses : ((mergeState []).ctx site0).merge = some ⟨msBase, 1, 1, 1⟩
    ∧ ¬ (anchorMark msBase 0 ∈ ((mergeState []).core 0).anchored)
    ∧ anchorMark msBase 0 ∈ ((mergeState [anchorMark msBase 0]).core ((mergeState []).slotOwner msBase)).anchored
    ∧ ((mergeState [anchorMark msBase 0]).slotRead 0 (some msBase)).1 = .ok
    ∧ (mergeEntries ((mergeState []).core 0) ⟨1, 1, 1, [], []⟩ ⟨0, 1, 1, [], []⟩ [(0, 0)] []).1 = .ok := by decide

/-- Registers of a MOVE of some bytes within the exchange region. -/
def moveState (len : Nat) : State :=
  coreState { s := [(2, 0xc000000000), (4, 0xc000000400), (6, BitVec.ofNat 64 len)] } {}

theorem test_move_clauses : MoveOps.ok ⟨2, 4, 6⟩ = true ∧ (((moveState 0).issued site0 {}).ctx site0).sreg 6 = 0
    ∧ (((moveState (2 ^ 30 + 1)).issued site0 {}).moveCheck site0 0xc000000000 0xc000000400 (2 ^ 30 + 1)).1 ≠ .ok
    ∧ fabModule 0xc000000000 = ((moveState 64).issued site0 {}).moduleId
    ∧ ((moveState 64).issued site0 {}).commitOf site0 0xc000000400 64 = none
    ∧ (moveState 64).issues site0 {} { plainFlight site0 {} with unit := .other } = true
    ∧ ((moveState 64).issued site0 {}).moveCheck site0 0xc000000000 0xc000000400 64 = (.ok, 0)
    ∧ (((moveState 64).issued site0 {}).jobCopy 0 0xc000000000 0xc000000400 64).1 = .ok := by decide

/-- Instructions in flight, one with a committed write, beside the highest semaphore. -/
def flightState : State := coreState {} { inflight := [{ ctx := 0, signal := 63, commit := some (msBase, 63) }, { ctx := 0, signal := 0, isMove := true }] }

theorem test_complete : (flightState.core 0).inflight[1]? = some { ctx := 0, signal := 0, isMove := true }
    ∧ (flightState.core 0).inflight[0]? = some { ctx := 0, signal := 63, commit := some (msBase, 63) }
    ∧ (flightState.setSem 0 63 65534).sem 0 63 < 65535 ∧ 65535 ≤ (flightState.setSem 0 63 65535).sem 0 63
    ∧ (flightState.readCheck flightState.coreClass (.core 0) msBase 8).1 = .ok
    ∧ ({ ctx := 0, signal := 0, worst := .denied } : InFlight).worst ≠ .ok := by decide

/-! ### Attention, convolution, nests and samples -/

/-- A flat BF16 attention descriptor of one sequence with D = 32, and its length-table entry of one query row and no key. -/
def attDesc0 : Nat := record [(0, 1), (1, 1), (2, 0x11), (3, 0x11), (6, 32), (8, 0x3f800000), (20, 2), (21, 2), (22, 2), (24, 1), (33, 0x10000),
  (64, 64)]

/-- PASS, SEND and DRAIN of part 1 of two, with the slot at the start of the exchange region. -/
def att0 : AttOps := { descOff := 0x4000, bank := 1, lidx := 128, qReg := 2, outReg := 4, lseReg := 6, xslotReg := 8, seqReg := 12 }

/-- Registers of a SEND to the slot of module `m`, as part 1 of two. -/
def attWords (m : Nat) : List (Nat × Word) :=
  [(2, 0x1000), (4, 0x2000), (6, 0x3000), (8, BitVec.ofNat 64 (m * 2 ^ 40 + 0xc000000000)), (9, 0x101)]

def attPlaced (c : Ctx) (k : Core) : State :=
  ((coreState c k).putNum (csAddr 0 0x4000) 128 attDesc0).putNum (msBase + 0x200000) 4 1

def attState (m : Nat) (fin : Option AttFinal) (w : List (Nat × WideEntry)) (anchored : List Nat) : State :=
  (attPlaced { s := attWords m } { att := some { final := fin }, wide := w, anchored }).setFab { everReady := true, turnout := [(2, 0)] }

def attSite : InFlight := attFlight site0 {} .attPass

theorem test_att_fields : AttOps.ok 0 { att0 with first := 1, last := 1 } = true ∧ AttOps.ok 1 att0 = true ∧ AttOps.ok 2 att0 = true
    ∧ (attState 0 none [] []).issues site0 {} attSite = true ∧ (attState 0 none [] []).issues site0 {} (attFlight site0 {} .attSend) = true
    ∧ (attState 0 none [] []).issues site0 {} (attFlight site0 {} .attDrain) = true
    ∧ ((attState 0 none [] []).ctx site0).passOn = none ∧ ((attState 0 none [] []).ctx site0).heldOp .attSend = none
    ∧ ((attState 0 none [] []).ctx site0).heldOp .attDrain = none := by decide

/-- Can a PASS be made over its range in `s`, and is no row DIRTY at its own anchors (`PassOver`, `CleanRows`)? -/
def passClause (s : State) (o : AttOps) : Bool :=
  let rd := s.attReach site0 o
  match s.attEnv site0 o (s.attDescNum site0 o) ((s.ctx site0).sreg o.seqReg).toNat ((s.ctx site0).sreg (o.seqReg + 1)).toNat with
  | .inl _ => false
  | .inr e =>
    match s.passPart site0 o e, s.attBounds site0 o e with
    | some p, .inr b =>
      let r : AttRange := ⟨(s.ctx site0).sreg o.qReg, (s.ctx site0).sreg (o.qReg + 1), b.1, b.2⟩
      rd.1 = .ok && s.attSlotStatus site0 o = .ok && (s.passCheck site0 e p r).1 = .ok &&
      (match rd.2.2.attSelect site0 e r with
      | .inl _ => false
      | .inr (sel, s0) =>
        match s0.attRange site0 e sel false r ((s0.attAcc 0 p).clear e) with
        | .ok a _ => e.rows.all (fun m => !((a.reanchor e (a.final e).cols (fun i => SMap.get none (a.final e).rows i)).row m).dirty)
        | _ => false)
    | _, _ => false

theorem test_att_pass : passClause ((attState 0 none [] []).issued site0 {}) { att0 with first := 1 } = true
    ∧ passClause ((attState 0 none [] []).issued site0 {}) { att0 with first := 1, last := 1 } = true
    ∧ (((attState 0 none [] []).issued site0 {}).attSlot site0 att0).isSome = true
    ∧ passClause ((attState 0 none [] []).issued site0 {}) { att0 with first := 1, last := 1, xslotReg := 0 } = true
    ∧ (((attState 0 none [] []).issued site0 {}).attSlot site0 { att0 with xslotReg := 0 }).isNone = true := by decide +kernel

/-- What a SEND finds: its part, its slot, the owner's anchors, and merges that are taken or refused. -/
def sendClauses (s : State) : Option (Status × Status) :=
  let s1 := s.issued site0 {}
  match s1.attPartEnv site0 att0, s1.attSlot site0 att0 with
  | .inr e, some x =>
    if (s1.attReach site0 att0).1 = .ok && s1.attSlotStatus site0 att0 = .ok && x.part = 1 && fabModule x.fa = s1.moduleId
        && (s1.core (s1.slotOwner msBase)).anchored.contains (anchorMark msBase 0) && (s1.slotRead 0 (some msBase)).1 = .ok then
      let places := e.rows.flatMap (fun m => (List.range e.d.d).map (fun n => (m, n)))
      some ((mergeEntries (s1.core 0) e.tile { e.tile with bank := 0 } places (s1.core 0).wide).1,
        (mergeLongs (s1.core 0) e.lidx 0 e.rows (s1.core 0).long).1)
    else none
  | _, _ => none

theorem test_att_send : sendClauses (attState 0 (some ⟨[], [], []⟩) [] [anchorMark msBase 0]) = some (.ok, .ok)
    ∧ sendClauses (attState 0 (some ⟨[], [], []⟩) [(entryKey 0 0 0 1 32, { count := 1, anchor := 5 }), (entryKey 1 0 0 1 32,
        { count := 1, anchor := 6 })] [anchorMark msBase 0]) = some (.verify, .ok) := by decide

/-- A SEND to module 2, which may be sent to. -/
theorem test_att_send_away :
    let s := (attState 2 (some ⟨[], [], []⟩) [] []).issued site0 {}
    (s.attReach site0 att0).1 = .ok ∧ s.attSlotStatus site0 att0 = .ok ∧ s.remoteGate 2 s.jobTag = .ok ∧ s.moduleId ≠ 2
    ∧ (match s.attPartEnv site0 att0, s.attSlot site0 att0 with
      | .inr _, some x => decide (x.part ≠ 0 ∧ fabModule x.fa = 2)
      | _, _ => false) = true := by decide

/-- A DRAIN of a part without a slot. -/
def drainClause : Bool :=
  let s := (attState 0 (some ⟨[], [], []⟩) [] []).issued site0 {}
  let o : AttOps := { att0 with xslotReg := 0 }
  match s.attPartEnv site0 o with
  | .inl _ => false
  | .inr e =>
    let mg := s.attMerge 0 0 e (s.partsAt (s.attSlot site0 o) 0)
    (s.attReach site0 o).1 = .ok && s.attSlotStatus site0 o = .ok && (s.attSlot site0 o).isNone && s.attWords site0 o e = .ok && mg.1 = .ok
      && (s.reachAll 0 ((s.attOut site0 o e mg.2).map (fun p => (p.off, p.bytes.length)))).1 = .ok

theorem test_att_drain : drainClause = true := by decide +kernel

/-- A part that posts to, and then waits at, a slot of module `m` with `parts` and `posted`. -/
def attPost0 : AttPost := ⟨1, 2, 32, 32, [(0, 0x80000001)], [(0, 1)], 0, 0, 0, 1, 128⟩
def passHeld (on : HeldFor) : HeldInsn := ⟨.attPass, on, 0, [0, 1, 2, 3], attWords 0, []⟩
def attWait (m : Nat) (post : Option AttPost) (parts posted : Nat) : State :=
  ((((attPlaced { s := attWords 0, held := [passHeld (.slot (m * 2 ^ 40 + msBase))] } { att := some { post, ops := att0, desc := attDesc0 } }).putNum
    msBase 2 parts).putNum (msBase + 2) 2 posted).putNum (msBase + 16) 8 32).putNum (msBase + 24) 8 32 |>.setFab { everReady := true, turnout := [(2, 0)] }

theorem test_att_post : ((attWait 0 (some attPost0) 2 1).ctx site0).passOn = some (.slot msBase) ∧ fabModule msBase = (attWait 0 none 2 1).moduleId
    ∧ ((attWait 0 none 2 1).slotRead 0 (some msBase)).1 = .ok
    ∧ ((attWait 0 none 2 1).attApply msBase attPost0).1 = .ok ∧ ((attWait 0 none 3 1).attApply msBase attPost0).1 = .verify
    ∧ ((attWait 2 (some attPost0) 2 1).ctx site0).passOn = some (.slot (2 * 2 ^ 40 + msBase)) ∧ fabModule (2 * 2 ^ 40 + msBase) = 2
    ∧ (attWait 2 none 2 1).remoteGate 2 (attWait 2 none 2 1).jobTag = .ok := by decide

/-- The final anchors of a part at a slot: not known, or known, and then its rows are clean. -/
def anchorsClause (s : State) : Bool :=
  match (s.core 0).att, (s.ctx site0).heldOp .attPass with
  | some p, some x =>
    (match s.attKnown msBase p with
    | some (.ok, f) =>
      let s1 := woken s site0 x
      let y := (s1.slotRead 0 (some msBase)).2
      let q := { p with final := some f }
      let v := y.setCore 0 { y.core 0 with att := some q }
      (match v.attEnv site0 p.ops p.desc p.seq p.i0 with
      | .inr e => (s1.slotRead 0 (some msBase)).1 = .ok && s.coreRuns 0
          && e.rows.all (fun m => !(((v.attAcc 0 q).reanchor e f.cols (fun i => SMap.get none f.rows i)).row m).dirty)
      | .inl _ => false)
    | _ => false)
  | _, _ => false

theorem test_att_anchors : ((attWait 0 none 2 1).core 0).att.map ((attWait 0 none 2 1).attKnown msBase) = some none
    ∧ anchorsClause (attWait 0 none 2 2) = true := by decide +kernel

/-- A walk that found entry 7 BUSY, now MAPPED, FREEING or still BUSY. -/
def walkState (st : Nat) : State :=
  let s := attPlaced { s := attWords 0, held := [passHeld (.entry 7)] } {}
  s.setDir 7 { s.dir 7 with state := st }

theorem test_walk : ((walkState 1).ctx site0).passOn = some (.entry 7) ∧ (walkState 1).countRetry.coreRuns 0 = true
    ∧ ((walkState 1).dir 7).state = 1 ∧ ((walkState 2).dir 7).state = 2
    ∧ (((woken (walkState 1).countRetry site0 (passHeld (.entry 7))).core 0).att.bind (·.final)) = none
    ∧ passClause (woken (walkState 1).countRetry site0 (passHeld (.entry 7))) { att0 with first := 1 } = true := by decide +kernel

/-- A 1 × 1 × 1 layer of 32 BF16 channels between two halves of a buffer, with formats `fmts`, pooling `pool` and a gate in buffer
`gate` that expects 5. -/
def conv0 (fmts pool gate : Nat) : Nat := record ([(0, 1), (1, fmts), (2, 1), (4, pool), (32, 32), (36, 1), (40, 1), (44, 1), (60, 1), (64, 1),
  (68, 1), (72, 1), (73, 255), (74, 1), (75, 255), (76, 64), (80, 64), (85, 64), (100, 32), (104, 1), (108, 1), (112, 1), (128, 1), (132, 1),
  (136, 1), (140, 64), (144, 64), (149, 64), (154, 4096), (164, 64), (168, gate)] ++ (if gate = 255 then [] else [(172, 8192), (176, 5)])
  ++ [5, 6, 7, 8, 9, 10, 11, 12, 13, 24, 25, 26].map (fun i => (i, 1)) ++ [(27, 255), (28, 255), (29, 255)])

/-- FETCH, MMA, WMAX, POOL and PUT at position (0, 0, 0) with a K of 32, staging at 0x8000. -/
def win0 : WinOps := { descOff := 0x4000, stageOff := 0x8000, posReg := 2 }
def winMma0 : WinOps := { win0 with bReg := 4, anchorMode := 0, clear := 1 }
def winWmax0 : WinOps := { win0 with bReg := 4, xslotReg := 8 }

/-- The gate of `conv0`. -/
def gateAt : Nat := msBase + 0x100000 + 8192

def convState (c : Ctx) (w1 w : Nat) : State :=
  (coreState { c with s := [(3, BitVec.ofNat 64 w1), (4, 0x1000), (8, 0xc000000000), (9, 32)] } {}).putNum (csAddr 0 0x4000) 384 w

theorem test_win_fields : WinOps.ok 0 win0 = true ∧ WinOps.ok 1 winMma0 = true ∧ WinOps.ok 2 winWmax0 = true
    ∧ WinOps.ok 3 { win0 with bReg := 4 } = true ∧ WinOps.ok 4 { win0 with nM1 := 31 } = true
    ∧ (convState {} 0 (conv0 0x11 0 255)).issues site0 {} (feederFlight site0 {}) = true
    ∧ (convState {} 0 (conv0 0x11 0 255)).issues site0 {} ((convState {} 0 (conv0 0x11 0 255)).winMmaFlight site0 {} winMma0) = true
    ∧ (convState {} 0 (conv0 0x11 0 255)).issues site0 {} { exchFlight site0 {} with unit := .feeder } = true
    ∧ ((convState {} 0 0).ctx site0).heldOp .winMma = none ∧ ((convState {} 0 0).ctx site0).gateWait = none := by decide

/-- A FETCH up to its gates, and whether one of them is shut. -/
def fetchClause (x : State) : Option Bool :=
  match x.winDesc site0 0 win0 with
  | .inl _ => none
  | .inr (d, p) =>
    let gs := x.gatesOf d (blockSides (x.fetchBlocks d p))
    let look := x.readChecks x.coreClass (.core 0) (gs.map (fun g => (g.2.1, 8)))
    if (x.fetchCheck site0 d win0 p).1 = .ok && look.1 = .ok
        && (look.2.2.convReads 0 (blockReads (x.fetchBlocks d p))).1 = .ok then some (x.gateShut gs).isSome else none

theorem test_fetch : fetchClause ((convState {} 0 (conv0 0x11 0 255)).issued site0 {}) = some false
    ∧ fetchClause (((convState {} 0 (conv0 0x11 0 1)).putNum gateAt 8 4).issued site0 {}) = some true := by decide +kernel

/-- A context at the gate of `conv0`, which expects 5. -/
def gateState (v : Nat) : State := (convState { gateWait := some ⟨6, gateAt, 5, 0⟩ } 0 (conv0 0x11 0 1)).putNum gateAt 8 v

theorem test_gate : ((gateState 5).ctx site0).gateWait = some ⟨6, gateAt, 5, 0⟩ ∧ (gateState 5).coreRuns 0 = true
    ∧ (gateState 5).accepts site0 (feederFlight site0 {}) = true
    ∧ ((gateState 5).readCheck (gateState 5).coreClass (.core 0) gateAt 8).1 = .ok
    ∧ fetchClause (((gateState 5).readCheck (gateState 5).coreClass (.core 0) gateAt 8).2.setCtx site0
        { (gateState 5).ctx site0 with gateWait := none }) = some false
    ∧ 5 ≤ (gateState 5).num gateAt 8 ∧ (gateState 4).num gateAt 8 < 5
    ∧ ((gateState 4).readCheck (gateState 4).coreClass (.core 0) gateAt 8).1 = .ok := by decide +kernel

/-- An MMA and a WMAX of a staged tile with K 32. -/
def winMmaClause : Bool :=
  let s1 := (convState {} (31 * 2 ^ 36) (conv0 0x11 0 255)).issued site0 {}
  match s1.winTile site0 1 winMma0 with
  | .inr w => (s1.accumulate 0 w.x w.d.inFmt true (anchorSource 0 0 none) (pairT w.d.inFmt w.d.wFmt) (s1.winRows 0 winMma0 w)
      (s1.readRows 0 w.b w.x.cols) none).isSome && (s1.slotOf site0 winMma0.xslotReg).isNone
  | .inl _ => false

def wmaxClause : Bool := match ((convState {} (31 * 2 ^ 36) (conv0 0x11 0 255)).issued site0 {}).winTile site0 2 winWmax0 with
  | .inr _ => true
  | .inl _ => false

theorem test_win_mma : winMmaClause = true ∧ wmaxClause = true := by decide +kernel

def poolClause : Bool :=
  let s1 := (convState {} 0 (conv0 0x01 1 255)).issued site0 {}
  match s1.winDesc site0 3 { win0 with bReg := 4 } with
  | .inr (d, p) => s1.csReach 0x8000 64 = .ok && (s1.poolCheck site0 d { win0 with bReg := 4 } p).1 = .ok
  | .inl _ => false

def putClause (n : Nat) : Bool :=
  let s1 := (convState {} 0 (conv0 0x11 0 255)).issued site0 {}
  let o : WinOps := { win0 with nM1 := n - 1 }
  match s1.winDesc site0 4 o with
  | .inr (d, p) => (s1.putCheck site0 d o p).1 = .ok && (s1.putCommit site0).isNone && (s1.putAll (s1.putWrites 0 d o p)).1 = .ok
  | .inl _ => false

theorem test_pool_put : poolClause = true ∧ putClause 32 = true
    ∧ (convState {} 0 (conv0 0x11 0 255)).issues site0 {} { plainFlight site0 {} with unit := .feeder } = true := by decide +kernel

/-- A job whose common image has one NEST, at program counter 0. -/
def nestOps0 : NestOps := { descOff := 0x4000, bodyOff := 0x100, bodyLenM1 := 0, ctxFirst := 0, ctxCount := 1 }
def nestRun0 : RunNest := ⟨0, 0, nestOps0, NestDesc.ofNum 0, false, [], []⟩
def nestState (c : Ctx) (nest : Option RunNest) (done : Nat) : State :=
  (coreState c {}).withSched { run := some { job0 with prog := some { prog0 with mode := 1, nestPcs := [0] }, nest, nestsDone := done } }

theorem test_nest : nestOps0.ok = true ∧ (nestState {} none 0).issues site0 {} { plainFlight site0 {} with isNest := true } = true
    ∧ ((nestState {} none 0).ctx site0).joined = false ∧ ((nestState {} none 0).ctx site0).inBody = false
    ∧ (List.range 1).find? (fun i => nth 0 ([0] : List Nat) i = 0) = some 0
    ∧ (nestState {} none 1).sched.run.map (fun j => decide (j.passed 0 < j.nestsDone)) = some true
    ∧ (nestState {} none 0).sched.run.map (fun j => decide (j.nestsDone ≤ j.passed 0)) = some true
    ∧ (nestState {} (some nestRun0) 0).sched.run.bind (·.nest) = some nestRun0 ∧ nestRun0.pc = 0 := by decide

/-- A context at the end of its body, a DRAIN of bank 0, with item 0 of a chunk of one or two, with clean banks and with an entry left. -/
def itemState (stop : Nat) (w : List (Nat × WideEntry)) : State :=
  let s := nestState { inBody := true, pc := 0x110, item := some ⟨0, stop, 0⟩ } (some nestRun0) 0
  (s.setCore 0 { s.core 0 with wide := w }).putNum (csAddr 0 0x100) 16 (2 * 2 ^ 122)

theorem test_item_end : ((itemState 1 []).ctx site0).item = some ⟨0, 1, 0⟩ ∧ nestRun0.ops.bodyEnd = 0x110
    ∧ ((itemState 1 []).core 0).ctxQuiet 0 = true ∧ (itemState 1 []).coreRuns 0 = true ∧ ((itemState 1 []).ctx site0).halted = false
    ∧ ((itemState 2 []).bodyBanks 0 nestRun0.ops 0).all (fun b => ((itemState 2 []).core 0).bankEmpty b) = true
    ∧ ((itemState 2 []).readChecks (itemState 2 []).coreClass (.core 0) ((itemState 2 []).counterReads nestRun0 site0)).1 = .ok
    ∧ ((itemState 1 [(0, { count := 1 })]).bodyBanks 0 nestRun0.ops 0).all
        (fun b => ((itemState 1 [(0, { count := 1 })]).core 0).bankEmpty b) = false := by decide

/-- A MOVE into a committed nest's output, as the 64th committed write of its item, whose COMMIT word is clear or full. -/
def commitState (word : Nat) : State :=
  let s := nestState { s := [(2, 0xc000000000), (4, 0xc000100000), (6, 64)], inBody := true, item := some ⟨0, 1, 63⟩ }
    (some { nestRun0 with desc := { nestRun0.desc with committed := true, operands := List.replicate 3 ⟨1, 0, 255, 0, 0, 0, 0⟩ } }) 0
  s.putNum (s.holdAddr nestRun0 0 0 + 16) 8 word

theorem test_move_commit : ∀ w ∈ ([0, 2 ^ 64 - 1] : List Nat),
    let s := (commitState w).issued site0 {}
    let a := s.holdAddr nestRun0 0 0 + 16
    (commitState w).issues site0 {} { plainFlight site0 {} with unit := .other } = true ∧ s.commitOf site0 0xc000100000 64 = some (a, 63)
      ∧ (s.moveCheck site0 0xc000000000 0xc000100000 64).1 = .ok ∧ (s.readCheck s.coreClass (.core 0) a 8).1 = .ok
      ∧ bit (s.num a 8) 63 = decide (w ≠ 0)
      ∧ (((s.readCheck s.coreClass (.core 0) a 8).2.nextWrite site0).jobCopy 0 0xc000000000 0xc000100000 64).1 = .ok := by decide

/-- A MOVE to or from module 2, which may be sent to. -/
theorem test_move_away :
    let s := ((moveState 64).issued site0 {}).setFab { everReady := true, turnout := [(2, 0)] }
    (s.moveCheck site0 0xc000000000 (2 ^ 41) 64).1 = .ok ∧ (s.moveCheck site0 (2 ^ 41) 0xc000000000 64).1 = .ok
      ∧ fabModule (2 ^ 41) ≠ s.moduleId ∧ (s.jobRead 0 0xc000000000 64).1 = .ok ∧ s.commitOf site0 0xc000000000 64 = none := by decide

/-- Core 0 waits at a nest of which every item is done. -/
theorem test_nest_complete :
    let s := nestState { joined := true } (some nestRun0) 0
    s.num (s.counterAddr nestRun0.desc + 16) 8 = s.num (s.counterAddr nestRun0.desc + 8) 8 ∧ s.halting = false
    ∧ (List.range 1).filter (fun n => (s.ctx ⟨n, 0⟩).joined) = [0]
    ∧ (s.readCheck s.coreClass .module (s.counterAddr nestRun0.desc) 64).1 = .ok := by decide

/-- A greedy sample of one FP32 logit, and one that draws. -/
def sampleRec (greedy : Nat) : Nat := record [(0, 1), (2, greedy), (4, 1), (12, 0x3f800000), (16, 0x3f800000)]
def sampleState (greedy : Nat) : State :=
  (coreState { s := [(2, 0xc000100000), (3, 0xc000100040)] } {}).putNum (csAddr 0 0x4000) 64 (sampleRec greedy)

/-- The status of reading the row and of writing the record. -/
def sampleIo : Bool :=
  let r := ((sampleState 1).issued site0 {}).jobRead 0 0xc000100000 4
  r.1 = .ok && (r.2.2.jobWrite 0xc000100040 (leBytes 16 0)).1 = .ok

set_option exponentiation.threshold 1000 in
theorem test_sample : RngOps.ok 5 { nameReg := 6, descOff := 0x4000, rowSreg := 2, outSreg := 3 } = true
    ∧ (SampleDesc.ofNum (((sampleState 1).issued site0 {}).num (csAddr 0 0x4000) 64)).map (·.greedy) = some true
    ∧ (SampleDesc.ofNum (((sampleState 0).issued site0 {}).num (csAddr 0 0x4000) 64)).map (·.greedy) = some false
    ∧ (((sampleState 0).issued site0 {}).streamName site0 6).isSome = true
    ∧ ((sampleState 1).issued site0 {}).csReach 0x4000 64 = .ok
    ∧ (sampleState 1).issues site0 {} { plainFlight site0 {} with isMove := true } = true
    ∧ ((sampleState 1).issued site0 {}).sampleReach 0 0xc000100000 4 4 readKinds = .ok
    ∧ ((sampleState 1).issued site0 {}).recordReach 0 0xc000100040 = .ok ∧ sampleIo = true := by decide

theorem test_timeouts : ((coreState { waiting := some 63 } {}).ctx site0).waiting = some 63
    ∧ (coreState { waiting := some 63 } {}).sem 0 63 = 0
    ∧ ((heldSlot .mma 2 1 0).ctx site0).waitsAt = some msBase ∧ (heldSlot .mma 2 1 0).coreRuns 0 = true
    ∧ ((mergeState []).ctx site0).waitsAt = some msBase ∧ ((coreState { waiting := some 63 } {}).coreRuns 0) = true := by decide

/-! ### Registers, the test block, tables and memory -/

/-- A state with fields of its registers set. -/
def put (s : State) (l : List (Field × Nat)) : State := l.foldl (fun a p => a.setFld p.1 p.2) s

/-- Port 3's management QP is connected and its link is up; every test class is open; HBM and the map store are ready. -/
def host0 : State :=
  (put { boot := { image := some image0 } } [(Fld.HST_PORT_STATUS_LINK 3, 1), (Fld.HST_PORT_STATUS_MGMT_CONN 3, 1),
    (⟨Reg.BUP_READY, rdyHbm, rdyHbm⟩, 1), (⟨Reg.BUP_READY, rdyMapStore, rdyMapStore⟩, 1), (⟨Reg.BUP_READY, rdyScrub, rdyScrub⟩, 1)]).withSec
      { unlocked := 0x1f }

theorem test_hears : host0.mgmtHears 3 = true ∧ host0.mgmtHears 0 = false ∧ host0.regsOk = true ∧ host0.memWf = true := by decide

/-- Both ends of the ranges of `CORE_LIMITS`, `KVP_LIMITS`, `HBM_SKEW_CTRL`, `HBM_SCRUB_CTRL`, `FAB_LIMITS` and `TT_LIMITS`. -/
theorem test_limit_ranges : wget (1 * 2 ^ 32 + 500000) 50 32 = 1 ∧ wget (500000 * 2 ^ 32 + 1) 50 32 = 500000 ∧ wget 500001 18 0 = 500001
    ∧ wget 1000000 19 0 = 1000000 ∧ wget 1000001 19 0 = 1000001 ∧ wget 3072 11 0 = 3072 ∧ wget 255 11 0 = 255 ∧ wget 168 7 0 = 168
    ∧ wget 169 7 0 = 169 ∧ wget 999 19 0 = 999 ∧ wget 11500 13 0 = host0.power.susW := by decide

/-- The next state of an outcome. -/
def after (o : Host.Outcome State Fault Refusal) : State :=
  match o with
  | .next t => t
  | _ => {}

theorem test_skew_ctrl : (after (exec (.hbmSkewCtrlWrite 3 3072) host0)).fld Fld.HBM_SKEW_CTRL_THRESHOLD = 3072
    ∧ (after (exec (.hbmSkewCtrlWrite 3 3073) host0)).out.head? = some (.regResp .verify 0)
    ∧ (after (exec (.hbmSkewCtrlWrite 0 3072) host0)).out = [] := by decide

theorem test_locks : host0.tstLocked Reg.TST_DCQ = false ∧ (host0.withSec { unlocked := 0x1e }).tstLocked Reg.TST_DCQ = true
    ∧ host0.tstLocked (Reg.TST_PERF_SEL 15) = false ∧ perfUnits 0x0a = some 4 ∧ perfUnits 0x0b = none ∧ wget 0x030a 15 8 < 4
    ∧ host0.tstLocked Reg.TST_VALVE_OVR = false ∧ host0.altOwner 18 = false
    ∧ (put host0 [(Fld.SBX_OWNER_ALT_OWNER, 2 ^ 18)]).altOwner 18 = true ∧ bit (2 ^ 63) 63 = true
    ∧ (put host0 [(Fld.BWR_STATUS_SWAP_PENDING, 1)]).flag Fld.BWR_STATUS_SWAP_PENDING = true
    ∧ host0.flag Fld.BWR_STATUS_SWAP_PENDING = false := by decide

theorem test_tables : host0.fld Fld.SFU_TABLE_STATUS_LOAD_STATE = 0 ∧ host0.flag Fld.SFU_TABLE_STATUS_SWAP_PENDING = false
    ∧ (put host0 [(Fld.SFU_TABLE_STATUS_LOAD_STATE, 1)]).fld Fld.SFU_TABLE_STATUS_LOAD_STATE = 1
    ∧ (put host0 [(Fld.SFU_TABLE_STATUS_LOAD_STATE, 2)]).fld Fld.SFU_TABLE_STATUS_LOAD_STATE = 2
    ∧ (put host0 [(Fld.SFU_TABLE_STATUS_SWAP_PENDING, 1)]).flag Fld.SFU_TABLE_STATUS_SWAP_PENDING = true
    ∧ (host0.withUnits { sfuLoad := some 4096 }).units.sfuLoad = some 4096
    ∧ ((host0.withUnits { sfuLoad := some 4096 }).sfuVerify 4096 .none).1 = .verify := by decide

/-- The same machine with HBM not ready. -/
def cold0 : State := put host0 [(⟨Reg.BUP_READY, rdyHbm, rdyHbm⟩, 0)]

theorem test_hbm_request : (0xbfffffffc0 : BitVec 40).toNat + 64 ≤ hbmEnd ∧ hbmEnd ≤ (0xc000000000 : BitVec 40).toNat
    ∧ (host0.writeCheck 7 0xbfffffffc0 64).1 = .ok ∧ (host0.readCheck 7 (.hbmClass 7) 0xbfffffffc0 64).1 = .ok
    ∧ (cold0.writeCheck 7 0xbfffffffc0 64).1 = .notReady ∧ (cold0.readCheck 7 (.hbmClass 7) 0xbfffffffc0 64).1 = .notReady := by
  decide +kernel

theorem test_scrub : host0.flag Fld.HBM_SCRUB_CTRL_ENABLE = true ∧ host0.ready rdyHbm = true ∧ host0.units.hbm.scrubAt < 63
    ∧ (put host0 [(Fld.HBM_SCRUB_STATUS_POSITION, 2 ^ 24 - 1)]).fld Fld.HBM_SCRUB_STATUS_POSITION + 1 = 2 ^ 24 := by decide

/-- Eight regulator partitions that share the floor evenly. -/
def staged0 : State := (List.range 8).foldl (fun s p => s.setReg (Reg.BWR_STAGE p) (32 + 256 * 2 ^ 16 + 1024 * 2 ^ 32)) host0

theorem test_bwr : regulatorOk staged0.bwrStage = true ∧ staged0.flag Fld.BWR_STATUS_SWAP_PENDING = false ∧ staged0.mgmtHears 3 = true
    ∧ (host0.withUnits { hbm := { epoch := some 8192 } }).units.hbm.epoch = some 8192 ∧ 8191 < 8192
    ∧ 8192 ≤ (host0.withTime 8192).time.toNat := by decide

/-! ### Accesses -/

/-- What a start finds when everything passes, bundle 1.0 in slot A and no structure image; and what a register write meets. -/
def start0 : StartObs := ⟨some 0, none, [], .none, .none, [], [], [], [], [], [], true, some ⟨0, 0, 0, 0, 0⟩, 8000, []⟩
def obs0 : WriteObs := ⟨start0, .none, [], none⟩

/-- A register write of the management QP of port 3. -/
def access0 (a : BitVec 40) : RegAccess := ⟨.qp (mgmtQpn 3), a, 8, 1, obs0⟩

theorem test_access : regBase ≤ (access0 0xf002000000).addr.toNat ∧ host0.reaches (access0 0xf000000000).req = true
    ∧ mayWrite (access0 0xf000000000).req Reg.SBX_IDENT = true ∧ (findReg Reg.SBX_IDENT).map (·.noWrite) = some true
    ∧ (findReg Reg.CORE_LIMITS).map (·.noWrite) = some false ∧ mayWrite (.qp (dataQpn 255)) (Reg.HST_DOORBELL 255) = true := by decide

/-- A PSN seen before, in the window and in a memory. -/
def seenState (write : Bool) : State := host0.withHost { seen := [(3, [⟨7, write, []⟩])] }

theorem test_mgmt : toWindow regBase = true ∧ toWindow (2 ^ 40 - 8) = true ∧ toWindow hbmEnd = false
    ∧ (seenState true).seenBefore 3 7 true = some ⟨7, true, []⟩ ∧ (seenState true).seenBefore 3 8 true = none
    ∧ (seenState false).seenBefore 3 7 false = some ⟨7, false, []⟩ ∧ windowStatus regBase 4096 = .ok ∧ windowStatus regBase 4104 = .misaligned
    ∧ (host0.writeWords 3 obs0 Reg.CORE_LIMITS (wordsLE (leBytes 8 1))).mgmtConn 3 = true
    ∧ host0.mgmtMemStatus true 0xc7ffffffc0 64 = .ok ∧ host0.mgmtMemStatus false 0xc7ffffffc0 64 = .ok ∧ (host0.writeMem 4 0xc7ffffffc0 (leBytes 64 0)).1 = .ok
    ∧ (host0.readMem 4 (.qp (mgmtQpn 3)) 0xc7ffffffc0 64).1 = .ok ∧ 0 + 512 ≤ 512 := by decide

/-- Data queue pair 255 READY at port 3 with a window of 1 GiB from 0 and a ring of 256 entries, of which none is consumed. -/
def qp0 (produced : Nat) : State :=
  put host0 [(Fld.HST_QP_W0_PORT 255, 3), (Fld.HST_QP_W0_STATE 255, 1), (Fld.HST_QP_W0_RING_LOG2 255, 8),
    (Fld.HST_QP_W7_SIZE_4K 255, 0x40000), (Fld.HST_QP_W4_RKEY_IN 255, 5), (Fld.HST_DOORBELL_PRODUCED 255, produced)]

theorem test_data_qp : (qp0 0).hears 255 = true ∧ (qp0 0).dataAccess 255 0 64 5 = .ok ∧ 0 ≠ doorbellAddr 255
    ∧ ((qp0 0).writeMem 4 0 (leBytes 64 3)).1 = .ok ∧ ((qp0 0).readMem 4 (.qp (dataQpn 255)) 0 64).1 = .ok
    ∧ (qp0 0).dataAccess 255 (doorbellAddr 255) 8 5 = .ok ∧ (qp0 0).dataAccess 255 0 64 6 = .denied
    ∧ (qp0 0).dataAccess 255 (2 ^ 30 - 63) 64 5 = .bounds
    ∧ (qp0 7).produced 255 = 7 ∧ (qp0 7).consumed 255 = 0 ∧ (qp0 7).ringSize 255 = 256 := by decide

/-! ### Map store, links and the test block -/

theorem test_ms_read : isMs (0xc7ffffffc0 : BitVec 40).toNat = true ∧ (0xc7ffffffc0 : BitVec 40).toNat + 64 ≤ msEnd
    ∧ host0.pathStatus 0xc7ffffffc0 64 = .ok
    ∧ (0 < 64 ∧ ∃ w ∈ (host0.withMsBad [0x31fffffff]).msBad, 0xc7ffffffc0 / 64 ≤ w ∧ w * 64 < 0xc7ffffffc0 + 64)
    ∧ SMap.get 0 (host0.withBoot { badFlits := [(55, 1)] }).boot.badFlits 55 = 0 + 1 ∧ SMap.get 0 host0.boot.badFlits 55 = 0
    ∧ (host0.withBoot { bundle := some ⟨0, 0, 0, 0, 0, 0⟩ }).boot.bundle.isSome = true ∧ host0.linkOut 67 = false
    ∧ (host0.withBoot { linksDown := [67] }).linkOut 67 = true := by decide

theorem test_inject_fields : injOk 1 0 0 0xbfffffffc0 = true ∧ injOk 3 0 0 0xc000000000 = true ∧ injOk 4 55 1 0 = true ∧ injOk 5 35 31 0 = true
    ∧ injOk 6 0 0 0 = true ∧ injOk 7 35 0 0 = true ∧ injOk 4 56 1 0 = false ∧ injOk 5 35 32 0 = false
    ∧ host0.tstLocked Reg.TST_INJ_CTRL = false ∧ host0.flag Fld.TST_INJ_CTRL_ARM = false
    ∧ (put host0 [(Fld.TST_INJ_CTRL_ARM, 1)]).flag Fld.TST_INJ_CTRL_ARM = true := by decide

/-- Everything shared is owned by the second claimant. -/
def owned0 : State := put host0 [(Fld.SBX_OWNER_ALT_OWNER, 2 ^ 55 - 1)]

theorem test_direct : host0.tstLocked Reg.TST_TRACE_CTRL = false ∧ host0.altOwner resTrace = false ∧ owned0.altOwner resPulses = true
    ∧ owned0.altOwner (resScanner 35) = true ∧ wget (35 * 2 ^ 24) 31 24 = 35 ∧ bit (35 * 2 ^ 24) 63 = false
    ∧ owned0.tstLocked Reg.TST_DIRECT_CMD = false ∧ owned0.directBuf 0xc7ffffffc0 = .ok ∧ owned0.altOwner resPmbus = true
    ∧ owned0.altOwner resFlash = true ∧ ((owned0.emit (.pmbus false 255 [])).writeMem 7 0xc7ffffffc0 (leBytes 64 0)).1 = .ok
    ∧ (owned0.readMem 7 .module 0xc7ffffffc0 64).1 = .ok ∧ 0x3ffffc0 + 64 ≤ sectorCount * sectorSize := by decide

/-- An injection of a kind that was armed at time 0, with its delay of 1 µs over. -/
def armed0 (kind : Nat) : State :=
  (put host0 [(Fld.TST_INJ_CTRL_ARM, 1), (Fld.TST_INJ_CTRL_KIND, kind), (Fld.TST_INJ_CTRL_DELAY_US, 1), (Fld.FAB_PORT_LINK_EXPECT_MODULE 0, 1), (Fld.FAB_PORT_STATUS_STATE 0, psAccepted)]
    |>.withTest { armedAt := some 0 }).withTime 1000

theorem test_injections : (∀ k < 8, 1 ≤ k → (armed0 k).injDue k = true) ∧ ((armed0 1).withTime 999).injDue 1 = false
    ∧ (armed0 1).ready rdyHbm = true ∧ (armed0 7).expects 0 = true ∧ (armed0 7).portState 0 ≠ psDisabled
    ∧ (armed0 7).portState 0 ≠ psFailed := by decide

/-! ### The host side -/

/-- Firmware runs and the management path is ready; port 3 is down, up, or connected. -/
def side0 (link conn : Nat) : State :=
  put { boot := { image := some image0 } } [(⟨Reg.BUP_READY, rdySecureBoot, rdySecureBoot⟩, 1), (⟨Reg.BUP_READY, rdyMgmt, rdyMgmt⟩, 1),
    (Fld.HST_PORT_STATUS_LINK 3, link), (Fld.HST_PORT_STATUS_MGMT_CONN 3, conn)]

theorem test_host_port : (side0 0 0).ready rdySecureBoot = true ∧ (side0 0 0).linkUp 3 = false ∧ (side0 0 0).boot.sdsclk = true
    ∧ 41 + 2 * 3 ∉ (side0 0 0).boot.linksDown ∧ 4 ∉ (side0 0 0).boot.badComponents ∧ (side0 1 0).linkUp 3 = true
    ∧ (side0 1 0).ready rdyMgmt = true ∧ (side0 1 0).mgmtConn 3 = false ∧ (side0 1 1).mgmtConn 3 = true ∧ (qp0 0).hears 255 = true
    ∧ (side0 1 0).fld (Fld.HST_PORT_CFG_MGMT_VLAN 3) < 4096 := by decide

/-- A page that R409's checks pass: a window of 4 KiB in one JOB region of HBM, a ring of 64 entries, on port 3. -/
def page0 (st : Nat) : State :=
  (put host0 [(Fld.HST_QP_W0_STATE 0, st), (Fld.HST_QP_W7_SIZE_4K 0, 1), (Fld.HST_PORT_CFG_DATA_VLAN 3, 4094)]).withBoot
    { image := some { image0 with regions := [⟨0, 0, 0, 1024⟩] } }

def ready0 : Word := BitVec.ofNat 64 (1 * 2 ^ 62 + 3 * 2 ^ 60 + 6 * 2 ^ 48 + 2 ^ 43)

theorem test_page_words : (page0 0).qpState 0 = 0 ∧ (page0 1).qpState 0 = 1 ∧ wget ready0 63 62 = 1 ∧ wget (2 ^ 63) 63 62 = 2
    ∧ wget (3 * 2 ^ 62) 63 62 = 3 ∧ (0x0024770000000000 : Word) &&& qpMask 0 &&& 0x3fffffffffffffff = (page0 1).reg (Reg.HST_QP_W0 0) &&& 0x3fffffffffffffff := by decide

theorem test_page_ready : (page0 0).readyStatus 0 ready0 = .ok ∧ (page0 0).readyStatus 0 (ready0 + 2 ^ 48) = .verify
    ∧ (put (page0 0) [(⟨Reg.BUP_READY, rdyHbm, rdyHbm⟩, 0)]).readyStatus 0 ready0 = .notReady := by decide

theorem test_port_busy : (page0 0).portBusy 3 = false ∧ (page0 1).portBusy 0 = true ∧ 4094 < wget (4095 * 2 ^ 40) 51 40
    ∧ wget (4094 * 2 ^ 40) 51 40 = 4094 := by decide +kernel

/-- A consist of one entry of each kind: its bytes at 0, its other end at 4096, within the window of pair 255. -/
def entry0 (op : Nat) : Entry := ⟨op, false, false, 0, 0, 64, 9, 0, 4096, 7, 1, .ok⟩
def consistState (op : Nat) (p : Progress) : State :=
  (put (qp0 1) [(⟨Reg.BUP_READY, rdyCores, rdyCores⟩, 1), (⟨Reg.BUP_READY, rdyTimetable, rdyTimetable⟩, 1)]).setQp 255
    { consists := [⟨0, [(entry0 op, p)]⟩] }

/-- The status that an entry's bytes, the window and the tenant give. -/
def entryStatus (s : State) (y : Entry) : Status :=
  Status.lowest [y.check, .when (y.check = .ok && y.ranges.any (fun r => !s.inWindow 255 r.1 r.2)) .bounds,
    .when (decide (y.op = 0x10) && decide (y.tenant ≠ s.qpTenant 255)) .denied]

theorem test_consist : (∀ op ∈ ([0, 1, 2, 3, 0x10] : List Nat), (consistState op .waiting).qpState 255 = 1
      ∧ ((consistState op .waiting).qp 255).consists[0]? = some ⟨0, [(entry0 op, .waiting)]⟩
      ∧ entryStatus (consistState op .waiting) (entry0 op) = .ok)
    ∧ entryStatus (consistState 1 .waiting) { entry0 1 with localAddr := 2 ^ 30 } = .bounds
    ∧ ([(entry0 1, .waiting)] : List (Entry × Progress)).all (fun z => !z.2.failed) = true
    ∧ ((consistState 2 .waiting).readMem 4 (.qp (dataQpn 255)) 0 64).1 = .ok
    ∧ (((consistState 2 .waiting).withEccDead [0]).readMem 4 (.qp (dataQpn 255)) 0 64).1 = .uncorrectable
    ∧ ((consistState 0x10 .waiting).ready rdyCores && (consistState 0x10 .waiting).ready rdyTimetable) = true
    ∧ (Consist.mk 0 [(entry0 0x10, .ended .ok)]).done = true
    ∧ (Consist.mk 0 [(entry0 0x10, .ended .ok)]).entries.getLast?.map (·.1) = some (entry0 0x10) := by decide

/-- Requests that wait for the host: a read, a write, and a completion's SEND. -/
def reqs0 : List OutReq := [⟨1, 1, .write 0 0 64⟩, ⟨2, 1, .read 0 0 0 64⟩, ⟨3, 1, .send { user := 0, status := .ok, kind := .consist }⟩]
def answerState (rnr : Bool) : State :=
  (consistState 1 (.running 64 0 .ok)).setQp 255 { consists := [⟨0, [(entry0 1, .running 64 0 .ok)]⟩], reqs := reqs0, rnr }

theorem test_answers : (answerState false).hears 255 = true ∧ (splitAck 1 reqs0).isSome = true
    ∧ (splitAt 2 reqs0).map (·.2.1.kind) = some (.read 0 0 0 64) ∧ (splitAt 1 reqs0).map (·.2.1.kind) = some (.write 0 0 64)
    ∧ (splitAt 3 reqs0).isSome = true ∧ (((answerState false).qp 255).consists.findSome?
        (fun c => if c.first = 0 then (c.entries[0]?).map (·.1) else none)) = some (entry0 1)
    ∧ ((answerState false).writeMem 4 0 (leBytes 64 1)).1 = .ok ∧ ((answerState false).qp 255).reqs ≠ []
    ∧ (answerState true).qpAnswers 255 = true ∧ ((answerState true).qp 255).rnr = true
    ∧ ((answerState false).qp 255).retries < (put (answerState false) [(Fld.HST_QP_W0_RETRY_CNT 255, 7)]).fld (Fld.HST_QP_W0_RETRY_CNT 255) := by
  decide

/-! ### The KV page subsystem -/

/-- Page context 0: BF16 keys and values of width 32, one head and layer, no ring; a frame of 8 KiB, summaries of 192 bytes. -/
def ctxRec0 : Nat := record [(0, 1), (2, 0x11), (3, 1), (4, 32), (12, 8192), (16, 192), (22, 1)]
def walk0 : WalkCtx := ⟨false, 1, 1, true, 32, 1, 1, 0, 8192, 192, 0, 0, 1⟩

/-- The page subsystem enabled, with the directory at 0, a command record at 3 MiB, a context record 64 bytes behind it and a page
list 128 bytes behind it; sequence 0 is LIVE at version 1 with context 0, and entry 0 maps its page 0. -/
def kvpState (rec1 : Nat) (e : DirEntry) : State :=
  let s := (put host0 [(Fld.KVP_STATUS_ENABLED, 1)]).withBoot { image := some { image0 with regions := [⟨0, 5, 0, 2⟩, ⟨0, 0, 2, 1024⟩] } }
  ((((s.putNum 0x300000 64 rec1).putNum 0x300040 64 ctxRec0).putNum 0x300080 8 (2 ^ 16)).setDir 0 e).setKvp
    { ctxs := [(0, walk0)], seqs := [(0, ⟨true, 0, 1, 0x300080, 1, 0, 64, []⟩)], queue := [0x300000] }

def mapped0 : DirEntry := ⟨0x400000, 0x500000, 0, 1, 0, 1, false, 0⟩
def free0 : DirEntry := ⟨0, 0, 0, 0, 0, 0, false, 0⟩

/-- The record is readable and the queue, the copy and what is owed are as the statement asks. -/
def recordOk (s : State) : Bool :=
  decide (s.kvp.queue = [0x300000]) && decide (s.kvp.copying = none) && !s.owes .kvp && decide ((s.readCheck 7 .module 0x300000 64).1 = .ok)
    && decide (byteField (s.num 0x300000 64) 3 1 = 0) && decide (byteField (s.num 0x300000 64) 42 6 = 0)

theorem test_page_control : wget 0xc00000 39 6 * 64 = 0xc00000 ∧ isHbm 0xc00000 = true ∧ (kvpState 0 free0).touchesClass classKvp 0xc00000 64 = false
    ∧ (kvpState 0 free0).flag Fld.KVP_STATUS_ENABLED = true ∧ (kvpState 0 free0).fld Fld.KVP_STATUS_PENDING = 0
    ∧ (put (kvpState 0 free0) [(Fld.KVP_STATUS_PENDING, 64)]).fld Fld.KVP_STATUS_PENDING = 64 ∧ host0.flag Fld.KVP_STATUS_ENABLED = false
    ∧ (kvpState 0 free0).ready rdyHbm = true ∧ (kvpState 0 free0).sched.run = none ∧ core0.sched.run.isSome = true := by decide +kernel

/-- A copy of entry 0 to a new frame. -/
def copying0 : State := (kvpState 0 { mapped0 with state := 2 }).setKvp
  { (kvpState 0 mapped0).kvp with copying := some ⟨0x300000, 0, 0x600000, 0x700000⟩ }

/-- The same state with a path to module 1. -/
def routed (s : State) : State := (put s [(Fld.FAB_JOB_TAG_TAG, 5)]).setFab { s.fab with turnout := [(1, 2)], everReady := true }

/-- The reads of that copy: their status and what is missing. -/
def copyReads (s : State) : Status × List (Nat × Nat) :=
  let r := s.kvpReads ((s.copyParts ⟨0x300000, 0, 0x600000, 0x700000⟩).map (fun p => (p.1, p.2.2)))
  (r.1, r.2.2.1)

theorem test_copy_done : copying0.kvp.copying = some ⟨0x300000, 0, 0x600000, 0x700000⟩ ∧ copying0.owes .kvp = false
    ∧ copyReads copying0 = (.ok, []) ∧ copyReads (copying0.withEccDead [0x400000 / 64]) = (.uncorrectable, [])
    ∧ (copyReads (routed (copying0.setDir 0 { mapped0 with frame := 2 ^ 40, state := 2 }))).2 ≠ []
    ∧ copying0.kvpWrites [(0x600000, [0])] = [] ∧ copying0.kvpWrites [(2 ^ 40, [0])] ≠ [] ∧ copying0.kvp.sent = none
    ∧ (copying0.setKvp { copying0.kvp with sent := some .denied }).kvp.sent = some .denied := by decide +kernel

theorem test_ctx_set : recordOk (kvpState (record [(0, 1), (4, 255), (16, 0x300040)]) free0) = true
    ∧ ((kvpState 0 free0).kvpRead 0x300040 64).1 = .ok ∧ WalkCtx.ofNum ((kvpState 0 free0).num 0x300040 64) = some walk0
    ∧ (kvpState 0 free0).kvp.ctxInUse 255 = false ∧ (kvpState 0 free0).kvp.ctxInUse 0 = true := by decide +kernel

/-- The record that SEQ_PUBLISH would stage for 64 positions in one page. -/
def publish0 : SeqRec := ⟨true, 0, 2, 0x300080, 1, 0, 64, []⟩

theorem test_seq_publish : recordOk (kvpState (record [(0, 2), (8, 1), (12, 1), (16, 0x300080), (37, 64)]) mapped0) = true
    ∧ (kvpState 0 mapped0).kvp.lastCtx 0 = some walk0 ∧ publish0.listOk walk0 = true ∧ publish0.pages = [0]
    ∧ (kvpState 0 mapped0).inHbmRegion 0x300080 8 = true ∧ ((kvpState 0 mapped0).dirReads [0]).1 = .ok ∧ ((kvpState 0 mapped0).kvpRead 0x300080 8).1 = .ok
    ∧ (kvpState 0 mapped0).entryOk 0 publish0 walk0 0 ((kvpState 0 mapped0).listEntry publish0 walk0 0) = true := by decide +kernel

theorem test_seq_clear : recordOk (kvpState (record [(0, 3), (12, 1)]) mapped0) = true
    ∧ ((kvpState 0 mapped0).kvp.lastSeq 0).live = true ∧ ((kvpState 0 mapped0).kvp.lastSeq 0).version = 1 := by decide +kernel

theorem test_map : recordOk (kvpState (record [(0, 4), (8, 1), (16, 0x400000), (24, 0x500000)]) free0) = true
    ∧ rangeOk (record [(0, 4), (4, 65535), (8, 1)]) = true ∧ rangeOk (record [(0, 4), (4, 65535), (8, 2)]) = false
    ∧ ((kvpState 0 free0).kvpRead 0 32).1 = .ok ∧ (kvpState 0 free0).handleCtx 0 = some walk0 ∧ ((kvpState 0 free0).dir 0).state = 0
    ∧ (kvpState 0 free0).pageAddrOk 0x400000 4096 8192 = true ∧ (kvpState 0 free0).pageAddrOk 0x500000 64 walk0.summaries = true := by
  decide +kernel

/-- The reads of a SEAL of entry 0: their status and what is missing. -/
def sealReads (s : State) : Status × List (Nat × Nat) :=
  let r := s.kvpReads (s.frameReads [0])
  (r.1, r.2.2.1)

theorem test_seal_free : recordOk (kvpState (record [(0, 5), (8, 1)]) mapped0) = true ∧ recordOk (kvpState (record [(0, 8), (8, 1)]) mapped0) = true
    ∧ ((kvpState 0 mapped0).dir 0).state = 1 ∧ ((kvpState 0 mapped0).dir 0).isSealed = false ∧ ((kvpState 0 mapped0).dir 0).summary ≠ 0
    ∧ ((kvpState 0 mapped0).dir 0).refs = 0 ∧ (kvpState 0 mapped0).handleCtx 0 = some walk0
    ∧ sealReads (kvpState 0 mapped0) = (.ok, []) ∧ sealReads ((kvpState 0 mapped0).withEccDead [0x400000 / 64]) = (.uncorrectable, [])
    ∧ (sealReads (routed (kvpState 0 { mapped0 with frame := 2 ^ 40 }))).2 ≠ [] := by decide +kernel

theorem test_move_page : recordOk (kvpState (record [(0, 6), (16, 0x600000), (24, 0x700000)]) mapped0) = true
    ∧ recordOk (kvpState (record [(0, 7), (12, 1), (16, 0x600000)]) mapped0) = true
    ∧ (kvpState 0 mapped0).newPageOk (record [(0, 7), (12, 1), (16, 0x600000), (24, 0x700000)]) 0 = true
    ∧ ((kvpState 0 mapped0).dir 0).gen = 1 := by decide +kernel

/-! ### Jobs, the timetable and sidings -/

/-- A timetable of one shared slot of 1 ms that lends, with a quantum of 100 µs and a share of 1 for every tenant. -/
def tt0 : Timetable := ⟨1, 100, [0, 0, 0, 0], [⟨1000, 0, true⟩], List.replicate 64 1⟩

/-- A job of tenant 1 that waits, and jobs of tenant 0 that hold the cores in siding 0. -/
def queued0 : Job := { jobId := 2, tenant := 1 }
def held0 (st : JobState) : Job := { job0 with state := st, tilesStarted := true, siding := some 0 }

/-- One core, whose firmware is OK, is free or held; the timetable is active; `queued0` waits; tenant 0 has been charged 5
core-nanoseconds; it is 1 ms. -/
def jobState (run : Option Job) : State :=
  ((put host0 [(Fld.BUP_STATUS_LOGICAL_CORES, 1), (Fld.CORE_FW_STATUS_RESULT 0, 2)]).withSched
    { queue := [queued0], run, active := some tt0, charges := [(0, 5)] }).withTime 1000000

theorem test_boundary : (jobState none).applyChanges.coresOk = true ∧ (put (jobState none) [(Fld.CORE_FW_STATUS_RESULT 0, 1)]).coresOk = false
    ∧ (jobState none).applyChanges.held = false ∧ (jobState none).applyChanges.choice = some queued0 ∧ (jobState none).sched.run = none ∧ (jobState none).held = false ∧ (put host0 [(Fld.PWR_STATUS_STEP, 3)]).held = true
    ∧ (jobState none).choice = some queued0 ∧ (host0.choice).isNone = true ∧ (jobState none).freeSiding 0 0 = some 0
    ∧ ((jobState none).withSched { queue := [held0 .sided], active := some tt0 }).choice = some (held0 .sided) := by decide +kernel

theorem test_job_end : (jobState (some (held0 .restoring))).coresOk = true ∧ (held0 .running).suspended = false ∧ (jobState (some (held0 .loading))).held = false ∧ ((jobState none).siding 0).isSome = true
    ∧ (held0 .running).prog = some prog0 ∧ (jobState (some (held0 .running))).jobTraffic = false
    ∧ (jobState (some (held0 .running))).allIdle = true ∧ (jobState (some (held0 .running))).quiet = true
    ∧ (held0 .running).tilesStarted = true ∧ (held0 .running).ended = false ∧ { held0 .running with ended := true }.ended = true := by
  decide +kernel

theorem test_slots : (jobState (some (held0 .running))).tt = some tt0
    ∧ ((jobState (some (held0 .running))).withSched { (jobState (some (held0 .running))).sched with slot := 0 }).slotNow = some ⟨1000, 0, true⟩
    ∧ 0 + tt0.endOf 0 ≤ (jobState none).time.toNat ∧ ((jobState none).withTime 999999).time.toNat < 0 + tt0.endOf 0
    ∧ 0 + tt0.quantumUs * 1000 ≤ (jobState none).time.toNat ∧ ((jobState (some (held0 .running))).firstReady 0 (some 1)).isSome = true
    ∧ (jobState (some (held0 .running))).usedBy 1 * tt0.share 0 < (jobState (some (held0 .running))).usedBy 0 * tt0.share 1 := by
  decide +kernel

/-- Core 0 has halted with its job HALTING. -/
def halting0 : State := put (jobState (some (held0 .halting))) [(Fld.CORE_STATUS_STATE 0, 4), (Fld.BUP_STATUS_LOGICAL_CORES, 1)]

theorem test_preempt : halting0.cores' = 1 ∧ (List.range halting0.cores').all (fun n => decide (halting0.fld (Fld.CORE_STATUS_STATE n) ≠ 3)) = true
    ∧ halting0.allIdle = false ∧ halting0.quiet = true ∧ (held0 .halting).suspended = false ∧ halting0.jobTraffic = false
    ∧ halting0.fab.held = [] ∧ (held0 .saving).siding = some 0 ∧ (halting0.siding 0).isSome = true := by decide +kernel

/-- Siding 0 holds a header of one core and class SHARED, in a state of its own. -/
def siding0 (st : Nat) : State :=
  put (((jobState none).putNum 0x40000000 16 (record [(0, 1), (4, 7), (6, 1)])).withSched {}) [(Fld.TT_SIDING_STATE 0, st)]

theorem test_sidings : byteField ((siding0 3).num 0x40000000 64) 6 2 = (siding0 3).cores'
    ∧ byteField ((siding0 3).num 0x40000000 64) 6 2 ≠ (put (siding0 3) [(Fld.BUP_STATUS_LOGICAL_CORES, 2)]).cores' ∧ ((siding0 3).siding 0).map (·.base) = some 0x40000000 ∧ (siding0 2).sidingState 0 = sdHolds
    ∧ (siding0 3).sidingState 0 = sdDetached ∧ (siding0 0).sidingState 0 = sdFree ∧ (siding0 2).sched.run.bind (·.siding) ≠ some 0
    ∧ (siding0 3).admitted = 0 ∧ ((siding0 3).readCheck 7 .module 0x40000000 8192).1 = .ok
    ∧ sidingHeaderOk ((siding0 3).num 0x40000000 8192) = true ∧ byteField ((siding0 3).num 0x40000000 8192) 1 1 = 0 := by decide +kernel

theorem test_tt_load : ((jobState none).withSched { loading := some 4096 }).sched.loading = some 4096
    ∧ (jobState none).hbmSource 4096 ttBytes = .ok ∧ ((jobState none).readCheck 7 .module 4096 ttBytes).1 = .ok
    ∧ (put host0 [(Fld.TT_STATUS_LOAD_STATE, lsLoading)]).fld Fld.TT_STATUS_LOAD_STATE = lsLoading
    ∧ host0.fld Fld.TT_STATUS_LOAD_STATE ≠ lsLoading ∧ host0.flag Fld.TT_STATUS_SWAP_PENDING = false
    ∧ (put host0 [(Fld.TT_STATUS_SWAP_PENDING, 1)]).flag Fld.TT_STATUS_SWAP_PENDING = true := by decide +kernel

/-! ### The fabric -/

/-- A neighbour's record, and what an attempt with 8 good lanes shows. -/
def ident0 : Ident := ⟨0, 1, 0xff, 7, 0, 0, 0, 0, 0, 0, 0⟩
def train0 : TrainObs := ⟨true, false, 0xff, 0xff, List.replicate 3 ident0.bytes⟩

/-- Port 35 in a state, with a neighbour expected; every port may train; window 0 opens the first GiB of HBM to tag 5. -/
def portState0 (st : Nat) : State :=
  (put host0 [(Fld.FAB_PORT_STATUS_STATE 35, st), (Fld.FAB_PORT_LINK_EXPECT_MODULE 35, 7), (Fld.FAB_WIN_BASE_VALID 0, 1),
    (Fld.FAB_WIN_BASE_TAG 0, 5), (⟨Reg.FAB_WIN_BASE 0, 62, 60⟩, 7), (Fld.FAB_WIN_SIZE_SIZE_4K 0, 2 ^ 18)]).setFab
    { everReady := true, rebuilding := [5], turnout := [(0, 6), (1, 2)] }

theorem test_training : ((portState0 psTraining).attempting 35).isSome = true ∧ ((portState0 psAccepted).attempting 35).isNone = true
    ∧ widest (train0.here &&& train0.peer).toNat = some (0xff, 3) ∧ widest 0x80 = some (128, 0) ∧ widest 0 = none
    ∧ (portState0 psNarrow).portState 35 = psNarrow ∧ (portState0 psFailed).portState 35 = psFailed
    ∧ (portState0 psMiswired).portState 35 = psMiswired ∧ (portState0 0).fld Fld.FAB_CTRL_MIN_WIDTH = 0
    ∧ (put (portState0 0) [(Fld.FAB_CTRL_MIN_WIDTH, 2)]).fld Fld.FAB_CTRL_MIN_WIDTH = 2 := by decide +kernel

theorem test_idents : agreedRecord train0.records = some (ident0.bytes, ident0) ∧ agreedRecord [ident0.bytes] = none
    ∧ (portState0 0).identCause 35 ident0 = 0 ∧ (portState0 0).identCause 35 { ident0 with group := 4 } ≠ 0
    ∧ Ident.ofBytes ident0.bytes = some ident0 ∧ Ident.ofBytes [] = none ∧ ((portState0 psAccepted).port 35).ident = none
    ∧ (((portState0 psAccepted).setPort 35 { ident := some ident0.bytes }).port 35).ident = some ident0.bytes := by decide +kernel

theorem test_flits : (portState0 psAccepted).portState 35 = psAccepted ∧ 4095 ≠ ((portState0 psAccepted).port 35).received % 4096
    ∧ 0 = ((portState0 psAccepted).port 35).received % 4096 ∧ 5 ∈ (portState0 psAccepted).fab.rebuilding
    ∧ ((portState0 psAccepted).port 35).naked = false ∧ ({ naked := true } : PortRun).naked = true
    ∧ (portState0 psNarrow).portState 35 ≠ psAccepted ∧ ({} : PortRun).ackGain 4095 = 0 ∧ ({} : PortRun).naks + 1 < 16
    ∧ 16 ≤ ({ naks := 15 } : PortRun).naks + 1
    ∧ (List.range 36).all (fun i => ((portState0 psAccepted).port i).queue.isEmpty) = true := by decide +kernel

/-- The header of a request for this module. -/
def hdr0 (a : Nat) : PktHdr := ⟨35, 1, 7, a, 5, 16383, true, true, true⟩

theorem test_requests : (portState0 psAccepted).portState (hdr0 0).port = psAccepted ∧ (portState0 0).remoteStatus (hdr0 0) 61 64 = .ok ∧ (portState0 0).remoteStatus (hdr0 0) 62 2048 = .ok
    ∧ (portState0 0).remoteStatus (hdr0 (2 ^ 30)) 61 64 = .denied ∧ (portState0 0).remoteStatus (hdr0 (2 ^ 30 - 1)) 61 2 = .bounds
    ∧ inside 1 2048 2048 = true ∧ inside 1 2048 2049 = false ∧ inside 1 2048 0 = false
    ∧ ((portState0 0).writeMem 5 0 (leBytes 64 1)).1 = .ok ∧ ((portState0 0).readMem 5 (.remote 7) 0 64).1 = .ok
    ∧ (portState0 0).turnoutDir 1 ≠ 6 := by decide +kernel

/-- The window opens the map store, where a job's slot stands. -/
def postWin0 : State := (put (portState0 psAccepted) [(Fld.FAB_WIN_BASE_BASE_4K 0, msBase / 4096)]).withSched { run := some job0 }

theorem test_posts : postWin0.postStatus (hdr0 msBase) = .ok ∧ postWin0.postStatus (hdr0 0) ≠ .ok
    ∧ (postWin0.readCheck 5 (.remote 7) msBase 1024).1 = .ok := by decide +kernel

/-- A transaction to module 7 of each kind that has been sent, or waits for a port. -/
def trans0 (op : Nat) (sent : Bool) : Trans := { serial := 1, op, dest := 7, addr := 0, len := 64, tag := 5, at' := 0, owner := .instr 0, sent }
def transState (op : Nat) (sent : Bool) : State :=
  (portState0 psAccepted).setFab { trans := [(16383, trans0 op sent)], stranded := [(none, { op := 1, cls := 0, dst := 7, src := 0, addr := 0, reqId := 1 })] }

theorem test_fabric_answers : SMap.find (transState 1 true).fab.trans (hdr0 0).reqId = some (trans0 1 true)
    ∧ SMap.find host0.fab.trans (hdr0 0).reqId = none ∧ (trans0 1 true).dest = (hdr0 0).src ∧ (trans0 1 true).sent = true
    ∧ (transState 1 true).portState (hdr0 0).port = psAccepted ∧ (hdr0 0).crcOk = true
    ∧ (trans0 1 true).op ≠ 2 ∧ (trans0 2 true).owner = .instr 0 ∧ { trans0 2 true with owner := .kvp }.owner ≠ .instr 0 ∧ (trans0 2 true).op = 2 ∧ (trans0 2 true).post = none
    ∧ SMap.find (transState 1 false).fab.trans 16383 = some (trans0 1 false) ∧ (trans0 1 false).sent = false
    ∧ (transState 1 false).connected ((transState 1 false).turnoutDir 7) = false ∧ (transState 1 false).fab.stranded[0]?.isSome = true := by
  decide +kernel

/-- Loads of the turnout table: none, one in progress, one READY. -/
def turnout0 (load : Nat) : State := (put host0 [(Fld.FAB_TT_STATUS_LOAD_STATE, load)]).setFab { load := some 4096 }

theorem test_fabric_control : (turnout0 lsLoading).fld Fld.FAB_TT_STATUS_LOAD_STATE = lsLoading
    ∧ (turnout0 lsReady).fld Fld.FAB_TT_STATUS_LOAD_STATE = lsReady ∧ (turnout0 lsReady).flag Fld.FAB_CTRL_TT_SWAP = false
    ∧ host0.flag (Fld.FAB_WIN_BASE_VALID 63) = false ∧ wget (2 ^ 28 : Word) 28 0 = 2 ^ 28 ∧ wget (2 ^ 28 + 1 : Word) 28 0 = 2 ^ 28 + 1
    ∧ bit (2 ^ 63 - 1) 63 = false ∧ (portState0 0).expects 35 = true ∧ (portState0 0).flag (Fld.FAB_PORT_CTRL_DISABLE 35) = false
    ∧ (turnout0 lsLoading).fab.load = some 4096 ∧ host0.hbmSource 4096 turnoutBytes = .ok
    ∧ (host0.readCheck 7 .module 4096 turnoutBytes).1 = .ok := by decide +kernel

/-- Every port has settled: MISWIRED, or FAILED after an attempt. -/
def settled0 : State :=
  (put host0 [(Fld.FAB_PORT_STATUS_STATE 35, psMiswired)]).setFab { ports := (List.range 35).map (fun p => (p, { failedOnce := true })) }

theorem test_topo : settled0.flag Fld.BUP_TOPO_TOPO_DONE = false ∧ settled0.boot.image.isSome = true
    ∧ (List.range 36).all (fun p => !settled0.expects p || settled0.settled p) = true := by decide +kernel

/-! ### Gradient reduction -/

/-- A descriptor of 512 elements over four modules on two paths, its buffers in the first GiB, and one of a gather. -/
def gradRec0 : Nat := record [(0, 1), (4, 2), (5, 3), (6, 1), (7, 1), (8, 9), (10, 5), (12, 1), (16, 512), (22, 1), (24, 0x100000), (29, 0x200000),
  (39, 0x300000), (52, 1000), (56, 1000), (64, 1)]
def gather0 : GradDesc := { GradDesc.ofNum gradRec0 with gather := true, gatherBytes := 4, dual := false, expLen := 0 }

/-- A torus of 2 × 2 modules; the reduction engines and the fabric are ready; a GRD region of 8 MiB; the descriptor at 4 MiB. -/
def grad0 : State :=
  ((put host0 [(Fld.FAB_PORT_STATUS_STATE 35, psAccepted), (Fld.FAB_CFG_DX_MINUS1, 1), (Fld.FAB_CFG_DY_MINUS1, 1), (⟨Reg.BUP_READY, rdyGrad, rdyGrad⟩, 1),
    (⟨Reg.BUP_READY, rdyFabric, rdyFabric⟩, 1)]).withBoot { image := some { image0 with regions := [⟨0, 0, 0, 1024⟩, ⟨0, 6, 2048, 8⟩] } }).putNum
      0x400000 128 gradRec0

theorem test_grd_open : wget 0x400000 39 6 * 64 = 0x400000 ∧ isHbm 0x400000 = true ∧ grad0.ready rdyHbm = true
    ∧ grad0.flag Fld.GRD_STATUS_OPENING = false ∧ (grad0.readCheck 7 .module 0x400000 128).1 = .ok ∧ grad0.num 0x400000 128 = gradRec0
    ∧ grad0.gradOpenStatus gradRec0 = .ok := by decide +kernel

/-- The reduction, and a gather, opened. -/
def open0 : State := grad0.setRed 9 { d := GradDesc.ofNum gradRec0, opened := 0 }
def openGather0 : State := grad0.setRed 9 { d := gather0, opened := 0 }

/-- A packet of one chunk. -/
def gradPkt0 (op stage : Nat) (secondary : Bool) (n : Nat) : GradPkt := ⟨op, 9, stage, secondary, 1, 1, 0, [0], [0], 0, List.replicate n 0, 0⟩

theorem test_grd_packets : open0.portState (hdr0 0).port = psAccepted ∧ open0.gradJudge (hdr0 0) (gradPkt0 0x20 1 false 512) = .ok ∧ open0.gradJudge (hdr0 0) (gradPkt0 0x21 2 false 1024) = .ok
    ∧ open0.gradJudge (hdr0 0) (gradPkt0 0x22 1 true 12) = .ok ∧ openGather0.gradJudge (hdr0 0) (gradPkt0 0x23 1 false 512) = .ok
    ∧ open0.gradJudge (hdr0 0) (gradPkt0 0x21 3 false 1024) = .bounds ∧ grad0.gradJudge (hdr0 0) (gradPkt0 0x20 1 false 512) = .notReady := by
  decide +kernel

/-- A reduction with a packet that was answered NOT_READY, and one that has timed out. -/
def resent0 : Reduction := { d := GradDesc.ofNum gradRec0, opened := 0, resend := [⟨[7], 0, gradPkt0 0x21 2 false 1024⟩] }

theorem test_grd_deadlines : ((open0.gradReadReady 9).red 9).map (·.abandoned) = some false ∧ (GradDesc.ofNum gradRec0).gather = false
    ∧ gather0.gather = true ∧ (grad0.setRed 9 resent0).red 9 = some resent0
    ∧ (grad0.gradReread resent0.d 0 (gradPkt0 0x21 2 false 1024)).1 = [gradPkt0 0x21 2 false 1024]
    ∧ grad0.gradDone 9 { resent0 with abandoned := true } = true := by decide +kernel

/-- After coordinate 0 the turn comes to coordinate 1 (R334); a reduction whose pieces have all been sent has no packet. -/
theorem test_grd_turn : (((open0.gradReadReady 9).red 9).bind (open0.gradReadReady 9).nextRaw).map (·.1) = some 1
    ∧ grad0.nextRaw { resent0 with ready := 1, sent := [0, 1, 2, 3] } = none := by decide +kernel

/-! ### Media and the narrow-gauge engines -/

/-- Descriptors of 16 × 16 pictures on die 3: a decoder, and an encoder at a constant QP. -/
def mediaRec0 (enc codec rc : Nat) : Nat :=
  record [(0, 1), (1, enc), (2, codec), (3, 3), (6, 1), (7, 2), (8, 16), (10, 16), (12, 8), (16, 0x100000), (21, 1), (23, 1), (24, 0x200000),
    (32, 0x300000), (40, 16384), (48, enc * 0x400000), (56, enc * 16384), (68, enc), (70, enc), (72, rc), (74, enc * 51), (76, enc), (80, enc)]
def decoder0 : StreamDesc := .ofNum (mediaRec0 0 1 0)
def encoder0 : StreamDesc := .ofNum (mediaRec0 1 1 0)

/-- Media and the narrow-gauge engines are ready; a record is at the head of the queue at 5 MiB, a descriptor, table or rate at 6 MiB;
stream 255 in a state. -/
def mediaState (rec1 data st : Nat) (x : Option Stream) : State :=
  let s := (put host0 [(⟨Reg.BUP_READY, rdyMedia, rdyMedia⟩, 1), (⟨Reg.BUP_READY, rdyNge, rdyNge⟩, 1), (Fld.MED_STREAM_STATE 255, st)]).withBoot
    { image := some { image0 with regions := [⟨0, 0, 0, 1024⟩] } }
  (((s.putNum 0x500000 64 rec1).putNum 0x600000 256 data).putNum 0x100000 8 1).setMed
    { queue := [0x500000], streams := x.toList.map (fun y => (255, y)) }

/-- The command record of an operation on stream 255 with its data at 6 MiB. -/
def mediaCmd (op : Nat) : Nat := record [(0, op), (3, 255), (4, 0x600000)]

theorem test_med_records : (mediaState (mediaCmd 1) 0 0 none).med.queue = [0x500000]
    ∧ (∀ op < 7, ((mediaState (mediaCmd op) 0 0 none).medRead 0 0x500000 64).1 = .ok ∧ byteField (mediaCmd op) 9 39 = 0
      ∧ byteField (mediaCmd op) 56 8 = 0 ∧ byteField (mediaCmd op) 3 1 = 255 ∧ byteField (mediaCmd op) 4 5 = 0x600000)
    ∧ host0.hbmSource (wget 0x500000 39 6 * 64) 64 = .ok ∧ host0.med.queue.length < 64
    ∧ (host0.setMed { queue := List.replicate 64 0 }).med.queue.length = 64 := by decide +kernel

theorem test_med_open : (mediaState 0 (mediaRec0 0 1 0) 0 none).streamSt 255 = stFree ∧ (mediaState 0 0 3 none).streamSt 255 = stIdle
    ∧ host0.hbmSource 0x600000 256 = .ok ∧ ((mediaState 0 (mediaRec0 0 1 0) 0 none).medRead 255 0x600000 128).1 = .ok
    ∧ (mediaState 0 (mediaRec0 0 1 0) 0 none).num 0x600000 128 = mediaRec0 0 1 0
    ∧ decoder0.ok (mediaRec0 0 1 0) = true ∧ encoder0.ok (mediaRec0 1 1 0) = true ∧ encoder0.lookahead = 0
    ∧ (mediaState 0 0 0 none).streamBuffers decoder0 = true ∧ (mediaState 0 0 0 none).streamBuffers encoder0 = true
    ∧ (mediaState 0 0 0 none).ready rdyMedia = true := by decide +kernel

theorem test_med_encoder : (mediaState 0 0 1 (some { d := encoder0 })).stream 255 = some { d := encoder0 } ∧ encoder0.encode = true
    ∧ (List.range 16).all (fun i => (Roi.ofNum 0 i).ok encoder0 0 i) = true ∧ bitrateOk encoder0.rcMode 0 = true
    ∧ qpTop encoder0.codec = 51 ∧ byteField (record [(9, 51), (10, 51)]) 10 1 = 51 ∧ host0.hbmSource 0x600000 16 = .ok := by decide +kernel

/-- What runs on stream 255. -/
def dec0 : DecRun := ⟨[12], 0, 0, ⟨false, false, 1, 16, 16, 8, 0, 1, true, 0, [], [], false, true, false⟩, false, false⟩
def enc0 : EncRun := ⟨[6], 0, 0, true, true, 0, none, 0, [(0, [1])]⟩

theorem test_med_pictures : (mediaState 0 0 2 none).streamSt 255 = stDraining
    ∧ ((mediaState 0 0 1 (some { d := decoder0, dec := some dec0 })).stream 255).map (·.dec) = some (some dec0)
    ∧ ((mediaState 0 0 1 (some { d := encoder0, enc := some enc0 })).stream 255).map (·.enc) = some (some enc0)
    ∧ (mediaState 0 0 1 none).freeEngines 3 false ≠ [] ∧ (mediaState 0 0 1 none).freeEngines 3 true ≠ []
    ∧ (mediaState 0 0 1 (some { d := decoder0, unitsOther := 1 })).nextPicture 3 false = some 255
    ∧ (mediaState 0 0 1 (some { d := encoder0, picsOther := 1 })).nextPicture 3 true = some 255 := by decide +kernel

/-- A picture ready to be decoded or encoded: a unit of 64 bytes at 7 MiB, or a raw picture in slot 0 of the ring. -/
def picState (enc : Bool) : State :=
  (((mediaState 0 0 1 (some { d := if enc then encoder0 else decoder0 })).putNum 0x200000 8 1).putNum 0x100040 32
    (record [(0, 0x700000), (8, 64)])).putNum 0x200040 32 (record [(10, 16), (12, 16), (14, 8)])

/-- The state that PICTURE_START finds after reading the queues of die 3, and the stream there. -/
def polled (enc : Bool) : State × Stream :=
  let s := (picState enc).med.streams.foldl (fun acc p =>
    if p.2.d.md = 3 && p.2.d.encode = enc && (acc.streamSt p.1 = stRunning || acc.streamSt p.1 = stDraining) then
      (acc.refresh p.1).flushOut p.1 else acc) (picState enc)
  (s, (s.stream 255).getD { d := decoder0 })

theorem test_picture_decode : (polled false).1.nextPicture 3 false = some 255 ∧ decoder0.unitAt 0 = 0x100040
    ∧ ((polled false).1.medRead 255 0x100040 32).1 = .ok ∧ (polled false).1.num 0x100040 32 = record [(0, 0x700000), (8, 64)]
    ∧ (polled false).1.inOneRegion 0x700000 64 = true ∧ ((polled false).1.medRead 255 0x700000 64).1 = .ok
    ∧ dec0.obs.refsNeeded < decoder0.nref ∧ dec0.obs.w ≤ decoder0.maxW ∧ dec0.obs.h ≤ decoder0.maxH ∧ dec0.obs.bits = decoder0.bits
    ∧ dec0.obs.chroma = decoder0.chroma ∧ (polled false).2.skipping = false ∧ dec0.obs.refs = []
    ∧ enginesOk ((polled false).1.freeEngines 3 false) [12] (min decoder0.splitMax 1) true = true := by decide +kernel

theorem test_picture_encode : (polled true).1.nextPicture 3 true = some 255 ∧ (polled true).2.takeStaged.pics = 0 ∧ 0 < (polled true).2.picsOther
    ∧ enginesOk ((polled true).1.freeEngines 3 true) [6] (min encoder0.splitMax encoder0.tileCols) false = true
    ∧ (polled true).2.takeStaged.coded = [] ∧ (polled true).1.streamSt 255 ≠ stDraining
    ∧ ((polled true).1.encInput 255 (polled true).2.takeStaged 0).1 = .ok
    ∧ ((polled true).1.readChecks clsMedia (.stream 255) []).1 = .ok := by decide +kernel

/-- A bound program of a stream whose decoder has output a picture, and one whose encoder waits. -/
def nge0 (front : Bool) : NgeProg := ⟨255, front, [], 1, 3, 16, 16, 32, 512, 0x700000, 1, 8192, 0, b2n (!front), none, false, []⟩
def pic0 : Picture := ⟨0, 0, false, false, true, .ok, 16, 16, 8, 0, []⟩
def ngeState (front : Bool) : State :=
  (mediaState 0 0 1 (some { d := { (if front then decoder0 else encoder0) with viaNge := true }, local' := if front then [pic0] else [] })).setNge
    { progs := [(1023, nge0 front)] }

theorem test_nge : (ngeState true).ready rdyNge = true ∧ 3 ∉ (ngeState true).boot.ngeOut ∧ (ngeState true).flag (Fld.NGE_STATUS_PENDING 3) = false
    ∧ ((ngeState true).dieStream 3 255).isSome = true ∧ wget (wput (255 * 2 ^ 48) 63 62 1) 55 48 = 255
    ∧ ((ngeState true).ngeProg 3 255).isSome = true ∧ ((ngeState true).ngePrograms 3).length < 64 ∧ host0.ready rdyNge = false
    ∧ ((ngeState true).nextNge 3).map (·.1) = some 255 ∧ ((ngeState false).nextNge 3).map (·.1) = some 255
    ∧ ((ngeState true).nextNge 0).isNone = true
    ∧ ((ngeState false).readChecks clsNge (.engine 3) [((nge0 false).slotAt 0, (nge0 false).needs), ((nge0 false).recordAt 0, 16)]).1 = .ok := by
  decide +kernel

/-! ### Starts, firmware and flash -/

/-- A module with power, and with work of its own: a trip to leave, a transition to end, a burning command. -/
def powered0 : State := host0.withBoot { host0.boot with powerGood := true }

theorem test_starts : ({} : State).boot.powerGood = false ∧ ({} : State).boot.heldForFlash = false ∧ powered0.boot.powerGood = true
    ∧ powered0.boot.resetN = true ∧ powered0.boot.sdsclk = true ∧ ({ sdsclk := false } : Boot).sdsclk = false ∧ (0xa4 : BitVec 8) ≠ 0xa5
    ∧ powered0.burning = false ∧ powered0.lifeCycle ≠ 4 ∧ (2 : BitVec 2) ≠ 3 ∧ (powered0.withSec { transition := true }).burning = true
    ∧ ({ tripExit := true } : Governor).tripExit = true ∧ ({ fuses := { lifeA := 15, lifeB := 15 } } : Security).transition = false := by
  decide +kernel

/-- Core 2047 loads its firmware, an image of one byte in the firmware area, of which nothing has come. -/
def fwState (pulls : Nat) : State :=
  (put (powered0.withBoot { bundle := some ⟨0, 0, 0, 0, 0, 1⟩ }) [(Fld.CORE_FW_STATUS_RESULT 2047, 1)]).setCore 2047 { fw := { pulls } }

/-- A segment of one zero byte, whose CRC is 0x527d5351. -/
def fwMessage (crc : Nat) : List Byte := leBytes 16 (record [(4, 1), (8, crc)]) ++ [0]

theorem test_firmware : (fwState 0).fwLoading 2047 = true ∧ (fwMessage 0x527d5351).length = 17
    ∧ crc32c (((fwMessage 0x527d5351).drop 16).take 1) = byteField (leNat ((fwMessage 0x527d5351).take 16)) 8 4
    ∧ crc32c (((fwMessage 0).drop 16).take 1) ≠ byteField (leNat ((fwMessage 0).take 16)) 8 4
    ∧ ((fwState 1).core 2047).fw.pulls ≠ 0 ∧ ((fwState 1).fwMissing 2047).contains 0 = true
    ∧ (((fwState 1).core 2047).fw.fail [0]).1 = false ∧ (({ fails := [(0, 2)] } : FwLoad).fail [0]).1 = true := by decide +kernel

theorem test_defect_list : ({ powerGood := true } : Boot).bestCopy = some (0, ⟨true, 0, []⟩) ∧ ({ dirty := true } : Boot).dirty = true
    ∧ ({ unwritten := [⟨0, 0, 0, 0, 0⟩] } : Boot).unwritten ≠ [] := by decide +kernel

/-- A start on the cold path with no cores to settle, and one that has stopped. -/
def phase0 (p : Nat) : State := put powered0 [(Fld.BUP_STATUS_PHASE, p)]

theorem test_hbm_test : (phase0 phTesting).fld Fld.BUP_STATUS_PHASE = phTesting ∧ (phase0 phTesting).fld Fld.BUP_STATUS_START_KIND ≠ 1
    ∧ (phase0 phTesting).boot.hbmTested = false ∧ 5 ∉ (phase0 phTesting).boot.badComponents ∧ (phase0 phTesting).coresSettled = true
    ∧ (put (phase0 phTesting) [(Fld.BUP_STATUS_START_KIND, 1)]).fld Fld.BUP_STATUS_START_KIND = 1
    ∧ (phase0 phTesting).fld Fld.BUP_HBM_READY_STACK_FAILED = 0 ∧ ((phase0 phTesting).failStack 11).fld Fld.BUP_HBM_READY_STACK_FAILED ≠ 0
    ∧ ({ msTested := true } : Boot).msTested = true ∧ (phase0 phTesting).boot.msTested = false
    ∧ (phase0 phStopped).fld Fld.BUP_STATUS_PHASE = phStopped ∧ (phase0 phStopped).boot.bestCopy.isSome = true := by decide +kernel

/-- A flash command in progress. -/
def flash0 (op : Nat) : State := powered0.withBoot { flashCmd := some ⟨op, 0x180, 0, .none⟩ }

theorem test_flash : powered0.boot.flashCmd = none ∧ powered0.boot.bundle.all (fun b => !inBundleSlot b.slot 0x37f) = true
    ∧ powered0.boot.image.all (fun im => !inStructSlot im.slot 0x37f) = true ∧ 0x37f < 0x380
    ∧ isHbm ((0xbfffff0 : BitVec 28).toNat * 4096) = true ∧ (0xbfffff0 : BitVec 28).toNat * 4096 + sectorSize ≤ hbmEnd
    ∧ powered0.ready rdyHbm = true ∧ (flash0 2).boot.flashCmd = some ⟨2, 0x180, 0, .none⟩ ∧ (flash0 1).burning = false
    ∧ (flash0 1).boot.unwritten = [] ∧ (flash0 1).boot.dirty = false ∧ ((flash0 1).readMem 7 .module 0 sectorSize).1 = .ok := by
  decide +kernel

/-! ### Power and cooling -/

/-- The governor runs at a step of its own, with temperatures read; the shelf was last heard of at time 0. -/
def power0 (step : Nat) : State :=
  ((put host0 [(⟨Reg.BUP_READY, rdyPower, rdyPower⟩, 1), (Fld.PWR_STATUS_STEP, step)]).withGov { tIn := some 250, tOut := some 350 }).withTime 1000000000

theorem test_power : (power0 0).regsOk = true ∧ (power0 0).ready rdyPower = true ∧ (power0 4).thermal = 4 ∧ (power0 0).thermal ≠ 4
    ∧ (power0 0).valveOverridden = false ∧ ((power0 0).withGov {}).gov.tIn = none
    ∧ (put (power0 0) [(Fld.TST_VALVE_OVR_EN, 1), (Fld.SBX_OWNER_ALT_OWNER, 2 ^ 18)]).valveOverridden = true
    ∧ (put (power0 0) [(Fld.SBX_OWNER_ALT_OWNER, 2 ^ 17)]).altOwner 17 = true ∧ (power0 0).gov.tIn = some 250 ∧ (power0 0).gov.tOut = some 350 ∧ (power0 0).altOwner 17 = false
    ∧ (power0 0).flag Fld.PWR_STATUS_SHELF_LOST = false ∧ (power0 0).gov.shelfValid + 1000000000 ≤ (power0 0).time.toNat
    ∧ bits (0x10 : BitVec 8).toNat 7 4 ≠ 0 := by decide +kernel

/-- The step that the governor keeps in TRIP and in step 2, no condition having cleared. -/
theorem test_power_steps : ((power0 4).withGov { (power0 4).gov with bucket := 0 }).reStep.thermal = 4
    ∧ ((power0 2).withGov { (power0 2).gov with bucket := 0 }).reStep.thermal = 2 := by decide +kernel

/-! ### Security -/

/-- A module in a life-cycle state with owner keys 0 and 1, a certificate, and a command record in progress at 512 MiB. -/
def secState (life op rec1 : Nat) : State :=
  let l := 2 ^ life - 1
  ((host0.withBoot { host0.boot with certLen := some 100 }).withSec
    { fuses := { lifeA := l, lifeB := l, ownerKeys := [(0, 1), (1, 1)] }, cmd := some ⟨0x20000000, op⟩ }).putNum 0x20000000 secBytes rec1

/-- A record of an operation, slot and signer, with a length for the bytes that it names at 768 MiB. -/
def secRec (op slot signer len : Nat) : Nat :=
  record ([(0, 1), (1, op), (2, slot), (3, signer), (8, ({} : Fuses).serial), (88, len)] ++ (if len = 0 then [] else [(80, 0x30000000)]))

/-- Every operation in a state that permits it, with its signer. -/
def secRows : List (Nat × Nat × Nat × Nat × Nat) :=
  [(0x01, 0, 0, sgFw, 0), (0x02, 1, 0, sgFw, 65536), (0x03, 1, 0, 0, 0), (0x04, 2, 0, 0, 0), (0x05, 3, 0, sgFw, 0), (0x10, 2, 3, 0, 0), (0x11, 2, 1, 0, 0),
    (0x12, 2, 3, sgFw, 0), (0x13, 2, 0, sgNone, 0), (0x20, 2, 0, 1, 0), (0x21, 3, 0, sgFw, 0), (0x30, 1, 0, sgNone, 236), (0x31, 3, 0, sgNone, 576)]

theorem test_sec_check : secRows.all (fun r => (secState r.2.1 r.1 0).sec.cmd.isSome
      && ((secState r.2.1 r.1 0).secCheck (secRec r.1 r.2.2.1 r.2.2.2.1 r.2.2.2.2) true = .ok
        || (r.1 = 0x21 && (secState 3 0x21 0).secCheck (secRec 0x21 0 sgFw 0) true = .bounds))) = true
    ∧ (secState 2 0x03 0).secCheck (secRec 0x03 0 0 0) true = .denied ∧ (secState 2 0x20 0).secCheck (secRec 0x20 0 1 0) false = .integrity := by
  decide +kernel

/-- With an entry in the defect list DEFECT_CLEAR passes. -/
theorem test_sec_clear : ((secState 3 0x21 0).withBoot { copy0 := ⟨true, 0, [⟨0, 0, 0, 0, 0⟩]⟩ }).secCheck (secRec 0x21 0 sgFw 0) true = .ok := by
  decide +kernel

theorem test_sec_submit : (secState 1 0x10 0).sec.cmd.isSome = true ∧ host0.sec.cmd = none ∧ host0.sec.transition = false
    ∧ host0.secRange 0x20000000 secBytes = .ok
    ∧ secOps.contains (secOp (leNat (((secState 1 0x10 (secRec 0x13 0 sgNone 0)).readMem 7 .module 0x20000000 secBytes).2.1))) = true
    ∧ ((secState 1 0x10 (secRec 0x13 0 sgNone 0)).readMem 7 .module 0x20000000 secBytes).1 = .ok := by decide +kernel

/-! ### Words of the core's instructions: fields in the order of Tables 03-3, 03-6 to 03-8, 04-7, 05-1, 06-3, 08-1 and 09-2 -/

/-- A word from its fields, most significant first: width and value. -/
def word (l : List (Nat × Nat)) : Nat := l.foldl (fun n p => n * 2 ^ p.1 + p.2) 0

/-- The header with WAIT 3, SIGNAL 4 and HALT_OK. -/
def head (op : Nat) : List (Nat × Nat) := [(6, op), (6, 3), (6, 4), (1, 1), (1, 0)]

/-- Do the fields fill 128 bits, and is the instruction with that header read from them with no reserved bit set? -/
def reads (op : Nat) (l : List (Nat × Nat)) (i : CoreInsn) : Bool :=
  decide ((head op ++ l).foldl (fun n p => n + p.1) 0 = 128) && decide (CoreInsn.ofWord (word (head op ++ l)) = some i)
    && decide (Hdr.ofWord (word (head op ++ l)) = ⟨3, 4, true⟩) && decide (reservedBits op (word (head op ++ l)) = 0)
    && decide (i.toWord ⟨3, 4, true⟩ = word (head op ++ l))

theorem test_word_header_only : reads 0x00 [(108, 0)] .nop = true ∧ reads 0x3f [(108, 0)] .halt = true := by decide +kernel
theorem test_word_mma : reads 0x01 [(4, 3), (4, 4), (2, 1), (1, 0), (1, 1), (7, 127), (8, 255), (13, 8191), (3, 5), (3, 6), (2, 2), (6, 10), (6, 12), (6, 14),
    (6, 16), (10, 0x2c1), (26, 0)] (.mma ⟨3, 4, 1, 0, 1, 127, 255, 8191, 5, 6, 2, 10, 12, 14, 16, 0x2c1⟩) = true := by decide +kernel
theorem test_word_drain : reads 0x02 [(4, 3), (3, 4), (1, 1), (1, 0), (1, 0), (2, 2), (7, 100), (8, 200), (3, 5), (3, 6), (6, 10), (6, 12), (6, 14), (57, 0)]
    (.drain ⟨3, 4, 1, 0, 2, 100, 200, 5, 6, 10, 12, 14⟩) = true := by decide +kernel
theorem test_word_clearb : reads 0x03 [(4, 9), (104, 0)] (.clearb ⟨9⟩) = true := by decide +kernel
theorem test_word_xmax : reads 0x04 [(4, 3), (4, 4), (7, 100), (8, 200), (13, 5000), (3, 5), (3, 6), (6, 10), (6, 12), (6, 14), (6, 33), (6, 63), (2, 2), (34, 0)]
    (.xmax ⟨3, 4, 100, 200, 5000, 5, 6, 10, 12, 14, 33, 63, 2⟩) = true := by decide +kernel
theorem test_word_xmerge : reads 0x05 [(6, 14), (2, 2), (7, 100), (8, 200), (85, 0)] (.xmerge ⟨14, 2, 100, 200⟩) = true := by decide +kernel
theorem test_word_vop : reads 0x08 [(8, 0x0b), (5, 1), (5, 2), (5, 30), (5, 31), (3, 5), (3, 4), (4, 9), (70, 0)] (.vop 0x0b ⟨1, 2, 30, 31, 5, 4, 9⟩) = true := by
  decide +kernel
theorem test_word_lacc : reads 0x09 [(9, 384), (2, 2), (5, 1), (5, 2), (5, 31), (3, 4), (4, 9), (6, 10), (1, 1), (68, 0)]
    (.lacc 2 ⟨384, 1, 2, 31, 4, 9, 10, 1⟩) = true := by decide +kernel
theorem test_word_sfn : reads 0x0a [(6, 0x11), (1, 1), (5, 1), (5, 2), (5, 31), (3, 5), (3, 4), (9, 511), (6, 10), (65, 0)]
    (.sfn 0x11 ⟨1, 1, 2, 31, 5, 4, 511, 10⟩) = true := by decide +kernel
theorem test_word_rng : reads 0x0b [(4, 5), (5, 31), (3, 5), (6, 10), (6, 11), (9, 511), (22, 0x3fffc0), (6, 12), (6, 13), (41, 0)]
    (.rng 5 ⟨31, 5, 10, 11, 511, 0x3fffc0, 12, 13⟩) = true := by decide +kernel
theorem test_word_ld_st : reads 0x0c [(1, 0), (5, 31), (6, 10), (3, 5), (2, 2), (91, 0)] (.ld ⟨31, 10, 5, 2⟩) = true
    ∧ reads 0x0d [(1, 0), (5, 31), (6, 10), (3, 5), (2, 1), (91, 0)] (.st ⟨31, 10, 5, 1⟩) = true := by decide +kernel
theorem test_word_move : reads 0x10 [(6, 10), (6, 12), (6, 14), (90, 0)] (.move ⟨10, 12, 14⟩) = true := by decide +kernel
theorem test_word_sem : reads 0x18 [(6, 63), (2, 1), (16, 0xabcd), (84, 0)] (.sem 1 ⟨63, 0xabcd⟩) = true := by decide +kernel
theorem test_word_branch : reads 0x19 [(2, 2), (2, 3), (6, 61), (24, 0xfffffe), (74, 0)] (.branch 2 ⟨3, 61, 0xfffffe⟩) = true := by decide +kernel
theorem test_word_att : reads 0x20 [(2, 0), (1, 1), (1, 0), (22, 0x3fffc0), (7, 100), (3, 5), (2, 2), (9, 400), (6, 10), (6, 12), (6, 14), (6, 16), (6, 18), (6, 20),
    (25, 0)] (.att 0 ⟨1, 0, 0x3fffc0, 100, 5, 2, 400, 10, 12, 14, 16, 18, 20⟩) = true := by decide +kernel
theorem test_word_win : reads 0x21 [(3, 4), (22, 0x3fffc0), (22, 0x1000), (6, 10), (6, 12), (2, 2), (3, 5), (3, 6), (8, 200), (2, 1), (1, 1), (6, 14), (10, 0x2c1),
    (14, 0)] (.win 4 ⟨0x3fffc0, 0x1000, 10, 12, 2, 5, 6, 200, 1, 1, 14, 0x2c1⟩) = true := by decide +kernel
theorem test_word_nest : reads 0x3e [(22, 0x3fffc0), (22, 0x1000), (10, 1023), (4, 15), (5, 16), (2, 2), (43, 0)] (.nest ⟨0x3fffc0, 0x1000, 1023, 15, 16, 2⟩) = true := by
  decide +kernel

/-- Reserved opcodes hold no instruction; a reserved bit is seen. -/
theorem test_word_reserved : CoreInsn.ofWord (word (head 0x06 ++ [(108, 0)])) = none ∧ CoreInsn.ofWord (word (head 0x3d ++ [(108, 0)])) = none
    ∧ reservedBits 0x03 (word (head 0x03 ++ [(4, 9), (103, 0), (1, 1)])) = 1 ∧ reservedBits 0 (word [(19, 0), (1, 1), (108, 0)]) = 2 ^ 108 := by decide +kernel

/-- Fields within their widths, and one beyond. -/
theorem test_word_widths : (CoreInsn.nest ⟨0x3fffc0, 0x1000, 1023, 15, 31, 3⟩).inWidth = true ∧ (CoreInsn.nest ⟨2 ^ 22, 0, 0, 0, 0, 0⟩).inWidth = false
    ∧ Hdr.inWidth ⟨63, 63, true⟩ = true ∧ Hdr.inWidth ⟨64, 0, false⟩ = false := by decide

/-! ### Ill-formed commands, one for each check -/

theorem test_wf_site : Instr.wf (.instrNop ⟨2047, 15⟩ ⟨63, 63, true⟩) = true ∧ Instr.wf (.instrNop ⟨2048, 0⟩ {}) = false
    ∧ Instr.wf (.instrNop ⟨0, 16⟩ {}) = false ∧ Instr.wf (.instrNop ⟨0, 0⟩ ⟨64, 0, false⟩) = false
    ∧ Instr.wf (.instrNop ⟨0, 0⟩ ⟨0, 64, false⟩) = false ∧ Instr.wf (.instructionComplete 2048 0) = false := by decide

theorem test_wf_operands : Instr.wf (.mma site0 {} { anchor := 1024 }) = false ∧ Instr.wf (.drain site0 {} { rnd := 8 }) = false
    ∧ Instr.wf (.clearb site0 {} { bankMask := 16 }) = false ∧ Instr.wf (.xmax site0 {} { part := 64 }) = false
    ∧ Instr.wf (.xmerge site0 {} { bank := 4 }) = false ∧ Instr.wf (.vopAdd site0 {} { vd := 32 }) = false
    ∧ Instr.wf (.laccAdd site0 {} { lidx := 512 }) = false ∧ Instr.wf (.sfnExp site0 {} { compat := 2 }) = false
    ∧ Instr.wf (.rngBits site0 {} { subBase := 512 }) = false ∧ Instr.wf (.ld site0 {} { width := 4 }) = false
    ∧ Instr.wf (.move site0 {} { lenReg := 64 }) = false ∧ Instr.wf (.semAdd site0 {} { value := 65536 }) = false
    ∧ Instr.wf (.branchAlways site0 {} { target := 2 ^ 24 }) = false ∧ Instr.wf (.attPass site0 {} { first := 2 }) = false
    ∧ Instr.wf (.winFetch site0 {} { nM1 := 256 }) = false ∧ Instr.wf (.nest site0 {} { ctxCount := 32 }) = false := by decide

theorem test_wf_rdma : Instr.wf (.dataQpRdmaRead 0 (2 ^ 24 - 1) (2 ^ 64 - 1) (2 ^ 32 - 1) (2 ^ 32 - 1)) = true
    ∧ Instr.wf (.dataQpRdmaRead 0 (2 ^ 24) 0 0 0) = false ∧ Instr.wf (.dataQpRdmaRead 0 0 (2 ^ 64) 0 0) = false
    ∧ Instr.wf (.dataQpRdmaRead 0 0 0 (2 ^ 32) 0) = false ∧ Instr.wf (.dataQpRdmaRead 0 0 0 0 (2 ^ 32)) = false
    ∧ Instr.wf (.vioLogRead 0 0 0 0 512 []) = true ∧ Instr.wf (.vioLogRead 0 0 0 1 512 []) = false := by decide

theorem test_wf_lists : Instr.wf (.governorUpdate 0 (List.replicate 17 0)) = true ∧ Instr.wf (.governorUpdate 0 []) = false
    ∧ Instr.wf (.controlFlitReceived 0 ⟨0, false⟩ false (List.replicate 8 0)) = true ∧ Instr.wf (.controlFlitReceived 0 ⟨0, false⟩ false []) = false
    ∧ Instr.wf (.identRecordReceived 0 (ident0.bytes.take 60) 0) = true ∧ Instr.wf (.identRecordReceived 0 [] 0) = false
    ∧ Instr.wf (.roceResponse 0 (.ack (2 ^ 24))) = false := by decide

theorem test_wf_packets : PktHdr.wf ⟨35, 1, 0x3fff, 2 ^ 40 - 1, 0xffff, 0x3fff, false, false, false⟩ = true ∧ PktHdr.wf ⟨36, 0, 0, 0, 0, 0, true, true, true⟩ = false
    ∧ PktHdr.wf ⟨0, 2, 0, 0, 0, 0, true, true, true⟩ = false ∧ PktHdr.wf ⟨0, 0, 2 ^ 14, 0, 0, 0, true, true, true⟩ = false
    ∧ PktHdr.wf ⟨0, 0, 0, 2 ^ 40, 0, 0, true, true, true⟩ = false ∧ PktHdr.wf ⟨0, 0, 0, 0, 2 ^ 16, 0, true, true, true⟩ = false
    ∧ PktHdr.wf ⟨0, 0, 0, 0, 0, 2 ^ 14, true, true, true⟩ = false ∧ Packet.wf { op := 1, cls := 0, dst := 2 ^ 14, src := 0, addr := 0, reqId := 0 } = false
    ∧ GradPkt.wf ⟨256, 9, 1, false, 1, 1, 0, [], [], 0, [], 0⟩ = false ∧ GradPkt.wf ⟨0x20, 9, 4, false, 1, 1, 0, [], [], 0, [], 0⟩ = false
    ∧ EthFrame.wf ⟨some 4096, true, true, 0, false, 0⟩ = false ∧ EthFrame.wf ⟨none, true, true, 2 ^ 24, false, 0⟩ = false
    ∧ RoceResp.wf (.ack (2 ^ 24)) = false ∧ RoceResp.wf (.data (2 ^ 24) []) = false ∧ RoceResp.wf (.nak (2 ^ 24)) = false
    ∧ RoceResp.wf (.rnr (2 ^ 24)) = false := by decide

/-! ### The whole machine -/

/-- A state with a command at the front of its queue, and one with none; the reset state is sound. -/
theorem test_pending : (host0.withPending [.kvpEnable 3, .kvpDisable 0]).pending = .kvpEnable 3 :: [.kvpDisable 0] ∧ host0.pending = []
    ∧ State.reset.regsOk = true ∧ State.reset.memWf = true ∧ host0.regsOk = true ∧ host0.memWf = true := by decide +kernel

/-- A congestion notice changes nothing of memory, a pin no register, an instruction of a core no fuse. -/
theorem test_parts : Part.mem ∉ touches (.cnpReceived 0) ∧ Part.regs ∉ touches (.flashEnNFall) ∧ Part.sec ∉ touches (.instrNop site0 {}) := by decide

/-- Fields apart from each other, in one register and in two. -/
theorem test_fields : (Fld.HST_QP_W0_STATE 255).hi < 64 ∧ (Fld.HST_QP_W0_STATE 255).lo ≤ (Fld.HST_QP_W0_STATE 255).hi
    ∧ ((Fld.HST_QP_W0_STATE 255).hi < (Fld.HST_QP_W0_PORT 255).lo ∨ (Fld.HST_QP_W0_PORT 255).hi < (Fld.HST_QP_W0_STATE 255).lo)
    ∧ (Fld.HST_QP_W0_STATE 255).reg ≠ (Fld.HST_QP_W0_STATE 254).reg := by decide

/-- A step that leaves a machine with a burned seed and a programmed key. -/
theorem test_fuses : (powered0.withSec { fuses := { idSeed := 2, ownerKeys := [(3, 1)], svnMin := 63 } }).sec.fuses.programmed 3 = true
    ∧ ({ idSeed := 2, svnMin := 63 } : Fuses).svnMin ≤ 63 := by decide

/-! ### Block scales and entries -/

/-- MXFP8 block scales: code 127 stands for 1, code 0 for 2^-127, code 254 for 2^127. -/
theorem test_scales : isMX 3 = true ∧ scaled 127 (.fin false 1 0) = .fin false 1 0 ∧ scaled 0 (.fin true 3 (-9)) = .fin true 3 (-136)
    ∧ scaled 254 (.fin false 1 0) = .fin false 1 127 ∧ scaled 255 (.fin false 0 0) = .nan := by decide

/-- Two entries that share an anchor, at and beyond the largest count; others apart; empty ones. -/
def entry1 (n : Nat) (a : Int) : WideEntry := { value := 5, anchor := a, count := n }

theorem test_merge : (entry1 1 7).isEmpty = false ∧ (entry1 0 7).isEmpty = true ∧ ((entry1 1 7).merge (entry1 1 8)).1 = .verify
    ∧ ((entry1 (2 ^ 30) 7).merge (entry1 (2 ^ 30) 7)).1 = .ok ∧ ((entry1 (2 ^ 30) 7).merge (entry1 (2 ^ 30 + 1) 7)).1 = .window
    ∧ (entry1 0 7).merge (entry1 1 8) = (.ok, entry1 1 8) ∧ (entry1 1 7).merge (entry1 0 8) = (.ok, entry1 1 7) := by decide +kernel

/-- Contributions 1, 2 and 4 × 2^-1 entered in two orders at anchor 3; one of 8 does not lie below that anchor. -/
def contribs0 : List Contrib := [{ v := 1, e := 0 }, { v := 2, e := 0 }, { v := 4, e := -1 }]

theorem test_order : (WideEntry.cleared 3).addAll contribs0 = (WideEntry.cleared 3).addAll contribs0.reverse
    ∧ ((WideEntry.cleared 3).addAll contribs0).map (·.value) = some (5 * 2 ^ 157)
    ∧ ((WideEntry.cleared 3).addAll contribs0).map (·.count) = some 3 ∧ (WideEntry.cleared 3).addAll [{ v := 8, e := 0 }] = none := by
  decide +kernel

/-! ### Examples of the manual -/

/-- The address hash: the example of R266. -/
theorem test_example_hash : hbmStack 0x2b6d0f175c3a91e4 0x1234567000 = 9 ∧ hbmChannel 0x2b6d0f175c3a91e4 0x1234567000 = 0
    ∧ hbmBank 0x2b6d0f175c3a91e4 0x1234567000 = 0x12 ∧ hbmRow 0x1234567000 = 776 := by decide

/-- Conversion of 1 + 2^-15 to BF16 under STOCH: up for a draw below 256 (the example after R74). -/
theorem test_example_stoch : (roundFloat 1 5 false 0x800100 (-23) 0 (-23) (fun _ => 255)).bits = 0x3f81
    ∧ (roundFloat 1 5 false 0x800100 (-23) 0 (-23) (fun _ => 256)).bits = 0x3f80 := by decide +kernel

/-- The BF16 row of the example after R64: a third product of 129 × 2^-118 is cut at anchor 47; terms 1 and 3 drain to
1.5 × 2^40, all three to 2^-111. -/
def row0 : List Contrib := [{ v := 3, e := 39 }, { v := 129, e := -118 }, { v := -3, e := 39 }]

theorem test_example_cut : ((WideEntry.cleared 47).addAll (row0.take 2)).map (fun x => (x.cut, x.sticky, (x.drain 0 0 (fun _ => 0)).bits))
      = some (1, true, 0x53c00000)
    ∧ ((WideEntry.cleared 47).addAll row0).map (fun x => (x.drain 0 0 (fun _ => 0)).bits) = some 0x08000000
    ∧ ((WideEntry.cleared 41).addAll row0).map (fun x => (x.cut, (x.drain 0 0 (fun _ => 0)).bits)) = some (0, 0x08010000) := by decide +kernel

/-- Page sizes of the world model: the example of 07_kv_ring_and_pages.md. -/
theorem test_example_pages : pageBytes 3 3 128 = 8448 ∧ frameSize 3 3 128 8 8 = 1081344 ∧ frameSize 3 3 128 24 8 = 3244032
    ∧ summarySize 3 3 128 = 448 := by decide

/-- Rate control of the live stream: the example of R373. -/
theorem test_example_rate : (StreamDesc.nominal { encoder0 with rcMode := 1, bitrate := 8000, fpsNum := 60, fpsDen := 1 } false) = 133333
    ∧ debtPart 20000 133333 = 20000 ∧ nextQp 0 45 30 71100 59999 113333 = 31 ∧ nextQp 0 45 31 87600 66666 113333 = 33
    ∧ nextQp 0 45 33 101800 73333 113333 = 37 ∧ rowTarget 113333 (List.replicate 17 1) 8 = 59999
    ∧ rowTarget 113333 (List.replicate 17 1) 10 = 73333 := by decide +kernel

/-- Chunks, shards and samples of the training step: the example of 12_gradient_reduction.md. -/
theorem test_example_shards : GradDesc.chunks { gather0 with elements := 14000000000 } = 109375000
    ∧ shardStart 109375000 1024 1024 = 109375000 ∧ shardStart 109375000 1024 1 = 106811 ∧ ownerOf 109375000 1024 109374999 = 1023
    ∧ ownerOf 109375000 1024 106810 = 0 ∧ ownerOf 109375000 1024 106811 = 1 := by decide

end Sys2Proof.Tests
end

