-- ==== Sys2Proof/Proofs/ExactArithmetic.lean ====
section
/-! PROOFS. Block scales (R47) and the merge of partial entries (R62): O8 and O9. -/

namespace Sys2Proof.Machine

/-! ### Numbers held in two's complement -/

/-- A number that fits in `k + 1` bits of two's complement is held exactly. -/
theorem heldIn_of_fits (k : Nat) {x : Int} (hlo : -2 ^ k ≤ x) (hhi : x < 2 ^ k) : heldIn (k + 1) x = x := by
  have hw : ((2 ^ (k + 1) : Nat) : Int) = 2 * 2 ^ k := by
    rw [Nat.pow_succ, Nat.mul_comm, Int.natCast_mul, Int.natCast_pow]
    rfl
  have hk : ((2 ^ k : Nat) : Int) = 2 ^ k := Int.natCast_pow 2 k
  have hpos : (0 : Int) < 2 ^ k := Int.pow_pos (by decide)
  have hu : (unsigned (k + 1) x : Int) = if 0 ≤ x then x else x + 2 * 2 ^ k := by
    rw [unsigned, hw, Int.toNat_of_nonneg (Int.emod_nonneg x (by omega))]
    split
    · exact Int.emod_eq_of_lt (by assumption) (by omega)
    · rw [← Int.add_emod_right]
      exact Int.emod_eq_of_lt (by omega) (by omega)
  have hm : unsigned (k + 1) x % 2 ^ (k + 1) = unsigned (k + 1) x :=
    Nat.mod_eq_of_lt (by split at hu <;> omega)
  simp only [heldIn, signed, hm, Nat.add_sub_cancel]
  split at hu <;> split <;> omega

/-! ### Block scales (R47) -/

/-- Code 0xFF makes every value a NaN. -/
theorem scaled_255 (x : FVal) : scaled 255 x = .nan := rfl

/-- Every other code moves the power of two of a finite value. -/
theorem scaled_fin {c : Nat} (hc : c ≠ 255) (neg : Bool) (m : Nat) (x : Int) :
    scaled c (.fin neg m x) = .fin neg m (x + ((c : Int) - 127)) := by
  simp only [scaled, hc, if_false, Int.add_sub_assoc]

/-- Every other code leaves an infinity. -/
theorem scaled_inf {c : Nat} (hc : c ≠ 255) (neg : Bool) : scaled c (.inf neg) = .inf neg := by
  simp only [scaled, hc, if_false]

/-- A NaN is a NaN under every code. -/
theorem scaled_nan (c : Nat) : scaled c .nan = .nan := by
  simp only [scaled, ite_self]

/-- A block of an MX row: its elements below K, each under the block's scale byte. -/
theorem State.blockVals_of_isMX {s : State} {core i j : Nat} {p : MatOp} (h : isMX p.fmt = true) :
    s.blockVals core p i j = tab (min 32 (p.k - 32 * j)) (fun e => scaled (s.byte (csAddr core (p.scaleOff i + j))).toNat
      (decodeElem p.fmt (elemAt p.fmt (s.num (csAddr core (p.rowOff i + j * blockBytes p.fmt)) (blockBytes p.fmt)) e))) := by
  simp only [State.blockVals, h, if_true]

theorem length_tab {α : Type} (n : Nat) (f : Nat → α) : (tab n f).length = n := by
  rw [tab, List.length_map, List.length_range]

theorem getElem?_tab_of_lt {α : Type} {n e : Nat} (f : Nat → α) (h : e < n) : (tab n f)[e]? = some (f e) := by
  rw [tab, List.getElem?_map, List.getElem?_range h, Option.map_some]

theorem mem_tab {α : Type} {n : Nat} {f : Nat → α} {x : α} : x ∈ tab n f ↔ ∃ e < n, f e = x := by
  simp only [tab, List.mem_map, List.mem_range]

/-- Settles O8: a block is a table of its elements, each taken under the block's scale byte. -/
theorem blockScales : Obligations.BlockScales := by
  intro s core i j p hmx
  dsimp only
  rw [State.blockVals_of_isMX hmx]
  refine ⟨length_tab _ _, fun hc x hx => ?_, fun hc e he => ?_⟩
  · obtain ⟨e, -, rfl⟩ := mem_tab.mp hx
    rw [hc, scaled_255]
  · rw [getElem?_tab_of_lt _ he]
    have hne : (s.byte (csAddr core (p.scaleOff i + j))).toNat ≠ 255 := by omega
    cases decodeElem p.fmt (elemAt p.fmt (s.num (csAddr core (p.rowOff i + j * blockBytes p.fmt)) (blockBytes p.fmt)) e) with
    | fin neg m x => rw [scaled_fin hne]
    | inf neg => rw [scaled_inf hne]
    | nan => rw [scaled_nan]

/-! ### The merge of partial entries (R62) -/

namespace WideEntry

variable {x y : WideEntry}

theorem isEmpty_iff : x.isEmpty = true ↔
    x.count = 0 ∧ x.nan = false ∧ x.invalid = false ∧ x.pinf = false ∧ x.ninf = false := by
  simp only [isEmpty, Bool.and_eq_true, decide_eq_true_eq, Bool.not_eq_true', and_assoc]

theorem cleared_isEmpty (a : Int) : (cleared a).isEmpty = true := rfl

theorem merge_empty (hy : y.isEmpty = true) : x.merge y = (.ok, x) := by
  simp only [merge, hy, if_true]

/-- The receiving entry is empty: it becomes the other, provided that other is one its fields can hold. -/
theorem empty_merge (hx : x.isEmpty = true) (hy : y.isEmpty = false) (hcount : y.count ≤ 2 ^ 31) (hcut : y.cut ≤ 2)
    (hlo : -2 ^ 191 ≤ y.value) (hhi : y.value < 2 ^ 191) : x.merge y = (.ok, y) := by
  obtain ⟨hc, hnan, hinv, hp, hn⟩ := isEmpty_iff.mp hx
  have hfits : ¬ 2 ^ 31 < y.count := Nat.not_lt.mpr hcount
  simp only [merge, hx, hy, hfits, hc, hnan, hinv, hp, hn, Bool.not_true, Bool.false_and, Bool.false_or, if_true, if_false,
    Bool.false_eq_true, Nat.zero_add, Int.zero_add, heldIn_of_fits 191 hlo hhi, Nat.min_eq_right hcut]

theorem merge_of_anchor_ne (hx : x.isEmpty = false) (hy : y.isEmpty = false) (ha : x.anchor ≠ y.anchor) :
    x.merge y = (.verify, x) := by
  simp only [merge, hx, hy, ha, ne_eq, not_false_eq_true, decide_true, Bool.not_false, Bool.and_true, if_true, if_false,
    Bool.false_eq_true]

theorem merge_of_count_gt (hx : x.isEmpty = false) (hy : y.isEmpty = false) (ha : x.anchor = y.anchor)
    (hc : 2 ^ 31 < x.count + y.count) : x.merge y = (.window, x) := by
  simp only [merge, hx, hy, ha, hc, ne_eq, not_true_eq_false, decide_false, Bool.and_false, if_true, if_false, Bool.false_eq_true]

/-- What a merge of two entries with one anchor leaves (R62). -/
def merged (x y : WideEntry) : WideEntry :=
  { value := heldIn 192 (x.value + y.value), anchor := x.anchor, cut := min 2 (x.cut + y.cut),
    sticky := x.sticky || y.sticky, nan := x.nan || y.nan, invalid := x.invalid || y.invalid,
    pinf := x.pinf || y.pinf, ninf := x.ninf || y.ninf, count := x.count + y.count }

theorem merge_of_anchor_eq (hx : x.isEmpty = false) (hy : y.isEmpty = false) (ha : x.anchor = y.anchor)
    (hc : x.count + y.count ≤ 2 ^ 31) : x.merge y = (.ok, x.merged y) := by
  have hc' : ¬ 2 ^ 31 < x.count + y.count := Nat.not_lt.mpr hc
  simp only [merge, merged, hx, hy, ha, hc', ne_eq, not_true_eq_false, decide_false, Bool.and_false, Bool.not_false, Bool.true_and,
    if_false, Bool.false_eq_true]

end WideEntry

/-- Two sums of at most 2^31 contributions in all, each at least -2^160 and below 2^160, add up within 192 bits: the 32 bits of
carry headroom (R56) hold the count. -/
theorem sum_fits_of_counts {a b : Int} {m n : Nat} (hc : m + n ≤ 2 ^ 31)
    (ha : -((m : Int) * 2 ^ 160) ≤ a) (ha' : a ≤ m * (2 ^ 160 - 1)) (hb : -((n : Int) * 2 ^ 160) ≤ b)
    (hb' : b ≤ n * (2 ^ 160 - 1)) : -2 ^ 191 ≤ a + b ∧ a + b < 2 ^ 191 := by
  omega

/-- Settles O9: one merge law for each case of R62, and the carry headroom for the sum's exactness. -/
theorem partialEntriesMerge : Obligations.PartialEntriesMerge := by
  intro x y
  refine ⟨WideEntry.isEmpty_iff, fun a => ⟨WideEntry.cleared_isEmpty a, rfl, rfl⟩, WideEntry.merge_empty,
    WideEntry.empty_merge, fun hx hy => ⟨fun ha => ?_, fun ha hc => ?_, fun ha hc => ⟨?_, ?_, ?_⟩⟩⟩
  · rw [WideEntry.merge_of_anchor_ne hx hy ha]
  · rw [WideEntry.merge_of_count_gt hx hy ha hc]
  · exact WideEntry.merge_of_anchor_eq hx hy ha hc
  · exact heldIn_of_fits 191
  · exact sum_fits_of_counts hc

end Sys2Proof.Machine
end

