-- ==== Sys2Proof/Proofs/Steps.lean ====
section
/-! PROOFS. The machine as a whole: a step and its command (O1), the state at reset (O2), the canonical form (O3), the parts a
command leaves alone (O4), reads after writes (O5), and the fuse bit that a step may clear (O6). -/

namespace Sys2Proof.Machine

/-! ### A canonical map is determined by what it reads as -/

/-- Keys `b` or more and strictly rising, and no entry equal to what an unlisted key `k` reads as, `d k`: the form shared by memory,
whose default is one value, and the register file, whose default is each register's reset value. -/
def Rising {α : Type} (d : Nat → α) : Nat → List (Nat × α) → Prop
  | _, [] => True
  | b, (k, v) :: l => b ≤ k ∧ v ≠ d k ∧ Rising d (k + 1) l

section
variable {α : Type} {d : Nat → α} {m n : List (Nat × α)} {a b : Nat}

theorem Rising.find_below (h : Rising d b m) (hab : a < b) : SMap.find m a = none := by
  induction m generalizing b with
  | nil => rfl
  | cons p l ih =>
    obtain ⟨hk, -, hl⟩ := h
    rw [SMap.find, if_neg (by omega)]
    exact ih hl (by omega)

/-- A key below every key of the rest reads as its default. -/
theorem Rising.getD_below (h : Rising d b m) (hab : a < b) : (SMap.find m a).getD (d a) = d a := by
  rw [h.find_below hab, Option.getD_none]

/-- A listed key does not read as its default. -/
theorem Rising.head_ne {p : Nat × α} (h : Rising d b (p :: m)) : (SMap.find (p :: m) p.1).getD (d p.1) ≠ d p.1 := by
  rw [SMap.find, if_pos rfl]
  exact h.2.1

/-- A map with a listed key differs somewhere from one whose keys all lie above it. -/
theorem Rising.head_le {c : Nat} {p : Nat × α} (hm : Rising d b (p :: m)) (hn : Rising d c n)
    (h : ∀ a, (SMap.find (p :: m) a).getD (d a) = (SMap.find n a).getD (d a)) : c ≤ p.1 := by
  refine Classical.byContradiction fun hc => ?_
  exact hm.head_ne ((h p.1).trans (hn.getD_below (by omega)))

/-- Two such maps that read the same are the same. -/
theorem Rising.ext {c : Nat} (hm : Rising d b m) (hn : Rising d c n)
    (h : ∀ a, (SMap.find m a).getD (d a) = (SMap.find n a).getD (d a)) : m = n := by
  induction m generalizing b c n with
  | nil =>
    cases n with
    | nil => rfl
    | cons q n => exact absurd (h q.1).symm hn.head_ne
  | cons p m ih =>
    cases n with
    | nil => exact absurd (h p.1) hm.head_ne
    | cons q n =>
      obtain ⟨k, v⟩ := p
      obtain ⟨j, w⟩ := q
      have hjk : j ≤ k := hm.head_le (n := (j, w) :: n) ⟨Nat.le_refl j, hn.2⟩ h
      have hkj : k ≤ j := hn.head_le (n := (k, v) :: m) ⟨Nat.le_refl k, hm.2⟩ (fun a => (h a).symm)
      obtain rfl := Nat.le_antisymm hkj hjk
      have hv : v = w := by simpa [SMap.find] using h k
      rw [hv, ih hm.2.2 hn.2.2 (fun a => ?_)]
      by_cases ha : a = k
      · rw [hm.2.2.find_below (by omega), hn.2.2.find_below (by omega)]
      · simpa only [SMap.find, if_neg ha] using h a

theorem SMap.get_eq_find (x : α) (m : List (Nat × α)) (a : Nat) : SMap.get x m a = (SMap.find m a).getD x := by
  induction m with
  | nil => rfl
  | cons p l ih =>
    simp only [SMap.get, SMap.find]
    split
    · rfl
    · exact ih

theorem rising_of_wfFrom [DecidableEq α] {x : α} (h : SMap.wfFrom x b m = true) : Rising (fun _ => x) b m := by
  induction m generalizing b with
  | nil => trivial
  | cons p l ih =>
    simp only [SMap.wfFrom, Bool.and_eq_true, decide_eq_true_eq, Bool.not_eq_true', decide_eq_false_iff_not] at h
    exact ⟨h.1.1, h.1.2, ih h.2⟩

end

theorem rising_of_regsUp {b : Nat} {m : List (Nat × Word)} (h : regsUp b m = true) : Rising regReset b m := by
  induction m generalizing b with
  | nil => trivial
  | cons p l ih =>
    simp only [regsUp, Bool.and_eq_true, decide_eq_true_eq, Bool.not_eq_true', decide_eq_false_iff_not] at h
    exact ⟨h.1.1, h.1.2, ih h.2⟩

theorem State.mem_eq_of_byte_eq {s t : State} (hs : s.memWf = true) (ht : t.memWf = true) (h : ∀ a, t.byte a = s.byte a) :
    t.mem = s.mem :=
  (rising_of_wfFrom ht).ext (rising_of_wfFrom hs) (fun a => by
    simpa only [State.byte, SMap.get_eq_find] using h a)

theorem State.regs_eq_of_reg_eq {s t : State} (hs : s.regsOk = true) (ht : t.regsOk = true) (h : ∀ a, t.reg a = s.reg a) :
    t.regs = s.regs :=
  (rising_of_regsUp ht).ext (rising_of_regsUp hs) h

/-! ### A step -/

theorem step_cons {s : State} {c : Instr} {rest : List Instr} (h : s.pending = c :: rest) :
    step s = exec c (s.withPending rest) := by
  rw [step, h]

theorem step_nil {s : State} (h : s.pending = []) : step s = .next s.tick := by
  rw [step, h]

/-- What a step keeps of the state with its command taken from the queue: the tick keeps the parts it does not touch, and a
command those that `touches` does not list. -/
theorem step_keeps (s : State) : ∃ t k rest, step s = .next t ∧ Keeps k (s.withPending rest) t := by
  cases h : s.pending with
  | nil =>
    have hs : s.withPending [] = s := by rw [← h]; rfl
    exact ⟨s.tick, _, [], step_nil h, by rw [hs]; exact s.tick_keeps⟩
  | cons c rest =>
    obtain ⟨t, he, hk⟩ := exec_keeps c (s.withPending rest)
    exact ⟨t, _, rest, (step_cons h).trans he, hk⟩

/-- A part that may not change is the same after. -/
theorem Keeps.same_of_not_mem {k : List Part} {s t : State} (h : Keeps k s t) {p : Part} (hp : p ∉ k) : p.same s t :=
  h.same p (by rwa [← Bool.not_eq_true, List.contains_iff_mem])

/-- Settles O3: every command and the tick keep the canonical forms, and a canonical map is determined by its reads. -/
theorem stepKeepsSound : Obligations.StepKeepsSound := by
  refine ⟨fun s hs => ?_, fun s t hs ht hreg hbyte => ?_⟩
  · obtain ⟨t, k, rest, hstep, hk⟩ := step_keeps s
    exact ⟨t, hstep, hk.memWf hs.1, hk.regsOk hs.2⟩
  · exact ⟨State.regs_eq_of_reg_eq hs.2 ht.2 hreg, State.mem_eq_of_byte_eq hs.1 ht.1 hbyte⟩

theorem State.payEvent_time (s : State) (b : Nat) : (s.payEvent b).time = s.time :=
  (s.payEvent_keeps b).same .time (by decide)

theorem State.tick_time (s : State) : s.tick.time = s.time + 1 := by
  have h : ∀ (l : List Nat) (x : State), (l.foldl (fun a b => a.payEvent b) x).time = x.time := by
    intro l
    induction l with
    | nil => exact fun _ => rfl
    | cons b l ih => exact fun x => (ih _).trans (x.payEvent_time b)
  exact h _ _

/-- Settles O1. -/
theorem stepRunsFrontCommand : Obligations.StepRunsFrontCommand := by
  refine ⟨fun s c rest h => step_cons h, fun s h => ⟨s.tick, step_nil h, s.tick_time, ?_⟩⟩
  have hk := s.tick_keeps
  have hmem : s.tick.mem = s.mem := hk.same .mem (by decide)
  exact ⟨hk.pending.trans h, fun a => by rw [State.byte, hmem, State.byte], hk.same .cores (by decide),
    hk.same .sched (by decide), hk.same .units (by decide), hk.same .boot (by decide), hk.same .gov (by decide),
    hk.same .sec (by decide), hk.same .test (by decide), hk.same .free (by decide)⟩

/-! ### The state at reset -/

/-- A register that the register file does not list reads as its Reset column. -/
theorem State.reg_of_not_listed {s : State} {a : Nat} (h : a ∉ s.regs.map (·.1)) : s.reg a = regReset a := by
  have hf : ∀ m : List (Nat × Word), a ∉ m.map (·.1) → SMap.find m a = none := by
    intro m
    induction m with
    | nil => exact fun _ => rfl
    | cons p l ih =>
      intro hm
      simp only [List.map_cons, List.mem_cons, not_or] at hm
      rw [SMap.find, if_neg hm.1, ih hm.2]
  rw [State.reg, hf _ h, Option.getD_none]

theorem resetRegs_canonical : State.reset.regsOk = true := by decide +kernel

/-- Settles O2. -/
theorem resetState : Obligations.ResetState :=
  ⟨rfl, rfl, rfl, rfl, rfl, rfl, rfl, rfl, rfl, rfl, rfl, rfl, fun _ => rfl, by decide +kernel, by decide +kernel, by decide +kernel,
    fun _ h => State.reg_of_not_listed h, rfl, resetRegs_canonical⟩

/-! ### The parts that a command leaves alone -/

/-- Only the two commands that start the module cold may set the timestamp (R9). -/
theorem starts_of_time_mem_touches {i : Instr} (h : Part.time ∈ touches i) :
    (∃ o, i = .powerGoodRise o) ∨ ∃ o, i = .flashEnNRise o := by
  cases i with
  | powerGoodRise o => exact .inl ⟨o, rfl⟩
  | flashEnNRise o => exact .inr ⟨o, rfl⟩
  | _ => simp [touches] at h

/-- Settles O4: what `exec_keeps` says of each command. -/
theorem commandsLeaveTheRest : Obligations.CommandsLeaveTheRest := by
  intro i s t he
  obtain ⟨t', he', hk⟩ := exec_keeps i s
  obtain rfl : t' = t := Host.Outcome.next.inj (he'.symm.trans he)
  refine ⟨hk.pending, fun p hp => hk.same_of_not_mem hp, fun hp a => ?_, fun hp a => ?_, fun ht => ?_⟩
  · have hmem : t'.mem = s.mem := hk.same_of_not_mem hp
    rw [State.byte, State.byte, hmem]
  · have hregs : t'.regs = s.regs := hk.same_of_not_mem hp
    rw [State.reg, State.reg, hregs]
  · refine Classical.byContradiction fun hn => ?_
    exact ht (hk.same_of_not_mem (p := .time) (fun hm => hn (starts_of_time_mem_touches hm)))

/-! ### Reads after writes -/

/-- Keys chosen by a test on the key alone. -/
theorem SMap.find_filter {α : Type} (p : Nat → Bool) (m : List (Nat × α)) (a : Nat) :
    SMap.find (m.filter (fun q => p q.1)) a = if p a then SMap.find m a else none := by
  induction m with
  | nil => simp [SMap.find]
  | cons q l ih =>
    by_cases hq : p q.1 = true <;> by_cases ha : a = q.1 <;> simp_all [SMap.find]

theorem SMap.get_clear {α : Type} (d : α) (m : List (Nat × α)) (a n b : Nat) :
    SMap.get d (SMap.clear m a n) b = if a ≤ b ∧ b < a + n then d else SMap.get d m b := by
  have h := SMap.find_filter (fun k => !(decide (a ≤ k) && decide (k < a + n))) m b
  rw [SMap.get_eq_find, SMap.get_eq_find, SMap.clear, h]
  by_cases hb : a ≤ b ∧ b < a + n
  · simp [hb]
  · rw [if_neg hb, if_pos (by simp; omega)]

theorem SMap.find_slice {α : Type} (m : List (Nat × α)) (a n b : Nat) :
    SMap.find (SMap.slice m a n) b = if a ≤ b ∧ b < a + n then SMap.find m b else none := by
  have h := SMap.find_filter (fun k => decide (a ≤ k) && decide (k < a + n)) m b
  rw [SMap.slice, h]
  by_cases hb : a ≤ b ∧ b < a + n <;> simp [hb]

/-- Entries set from a list with rising keys from `src` on, each moved to `dst`: a key that the list names reads as its entry. -/
theorem SMap.get_foldl_set {α : Type} [DecidableEq α] {d : α} {l m : List (Nat × α)} {src dst c : Nat} (b : Nat) (hc : src ≤ c)
    (hl : SMap.wfFrom d c l = true) (hm : SMap.wf d m = true) :
    SMap.get d (l.foldl (fun acc p => SMap.set d acc (p.1 - src + dst) p.2) m) b
      = if dst ≤ b then (SMap.find l (b - dst + src)).getD (SMap.get d m b) else SMap.get d m b := by
  induction l generalizing m c with
  | nil => simp [SMap.find]
  | cons p l ih =>
    obtain ⟨k, v⟩ := p
    have hr := rising_of_wfFrom hl
    obtain ⟨hk, -, hrl⟩ := hr
    simp only [SMap.wfFrom, Bool.and_eq_true] at hl
    rw [List.foldl_cons, ih (by omega) hl.2 (SMap.wf_set _ _ hm)]
    by_cases hb : b = k - src + dst
    · have hbk : b - dst + src = k := by omega
      rw [if_pos (by omega), if_pos (by omega), hbk, hrl.find_below (Nat.lt_succ_self k), SMap.find, if_pos rfl, hb,
        SMap.get_set_same _ hm, Option.getD_none, Option.getD_some]
    · rw [SMap.get_set_ne _ hb]
      by_cases hd : dst ≤ b
      · rw [if_pos hd, if_pos hd, SMap.find, if_neg (by omega)]
      · rw [if_neg hd, if_neg hd]

theorem SMap.get_copy {α : Type} [DecidableEq α] {d : α} {o m : List (Nat × α)} (ho : SMap.wf d o = true) (hm : SMap.wf d m = true)
    (src dst n b : Nat) :
    SMap.get d (SMap.copy d o m src dst n) b
      = if dst ≤ b ∧ b < dst + n then SMap.get d o (b - dst + src) else SMap.get d m b := by
  have hslice : SMap.wfFrom d src (SMap.slice o src n) = true := by
    have hw : SMap.wfFrom d 0 (SMap.slice o src n) = true := SMap.wfFrom_filter _ ho
    cases hs : SMap.slice o src n with
    | nil => rfl
    | cons p l =>
      have hp : p ∈ SMap.slice o src n := hs ▸ List.mem_cons_self
      simp only [SMap.slice, List.mem_filter, Bool.and_eq_true, decide_eq_true_eq] at hp
      rw [hs] at hw
      simp only [SMap.wfFrom, Bool.and_eq_true, decide_eq_true_eq] at hw ⊢
      exact ⟨⟨hp.2.1, hw.1.2⟩, hw.2⟩
  rw [SMap.copy, SMap.get_foldl_set b (Nat.le_refl src) hslice (SMap.wf_clear dst n hm), SMap.find_slice, SMap.get_clear]
  by_cases hb : dst ≤ b ∧ b < dst + n
  · rw [if_pos hb.1, if_pos (by omega), if_pos hb, if_pos hb, SMap.get_eq_find]
  · rw [if_neg hb, if_neg hb]
    by_cases hd : dst ≤ b
    · rw [if_pos hd, if_neg (by omega), Option.getD_none]
    · rw [if_neg hd]

theorem nth_eq_getElem {α : Type} (d : α) (l : List α) (i : Nat) (h : i < l.length) : nth d l i = l[i] := by
  induction l generalizing i with
  | nil => exact absurd h (Nat.not_lt_zero i)
  | cons x l ih =>
    cases i with
    | zero => rfl
    | succ i => exact ih i (by simpa using h)

theorem length_leBytes (n v : Nat) : (leBytes n v).length = n := by
  induction n generalizing v with
  | zero => rfl
  | succ n ih => rw [leBytes, List.length_cons, ih]

theorem leNat_leBytes (n v : Nat) : leNat (leBytes n v) = v % 256 ^ n := by
  induction n generalizing v with
  | zero => rw [leBytes, leNat, Nat.pow_zero, Nat.mod_one]
  | succ n ih =>
    rw [leBytes, leNat, ih, BitVec.toNat_ofNat, Nat.pow_succ 256 n, Nat.mul_comm (256 ^ n), Nat.mod_mul]

/-- Byte `k` of a number holds its bits [8k+7:8k] (R10). -/
theorem nth_leBytes {n k : Nat} (v : Nat) (hk : k < n) : nth 0 (leBytes n v) k = BitVec.ofNat 8 (bits v (8 * k + 7) (8 * k)) := by
  induction n generalizing k v with
  | zero => exact absurd hk (Nat.not_lt_zero k)
  | succ n ih =>
    apply BitVec.eq_of_toNat_eq
    have hw : 8 * k + 7 + 1 - 8 * k = 8 := by omega
    cases k with
    | zero => simp [leBytes, nth, bits_eq]
    | succ k =>
      have hw' : 8 * k + 7 + 1 - 8 * k = 8 := by omega
      rw [leBytes, nth, ih _ (by omega), bits_eq, bits_eq, hw, hw', show 8 * (k + 1) = 8 + 8 * k by omega, Nat.pow_add,
        Nat.div_div_eq_div_mul]

theorem State.byte_putBytes {s : State} (hs : s.memWf = true) (a : Nat) (l : List Byte) (b : Nat) :
    (s.putBytes a l).byte b = if a ≤ b ∧ b < a + l.length then nth 0 l (b - a) else s.byte b := by
  by_cases hb : a ≤ b ∧ b < a + l.length
  · have hi : b - a < l.length := by omega
    rw [if_pos hb, nth_eq_getElem _ _ _ hi]
    have h := SMap.get_putList_in l a hs (b - a) hi
    rwa [show a + (b - a) = b by omega] at h
  · rw [if_neg hb]
    exact SMap.get_putList_out l s.mem (by omega)

theorem State.num_putNum {s : State} (hs : s.memWf = true) (a n v : Nat) : (s.putNum a n v).num a n = v % 256 ^ n := by
  have h := SMap.getList_putList (leBytes n v) a hs
  rw [length_leBytes] at h
  rw [State.num, State.bytes, State.putNum, State.putBytes, State.withMem_mem, h, leNat_leBytes]

theorem State.byte_putNum {s : State} (hs : s.memWf = true) (a n v : Nat) {k : Nat} (hk : k < n) :
    (s.putNum a n v).byte (a + k) = BitVec.ofNat 8 (bits v (8 * k + 7) (8 * k)) := by
  rw [State.putNum, State.byte_putBytes hs, length_leBytes, if_pos (by omega), Nat.add_sub_cancel_left, nth_leBytes v hk]

/-- A field reads as what was put there, cut to its width. -/
theorem State.fld_setFld {s : State} (hs : s.regsOk = true) (f : Field) (x : Nat) (hf : f.hi < 64) :
    (s.setFld f x).fld f = x % 2 ^ (f.hi + 1 - f.lo) := by
  rw [State.fld, State.reg_setFld_same s f x hs, wget_wput_same _ _ _ _ hf]

/-- Settles O5. -/
theorem readsAfterWrites : Obligations.ReadsAfterWrites := by
  refine ⟨fun s hs => ⟨State.byte_putBytes hs, fun a n v => ⟨State.num_putNum hs a n v, fun k hk => State.byte_putNum hs a n v hk⟩,
    SMap.get_copy hs hs, SMap.get_clear 0 s.mem⟩, fun s hs => ⟨fun r w q => ?_, fun f g x _ hf hg => ⟨State.fld_setFld hs f x hf, ?_⟩⟩⟩
  · split
    · next h => rw [h, State.reg_setReg_same s r w (fun _ => hs)]
    · next h => exact State.reg_setReg_ne s w h
  · rintro (h | h | h)
    · exact State.fld_setFld_ne s x h
    · exact State.fld_setFld_other s f g x hs hg (.inr h)
    · exact State.fld_setFld_other s f g x hs hg (.inl h)

/-! ### Fuses -/

/-- A start in which nothing is found wrong. -/
def quietStart : StartObs :=
  { bundleA := none, bundleB := none, badComponents := [], structA := .none, structB := .none, h1Left := [], badCores := [],
    badMesh := [], msRows := [], badEngines := [], d2dDown := [], gradOk := true, shelf := none, readyW := 0, programmed := [] }

/-- A module that has entered SCRAPPED, its seed good, and whose warm reset is still to come. -/
def scrappedWithSeed : State :=
  { sec := { fuses := { lifeA := 8, lifeB := 8, idSeed := 1 }, transition := true } }

theorem exec_lifecycleWarmReset_scrapped {s : State} (o : StartObs) (ht : s.sec.transition = true) (hl : s.lifeCycle = 4) :
    exec (.lifecycleWarmReset o) s = .next (s.warmReset 0 o).scrapErase := by
  change execLifecycleWarmReset o s = _
  rw [execLifecycleWarmReset, ht, if_neg (by decide), if_pos hl]

theorem State.scrapErase_idSeed (s : State) : s.scrapErase.sec.fuses.idSeed = 2 := rfl

/-- The warm reset that follows SCRAP burns every bit of the seed (R480). -/
theorem step_scrappedWithSeed : ∃ t, step (scrappedWithSeed.withPending [.lifecycleWarmReset quietStart]) = .next t
    ∧ t.sec.fuses.idSeed = 2 := by
  have hlife : scrappedWithSeed.lifeCycle = 4 := by decide +kernel
  have hp : (scrappedWithSeed.withPending [.lifecycleWarmReset quietStart]).withPending [] = scrappedWithSeed := rfl
  exact ⟨_, by rw [step_cons rfl, hp, exec_lifecycleWarmReset_scrapped _ rfl hlife], State.scrapErase_idSeed _⟩

/-- Refutes O6: entering SCRAPPED burns every bit of the seed, so a seed that was good does not keep its verdict. -/
theorem not_fusesOnlyGainBits : ¬ Obligations.FusesOnlyGainBits := by
  intro h
  obtain ⟨t, hstep, ht⟩ := step_scrappedWithSeed
  obtain ⟨-, -, -, -, -, -, -, -, -, -, -, hseed⟩ := h _ t hstep
  exact absurd (ht.symm.trans (hseed (.inl rfl))) (by decide)

end Sys2Proof.Machine
end

