-- ==== Sys2Proof/Proofs/CoreWords.lean ====
section
/-! PROOFS. The encoding of the core's instructions (O7). A word is a row of fields of fixed widths, some of them reserved and 0:
its layout. Reading a word field by field, its range and its reserved bits are proved once, for every layout. -/

namespace Sys2Proof.Machine

/-- The fields of a word, lowest first: each its width and its value, or none where it is reserved. -/
abbrev Layout := List (Nat × Option Nat)

namespace Layout

/-- The number whose bits the fields give. -/
def packed : Layout → Nat
  | [] => 0
  | (n, v) :: l => v.getD 0 + 2 ^ n * packed l

/-- Every field within its width. -/
def fits : Layout → Prop
  | [] => True
  | (n, v) :: l => v.getD 0 < 2 ^ n ∧ fits l

/-- The bits of all fields together. -/
def total : Layout → Nat
  | [] => 0
  | (n, _) :: l => n + total l

/-- The mask of the reserved fields. -/
def gaps : Layout → Nat
  | [] => 0
  | (n, none) :: l => (2 ^ n - 1) + 2 ^ n * gaps l
  | (n, some _) :: l => 2 ^ n * gaps l

/-- From bit `b` on, the word `w` reads as the layout, field by field. -/
def ReadIn (w : Nat) : Nat → Layout → Prop
  | _, [] => True
  | b, (n, none) :: l => ReadIn w (b + n) l
  | b, (n, some v) :: l => (∀ {hi}, hi + 1 = b + n → Machine.bits w hi b = v) ∧ ReadIn w (b + n) l

/-- The layout's fields are within their widths and give the number `x`. -/
def Holds (l : Layout) (x : Nat) : Prop := x = l.packed ∧ l.fits

theorem packed_lt {l : Layout} (h : l.fits) : l.packed < 2 ^ l.total := by
  induction l with
  | nil => exact Nat.one_pos
  | cons p l ih =>
    obtain ⟨hv, hl⟩ := h
    calc p.2.getD 0 + 2 ^ p.1 * packed l
        < 2 ^ p.1 + 2 ^ p.1 * packed l := Nat.add_lt_add_right hv _
      _ = 2 ^ p.1 * (packed l + 1) := by rw [Nat.mul_add, Nat.mul_one, Nat.add_comm]
      _ ≤ 2 ^ p.1 * 2 ^ total l := Nat.mul_le_mul_left _ (ih hl)
      _ = 2 ^ (p.1 + total l) := (Nat.pow_add ..).symm

theorem packed_append (l m : Layout) : packed (l ++ m) = l.packed + 2 ^ l.total * m.packed := by
  induction l with
  | nil => rw [List.nil_append, packed, total, Nat.pow_zero, Nat.one_mul, Nat.zero_add]
  | cons p l ih => rw [List.cons_append, packed, packed, total, ih, Nat.mul_add, Nat.pow_add, Nat.mul_assoc, Nat.add_assoc]

theorem total_append (l m : Layout) : total (l ++ m) = l.total + m.total := by
  induction l with
  | nil => rw [List.nil_append, total, Nat.zero_add]
  | cons p l ih => rw [List.cons_append, total, total, ih, Nat.add_assoc]

theorem fits_append {l m : Layout} (hl : l.fits) (hm : m.fits) : fits (l ++ m) := by
  induction l with
  | nil => exact hm
  | cons p l ih => exact ⟨hl.1, ih hl.2⟩

/-- A word whose bits from `b` on are the number of a layout reads as the layout from there on. -/
theorem readIn_of_div {l : Layout} {w b : Nat} (h : l.fits) (hw : w / 2 ^ b = l.packed) : l.ReadIn w b := by
  induction l generalizing b with
  | nil => trivial
  | cons p l ih =>
    obtain ⟨n, v⟩ := p
    obtain ⟨hv, hl⟩ := h
    have hrest : ReadIn w (b + n) l := ih hl (by
      rw [Nat.pow_add, ← Nat.div_div_eq_div_mul, hw, packed, Nat.add_mul_div_left _ _ (Nat.two_pow_pos _), Nat.div_eq_of_lt hv,
        Nat.zero_add])
    cases v with
    | none => exact hrest
    | some x =>
      refine ⟨fun {hi} hhi => ?_, hrest⟩
      rw [bits_eq, show hi + 1 - b = n by omega, hw, packed, Nat.add_mul_mod_self_left]
      exact Nat.mod_eq_of_lt hv

theorem readIn_append {l m : Layout} {w b : Nat} (h : ReadIn w b (l ++ m)) : l.ReadIn w b ∧ m.ReadIn w (b + l.total) := by
  induction l generalizing b with
  | nil => exact ⟨trivial, h⟩
  | cons p l ih =>
    obtain ⟨n, v⟩ := p
    rw [total, ← Nat.add_assoc]
    cases v with
    | none => exact ih h
    | some x => exact ⟨⟨h.1, (ih h.2).1⟩, (ih h.2).2⟩

/-- No bit of the number is in a reserved field. -/
theorem packed_and_gaps {l : Layout} (h : l.fits) : l.packed &&& l.gaps = 0 := by
  induction l with
  | nil => rfl
  | cons p l ih =>
    obtain ⟨hv, hl⟩ := h
    apply Nat.eq_of_testBit_eq
    intro j
    have hrest := congrArg (fun x => x.testBit (j - p.1)) (ih hl)
    simp only [Nat.testBit_and, Nat.zero_testBit] at hrest ⊢
    obtain ⟨n, v⟩ := p
    have hp : (packed ((n, v) :: l)).testBit j = if j < n then (v.getD 0).testBit j else (packed l).testBit (j - n) := by
      rw [packed, Nat.add_comm, Nat.testBit_two_pow_mul_add _ hv]
    cases v with
    | none =>
      have hg : (gaps ((n, none) :: l)).testBit j = if j < n then (2 ^ n - 1).testBit j else (gaps l).testBit (j - n) := by
        rw [gaps, Nat.add_comm, Nat.testBit_two_pow_mul_add _ (Nat.sub_lt (Nat.two_pow_pos n) Nat.one_pos)]
      rw [hp, hg]
      split
      · simp
      · exact hrest
    | some x =>
      have hg : (gaps ((n, some x) :: l)).testBit j = if j < n then false else (gaps l).testBit (j - n) := by
        have := Nat.testBit_two_pow_mul_add (gaps l) (Nat.two_pow_pos n) j
        rw [gaps, ← Nat.add_zero (2 ^ n * gaps l), this, Nat.zero_testBit]
      rw [hp, hg]
      split
      · simp
      · exact hrest

end Layout

/-! ### The header and the operands of a word -/

/-- The layout of a header above bit 108 (Table 03-3). -/
def hdrLayout (op : Nat) (h : Hdr) : Layout :=
  [(1, none), (1, some (b2n h.haltOk)), (6, some h.signal), (6, some h.wait), (6, some op)]

theorem hdrLayout_fits {op : Nat} {h : Hdr} (hop : op < 64) (hh : h.inWidth = true) : (hdrLayout op h).fits := by
  simp only [Hdr.inWidth, Bool.and_eq_true, decide_eq_true_eq] at hh
  have hb : b2n h.haltOk < 2 := by
    cases h.haltOk <;> decide
  exact ⟨Nat.two_pow_pos 1, hb, hh.2, hh.1, hop, trivial⟩

/-- A word is its operands below the header. -/
theorem insnWord_eq_packed {op : Nat} {h : Hdr} {l : Layout} (ht : l.total = 108) :
    insnWord op h l.packed = Layout.packed (l ++ hdrLayout op h) := by
  rw [Layout.packed_append, ht, insnWord]
  simp only [hdrLayout, Layout.packed, Option.getD_some, Option.getD_none]
  omega

/-- The bits of a layout of 108 bits that no header reaches. -/
theorem mod_of_insnWord {op : Nat} {h : Hdr} {l : Layout} (ht : l.total = 108) (hl : l.fits) :
    Layout.packed (l ++ hdrLayout op h) % 2 ^ 108 = l.packed := by
  rw [Layout.packed_append, ht, Nat.add_mul_mod_self_left]
  exact Nat.mod_eq_of_lt (ht ▸ Layout.packed_lt hl)

/-- Bit 108, which is reserved in every word, is 0. -/
theorem bit_108_of_insnWord {op : Nat} {h : Hdr} {l : Layout} (ht : l.total = 108) (hl : l.fits) :
    bit (Layout.packed (l ++ hdrLayout op h)) 108 = false := by
  have hlt : l.packed < 2 ^ 108 := ht ▸ Layout.packed_lt hl
  rw [Layout.packed_append, ht, Nat.add_comm, bit, Nat.testBit_two_pow_mul_add _ hlt, if_neg (Nat.lt_irrefl _), Nat.sub_self,
    Nat.testBit_zero, hdrLayout, Layout.packed]
  simp

theorem Hdr.ofWord_of_readIn {op w : Nat} {h : Hdr} (hw : (hdrLayout op h).ReadIn w 108) :
    Hdr.ofWord w = h ∧ Machine.bits w 127 122 = op := by
  obtain ⟨hhalt, hsignal, hwait, hop, -⟩ := hw
  refine ⟨?_, hop rfl⟩
  have hb : bit w 109 = h.haltOk := by
    have hh : Machine.bits w 109 109 = b2n h.haltOk := hhalt rfl
    rw [bit, Nat.testBit_eq_decide_div_mod_eq]
    rw [bits_eq] at hh
    simp only [Nat.reduceAdd, Nat.reduceSub, Nat.pow_one] at hh
    rw [hh]
    cases h.haltOk <;> rfl
  rw [Hdr.ofWord, hwait rfl, hsignal rfl, hb]

/-- An instruction whose operands have a layout of 108 bits: its word is in range and reads back, and no reserved bit is set. -/
theorem roundTrip {i : CoreInsn} {h : Hdr} {op x m : Nat} {l : Layout} (hi : i.toWord h = insnWord op h x) (hop : op < 64)
    (hh : h.inWidth = true) (hl : l.Holds x) (htg : l.total = 108 ∧ l.gaps = m)
    (hof : ∀ w, Machine.bits w 127 122 = op → l.ReadIn w 0 → CoreInsn.ofWord w = some i)
    (hres : ∀ w, reservedBits op w = (w % 2 ^ 108) &&& m ||| (if bit w 108 then 2 ^ 108 else 0)) :
    i.toWord h < 2 ^ 128 ∧ CoreInsn.ofWord (i.toWord h) = some i ∧ Hdr.ofWord (i.toWord h) = h
    ∧ reservedBits (Machine.bits (i.toWord h) 127 122) (i.toWord h) = 0 := by
  obtain ⟨rfl, hfit⟩ := hl
  obtain ⟨ht, rfl⟩ := htg
  have hfits := Layout.fits_append hfit (hdrLayout_fits hop hh)
  obtain ⟨hoperands, hheader⟩ := Layout.readIn_append (Layout.readIn_of_div (b := 0) hfits (Nat.div_one _))
  rw [ht] at hheader
  obtain ⟨hhdr, hopc⟩ := Hdr.ofWord_of_readIn hheader
  rw [hi, insnWord_eq_packed ht]
  refine ⟨?_, hof _ hopc hoperands, hhdr, ?_⟩
  · have hlen : Layout.total (l ++ hdrLayout op h) = 128 := by
      rw [Layout.total_append, ht]
      rfl
    exact hlen ▸ Layout.packed_lt hfits
  · rw [hopc, hres, mod_of_insnWord ht hfit, bit_108_of_insnWord ht hfit, Layout.packed_and_gaps hfit]
    rfl

/-! ### The operands of each instruction -/

theorem inWidth_sub {p : Prop} [Decidable p] {b : Bool} (h : (decide p && b) = true) : p ∧ b = true := by
  rwa [Bool.and_eq_true, decide_eq_true_eq] at h

/-- The operands of Table 03-6. -/
def MmaOps.layout (o : MmaOps) : Layout :=
  [(26, none), (10, some o.anchor), (6, some o.xslotReg), (6, some o.cReg), (6, some o.bReg), (6, some o.aReg),
   (2, some o.bank), (3, some o.colMask), (3, some o.rowMask), (13, some o.kM1), (8, some o.nM1), (7, some o.mM1),
   (1, some o.clear), (1, some o.accC), (2, some o.anchorMode), (4, some o.fmtB), (4, some o.fmtA)]

theorem MmaOps.layout_holds {o : MmaOps} (ho : o.inWidth = true) : o.layout.Holds (o.bits) := by
  simp only [inWidth, Bool.and_eq_true, decide_eq_true_eq, and_assoc] at ho
  simp only [Layout.Holds, Layout.fits, Layout.packed, layout, bits, Option.getD_some, Option.getD_none, and_true]
  omega

theorem MmaOps.layout_total_gaps (o : MmaOps) : o.layout.total = 108 ∧ o.layout.gaps = 0x3ffffff := by
  simp only [layout, Layout.total, Layout.gaps]
  decide

theorem MmaOps.ofWord_of_readIn {o : MmaOps} {w : Nat} (hw : o.layout.ReadIn w 0) : ofWord w = o := by
  simp only [layout, Layout.ReadIn, Nat.reduceAdd] at hw
  cases o
  obtain ⟨anchor, xslotReg, cReg, bReg, aReg, bank, colMask, rowMask, kM1, nM1, mM1, clear, accC, anchorMode, fmtB, fmtA,
    -⟩ := hw
  rw [ofWord, mk.injEq]
  exact ⟨fmtA rfl, fmtB rfl, anchorMode rfl, accC rfl, clear rfl, mM1 rfl, nM1 rfl, kM1 rfl, rowMask rfl, colMask rfl,
    bank rfl, aReg rfl, bReg rfl, cReg rfl, xslotReg rfl, anchor rfl⟩

/-- The operands of Table 03-7. -/
def DrainOps.layout (o : DrainOps) : Layout :=
  [(57, none), (6, some o.rngReg), (6, some o.xslotReg), (6, some o.outReg), (3, some o.colMask), (3, some o.rowMask),
   (8, some o.nM1), (7, some o.mM1), (2, some o.bank), (1, none), (1, some o.ownerWait), (1, some o.keep),
   (3, some o.rnd), (4, some o.fmtOut)]

theorem DrainOps.layout_holds {o : DrainOps} (ho : o.inWidth = true) : o.layout.Holds (o.bits) := by
  simp only [inWidth, Bool.and_eq_true, decide_eq_true_eq, and_assoc] at ho
  simp only [Layout.Holds, Layout.fits, Layout.packed, layout, bits, Option.getD_some, Option.getD_none, and_true]
  omega

theorem DrainOps.layout_total_gaps (o : DrainOps) : o.layout.total = 108 ∧ o.layout.gaps = 0x40000000001ffffffffffffff := by
  simp only [layout, Layout.total, Layout.gaps]
  decide

theorem DrainOps.ofWord_of_readIn {o : DrainOps} {w : Nat} (hw : o.layout.ReadIn w 0) : ofWord w = o := by
  simp only [layout, Layout.ReadIn, Nat.reduceAdd] at hw
  cases o
  obtain ⟨rngReg, xslotReg, outReg, colMask, rowMask, nM1, mM1, bank, ownerWait, keep, rnd, fmtOut, -⟩ := hw
  rw [ofWord, mk.injEq]
  exact ⟨fmtOut rfl, rnd rfl, keep rfl, ownerWait rfl, bank rfl, mM1 rfl, nM1 rfl, rowMask rfl, colMask rfl, outReg rfl,
    xslotReg rfl, rngReg rfl⟩

/-- The operands of Table 03-8. -/
def XmaxOps.layout (o : XmaxOps) : Layout :=
  [(34, none), (2, some o.bank), (6, some o.partsM1), (6, some o.part), (6, some o.xslotReg), (6, some o.bReg),
   (6, some o.aReg), (3, some o.colMask), (3, some o.rowMask), (13, some o.kM1), (8, some o.nM1), (7, some o.mM1),
   (4, some o.fmtB), (4, some o.fmtA)]

theorem XmaxOps.layout_holds {o : XmaxOps} (ho : o.inWidth = true) : o.layout.Holds (o.bits) := by
  simp only [inWidth, Bool.and_eq_true, decide_eq_true_eq, and_assoc] at ho
  simp only [Layout.Holds, Layout.fits, Layout.packed, layout, bits, Option.getD_some, Option.getD_none, and_true]
  omega

theorem XmaxOps.layout_total_gaps (o : XmaxOps) : o.layout.total = 108 ∧ o.layout.gaps = 0x3ffffffff := by
  simp only [layout, Layout.total, Layout.gaps]
  decide

theorem XmaxOps.ofWord_of_readIn {o : XmaxOps} {w : Nat} (hw : o.layout.ReadIn w 0) : ofWord w = o := by
  simp only [layout, Layout.ReadIn, Nat.reduceAdd] at hw
  cases o
  obtain ⟨bank, partsM1, part, xslotReg, bReg, aReg, colMask, rowMask, kM1, nM1, mM1, fmtB, fmtA, -⟩ := hw
  rw [ofWord, mk.injEq]
  exact ⟨fmtA rfl, fmtB rfl, mM1 rfl, nM1 rfl, kM1 rfl, rowMask rfl, colMask rfl, aReg rfl, bReg rfl, xslotReg rfl,
    part rfl, partsM1 rfl, bank rfl⟩

/-- The operands of Table 03-8. -/
def XmergeOps.layout (o : XmergeOps) : Layout :=
  [(85, none), (8, some o.nM1), (7, some o.mM1), (2, some o.bank), (6, some o.xslotReg)]

theorem XmergeOps.layout_holds {o : XmergeOps} (ho : o.inWidth = true) : o.layout.Holds (o.bits) := by
  simp only [inWidth, Bool.and_eq_true, decide_eq_true_eq, and_assoc] at ho
  simp only [Layout.Holds, Layout.fits, Layout.packed, layout, bits, Option.getD_some, Option.getD_none, and_true]
  omega

theorem XmergeOps.layout_total_gaps (o : XmergeOps) : o.layout.total = 108 ∧ o.layout.gaps = 0x1fffffffffffffffffffff := by
  simp only [layout, Layout.total, Layout.gaps]
  decide

theorem XmergeOps.ofWord_of_readIn {o : XmergeOps} {w : Nat} (hw : o.layout.ReadIn w 0) : ofWord w = o := by
  simp only [layout, Layout.ReadIn, Nat.reduceAdd] at hw
  cases o
  obtain ⟨nM1, mM1, bank, xslotReg, -⟩ := hw
  rw [ofWord, mk.injEq]
  exact ⟨xslotReg rfl, bank rfl, mM1 rfl, nM1 rfl⟩

/-- The operands of Table 03-8. -/
def ClearbOps.layout (o : ClearbOps) : Layout :=
  [(104, none), (4, some o.bankMask)]

theorem ClearbOps.layout_holds {o : ClearbOps} (ho : o.inWidth = true) : o.layout.Holds (o.bits) := by
  simp only [inWidth, decide_eq_true_eq] at ho
  simp only [Layout.Holds, Layout.fits, Layout.packed, layout, bits, Option.getD_some, Option.getD_none, and_true]
  omega

theorem ClearbOps.layout_total_gaps (o : ClearbOps) : o.layout.total = 108 ∧ o.layout.gaps = 0xffffffffffffffffffffffffff := by
  simp only [layout, Layout.total, Layout.gaps]
  decide

theorem ClearbOps.ofWord_of_readIn {o : ClearbOps} {w : Nat} (hw : o.layout.ReadIn w 0) : ofWord w = o := by
  simp only [layout, Layout.ReadIn, Nat.reduceAdd] at hw
  cases o
  obtain ⟨bankMask, -⟩ := hw
  rw [ofWord, mk.injEq]
  exact bankMask rfl

/-- The operands of Table 03-8. -/
def MemOps.layout (o : MemOps) : Layout :=
  [(91, none), (2, some o.width), (3, some o.mask), (6, some o.addrReg), (5, some o.vreg), (1, none)]

theorem MemOps.layout_holds {o : MemOps} (ho : o.inWidth = true) : o.layout.Holds (o.bits) := by
  simp only [inWidth, Bool.and_eq_true, decide_eq_true_eq, and_assoc] at ho
  simp only [Layout.Holds, Layout.fits, Layout.packed, layout, bits, Option.getD_some, Option.getD_none, and_true]
  omega

theorem MemOps.layout_total_gaps (o : MemOps) : o.layout.total = 108 ∧ o.layout.gaps = 0x80007ffffffffffffffffffffff := by
  simp only [layout, Layout.total, Layout.gaps]
  decide

theorem MemOps.ofWord_of_readIn {o : MemOps} {w : Nat} (hw : o.layout.ReadIn w 0) : ofWord w = o := by
  simp only [layout, Layout.ReadIn, Nat.reduceAdd] at hw
  cases o
  obtain ⟨width, mask, addrReg, vreg, -⟩ := hw
  rw [ofWord, mk.injEq]
  exact ⟨vreg rfl, addrReg rfl, mask rfl, width rfl⟩

/-- The operands of Table 03-8, with the operation `op` beside them. -/
def VopOps.layout (o : VopOps) (op : Nat) : Layout :=
  [(70, none), (4, some o.fmt), (3, some o.rnd), (3, some o.mask), (5, some o.vc), (5, some o.vb), (5, some o.va),
   (5, some o.vd), (8, some op)]

theorem VopOps.layout_holds {o : VopOps} {op : Nat} (ho : o.inWidth = true) (hop : op < 256) : (o.layout op).Holds (op * 2 ^ 100 + o.bits) := by
  simp only [inWidth, Bool.and_eq_true, decide_eq_true_eq, and_assoc] at ho
  simp only [Layout.Holds, Layout.fits, Layout.packed, layout, bits, Option.getD_some, Option.getD_none, and_true]
  omega

theorem VopOps.layout_total_gaps (o : VopOps) (op : Nat) : (o.layout op).total = 108 ∧ (o.layout op).gaps = 0x3fffffffffffffffff := by
  simp only [layout, Layout.total, Layout.gaps]
  decide

theorem VopOps.ofWord_of_readIn {o : VopOps} {op : Nat} {w : Nat} (hw : (o.layout op).ReadIn w 0) : ofWord w = o ∧ Machine.bits w 107 100 = op := by
  simp only [layout, Layout.ReadIn, Nat.reduceAdd] at hw
  cases o
  obtain ⟨fmt, rnd, mask, vc, vb, va, vd, hop, -⟩ := hw
  refine ⟨?_, hop rfl⟩
  rw [ofWord, mk.injEq]
  exact ⟨vd rfl, va rfl, vb rfl, vc rfl, mask rfl, rnd rfl, fmt rfl⟩

/-- The operands of Table 03-8, with the operation `op` beside them. -/
def LaccOps.layout (o : LaccOps) (op : Nat) : Layout :=
  [(68, none), (1, some o.spread), (6, some o.divReg), (4, some o.fmtOut), (3, some o.rnd), (5, some o.vd),
   (5, some o.vb), (5, some o.va), (2, some op), (9, some o.lidx)]

theorem LaccOps.layout_holds {o : LaccOps} {op : Nat} (ho : o.inWidth = true) (hop : op < 4) : (o.layout op).Holds (op * 2 ^ 97 + o.bits) := by
  simp only [inWidth, Bool.and_eq_true, decide_eq_true_eq, and_assoc] at ho
  simp only [Layout.Holds, Layout.fits, Layout.packed, layout, bits, Option.getD_some, Option.getD_none, and_true]
  omega

theorem LaccOps.layout_total_gaps (o : LaccOps) (op : Nat) : (o.layout op).total = 108 ∧ (o.layout op).gaps = 0xfffffffffffffffff := by
  simp only [layout, Layout.total, Layout.gaps]
  decide

theorem LaccOps.ofWord_of_readIn {o : LaccOps} {op : Nat} {w : Nat} (hw : (o.layout op).ReadIn w 0) : ofWord w = o ∧ Machine.bits w 98 97 = op := by
  simp only [layout, Layout.ReadIn, Nat.reduceAdd] at hw
  cases o
  obtain ⟨spread, divReg, fmtOut, rnd, vd, vb, va, hop, lidx, -⟩ := hw
  refine ⟨?_, hop rfl⟩
  rw [ofWord, mk.injEq]
  exact ⟨lidx rfl, va rfl, vb rfl, vd rfl, rnd rfl, fmtOut rfl, divReg rfl, spread rfl⟩

/-- The operands of Table 03-8. -/
def MoveOps.layout (o : MoveOps) : Layout :=
  [(90, none), (6, some o.lenReg), (6, some o.dstReg), (6, some o.srcReg)]

theorem MoveOps.layout_holds {o : MoveOps} (ho : o.inWidth = true) : o.layout.Holds (o.bits) := by
  simp only [inWidth, Bool.and_eq_true, decide_eq_true_eq, and_assoc] at ho
  simp only [Layout.Holds, Layout.fits, Layout.packed, layout, bits, Option.getD_some, Option.getD_none, and_true]
  omega

theorem MoveOps.layout_total_gaps (o : MoveOps) : o.layout.total = 108 ∧ o.layout.gaps = 0x3ffffffffffffffffffffff := by
  simp only [layout, Layout.total, Layout.gaps]
  decide

theorem MoveOps.ofWord_of_readIn {o : MoveOps} {w : Nat} (hw : o.layout.ReadIn w 0) : ofWord w = o := by
  simp only [layout, Layout.ReadIn, Nat.reduceAdd] at hw
  cases o
  obtain ⟨lenReg, dstReg, srcReg, -⟩ := hw
  rw [ofWord, mk.injEq]
  exact ⟨srcReg rfl, dstReg rfl, lenReg rfl⟩

/-- The operands of Table 03-8, with the operation `op` beside them. -/
def SemOps.layout (o : SemOps) (op : Nat) : Layout :=
  [(84, none), (16, some o.value), (2, some op), (6, some o.idx)]

theorem SemOps.layout_holds {o : SemOps} {op : Nat} (ho : o.inWidth = true) (hop : op < 4) : (o.layout op).Holds (op * 2 ^ 100 + o.bits) := by
  simp only [inWidth, Bool.and_eq_true, decide_eq_true_eq] at ho
  simp only [Layout.Holds, Layout.fits, Layout.packed, layout, bits, Option.getD_some, Option.getD_none, and_true]
  omega

theorem SemOps.layout_total_gaps (o : SemOps) (op : Nat) : (o.layout op).total = 108 ∧ (o.layout op).gaps = 0xfffffffffffffffffffff := by
  simp only [layout, Layout.total, Layout.gaps]
  decide

theorem SemOps.ofWord_of_readIn {o : SemOps} {op : Nat} {w : Nat} (hw : (o.layout op).ReadIn w 0) : ofWord w = o ∧ Machine.bits w 101 100 = op := by
  simp only [layout, Layout.ReadIn, Nat.reduceAdd] at hw
  cases o
  obtain ⟨value, hop, idx, -⟩ := hw
  refine ⟨?_, hop rfl⟩
  rw [ofWord, mk.injEq]
  exact ⟨idx rfl, value rfl⟩

/-- The operands of Table 03-8, with the operation `op` beside them. -/
def BranchOps.layout (o : BranchOps) (op : Nat) : Layout :=
  [(74, none), (24, some o.target), (6, some o.sreg), (2, some o.loop), (2, some op)]

theorem BranchOps.layout_holds {o : BranchOps} {op : Nat} (ho : o.inWidth = true) (hop : op < 4) : (o.layout op).Holds (op * 2 ^ 106 + o.bits) := by
  simp only [inWidth, Bool.and_eq_true, decide_eq_true_eq, and_assoc] at ho
  simp only [Layout.Holds, Layout.fits, Layout.packed, layout, bits, Option.getD_some, Option.getD_none, and_true]
  omega

theorem BranchOps.layout_total_gaps (o : BranchOps) (op : Nat) : (o.layout op).total = 108 ∧ (o.layout op).gaps = 0x3ffffffffffffffffff := by
  simp only [layout, Layout.total, Layout.gaps]
  decide

theorem BranchOps.ofWord_of_readIn {o : BranchOps} {op : Nat} {w : Nat} (hw : (o.layout op).ReadIn w 0) : ofWord w = o ∧ Machine.bits w 107 106 = op := by
  simp only [layout, Layout.ReadIn, Nat.reduceAdd] at hw
  cases o
  obtain ⟨target, sreg, loop, hop, -⟩ := hw
  refine ⟨?_, hop rfl⟩
  rw [ofWord, mk.injEq]
  exact ⟨loop rfl, sreg rfl, target rfl⟩

/-- The operands of Table 04-7. -/
def NestOps.layout (o : NestOps) : Layout :=
  [(43, none), (2, some o.bankStep), (5, some o.ctxCount), (4, some o.ctxFirst), (10, some o.bodyLenM1),
   (22, some o.bodyOff), (22, some o.descOff)]

theorem NestOps.layout_holds {o : NestOps} (ho : o.inWidth = true) : o.layout.Holds (o.bits) := by
  simp only [inWidth, Bool.and_eq_true, decide_eq_true_eq, and_assoc] at ho
  simp only [Layout.Holds, Layout.fits, Layout.packed, layout, bits, Option.getD_some, Option.getD_none, and_true]
  omega

theorem NestOps.layout_total_gaps (o : NestOps) : o.layout.total = 108 ∧ o.layout.gaps = 0x7ffffffffff := by
  simp only [layout, Layout.total, Layout.gaps]
  decide

theorem NestOps.ofWord_of_readIn {o : NestOps} {w : Nat} (hw : o.layout.ReadIn w 0) : ofWord w = o := by
  simp only [layout, Layout.ReadIn, Nat.reduceAdd] at hw
  cases o
  obtain ⟨bankStep, ctxCount, ctxFirst, bodyLenM1, bodyOff, descOff, -⟩ := hw
  rw [ofWord, mk.injEq]
  exact ⟨descOff rfl, bodyOff rfl, bodyLenM1 rfl, ctxFirst rfl, ctxCount rfl, bankStep rfl⟩

/-- The operands of Table 05-1, with the operation `op` beside them. -/
def SfnOps.layout (o : SfnOps) (op : Nat) : Layout :=
  [(65, none), (6, some o.addrReg), (9, some o.lidx), (3, some o.rnd), (3, some o.mask), (5, some o.vb), (5, some o.va),
   (5, some o.vd), (1, some o.compat), (6, some op)]

theorem SfnOps.layout_holds {o : SfnOps} {op : Nat} (ho : o.inWidth = true) (hop : op < 64) : (o.layout op).Holds (op * 2 ^ 102 + o.bits) := by
  simp only [inWidth, Bool.and_eq_true, decide_eq_true_eq, and_assoc] at ho
  simp only [Layout.Holds, Layout.fits, Layout.packed, layout, bits, Option.getD_some, Option.getD_none, and_true]
  omega

theorem SfnOps.layout_total_gaps (o : SfnOps) (op : Nat) : (o.layout op).total = 108 ∧ (o.layout op).gaps = 0x1ffffffffffffffff := by
  simp only [layout, Layout.total, Layout.gaps]
  decide

theorem SfnOps.ofWord_of_readIn {o : SfnOps} {op : Nat} {w : Nat} (hw : (o.layout op).ReadIn w 0) : ofWord w = o ∧ Machine.bits w 107 102 = op := by
  simp only [layout, Layout.ReadIn, Nat.reduceAdd] at hw
  cases o
  obtain ⟨addrReg, lidx, rnd, mask, vb, va, vd, compat, hop, -⟩ := hw
  refine ⟨?_, hop rfl⟩
  rw [ofWord, mk.injEq]
  exact ⟨compat rfl, vd rfl, va rfl, vb rfl, mask rfl, rnd rfl, lidx rfl, addrReg rfl⟩

/-- The operands of Table 06-3, with the operation `op` beside them. -/
def AttOps.layout (o : AttOps) (op : Nat) : Layout :=
  [(25, none), (6, some o.rangeReg), (6, some o.seqReg), (6, some o.xslotReg), (6, some o.lseReg), (6, some o.outReg),
   (6, some o.qReg), (9, some o.lidx), (2, some o.bank), (3, some o.rowMask), (7, some o.mM1), (22, some o.descOff),
   (1, some o.last), (1, some o.first), (2, some op)]

theorem AttOps.layout_holds {o : AttOps} {op : Nat} (ho : o.inWidth = true) (hop : op < 4) : (o.layout op).Holds (op * 2 ^ 106 + o.bits) := by
  simp only [inWidth, Bool.and_eq_true, decide_eq_true_eq, and_assoc] at ho
  simp only [Layout.Holds, Layout.fits, Layout.packed, layout, bits, Option.getD_some, Option.getD_none, and_true]
  omega

theorem AttOps.layout_total_gaps (o : AttOps) (op : Nat) : (o.layout op).total = 108 ∧ (o.layout op).gaps = 0x1ffffff := by
  simp only [layout, Layout.total, Layout.gaps]
  decide

theorem AttOps.ofWord_of_readIn {o : AttOps} {op : Nat} {w : Nat} (hw : (o.layout op).ReadIn w 0) : ofWord w = o ∧ Machine.bits w 107 106 = op := by
  simp only [layout, Layout.ReadIn, Nat.reduceAdd] at hw
  cases o
  obtain ⟨rangeReg, seqReg, xslotReg, lseReg, outReg, qReg, lidx, bank, rowMask, mM1, descOff, last, first, hop, -⟩ := hw
  refine ⟨?_, hop rfl⟩
  rw [ofWord, mk.injEq]
  exact ⟨first rfl, last rfl, descOff rfl, mM1 rfl, rowMask rfl, bank rfl, lidx rfl, qReg rfl, outReg rfl, lseReg rfl,
    xslotReg rfl, seqReg rfl, rangeReg rfl⟩

/-- The operands of Table 08-1, with the operation `op` beside them. -/
def WinOps.layout (o : WinOps) (op : Nat) : Layout :=
  [(14, none), (10, some o.anchor), (6, some o.xslotReg), (1, some o.clear), (2, some o.anchorMode), (8, some o.nM1),
   (3, some o.colMask), (3, some o.rowMask), (2, some o.bank), (6, some o.bReg), (6, some o.posReg),
   (22, some o.stageOff), (22, some o.descOff), (3, some op)]

theorem WinOps.layout_holds {o : WinOps} {op : Nat} (ho : o.inWidth = true) (hop : op < 8) : (o.layout op).Holds (op * 2 ^ 105 + o.bits) := by
  simp only [inWidth, Bool.and_eq_true, decide_eq_true_eq, and_assoc] at ho
  simp only [Layout.Holds, Layout.fits, Layout.packed, layout, bits, Option.getD_some, Option.getD_none, and_true]
  omega

theorem WinOps.layout_total_gaps (o : WinOps) (op : Nat) : (o.layout op).total = 108 ∧ (o.layout op).gaps = 0x3fff := by
  simp only [layout, Layout.total, Layout.gaps]
  decide

theorem WinOps.ofWord_of_readIn {o : WinOps} {op : Nat} {w : Nat} (hw : (o.layout op).ReadIn w 0) : ofWord w = o ∧ Machine.bits w 107 105 = op := by
  simp only [layout, Layout.ReadIn, Nat.reduceAdd] at hw
  cases o
  obtain ⟨anchor, xslotReg, clear, anchorMode, nM1, colMask, rowMask, bank, bReg, posReg, stageOff, descOff, hop, -⟩ := hw
  refine ⟨?_, hop rfl⟩
  rw [ofWord, mk.injEq]
  exact ⟨descOff rfl, stageOff rfl, posReg rfl, bReg rfl, bank rfl, rowMask rfl, colMask rfl, nM1 rfl, anchorMode rfl,
    clear rfl, xslotReg rfl, anchor rfl⟩

/-- The operands of Table 09-2, with the operation `op` beside them. -/
def RngOps.layout (o : RngOps) (op : Nat) : Layout :=
  [(41, none), (6, some o.outSreg), (6, some o.rowSreg), (22, some o.descOff), (9, some o.subBase), (6, some o.wordSreg),
   (6, some o.nameReg), (3, some o.mask), (5, some o.vd), (4, some op)]

theorem RngOps.layout_holds {o : RngOps} {op : Nat} (ho : o.inWidth = true) (hop : op < 16) : (o.layout op).Holds (op * 2 ^ 104 + o.bits) := by
  simp only [inWidth, Bool.and_eq_true, decide_eq_true_eq, and_assoc] at ho
  simp only [Layout.Holds, Layout.fits, Layout.packed, layout, bits, Option.getD_some, Option.getD_none, and_true]
  omega

theorem RngOps.layout_total_gaps (o : RngOps) (op : Nat) : (o.layout op).total = 108 ∧ (o.layout op).gaps = 0x1ffffffffff := by
  simp only [layout, Layout.total, Layout.gaps]
  decide

theorem RngOps.ofWord_of_readIn {o : RngOps} {op : Nat} {w : Nat} (hw : (o.layout op).ReadIn w 0) : ofWord w = o ∧ Machine.bits w 107 104 = op := by
  simp only [layout, Layout.ReadIn, Nat.reduceAdd] at hw
  cases o
  obtain ⟨outSreg, rowSreg, descOff, subBase, wordSreg, nameReg, mask, vd, hop, -⟩ := hw
  refine ⟨?_, hop rfl⟩
  rw [ofWord, mk.injEq]
  exact ⟨vd rfl, mask rfl, nameReg rfl, wordSreg rfl, subBase rfl, descOff rfl, rowSreg rfl, outSreg rfl⟩

/-- Settles O7: each instruction has a layout. -/
theorem coreInstructionRoundTrip : Obligations.CoreInstructionRoundTrip := by
  intro i h hi hh
  cases i with
  | nop =>
    exact roundTrip (l := [(108, none)]) rfl (by decide) hh ⟨rfl, Nat.two_pow_pos _, trivial⟩ ⟨rfl, rfl⟩ (fun w h0 _ => by
      simp only [CoreInsn.ofWord, h0]) (fun _ => rfl)
  | halt =>
    exact roundTrip (l := [(108, none)]) rfl (by decide) hh ⟨rfl, Nat.two_pow_pos _, trivial⟩ ⟨rfl, rfl⟩ (fun w h0 _ => by
      simp only [CoreInsn.ofWord, h0]) (fun _ => rfl)
  | mma o =>
    exact roundTrip rfl (by decide) hh (MmaOps.layout_holds hi) o.layout_total_gaps (fun w h0 hw => by
      simp only [CoreInsn.ofWord, h0, MmaOps.ofWord_of_readIn hw]) (fun _ => rfl)
  | drain o =>
    exact roundTrip rfl (by decide) hh (DrainOps.layout_holds hi) o.layout_total_gaps (fun w h0 hw => by
      simp only [CoreInsn.ofWord, h0, DrainOps.ofWord_of_readIn hw]) (fun _ => rfl)
  | clearb o =>
    exact roundTrip rfl (by decide) hh (ClearbOps.layout_holds hi) o.layout_total_gaps (fun w h0 hw => by
      simp only [CoreInsn.ofWord, h0, ClearbOps.ofWord_of_readIn hw]) (fun _ => rfl)
  | xmax o =>
    exact roundTrip rfl (by decide) hh (XmaxOps.layout_holds hi) o.layout_total_gaps (fun w h0 hw => by
      simp only [CoreInsn.ofWord, h0, XmaxOps.ofWord_of_readIn hw]) (fun _ => rfl)
  | xmerge o =>
    exact roundTrip rfl (by decide) hh (XmergeOps.layout_holds hi) o.layout_total_gaps (fun w h0 hw => by
      simp only [CoreInsn.ofWord, h0, XmergeOps.ofWord_of_readIn hw]) (fun _ => rfl)
  | vop op o =>
    obtain ⟨hop, ho⟩ := inWidth_sub hi
    exact roundTrip rfl (by decide) hh (VopOps.layout_holds ho hop) (o.layout_total_gaps op) (fun w h0 hw => by
      obtain ⟨h1, h2⟩ := VopOps.ofWord_of_readIn hw
      simp only [CoreInsn.ofWord, h0, h1, h2]) (fun _ => rfl)
  | lacc op o =>
    obtain ⟨hop, ho⟩ := inWidth_sub hi
    exact roundTrip rfl (by decide) hh (LaccOps.layout_holds ho hop) (o.layout_total_gaps op) (fun w h0 hw => by
      obtain ⟨h1, h2⟩ := LaccOps.ofWord_of_readIn hw
      simp only [CoreInsn.ofWord, h0, h1, h2]) (fun _ => rfl)
  | sfn op o =>
    obtain ⟨hop, ho⟩ := inWidth_sub hi
    exact roundTrip rfl (by decide) hh (SfnOps.layout_holds ho hop) (o.layout_total_gaps op) (fun w h0 hw => by
      obtain ⟨h1, h2⟩ := SfnOps.ofWord_of_readIn hw
      simp only [CoreInsn.ofWord, h0, h1, h2]) (fun _ => rfl)
  | rng op o =>
    obtain ⟨hop, ho⟩ := inWidth_sub hi
    exact roundTrip rfl (by decide) hh (RngOps.layout_holds ho hop) (o.layout_total_gaps op) (fun w h0 hw => by
      obtain ⟨h1, h2⟩ := RngOps.ofWord_of_readIn hw
      simp only [CoreInsn.ofWord, h0, h1, h2]) (fun _ => rfl)
  | ld o =>
    exact roundTrip rfl (by decide) hh (MemOps.layout_holds hi) o.layout_total_gaps (fun w h0 hw => by
      simp only [CoreInsn.ofWord, h0, MemOps.ofWord_of_readIn hw]) (fun _ => rfl)
  | st o =>
    exact roundTrip rfl (by decide) hh (MemOps.layout_holds hi) o.layout_total_gaps (fun w h0 hw => by
      simp only [CoreInsn.ofWord, h0, MemOps.ofWord_of_readIn hw]) (fun _ => rfl)
  | move o =>
    exact roundTrip rfl (by decide) hh (MoveOps.layout_holds hi) o.layout_total_gaps (fun w h0 hw => by
      simp only [CoreInsn.ofWord, h0, MoveOps.ofWord_of_readIn hw]) (fun _ => rfl)
  | sem op o =>
    obtain ⟨hop, ho⟩ := inWidth_sub hi
    exact roundTrip rfl (by decide) hh (SemOps.layout_holds ho hop) (o.layout_total_gaps op) (fun w h0 hw => by
      obtain ⟨h1, h2⟩ := SemOps.ofWord_of_readIn hw
      simp only [CoreInsn.ofWord, h0, h1, h2]) (fun _ => rfl)
  | branch op o =>
    obtain ⟨hop, ho⟩ := inWidth_sub hi
    exact roundTrip rfl (by decide) hh (BranchOps.layout_holds ho hop) (o.layout_total_gaps op) (fun w h0 hw => by
      obtain ⟨h1, h2⟩ := BranchOps.ofWord_of_readIn hw
      simp only [CoreInsn.ofWord, h0, h1, h2]) (fun _ => rfl)
  | att op o =>
    obtain ⟨hop, ho⟩ := inWidth_sub hi
    exact roundTrip rfl (by decide) hh (AttOps.layout_holds ho hop) (o.layout_total_gaps op) (fun w h0 hw => by
      obtain ⟨h1, h2⟩ := AttOps.ofWord_of_readIn hw
      simp only [CoreInsn.ofWord, h0, h1, h2]) (fun _ => rfl)
  | win op o =>
    obtain ⟨hop, ho⟩ := inWidth_sub hi
    exact roundTrip rfl (by decide) hh (WinOps.layout_holds ho hop) (o.layout_total_gaps op) (fun w h0 hw => by
      obtain ⟨h1, h2⟩ := WinOps.ofWord_of_readIn hw
      simp only [CoreInsn.ofWord, h0, h1, h2]) (fun _ => rfl)
  | nest o =>
    exact roundTrip rfl (by decide) hh (NestOps.layout_holds hi) o.layout_total_gaps (fun w h0 hw => by
      simp only [CoreInsn.ofWord, h0, NestOps.ofWord_of_readIn hw]) (fun _ => rfl)

end Sys2Proof.Machine
end

