-- ==== Sys2Proof/Proofs/OrderOfSums.lean ====
section
/-! PROOFS. The order and the division of an entry's contributions (O10). -/

namespace Sys2Proof.Machine

/-! ### Sums held in two's complement -/

theorem heldIn_congr {n : Nat} {x y : Int} (h : x % (2 ^ n : Nat) = y % (2 ^ n : Nat)) : heldIn n x = heldIn n y := by
  rw [heldIn, heldIn, unsigned, unsigned, h]

theorem heldIn_emod (n : Nat) (x : Int) : heldIn n x % (2 ^ n : Nat) = x % (2 ^ n : Nat) := by
  have hpos : (0 : Int) < (2 ^ n : Nat) := Int.natCast_pos.mpr (Nat.two_pow_pos n)
  have hu : ((unsigned n x : Nat) : Int) = x % (2 ^ n : Nat) := Int.toNat_of_nonneg (Int.emod_nonneg x (by omega))
  have hlt : unsigned n x % 2 ^ n = unsigned n x := Nat.mod_eq_of_lt (by
    have := Int.emod_lt_of_pos x hpos
    omega)
  simp only [heldIn, signed, hlt]
  split
  · rw [hu, Int.emod_emod]
  · rw [Int.sub_emod_right, hu, Int.emod_emod]

/-- Holding a part of a sum first does not change what the sum is held as. -/
theorem heldIn_add (n : Nat) (x y : Int) : heldIn n (heldIn n x + y) = heldIn n (x + y) :=
  heldIn_congr (by rw [Int.add_emod, heldIn_emod, ← Int.add_emod])

theorem heldIn_add' (n : Nat) (x y : Int) : heldIn n (x + heldIn n y) = heldIn n (x + y) := by
  rw [Int.add_comm, heldIn_add, Int.add_comm]

theorem heldIn_heldIn (n : Nat) (x : Int) : heldIn n (heldIn n x) = heldIn n x := heldIn_congr (heldIn_emod n x)

/-- A held sum lies in the range of two's complement. -/
theorem heldIn_range (n : Nat) (x : Int) : -2 ^ n ≤ heldIn (n + 1) x ∧ heldIn (n + 1) x < 2 ^ n := by
  have hw : 2 ^ (n + 1) = 2 * 2 ^ n := by rw [Nat.pow_succ, Nat.mul_comm]
  have hlt : unsigned (n + 1) x % 2 ^ (n + 1) < 2 * 2 ^ n := hw ▸ Nat.mod_lt _ (Nat.two_pow_pos _)
  have hc : ((2 ^ n : Nat) : Int) = 2 ^ n := Int.natCast_pow 2 n
  simp only [heldIn, signed, Nat.add_sub_cancel, hw]
  rw [hw] at hlt
  generalize unsigned (n + 1) x % (2 * 2 ^ n) = u at hlt ⊢
  split <;> push_cast <;> omega

namespace WideEntry

variable {x y z : WideEntry} {c d : Contrib} {l m : List Contrib}

/-! ### One contribution -/

/-- What a contribution that does not fault leaves. -/
def added (x : WideEntry) (c : Contrib) : WideEntry :=
  if c.special then
    { x with nan := x.nan || c.nan, invalid := x.invalid || c.invalid, pinf := x.pinf || c.pinf, ninf := x.ninf || c.ninf,
             count := x.count + 1 }
  else
    { x with value := heldIn 192 (x.value + (c.place (x.anchor - 160)).1), count := x.count + 1,
             cut := min 2 (x.cut + b2n (c.place (x.anchor - 160)).2), sticky := x.sticky || (c.place (x.anchor - 160)).2 }

/-- Does the anchor `a` bound a contribution (R60)? -/
def bounds (a : Int) (c : Contrib) : Bool := c.special || !c.atLeast a

/-- May a contribution enter: COUNT is below 2^31 and the anchor bounds it (R60, R61)? -/
def takes (x : WideEntry) (c : Contrib) : Bool := decide (x.count < 2 ^ 31) && bounds x.anchor c

theorem add_eq (x : WideEntry) (c : Contrib) : x.add c = if x.takes c = true then some (x.added c) else none := by
  by_cases hc : x.count < 2 ^ 31
  · rw [add, if_neg (Nat.not_le.mpr hc), takes, decide_eq_true hc, Bool.true_and, added, bounds]
    by_cases hs : c.special = true <;> by_cases ha : c.atLeast x.anchor = true <;> simp [hs, ha]
  · rw [add, if_pos (Nat.le_of_not_lt hc), takes, decide_eq_false hc, Bool.false_and, if_neg Bool.false_ne_true]

theorem add_eq_some : x.add c = some y ↔ x.takes c = true ∧ y = x.added c := by
  rw [add_eq]
  split
  · simp only [Option.some.injEq, true_and, *]
    exact eq_comm
  · simp only [reduceCtorEq, false_and, *]

theorem takes_iff : x.takes c = true ↔ x.count < 2 ^ 31 ∧ bounds x.anchor c = true := by
  rw [takes, Bool.and_eq_true, decide_eq_true_eq]

theorem added_anchor : (x.added c).anchor = x.anchor := by unfold added; split <;> rfl

theorem added_count : (x.added c).count = x.count + 1 := by unfold added; split <;> rfl

theorem added_comm : (x.added c).added d = (x.added d).added c := by
  by_cases hc : c.special = true <;> by_cases hd : d.special = true <;>
    simp only [added, hc, hd, if_true, if_false, Bool.false_eq_true, mk.injEq, and_self, and_true, true_and, heldIn_add,
      Bool.or_right_comm, Int.add_right_comm]
  omega

theorem takes_added : (x.added c).takes d = (decide (x.count + 1 < 2 ^ 31) && bounds x.anchor d) := by
  rw [takes, added_anchor, added_count]

/-- Two contributions enter in either order, or in neither. -/
theorem add_bind_comm : (x.add c).bind (fun y => y.add d) = (x.add d).bind (fun y => y.add c) := by
  simp only [add_eq]
  by_cases hc : x.takes c = true <;> by_cases hd : x.takes d = true
  · obtain ⟨-, hbc⟩ := takes_iff.mp hc
    obtain ⟨-, hbd⟩ := takes_iff.mp hd
    rw [if_pos hc, if_pos hd, Option.bind_some, Option.bind_some, takes_added, takes_added, hbc, hbd, added_comm]
  · obtain ⟨hlt, -⟩ := takes_iff.mp hc
    have hbd : bounds x.anchor d = false := by
      refine Classical.byContradiction fun h => ?_
      exact hd (takes_iff.mpr ⟨hlt, by simpa using h⟩)
    rw [if_pos hc, if_neg hd, Option.bind_some, takes_added, hbd, Bool.and_false, if_neg Bool.false_ne_true, Option.bind_none]
  · obtain ⟨hlt, -⟩ := takes_iff.mp hd
    have hbc : bounds x.anchor c = false := by
      refine Classical.byContradiction fun h => ?_
      exact hc (takes_iff.mpr ⟨hlt, by simpa using h⟩)
    rw [if_neg hc, if_pos hd, Option.bind_some, takes_added, hbc, Bool.and_false, if_neg Bool.false_ne_true, Option.bind_none]
  · rw [if_neg hc, if_neg hd, Option.bind_none, Option.bind_none]

/-! ### A list of contributions -/

theorem addAll_cons : x.addAll (c :: l) = (x.add c).bind (fun y => y.addAll l) := by
  rw [addAll]
  cases x.add c <;> rfl

theorem addAll_append : x.addAll (l ++ m) = (x.addAll l).bind (fun y => y.addAll m) := by
  induction l generalizing x with
  | nil => rfl
  | cons c l ih =>
    rw [List.cons_append, addAll_cons, addAll_cons]
    cases x.add c with
    | none => rfl
    | some y => exact ih

theorem addAll_perm (h : l.Perm m) : x.addAll l = x.addAll m := by
  induction h generalizing x with
  | nil => rfl
  | cons c _ ih => simp only [addAll_cons, ih]
  | swap c d l =>
    simp only [addAll_cons, ← Option.bind_assoc]
    rw [add_bind_comm]
  | trans _ _ ih1 ih2 => exact ih1.trans ih2

/-- The count is that of the contributions, and never passes 2^31. -/
theorem addAll_count (h : x.addAll l = some y) : y.count = x.count + l.length ∧ (x.count ≤ 2 ^ 31 → y.count ≤ 2 ^ 31) := by
  induction l generalizing x with
  | nil =>
    obtain rfl := Option.some.inj h
    exact ⟨rfl, id⟩
  | cons c l ih =>
    obtain ⟨z, hz, hy⟩ := Option.bind_eq_some_iff.mp (addAll_cons.symm.trans h)
    obtain ⟨htakes, rfl⟩ := add_eq_some.mp hz
    have hlt := (takes_iff.mp htakes).1
    have := ih hy
    rw [added_count] at this
    rw [List.length_cons]
    omega

/-- An entry as additions leave it: VALUE within 192 bits and CUT at most 2. -/
def Normal (x : WideEntry) : Prop := heldIn 192 x.value = x.value ∧ x.cut ≤ 2

theorem normal_added (h : x.Normal) : (x.added c).Normal := by
  unfold added
  split
  · exact h
  · exact ⟨heldIn_heldIn 192 _, Nat.min_le_left _ _⟩

theorem normal_addAll (hx : x.Normal) (h : x.addAll l = some y) : y.Normal ∧ y.anchor = x.anchor := by
  induction l generalizing x with
  | nil =>
    obtain rfl := Option.some.inj h
    exact ⟨hx, rfl⟩
  | cons c l ih =>
    obtain ⟨z, hz, hy⟩ := Option.bind_eq_some_iff.mp (addAll_cons.symm.trans h)
    obtain ⟨-, rfl⟩ := add_eq_some.mp hz
    obtain ⟨hn, ha⟩ := ih (normal_added hx) hy
    exact ⟨hn, ha.trans added_anchor⟩

theorem normal_cleared (a : Int) : (cleared a).Normal := 
  ⟨heldIn_of_fits 191 (x := 0) (by decide) (by decide), Nat.zero_le 2⟩

/-! ### Division into two partials -/

/-- A contribution to one of two partials is one to what they merge into. -/
theorem merged_added (ha : x.anchor = y.anchor) : x.merged (y.added c) = (x.merged y).added c := by
  by_cases hc : c.special = true <;>
    simp only [merged, added, hc, if_true, if_false, Bool.false_eq_true, mk.injEq, ha, heldIn_add, heldIn_add', Bool.or_assoc,
      Int.add_assoc, Nat.add_assoc, and_self, and_true, true_and]
  omega

theorem addAll_merged (ha : x.anchor = y.anchor) (h : y.addAll l = some z) (hc : x.count + z.count ≤ 2 ^ 31) :
    (x.merged y).addAll l = some (x.merged z) := by
  induction l generalizing y with
  | nil =>
    obtain rfl := Option.some.inj h
    rfl
  | cons c l ih =>
    obtain ⟨y', hy', hz⟩ := Option.bind_eq_some_iff.mp (addAll_cons.symm.trans h)
    obtain ⟨htakes, rfl⟩ := add_eq_some.mp hy'
    have hb := (takes_iff.mp htakes).2
    have hcount := (addAll_count hz).1
    rw [added_count] at hcount
    have hm : (x.merged y).add c = some (x.merged (y.added c)) :=
      add_eq_some.mpr ⟨takes_iff.mpr ⟨show x.count + y.count < 2 ^ 31 by omega, by rw [show (x.merged y).anchor = y.anchor from ha, hb]⟩,
        merged_added ha⟩
    rw [addAll_cons, hm]
    exact ih (by rw [added_anchor, ha]) hz

theorem merged_cleared (hx : x.Normal) (a : Int) : x.merged (cleared a) = x := by
  obtain ⟨hv, hc⟩ := hx
  simp only [merged, cleared, Int.add_zero, Nat.add_zero, Bool.or_false, hv, Nat.min_eq_right hc]

/-- Only no contribution at all leaves a cleared entry empty. -/
theorem eq_nil_of_isEmpty {a : Int} (h : (cleared a).addAll l = some x) (he : x.isEmpty = true) : l = [] := by
  have hc := (addAll_count h).1
  rw [(isEmpty_iff.mp he).1] at hc
  exact List.length_eq_zero_iff.mp (by
    have : (cleared a).count = 0 := rfl
    omega)

/-- Two partials of one anchor merge into the sum of all their contributions, where COUNT can hold them. -/
theorem merge_addAll {a : Int} (hl : (cleared a).addAll l = some x) (hm : (cleared a).addAll m = some y)
    (hc : x.count + y.count ≤ 2 ^ 31) : ∃ z, x.merge y = (.ok, z) ∧ (cleared a).addAll (l ++ m) = some z := by
  obtain ⟨hnx, hax⟩ := normal_addAll (normal_cleared a) hl
  obtain ⟨hny, hay⟩ := normal_addAll (normal_cleared a) hm
  rw [addAll_append, hl, Option.bind_some]
  by_cases hy : y.isEmpty = true
  · obtain rfl := eq_nil_of_isEmpty hm hy
    exact ⟨x, merge_empty hy, rfl⟩
  · rw [Bool.not_eq_true] at hy
    by_cases hx : x.isEmpty = true
    · obtain rfl := eq_nil_of_isEmpty hl hx
      obtain rfl := Option.some.inj hl
      have hr := heldIn_range 191 y.value
      rw [hny.1] at hr
      exact ⟨y, empty_merge hx hy (by omega) hny.2 hr.1 hr.2, hm⟩
    · rw [Bool.not_eq_true] at hx
      refine ⟨_, merge_of_anchor_eq hx hy (hax.trans hay.symm) hc, ?_⟩
      have h := addAll_merged hax hm hc
      rwa [merged_cleared hnx] at h

/-- Past 2^31 contributions the merge and the whole sum both fault with WINDOW. -/
theorem merge_addAll_overflow {a : Int} (hl : (cleared a).addAll l = some x) (hm : (cleared a).addAll m = some y)
    (hc : 2 ^ 31 < x.count + y.count) : (x.merge y).1 = .window ∧ (cleared a).addAll (l ++ m) = none := by
  obtain ⟨hcx, hbx⟩ := addAll_count hl
  obtain ⟨hcy, hby⟩ := addAll_count hm
  have h0 : (cleared a).count = 0 := rfl
  rw [h0] at hcx hcy hbx hby
  have hne : ∀ w : WideEntry, 0 < w.count → w.isEmpty = false := by
    intro w hw
    refine Classical.byContradiction fun h => ?_
    exact absurd (isEmpty_iff.mp (by simpa using h)).1 (by omega)
  refine ⟨?_, ?_⟩
  · have hax := (normal_addAll (normal_cleared a) hl).2
    have hay := (normal_addAll (normal_cleared a) hm).2
    rw [merge_of_count_gt (hne x (by omega)) (hne y (by omega)) (hax.trans hay.symm) hc]
  · cases h : (cleared a).addAll (l ++ m) with
    | none => rfl
    | some z =>
      obtain ⟨hcz, hbz⟩ := addAll_count h
      rw [h0, List.length_append] at *
      omega

end WideEntry

/-- Settles O10: contributions commute, and a contribution to a partial is one to the merge. -/
theorem orderAndDivisionDoNotMatter : Obligations.OrderAndDivisionDoNotMatter :=
  ⟨fun _ _ _ h => WideEntry.addAll_perm h, fun _ _ _ _ _ hl hm =>
    ⟨WideEntry.merge_addAll hl hm, WideEntry.merge_addAll_overflow hl hm⟩⟩

end Sys2Proof.Machine
end

