-- ==== Sys2Proof/Proofs/ScalarInsns.lean ====
section
/-! PROOFS. The instructions of the core that touch no memory of another module: control, branches, vector functions, long
accumulators, loads and stores, special functions. -/

namespace Sys2Proof.Machine
open Sys2Proof.Claims

variable {s : State} {t : Site} {h : Hdr} {moves ok : Bool} {body : State → Eff}

/-! ### The outcome of an ordinary instruction -/

/-- An ordinary instruction that issues and whose effect completes is retired in flight from its own place. -/
theorem next_issue_done {s1 : State} (hi : s.issues t h (plainFlight t h) = true) (hok : ok = true)
    (hb : body (s.issued t h) = .done s1) :
    (.next (s.issueAs t h (plainFlight t h) moves ok body) : Host.Outcome State Fault Refusal)
      = .next (s1.retired t h (flight s t h) moves) :=
  congrArg _ (State.issueAs_done hi hok hb)

/-- One whose effect faults. -/
theorem next_issue_fault {s1 : State} {st : Status} {a : Nat} (hi : s.issues t h (plainFlight t h) = true) (hok : ok = true)
    (hb : body (s.issued t h) = .fault st a s1) :
    (.next (s.issueAs t h (plainFlight t h) moves ok body) : Host.Outcome State Fault Refusal)
      = .next (s1.coreFault t.core st a) :=
  congrArg _ (State.issueAs_fault hi hok hb)

/-! ### NOP, SEM and END -/

theorem SemOps.value_le {o : SemOps} (h : o.ok = true) : o.value ≤ 65535 := by
  simp [SemOps.ok, SemOps.inWidth] at h
  omega

/-- END of a core whose contexts have all ended. -/
theorem Core.ended_iff (k : Core) : k.ended = true ↔
    ∀ p ∈ k.ctxs, p.2.active = false ∧ p.2.held = [] ∧ p.2.post = none ∧ p.2.merge = none := by
  simp [Core.ended, List.all_eq_true, and_assoc]

/-- Settles O11, one outcome of issue for each instruction. -/
theorem controlInstructionsComplete : Obligations.ControlInstructionsComplete := by
  intro s t h o hi
  refine ⟨next_issue_done hi rfl rfl, fun hok => ⟨next_issue_done hi hok ?_, fun hle => next_issue_done hi hok ?_,
    fun hgt => next_issue_fault hi hok ?_⟩, _, next_issue_done hi rfl rfl, fun hr he => ?_, fun he => ?_⟩
  · exact if_neg (by have := SemOps.value_le hok; omega)
  · exact if_neg (by omega)
  · exact if_pos hgt
  · rw [State.settleEnd, hr, (Core.ended_iff _).2 he]
    rfl
  · rw [State.settleEnd, if_neg]
    rw [Bool.and_eq_true, Core.ended_iff]
    exact fun hh => he hh.2

/-! ### BRANCH -/

/-- A branch on a word that is not 0. -/
theorem branchTo_ne {n : Nat} (t : Site) (o : BranchOps) (x : BitVec n) (c : Ctx) (s : State) :
    branchTo t o (decide (x ≠ 0)) c s
      = .done (s.setCtx t { c with pc := if x = 0 then (c.pc + 16) % 4194304 else branchTarget c.pc o.target }) := by
  unfold branchTo
  by_cases hx : x = 0
  · rw [if_pos hx, decide_eq_false (not_not_intro hx)]
    rfl
  · rw [if_neg hx, decide_eq_true hx]
    rfl

/-- Settles O12: each condition's effect is a branch, to the target where it is taken. -/
theorem branchTargetsAndCounters : Obligations.BranchTargetsAndCounters := by
  intro s t h o hi
  refine ⟨fun hok => next_issue_done hi hok rfl, fun hok => next_issue_done hi hok (branchTo_ne ..),
    fun hok => next_issue_done hi hok (branchTo_ne ..), fun hok => next_issue_done hi hok ?_⟩
  simp only [Ctx.setLoop, BitVec.ofNat_toNat]

/-! ### VOP -/

@[simp] theorem State.orFlags_zero (s : State) : s.orFlags 0 = s := by
  unfold State.orFlags
  split
  · rfl
  · rename_i j hj
    rw [Nat.or_zero]
    change s.withSched { s.sched with run := some j } = s
    rw [← hj]
    rfl

theorem orAll_zeros (l : List Nat) : orAll (l.map (fun _ => 0)) = 0 := by
  unfold orAll
  induction l with
  | nil => rfl
  | cons x l ih => simpa using ih

/-- A vector function that raises no flag and whose result is a lane. -/
theorem vopEff_bare {f : Nat} {g : VFun} {o : VopOps} (r : Lane → Lane → Lane → Lane) (t : Site) (s : State)
    (hg : ∀ a b c x, (g o a b c x).flags = 0 ∧ BitVec.ofNat 32 (g o a b c x).bits = r a b c) :
    vopEff f g t o s = .done (s.setCtx t ((s.ctx t).setLanes o.vd (s.lanes t o.mask)
      (fun l => r ((s.ctx t).lane o.va l) ((s.ctx t).lane o.vb l) ((s.ctx t).lane o.vc l)))) := by
  simp only [vopEff, vopLane, hg, orAll_zeros, State.orFlags_zero]

theorem ofNat_toNat_self {n : Nat} (x : BitVec n) : BitVec.ofNat n x.toNat = x := by
  rw [BitVec.ofNat_toNat, BitVec.setWidth_eq]

/-- A left shift by 32 or more leaves nothing of 32 bits. -/
theorem shiftLeft_bits (a b : Lane) :
    (if 32 ≤ b.toNat then (0 : Lane) else a <<< b.toNat) = BitVec.ofNat 32 (a.toNat * 2 ^ b.toNat) := by
  apply BitVec.eq_of_toNat_eq
  rw [BitVec.toNat_ofNat]
  split
  · next hb => exact (Nat.mod_eq_zero_of_dvd (Nat.dvd_mul_left_of_dvd (Nat.pow_dvd_pow 2 hb) _)).symm
  · rw [BitVec.toNat_shiftLeft, Nat.shiftLeft_eq]

theorem shiftRight_bits (a b : Lane) :
    (if 32 ≤ b.toNat then (0 : Lane) else a >>> b.toNat) = BitVec.ofNat 32 (a.toNat / 2 ^ b.toNat) := by
  apply BitVec.eq_of_toNat_eq
  have ha := a.isLt
  have hq : a.toNat / 2 ^ b.toNat ≤ a.toNat := Nat.div_le_self ..
  rw [BitVec.toNat_ofNat, Nat.mod_eq_of_lt (by omega)]
  split
  · next hb => exact (Nat.div_eq_of_lt (Nat.lt_of_lt_of_le ha (Nat.pow_le_pow_right (by decide) hb))).symm
  · rw [BitVec.toNat_ushiftRight, Nat.shiftRight_eq_div_pow]

theorem clearSign_bits (a : Lane) : BitVec.ofNat 32 (a.toNat % 2 ^ 31) = a &&& 0x7fffffff := by
  apply BitVec.eq_of_toNat_eq
  have hm : BitVec.toNat (0x7fffffff : Lane) = 2 ^ 31 - 1 := rfl
  rw [BitVec.toNat_ofNat, BitVec.toNat_and, hm, Nat.and_two_pow_sub_one_eq_mod]
  omega

/-- Settles O13: each function's effect on its lanes, without flags where its result has none. -/
theorem vopFunctionsComplete : Obligations.VopFunctionsComplete := by
  intro s t h o hi
  have bare {f : Nat} (g : VFun) (r : Lane → Lane → Lane → Lane)
      (hg : ∀ a b c x, (g o a b c x).flags = 0 ∧ BitVec.ofNat 32 (g o a b c x).bits = r a b c) (hok : o.ok f = true) :=
    next_issue_done (moves := true) hi hok (vopEff_bare (f := f) r t (s.issued t h) hg)
  refine ⟨fun hok => next_issue_done hi hok rfl, fun hok => next_issue_done hi hok rfl, fun hok => next_issue_done hi hok rfl,
    fun hok => next_issue_done hi hok rfl, fun hok => next_issue_done hi hok rfl, fun hok => next_issue_done hi hok rfl,
    fun hok hf => next_issue_done hi hok ?_, fun hok hf => next_issue_done hi hok ?_, 
    bare vopAnd (fun a b _ => a &&& b) ?_, bare vopOr (fun a b _ => a ||| b) ?_, bare vopXor (fun a b _ => a ^^^ b) ?_,
    bare vopShl (fun a b _ => BitVec.ofNat 32 (a.toNat * 2 ^ b.toNat)) ?_,
    bare vopShr (fun a b _ => BitVec.ofNat 32 (a.toNat / 2 ^ b.toNat)) ?_, bare vopAbs (fun a _ _ => a &&& 0x7fffffff) ?_,
    bare vopNeg (fun a _ _ => a ^^^ 0x80000000) ?_, bare vopCmp Config.vopCmp ?_, bare vopSel Config.vopSel ?_⟩
  · simp only [vopEff, vopLane, vopCvt, hf]
    rfl
  · simp only [vopEff, vopLane, vopCvt, hf]
    rfl
  · exact fun a b _ _ => ⟨rfl, ofNat_toNat_self _⟩
  · exact fun a b _ _ => ⟨rfl, ofNat_toNat_self _⟩
  · exact fun a b _ _ => ⟨rfl, ofNat_toNat_self _⟩
  · exact fun a b _ _ => ⟨rfl, (ofNat_toNat_self _).trans (shiftLeft_bits a b)⟩
  · exact fun a b _ _ => ⟨rfl, (ofNat_toNat_self _).trans (shiftRight_bits a b)⟩
  · exact fun a _ _ _ => ⟨rfl, clearSign_bits a⟩
  · exact fun a _ _ _ => ⟨rfl, ofNat_toNat_self _⟩
  · exact fun a b c _ => ⟨rfl, ofNat_toNat_self _⟩
  · exact fun a b c _ => ⟨rfl, ofNat_toNat_self _⟩

/-! ### LACC -/

/-- A table of a function is its map over the range. -/
theorem tab_eq_map {α : Type} (n : Nat) (f : Nat → α) : tab n f = (List.range n).map f := rfl

theorem LaccOps.targets_eq (o : LaccOps) :
    o.targets = if o.spread = 1 then (List.range 128).map (fun i => o.lidx + i) else [o.lidx] := rfl

/-- Settles O14, one outcome of issue for each operation. -/
theorem laccCompletes : Obligations.LaccCompletes := by
  intro s t h o hi
  refine ⟨fun hok => next_issue_done hi hok rfl, fun hok => next_issue_done hi hok rfl,
    fun hok => ⟨fun ha => next_issue_done hi hok (if_pos ha), fun ha => next_issue_fault hi hok (if_neg ha)⟩,
    fun hok hd => next_issue_done hi hok (if_neg ?_)⟩
  have hle : (laccDivisor o ((s.issued t h).ctx t)).getD 0 ≤ 2 ^ 32 := by
    unfold laccDivisor
    split
    · exact Nat.zero_le _
    · next hz => exact hd.resolve_left hz
  simpa using hle

/-! ### What issue and retirement keep -/

theorem State.issued_keeps (s : State) (t : Site) (h : Hdr) : Keeps [.cores] s (s.issued t h) := by
  have hs : Keeps [.cores] s (if h.wait = 0 then s else s.setSem t.core h.wait (s.sem t.core h.wait - 1)) :=
    (Keeps.refl _ _).ite (State.setSem_keeps ..)
  exact hs.ite ((State.setCtx_keeps ..).after rfl hs)

theorem State.retired_keeps (s : State) (t : Site) (h : Hdr) (f : InFlight) (moves : Bool) :
    Keeps [.regs, .cores] s (s.retired t h f moves) := by
  have h1 : Keeps [.regs, .cores] s (if moves then s.setCtx t (s.ctx t).advance else s) :=
    ((State.setCtx_keeps ..).after rfl (Keeps.refl _ _)).ite (Keeps.refl _ _)
  have h2 := (State.track_keeps _ t.core { f with ctx := t.ctx, signal := h.signal }).after rfl h1
  exact ((State.haltPoint_keeps ..).after rfl h2).ite h2

@[simp] theorem State.issued_mem (s : State) (t : Site) (h : Hdr) : (s.issued t h).mem = s.mem :=
  (State.issued_keeps s t h).same .mem rfl

@[simp] theorem State.issued_regs (s : State) (t : Site) (h : Hdr) : (s.issued t h).regs = s.regs :=
  (State.issued_keeps s t h).same .regs rfl

@[simp] theorem State.fld_issued (s : State) (t : Site) (h : Hdr) (f : Field) : (s.issued t h).fld f = s.fld f := by
  rw [State.fld, State.reg, State.issued_regs]
  rfl

@[simp] theorem State.retired_mem (s : State) (t : Site) (h : Hdr) (f : InFlight) (moves : Bool) :
    (s.retired t h f moves).mem = s.mem :=
  (State.retired_keeps s t h f moves).same .mem rfl

/-! ### Lists of checks -/

theorem Status.lowest_ok {l : List Status} (h : ∀ x ∈ l, x = .ok) : Status.lowest l = .ok := by
  unfold Status.lowest
  induction l with
  | nil => rfl
  | cons x l ih =>
    rw [List.foldl_cons, h x List.mem_cons_self]
    exact ih fun y hy => h y (List.mem_cons_of_mem _ hy)

/-- Where no check of a list fails, neither does the list. -/
theorem firstLowest_ok {l : List (Status × Nat)} (h : ∀ p ∈ l, p.1 = .ok) : firstLowest l = (.ok, 0) := by
  unfold firstLowest
  induction l with
  | nil => rfl
  | cons x l ih =>
    rw [List.foldl_cons, if_neg (by simp [h x List.mem_cons_self])]
    exact ih fun y hy => h y (List.mem_cons_of_mem _ hy)

theorem firstLowest_pair_ok {p q : Status × Nat} (hp : p.1 = .ok) (hq : q.1 = .ok) : firstLowest [p, q] = (.ok, 0) :=
  firstLowest_ok (by simp [hp, hq])

/-! ### LD and ST -/

theorem State.byte_putNum_out (s : State) {a n b : Nat} (v : Nat) (h : b < a ∨ a + n ≤ b) : (s.putNum a n v).byte b = s.byte b :=
  SMap.get_putList_out _ _ (by rw [length_leBytes]; exact h)

/-- What a byte reads as after numbers of one length were stored at places that lie apart. -/
theorem State.byte_foldl_putNum_out (s : State) {n a : Nat} (place v : Nat → Nat) {l : List Nat}
    (h : ∀ x ∈ l, a < place x ∨ place x + n ≤ a) : (l.foldl (fun x i => x.putNum (place i) n (v i)) s).byte a = s.byte a := by
  induction l generalizing s with
  | nil => rfl
  | cons i l ih =>
    rw [List.foldl_cons, ih _ fun x hx => h x (List.mem_cons_of_mem _ hx), State.byte_putNum_out _ _ (h i List.mem_cons_self)]

theorem State.foldl_putNum_keeps (s : State) (n : Nat) (place v : Nat → Nat) (l : List Nat) :
    Keeps [.mem] s (l.foldl (fun x i => x.putNum (place i) n (v i)) s) :=
  Keeps.foldl (fun _ _ hk => (State.putNum_keeps ..).after rfl hk) (Keeps.refl _ _)

theorem State.byte_foldl_putNum_in {s : State} (hs : s.memWf = true) {n k i : Nat} (place v : Nat → Nat) {l : List Nat}
    (hi : i ∈ l) (hl : l.Pairwise (fun x y => place x + n ≤ place y)) (hk : k < n) :
    (l.foldl (fun x i => x.putNum (place i) n (v i)) s).byte (place i + k) = BitVec.ofNat 8 (bits (v i) (8 * k + 7) (8 * k)) := by
  induction l generalizing s with
  | nil => simp at hi
  | cons j l ih =>
    rw [List.pairwise_cons] at hl
    rw [List.foldl_cons]
    rcases List.mem_cons.1 hi with rfl | hi
    · rw [State.byte_foldl_putNum_out _ _ _ fun x hx => .inl (by have := hl.1 x hx; omega), State.byte_putNum hs _ _ _ hk]
    · exact ih ((State.putNum_keeps ..).memWf hs) hi hl.2

theorem State.lanes_pairwise (s : State) (t : Site) (m : Nat) : (s.lanes t m).Pairwise (· < ·) :=
  List.pairwise_lt_range.filter _

theorem ofNat_bits_byte (v k : Nat) : BitVec.ofNat 8 (bits v (8 * k + 7) (8 * k)) = BitVec.ofNat 8 (v / 256 ^ k) := by
  apply BitVec.eq_of_toNat_eq
  rw [BitVec.toNat_ofNat, BitVec.toNat_ofNat, bits_eq, show 8 * k + 7 + 1 - 8 * k = 8 by omega, Nat.mod_mod, Nat.pow_mul]

theorem lanePlace_apart {core off n x y : Nat} (h : x < y) : csAddr core (off + x * n) + n ≤ csAddr core (off + y * n) := by
  have := Nat.mul_le_mul_right n (Nat.succ_le_of_lt h)
  rw [Nat.succ_mul] at this
  unfold csAddr
  omega

/-- Settles O15: the lanes' places lie apart, so each keeps what was stored there. -/
theorem loadAndStoreLanes : Obligations.LoadAndStoreLanes := by
  intro s t h o hi hok s1 c w lanes place hf hr
  have hl : (s1.laneCheck t o lanes).1 = .ok := congrArg _ (firstLowest_pair_ok (p := (_, _)) hf hr)
  refine ⟨next_issue_done hi hok (if_neg (not_not_intro hl)), next_issue_done hi hok (if_neg (not_not_intro hl)), ?_, ?_, ?_⟩
  · intro a ha
    rw [State.byte, State.retired_mem, ← State.byte, State.byte_foldl_putNum_out _ _ _ ha, State.byte, State.issued_mem]
    rfl
  · intro hm l hlm i hiw
    rw [State.byte, State.retired_mem, ← State.byte, State.byte_foldl_putNum_in ((State.issued_keeps s t h).memWf hm) _ _ hlm
      ((State.lanes_pairwise ..).imp lanePlace_apart) hiw, ofNat_bits_byte]
  · exact (State.retired_keeps ..).after rfl ((State.foldl_putNum_keeps ..).after rfl ((State.issued_keeps s t h).after rfl (Keeps.refl _ _)))

/-! ### SFN -/

/-- Settles O16, one outcome of issue for each function. -/
theorem sfnFunctionsComplete : Obligations.SfnFunctionsComplete := by
  intro s t h o hi
  refine ⟨?_, fun hok => next_issue_done hi hok ?_, fun hok => next_issue_done hi hok rfl, fun hok => next_issue_done hi hok rfl,
    fun hok => next_issue_done hi hok rfl, fun hok => next_issue_done hi hok rfl⟩
  · simp only [List.forall_mem_cons]
    refine ⟨?_, ?_, ?_, ?_, ?_, ?_, ?_, ?_, ?_, ?_, ?_, ?_, ?_, ?_, by simp⟩
    all_goals exact fun hok => next_issue_done hi hok rfl
  · rw [State.fld_issued]
    rfl

theorem LongAcc.merge_verify {x y : LongAcc} (h : y.product ≠ x.product) : x.merge y = (.verify, x) := if_pos (Ne.symm h)

theorem LongAcc.merge_window {x y : LongAcc} (h : y.product = x.product) (hc : longLimit y.product < x.count + y.count) :
    x.merge y = (.window, x) := by
  rw [h] at hc
  rw [LongAcc.merge, if_neg (by simp [h]), if_pos hc]

theorem LongAcc.merge_ok {x y : LongAcc} (h : y.product = x.product) (hc : x.count + y.count ≤ longLimit y.product) :
    x.merge y = (.ok, { x with
      value := heldIn 320 (x.value + y.value), cut := min 2 (x.cut + y.cut), sticky := x.sticky || y.sticky, nan := x.nan || y.nan,
      invalid := x.invalid || y.invalid, pinf := x.pinf || y.pinf, ninf := x.ninf || y.ninf, count := x.count + y.count }) := by
  rw [h] at hc
  rw [LongAcc.merge, if_neg (by simp [h]), if_neg (by omega)]

/-- Settles O17: an LMERGE ends as the merge of the two accumulators does. -/
theorem longAccumulatorImages : Obligations.LongAccumulatorImages := by
  intro s t h o hi s1 w a k hf hr
  have hl : (s1.imageReach t w).1 = .ok := congrArg _ (firstLowest_pair_ok (p := (_, _)) hf hr)
  refine ⟨fun hok => next_issue_done hi hok (if_neg (not_not_intro hl)), fun hok => ⟨fun hn => next_issue_fault hi hok ?_, fun y hy =>
    ⟨fun hp => next_issue_fault hi hok ?_, fun hp => ⟨fun hc => next_issue_fault hi hok ?_, fun hc => next_issue_done hi hok ?_⟩⟩⟩⟩
  all_goals refine (if_neg (not_not_intro hl)).trans ?_
  · rw [hn]
  · rw [hy]
    exact congrArg (fun m : Status × LongAcc => if m.1 ≠ .ok then Eff.fault m.1 a s1 else _) (LongAcc.merge_verify hp)
  · rw [hy]
    exact congrArg (fun m : Status × LongAcc => if m.1 ≠ .ok then Eff.fault m.1 a s1 else _) (LongAcc.merge_window hp hc)
  · rw [hy]
    exact congrArg (fun m : Status × LongAcc => if m.1 ≠ .ok then _ else Eff.done (s1.setCore t.core (k.setLacc o.lidx m.2)))
      (LongAcc.merge_ok hp hc)

/-! ### RNG draws -/

section
variable {o : RngOps} {nm : StreamName} (hn : s.streamName t o.nameReg = some nm)
include hn

/-- With a good name only the word index can stop a draw: past its last word with BOUNDS, else above 16 bits with VERIFY. -/
theorem State.drawStatus_of_name (n : Nat) : s.drawStatus t o n =
    if 65535 < ((s.ctx t).sreg o.wordSreg).toNat % 65536 + n - 1 then .bounds
    else if 65535 < ((s.ctx t).sreg o.wordSreg).toNat then .verify else .ok := by
  have hl (p q : Prop) [Decidable p] [Decidable q] :
      Status.lowest [Status.when false .verify, Status.when (decide p) .verify, Status.when (decide q) .bounds]
        = if q then .bounds else if p then .verify else .ok := by
    by_cases hp : p <;> by_cases hq : q <;> simp only [hp, hq] <;> rfl
  rw [State.drawStatus, hn]
  exact hl _ _

omit hn in
theorem rngEff_fault {d : Draw} {st : Status} (h : s.drawStatus t o d.words = st) (hst : st ≠ .ok) :
    rngEff d t o s = .fault st (s.pcAddr t) s := by
  rw [← h] at hst ⊢
  exact if_pos hst

theorem rngEff_one {d : Draw} (h : s.drawStatus t o d.words = .ok) (hd : d.second = none) :
    rngEff d t o s = .done (s.setCtx t ((s.ctx t).setLanes o.vd (s.lanes t o.mask) (fun l =>
      BitVec.ofNat 32 (d.first (fun i => nm.word (128 * o.subBase + l) (((s.ctx t).sreg o.wordSreg).toNat + i)))))) := by
  refine (if_neg (not_not_intro h)).trans ?_
  rw [hn, hd]
  rfl

theorem rngEff_two {d : Draw} {g : (Nat → Nat) → Nat} (h : s.drawStatus t o d.words = .ok) (hd : d.second = some g) :
    rngEff d t o s = .done (s.setCtx t (((s.ctx t).setLanes o.vd (s.lanes t o.mask) (fun l =>
      BitVec.ofNat 32 (d.first (fun i => nm.word (128 * o.subBase + l) (((s.ctx t).sreg o.wordSreg).toNat + i))))).setLanes
        (o.vd + 1) (s.lanes t o.mask) (fun l =>
      BitVec.ofNat 32 (g (fun i => nm.word (128 * o.subBase + l) (((s.ctx t).sreg o.wordSreg).toNat + i)))))) := by
  refine (if_neg (not_not_intro h)).trans ?_
  rw [hn, hd]
  rfl

end

/-- Settles O18: a draw's word index decides whether it faults, and its name where it reads. -/
theorem randomDrawsComplete : Obligations.RandomDrawsComplete := by
  intro s t h o hi s1 c lanes first here nm hn word result
  have hs (n : Nat) : s1.drawStatus t o n = if 65535 < first % 65536 + n - 1 then .bounds
    else if 65535 < first then .verify else .ok := State.drawStatus_of_name hn n
  have one : s1.drawStatus t o 1 = if 65535 < first then .verify else .ok := by
    rw [hs, if_neg (by omega)]
  refine ⟨?_, fun hok => ⟨fun hb => ?_, fun hv hb => ?_, fun hl => ?_⟩⟩
  · simp only [List.forall_mem_cons]
    have draw (d : Draw) {f : Nat} (h1 : d.words = 1) (h2 : d.second = none) (hok : o.ok f = true) :
        (first ≤ 65535 → (.next (s.issueAs t h (plainFlight t h) true (o.ok f) (rngEff d t o)) : Host.Outcome State Fault Refusal)
            = .next (result (fun l => d.first (word l))))
        ∧ (65535 < first → (.next (s.issueAs t h (plainFlight t h) true (o.ok f) (rngEff d t o)) : Host.Outcome State Fault Refusal)
            = .next (s1.coreFault t.core .verify here)) := by
      rw [← h1] at one
      exact ⟨fun hl => next_issue_done hi hok (rngEff_one hn (one.trans (if_neg (by omega))) h2),
        fun hv => next_issue_fault hi hok (rngEff_fault (one.trans (if_pos hv)) (by decide))⟩
    exact ⟨draw drawBits rfl rfl, draw drawUniform rfl rfl, draw drawUniformOpen rfl rfl, draw drawNormalFast rfl rfl, by simp⟩
  · exact next_issue_fault hi hok (rngEff_fault ((hs 2).trans (if_pos (by omega))) (by decide))
  · exact next_issue_fault hi hok (rngEff_fault ((hs 2).trans ((if_neg (by omega)).trans (if_pos hv))) (by decide))
  · exact next_issue_done hi hok (rngEff_two (d := drawNormalPrecise s.sfuGen) hn ((hs 2).trans ((if_neg (by omega)).trans (if_neg (by omega)))) rfl)

end Sys2Proof.Machine
end

