-- ==== Sys2Proof/Proofs/MatrixInsns.lean ====
section
/-! PROOFS. The matrix engine's instructions, the accumulator file and the exchange slots. -/

namespace Sys2Proof.Machine
open Sys2Proof.Claims

variable {s : State} {t : Site} {h : Hdr} {f : InFlight} {moves ok : Bool} {body : State → Eff}

/-! ### The outcome of an instruction with a record of its own, and of one that waits -/

theorem next_issueAs_done {s1 : State} (hi : s.issues t h f = true) (hok : ok = true) (hb : body (s.issued t h) = .done s1) :
    (.next (s.issueAs t h f moves ok body) : Host.Outcome State Fault Refusal) = .next (s1.retired t h (atPc s t f) moves) :=
  congrArg _ (State.issueAs_done hi hok hb)

theorem next_issueAs_fault {s1 : State} {st : Status} {a : Nat} (hi : s.issues t h f = true) (hok : ok = true)
    (hb : body (s.issued t h) = .fault st a s1) :
    (.next (s.issueAs t h f moves ok body) : Host.Outcome State Fault Refusal) = .next (s1.coreFault t.core st a) :=
  congrArg _ (State.issueAs_fault hi hok hb)

theorem next_issueAs_hold {s1 : State} {on : HeldFor} (hi : s.issues t h f = true) (hok : ok = true)
    (hb : body (s.issued t h) = .hold on s1) :
    (.next (s.issueAs t h f moves ok body) : Host.Outcome State Fault Refusal) = .next (heldFor s1 s t on f) :=
  congrArg _ (State.issueAs_hold hi hok hb)

/-- What a waiting instruction of a running core goes on to. -/
theorem State.resume_of_held {op : HeldOp} {x : HeldInsn} (hx : (s.ctx t).heldOp op = some x) (hr : s.coreRuns t.core = true) :
    s.resume t h f op body = (body (woken s t x)).settleHeld t h f (s.ctx t) x := by
  rw [State.resume, hx]
  exact if_pos hr

theorem next_resume_done {op : HeldOp} {x : HeldInsn} {u : State} (hx : (s.ctx t).heldOp op = some x)
    (hr : s.coreRuns t.core = true) (hb : body (woken s t x) = .done u) :
    (.next (s.resume t h f op body) : Host.Outcome State Fault Refusal) = .next (wokenDone s u t h f x) := by
  rw [State.resume_of_held hx hr, hb]
  rfl

/-! ### MMA -/

section
variable {mode : Nat} {slot : Option Nat} {go : State → Eff} (hr : (s.slotRead t.core slot).1 = .ok)
include hr

/-- With its slot's words good, a matrix instruction waits for posts that are missing. -/
theorem State.atSlot_hold (hm : s.postsMissing mode slot = true) : s.atSlot t mode slot go = .hold (.slot (slot.getD 0)) s := by
  rw [State.atSlot]
  exact (if_neg (not_not_intro hr)).trans (if_pos hm)

theorem State.atSlot_verify (hm : s.postsMissing mode slot = false) (hw : s.postsWrong mode slot = true) :
    s.atSlot t mode slot go = .fault .verify (slot.getD 0) s :=
  (if_neg (not_not_intro hr)).trans ((if_neg (by simp [hm])).trans (if_pos hw))

theorem State.atSlot_go (hm : s.postsMissing mode slot = false) (hw : s.postsWrong mode slot = false) :
    s.atSlot t mode slot go = go (s.slotRead t.core slot).2 :=
  (if_neg (not_not_intro hr)).trans ((if_neg (by simp [hm])).trans (if_neg (by simp [hw])))

end

theorem State.matrixStep_done {x : Tile} {fmt : Nat} {clear : Bool} {src : AnchorFrom} {tt : Int}
    {as' bs : List (Nat × List (List FVal) × Int)} {c : Option Word} {slot : Option Nat} {w : List (Nat × WideEntry)}
    (hw : s.accumulate t.core x fmt clear src tt as' bs c = some w) :
    s.matrixStep t x fmt clear src tt as' bs c slot = .done (matrixDone s t.core x.bank slot w) := by
  rw [State.matrixStep, hw]
  rfl

theorem State.matrixStep_fault {x : Tile} {fmt : Nat} {clear : Bool} {src : AnchorFrom} {tt : Int}
    {as' bs : List (Nat × List (List FVal) × Int)} {c : Option Word} {slot : Option Nat}
    (hw : s.accumulate t.core x fmt clear src tt as' bs c = none) :
    s.matrixStep t x fmt clear src tt as' bs c slot = .fault .window (s.outAddr t) s := by
  rw [State.matrixStep, hw]

/-- An MMA whose operands are good is judged at its slot. -/
theorem mmaEff_ready {o : MmaOps} (hr : MmaReady s t o) :
    mmaEff t o s = s.atSlot t o.anchorMode (s.slotOf t o.xslotReg) (fun y =>
      y.matrixStep t (mmaTile s t o) o.fmtA (decide (o.clear = 1)) (anchorSource o.anchorMode o.anchor (s.slotOf t o.xslotReg))
        (pairT o.fmtA o.fmtB) (y.readRows t.core (s.mmaA t o) (mmaTile s t o).rows)
        (y.readRows t.core (s.mmaB t o) (mmaTile s t o).cols) (mmaC s t o) (s.slotOf t o.xslotReg)) :=
  if_neg (not_not_intro hr.1)

theorem mmaEff_done {o : MmaOps} {w : List (Nat × WideEntry)} (hr : MmaReady s t o)
    (hm : s.postsMissing o.anchorMode (s.slotOf t o.xslotReg) = false) (hk : s.postsWrong o.anchorMode (s.slotOf t o.xslotReg) = false)
    (hw : mmaEntries (s.slotRead t.core (s.slotOf t o.xslotReg)).2 s t o = some w) :
    mmaEff t o s = .done (matrixDone (s.slotRead t.core (s.slotOf t o.xslotReg)).2 t.core (mmaTile s t o).bank
      (s.slotOf t o.xslotReg) w) := by
  rw [mmaEff_ready hr, State.atSlot_go hr.2 hm hk]
  exact State.matrixStep_done hw

/-- Settles O19: at issue and after its wait the same effect is judged at the slot. -/
theorem matrixMultiplyCompletes : Obligations.MatrixMultiplyCompletes := by
  intro s t h o
  refine ⟨fun hok hi hr => ⟨fun hm hk => ⟨fun w hw => next_issueAs_done hi hok (mmaEff_done hr hm hk hw), fun hw => ?_⟩,
    fun a ha => ⟨fun hm => ?_, fun hm hk => ?_⟩⟩, fun x hx hc hr hm hk w hw => next_resume_done hx hc (mmaEff_done hr hm hk hw)⟩
  · refine next_issueAs_fault hi hok ?_
    rw [mmaEff_ready hr, State.atSlot_go hr.2 hm hk]
    exact State.matrixStep_fault hw
  · refine next_issueAs_hold hi hok ?_
    rw [mmaEff_ready hr, State.atSlot_hold hr.2 hm, show (s.issued t h).slotOf t o.xslotReg = some a from ha]
    rfl
  · refine next_issueAs_fault hi hok ?_
    rw [mmaEff_ready hr, State.atSlot_verify hr.2 hm hk, show (s.issued t h).slotOf t o.xslotReg = some a from ha]
    rfl

/-! ### DRAIN -/

/-- A DRAIN whose operands and slot are good waits while a merge is missing, and else is done. -/
theorem drainEff_ready {o : DrainOps} (hr : DrainReady s t o) :
    drainEff t o s = if ((s.drainSlot t o).map s.mergesMissing).getD false then .hold (.slot ((s.drainSlot t o).getD 0)) s
      else .done (drainDone s t o) :=
  (if_neg (not_not_intro hr.1)).trans (if_neg (not_not_intro hr.2))

theorem drainEff_done {o : DrainOps} (hr : DrainReady s t o) (hm : ((s.drainSlot t o).map s.mergesMissing).getD false = false) :
    drainEff t o s = .done (drainDone s t o) := by
  rw [drainEff_ready hr, hm]
  rfl

/-- Settles O20. -/
theorem drainCompletes : Obligations.DrainCompletes := by
  intro s t h o
  refine ⟨fun hok hi hr => ⟨fun hm => next_issueAs_done hi hok (drainEff_done hr hm), fun a ha hm => next_issueAs_hold hi hok ?_⟩,
    fun x hx hc hr hm => next_resume_done hx hc (drainEff_done hr hm)⟩
  rw [drainEff_ready hr, show (s.issued t h).drainSlot t o = some a from ha]
  exact if_pos hm

/-! ### CLEARB, XMAX and XMERGE -/

/-- Banks cleared in turn: no entry of any of them is left. -/
theorem Core.foldl_clearBank (k : Core) (l : List Nat) :
    l.foldl Core.clearBank k = { k with wide := k.wide.filter (fun p => !l.contains (bankOfKey p.1)) } := by
  induction l generalizing k with
  | nil => exact congrArg (fun w => { k with wide := w }) (List.filter_eq_self.mpr fun _ _ => rfl).symm
  | cons b l ih =>
    rw [List.foldl_cons, ih]
    simp only [Core.clearBank, List.filter_filter]
    congr 2
    funext p
    by_cases hb : bankOfKey p.1 = b <;> simp [hb]

/-- Settles O21. -/
theorem exchangeInstructionsComplete : Obligations.ExchangeInstructionsComplete := by
  intro s t h
  refine ⟨fun o hok hi => next_issueAs_done hi hok ?_, fun o hok hi hc => next_issueAs_done hi hok (if_neg (not_not_intro hc)),
    fun o hok hi hb hs => next_issueAs_done hi hok (if_neg ?_)⟩
  · rw [clearbEff, Core.foldl_clearBank]
  · rw [firstLowest_pair_ok ?_ hs]
    · simp
    · exact congrArg (fun b => Status.when (!b) .verify) hb

/-! ### The slot's atomic unit -/

/-- A post to a slot that can be read and with which it agrees is applied, and then judged by the number of posts. -/
def State.postApplied (s : State) (core : Nat) (p : SlotPost) : State :=
  let s1 := if decide (s.slotParts p.slot = 0) then (s.putNum p.slot 2 p.parts).putNum (p.slot + 16) 8 p.kDecl else s
  let s2 := p.cols.foldl (fun x r => x.raise16 (p.slot + 288 + 2 * r.1) r.2)
    (p.rows.foldl (fun x r => x.raise16 (p.slot + 32 + 2 * r.1) r.2) s1)
  let s3 := (s2.putNum (p.slot + 24) 8 (s2.slotKSum p.slot + p.k)).putNum (p.slot + 2) 2 (s2.slotPosted p.slot + 1)
  if p.part = 0 then (s3.putNum (p.slot + 6) 2 core).putNum (p.slot + 8) 1 p.bank else s3

section
variable {core : Nat} {p : SlotPost} (hr : (s.slotRead core (some p.slot)).1 = .ok)
include hr

theorem State.applyPost_agrees (ha : decide (s.slotParts p.slot = 0) = true ∨
    (s.slotParts p.slot = p.parts ∧ s.slotKDecl p.slot = p.kDecl)) :
    s.applyPost core p = (if (s.postApplied core p).slotParts p.slot < (s.postApplied core p).slotPosted p.slot then .verify else .ok,
      s.postApplied core p) := by
  refine (if_neg (not_not_intro hr)).trans (if_neg ?_)
  rcases ha with h0 | ⟨hp, hk⟩
  · simp [h0]
  · simp [hp, hk]

theorem State.applyPost_ok (ha : decide (s.slotParts p.slot = 0) = true ∨
    (s.slotParts p.slot = p.parts ∧ s.slotKDecl p.slot = p.kDecl))
    (hn : (s.postApplied core p).slotPosted p.slot ≤ (s.postApplied core p).slotParts p.slot) :
    s.applyPost core p = (.ok, s.postApplied core p) := by
  rw [State.applyPost_agrees hr ha, if_neg (Nat.not_lt.mpr hn)]

theorem State.applyPost_many (ha : decide (s.slotParts p.slot = 0) = true ∨
    (s.slotParts p.slot = p.parts ∧ s.slotKDecl p.slot = p.kDecl))
    (hn : (s.postApplied core p).slotParts p.slot < (s.postApplied core p).slotPosted p.slot) :
    s.applyPost core p = (.verify, s.postApplied core p) := by
  rw [State.applyPost_agrees hr ha, if_pos hn]

theorem State.applyPost_refused (ha : ¬ (decide (s.slotParts p.slot = 0) = true ∨
    (s.slotParts p.slot = p.parts ∧ s.slotKDecl p.slot = p.kDecl))) : s.applyPost core p = (.verify, s) := by
  refine (if_neg (not_not_intro hr)).trans (if_pos ?_)
  obtain ⟨h0, hpk⟩ := not_or.mp ha
  simp only [Bool.and_eq_true, Bool.or_eq_true, decide_eq_true_eq, Bool.not_eq_true']
  exact ⟨Bool.eq_false_iff.mpr h0, Classical.not_and_iff_not_or_not.mp hpk⟩

end

section
variable {p : SlotPost} {u : State} (hp : (s.ctx t).post = some p)
include hp

/-- XMAX_SLOT_POST ends as the atomic unit's post does. -/
theorem exec_xmaxSlotPost_ok (hr : ((s.setCtx t { s.ctx t with post := none }).exchDone t).applyPost t.core p = (.ok, u)) :
    exec (.xmaxSlotPost t) s = .next (u.settleEnd t.core) := by
  change execXmaxSlotPost t s = _
  rw [execXmaxSlotPost, hp]
  simp only [hr, if_true]

theorem exec_xmaxSlotPost_verify (hr : ((s.setCtx t { s.ctx t with post := none }).exchDone t).applyPost t.core p = (.verify, u)) :
    exec (.xmaxSlotPost t) s = .next (u.coreFault t.core .verify p.slot) := by
  change execXmaxSlotPost t s = _
  rw [execXmaxSlotPost, hp]
  simp only [hr, reduceCtorEq, if_false]

end

/-- Settles O22: a post ends as `applyPost` does, a merge as `mergeEntries` does. -/
theorem slotPostAndMerge : Obligations.SlotPostAndMerge := by
  intro s t
  refine ⟨fun p hp hr => ⟨fun ha hn => exec_xmaxSlotPost_ok hp (State.applyPost_ok hr ha hn),
      fun ha hn => exec_xmaxSlotPost_verify hp (State.applyPost_many hr ha hn),
      fun ha => exec_xmaxSlotPost_verify hp (State.applyPost_refused hr ha)⟩,
    fun g hg => ⟨fun ha => ?_, fun ha hr => ⟨fun hm => ?_, fun hm => ?_⟩⟩⟩
  all_goals change execXmergeOwnerMerge t s = _; rw [execXmergeOwnerMerge, hg]
  · exact congrArg _ (if_pos (by simpa using ha))
  · exact congrArg _ ((if_neg (by simpa using ha)).trans ((if_neg (not_not_intro hr)).trans (if_neg (not_not_intro hm))))
  · exact congrArg _ ((if_neg (by simpa using ha)).trans ((if_neg (not_not_intro hr)).trans (if_pos hm)))

end Sys2Proof.Machine
end

