-- ==== Sys2Proof/Proofs/Moves.lean ====
section
/-! PROOFS. MOVE, and the completion of instructions in flight. -/

namespace Sys2Proof.Machine
open Sys2Proof.Claims

variable {s : State} {t : Site} {h : Hdr}

/-! ### Issue with a record that the effect gives -/

section
variable {unit : UnitClass} {ok : Bool} {body : State → Eff × List Nat × Option (Nat × Nat)}
  (hi : s.issues t { h with signal := 0 } { plainFlight t h with unit } = true) (hok : ok = true) (hs : h.signal < 64)
include hi hok hs

theorem next_issueMove_done {u : State} {ids : List Nat} {cm : Option (Nat × Nat)} (hb : body (s.issued t h) = (.done u, ids, cm)) :
    (.next (s.issueMove t h unit ok body) : Host.Outcome State Fault Refusal)
      = .next (launched s u t h { plainFlight t h with unit } ((s.issued t h).moveFlight t h ids cm)) := by
  refine next_issueAs_done hi (by simp [hok, hs]) ?_
  change (match body (s.issued t h) with
    | (.done s2, ids, com) => _
    | (e, _, _) => e) = _
  rw [hb]
  rfl

theorem next_issueMove_fault {u : State} {st : Status} {a : Nat} {ids : List Nat} {cm : Option (Nat × Nat)}
    (hb : body (s.issued t h) = (.fault st a u, ids, cm)) :
    (.next (s.issueMove t h unit ok body) : Host.Outcome State Fault Refusal) = .next (u.coreFault t.core st a) := by
  refine next_issueAs_fault hi (by simp [hok, hs]) ?_
  change (match body (s.issued t h) with
    | (.done s2, ids, com) => Eff.done _
    | (e, _, _) => e) = _
  rw [hb]

end

/-! ### The effect of MOVE -/

section
variable {src dst n : Nat}

theorem moveStart_good (hn : n ≠ 0) (hc : (s.moveCheck t src dst n).1 = .ok) :
    moveStart t src dst n s = s.committed t (if fabModule dst = s.moduleId then s.commitOf t (fabLocal dst) n else none)
      (fun v => v.moveNow t src dst n (if fabModule dst = s.moduleId then s.commitOf t (fabLocal dst) n else none)) :=
  (if_neg hn).trans (if_neg (not_not_intro hc))

section
variable {go : State → Eff × List Nat × Option (Nat × Nat)} {a b : Nat} (hb : b < 64)
  (hr : (s.readCheck s.coreClass (.core t.core) a 8).1 = .ok)
include hb hr

theorem State.committed_landed (hl : bit (s.num a 8) b = true) :
    s.committed t (some (a, b)) go = (.done ((s.readCheck s.coreClass (.core t.core) a 8).2.nextWrite t).countSkipped, [], none) :=
  (if_neg (by omega)).trans ((if_neg (not_not_intro hr)).trans (if_pos hl))

theorem State.committed_made (hl : bit (s.num a 8) b = false) :
    s.committed t (some (a, b)) go = go ((s.readCheck s.coreClass (.core t.core) a 8).2.nextWrite t) :=
  (if_neg (by omega)).trans ((if_neg (not_not_intro hr)).trans (if_neg (by simp [hl])))

end

/-- The state in which a write goes on that is no committed one, or one that has not landed. -/
theorem State.committed_go {go : State → Eff × List Nat × Option (Nat × Nat)} {com : Option (Nat × Nat)} {v : State}
    (hv : (com = none ∧ v = s) ∨ ∃ a b, com = some (a, b) ∧ b < 64 ∧ (s.readCheck s.coreClass (.core t.core) a 8).1 = .ok
      ∧ bit (s.num a 8) b = false ∧ v = (s.readCheck s.coreClass (.core t.core) a 8).2.nextWrite t) :
    s.committed t com go = go v := by
  rcases hv with ⟨rfl, rfl⟩ | ⟨a, b, rfl, hb, hr, hl, rfl⟩
  · rfl
  · exact State.committed_made hb hr hl

variable {com : Option (Nat × Nat)}

theorem State.moveNow_local {u : State} (hs : fabModule src = s.moduleId) (hd : fabModule dst = s.moduleId)
    (hc : s.jobCopy t.core (fabLocal src) (fabLocal dst) n = (.ok, u)) : s.moveNow t src dst n com = (.done u, [], com) := by
  rw [State.moveNow, if_pos (by simp [hs, hd]), hc]
  rfl

theorem State.moveNow_out {bytes : List Byte} {u : State} (hs : fabModule src = s.moduleId) (hd : fabModule dst ≠ s.moduleId)
    (hr : s.jobRead t.core (fabLocal src) n = (.ok, bytes, u)) :
    s.moveNow t src dst n com = (.done (u.injectAll (s.moveTrans t.core src dst n bytes)).2,
      (u.injectAll (s.moveTrans t.core src dst n bytes)).1, com) := by
  rw [State.moveNow, if_neg (by simp [hd])]
  simp only [if_pos hs, hr]
  rfl

theorem State.moveNow_in (hs : fabModule src ≠ s.moduleId) :
    s.moveNow t src dst n com = (.done (s.injectAll (s.moveTrans t.core src dst n [])).2,
      (s.injectAll (s.moveTrans t.core src dst n [])).1, com) := by
  rw [State.moveNow, if_neg (by simp [hs])]
  simp only [if_neg hs]
  rfl

end

/-! ### Completion -/

section
variable {core index : Nat} {f : InFlight} (hf : (s.core core).inflight[index]? = some f) (hr : f.remote = []) (he : f.exch = false)
  (hn : f.isNest = true → (s.ctx ⟨core, 0⟩).joined = false)
include hf hr he hn

/-- An instruction in flight that waits for nothing completes. -/
theorem execInstructionComplete_ready : execInstructionComplete core index s =
    (let s1 := s.setCore core { s.core core with inflight := dropNth (s.core core).inflight index }
     .next (if f.worst ≠ .ok then s1.coreFault core f.worst (csAddr core f.pc)
       else match f.commit with
         | none => (s1.signal core f.signal f.pc).settleHalt core
         | some (a, b) =>
           let rd := s1.readCheck s1.coreClass (.core core) a 8
           if rd.1 ≠ .ok then rd.2.coreFault core rd.1 a
           else ((rd.2.putNum a 8 (rd.2.num a 8 ||| 2 ^ b)).signal core f.signal f.pc).settleHalt core)) := by
  have hw : ¬ ((!f.remote.isEmpty || f.exch || (f.isNest && (s.ctx ⟨core, 0⟩).joined)) = true) := by
    cases hx : f.isNest <;> simp_all
  simp only [execInstructionComplete, hf]
  exact congrArg Host.Outcome.next (if_neg hw)

end

/-- What a signalled semaphore leaves: none is named, one below 65,535 rises, one at 65,535 faults. -/
theorem State.signal_cases (s : State) (core i pc : Nat) :
    (i = 0 → s.signal core i pc = s)
    ∧ (i ≠ 0 → s.sem core i < 65535 → s.signal core i pc = s.setSem core i (s.sem core i + 1))
    ∧ (i ≠ 0 → 65535 ≤ s.sem core i → s.signal core i pc = s.coreFault core .bounds (csAddr core pc)) :=
  ⟨fun h => if_pos h, fun h hl => (if_neg h).trans (if_neg (by omega)), fun h hl => (if_neg h).trans (if_pos hl)⟩

/-- Settles O23. -/
theorem moveAndCompletion : Obligations.MoveAndCompletion := by
  constructor
  · intro s t h o hok hs g hi s1 c src dst n own com done
    refine ⟨fun hn => next_issueMove_done hi hok hs (if_pos hn), fun hn hc => next_issueMove_fault hi hok hs
      ((if_neg hn).trans (if_pos hc)), fun hn hc => ⟨fun a b hcom hb hr hl => next_issueMove_done hi hok hs ?_, fun v hv hm => ?_⟩⟩
    · exact (moveStart_good hn hc).trans ((congrArg (s1.committed t · _) hcom).trans (State.committed_landed hb hr hl))
    · have hgo := (moveStart_good (t := t) hn hc).trans (State.committed_go hv)
      refine ⟨fun h1 h2 u hu => next_issueMove_done hi hok hs (hgo.trans ?_), fun h1 h2 bytes u hu =>
        next_issueMove_done hi hok hs (hgo.trans ?_), fun h1 h2 => next_issueMove_done hi hok hs (hgo.trans ?_)⟩
      · exact State.moveNow_local (h1.trans hm.symm) (h2.trans hm.symm) hu
      · exact State.moveNow_out (h1.trans hm.symm) (fun hx => h2 (hx.trans hm)) hu
      · exact State.moveNow_in (fun hx => h1 (hx.trans hm))
  · intro s core index f hf hr he hn s1 ends
    have hx : exec (.instructionComplete core index) s = _ := execInstructionComplete_ready hf hr he hn
    refine ⟨fun hw => hx.trans (congrArg _ (if_pos hw)), fun hw hc => ?_, fun hw a b hc hrd => ?_⟩
    all_goals
      rw [hc] at hx
      have hy := hx.trans (congrArg _ (if_neg (not_not_intro hw)))
    · obtain ⟨h0, h1, h2⟩ := State.signal_cases s1 core f.signal f.pc
      exact ⟨fun hz => by rw [hy, h0 hz], fun hz hl => by rw [hy, h1 hz hl], fun hz hl => by rw [hy, h2 hz hl]⟩
    · have hz := hy.trans (congrArg _ (if_neg (not_not_intro hrd)))
      obtain ⟨h0, h1, h2⟩ := State.signal_cases _ core f.signal f.pc
      exact ⟨fun hq => hz.trans (congrArg (fun x => Host.Outcome.next (x.settleHalt core)) (h0 hq)),
        fun hq hl => hz.trans (congrArg (fun x => Host.Outcome.next (x.settleHalt core)) (h1 hq hl)),
        fun hq hl => hz.trans (congrArg (fun x => Host.Outcome.next (x.settleHalt core)) (h2 hq hl))⟩

end Sys2Proof.Machine
end

