-- ==== Sys2Proof/Proofs/NestsAndSamples.lean ====
section
/-! PROOFS. Nests and their items, token sampling, and the two wait limits. -/

namespace Sys2Proof.Machine
open Sys2Proof.Claims

variable {s : State} {t : Site} {h : Hdr}

/-! ### NEST -/

section
variable {o : NestOps} {j : Job} {p : Program} {index : Nat} (hj : s.sched.run = some j) (hp : j.prog = some p) (hm : p.mode = 1)
  (ht : t.ctx = 0) (hb : (s.ctx t).inBody = false)
  (hx : (List.range p.nestPcs.length).find? (fun i => nth 0 p.nestPcs i = (s.ctx t).pc) = some index)
include hj hp hm ht hb hx

/-- At one of the job's NESTs context 0 passes a nest that has completed, joins the one that runs, or begins its own. -/
theorem nestEff_at : nestEff t o s =
    if j.passed t.core < j.nestsDone then
      .done ((s.setCtx t (s.ctx t).advance).mapJob (fun x => { x with runs := SMap.insert x.runs t.core (x.passed t.core + 1) }))
    else
      match j.nest with
      | some r => if r.pc = (s.ctx t).pc then .done (s.joinNest t r) else .wait s
      | none =>
        let r : RunNest := ⟨index, (s.ctx t).pc, o, NestDesc.ofNum (s.num (csAddr t.core o.descOff) 512), s.bodyHasAtt t.core o, [], []⟩
        .done ((s.prepareNest r).joinNest t r) := by
  simp only [nestEff, hj, hp, hx]
  exact if_neg (by simp [hm, ht, hb])

end

/-! ### ITEM_END -/

section
variable {r : RunNest} {it : Item} (hr : s.sched.run.bind (·.nest) = some r) (hi : (s.ctx t).item = some it)
  (hb : (s.ctx t).inBody = true) (hpc : (s.ctx t).pc = r.ops.bodyEnd) (hq : (s.core t.core).ctxQuiet t.ctx = true)
  (hh : (s.ctx t).halted = false) (hc : s.coreRuns t.core = true)
include hr hi hb hpc hq hh hc

/-- The end of an item whose instructions are complete is judged by its banks and slots, then by the counter's words. -/
theorem execItemEnd_quiet : execItemEnd t s = .next
    (if (s.bodyBanks t.core r.ops (t.ctx - r.ops.ctxFirst)).any (fun b => !(s.core t.core).bankEmpty b) || !(s.ctx t).slots.isEmpty then
        s.coreFault t.core .verify (s.pcAddr t)
      else match s.readChecks s.coreClass (.core t.core) (s.counterReads r t) with
        | (.ok, _, s1) => (s1.countItem r t it).nextItem t
        | (st, a, s1) => s1.coreFault t.core st a) := by
  simp only [execItemEnd, hr, hi]
  exact congrArg Host.Outcome.next (if_neg (by simp [hb, hpc, hq, hh, hc]))

end

theorem not_clean_iff (k : Core) (l : List Nat) (slots : List (Nat × Bool)) :
    (l.any (fun b => !k.bankEmpty b) || !slots.isEmpty) = !(l.all (fun b => k.bankEmpty b) && slots.isEmpty) := by
  rw [Bool.not_and, List.not_all_eq_any_not]

/-! ### NEST_COMPLETE -/

/-- A nest whose items are all done lets the cores that wait in it go on. -/
theorem execNestComplete_done {j : Job} {r : RunNest} (hj : s.sched.run = some j) (hn : j.nest = some r)
    (hd : s.num (s.counterAddr r.desc + 16) 8 = s.num (s.counterAddr r.desc + 8) 8) (hh : s.halting = false) (hw : s.nestWaits j ≠ [])
    (hr : (s.readCheck s.coreClass .module (s.counterAddr r.desc) 64).1 = .ok) :
    execNestComplete s = .next ((s.readCheck s.coreClass .module (s.counterAddr r.desc) 64).2.endNest (s.nestWaits j)) := by
  simp only [execNestComplete, hj, hn]
  rw [if_neg (by simp [hh, hw]), if_neg (not_not_intro hr), if_neg (not_not_intro hd)]

/-- Settles O27. -/
theorem nestsAndItems : Obligations.NestsAndItems := by
  refine ⟨?_, ?_, fun s j r hj hn hd hh hw hr => execNestComplete_done hj hn hd hh hw hr⟩
  · intro s t h o j p hok hjoined f hi s1 c inNest hj hp hm ht hb index hx
    have he := nestEff_at (o := o) hj hp hm ht hb hx
    have hend {u : State} (hu : nestEff t o s1 = .done u) : exec (.nest t h o) s = .next (inNest u) :=
      (congrArg Host.Outcome.next (if_neg (by simp [hjoined]))).trans (next_issueAs_done hi hok hu)
    refine ⟨fun hl => hend (he.trans (if_pos hl)), fun hl => ⟨fun r hr hpc => hend ?_, fun hn => hend ?_⟩⟩
    all_goals rw [he, if_neg (Nat.not_lt.mpr hl)]
    · rw [hr]
      exact if_pos hpc
    · rw [hn]
  · intro s t r it hr hi hb hpc hq hh hc clean rd u a hold done s1
    have he := execItemEnd_quiet hr hi hb hpc hq hh hc
    rw [not_clean_iff] at he
    refine ⟨fun hcl hrd => he.trans (congrArg _ ?_), fun hcl => he.trans (congrArg _ (if_pos (congrArg (!·) hcl)))⟩
    rw [if_neg (fun h => Bool.false_ne_true ((congrArg (!·) hcl).symm.trans h)),
      show s.readChecks s.coreClass (.core t.core) (s.counterReads r t) = (.ok, rd.2.1, rd.2.2) from Prod.ext hrd rfl]
    rfl

/-! ### Sampling and the wait limits -/

/-- A SAMPLE whose descriptor, name, row and record are good, and whose row reads and record writes without error. -/
theorem sampleEff_good {o : RngOps} {d : SampleDesc} {bytes : List Byte} {s2 s3 : State} (hd : s.csReach o.descOff 64 = .ok)
    (hdesc : SampleDesc.ofNum (s.num (csAddr t.core o.descOff) 64) = some d)
    (hg : d.greedy = false → o.nameReg ≠ 0 ∧ (s.streamName t o.nameReg).isSome = true)
    (hrow : s.sampleReach t.core (regAddr ((s.ctx t).sreg o.rowSreg)) d.eb (d.v * d.eb) readKinds = .ok)
    (hrec : s.recordReach t.core (regAddr ((s.ctx t).sreg o.outSreg)) = .ok)
    (hread : s.jobRead t.core (fabLocal (regAddr ((s.ctx t).sreg o.rowSreg))) (d.v * d.eb) = (.ok, bytes, s2)) {r : Sampled}
    (hr : sampleRow d s.sfuGen (elemsOf d.eb d.v (leNat bytes)) (((s.streamName t o.nameReg).map (fun x => x.take 0 64)).getD 0) = r)
    (hwrite : s2.jobWrite (fabLocal (regAddr ((s.ctx t).sreg o.outSreg))) r.record = (.ok, s3)) :
    sampleEff t o s =
      (let s1 := (s3.orFlags r.flags).bump Fld.RNG_COUNTS_SAMPLE_ROWS Fld.RNG_COUNTS_SAMPLE_SAT 1
       .done (if r.kept = 0 then s1.bump Fld.RNG_COUNTS_EMPTY_ROWS Fld.RNG_COUNTS_EMPTY_SAT 1 else s1)) := by
  have hname : Status.when (!d.greedy && (decide (o.nameReg = 0) || (s.streamName t o.nameReg).isNone)) .verify = .ok := by
    cases hz : d.greedy
    · obtain ⟨h1, h2⟩ := hg hz
      obtain ⟨x, hx⟩ := Option.isSome_iff_exists.1 h2
      simp [h1, hx, Status.when]
    · rfl
  have hbad : (firstLowest [(Status.when (!d.greedy && (decide (o.nameReg = 0) || (s.streamName t o.nameReg).isNone)) .verify, s.pcAddr t),
      (s.sampleReach t.core (regAddr ((s.ctx t).sreg o.rowSreg)) d.eb (d.v * d.eb) readKinds,
        fabLocal (regAddr ((s.ctx t).sreg o.rowSreg))),
      (s.recordReach t.core (regAddr ((s.ctx t).sreg o.outSreg)), fabLocal (regAddr ((s.ctx t).sreg o.outSreg)))]).1 = .ok :=
    congrArg _ (firstLowest_ok (by simp [hname, hrow, hrec]))
  subst hr
  simp only [sampleEff, if_pos hd, hdesc]
  rw [if_neg (not_not_intro hbad), hread, if_neg (not_not_intro rfl)]
  simp only [hwrite]
  exact if_neg (not_not_intro rfl)

/-- Settles O28. -/
theorem sampleAndTimeouts : Obligations.SampleAndTimeouts := by
  refine ⟨fun s t h o hok hi d hd hdesc hg hrow hrec bytes s2 hread s3 hwrite =>
    next_issueAs_done hi hok (sampleEff_good hd hdesc hg hrow hrec hread rfl hwrite), fun s t hc => ⟨fun i hw hs => ?_, fun a ha => ?_⟩⟩
  · change execSemWaitTimeout t s = _
    simp only [execSemWaitTimeout, hw]
    exact congrArg _ (if_pos (by simp [hc, hs]))
  · change execSlotWaitTimeout t s = _
    simp only [execSlotWaitTimeout, ha]
    exact congrArg _ (if_pos hc)

end Sys2Proof.Machine
end

