-- ==== Sys2Proof/Proofs/Attention.lean ====
section
/-! PROOFS. The three operations of ATT. -/

namespace Sys2Proof.Machine
open Sys2Proof.Claims

variable {s : State} {t : Site} {h : Hdr} {o : AttOps}

theorem Status.lowest_ok_pair (a b : Status) : Status.lowest [.ok, a, b] = a.worse b := by
  have ho (x : Status) : Status.ok.worse x = x := if_pos rfl
  simp [Status.lowest, ho]

theorem Status.worse_ok_left (x : Status) : Status.ok.worse x = x := if_pos rfl

/-! ### PASS -/

/-- Where no row of a part is DIRTY at its final anchors, it settles there. -/
theorem State.attSettle_clean {e : AttEnv} {p : AttPart} {f : AttFinal} (tried : Option Nat) (hc : CleanRows s t e p f) :
    s.attSettle t tried e p f = .done (settledPart s t e p f) := by
  have hd : (e.rows.filter (fun m =>
      (((s.attAcc t.core p).reanchor e f.cols (fun i => SMap.get none f.rows i)).row m).dirty)).isEmpty = true := by
    rw [List.isEmpty_iff, List.filter_eq_nil_iff]
    exact fun m hm => by simp [hc m hm]
  exact if_pos hd

/-- A PASS that can be made over its range goes on with what it reads. -/
theorem attPassEff_over {e : AttEnv} {p : AttPart} {r : AttRange} {sel : Option (List (Nat × List Nat))} {a : AttAcc} {u : State}
    (hp : PassOver s t o e p r sel a u) (tried : Option Nat) :
    attPassEff t tried o s = u.passed t tried o e { p with sel, ranges := p.ranges ++ [r] } a := by
  obtain ⟨b, hb, rfl⟩ := hp.range
  obtain ⟨s0, hs0, ha⟩ := hp.read
  have hgood := hp.good
  simp only [attPassEff, hp.env, hp.part, hb]
  rw [if_neg (not_not_intro hp.reach), if_neg (not_not_intro hp.slot), if_neg (not_not_intro hgood), hs0]
  exact congrArg (AttRes.eff t tried s p _) ha

section
variable {e : AttEnv} {p : AttPart} {r : AttRange} {sel : Option (List (Nat × List Nat))} {a : AttAcc} {u : State} {tried : Option Nat}

theorem State.passed_on (hl : o.last = 0) :
    u.passed t tried o e { p with sel, ranges := p.ranges ++ [r] } a = .done (passState u t e p r sel a) := if_pos hl

theorem State.passed_slot {x : AttSlot} (hl : o.last ≠ 0) (hx : u.attSlot t o = some x) :
    u.passed t tried o e { p with sel, ranges := p.ranges ++ [r] } a =
      (let v := passState u t e p r sel a
       let q := passPart' o p r sel a
       let post := a.post e x (keysOf e.len.kLen q.ranges) t.core u.moduleId
       .hold (.slot x.fa) ((v.setCore t.core { v.core t.core with att := some { q with post := some post } }).openSlot t
         (u.slotKey x.fa) (decide (x.part = 0)))) := by
  refine (if_neg hl).trans ?_
  rw [hx]
  rfl

theorem State.passed_alone (hl : o.last ≠ 0) (hx : u.attSlot t o = none)
    (hc : CleanRows (passState u t e p r sel a) t { e with got := [] } (passPart' o p r sel a) (a.final e)) :
    u.passed t tried o e { p with sel, ranges := p.ranges ++ [r] } a =
      .done (settledPart (passState u t e p r sel a) t { e with got := [] } (passPart' o p r sel a) (a.final e)) := by
  refine (if_neg hl).trans ?_
  rw [hx]
  exact State.attSettle_clean _ hc

end

/-! ### SEND and DRAIN at issue -/

/-- An ATT that stands in no wait of its own is issued. -/
theorem State.issueOrResume_issue {op : HeldOp} {ok : Bool} {body : State → Eff} (hn : (s.ctx t).heldOp op = none) :
    s.issueOrResume t h op ok body = s.issueAs t h (attFlight t h op) true ok body := by
  rw [State.issueOrResume, if_neg (by simp [hn])]

section
variable (hi : s.issues t { h with signal := 0 } (attFlight t { h with signal := 0 } .attSend) = true) (hok : o.ok 1 = true)
  (hs : h.signal < 64) (hn : (s.ctx t).heldOp .attSend = none)
include hi hok hs hn

theorem exec_attSend_done {u : State} {ids : List Nat} {next : Option Nat}
    (hb : attSendStart t o (s.issued t h) = (.done u, ids, next)) :
    exec (.attSend t h o) s = .next (launched s u t h (attFlight t { h with signal := 0 } .attSend)
      ((s.issued t h).sendFlight t h ids next)) := by
  refine (congrArg Host.Outcome.next (State.issueOrResume_issue hn)).trans (next_issueAs_done hi (by simp [hok, hs]) ?_)
  change (match attSendStart t o (s.issued t h) with
    | (.done s2, ids, next) => _
    | (e, _, _) => e) = _
  rw [hb]
  rfl

theorem exec_attSend_fault {u : State} {st : Status} {a : Nat}
    (hb : attSendStart t o (s.issued t h) = (.fault st a u, [], none)) :
    exec (.attSend t h o) s = .next (u.coreFault t.core st a) := by
  refine (congrArg Host.Outcome.next (State.issueOrResume_issue hn)).trans (next_issueAs_fault hi (by simp [hok, hs]) ?_)
  change (match attSendStart t o (s.issued t h) with
    | (.done s2, ids, next) => Eff.done _
    | (e, _, _) => e) = _
  rw [hb]

end

section
variable {e : AttEnv} {x : AttSlot} (hr : (s.attReach t o).1 = .ok) (hst : s.attSlotStatus t o = .ok)
  (he : s.attPartEnv t o = .inr e)
include hr hst he

section
variable (hx : s.attSlot t o = some x) (hp : x.part ≠ 0)
include hx hp

/-- A SEND to a slot of this module whose owner has its anchors and whose words can be read: the part merges into the owner's. -/
theorem attSendStart_local (hm : fabModule x.fa = s.moduleId)
    (ha : anchorMark (fabLocal x.fa) (s.num (fabLocal x.fa + 10) 1) ∈ (s.core (s.slotOwner (fabLocal x.fa))).anchored)
    (hrd : (s.slotRead t.core (some (fabLocal x.fa))).1 = .ok) : attSendStart t o s =
      (let a := fabLocal x.fa
       let k := s.core (s.slotOwner a)
       let y := (s.slotRead t.core (some a)).2
       let places := e.rows.flatMap (fun m => (List.range e.d.d).map (fun n => (m, n)))
       let w := mergeEntries (s.core t.core) e.tile { e.tile with bank := s.num (a + 10) 1 } places k.wide
       let z := mergeLongs (s.core t.core) e.lidx (s.num (a + 12) 2) e.rows k.long
       if w.1.worse z.1 ≠ .ok then (.fault (w.1.worse z.1) a y, [], none)
       else
         let s2 := y.setCore (s.slotOwner a) { k with wide := w.2, long := z.2 }
         let s3 := s2.setCore t.core ((s2.core t.core).dropPart e)
         (.done ((s3.putNum (a + 4) 2 (s3.slotMerged a + 1)).closeSlot t a false), [], none)) := by
  simp only [attSendStart, he, hx]
  rw [if_neg (not_not_intro hr), if_neg (not_not_intro hst), if_neg hp, if_pos hm, if_neg (by simpa using ha), hrd, Status.lowest_ok_pair]

/-- A SEND to another module that may be sent to: the part's images leave in WRITEs. -/
theorem attSendStart_remote (hm : fabModule x.fa ≠ s.moduleId) (hg : s.remoteGate (fabModule x.fa) s.jobTag = .ok) : attSendStart t o s =
      (let r := ((s.setCore t.core ((s.core t.core).dropPart e)).closeSlot t x.fa false).injectAll
          ((s.attImages t.core e (mergeArea (fabLocal x.fa) x.part e.m e.d.d)).flatMap (fun im => (pieces im.1 im.2.length).map (fun p =>
            { serial := 0, op := 1, dest := fabModule x.fa, addr := im.1 + p.1, len := p.2, data := (im.2.drop p.1).take p.2,
              tag := s.jobTag, at' := 0, owner := .instr t.core })))
       (.done r.2, r.1, some x.fa)) := by
  simp only [attSendStart, he, hx]
  rw [if_neg (not_not_intro hr), if_neg (not_not_intro hst), if_neg hp, if_neg hm, if_neg (not_not_intro hg)]

end

/-- A DRAIN of a settled part with its words, slot, images and output good and no merge missing. -/
theorem attDrainEff_done
    (hslot : ∀ x, s.attSlot t o = some x → x.part = 0 ∧ fabModule x.fa = s.moduleId
      ∧ s.mergesMissing (((s.attSlot t o).map (fun x => fabLocal x.fa)).getD 0) = false
      ∧ (s.slotRead t.core (some (((s.attSlot t o).map (fun x => fabLocal x.fa)).getD 0))).1 = .ok)
    (hw : s.attWords t o e = .ok)
    (hmg : (s.attMerge t.core (((s.attSlot t o).map (fun x => fabLocal x.fa)).getD 0) e
      (s.partsAt (s.attSlot t o) (((s.attSlot t o).map (fun x => fabLocal x.fa)).getD 0))).1 = .ok)
    (hout : (s.reachAll t.core ((s.attOut t o e (s.attMerge t.core (((s.attSlot t o).map (fun x => fabLocal x.fa)).getD 0) e
      (s.partsAt (s.attSlot t o) (((s.attSlot t o).map (fun x => fabLocal x.fa)).getD 0))).2).map
        (fun p => (p.off, p.bytes.length)))).1 = .ok) :
    attDrainEff t o s = .done (s.attDrained t o e (s.attMerge t.core (((s.attSlot t o).map (fun x => fabLocal x.fa)).getD 0) e
      (s.partsAt (s.attSlot t o) (((s.attSlot t o).map (fun x => fabLocal x.fa)).getD 0))).2) := by
  simp only [attDrainEff, he]
  rw [if_neg (not_not_intro hr), if_neg (not_not_intro hst)]
  cases hx : s.attSlot t o with
  | none =>
    rw [hx] at hmg hout
    exact (if_neg (by simp)).trans ((if_neg (not_not_intro hw)).trans ((if_neg (not_not_intro hmg)).trans
      (if_neg (not_not_intro hout))))
  | some x =>
    obtain ⟨hp, hm, hmiss, hrd⟩ := hslot x hx
    rw [hx] at hmg hout hmiss hrd
    exact (if_neg (by simp [hp, hm])).trans ((if_neg (by simpa using hmiss)).trans ((if_neg (not_not_intro hrd)).trans
      ((if_neg (not_not_intro hw)).trans ((if_neg (not_not_intro hmg)).trans (if_neg (not_not_intro hout))))))

end

/-- Settles O24: a PASS ends as the part's step does, a SEND as its merge or its WRITEs do, a DRAIN as its checks allow. -/
theorem attentionInstructionsComplete : Obligations.AttentionInstructionsComplete := by
  intro s t h o
  refine ⟨fun hok hi hw e p r sel a u hp => ?_, fun hok hs hn hi hr hst e x he hx hpart => ⟨fun hm ha hrd => ?_, fun hm hg =>
    exec_attSend_done hi hok hs hn (attSendStart_remote hr hst he hx hpart hm hg)⟩, fun hok hn hi hr hst e he hslot hw hmg hout =>
    (congrArg Host.Outcome.next (State.issueOrResume_issue hn)).trans (next_issueAs_done hi hok
      (attDrainEff_done hr hst he hslot hw hmg hout))⟩
  · have hx {v : State} (hv : attPassEff t none o (s.issued t h) = .done v) : exec (.attPass t h o) s = _ :=
      (congrArg Host.Outcome.next (if_neg hw)).trans (next_issueAs_done hi hok hv)
    have hy {v : State} {on : HeldFor} (hv : attPassEff t none o (s.issued t h) = .hold on v) : exec (.attPass t h o) s = _ :=
      (congrArg Host.Outcome.next (if_neg hw)).trans (next_issueAs_hold hi hok hv)
    have he := attPassEff_over hp none
    exact ⟨fun hl => hx (he.trans (State.passed_on hl)), fun hl x hsl => hy (he.trans (State.passed_slot hl hsl)),
      fun hl hsl hc => hx (he.trans (State.passed_alone hl hsl hc))⟩
  · have hstart := attSendStart_local hr hst he hx hpart hm ha hrd
    refine ⟨fun hw hz => exec_attSend_done hi hok hs hn (hstart.trans (if_neg ?_)), fun hbad =>
      exec_attSend_fault hi hok hs hn (hstart.trans (if_pos hbad))⟩
    rw [hw, hz]
    exact not_not_intro rfl

end Sys2Proof.Machine
end

