-- ==== Sys2Proof/Proofs/Windows.lean ====
section
/-! PROOFS. The five operations of WIN, and the gate of a FETCH. -/

namespace Sys2Proof.Machine
open Sys2Proof.Claims

/-! ### What a context reads as after another was set -/

theorem SMap.get_set_value {α : Type} [DecidableEq α] {d x : α} (m : List (Nat × α)) (a : Nat) (hx : x ≠ d) :
    SMap.get d (SMap.set d m a x) a = x := by
  rw [SMap.set, if_neg hx, SMap.get_insert_same]

theorem SMap.set_ne_nil {α : Type} [DecidableEq α] {d x : α} (m : List (Nat × α)) (a : Nat) (hx : x ≠ d) :
    SMap.set d m a x ≠ [] := by
  rw [SMap.set, if_neg hx]
  cases m with
  | nil => simp [SMap.insert]
  | cons p m =>
    simp only [SMap.insert]
    split
    · simp
    · split <;> simp

theorem Core.ne_default {k : Core} (h : k.ctxs ≠ []) : k ≠ {} := fun hk => h (congrArg Core.ctxs hk)
theorem Ctx.ne_default_of_active {c : Ctx} (h : c.active = true) : c ≠ {} := fun hc => by simp [hc] at h
theorem Ctx.ne_default_of_halted {c : Ctx} (h : c.halted = true) : c ≠ {} := fun hc => by simp [hc] at h

theorem State.core_setCore {k : Core} (s : State) (n : Nat) (hk : k ≠ {}) : (s.setCore n k).core n = k := SMap.get_set_value _ _ hk
theorem State.core_setCore_ne (s : State) (k : Core) {m n : Nat} (h : m ≠ n) : (s.setCore n k).core m = s.core m :=
  SMap.get_set_ne _ h

section
variable {s : State} {c : Ctx} (t : Site) (hc : c ≠ {})
include hc

theorem State.ctxs_setCtx : ((s.setCtx t c).core t.core).ctxs = SMap.set {} (s.core t.core).ctxs t.ctx c := by
  have hk : ({ s.core t.core with ctxs := SMap.set {} (s.core t.core).ctxs t.ctx c } : Core) ≠ {} :=
    Core.ne_default (SMap.set_ne_nil _ _ hc)
  exact congrArg Core.ctxs (State.core_setCore s t.core hk)

theorem State.ctx_setCtx : (s.setCtx t c).ctx t = c := by
  rw [State.ctx, State.ctxs_setCtx t hc, SMap.get_set_value _ _ hc]

theorem State.ctx_setCtx_ne {x : Site} (h : x ≠ t) : (s.setCtx t c).ctx x = s.ctx x := by
  by_cases hn : x.core = t.core
  · have hx : x.ctx ≠ t.ctx := fun he => h (by cases x; cases t; simp_all)
    rw [State.ctx, hn, State.ctxs_setCtx t hc, SMap.get_set_ne _ hx, State.ctx, hn]
  · rw [State.ctx, State.setCtx, State.core_setCore_ne _ _ hn, State.ctx]

end

theorem State.ctx_setCore_ctxs {s : State} {n : Nat} {k : Core} (hk : k ≠ {}) (h : k.ctxs = (s.core n).ctxs) (x : Site) :
    (s.setCore n k).ctx x = s.ctx x := by
  by_cases hn : x.core = n
  · rw [State.ctx, hn, State.core_setCore s n hk, h, State.ctx, hn]
  · rw [State.ctx, State.core_setCore_ne _ _ hn, State.ctx]

theorem State.ctx_setSem {s : State} {n : Nat} (h : (s.core n).ctxs ≠ []) (i v : Nat) (x : Site) :
    (s.setSem n i v).ctx x = s.ctx x :=
  State.ctx_setCore_ctxs (k := { s.core n with sems := SMap.set 0 (s.core n).sems i (BitVec.ofNat 16 v) }) (Core.ne_default h) rfl x

theorem State.ctxs_ne_nil_of_active {s : State} {t : Site} (h : (s.ctx t).active = true) : (s.core t.core).ctxs ≠ [] := fun hn => by
  simp [State.ctx, hn, SMap.get] at h

/-! ### No context comes to wait on a gate but by its FETCH -/

section
variable {s : State} {t : Site}

theorem State.gateWait_setCtx {x : Site} {c : Ctx} (hg : (s.ctx t).gateWait = none) (hc : c ≠ {}) (h : c.gateWait = none) :
    ((s.setCtx x c).ctx t).gateWait = none := by
  by_cases hx : t = x
  · rw [hx, State.ctx_setCtx x hc, h]
  · rw [State.ctx_setCtx_ne x hc hx, hg]

theorem State.gateWait_haltGates (n : Nat) (hg : (s.ctx t).gateWait = none) : ((s.haltGates n).ctx t).gateWait = none := by
  unfold State.haltGates
  dsimp only
  generalize (s.core n).ctxs.filterMap (fun p => p.2.gateWait.map (fun g => (p.1, g))) = l
  induction l generalizing s with
  | nil => exact hg
  | cons p l ih =>
    have hc : ({ s.ctx ⟨n, p.1⟩ with gateWait := none, halted := true } : Ctx) ≠ {} := Ctx.ne_default_of_halted rfl
    have h1 := State.gateWait_setCtx (x := ⟨n, p.1⟩) hg hc rfl
    refine ih ?_
    dsimp only
    split
    · exact h1
    · have hk : ((s.setCtx ⟨n, p.1⟩ { s.ctx ⟨n, p.1⟩ with gateWait := none, halted := true }).core n).ctxs ≠ [] := by
        rw [State.ctxs_setCtx ⟨n, p.1⟩ hc]
        exact SMap.set_ne_nil _ _ hc
      rwa [State.ctx_setSem hk]

theorem State.gateWait_settleHalt (n : Nat) (hg : (s.ctx t).gateWait = none) : ((s.settleHalt n).ctx t).gateWait = none := by
  unfold State.settleHalt
  split
  · simp only
    split
    · rw [State.ctx_setFld]
      exact State.gateWait_haltGates n hg
    · exact State.gateWait_haltGates n hg
  · exact hg

theorem State.ctx_track (n : Nat) (f : InFlight) (x : Site) : (s.track n f).ctx x = s.ctx x := by
  unfold State.track
  split
  · have hk : ({ s.core n with inflight := (s.core n).inflight ++ [f] } : Core) ≠ {} := fun h =>
      List.append_ne_nil_of_right_ne_nil _ (List.cons_ne_nil _ _) (congrArg Core.inflight h)
    exact State.ctx_setCore_ctxs hk rfl x
  · rfl

/-- A context that does not wait on a gate does not once its instruction is retired. -/
theorem State.gateWait_retired (h : Hdr) (f : InFlight) (ha : (s.ctx t).active = true) (hg : (s.ctx t).gateWait = none) :
    ((s.retired t h f true).ctx t).gateWait = none := by
  have hc : (s.ctx t).advance ≠ {} := Ctx.ne_default_of_active ha
  have h2 : (((s.setCtx t (s.ctx t).advance).track t.core { f with ctx := t.ctx, signal := h.signal }).ctx t).gateWait = none := by
    rw [State.ctx_track, State.ctx_setCtx t hc]
    exact hg
  simp only [State.retired, if_true]
  split
  · unfold State.haltPoint
    split
    · exact State.gateWait_settleHalt _ (State.gateWait_setCtx h2 (Ctx.ne_default_of_halted rfl) h2)
    · exact h2
  · exact h2

theorem State.ctx_issued_active {h : Hdr} (ha : (s.ctx t).active = true) :
    ((s.issued t h).ctx t).active = true ∧ ((s.issued t h).ctx t).gateWait = (s.ctx t).gateWait := by
  have h1 : (if h.wait = 0 then s else s.setSem t.core h.wait (s.sem t.core h.wait - 1)).ctx t = s.ctx t := by
    split
    · rfl
    · exact State.ctx_setSem (State.ctxs_ne_nil_of_active ha) ..
  simp only [State.issued]
  split
  · rw [h1]
    exact ⟨ha, rfl⟩
  · have hc : ({ s.ctx t with waiting := none } : Ctx) ≠ {} := Ctx.ne_default_of_active ha
    rw [h1, State.ctx_setCtx t hc]
    exact ⟨ha, rfl⟩

theorem State.active_of_issues {h : Hdr} {f : InFlight} (hi : s.issues t h f = true) : (s.ctx t).active = true := by
  simp only [State.issues, State.canIssue, Bool.and_eq_true, and_assoc] at hi
  obtain ⟨-, -, active, -⟩ := hi
  exact active

end

section
variable {s : State} {t : Site} {h : Hdr} {o : WinOps} {d : ConvDesc} {p : WinPos}

/-- The gates that a FETCH looks at, and the reads of their words. -/
def State.fetchGates (s : State) (d : ConvDesc) (p : WinPos) : List (Nat × Nat × Nat) := s.gatesOf d (blockSides (s.fetchBlocks d p))
def State.gateLook (s : State) (t : Site) (d : ConvDesc) (p : WinPos) : Status × Nat × State :=
  s.readChecks s.coreClass (.core t.core) ((s.fetchGates d p).map (fun g => (g.2.1, 8)))

section
variable (hd : s.winDesc t 0 o = .inr (d, p)) (hc : (s.fetchCheck t d o p).1 = .ok) (hl : (s.gateLook t d p).1 = .ok)
include hd hc hl

/-- A FETCH whose gates are open stages what it reads. -/
theorem winFetchEff_open (hg : s.gateShut (s.fetchGates d p) = none)
    (hr : ((s.gateLook t d p).2.2.convReads t.core (blockReads (s.fetchBlocks d p))).1 = .ok) :
    winFetchEff t h o s = .done (((s.gateLook t d p).2.2.convReads t.core (blockReads (s.fetchBlocks d p))).2.2.stageFetch
      t.core d o p (s.fetchBlocks d p)) := by
  simp only [winFetchEff, hd]
  rw [if_neg (not_not_intro hc)]
  refine (if_neg (not_not_intro hl)).trans ?_
  rw [show s.gateShut (s.gatesOf d (blockSides (s.fetchBlocks d p))) = none from hg]
  exact if_neg (not_not_intro hr)

/-- One that meets a shut gate waits on it. -/
theorem winFetchEff_shut {g : Nat × Nat × Nat} (hg : s.gateShut (s.fetchGates d p) = some g) :
    winFetchEff t h o s = .wait ((s.gateLook t d p).2.2.setCtx t { s.ctx t with gateWait := some ⟨g.1, g.2.1, g.2.2, h.wait⟩ }) := by
  simp only [winFetchEff, hd]
  rw [if_neg (not_not_intro hc)]
  refine (if_neg (not_not_intro hl)).trans ?_
  rw [show s.gateShut (s.gatesOf d (blockSides (s.fetchBlocks d p))) = some g from hg]
  rfl

end

/-- What a FETCH stages leaves every context as it was. -/
theorem State.ctx_stageFetch (x : Site) : (((s.gateLook t d p).2.2.convReads t.core (blockReads (s.fetchBlocks d p))).2.2.stageFetch
    t.core d o p (s.fetchBlocks d p)).ctx x = s.ctx x := by
  have h1 : (s.gateLook t d p).2.2.cores = s.cores := (State.readChecks_keeps ..).same .cores rfl
  have h2 := (State.convReads_keeps (s.gateLook t d p).2.2 t.core (blockReads (s.fetchBlocks d p))).same .cores rfl
  have h3 := (State.stageFetch_keeps ((s.gateLook t d p).2.2.convReads t.core (blockReads (s.fetchBlocks d p))).2.2 t.core d o p
    (s.fetchBlocks d p)).same .cores rfl
  unfold State.ctx State.core
  rw [h3.trans (h2.trans h1)]

theorem countGateWait_none {u : State} (h : (u.ctx t).gateWait = none) : countGateWait s u t = u := if_neg (by simp [h])

end

section
variable {s : State} {t : Site} {h : Hdr} {o : WinOps} {d : ConvDesc} {p : WinPos}

/-- A WIN MMA of a good staged tile, with no post missing at its slot. -/
theorem winMmaEff_done {w : WinTile} {m : List (Nat × WideEntry)} (hw : s.winTile t 1 o = .inr w)
    (hr : (s.slotRead t.core (s.slotOf t o.xslotReg)).1 = .ok) (hm : s.postsMissing o.anchorMode (s.slotOf t o.xslotReg) = false)
    (hk : s.postsWrong o.anchorMode (s.slotOf t o.xslotReg) = false)
    (ha : (s.slotRead t.core (s.slotOf t o.xslotReg)).2.accumulate t.core w.x w.d.inFmt (decide (o.clear = 1))
      (anchorSource o.anchorMode o.anchor (s.slotOf t o.xslotReg)) (pairT w.d.inFmt w.d.wFmt)
      ((s.slotRead t.core (s.slotOf t o.xslotReg)).2.winRows t.core o w)
      ((s.slotRead t.core (s.slotOf t o.xslotReg)).2.readRows t.core w.b w.x.cols) none = some m) :
    winMmaEff t o s = .done (matrixDone (s.slotRead t.core (s.slotOf t o.xslotReg)).2 t.core w.x.bank (s.slotOf t o.xslotReg) m) := by
  simp only [winMmaEff, hw]
  rw [State.atSlot_go hr hm hk]
  exact State.matrixStep_done ha

theorem winPoolEff_done (hd : s.winDesc t 3 o = .inr (d, p)) (hr : s.csReach o.stageOff 64 = .ok)
    (hc : (s.poolCheck t d o p).1 = .ok) : winPoolEff t o s =
      (let v := s.putPieces t.core (s.poolOut t d o p)
       .done (v.setCore t.core { v.core t.core with
         long := (v.core t.core).long.filter (fun q => !(decide (o.lidx ≤ q.1) && decide (q.1 < o.lidx + 256))) })) := by
  simp only [winPoolEff, hd]
  rw [if_neg (not_not_intro hr), if_neg (not_not_intro hc)]

theorem winPutStart_done {n : Nat} {u : State} (hd : s.winDesc t 4 o = .inr (d, p)) (hc : (s.putCheck t d o p).1 = .ok)
    (hcm : s.putCommit t = none) (hu : s.putAll (s.putWrites t.core d o p) = (.ok, n, u)) :
    winPutStart t o s = (.done u, [], none) := by
  simp only [winPutStart, hd, hcm, State.committed, hu]
  rw [if_neg (not_not_intro hc)]
  exact if_neg (not_not_intro rfl)

variable {g : GateWait} {expired : Bool} (hg : (s.ctx t).gateWait = some g) (hc : s.coreRuns t.core = true)
  (ha : s.accepts t (feederFlight t h) = true) (hr : (s.readCheck s.coreClass (.core t.core) g.addr 8).1 = .ok)
include hg hc ha hr

/-- A FETCH that waits on a gate, on a core that runs and whose gate word can be read. -/
theorem execHaloGateWait_waiting : execHaloGateWait t h o expired s = .next (
    if g.expect ≤ s.num g.addr 8 then
      (winFetchEff t { h with wait := g.wait } o ((s.readCheck s.coreClass (.core t.core) g.addr 8).2.setCtx t
        { s.ctx t with gateWait := none })).settle t h (atPc s t (feederFlight t h)) true
    else if expired then
      let s1 := ((s.setFld Fld.CNV_LAST_GATE_SIDE g.side).setFld Fld.CNV_LAST_GATE_CORE t.core).setFld Fld.CNV_LAST_GATE_ADDR g.addr
      let s2 := s1.bump Fld.CNV_COUNTS_GATE_TIMEOUTS Fld.CNV_COUNTS_TIMEOUT_SAT 1
      (s2.setCtx t { s2.ctx t with gateWait := none }).coreFault t.core .timeout g.addr
    else s) := by
  simp only [execHaloGateWait, hg]
  rw [if_neg (by simp [hc, ha]), if_neg (not_not_intro hr)]
  rfl

end

/-- Settles O26. -/
theorem windowInstructionsComplete : Obligations.WindowInstructionsComplete := by
  intro s t h o
  refine ⟨fun hok hi hg d p => ⟨fun v ⟨hd, hc, hl, hs, hr, hv⟩ => ?_, fun hd hc hl g hs => ?_⟩, fun hok hi hn w hw hr hm hk m ha =>
      (congrArg Host.Outcome.next (if_neg (by simp [hn]))).trans (next_issueAs_done hi hok (winMmaEff_done hw hr hm hk ha)),
    fun hok hi w hw => next_issueAs_done hi hok ?_, fun hok hi d p hd hr hc => next_issueAs_done hi hok (winPoolEff_done hd hr hc),
    fun hok hs hi d p n u hd hc hcm hu => next_issueMove_done hi hok hs (winPutStart_done hd hc hcm hu),
    fun g expired hg hc ha hr => ⟨fun hv d p v ⟨hd, hc', hl, hs, hrd, hvv⟩ => ?_, fun hv hx => ?_, fun hv hx => ?_⟩⟩
  · subst hv
    have hact := State.ctx_issued_active (h := h) (State.active_of_issues hi)
    refine (congrArg (fun x => Host.Outcome.next (countGateWait s x t))
      (State.issueAs_done hi hok (winFetchEff_open hd hc hl hs hr))).trans (congrArg _ (countGateWait_none ?_))
    refine State.gateWait_retired _ _ ?_ ?_ <;> rw [State.ctx_stageFetch]
    · exact hact.1
    · exact hact.2.trans hg
  · refine (congrArg (fun x => Host.Outcome.next (countGateWait s x t))
      (State.issueAs_wait hi hok (winFetchEff_shut hd hc hl hs))).trans (congrArg _ (if_pos ?_))
    have hne : ({ (s.issued t h).ctx t with gateWait := some ⟨g.1, g.2.1, g.2.2, h.wait⟩ } : Ctx) ≠ {} :=
      Ctx.ne_default_of_active (State.ctx_issued_active (State.active_of_issues hi)).1
    rw [State.ctx_setCtx t hne, hg]
    rfl
  · rw [winWmaxEff, hw]
    rfl
  all_goals
    have he : exec (.haloGateWait t h o expired) s = _ := execHaloGateWait_waiting hg hc ha hr
  · subst hvv
    refine he.trans (congrArg _ ((if_pos hv).trans ?_))
    rw [winFetchEff_open hd hc' hl hs hrd]
    rfl
  · exact he.trans (congrArg _ ((if_neg (Nat.not_le.mpr hv)).trans (if_neg (by simp [hx]))))
  · exact he.trans (congrArg _ ((if_neg (Nat.not_le.mpr hv)).trans (if_pos hx)))

end Sys2Proof.Machine
end

