-- ==== Sys2Proof/Proofs/RegisterWrites.lean ====
section
/-! PROOFS. Writes of limit and test registers through the management path, the coefficient tables, and the commands of the memory
system. -/

namespace Sys2Proof.Machine
open Sys2Proof.Claims

variable {s : State} {q : Fin 4} {v : Word}

/-! ### The outcome of a register write -/

section
variable {a : Nat} {f : State → Status × State} (hm : s.mgmtHears q.val = true)
include hm

theorem State.regWrite_ok {u : State} (hf : f s = (.ok, u)) : s.regWrite q a f = accepted u := by
  rw [State.regWrite, if_pos hm, hf]
  rfl

theorem State.regWrite_refused {st : Status} (hf : f s = (st, s)) : s.regWrite q a f = refused s q a st := by
  rw [State.regWrite, if_pos hm, hf]
  rfl

theorem next_regWrite_ok {u : State} (hf : f s = (.ok, u)) :
    (.next (s.regWrite q a f) : Host.Outcome State Fault Refusal) = .next (accepted u) := congrArg _ (State.regWrite_ok hm hf)

theorem next_regWrite_refused {st : Status} (hf : f s = (st, s)) :
    (.next (s.regWrite q a f) : Host.Outcome State Fault Refusal) = .next (refused s q a st) :=
  congrArg _ (State.regWrite_refused hm hf)

end

/-! ### Limit registers -/

/-- A limit's field takes `x`: it reads so, and every other register as before. -/
def TakesField (s u : State) (f : Field) (x : Nat) : Prop := u.fld f = x ∧ (∀ a, a ≠ f.reg → u.reg a = s.reg a) ∧ Keeps [.regs] s u

theorem takesField_setFld (hs : s.regsOk = true) (f : Field) {x : Nat} (hf : f.hi < 64) (hx : x < 2 ^ (f.hi + 1 - f.lo)) :
    TakesField s (s.setFld f x) f x :=
  ⟨by rw [State.fld_setFld hs f x hf, Nat.mod_eq_of_lt hx], fun _ h => State.reg_setFld_ne s x h, State.setFld_keeps s f x⟩

/-- Two fields of one register, one after the other. -/
theorem takesField_setFld_two (hs : s.regsOk = true) (f g : Field) {x y : Nat} (hf : f.hi < 64) (hg : g.hi < 64) (hr : g.reg = f.reg)
    (hd : f.hi < g.lo ∨ g.hi < f.lo) (hx : x < 2 ^ (f.hi + 1 - f.lo)) (hy : y < 2 ^ (g.hi + 1 - g.lo)) :
    TakesField s ((s.setFld f x).setFld g y) f x ∧ TakesField s ((s.setFld f x).setFld g y) g y := by
  have h1 := takesField_setFld hs f hf hx
  have hs1 := (State.setFld_keeps s f x).regsOk hs
  have h2 := takesField_setFld hs1 g hg hy
  have hk : Keeps [.regs] s ((s.setFld f x).setFld g y) := (State.setFld_keeps ..).after rfl (State.setFld_keeps ..)
  refine ⟨⟨?_, fun a ha => (h2.2.1 a (hr ▸ ha)).trans (h1.2.1 a ha), hk⟩, h2.1, fun a ha => (h2.2.1 a ha).trans (h1.2.1 a (hr ▸ ha)), hk⟩
  rw [State.fld_setFld_other _ _ _ _ hs1 hf hd, h1.1]

/-- A write whose rule sets the field where `ok` holds, and else refuses with VERIFY. -/
theorem limitWrite (hm : s.mgmtHears q.val = true) {f : Field} {a x : Nat} {ok : Bool} {w : State → Status × State} (ha : a = f.reg) {u : State}
    (hw : w s = if ok then (.ok, u) else (.verify, s)) (hu : TakesField s u f x) :
    (ok = true → ∃ u : State, (.next (s.regWrite q a w) : Host.Outcome State Fault Refusal) = .next u ∧ u.fld f = x
      ∧ (∀ a, a ≠ f.reg → u.reg a = s.reg a) ∧ u.out = .regResp .ok 0 :: s.out ∧ Keeps [.regs, .out] s u)
    ∧ (ok = false → (.next (s.regWrite q a w) : Host.Outcome State Fault Refusal) = .next (refused s q f.reg .verify)) := by
  obtain ⟨h1, h2, h3⟩ := hu
  subst ha
  refine ⟨fun hok => ⟨accepted u, next_regWrite_ok hm (hw.trans (if_pos hok)), h1, h2, ?_, ?_⟩, fun hok =>
    next_regWrite_refused hm (hw.trans (if_neg (by simp [hok])))⟩
  · exact congrArg (_ :: ·) (h3.same .out rfl)
  · exact (State.emit_keeps ..).after rfl (h3.after rfl (Keeps.refl _ _))

/-- A rule that refuses first, as one that accepts first. -/
theorem refuse_unless {α : Type} {bad : Prop} [Decidable bad] {ok : Bool} (h : bad ↔ ok = false) (x y : α) :
    (if bad then x else y) = if ok then y else x := by
  cases ok <;> simp_all

/-- Settles O29: each rule sets its fields in range and refuses with VERIFY else. -/
theorem limitRegistersTakeTheirRanges : Obligations.LimitRegistersTakeTheirRanges := by
  intro s q v hs hm within' core
  have hw (a b : Nat) := wget_lt v a b
  have one (f : Field) (hi lo : Nat) (hf : f.hi < 64) (hr : hi + 1 - lo = f.hi + 1 - f.lo) := takesField_setFld hs f hf (hr ▸ hw hi lo)
  have hcore := takesField_setFld_two hs Fld.CORE_LIMITS_WAIT_NS Fld.CORE_LIMITS_XCHG_NS (x := wget v 50 32) (y := wget v 18 0)
    (by decide) (by decide) rfl (.inr (by decide)) (hw 50 32) (hw 18 0)
  have hscrub := takesField_setFld_two hs Fld.HBM_SCRUB_CTRL_PERIOD_H Fld.HBM_SCRUB_CTRL_ENABLE (x := wget v 7 0) (y := wget v 63 63)
    (by decide) (by decide) rfl (.inl (by decide)) (hw 7 0) (hw 63 63)
  have coreRule := refuse_unless (α := Status × State) (bad := (wget v 50 32 = 0 || decide (500000 < wget v 50 32) || wget v 18 0 = 0 || decide (500000 < wget v 18 0)) = true)
    (ok := core) (by simp [core, within']; omega)
  have scrubRule := refuse_unless (α := Status × State) (bad := (wget v 7 0 = 0 || 168 < wget v 7 0) = true) (ok := within' 1 168 (wget v 7 0)) (by simp [within']; omega)
  have narrow := limitWrite hm (a := Reg.HBM_NARROW_CTRL) (ok := true) (w := hbmNarrowCtrlWrite v) rfl rfl
    (one Fld.HBM_NARROW_CTRL_ENABLE 11 0 (by decide) rfl)
  simp only [List.forall_mem_cons]
  refine ⟨limitWrite hm rfl (coreRule ..) hcore.1, limitWrite hm rfl (coreRule ..) hcore.2,
    limitWrite hm rfl (refuse_unless (by simp [within']; omega) _ _) (one _ 19 0 (by decide) rfl),
    limitWrite hm rfl (refuse_unless (by simp [within']; omega) _ _) (one _ 11 0 (by decide) rfl),
    limitWrite hm rfl (scrubRule ..) hscrub.1, limitWrite hm rfl (scrubRule ..) hscrub.2,
    ⟨fun _ => narrow.1 rfl, narrow.2⟩, limitWrite hm rfl ?_ (one _ 19 0 (by decide) rfl),
    limitWrite hm rfl (refuse_unless (by simp [within']; omega) _ _) (one _ 19 0 (by decide) rfl),
    limitWrite hm rfl ?_ (one _ 13 0 (by decide) rfl), by simp⟩
  · simp [fabLimitsWrite, inside, within']
  · simp [pwrLimitWrite, inside, within']

/-! ### Test registers -/

theorem tstWrite_locked {a : Nat} {f : Word → State → Status × State} (h : s.tstLocked a = true) : tstWrite a f v s = (.denied, s) :=
  if_pos h

theorem tstWrite_open {a : Nat} {f : Word → State → Status × State} (h : s.tstLocked a = false) : tstWrite a f v s = f v s :=
  if_neg (by simp [h])

/-- A write of a register of the test block whose rule is a check of the word. -/
theorem checkedTestWrite (hm : s.mgmtHears q.val = true) (a : Nat) (ok : Bool) (w : Word → State → Status × State)
    (hw : w v s = tstWrite a (fun _ => checkedWrite a ok v) v s) :
    (s.tstLocked a = false → ok = true → (.next (s.regWrite q a (w v)) : Host.Outcome State Fault Refusal) =
      .next (accepted (s.putRw a v)))
    ∧ (s.tstLocked a = false → ok = false → (.next (s.regWrite q a (w v)) : Host.Outcome State Fault Refusal) =
      .next (refused s q a .verify))
    ∧ (s.tstLocked a = true → (.next (s.regWrite q a (w v)) : Host.Outcome State Fault Refusal) = .next (refused s q a .denied)) :=
  ⟨fun ho hk => next_regWrite_ok hm (hw.trans ((tstWrite_open ho).trans (if_pos hk))),
    fun ho hk => next_regWrite_refused hm (hw.trans ((tstWrite_open ho).trans (if_neg (by simp [hk])))),
    fun hl => next_regWrite_refused hm (hw.trans (tstWrite_locked hl))⟩

/-- A counter's selection is good: its event is one of the table and its unit is one of the event's. -/
theorem tstPerfSelWrite_of_good {i n : Nat} (ho : s.tstLocked (Reg.TST_PERF_SEL i) = false) (hn : perfUnits (wget v 7 0) = some n)
    (hu : wget v 15 8 < n) :
    tstPerfSelWrite i v s = (.ok, (s.putRw (Reg.TST_PERF_SEL i) v).setReg (Reg.TST_PERF i) 0) := by
  rw [tstPerfSelWrite, tstWrite_open ho, hn]
  exact if_pos hu

theorem tstPerfSelWrite_of_bad {i : Nat} (ho : s.tstLocked (Reg.TST_PERF_SEL i) = false)
    (hb : ¬ ∃ n, perfUnits (wget v 7 0) = some n ∧ wget v 15 8 < n) : tstPerfSelWrite i v s = (.verify, s) := by
  rw [tstPerfSelWrite, tstWrite_open ho]
  cases hn : perfUnits (wget v 7 0) with
  | none => rfl
  | some n => exact if_neg (fun hu => hb ⟨n, hn, hu⟩)

/-- Settles O30: a locked register is DENIED before any other check, and each rule is one check of the word. -/
theorem testRegisterWritesComplete : Obligations.TestRegisterWritesComplete := by
  intro s q v hm
  refine ⟨?_, fun i => ?_, ?_, fun p => ?_⟩
  · simp only [List.forall_mem_cons]
    have credit := checkedTestWrite (v := v) hm Reg.TST_CREDIT true tstCreditWrite rfl
    have refresh := checkedTestWrite (v := v) hm Reg.TST_REFRESH true tstRefreshWrite rfl
    exact ⟨checkedTestWrite hm _ _ tstDcqWrite rfl, checkedTestWrite hm _ _ tstThrottleWrite rfl,
      ⟨fun ho _ => credit.1 ho rfl, credit.2⟩, ⟨fun ho _ => refresh.1 ho rfl, refresh.2⟩, by simp⟩
  · exact ⟨fun ho ⟨_, hn, hu⟩ => next_regWrite_ok hm (tstPerfSelWrite_of_good ho hn hu),
      fun ho hb => next_regWrite_refused hm (tstPerfSelWrite_of_bad ho hb), fun hl => next_regWrite_refused hm (tstWrite_locked hl)⟩
  · refine ⟨fun ho hk => next_regWrite_ok hm ((tstWrite_open ho).trans (if_neg ?_)),
      fun ho h63 hn => next_regWrite_refused hm ((tstWrite_open ho).trans (if_pos ?_)), fun hl => next_regWrite_refused hm (tstWrite_locked hl)⟩
    · rcases hk with h | h <;> simp [h, resValve]
    · simp [h63, hn, resValve]
  · exact ⟨fun h => next_regWrite_ok hm (if_neg (by simp [h])), fun h => next_regWrite_refused hm (if_pos h)⟩

/-! ### Coefficient tables -/

theorem sfuTableLoadWrite_eq : sfuTableLoadWrite v s =
    if s.fld Fld.SFU_TABLE_STATUS_LOAD_STATE = 1 ∨ s.flag Fld.SFU_TABLE_STATUS_SWAP_PENDING = true then (.denied, s)
    else
      let s1 := ((s.setFld Fld.SFU_TABLE_STATUS_LOAD_STATE 1).setFld Fld.SFU_TABLE_STATUS_GEN_INACTIVE 0).setFld
        Fld.SFU_TABLE_STATUS_FAILED_CORES 0
      (.ok, s1.withUnits { s1.units with sfuLoad := some (wget v 39 12 * 4096), sfuStaged := [] }) := by
  simp only [sfuTableLoadWrite, Bool.or_eq_true, decide_eq_true_eq]
  rfl

/-- A write of 1 to SWAP, and of 1 to DISCARD. -/
theorem sfuCtrlWrite_swap : sfuCtrlWrite 1 s = if s.fld Fld.SFU_TABLE_STATUS_LOAD_STATE ≠ 2 then (.denied, s)
    else (.ok, (s.setFld Fld.SFU_TABLE_CTRL_SWAP 1).setFld Fld.SFU_TABLE_STATUS_SWAP_PENDING 1) := by
  have swap : bit 1 0 = true := by decide
  have disc : bit 1 1 = false := by decide
  simp [sfuCtrlWrite, swap, disc]
  rfl

theorem sfuCtrlWrite_discard : sfuCtrlWrite 2 s = if s.flag Fld.SFU_TABLE_STATUS_SWAP_PENDING then (.denied, s) else (.ok, s.sfuEmpty) := by
  have swap : bit 2 0 = false := by decide
  have disc : bit 2 1 = true := by decide
  simp [sfuCtrlWrite, swap, disc]

/-- Settles O31: a load's end is judged by its image and then by the cores that lost it. -/
theorem coefficientTablesReload : Obligations.CoefficientTablesReload := by
  intro s q v
  refine ⟨fun hm => ⟨fun hb => next_regWrite_refused hm (sfuTableLoadWrite_eq.trans (if_pos hb)),
    fun hb => next_regWrite_ok hm (sfuTableLoadWrite_eq.trans (if_neg hb)),
    fun h2 => next_regWrite_ok hm (sfuCtrlWrite_swap.trans (if_neg (not_not_intro h2))),
    fun h2 => next_regWrite_refused hm (sfuCtrlWrite_swap.trans (if_pos h2)),
    fun hp => next_regWrite_ok hm (sfuCtrlWrite_discard.trans (if_neg (by simp [hp]))),
    fun hp => next_regWrite_refused hm (sfuCtrlWrite_discard.trans (if_pos hp))⟩, ?_⟩
  intro a sig failed st gen s1 ha hv lost ended
  refine ⟨fun hst hl => ?_, fun hst hl => ?_, fun hst => ?_⟩
  all_goals
    change execSfuTableLoadDone sig failed s = _
    simp only [execSfuTableLoadDone, ha, hv, ended, lost, hst, if_true, if_false] at *
  · simp [hl, Status.when, Status.worse, lsReady]
  · simp [hl, Status.when, Status.worse, lsFailed]
  · simp [hst, Status.when, Status.worse, lsFailed]

/-! ### The memory system -/

theorem State.writeMem_of_ok {cls a : Nat} {l : List Byte} {u : State} (h : s.writeCheck cls a l.length = (.ok, u)) :
    s.writeMem cls a l = (.ok, u.putBytes a l) := by
  simp [State.writeMem, h]

theorem State.writeMem_of_not_ok {cls a : Nat} {l : List Byte} {st : Status} {u : State} (h : s.writeCheck cls a l.length = (st, u))
    (hst : st ≠ .ok) : s.writeMem cls a l = (st, u) := by
  simp [State.writeMem, h, hst]

theorem State.readMem_of_ok {cls a n : Nat} {r : Requester} {u : State} (h : s.readCheck cls r a n = (.ok, u)) :
    s.readMem cls r a n = (.ok, u.bytes a n, u) := by
  simp [State.readMem, h]

theorem State.readMem_of_not_ok {cls a n : Nat} {r : Requester} {st : Status} {u : State} (h : s.readCheck cls r a n = (st, u))
    (hst : st ≠ .ok) : s.readMem cls r a n = (st, [], u) := by
  simp [State.readMem, h, hst]

/-- A request that lies in HBM is made. -/
theorem execHbmRequest_write {cls : Fin 8} {addr : BitVec 40} {len : Nat} {data : List Byte} (ha : addr.toNat < hbmEnd)
    (hn : addr.toNat + data.length ≤ hbmEnd) : exec (.hbmRequest cls true addr len data) s =
      .next ((s.writeMem cls.val addr.toNat data).2.emit (.regResp (s.writeMem cls.val addr.toNat data).1 0)) := by
  change execHbmRequest cls true addr len data s = _
  simp [execHbmRequest, isHbm, ha, Nat.not_lt.mpr hn]

theorem execHbmRequest_read {cls : Fin 8} {addr : BitVec 40} {len : Nat} {data : List Byte} (ha : addr.toNat < hbmEnd)
    (hn : addr.toNat + len ≤ hbmEnd) : exec (.hbmRequest cls false addr len data) s =
      let r := s.readMem cls.val (.hbmClass cls.val) addr.toNat len
      .next (r.2.2.emit (.readData cls.val r.1.code r.2.1)) := by
  change execHbmRequest cls false addr len data s = _
  simp [execHbmRequest, isHbm, ha, Nat.not_lt.mpr hn]

/-- The state once the next codeword is scrubbed, before the position moves. -/
def scrubbed (s : State) : State :=
  let v := (List.range 12).foldl (fun x r => x.scrubWord ((12 * s.fld Fld.HBM_SCRUB_STATUS_POSITION + r) * 4096 + 64 * s.units.hbm.scrubAt))
    (s.setReady rdyScrub)
  v.withUnits { v.units with hbm := { v.units.hbm with scrubAt := (s.units.hbm.scrubAt + 1) % 64 } }

/-- The position moves on after the granule's last codeword, with a pass at its end. -/
theorem execScrubStep_next (hen : s.flag Fld.HBM_SCRUB_CTRL_ENABLE = true) (hrdy : s.ready rdyHbm = true) {idx : Fin 64}
    (hi : idx.val = s.units.hbm.scrubAt) : exec (.scrubStep idx) s =
    .next (if 63 ≤ s.units.hbm.scrubAt then
        if s.fld Fld.HBM_SCRUB_STATUS_POSITION + 1 = 2 ^ 24 then
          ((scrubbed s).setFld Fld.HBM_SCRUB_STATUS_POSITION 0).bumpWrap Fld.HBM_SCRUB_STATUS_PASSES 1
        else (scrubbed s).setFld Fld.HBM_SCRUB_STATUS_POSITION (s.fld Fld.HBM_SCRUB_STATUS_POSITION + 1)
      else scrubbed s) := by
  change execScrubStep idx s = _
  rw [execScrubStep, if_pos (by simp [hen, hrdy, hi])]
  rfl

section
variable (hen : s.flag Fld.HBM_SCRUB_CTRL_ENABLE = true) (hrdy : s.ready rdyHbm = true) {idx : Fin 64} (hi : idx.val = s.units.hbm.scrubAt)
include hen hrdy hi

theorem execScrubStep_inside (h : s.units.hbm.scrubAt < 63) : exec (.scrubStep idx) s = .next (scrubbed s) := by
  rw [execScrubStep_next hen hrdy hi, if_neg (Nat.not_le.mpr h)]

theorem execScrubStep_last (h : 63 ≤ s.units.hbm.scrubAt) (hp : s.fld Fld.HBM_SCRUB_STATUS_POSITION + 1 ≠ 2 ^ 24) :
    exec (.scrubStep idx) s =
      .next ((scrubbed s).setFld Fld.HBM_SCRUB_STATUS_POSITION (s.fld Fld.HBM_SCRUB_STATUS_POSITION + 1)) := by
  rw [execScrubStep_next hen hrdy hi, if_pos h, if_neg hp]

theorem execScrubStep_pass (h : 63 ≤ s.units.hbm.scrubAt) (hp : s.fld Fld.HBM_SCRUB_STATUS_POSITION + 1 = 2 ^ 24) :
    exec (.scrubStep idx) s =
      .next (((scrubbed s).setFld Fld.HBM_SCRUB_STATUS_POSITION 0).bumpWrap Fld.HBM_SCRUB_STATUS_PASSES 1) := by
  rw [execScrubStep_next hen hrdy hi, if_pos h, if_pos hp]

end

theorem execScrubStep_other {idx : Fin 64} (hi : idx.val ≠ s.units.hbm.scrubAt) : exec (.scrubStep idx) s = .next s :=
  congrArg Host.Outcome.next (if_neg (by simp [hi]))

/-- The epoch that a swap names: the second after the one that is running. -/
def State.swapEpoch (s : State) : Nat := ((s.time.toNat + 4095) / 4096 + 2) * 4096

theorem State.swapEpoch_bounds (s : State) : s.time.toNat + 8192 ≤ s.swapEpoch ∧ s.swapEpoch % 4096 = 0 := by
  unfold State.swapEpoch
  omega

/-- The state once a swap waits for its epoch. -/
def swapWaits (s : State) : State :=
  let s1 := ((s.setFld Fld.BWR_CTRL_SWAP 1).setFld Fld.BWR_STATUS_SWAP_PENDING 1).setFld Fld.BWR_STATUS_STAGE_STATUS 0
  s1.withUnits { s1.units with hbm := { s1.units.hbm with epoch := some s.swapEpoch } }

theorem swapWaits_hbm (s : State) : (swapWaits s).units.hbm = { s.units.hbm with epoch := some s.swapEpoch } := by
  have h (f g h : Field) (x y z : Nat) : (((s.setFld f x).setFld g y).setFld h z).units = s.units := rfl
  exact congrArg (fun u : Units => { u.hbm with epoch := some s.swapEpoch }) (h ..)

theorem swapWaits_keeps (s : State) : Keeps [.regs, .units] s (swapWaits s) :=
  (State.withUnits_keeps ..).after rfl
    ((State.setFld_keeps ..).after rfl ((State.setFld_keeps ..).after rfl ((State.setFld_keeps ..).after rfl (Keeps.refl _ _))))

theorem bwrSwap_of_ok (hp : s.flag Fld.BWR_STATUS_SWAP_PENDING = false) (hok : regulatorOk s.bwrStage = true) :
    bwrSwap 1 s = (.ok, swapWaits s) := by
  have swap : (!bit (1 : Word).toNat 0) ≠ true := by decide
  rw [bwrSwap, if_neg swap, if_neg (by simp [hp]), if_neg (by simp [hok])]
  rfl

/-- A list of pairs of a key and its value reads as the value at each key listed. -/
theorem SMap.get_map_self {β : Type} (d : β) (f : Nat → β) {l : List Nat} {k : Nat} (hk : k ∈ l) :
    SMap.get d (l.map fun k => (k, f k)) k = f k := by
  induction l with
  | nil => cases hk
  | cons a l ih =>
    by_cases h : k = a
    · simp [SMap.get, h]
    · rw [List.map_cons, SMap.get, if_neg h]
      exact ih (List.mem_of_ne_of_mem h hk)

theorem SMap.get_tab {β : Type} {n k : Nat} (d : β) (f : Nat → β) (hk : k < n) : SMap.get d (tab n fun k => (k, f k)) k = f k :=
  SMap.get_map_self d f (List.mem_range.mpr hk)

/-- The state once the banks are exchanged: no swap waits, and the token levels are the least of the old levels and the new bursts. -/
def clamped (s : State) (h : HbmUnit) (refilled : List (Nat × Nat)) (floor ceil : Nat → Nat) : State :=
  let full := fun k => s.fld (Fld.BWR_ACTIVE_BURST_KIB (k % 8)) * 32 * 2048
  s.withUnits { s.units with hbm := { h with
    epoch := none, refilled := refilled
    floorTok := tab 96 (fun k => (k, min (floor k) (full k)))
    ceilTok := tab 96 (fun k => (k, min (ceil k) (full k))) } }

theorem clamped_levels (h : HbmUnit) (refilled : List (Nat × Nat)) (floor ceil : Nat → Nat) :
    let u := clamped s h refilled floor ceil
    u.units.hbm.epoch = none ∧ Keeps [.units] s u ∧ ∀ k, k < 96 →
      SMap.get 0 u.units.hbm.floorTok k ≤ s.fld (Fld.BWR_ACTIVE_BURST_KIB (k % 8)) * 65536
      ∧ SMap.get 0 u.units.hbm.ceilTok k ≤ s.fld (Fld.BWR_ACTIVE_BURST_KIB (k % 8)) * 65536 := by
  intro u
  have le (m b : Nat) : min m (b * 32 * 2048) ≤ b * 65536 := by omega
  exact ⟨rfl, State.withUnits_keeps .., fun k hk => ⟨Nat.le_trans (Nat.le_of_eq (SMap.get_tab 0 _ hk)) (le ..), Nat.le_trans (Nat.le_of_eq (SMap.get_tab 0 _ hk)) (le ..)⟩⟩

/-- The active and the staged bank, exchanged. -/
def banksSwapped (s : State) : State :=
  (List.range 8).foldl (fun x p =>
    (x.setReg (Reg.BWR_ACTIVE p) (s.reg (Reg.BWR_STAGE p))).setReg (Reg.BWR_STAGE p) (s.reg (Reg.BWR_ACTIVE p))) s

/-- The tokens of a controller's partition under the bank that was active, refilled up to now. -/
def State.tokens (s : State) (m : List (Nat × Nat)) (share : Nat → Field) (k : Nat) : Nat :=
  let full := s.fld (Fld.BWR_ACTIVE_BURST_KIB (k % 8)) * 32 * 2048
  min ((SMap.find m k).getD full + tokenGain (s.fld (share (k % 8))) (s.time.toNat - SMap.get 0 s.units.hbm.refilled k)) full

/-- The state once a due swap has exchanged the banks, before it is counted. -/
def swapDone (s : State) : State :=
  clamped (banksSwapped s) s.units.hbm (tab 96 fun k => (k, max s.time.toNat (SMap.get 0 s.units.hbm.refilled k)))
    (s.tokens s.units.hbm.floorTok Fld.BWR_ACTIVE_FLOOR) (s.tokens s.units.hbm.ceilTok Fld.BWR_ACTIVE_CEIL)

theorem execBwrSwapEpoch_due {e : Nat} (he : s.units.hbm.epoch = some e) (hle : e ≤ s.time.toNat) :
    exec .bwrSwapEpoch s = .next ((((swapDone s).bumpWrap Fld.BWR_STATUS_GEN 1).setFld Fld.BWR_STATUS_SWAP_PENDING 0).setFld
      Fld.BWR_CTRL_SWAP 0) := by
  change execBwrSwapEpoch s = _
  simp only [execBwrSwapEpoch, he]
  exact congrArg Host.Outcome.next (if_neg (Nat.not_lt.mpr hle))

theorem execBwrSwapEpoch_early {e : Nat} (he : s.units.hbm.epoch = some e) (hlt : s.time.toNat < e) :
    exec .bwrSwapEpoch s = .next s := by
  change execBwrSwapEpoch s = _
  simp only [execBwrSwapEpoch, he]
  exact congrArg Host.Outcome.next (if_pos hlt)

/-- Settles O32: requests are judged by place and then by the checks of their words; each of the other commands does one thing. -/
theorem memorySystemCommandsComplete : Obligations.MemorySystemCommandsComplete := by
  intro s
  refine ⟨fun cls addr len data => ⟨fun ha hn => ⟨fun u hu => ?_, fun st u hst hu => ?_⟩, fun ha hn => ⟨fun u hu => ?_, fun st u hst hu => ?_⟩,
    fun write => ⟨fun ha => ?_, fun ha hn => ?_⟩⟩, fun hen hrdy => ?_, rfl, fun stack tempC => ?_, fun q hm hp hok => ?_, fun e he hle => ?_,
    fun e he hlt => ?_⟩
  · rw [execHbmRequest_write ha hn, State.writeMem_of_ok hu]
  · rw [execHbmRequest_write ha hn, State.writeMem_of_not_ok hu hst]
  · rw [execHbmRequest_read ha hn, State.readMem_of_ok hu]
    rfl
  · rw [execHbmRequest_read ha hn, State.readMem_of_not_ok hu hst]
  · change execHbmRequest cls write addr len data s = _
    simp [execHbmRequest, isHbm, Nat.not_lt.mpr ha]
  · change execHbmRequest cls write addr len data s = _
    simp [execHbmRequest, isHbm, ha, hn]
  · refine ⟨fun idx hi => execScrubStep_other hi, fun idx hi => ?_⟩
    exact ⟨execScrubStep_inside hen hrdy hi, execScrubStep_last hen hrdy hi, execScrubStep_pass hen hrdy hi⟩
  · change Host.Outcome.next _ = _
    rw [show b2n (decide (85 < tempC.toNat)) = if 85 < tempC.toNat then 1 else 0 by simp [b2n]]
  · have bounds := s.swapEpoch_bounds
    exact ⟨s.swapEpoch, swapWaits s, next_regWrite_ok hm (bwrSwap_of_ok hp hok), bounds.1, bounds.2, swapWaits_hbm s, swapWaits_keeps s⟩
  · exact ⟨swapDone s, clamped_levels .., execBwrSwapEpoch_due he hle⟩
  · exact execBwrSwapEpoch_early he hlt

end Sys2Proof.Machine
end

