-- ==== Sys2Proof/Proofs/Accesses.lean ====
section
/-! PROOFS. Accesses to the register window and the memories by the host, failures of links and of the map store, and injections. -/

namespace Sys2Proof.Machine
open Sys2Proof.Claims

variable {s : State}

/-! ### The register window (O33) -/

/-- What an access of the register at `a` is answered, once it is one the QP may make. -/
def registerAnswer (s : State) (x : RegAccess) (a : Nat) : State :=
  let st := Status.lowest [.when (findReg (a / 8 * 8)).isNone .unmapped,
    .when (!mayWrite x.req (a / 8 * 8) || ((findReg (a / 8 * 8)).map RegRow.noWrite).getD false) .denied,
    .when (decide (a % 8 ≠ 0) || decide (x.len ≠ 8)) .misaligned]
  let r := if st = .ok then s.writeReg x.obs a x.data else (st, s)
  (r.2.logReg x.req a r.1).emit (.regResp r.1 0)

theorem execRegisterWrite_reached {x : RegAccess} (ha : regBase ≤ x.addr.toNat) (hr : s.reaches x.req = true) :
    exec (.registerWrite x) s = .next (registerAnswer s x (x.addr.toNat - regBase)) :=
  congrArg Host.Outcome.next (if_neg (by simp [hr, ha]))

/-- An aligned write of a register that the requester may write is judged by the register's own rule. -/
theorem registerAnswer_of_allowed {x : RegAccess} {a : Nat} {r : RegRow} (hal : a % 8 = 0) (hl : x.len = 8)
    (hm : mayWrite x.req a = true) (hf : findReg a = some r) :
    registerAnswer s x a = let w := if r.noWrite then (.denied, s) else writeRule x.obs r a x.data s
      (w.2.logReg x.req a w.1).emit (.regResp w.1 0) := by
  have hd : a / 8 * 8 = a := by omega
  cases hn : r.noWrite <;>
    simp [registerAnswer, hd, hf, hm, hal, hl, hn, Status.when, Status.lowest, Status.worse, State.writeReg]

theorem State.hears_mgmt (s : State) (k : Nat) : s.hears (256 + k) = s.mgmtHears k := by
  rw [State.hears, if_neg (show ¬ 256 + k < 256 by omega), Nat.add_sub_cancel_left]

section
variable {q : Fin 4} {psn va : Nat} (hm : s.mgmtHears q.val = true)
include hm

theorem execMgmtRdmaWrite_heard (data : List Byte) (obs : WriteObs) : exec (.mgmtRdmaWrite q psn va data obs) s = .next
    (if toWindow va then
      if (s.seenBefore q psn true).isSome then s.emit (.ack (mgmtQpn q) psn)
      else if windowStatus va data.length ≠ .ok then s.nakHost (mgmtQpn q) psn va (windowStatus va data.length)
      else
        let u := s.writeWords q obs (va - regBase) (wordsLE data)
        if u.mgmtConn q then (u.keepSeen q ⟨psn, true, []⟩).emit (.ack (mgmtQpn q) psn) else u
    else if s.mgmtMemStatus true va data.length ≠ .ok then s.nakHost (mgmtQpn q) psn va (s.mgmtMemStatus true va data.length)
    else
      let w := s.writeMem 4 va data
      if w.1 = .ok then w.2.emit (.ack (mgmtQpn q) psn) else w.2.nakHost (mgmtQpn q) psn va w.1) :=
  congrArg Host.Outcome.next (if_neg (by simp [State.hears_mgmt, hm]))

theorem State.mgmtRead_window {len : Nat} {arising : List (Nat × Arising)} (hw : toWindow va = true)
    (hs : s.seenBefore q psn false = none) (hok : windowStatus va len = .ok) :
    s.mgmtRead q psn va len arising = s.readWindow q psn (va - regBase) len arising := by
  simp [State.mgmtRead, State.hears_mgmt, hm, hw, hs, hok]

theorem State.mgmtRead_seen {len : Nat} {arising : List (Nat × Arising)} {m : MgmtSeen} (hw : toWindow va = true)
    (hs : s.seenBefore q psn false = some m) : s.mgmtRead q psn va len arising = s.emit (.readData (mgmtQpn q) psn m.data) := by
  simp [State.mgmtRead, State.hears_mgmt, hm, hw, hs]

theorem State.mgmtRead_memory {len : Nat} {arising : List (Nat × Arising)} {l : List Byte} {u : State} (hw : toWindow va = false)
    (hok : s.mgmtMemStatus false va len = .ok) (hr : s.readMem 4 (.qp (mgmtQpn q)) va len = (.ok, l, u)) :
    s.mgmtRead q psn va len arising = u.emit (.readData (mgmtQpn q) psn l) := by
  simp [State.mgmtRead, State.hears_mgmt, hm, hw, hok, hr]

end

/-- The words of a log's page are words of the register window. -/
theorem toWindow_page (page : Fin 21) {first words : Nat} (h : first + words ≤ 512) :
    toWindow (regBase + Reg.VIO_HEAD page.val + 8 * first) = true
    ∧ windowStatus (regBase + Reg.VIO_HEAD page.val + 8 * first) (8 * words) = .ok := by
  have hp := page.isLt
  have lower : regBase ≤ regBase + Reg.VIO_HEAD page.val + 8 * first := by omega
  have upper : regBase + Reg.VIO_HEAD page.val + 8 * first < 2 ^ 40 := by simp only [regBase, Reg.VIO_HEAD]; omega
  have whole : ¬ (decide ((regBase + Reg.VIO_HEAD page.val + 8 * first) % 8 ≠ 0) || decide (8 * words % 8 ≠ 0)
      || decide (4096 < 8 * words)) = true := by
    have aligned : (regBase + Reg.VIO_HEAD page.val + 8 * first) % 8 = 0 := by simp only [regBase, Reg.VIO_HEAD]; omega
    simp [aligned]
    omega
  exact ⟨by simp only [toWindow, lower, upper, decide_true, Bool.and_true], if_neg whole⟩

/-- Settles O33: a write is judged by its register's rule, and a management request by the window or the memory that it goes to. -/
theorem registerAccessesComplete : Obligations.RegisterAccessesComplete := by
  refine ⟨fun s x r ha hr hal hl hm hf => ⟨fun hn => ?_, fun hn st u hw => ?_⟩, fun s q psn va hm => ⟨fun hw => ⟨fun data obs hs => ?_,
    fun data obs hs hok hc => ?_, fun len m hs => ?_, fun len hs hok => ?_⟩, fun hw => ⟨fun data obs u hok hu => ?_, fun len l u hok hu => ?_⟩,
    fun page first words arising hl hs => ?_⟩⟩
  · rw [execRegisterWrite_reached ha hr, registerAnswer_of_allowed hal hl hm hf, if_pos hn]
  · rw [execRegisterWrite_reached ha hr, registerAnswer_of_allowed hal hl hm hf, if_neg (by simp [hn]), hw]
  · rw [execMgmtRdmaWrite_heard hm, if_pos hw, if_pos hs]
  · rw [execMgmtRdmaWrite_heard hm, if_pos hw, if_neg (by simp [hs]), if_neg (not_not_intro hok)]
    exact congrArg Host.Outcome.next (if_pos hc)
  · exact congrArg Host.Outcome.next (State.mgmtRead_seen hm hw hs)
  · exact congrArg Host.Outcome.next (State.mgmtRead_window hm hw hs hok)
  · rw [execMgmtRdmaWrite_heard hm, if_neg (by simp [hw]), if_neg (not_not_intro hok), hu]
    rfl
  · exact congrArg Host.Outcome.next (State.mgmtRead_memory hm hw hok hu)
  · obtain ⟨hw, hok⟩ := toWindow_page page hl
    refine congrArg Host.Outcome.next ((State.mgmtRead_window hm hw hs hok).trans ?_)
    rw [Nat.add_assoc, Nat.add_sub_cancel_left]

/-! ### Requests of the host (O34) -/

section
variable {n : Fin 256} {psn va rkey : Nat} (hh : s.hears n.val = true)
include hh

theorem execDataQpRdmaWrite_heard (data : List Byte) : exec (.dataQpRdmaWrite n psn va rkey data) s = .next
    (if s.dataAccess n va data.length rkey ≠ .ok then s.nakHost (dataQpn n) psn va (s.dataAccess n va data.length rkey)
    else if va = doorbellAddr n then (s.ring' n (leNat (data.take 4))).emit (.ack (dataQpn n) psn)
    else
      let w := s.writeMem 4 va data
      if w.1 = .ok then w.2.emit (.ack (dataQpn n) psn) else w.2.nakHost (dataQpn n) psn va w.1) :=
  congrArg Host.Outcome.next (if_neg (by simp [hh]))

theorem execDataQpRdmaRead_heard (len : Nat) : exec (.dataQpRdmaRead n psn va rkey len) s = .next
    (if s.dataAccess n va len rkey ≠ .ok then s.nakHost (dataQpn n) psn va (s.dataAccess n va len rkey)
    else if va = doorbellAddr n then s.emit (.readData (dataQpn n) psn (leBytes 8 (s.reg (Reg.HST_DOORBELL n)).toNat))
    else
      let r := s.readMem 4 (.qp (dataQpn n)) va len
      if r.1 = .ok then r.2.2.emit (.readData (dataQpn n) psn r.2.1) else r.2.2.nakHost (dataQpn n) psn va r.1) :=
  congrArg Host.Outcome.next (if_neg (by simp [hh]))

theorem execDoorbell_heard (produced : BitVec 32) : exec (.doorbell n produced) s = .next (s.ring' n produced.toNat) :=
  congrArg Host.Outcome.next (if_pos hh)

end

/-- Settles O34: R410 judges a request first, then the doorbell's address, then the memory. -/
theorem hostRequestsComplete : Obligations.HostRequestsComplete := by
  intro s n psn va rkey hh qpn
  refine ⟨fun data hok => ⟨fun hva u hu => ?_, fun hva st u hst hu => ?_, fun hva => ?_⟩, fun data hno => ?_,
    fun len hok => ⟨fun hva l u hu => ?_, fun hva st l u hst hu => ?_, fun hva => ?_⟩, fun len hno => ?_, fun st => ?_,
    fun produced => ⟨fun hd => ?_, fun h0 hd ha => ?_, fun h => ?_⟩⟩
  · rw [execDataQpRdmaWrite_heard hh, if_neg (not_not_intro hok), if_neg hva, hu]
    rfl
  · rw [execDataQpRdmaWrite_heard hh, if_neg (not_not_intro hok), if_neg hva, hu]
    exact congrArg Host.Outcome.next (if_neg hst)
  · rw [execDataQpRdmaWrite_heard hh, if_neg (not_not_intro hok), if_pos hva]
  · rw [execDataQpRdmaWrite_heard hh, if_pos hno]
  · rw [execDataQpRdmaRead_heard hh, if_neg (not_not_intro hok), if_neg hva, hu]
    rfl
  · rw [execDataQpRdmaRead_heard hh, if_neg (not_not_intro hok), if_neg hva, hu]
    exact congrArg Host.Outcome.next (if_neg hst)
  · rw [execDataQpRdmaRead_heard hh, if_neg (not_not_intro hok), if_pos hva]
  · rw [execDataQpRdmaRead_heard hh, if_pos hno]
  · simp only [State.nakHost, Bool.and_eq_true, decide_eq_true_eq, qpn]
  · rw [execDoorbell_heard hh]
    exact congrArg Host.Outcome.next (if_pos hd)
  · rw [execDoorbell_heard hh]
    refine congrArg Host.Outcome.next ((if_neg (by omega)).trans (if_neg ?_))
    simp only [Bool.or_eq_true, decide_eq_true_eq]
    omega
  · rw [execDoorbell_heard hh]
    refine congrArg Host.Outcome.next ((if_neg (by omega)).trans (if_pos ?_))
    simp only [Bool.or_eq_true, decide_eq_true_eq]
    omega

/-! ### Links and the map store (O35) -/

/-- A read that meets an uncorrectable word fails and gives no bytes. -/
theorem State.readMem_dead {cls a n w : Nat} {req : Requester} (hp : s.pathStatus a n = .ok)
    (hw : w ∈ ((s.chargeHbm cls a n).chargeMs a n).deadWords a n) :
    ∃ u, s.readMem cls req a n = (.uncorrectable, [], u) := by
  obtain ⟨x, l, hl⟩ := List.exists_cons_of_ne_nil (List.ne_nil_of_mem hw)
  exact ⟨_, State.readMem_of_not_ok (by rw [State.readCheck, if_neg (not_not_intro hp), State.meetRead, hl]) (by decide)⟩

/-- A marked word of the map store that a request touches is among the uncorrectable words that it meets. -/
theorem State.mem_deadWords_charged {cls a n w : Nat} (hw : w ∈ s.msBad) (h1 : a / 64 ≤ w) (h2 : w * 64 < a + n) (hn : 0 < n) :
    w ∈ ((s.chargeHbm cls a n).chargeMs a n).deadWords a n := by
  have hk : Keeps [.regs, .units] s ((s.chargeHbm cls a n).chargeMs a n) :=
    (State.chargeMs_keeps ..).after rfl (State.chargeHbm_keeps ..)
  obtain ⟨-, -, hbad⟩ := hk.same .ecc rfl
  refine List.mem_append_right _ (List.mem_filter.mpr ⟨by rwa [hbad], ?_⟩)
  simp only [inWords, Bool.and_eq_true, decide_eq_true_eq]
  omega

theorem State.strand_boot (s : State) (hits : List (Nat × Nat)) : (hits.foldl State.strand s).boot = s.boot :=
  (Keeps.foldl (fun t x h => (State.strand_keeps t x).after rfl h) (Keeps.refl [.cores] s)).same .boot rfl

theorem State.strand_of_move {core i : Nat} {f : InFlight} (hf : (s.core core).inflight[i]? = some f) (hm : f.isMove = true) :
    s.strand (core, i) = s.setCore core
      { s.core core with inflight := setNth (s.core core).inflight i { f with worst := f.worst.worse .timeout } } := by
  simp only [State.strand, hf]
  exact if_pos hm

/-- A link that is in service leaves it, whatever MOVEs it strands. -/
theorem execD2dLinkOutOfService_of_up {l : LinkLoss} (hb : s.boot.bundle.isSome = true) (hl : s.linkOut l.link.val = false) :
    exec (.d2dLinkOutOfService l) s = .next ((l.hits.foldl State.strand s).linkDown l.link.val) :=
  congrArg Host.Outcome.next (if_pos (by simp [hb, hl]))

/-- Settles O35. -/
theorem linkAndMapStoreFailuresComplete : Obligations.LinkAndMapStoreFailuresComplete := by
  intro s
  refine ⟨fun req addr len hms hend => ⟨(s.readMem 0 req addr.toNat len).1, (s.readMem 0 req addr.toNat len).2.1,
    (s.readMem 0 req addr.toNat len).2.2, rfl, congrArg Host.Outcome.next (if_pos (by simp [hms, hend])), fun hp ⟨w, hw, h1, h2⟩ hn => ?_⟩,
    fun l => ⟨fun h0 => ?_, fun n hn => ?_⟩, fun l hb => ⟨fun hl => ?_, fun hl => ?_⟩, fun core i f hf hm => State.strand_of_move hf hm⟩
  · obtain ⟨u, hu⟩ := State.readMem_dead (req := req) hp (State.mem_deadWords_charged (cls := 0) hw h1 h2 hn)
    rw [hu]
    exact ⟨rfl, rfl⟩
  · change execD2dFlitCrcFail l s = _
    simp only [execD2dFlitCrcFail, h0]
  · change execD2dFlitCrcFail l s = _
    simp only [execD2dFlitCrcFail, hn]
  · refine (execD2dLinkOutOfService_of_up hb hl).trans (congrArg Host.Outcome.next (if_neg ?_))
    rw [State.linkOut, State.strand_boot]
    simpa [State.linkOut] using hl
  · exact congrArg Host.Outcome.next (if_neg (by simp [hl]))

/-! ### Injections (O37) -/

/-- The state once an injection has disarmed. -/
def disarmed (s : State) : State := (s.setFld Fld.TST_INJ_CTRL_ARM 0).withTest { s.test with armedAt := none }

theorem disarmed_keeps (s : State) : Keeps [.regs, .test] s (disarmed s) :=
  (State.withTest_keeps ..).after rfl ((State.setFld_keeps ..).after rfl (Keeps.refl _ _))

theorem disarmed_msBad (s : State) : (disarmed s).msBad = s.msBad := ((disarmed_keeps s).same .ecc rfl).2.2

theorem State.fire_due {kind : Nat} {f : State → State} (h : s.injDue kind = true) :
    s.fire kind f = (f (disarmed s)).trace 4 19 .ok (s.fld Fld.TST_INJ_CTRL_UNIT) (s.fld Fld.TST_INJ_ADDR_ADDR) 0 := if_pos h

/-- The state with a word of the map store marked uncorrectable. -/
def State.markBad (s : State) (w : Nat) : State := if s.msBad.contains w then s else s.withMsBad (w :: s.msBad)

theorem State.mem_markBad (s : State) (w v : Nat) : v ∈ (s.markBad w).msBad ↔ v = w ∨ v ∈ s.msBad := by
  unfold State.markBad
  split
  next h => exact ⟨.inr, fun hv => hv.elim (fun e => by simpa [e] using h) id⟩
  next h => exact List.mem_cons

theorem State.markBad_keeps (s : State) (w : Nat) : Keeps [.ecc] s (s.markBad w) := Keeps.ite (Keeps.refl _ _) (State.withMsBad_keeps ..)

/-- Settles O37: an injection that is due has its effect on the disarmed state and is traced. -/
theorem injectionsComplete : Obligations.InjectionsComplete := by
  intro s
  refine ⟨fun h hr => congrArg Host.Outcome.next ((State.fire_due h).trans ?_),
    fun h hr => congrArg Host.Outcome.next ((State.fire_due h).trans ?_),
    fun h => ⟨(disarmed s).markBad (s.fld Fld.TST_INJ_ADDR_ADDR / 64), congrArg Host.Outcome.next (State.fire_due h),
      (State.mem_markBad ..).mpr (.inl rfl), fun w hw => ((State.mem_markBad ..).trans (or_iff_right hw)).trans
      (by rw [disarmed_msBad]), State.markBad_keeps ..⟩,
    fun h => congrArg Host.Outcome.next (State.fire_due h), fun h => congrArg Host.Outcome.next (State.fire_due h),
    fun h => congrArg Host.Outcome.next (State.fire_due h), fun h he hd hf => congrArg Host.Outcome.next ((State.fire_due h).trans ?_)⟩
  · exact congrArg (fun x : State => x.trace 4 19 .ok (s.fld Fld.TST_INJ_CTRL_UNIT) (s.fld Fld.TST_INJ_ADDR_ADDR) 0) (if_pos hr)
  · exact congrArg (fun x : State => x.trace 4 19 .ok (s.fld Fld.TST_INJ_CTRL_UNIT) (s.fld Fld.TST_INJ_ADDR_ADDR) 0) (if_pos hr)
  · exact congrArg (fun x : State => x.trace 4 19 .ok (s.fld Fld.TST_INJ_CTRL_UNIT) (s.fld Fld.TST_INJ_ADDR_ADDR) 0)
      (if_neg (by simpa using ⟨⟨he, hd⟩, hf⟩))

end Sys2Proof.Machine
end

