-- ==== Sys2Proof/Proofs/HostSide.lean ====
section
/-! PROOFS. The host side: ports and connections (O38), the pages of queue pairs (O39), and the host's responses (O41). -/

namespace Sys2Proof.Machine
open Sys2Proof.Claims

variable {s : State}

/-! ### Ports and connections (O38) -/

/-- A counter's register and its saturation bit's are all that a count changes. -/
theorem State.fld_bump_ne (s : State) {cnt sat f : Field} (n : Nat) (hc : f.reg ≠ cnt.reg) (hs : f.reg ≠ sat.reg) :
    (s.bump cnt sat n).fld f = s.fld f := by
  rw [State.bump]
  split
  · exact State.fld_setFld_ne s _ hc
  · exact (State.fld_setFld_ne _ _ hs).trans (State.fld_setFld_ne s _ hc)

/-- A port's link is up or down whatever its frames count. -/
theorem State.linkUp_bump (s : State) (k n : Nat) {cnt sat : Field} (hc : cnt.reg = Reg.HST_PORT_COUNTS k) (hs : sat.reg = Reg.HST_PORT_COUNTS k) :
    (s.bump cnt sat n).linkUp k = s.linkUp k := by
  have hne : Reg.HST_PORT_STATUS k ≠ Reg.HST_PORT_COUNTS k := by simp only [Reg.HST_PORT_STATUS, Reg.HST_PORT_COUNTS]; omega
  have h := s.fld_bump_ne (cnt := cnt) (sat := sat) (f := Fld.HST_PORT_STATUS_LINK k) n (hc ▸ hne) (hs ▸ hne)
  simp only [State.linkUp, State.flag, h]

/-- A frame's FEC count, where it has one. -/
def State.countFec (s : State) (k n : Nat) : State :=
  if n = 0 then s else s.bump (Fld.HST_PORT_COUNTS_FEC_UNCORR k) (Fld.HST_PORT_COUNTS_FEC_SAT k) n

theorem State.linkUp_countFec (s : State) (k n : Nat) : (s.countFec k n).linkUp k = s.linkUp k := by
  unfold State.countFec
  split
  · rfl
  · exact s.linkUp_bump k n rfl rfl

/-- A frame is accepted: its checks and its VLAN are right, and its QP answers. -/
def FrameGood (s : State) (k : Nat) (f : EthFrame) : Prop :=
  f.fcsOk = true ∧ f.icrcOk = true
    ∧ (f.vlan = some (s.fld (Fld.HST_PORT_CFG_MGMT_VLAN k))
      ∨ (f.vlan = some (s.fld (Fld.HST_PORT_CFG_DATA_VLAN k)) ∧ s.fld (Fld.HST_PORT_CFG_DATA_VLAN k) ≠ 0))
    ∧ (f.qpn = 1 ∨ ∃ n, qpPlace f.qpn = some n ∧ s.qpAnswers n = true)

/-- The QP has sent a CNP less than 50 µs ago. -/
def CnpRecent (s : State) (qpn : Nat) : Prop := ∃ t, SMap.find s.host.cnpSent qpn = some t ∧ s.time.toNat < t + 50000

theorem State.answerCe_recent {qpn : Nat} (h : CnpRecent s qpn) : s.answerCe qpn = s := by
  obtain ⟨t, ht, hlt⟩ := h
  simp only [State.answerCe, ht]
  exact if_neg (by simpa using hlt)

theorem State.answerCe_due {qpn : Nat} (h : ¬ CnpRecent s qpn) : s.answerCe qpn =
    (s.withHost { s.host with cnpSent := SMap.insert s.host.cnpSent qpn s.time.toNat }).emit (.cnp qpn) := by
  rw [State.answerCe]
  refine if_pos ?_
  cases hf : SMap.find s.host.cnpSent qpn with
  | none => rfl
  | some t => exact decide_eq_true (Nat.le_of_not_lt fun hlt => h ⟨t, hf, hlt⟩)

/-- Of four checks one fails just where not all hold. -/
theorem any_fails_iff : ∀ {a b c d : Bool}, (!a || !b || !c || !d) = true ↔ ¬ (a = true ∧ b = true ∧ c = true ∧ d = true) := by
  decide

/-- What the port finds wrong with a frame is that it is not one to accept. -/
theorem frame_refused_iff {k : Nat} {f : EthFrame} : (!f.fcsOk || !f.icrcOk
      || !((f.vlan.map fun v => decide (v = s.fld (Fld.HST_PORT_CFG_MGMT_VLAN k))
        || (decide (v = s.fld (Fld.HST_PORT_CFG_DATA_VLAN k)) && decide (s.fld (Fld.HST_PORT_CFG_DATA_VLAN k) ≠ 0))).getD false)
      || !(decide (f.qpn = 1) || ((qpPlace f.qpn).map s.qpAnswers).getD false)) = true ↔ ¬ FrameGood s k f := by
  have vlan : ((f.vlan.map fun v => decide (v = s.fld (Fld.HST_PORT_CFG_MGMT_VLAN k))
        || (decide (v = s.fld (Fld.HST_PORT_CFG_DATA_VLAN k)) && decide (s.fld (Fld.HST_PORT_CFG_DATA_VLAN k) ≠ 0))).getD false) = true
      ↔ (f.vlan = some (s.fld (Fld.HST_PORT_CFG_MGMT_VLAN k))
        ∨ (f.vlan = some (s.fld (Fld.HST_PORT_CFG_DATA_VLAN k)) ∧ s.fld (Fld.HST_PORT_CFG_DATA_VLAN k) ≠ 0)) := by
    cases f.vlan <;> simp
  have qp : (decide (f.qpn = 1) || ((qpPlace f.qpn).map s.qpAnswers).getD false) = true
      ↔ (f.qpn = 1 ∨ ∃ n, qpPlace f.qpn = some n ∧ s.qpAnswers n = true) := by
    cases qpPlace f.qpn <;> simp
  rw [any_fails_iff, FrameGood, vlan, qp]

section
variable {k : Fin 4} {f : EthFrame} (hl : s.linkUp k.val = true)
include hl

theorem execEthFrameReceived_up : exec (.ethFrameReceived k f) s = .next
    (let s1 := s.countFec k f.fec
     if (!f.fcsOk || !f.icrcOk
      || !((f.vlan.map fun v => decide (v = s1.fld (Fld.HST_PORT_CFG_MGMT_VLAN k))
        || (decide (v = s1.fld (Fld.HST_PORT_CFG_DATA_VLAN k)) && decide (s1.fld (Fld.HST_PORT_CFG_DATA_VLAN k) ≠ 0))).getD false)
      || !(decide (f.qpn = 1) || ((qpPlace f.qpn).map s1.qpAnswers).getD false)) then s1.dropFrame k
     else if f.ce then s1.answerCe f.qpn else s1) := by
  change execEthFrameReceived k f s = _
  rw [execEthFrameReceived, if_neg (by simp [hl])]
  cases f.vlan <;> rfl

theorem execEthFrameReceived_bad (hb : ¬ FrameGood (s.countFec k f.fec) k f) : exec (.ethFrameReceived k f) s =
    .next ((s.countFec k f.fec).bump (Fld.HST_PORT_COUNTS_DROPPED k) (Fld.HST_PORT_COUNTS_DROP_SAT k) 1) :=
  (execEthFrameReceived_up hl).trans (congrArg Host.Outcome.next ((if_pos (frame_refused_iff.mpr hb)).trans
    (if_pos ((s.linkUp_countFec k f.fec).trans hl))))

theorem execEthFrameReceived_good (hg : FrameGood (s.countFec k f.fec) k f) : exec (.ethFrameReceived k f) s =
    .next (if f.ce then (s.countFec k f.fec).answerCe f.qpn else s.countFec k f.fec) :=
  (execEthFrameReceived_up hl).trans (congrArg Host.Outcome.next (if_neg (fun h => frame_refused_iff.mp h hg)))

end

/-- Settles O38. A frame is judged after its FEC count, which leaves the link as it is. -/
theorem hostPortEventsComplete : Obligations.HostPortEventsComplete := by
  intro s k
  refine ⟨fun h1 h2 h3 h4 h5 kr => congrArg Host.Outcome.next (if_neg ?_), ⟨fun ⟨i, hi, hu⟩ => congrArg Host.Outcome.next (if_pos ?_),
      fun hu => congrArg Host.Outcome.next (if_neg ?_)⟩,
    fun hl => ⟨fun hm => ⟨fun hc => ?_, fun service h => ?_⟩, fun hc => ?_,
      fun f => ⟨fun hb => execEthFrameReceived_bad hl hb, fun hg hce => ?_, fun hg hce hr => ?_⟩⟩,
    fun n hn => congrArg Host.Outcome.next (if_pos hn)⟩
  · simp [h1, h2, h3, h4, h5]
  · exact List.any_eq_true.mpr ⟨i, List.mem_range.mpr hi, hu⟩
  · simpa using hu
  · exact congrArg Host.Outcome.next ((if_neg (by simp [hl, hm])).trans (if_neg (by simp [hc])))
  · exact congrArg Host.Outcome.next ((if_neg (by simp [hl, hm])).trans (if_pos (by simpa using h)))
  · exact congrArg Host.Outcome.next (if_pos (by simp [hl, hc]))
  · rw [execEthFrameReceived_good hl hg]
    rcases hce with h | h
    · rw [h]
      rfl
    · refine congrArg Host.Outcome.next ?_
      split
      · exact State.answerCe_recent h
      · rfl
  · refine (execEthFrameReceived_good hl hg).trans (congrArg Host.Outcome.next ((if_pos hce).trans (State.answerCe_due hr)))

/-! ### Pages of queue pairs (O39) -/

section
variable {n w : Nat} {v : Word}

/-- Words 1 to 7 are written but in READY; in ERROR where they leave the kept fields as they are. -/
theorem qpPageWrite_rest (hw : w ≠ 0) : qpPageWrite n w v s =
    if s.qpState n = 1 then (.denied, s)
    else if s.qpState n = 2 ∧ qpKeep w v ≠ qpKeep w (s.reg (qpWord n w)) then (.denied, s)
    else (.ok, s.setReg (qpWord n w) (v &&& qpMask w)) := by
  rw [qpPageWrite, if_pos hw]
  simp only [Bool.and_eq_true, decide_eq_true_eq]

/-- Word 0 is judged by the state that it names, from the one that the pair is in. -/
theorem qpPageWrite_state : qpPageWrite n 0 v s =
    let put := s.setReg (qpWord n 0) (v &&& qpMask 0)
    if wget v 63 62 = 2
        ∨ (s.qpState n = 1 ∧ v &&& qpMask 0 &&& 0x3fffffffffffffff ≠ s.reg (qpWord n 0) &&& 0x3fffffffffffffff)
        ∨ (s.qpState n = 2 ∧ qpKeep 0 v ≠ qpKeep 0 (s.reg (qpWord n 0))) then (.denied, s)
    else if wget v 63 62 = 3 then (.verify, s)
    else if wget v 63 62 = 0 then (.ok, if s.qpState n = 0 then put else put.enterReset n)
    else if s.qpState n = 1 then (.ok, s)
    else if s.readyStatus n v ≠ .ok then (s.readyStatus n v, s) else (.ok, put.enterReady n (decide (s.qpState n = 0))) := by
  rw [qpPageWrite, if_neg (not_not_intro rfl)]
  simp only [Bool.or_eq_true, Bool.and_eq_true, decide_eq_true_eq, Bool.not_eq_true', decide_eq_false_iff_not, or_assoc]

end

section
variable {n : Nat} {v : Word}

/-- The states of a pair exclude each other, and so do the states that a write names. -/
theorem qpPageWrite_toReset (hv : wget v 63 62 = 0)
    (h1 : s.qpState n = 1 → v &&& qpMask 0 &&& 0x3fffffffffffffff = s.reg (qpWord n 0) &&& 0x3fffffffffffffff)
    (h2 : s.qpState n = 2 → qpKeep 0 v = qpKeep 0 (s.reg (qpWord n 0))) : qpPageWrite n 0 v s =
      (.ok, if s.qpState n = 0 then s.setReg (qpWord n 0) (v &&& qpMask 0) else (s.setReg (qpWord n 0) (v &&& qpMask 0)).enterReset n) := by
  refine qpPageWrite_state.trans ((if_neg ?_).trans ((if_neg (by omega)).trans (if_pos hv)))
  rintro (h | ⟨h, hne⟩ | ⟨h, hne⟩)
  · omega
  · exact hne (h1 h)
  · exact hne (h2 h)

theorem qpPageWrite_toReady (hv : wget v 63 62 = 1) (h1 : s.qpState n ≠ 1)
    (h2 : s.qpState n = 2 → qpKeep 0 v = qpKeep 0 (s.reg (qpWord n 0))) : qpPageWrite n 0 v s =
      if s.readyStatus n v ≠ .ok then (s.readyStatus n v, s)
      else (.ok, (s.setReg (qpWord n 0) (v &&& qpMask 0)).enterReady n (decide (s.qpState n = 0))) := by
  refine qpPageWrite_state.trans ((if_neg ?_).trans ((if_neg (by omega)).trans ((if_neg (by omega)).trans (if_neg h1))))
  rintro (h | ⟨h, -⟩ | ⟨h, hne⟩)
  · omega
  · exact h1 h
  · exact hne (h2 h)

end

/-- Settles O39: a page's words are judged by the state of the pair, and word 0 also by the state that it names. -/
theorem queuePairPagesComplete : Obligations.QueuePairPagesComplete := by
  intro s q v hm
  refine ⟨fun n w => ⟨fun hw h0 => next_regWrite_ok hm ?_, fun hw h1 => next_regWrite_refused hm ?_, fun hw h0 => ?_,
    fun hw h1 hv hsame => ?_, fun h2 hkeep => ⟨fun hw => next_regWrite_ok hm ?_, fun hw hv => ?_, fun hw hv hok => ?_⟩⟩,
    fun k => ⟨fun hb r => ?_, fun hb => ⟨fun hv => next_regWrite_refused hm ((if_neg (by simp [hb])).trans (if_pos hv)),
      fun hv => next_regWrite_ok hm ((if_neg (by simp [hb])).trans (if_neg (Nat.not_lt.mpr hv))),
      next_regWrite_ok hm (if_neg (by simp [hb])), next_regWrite_ok hm (if_neg (by simp [hb]))⟩⟩⟩
  · exact (qpPageWrite_rest hw).trans ((if_neg (by omega)).trans (if_neg fun h => by omega))
  · exact (qpPageWrite_rest hw).trans (if_pos h1)
  · obtain rfl : w = 0 := Fin.ext hw
    have at0 {k : Nat} (hk : k ≠ 0) (h : s.qpState n.val = k) : False := hk (h.symm.trans h0)
    have toReady (hv : wget v 63 62 = 1) := qpPageWrite_toReady (s := s) (n := n.val) hv (at0 (by decide)) fun h => (at0 (by decide) h).elim
    refine ⟨fun hv => next_regWrite_ok hm ?_, fun hv hok => next_regWrite_ok hm ?_, fun hv hno => next_regWrite_refused hm ?_,
      fun hv => next_regWrite_refused hm ?_, fun hv => next_regWrite_refused hm ?_⟩
    · refine (qpPageWrite_toReset hv (fun h => (at0 (by decide) h).elim) fun h => (at0 (by decide) h).elim).trans ?_
      rw [if_pos h0]
      rfl
    · refine (toReady hv).trans ((if_neg (not_not_intro hok)).trans ?_)
      rw [decide_eq_true h0]
      rfl
    · exact (toReady hv).trans (if_pos hno)
    · exact qpPageWrite_state.trans (if_pos (.inl hv))
    · exact qpPageWrite_state.trans ((if_neg (by omega)).trans (if_pos hv))
  · obtain rfl : w = 0 := Fin.ext hw
    refine next_regWrite_ok hm ((qpPageWrite_toReset hv (fun _ => hsame) (by omega)).trans ?_)
    rw [if_neg (by omega)]
    rfl
  · exact (qpPageWrite_rest hw).trans ((if_neg (by omega)).trans (if_neg fun h => h.2 hkeep))
  · obtain rfl : w = 0 := Fin.ext hw
    refine next_regWrite_ok hm ((qpPageWrite_toReset hv (by omega) (fun _ => hkeep)).trans ?_)
    rw [if_neg (by omega)]
    rfl
  · obtain rfl : w = 0 := Fin.ext hw
    refine next_regWrite_ok hm ((qpPageWrite_toReady hv (by omega) (fun _ => hkeep)).trans ((if_neg (not_not_intro hok)).trans ?_))
    rw [decide_eq_false (by omega)]
    rfl
  · match r with
    | 0 => exact next_regWrite_refused hm (if_pos hb)
    | 1 => exact next_regWrite_refused hm (if_pos hb)
    | 2 => exact next_regWrite_refused hm (if_pos hb)

/-! ### The host's responses (O41) -/

/-- Settles O41: a response is judged by its kind and by the requests that it answers. -/
theorem hostResponsesComplete : Obligations.HostResponsesComplete := by
  intro s n q
  have waits (hr : q.reqs ≠ []) (ha : s.qpAnswers n.val = true) : ¬ ((s.qp n.val).reqs.isEmpty || !s.qpAnswers n.val) = true := by
    simpa [ha] using hr
  refine ⟨fun hh => ⟨fun psn l rest h => ?_, fun psn bytes l x rest first e off len h hx y st u hy hw => ?_,
      fun psn l x rest first e len h hx => ?_, fun psn l x rest h => ?_⟩, fun hr ha => ⟨fun hn => ?_, fun hn hlt => ?_, fun hn hle => ?_⟩,
    fun hr ha => ?_⟩
  · change execRoceResponse n (.ack psn) s = _
    simp only [execRoceResponse, hh, h, q]
    rfl
  · change execRoceResponse n (.data psn bytes) s = _
    simp only [execRoceResponse, hh, h, hx, hy, hw, q]
    rfl
  · change execRoceResponse n (.nak psn) s = _
    rcases hx with hx | ⟨off, hx⟩
    · simp only [execRoceResponse, hh, h, hx, q]
      rfl
    · simp only [execRoceResponse, hh, h, hx, q]
      rfl
  · change execRoceResponse n (.rnr psn) s = _
    simp only [execRoceResponse, hh, h, q]
    rfl
  · exact congrArg Host.Outcome.next ((if_neg (waits hr ha)).trans (if_pos hn))
  · exact congrArg Host.Outcome.next ((if_neg (waits hr ha)).trans ((if_neg (by omega)).trans (if_pos hlt)))
  · exact congrArg Host.Outcome.next ((if_neg (waits hr ha)).trans ((if_neg (by omega)).trans (if_neg (Nat.not_lt.mpr hle))))
  · have hr' : (s.qp n.val).rnr = true := hr
    exact congrArg Host.Outcome.next (if_neg (by simp [hr', ha]))

end Sys2Proof.Machine
end

