-- ==== Sys2Proof/Proofs/Pages.lean ====
section
/-! PROOFS. The KV page subsystem: its control (O42) and its commands (O43). -/

namespace Sys2Proof.Machine
open Sys2Proof.Claims

variable {s : State} {q : Fin 4} {v : Word}

/-! ### Control (O42) -/

/-- A job on the cores or a pending command holds the subsystem. -/
theorem kvp_held_iff : (s.sched.run.isSome || s.kvpBusy) = true ↔ (s.sched.run.isSome = true ∨ s.fld Fld.KVP_STATUS_PENDING ≠ 0) := by
  simp only [State.kvpBusy, Bool.or_eq_true, decide_eq_true_eq]

theorem kvpCtrlWrite_enable : kvpCtrlWrite 1 s =
    if s.flag Fld.KVP_STATUS_ENABLED = true ∧ (s.sched.run.isSome = true ∨ s.fld Fld.KVP_STATUS_PENDING ≠ 0) then (.denied, s)
    else if s.ready rdyHbm = false then (.notReady, s)
    else (.ok, if s.flag Fld.KVP_STATUS_ENABLED = true then (s.wipeKvp.setFld Fld.KVP_CTRL_ENABLE 1).bumpWrap Fld.KVP_STATUS_KVP_GEN 1
      else s.wipeKvp.setFld Fld.KVP_CTRL_ENABLE 1) := by
  rw [kvpCtrlWrite, if_pos (by decide)]
  simp only [Bool.and_eq_true, kvp_held_iff, Bool.not_eq_true']

theorem kvpCtrlWrite_disable : kvpCtrlWrite 0 s =
    if s.sched.run.isSome = true ∨ s.fld Fld.KVP_STATUS_PENDING ≠ 0 then (.denied, s)
    else (.ok, (s.setFld Fld.KVP_CTRL_ENABLE 0).setFld Fld.KVP_STATUS_ENABLED 0) := by
  rw [kvpCtrlWrite, if_neg (by decide)]
  simp only [kvp_held_iff]

theorem kvpSubmitWrite_good (hen : s.flag Fld.KVP_STATUS_ENABLED = true) (ha : isHbm (wget v 39 6 * 64) = true)
    (ht : s.touchesClass classKvp (wget v 39 6 * 64) 64 = false) : kvpSubmitWrite v s =
      if 64 ≤ s.fld Fld.KVP_STATUS_PENDING then (.denied, s)
      else (.ok, (s.setKvp { s.kvp with queue := s.kvp.queue ++ [wget v 39 6 * 64] }).showKvp) := by
  by_cases hf : 64 ≤ s.fld Fld.KVP_STATUS_PENDING <;>
    simp [kvpSubmitWrite, hen, ha, ht, hf, Status.when, Status.lowest, Status.worse]

/-- A page's copy goes on once no answer of another module is awaited: what is missing is asked for, a read that fails ends it, what
goes to other modules is sent, and then it ends. -/
theorem execMovePageCopyDone_next {m : KvpCopy} {st : Status} {fa : Nat} {missing : List (Nat × Nat)} {u : State}
    (hc : s.kvp.copying = some m) (ho : s.owes .kvp = false)
    (hr : s.kvpReads ((s.copyParts m).map (fun p => (p.1, p.2.2))) = (st, fa, missing, u)) :
    exec .movePageCopyDone s = .next
      (let out := s.kvpWrites ((s.copyParts m).map (fun p => (p.2.1, s.fabBytes s.kvp.got p.1 p.2.2)))
       if missing ≠ [] then s.kvpSend (readTrans .kvp s.kvpTag missing) none
       else if st ≠ .ok then u.copyFails m st
       else if s.kvp.sent = none ∧ out ≠ [] then s.kvpSend out (some .ok)
       else if s.kvp.sent.getD .ok ≠ .ok then s.copyFails m (s.kvp.sent.getD .ok)
       else u.copyEnds m ((s.copyParts m).map (fun p => (p.2.1, u.fabBytes s.kvp.got p.1 p.2.2)))) := by
  change execMovePageCopyDone s = _
  simp only [execMovePageCopyDone, hc, hr]
  refine congrArg Host.Outcome.next ((if_neg (by simp [ho])).trans ?_)
  simp

/-- Settles O42: each write by its register's rule, and a page's copy by what is still missing of it. -/
theorem pageSubsystemControlCompletes : Obligations.PageSubsystemControlCompletes := by
  intro s
  refine ⟨fun q hm => ⟨fun hr hh => ?_, fun hr ho => ?_, fun hr ho hh => ?_, fun ho hh => ?_, fun hh => ?_, fun hh => ?_,
      fun v ho ha ht => ⟨fun hp => ?_, fun hp => ?_⟩⟩, fun hn => ?_, fun hs => ?_, fun m hc ho => ?_⟩
  · exact next_regWrite_refused hm (kvpCtrlWrite_enable.trans ((if_neg hh).trans (if_pos hr)))
  · refine next_regWrite_ok hm (kvpCtrlWrite_enable.trans ((if_neg (by simp [ho])).trans ((if_neg (by simp [hr])).trans ?_)))
    rw [if_neg (by simp [ho])]
  · refine next_regWrite_ok hm (kvpCtrlWrite_enable.trans ((if_neg (fun h => hh h.2)).trans ((if_neg (by simp [hr])).trans ?_)))
    rw [if_pos ho]
  · exact next_regWrite_refused hm (kvpCtrlWrite_enable.trans (if_pos ⟨ho, hh⟩))
  · exact next_regWrite_ok hm (kvpCtrlWrite_disable.trans (if_neg hh))
  · exact next_regWrite_refused hm (kvpCtrlWrite_disable.trans (if_pos hh))
  · exact next_regWrite_ok hm ((kvpSubmitWrite_good ho ha ht).trans (if_neg (Nat.not_le.mpr hp)))
  · exact next_regWrite_refused hm ((kvpSubmitWrite_good ho ha ht).trans (if_pos hp))
  · exact congrArg Host.Outcome.next (if_neg (by simp [hn]))
  · exact congrArg Host.Outcome.next (if_pos hs)
  · intro parts out st fa missing u hr back
    have step := execMovePageCopyDone_next hc ho hr
    refine ⟨fun hmiss => step.trans (congrArg _ (if_pos hmiss)), fun hmiss hst => step.trans (congrArg _ ((if_neg (not_not_intro hmiss)).trans (if_pos hst))),
      fun hmiss hst => ⟨fun hs ho => ?_, fun why hs hw => ?_, fun hs => ?_⟩⟩
    all_goals refine step.trans (congrArg Host.Outcome.next ((if_neg (not_not_intro hmiss)).trans ((if_neg (not_not_intro hst)).trans ?_)))
    · exact if_pos ⟨hs, ho⟩
    · refine (if_neg (by simp [hs])).trans ?_
      rw [hs]
      exact if_pos hw
    · rcases hs with ⟨hs, ho⟩ | hs
      · refine (if_neg fun h => h.2 ho).trans ?_
        rw [hs]
        rfl
      · refine (if_neg (by simp [hs])).trans ?_
        rw [hs]
        rfl

/-! ### Commands (O43) -/

/-- The state once a command of the record at `a` has had its effect; `queue` is the queue with the record at its head. -/
def kvpEnd (a op : Nat) (queue : List Nat) : KvpEff → State
  | .fail st s2 => s2.kvpDrop.kvpComplete a op st 0
  | .later s2 => s2.setKvp { s2.kvp with queue }
  | .done s2 => s2.kvpDrop.kvpComplete a op .ok 0
  | .waits result frees s2 => (s2.setKvp { s2.kvp with waiting := s2.kvp.waiting ++ [⟨a, op, result, frees⟩] }).showKvp
  | .copies e fr su s2 => (s2.setKvp { s2.kvp with copying := some ⟨a, e, fr, su⟩ }).showKvp

/-- A command's effect works on the state once its record is read and is no longer queued. -/
def kvpTaken (u : State) (rest : List Nat) : State := u.setKvp { u.kvp with queue := rest }

section
variable {a : Nat} {rest : List Nat} {u : State} (hq : s.kvp.queue = a :: rest) (hc : s.kvp.copying = none) (ho : s.owes .kvp = false)
  (hr : s.readCheck 7 .module a 64 = (.ok, u)) (h3 : byteField (s.num a 64) 3 1 = 0) (h42 : byteField (s.num a 64) 42 6 = 0)
include hq hc ho hr h3 h42

/-- A good record at the head of the queue runs the effect of its operation. -/
theorem State.kvpExec_head {op : Nat} {f : Nat → State → KvpEff} (h : byteField (s.num a 64) 0 1 = op) (h0 : op ≠ 0) (h8 : op ≤ 8) :
    s.kvpExec op f = kvpEnd a op (a :: rest) (f (s.num a 64) (kvpTaken u rest)) := by
  simp only [State.kvpExec, hq]
  refine (if_neg (by simp [hc, ho])).trans ?_
  rw [hr]
  refine (if_neg (not_not_intro rfl)).trans ((if_neg (by simp [h, h0, h8])).trans ((if_neg (not_not_intro h)).trans
    ((if_neg (by simp [h3, h42])).trans ?_)))
  change (match f (s.num a 64) (kvpTaken u rest) with
    | .fail st s2 => _
    | .later s2 => _
    | .done s2 => _
    | .waits result frees s2 => _
    | .copies e fr su s2 => _) = _
  cases f (s.num a 64) (kvpTaken u rest) <;> rfl

theorem next_kvpExec {op : Nat} {f : Nat → State → KvpEff} {e : KvpEff} (h : byteField (s.num a 64) 0 1 = op) (h0 : op ≠ 0) (h8 : op ≤ 8)
    (he : f (s.num a 64) (kvpTaken u rest) = e) :
    (.next (s.kvpExec op f) : Host.Outcome State Fault Refusal) = .next (kvpEnd a (byteField (s.num a 64) 0 1) (a :: rest) e) := by
  rw [State.kvpExec_head hq hc ho hr h3 h42 h h0 h8, he, h]

end

section
variable {w : Nat} {t : State}

theorem ctxSetEff_done {c : WalkCtx} (hn : argA w ≤ 255) (hr : s.kvpRead (addr0 w) 64 = (.ok, t))
    (hc : WalkCtx.ofNum (t.num (addr0 w) 64) = some c)
    (hl : s.kvp.ctxInUse (argA w) = false ∨ ∀ o, s.kvp.lastCtx (argA w) = some o → o.ring = c.ring ∧ o.layers = c.layers ∧ o.heads = c.heads
        ∧ o.d = c.d ∧ o.kFmt = c.kFmt ∧ o.vFmt = c.vFmt) :
    ctxSetEff w s = .done (t.stage (.ctx (argA w) c)) := by
  simp only [ctxSetEff, hr, hc]
  refine (if_neg (by simp [hn, Status.when, Status.worse])).trans (if_neg ?_)
  rcases hl with hu | hl
  · simp [hu]
  · cases ho : s.kvp.lastCtx (argA w) with
    | none => simp
    | some o => simp [hl o ho]

theorem seqClearEff_live (hn : argA w ≤ 16383) (hl : (s.kvp.lastSeq (argA w)).live = true) : seqClearEff w s =
    if argC w ≠ (s.kvp.lastSeq (argA w)).version then .fail .stale s
    else .done (s.stage (.seq (argA w) { ctx := (s.kvp.lastSeq (argA w)).ctx, version := ((s.kvp.lastSeq (argA w)).version + 1) % 2 ^ 32 })) :=
  if_neg (by simp [hn, hl])

/-- The record that SEQ_PUBLISH stages, before it refers to its pages. -/
def publishRec (s : State) (w : Nat) : SeqRec :=
  ⟨true, bits (argB w) 31 24, ((s.kvp.lastSeq (argA w)).version + 1) % 2 ^ 32, addr0 w, bits (argB w) 16 0, pos0 w, pos1 w, []⟩

/-- The directory entries that the pages of a list name. -/
def listedEntries (s : State) (r : SeqRec) (c : WalkCtx) : List Nat := r.pages.map (fun l => (s.listEntry r c l).index)

/-- SEQ_PUBLISH of a record whose shape is good: its list and the entries that it names are read and judged. -/
def publishListed (s : State) (w : Nat) (r : SeqRec) (c : WalkCtx) : KvpEff :=
  let rd := s.kvpRead r.listBase (8 * r.listLen)
  let es := r.pages.map (fun l => (l, s.listEntry r c l))
  if rd.1 ≠ .ok then .fail rd.1 rd.2
  else
    let ix := es.map (fun p => p.2.index)
    let de := rd.2.dirReads ix
    if de.1 ≠ .ok then .fail de.1 de.2
    else if es.any (fun p => !s.entryOk (argA w) r c p.1 p.2) then .fail .verify de.2
    else if argC w ≠ (s.kvp.lastSeq (argA w)).version then .fail .stale de.2
    else .done ((de.2.addRefs true ix).stage (.seq (argA w) { r with refs := ix }))

theorem publishListed_good {r : SeqRec} {c : WalkCtx} {t2 : State} (hr : s.kvpRead r.listBase (8 * r.listLen) = (.ok, t))
    (hok : ∀ l ∈ r.pages, s.entryOk (argA w) r c l (s.listEntry r c l) = true) (hd : t.dirReads (listedEntries s r c) = (.ok, t2)) :
    publishListed s w r c = if argC w ≠ (s.kvp.lastSeq (argA w)).version then .fail .stale t2
      else .done ((t2.addRefs true (listedEntries s r c)).stage (.seq (argA w) { r with refs := listedEntries s r c })) := by
  have hix : (r.pages.map (fun l => (l, s.listEntry r c l))).map (fun p => p.2.index) = listedEntries s r c := List.map_map
  have hany : (r.pages.map (fun l => (l, s.listEntry r c l))).any (fun p => !s.entryOk (argA w) r c p.1 p.2) = false := by
    simpa using hok
  simp only [publishListed, hr, hix, hd]
  exact (if_neg (not_not_intro rfl)).trans ((if_neg (not_not_intro rfl)).trans (if_neg (ne_true_of_eq_false hany)))

/-- The shape of a record that SEQ_PUBLISH stages is good. -/
structure PublishShape (s : State) (old : SeqRec) (r : SeqRec) (c : WalkCtx) : Prop where
  aligned : r.listBase % 64 = 0
  some' : 1 ≤ r.listLen
  most : r.listLen ≤ 65536
  first : r.firstPos ≤ r.len
  len : r.len < 2 ^ 32
  list : r.listOk c = true
  same : old.live = true → old.ctx = r.ctx
  region : s.inHbmRegion r.listBase (8 * r.listLen) = true

theorem PublishShape.check {old r : SeqRec} {c : WalkCtx} (h : PublishShape s old r c) :
    (r.listBase % 64 = 0 && decide (1 ≤ r.listLen) && decide (r.listLen ≤ 65536) && decide (r.firstPos ≤ r.len)
      && decide (r.len < 2 ^ 32) && r.listOk c && !(old.live && decide (old.ctx ≠ r.ctx)) && s.inHbmRegion r.listBase (8 * r.listLen)) = true := by
  obtain ⟨h1, h2, h3, h4, h5, h6, h7, h8⟩ := h
  have hold : (old.live && decide (old.ctx ≠ r.ctx)) = false := by simpa using h7
  simp only [h1, h2, h3, h4, h5, h6, h8, hold, decide_true, Bool.not_false, Bool.and_self]

theorem seqPublishEff_shaped {c : WalkCtx} (hn : argA w ≤ 16383) (hc : s.kvp.lastCtx (bits (argB w) 31 24) = some c)
    (hs : PublishShape s (s.kvp.lastSeq (argA w)) (publishRec s w) c) : seqPublishEff w s = publishListed s w (publishRec s w) c := by
  simp only [seqPublishEff, hc]
  exact (if_neg (Nat.not_lt.mpr hn)).trans (if_neg (ne_true_of_eq_false (congrArg (!·) hs.check)))

theorem mapEff_free {c : WalkCtx} (hr : rangeOk w = true) (hh : argC w ≤ 16383)
    (hl : (s.kvp.seq (argC w)).live = true ∨ (s.kvp.lastSeq (argC w)).live = true) (hc : s.handleCtx (argC w) = some c)
    (hd : s.kvpRead (s.dirAddr (argA w)) (32 * argB w) = (.ok, t))
    (hok : ∀ i ∈ List.range (argB w), (s.dir (argA w + i)).state = 0 ∧ s.pageAddrOk (addr0 w + i * c.frameBytes) 4096 c.frameBytes = true
      ∧ ((if addr1 w = 0 then 0 else addr1 w + i * c.summaries) = 0
        ∨ s.pageAddrOk (if addr1 w = 0 then 0 else addr1 w + i * c.summaries) 64 c.summaries = true)
      ∧ pos0 w + i < (if c.ring then c.ringPages else 2 ^ 32)) :
    mapEff w s = .done (
      let mapped := (List.range (argB w)).foldl (fun x i => x.setDir (argA w + i)
        ⟨addr0 w + i * c.frameBytes, if addr1 w = 0 then 0 else addr1 w + i * c.summaries, argC w, ((x.dir (argA w + i)).gen + 1) % 65536,
          pos0 w + i, 1, false, (x.dir (argA w + i)).refs⟩) t
      mapped.setFld Fld.KVP_STATUS_FREE_ENTRIES (mapped.fld Fld.KVP_STATUS_FREE_ENTRIES - argB w)) := by
  simp only [mapEff, hc, hd]
  refine (if_neg ?_).trans ((if_neg (not_not_intro rfl)).trans (if_neg ?_))
  · rcases hl with h | h <;> simp [hr, hh, h]
  · rw [List.all_eq_true.mpr]
    · decide
    · intro i hi
      obtain ⟨h1, h2, h3, h4⟩ := hok i hi
      simp only [h1, h2, h4, decide_true, Bool.and_true, Bool.true_and, Bool.or_eq_true, decide_eq_true_eq]
      exact h3

theorem sealEff_ready {st : Status} {fa : Nat} {missing : List (Nat × Nat)} {t2 : State} (hr : rangeOk w = true)
    (hd : s.kvpRead (s.dirAddr (argA w)) (32 * argB w) = (.ok, t))
    (hok : ∀ i ∈ entryRange w, (s.dir i).state = 1 ∧ (s.dir i).isSealed = false ∧ (s.dir i).summary ≠ 0
      ∧ (s.handleCtx (s.dir i).handle).isSome = true)
    (hf : t.kvpReads (s.frameReads (entryRange w)) = (st, fa, missing, t2)) : sealEff w s =
      if missing ≠ [] then .later (s.kvpSend (readTrans .kvp s.kvpTag missing) none)
      else if st ≠ .ok then .fail st t2
      else if s.kvp.sent = none ∧ s.kvpWrites (t2.allSummaries (entryRange w)) ≠ [] then
        .later (s.kvpSend (s.kvpWrites (t2.allSummaries (entryRange w))) (some .ok))
      else if s.kvp.sent.getD .ok ≠ .ok then .fail (s.kvp.sent.getD .ok) t2
      else .done (t2.sealAll (entryRange w) (t2.allSummaries (entryRange w))) := by
  refine (if_neg (by simp [hr])).trans ?_
  rw [hd]
  refine (if_neg (not_not_intro rfl)).trans ((if_neg ?_).trans ?_)
  · simpa [Option.isSome_iff_ne_none, and_assoc] using hok
  · rw [hf]
    cases hs : s.kvp.sent with
    | none => by_cases ho : s.kvpWrites (t2.allSummaries (entryRange w)) = [] <;> simp [ho]
    | some why => simp

theorem movePageEff_mapped (hn : argA w ≤ 65535) (hd : s.kvpRead (s.dirAddr (argA w)) 32 = (.ok, t)) (h1 : (s.dir (argA w)).state = 1)
    (hp : s.newPageOk w (s.dir (argA w)).handle = true) : movePageEff w s =
      .copies (argA w) (addr0 w) (addr1 w) (t.setDir (argA w) { s.dir (argA w) with state := 2 }) := by
  refine (if_neg (Nat.not_lt.mpr hn)).trans ?_
  rw [hd]
  exact (if_neg (not_not_intro rfl)).trans (if_neg (by simp [h1, hp]))

theorem replaceEff_mapped (hn : argA w ≤ 65535) (hd : s.kvpRead (s.dirAddr (argA w)) 32 = (.ok, t)) (h1 : (s.dir (argA w)).state = 1)
    (hp : s.newPageOk w (s.dir (argA w)).handle = true) : replaceEff w s =
      if (s.dir (argA w)).gen ≠ argC w then .fail .stale t
      else .waits (s.dir (argA w)).frame [] (t.setDir (argA w)
        { s.dir (argA w) with frame := addr0 w, summary := addr1 w, gen := ((s.dir (argA w)).gen + 1) % 65536, isSealed := false }) := by
  refine (if_neg (Nat.not_lt.mpr hn)).trans ?_
  rw [hd]
  exact (if_neg (not_not_intro rfl)).trans (if_neg (by simp [h1, hp]))

theorem freeEff_mapped (hr : rangeOk w = true) (hd : s.kvpRead (s.dirAddr (argA w)) (32 * argB w) = (.ok, t))
    (hok : ∀ i ∈ entryRange w, (s.dir i).state = 1 ∧ (s.dir i).refs = 0) :
    freeEff w s = .waits 0 (entryRange w) ((entryRange w).foldl (fun x i => x.setDir i { x.dir i with state := 3 }) t) := by
  refine (if_neg (by simp [hr])).trans ?_
  rw [hd]
  refine (if_neg (not_not_intro rfl)).trans (if_neg ?_)
  simp
  exact hok

end

/-- Settles O43: each command of a good record has the effect of its own rule on the state whose queue is the rest. -/
theorem pageCommandsComplete : Obligations.PageCommandsComplete := by
  intro s a rest u hq hc ho hr w h3 h42
  have run {op : Nat} {f : Nat → State → KvpEff} {e : KvpEff} (h : byteField (s.num a 64) 0 1 = op) (h0 : op ≠ 0) (h8 : op ≤ 8)
    (he : f (s.num a 64) (kvpTaken u rest) = e) := next_kvpExec hq hc ho hr h3 h42 h h0 h8 he
  intro s1 op n ends stays waits
  refine ⟨?_, ?_, ?_, ?_, ?_, ?_, ?_⟩
  · intro hop hn t c ht hct hl
    have h := run hop (by decide) (by decide) (ctxSetEff_done hn ht hct hl)
    exact h
  · intro hop hn old r c hc h1 h2 h3 h4 h5 h6 h7 h8 t ht hok ix t2 hd
    have he := (seqPublishEff_shaped hn hc ⟨h1, h2, h3, h4, h5, h6, h7, h8⟩).trans (publishListed_good ht hok hd)
    refine ⟨fun hv => ?_, fun hv => ?_⟩
    · have h := run hop (by decide) (by decide) (he.trans (if_neg (not_not_intro hv)))
      exact h
    · have h := run hop (by decide) (by decide) (he.trans (if_pos hv))
      exact h
  · intro hop hn hl old
    refine ⟨fun hv => ?_, fun hv => ?_⟩
    · have h := run hop (by decide) (by decide) ((seqClearEff_live hn hl).trans (if_neg (not_not_intro hv)))
      exact h
    · have h := run hop (by decide) (by decide) ((seqClearEff_live hn hl).trans (if_pos hv))
      exact h
  · intro hop hr hh hl c hc t ht frame summary hok mapped
    have h := run hop (by decide) (by decide) (mapEff_free hr hh hl hc ht hok)
    exact h
  · intro hop hr t ht hok st fa missing t2 hf sums out done
    have he := sealEff_ready hr ht hok hf
    refine ⟨fun hm => ?_, fun hm hst => ?_, fun hm hst => ⟨fun hs ho => ?_, fun why hs hw => ?_, fun hs => ?_⟩⟩
    · have h := run hop (by decide) (by decide) (he.trans (if_pos hm))
      exact h
    · have h := run hop (by decide) (by decide) (he.trans ((if_neg (not_not_intro hm)).trans (if_pos hst)))
      exact h
    all_goals have he := he.trans ((if_neg (not_not_intro hm)).trans (if_neg (not_not_intro hst)))
    · have h := run hop (by decide) (by decide) (he.trans (if_pos ⟨hs, ho⟩))
      exact h
    · have h := run hop (by decide) (by decide) (he.trans ((if_neg (by simp [hs])).trans (if_pos (by simpa [hs] using hw))))
      rw [hs] at h
      exact h
    · have good : s1.kvp.sent.getD .ok = .ok := by rcases hs with ⟨hs, -⟩ | hs <;> exact congrArg (·.getD Status.ok) hs
      have past : ¬ (s1.kvp.sent = none ∧ out ≠ []) := by
        rintro ⟨hn, ho⟩
        rcases hs with ⟨-, h⟩ | h
        · exact ho h
        · exact absurd (hn.symm.trans h) (by simp)
      have h := run hop (by decide) (by decide) (he.trans ((if_neg past).trans (if_neg (not_not_intro good))))
      exact h
  · intro hn t ht h1 hp d
    refine ⟨fun hop => ?_, fun hop hv => ?_, fun hop hv => ?_⟩
    · have h := run hop (by decide) (by decide) (movePageEff_mapped hn ht h1 hp)
      exact h
    · have h := run hop (by decide) (by decide) ((replaceEff_mapped hn ht h1 hp).trans (if_neg (not_not_intro hv)))
      exact h
    · have h := run hop (by decide) (by decide) ((replaceEff_mapped hn ht h1 hp).trans (if_pos hv))
      exact h
  · intro hop hr t ht hok
    have h := run hop (by decide) (by decide) (freeEff_mapped hr ht hok)
    exact h

end Sys2Proof.Machine
end

