-- ==== Sys2Proof/Proofs/Timetable.lean ====
section
/-! PROOFS. Jobs at their boundaries (O44), slots and quanta (O45), pre-emption (O46), and the commands of the timetable and the
sidings (O47). -/

namespace Sys2Proof.Machine
open Sys2Proof.Claims

variable {s : State}

/-! ### Jobs (O44) -/

theorem execJobBoundary_free (hr : s.sched.run = none) : exec .jobBoundary s = .next
    (if s.applyChanges.held || !s.applyChanges.coresOk then s.applyChanges
     else match s.applyChanges.choice with
      | none => s.applyChanges
      | some j => match j.siding with
        | some n => s.applyChanges.restoreJob j n
        | none => match s.applyChanges.freeSiding j.cls j.need with
          | none => s.applyChanges
          | some n => s.applyChanges.loadJob j n) :=
  congrArg Host.Outcome.next (if_neg (by simp [hr]))

section
variable {j : Job} (hr : s.sched.run = some j)
include hr

theorem execJobTilesStart_loading {p : Program} (hp : j.prog = some p) (hs : j.state = .loading) (hh : s.held = false) :
    exec .jobTilesStart s = .next (s.startTiles j p).enterRunning := by
  change execJobTilesStart s = _
  simp only [execJobTilesStart, hr, hp]
  exact congrArg Host.Outcome.next (if_neg (by simp [hs, hh]))

theorem execRestoreComplete_restoring {n : Nat} {r : SidingRec} (hn : j.siding = some n) (hs : s.siding n = some r)
    (hj : j.state = .restoring) (hh : s.held = false) (hc : s.coresOk = true) : exec .restoreComplete s = .next (
      let w := s.num r.base 64
      let g := sidingImg w j.imgLen
      let p := s.program g
      let s1 := s.mapJob (fun x => { x with tag := byteField w 20 2, seedBase := byteField w 24 8, prog := some p,
                                            sfuGen := byteField w 14 2, kvpGen := byteField w 16 4 })
      let keep := s.keepOf n (byteField w 48 4)
      let s2 := if byteField w 6 2 = s.cores' then s1.restoreSame r.base p keep else s1.restoreMoved r.base (byteField w 6 2) g p keep
      (s2.setSiding n sdReserved j.tenant).enterRunning) := by
  change execRestoreComplete s = _
  simp only [execRestoreComplete, hr, hn, hs, Option.bind_some, Option.map_some]
  exact congrArg Host.Outcome.next (if_neg (by simp [hj, hh, hc]))

theorem execJobComplete_still (hs : j.suspended = false ∨ j.ended = true) (ht : j.tilesStarted = true) (hq : s.jobTraffic = false) :
    exec .jobComplete s = .next (if j.ended then s.endJob j.fault 0
      else if (j.state = .running || j.state = .halting) && s.allIdle && s.quiet then s.endJob .ok 0 else s) := by
  change execJobComplete s = _
  simp only [execJobComplete, hr]
  exact congrArg Host.Outcome.next (if_neg (by rcases hs with h | h <;> simp [ht, hq, h]))

end

/-- Settles O44: at a boundary the changes apply first, and a job starts, goes on or ends from the state that it is in. -/
theorem jobsStartAndEnd : Obligations.JobsStartAndEnd := by
  refine ⟨fun s hr => ?_, fun s j hr => ⟨fun p hp hs hh => execJobTilesStart_loading hr hp hs hh, fun n r hn hs hj hh hc => ?_,
    fun ht hq => ⟨fun he => ?_, fun he hs hst hi hqt => ?_⟩⟩⟩
  · have step := execJobBoundary_free hr
    refine ⟨fun h => step.trans (congrArg _ (if_pos (by simpa using h))), fun hh hc hn => ?_, fun hh hc j hj => ⟨fun n hn => ?_, fun hn n hf => ?_⟩⟩
    all_goals
      refine step.trans (congrArg Host.Outcome.next ((if_neg (by simp [hh, hc])).trans ?_))
    · rw [hn]
    · rw [hj]
      simp only [hn]
    · rw [hj]
      simp only [hn, hf]
  · have step := execRestoreComplete_restoring hr hn hs hj hh hc
    refine ⟨fun he => step.trans (congrArg Host.Outcome.next ?_), fun he => step.trans (congrArg Host.Outcome.next ?_)⟩
    · simp only [if_pos he]
    · simp only [if_neg he]
  · exact (execJobComplete_still hr (.inr he) ht hq).trans (congrArg Host.Outcome.next (if_pos he))
  · refine (execJobComplete_still hr (.inl hs) ht hq).trans (congrArg Host.Outcome.next ((if_neg (by simp [he])).trans (if_pos ?_)))
    rcases hst with h | h <;> simp [h, hi, hqt]

/-! ### Slots and quanta (O45) -/

/-- The state once a slot has begun. -/
def slotBegun (s : State) (slot cycle : Nat) : State :=
  (s.withSched { s.sched with slot := slot, cycleStart := cycle }).setFld Fld.TT_STATUS_SLOT slot

/-- The state once the slot after the current one has begun, or the first of a new cycle. -/
def nextSlot (s : State) (t : Timetable) : State :=
  if s.sched.slot + 1 < t.slots.length then slotBegun s (s.sched.slot + 1) s.sched.cycleStart
  else slotBegun s 0 (s.sched.cycleStart + t.endOf s.sched.slot)

theorem slotBegun_run (s : State) (slot cycle : Nat) : (slotBegun s slot cycle).sched.run = s.sched.run := rfl

theorem nextSlot_run (s : State) (t : Timetable) : (nextSlot s t).sched.run = s.sched.run := by
  unfold nextSlot
  split <;> rfl

/-- A job stays where its slot lets it. -/
theorem State.stays_iff {x : Slot} {j : Job} : s.stays x j = true ↔
    (x.kind = 0 ∧ j.cls = 0) ∨ (x.kind ≠ 0 ∧ x.kind ≠ 5 ∧ (j.cls = x.kind ∨ (x.lend = true ∧ s.firstReady x.kind none = none))) := by
  unfold State.stays
  split
  next h => simp [h]
  next h =>
    split
    next h5 => simp [h5]
    next h5 => simp [h, h5]

section
variable {t : Timetable} (ht : s.tt = some t)
include ht

theorem execSlotBoundary_early (h : s.time.toNat < s.sched.cycleStart + t.endOf s.sched.slot) : exec .slotBoundary s = .next s := by
  change execSlotBoundary s = _
  simp only [execSlotBoundary, ht]
  exact congrArg Host.Outcome.next (if_pos h)

theorem execSlotBoundary_due (h : s.sched.cycleStart + t.endOf s.sched.slot ≤ s.time.toNat) : exec .slotBoundary s = .next
    (match (nextSlot s t).slotNow, (nextSlot s t).sched.run with
      | some x, some j => if (nextSlot s t).stays x j then nextSlot s t else (nextSlot s t).requestPreempt
      | _, _ => nextSlot s t) := by
  change execSlotBoundary s = _
  have hn : nextSlot s t = slotBegun s (if decide (t.slots.length ≤ s.sched.slot + 1) then 0 else s.sched.slot + 1)
      (s.sched.cycleStart + if decide (t.slots.length ≤ s.sched.slot + 1) then t.endOf s.sched.slot else 0) := by
    unfold nextSlot
    by_cases hw : s.sched.slot + 1 < t.slots.length
    · simp [hw, Nat.not_le.mpr hw]
    · simp [hw, Nat.le_of_not_lt hw]
  rw [hn]
  simp only [execSlotBoundary, ht]
  exact congrArg Host.Outcome.next (if_neg (Nat.not_lt.mpr h))

end

/-- Settles O45. -/
theorem slotsAndQuanta : Obligations.SlotsAndQuanta := by
  intro s t ht
  refine ⟨⟨fun h => execSlotBoundary_early ht h, fun h => ⟨fun hr => ?_, fun x j hx hj => ?_⟩⟩, fun j n hr h0 hs hq hd hn hne hf hlt => ?_⟩
  · refine (execSlotBoundary_due ht h).trans (congrArg Host.Outcome.next ?_)
    rw [nextSlot_run, hr]
    cases (nextSlot s t).slotNow <;> rfl
  · have step := execSlotBoundary_due ht h
    have hx' : (nextSlot s t).slotNow = some x := hx
    rw [nextSlot_run, hj, hx'] at step
    exact ⟨fun hst => step.trans (congrArg Host.Outcome.next (if_pos (State.stays_iff.mpr hst))),
      fun hst => step.trans (congrArg Host.Outcome.next (if_neg (fun h => hst (State.stays_iff.mp h))))⟩
  · have other : (List.range 64).any (fun n => decide (n ≠ j.tenant) && (s.firstReady 0 (some n)).isSome
        && decide (s.usedBy n * t.share j.tenant < s.usedBy j.tenant * t.share n)) = true :=
      List.any_eq_true.mpr ⟨n, List.mem_range.mpr hn, by simp [hne, hf, hlt]⟩
    change execQuantumExpiry s = _
    simp only [execQuantumExpiry, ht, hr]
    exact congrArg Host.Outcome.next (if_pos (by simp only [other, h0, hs, hq, hd, decide_true, ne_eq, not_false_eq_true, Bool.and_self]))

/-! ### Pre-emption (O46) -/

section
variable {v : Word}

/-- A write of one bit of TT_CTRL. -/
theorem ttCtrlWrite_preempt (h0 : bit v.toNat 0 = false) (h1 : bit v.toNat 1 = false) (h2 : bit v.toNat 2 = true) :
    ttCtrlWrite v s = (.ok, if s.sched.run.isSome then (s.showPreempt true).requestPreempt else s) := by
  simp only [ttCtrlWrite, h0, h1, h2, Bool.false_and, Bool.true_and, Bool.false_or, Bool.false_eq_true, if_false]

theorem ttCtrlWrite_swap (h0 : bit v.toNat 0 = true) (h1 : bit v.toNat 1 = false) (h2 : bit v.toNat 2 = false) :
    ttCtrlWrite v s = if s.fld Fld.TT_STATUS_LOAD_STATE ≠ lsReady then (.denied, s)
      else (.ok, (s.setFld Fld.TT_CTRL_SWAP 1).setFld Fld.TT_STATUS_SWAP_PENDING 1) := by
  simp only [ttCtrlWrite, h0, h1, h2, Bool.false_and, Bool.true_and, Bool.or_false, Bool.false_eq_true, if_false, if_true, decide_eq_true_eq]

theorem ttCtrlWrite_discard (h0 : bit v.toNat 0 = false) (h1 : bit v.toNat 1 = true) (h2 : bit v.toNat 2 = false) :
    ttCtrlWrite v s = if s.flag Fld.TT_STATUS_SWAP_PENDING then (.denied, s)
      else (.ok, ((s.withSched { s.sched with staged := none, loading := none }).setFld Fld.TT_STATUS_LOAD_STATE lsEmpty).setFld
        Fld.TT_STATUS_GEN_STAGED 0) := by
  simp only [ttCtrlWrite, h0, h1, h2, Bool.false_and, Bool.true_and, Bool.false_or, Bool.false_eq_true, if_false, if_true]

end

section
variable {j : Job} (hr : s.sched.run = some j)
include hr

theorem execPreemptHalted_still (h1 : j.state = .halting) (h2 : j.suspended = false) (h3 : j.ended = false)
    (hst : ∀ n < s.cores', s.fld (Fld.CORE_STATUS_STATE n) ≠ 3) (hi : s.allIdle = false) (hq : s.quiet = true) :
    exec .preemptHalted s = .next (s.setJob (some { j with suspended := true, saveFrom := s.time.toNat })) := by
  have still : (List.range s.cores').all (fun n => s.fld (Fld.CORE_STATUS_STATE n) ≠ 3) = true :=
    List.all_eq_true.mpr fun n hn => decide_eq_true (hst n (List.mem_range.mp hn))
  change execPreemptHalted s = _
  simp only [execPreemptHalted, hr]
  exact congrArg Host.Outcome.next (if_neg (by simp only [h1, h2, h3, still, hi, hq]; decide))

section
variable {n : Nat} {r : SidingRec} {p : Program} (hn : j.siding = some n) (hs : s.siding n = some r) (hp : j.prog = some p)
include hn hs hp

theorem execPreemptDrained_drained {st : Status} {u : State} (h1 : j.state = .halting) (h2 : j.suspended = true) (h3 : j.ended = false)
    (ht : s.jobTraffic = false) (hh : s.fab.held = [])
    (hu : (s.savedBufs p.bufs).foldl (fun (acc : Status × State) b =>
        if acc.1 ≠ .ok then acc else acc.2.readCheck 7 .module b.2.base b.2.size) (Status.ok,
          (s.setJob (some { j with state := .saving, saveFrom := s.time.toNat })).setFld
            Fld.TT_LAST_PREEMPT_HALT_WAIT_NS (min (2 ^ 32 - 1) (s.time.toNat - j.haltFrom))) = (st, u)) :
    exec .preemptDrained s = .next (if st ≠ .ok then u.endJob st 0
      else (u.writeCheck 7 r.base (s.buffersOff s.cores' + bufBytes (s.savedBufs p.bufs))).2.saveSections r.base p.coresUsed
        (s.savedBufs p.bufs)) := by
  change execPreemptDrained s = _
  simp only [execPreemptDrained, hr, hn, hs, hp, Option.bind_some]
  refine congrArg Host.Outcome.next ((if_neg (by simp [h1, h2, h3, ht, hh])).trans ?_)
  simp only [hn, hp] at hu
  rw [hu]

theorem execPreemptSaved_saving (h1 : j.state = .saving) : exec .preemptSaved s = .next (
      let bufs := s.savedBufs p.bufs
      let total := s.buffersOff s.cores' + bufBytes bufs
      let crc := crc32c (s.bytes (r.base + 8192) (total - 8192))
      let s1 := (s.putBytes r.base (s.sidingHeader j p.relocatable bufs total crc)).closeCharge
      let kept := s1.withSched { s1.sched with keeps := SMap.insert s1.sched.keeps n (s.keepNow j crc) }
      let s2 := (kept.setSiding n sdHolds j.tenant).setFld Fld.TT_LAST_PREEMPT_SAVE_NS
        (min (2 ^ 32 - 1) (s.time.toNat - j.saveFrom))
      let j1 := { j with state := .sided, tilesStarted := false, prog := none, nest := none, runs := [], nestsDone := 0 }
      let s3 := s2.freeCores.traceJob .sided
      (s3.setQueue (j1 :: s3.sched.queue)).postJob j1 .preempted .preempted n) := by
  change execPreemptSaved s = _
  simp only [execPreemptSaved, hr, hn, hs, hp, Option.bind_some, Option.map_some]
  exact congrArg Host.Outcome.next (if_neg (not_not_intro h1))

end

end

/-- Settles O46. -/
theorem preemptionCompletes : Obligations.PreemptionCompletes := by
  refine ⟨fun s q hm => ⟨fun hr => next_regWrite_ok hm ?_, fun hr => next_regWrite_ok hm ?_⟩, fun s j hr => ⟨fun h => ?_,
    fun h1 h2 h3 hst hi hq => execPreemptHalted_still hr h1 h2 h3 hst hi hq, fun n r p hn hs hp => ⟨fun h1 h2 h3 ht hh => ?_,
      fun h => execPreemptSaved_saving hr hn hs hp h⟩⟩⟩
  · rw [ttCtrlWrite_preempt (by decide) (by decide) (by decide), if_pos hr]
  · rw [ttCtrlWrite_preempt (by decide) (by decide) (by decide), if_neg (by simp [hr])]
  · change execPreemptTimeout s = _
    simp only [execPreemptTimeout, hr]
    exact congrArg Host.Outcome.next (if_pos h)
  · intro s1 st u hu
    have step := execPreemptDrained_drained hr hn hs hp h1 h2 h3 ht hh hu
    exact ⟨fun hst => step.trans (congrArg Host.Outcome.next (if_neg (not_not_intro hst))),
      fun hst => step.trans (congrArg Host.Outcome.next (if_pos hst))⟩

/-! ### The commands of the timetable and the sidings (O47) -/

theorem ttLoadWrite_eq {v : Word} : ttLoadWrite v s =
    if s.fld Fld.TT_STATUS_LOAD_STATE = lsLoading ∨ s.flag Fld.TT_STATUS_SWAP_PENDING = true then (.denied, s)
    else (.ok, ((s.withSched { s.sched with staged := none, loading := some (wget v 39 12 * 4096) }).setFld
      Fld.TT_STATUS_LOAD_STATE lsLoading).setFld Fld.TT_STATUS_GEN_STAGED 0) := by
  simp only [ttLoadWrite, Bool.or_eq_true, decide_eq_true_eq]

theorem sidingWord_fields : ∀ n : Fin 16, ∀ op : Fin 3, wget (sidingWord op.val n.val) 3 0 = n.val ∧ wget (sidingWord op.val n.val) 63 62 = op.val := by
  decide +kernel

section
variable {v : Word} {n : Nat} {r : SidingRec} (h0 : wget v 3 0 = n) (hn : s.siding n = some r)
include h0 hn

theorem ttSidingCmdWrite_detach (h : wget v 63 62 = 0) : ttSidingCmdWrite v s = s.detach n := by
  simp only [ttSidingCmdWrite, h0, hn, h]

theorem ttSidingCmdWrite_release (h : wget v 63 62 = 1) : ttSidingCmdWrite v s = s.releaseCmd n := by
  simp only [ttSidingCmdWrite, h0, hn, h]

theorem ttSidingCmdWrite_attach (h : wget v 63 62 = 2) : ttSidingCmdWrite v s = s.attach n r := by
  simp only [ttSidingCmdWrite, h0, hn, h]

end

/-- DENIED comes before every status that a read of memory ends with. -/
theorem Status.lowest_denied {a b : Status} (ha : a ≠ .unmapped) (hb : b ≠ .unmapped) : Status.lowest [.denied, a, b] = .denied := by
  have worse : ∀ {x : Status}, x ≠ .unmapped → Status.denied.worse x = .denied := by
    intro x hx
    cases x <;> simp_all [Status.worse, Status.code]
  show ((Status.ok.worse .denied).worse a).worse b = .denied
  rw [show Status.ok.worse .denied = .denied from rfl, worse ha, worse hb]


/-- A read of memory ends OK or with TIMEOUT, NOT_READY or UNCORRECTABLE. -/
theorem State.readCheck_ne_unmapped (s : State) (cls a n : Nat) (r : Requester) : (s.readCheck cls r a n).1 ≠ .unmapped := by
  have hp : s.pathStatus a n ≠ .unmapped := by
    unfold State.pathStatus
    cases (s.linksTo a n).any s.linkOut <;> cases ((isHbm a || isMs a) && !s.memReady a n) <;> decide
  simp only [State.readCheck]
  split
  · exact hp
  · simp only [State.meetRead]
    split <;> simp

section
variable {n : Nat} {r : SidingRec}

/-- What a siding's header says is wrong is said only where it can be read. -/
theorem State.attach_denied (h1 : s.sidingState n ≠ sdFree) (h2 : s.sidingState n ≠ sdDetached) : s.attach n r = (.denied, s) := by
  have hr : (if s.ready rdyHbm then s.readCheck 7 .module r.base 8192 else (.notReady, s)).1 ≠ .unmapped := by
    split
    · exact s.readCheck_ne_unmapped _ _ _ _
    · exact show Status.notReady ≠ .unmapped by decide
  have hv (b : Bool) : Status.when b .verify ≠ .unmapped := by cases b <;> decide
  have hd : Status.when (decide (s.sidingState n ≠ sdFree) && decide (s.sidingState n ≠ sdDetached) || decide (1024 ≤ s.admitted)) .denied = .denied := by
    simp [h1, h2, Status.when]
  rw [State.attach]
  simp only [hd, Status.lowest_denied hr (hv _)]
  exact if_pos (by decide)

theorem State.attach_good {u : State} (hst : s.sidingState n = sdFree ∨ s.sidingState n = sdDetached) (ha : s.admitted < 1024)
    (hr : s.ready rdyHbm = true) (hu : s.readCheck 7 .module r.base 8192 = (.ok, u)) (hw : sidingHeaderOk (s.num r.base 8192) = true)
    (hc : byteField (s.num r.base 8192) 1 1 = r.cls) : s.attach n r =
      let j := attachedJob (s.num r.base 8192) n (s.keepOf n (byteField (s.num r.base 8192) 48 4))
      (.ok, (((u.setSiding n sdHolds j.tenant).traceJob .sided).setQueue (j :: u.sched.queue)).rtArrives) := by
  have hd : Status.when (decide (s.sidingState n ≠ sdFree) && decide (s.sidingState n ≠ sdDetached) || decide (1024 ≤ s.admitted)) .denied = .ok := by
    rcases hst with h | h <;> simp [h, Nat.not_le.mpr ha, Status.when]
  rw [State.attach]
  simp only [hr, if_true, hu, hd]
  exact if_neg (by simp [hw, hc, Status.when, Status.lowest, Status.worse])

end

theorem execTtLoadDone_read {a : Nat} {u : State} (ha : s.sched.loading = some a) (hs : s.hbmSource a ttBytes = .ok)
    (hu : s.readCheck 7 .module a ttBytes = (.ok, u)) : exec .ttLoadDone s = .next (
      let l := u.bytes a ttBytes
      let st := Status.lowest [.when (!ttOk (leNat l) || byteField (leNat l) 2 2 = s.fld Fld.TT_STATUS_GEN_ACTIVE) .verify, .when (!ttCrcOk l) .integrity]
      let s1 := (u.withSched { u.sched with loading := none }).setFld Fld.TT_STATUS_LOAD_STATUS st.code
      if st = .ok then ((s1.withSched { s1.sched with staged := some (Timetable.ofNum (leNat l)) }).setFld Fld.TT_STATUS_LOAD_STATE lsReady).setFld
          Fld.TT_STATUS_GEN_STAGED (byteField (leNat l) 2 2)
      else s1.setFld Fld.TT_STATUS_LOAD_STATE lsFailed) := by
  have hsrc : (if s.hbmSource a ttBytes ≠ .ok then (s.hbmSource a ttBytes, s) else s.readCheck 7 .module a ttBytes) = (.ok, u) :=
    (if_neg (not_not_intro hs)).trans hu
  change execTtLoadDone s = _
  simp only [execTtLoadDone, ha, hsrc]
  rfl

/-- Settles O47: each write by its register's rule, each siding command by its siding's state. -/
theorem timetableAndSidingCommandsComplete : Obligations.TimetableAndSidingCommandsComplete := by
  refine ⟨fun s q v hm => ⟨fun h => next_regWrite_refused hm (ttLoadWrite_eq.trans (if_pos h)),
    fun h => next_regWrite_ok hm (ttLoadWrite_eq.trans (if_neg h)),
    fun h => next_regWrite_ok hm ((ttCtrlWrite_swap (by decide) (by decide) (by decide)).trans (if_neg (not_not_intro h))),
    fun h => next_regWrite_refused hm ((ttCtrlWrite_swap (by decide) (by decide) (by decide)).trans (if_pos h)),
    fun h => next_regWrite_refused hm ((ttCtrlWrite_discard (by decide) (by decide) (by decide)).trans (if_pos h)),
    fun h => next_regWrite_ok hm ((ttCtrlWrite_discard (by decide) (by decide) (by decide)).trans (if_neg (by simp [h]))), fun n r hn => ?_⟩, fun s a ha hs u hu => ?_⟩
  · have word (op : Fin 3) := sidingWord_fields n op
    have detach := ttSidingCmdWrite_detach (word 0).1 hn (word 0).2
    have release := ttSidingCmdWrite_release (word 1).1 hn (word 1).2
    have attach := ttSidingCmdWrite_attach (word 2).1 hn (word 2).2
    exact ⟨fun h1 h2 => next_regWrite_ok hm (detach.trans (if_neg (by simp [h1, h2]))),
      fun h => next_regWrite_refused hm (detach.trans (if_pos (by simp [h]))),
      fun h => next_regWrite_ok hm (release.trans (if_neg (not_not_intro h))), fun h => next_regWrite_refused hm (release.trans (if_pos h)),
      fun h1 h2 => next_regWrite_refused hm (attach.trans (State.attach_denied h1 h2)),
      fun hst ha hr u hu hw hc => next_regWrite_ok hm (attach.trans (State.attach_good hst ha hr hu hw hc))⟩
  · have step := execTtLoadDone_read ha hs hu
    exact ⟨fun h => step.trans (congrArg Host.Outcome.next (if_pos h)), fun h => step.trans (congrArg Host.Outcome.next (if_neg h))⟩

end Sys2Proof.Machine
end

