-- ==== Sys2Proof/Proofs/FabricPorts.lean ====
section
/-! PROOFS. The training of ports (O48), their flits (O49), requests and answers that arrive at them (O50, O51), and the
registers of the fabric (O52). -/

namespace Sys2Proof.Machine
open Sys2Proof.Claims

variable {s : State}

/-! ### Training (O48) -/

theorem State.portUp_iff {p : Nat} : s.portUp p = true ↔ s.portState p = psAccepted ∨ s.portState p = psNarrow := by
  simp only [State.portUp, Bool.or_eq_true, decide_eq_true_eq]

/-- Step 6 of an attempt, by the cause and the width. -/
theorem State.endAttempt_cases (s : State) (p w : Nat) (record : List Byte) (i : Ident) :
    let s1 := (s.showPeer p i).setPort p { s.port p with ident := some record }
    (s1.identCause p i ≠ 0 → s.endAttempt p w record i = (s1.setPortState p psMiswired .mismatch (s1.identCause p i)).showFabric)
    ∧ (s1.identCause p i = 0 → w < s1.fld Fld.FAB_CTRL_MIN_WIDTH → s.endAttempt p w record i = (s1.setPortState p psNarrow .degraded 0).showFabric)
    ∧ (s1.identCause p i = 0 → s1.fld Fld.FAB_CTRL_MIN_WIDTH ≤ w → s.endAttempt p w record i = s1.acceptPort p) :=
  ⟨fun h => if_pos h, fun h hw => (if_neg (not_not_intro h)).trans (if_pos hw), fun h hw => (if_neg (not_not_intro h)).trans (if_neg (Nat.not_lt.mpr hw))⟩

section
variable {p : Fin 36} {s1 : State} (ha : s.attempting p.val = some s1) {o : TrainObs}
include ha

theorem execTrainingStepTimeout_attempting : exec (.trainingStepTimeout p) s = .next (s1.attemptFails p.val) := by
  change execTrainingStepTimeout p s = _
  simp only [execTrainingStepTimeout, ha]

theorem execPortTrainingAttempt_noWidth (h : o.locked = false ∨ widest (o.here &&& o.peer).toNat = none) :
    exec (.portTrainingAttempt p o) s = .next (s1.attemptFails p.val) := by
  have hw : (if o.locked then widest (o.here &&& o.peer).toNat else none) = none := by
    rcases h with h | h
    · simp [h]
    · simp only [h, ite_self]
  change execPortTrainingAttempt p o s = _
  simp only [execPortTrainingAttempt, ha, hw]

/-- An attempt that has a width, once the port has sent its own record. -/
theorem execPortTrainingAttempt_width {set w : Nat} (hl : o.locked = true) (hw : widest (o.here &&& o.peer).toNat = some (set, w)) :
    exec (.portTrainingAttempt p o) s = .next (match agreedRecord o.records with
      | none => ((s1.takeWidth p o set w).emit (.ident p.val ((s1.takeWidth p o set w).ownIdent p).bytes)).attemptFails p
      | some (record, i) =>
        ((s1.takeWidth p o set w).emit (.ident p.val ((s1.takeWidth p o set w).ownIdent p).bytes)).endAttempt p w record i) := by
  change execPortTrainingAttempt p o s = _
  simp only [execPortTrainingAttempt, ha, hl, if_true, hw] <;> rfl

end

theorem execIdentRecordReceived_up {p : Fin 36} {body : List Byte} {crc : BitVec 32} {i : Ident}
    (hi : Ident.ofBytes (body ++ leBytes 4 crc.toNat) = some i) (hup : s.portUp p.val = true) : exec (.identRecordReceived p body crc) s =
      .next (if (s.port p.val).ident = some (body ++ leBytes 4 crc.toNat) then s.showPeer p.val i
        else (s.showPeer p.val i).leaveService p.val psMiswired .mismatch 6) := by
  change execIdentRecordReceived p body crc s = _
  simp only [execIdentRecordReceived, hi]
  exact congrArg Host.Outcome.next (if_neg (by simp [hup]))

/-- Settles O48: what the attempt and each event do, by the port's state. -/
theorem portTrainingCompletes : Obligations.PortTrainingCompletes := by
  intro s p
  refine ⟨fun s1 ha => ⟨execTrainingStepTimeout_attempting ha, fun o h => execPortTrainingAttempt_noWidth ha h, fun o set w hl hw => ?_⟩,
    fun h => congrArg Host.Outcome.next (if_pos (by simpa using h)), fun h => congrArg Host.Outcome.next (if_pos (by simp [h])), fun body crc h => ?_, fun h => ?_⟩
  · have step := execPortTrainingAttempt_width ha hl hw
    refine ⟨fun hn => ?_, fun record i hr => ?_⟩
    · rw [hn] at step
      exact step
    · rw [hr] at step
      obtain ⟨h1, h2, h3⟩ := State.endAttempt_cases
        ((s1.takeWidth p o set w).emit (.ident p.val ((s1.takeWidth p o set w).ownIdent p).bytes)) p.val w record i
      exact ⟨fun h => step.trans (congrArg _ (h1 h)), fun h hlt => step.trans (congrArg _ (h2 h hlt)), fun h hle => step.trans (congrArg _ (h3 h hle))⟩
  · change execIdentRecordReceived p body crc s = _
    simp only [execIdentRecordReceived, h]
  · have hup : s.portUp p.val = true := State.portUp_iff.mpr h
    refine ⟨congrArg Host.Outcome.next (if_pos hup), congrArg Host.Outcome.next (if_pos hup), congrArg Host.Outcome.next (if_pos (by simp [hup])),
      fun body crc i hi => ?_⟩
    have step := execIdentRecordReceived_up hi hup
    exact ⟨fun hr => step.trans (congrArg _ (if_pos hr)), fun hr => step.trans (congrArg _ (if_neg hr))⟩

/-! ### Flits (O49) -/

section
variable {p : Fin 36} (hup : s.portUp p.val = true)
include hup

theorem execDataFlitReceived_up {seq : Fin 4096} {good corrected : Bool} : exec (.dataFlitReceived p seq good corrected) s = .next (
    let s1 := s.countCodeword p good corrected
    let r := s1.port p
    if s1.portState p ≠ psAccepted then s1
    else if !good then s1.nakFlit p
    else if seq.val ≠ r.received % 4096 then (if r.naked then s1 else s1.nakFlit p)
    else (s1.setPort p { r with received := r.received + 1, naked := false, rx := r.rx + 1 }).countFlits
      (Fld.FAB_PORT_TRAFFIC_RX_KFLITS p) (Fld.FAB_PORT_TRAFFIC_RX_SAT p) r.rx (r.rx + 1)) :=
  congrArg Host.Outcome.next (if_neg (by simp [hup]))

theorem execControlFlitReceived_up {ack : AckField} {nak : Bool} {credits : List Nat} : exec (.controlFlitReceived p ack nak credits) s = .next (
    let s1 := s.countCodeword p true ack.corrected
    let r := (s1.port p).control ack.seq.val nak credits
    let s2 := s1.setPort p r
    if 16 ≤ r.naks then s2.leaveService p psFailed .timeout 0
    else ((if nak then s2.resend p else s2).portPump p).endDrain p) :=
  congrArg Host.Outcome.next (if_neg (by simp [hup]))

end

/-- Credits that return leave a port's count of NAKs. -/
theorem PortRun.naks_control (r : PortRun) (ack : Nat) (nak : Bool) (credits : List Nat) :
    (r.control ack nak credits).naks = r.naksAfter (r.ackGain ack) nak := rfl

/-- A drain of a group that is no longer busy, or that has lasted long enough, ends. -/
theorem execGroupRebuild_due {g : Fin 6} {late : Bool} (hg : g.val ∈ s.fab.rebuilding)
    (h : late = true ∨ ∀ i < 36, s.portGroup i = g.val → (s.port i).queue = []) : exec (.groupRebuild g late) s = .next (
      let rest := s.fab.rebuilding.filter (fun x => decide (x ≠ g.val))
      let s1 := s.rebuildMaps g.val
      ((s1.setFab { s1.fab with rebuilding := rest }).setFld Fld.FAB_STATUS_QUIESCE (b2n (!rest.isEmpty))).relaunch) := by
  have quiet : ((List.range 36).any (fun i => s.portGroup i = g.val && !(s.port i).queue.isEmpty) && !late) = false := by
    rcases h with h | h
    · simp [h]
    · rw [Bool.and_eq_false_iff]
      refine .inl (List.any_eq_false.mpr fun i hi hb => ?_)
      simp only [Bool.and_eq_true, decide_eq_true_eq] at hb
      simp [h i (List.mem_range.mp hi) hb.1] at hb
  refine congrArg Host.Outcome.next (if_neg ?_)
  simp only [quiet, Bool.or_false, Bool.not_eq_true', Bool.not_eq_false]
  simpa using hg

/-- Settles O49. -/
theorem flitsComplete : Obligations.FlitsComplete := by
  intro s p
  refine ⟨fun h corrected => ⟨fun seq => ⟨fun hb => ?_, fun hb => ?_, fun hb => ?_, fun hb => ⟨fun h1 h2 => ?_, fun h1 h2 => ?_, fun h1 => ?_⟩⟩,
    fun ack credits => ⟨fun hn => ?_, fun hn => ?_, fun hn => ?_⟩⟩, fun h ident => congrArg Host.Outcome.next (if_neg (by simp [State.portUp_iff.mpr h])),
    fun g late hg h => execGroupRebuild_due hg h⟩
  all_goals have hup : s.portUp p.val = true := State.portUp_iff.mpr h
  · exact (execDataFlitReceived_up hup).trans (congrArg _ (if_pos hb))
  · exact (execDataFlitReceived_up hup).trans (congrArg Host.Outcome.next (if_neg (not_not_intro hb)))
  · exact (execDataFlitReceived_up hup).trans (congrArg Host.Outcome.next (if_pos hb))
  · exact (execDataFlitReceived_up hup).trans (congrArg Host.Outcome.next ((if_neg (not_not_intro hb)).trans ((if_pos h1).trans (if_neg (ne_true_of_eq_false h2)))))
  · exact (execDataFlitReceived_up hup).trans (congrArg Host.Outcome.next ((if_neg (not_not_intro hb)).trans ((if_pos h1).trans (if_pos h2))))
  · exact (execDataFlitReceived_up hup).trans (congrArg Host.Outcome.next ((if_neg (not_not_intro hb)).trans (if_neg (not_not_intro h1))))
  · exact (execControlFlitReceived_up hup).trans (congrArg Host.Outcome.next (if_neg (Nat.not_le.mpr hn)))
  · exact (execControlFlitReceived_up hup).trans (congrArg Host.Outcome.next (if_pos hn))
  · exact (execControlFlitReceived_up hup).trans (congrArg Host.Outcome.next (if_neg (Nat.not_le.mpr hn)))

/-! ### Requests that arrive (O50) -/

section
variable {h : PktHdr} (hp : s.portState h.port = psAccepted) {cls slots op : Nat} {status : State → Status} {go : State → State}
include hp

theorem State.request_crcBad (hc : h.crcOk = false) :
    s.request h cls slots op status go = (s.owe (some h.port) (vcOf cls h.sub) slots).crcDiscard h :=
  (if_pos hp).trans (if_pos (by simp [hc]))

theorem State.request_opBad (hc : h.crcOk = true) (ho : h.opOk = false) :
    s.request h cls slots op status go = (s.owe (some h.port) (vcOf cls h.sub) slots).refuse h 6 .verify :=
  (if_pos hp).trans ((if_neg (by simp [hc])).trans (if_pos (by simp [ho])))

theorem State.request_checked (hc : h.crcOk = true) (ho : h.opOk = true) :
    s.request h cls slots op status go =
      let s1 := s.owe (some h.port) (vcOf cls h.sub) slots
      if status s1 ≠ .ok then s1.refuse h op (status s1) else go s1 :=
  (if_pos hp).trans ((if_neg (by simp [hc])).trans (if_neg (by simp [ho])))

end

/-- Slots owed to a peer change no check of a post. -/
theorem State.postStatus_owe (s : State) (h : PktHdr) (p : Option Nat) (vc slots : Nat) : (s.owe p vc slots).postStatus h = s.postStatus h := by
  cases p <;> rfl

section
variable {h : PktHdr} (hp : s.portState h.port = psAccepted) {x : AttPost}

theorem execFabricPostAtt_request (hn : ¬ (h.crcOk = true ∧ h.opOk = true ∧ s.postStatus h = .ok)) : exec (.fabricPostAtt h x) s =
    .next (s.request h 2 (packetSlots 816) 4 (fun s1 => s1.postStatus h) (fun s1 =>
      (s1.readCheck 5 (.remote h.src) h.addr 1024).2.refuse h 4 (s1.readCheck 5 (.remote h.src) h.addr 1024).1)) :=
  congrArg Host.Outcome.next (if_neg fun hb => hn (by
    simp only [Bool.and_eq_true, decide_eq_true_eq] at hb
    exact ⟨hb.1.1.1, hb.1.1.2, hb.1.2⟩))

include hp

theorem execFabricPostAtt_applied (hc : h.crcOk = true) (ho : h.opOk = true) (hst : s.postStatus h = .ok) {u : State}
    (hu : s.readCheck 5 (.remote h.src) h.addr 1024 = (.ok, u)) :
    exec (.fabricPostAtt h x) s = .next ((u.postArrives h x (packetSlots 816)).afterPost h.addr) := by
  change execFabricPostAtt h x s = _
  simp only [execFabricPostAtt, hu]
  exact congrArg Host.Outcome.next ((if_pos (by simp [hc, ho, hst])).trans (if_pos hp))

end

/-- Settles O50: every request is judged by the same checks before its own effect. -/
theorem fabricRequestsComplete : Obligations.FabricRequestsComplete := by
  intro s h hp
  refine ⟨fun hc ho => ⟨fun data => ⟨fun hst => ?_, fun hst u hu => ?_, fun hst r u hr hu => ?_⟩,
    fun len => ⟨fun hst => ?_, fun hst l u hu => ?_, fun hst r l u hr hu => ?_⟩, ⟨fun hst => ?_, fun hst u hu => ?_⟩,
    fun x => ⟨fun hst => ?_, fun hst u hu => execFabricPostAtt_applied hp hc ho hst hu⟩⟩, fun data len x => ⟨fun hc => ?_, fun hc ho => ?_⟩,
    fun p x hp hd => congrArg Host.Outcome.next ((if_pos hp).trans (if_neg hd))⟩
  · exact congrArg Host.Outcome.next ((State.request_checked hp hc ho).trans (if_pos hst))
  · refine congrArg Host.Outcome.next ((State.request_checked hp hc ho).trans ((if_neg (not_not_intro hst)).trans ?_))
    simp only [hu, if_true]
  · refine congrArg Host.Outcome.next ((State.request_checked hp hc ho).trans ((if_neg (not_not_intro hst)).trans ?_))
    simp only [hu, if_neg hr]
  · exact congrArg Host.Outcome.next ((State.request_checked hp hc ho).trans (if_pos hst))
  · refine congrArg Host.Outcome.next ((State.request_checked hp hc ho).trans ((if_neg (not_not_intro hst)).trans ?_))
    simp only [hu, if_true]
  · refine congrArg Host.Outcome.next ((State.request_checked hp hc ho).trans ((if_neg (not_not_intro hst)).trans ?_))
    simp only [hu, if_neg hr]
  · exact congrArg Host.Outcome.next ((State.request_checked hp hc ho).trans (if_pos hst))
  · refine congrArg Host.Outcome.next ((State.request_checked hp hc ho).trans ((if_neg (not_not_intro hst)).trans ?_))
    simp only [hu]
    exact if_neg (by simp)
  · have hst' : (s.owe (some h.port) (vcOf 2 h.sub) (packetSlots 816)).postStatus h ≠ .ok := by rwa [State.postStatus_owe]
    refine (execFabricPostAtt_request fun hb => hst hb.2.2).trans (congrArg Host.Outcome.next ((State.request_checked hp hc ho).trans
      ((if_pos hst').trans ?_)))
    rw [State.postStatus_owe]
  · simp only [List.forall_mem_cons]
    exact ⟨congrArg Host.Outcome.next (State.request_crcBad hp hc), congrArg Host.Outcome.next (State.request_crcBad hp hc),
      congrArg Host.Outcome.next (State.request_crcBad hp hc),
      (execFabricPostAtt_request (by simp [hc])).trans (congrArg Host.Outcome.next (State.request_crcBad hp hc)), by simp⟩
  · simp only [List.forall_mem_cons]
    exact ⟨congrArg Host.Outcome.next (State.request_opBad hp hc ho), congrArg Host.Outcome.next (State.request_opBad hp hc ho),
      congrArg Host.Outcome.next (State.request_opBad hp hc ho),
      (execFabricPostAtt_request (by simp [ho])).trans (congrArg Host.Outcome.next (State.request_opBad hp hc ho)), by simp⟩

/-! ### Answers that arrive (O51) -/

/-- Slots owed to a peer change no transaction. -/
theorem State.trans_owe (s : State) (p : Option Nat) (vc slots : Nat) : (s.owe p vc slots).fab.trans = s.fab.trans := by
  cases p <;> rfl

section
variable {h : PktHdr} (hp : s.portState h.port = psAccepted) (hc : h.crcOk = true) {slots : Nat} {want : Trans → Bool} {f : Trans → State → State}
include hp hc

theorem State.answerArrives_late (hn : SMap.find s.fab.trans h.reqId = none) : s.answerArrives h slots want f =
    (s.owe (some h.port) (vcOf 1 h.sub) slots).bump Fld.FAB_ERRORS_LATE Fld.FAB_ERRORS_LATE_SAT 1 := by
  refine (if_pos hp).trans ((if_neg (by simp [hc])).trans ?_)
  rw [State.trans_owe, hn]

theorem State.answerArrives_awaited {t : Trans} (ht : SMap.find s.fab.trans h.reqId = some t) (hs : t.sent = true) (hd : t.dest = h.src)
    (hw : want t = true) : s.answerArrives h slots want f = f t (s.owe (some h.port) (vcOf 1 h.sub) slots) := by
  refine (if_pos hp).trans ((if_neg (by simp [hc])).trans ?_)
  rw [State.trans_owe, ht]
  exact if_pos (by simp [hs, hd, hw])

end

theorem execNoAcceptedPortTimeout_own {n : Nat} {t : Trans} (ht : SMap.find s.fab.trans n = some t) (hs : t.sent = false)
    (hc : s.connected (s.turnoutDir t.dest) = false) :
    exec (.noAcceptedPortTimeout true n) s = .next ((s.countDrop .timeout (t.packet s.moduleId n)).timeoutTrans n t) := by
  change execNoAcceptedPortTimeout true n s = _
  simp only [execNoAcceptedPortTimeout, ht, if_true]
  exact congrArg Host.Outcome.next (if_neg (by simp [hs, hc]))

theorem execNoAcceptedPortTimeout_transit {n : Nat} {inPort : Option Nat} {x : Packet} (hx : s.fab.stranded[n]? = some (inPort, x))
    (hc : s.connected (s.turnoutDir x.dst) = false) : exec (.noAcceptedPortTimeout false n) s =
      .next ((s.setFab { s.fab with stranded := s.fab.stranded.eraseIdx n }).discard inPort .timeout x) := by
  change execNoAcceptedPortTimeout false n s = _
  simp only [execNoAcceptedPortTimeout, hx, Bool.false_eq_true, if_false]
  exact congrArg Host.Outcome.next (if_neg (by simp [hc]))

/-- What FABRIC_READ_DATA does with the data of a READ. -/
def readData (h : PktHdr) (st : Status) (data : List Byte) (t : Trans) (s1 : State) : State :=
  match t.owner with
  | .instr _ =>
    let w : Status × State := if st = .ok then s1.jobWrite t.into (data.take t.len) else (st, s1)
    w.2.endTrans h.reqId t w.1 []
  | .attPost .. | .pages _ | .kvp | .grad _ => s1.endTrans h.reqId t st (data.take t.len)

section
variable {h : PktHdr} {t : Trans} {data : List Byte} {s1 : State}

theorem readData_instr {core : Nat} (ho : t.owner = .instr core) {st : Status} : readData h st data t s1 =
    let w : Status × State := if st = .ok then s1.jobWrite t.into (data.take t.len) else (st, s1)
    w.2.endTrans h.reqId t w.1 [] := by
  simp only [readData, ho]

theorem readData_kept (ho : ∀ core, t.owner ≠ .instr core) {st : Status} :
    readData h st data t s1 = s1.endTrans h.reqId t st (data.take t.len) := by
  unfold readData
  split
  case h_1 core heq => exact absurd heq (ho core)
  all_goals rfl

end

theorem execFabricReadData_eq (h : PktHdr) (st : Status) (data : List Byte) : exec (.fabricReadData h st data) s =
    .next (s.answerArrives h (packetSlots data.length) (fun t => decide (t.op = 2)) (readData h st data)) := rfl

/-- Settles O51: an answer ends the transaction that it names, and no other. -/
theorem fabricAnswersComplete : Obligations.FabricAnswersComplete := by
  intro s h st data
  refine ⟨fun hp hc => ⟨fun hn => ⟨congrArg _ (State.answerArrives_late hp hc hn), congrArg _ (State.answerArrives_late hp hc hn),
    congrArg _ (State.answerArrives_late hp hc hn)⟩, fun t ht hs hd => ⟨congrArg _ (State.answerArrives_awaited hp hc ht hs hd rfl),
      fun h2 => congrArg _ (State.answerArrives_awaited hp hc ht hs hd (by simp [h2])), fun h2 core ho => ⟨fun r u hu => ?_, fun hst => ?_⟩, fun h2 ho => ?_⟩⟩,
    fun i t ht hpost => ?_, fun n t ht hs hc => execNoAcceptedPortTimeout_own ht hs hc, fun n inPort x hx hc => execNoAcceptedPortTimeout_transit hx hc⟩
  · rw [execFabricReadData_eq, State.answerArrives_awaited hp hc ht hs hd (by simp [h2]), readData_instr ho]
    simp only [if_true, hu]
  · rw [execFabricReadData_eq, State.answerArrives_awaited hp hc ht hs hd (by simp [h2]), readData_instr ho]
    simp only [if_neg hst]
  · rw [execFabricReadData_eq, State.answerArrives_awaited hp hc ht hs hd (by simp [h2]), readData_kept ho]
  · change execRemoteTimeout i s = _
    simp only [execRemoteTimeout, ht]
    exact congrArg Host.Outcome.next (if_neg (by simp [hpost]))

/-! ### The fabric's registers (O52) -/

theorem fabTtLoadWrite_eq {v : Word} : fabTtLoadWrite v s =
    if s.fld Fld.FAB_TT_STATUS_LOAD_STATE = lsLoading ∨ s.flag Fld.FAB_CTRL_TT_SWAP = true then (.denied, s)
    else (.ok, ((s.setFab { s.fab with staged := [], load := some (wget v 39 12 * 4096) }).setFld
      Fld.FAB_TT_STATUS_LOAD_STATE lsLoading).setFld Fld.FAB_TT_STATUS_GEN_STAGED 0) := by
  simp only [fabTtLoadWrite, Bool.or_eq_true, decide_eq_true_eq]

/-- A flag is the bit of its register. -/
theorem State.flag_eq_bit (s : State) (r i : Nat) : s.flag ⟨r, i, i⟩ = bit (s.reg r).toNat i := by
  simp only [State.flag, State.fld, wget, bits, bit, Nat.testBit_eq_decide_div_mod_eq, Nat.shiftRight_eq_div_pow, Nat.add_sub_cancel_left, Nat.pow_one]

/-- A flag that does not read 1 reads 0. -/
theorem State.fld_eq_zero {r i : Nat} (h : s.flag ⟨r, i, i⟩ = false) : s.fld ⟨r, i, i⟩ = 0 := by
  have lt : s.fld ⟨r, i, i⟩ < 2 ^ (i + 1 - i) := wget_lt _ _ _
  have ne : s.fld ⟨r, i, i⟩ ≠ 1 := of_decide_eq_false h
  rw [Nat.add_sub_cancel_left] at lt
  omega

/-- A window that is not VALID is given its base with VALID 0. -/
theorem fabWinBaseWrite_shut {i : Nat} {v : Word} (hw : s.flag (Fld.FAB_WIN_BASE_VALID i) = false) (hv : bit v.toNat 63 = false) :
    fabWinBaseWrite i v s = (.ok, s.setReg (Reg.FAB_WIN_BASE i) (wput (wput v 59 56 0) 11 0 0)) := by
  have hold : bit (s.reg (Reg.FAB_WIN_BASE i)).toNat 63 = false := (s.flag_eq_bit _ _).symm.trans hw
  simp only [fabWinBaseWrite, hold, hv, Bool.false_and, Bool.false_eq_true, if_false]

section
variable {v : Word}

theorem fabCtrlWrite_swap (h2 : bit v.toNat 2 = true) (h3 : bit v.toNat 3 = false) (hw : wget v 1 0 = s.fld Fld.FAB_CTRL_MIN_WIDTH) :
    fabCtrlWrite v s = if s.fld Fld.FAB_TT_STATUS_LOAD_STATE ≠ lsReady then (.denied, s) else (.ok, s.swapTurnout) := by
  simp only [fabCtrlWrite, h2, h3, hw, Bool.true_and, Bool.false_or, Bool.false_eq_true, if_false, if_true, decide_eq_true_eq]

theorem fabCtrlWrite_discard (h2 : bit v.toNat 2 = false) (h3 : bit v.toNat 3 = true) (hw : wget v 1 0 = s.fld Fld.FAB_CTRL_MIN_WIDTH) :
    fabCtrlWrite v s = (.ok, s.discardTurnout) := by
  simp only [fabCtrlWrite, h2, h3, hw, Bool.false_and, Bool.false_eq_true, if_false, if_true]

theorem fabCtrlWrite_width (h2 : bit v.toNat 2 = false) (h3 : bit v.toNat 3 = false) :
    fabCtrlWrite v s = (.ok, if wget v 1 0 = s.fld Fld.FAB_CTRL_MIN_WIDTH then s else (s.setFld Fld.FAB_CTRL_MIN_WIDTH (wget v 1 0)).judgeWidths) := by
  simp only [fabCtrlWrite, h2, h3, Bool.false_and, Bool.false_eq_true, if_false]

end

/-- Words of FAB_CTRL: MIN_WIDTH with no other bit, with TT_SWAP, or with TT_DISCARD. -/
theorem fabCtrlWords : ∀ w < 4,
    (bit (BitVec.ofNat 64 w : Word).toNat 2 = false ∧ bit (BitVec.ofNat 64 w : Word).toNat 3 = false ∧ wget (BitVec.ofNat 64 w) 1 0 = w)
    ∧ (bit (BitVec.ofNat 64 (w + 4) : Word).toNat 2 = true ∧ bit (BitVec.ofNat 64 (w + 4) : Word).toNat 3 = false ∧ wget (BitVec.ofNat 64 (w + 4)) 1 0 = w)
    ∧ (bit (BitVec.ofNat 64 (w + 8) : Word).toNat 2 = false ∧ bit (BitVec.ofNat 64 (w + 8) : Word).toNat 3 = true ∧ wget (BitVec.ofNat 64 (w + 8)) 1 0 = w) := by
  decide

theorem State.minWidth_lt (s : State) : s.fld Fld.FAB_CTRL_MIN_WIDTH < 4 := wget_lt _ _ _

theorem fabPortCtrlWrite_disable {p : Nat} {v : Word} (he : s.expects p = true) (hd : s.flag (Fld.FAB_PORT_CTRL_DISABLE p) = false)
    (hv : bit v.toNat 0 = true) : fabPortCtrlWrite p v s = (.ok, (s.setFld (Fld.FAB_PORT_CTRL_DISABLE p) 1).startDrain p) := by
  simp only [fabPortCtrlWrite, he, hd, hv]
  rfl

theorem fabPortCtrlWrite_retrain {p : Nat} {v : Word} (he : s.expects p = true) (hd : s.flag (Fld.FAB_PORT_CTRL_DISABLE p) = false)
    (h0 : bit v.toNat 0 = false) (h1 : bit v.toNat 1 = true) : fabPortCtrlWrite p v s =
      (.ok, ((s.setFld (Fld.FAB_PORT_CTRL_DISABLE p) 0).setFld (Fld.FAB_PORT_CTRL_RETRAIN p) 1).startDrain p) := by
  simp only [fabPortCtrlWrite, he, hd, h0, h1]
  rfl

/-- The word that RETRAIN writes while DISABLE is 0. -/
theorem retrainWord (p : Nat) (hd : s.flag (Fld.FAB_PORT_CTRL_DISABLE p) = false) :
    BitVec.ofNat 64 (2 + s.fld (Fld.FAB_PORT_CTRL_DISABLE p)) = (2 : Word) := by
  have h : s.fld (Fld.FAB_PORT_CTRL_DISABLE p) = 0 := State.fld_eq_zero hd
  rw [h]
  rfl

theorem execFabTtLoadDone_read {a : Nat} {u : State} (ha : s.fab.load = some a) (hs : s.hbmSource a turnoutBytes = .ok)
    (hu : s.readCheck 7 .module a turnoutBytes = (.ok, u)) : exec .fabTtLoadDone s = .next (
      let l := u.bytes a turnoutBytes
      let st := u.turnoutStatus l (s.fld Fld.FAB_TT_STATUS_GEN_ACTIVE)
      let s1 := (u.setFab { u.fab with load := none }).setFld Fld.FAB_TT_STATUS_LOAD_STATUS st.code
      if st = .ok then
        ((s1.setFab { s1.fab with staged := turnoutTable (turnoutEntries (l.drop 64)) }).setFld Fld.FAB_TT_STATUS_LOAD_STATE
          lsReady).setFld Fld.FAB_TT_STATUS_GEN_STAGED (byteField (leNat (l.take 64)) 2 2)
      else s1.setFld Fld.FAB_TT_STATUS_LOAD_STATE lsFailed) := by
  have hsrc : (if s.hbmSource a turnoutBytes ≠ .ok then (s.hbmSource a turnoutBytes, s) else s.readCheck 7 .module a turnoutBytes) = (.ok, u) :=
    (if_neg (not_not_intro hs)).trans hu
  change execFabTtLoadDone s = _
  simp only [execFabTtLoadDone, ha, hsrc]
  rfl

/-- Settles O52: each write by its register's rule, the end of a load by its image, and the topology check by its ports. -/
theorem fabricControlCompletes : Obligations.FabricControlCompletes := by
  refine ⟨fun s q v hm => ?_, fun s a ha hs u hu => ?_, fun s hd hb hset => ?_⟩
  · obtain ⟨-, ⟨s2, s3, sw⟩, ⟨d2, d3, dw⟩⟩ := fabCtrlWords _ s.minWidth_lt
    refine ⟨fun h => next_regWrite_refused hm (fabTtLoadWrite_eq.trans (if_pos h)), fun h => next_regWrite_ok hm (fabTtLoadWrite_eq.trans (if_neg h)),
      fun h => next_regWrite_ok hm ((fabCtrlWrite_swap s2 s3 sw).trans (if_neg (not_not_intro h))),
      fun h => next_regWrite_refused hm ((fabCtrlWrite_swap s2 s3 sw).trans (if_pos h)),
      next_regWrite_ok hm (fabCtrlWrite_discard d2 d3 dw), fun w => ?_, fun i hv => ⟨fun h => ?_, fun h => ?_, fun h => ?_⟩, fun p he hd => ⟨?_, ?_⟩⟩
    · obtain ⟨⟨w2, w3, ww⟩, -, -⟩ := fabCtrlWords _ w.isLt
      have write := fabCtrlWrite_width (s := s) w2 w3
      rw [ww] at write
      exact ⟨fun h => next_regWrite_ok hm (write.trans (congrArg _ (if_pos h))), fun h => next_regWrite_ok hm (write.trans (congrArg _ (if_neg h)))⟩
    · exact next_regWrite_ok hm ((if_neg (by simp [hv])).trans (if_neg (Nat.not_lt.mpr h)))
    · exact next_regWrite_refused hm ((if_neg (by simp [hv])).trans (if_pos h))
    · exact next_regWrite_ok hm (fabWinBaseWrite_shut hv h)
    · exact next_regWrite_ok hm (fabPortCtrlWrite_disable he hd (by decide))
    · have write := fabPortCtrlWrite_retrain (v := 2) he hd (by decide) (by decide)
      rw [← retrainWord p.val hd] at write
      exact next_regWrite_ok hm write
  · have step := execFabTtLoadDone_read ha hs hu
    exact ⟨fun h => step.trans (congrArg Host.Outcome.next (if_pos h)), fun h => step.trans (congrArg Host.Outcome.next (if_neg h))⟩
  · have settled : (List.range 36).all (fun p => !s.expects p || s.settled p) = true :=
      List.all_eq_true.mpr fun p hp => by
        cases he : s.expects p
        · rfl
        · simp [hset p (List.mem_range.mp hp) he]
    exact congrArg Host.Outcome.next (if_neg (by simp [hd, settled, Option.isSome_iff_ne_none.mp hb]))

end Sys2Proof.Machine
end

