-- ==== Sys2Proof/Proofs/Gradients.lean ====
section
/-! PROOFS. Gradient reduction: opening, sending and the packets that arrive (O53), deadlines and completion (O54). -/

namespace Sys2Proof.Machine
open Sys2Proof.Claims

variable {s : State}

/-! ### Opening, sending and arriving (O53) -/

/-- An open whose descriptor reads and whose checks pass. -/
theorem grdOpenWrite_good {v : Word} {u : State} (ho : s.flag Fld.GRD_STATUS_OPENING = false) (ha : isHbm (wget v 39 6 * 64) = true)
    (hr : s.ready rdyHbm = true) (hu : s.readCheck 7 .module (wget v 39 6 * 64) 128 = (.ok, u))
    (hst : u.gradOpenStatus (u.num (wget v 39 6 * 64) 128) = .ok) : grdOpenWrite v s =
      let d := GradDesc.ofNum (u.num (wget v 39 6 * 64) 128)
      let s1 := (u.setFld Fld.GRD_STATUS_LAST_STATUS 0).setFld Fld.GRD_STATUS_LAST_RED_ID d.redId
      (.ok, (s1.setRed d.redId { d := d, opened := s1.stamp }).showGrd) := by
  simp only [grdOpenWrite, ho, ha, hr, hu, hst, Bool.and_self, if_true, Bool.false_eq_true, if_false, ne_eq, not_true_eq_false]
  rfl

theorem execGrdChunkSend_open {red dst : Nat} {r : Reduction} (hr : (s.gradReadReady red).red red = some r) (ha : r.abandoned = false) :
    exec (.grdChunkSend red dst) s = .next (
      if r.d.gather then ((s.gradReadReady red).gatherSendOwn red).gradSettle
      else if ((s.gradReadReady red).nextRaw r).all (fun x => x.1 = dst) then ((s.gradReadReady red).gradSendRaw red).gradSettle
      else s) := by
  change execGrdChunkSend red dst s = _
  simp only [execGrdChunkSend, hr]
  exact congrArg Host.Outcome.next (if_neg (by simp [ha]))

/-- Where no raw packet is ready, none leaves. -/
theorem State.gradSendRaw_none {red : Nat} {r : Reduction} (hr : s.red red = some r) (hn : s.nextRaw r = none) : s.gradSendRaw red = s := by
  simp only [State.gradSendRaw, hr, hn]

section
variable {h : PktHdr} {p : GradPkt} {f : State → Status × State} (hp : s.portState h.port = psAccepted)
include hp

theorem State.gradPacket_crcBad (hc : h.crcOk = false) :
    s.gradPacket h p f = (s.owe (some h.port) (vcOf 3 h.sub) (packetSlots p.data.length)).crcDiscard h :=
  (if_pos hp).trans (if_pos (by simp [hc]))

/-- A packet with a good CRC is answered with what Table 12-8 says of it, or with the status of its effect. -/
theorem State.gradPacket_judged (hc : h.crcOk = true) : s.gradPacket h p f =
    let s1 := s.owe (some h.port) (vcOf 3 h.sub) (packetSlots p.data.length)
    if s1.gradJudge h p ≠ .ok then s1.gradAnswerTo h (s1.gradJudge h p) else ((f s1).2.gradAnswerTo h (f s1).1).gradSettle :=
  (if_pos hp).trans (if_neg (by simp [hc]))

end

/-- An instruction that brings a gradient packet, by what its checks say. -/
theorem exec_gradPacket {h : PktHdr} {p : GradPkt} {f : State → Status × State} {i : Instr} (hp : s.portState h.port = psAccepted)
    (hi : exec i s = .next (s.gradPacket h p f)) :
    let s1 := s.owe (some h.port) (vcOf 3 h.sub) (packetSlots p.data.length)
    (h.crcOk = false → exec i s = .next (s1.crcDiscard h))
    ∧ (h.crcOk = true → s1.gradJudge h p ≠ .ok → exec i s = .next (s1.gradAnswerTo h (s1.gradJudge h p)))
    ∧ (h.crcOk = true → s1.gradJudge h p = .ok → exec i s = .next ((f s1).2.gradAnswerTo h (f s1).1).gradSettle) :=
  ⟨fun hc => hi.trans (congrArg _ (State.gradPacket_crcBad hp hc)),
    fun hc hj => hi.trans (congrArg Host.Outcome.next ((State.gradPacket_judged hp hc).trans (if_pos hj))),
    fun hc hj => hi.trans (congrArg Host.Outcome.next ((State.gradPacket_judged hp hc).trans (if_neg (not_not_intro hj))))⟩

/-- Settles O53: opening by the descriptor's checks, sending by what is ready, arrival by the packet's checks. -/
theorem reductionPacketsComplete : Obligations.ReductionPacketsComplete := by
  refine ⟨fun s q v hm ho => ?_, fun s red r => ?_, fun s h p hp => ?_⟩
  · intro a ha hr u hu d s1 hst
    exact next_regWrite_ok hm (grdOpenWrite_good ho ha hr hu hst)
  · intro s1 hr ha
    have step (dst : Nat) := execGrdChunkSend_open (dst := dst) hr ha
    refine ⟨fun dst hg => (step dst).trans (congrArg _ (if_pos hg)), fun hg => ⟨fun dst c piece hn => ⟨?_, fun other hne => ?_⟩, fun hn dst => ?_⟩⟩
    all_goals have raw (x : Nat) := (step x).trans (congrArg Host.Outcome.next (if_neg (ne_true_of_eq_false hg)))
    · have turn : (s1.nextRaw r).all (fun x => x.1 = dst) = true := by simp [hn]
      exact (raw dst).trans (congrArg Host.Outcome.next (if_pos turn))
    · have turn : ¬ (s1.nextRaw r).all (fun x => x.1 = other) = true := by simp [hn, Ne.symm hne]
      exact (raw other).trans (congrArg Host.Outcome.next (if_neg turn))
    · have turn : (s1.nextRaw r).all (fun x => x.1 = dst) = true := by simp [hn]
      exact (raw dst).trans (congrArg Host.Outcome.next ((if_pos turn).trans (congrArg State.gradSettle (State.gradSendRaw_none hr hn))))
  · have row {i : Instr} {op : Nat} {f : State → Status × State} (hi : exec i s = .next (s.gradPacket h { p with op := op } f)) := exec_gradPacket hp hi
    simp only [List.forall_mem_cons]
    obtain ⟨raw1, raw2, raw3⟩ := row (i := .grdRaw h p) rfl
    obtain ⟨part1, part2, part3⟩ := row (i := .grdPart h p) rfl
    obtain ⟨sample1, sample2, sample3⟩ := row (i := .grdSample h p) rfl
    obtain ⟨gather1, gather2, gather3⟩ := row (i := .grdGather h p) rfl
    exact ⟨⟨raw1, raw2, fun hc hj => ⟨fun _ => raw3 hc hj, fun h => absurd h (by decide)⟩⟩,
      ⟨part1, part2, fun hc hj => ⟨fun _ => part3 hc hj, fun h => absurd h (by decide)⟩⟩,
      ⟨sample1, sample2, fun hc hj => ⟨fun _ => sample3 hc hj, fun h => absurd h (by decide)⟩⟩,
      ⟨gather1, gather2, fun hc hj => ⟨fun h => absurd rfl h, fun _ => gather3 hc hj⟩⟩, by simp⟩

/-! ### Deadlines and completion (O54) -/

section
variable {red : Nat} {r : Reduction} (hr : s.red red = some r)
include hr

theorem execGrdTotalTimeout_open (ha : r.abandoned = false) : exec (.grdTotalTimeout red) s = .next (
    let r1 := r.note (.when (r.d.gather && !s.gradDone red r) .timeout)
    let s1 := (s.setRed red { r1 with abandoned := true, resend := [], waiting := [], parts := [] }).abandonSends red
    if r.d.gather then s1 else s1.closeAll red r) := by
  change execGrdTotalTimeout red s = _
  simp only [execGrdTotalTimeout, hr]
  exact congrArg Host.Outcome.next (if_neg (by simp [ha]))

theorem execGrdResend_oldest {x : GradSend} {l : List GradSend} (hx : r.resend = x :: l) {ps : List GradPkt} {st : Status} {u : State}
    (hu : (s.setRed red { r with resend := l }).gradReread r.d x.piece x.pkt = (ps, st, u)) : exec (.grdResend red) s =
      .next (ps.foldl (fun a p => (a.gradInject red (nth 0 x.dest 0) x.piece p).bump Fld.GRD_COUNTS_RESENDS Fld.GRD_COUNTS_RESEND_SAT 1)
        (u.mapRed red (fun r1 => r1.note st))) := by
  change execGrdResend red s = _
  simp only [execGrdResend, hr, hx, hu]

theorem execGrdComplete_done (hd : s.gradDone red r = true) : exec (.grdComplete red) s = .next (
    let u := (s.writeMem 7 r.d.report (s.gradReport r)).2
    let s1 := (u.withUnits { u.units with grd := SMap.erase u.units.grd red }).showGrd
    s1.event { status := r.status, arith := r.arith, kind := .reduction, index := r.d.redId }) := by
  change execGrdComplete red s = _
  simp only [execGrdComplete, hr]
  exact congrArg Host.Outcome.next (if_neg (by simp [hd]))

end

/-- Settles O54. -/
theorem reductionDeadlinesComplete : Obligations.ReductionDeadlinesComplete := by
  refine ⟨fun s red sec stage chunk h => congrArg Host.Outcome.next (if_neg h), fun s red r hr => ⟨fun ha => ⟨fun hg => ?_, fun hg => ?_⟩,
    fun x l hx ps st u hu => execGrdResend_oldest hr hx hu, fun hd => execGrdComplete_done hr hd⟩⟩
  · exact (execGrdTotalTimeout_open hr ha).trans (congrArg Host.Outcome.next (if_pos hg))
  · exact (execGrdTotalTimeout_open hr ha).trans (congrArg Host.Outcome.next (if_neg (ne_true_of_eq_false hg)))

end Sys2Proof.Machine
end

