-- ==== Sys2Proof/Proofs/MediaEngines.lean ====
section
/-! PROOFS. Media commands and pictures (O55), and the programs of the narrow-gauge engines (O56). -/

namespace Sys2Proof.Machine
open Sys2Proof.Claims

variable {s : State}

/-! ### Media commands (O55) -/

section
variable {v : Word}

theorem medSubmitWrite_room (hq : s.med.queue.length < 64) (hs : s.hbmSource (wget v 39 6 * 64) 64 = .ok) : medSubmitWrite v s =
    (.ok, (s.setMed { s.med with queue := s.med.queue ++ [wget v 39 6 * 64] }).setFld Fld.MED_CMD_STATUS_PENDING (s.med.queue.length + 1)) :=
  (if_neg (Nat.not_le.mpr hq)).trans (if_neg (not_not_intro hs))

theorem medSubmitWrite_full (hq : 64 ≤ s.med.queue.length) : medSubmitWrite v s = (.denied, s) := if_pos hq

end

/-- A command at the head whose record reads and has no reserved byte set, where its operation answers OK. -/
theorem State.medExec_ok {a op : Nat} {rest : List Nat} {u t : State} {f : Nat → Nat → State → Status × State} (hq : s.med.queue = a :: rest)
    (hu : s.medRead 0 a 64 = (.ok, u)) (h9 : byteField (s.num a 64) 9 39 = 0) (h56 : byteField (s.num a 64) 56 8 = 0)
    (hop : byteField (s.num a 64) 0 1 = op) (h0 : op ≠ 0) (h6 : op ≤ 6)
    (hf : f (byteField (s.num a 64) 3 1) (byteField (s.num a 64) 4 5) (u.setMed { u.med with queue := rest }) = (.ok, t)) :
    s.medExec op f = t.medComplete a (byteField (s.num a 64) 0 1) (byteField (s.num a 64) 3 1) .ok := by
  simp only [State.medExec, hq, hu, hop, hf, h9, h56, ne_eq, not_true_eq_false, if_false, if_true, decide_false, Bool.or_self, Bool.false_eq_true]
  exact if_neg (by simp [h0, Nat.not_lt.mpr h6])

section
variable {n addr : Nat}

theorem medOpen_good {t : State} (hst : s.streamSt n = stFree ∨ s.streamSt n = stIdle) (ha : addr % 64 = 0) (hs : s.hbmSource addr 128 = .ok)
    (ht : s.medRead n addr 128 = (.ok, t)) (hd : (StreamDesc.ofNum (s.num addr 128)).ok (s.num addr 128) = true)
    (hb : s.streamBuffers (StreamDesc.ofNum (s.num addr 128)) = true) (hr : s.ready rdyMedia = true)
    (hl : (StreamDesc.ofNum (s.num addr 128)).encode = true →
      (StreamDesc.ofNum (s.num addr 128)).lookahead = 0 ∨ s.altOwner (StreamDesc.ofNum (s.num addr 128)).md = true) :
    medOpen n addr s = (.ok,
      let d := StreamDesc.ofNum (s.num addr 128)
      let t2 := t.setReg (Reg.MED_STREAM n) (wput (wput (wput (wput 0 63 61 stRunning) 60 60 (b2n d.encode)) 59 58 d.md) 57 56 d.cls)
      (t2.setStream n { d := d }).showOpen) := by
  have denied : Status.when (decide (s.streamSt n ≠ stFree) && decide (s.streamSt n ≠ stIdle)) .denied = .ok := by
    rcases hst with h | h <;> simp [h, Status.when]
  have owned : ((StreamDesc.ofNum (s.num addr 128)).encode && decide (0 < (StreamDesc.ofNum (s.num addr 128)).lookahead)
      && decide ((StreamDesc.ofNum (s.num addr 128)).md ≤ 3) && !s.altOwner (StreamDesc.ofNum (s.num addr 128)).md) = false := by
    cases he : (StreamDesc.ofNum (s.num addr 128)).encode
    · rfl
    · rcases hl he with h | h <;> simp [h]
  simp only [medOpen, denied, ht, hs, if_true]
  refine if_neg ?_
  simp only [ha, hd, hb, hr, decide_true, Bool.true_and, owned]
  decide

theorem medClose_open (h : s.streamSt n ≠ stFree) : medClose n addr s = (.ok,
    let t := (s.dropRun n).setReg (Reg.MED_STREAM n) 0
    (t.setMed { t.med with streams := SMap.erase t.med.streams n }).showOpen) := if_neg h

theorem medFlush_running (h : s.streamSt n = stRunning) :
    medFlush n addr s = (.ok, (s.setFld (Fld.MED_STREAM_STATE n) stDraining).drainStream n) := if_neg (not_not_intro h)

section
variable {x : Stream} (hx : s.stream n = some x) (he : x.d.encode = true)
include hx he

theorem State.encoder_open : s.encoder n = some x := by
  simp only [State.encoder, hx, Option.bind_some, he, if_true]

theorem medRoi_good {t : State} (hs : s.hbmSource addr 256 = .ok) (ht : s.medRead n addr 256 = (.ok, t))
    (hr : ∀ i < 16, (Roi.ofNum (s.num addr 256) i).ok x.d (s.num addr 256) i = true) :
    medRoi n addr s = (.ok, t.setStream n { x with roiStaged := some (tab 16 (Roi.ofNum (s.num addr 256))) }) := by
  have all : (List.range 16).all (fun i => (Roi.ofNum (s.num addr 256) i).ok x.d (s.num addr 256) i) = true :=
    List.all_eq_true.mpr fun i hi => hr i (List.mem_range.mp hi)
  simp only [medRoi, State.encoder_open hx he, hs, ht, all]
  rfl

theorem medRate_good {t : State} (hs : s.hbmSource addr 16 = .ok) (ht : s.medRead n addr 16 = (.ok, t)) :
    let r := byteField (s.num addr 16) 0 4
    let lo := byteField (s.num addr 16) 9 1
    let hi := byteField (s.num addr 16) 10 1
    bitrateOk x.d.rcMode r = true → lo ≤ hi → hi ≤ qpTop x.d.codec →
      medRate n addr s = (.ok, t.setStream n { x with rateStaged := some (r, lo, hi) }) := by
  intro r lo hi hr hlo hhi
  simp only [medRate, State.encoder_open hx he, hs, ht]
  exact (if_neg (not_not_intro rfl)).trans ((if_neg (not_not_intro rfl)).trans (if_neg (by
    simp only [r, lo, hi] at hr hlo hhi
    simp [hr, Nat.not_lt.mpr hlo, Nat.not_lt.mpr hhi])))

theorem medKey_open : medKey n addr s = (.ok, s.setStream n { x with keyDue := true }) := by
  simp only [medKey, State.encoder_open hx he]

end

end

/-! ### Pictures (O55) -/

section
variable {n : Fin 256} {x : Stream} (hx : s.stream n.val = some x) {d : DecDone} {e : EncDone}
include hx

theorem execPictureComplete_decode {r : DecRun} (hr : x.dec = some r) : exec (.pictureComplete n d e) s = .next (s.endDecode n.val x r d) := by
  change execPictureComplete n d e s = _
  simp only [execPictureComplete, hx, hr]

theorem execPictureComplete_encode {r : EncRun} (hd : x.dec = none) (hr : x.enc = some r) :
    exec (.pictureComplete n d e) s = .next (s.endEncode n.val x r e) := by
  change execPictureComplete n d e s = _
  simp only [execPictureComplete, hx, hd, hr]

end

/-- The state once a die's streams have read the other sides' counts. -/
def State.polled (s : State) (md : Nat) (enc : Bool) : State :=
  s.med.streams.foldl (fun acc p =>
    if p.2.d.md = md && p.2.d.encode = enc && (acc.streamSt p.1 = stRunning || acc.streamSt p.1 = stDraining) then
      (acc.refresh p.1).flushOut p.1 else acc) s

theorem execPictureStart_free {md : Fin 4} {enc : Bool} {engines : List Nat} {d : DecObs} {e : EncObs} (hf : s.freeEngines md.val enc ≠ []) :
    exec (.pictureStart md enc engines d e) s = .next (match (s.polled md.val enc).nextPicture md.val enc with
      | none => s.polled md.val enc
      | some n => match (s.polled md.val enc).stream n with
        | none => s.polled md.val enc
        | some x => if enc then (s.polled md.val enc).startEncode n x engines e else (s.polled md.val enc).startDecode n x engines d) :=
  congrArg Host.Outcome.next (if_neg (by simp [hf]))

section
variable {n : Nat} {x : Stream} {engines : List Nat}

/-- The picture that a decoder's engines begin. -/
def decodeRun (x : Stream) (engines : List Nat) (tag : Nat) (o : DecObs) : DecRun :=
  ⟨engines, x.units, tag, o, o.refs.any (fun r => !(x.refs.any (fun q => q.order = r))), !o.key && (o.refs.filterMap (pickRef x.refs)).any (·.damaged)⟩

/-- A unit that reads, with its references, begins its picture. -/
theorem State.startDecode_good {o : DecObs} {t1 t2 t3 : State} (h1 : s.medRead n (x.d.unitAt x.units) 32 = (.ok, t1))
    (hl : 1 ≤ byteField (s.num (x.d.unitAt x.units) 32) 8 4) (hl2 : byteField (s.num (x.d.unitAt x.units) 32) 8 4 ≤ 2 ^ 26)
    (hreg : t1.inOneRegion (byteField (s.num (x.d.unitAt x.units) 32) 0 5) (byteField (s.num (x.d.unitAt x.units) 32) 8 4) = true)
    (h5 : byteField (s.num (x.d.unitAt x.units) 32) 5 3 = 0) (h12 : byteField (s.num (x.d.unitAt x.units) 32) 12 1 ≤ 15)
    (h2 : t1.medRead n (byteField (s.num (x.d.unitAt x.units) 32) 0 5) (byteField (s.num (x.d.unitAt x.units) 32) 8 4) = (.ok, t2))
    (hmal : o.malformed = false) (hskip : x.skipping = true → o.key = true) (hrefs : o.refsNeeded < x.d.nref) (hw : o.w ≤ x.d.maxW) (hh : o.h ≤ x.d.maxH)
    (hw0 : 16 ≤ o.w) (hh0 : 16 ≤ o.h) (hout : o.outside = false) (hbits : o.bits = x.d.bits)
    (hchroma : (o.chroma = 2 ∧ x.d.chroma ≠ 1) ∨ (o.chroma ≠ 2 ∧ o.chroma = x.d.chroma))
    (h3 : (o.refs.filterMap (pickRef x.refs)).foldl (fun (acc : Status × State) q => if acc.1 ≠ .ok then acc
        else acc.2.medRead n (x.d.refPool + q.slot * x.d.refSize) x.d.refSize) (.ok, t2) = (.ok, t3))
    (heng : enginesOk (s.freeEngines x.d.md false) engines (if x.d.codec = 0 then 1 else min x.d.splitMax (max 1 o.columns)) true = true) :
    s.startDecode n x engines o =
      let t4 := (t3.setBusy false engines 1).beginPicture n
        { x with dec := some (decodeRun x engines (byteField (s.num (x.d.unitAt x.units) 32) 16 8) o), skipping := false }
      if bit (byteField (s.num (x.d.unitAt x.units) 32) 12 1) 0 && !o.more then t4.setFld (Fld.MED_STREAM_STATE n) stDraining else t4 := by
  have whole : (decide (byteField (s.num (x.d.unitAt x.units) 32) 8 4 = 0) || decide (2 ^ 26 < byteField (s.num (x.d.unitAt x.units) 32) 8 4)) = false := by
    simp only [Bool.or_eq_false_iff, decide_eq_false_iff_not]
    omega
  have skipped : (o.malformed || (x.skipping && !o.key)) = false := by
    cases hs : x.skipping
    · simp [hmal]
    · simp [hmal, hskip hs]
  have bounds : (decide (x.d.nref ≤ o.refsNeeded) || decide (x.d.maxW < o.w) || decide (x.d.maxH < o.h)) = false := by
    simp only [Bool.or_eq_false_iff, decide_eq_false_iff_not]
    omega
  have chroma : (if o.chroma = 2 then decide (x.d.chroma = 1) else decide (o.chroma ≠ x.d.chroma)) = false := by
    rcases hchroma with ⟨h, h'⟩ | ⟨h, h'⟩
    · simp [h, h']
    · rw [if_neg h]
      simp [h']
  simp only [State.startDecode, h1, h2, h3, h5, hreg, whole, skipped, bounds, chroma, hout, hbits, heng, ne_eq, not_true_eq_false, if_false, decide_false,
    Bool.not_true, Bool.or_self, Bool.false_eq_true, Bool.false_or, decide_eq_true_eq, Bool.or_eq_true]
  refine (if_neg (Nat.not_lt.mpr h12)).trans ((if_neg ?_).trans rfl)
  omega

/-- The picture that an encoder's engines begin, with what is left of its budget. -/
def encodeRun (y : Stream) (engines : List Nat) (num tag : Nat) (e : EncObs) : EncRun :=
  let key := y.began.isNone || decide (y.d.keyInt ≤ y.sinceKey) || y.keyDue
  let intra := key || y.d.gop = 0
  let ptype := if intra then 0 else if y.d.gop = 1 then 1 else 1 + e.ptype
  let debt := if y.keyDue then 0 else y.debt
  let part := debtPart debt (y.d.nominal key)
  let left := y.d.nominal key - part
  let old := y.record ptype
  let cols := tab y.d.tileCols (fun j =>
    (if y.d.rcMode = 0 then y.d.qpInit else (old.bind (·.final[j]?)).getD y.d.qpInit,
      if 0 < y.d.lookahead then nth [] e.complexity j
      else (old.bind (·.bits[j]?)).getD (List.replicate (ceilDiv y.d.maxH 64) 1)))
  ⟨engines, num, tag, key, intra, ptype, if y.d.rcMode = 0 then none else some left, left / y.d.tileCols, cols⟩

/-- An input that reads, with its references, begins its picture. -/
theorem State.startEncode_good {e : EncObs} {num a tag b : Nat} {t1 t2 : State} (hnum : num = if x.takeStaged.d.gop ≤ 1 then x.takeStaged.pics else e.num)
    (heng : enginesOk (s.freeEngines x.takeStaged.d.md true) engines (min x.takeStaged.d.splitMax x.takeStaged.d.tileCols) false = true)
    (hlo : x.takeStaged.pics ≤ num) (hhi : num < (if x.takeStaged.d.viaNge then x.takeStaged.pics + x.takeStaged.local'.length else x.takeStaged.picsOther))
    (hcoded : num ∉ x.takeStaged.coded) (hdrain : s.streamSt n = stDraining → ∃ c ∈ x.takeStaged.coded, num < c)
    (hin : s.encInput n x.takeStaged num = (.ok, a, tag, t1))
    (hrefs : t1.readChecks clsMedia (.stream n) ((e.refs.filter (fun k => decide (k < x.takeStaged.d.nref))).map
      (fun k => (x.takeStaged.d.refPool + k * x.takeStaged.d.refSize, x.takeStaged.d.refSize))) = (.ok, b, t2)) :
    s.startEncode n x engines e =
      let y := x.takeStaged
      let run := encodeRun y engines num tag e
      let debt := if y.keyDue then 0 else y.debt
      (t2.setBusy true engines 1).beginPicture n
        { y with enc := some run, keyDue := false, sinceKey := if run.key then 1 else y.sinceKey + 1,
                 debt := if y.d.rcMode = 0 then debt else debt - debtPart debt (y.d.nominal run.key) } := by
  have waits : (decide (s.streamSt n = stDraining) && x.takeStaged.coded.all (fun c => decide (c ≤ num))) = false := by
    rw [Bool.and_eq_false_iff, decide_eq_false_iff_not]
    by_cases hd : s.streamSt n = stDraining
    · obtain ⟨c, hc, hlt⟩ := hdrain hd
      exact .inr (List.all_eq_false.mpr ⟨c, hc, by simpa using hlt⟩)
    · exact .inl hd
  have refused : (!enginesOk (s.freeEngines x.takeStaged.d.md true) engines (min x.takeStaged.d.splitMax x.takeStaged.d.tileCols) false
      || decide (num < x.takeStaged.pics)
      || decide ((if x.takeStaged.d.viaNge then x.takeStaged.pics + x.takeStaged.local'.length else x.takeStaged.picsOther) ≤ num)
      || x.takeStaged.coded.contains num || (decide (s.streamSt n = stDraining) && x.takeStaged.coded.all (fun c => decide (c ≤ num)))) ≠ true := by
    rw [waits, heng]
    simp [Nat.not_lt.mpr hlo, Nat.not_le.mpr hhi, hcoded]
  subst hnum
  simp only [State.startEncode, hin, hrefs]
  exact (if_neg refused).trans ((if_neg (not_not_intro rfl)).trans (if_neg (not_not_intro rfl)))

end

/-- Settles O55: each media command by its operation, each picture by what its engines read. -/
theorem mediaCommandsComplete : Obligations.MediaCommandsComplete := by
  refine ⟨fun s q v hm => ⟨fun hq hs => next_regWrite_ok hm (medSubmitWrite_room hq hs), fun hq => next_regWrite_refused hm (medSubmitWrite_full hq)⟩,
    fun s a rest u hq hu => ?_, fun s n => ⟨fun h => congrArg Host.Outcome.next (if_pos (by simpa using h)), fun x d e hx =>
      ⟨fun r hr => execPictureComplete_decode hx hr, fun r hd hr => execPictureComplete_encode hx hd hr⟩⟩, fun s md enc engines d e hf => ?_⟩
  · intro w h9 h56
    have done {op : Nat} (hop : byteField (s.num a 64) 0 1 = op) (h0 : op ≠ 0) (h6 : op ≤ 6) {f : Nat → Nat → State → Status × State} {t : State}
        (hf : f (byteField (s.num a 64) 3 1) (byteField (s.num a 64) 4 5) (u.setMed { u.med with queue := rest }) = (.ok, t)) :=
      congrArg (Host.Outcome.next (φ := Fault) (ρ := Refusal)) (State.medExec_ok hq hu h9 h56 hop h0 h6 hf)
    exact ⟨fun hop hst ha hs t ht hd hb hr hl => done hop (by decide) (by decide) (medOpen_good hst ha hs ht hd hb hr hl),
      fun hop hst => done hop (by decide) (by decide) (medClose_open hst), fun hop hst => done hop (by decide) (by decide) (medFlush_running hst),
      fun x hx he => ⟨fun hop hs t ht hr => done hop (by decide) (by decide) (medRoi_good hx he hs ht hr),
        fun hop hs t ht hr hlo hhi => done hop (by decide) (by decide) (medRate_good hx he hs ht hr hlo hhi),
        fun hop => done hop (by decide) (by decide) (medKey_open hx he)⟩⟩
  · have step := execPictureStart_free (engines := engines) (d := d) (e := e) hf
    refine ⟨fun hn => ?_, fun n x hn hx => ⟨fun he t1 h1 => ?_, fun he => ?_⟩⟩
    · have hn' : (s.polled md.val enc).nextPicture md.val enc = none := hn
      rw [hn'] at step
      exact step
    all_goals
      have hn' : (s.polled md.val enc).nextPicture md.val enc = some n := hn
      have hx' : (s.polled md.val enc).stream n = some x := hx
      simp only [hn', hx'] at step
      subst he
    · intro w ua len hl hl2 hreg h5 h12 t2 h2 hmal hskip hrefs hw hh hw0 hh0 hout hbits hchroma used missing t3 h3 heng run t4
      have begun := State.startDecode_good h1 hl hl2 hreg h5 h12 h2 hmal hskip hrefs hw hh hw0 hh0 hout hbits hchroma h3 heng
      have step := step.trans (congrArg Host.Outcome.next begun)
      refine ⟨fun hb hm => step.trans (congrArg Host.Outcome.next (if_pos (Bool.and_eq_true_iff.mpr ⟨hb, by simp [hm]⟩))),
        fun hb => step.trans (congrArg Host.Outcome.next (if_neg fun h => ?_))⟩
      obtain ⟨hend, hmore⟩ := Bool.and_eq_true_iff.mp h
      rcases hb with hb | hb
      · exact absurd hend (ne_true_of_eq_false hb)
      · simp [hb] at hmore
    · intro y num heng hlo hhi hcoded hdrain a tag t1 hin b t2 hrefs
      exact step.trans (congrArg Host.Outcome.next (State.startEncode_good rfl heng hlo hhi hcoded hdrain hin hrefs))

/-! ### The narrow-gauge engines (O56) -/

section
variable {e n : Nat} {v : Word} (hn : wget v 55 48 = n) (hp : s.flag (Fld.NGE_STATUS_PENDING e) = false)
include hn hp

theorem ngeBindWrite_bind {x : Stream} (ho : wget v 63 62 = 0) (hr : s.ready rdyNge = true) (he : e ∉ s.boot.ngeOut) (hx : s.dieStream e n = some x)
    (hroom : (s.ngeProg e n).isSome = true ∨ (s.ngePrograms e).length < 64) : ngeBindWrite e v s =
      let r := s.ngeVerify e n (wget v 39 6 * 64) x.d
      (.ok, r.2.2.ngeOutcome e r.1 r.2.1) := by
  have room : ((s.ngeProg e n).isNone && decide (64 ≤ (s.ngePrograms e).length)) = false := by
    rcases hroom with h | h
    · simp [Option.isSome_iff_ne_none.mp h]
    · simp [Nat.not_le.mpr h]
  simp only [ngeBindWrite, ho, hn, hx]
  refine (if_neg ?_).trans (if_neg (by decide))
  simp [hr, he, hp, room, Status.when, Status.lowest_ok]

theorem ngeBindWrite_unbind (ho : wget v 63 62 = 1) (hr : s.ready rdyNge = true) (he : e ∉ s.boot.ngeOut) (hx : (s.dieStream e n).isSome = true) :
    ngeBindWrite e v s = if (s.ngeProg e n).isNone then (.ok, s.ngeOutcome e .verify 255)
      else (.ok, (s.setNge { s.units.nge with progs := SMap.erase s.units.nge.progs (256 * e + n) }).ngeOutcome e .ok 255) := by
  simp only [ngeBindWrite, ho, hn]
  refine (if_neg ?_).trans (if_pos trivial)
  simp [hr, he, hp, Option.isSome_iff_ne_none.mp hx, Status.when, Status.lowest_ok]

/-- An engine that is out of service or not ready takes no program. -/
theorem ngeBindWrite_notReady {x : Stream} (ho : wget v 63 62 = 0) (h : s.ready rdyNge = false ∨ e ∈ s.boot.ngeOut) (hx : s.dieStream e n = some x)
    (hb : (s.ngeProg e n).isSome = true) : ngeBindWrite e v s = (.notReady, s) := by
  have out : (!s.ready rdyNge || s.boot.ngeOut.contains e) = true := by
    rcases h with h | h <;> simp [h]
  simp only [ngeBindWrite, ho, hn, out, hp, hx]
  have bound : (s.ngeProg e n).isNone = false := by simpa using hb
  simp only [bound, Bool.and_false, Bool.false_and]
  exact if_pos (show Status.lowest [.notReady, .ok, .ok] ≠ .ok by decide)

end

/-- The word of NGE_BIND with an operation keeps its stream and gives the operation. -/
theorem ngeBindWord (v : Word) (op : Nat) (h : op < 4) : wget (wput v 63 62 op) 63 62 = op :=
  (wget_wput_same v 63 62 op (by decide)).trans (Nat.mod_eq_of_lt h)

/-- The state once an engine's programs have read the other sides' counts. -/
def State.ngePolled (s : State) (e : Nat) : State := (s.ngePrograms e).foldl (fun acc p => acc.ngeRefresh e p.stream) s

theorem execNgePictureRun_ready {e : Fin 4} (hr : s.ready rdyNge = true) : exec (.ngePictureRun e) s =
    .next (match (s.ngePolled e.val).nextNge e.val with
      | none => s.ngePolled e.val
      | some (n, p, x) => if p.front then (s.ngePolled e.val).runFront e.val n p x else (s.ngePolled e.val).runTail e.val n p x) :=
  congrArg Host.Outcome.next (if_neg (by simp [hr]))

/-- A TAIL program whose map and record read writes one picture. -/
theorem State.runTail_good {e n a : Nat} {p : NgeProg} {x : Stream} {t : State}
    (h : s.readChecks clsNge (.engine e) [(p.slotAt p.done, p.needs), (p.recordAt p.done, 16)] = (.ok, a, t)) : s.runTail e n p x =
      let w := s.num (p.recordAt p.done) 16
      let r := p.runStages s.sfuGen 0 p.stages (s.landed p (p.slotAt p.done))
      let depth := (p.stages.getLast?.map (·.param)).getD 8
      let pic : Picture := ⟨p.done, bits w 63 0, bit (byteField w 8 1) 0, false, false, .ok, x.d.maxW, x.d.maxH, depth, 0, ngePack depth s.free r.2.1⟩
      let t1 := (t.withFree (s.free + 1)).ngeWrite (p.base + 8) (leBytes 8 (p.done + 1))
      (t1.setStream n { x with local' := x.local' ++ [pic] }).ngeDone e n p r.2.2 := by
  simp only [State.runTail, h]
  exact if_neg (not_not_intro rfl)

/-- Settles O56: a bind or unbind by the engine, its streams and its programs; a run by the program of highest priority. -/
theorem narrowGaugeCompletes : Obligations.NarrowGaugeCompletes := by
  refine ⟨fun s q e v hm => ⟨fun hr he hp => ⟨fun x hx hroom st stage u hu => ?_, fun hx => ⟨fun hb => ?_, fun hb => ?_⟩⟩,
    fun h hp x hx hb => ?_⟩, fun s e hr => ?_⟩
  · have bind := ngeBindWrite_bind rfl hp (ngeBindWord v 0 (by decide)) hr he hx hroom
    rw [hu] at bind
    exact next_regWrite_ok hm bind
  · exact next_regWrite_ok hm ((ngeBindWrite_unbind rfl hp (ngeBindWord v 1 (by decide)) hr he hx).trans
      (if_neg (by simp [Option.isSome_iff_ne_none.mp hb])))
  · exact next_regWrite_ok hm ((ngeBindWrite_unbind rfl hp (ngeBindWord v 1 (by decide)) hr he hx).trans
      (if_pos (by simpa using hb)))
  · exact next_regWrite_refused hm (ngeBindWrite_notReady rfl hp (ngeBindWord v 0 (by decide)) h hx hb)
  · intro s0
    have step := execNgePictureRun_ready (e := e) hr
    refine ⟨fun hn => ?_, fun n p x hn => ⟨fun hf => ?_, fun hf a t ht => ?_⟩⟩
    · have hn' : (s.ngePolled e.val).nextNge e.val = none := hn
      rw [hn'] at step
      exact step
    all_goals
      have hn' : (s.ngePolled e.val).nextNge e.val = some (n, p, x) := hn
      rw [hn'] at step
    · exact step.trans (congrArg Host.Outcome.next (if_pos hf))
    · exact step.trans (congrArg Host.Outcome.next ((if_neg (ne_true_of_eq_false hf)).trans (State.runTail_good ht)))

end Sys2Proof.Machine
end

