-- ==== Sys2Proof/Proofs/Starts.lean ====
section
/-! PROOFS. Starts, resets and the link clocks (O57); the firmware of the cores, the HBM test and the flash (O58). -/

namespace Sys2Proof.Machine
open Sys2Proof.Claims

variable {s : State}

/-! ### Starts and resets (O57) -/

theorem execPowerGoodRise_off {o : StartObs} (hp : s.boot.powerGood = false) (hh : s.boot.heldForFlash = false) :
    exec (.powerGoodRise o) s = .next (
      let s1 := s.takeProgrammed o.programmed
      let s2 := s1.withBoot { s1.boot with resetN := true, sdsclk := true, flashReleased := false }
      if s2.boot.flashEnN then s2.coldStart o else s2.withBoot { s2.boot with heldForFlash := true }) :=
  congrArg Host.Outcome.next (if_neg (by simp [hp, hh]))

/-- A write of BUP_RESET where it is let through. -/
theorem bupResetWrite_free {o : StartObs} {v : Word} (hb : s.burning = false) (hl : s.lifeCycle ≠ 4) :
    bupResetWrite o v s = if wget v 63 56 ≠ 0xa5 ∨ wget v 1 0 = 3 then (.verify, s) else (.ok, s.warmReset (wget v 1 0) o) := by
  by_cases h : wget v 63 56 ≠ 0xa5 ∨ wget v 1 0 = 3
  · have hv : (decide (wget v 63 56 ≠ 0xa5) || decide (wget v 1 0 = 3)) = true := by simpa using h
    rw [if_pos h]
    simp only [bupResetWrite, hb, hl, hv, decide_false, Bool.or_self]
    exact if_pos (by decide)
  · have hv : (decide (wget v 63 56 ≠ 0xa5) || decide (wget v 1 0 = 3)) = false := by simpa using h
    rw [if_neg h]
    simp only [bupResetWrite, hb, hl, hv, decide_false, Bool.or_self]
    exact if_neg (by decide)

/-- DENIED comes before VERIFY. -/
theorem bupResetWrite_denied {o : StartObs} {v : Word} (h : s.burning = true ∨ s.lifeCycle = 4) : bupResetWrite o v s = (.denied, s) := by
  have busy : (s.burning || decide (s.lifeCycle = 4)) = true := by simpa using h
  cases hv : (decide (wget v 63 56 ≠ 0xa5) || decide (wget v 1 0 = 3))
  all_goals
    simp only [bupResetWrite, busy, hv]
    exact if_pos (by decide)

/-- The fields of the word that BUP_RESET writes. -/
theorem bupResetWord (key : BitVec 8) (slot : BitVec 2) :
    wget (BitVec.ofNat 64 (key.toNat * 2 ^ 56 + slot.toNat)) 63 56 = key.toNat ∧
    wget (BitVec.ofNat 64 (key.toNat * 2 ^ 56 + slot.toNat)) 1 0 = slot.toNat := by
  have hk := key.isLt
  have hs := slot.isLt
  simp only [wget, bits, BitVec.toNat_ofNat, Nat.shiftRight_eq_div_pow]
  omega

theorem execLifecycleWarmReset_transition {o : StartObs} (h : s.sec.transition = true) : exec (.lifecycleWarmReset o) s =
    .next (if s.lifeCycle = 4 then (s.warmReset 0 o).scrapErase else s.warmReset 0 o) :=
  congrArg Host.Outcome.next (if_neg (by simp [h]))

/-- Settles O57: each pin and reset by the state that it meets. -/
theorem startsAndResetsComplete : Obligations.StartsAndResetsComplete := by
  intro s o
  refine ⟨fun hp hh => ⟨fun hf => ?_, fun hf => ?_⟩, ⟨fun h => congrArg Host.Outcome.next (if_pos (by simpa using h)),
    fun h => congrArg Host.Outcome.next (if_neg (by simp [h]))⟩, rfl, ⟨fun h => congrArg Host.Outcome.next (if_pos h),
      fun h => congrArg Host.Outcome.next (if_neg (ne_true_of_eq_false h))⟩,
    fun q key slot hm => ⟨fun h => next_regWrite_refused hm (bupResetWrite_denied h), fun hb hl => ?_⟩,
    fun hp ht => congrArg Host.Outcome.next (if_pos (by simp [hp, ht])), fun ht => ⟨fun h => ?_, fun h => ?_⟩,
    fun h => congrArg Host.Outcome.next (if_neg (by simp [h])), fun h => ?_⟩
  · exact (execPowerGoodRise_off hp hh).trans (congrArg Host.Outcome.next (if_pos hf))
  · exact (execPowerGoodRise_off hp hh).trans (congrArg Host.Outcome.next (if_neg (ne_true_of_eq_false hf)))
  · have write := bupResetWrite_free (o := o) (v := BitVec.ofNat 64 (key.toNat * 2 ^ 56 + slot.toNat)) hb hl
    obtain ⟨hk, hs⟩ := bupResetWord key slot
    rw [hk, hs] at write
    have asNat : (key.toNat ≠ 0xa5 ∨ slot.toNat = 3) ↔ (key ≠ 0xa5 ∨ slot = 3) := by
      simp only [ne_eq, ← BitVec.toNat_inj]
      rfl
    exact ⟨fun h1 h2 => next_regWrite_ok hm (write.trans (if_neg fun h => (asNat.mp h).elim (absurd h1) h2)),
      fun h => next_regWrite_refused hm (write.trans (if_pos (asNat.mpr h)))⟩
  · exact (execLifecycleWarmReset_transition ht).trans (congrArg Host.Outcome.next (if_pos h))
  · exact (execLifecycleWarmReset_transition ht).trans (congrArg Host.Outcome.next (if_neg h))
  · have back : exec .sdsclkReturn s = .next _ := congrArg Host.Outcome.next (if_neg (ne_true_of_eq_false h))
    exact ⟨fun hz => back.trans (congrArg Host.Outcome.next (if_pos hz)), fun hz => back.trans (congrArg Host.Outcome.next (if_neg hz))⟩

/-! ### Core firmware (O58) -/

section
variable {n : Fin 2048}

/-- Does a segment message pass the checks of R104? -/
def segmentBad (msg : List Byte) : Bool :=
  let w := leNat (msg.take 16)
  let seg := byteField w 2 1
  let cnt := byteField w 3 1
  let len := byteField w 4 4
  let data := (msg.drop 16).take len
  crc32c data ≠ byteField w 8 4 || decide (cnt < seg) || decide (63 < cnt) || len = 0 || decide (4096 < len)
    || (decide (seg < cnt) && decide (len < 4096)) || decide (data.length < len)

theorem execFwSegmentMessage_bad {msg : List Byte} (h : segmentBad msg = true) : exec (.fwSegmentMessage n msg) s = .next s :=
  congrArg Host.Outcome.next (if_pos (Bool.or_eq_true_iff.mpr (.inr h)))

theorem segmentBad_of_crc {msg : List Byte}
    (h : crc32c ((msg.drop 16).take (byteField (leNat (msg.take 16)) 4 4)) ≠ byteField (leNat (msg.take 16)) 8 4) : segmentBad msg = true := by
  simp [segmentBad, h]

variable (hl : s.fwLoading n.val = true)
include hl

theorem execFwSegmentMessage_good {msg : List Byte} (h : segmentBad msg = false) : exec (.fwSegmentMessage n msg) s = .next (
    let w := leNat (msg.take 16)
    s.setFw n.val { (s.core n.val).fw with segs := SMap.insert (s.core n.val).fw.segs (byteField w 2 1) ((msg.drop 16).take (byteField w 4 4)),
                                           imageId := byteField w 0 2, segCount := byteField w 3 1 }) := by
  have hbad : (!s.fwLoading n.val || segmentBad msg) = false := by simp [hl, h]
  exact congrArg Host.Outcome.next (if_neg (ne_true_of_eq_false hbad))

theorem execFwPullTimeout_pulled {seg : Fin 64} {id : Fin 65536} {missed : List Nat} (hp : (s.core n.val).fw.pulls ≠ 0)
    (hs : seg.val ∈ s.fwMissing n.val) : exec (.fwPullTimeout n seg id missed) s = .next (
      let r := (s.core n.val).fw.fail [seg.val]
      let s1 := s.setFw n.val r.2
      let s2 := if r.1 then s1.coreDefective n.val id.val missed else s1.pull n.val id.val [seg.val] missed
      (if s2.cores' < s.cores' then s2 else s2.judgeFw n.val id.val missed fwRounds).settleStart) :=
  congrArg Host.Outcome.next (if_neg (by simp [hl, hp, hs]))

end

/-! ### The HBM test (O58) -/

section
variable {o : HbmObs} (hp : s.fld Fld.BUP_STATUS_PHASE = phTesting) (ht : s.boot.hbmTested = false) (hb : 5 ∉ s.boot.badComponents)
include hp ht hb

/-- The stacks that the test leaves in service. -/
def State.showStacks (s : State) (o : HbmObs) : State :=
  let bad := s.fld Fld.BUP_HBM_READY_STACK_FAILED
  (((List.range 12).filter (fun st => !bit bad st)).foldl (fun a st =>
    (a.setFld (Fld.HBM_STACK_READY st) 1).setFld (Fld.HBM_STACK_NARROW_OK st) (b2n (!o.narrowBad.contains st))) s).setFld
      Fld.BUP_HBM_READY_STACK_READY (maskOf 12 (fun st => !bit bad st))

theorem execHbmTestDone_cold (hk : s.fld Fld.BUP_STATUS_START_KIND ≠ 1) (hc : s.coresSettled = true) : exec (.hbmTestDone o) s = .next (
    let s1 := s.withBoot { s.boot with hbmTested := true }
    let s3 := o.untrained.foldl (fun a st => a.failStack st)
      (o.retest.foldl (fun a loc => a.failStack (rowStack loc)) (o.rows.foldl (fun a x => a.rowFails x) s1))
    let s6 := (s3.showStacks o).wipe 0 hbmEnd
    (if s3.fld Fld.BUP_HBM_READY_STACK_FAILED = 0 then
      if (s6.setReady rdyHbm).boot.msTested then (s6.setReady rdyHbm).setFld Fld.BUP_STATUS_COLD_DONE 1 else s6.setReady rdyHbm
    else s6.setFld Fld.BUP_STATUS_FAULT Status.degraded.code).settleStart) := by
  change execHbmTestDone o s = _
  simp only [execHbmTestDone, hp, ht, hc, hk, ne_eq, not_true_eq_false, not_false_eq_true, decide_false, decide_true, Bool.not_true, Bool.and_false,
    Bool.or_false, Bool.false_or, Bool.true_and, if_true]
  exact congrArg Host.Outcome.next (if_neg (by simpa using hb))

theorem execHbmTestDone_warm (hk : s.fld Fld.BUP_STATUS_START_KIND = 1) : exec (.hbmTestDone o) s = .next (
    let s3 := o.untrained.foldl (fun a st => a.failStack st) (s.withBoot { s.boot with hbmTested := true })
    let s5 := s3.showStacks o
    (if s3.fld Fld.BUP_HBM_READY_STACK_FAILED = 0 then s5.setReady rdyHbm
      else s5.setFld Fld.BUP_STATUS_FAULT Status.degraded.code).settleStart) := by
  change execHbmTestDone o s = _
  simp only [execHbmTestDone, hp, ht, hk, ne_eq, not_true_eq_false, decide_false, Bool.false_and, Bool.or_false, Bool.false_or, Bool.false_eq_true, if_false]
  exact congrArg Host.Outcome.next (if_neg (by simpa using hb))

end

/-! ### The flash (O58) -/

theorem execDefectListWrite_due {n : Nat} {c : DefectCopy} (hc : s.boot.bestCopy = some (n, c)) (hp : s.boot.powerGood = true)
    (hd : s.boot.unwritten ≠ [] ∨ s.boot.dirty = true) : exec .defectListWrite s = .next (s.withBoot
      { s.boot.setCopy (1 - n) ⟨true, c.seq + 1, c.entries.map s.boot.current ++ s.boot.unwritten⟩ with
        defects := s.boot.defects ++ s.boot.unwritten, unwritten := [], dirty := false }) := by
  change execDefectListWrite s = _
  simp only [execDefectListWrite, hc]
  exact congrArg Host.Outcome.next (if_neg (by rcases hd with h | h <;> simp [hp, h]))

/-- The fields of the word that a flash command writes. -/
theorem flashWord_fields {op n a : Nat} (ho : op < 4) (hn : n < 1024) (ha : a < 2 ^ 28) :
    wget (flashWord op n (a * 4096)) 63 62 = op ∧ wget (flashWord op n (a * 4096)) 57 48 = n ∧ wget (flashWord op n (a * 4096)) 39 12 = a := by
  simp only [flashWord, wget, bits, BitVec.toNat_ofNat, Nat.shiftRight_eq_div_pow]
  omega

/-- Is a sector apart from the slots that the module booted from? -/
def State.sectorFree (s : State) (n : Nat) : Bool :=
  s.boot.bundle.all (fun b => !inBundleSlot b.slot n) && s.boot.image.all (fun im => !inStructSlot im.slot n)

theorem State.sectorFree_iff {n : Nat} : s.sectorFree n = true ↔ ((s.boot.bundle.map (fun b => inBundleSlot b.slot n)).getD false
    || (s.boot.image.map (fun im => inStructSlot im.slot n)).getD false) = false := by
  unfold State.sectorFree
  cases s.boot.bundle <;> cases s.boot.image <;> simp

/-- What a flash command's source says. -/
def State.flashSrc (s : State) (a : Nat) : Status :=
  if isHbm a || isMs a then (if memEnd a < a + sectorSize then .bounds else .when (!s.memReady a sectorSize) .notReady) else .unmapped

theorem State.flashSrc_hbm {a : Nat} (ha : isHbm a = true) (he : a + sectorSize ≤ hbmEnd) (hr : s.ready rdyHbm = true) : s.flashSrc a = .ok := by
  have hend : memEnd a = hbmEnd := if_pos ha
  simp only [State.flashSrc, ha, Bool.true_or, if_true, hend, if_neg (Nat.not_lt.mpr he), State.memReady, hr]
  rfl

section
variable {sig : SigVerdict} {v : Word} {op n a : Nat}

/-- A flash command that nothing refuses is accepted. -/
theorem flashCmdWrite_taken (ho : wget v 63 62 = op) (hn : wget v 57 48 = n) (ha : wget v 39 12 * 4096 = a) (hl : s.lifeCycle ≠ 4)
    (hc : s.boot.flashCmd = none) (hfree : op ≤ 1 → s.sectorFree n = true ∧ n < 0x380) (h2 : 2 ≤ op → op = 2 ∧ (n = 0x180 ∨ n = 0x280))
    (hsrc : op = 1 → s.flashSrc a = .ok) : flashCmdWrite sig v s =
      (.ok, (s.withBoot { s.boot with flashCmd := some ⟨op, n, a, sig⟩ }).setFld Fld.BUP_FLASH_STATUS_BUSY 1) := by
  have busy : (decide (s.lifeCycle = 4) || s.boot.flashCmd.isSome) = false := by simp [hl, hc]
  have place : (decide (op ≤ 1) && (((s.boot.bundle.map (fun b => inBundleSlot b.slot n)).getD false
      || (s.boot.image.map (fun im => inStructSlot im.slot n)).getD false) || decide (0x380 ≤ n))) = false := by
    by_cases h : op ≤ 1
    · rw [State.sectorFree_iff.mp (hfree h).1]
      simp [Nat.not_le.mpr (hfree h).2]
    · simp [h]
  have kind : (decide (op = 3) || (decide (op = 2) && decide (n ≠ 0x180) && decide (n ≠ 0x280))) = false := by
    by_cases h : op ≤ 1
    · have : op ≠ 3 ∧ op ≠ 2 := by omega
      simp [this]
    · obtain ⟨h, hn⟩ := h2 (by omega)
      rcases hn with hn | hn <;> simp [h, hn]
  have source : (if op = 1 then s.flashSrc a else .ok) = .ok := by
    split
    next h => exact hsrc h
    next => rfl
  simp only [State.flashSrc] at source
  simp only [flashCmdWrite, ho, hn, ha, busy, place, kind, source]
  exact if_neg (by decide)

end

section
variable {c : FlashCmd} (hc : s.boot.flashCmd = some c)
include hc

/-- The command in progress ends, nothing of the module's own standing before it. -/
theorem execFlashCommandComplete_due (hb : s.burning = false) (hu : s.boot.unwritten = []) (hd : s.boot.dirty = false) :
    exec .flashCommandComplete s = .next (
      let r : Status × State :=
        if c.op = 0 then (.ok, s.eraseSector c.sector)
        else if c.op = 1 then
          let rd := s.readMem 7 .module c.src sectorSize
          if rd.1 = .ok then (.ok, rd.2.2.writeSector c.sector rd.2.1) else (rd.1, rd.2.2)
        else ((s.verifySlot (if c.sector = 0x180 then 0 else 1) c.sig).1, s)
      (((((r.2.withBoot { r.2.boot with flashCmd := none }).setFld Fld.BUP_FLASH_STATUS_BUSY 0).setFld Fld.BUP_FLASH_STATUS_LAST_STATUS r.1.code).setFld
        Fld.BUP_FLASH_STATUS_LAST_OP c.op).setFld Fld.BUP_FLASH_STATUS_LAST_SECTOR c.sector)) := by
  have fin : exec .flashCommandComplete s = .next s.finishFlash := congrArg Host.Outcome.next (if_neg (by simp [hb, hu, hd]))
  rw [fin]
  simp only [State.finishFlash, hc]

end

/-- Settles O58: the firmware by its segments, the test by the path of the start, the flash by its command. -/
theorem firmwareAndFlashComplete : Obligations.FirmwareAndFlashComplete := by
  refine ⟨fun s n hl => ⟨fun msg => ⟨fun h => execFwSegmentMessage_bad (segmentBad_of_crc h), fun hcrc h1 h2 h3 h4 h5 h6 => ?_⟩,
      fun id missed => congrArg Host.Outcome.next (if_neg (by simp [hl])), fun seg id missed hp hs => ⟨fun hf hle => ?_, fun hf => ⟨fun hle => ?_, fun hlt => ?_⟩⟩⟩,
    fun s n c hc hp hd => execDefectListWrite_due hc hp hd, fun s o hp hk ht hb hc => ⟨fun hbad => ?_, fun hbad hm => ?_, fun hbad hm => ?_⟩,
    fun s o hp hk ht hb => ⟨fun hbad => ?_, fun hbad => ?_⟩, fun s hp hc => ?_, fun s q n hm hl hc => ⟨fun hf hn => ⟨?_, fun src h1 h2 h3 => ?_⟩, fun h sig => ?_⟩,
    fun s c hc hb hu hd => ⟨fun h => ?_, fun h l u hr => ?_, fun h => ?_⟩⟩
  · refine execFwSegmentMessage_good hl ?_
    have short : (decide (byteField (leNat (msg.take 16)) 2 1 < byteField (leNat (msg.take 16)) 3 1)
        && decide (byteField (leNat (msg.take 16)) 4 4 < 4096)) = false := by
      rw [Bool.and_eq_false_iff, decide_eq_false_iff_not, decide_eq_false_iff_not]
      by_cases hlt : byteField (leNat (msg.take 16)) 2 1 < byteField (leNat (msg.take 16)) 3 1
      · exact .inr (by rw [h5 hlt]; decide)
      · exact .inl hlt
    simp only [segmentBad, hcrc, h6, short, Bool.or_eq_false_iff, decide_eq_false_iff_not, ne_eq, not_true_eq_false, not_false_eq_true, true_and, and_true]
    omega
  · exact (execFwPullTimeout_pulled hl hp hs).trans (congrArg Host.Outcome.next (congrArg State.settleStart (by
      simp only [hf, Bool.false_eq_true, if_false]
      exact if_neg (Nat.not_lt.mpr hle))))
  · exact (execFwPullTimeout_pulled hl hp hs).trans (congrArg Host.Outcome.next (congrArg State.settleStart (by
      simp only [hf, if_true]
      exact if_neg (Nat.not_lt.mpr hle))))
  · exact (execFwPullTimeout_pulled hl hp hs).trans (congrArg Host.Outcome.next (congrArg State.settleStart (by
      simp only [hf, if_true]
      exact if_pos hlt)))
  · exact (execHbmTestDone_cold hp ht hb hk hc).trans (congrArg Host.Outcome.next (congrArg State.settleStart (if_neg hbad)))
  · exact (execHbmTestDone_cold hp ht hb hk hc).trans (congrArg Host.Outcome.next (congrArg State.settleStart
      ((if_pos hbad).trans (if_neg (ne_true_of_eq_false hm)))))
  · exact (execHbmTestDone_cold hp ht hb hk hc).trans (congrArg Host.Outcome.next (congrArg State.settleStart
      ((if_pos hbad).trans (if_pos hm))))
  · exact (execHbmTestDone_warm hp ht hb hk).trans (congrArg Host.Outcome.next (congrArg State.settleStart (if_neg hbad)))
  · exact (execHbmTestDone_warm hp ht hb hk).trans (congrArg Host.Outcome.next (congrArg State.settleStart (if_pos hbad)))
  · exact congrArg Host.Outcome.next (if_neg (by simp [hp, Option.isSome_iff_ne_none.mp hc]))
  · obtain ⟨ho, hn', ha⟩ := flashWord_fields (op := 0) (a := 0) (by decide) n.isLt (by decide)
    exact next_regWrite_ok hm (flashCmdWrite_taken ho hn' (by rw [ha]) hl hc (fun _ => ⟨hf, hn⟩) (by omega) (by omega))
  · obtain ⟨ho, hn', ha⟩ := flashWord_fields (op := 1) (by decide) n.isLt src.isLt
    exact next_regWrite_ok hm (flashCmdWrite_taken ho hn' (by rw [ha]) hl hc (fun _ => ⟨hf, hn⟩) (by omega) (fun _ => State.flashSrc_hbm h1 h2 h3))
  · obtain ⟨ho, hn', ha⟩ := flashWord_fields (op := 2) (a := 0) (by decide) n.isLt (by decide)
    exact next_regWrite_ok hm (flashCmdWrite_taken ho hn' (by rw [ha]) hl hc (by omega) (fun _ => ⟨rfl, h⟩) (by omega))
  · rw [execFlashCommandComplete_due hc hb hu hd]
    simp only [h, if_true]
  · rw [execFlashCommandComplete_due hc hb hu hd]
    simp only [h, hr, if_true]
    rfl
  · rw [execFlashCommandComplete_due hc hb hu hd]
    simp only [h, if_neg (show ¬ 2 = 0 by decide), if_neg (show ¬ 2 = 1 by decide)]

end Sys2Proof.Machine
end

