-- ==== Sys2Proof/Proofs/PowerAndSecurity.lean ====
section
/-! PROOFS. The governor, the coolant loop and the shelf (O59); the commands of the secure-boot root (O60). -/

namespace Sys2Proof.Machine
open Sys2Proof.Claims

variable {s : State}

/-! ### The governor (O59) -/

/-- A field reads as the low bits of what was put there. -/
theorem State.fld_setFld_mod (s : State) (f : Field) (x : Nat) (hs : s.regsOk = true) (hf : f.hi < 64) :
    (s.setFld f x).fld f = x % 2 ^ (f.hi + 1 - f.lo) := by
  rw [State.fld, State.reg_setFld_same s f x hs, wget_wput_same _ _ _ _ hf]

/-- The governor's registers after an update. -/
def State.showGovernor (s : State) (issue ballast burst bucketJ draw ready ceil : Nat) : State :=
  ((((((s.setFld Fld.PWR_STATUS_ISSUE issue).setFld Fld.PWR_STATUS_BALLAST ballast).setFld Fld.PWR_STATUS_BURST burst).setFld
    Fld.PWR_STATUS_BUCKET_J bucketJ).setFld Fld.PWR_DRAW_DRAW_W draw).setFld Fld.PWR_DRAW_READY_W ready).setFld Fld.PWR_DRAW_CEIL_W ceil

section
variable (issue ballast burst bucketJ draw ready ceil : Nat)

theorem State.showGovernor_keeps (s : State) : Keeps [.regs] s (s.showGovernor issue ballast burst bucketJ draw ready ceil) := by
  unfold State.showGovernor
  repeat refine Keeps.after (State.setFld_keeps _ _ _) rfl ?_
  exact Keeps.refl _ _

/-- What the governor shows, each in its own field. -/
theorem State.showGovernor_reads (hs : s.regsOk = true) :
    let t := s.showGovernor issue ballast burst bucketJ draw ready ceil
    t.fld Fld.PWR_DRAW_CEIL_W = ceil % 2 ^ 14 ∧ t.fld Fld.PWR_DRAW_DRAW_W = draw % 2 ^ 14
      ∧ t.fld Fld.PWR_STATUS_BUCKET_J = bucketJ % 2 ^ 15 ∧ t.fld Fld.PWR_STATUS_ISSUE = issue % 2 ^ 7 := by
  have ok1 := s.regsOk_setFld Fld.PWR_STATUS_ISSUE issue hs
  have ok2 := State.regsOk_setFld _ Fld.PWR_STATUS_BALLAST ballast ok1
  have ok3 := State.regsOk_setFld _ Fld.PWR_STATUS_BURST burst ok2
  have ok4 := State.regsOk_setFld _ Fld.PWR_STATUS_BUCKET_J bucketJ ok3
  have ok5 := State.regsOk_setFld _ Fld.PWR_DRAW_DRAW_W draw ok4
  have ok6 := State.regsOk_setFld _ Fld.PWR_DRAW_READY_W ready ok5
  refine ⟨State.fld_setFld_mod _ _ _ ok6 (by decide), ?_, ?_, ?_⟩
  · rw [State.showGovernor, State.fld_setFld_other _ _ _ _ ok6 (by decide) (by decide), State.fld_setFld_other _ _ _ _ ok5 (by decide) (by decide)]
    exact State.fld_setFld_mod _ _ _ ok4 (by decide)
  · rw [State.showGovernor, State.fld_setFld_ne _ _ (by decide), State.fld_setFld_ne _ _ (by decide), State.fld_setFld_ne _ _ (by decide)]
    exact State.fld_setFld_mod _ _ _ ok3 (by decide)
  · rw [State.showGovernor, State.fld_setFld_ne _ _ (by decide), State.fld_setFld_ne _ _ (by decide), State.fld_setFld_ne _ _ (by decide),
      State.fld_setFld_other _ _ _ _ ok3 (by decide) (by decide), State.fld_setFld_other _ _ _ _ ok2 (by decide) (by decide),
      State.fld_setFld_other _ _ _ _ ok1 (by decide) (by decide)]
    exact State.fld_setFld_mod _ _ _ hs (by decide)

end

section
variable (hr : s.ready rdyPower = true)
include hr

/-- An update: the bucket and the step, then what the governor shows. -/
theorem execGovernorUpdate_running (draw : Nat) (levels : List Nat) :
    let p := s.power
    let bucket := min (s.gov.bucket + p.susW - draw) (p.burstJ * 100000)
    let c := s.ceiling (burstOk p bucket draw)
    let s2 := (s.withGov { s.gov with bucket := bucket, unmetSince := s.sinceWhen s.gov.unmetSince (decide (c < nth 0 levels 0)) }).reStep
    ∃ issue ballast burst ready, exec (.governorUpdate draw levels) s =
        .next (s2.showGovernor issue ballast burst (bucket / 100000) draw ready c)
      ∧ (s2.thermal = 4 → issue = 0) ∧ (s2.thermal = 2 → issue = 48) ∧ (s2.thermal = 3 → issue = if s2.sched.run.isSome then 48 else 0) := by
  intro p bucket c s2
  refine ⟨_, _, _, _, congrArg Host.Outcome.next (if_neg (by simp [hr])), fun h => if_pos h, fun h => ?_, fun h => ?_⟩
  · exact (if_neg (show ¬ s2.thermal = 4 by omega)).trans ((if_neg (show ¬ s2.thermal = 3 by omega)).trans (if_pos h))
  · exact (if_neg (show ¬ s2.thermal = 4 by omega)).trans (if_pos h)

end

/-! ### The coolant loop and the shelf (O59) -/

/-- The governor once it has taken a reading of the plant. -/
def State.plantTaken (s : State) (o : PlantObs) : State :=
  let flow := match o.pulses with
    | none => s.gov.flow
    | some n => some (n * 600 / s.power.pulsesPerL)
  let s1 := s.withGov { s.gov with sampled := true, tIn := o.tIn, tOut := o.tOut, flow := flow, cdC := o.cdC, mdC := o.mdC }
  s1.withGov { s1.gov with flowLowSince := s1.sinceWhen s1.gov.flowLowSince s1.flowLow }

/-- A count of flow pulses is traced where a test feature owns the input. -/
def State.plantTraced (s : State) (o : PlantObs) : State :=
  match o.pulses with
  | none => s
  | some n => if s.altOwner 19 then s.trace 6 17 .ok 0 0 n else s

/-- The registers that show a reading of the plant. -/
def State.plantShown (s : State) (o : PlantObs) (flow : Option Nat) : State :=
  let shown := fun (r : Option Int) => (r.getD 0).toNat
  let s3 := ((s.setFld Fld.PWR_PLANT_T_IN (min 2047 (shown o.tIn))).setFld Fld.PWR_PLANT_T_OUT (min 2047 (shown o.tOut))).setFld
    Fld.PWR_PLANT_FLOW (min 8191 (flow.getD 0))
  let h := s3.hbmMax
  ((((s3.setFld Fld.PWR_TEMPS_CD_MAX_C o.cdC).setFld Fld.PWR_TEMPS_CD_MAX_ID o.cdId).setFld Fld.PWR_TEMPS_HBM_MAX_C
    h.1).setFld Fld.PWR_TEMPS_HBM_MAX_ID h.2).setFld Fld.PWR_TEMPS_OTHER_MAX_C o.otherC

theorem State.plantTraced_keeps (s : State) (o : PlantObs) : Keeps [.regs, .test] s (s.plantTraced o) := by
  unfold State.plantTraced
  split
  · exact Keeps.refl _ _
  · exact Keeps.ite (State.trace_keeps _ _ _ _ _ _ _) (Keeps.refl _ _)

theorem State.plantShown_keeps (s : State) (o : PlantObs) (flow : Option Nat) : Keeps [.regs] s (s.plantShown o flow) := by
  unfold State.plantShown
  repeat refine Keeps.after (State.setFld_keeps _ _ _) rfl ?_
  exact Keeps.refl _ _

theorem State.plantTaken_keeps (s : State) (o : PlantObs) : Keeps [.gov] s (s.plantTaken o) :=
  Keeps.after (State.withGov_keeps _ _) rfl (State.withGov_keeps _ _)

theorem execPlantSample_running (hr : s.ready rdyPower = true) (o : PlantObs) :
    ∃ flow, exec (.plantSample o) s = .next (((s.plantTaken o).plantTraced o).plantShown o flow).reStep :=
  ⟨_, congrArg Host.Outcome.next (if_neg (by simp [hr]))⟩

/-- What the shelf says where it can be read at all. -/
theorem State.readShelf_owned (hr : s.ready rdyPower = true) (ho : s.altOwner 17 = false) (r : Option ShelfRead) :
    s.readShelf r =
      let s1 := shelfReads.foldl (fun a c => a.emit (.pmbus false c [])) s
      match r with
      | none => s1
      | some x =>
        let hi := bits x.statusInput.toNat 7 4
        let s2 := s1.setFld Fld.PWR_STATUS_SHELF_STATUS (hi * 65536 + x.statusWord.toNat)
        let s3 := if s2.flag Fld.PWR_STATUS_SHELF_LOST then (s2.setFld Fld.PWR_STATUS_SHELF_LOST 0).emit (.pmbus true clearFaults []) else s2
        let zero := s3.sinceWhen s3.gov.battZeroSince (hi = 0)
        let batt := if hi ≠ 0 then true else s3.gov.battery && !s3.heldFor zero 1000000000
        (s3.withGov { s3.gov with shelfValid := s3.time.toNat, battery := batt, battZeroSince := zero }).showBattery :=
  if_neg (by simp [hr, ho])

/-- The loss of the shelf ends, where it was lost. -/
def State.shelfFound (s : State) : State :=
  if s.flag Fld.PWR_STATUS_SHELF_LOST then (s.setFld Fld.PWR_STATUS_SHELF_LOST 0).emit (.pmbus true clearFaults []) else s

theorem State.shelfFound_keeps (s : State) : Keeps [.regs, .out] s s.shelfFound := by
  unfold State.shelfFound
  refine Keeps.ite (Keeps.after (State.emit_keeps _ _) rfl (Keeps.after (State.setFld_keeps _ _ _) rfl (Keeps.refl _ _))) (Keeps.refl _ _)

theorem State.shelfFound_flag (hs : s.regsOk = true) : s.shelfFound.flag Fld.PWR_STATUS_SHELF_LOST = false := by
  unfold State.shelfFound
  split
  next h =>
    have zero : (s.setFld Fld.PWR_STATUS_SHELF_LOST 0).fld Fld.PWR_STATUS_SHELF_LOST = 0 :=
      State.fld_setFld_same s _ 0 hs (by decide) (by decide)
    rw [State.flag, State.fld_emit, zero]
    decide
  next h => simpa using h

/-- Whether the shelf is on battery is shown, and no other bit changes. -/
theorem State.showBattery_reads (hs : s.regsOk = true) :
    s.showBattery.flag Fld.PWR_STATUS_ON_BATTERY = s.onBattery ∧ s.showBattery.flag Fld.PWR_STATUS_SHELF_LOST = s.flag Fld.PWR_STATUS_SHELF_LOST := by
  have shown : s.showBattery.fld Fld.PWR_STATUS_ON_BATTERY = b2n s.onBattery :=
    State.fld_setFld_same s _ _ hs (by decide) (by cases s.onBattery <;> decide)
  have lost : s.showBattery.fld Fld.PWR_STATUS_SHELF_LOST = s.fld Fld.PWR_STATUS_SHELF_LOST :=
    State.fld_setFld_other s _ _ _ hs (by decide) (by decide)
  rw [State.flag, State.flag, State.flag, shown, lost]
  refine ⟨?_, rfl⟩
  cases s.onBattery <;> rfl

/-- The governor's registers once a valid answer of the shelf is shown. -/
def State.shelfShown (s : State) (x : ShelfRead) : State :=
  ((shelfReads.foldl (fun a c => a.emit (.pmbus false c [])) s).setFld Fld.PWR_STATUS_SHELF_STATUS
    (bits x.statusInput.toNat 7 4 * 65536 + x.statusWord.toNat)).shelfFound

theorem State.shelfShown_keeps (s : State) (x : ShelfRead) : Keeps [.regs, .out] s (s.shelfShown x) := by
  refine Keeps.after (State.shelfFound_keeps _) rfl (Keeps.after (State.setFld_keeps _ _ _) rfl ?_)
  exact Keeps.foldl (fun t _ h => Keeps.after (State.emit_keeps t _) rfl h) (Keeps.refl _ _)

/-- What the governor keeps of a valid answer of the shelf. -/
def State.shelfGov (s : State) (x : ShelfRead) : Governor :=
  let hi := bits x.statusInput.toNat 7 4
  let zero := s.sinceWhen s.gov.battZeroSince (hi = 0)
  { s.gov with shelfValid := s.time.toNat, battery := if hi ≠ 0 then true else s.gov.battery && !s.heldFor zero 1000000000, battZeroSince := zero }

theorem State.readShelf_some (hr : s.ready rdyPower = true) (ho : s.altOwner 17 = false) (x : ShelfRead) :
    s.readShelf (some x) = ((s.shelfShown x).withGov ((s.shelfShown x).shelfGov x)).showBattery := State.readShelf_owned hr ho (some x)

/-- What a new reading of the governor leaves, once the battery is shown. -/
theorem State.withGov_showBattery_reads (hs : s.regsOk = true) (g : Governor) : (s.withGov g).showBattery.gov = g
    ∧ (s.withGov g).showBattery.flag Fld.PWR_STATUS_SHELF_LOST = s.flag Fld.PWR_STATUS_SHELF_LOST
    ∧ (g.battery = true → (s.withGov g).showBattery.flag Fld.PWR_STATUS_ON_BATTERY = true) := by
  obtain ⟨shown, lost⟩ := State.showBattery_reads (s := s.withGov g) hs
  refine ⟨(State.setFld_keeps (s.withGov g) _ _).same .gov rfl, lost, fun hb => ?_⟩
  rw [shown, State.onBattery]
  exact Bool.or_eq_true_iff.mpr (.inl hb)

/-- A valid answer of the shelf ends a loss, and shows whether it is on battery. -/
theorem State.readShelf_valid (hs : s.regsOk = true) (hr : s.ready rdyPower = true) (ho : s.altOwner 17 = false) (x : ShelfRead) :
    (s.readShelf (some x)).gov.shelfValid = s.time.toNat ∧ (s.readShelf (some x)).flag Fld.PWR_STATUS_SHELF_LOST = false
      ∧ (bits x.statusInput.toNat 7 4 ≠ 0 → (s.readShelf (some x)).flag Fld.PWR_STATUS_ON_BATTERY = true) := by
  have keeps := s.shelfShown_keeps x
  have hs1 : ((shelfReads.foldl (fun a c => a.emit (.pmbus false c [])) s).setFld Fld.PWR_STATUS_SHELF_STATUS
      (bits x.statusInput.toNat 7 4 * 65536 + x.statusWord.toNat)).regsOk = true := State.regsOk_setFld _ _ _ hs
  obtain ⟨gov, lost, batt⟩ := State.withGov_showBattery_reads (keeps.regsOk hs) ((s.shelfShown x).shelfGov x)
  rw [State.readShelf_some hr ho]
  refine ⟨?_, lost.trans (State.shelfFound_flag hs1), fun h => batt (if_pos h)⟩
  have time : (s.shelfShown x).time = s.time := keeps.same .time rfl
  rw [gov, State.shelfGov, time]

/-- Settles O59: the update and the samples by what they read, the valve and the shelf by who owns them. -/
theorem governorCommandsComplete : Obligations.GovernorCommandsComplete := by
  intro s hs hr
  refine ⟨fun draw levels => ?_, fun vin => congrArg Host.Outcome.next (if_neg (by simp [hr])), fun o => ?_, fun ht ho => ?_, fun ht ho h => ?_,
    fun ht ho a b ha hb => ?_, fun ho r => ⟨congrArg Host.Outcome.next (if_pos (by simp [ho])), congrArg Host.Outcome.next (if_pos (by simp [ho]))⟩,
    fun ho x => ⟨?_, s.readShelf (some x), rfl, rfl, State.readShelf_valid hs hr ho x⟩, fun hl hv => ?_⟩
  · intro p bucket c s2
    obtain ⟨issue, ballast, burst, ready, step, h4, h2, h3⟩ := execGovernorUpdate_running hr draw levels
    have ok : s2.regsOk = true := (State.reStep_keeps _).regsOk hs
    obtain ⟨ceil, drawn, filled, level⟩ := State.showGovernor_reads issue ballast burst (bucket / 100000) draw ready c ok
    refine ⟨_, step, State.showGovernor_keeps _ _ _ _ _ _ _ _, ceil, drawn, filled, fun h => ?_, fun h => ?_, fun h => ?_⟩
    · exact level.trans (congrArg (· % 2 ^ 7) (h4 h))
    · exact level.trans (congrArg (· % 2 ^ 7) (h2 h))
    · refine level.trans ?_
      rw [h3 h]
      split <;> rfl
  · obtain ⟨flow, step⟩ := execPlantSample_running hr o
    have taken := s.plantTaken_keeps o
    have shown := Keeps.after (State.plantShown_keeps ((s.plantTaken o).plantTraced o) o flow) rfl ((s.plantTaken o).plantTraced_keeps o)
    have gov : (((s.plantTaken o).plantTraced o).plantShown o flow).gov = (s.plantTaken o).gov := shown.same .gov rfl
    refine ⟨_, step, ?_⟩
    rw [gov]
    refine ⟨rfl, rfl, rfl, rfl, rfl, fun n hn => ?_, Keeps.after shown rfl ?_⟩
    · simp only [State.plantTaken, hn]
      rfl
    · exact Keeps.after taken rfl (Keeps.refl _ _)
  · exact congrArg Host.Outcome.next ((if_neg (by simp [hr, ht])).trans (if_pos ho))
  · refine congrArg Host.Outcome.next ((if_neg (by simp [hr, ht])).trans ((if_neg (ne_true_of_eq_false ho)).trans ?_))
    rcases h with h | h
    · rw [h]
    · rw [h]
      cases s.gov.tIn <;> rfl
  · refine congrArg Host.Outcome.next ((if_neg (by simp [hr, ht])).trans ((if_neg (ne_true_of_eq_false ho)).trans ?_))
    rw [ha, hb]
  · have none := State.readShelf_owned hr ho none
    exact ⟨congrArg Host.Outcome.next none, congrArg Host.Outcome.next none⟩
  · exact congrArg Host.Outcome.next (if_neg (by simp [hr, hl, Nat.not_lt.mpr hv]))

/-! ### The secure-boot root (O60) -/

theorem secSubmitWrite_busy {v : Word} (h : s.sec.cmd.isSome = true ∨ s.sec.transition = true) : secSubmitWrite v s = (.denied, s) :=
  if_pos (by simpa using h)

/-- A record that reads and names an operation is taken. -/
theorem secSubmitWrite_taken {v : Word} {l : List Byte} {u : State} (hc : s.sec.cmd = none) (ht : s.sec.transition = false)
    (ha : s.secRange (wget v 39 6 * 64) secBytes = .ok) (hr : s.readMem 7 .module (wget v 39 6 * 64) secBytes = (.ok, l, u))
    (ho : secOps.contains (secOp (leNat l)) = true) : secSubmitWrite v s =
      (.ok, (u.withSec { s.sec with cmd := some ⟨wget v 39 6 * 64, secOp (leNat l)⟩ }).setFld Fld.SEC_STATE_BUSY 1) := by
  simp only [secSubmitWrite, ha, hr, if_true]
  exact (if_neg (by simp [hc, ht])).trans ((if_neg (not_not_intro rfl)).trans (if_pos ho))

section
variable {a op : Nat} (hc : s.sec.cmd = some ⟨a, op⟩)
include hc

/-- The command in progress runs at the row of its operation: its checks come before its effect. -/
theorem State.runSec_eq (sig : Bool) (f : Nat → State → Status × State) : s.runSec op sig f =
    let r := if s.secCheck (s.num a secBytes) sig = .ok then f (s.num a secBytes) s else (s.secCheck (s.num a secBytes) sig, s)
    r.2.secFinish a (s.num a secBytes) r.1 := by
  simp only [State.runSec, hc]
  exact if_neg (not_not_intro rfl)

theorem exec_runSec {i : Instr} {sig : Bool} {f : Nat → State → Status × State} (hi : exec i s = .next (s.runSec op sig f)) :
    (s.secCheck (s.num a secBytes) sig = .ok →
      (∀ u, f (s.num a secBytes) s = (.ok, u) → exec i s = .next (u.secFinish a (s.num a secBytes) .ok))
      ∧ (∀ st u, st ≠ .ok → f (s.num a secBytes) s = (st, u) → exec i s = .next (u.secFinish a (s.num a secBytes) st)))
    ∧ (s.secCheck (s.num a secBytes) sig ≠ .ok →
      exec i s = .next (s.secFinish a (s.num a secBytes) (s.secCheck (s.num a secBytes) sig))) := by
  have step := hi.trans (congrArg Host.Outcome.next (State.runSec_eq hc sig f))
  refine ⟨fun h => ⟨fun u hu => step.trans ?_, fun st u _ hu => step.trans ?_⟩, fun h => step.trans ?_⟩
  · simp only [if_pos h, hu]
  · simp only [if_pos h, hu]
  · simp only [if_neg h]

end

/-! ### Effects where every bit takes (O60) -/

theorem burnBits_full (old val : Nat) : burnBits old val val = (true, old ||| val) := by
  simp only [burnBits, Nat.and_self, decide_true]

theorem maskAt_nil (i val : Nat) : maskAt [] i val = val := rfl

theorem State.transit_full (s : State) (k i : Nat) : s.transit k [] i =
    (.ok, let u := s.setFuses { s.sec.fuses with lifeA := s.sec.fuses.lifeA ||| 2 ^ k, lifeB := s.sec.fuses.lifeB ||| 2 ^ k }
      u.withSec { u.sec with transition := true }) := by
  simp only [State.transit, State.burnLife, maskAt_nil, burnBits_full, Bool.not_true, Bool.false_eq_true, if_false, if_true]
  rfl

theorem provision_full (seedOk : Bool) (w : Nat) : provision [] seedOk w s =
    let f := s.sec.fuses
    let f1 := { f with serial := f.serial ||| byteField w 8 8, macBase := f.macBase ||| byteField w 80 6, mgmtVlan := f.mgmtVlan ||| byteField w 86 2 }
    if f.idSeed = 1 then (s.setFuses f1).transit 0 [] 3
    else if !seedOk then (.integrity, s.setFuses { f1 with idSeed := 2 }) else (s.setFuses { f1 with idSeed := 1 }).transit 0 [] 3 := by
  simp only [provision, maskAt_nil, burnBits_full, Bool.not_true, Bool.false_eq_true, if_false]

theorem keyProg_full (w : Nat) : keyProg [] w s =
    (.ok, s.setFuses { s.sec.fuses with ownerKeys := SMap.set 0 s.sec.fuses.ownerKeys (secSlot w) (byteField w 80 132) }) := by
  simp only [keyProg, maskAt_nil, burnBits_full, Nat.zero_or, if_true]

theorem keyRevoke_full (w : Nat) :
    keyRevoke [] w s = (.ok, s.setFuses { s.sec.fuses with ownerRevoke := s.sec.fuses.ownerRevoke ||| 2 ^ secSlot w }) := by
  simp only [keyRevoke, maskAt_nil, burnBits_full, if_true]

theorem fwRevoke_full (w : Nat) : fwRevoke [] w s = (.ok, s.setFuses { s.sec.fuses with fwRevoke := s.sec.fuses.fwRevoke ||| 2 ^ secSlot w }) := by
  simp only [fwRevoke, maskAt_nil, burnBits_full, if_true]

theorem svnCommit_full (w : Nat) : svnCommit [] w s = (.ok, s.setFuses { s.sec.fuses with
    svnMin := popCount ((2 ^ s.sec.fuses.svnMin - 1) ||| (2 ^ (s.boot.bundle.map (·.svn)).getD 0 - 1)) }) := by
  simp only [svnCommit, maskAt_nil, burnBits_full, if_true]

theorem certStore_read {w : Nat} {l : List Byte} {u : State} (h : s.readMem 7 .module (secAddr w) (secLen w) = (.ok, l, u)) : certStore w s =
    (.ok, let u1 := u.writeSector certSector l
      u1.withBoot { u1.boot with certLen := some (secLen w) }) := by
  simp only [certStore, h]
  exact if_neg (not_not_intro rfl)

theorem defectClear_copy {w n : Nat} {c : DefectCopy} (h : s.boot.bestCopy = some (n, c)) : defectClear w s =
    let first := bits (secArg w) 11 0
    let kept := c.entries.take first ++ c.entries.drop (first + (bits (secArg w) 27 16 + 1))
    (.ok, s.withBoot ((s.boot.setCopy (1 - n) ⟨true, c.seq + 1, kept⟩).setCopy n ⟨true, c.seq + 2, kept⟩)) := by
  simp only [defectClear, h]

/-- Settles O60: the submission by its record, each operation by its checks and its effect. -/
theorem securityCommandsComplete : Obligations.SecurityCommandsComplete := by
  refine ⟨fun s q v hm => ⟨fun h => next_regWrite_refused hm (secSubmitWrite_busy h), fun hc ht ha l u hr ho =>
      next_regWrite_ok hm (secSubmitWrite_taken hc ht ha hr ho)⟩, fun s sig seedOk masks a op hc => ?_,
    fun s w => ⟨fun k i => s.transit_full k i, fun seedOk => ⟨fun h => (provision_full seedOk w).trans (if_pos h),
        fun h hs => (provision_full seedOk w).trans ((if_neg h).trans (if_neg (by simp [hs])))⟩, keyProg_full w, keyRevoke_full w, fwRevoke_full w,
      svnCommit_full w, fun l u h => certStore_read h, fun n c h => defectClear_copy h⟩⟩
  intro w
  simp only [List.forall_mem_cons]
  refine ⟨fun h => ?_, fun h => ?_, fun h => ?_, fun h => ?_, fun h => ?_, fun h => ?_, fun h => ?_, fun h => ?_, fun h => ?_, fun h => ?_,
    fun h => ?_, fun h => ?_, fun h => ?_, by simp⟩
  all_goals subst h
  case refine_3 => exact exec_runSec hc (f := fun _ t => t.transit 1 masks 0) rfl
  case refine_4 => exact exec_runSec hc (f := fun _ t => (t.eraseSectors 384 (2 * structSectors)).transit 2 masks 0) rfl
  case refine_5 => exact exec_runSec hc (f := fun _ t => t.transit 3 masks 0) rfl
  case refine_10 => exact exec_runSec hc (f := fun w t => (.ok, t.withSec { t.sec with unlocked := t.sec.unlocked ||| secArg w })) rfl
  all_goals exact exec_runSec hc rfl

end Sys2Proof.Machine
end
